-- ==== Sys2Proof/Word.lean ====
section
/-! DEFINITION. The word types of the VRK6 model. -/

namespace Sys2Proof

/-- One byte. -/
abbrev Byte := BitVec 8

/-- A 64-B data token (R92). -/
abbrev DataTok := BitVec 512

/-- A vector register of a V tile: 4,096 bits (R156). -/
abbrev VReg := BitVec 4096

/-- A sparse table: pairs of a key and a value, keys strictly rising, no entry at the default. -/
abbrev Tab (β : Type) := List (Nat × β)

end Sys2Proof
end

