-- ==== Sys2Proof/Syntax.lean ====
section
/-! DEFINITION. The commands of the VRK6: one constructor per row of spec/opcode_table.json, with its operands.
A host command carries the header of Table 12.6 and its arguments of Table 12.9 in their widths; a step of a tile
names the site whose sequencer stands on it; an event carries what its source (a pin, a link, a sensor, another
module, the time base) brings. -/

namespace Sys2Proof

/-- A tile site: Hoop, column and row (R82). -/
structure Site where
  hoop : Fin 8
  col  : Fin 32
  row  : Fin 16
deriving DecidableEq, Repr

/-- The header of a command taken from a command ring (Table 12.6): the session's port and ring, the TXN flag and
id, the host's cookie, and whether any reserved bit of the slot is 1. -/
structure Hdr where
  port  : Fin 4
  ring  : Fin 8
  txn   : Bool
  txnId : BitVec 16
  tag   : BitVec 32
  rsv   : Bool
deriving DecidableEq, Repr

/-- What a background test or a scrub found in the words it read (R219, R222 to R225, R232). -/
inductive Finding where
  /-- every word read correctly -/
  | clean
  /-- this many words were corrected -/
  | corrected (n : Nat)
  /-- the aligned word at this physical address is uncorrectable -/
  | uncorrectable (pa : Nat)
  /-- a row of 1 KiB failed the march test -/
  | rowFailed (row : Nat)
deriving DecidableEq, Repr

/-- How a training or retraining of a link port ended (R470, R472). -/
inductive TrainResult where
  /-- trained at this many lanes, with the peer's module, port and RING, and the measured delay in ns -/
  | trained (lanes : Nat) (peerMod : BitVec 14) (peerPort : Nat) (peerRing : Nat) (delay : Nat)
  | failed
  /-- the lock that the port lost has not come back -/
  | noLock
deriving DecidableEq, Repr

/-- Why an UP port retrains (R472, Table 13.6). -/
inductive RetrainCause where
  | lossOfLock
  | replayRate
  | laneFailed
  | peerReset
deriving DecidableEq, Repr

/-- A message that another module sends over a link (R477). -/
inductive PeerMsg where
  /-- a knot request for a knot of this module: operation code, FILL value, KADDR, context, requester: bindings 0 to 7,
  the end-of-run checks as 8 to 11, and the Darning engine of the site's Hoop as 12 -/
  | knotReq (op : BitVec 3) (value : BitVec 24) (kaddr : BitVec 64) (ctx : Fin 16)
      (fromMod : BitVec 14) (site : Site) (binding : Fin 16)
  /-- the reply to a knot request of this module; `retry` is a RETRY (R271) -/
  | knotReply (site : Site) (binding : Fin 16) (value : BitVec 24) (retry : Bool)
  /-- a FILL, ARRIVE or DRAIN of this module has taken effect (R273) -/
  | knotAck (site : Site) (binding : Fin 16)
  /-- a request's check failed on the module that holds the knot: the fault for the requester (R277), and the knot word
  that an operation on it found (R550) -/
  | knotFault (ctx : Fin 16) (site : Site) (binding : Fin 16) (code : BitVec 8) (word : BitVec 64)
  /-- slots written into the ring of a receiver half of this module, before the tail advances -/
  | ringSlots (chan : BitVec 12) (slot : Nat) (slots : List DataTok)
  /-- the acknowledgement of ring slots that this module's sender half wrote (R28, R469) -/
  | ringAck (chan : BitVec 12)
  /-- the sender half's notification of its tail (R287) -/
  | chanTail (chan : BitVec 12) (tail : BitVec 32)
  /-- the receiver half's returned head (R288) -/
  | chanHead (chan : BitVec 12) (head : BitVec 32)
  /-- a copied 256-B unit for this module (R479) -/
  | copyUnit (ctx : Fin 16) (dest : BitVec 64) (bytes : List Byte) (fromMod : BitVec 14) (copyId : Nat)
  /-- the acknowledgement of a copied unit, or the fault code of its failed check (R480) -/
  | copyAck (copyId : Nat) (fault : BitVec 8)
  /-- a delta record written into this module's inbox ring (R368) -/
  | deltaRecord (ctx : Fin 16) (bytes : List Byte)
  /-- the acknowledgement of a delta record that this module sent (R28, R469) -/
  | recordAck (ctx : Fin 16) (fromMod : BitVec 14)
  /-- a replica asks this module for the current image of a block (R369) -/
  | resyncAsk (ctx : Fin 16) (block : BitVec 32) (fromMod : BitVec 14)
  /-- a list of digests for the DIGEST_COMPARE with this number: the peer's answer to this module's, or the peer's own list,
  which this module answers (R370) -/
  | digests (ctx : Fin 16) (fromMod : BitVec 14) (answer : Bool) (seq : BitVec 48) (list : List (BitVec 32 × BitVec 128))
  /-- a stitch beacon: the count of a boundary, STITCH_PERIOD, and the NCLK that remain until then (R302) -/
  | beacon (count : BitVec 64) (period : BitVec 25) (remaining : Nat)
  /-- a LOST notice for a message of this module (R473) -/
  | lost (ctx : Fin 16)
  /-- a message between two other modules that crosses this one: source and destination module, context, virtual
  channel, lane class B, and its contents (R461, R466 to R468) -/
  | transit (src dest : BitVec 14) (ctx : Fin 16) (vc : Fin 4) (cls : Bool) (bytes : List Byte)
deriving DecidableEq, Repr

/-- What a flit brings beside its numbers: whether its CRC holds (R457), how many of its symbols FEC has corrected (R456), the
messages that end in it, each with the sub-channel it uses (R468), and the credits it gives back, for each virtual
channel and sub-channel (R460). -/
structure FlitBody where
  crcOk     : Bool
  corrected : Nat
  messages  : List (Fin 2 × PeerMsg)
  credits   : List (Fin 4 × Fin 2 × Nat)
deriving DecidableEq, Repr

/-- The resets that a pin holds (R501, R537). -/
inductive ResetPin where
  | modRst
  | warmRst
deriving DecidableEq, Repr

/-- What starts a warm reset (Table 14.4). -/
inductive WarmCause where
  | pin
  | command (bootSrc : BitVec 2)
deriving DecidableEq, Repr

/-- What starts a Hoop's exit from Rest or Sleep (R505, R506). -/
inductive ExitCause where
  | commitEntry
  | loadRequest
  | outsideAccess
deriving DecidableEq, Repr

/-- What a PLDM monitoring request asks for (R452). -/
inductive Sensor where
  | hoopJunction (h : Fin 8)
  | hbmStack (s : Fin 8)
  | inputVoltage
  | inputCurrent
  | modulePower
  | auxRail
  | vbat
  | statusFlag (bit : Fin 10)
deriving DecidableEq, Repr

/-- The commands of the block, in the order of spec/opcode_table.json. -/
inductive Instr where
  -- host commands (Table 12.9)
  | deviceInfo (h : Hdr) (rbuf : BitVec 64) (len : BitVec 32)
  | openSession (h : Hdr) (gen oflags oldSession : BitVec 8)
  | closeSession (h : Hdr)
  | ctxCreate (h : Hdr) (ctx : BitVec 8) (param : BitVec 64)
  | ctxDestroy (h : Hdr) (ctx : BitVec 8)
  | memMap (h : Hdr) (ctx mflags : BitVec 8) (count : BitVec 32) (va pa : BitVec 64)
  | xlateResolve (h : Hdr) (ctx : BitVec 8) (faultId : BitVec 16)
  | prickLoad (h : Hdr) (ctx pflags : BitVec 8) (nsym : BitVec 16) (len : BitVec 32) (addr patch : BitVec 64)
  | prickUnload (h : Hdr) (ctx : BitVec 8) (motif : BitVec 16)
  | repeatWrite (h : Hdr) (hoop first count : BitVec 8) (buf : BitVec 64)
  | stitchSet (h : Hdr) (period : BitVec 32) (atCount : BitVec 64)
  | run (h : Hdr) (ctx : BitVec 8) (stitches : BitVec 32) (first : BitVec 64)
  | halt (h : Hdr) (ctx hflags : BitVec 8)
  | evictContext (h : Hdr) (ctx : BitVec 8)
  | evictionScan (ctx : Fin 16)
  | scanOut (h : Hdr) (ctx : BitVec 8)
  | scanIn (h : Hdr) (ctx : BitVec 8)
  | chanCreate (h : Hdr) (ctx cfl : BitVec 8) (chan : BitVec 16) (ringLog2 ringHoop ringTile : BitVec 8)
      (sender receiver : BitVec 32) (ringBase : BitVec 64) (peerMod peerChan : BitVec 16)
  | knotInit (h : Hdr) (ctx : BitVec 8) (count : BitVec 32) (kaddr word : BitVec 64)
  | sweepBegin (h : Hdr) (ctx : BitVec 8) (lrScale : BitVec 32) (step barrier : BitVec 64)
  | sweepCommit (h : Hdr) (ctx sf : BitVec 8)
  | sweepRollback (h : Hdr) (ctx sf : BitVec 8)
  | deltaConfigSet (h : Hdr) (ctx : BitVec 8) (param : BitVec 64)
  | deltaConfigAck (h : Hdr) (ctx ring : BitVec 8) (drHead : BitVec 32)
  | digestCompare (h : Hdr) (ctx : BitVec 8) (peer : BitVec 16) (count first : BitVec 32)
  | peerAnswerTimeout (seq : BitVec 48)
  | syncDump (h : Hdr) (ctx : BitVec 8) (len : BitVec 32) (pa : BitVec 64)
  | txnBegin (h : Hdr)
  | txnCommit (h : Hdr) (id : BitVec 16)
  | txnRollback (h : Hdr) (id : BitVec 16)
  | cfgGet (h : Hdr) (item : BitVec 16) (index : BitVec 32)
  | cfgSet (h : Hdr) (item : BitVec 16) (index : BitVec 32) (value : BitVec 64)
  | cfgPersist (h : Hdr)
  | journalRead (h : Hdr) (max : BitVec 16) (fromSeq : BitVec 48) (rbuf : BitVec 64)
  | fwUpdate (h : Hdr) (image : BitVec 8) (len : BitVec 32)
  | attest (h : Hdr) (len : BitVec 32) (rbuf : BitVec 64)
  | telemetry (h : Hdr) (scope ctx tf : BitVec 8) (len : BitVec 32) (rbuf : BitVec 64)
  | debugMode (h : Hdr) (on : BitVec 8)
  | resetWarm (h : Hdr) (target : BitVec 8)
  | resetContext (h : Hdr) (target : BitVec 8)
  | resetHoop (h : Hdr) (target : BitVec 8)
  | batch (h : Hdr) (bf : BitVec 8) (count : BitVec 16) (buf : BitVec 64)
  -- the host window and its ports
  | pmDoorbell (port : Fin 4) (value : BitVec 64)
  | commandRingTail (port : Fin 4) (ring : Fin 8) (tail : BitVec 32)
  | commandRingEnable (port : Fin 4) (ring : Fin 8) (word : BitVec 32)
  | commandRingDisable (port : Fin 4) (ring : Fin 8) (word : BitVec 32)
  | eventRingEnable (port : Fin 4) (word : BitVec 32)
  | registerWrite (port : Fin 4) (offset : BitVec 16) (wide : Bool) (value : BitVec 64)
  | cmdAccepted (seq : BitVec 48)
  | txnTimeout (id : BitVec 16)
  | pushWindowRead (port : Fin 4) (offset : BitVec 12) (wide : Bool)
  | pushWindowWrite (port : Fin 4) (offset : BitVec 12) (wide : Bool) (value : BitVec 64)
  | bspiWrite (addr : BitVec 16) (data : List Byte)
  | bspiRead (addr : BitVec 16) (count : Nat)
  | pspWrite (address : BitVec 16) (words : List (BitVec 16))
  | pspRead (address : BitVec 16) (count : Nat)
  | bar2Read (port : Fin 2) (addr : BitVec 40) (count : Nat)
  | bar2Write (port : Fin 2) (addr : BitVec 40) (data : List Byte)
  | recoveryDoorbell (port : Fin 4) (value : BitVec 64)
  | pldmRequestUpdate (image : BitVec 8) (data : List Byte)
  | pldmSensorRead (sensor : Sensor)
  | mgmtAddrApply
  -- the stitch
  | stitchBoundary
  | stitchSyncOutAssert (level : Bool)
  | stitchSyncInEdge (sinceLastNs : Nat) (offset : Nat)
  | stitchBeacon (port : Fin 12) (count : BitVec 64) (period : BitVec 25) (remaining : Nat)
  | stitchSyncLost
  | thermalEval (temps : List Int)
  | powerSample (watts : Nat)
  -- the scheduler
  | entryStart (hoop : Fin 8) (entry : Fin 128)
  | reconfStart (hoop : Fin 8) (entry : Fin 128)
  | sweepStart (hoop : Fin 8) (entry : Fin 128)
  | outAtReached (hoop : Fin 8) (entry : Fin 128)
  | deadline (hoop : Fin 8) (entry : Fin 128)
  | forcedStopComplete (hoop : Fin 8) (entry : Fin 128)
  | runComplete (hoop : Fin 8) (entry : Fin 128)
  | contextTeardown (ctx : Fin 16)
  -- tile steps common to every kind
  | nop (s : Site)
  | skipz (s : Site)
  -- M tiles
  | wload (s : Site)
  | wloadComplete (s : Site)
  | wskip (s : Site)
  | pass (s : Site)
  | passRow (s : Site)
  | drain (s : Site)
  | drainRow (s : Site)
  | mFence (s : Site)
  -- V tiles
  | vopArith (s : Site)
  | vopConv (s : Site)
  | vopTrans (s : Site)
  | vopLns (s : Site)
  | vopCmp (s : Site)
  | vopPred (s : Site)
  | vopRed (s : Site)
  | vopPerm (s : Site)
  | vopCmpx (s : Site)
  | vopInt (s : Site)
  | vopRand (s : Site)
  | chain (s : Site)
  | vld (s : Site)
  | vst (s : Site)
  | cload (s : Site)
  | cevict (s : Site)
  | qioIn (s : Site)
  | qioOut (s : Site)
  | xopSet (s : Site)
  | xopShlor (s : Site)
  | xopIter (s : Site)
  | xopAdd (s : Site)
  | flagrd (s : Site)
  | vFence (s : Site)
  -- A tiles
  | st (s : Site)
  | ld (s : Site)
  | aadd (s : Site)
  | aswap (s : Site)
  | winArm (s : Site)
  | winWait (s : Site)
  | aFence (s : Site)
  | windowToken (s : Site) (window : Fin 4)
  -- B tiles
  | sstart (s : Site)
  | swait (s : Site)
  | phaseCompute (s : Site)
  | phaseOut (s : Site)
  | bFence (s : Site)
  | phaseAdvance (hoop : Fin 8) (entry : Fin 128)
  -- circuits
  | tokenDeliver (s : Site) (port : Fin 4) (slot : Fin 4) (ctrl : Bool) (parityOk : Bool)
  | creditReturn (s : Site) (port : Fin 4) (ctrl : Bool)
  -- shuttles and gathering queues
  | shuttleSelect (s : Site)
  | shuttleMerge (s : Site)
  | shuttleFilter (s : Site)
  | shuttleRepeat (s : Site)
  | shuttleCounted (s : Site)
  | shuttleSpill (s : Site)
  | gatherContribution (s : Site) (queue : Fin 16)
  | gatherSlotForward (s : Site) (slot : Fin 1024)
  -- knots
  | knotRequest (s : Site) (binding : Fin 8)
  | knotFill (n : Nat)
  | knotTake (n : Nat)
  | knotPeek (n : Nat)
  | knotArrive (n : Nat)
  | knotDrain (n : Nat)
  | knotReply (n : Nat)
  | knotRetry (s : Site) (binding : Fin 8)
  -- channels, the loader and the copy service
  | channelSend (s : Site) (port : Fin 4)
  | channelNotify (chan : BitVec 12)
  | channelRecv (s : Site) (port : Fin 4)
  | headReturn (chan : BitVec 12)
  | loaderRequest (chan : BitVec 12)
  | copyRequest (chan : BitVec 12)
  | copyWrite (n : Nat)
  | copyDone (n : Nat)
  | cordonnetTransfer (n : Nat)
  -- streams and HBM
  | streamIssue (s : Site) (stream : Fin 1024)
  | streamReadData (s : Site) (stream : Fin 1024)
  | streamWriteAck (s : Site) (stream : Fin 1024)
  | mergeTimeout (s : Site) (n : Nat)
  | requestPromote (s : Site) (n : Nat)
  | tlbWalk (s : Site) (n : Nat)
  | peerTokenReceive (s : Site) (n : Nat)
  | peerTokenSend (s : Site) (out : Fin 4)
  | accumulateWrite (n : Nat)
  | directionWrite (n : Nat)
  | hbmPartialWrite (n : Nat)
  | serviceWrite (addr : BitVec 40) (data : List Byte)
  | hbmScrub (stack : Fin 8) (finding : Finding)
  | bistWindow (store : Fin 4) (hoop : Fin 8) (tile : BitVec 8) (finding : Finding)
  -- the sweep
  | darningOwnBlock (ctx : Fin 16) (hoop : Fin 8)
  | darningReplicaBlock (ctx : Fin 16) (hoop : Fin 8)
  | darningFrozenBlock (ctx : Fin 16) (hoop : Fin 8)
  | lambPass2 (ctx : Fin 16)
  | sweepRollbackRestore (ctx : Fin 16)
  | deltaRingWrite (ctx : Fin 16) (quarter : Fin 4)
  | deltaInboxReceive (ctx : Fin 16)
  | replicaResync (ctx : Fin 16) (block : BitVec 32) (peer : BitVec 14)
  -- the Bobbin port
  | bobbinPrefetch (hoop : Fin 8) (entry : Fin 128)
  | bobbinLoad (hoop : Fin 8)
  | loadCommit (hoop : Fin 8)
  -- links
  | linkTrain (port : Fin 14) (result : TrainResult)
  | linkRetrain (port : Fin 14) (cause : RetrainCause)
  | flitReceive (port : Fin 14) (intact : Bool) (seq ack : BitVec 16) (flit : FlitBody)
  | flitReplay (port : Fin 14) (fromSeq : BitVec 16)
  | linkDelayMeasure (port : Fin 14) (delay : Nat)
  | linkDiscard (n : Nat)
  | lostNotice (ctx : Fin 16)
  | hostLinkRetrain (hl : Fin 2)
  -- pins, resets and power
  | haltNFall
  | alertRelease
  | coldReset
  | warmReset (cause : WarmCause)
  | tamperNLow (ns : Nat)
  | vbatLow
  | auxRailLoss
  | dormantEnter
  | dormantExit
  | inputOvervoltage
  | thermtrip
  | hoopSleepEnter (hoop : Fin 8)
  | hoopExit (hoop : Fin 8) (cause : ExitCause)
  | hoopExitComplete (hoop : Fin 8)
  -- key provisioning and the TAP
  | keyprovStatus
  | keyprovFuseProgram (key : BitVec 256) (kchk : BitVec 32)
  | keyprovBbramWrite (key : BitVec 256) (kchk : BitVec 32)
  | keyprovBbramZeroise (key : BitVec 256) (kchk : BitVec 32)
  | keyprovRevokeKey (key : BitVec 256) (kchk : BitVec 32)
  | tapReset
  | idcode
  | samplePreload (boundary : List Bool)
  | extest
  | extestPulse
  | extestTrain
  | highz
  | clamp
  | bypass (ir : BitVec 8)
  | haltNRise
  | resetRelease (pin : ResetPin) (bootSrc : BitVec 2)
  | inputWithinLimits
  | chanRingReport (chan : BitVec 12) (ringLog2 : Nat)
  | chanFaulted (chan : BitVec 12)
  /-- `exchange`: whether the list answers this module's DIGEST_COMPARE, and the number of the DIGEST_COMPARE -/
  | digestExchange (ctx : Fin 16) (peer : BitVec 14) (exchange : Bool × BitVec 48)
      (digests : List (BitVec 32 × BitVec 128))
  | fwUpdateDone
  | fuseProgramDone
  | mctpEidAssign (eid : BitVec 8)
deriving DecidableEq, Repr

end Sys2Proof
end

