-- ==== Sys2Proof/Config.lean ====
section
/-! DEFINITION. What an implementation fixes and the spec leaves open: values without a body, so that no proof can
see what they are. `freeWord` and `freeTok` are applied to the counter that State holds (log entry 1). -/

namespace Sys2Proof.Config

/-- A free value of 64 bits, fresh for each value of the counter. -/
opaque freeWord : Nat → BitVec 64

/-- A free data token, fresh for each value of the counter. -/
opaque freeTok : Nat → BitVec 512

/-- Whether a unit's table gives the upper of the two neighbours that the spec's bound allows for an operand (R65, R70): the
unit (0 the product table of M tiles, 1 the Darning engines) and the operand. -/
opaque tableUp : Nat → Nat → Bool

/-- The KIND of the dump records that hold a tile's configuration, and of those that hold a column's record and Q_DISCARD: the
spec says that SYNC_DUMP shows them, and Table 08.15 has no kind for them (R234, R374, R401). -/
opaque tileKind : BitVec 16
opaque columnKind : BitVec 16

/-- Bytes of a transaction's shadow state that a staged change takes, by its kind: the spec limits their sum and gives no
sizes (R440). -/
opaque stagedBytes : Nat → BitVec 8

/-- The unique device identifier fused at manufacture (Table 14.7). -/
opaque deviceId : BitVec 128

/-- Whether a Falcon-1024 signature verifies under ROM key K[i] (R486, R487): key, signed bytes, signature. -/
opaque falconVerify : Nat → List Byte → List Byte → Bool

/-- The unique device secret fused at manufacture (Table 14.7, R496). -/
opaque uds : BitVec 256

/-- The alias public key that a UDS and the digest of an SF image give (R496): 1,793 bytes are reported. -/
opaque aliasKey : BitVec 256 → List Byte → List Byte

/-- The signature of these bytes by DevID, which the UDS alone gives (R496, R497): 1,280 bytes are reported. -/
opaque endorsement : BitVec 256 → List Byte → List Byte

/-- The signature of these bytes by the alias key of a UDS and an image digest (R497): 1,280 bytes are reported. -/
opaque reportSig : BitVec 256 → List Byte → List Byte → List Byte

/-- The first 16 bytes of a ring's slot in host memory, which the host writes without a command of the table: by the counter
of free values and the number of the last command taken (R416). -/
opaque hostSlot : Nat → Nat → BitVec 128

/-- The certificate chain of the identity area, issued at manufacture with the SECURE_PART fuse as an extension: that of a
768LS and that of a 768L differ (R1, R485, R496, R497). -/
opaque certChain : Bool → List Byte

end Sys2Proof.Config
end

