-- ==== Sys2Proof/Machine/State.lean ====
section
/-! DEFINITION. The state of the VRK6 as plain data, its reset value, and the reasons a step can stop. Every table
is sparse and canonical; the whole physical address space (Table 01.8) is one memory of bytes. -/

namespace Sys2Proof.Machine

/-- The cases of Table 15.5 that a command of this model can meet. -/
inductive UndefCase where
  /-- R50, R117, R174, R208: a reserved format code, or one that the unit does not take -/
  | format
  /-- R89: a reserved SRC, or a switch entry naming a direction without a link -/
  | switchEntry
  /-- R404: a circuit that still sends into a region committed since -/
  | oldCircuit
  /-- R96: credits above a queue's capacity, overlapping queues, a token for a disabled queue or the other kind -/
  | queueDesc
  /-- R100: a reserved FLOW, a TARGET above 1,023, flow past step 1,023 -/
  | flow
  /-- R122, R160, R203, R235: a reserved OPC -/
  | opcode
  /-- R111: SH_MODE 7 -/
  | shuttleMode
  /-- R126, R162, R208, R274, R283: a queue or output with two users -/
  | sharedQueue
  /-- R141, R149: pass or drain descriptor cases -/
  | passOrDrain
  /-- R159, R163: a V-tile access outside banks 0 to 3, a cache line above 511 -/
  | vAccess
  /-- R171, R174, R176, R181: queue, class, function, part or chain descriptor cases -/
  | vDescriptor
  /-- R208: A-tile operation cases -/
  | aOperation
  /-- R235, R248: a stream number at or above SD_COUNT, stream descriptor cases -/
  | streamDesc
  /-- R268, R272, R274: an invalid KADDR, binding or operation code -/
  | knotBinding
  /-- R267: a word of a sync region accessed other than by a knot operation -/
  | syncWord
  /-- R283, R284: a channel port whose channel is not OPEN for it, a first token that is no MSG -/
  | channelPort
  /-- R338: an accumulate write that does not cover whole aligned elements -/
  | accumulate
  /-- R478: a copy request with an invalid address or reserved field -/
  | copyRequest
  /-- R361: MEM_MAP changing a mapping under a Darning region during a sweep -/
  | mapUnderSweep
deriving DecidableEq, Repr

/-- Why a step stops with a fault: never. A case that Table 15.5 grades undefined goes on in a state of which R8 or R9
bounds what it may have changed (log entry 37), and a context fault is a next state (R325). -/
inductive Fault where
deriving DecidableEq, Repr

/-- Why a step is refused. -/
inductive Refusal where
  /-- Raised by an arm of exec whose command has no meaning yet. Safe. -/
  | notModelled (mnemonic : String)
deriving DecidableEq, Repr

/-- Context states (Table 09.7). -/
inductive CtxState where
  | free | idle | active | evicting | evicted | faulted
deriving DecidableEq, Repr

/-- Context fault codes (Table 15.1). -/
inductive FaultCode where
  | bound | xlate | eccUe | overrun | knotOvf | knotUdf | gatherCount | chanTooLong | lateGradient
  | steerMismatch | hazard | laneFlagTrap | halted | weightUe | queueParity | linkLost
deriving DecidableEq, Repr

/-- Mailbox statuses (Table 12.8). -/
inductive Status where
  | ok | accepted | badOpcode | badArg | noResource | badState | txnConflict | txnUnknown
  | unsupportedGen | authFail | restricted | timeout | memUe
deriving DecidableEq, Repr

/-- Load statuses (Table 11.10). -/
inductive PrickStatus where
  | ok | truncated | wrongDevice | auth | check | region | notQuiet | key | aborted
deriving DecidableEq, Repr

/-- The sweep state of DN_STAT (Table 10.3). -/
inductive SweepState where
  | none | opened | done | rollingBack
deriving DecidableEq, Repr

/-- Phases of a run (R252). -/
inductive Phase where
  | input | compute | output
deriving DecidableEq, Repr

/-- What the record of a fault names beside its item: of a BOUND the class (0 weights, 1 A tiles, 2 partial sums,
3 HBM, 4 a sync region), the offset and the length of the access (R215); of an uncorrectable word its address (R132:
that of the image, and the bad word of its block); of a stream also the stack, the stream and its coordinate (R263);
of a trapped flag the flags that the operation raised (R184). -/
inductive FaultDetail where
  | none
  | access (cls a len : Nat)
  | image (addr word : Nat)
  | word (pa : Nat)
  | stream (stack pa stream coord : Nat)
  | flags (fl : Nat)
deriving DecidableEq, Repr

/-- What a latched fault names (R510): the item, the step, the reason and load status of R309, the count of faults met
during the tear-down (R326), and the detail of its record. -/
structure Latched where
  code   : FaultCode
  hoop   : Nat
  col    : Nat
  row    : Nat
  step   : Nat
  reason : Nat
  load   : Nat
  extra  : Nat
  detail : FaultDetail
  /-- the tear-down of R325 has run -/
  done   : Bool
deriving DecidableEq, Repr

/-- Where a token lands: the tile and the queue; a dead end is a branch that no entry takes or forwards, where `other`
tells that the slot which it would go on in carries another source (R88, R90). -/
inductive Leaf where
  | queue (k q : Nat)
  | dead (other : Bool)
  | badSwitch (k : Nat)
deriving DecidableEq, Repr

/-- A token in a queue or on a circuit (R92): its value (a control token uses the low 32 bits), whether its parity
holds, the output port that sent it (for the return of its credit), for the hazard detector, what it orders, and on a
circuit that a commit has cut, the leaves that the token still goes to (R398). -/
structure Token where
  ctrl     : Bool
  val      : DataTok
  parityOk : Bool
  src      : Nat
  port     : Nat
  fid      : Nat
  vc       : Tab Nat
  route    : Option (List Leaf)
deriving DecidableEq, Repr

/-- A credit on its way back to the output that sent a token: how many of the circuit's branches have not returned
theirs yet (R91). -/
structure Credit where
  fid  : Nat
  src  : Nat
  port : Nat
  ctrl : Bool
  left : Nat
deriving DecidableEq, Repr

/-- A weight bank (R128, R130, R131). -/
inductive Bank where
  | invalid
  | loading
  /-- a block marked empty by WSKIP -/
  | empty
  /-- the image, its WFMT and SP24 -/
  | ready (image : List Byte) (fmt : Nat) (sp24 : Bool)
deriving DecidableEq, Repr

/-- The loader's operation in progress (R124, R128 to R130): bank, physical address, format, sparsity, the image as it
stood when the load began (R198), and whether it is a WSKIP, which marks the bank empty. An operation on the bank of
the running pass waits for that pass (R125). -/
structure LoadOp where
  bank : Nat
  addr : Nat
  fmt  : Nat
  sp24 : Bool
  old  : List Byte
  skip : Bool
deriving DecidableEq, Repr

/-- The pass in progress (R133 to R139): descriptor, iteration index, bank, next row, INIT or ACCUM, tokens taken
so far from the queues, the tokens of the row being gathered, whether a drain accepted earlier is in progress, the
flags its rows have raised, and the bits of its strips, read before the first row enters (R138). -/
structure PassOp where
  pd    : Nat
  i     : Nat
  bank  : Nat
  t     : Nat
  init  : Bool
  taken : Nat
  row   : List DataTok
  after : Bool
  flags : BitVec 6
  bits  : Option (List Bool)
deriving DecidableEq, Repr

/-- The drain in progress (R144 to R148): descriptor, iteration index, rows done, the tokens of rows that wait for
credits on its output, and whether a pass accepted earlier is in progress. -/
structure DrainOp where
  dd    : Nat
  i     : Nat
  u     : Nat
  toks  : List (Bool × DataTok)
  /-- converted rows of the present group of 24, not yet sent (R148): occupancy bit and tokens -/
  group : List (Bool × List DataTok)
  after : Bool
  flags : BitVec 6
deriving DecidableEq, Repr

/-- The M-tile units and status (Table 04.10). -/
structure MTile where
  bank0   : Bank
  bank1   : Bank
  loader  : Option LoadOp
  array   : Option PassOp
  drain   : Option DrainOp
  flags   : BitVec 6
  rows    : Nat
  skips   : Nat
  blkSkip : Nat
  drained : Nat
deriving DecidableEq, Repr

/-- A queue operation in progress (R170, R171): port descriptor, register and next token position. -/
structure QioOp where
  pt  : Nat
  reg : Nat
  j   : Nat
deriving DecidableEq, Repr

/-- The mover's operation in progress (R167, R193): CLOAD or CEVICT, memory descriptor, iteration index, lines moved. -/
structure MovOp where
  load : Bool
  md   : Nat
  i    : Nat
  n    : Nat
deriving DecidableEq, Repr

/-- The V-tile state of Tables 05.1 and 05.10. Predicate 0 is not held: it reads as all ones. -/
structure VTile where
  regs      : Tab VReg
  bias      : Tab (BitVec 64)
  preds     : Tab (BitVec 512)
  scalars   : Tab (BitVec 32)
  lineBias  : Tab (BitVec 64)
  /-- BIAS side words found uncorrectable (R218): register r as r, that of cache line k as 32 + k -/
  biasBad   : List Nat
  laneFlags : BitVec 768
  flags     : BitVec 6
  ops       : Nat
  lines     : Nat
  tokens    : Nat
  mover     : Option MovOp
  qin       : Option QioOp
  qout      : Option QioOp
  /-- tokens still missing from the strip in progress, per port descriptor -/
  inLeft    : Tab Nat
  /-- strips held for an output, oldest first: the occupancy bit and the tokens (R170) -/
  outStrips : Tab (List (Bool × List DataTok))
  /-- tokens of the strip that is being gathered for an output -/
  outPart   : Tab (List DataTok)
  /-- tokens waiting for credits on an output: control or data, and the value -/
  outToks   : Tab (List (Bool × DataTok))
deriving DecidableEq, Repr

/-- The operation of an A tile's engine (R203 to R206). -/
inductive AKind where
  | st | ld | aadd | aswap
deriving DecidableEq, Repr

/-- The engine operation in progress: kind, descriptor, queue, output, iteration index, next position, W64, and
tokens waiting for credits. -/
structure AOp where
  kind  : AKind
  ad    : Nat
  queue : Nat
  out   : Nat
  i     : Nat
  j     : Nat
  w64   : Bool
  toks  : List (Bool × DataTok)
deriving DecidableEq, Repr

/-- A stream window (R209): armed, tokens moved, and what its tile's program had observed when it was armed (R519). -/
structure Win where
  armed : Bool
  moved : Nat
  done  : Bool
  seen  : Tab Nat
deriving DecidableEq, Repr

/-- One leg of a shuttle transaction: tokens of a queue to an output (none: discarded); `keep` leaves the group in
its queue for a further copy (R109); `times` groups are still to move. -/
structure Leg where
  queue : Nat
  out   : Option Nat
  keep  : Bool
  times : Nat
deriving DecidableEq, Repr

/-- Shuttle state (Table 03.12, R105 to R111). -/
structure STile where
  cntCtrl  : Nat
  cntData  : Nat
  cntDrop  : Nat
  cntSpill : Nat
  badType  : Nat
  /-- groups that each output has carried in this run (R108) -/
  groups   : Tab Nat
  /-- the legs of the transaction in progress -/
  legs     : List Leg
  /-- tokens moved of the present leg -/
  moved    : Nat
  /-- a control token still to be forwarded ahead of the group, and its output (R549) -/
  fwd      : Option (Nat × DataTok)
  busy     : Bool
deriving DecidableEq, Repr

/-- A combining slot (R112): sixteen accumulators, the contribution count, and whether it is complete and waits to
be forwarded (R115). -/
structure GSlot where
  acc   : BitVec 512
  count : Nat
  full  : Bool
deriving DecidableEq, Repr

/-- Gathering-queue state (R113 to R116). -/
structure GTile where
  slots  : Tab GSlot
  /-- contribution tokens taken from each queue in this run (SEQ) -/
  taken  : Tab Nat
  /-- TAGGED: next slot and tokens left of the group, per data queue -/
  group  : Tab (Nat × Nat)
  cntFwd : Nat
deriving DecidableEq, Repr

/-- Stream states (R236). -/
inductive StreamState where
  | idle | started | issuing | parked | complete | cancelled
deriving DecidableEq, Repr

/-- A request of a stream on its way (R233, R244): what it accesses as XLATE_PARKED names it (0 or 1 elements, 2 index
entries, 3 mask words), the first of them and how many it covers, its context-relative and physical address, its
length, for a write its bytes, whether it waits in the merge buffer, its number, and that of the request it was merged
into (its own where it was not). -/
structure StreamReq where
  kind   : Nat
  first  : Nat
  count  : Nat
  ca     : Nat
  pa     : Nat
  len    : Nat
  isRead : Bool
  data   : List Byte
  merge  : Bool
  wid    : Nat
  grp    : Nat
deriving DecidableEq, Repr

/-- A resident stream of an engine. -/
structure Stream where
  st      : StreamState
  /-- started in the present run, and its place in the order of starting (R236) -/
  started : Nat
  /-- next element to request; DKIND PEER: tokens that the destination has accepted -/
  next    : Nat
  done    : Nat
  faultId : Nat
  reqs    : List StreamReq
  /-- bytes of elements in token format not yet packed into a token -/
  buf     : List Byte
  /-- tokens waiting for a credit: control or data, and the value -/
  out     : List (Bool × DataTok)
  /-- mask bits of the strips ahead that a MASK token has covered -/
  bits    : List Bool
  /-- mask bits read ahead of that token, and the first strip whose bit has not been read (R241) -/
  known   : List Bool
  maskAt  : Nat
  /-- index entries read ahead of use, and the coordinate of the first (R238) -/
  idx     : List Nat
  idxAt   : Nat
  flags   : BitVec 6
  /-- virtual address and access (0 ELEMENT_READ, 1 ELEMENT_WRITE, 2 INDEX, 3 MASK) whose walk the stream awaits -/
  waitVa  : Option (Nat × Nat)
  parkOnRestore : Bool
  /-- the fault id under which the stream parked last, which it does not get again (R259) -/
  formerId : Option Nat
deriving DecidableEq, Repr

/-- A walk in progress (R257): context, virtual address, and the streams that share it. -/
structure Walk where
  ctx     : Nat
  va      : Nat
  streams : List Nat
deriving DecidableEq, Repr

/-- A TLB entry (R257): context, first virtual address, page size, leaf. -/
structure TlbEntry where
  ctx  : Nat
  va   : Nat
  size : Nat
  pa   : Nat
  w    : Bool
deriving DecidableEq, Repr

/-- A knot binding (R271, R273): nothing in progress, a request sent, or a RETRY received. -/
inductive Binding where
  | ready
  | sent
  | retry
deriving DecidableEq, Repr

/-- A token held in a peer buffer (R247): output, context, value. -/
structure PeerTok where
  out : Nat
  ctx : Nat
  val : DataTok
deriving DecidableEq, Repr

/-- Border-tile state: streams, the engine's counters (Table 07.7), TLB, walks, peer buffer, phases fired, channel
ports' partial messages. -/
structure BTile where
  streams  : Tab Stream
  nextStart : Nat
  cntRd    : Nat
  cntWr    : Nat
  cntReq   : Nat
  cntMerged : Nat
  cntMiss  : Nat
  cntPark  : Nat
  cntCwait : Nat
  cntPwait : Nat
  cntDrop  : Nat
  tlb      : List TlbEntry
  walks    : List Walk
  peer     : List PeerTok
  fired    : Nat
  /-- SEND: slots of the message being gathered; RECV: slots of the message being
  delivered, per channel port; each with what its
  sender had observed -/
  ports    : Tab (List (DataTok × Tab Nat))
  /-- RECV: tokens of that message already sent -/
  portSent : Tab Nat
  /-- requests promoted to the declared class (R251) -/
  promoted : List Nat
deriving DecidableEq, Repr

/-- Sequencer state (R98 to R104). -/
structure Seq where
  /-- active in a run in progress -/
  on       : Bool
  ended    : Bool
  pc       : Nat
  lc       : Tab Nat
  waitIn   : Nat
  waitCred : Nat
  /-- why it waits now, as the SEQ record codes it (Table 08.17) -/
  wait     : Nat
  /-- the unit has accepted the current step, whose END waits for the condition of FENCE -/
  issued   : Bool
deriving DecidableEq, Repr

/-- One tile: its two configuration planes and program planes (R376), its queues, credits and sequencer, and the
state of its kind. -/
structure Tile where
  cfg    : Tab Byte
  prog   : Tab Byte
  shCfg  : Tab Byte
  shProg : Tab Byte
  queues : Tab (List Token)
  dcred  : Tab Nat
  ccred  : Tab Nat
  seq    : Seq
  m      : MTile
  v      : VTile
  a      : Option AOp
  wins   : Tab Win
  sh     : STile
  g      : GTile
  b      : BTile
  kb     : Tab Binding
  /-- the end-of-run checks of remote knots: 1 sent, 2 passed, else 256 + the code of the fault that it
  met + 65,536 × the knot word that it found (R280, R550) -/
  kchk   : Tab Nat
  /-- bits of MASK tokens taken and not yet used: per control queue, and per V-tile port descriptor p at 32 + p
  (R94, R170) -/
  masks  : Tab (List Bool)
  /-- the ordering known to the tile's program, and the epoch of its units (R518, R519) -/
  vc     : Tab Nat
  epoch  : Nat
deriving DecidableEq, Repr

/-- What asked for a Bobbin load (R394, R399). -/
inductive LoadOrigin where
  | entry (e : Nat)
  | apply
  | txn (id : Nat)
  | loader (done : BitVec 64) (now : Bool)
deriving DecidableEq, Repr

/-- A Bobbin load (R394 to R403). -/
structure Load where
  origin  : LoadOrigin
  ctx     : Nat
  motif   : Nat
  c0      : Nat
  c1      : Nat
  discard : Bool
  prefetched : Bool
  staged  : Bool
deriving DecidableEq, Repr

/-- How far a repeat-table entry has come in the present stitch. -/
inductive RunStage where
  | loading
  | running
  /-- force-stopped at DEADLINE, not yet released (R314) -/
  | stopped
  | sweeping
  | pausing
deriving DecidableEq, Repr

/-- An entry in progress on a Hoop. -/
structure RunSt where
  entry : Nat
  ctx   : Nat
  c0    : Nat
  c1    : Nat
  motif : Nat
  stage : RunStage
  phase : Phase
  split : Bool
  /-- OUT_AT has been reached (R312) -/
  outOk : Bool
deriving DecidableEq, Repr

/-- Hoop power (R505). -/
inductive HoopPower where
  | on
  | rest
  | sleep
  | exiting (fromSleep : Bool)
deriving DecidableEq, Repr

/-- A transfer held in a tap's receive buffer: context, tag, data, entries still to be served, and tokens that the
first of them has sent. -/
structure TapXfer where
  ctx     : Nat
  tag     : Nat
  data    : List Byte
  entries : List Nat
  sent    : Nat
deriving DecidableEq, Repr

/-- One Hoop. -/
structure Hoop where
  /-- the repeat table (Table 09.3) -/
  table   : Tab (BitVec 256)
  runs    : List RunSt
  /-- Bobbin port: the loads in the order in which the port takes them -/
  loads   : List Load
  /-- column motif records: context and motif (R401) -/
  motifs  : Tab (Nat × Nat)
  /-- Q_DISCARD (Table 11.3), keyed (column × 16 + row) × 16 + queue -/
  discard : Tab Nat
  power   : HoopPower
  /-- subscription entries of the tap (Table 08.12) and matching transfers since each took effect -/
  subs    : Tab (BitVec 128)
  subCnt  : Tab Nat
  tapRx   : Nat
  tapDrop : Nat
  tapStall : Nat
  tapBuf  : List TapXfer
  /-- outputs of tiles whose circuits reach columns that have been committed since under other settings: tile, output,
  first column of that commit (R404) -/
  stale   : List (Nat × Nat × Nat)
  /-- tokens on circuits, oldest first -/
  flight  : List Token
  credits : List Credit
  /-- service writes from outside that wait for the end of the Hoop's exit: address and data, oldest first (R506) -/
  held    : List (Nat × List Byte)
deriving DecidableEq, Repr

/-- Delta configuration of a context (Table 12.12, R366, R367). -/
structure Delta where
  enc    : Nat
  master : Bool
  drop   : Bool
  rings  : Tab (Nat × Nat)
  inbox  : Nat × Nat
  repl   : List (Nat × Nat)
  heads  : Tab (BitVec 32)
  tails  : Tab (BitVec 32)
  gaps   : Tab Nat
  /-- records waiting to be written, per quarter: KIND (a DATA record: + 256 × the Hoop of its engine + 4,096 × the flags of its
  block), block, bytes -/
  queue  : Tab (List (Nat × Nat × List Byte))
  inHead : Nat
  inTail : Nat
  /-- inbox records handed to engines: block and bytes -/
  ready  : List (Nat × List Byte)
  /-- channel messages that follow replica records, waiting for room: channel and message (R368) -/
  notes  : List (Nat × DataTok)
  /-- records that have reached this module and wait for room in the inbox ring, with the channel whose message will name
  one that this module itself sends -/
  arrived : List (List Byte × Option Nat)
  /-- records of the inbox ring handed over ahead of older ones: first slot as a count, and slots (R368) -/
  taken  : List (Nat × Nat)
  /-- blocks whose resynchronisation has been asked for (R369) -/
  asked  : List Nat
  /-- the owner's part of that: blocks whose next image is to go whole to a peer (R369) -/
  owed   : List (Nat × Nat)
deriving DecidableEq, Repr

/-- An open sweep of a context (R349 to R359). -/
structure Sweep where
  st      : SweepState
  step    : BitVec 64
  lr      : BitVec 32
  barrier : BitVec 64
  cur0    : Bool
  groups  : List Byte
  b1      : Tab (BitVec 32)
  b2      : Tab (BitVec 32)
  /-- blocks marked swept, logged blocks, blocks finished -/
  swept   : List Nat
  logged  : List Nat
  done    : List Nat
  /-- whether each Hoop's engine has seen the barrier full (1) -/
  started : Tab Nat
  lambPass2 : Bool
  pass1   : List Nat
  /-- squared norms of LAMB groups: w and q, per group -/
  normW   : Tab (BitVec 32)
  normQ   : Tab (BitVec 32)
  cause   : Nat
  restored : Nat
  recover : Bool
  /-- a rollback that entry to Dormant has interrupted (R507) -/
  cut     : Bool
deriving DecidableEq, Repr

/-- One context. -/
structure Ctx where
  st        : CtxState
  latched   : Option Latched
  srSeed    : BitVec 64
  trap      : BitVec 6
  flags     : BitVec 6
  relocWs   : Tab (BitVec 32)
  relocAs   : Tab (BitVec 32)
  relocPs   : Tab (BitVec 32)
  relocHbm  : BitVec 64
  syncAs    : Tab (BitVec 32)
  syncHbm   : BitVec 64
  /-- page tables in use, by number within the context's space (R428); table 0 is the level-1 table -/
  tables    : List Nat
  /-- Darning registers (Table 10.3), by the number that Table 12.13 gives them -/
  dn        : Tab (BitVec 64)
  dnStep    : BitVec 64
  cntBlocks : Nat
  cntDiscard : Nat
  cntDrop   : Nat
  cntInbox  : Nat
  delta     : Delta
  sweep     : Sweep
  /-- sweeps begun, by which an engine tells the reply to a PEEK of an earlier one (R351; the model's own) -/
  sweeps    : Nat
  /-- the pending RUN: STITCHES, the boundary at which it begins, and whether a transaction set it (R317) -/
  runPend   : Option (BitVec 32 × BitVec 64 × Bool)
  /-- the stitches left of the RUN count; none: no end -/
  runLeft   : Option Nat
  /-- a RUN count has ended and the runs of its last stitch are still to end -/
  ending    : Bool
  /-- scan images held: Hoop, first column, last column, motif, armed, POST_MORTEM, the tiles -/
  images    : List (Nat × Nat × Nat × Nat × Bool × Bool)
  scanned   : List (Nat × Tile)
  /-- the tiles of force-stopped regions as they stood, for the dump (R314, R325) -/
  captured  : List (Nat × Tile)
  /-- EVICTION_SCAN has scanned and the next boundary ends the eviction (R320) -/
  evictEnd  : Bool
deriving DecidableEq, Repr

/-- Channel states (R282). -/
inductive ChanState where
  | closed | opened | faulted
deriving DecidableEq, Repr

/-- A channel: which halves this module holds, and Table 08.11 for each. -/
structure Chan where
  st       : ChanState
  ctx      : Nat
  half     : Nat
  space    : Nat
  ringLog2 : Nat
  ringHoop : Nat
  ringTile : Nat
  ringBase : Nat
  sender   : BitVec 32
  receiver : BitVec 32
  peerMod  : Nat
  peerChan : Nat
  /-- the sender half knows the ring (R282) -/
  ringKnown : Bool
  tail     : BitVec 32
  head     : BitVec 32
  /-- the tail as the receiver half was notified; the head as it was returned to the sender half -/
  tailSeen : BitVec 32
  headSeen : BitVec 32
  sent     : Nat
  recv     : Nat
  stall    : Nat
  stallEv  : Nat
  empty    : Nat
  discard  : Nat
  /-- the message in hand has waited for ring space (R290) -/
  waited   : Bool
deriving DecidableEq, Repr

/-- A resident pricking (R389): its bytes in the row blocks, keyed (column × 16 + row) × 1024 + byte, and in the
program images, keyed (column × 16 + row) × 131072 + byte. -/
structure Pricking where
  ctx     : Nat
  motif   : Nat
  hoop    : Nat
  c0      : Nat
  c1      : Nat
  discard : Bool
  size    : Nat
  /-- its physical address in the store, which the spec leaves to the controller -/
  at_     : Nat
  cfg     : Tab Byte
  prog    : Tab Byte
deriving DecidableEq, Repr

/-- A setting that a transaction can stage (R441). -/
inductive Setting where
  | item (item index : Nat)
  | entry (hoop index : Nat)
  | period
  | motif (hoop col : Nat)
  | runCount (ctx : Nat)
  | sweepCommit (ctx : Nat)
deriving DecidableEq, Repr

/-- A staged change. -/
inductive Staged where
  | item (item index : Nat) (value : BitVec 64)
  | entry (hoop index : Nat) (value : BitVec 256)
  | period (value : Nat) (atCount : BitVec 64)
  | load (ctx motif hoop c0 c1 : Nat) (discard : Bool)
  | run (ctx : Nat) (stitches : BitVec 32) (first : BitVec 64)
  | sweepCommit (ctx : Nat)
deriving DecidableEq, Repr

/-- A transaction (R439 to R443): its session (none: orphaned), whether it is committing, the sequence number of its
TXN_COMMIT, its staged changes with the order of staging, the settings that others applied meanwhile. -/
structure Txn where
  id         : Nat
  session    : Option Nat
  owner      : Nat
  committing : Bool
  commitSeq  : Nat
  staged     : List Staged
  touched    : List Setting
  /-- a word of its shadow state, in controller SRAM, is uncorrectable (R513); no command makes one so -/
  shadowBad  : Bool
deriving DecidableEq, Repr

/-- A command-ring descriptor (Table 12.5) with the generation of the session open on it. -/
structure Ring where
  base   : BitVec 64
  en     : Bool
  loc    : Bool
  slot   : BitVec 2
  log2n  : BitVec 4
  opened : Bool
  gen    : Nat
  tail   : BitVec 32
  head   : BitVec 32
deriving DecidableEq, Repr

/-- An event-ring descriptor (Table 12.14), with the records lost since the last one that fitted. -/
structure EvRing where
  base  : BitVec 64
  en    : Bool
  loc   : Bool
  log2n : BitVec 5
  head  : BitVec 32
  tail  : BitVec 32
  lost  : Nat
  missed : Nat
deriving DecidableEq, Repr

/-- One port of the host window (Table 12.2): mailbox slots, rings, event ring, window areas and what the port's
last read returned. -/
structure Port where
  slots    : Tab Byte
  busy     : BitVec 4
  rings    : Tab Ring
  pushPage : BitVec 11
  ev       : EvRing
  ringArea : Tab Byte
  evArea   : Tab Byte
  /-- the bytes that the last read through this port returned, and whether it ended with Completer Abort -/
  out      : List Byte
  abort    : Bool
deriving DecidableEq, Repr

/-- Where a command came from. -/
inductive Origin where
  | ring (port ring : Nat)
  | pm (port slot : Nat)
  | batch (session port : Nat) (addr : Nat) (host : Bool)
  | mgmt
deriving DecidableEq, Repr

/-- A BATCH that waits for the status of one of its entries (R418, R437): whether it goes on after a failure, where its
slots lie, those still to run, how many have run, the first that failed, the number of the entry and its status. -/
structure BatchRun where
  cont   : Bool
  off    : Nat
  host   : Bool
  rest   : List (List Byte)
  ran    : Nat
  failed : Option (Nat × Status)
  entry  : Nat
  status : Option Status
deriving DecidableEq, Repr

/-- What a command without a final status waits for. -/
inductive WaitFor where
  | ctxCreate (ctx : Nat) (block : List Byte)
  | ctxDestroy (ctx : Nat)
  | resetCtx (ctx : Nat)
  | item (item index : Nat) (value : BitVec 64)
  | debug (on : Bool)
  | mapChange (ctx : Nat) (mflags : BitVec 8) (count : Nat) (va pa : Nat)
  | commit (txn : Nat)
  | evict (ctx : Nat)
  | sweepCommit (ctx : Nat)
  | sweepRollback (ctx : Nat)
  | digest (ctx peer first count : Nat)
  | fwUpdate (kind slot : Nat)
  /-- a batch with GROUP, whose transaction commits -/
  | batch (txn : Nat) (run : Nat)
  /-- a batch whose entry waits -/
  | batchRun (b : BatchRun)
deriving DecidableEq, Repr

/-- A command whose final status is not known yet (R418). -/
structure Wait where
  seq      : Nat
  origin   : Origin
  opcode   : Nat
  txnId    : BitVec 16
  tag      : BitVec 32
  accepted : Bool
  what     : WaitFor
deriving DecidableEq, Repr

/-- A journal entry (Table 12.15). -/
structure JEntry where
  seq     : Nat
  session : Nat
  opcode  : Nat
  txnId   : BitVec 16
  status  : Status
  final   : Bool
  batch   : Bool
  tag     : BitVec 32
  stitch  : BitVec 64
  result  : BitVec 64
deriving DecidableEq, Repr

/-- An event as it is raised (R447): ESEQ, CODE, CTX, STITCH_COUNT and payload bytes. -/
structure EventRec where
  eseq    : Nat
  code    : Nat
  ctx     : Nat
  stitch  : BitVec 64
  payload : List Byte
deriving DecidableEq, Repr

/-- A sticky fault log entry (Table 15.3). -/
structure LogEntry where
  kind   : Nat
  ctx    : Nat
  code   : Nat
  detail : Nat
  lseq   : Nat
  stitch : BitVec 64
  wher   : BitVec 64
  eseq   : Nat
deriving DecidableEq, Repr

/-- The journal, the event count, the boot events held for event rings, every event raised since reset (newest
first) and the sticky fault log (newest first). -/
structure Logs where
  seq     : Nat
  journal : List JEntry
  eseq    : Nat
  held    : List EventRec
  raised  : List EventRec
  lseq    : Nat
  faults  : List LogEntry
  wrapped : Bool
  /-- hazards found: context, word's address, agent X, agent Y, for the dump (R520) -/
  hazards : List (Nat × Nat × Nat × Nat)
  /-- failed end-of-run checks for the dump: context, tile, check, item, declared, found (R102, R550) -/
  checks  : List (Nat × Nat × Nat × Nat × Nat × Nat)
deriving DecidableEq, Repr

/-- Stitch lock (Table 09.2). -/
inductive Lock where
  | freeRunning | locked | lost
deriving DecidableEq, Repr

/-- The stitch: STITCH_CFG in force (Table 09.1), STITCH_COUNT, STITCH_STAT and what the follower knows of its
source (R300 to R304). -/
structure Stitch where
  cfg       : BitVec 64
  count     : BitVec 64
  lock      : Lock
  mismatch  : Bool
  duty      : Tab Nat
  /-- the period of the source as the last beacon or edge that did not match gave it; 0: none (R304) -/
  srcPeriod : Nat
  mismatches : Nat
  /-- the boundary that a beacon or edge has placed: the count it will have -/
  placed    : Option (BitVec 64)
  /-- the counts of the beacons taken since the follower last lost its source, whose later copies are dropped (R302) -/
  seen      : List (BitVec 64)
  syncOut   : Bool
deriving DecidableEq, Repr

/-- DEV_STATUS (Table 12.4), the running configuration items of the module and what boot decided. -/
structure Dev where
  ready       : Bool
  cfgDefaulted : Bool
  restricted  : Bool
  unqualified : Bool
  debug       : Bool
  thermal     : Bool
  bootSlot    : Bool
  jWrapped    : Bool
  romRecovery : Bool
  moduleId    : BitVec 14
  nextModuleId : Option (BitVec 14)
  options     : BitVec 64
  mgmtAddr    : BitVec 16
  nextMgmt    : Option (BitVec 16)
  eid         : BitVec 8
  samples     : List Nat
  overRun     : Nat
  temps       : List Int
  /-- slots of the running SF, SQ and LP images: 0 A, 1 B, 0xFF none -/
  sf          : Nat
  sq          : Nat
  lp          : Nat
  /-- a reset whose boot waits for a pin or for the input -/
  bootWait    : Bool
  /-- the cause of that reset, as BOOT_COMPLETE names it (Table 14.4) -/
  bootCause   : Nat
  /-- bytes staged in ROM recovery's buffer -/
  staging     : Tab Byte
  /-- management's last answer -/
  mgmtOut     : List Byte
  /-- a RESET with SCOPE WARM has completed and its warm reset is to begin (R433) -/
  warmAsked   : Bool
deriving DecidableEq, Repr

/-- Link port states (R472). -/
inductive LinkState where
  | disabled | down | training | up
deriving DecidableEq, Repr

/-- A message bound for another module: its context, the quarter it starts in, destination and content; for one that
crosses this module the sub-channel of its next hop (R468), else that of its first; whether it goes again after a
failed direction, ahead of later ones (R472); and for a beacon the port that it is for (R302). -/
structure OutMsg where
  ctx  : Nat
  quarter : Nat
  dest : Nat
  msg  : PeerMsg
  sub  : Nat
  again : Bool
  via  : Option Nat
deriving DecidableEq, Repr

/-- A flit that has been sent (R457, Table 13.3): its number, the number it acknowledges, where the first message that begins
in it lies in its payload, the messages that end in it, and the credits it returns. -/
structure Flit where
  seq     : BitVec 16
  ack     : BitVec 16
  first   : Option Nat
  msgs    : List OutMsg
  credits : Tab Nat
deriving DecidableEq, Repr

/-- A link port (Tables 13.5 and 13.7): LINK_CFG in force, state, peer, counters, flit numbers, the retry buffer of
flits not yet acknowledged, and the credits of R460. -/
structure Link where
  cfg      : BitVec 64
  st       : LinkState
  lanes    : Nat
  peerPort : Nat
  peerMod  : Nat
  delay    : Nat
  retrains : Nat
  sent     : Nat
  recv     : Nat
  corrected : Nat
  uncorr   : Nat
  replays  : Nat
  waits    : Tab Nat
  disc473  : Nat
  disc474  : Nat
  nextRecv : BitVec 16
  nextSend : BitVec 16
  /-- a replay has been asked of the peer -/
  asked    : Bool
  /-- flits sent and not acknowledged; a message that spans flits stands with its last one (R458) -/
  retry    : List Flit
  /-- payload bytes in use of the flit that is being filled; 0: none is -/
  fill     : Nat
  /-- flits sent whose credits have not come back, and flits received whose credits have not gone back, per
  2 × virtual channel + sub-channel (R460) -/
  used     : Tab Nat
  owed     : Tab Nat
  /-- turns left of the weighted round robin, per virtual channel (R461) -/
  turns    : Tab Nat
  /-- symbols corrected in the last 1 s (Table 13.6) -/
  ceRecent : Nat
deriving DecidableEq, Repr

/-- A knot request on its way to its knot (R275): operation, FILL value, KADDR, context, and the requester's module,
site and binding (none for the controller, an engine or a tap). -/
structure KnotReq where
  op      : Nat
  value   : BitVec 24
  kaddr   : BitVec 64
  ctx     : Nat
  pa      : Nat
  fromMod : Nat
  who     : Option (Nat × Nat)
  /-- what the request's agent has observed, for the hazard detector (R519) -/
  vc      : Tab Nat
deriving DecidableEq, Repr

/-- A reply on its way to a binding (R271, R273), with the knot port that sent it. -/
structure KnotRep where
  port    : Nat
  site    : Nat
  binding : Nat
  value   : BitVec 24
  retry   : Bool
  vc      : Tab Nat
deriving DecidableEq, Repr

/-- A waiter of a knot: operation, requester (module, site, binding), context. -/
structure Waiter where
  op      : Nat
  fromMod : Nat
  site    : Nat
  binding : Nat
  ctx     : Nat
deriving DecidableEq, Repr

/-- A copy in progress (R478 to R480). -/
structure Copy where
  ctx    : Nat
  src    : BitVec 64
  len    : Nat
  dest   : BitVec 64
  done   : Option (BitVec 64)
  arv    : Option (BitVec 64)
  port   : Nat
  at_    : Nat
  unacked : Nat
  id     : Nat
  running : Bool
  /-- what the requester had observed (R519) -/
  vc     : Tab Nat
deriving DecidableEq, Repr

/-- A copied unit that has arrived from another module (R479): context, destination, bytes, where its
acknowledgement goes, and the quarter of the port where it arrived. -/
structure CopyUnit where
  ctx     : Nat
  dest    : BitVec 64
  bytes   : List Byte
  fromMod : Nat
  copyId  : Nat
  quarter : Nat
deriving DecidableEq, Repr

/-- A write on its way to an HBM controller: a number, context, quarter whose page tables serve it, the tile that
wrote it (none: a service), context-relative and physical address, bytes, and whether it has been performed. A mask
write (R242) holds a bit position and a value. -/
structure HbmWrite where
  wid   : Nat
  ctx   : Nat
  quarter : Nat
  site  : Option Nat
  ca    : Nat
  pa    : Nat
  data  : List Byte
  done  : Bool
  mask  : Bool
deriving DecidableEq, Repr

/-- A cordonnet transfer that waits for the bus: sending Hoop (8: the controller), context, tag, 256 B. -/
structure Xfer where
  hoop : Nat
  ctx  : Nat
  tag  : Nat
  data : List Byte
deriving DecidableEq, Repr

/-- A token of a PEER stream on its way (R247): its number, source tile and stream, destination tile, output, context and
value. -/
structure PeerSend where
  wid    : Nat
  src    : Nat
  stream : Nat
  dst    : Nat
  out    : Nat
  ctx    : Nat
  val    : DataTok
deriving DecidableEq, Repr

/-- A write over a link that has not been acknowledged (R28, R469): its number, context, source tile (none: the
controller), destination module, and the channel whose slots it writes (none: a delta record). -/
structure FarWrite where
  wid  : Nat
  ctx  : Nat
  site : Option Nat
  dest : Nat
  chan : Option Nat
deriving DecidableEq, Repr

/-- A notification whose FENCE is not met (R28, R287): channel, tail, source tile (none: the controller), and the number
below which it waits for the source's writes. -/
structure Notice where
  chan  : Nat
  tail  : BitVec 32
  site  : Option Nat
  limit : Nat
deriving DecidableEq, Repr

/-- Messages between agents of the module and to other modules. -/
structure Net where
  reqs    : List KnotReq
  reps    : List KnotRep
  /-- waiters of each knot, oldest first, keyed by the knot's physical address -/
  waiters : Tab (List Waiter)
  copies  : List Copy
  nextCopy : Nat
  units   : List CopyUnit
  writes  : List HbmWrite
  nextWid : Nat
  peers   : List PeerSend
  xfers   : List Xfer
  /-- the tap whose transfer the cordonnet moved last (R31). Which tap the round robin begins with after a reset is left open:
  DESIGN CHOICE, tap 0, as after a turn of tap 7 (log entry 38) -/
  lastTap : Nat
  /-- messages waiting for a direction whose ports are not UP (R472, R473) -/
  waiting : List OutMsg
  /-- channel notifications (false) and returned heads (true) that have left their source, oldest first, by channel -/
  ctrls   : List (Bool × Nat × BitVec 32)
  /-- notifications in the order issued that have not left -/
  held    : List Notice
  far     : List FarWrite
  nextFid : Nat
  /-- what the writers of each knot (2 × address) and ring slot (2 × (65,536 × channel + slot) + 1) had observed (R519) -/
  clocks  : Tab (Tab Nat)
deriving DecidableEq, Repr

/-- A flash image slot: GENERATION and the image bytes (R486). -/
structure FwSlot where
  gen   : BitVec 32
  image : List Byte
deriving DecidableEq, Repr

/-- The persistent items of a configuration block (Table 12.17), and whether its check word holds. -/
structure PBlock where
  good      : Bool
  stitchCfg : BitVec 64
  options   : BitVec 64
  mgmtAddr  : BitVec 16
  moduleId  : BitVec 14
  linkCfg   : Tab (BitVec 64)
  repairs   : List (BitVec 64)
deriving DecidableEq, Repr

/-- Flash (Table 14.1). Slot k is kind k / 2 (SF, SQ, LP), slot A or B by k mod 2. -/
structure Flash where
  factory : PBlock
  block   : PBlock
  slots   : Tab FwSlot
  /-- the firmware update in progress: kind, slot -/
  writing : Option (Nat × Nat)
deriving DecidableEq, Repr

/-- Fuses, BBRAM and the key-provisioning register (R498 to R500). -/
structure Trust where
  bsk       : Option (BitVec 256)
  secure    : Bool
  debugOff  : Bool
  revoked   : BitVec 4
  bbram     : Option (BitVec 256)
  tamperSeen : Bool
  /-- the cause latched in BBRAM of a TAMPER still to be raised -/
  tamper    : Option Nat
  busy      : Bool
  result    : Nat
  pendKey   : Option (BitVec 256)
  capture   : BitVec 320
  uds       : BitVec 256
  udsLocked : Bool
  /-- what the last boot derived the alias key from and endorsed: the SF image that it started and FUSE_STATE then (R496) -/
  bootImage : List Byte
  bootFuses : BitVec 32
deriving DecidableEq, Repr

/-- Pins and supplies (Tables 16.5 and 16.8). An active-low pin is held as its level. -/
structure Pins where
  modRstN   : Bool
  warmRstN  : Bool
  haltN     : Bool
  alertN    : Bool
  thermtripN : Bool
  bootSrc   : BitVec 2
  aux       : Bool
  input     : Bool
  dormant   : Bool
  /-- why the module is Dormant: an overvoltage, rather than a fall (R535) -/
  overvolt  : Bool
  tripped   : Bool
  ir        : BitVec 8
  boundary  : List Bool
  /-- the boundary register drives the outputs; outputs are high-impedance; by the boundary-test commands -/
  drive     : Bool
  hiz       : Bool
  toggling  : Bool
  /-- the data register selected between TDI and TDO -/
  dr        : BitVec 320
deriving DecidableEq, Repr

/-- The MSI-X tables of the HA-2 adapters, keyed 64 × port + byte, and their pending bits, keyed 4 × port + vector
(R482, Table 13.9). -/
structure Ha2 where
  table   : Tab Byte
  pending : Tab Bool
deriving DecidableEq, Repr

/-- Background test, scrub and repair (R219 to R232). Unit keys are store × 4096 + Hoop × 256 + tile, or the stack
for HBM (store 4). -/
structure Maint where
  window  : Tab Nat
  corr    : Tab Nat
  recent  : Tab Nat
  spares  : Tab Nat
  repairs : List (BitVec 64)
deriving DecidableEq, Repr

/-- The state of the block. -/
structure State where
  /-- commands that wait, first in, first out (the model's own) -/
  pending : List Instr
  /-- every populated physical byte; an unlisted byte reads 0 (R228) -/
  mem     : List Host.Cell
  /-- uncorrectable aligned 8-B words, by physical address divided by 8 (R218, R220) -/
  bad     : List Nat
  /-- host memory behind each HL port, keyed port × 2^64 + address (R416, R483) -/
  host    : List Host.Cell
  /-- MSI-X vectors that the HA-2 of an HL port has signalled (port, vector), the latest first (R483) -/
  vectors : List (Nat × Nat)
  ha2     : Ha2
  tiles   : Tab Tile
  /-- partial-sum rows whose ZERO bit is set, keyed by the row's physical address / 256 (R142) -/
  zeros   : Tab Bool
  /-- words of ZERO bits found uncorrectable (R212, R218): of 64 rows each, by physical address / 16,384 -/
  zeroBad : List Nat
  hoops   : Tab Hoop
  ctxs    : Tab Ctx
  chans   : Tab Chan
  pricks  : List Pricking
  txns    : List Txn
  ports   : Tab Port
  waits   : List Wait
  logs    : Logs
  stitch  : Stitch
  dev     : Dev
  links   : Tab Link
  net     : Net
  flash   : Flash
  trust   : Trust
  pins    : Pins
  maint   : Maint
  /-- hazard tags of A-tile words: last writer, its epoch, last reader, its epoch (R518) -/
  tags    : Tab (Nat × Nat × Nat × Nat)
  /-- the counter that the free values of Config are applied to (the model's own) -/
  free    : Nat
deriving DecidableEq, Repr

/-! ## Reset values -/

/-- The M-tile units with nothing in progress (R131, Table 04.10). -/
def MTile.reset : MTile := ⟨.invalid, .invalid, none, none, none, 0, 0, 0, 0, 0⟩

/-- The V tile as START leaves it (R157). -/
def VTile.reset : VTile := ⟨[], [], [], [], [], [], 0, 0, 0, 0, 0, none, none, none, [], [], [], []⟩

/-- The shuttle at START (Table 03.12). -/
def STile.reset : STile := ⟨0, 0, 0, 0, 0, [], [], 0, none, false⟩

/-- An empty combining slot (R112). -/
def GSlot.reset : GSlot := ⟨0, 0, false⟩

/-- The gathering queue at START (Table 03.15). -/
def GTile.reset : GTile := ⟨[], [], [], 0⟩

/-- A stream at START: IDLE with zero coordinates (R236). -/
def Stream.reset : Stream := ⟨.idle, 0, 0, 0, 0, [], [], [], [], [], 0, [], 0, 0, none, false, none⟩

/-- The border tile with nothing started (R236, Table 07.7). -/
def BTile.reset : BTile := ⟨[], 1, 0, 0, 0, 0, 0, 0, 0, 0, 0, [], [], [], 0, [], [], []⟩

/-- A sequencer that is not in a run. -/
def Seq.reset : Seq := ⟨false, false, 0, [], 0, 0, 0, false⟩

/-- A window that is not armed (R209). -/
def Win.reset : Win := ⟨false, 0, false, []⟩

/-- A tile whose planes hold zeros, the reset value of every field (R376). -/
def Tile.reset : Tile :=
  { cfg := [], prog := [], shCfg := [], shProg := [], queues := [], dcred := [], ccred := [], seq := Seq.reset
    m := MTile.reset, v := VTile.reset, a := none, wins := [], sh := STile.reset, g := GTile.reset
    b := BTile.reset, kb := [], kchk := [], masks := [], vc := [], epoch := 0 }

/-- A Hoop with an empty repeat table, no subscriptions and nothing on its circuits (R305). -/
def Hoop.reset : Hoop :=
  { table := [], runs := [], loads := [], motifs := [], discard := [], power := .on, subs := [], subCnt := []
    tapRx := 0, tapDrop := 0, tapStall := 0, tapBuf := [], stale := [], flight := [], credits := [], held := [] }

/-- No delta configuration (R335, Table 10.10). -/
def Delta.reset : Delta := ⟨0, false, false, [], (0, 0), [], [], [], [], [], 0, 0, [], [], [], [], [], []⟩

/-- No sweep (R349). -/
def Sweep.reset : Sweep :=
  { st := .none, step := 0, lr := 0, barrier := 0, cur0 := false, groups := [], b1 := [], b2 := [], swept := []
    logged := [], done := [], started := [], lambPass2 := false, pass1 := [], normW := [], normQ := []
    cause := 0, restored := 0, recover := false, cut := false }

/-- A FREE context with every register 0 (Table 09.7, R327). -/
def Ctx.reset : Ctx :=
  { st := .free, latched := none, srSeed := 0, trap := 0, flags := 0, relocWs := [], relocAs := [], relocPs := []
    relocHbm := 0, syncAs := [], syncHbm := 0, tables := [], dn := [], dnStep := 0, cntBlocks := 0
    cntDiscard := 0, cntDrop := 0, cntInbox := 0, delta := Delta.reset, sweep := Sweep.reset, sweeps := 0, runPend := none
    runLeft := some 0, ending := false, images := [], scanned := [], captured := [], evictEnd := false }

/-- A CLOSED channel (R282). -/
def Chan.reset : Chan :=
  { st := .closed, ctx := 0, half := 0, space := 0, ringLog2 := 0, ringHoop := 0, ringTile := 0, ringBase := 0
    sender := 0, receiver := 0, peerMod := 0, peerChan := 0, ringKnown := false, tail := 0, head := 0
    tailSeen := 0, headSeen := 0, sent := 0, recv := 0, stall := 0, stallEv := 0, empty := 0, discard := 0
    waited := false }

/-- A ring descriptor at reset (Table 12.5). -/
def Ring.reset : Ring := ⟨0, false, false, 0, 0, false, 0, 0, 0⟩

/-- An event-ring descriptor at reset (Table 12.14). -/
def EvRing.reset : EvRing := ⟨0, false, false, 0, 0, 0, 0, 0⟩

/-- A port of the host window at reset (Tables 12.2 to 12.5). -/
def Port.reset : Port := ⟨[], 0, [], 0, EvRing.reset, [], [], [], false⟩

/-- The factory value of STITCH_CFG (Table 09.1): period 900,000 NCLK, FREE, no master, MODULE, T_DUTY 100. -/
def factoryStitchCfg : BitVec 64 := 900000#64 + (100#64 <<< 32)

/-- The factory value of LINK_CFG of a port (Tables 13.1 and 13.5): EN, FEC, ROLE, RING 1, RATE 1, ALLOW4. -/
def factoryLinkCfg (port : Nat) : BitVec 64 :=
  let role := [1, 3, 5, 2, 4, 6, 2, 4, 6, 1, 3, 5, 7, 7].getD port 0
  BitVec.ofNat 64 (1 + (if port < 12 then 0 else 2) + 4 * role + 32 * 1 + 4096 + 8192)

/-- The factory block (Table 12.17): its persistent items at their factory values. -/
def PBlock.factory : PBlock :=
  { good := true, stitchCfg := factoryStitchCfg, options := 0, mgmtAddr := 0, moduleId := 0
    linkCfg := (List.range 14).map fun p => (p, factoryLinkCfg p), repairs := [] }

/-- A link port at reset: its LINK_CFG, DOWN until it trains (R470). -/
def Link.reset (cfg : BitVec 64) : Link :=
  { cfg := cfg, st := if cfg.getLsbD 0 then .down else .disabled, lanes := 0, peerPort := 0, peerMod := 0, delay := 0
    retrains := 0, sent := 0, recv := 0, corrected := 0, uncorr := 0, replays := 0, waits := [], disc473 := 0
    disc474 := 0, nextRecv := 0, nextSend := 0, asked := false, retry := [], fill := 0, used := [], owed := [], turns := [], ceRecent := 0 }

/-- The journal and logs after a cold reset (R444, R447, R511). -/
def Logs.reset : Logs := ⟨0, [], 0, [], [], 0, [], false, [], []⟩

/-- The stitch after a cold reset: persistent STITCH_CFG, count 0, free running (R297, Table 09.2). -/
def Stitch.reset : Stitch :=
  ⟨factoryStitchCfg, 0, .freeRunning, false, [], 0, 0, none, [], false⟩

/-- The device as a completed cold boot of slot A leaves it: READY, nothing restricted (R501, Table 14.10). -/
def Dev.reset : Dev :=
  { ready := true, cfgDefaulted := false, restricted := false, unqualified := false, debug := false
    thermal := false, bootSlot := false, jWrapped := false, romRecovery := false, moduleId := 0
    nextModuleId := none, options := 0, mgmtAddr := 0, nextMgmt := none, eid := 0, samples := []
    overRun := 0, temps := [], sf := 0, sq := 0, lp := 0, bootWait := false, bootCause := 0, staging := []
    mgmtOut := [], warmAsked := false }

/-- Nothing on its way. -/
def Net.reset : Net :=
  { reqs := [], reps := [], waiters := [], copies := [], nextCopy := 0, units := [], writes := [], nextWid := 0, peers := []
    xfers := [], lastTap := 7, waiting := [], ctrls := [], held := [], far := [], nextFid := 0, clocks := [] }

/-- An empty slot (R486). -/
def FwSlot.reset : FwSlot := ⟨0, []⟩

/-- An image that the running firmware of this kind was read from (Table 14.2): KIND, key K0, HDR_VER 1, VERSION 0, IF_VER 0
accepting IF_VER 0, STEP_MASK B0, no body, and 1,280 bytes of signature. -/
def manufactureImage (kind : Byte) : List Byte :=
  [0x4D, 0x49, 0x57, 0x46, kind, 0, 1, 0] ++ List.replicate 20 0 ++ [1, 0, 0, 0] ++ List.replicate 1312 0

/-- Flash as it leaves manufacture in this model: the factory block in both places, one image of each kind in slot A. -/
def Flash.reset : Flash :=
  ⟨PBlock.factory, PBlock.factory,
    [(0, ⟨1, manufactureImage 0⟩), (2, ⟨1, manufactureImage 1⟩), (4, ⟨1, manufactureImage 2⟩)], none⟩

/-- Fuses and BBRAM as a module ships (R1, Tables 00.1 and 14.7): a VRK6-768LS holds a key in its bit-stream fuses, with
SECURE_PART and DEBUG_DISABLE blown; a VRK6-768L has none of these. -/
def Trust.shipped (factoryKey : Option (BitVec 256)) : Trust :=
  { bsk := factoryKey, secure := factoryKey.isSome, debugOff := factoryKey.isSome, revoked := 0, bbram := none
    tamperSeen := false, tamper := none, busy := false, result := 0, pendKey := none, capture := 0, uds := Config.uds
    udsLocked := true, bootImage := manufactureImage 0, bootFuses := if factoryKey.isSome then 7 else 0 }

/-- Those of an unprovisioned VRK6-768L. -/
def Trust.reset : Trust := Trust.shipped none

/-- Every pin at its inactive level, both supplies within limits (Tables 16.5 and 16.8); the TAP selects IDCODE. -/
def Pins.reset : Pins :=
  { modRstN := true, warmRstN := true, haltN := true, alertN := true, thermtripN := true, bootSrc := 0
    aux := true, input := true, dormant := false, overvolt := false, tripped := false, ir := 1, boundary := []
    drive := false, hiz := false, toggling := false, dr := 0x1564B0F3#320 }

/-- Every vector masked and nothing pending, as PCI Express has it (PRESUMED, log entry 13). -/
def Ha2.reset : Ha2 := ⟨(List.range 6).map fun i => (64 * (i / 3) + 16 * (i % 3) + 12, 1), []⟩

/-- No repairs and no corrections. -/
def Maint.reset : Maint := ⟨[], [], [], [], []⟩

/-- The module right after a cold reset, READY (R297, R501, Table 14.11). -/
def State.reset : State :=
  { pending := [], mem := [], bad := [], host := [], vectors := [], ha2 := Ha2.reset, tiles := [], zeros := [], zeroBad := [], hoops := [], ctxs := [], chans := []
    pricks := [], txns := [], ports := [], waits := [], logs := Logs.reset, stitch := Stitch.reset
    dev := Dev.reset, links := (List.range 14).map fun p => (p, Link.reset (factoryLinkCfg p)), net := Net.reset
    flash := Flash.reset, trust := Trust.reset, pins := Pins.reset, maint := Maint.reset, tags := [], free := 0 }

/-- The same of a VRK6-768LS, with the key that its factory fused (R1). -/
def State.resetLS (factoryKey : BitVec 256) : State := { State.reset with trust := Trust.shipped (some factoryKey) }

end Sys2Proof.Machine
end

