-- ==== Sys2Proof/Machine/Bits.lean ====
section
/-! DEFINITION. Bit fields, little-endian bytes (R58) and the operations on sparse tables. -/

namespace Sys2Proof.Machine

/-- Bits [lo + w - 1 : lo] of x. -/
def fld (x lo w : Nat) : Nat := (x >>> lo) % 2 ^ w

/-- x with bits [lo + w - 1 : lo] replaced by v. -/
def setFld (x lo w v : Nat) : Nat := x - (fld x lo w <<< lo) + ((v % 2 ^ w) <<< lo)

/-- Bit k of x. -/
def bitAt (x k : Nat) : Bool := x.testBit k

/-- The number that little-endian bytes spell (R58). -/
def leNat : List Byte → Nat
  | [] => 0
  | b :: bs => b.toNat + 256 * leNat bs

/-- The n low bytes of x, little-endian (R58). -/
def toLE : Nat → Nat → List Byte
  | 0, _ => []
  | n + 1, x => BitVec.ofNat 8 x :: toLE n (x / 256)

/-- The w-bit two's-complement number that x spells. -/
def signed (w x : Nat) : Int := if x < 2 ^ (w - 1) then x else (x : Int) - 2 ^ w

/-- The w-bit two's-complement code of an integer. -/
def ofInt (w : Nat) (x : Int) : Nat := (x % (2 ^ w : Int)).toNat

/-- A counter of w bits that saturates. -/
def satAdd (w x n : Nat) : Nat := min (x + n) (2 ^ w - 1)

/-- The entry of a sparse table at key k; the default where none is listed. -/
def Tab.get {β : Type} (d : β) : Tab β → Nat → β
  | [], _ => d
  | (j, v) :: m, k => if k = j then v else Tab.get d m k

/-- The table without key k. -/
def Tab.erase {β : Type} : Tab β → Nat → Tab β
  | [], _ => []
  | (j, v) :: m, k => if k = j then Tab.erase m k else (j, v) :: Tab.erase m k

/-- The table with an entry put in its place. -/
def Tab.insert {β : Type} : Tab β → Nat → β → Tab β
  | [], k, v => [(k, v)]
  | (j, w) :: m, k, v => if k < j then (k, v) :: (j, w) :: m else (j, w) :: Tab.insert m k v

/-- The sparse table with key k set to v; writing the default removes the entry. -/
def Tab.set {β : Type} [DecidableEq β] (d : β) (m : Tab β) (k : Nat) (v : β) : Tab β :=
  if v = d then Tab.erase m k else Tab.insert (Tab.erase m k) k v

/-- The canonical form: keys strictly rising from `lo`, no entry at the default. -/
def Tab.wfFrom {β : Type} [DecidableEq β] (d : β) : Nat → Tab β → Bool
  | _, [] => true
  | lo, (j, v) :: m => decide (lo ≤ j) && decide (v ≠ d) && Tab.wfFrom d (j + 1) m

/-- The canonical form of a sparse table. -/
def Tab.wf {β : Type} [DecidableEq β] (d : β) (m : Tab β) : Bool := Tab.wfFrom d 0 m

/-- n consecutive bytes of a memory from address a. -/
def bytesAt (m : Tab Byte) : Nat → Nat → List Byte
  | _, 0 => []
  | a, n + 1 => Tab.get 0 m a :: bytesAt m (a + 1) n

/-- A memory with consecutive bytes written from address a. -/
def putBytes (m : Tab Byte) : Nat → List Byte → Tab Byte
  | _, [] => m
  | a, b :: bs => putBytes (Tab.set 0 m a b) (a + 1) bs

/-- The little-endian number of n bytes at address a. -/
def numAt (m : Tab Byte) (a n : Nat) : Nat := leNat (bytesAt m a n)

/-- The canonical form of a memory (the default byte is 0). -/
abbrev Memory.wf (m : List Host.Cell) : Bool := Tab.wf (0 : Byte) m

/-- The bytes of a data token, element 0 first. -/
def tokBytes (t : DataTok) : List Byte := toLE 64 t.toNat

/-- The data token that bytes spell; missing bytes are 0. -/
def tokOf (bs : List Byte) : DataTok := BitVec.ofNat 512 (leNat (bs.take 64))

/-- Bytes cut into tokens of 64 B, the last completed with zero bytes. -/
def toksOf (bs : List Byte) : List DataTok :=
  (List.range ((bs.length + 63) / 64)).map fun k => tokOf (bs.drop (64 * k))

/-- A list filled up with zero bytes, or cut, to n bytes. -/
def padTo (n : Nat) (bs : List Byte) : List Byte := (bs ++ List.replicate (n - bs.length) 0).take n

/-- A list with position k replaced by f of it. -/
def updAt {α : Type} (f : α → α) : Nat → List α → List α
  | _, [] => []
  | 0, x :: xs => f x :: xs
  | k + 1, x :: xs => x :: updAt f k xs

/-- A list without its first element that satisfies p. -/
def eraseFirst {α : Type} (p : α → Bool) : List α → List α
  | [] => []
  | x :: xs => if p x then xs else x :: eraseFirst p xs

/-- The position of the first element that satisfies p. -/
def findIdx {α : Type} (p : α → Bool) : List α → Option Nat
  | [] => none
  | x :: xs => if p x then some 0 else (findIdx p xs).map (· + 1)

/-- ceil (a / b). -/
def ceilDiv (a b : Nat) : Nat := (a + b - 1) / b

/-- The number of a site in a table of tiles: Hoop, column, row. -/
def siteNo (s : Site) : Nat := s.hoop.val * 512 + s.col.val * 16 + s.row.val

/-- The Hoop, column and row of a site number. -/
def noHoop (t : Nat) : Nat := t / 512

def noCol (t : Nat) : Nat := t / 16 % 32

def noRow (t : Nat) : Nat := t % 16

end Sys2Proof.Machine
end

