-- ==== Sys2Proof/Machine/Flags.lean ====
section
/-! DEFINITION. Number formats, rounding, conversions and arithmetic with their flags (spec/02_numbers.md and the
operand-case tables of spec/04_matrix.md and spec/05_vector.md). A number is held exactly; only a rounding to a
format makes flags. Where the spec bounds a result and fixes no value, a free value is kept within the bound. -/

namespace Sys2Proof.Machine

/-- The six arithmetic flags (Table 02.5) as a mask. -/
abbrev Flags := Nat

def fInvalid : Flags := 1
def fDivzero : Flags := 2
def fOverflow : Flags := 4
def fUnderflow : Flags := 8
def fInexact : Flags := 16
def fLogsat : Flags := 32

/-- A rounding mode with the random value that SR draws (R60, R61). -/
structure Rnd where
  mode : Nat
  rand : Nat

/-- A decoded number: zero, m × 2^e with m > 0, a magnitude 2^(l / 2^40) of an LNS code, infinity, NaN. -/
inductive Val where
  | zero (neg : Bool)
  | fin (neg : Bool) (m : Nat) (e : Int)
  | lns (neg : Bool) (l : Int)
  | inf (neg : Bool)
  | nan (signalling : Bool)
deriving DecidableEq, Repr

/-- A linear floating-point format (Table 02.2). -/
structure LinFmt where
  frac : Nat
  bias : Nat
  /-- code of the largest finite magnitude, of the canonical NaN, and of infinity where there is one -/
  maxCode : Nat
  nanCode : Nat
  infCode : Option Nat
  width : Nat

def e4m3 : LinFmt := ⟨3, 7, 0x7E, 0x7F, none, 8⟩
def e5m2 : LinFmt := ⟨2, 15, 0x7B, 0x7E, some 0x7C, 8⟩
def bf16 : LinFmt := ⟨7, 127, 0x7F7F, 0x7FC0, some 0x7F80, 16⟩
def fp16 : LinFmt := ⟨10, 15, 0x7BFF, 0x7E00, some 0x7C00, 16⟩
def fp32 : LinFmt := ⟨23, 127, 0x7F7FFFFF, 0x7FC00000, some 0x7F800000, 32⟩

/-- The FMT codes of Table 02.1. -/
inductive Fmt where
  | lns16 | lns8 | lin (f : LinFmt) | int (w : Nat)

/-- Table 02.1; none for a reserved code. -/
def fmtOf : Nat → Option Fmt
  | 0x0 => some .lns16
  | 0x1 => some .lns8
  | 0x2 => some (.lin e4m3)
  | 0x3 => some (.lin e5m2)
  | 0x4 => some (.lin bf16)
  | 0x5 => some (.lin fp16)
  | 0x6 => some (.lin fp32)
  | 0x8 => some (.int 8)
  | 0x9 => some (.int 16)
  | 0xA => some (.int 32)
  | _ => none

/-- Element size in bytes of an FMT code. -/
def fmtBytes (c : Nat) : Nat :=
  match fmtOf c with
  | some .lns16 => 2
  | some .lns8 => 1
  | some (.lin f) => f.width / 8
  | some (.int w) => w / 8
  | none => 1

/-- The value of a linear code (R51, Table 02.2). -/
def decLin (f : LinFmt) (x : Nat) : Val :=
  let neg := bitAt x (f.width - 1)
  let mag := fld x 0 (f.width - 1)
  if mag = 0 then .zero neg
  else if some mag = f.infCode then .inf neg
  else if f.maxCode < mag then .nan (!bitAt mag (f.frac - 1))
  else
    let ex := mag >>> f.frac
    let fr := fld mag 0 f.frac
    if ex = 0 then .fin neg fr (1 - (f.bias : Int) - f.frac)
    else .fin neg (fr + 2 ^ f.frac) ((ex : Int) - f.bias - f.frac)

/-- The value of an LNS16 code (R53). -/
def decLns16 (x : Nat) : Val :=
  let neg := bitAt x 15
  let l := fld x 0 15
  if l = 0x4000 then (if neg then .nan false else .zero false) else .lns neg (signed 15 l * 2 ^ 32)

/-- The value of an LNS8 code under the block bias b (R55). -/
def decLns8 (b : Int) (x : Nat) : Val :=
  let neg := bitAt x 7
  let l := fld x 0 7
  if l = 0x40 then (if neg then .nan false else .zero false) else .lns neg (signed 7 l * 2 ^ 37 + b * 2 ^ 40)

/-- The value of a two's-complement integer (R58). -/
def decInt (w x : Nat) : Val :=
  let v := signed w (x % 2 ^ w)
  if v = 0 then .zero false else .fin (decide (v < 0)) v.natAbs 0

/-- The value of an element; `b` is the bias of its LNS8 block. -/
def decode (f : Fmt) (b : Int) (x : Nat) : Val :=
  match f with
  | .lns16 => decLns16 x
  | .lns8 => decLns8 b x
  | .lin f => decLin f x
  | .int w => decInt w x

/-- Whether a quotient q with remainder rem of 2^s rounds up (R60, R61). -/
def roundsUp (r : Rnd) (q rem s : Nat) : Bool :=
  if r.mode = 1 then false
  else if r.mode = 2 then decide (r.rand < (rem <<< 16) >>> s)
  else decide (2 ^ s < 2 * rem) || (decide (2 * rem = 2 ^ s) && decide (q % 2 = 1))

/-- m × 2^e in units of 2^qe, rounded, and whether that was exact. -/
def roundAt (r : Rnd) (m : Nat) (e qe : Int) : Nat × Bool :=
  if qe ≤ e then (m <<< (e - qe).toNat, true)
  else
    let s := (qe - e).toNat
    let q := m >>> s
    let rem := m - (q <<< s)
    (if roundsUp r q rem s then q + 1 else q, decide (rem = 0))

/-- The code of a sign and a magnitude code. -/
def withSign (f : LinFmt) (neg : Bool) (mag : Nat) : Nat := if neg then mag + 2 ^ (f.width - 1) else mag

/-- A magnitude beyond the largest finite one (Table 02.7, row "Finite beyond the destination's largest"). -/
def overflowCode (f : LinFmt) (r : Rnd) (satf : Bool) (neg : Bool) : Nat :=
  if r.mode = 1 || (satf && f.width == 8) then withSign f neg f.maxCode
  else
    match f.infCode with
    | some i => withSign f neg i
    | none => f.nanCode

/-- m × 2^e with m > 0 rounded to a linear format: code and flags (R59, R60, R63, Table 02.7). -/
def roundLin (f : LinFmt) (r : Rnd) (satf : Bool) (neg : Bool) (m : Nat) (e : Int) : Nat × Flags :=
  let ex : Int := e + Nat.log2 m
  let emin : Int := 1 - (f.bias : Int)
  let qe : Int := (if ex < emin then emin else ex) - f.frac
  let (q, exact) := roundAt r m e qe
  let code := (qe + f.frac + f.bias - 1).toNat * 2 ^ f.frac + q
  if f.maxCode < code then (overflowCode f r satf neg, fOverflow + fInexact)
  else
    let tiny := decide (ex < emin) &&
      decide ((roundAt r m e (ex - f.frac)).1 < 2 ^ (f.frac + (emin - ex).toNat))
    (withSign f neg code, if exact then 0 else if tiny then fUnderflow + fInexact else fInexact)

/-- 2^(2^-j) × 2^80, rounded down, for j = 1 to 12. -/
def rootTable : List Nat :=
  [1709679290002018430137083,
   1437663186196213140458842,
   1318342954508437536241608,
   1262449538323130218023826,
   1235397847998530554068052,
   1222090158679699302578122,
   1215490167267850712533606,
   1212203550026895909267883,
   1210563575470544329506585,
   1209744420392730641853729,
   1209335050739664291965116,
   1209130417864073012721891]

/-- 2^(x / 2^12) × 2^80 for 0 ≤ x < 4096, within 2^8 units of 2^-80. -/
def pow2Frac (x : Nat) : Nat :=
  (List.range 12).foldl
    (fun acc j => if bitAt x (11 - j) then (acc * rootTable.getD j 0) >>> 80 else acc) (2 ^ 80)

/-- floor (log2 of a number x / 2^128 in [1, 2), times 2^n), by n squarings. -/
def logSteps : Nat → Nat → Nat → Nat
  | 0, _, acc => acc
  | n + 1, x, acc =>
    let y := (x * x) >>> 128
    if 2 ^ 129 ≤ y then logSteps n (y >>> 1) (2 * acc + 1) else logSteps n y (2 * acc)

/-- log2 (m × 2^e) in units of 2^-40, within one unit; exact for powers of two. -/
def log2Fix (m : Nat) (e : Int) : Int :=
  let k := Nat.log2 m
  let x := if k ≤ 128 then m <<< (128 - k) else m >>> (k - 128)
  (e + k) * 2 ^ 40 + logSteps 40 x 0

/-- Whether m is a power of two. -/
def isPow2 (m : Nat) : Bool := decide (m = 2 ^ Nat.log2 m)

/-- A log in units of 2^-40, rounded to units of 2^-(40 - s): LOG, and whether that was exact (R60). -/
def roundLogAt (r : Rnd) (s : Nat) (l : Int) : Int × Bool :=
  let q := l / 2 ^ s
  let rem := (l - q * 2 ^ s).toNat
  let up :=
    if r.mode = 1 then false
    else if r.mode = 2 then decide (r.rand < (rem <<< 16) >>> s)
    else decide (2 ^ s < 2 * rem) || (decide (2 * rem = 2 ^ s) && decide (q % 2 = 1))
  (if up then q + 1 else q, decide (rem = 0))

/-- A log known within `slack` units: when its two ends round differently, `pick` chooses (R65). -/
def roundLog (r : Rnd) (s : Nat) (l : Int) (slack : Nat) (pick : Bool) : Int × Bool :=
  if slack = 0 then roundLogAt r s l
  else
    let lo := (roundLogAt r s (l - slack)).1
    let hi := (roundLogAt r s (l + slack)).1
    (if pick then hi else lo, false)

/-- The log of a magnitude in units of 2^-40 and its slack: 0 for an LNS code or a power of two, 2^-24 else (R65). -/
def logOf (v : Val) : Int × Nat :=
  match v with
  | .fin _ m e => (log2Fix m e, if isPow2 m then 0 else 2 ^ 16 + 1)
  | .lns _ l => (l, 0)
  | _ => (0, 0)

/-- An LNS16 code from a rounded LOG (R54). -/
def packLns16 (neg : Bool) (l : Int) (inexact : Bool) : Nat × Flags :=
  if 16383 < l then ((if neg then 0x8000 else 0) + 0x3FFF, fOverflow + fInexact)
  else if l ≤ -16384 then (0x4000, fUnderflow + fInexact)
  else ((if neg then 0x8000 else 0) + ofInt 15 l, if inexact then fInexact else 0)

/-- A value converted to LNS16 (Table 02.7, column "To LNS16"). -/
def toLns16 (r : Rnd) (pick : Bool) (v : Val) : Nat × Flags :=
  match v with
  | .zero _ => (0x4000, 0)
  | .inf neg => ((if neg then 0x8000 else 0) + 0x3FFF, fOverflow + fInexact)
  | .nan s => (0xC000, if s then fInvalid else 0)
  | .fin neg m e =>
    let (l, slack) := logOf (.fin neg m e)
    let (q, exact) := roundLog r 32 l slack pick
    packLns16 neg q (!exact)
  | .lns neg l =>
    let (q, exact) := roundLogAt r 32 l
    packLns16 neg q (!exact)

/-- 2^(l / 2^40) as a 24-bit significand and an exponent, `pick` choosing where both neighbours lie within the
relative bound of 2^-24 (R65). -/
def sigOfLog (l : Int) (pick : Bool) : Nat × Int :=
  let k := l / 2 ^ 40
  let f := ((l - k * 2 ^ 40) / 2 ^ 28).toNat
  let x := pow2Frac f
  let lo := x >>> 57
  if f = 0 then (2 ^ 23, k - 23)
  else
    let rem := x - (lo <<< 57)
    let bound := x >>> 24
    let lowOk := decide (rem ≤ bound + 2 ^ 9)
    let highOk := decide (2 ^ 57 - rem ≤ bound + 2 ^ 9)
    (if highOk && (pick || !lowOk) then lo + 1 else lo, k - 23)

/-- A value converted to a linear format (Table 02.7, R65). -/
def toLin (f : LinFmt) (r : Rnd) (satf pick : Bool) (v : Val) : Nat × Flags :=
  match v with
  | .zero neg => (withSign f neg 0, 0)
  | .fin neg m e => roundLin f r satf neg m e
  | .lns neg l =>
    let (m, e) := sigOfLog l pick
    let (c, fl) := roundLin f r satf neg m e
    -- a conversion that flushes to zero gives a zero of positive sign
    (if fld c 0 (f.width - 1) = 0 then 0 else c,
      if l % 2 ^ 40 = 0 then fl
      -- the significand of 2^l is itself rounded, so a subnormal that holds it exactly is tiny and inexact (R59)
      else if fl = 0 && decide (fld c 0 (f.width - 1) < 2 ^ f.frac) then fUnderflow + fInexact
      else fl ||| fInexact)
  | .inf neg =>
    match f.infCode with
    | some i => (withSign f neg i, 0)
    | none => if satf then (withSign f neg f.maxCode, fOverflow + fInexact) else (f.nanCode, fInvalid)
  | .nan s => (f.nanCode, if s then fInvalid else 0)

/-- A value converted to a w-bit integer (R66). -/
def toInt (w : Nat) (r : Rnd) (pick : Bool) (v : Val) : Nat × Flags :=
  let go (neg : Bool) (m : Nat) (e : Int) : Nat × Flags :=
    let (q, exact) := roundAt r m e 0
    let x : Int := if neg then -(q : Int) else q
    if x < -(2 ^ (w - 1) : Int) then (2 ^ (w - 1), fInvalid)
    else if (2 ^ (w - 1) : Int) ≤ x then (2 ^ (w - 1) - 1, fInvalid)
    else (ofInt w x, if exact then 0 else fInexact)
  match v with
  | .zero _ => (0, 0)
  | .fin neg m e => go neg m e
  | .lns neg l =>
    let (m, e) := sigOfLog l pick
    let (x, fl) := go neg m e
    (x, if fl = 0 && decide (l % 2 ^ 40 ≠ 0) then fInexact else fl)
  | .inf neg => (if neg then 2 ^ (w - 1) else 2 ^ (w - 1) - 1, fInvalid)
  | .nan _ => (0, fInvalid)

/-! ## LNS8 blocks -/

/-- Whether an element counts for Lmax (R57): finite and non-zero. -/
def isFiniteNonzero : Val → Bool
  | .fin _ _ _ => true
  | .lns _ _ => true
  | _ => false

/-- ceil (x / 2^40) of an integer. -/
def ceil40 (x : Int) : Int := -((-x) / 2 ^ 40)

/-- The bias of an LNS8 block and whether it was clamped to −128 (R57). -/
def blockBias (vs : List Val) : Int × Bool :=
  match (vs.filter isFiniteNonzero).map (fun v => (logOf v).1) with
  | [] => (0, false)
  | l :: ls =>
    let b := ceil40 (ls.foldl max l - 7 * 2 ^ 40 - 7 * 2 ^ 37)
    if b < -128 then (-128, true) else if 127 < b then (127, false) else (b, false)

/-- One element encoded in a block of bias b (R57). -/
def encLns8 (r : Rnd) (pick : Bool) (b : Int) (low : Bool) (v : Val) : Nat × Flags :=
  let put (neg : Bool) (q : Int) (exact : Bool) : Nat × Flags :=
    if q < -63 then (0x40, fLogsat + fInexact + (if low then fUnderflow else 0))
    else if 63 < q then ((if neg then 0x80 else 0) + 0x3F, fOverflow + fInexact)
    else ((if neg then 0x80 else 0) + ofInt 7 q, if exact then 0 else fInexact)
  match v with
  | .zero _ => (0x40, 0)
  | .inf neg => ((if neg then 0x80 else 0) + 0x3F, fOverflow + fInexact)
  | .nan s => (0xC0, if s then fInvalid else 0)
  | .fin neg m e =>
    let (l, slack) := logOf (.fin neg m e)
    let (q, exact) := roundLog r 37 (l - b * 2 ^ 40) slack pick
    put neg q exact
  | .lns neg l =>
    let (q, exact) := roundLogAt r 37 (l - b * 2 ^ 40)
    put neg q exact

/-- A free bit and a free 16-bit value for the k-th rounding counted from a base (R61, R62). -/
def pickAt (base k : Nat) : Bool := (Config.freeWord (base + k)).getLsbD 63

def randAt (mode base k : Nat) : Rnd := ⟨mode, (Config.freeWord (base + k)).toNat % 65536⟩

/-- The generator's next value after that of `randAt`, for a result that is rounded twice (R61, R62). -/
def randNext (mode base k : Nat) : Rnd := ⟨mode, (Config.freeWord (base + k)).toNat / 65536 % 65536⟩

/-- An LNS8 block: bias and codes with their flags (R57). -/
def encodeBlock (mode base : Nat) (vs : List Val) : Int × List (Nat × Flags) :=
  let (b, low) := blockBias vs
  (b, vs.zipIdx.map fun (v, k) => encLns8 (randAt mode base k) (pickAt base k) b low v)

/-! ## Exact arithmetic -/

/-- The signed sum of two exact numbers; none where it is zero. -/
def addExact (n1 : Bool) (m1 : Nat) (e1 : Int) (n2 : Bool) (m2 : Nat) (e2 : Int) : Option (Bool × Nat × Int) :=
  let e := min e1 e2
  let a : Int := (m1 <<< (e1 - e).toNat : Nat)
  let b : Int := (m2 <<< (e2 - e).toNat : Nat)
  let x : Int := (if n1 then -a else a) + (if n2 then -b else b)
  if x = 0 then none else some (decide (x < 0), x.natAbs, e)

/-- floor (square root), by n bits from the top. -/
def isqrtBits : Nat → Nat → Nat → Nat
  | 0, _, acc => acc
  | n + 1, x, acc =>
    let t := acc + 2 ^ n
    if t * t ≤ x then isqrtBits n x t else isqrtBits n x acc

/-- floor (square root). -/
def isqrt (x : Nat) : Nat := isqrtBits (Nat.log2 x / 2 + 1) x 0

def isNan : Val → Bool
  | .nan _ => true
  | _ => false

def isSnan : Val → Bool
  | .nan s => s
  | _ => false

/-- The sign of a value. -/
def isNeg : Val → Bool
  | .zero n => n
  | .fin n _ _ => n
  | .lns n _ => n
  | .inf n => n
  | .nan _ => false

/-- A value with its sign inverted; a NaN keeps none. -/
def negVal : Val → Val
  | .zero n => .zero (!n)
  | .fin n m e => .fin (!n) m e
  | .lns n l => .lns (!n) l
  | .inf n => .inf (!n)
  | .nan s => .nan s

/-- a × b + c with one rounding to f (Table 05.15); `c = none` is a product alone (Table 05.14). -/
def fma (f : LinFmt) (r : Rnd) (satf : Bool) (a b : Val) (c : Option Val) : Nat × Flags :=
  let sn := isSnan a || isSnan b || (c.map isSnan).getD false
  let nanOut := (f.nanCode, if sn then fInvalid else 0)
  let sgn := isNeg a != isNeg b
  let infOut (n : Bool) : Nat × Flags := toLin f r satf false (.inf n)
  match a, b with
  | .zero _, .inf _ => (f.nanCode, fInvalid)
  | .inf _, .zero _ => (f.nanCode, fInvalid)
  | .nan _, _ => nanOut
  | _, .nan _ => nanOut
  | .inf _, _ | _, .inf _ =>
    match c with
    | some (.nan _) => nanOut
    | some (.inf n) => if n = sgn then infOut sgn else (f.nanCode, fInvalid)
    | _ => infOut sgn
  | .zero _, _ | _, .zero _ =>
    match c with
    | none => (withSign f sgn 0, 0)
    | some (.nan _) => nanOut
    | some (.inf n) => infOut n
    | some (.zero n) => (withSign f (sgn && n) 0, 0)
    | some (.fin n m e) => roundLin f r satf n m e
    | some (.lns _ _) => nanOut
  | .fin _ m1 e1, .fin _ m2 e2 =>
    match c with
    | none => roundLin f r satf sgn (m1 * m2) (e1 + e2)
    | some (.nan _) => nanOut
    | some (.inf n) => infOut n
    | some (.zero _) => roundLin f r satf sgn (m1 * m2) (e1 + e2)
    | some (.fin n m e) =>
      match addExact sgn (m1 * m2) (e1 + e2) n m e with
      | none => (0, 0)
      | some (n', m', e') => roundLin f r satf n' m' e'
    | some (.lns _ _) => nanOut
  | _, _ => nanOut

/-- a + b rounded to f (Table 05.13). -/
def fadd (f : LinFmt) (r : Rnd) (satf : Bool) (a b : Val) : Nat × Flags :=
  match a, b with
  | .nan _, _ | _, .nan _ => (f.nanCode, if isSnan a || isSnan b then fInvalid else 0)
  | .inf n, .inf k => if n = k then toLin f r satf false (.inf n) else (f.nanCode, fInvalid)
  | .inf n, _ | _, .inf n => toLin f r satf false (.inf n)
  | .zero n, .zero k => (withSign f (n && k) 0, 0)
  | .zero _, .fin n m e | .fin n m e, .zero _ => roundLin f r satf n m e
  | .fin n1 m1 e1, .fin n2 m2 e2 =>
    match addExact n1 m1 e1 n2 m2 e2 with
    | none => (0, 0)
    | some (n, m, e) => roundLin f r satf n m e
  | _, _ => (f.nanCode, 0)

/-- a / b rounded to f (R188). -/
def fdiv (f : LinFmt) (r : Rnd) (a b : Val) : Nat × Flags :=
  let sgn := isNeg a != isNeg b
  match a, b with
  | .nan _, _ | _, .nan _ => (f.nanCode, if isSnan a || isSnan b then fInvalid else 0)
  | .inf _, .inf _ | .zero _, .zero _ => (f.nanCode, fInvalid)
  | .inf _, _ => toLin f r false false (.inf sgn)
  | _, .inf _ => (withSign f sgn 0, 0)
  | .zero _, _ => (withSign f sgn 0, 0)
  | .fin _ _ _, .zero _ => ((toLin f r false false (.inf sgn)).1, fDivzero)
  | .fin _ m1 e1, .fin _ m2 e2 =>
    let q := (m1 <<< 120) / m2
    let jam := if q * m2 = m1 <<< 120 then 2 * q else 2 * q + 1
    roundLin f r false sgn jam (e1 - e2 - 121)
  | _, _ => (f.nanCode, 0)

/-- The square root of a rounded to f (R188). -/
def fsqrt (f : LinFmt) (r : Rnd) (a : Val) : Nat × Flags :=
  match a with
  | .nan s => (f.nanCode, if s then fInvalid else 0)
  | .zero n => (withSign f n 0, 0)
  | .inf true | .fin true _ _ => (f.nanCode, fInvalid)
  | .inf false => toLin f r false false (.inf false)
  | .fin false m e =>
    let k := if e % 2 = 0 then 160 else 161
    let x := m <<< k
    let q := isqrt x
    roundLin f r false false (if q * q = x then 2 * q else 2 * q + 1) ((e - k) / 2 - 1)
  | .lns _ _ => (f.nanCode, 0)

/-- The order of two numbers of one domain; none where either is a NaN. -/
def cmpVal (a b : Val) : Option Ordering :=
  let mag : Val → Val → Ordering
    | .zero _, .zero _ => .eq
    | .zero _, _ => .lt
    | _, .zero _ => .gt
    | .inf _, .inf _ => .eq
    | .inf _, _ => .gt
    | _, .inf _ => .lt
    | .fin _ m1 e1, .fin _ m2 e2 =>
      let e := min e1 e2
      compare (m1 <<< (e1 - e).toNat) (m2 <<< (e2 - e).toNat)
    | .lns _ l1, .lns _ l2 => compare l1 l2
    | _, _ => .eq
  let isZ : Val → Bool
    | .zero _ => true
    | _ => false
  if isNan a || isNan b then none
  else if isZ a && isZ b then some .eq
  else
    match isNeg a && !isZ a, isNeg b && !isZ b with
    | true, true => some (mag b a)
    | false, false => some (mag a b)
    | true, false => some .lt
    | false, true => some .gt

/-- Whether a comes before b in the order of MIN and MAX, which puts −0 below +0 (R175). -/
def ltVal (a b : Val) : Bool :=
  match a, b with
  | .zero true, .zero false => true
  | _, _ => cmpVal a b = some .lt

/-! ## Sums in a free order (R71 to R73, R179) -/

/-- A list in an order that free values choose. -/
def shuffleAt {α : Type} (base : Nat) : Nat → List α → List α
  | _, [] => []
  | k, x :: xs =>
    let ys := shuffleAt base (k + 1) xs
    let j := (Config.freeWord (base + k)).toNat % (ys.length + 1)
    ys.take j ++ x :: ys.drop j

/-- One level of an adder tree: neighbours are added. -/
def treeLevel {α : Type} (f : α → α → α) : List α → List α
  | x :: y :: rest => f x y :: treeLevel f rest
  | xs => xs

/-- An adder tree of n levels over at most 2^n terms, in a free order and with empty leaves at free places. -/
def freeTree {α : Type} (f : α → α → α) (empty : α) (n base : Nat) (xs : List α) : α :=
  ((List.range n).foldl (fun ys _ => treeLevel f ys)
    (shuffleAt base 0 (xs ++ List.replicate (2 ^ n - xs.length) empty))).headD empty

/-- A signed exact number m × 2^e with m > 0; none is zero. -/
abbrev Term := Option (Bool × Nat × Int)

/-- The exact sum of two terms. -/
def addTerm : Term → Term → Term
  | none, y => y
  | x, none => x
  | some (n1, m1, e1), some (n2, m2, e2) => addExact n1 m1 e1 n2 m2 e2

/-- A term rounded to a 40-bit significand, to nearest, ties to even (R71). -/
def round40 : Term → Term
  | some (n, m, e) =>
    let qe : Int := e + Nat.log2 m - 39
    if m < 2 ^ 40 then some (n, m, e) else some (n, (roundAt ⟨0, 0⟩ m e qe).1, qe)
  | none => none

/-- The number of levels of a tree over n terms: ceil (log2 n). -/
def levels (n : Nat) : Nat := if n ≤ 1 then 0 else Nat.log2 (n - 1) + 1

/-- The sum of FP32 values as a tree of correctly rounded additions in a free order (R179): code and the flags of the
additions. -/
def floatSum (vs : List Val) (base : Nat) : Nat × Flags :=
  let add : Option (Nat × Flags) → Option (Nat × Flags) → Option (Nat × Flags)
    | some (x, fx), some (y, fy) =>
      let (z, fz) := fadd fp32 ⟨0, 0⟩ false (decLin fp32 x) (decLin fp32 y)
      some (z, fx ||| fy ||| fz)
    | some x, none => some x
    | none, y => y
  let leaf (v : Val) : Option (Nat × Flags) := some (toLin fp32 ⟨0, 0⟩ false false v)
  (freeTree add none (levels vs.length) base (vs.map leaf)).getD (0, 0)

/-! ## LNS operations -/

/-- An integer between lo and hi, chosen by a free value. -/
def pickInt (base k : Nat) (lo hi : Int) : Int :=
  if hi ≤ lo then lo else lo + ((Config.freeWord (base + k)).toNat % (hi - lo + 1).toNat : Nat)

/-- The log of |a + b| in LNS16 steps for logs in units of 2^-40: any LOG within the bound of R75. -/
def lnsAddLog (base k : Nat) (same : Bool) (la lb : Int) : Int :=
  let d := (la - lb).toNat
  let whole := d / 2 ^ 40
  let fr := d % 2 ^ 40
  -- 2^-d in units of 2^-80
  let t := if 80 < whole then 0
    else if fr = 0 then (2 ^ 80) >>> whole
    else (pow2Frac ((2 ^ 40 - fr) / 2 ^ 28)) >>> (whole + 1)
  let v := if same then 2 ^ 80 + t else 2 ^ 80 - t
  let l := la + log2Fix v (-80)
  let extra := if !same && whole == 0 then (2 ^ 28 * 2 ^ 80) / v else 0
  let bnd : Int := (2 ^ 31 + 2 ^ 28 + extra : Nat)
  pickInt base k (-((bnd - l) / 2 ^ 32)) ((l + bnd) / 2 ^ 32)

/-- LADD of two LNS values as an LNS value in LNS16 steps, with flags (Table 05.16). -/
def lnsAdd (base k : Nat) (a b : Val) : Val × Flags :=
  match a, b with
  | .nan _, _ | _, .nan _ => (.nan false, 0)
  | .zero _, x => (x, 0)
  | x, .zero _ => (x, 0)
  | .lns n1 l1, .lns n2 l2 =>
    if n1 = n2 then
      (.lns n1 (lnsAddLog base k true (max l1 l2) (min l1 l2) * 2 ^ 32), fInexact)
    else if l1 = l2 then (.zero false, 0)
    else
      (.lns (if l1 < l2 then n2 else n1) (lnsAddLog base k false (max l1 l2) (min l1 l2) * 2 ^ 32), fInexact)
  | _, _ => (.nan false, 0)

/-- LMUL (Table 05.14). -/
def lnsMul (a b : Val) : Val × Flags :=
  match a, b with
  | .nan _, _ | _, .nan _ => (.nan false, 0)
  | .zero _, _ | _, .zero _ => (.zero false, 0)
  | .lns n1 l1, .lns n2 l2 => (.lns (n1 != n2) (l1 + l2), 0)
  | _, _ => (.nan false, 0)

/-- LDIV (Table 05.14); a finite code divided by the zero code is the saturated code, with DIVZERO. -/
def lnsDiv (a b : Val) : Val × Flags :=
  match a, b with
  | .nan _, _ | _, .nan _ => (.nan false, 0)
  | .zero _, .zero _ => (.nan false, fInvalid)
  | .lns n _, .zero _ => (.lns n (16383 * 2 ^ 32), fDivzero)
  | .zero _, _ => (.zero false, 0)
  | .lns n1 l1, .lns n2 l2 => (.lns (n1 != n2) (l1 - l2), 0)
  | _, _ => (.nan false, 0)

/-- LSQRT: half the log; a negative finite code is the NaN code with INVALID (R188). -/
def lnsSqrt (a : Val) : Val × Flags :=
  match a with
  | .zero _ => (.zero false, 0)
  | .lns false l => (.lns false (l / 2), 0)
  | .lns true _ => (.nan false, fInvalid)
  | _ => (.nan false, 0)

/-! ## Flushing adders -/

/-- A subnormal operand or result read as a zero of the same sign (R68). -/
def flushCode (f : LinFmt) (x : Nat) : Nat :=
  if fld x 0 (f.width - 1) < 2 ^ f.frac then withSign f (bitAt x (f.width - 1)) 0 else x

/-- The addition of gathering queues and atomic-add units (R68, R114, R205): RNE, subnormals flushed, no flag. -/
def addFlush (f : LinFmt) (a b : Nat) : Nat :=
  flushCode f (fadd f ⟨0, 0⟩ false (decLin f (flushCode f a)) (decLin f (flushCode f b))).1

/-- The addition of HBM controllers (R339): binary32, RNE, subnormals kept, no flag. -/
def addHbm (a b : Nat) : Nat := (fadd fp32 ⟨0, 0⟩ false (decLin fp32 a) (decLin fp32 b)).1

/-- FP32 arithmetic of the Darning engines, RNE (R345). -/
def add32 (a b : Nat) : Nat × Flags := fadd fp32 ⟨0, 0⟩ false (decLin fp32 a) (decLin fp32 b)
def sub32 (a b : Nat) : Nat × Flags := fadd fp32 ⟨0, 0⟩ false (decLin fp32 a) (negVal (decLin fp32 b))
def mul32 (a b : Nat) : Nat × Flags := fma fp32 ⟨0, 0⟩ false (decLin fp32 a) (decLin fp32 b) none
def div32 (a b : Nat) : Nat × Flags := fdiv fp32 ⟨0, 0⟩ (decLin fp32 a) (decLin fp32 b)
def sqrt32 (a : Nat) : Nat × Flags := fsqrt fp32 ⟨0, 0⟩ (decLin fp32 a)

/-- One element converted between formats other than an LNS8 block destination (Table 02.7, R64 to R66). An integer
to LNS passes through FP32. An integer that the destination integer cannot hold has no stated result: it is free. -/
def convElem (src dst : Fmt) (mode base k : Nat) (satf : Bool) (v : Val) : Nat × Flags :=
  let r := randAt mode base k
  let p := pickAt base k
  match src, dst with
  | .int _, .lns16 =>
    let (c, fl) := toLin fp32 r false p v
    let (x, fl') := toLns16 (randNext mode base k) p (decLin fp32 c)
    (x, fl ||| fl')
  | .int _, .int w =>
    match v with
    | .fin neg m _ =>
      let x : Int := if neg then -(m : Int) else m
      if -(2 ^ (w - 1) : Int) ≤ x ∧ x < (2 ^ (w - 1) : Int) then (ofInt w x, 0)
      else ((Config.freeWord (base + k)).toNat % 2 ^ w, 0)
    | _ => (0, 0)
  | _, .lns16 => toLns16 r p v
  | _, .lin f => toLin f r satf p v
  | _, .int w => toInt w r p v
  | _, .lns8 => (0, 0)

/-- Whether a code is a zero of its format (R77): ±0 and the LNS zero codes. -/
def isZeroCode (f : Fmt) (x : Nat) : Bool :=
  match f with
  | .lns16 => x % 65536 == 0x4000
  | .lns8 => x % 256 == 0x40
  | .lin f => fld x 0 (f.width - 1) == 0
  | .int w => x % 2 ^ w == 0

/-- The zero of a format as skipped strips read (R78, R166): +0, integer 0, 0x4000 or 0x40. -/
def zeroOf (f : Fmt) : Nat :=
  match f with
  | .lns16 => 0x4000
  | .lns8 => 0x40
  | _ => 0

end Sys2Proof.Machine
end

