-- ==== Sys2Proof/Machine/Operands.lean ====
section
/-! DEFINITION. Operand forms: tile kinds and places, configuration registers and descriptors read from the planes of a
tile, steps, physical addresses of stores, relocation (R215) and page walks (R256). -/

namespace Sys2Proof.Machine

/-! ## Tiles -/

/-- Tile kinds (Table 03.1). -/
inductive Kind where
  | M | V | A | S | G | B
deriving DecidableEq, Repr

/-- The kind of a column (Table 03.1): B A M A M S A V M A M S A V G A; A G V A S M A M V A S M A M A; B. -/
def colKinds : List Kind :=
  [.B, .A, .M, .A, .M, .S, .A, .V, .M, .A, .M, .S, .A, .V, .G, .A,
   .A, .G, .V, .A, .S, .M, .A, .M, .V, .A, .S, .M, .A, .M, .A, .B]

def kindOfCol (c : Nat) : Kind := colKinds.getD c .B

/-- The kind of the tile with this number. -/
def kindOf (k : Nat) : Kind := kindOfCol (noCol k)

/-- The columns of a kind in ordinal order (Table 01.9). -/
def colsOf (kd : Kind) : List Nat := (List.range 32).filter fun c => kindOfCol c = kd

/-- The tile number of a Hoop, column and row. -/
def tileNo (h c r : Nat) : Nat := h * 512 + c * 16 + r

/-- The index of a tile among those of its kind in its Hoop (R43). -/
def tileIndex (k : Nat) : Nat := 16 * ((colsOf (kindOf k)).findIdx (· = noCol k)) + noRow k

/-- The number of the tile with an index of R43. -/
def tileOfIndex (kd : Kind) (h idx : Nat) : Nat := tileNo h ((colsOf kd).getD (idx / 16) 0) (idx % 16)

/-- The number of a B tile named by 5 bits: 0 to 15 are C0 rows 0 to 15 and 16 to 31 are C31 rows (R247, R426). -/
def bTileNo (h b : Nat) : Nat := if b < 16 then tileNo h 0 b else tileNo h 31 (b - 16)

/-- The 5-bit name of a B tile. -/
def bTileName (k : Nat) : Nat := if noCol k = 0 then noRow k else 16 + noRow k

/-- The tiles of columns c0 to c1 of a Hoop, by column and then row. -/
def regionTiles (h c0 c1 : Nat) : List Nat :=
  (List.range (c1 + 1 - c0)).flatMap fun i => (List.range 16).map fun r => tileNo h (c0 + i) r

/-- Whether the tile has an A neighbour in the column c. -/
def hasA (c : Nat) : Bool := decide (c < 32) && decide (kindOfCol c = .A)

/-! ## Registers of the row block (Table 11.2) -/

def cfgNum (t : Tile) (off n : Nat) : Nat := numAt t.cfg off n

/-- SW_OUT[d][s] (Table 03.2). -/
def swOut (t : Tile) (d s : Nat) : Nat := cfgNum t (2 * (4 * d + s)) 2

/-- SW_IN[d][s] (Table 03.3). -/
def swIn (t : Tile) (d s : Nat) : Nat := cfgNum t (0x20 + 2 * (4 * d + s)) 2

/-- Q_DESC of queue q (Table 03.6). -/
def qDesc (t : Tile) (q : Nat) : Nat := cfgNum t (0x40 + 4 * q) 4

def qEn (t : Tile) (q : Nat) : Bool := bitAt (qDesc t q) 21

/-- Whether queue q is a control queue. -/
def qCtrl (t : Tile) (q : Nat) : Bool := bitAt (qDesc t q) 20

def qDepth (t : Tile) (q : Nat) : Nat := fld (qDesc t q) 10 10

/-- Tokens that queue q holds at most (R95). -/
def qCap (t : Tile) (q : Nat) : Nat := if qCtrl t q then 16 * qDepth t q else qDepth t q

/-- OUT_DESC of output o (Table 03.7): data and control credits. -/
def outD (t : Tile) (o : Nat) : Nat := fld (cfgNum t (0x80 + 4 * o) 4) 0 11
def outC (t : Tile) (o : Nat) : Nat := fld (cfgNum t (0x80 + 4 * o) 4) 11 12

/-- SEQ_CTRL (Table 03.10) and LC_INIT. -/
def seqEn (t : Tile) : Bool := bitAt (cfgNum t 0x90 4) 0
def seqEntry (t : Tile) : Nat := fld (cfgNum t 0x90 4) 1 10
def lcInit (t : Tile) (n : Nat) : Nat := cfgNum t (0xA0 + 4 * n) 4

/-- SE_CFG.SD_COUNT (Table 07.2). -/
def sdCount (t : Tile) : Nat := fld (cfgNum t 0xC0 4) 0 11

/-- SWIN0 to SWIN3 (Table 06.4). -/
def swinReg (t : Tile) (w : Nat) : Nat := cfgNum t (0xC0 + 8 * w) 8

/-- KB0 to KB7 (Table 08.6), KCHK0 to KCHK3 (Table 08.8), CP0 to CP3 (Table 08.9). -/
def kbReg (t : Tile) (b : Nat) : Nat := cfgNum t (0xE0 + 16 * b) 16
def kchkReg (t : Tile) (b : Nat) : Nat := cfgNum t (0x160 + 16 * b) 16
def cpReg (t : Tile) (p : Nat) : Nat := cfgNum t (0x1A0 + 4 * p) 4

/-- The registers that the row block of a tile kind holds: offset, bytes, and the bits that are not reserved (Table 11.2). -/
def regForms (kd : Kind) : List (Nat × Nat × Nat) :=
  let n (count base width bits : Nat) : List (Nat × Nat × Nat) := (List.range count).map fun i => (base + width * i, width, bits)
  let ones (w : Nat) : Nat := 2 ^ w - 1
  let kaddr := ones 61 * 2 ^ 64
  let seq := (0x90, 4, ones 11) :: n 8 0xA0 4 (ones 32)
  let knots := n 8 0xE0 16 (ones 35 + kaddr) ++ n 4 0x160 16 (1 + kaddr)
  n 16 0 2 (ones 5) ++ n 16 0x20 2 (ones 10) ++ n 16 0x40 4 (ones 22) ++ n 4 0x80 4 (ones 23) ++
    match kd with
    | .M | .V => seq
    | .A => seq ++ n 4 0xC0 8 (ones 36) ++ knots
    | .B => seq ++ [(0xC0, 4, ones 11)] ++ knots ++ n 4 0x1A0 4 (ones 18)
    | .S => [(0xC0, 4, ones 14), (0xC4, 4, ones 12), (0xC8, 4, ones 28)] ++ n 4 0xCC 4 (ones 16) ++ n 2 0xDC 4 (ones 32)
    | .G => [(0xC0, 4, ones 11), (0xC4, 4, ones 16), (0xC8, 4, ones 10 + ones 10 * 2 ^ 16), (0xCC, 4, ones 12),
        (0xD0, 4, ones 32), (0xD4, 4, ones 20)]

/-- The bits of a byte of the row block that are not reserved: of a KADDR in an A tile, [44:28] are (Table 08.3). -/
def regBits (kd : Kind) (m : Tab Byte) (off : Nat) : Byte :=
  match (regForms kd).find? fun r => decide (r.1 ≤ off) && decide (off < r.1 + r.2.1) with
  | none => 0
  | some (base, n, bits) =>
    let ka := decide (n = 16) && decide (8 ≤ off - base) && !(Tab.get 0 m (base + 13)).getLsbD 5
    let inTile := if ka then [255, 255, 255, 15, 0, 0xE0, 255, 255].getD (off - base - 8) 255 else 255
    BitVec.ofNat 8 (bits / 2 ^ (8 * (off - base)) % 256) &&& BitVec.ofNat 8 inTile

/-- The registers of a row block as a tile holds them: reserved bits read 0 (R6, R373). -/
def keptRegs (kd : Kind) (m : Tab Byte) : Tab Byte :=
  (m.map fun p => (p.1, p.2 &&& regBits kd m p.1)).filter fun p => p.2 ≠ 0

/-! ## Steps and descriptors of the program image (Table 11.4) -/

def progNum (t : Tile) (off n : Nat) : Nat := numAt t.prog off n

/-- A step (Table 03.8). -/
structure Stp where
  opc    : Nat
  inq    : Nat
  outd   : Nat
  outc   : Nat
  flow   : Nat
  lc     : Nat
  target : Nat
  args   : Nat
deriving DecidableEq, Repr

def stepOf (w : Nat) : Stp :=
  ⟨fld w 58 6, fld w 42 16, fld w 38 4, fld w 34 4, fld w 31 3, fld w 28 3, fld w 18 10, fld w 0 18⟩

/-- The step at index i of a tile's program. -/
def stepAt (t : Tile) (i : Nat) : Stp := stepOf (progNum t (8 * i) 8)

/-- The current step of a tile's sequencer. -/
def curStep (t : Tile) : Stp := stepAt t t.seq.pc

/-- Loop counter n. -/
def lcAt (t : Tile) (n : Nat) : Nat := Tab.get 0 t.seq.lc n

/-- The iteration index of a step (R123). -/
def iterIdx (t : Tile) (st : Stp) (iter : Bool) : Nat := if iter then lcInit t st.lc - lcAt t st.lc else 0

/-- Weight, pass and drain descriptors of an M tile (Tables 04.4, 04.5, 04.7). -/
def wdAt (t : Tile) (n : Nat) : Nat := progNum t (0x2000 + 8 * n) 8
def pdAt (t : Tile) (n : Nat) : Nat := progNum t (0x2080 + 24 * n) 24
def ddAt (t : Tile) (n : Nat) : Nat := progNum t (0x2200 + 24 * n) 24

/-- Operation, chain, move and port descriptors of a V tile (Tables 05.6, 05.9, 05.3, 05.5). -/
def vdAt (t : Tile) (n : Nat) : Nat := progNum t (0x2000 + 8 * n) 8
def cdAt (t : Tile) (n : Nat) : Nat := progNum t (0x2400 + 16 * n) 16
def mdAt (t : Tile) (n : Nat) : Nat := progNum t (0x2500 + 16 * n) 16
def ptAt (t : Tile) (n : Nat) : Nat := progNum t (0x2600 + 4 * n) 4

/-- A-tile descriptors (Table 06.3) and stream descriptors (Table 07.4). -/
def adAt (t : Tile) (n : Nat) : Nat := progNum t (0x2000 + 16 * n) 16
def sdAt (t : Tile) (n : Nat) : Nat := progNum t (0x2000 + 64 * n) 64

/-- A stream descriptor as it reads: [63:60] of its dimension words are reserved (R6, Table 07.5). -/
def sdRead (t : Tile) (n : Nat) : Nat :=
  [252, 316, 380, 444, 508].foldl (fun w b => setFld w b 4 0) (sdAt t n)

/-- Size of the program image of a kind (Table 11.4). -/
def progSize : Kind → Nat
  | .M => 8960
  | .V => 9856
  | .A => 8448
  | .B => 73728
  | _ => 0

/-! ## Physical addresses (Tables 01.8 and 01.9) -/

def wsBase (k : Nat) : Nat := 0xC000000000 + noHoop k * 0x80000000 + tileIndex k * 0x1000000
def asBase (k : Nat) : Nat := 0xC400000000 + noHoop k * 0x10000000 + tileIndex k * 0x100000
def psBase (k : Nat) : Nat := 0xC500000000 + noHoop k * 0x4000000 + tileIndex k * 0x80000
def ocBase (k : Nat) : Nat := 0xC580000000 + noHoop k * 0x1000000 + tileIndex k * 0x40000

/-- The context-0 range of a quarter (R42). -/
def ctx0Base (q : Nat) : Nat := 0x2FC0000000 + q * 0x3000000000

/-- The quarter of an HBM address. -/
def hbmQuarter (pa : Nat) : Nat := pa / 0x3000000000

def isHbm (pa : Nat) : Bool := decide (pa < 0xC000000000)

/-- Whether an address lies in the weight store. -/
def isWs (pa : Nat) : Bool := decide (0xC000000000 ≤ pa) && decide (pa < 0xC400000000)

/-- Whether an address lies in the partial-sum store. -/
def isPs (pa : Nat) : Bool := decide (0xC500000000 ≤ pa) && decide (pa < 0xC520000000)

/-- Whether an address lies in an HBM range of software contexts (R41, R45). -/
def isSoftHbm (pa : Nat) : Bool := isHbm pa && decide (pa % 0x3000000000 < 0x2FC0000000)

/-- Whether an address is populated (Table 01.8); the control space is no interface. -/
def populated (pa : Nat) : Bool :=
  isHbm pa || isWs pa ||
  (decide (0xC400000000 ≤ pa) && decide (pa < 0xC480000000) && decide (pa % 0x10000000 < 0xC000000)) ||
  isPs pa || (decide (0xC580000000 ≤ pa) && decide (pa < 0xC588000000)) ||
  (decide (0xF000000000 ≤ pa) && decide (pa < 0x10000000000))

/-- The stack of an HBM address (R230). -/
def stackOf (pa : Nat) : Nat :=
  let o := pa % 0x3000000000
  2 * hbmQuarter pa + (fld o 8 1 ^^^ fld o 17 1 ^^^ fld o 26 1 ^^^ fld o 35 1)

/-- The pseudo-channel of an HBM address in its stack (R230). -/
def pseudoChannel (pa : Nat) : Nat :=
  let o := pa % 0x3000000000
  fld o 9 6 ^^^ fld o 18 6 ^^^ fld o 27 6

/-- The store code, Hoop or stack, and tile index of an address, as MEM_UE_FOUND names them (Table 12.16). -/
def storeOf (pa : Nat) : Nat × Nat × Nat :=
  if isHbm pa then (4, stackOf pa, 0)
  else if isWs pa then (0, (pa - 0xC000000000) / 0x80000000, pa % 0x80000000 / 0x1000000)
  else if pa < 0xC480000000 then (1, (pa - 0xC400000000) / 0x10000000, pa % 0x10000000 / 0x100000)
  else if isPs pa then (2, (pa - 0xC500000000) / 0x4000000, pa % 0x4000000 / 0x80000)
  else (3, (pa - 0xC580000000) / 0x1000000, pa % 0x1000000 / 0x40000)

/-- Bytes of a protected word at an address (Table 06.6). -/
def wordBytes (pa : Nat) : Nat := if isHbm pa || isWs pa then 32 else 8

/-! ## Memory with its protection and its ZERO bits -/

/-- The first uncorrectable word that an access of n bytes at pa meets (R218, R220): its address; that of a partial-sum
row also where the word of its ZERO bit is uncorrectable. -/
def ueAt (s : State) (pa n : Nat) : Option Nat :=
  if n = 0 then none
  else if isPs pa && s.zeroBad.contains (pa / 16384) then some pa
  else
    let g := wordBytes pa
    let lo := pa / g * g
    let hi := (pa + n + g - 1) / g * g
    (s.bad.find? fun w => decide (lo ≤ 8 * w) && decide (8 * w < hi)).map (8 * ·)

/-- Whether the byte's partial-sum row reads as zeros (R142). -/
def zeroRow (s : State) (pa : Nat) : Bool := isPs pa && Tab.get false s.zeros (pa / 256)

/-- n bytes of physical memory; a row whose ZERO bit is set reads +0 (R142). -/
def peek (s : State) (pa n : Nat) : List Byte :=
  if isPs pa then (List.range n).map fun i => if zeroRow s (pa + i) then 0 else Tab.get 0 s.mem (pa + i)
  else bytesAt s.mem pa n

/-- The little-endian number of n bytes of physical memory. -/
def peekNum (s : State) (pa n : Nat) : Nat := leNat (peek s pa n)

/-- Words that a write covers whole lose their errors (R197, R231). -/
def clearBad (bad : List Nat) (pa n : Nat) : List Nat :=
  let g := wordBytes pa
  let lo := (pa + g - 1) / g * g
  let hi := (pa + n) / g * g
  bad.filter fun w => !(decide (lo ≤ 8 * w) && decide (8 * w < hi))

/-- Bytes written to physical memory. -/
def poke (s : State) (pa : Nat) (bs : List Byte) : State :=
  { s with mem := putBytes s.mem pa bs, bad := clearBad s.bad pa bs.length }

/-- The first uncorrectable word that a write of n bytes would have to merge with (R197, R231): none where the
write covers it whole. -/
def mergeUe (s : State) (pa n : Nat) : Option Nat := ueAt { s with bad := clearBad s.bad pa n } pa n

/-! ## Relocation and translation -/

/-- The quarter of a Hoop (R12). -/
def quarterOf (h : Nat) : Nat := h / 2

def ctxAt (s : State) (c : Nat) : Ctx := Tab.get Ctx.reset s.ctxs c
def tileAt (s : State) (k : Nat) : Tile := Tab.get Tile.reset s.tiles k
def hoopAt (s : State) (h : Nat) : Hoop := Tab.get Hoop.reset s.hoops h
def chanAt (s : State) (n : Nat) : Chan := Tab.get Chan.reset s.chans n
def portAt (s : State) (p : Nat) : Port := Tab.get Port.reset s.ports p
def linkAt (s : State) (p : Nat) : Link := Tab.get (Link.reset 0) s.links p

/-- The relocation registers of a context (Table 06.5). -/
def relocWs (s : State) (c h : Nat) : Nat := (Tab.get 0 (ctxAt s c).relocWs h).toNat
def relocAs (s : State) (c h : Nat) : Nat := (Tab.get 0 (ctxAt s c).relocAs h).toNat
def relocPs (s : State) (c h : Nat) : Nat := (Tab.get 0 (ctxAt s c).relocPs h).toNat
def relocHbm (s : State) (c : Nat) : Nat := (ctxAt s c).relocHbm.toNat

/-- An access of L bytes at offset a in a class with BASE and BOUND granules (R215); none is a bound violation. -/
def relocate (base bound granule a len : Nat) : Option Nat :=
  if a + len ≤ bound * granule then some (base * granule + a) else none

/-- The physical address of L bytes at offset a of a tile's weight slice. -/
def wsAddr (s : State) (c k a len : Nat) : Option Nat :=
  let r := relocWs s c (noHoop k)
  (relocate (fld r 0 12) (fld r 12 13) 4096 a len).map (wsBase k + ·)

/-- The physical address of L bytes at offset a of an A tile. -/
def asAddr (s : State) (c k a len : Nat) : Option Nat :=
  let r := relocAs s c (noHoop k)
  (relocate (fld r 0 8) (fld r 8 9) 4096 a len).map (asBase k + ·)

/-- The physical address of L bytes at offset a of a tile's partial-sum store. -/
def psAddr (s : State) (c k a len : Nat) : Option Nat :=
  let r := relocPs s c (noHoop k)
  (relocate (fld r 0 7) (fld r 7 8) 4096 a len).map (psBase k + ·)

/-- The virtual address of L bytes at offset a of a context's HBM window. -/
def hbmVa (s : State) (c a len : Nat) : Option Nat :=
  let r := relocHbm s c
  relocate (fld r 0 27) (fld r 27 28) 0x200000 a len

/-- CTX_PT_ROOT of a context in a quarter (R42). -/
def ptRoot (q c : Nat) : Nat := ctx0Base q + 0x14000000 + (c - 1) * 0x400000

/-- The outcome of a page walk: a leaf with its physical page, size and W; no valid leaf; an uncorrectable entry. -/
inductive Xlate where
  | leaf (pa size : Nat) (w : Bool)
  | miss
  | ue (pa : Nat)
deriving DecidableEq, Repr

/-- One level of a walk: the entry at a table's index; none where the word is uncorrectable. -/
def ptEntry (s : State) (table idx : Nat) : Option Nat :=
  if (ueAt s (table + 8 * idx) 8).isSome then none else some (peekNum s (table + 8 * idx) 8)

/-- The walk of a virtual address in the copy of a quarter (R256, Table 07.6). -/
def walk (s : State) (c q va : Nat) : Xlate :=
  let root := ptRoot q c
  let i1 := va / 2 ^ 39 % 512
  match ptEntry s root i1 with
  | none => .ue (root + 8 * i1)
  | some e1 =>
    if !bitAt e1 0 || bitAt e1 1 then .miss
    else
      let t2 := fld e1 12 28 * 4096
      let i2 := va / 2 ^ 30 % 512
      match ptEntry s t2 i2 with
      | none => .ue (t2 + 8 * i2)
      | some e2 =>
        if !bitAt e2 0 then .miss
        else if bitAt e2 1 then .leaf (fld e2 30 10 * 2 ^ 30) (2 ^ 30) (bitAt e2 2)
        else
          let t3 := fld e2 12 28 * 4096
          let i3 := va / 2 ^ 21 % 512
          match ptEntry s t3 i3 with
          | none => .ue (t3 + 8 * i3)
          | some e3 =>
            if !bitAt e3 0 || !bitAt e3 1 then .miss
            else .leaf (fld e3 21 19 * 2 ^ 21) (2 ^ 21) (bitAt e3 2)

/-- The outcome of an HBM access of a context at a context-relative address (R255). -/
inductive HbmAt where
  | at_ (pa : Nat)
  | bound
  | notMapped
  | protect
  | ue (pa : Nat)
deriving DecidableEq, Repr

/-- Where an HBM access of L bytes at context-relative address a goes (R255), through the copy of quarter q. An
access that crosses a page is translated at its first byte (no access of the block crosses one). -/
def hbmAddr (s : State) (c q a len : Nat) (write : Bool) : HbmAt :=
  match hbmVa s c a len with
  | none => .bound
  | some va =>
    match walk s c q va with
    | .ue pa => .ue pa
    | .miss => .notMapped
    | .leaf pa size w => if write && !w then .protect else .at_ (pa + va % size)

/-! ## Knot addresses (Table 08.3) -/

/-- The fields of a KADDR. -/
structure KAddr where
  hbm    : Bool
  off    : Nat
  hoop   : Nat
  tile   : Nat
  remote : Bool
  mod    : Nat
  /-- a reserved field is set, or the tile does not exist (R268) -/
  bad    : Bool
deriving DecidableEq, Repr

/-- A KADDR decoded (Table 08.3). -/
def kaddrOf (k : Nat) : KAddr :=
  let hbm := bitAt k 45
  { hbm := hbm
    off := if hbm then 8 * fld k 0 45 else 8 * fld k 0 17
    hoop := fld k 17 3
    tile := fld k 20 8
    remote := bitAt k 46
    mod := fld k 47 14
    bad := fld k 61 3 ≠ 0 || (!hbm && (fld k 28 17 ≠ 0 || decide (191 < fld k 20 8))) }

/-- The sync region of a context that holds a knot: base and length in bytes (Table 08.2). -/
def syncRange (s : State) (c : Nat) (ka : KAddr) : Nat × Nat :=
  if ka.hbm then
    let r := (ctxAt s c).syncHbm.toNat
    (64 * fld r 0 42, 64 * fld r 42 20)
  else
    let r := (Tab.get 0 (ctxAt s c).syncAs ka.hoop).toNat
    (64 * fld r 0 14, 64 * fld r 14 14)

/-- Whether an offset lies in the sync region (R266). -/
def inSync (s : State) (c : Nat) (ka : KAddr) (off : Nat) : Bool :=
  let (b, l) := syncRange s c ka
  decide (b ≤ off) && decide (off + 8 ≤ b + l)

/-- Whether n bytes at context-relative offset `off` of the A tiles of Hoop h meet the context's sync region (R267). -/
def syncAsHit (s : State) (c h off n : Nat) : Bool :=
  let r := (Tab.get 0 (ctxAt s c).syncAs h).toNat
  decide (off < 64 * (fld r 0 14 + fld r 14 14)) && decide (64 * fld r 0 14 < off + n) && fld r 14 14 ≠ 0

/-- Whether n bytes at context-relative HBM address a meet the context's sync region (R267). -/
def syncHbmHit (s : State) (c a n : Nat) : Bool :=
  let r := (ctxAt s c).syncHbm.toNat
  decide (a < 64 * (fld r 0 42 + fld r 42 20)) && decide (64 * fld r 0 42 < a + n) && fld r 42 20 ≠ 0

/-- Where a knot of a context lies (R266, R277), through the copy of quarter q; `write` is that of R277. -/
def knotAt (s : State) (c q : Nat) (ka : KAddr) (write : Bool) : HbmAt :=
  if !inSync s c ka ka.off then .bound
  else if ka.hbm then hbmAddr s c q ka.off 8 write
  else
    match asAddr s c (tileOfIndex .A ka.hoop ka.tile) ka.off 8 with
    | none => .bound
    | some pa => .at_ pa

end Sys2Proof.Machine
end

