-- ==== Sys2Proof/Machine/Wild.lean ====
section
/-! DEFINITION. The two grades of undefined case (R8 to R10, R517). The machine goes on in a state that a free state
fills in wherever the grade lets the case leave anything, and that is as before everywhere else (log entry 37). -/

namespace Sys2Proof

/-- A free state: none stands for the state that meets it. -/
opaque Config.wildState : Nat → List Machine.State

namespace Machine

/-- The outcome of a command. -/
abbrev Out := Host.Outcome State Fault Refusal

/-- The free state of an undefined case met in s. -/
def wildOf (s : State) : State := (Config.wildState s.free).headD s

/-- The context that owns a site's column: that of its last commit (R401). -/
def ownerOf (s : State) (k : Nat) : Nat := (Tab.get (0, 0) (hoopAt s (noHoop k)).motifs (noCol k)).1

/-- The requester of a Hoop's Darning engine, beside the bindings of a site (0 to 7) and its end-of-run checks (8 to 11). -/
def engineWho : Nat := 12

/-- The context that a knot reply is for: an engine's site names it by its row (R281, R351). -/
def repOwner (s : State) (r : KnotRep) : Nat := if r.binding = engineWho then noRow r.site else ownerOf s r.site

/-- Whether an offset lies in the band that BASE and BOUND granules give (R214). -/
def inBand (base bound granule off : Nat) : Bool := decide (base * granule ≤ off) && decide (off < (base + bound) * granule)

/-- Whether a byte lies in a page that the context's window maps writable in a quarter (R214, R256). -/
def mapsPage (s : State) (c q pa : Nat) : Bool :=
  (List.range (fld (relocHbm s c) 27 28)).any fun i =>
    match walk s c q ((fld (relocHbm s c) 0 27 + i) * 0x200000) with
    | .leaf p size w => w && decide (p ≤ pa) && decide (pa < p + size)
    | _ => false

/-- Whether a context owns a physical byte (R214): its band of every slice, A tile and partial-sum store of a Hoop, the
operand caches of its V tiles, and the HBM pages behind its window. -/
def ownsByte (s : State) (c pa : Nat) : Bool :=
  let (st, h, _) := storeOf pa
  match st with
  | 0 => inBand (fld (relocWs s c h) 0 12) (fld (relocWs s c h) 12 13) 4096 (pa % 0x1000000)
  | 1 => inBand (fld (relocAs s c h) 0 8) (fld (relocAs s c h) 8 9) 4096 (pa % 0x100000)
  | 2 => inBand (fld (relocPs s c h) 0 7) (fld (relocPs s c h) 7 8) 4096 (pa % 0x80000)
  | 3 => populated pa && decide (pa < 0xC588000000) &&
      ownerOf s (tileOfIndex .V h (pa % 0x1000000 / 0x40000)) == c
  | _ => isSoftHbm pa && (List.range 4).any fun q => mapsPage s c q pa

/-- Every byte of a memory that p picks as another memory has it. -/
def overlay (p : Nat → Bool) (m w : List Host.Cell) : List Host.Cell :=
  (w.filter fun x => p x.1).foldl (fun m x => Tab.set 0 m x.1 x.2) (m.filter fun x => !p x.1)

/-- Every entry of a table that p picks as another table has it. -/
def overlayTab {β : Type} [DecidableEq β] (d : β) (p : Nat → Bool) (m w : Tab β) : Tab β :=
  (w.filter fun x => p x.1).foldl (fun m x => Tab.set d m x.1 x.2) (m.filter fun x => !p x.1)

/-- Whether a request of a stream stays within the memory of the context. -/
def ownReq (s : State) (c : Nat) (r : StreamReq) : Bool := (List.range r.len).all fun i => ownsByte s c (r.pa + i)

/-- A border tile as w has it; what its engine keeps for other contexts stays, and its requests name the context's own
memory. -/
def wildBorder (s : State) (c : Nat) (t w : BTile) : BTile :=
  { w with
    tlb := t.tlb, peer := t.peer.filter (fun p => p.ctx ≠ c) ++ w.peer.filter (fun p => p.ctx = c)
    walks := t.walks.filter (fun x => x.ctx ≠ c) ++ w.walks.filter (fun x => x.ctx = c)
    streams := w.streams.map fun p => (p.1, { p.2 with reqs := p.2.reqs.filter (ownReq s c) }) }

/-- Whether a token of w is none whose credit another context awaits. -/
def ownTok (s : State) (c k : Nat) (a : Token) : Bool :=
  !(hoopAt s (noHoop k)).credits.any fun x => decide (x.fid = a.fid) && decide (ownerOf s x.src ≠ c)

/-- A tile whose units, queues, credits and sequencer are those of w; its planes and what its engine keeps for other
contexts stay. -/
def wildTile (s : State) (c k : Nat) (t w : Tile) : Tile :=
  { w with
    cfg := t.cfg, prog := t.prog, shCfg := t.shCfg, shProg := t.shProg
    queues := w.queues.map fun q => (q.1, q.2.filter (ownTok s c k))
    b := wildBorder s c t.b w.b }

/-- A run of the context as w has that of its entry, on the columns it has; w may have lost it. -/
def wildRun (c : Nat) (w : Hoop) (r : RunSt) : List RunSt :=
  if r.ctx ≠ c then [r]
  else
    match w.runs.find? fun y => y.entry = r.entry with
    | none => []
    | some y => [{ r with stage := if r.stage = .running && y.stage = .stopped then .stopped else r.stage
                          phase := y.phase, split := y.split, outOk := y.outOk }]

/-- The runs, tokens and credits of a context on a Hoop as w has them: a run may have ended or be in another phase, a
token on a circuit may be lost or changed. -/
def wildHoop (s : State) (c : Nat) (x w : Hoop) : Hoop :=
  let mine (fid src : Nat) : Bool := decide (ownerOf s src = c) && x.flight.any (fun a => a.fid = fid && ownerOf s a.src = c)
  { x with
    runs := x.runs.flatMap (wildRun c w)
    flight := x.flight.filter (fun a => ownerOf s a.src ≠ c) ++ (w.flight.filter fun a => mine a.fid a.src).map ({ · with route := none })
    credits := x.credits.filter fun a => ownerOf s a.src ≠ c || w.credits.contains a }

/-- A channel of the context: every part of it but what names its halves and its ring. -/
def wildChan (c : Nat) (x w : Chan) : Chan :=
  if x.ctx ≠ c then x
  else { w with
    ctx := x.ctx, half := x.half, space := x.space, ringLog2 := x.ringLog2, ringHoop := x.ringHoop
    ringTile := x.ringTile, ringBase := x.ringBase, sender := x.sender, receiver := x.receiver
    peerMod := x.peerMod, peerChan := x.peerChan }

/-- Requests, replies, writes, copies and waiters of a context may be lost. -/
def wildNet (s : State) (c : Nat) (n w : Net) : Net :=
  { n with
    reqs := n.reqs.filter fun r => r.ctx ≠ c || w.reqs.contains r
    reps := n.reps.filter fun r => repOwner s r ≠ c || w.reps.contains r
    writes := n.writes.filter fun x => x.ctx ≠ c || w.writes.contains x
    copies := n.copies.filter fun x => x.ctx ≠ c || w.copies.contains x
    xfers := n.xfers.filter fun x => x.ctx ≠ c || w.xfers.contains x
    waiters := n.waiters.map fun p =>
      (p.1, p.2.filter fun x => x.ctx ≠ c || (Tab.get [] w.waiters p.1).contains x) }

/-- The register of a context that an undefined case of it can leave wrong: its flags, and a fault that it may raise. -/
def wildCtx (x w : Ctx) : Ctx :=
  { x with flags := w.flags, latched := if x.latched.isSome then x.latched else w.latched.map fun l => { l with done := false } }

/-- What a case that is undefined within context c leaves (R8): any value in the memory that c owns, any state of its
runs, streams, channels and knots; nothing of another context, of context 0, of the controller or of the links. -/
def undefWithin (c : Nat) (s : State) : State :=
  let w := wildOf s
  { s with
    mem := overlay (ownsByte s c) s.mem w.mem
    bad := s.bad.filter fun b => !ownsByte s c (8 * b) || w.bad.contains b
    zeros := overlayTab false (fun r => ownsByte s c (256 * r)) s.zeros w.zeros
    tiles := ((List.range 4096).filter fun k => ownerOf s k = c).foldl
      (fun m k => Tab.set Tile.reset m k (wildTile s c k (tileAt s k) (tileAt w k))) s.tiles
    hoops := s.hoops.map fun p => (p.1, wildHoop s c p.2 (hoopAt w p.1))
    chans := s.chans.map fun p => (p.1, wildChan c p.2 (chanAt w p.1))
    net := wildNet s c s.net w.net
    ctxs := Tab.set Ctx.reset s.ctxs c (wildCtx (ctxAt s c) (ctxAt w c))
    free := s.free + 1 }

/-- A case that Table 15.5 grades "undefined within the context"; context 0 is never changed by one. -/
def undef (_ : UndefCase) (c : Nat) (s : State) : State := if c = 0 then s else undefWithin c s

/-- What a case that is undefined for the module leaves (R9): any on-module state, but eFuse, BBRAM and flash; host
memory and the levels on the pins lie outside. A boot in progress stays one, so that a warm reset returns the module to
specified behaviour. -/
def undefModule (s : State) : State :=
  { wildOf s with
    pending := s.pending, host := s.host, vectors := s.vectors, ha2 := s.ha2, flash := s.flash, trust := s.trust, pins := s.pins
    mem := overlay populated [] (wildOf s).mem, free := s.free + 1
    dev := { (wildOf s).dev with bootWait := s.dev.bootWait, bootCause := s.dev.bootCause } }

end Machine

end Sys2Proof
end

