-- ==== Sys2Proof/Machine/Ops.lean ====
section
/-! DEFINITION. Operations that the meanings share: updates of one item, events and the fault log, latching a fault,
queues and credits, firing a step, knot requests and messages for other modules. -/

namespace Sys2Proof.Machine

/-! ## One item -/

def setTile (s : State) (k : Nat) (t : Tile) : State := { s with tiles := Tab.set Tile.reset s.tiles k t }
def modTile (k : Nat) (f : Tile → Tile) (s : State) : State := setTile s k (f (tileAt s k))
def modHoop (h : Nat) (f : Hoop → Hoop) (s : State) : State :=
  { s with hoops := Tab.set Hoop.reset s.hoops h (f (hoopAt s h)) }
def modCtx (c : Nat) (f : Ctx → Ctx) (s : State) : State :=
  { s with ctxs := Tab.set Ctx.reset s.ctxs c (f (ctxAt s c)) }
def modChan (n : Nat) (f : Chan → Chan) (s : State) : State :=
  { s with chans := Tab.set Chan.reset s.chans n (f (chanAt s n)) }
def modPort (p : Nat) (f : Port → Port) (s : State) : State :=
  { s with ports := Tab.set Port.reset s.ports p (f (portAt s p)) }
def modLink (p : Nat) (f : Link → Link) (s : State) : State :=
  { s with links := Tab.set (Link.reset 0) s.links p (f (linkAt s p)) }
def modNet (f : Net → Net) (s : State) : State := { s with net := f s.net }
def modDev (f : Dev → Dev) (s : State) : State := { s with dev := f s.dev }

/-- The next free values are taken from the counter after these n. -/
def useFree (n : Nat) (s : State) : State := { s with free := s.free + n }

/-- The free value of 64 bits at the counter. -/
def freeNat (s : State) (k : Nat) : Nat := (Config.freeWord (s.free + k)).toNat

/-- Software contexts. -/
def softCtxs : List Nat := (List.range 15).map (· + 1)

/-- The state of a context for Table 09.7: a latched fault makes it FAULTED before its tear-down ends. -/
def ctxSt (s : State) (c : Nat) : CtxState :=
  let x := ctxAt s c
  if x.latched.isSome then .faulted else x.st

/-! ## Host memory (R416, R422, R483) -/

def hostRead (s : State) (port addr n : Nat) : List Byte := bytesAt s.host (port * 2 ^ 64 + addr) n
def hostWrite (s : State) (port addr : Nat) (bs : List Byte) : State :=
  { s with host := putBytes s.host (port * 2 ^ 64 + addr) bs }

/-- Whether the fabric and its stores run: not in a reset, ROM recovery or module Dormant (R501, R507). -/
def fabricOn (s : State) : Bool := s.dev.ready && !s.pins.dormant

/-! ## Events (R446, R447) -/

/-- The 64 bytes of an event record (R447). -/
def eventBytes (r : EventRec) : List Byte :=
  toLE 8 r.eseq ++ toLE 2 r.code ++ toLE 1 r.ctx ++ toLE 5 0 ++ toLE 8 r.stitch.toNat ++ padTo 40 r.payload

/-- Whether a vector of an HL port is masked in its MSI-X table (bit 0 of the vector's last word: PRESUMED, PCI Express). -/
def msixMasked (s : State) (p v : Nat) : Bool := (Tab.get 0 s.ha2.table (64 * p + 16 * v + 12)).getLsbD 0

/-- The HA-2 of an HL port signals an MSI-X vector, which stays pending while it is masked; ports 2 and 3 have none
(R482, R483). -/
def signal (p v : Nat) (s : State) : State :=
  { s with
    vectors := if p < 2 then (p, v) :: s.vectors else s.vectors
    ha2 := if p < 2 && msixMasked s p v then { s.ha2 with pending := Tab.set false s.ha2.pending (4 * p + v) true } else s.ha2 }

/-- A record written into an event ring, and TAIL advanced; the HA-2 signals vector 0. -/
def ringWrite (p : Nat) (bs : List Byte) (s : State) : State :=
  let e := (portAt s p).ev
  let off := (e.tail.toNat % 2 ^ e.log2n.toNat) * 64
  let s1 :=
    if e.loc then modPort p (fun x => { x with evArea := putBytes x.evArea off bs }) s
    else hostWrite s p (e.base.toNat + off) bs
  signal p 0 (modPort p (fun x => { x with ev := { x.ev with tail := x.ev.tail + 1 } }) s1)

/-- Whether an event ring has room for a record. -/
def ringRoom (s : State) (p : Nat) : Bool :=
  let e := (portAt s p).ev
  decide ((e.tail - e.head).toNat < 2 ^ e.log2n.toNat)

/-- The ESEQ of an EVENTS_LOST record ahead of a record: the spec gives it none of its own; it is that of one of the events
lost, which keeps the ring in ESEQ order (R446, R447; DESIGN CHOICE, log entry 10). -/
def lostEseq (s : State) (r : EventRec) (missed : Nat) : Nat := r.eseq - 1 - freeNat s 0 % max 1 (min missed (r.eseq - 1))

/-- An event ring receives a record: EVENTS_LOST first where records were lost, and LOST where there is no room. -/
def ringPut (r : EventRec) (p : Nat) (s : State) : State :=
  let e := (portAt s p).ev
  if !e.en then s
  else
    let s1 :=
      if e.missed ≠ 0 && ringRoom s p then
        useFree 1 (modPort p (fun x => { x with ev := { x.ev with missed := 0 } })
          (ringWrite p (eventBytes ⟨lostEseq s r e.missed, 2, 0, r.stitch, toLE 4 e.missed⟩) s))
      else s
    if ringRoom s1 p then ringWrite p (eventBytes r) s1
    else modPort p (fun x =>
      { x with ev := { x.ev with lost := satAdd 32 x.ev.lost 1, missed := satAdd 32 x.ev.missed 1 } }) s1

/-- An event is raised: it takes the next ESEQ and goes to every enabled event ring (R446). -/
def raise (code ctx : Nat) (payload : List Byte) (s : State) : State :=
  let r : EventRec := ⟨s.logs.eseq + 1, code, ctx, s.stitch.count, payload⟩
  let s1 := { s with logs := { s.logs with eseq := s.logs.eseq + 1, raised := r :: s.logs.raised } }
  (List.range 4).foldl (fun s p => ringPut r p s) s1

/-! ## The sticky fault log (R511) -/

/-- A fault-log entry; the 257th overwrites the oldest and sets WRAPPED. -/
def logEntry (kind ctx code detail wher eseq : Nat) (s : State) : State :=
  let e : LogEntry := ⟨kind, ctx, code, detail, s.logs.lseq + 1, s.stitch.count, BitVec.ofNat 64 wher, eseq⟩
  { s with logs := { s.logs with
      lseq := s.logs.lseq + 1
      faults := (e :: s.logs.faults).take 256
      wrapped := s.logs.wrapped || decide (256 ≤ s.logs.faults.length) } }

/-- An uncorrectable word met outside any context: MEM_UE_FOUND and the log entry (R220, Table 12.16). -/
def ueFound (pa : Nat) (s : State) : State :=
  let (st, h, t) := storeOf pa
  let s1 := raise 0x31 0 (toLE 1 st ++ toLE 1 h ++ toLE 1 t ++ toLE 1 0 ++ toLE 8 pa) s
  logEntry 3 0 0 st pa s1.logs.eseq s1

/-- A context-0 access to an unpopulated address (R46). -/
def unpopulatedAt (pa : Nat) (write : Bool) (s : State) : State :=
  logEntry 2 0 0 (if write then 1 else 0) pa 0 s

/-! ## Latching a fault (R325 step 1, R326, R510) -/

/-- The value of a fault code (Table 15.1). -/
def FaultCode.num : FaultCode → Nat
  | .bound => 0x01
  | .xlate => 0x02
  | .eccUe => 0x03
  | .overrun => 0x04
  | .knotOvf => 0x05
  | .knotUdf => 0x06
  | .gatherCount => 0x07
  | .chanTooLong => 0x08
  | .lateGradient => 0x09
  | .steerMismatch => 0x0A
  | .hazard => 0x0B
  | .laneFlagTrap => 0x0C
  | .halted => 0x0E
  | .weightUe => 0x0F
  | .queueParity => 0x10
  | .linkLost => 0x11

/-- The item that raises a fault: Hoop, column, row and step (R510). -/
structure Item where
  hoop : Nat
  col  : Nat
  row  : Nat
  step : Nat
deriving DecidableEq, Repr

/-- An item outside every Hoop (R510). -/
def noItem : Item := ⟨0xFF, 0xFF, 0xFF, 0xFFFF⟩

/-- An item of a Hoop that is no tile: its Darning engine, or a subscription of its tap (R510). -/
def hoopItem (h : Nat) : Item := ⟨h, 0xFF, 0xFF, 0xFFFF⟩

/-- A tile as the item of a fault: its step where its sequencer is active. -/
def tileItem (s : State) (k : Nat) : Item :=
  let t := tileAt s k
  ⟨noHoop k, noCol k, noRow k, if t.seq.on then t.seq.pc else 0xFFFF⟩

/-- A tile as the item of a fault of a unit that acts on its own. -/
def unitItem (k : Nat) : Item := ⟨noHoop k, noCol k, noRow k, 0xFFFF⟩

/-- A fault reaches the controller: the first code is latched with the detail of its record, later ones are counted
until the tear-down is done (R326, R510). -/
def latch (c : Nat) (code : FaultCode) (it : Item) (reason load : Nat) (d : FaultDetail) (s : State) : State :=
  modCtx c (fun x =>
    match x.latched with
    | none => { x with latched := some ⟨code, it.hoop, it.col, it.row, it.step, reason, load, 0, d, false⟩ }
    | some l => if l.done then x else { x with latched := some { l with extra := satAdd 16 l.extra 1 } }) s

/-- A fault of a tile's context, with what its record names. -/
def faultWith (c : Nat) (code : FaultCode) (it : Item) (d : FaultDetail) (s : State) : State := latch c code it 0 0 d s

/-- A fault whose record names no more than its item. -/
def faultAt (c : Nat) (code : FaultCode) (it : Item) (s : State) : State := faultWith c code it .none s

/-- What stops an access for a context: an undefined case, or a fault with what its record names. -/
inductive Stop where
  | undef (u : UndefCase)
  | fault (code : FaultCode) (d : FaultDetail)
deriving DecidableEq, Repr

def Stop.out (e : Stop) (c : Nat) (it : Item) (s : State) : State :=
  match e with
  | .undef u => Machine.undef u c s
  | .fault f d => faultWith c f it d s

/-- Flags ORed into the context's summary; a trapped flag faults the context, and the record names the flags that the
operation raised (R153, R184, R239). -/
def ctxFlags (c : Nat) (fl : Nat) (it : Item) (s : State) : State :=
  let s1 := modCtx c (fun x => { x with flags := x.flags ||| BitVec.ofNat 6 fl }) s
  if BitVec.ofNat 6 fl &&& (ctxAt s c).trap ≠ 0 then faultWith c .laneFlagTrap it (.flags (fl % 64)) s1 else s1

/-! ## Runs, queues and credits -/

/-- The run in progress on the region that holds a tile. -/
def runOf (s : State) (k : Nat) : Option RunSt :=
  (hoopAt s (noHoop k)).runs.find? fun r =>
    decide (r.stage = .running) && decide (r.c0 ≤ noCol k) && decide (noCol k ≤ r.c1)

/-- The tokens of queue q, oldest first. -/
def qToks (t : Tile) (q : Nat) : List Token := Tab.get [] t.queues q

/-- Whether some entry of the tile's switch box injects output o, so that the output has a circuit (R87, R88). -/
def hasCircuit (t : Tile) (o : Nat) : Bool :=
  (List.range 16).any fun i => decide (fld (swOut t (i / 4) (i % 4)) 0 3 = 5) && decide (fld (swOut t (i / 4) (i % 4)) 3 2 = o)

def dCred (t : Tile) (o : Nat) : Nat := Tab.get 0 t.dcred o
def cCred (t : Tile) (o : Nat) : Nat := Tab.get 0 t.ccred o

/-- Whether output o holds a credit of this kind. -/
def hasCredit (t : Tile) (o : Nat) (ctrl : Bool) : Bool := decide (0 < if ctrl then cCred t o else dCred t o)

/-- Two clocks joined: the later epoch of each agent (R519). -/
def joinClock (a b : Tab Nat) : Tab Nat := b.foldl (fun m p => Tab.set 0 m p.1 (max (Tab.get 0 m p.1) p.2)) a

/-- A token leaves a tile on an output: it takes a credit and enters the circuit (R96). -/
def sendTokVc (k o : Nat) (ctrl : Bool) (v : DataTok) (vc : Tab Nat) (s : State) : State :=
  let s1 := modTile k (fun t =>
    if ctrl then { t with ccred := Tab.set 0 t.ccred o (cCred t o - 1) }
    else { t with dcred := Tab.set 0 t.dcred o (dCred t o - 1) }) s
  let s2 := modHoop (noHoop k) (fun h => { h with flight := h.flight ++ [⟨ctrl, v, true, k, o, s.net.nextFid, vc, none⟩] }) s1
  modNet (fun n => { n with nextFid := n.nextFid + 1 }) s2

/-- What a tile's program has observed, its own accesses included, in debug mode (R519). -/
def ownClock (s : State) (k : Nat) : Tab Nat :=
  let t := tileAt s k
  if s.dev.debug then Tab.set 0 t.vc k (t.epoch + 1) else []

/-- A token of the tile's program: in debug mode it carries what the program has observed (R519). -/
def sendTok (k o : Nat) (ctrl : Bool) (v : DataTok) (s : State) : State :=
  sendTokVc k o ctrl v (ownClock s k) s

/-- One branch of a token's circuit has been consumed: its credit is on its way (R91). -/
def backCredit (h fid : Nat) (s : State) : State :=
  modHoop h (fun x => { x with credits := x.credits.map fun c => if c.fid = fid then { c with left := c.left - 1 } else c }) s

/-- The first token of a queue is consumed (R92, R99). -/
def popTok (k q : Nat) (s : State) : State :=
  match qToks (tileAt s k) q with
  | [] => s
  | a :: rest =>
    backCredit (noHoop k) a.fid (modTile k (fun t =>
      { t with queues := Tab.set [] t.queues q rest, vc := joinClock t.vc a.vc }) s)

/-- The first token of a queue, where its parity holds; a parity error faults the context and consumes nothing. -/
inductive Head where
  | empty
  | parity
  | tok (a : Token)
deriving DecidableEq, Repr

def headOf (t : Tile) (q : Nat) : Head :=
  match qToks t q with
  | [] => .empty
  | a :: _ => if a.parityOk then .tok a else .parity

/-- Steps that the tile's program image lists (a step of zeros is a NOP that names nothing). -/
def listedSteps (t : Tile) : List Nat := ((t.prog.map fun p => p.1 / 8).filter (· < 1024)).eraseDups

/-- Whether some step names queue q in INQ. -/
def stepsUseQ (t : Tile) (q : Nat) : Bool := (listedSteps t).any fun i => bitAt (stepAt t i).inq q

/-- Whether some step names output o in OUTD or OUTC. -/
def stepsUseO (t : Tile) (o : Nat) : Bool :=
  (listedSteps t).any fun i => bitAt (stepAt t i).outd o || bitAt (stepAt t i).outc o

/-- The places of the bits that are set in an n-bit mask. -/
def bitsOf (n m : Nat) : List Nat := (List.range n).filter (bitAt m)

/-! ## Users of an A tile's queues and outputs beside its steps (R208) -/

def adMask (d : Nat) : Bool := bitAt d 40
def adMq (d : Nat) : Nat := fld d 41 4

/-- Fields of a SWIN register (Table 06.4). -/
def swEn (r : Nat) : Bool := bitAt r 0
def swDirOut (r : Nat) : Bool := bitAt r 1
def swQp (r : Nat) : Nat := fld r 2 4
def swArm (r : Nat) : Bool := bitAt r 6
def swBase (r : Nat) : Nat := fld r 7 14
def swLen (r : Nat) : Nat := fld r 21 15

/-- Whether an enabled window is bound to queue q, or to output o (R208, Table 06.4). -/
def winHasQ (t : Tile) (q : Nat) : Bool :=
  (List.range 4).any fun w => swEn (swinReg t w) && !swDirOut (swinReg t w) && swQp (swinReg t w) == q
def winHasO (t : Tile) (o : Nat) : Bool :=
  (List.range 4).any fun w => swEn (swinReg t w) && swDirOut (swinReg t w) && fld (swQp (swinReg t w)) 0 2 == o

/-- Whether an engine step of the program takes queue q, or sends on output o, by its ARGS and descriptor (R203). -/
def engineHasQ (t : Tile) (q : Nat) : Bool :=
  (listedSteps t).any fun i =>
    let st := stepAt t i
    let d := adAt t (fld st.args 0 4)
    ((st.opc == 1 || st.opc == 3 || st.opc == 4) && fld st.args 4 4 == q) || (st.opc == 1 && adMask d && adMq d == q)
def engineHasO (t : Tile) (o : Nat) : Bool :=
  (listedSteps t).any fun i => ((stepAt t i).opc == 2 || (stepAt t i).opc == 4) && fld (stepAt t i).args 9 2 == o

/-- Whether a step of an A tile names a queue or output that a window or an engine operation uses (R208). -/
def stepShares (t : Tile) (st : Stp) : Bool :=
  ((bitsOf 16 st.inq).any fun q => winHasQ t q || engineHasQ t q) ||
  ((bitsOf 4 st.outd) ++ bitsOf 4 st.outc).any fun o => winHasO t o || engineHasO t o

/-! ## Firing a step (R98 to R100, R104) -/

/-- A step waits: its stall counter and the reason (R104, R550). -/
def stall (k reason : Nat) (s : State) : State :=
  modTile k (fun t => { t with seq := { t.seq with
    waitIn := if reason = 1 then satAdd 32 t.seq.waitIn 1 else t.seq.waitIn
    waitCred := if reason = 2 then satAdd 32 t.seq.waitCred 1 else t.seq.waitCred
    wait := reason } }) s

/-- Whether the queues that a step names hold a token each. -/
def inReady (t : Tile) (st : Stp) : Bool := (bitsOf 16 st.inq).all fun q => !(qToks t q).isEmpty

/-- Whether the outputs that a step names hold their credits. -/
def outReady (t : Tile) (st : Stp) : Bool :=
  ((bitsOf 4 st.outd).all fun o => hasCredit t o false) && ((bitsOf 4 st.outc).all fun o => hasCredit t o true)

/-- The FLOW of a step that fires (Table 03.9); none is flow past step 1,023 or a reserved value (R100). -/
def flowTo (t : Tile) (st : Stp) : Option Seq :=
  let nxt (q : Seq) : Option Seq := if q.pc = 1023 then none else some { q with pc := q.pc + 1 }
  let q := { t.seq with wait := 0, issued := false }
  match st.flow with
  | 0 => nxt q
  | 1 => some { q with pc := st.target }
  | 2 =>
    if 1 < lcAt t st.lc then some { q with pc := st.target, lc := Tab.set 0 q.lc st.lc (lcAt t st.lc - 1) }
    else nxt { q with lc := Tab.set 0 q.lc st.lc (lcInit t st.lc) }
  | 3 =>
    if lcAt t st.lc = 0 then some { q with pc := st.target, lc := Tab.set 0 q.lc st.lc (lcInit t st.lc) } else nxt q
  | 4 => some { q with ended := true, wait := 4 }
  | _ => none

/-- A step fires: its tokens are consumed, its outputs each get one token, and its FLOW acts. A data token that a
step produces has no value that the spec states: it is free. -/
def fire (k c : Nat) (st : Stp) (cval : BitVec 32) (s : State) : State :=
  let t := tileAt s k
  if (bitsOf 16 st.inq).any fun q => decide (headOf t q = .parity) then faultAt c .queueParity (tileItem s k) s
  else
    match flowTo t st with
    | none => undef .flow c s
    | some q =>
      let s1 := (bitsOf 16 st.inq).foldl (fun s i => popTok k i s) s
      let s2 := (bitsOf 4 st.outd).foldl
        (fun s o => useFree 1 (sendTok k o false (Config.freeTok s.free) s)) s1
      let s3 := (bitsOf 4 st.outc).foldl (fun s o => sendTok k o true (cval.setWidth 512) s) s2
      modTile k (fun t => { t with seq := { q with waitIn := t.seq.waitIn, waitCred := t.seq.waitCred }
                                   epoch := t.epoch + 1 }) s3

/-- The value of a control token that a step produces (R203, R272). -/
def plainCtl : BitVec 32 := 0x80000000

/-- Whether an operation code is one of the tile's kind (Tables 04.1, 05.2, 06.2, 07.3). -/
def opcKnown : Kind → Nat → Bool
  | .M, o => decide (o ≤ 5)
  | .V, o => decide (o ≤ 0x0A)
  | .A, o => decide (o ≤ 6)
  | .B, o => decide (o ≤ 4)
  | _, _ => false

/-- A command that names a tile's current step: it acts when a run is in progress on the tile, its sequencer stands
on a step that `is` accepts, and the queues and outputs of R99 are ready; else the step waits, or nothing happens
(log entry 7). R104 does not say which counter counts a wait for both: DESIGN CHOICE, that for input tokens (log entry
38). -/
def tileStep (site : Site) (kd : Kind) (is : Stp → Bool) (body : Nat → Nat → Stp → State → State) (s : State) : State :=
  let k := siteNo site
  let t := tileAt s k
  match runOf s k with
  | none => s
  | some r =>
    if kindOf k ≠ kd || !t.seq.on || t.seq.ended then s
    else
      let st := curStep t
      if 4 < st.flow then undef .flow r.ctx s
      else if st.flow = 3 then s
      else if !opcKnown kd st.opc then undef .opcode r.ctx s
      else if !is st then s
      else if kd = .A && stepShares t st then undef .aOperation r.ctx s
      else if !inReady t st then stall k 1 s
      else if !outReady t st then stall k 2 s
      else body k r.ctx st s

/-- A step waits for its unit (R124). -/
def unitBusy (k : Nat) (s : State) : State := stall k 3 s

/-! ## Messages for other modules and knot requests -/

/-- A knot request leaves its agent (R275). -/
def pushReq (r : KnotReq) (s : State) : State := modNet (fun n => { n with reqs := n.reqs ++ [r] }) s

/-! ## What a command of the ground can change -/

/-- A Hoop in Rest or Sleep starts its exit (R505, R506). -/
def startExit (h : Nat) (s : State) : State :=
  if (hoopAt s h).power = .rest then modHoop h (fun x => { x with power := .exiting false }) s
  else if (hoopAt s h).power = .sleep then modHoop h (fun x => { x with power := .exiting true }) s
  else s

/-- The Hoop that an access from outside to an address wakes and waits for: one whose clock does not run (R506). -/
def asleepAt (s : State) (pa : Nat) : Option Nat :=
  let h := (storeOf pa).2.1
  if isHbm pa || decide ((hoopAt s h).power = .on) then none else some h

/-- The part of the state that the ground, its engines and the links among its agents can change: the queue,
transactions, waiting commands, flash, fuses, BBRAM and pins stay (R405, R498, R527). Events still reach the host. -/
def groundPart (s s' : State) : State :=
  { s' with pending := s.pending, txns := s.txns, waits := s.waits, flash := s.flash
            trust := s.trust, pins := s.pins }

/-- The part of the state that a command outside the ground can change, unless it acts on pins or trust: the queue, the
pins, fuses and BBRAM stay (R498, R527). -/
def ctlPart (s s' : State) : State := { s' with pending := s.pending, trust := s.trust, pins := s.pins }

/-- A command that the controller carries out. -/
def ctl (s' s : State) : Out := .next (ctlPart s s')

/-- A command that leaves the queue as it stands. -/
def keepQueue (s' s : State) : Out := .next { s' with pending := s.pending }

/-- A command of the ground. -/
def ground (s' s : State) : Out := .next (groundPart s s')

end Sys2Proof.Machine
end

