-- ==== Sys2Proof/Machine/Hazard.lean ====
section
/-! DEFINITION. The hazard detector of debug mode (R518 to R520): tags of A-tile words, and agents as R550 codes them. -/

namespace Sys2Proof.Machine

/-- An agent's code (R550): Hoop, column, row, kind and index. -/
def agentCode (k kind idx : Nat) : Nat :=
  noHoop k + noCol k * 8 + noRow k * 256 + kind * 4096 + idx * 32768

/-- The tile or service whose progress orders an agent: the units and windows of a tile go by its tile number, other
agents by a number of their own. -/
def agentKey (code : Nat) : Nat :=
  let k := tileNo (fld code 0 3) (fld code 3 5) (fld code 8 4)
  let kind := fld code 12 3
  if kind = 0 then k
  else if kind = 1 then 8192 + 4 * k + fld code 15 6 % 4
  else if kind = 2 then k
  else 65536 + code

/-- Whether what an agent has observed covers an access of another agent (R519). The units of one tile are in its program
order. -/
def ordered (s : State) (x : Nat) (known : Tab Nat) (y epoch : Nat) : Bool :=
  decide (x = y) || decide (agentKey x = agentKey y) ||
  decide (epoch + 1 ≤ Tab.get 0 known (agentKey y)) || !s.dev.debug

/-- A pair that forms no hazard: two atomic operations (R518). `atomic` marks an access by an atomic operation. -/
def wordHazard (s : State) (x : Nat) (known : Tab Nat) (write atomic : Bool) (w : Nat) : Option Nat :=
  let (wr, we, rd, re) := Tab.get (0, 0, 0, 0) s.tags w
  -- agent codes are stored plus one, and twice so that the low bit marks an atomic access
  let isAtomic (a : Nat) : Bool := decide (a % 2 = 1)
  if wr ≠ 0 && !(atomic && isAtomic wr) && !ordered s x known (wr / 2 - 1) we then some (wr / 2 - 1)
  else if write && rd ≠ 0 && !(atomic && isAtomic rd) && !ordered s x known (rd / 2 - 1) re then some (rd / 2 - 1)
  else none

/-- A CHECK_FAIL of kind HAZARD is held in the fault's dump: the first word and agents (R520). -/
structure HazardHit where
  pa : Nat
  x  : Nat
  y  : Nat
deriving DecidableEq, Repr

/-- What an agent of another module has observed of the accesses here (R519): the links of other modules are not part of the
state, so it is a free choice whether it covers all of them or none. -/
def farClock (s : State) : Tab Nat :=
  if !s.dev.debug || freeNat s 0 % 2 = 0 then []
  else s.tags.foldl (fun m p =>
    let note (m : Tab Nat) (a e : Nat) : Tab Nat :=
      if a = 0 then m else Tab.set 0 m (agentKey (a / 2 - 1)) (max (Tab.get 0 m (agentKey (a / 2 - 1))) (e + 1))
    note (note m p.2.1 p.2.2.1) p.2.2.2.1 p.2.2.2.2) []

/-- The first hazard of an access to bytes of an A tile (R519); none outside debug mode. -/
def hazardOf (s : State) (x : Nat) (known : Tab Nat) (write atomic : Bool) (pa n : Nat) : Option HazardHit :=
  if !s.dev.debug || n = 0 then none
  else ((List.range ((pa + n + 7) / 8 - pa / 8)).findSome? fun i =>
    (wordHazard s x known write atomic (pa / 8 + i)).map fun y => ⟨8 * (pa / 8 + i), x, y⟩)

/-- The tags after an access (R518). -/
def tagAccess (x epoch : Nat) (write atomic : Bool) (pa n : Nat) (s : State) : State :=
  if !s.dev.debug || n = 0 then s
  else
    let code := 2 * (x + 1) + (if atomic then 1 else 0)
    { s with tags := (List.range ((pa + n + 7) / 8 - pa / 8)).foldl (fun m i =>
        let w := pa / 8 + i
        let (wr, we, rd, re) := Tab.get (0, 0, 0, 0) m w
        Tab.set (0, 0, 0, 0) m w (if write then (code, epoch, rd, re) else (wr, we, code, epoch))) s.tags }

/-- An A-tile access under the detector: a hazard faults the context and the access does not take effect (R520). -/
def guarded (c : Nat) (it : Item) (x : Nat) (known : Tab Nat) (epoch : Nat) (write atomic : Bool) (pa n : Nat)
    (f : State → State) (s : State) : State :=
  match hazardOf s x known write atomic pa n with
  | some h =>
    let s1 := faultAt c .hazard it s
    { s1 with logs := { s1.logs with hazards := (c, h.pa, h.x, h.y) :: s1.logs.hazards } }
  | none => f (tagAccess x epoch write atomic pa n s)

/-- One operation's accesses to several places of an A tile, under the detector: the first hazard stops all. -/
def guardedAll (c : Nat) (it : Item) (x : Nat) (known : Tab Nat) (epoch : Nat) (acc : List (Bool × Nat × Nat))
    (f : State → State) (s : State) : State :=
  match acc with
  | [] => f s
  | (write, pa, n) :: rest => guarded c it x known epoch write false pa n (guardedAll c it x known epoch rest f) s

end Sys2Proof.Machine
end

