-- ==== Sys2Proof/Machine/Sequencer.lean ====
section
/-! DEFINITION. Steps that every sequencer has, and how a step is issued to a unit (R98 to R100, R124). -/

namespace Sys2Proof.Machine

/-- Whether a stream has been started in the run and is not COMPLETE. -/
def Stream.pending (x : Stream) : Bool := x.started ≠ 0 && decide (x.st ≠ .complete)

/-- The condition of FENCE for the tile's kind: every unit idle and every write in place (R124, R162, R203, R235). -/
def fenceOk (t : Tile) : Kind → Bool
  | .M => t.m.loader.isNone && t.m.array.isNone && t.m.drain.isNone
  | .V => t.v.mover.isNone && t.v.qin.isNone && t.v.qout.isNone
  | .A => t.a.isNone
  | .B => t.b.streams.all fun p => !p.2.pending
  | _ => true

/-- The firing of a FENCE covers every access that the tile's units made before it (R519). -/
def issueMark (k : Nat) (s : State) : State := modTile k (fun t => { t with seq := { t.seq with issued := true } }) s

/-- A step that gives its unit an operation: the unit accepts it and the step fires. A step whose FLOW is END stays
current after the acceptance until the condition of FENCE holds (R124). `free` is whether the unit can accept. -/
def issue (kd : Kind) (k c : Nat) (st : Stp) (free : Bool) (accept : State → State) (s : State) : State :=
  let t := tileAt s k
  if t.seq.issued then (if fenceOk t kd then fire k c st plainCtl s else unitBusy k s)
  else if !free then unitBusy k s
  else if (bitsOf 16 st.inq).any fun q => decide (headOf t q = .parity) then
    faultAt c .queueParity (tileItem s k) s
  else
    let s1 := accept s
    if st.flow = 4 then
      let s2 := issueMark k s1
      if fenceOk (tileAt s2 k) kd then fire k c st plainCtl s2 else s2
    else fire k c st plainCtl s1

/-- A step that occupies no unit: it fires when it is reached, and with END under the condition of FENCE. -/
def plainStep (kd : Kind) (k c : Nat) (st : Stp) (ok : Bool) (cval : BitVec 32) (s : State) : State :=
  let t := tileAt s k
  if ok && (st.flow ≠ 4 || fenceOk t kd) then fire k c st cval s else unitBusy k s

/-- NOP: fires when it is reached (R99); OPC 0x00 of every kind. -/
def execNop (site : Site) (s : State) : Out :=
  let kd := kindOf (siteNo site)
  ground (tileStep site kd (fun st => st.opc = 0) (fun k c st s => plainStep kd k c st true plainCtl s) s) s

/-- SKIPZ: fires nothing; it goes to TARGET and reloads the counter when the counter is 0, else to the next step
(Table 03.9). -/
def execSkipz (site : Site) (s : State) : Out :=
  let k := siteNo site
  let t := tileAt s k
  ground (match runOf s k with
  | none => s
  | some r =>
    if (kindOf k = .S || kindOf k = .G) || !t.seq.on || t.seq.ended || (curStep t).flow ≠ 3 then s
    else
      match flowTo t (curStep t) with
      | none => undef .flow r.ctx s
      | some q => modTile k (fun t => { t with seq := q }) s) s

/-- A FENCE step of a kind. -/
def fenceStep (kd : Kind) (opc : Nat) (site : Site) (s : State) : Out :=
  ground (tileStep site kd (fun st => st.opc = opc)
    (fun k c st s => plainStep kd k c st (fenceOk (tileAt s k) kd) plainCtl s) s) s

/-- FENCE of an M tile: fires when all three units are idle and their writes are complete (R122). -/
def execMFence (site : Site) (s : State) : Out := fenceStep .M 5 site s

/-- FENCE of a V tile (R162). -/
def execVFence (site : Site) (s : State) : Out := fenceStep .V 0x0A site s

/-- FENCE of an A tile: fires when the engine is idle and its writes are in place (R203). -/
def execAFence (site : Site) (s : State) : Out := fenceStep .A 6 site s

/-- FENCE of a B tile: fires when every stream that the tile started in the run is COMPLETE (R235). -/
def execBFence (site : Site) (s : State) : Out := fenceStep .B 4 site s

end Sys2Proof.Machine
end

