-- ==== Sys2Proof/Machine/MTile.lean ====
section
/-! DEFINITION. Matrix tiles: loader, array and drain (R120 to R155). -/

namespace Sys2Proof.Machine

/-! ## Mask bits and neighbour accesses -/

/-- The A neighbour on a side: 0 west, 1 east (R84, R135). -/
def sideTile (k side : Nat) : Option Nat :=
  if side = 0 then (if hasA (noCol k - 1) && noCol k ≠ 0 then some (k - 16) else none)
  else if hasA (noCol k + 1) then some (k + 16) else none

/-- Whether bytes of an A tile lie in banks 0 to 3. -/
def inWideBanks (a pa n : Nat) : Bool := decide (pa + n ≤ asBase a + 0x80000)

/-- The outcome of an access to an A tile of a context: an address, or what stops it. -/
inductive WideAt where
  | at_ (pa : Nat)
  | bound (off n : Nat)
  | banks
  | sync
  | ue (pa : Nat)
deriving DecidableEq, Repr

/-- A read or whole write of n bytes at context-relative offset `off` of A tile `a` through its wide port. -/
def wideAt (s : State) (c a off n : Nat) (read : Bool) : WideAt :=
  match asAddr s c a off n with
  | none => .bound off n
  | some pa =>
    if !inWideBanks a pa n then .banks
    else if syncAsHit s c (noHoop a) off n then .sync
    else
      match if read then ueAt s pa n else mergeUe s pa n with
      | some w => .ue w
      | none => .at_ pa

/-- What a failed access does to its context; the undefined case is that of its unit. -/
def wideFail (u : UndefCase) (c : Nat) (it : Item) (w : WideAt) (s : State) : State :=
  match w with
  | .bound a n => faultWith c .bound it (.access 1 a n) s
  | .banks => undef u c s
  | .sync => undef .syncWord c s
  | .ue pa => faultWith c .eccUe it (.word pa) s
  | .at_ _ => s

/-- The byte and bit of strip b in a mask array of an A tile (R77). -/
def maskByte (amask b : Nat) : Nat := amask * 64 + 8 * (b / 64) + b % 64 / 8

/-- The mask word of strip b. -/
def maskWord (amask b : Nat) : Nat := amask * 64 + 8 * (b / 64)

/-- A byte with bit j set to v. -/
def setBitOf (x : Byte) (j : Nat) (v : Bool) : Byte :=
  if v then x ||| (1#8 <<< j) else x &&& ~~~(1#8 <<< j)

/-- One mask bit written into its word; no other bit changes (R147). -/
def putMaskBit (pa b : Nat) (v : Bool) (s : State) : State :=
  let a := pa + b % 64 / 8
  poke s a [setBitOf (Tab.get 0 s.mem a) (b % 8) v]

/-! ## Weight blocks -/

/-- Image bytes (Table 04.2). -/
def imageSize (fmt : Nat) (sp24 : Bool) : Nat :=
  let wide := decide (fmtBytes fmt = 2)
  match sp24, wide with
  | false, true => 8192
  | false, false => if fmt = 1 then 4160 else 4096
  | true, true => 9216
  | true, false => if fmt = 1 then 5248 else 5120

/-- The operand formats of M tiles (R49). -/
def isMFmt (fmt : Nat) : Bool := decide (fmt ≤ 5)

/-- Byte j of an image. -/
def imgByte (im : List Byte) (j : Nat) : Nat := (im.getD j 0).toNat

/-- Element j of width w at an offset of an image. -/
def imgElem (im : List Byte) (off w j : Nat) : Nat :=
  if w = 2 then imgByte im (off + 2 * j) + 256 * imgByte im (off + 2 * j + 1) else imgByte im (off + j)

/-- The kept weights of output n: position among the row's activations, and value (R80, R81, Table 04.2). -/
def weightsOf (im : List Byte) (fmt : Nat) (sp24 : Bool) (n : Nat) : List (Nat × Val) :=
  match fmtOf fmt with
  | none => []
  | some f =>
    let w := fmtBytes fmt
    if !sp24 then
      let b := signed 8 (imgByte im (4096 + n))
      (List.range 64).map fun k => (k, decode f b (imgElem im (64 * w * n) w k))
    else
      (List.range 2).flatMap fun j =>
        let sN := 2 * n + j
        let b := signed 8 (imgByte im (5120 + sN))
        (List.range 32).map fun i =>
          let word := imgByte im ((if w = 2 then 8192 else 4096) + 8 * sN + i / 4)
          let pos := fld word (2 * (i % 4)) 2
          (64 * j + 4 * (i / 2) + pos, decode f b (imgElem im (32 * w * sN) w i))

/-! ## The array (R69 to R72, Tables 04.8 and 04.9) -/

/-- A log in units of 2^-40 rounded to 12 fraction bits, ties to even (Table 02.8): units of 2^-12. -/
def log12 (l : Int) : Int := (roundLogAt ⟨0, 0⟩ 28 l).1

/-- The internal log of a finite non-zero operand, in units of 2^-12. -/
def opLog (v : Val) : Int := log12 (logOf v).1

/-- A product class (Table 04.8). -/
inductive Prod where
  | zero (neg : Bool)
  | fin (neg : Bool) (l : Int)
  | inf (neg : Bool)
  | nan (invalid : Bool)
deriving DecidableEq, Repr

/-- The product of two operands (Table 04.8). -/
def product (a b : Val) : Prod :=
  let n := isNeg a != isNeg b
  match a, b with
  | .nan _, _ | _, .nan _ => .nan false
  | .zero _, .inf _ | .inf _, .zero _ => .nan true
  | .zero _, _ | _, .zero _ => .zero n
  | .inf _, _ | _, .inf _ => .inf n
  | _, _ => .fin n (opLog a + opLog b)

/-- The product of sign n and log l as a term: its significand comes from the table of 2^f with 24-bit precision (R70). -/
def prodTerm (n : Bool) (l : Int) : Term :=
  let (m, e) := sigOfLog (l * 2 ^ 28) (Config.tableUp 0 (l % 4096).toNat)
  some (n, m, e)

/-- An FP32 value as a term. -/
def fp32Term (x : Nat) : Term :=
  match decLin fp32 x with
  | .fin n m e => some (n, m, e)
  | _ => none

/-- Sums of one output over its products and, under ACCUM, the stored value: value written and flags (R71, Table 04.9).
The tree rounds each addition to 40 bits; its order is free (R73). -/
def accumulate (stored : Option Nat) (ps : List Prod) (base : Nat) : Nat × Flags :=
  let sv := stored.map (decLin fp32)
  let inval := ps.any fun p => match p with | .nan i => i | _ => false
  let nan := ps.any (fun p => match p with | .nan _ => true | _ => false) || (sv.map isNan).getD false
  let pinf (n : Bool) := ps.any (fun p => decide (p = .inf n)) || decide (sv = some (.inf n))
  if nan then (0x7FC00000, if inval then fInvalid else 0)
  else if pinf true && pinf false then (0x7FC00000, fInvalid)
  else if pinf false then (0x7F800000, 0)
  else if pinf true then (0xFF800000, 0)
  else
    let ts := (ps.map fun p => match p with | .fin n l => prodTerm n l | _ => none) ++ (stored.map fp32Term).toList
    if ts.foldl addTerm none = none then
      let allNeg := ps.all (fun p => decide (p = .zero true)) && (stored = none || stored = some 0x80000000)
      (if allNeg then 0x80000000 else 0, 0)
    else
      match freeTree (fun x y => round40 (addTerm x y)) none 7 base ts with
      | none => (0, 0)
      | some (n, m, e) =>
        let (code, fl) := roundLin fp32 ⟨0, 0⟩ false n m e
        (code, fl &&& fOverflow)

/-- One row through the array: 64 sums, with the bits of each strip that is read as zeros (R120, R121, R138). -/
def rowSums (im : List Byte) (wfmt : Nat) (sp24 : Bool) (acts : List Val) (stored : Option (List Nat)) (base : Nat) :
    List (Nat × Flags) :=
  let a := acts.toArray
  (List.range 64).map fun n =>
    let ps := (weightsOf im wfmt sp24 n).map fun w => product (a.getD w.1 (.zero false)) w.2
    accumulate (stored.map fun r => r.getD n 0) ps (base + 128 * n)

/-! ## Pass descriptors (Table 04.5) -/

def pdABase (d : Nat) : Nat := fld d 0 13
def pdAStride (d : Nat) : Nat := fld d 13 10
def pdAInc (d : Nat) : Nat := fld d 23 13
def pdAMask (d : Nat) : Nat := fld d 64 13
def pdMBit0 (d : Nat) : Nat := fld d 77 6
def pdMStr (d : Nat) : Nat := fld d 83 10
def pdMInc (d : Nat) : Nat := fld d 93 10
def pdABias (d : Nat) : Nat := fld d 103 13
def pdQueue (d : Nat) : Bool := bitAt d 128
def pdSide (d : Nat) : Nat := fld d 129 1
def pdFmt (d : Nat) : Nat := fld d 130 4
def pdAcc (d : Nat) : Bool := bitAt d 134
def pdMasked (d : Nat) : Bool := bitAt d 135
def pdT (d : Nat) : Nat := fld d 136 12
def pdRow (d : Nat) : Nat := fld d 148 11
def pdDQ (d : Nat) : Nat := fld d 159 4
def pdNQ (d : Nat) : Nat := fld d 163 2
def pdMQ (d : Nat) : Nat := fld d 165 4

/-- Queues of a feeder or a port: 1, 2 or 4 (R136). -/
def nqOf (x : Nat) : Nat := if x = 0 then 1 else if x = 1 then 2 else 4

/-- The pass cases of R141 that its descriptor alone decides, and R126. -/
def passUndef (t : Tile) (k d : Nat) : Option UndefCase :=
  if !isMFmt (pdFmt d) then some .format
  else if (pdQueue d && pdFmt d = 1) || (pdMasked d && pdQueue d && pdNQ d ≠ 0) || (pdQueue d && pdNQ d = 3) ||
      (!pdQueue d && (sideTile k (pdSide d)).isNone) || decide (2048 < pdRow d + pdT d) then some .passOrDrain
  else if pdQueue d && (((List.range (nqOf (pdNQ d))).any fun j => stepsUseQ t (pdDQ d + j)) ||
      (pdMasked d && stepsUseQ t (pdMQ d))) then some .sharedQueue
  else none

/-- Whether a pass writes INIT (R137). -/
def passInit (d accsel i : Nat) : Bool :=
  match accsel with
  | 0 => !pdAcc d
  | 1 => true
  | 2 => false
  | _ => decide (i = 0)

def bankAt (m : MTile) (b : Nat) : Bank := if b = 0 then m.bank0 else m.bank1
def setBank (m : MTile) (b : Nat) (v : Bank) : MTile := if b = 0 then { m with bank0 := v } else { m with bank1 := v }
def modM (k : Nat) (f : MTile → MTile) (s : State) : State := modTile k (fun t => { t with m := f t.m }) s

/-- Flags that the array or the drain raises are held by the tile at once (R152). -/
def mFlags (k : Nat) (fl : Flags) (s : State) : State := modM k (fun m => { m with flags := m.flags ||| BitVec.ofNat 6 fl }) s

/-- Whether the running pass uses a bank, so that an operation of the loader on it waits (R125). -/
def bankBusy (m : MTile) (b : Nat) : Bool := (m.array.map fun p => decide (p.bank = b)).getD false

/-- WLOAD: the loader takes an image of the tile's slice for a bank (R124, R125, R128, R129). -/
def execWload (site : Site) (s : State) : Out :=
  ground (tileStep site .M (fun st => st.opc = 1) (fun k c st s =>
    let t := tileAt s k
    let d := wdAt t (fld st.args 0 4)
    let b := fld st.args 4 1
    let i := iterIdx t st (bitAt st.args 5)
    let fmt := fld d 17 4
    let sp := bitAt d 21
    let off := (fld d 0 17 + i * fld d 22 17) * 128
    if t.seq.issued || t.m.loader.isSome then issue .M k c st false id s
    else if !isMFmt fmt then undef .format c s
    else
      match wsAddr s c k off (imageSize fmt sp) with
      | none => faultWith c .bound (tileItem s k) (.access 0 off (imageSize fmt sp)) s
      | some pa =>
        issue .M k c st true (modM k (fun m =>
          { (if bankBusy m b then m else setBank m b .loading) with
            loader := some ⟨b, pa, fmt, sp, peek s pa (imageSize fmt sp), false⟩ })) s) s) s

/-- A load's bytes: each codeword that a service write changed meanwhile is wholly old or wholly new (R198). -/
def mixCodewords (base : Nat) (old new : List Byte) : List Byte :=
  (List.range ((new.length + 31) / 32)).flatMap fun j =>
    let o := (old.drop (32 * j)).take 32
    let n := (new.drop (32 * j)).take 32
    if o = n then n else if pickAt base j then n else o

/-- WLOAD_COMPLETE: the last beat of the load in progress has been read and the bank is ready (R128, R132). -/
def execWloadComplete (site : Site) (s : State) : Out :=
  let k := siteNo site
  let m := (tileAt s k).m
  ground (match runOf s k, m.loader with
  | some r, some l =>
    if l.skip || (bankBusy m l.bank && decide (bankAt m l.bank ≠ .loading)) then s
    else
      match ueAt s l.addr (imageSize l.fmt l.sp24) with
      | some w => (faultWith r.ctx .weightUe (tileItem s k) (.image l.addr w)
          (modM k (fun m => { setBank m l.bank .invalid with loader := none }) s))
      | none =>
        let new := peek s l.addr (imageSize l.fmt l.sp24)
        (useFree (imageSize l.fmt l.sp24 / 32) (modM k (fun m =>
          { setBank m l.bank (.ready (mixCodewords s.free l.old new) l.fmt l.sp24) with loader := none }) s))
  | _, _ => s) s

/-- WSKIP: the idle loader accepts it and marks the bank empty, or holds it behind the pass that uses the bank (R124,
R125, R130). -/
def execWskip (site : Site) (s : State) : Out :=
  ground (tileStep site .M (fun st => st.opc = 2) (fun k c st s =>
    let t := tileAt s k
    let b := fld st.args 4 1
    issue .M k c st t.m.loader.isNone (modM k (fun m =>
      if bankBusy m b then { m with loader := some ⟨b, 0, 0, false, [], true⟩ } else setBank m b .empty)) s) s) s

/-- PASS: the idle array takes a pass; one on a bank that no load or skip of this run has named never starts (R124,
R131, R133 to R141). -/
def execPass (site : Site) (s : State) : Out :=
  ground (tileStep site .M (fun st => st.opc = 3) (fun k c st s =>
    let t := tileAt s k
    let d := pdAt t (fld st.args 0 4)
    let b := fld st.args 4 1
    let i := iterIdx t st (bitAt st.args 5)
    if t.seq.issued || t.m.array.isSome then issue .M k c st false id s
    else if pdT d = 0 then issue .M k c st true id s
    else
      match passUndef t k d with
      | some u => undef u c s
      | none =>
        match psAddr s c k (256 * pdRow d) (256 * pdT d) with
        | none => faultWith c .bound (tileItem s k) (.access 2 (256 * pdRow d) (256 * pdT d)) s
        | some _ =>
          let op : PassOp := ⟨fld st.args 0 4, i, b, 0, passInit d (fld st.args 6 2) i, 0, [], t.m.drain.isSome, 0, none⟩
          issue .M k c st true (modM k (fun m => { m with array := some op })) s) s) s

/-- The loader's operation on a bank that a pass has released begins: a load reads its image from now on, a skip marks
the bank empty (R125, R130, R198). -/
def loaderBegin (s : State) (m : MTile) : MTile :=
  match m.loader with
  | some l =>
    if l.skip then { setBank m l.bank .empty with loader := none }
    else { setBank m l.bank .loading with loader := some { l with old := peek s l.addr (imageSize l.fmt l.sp24) } }
  | none => m

/-- The end of a pass: its flags reach the context, a drain no longer waits for it, and an operation of the loader on
its bank begins (R125, R153). -/
def passEnd (k c : Nat) (p : PassOp) (blk : Bool) (s : State) : State :=
  let s1 := modM k (fun m =>
    let m1 := { m with array := none, drain := m.drain.map fun d => { d with after := false }
                       blkSkip := if blk then satAdd 32 m.blkSkip 1 else m.blkSkip }
    if (m.loader.map fun l => decide (l.bank = p.bank)).getD false then loaderBegin s m1 else m1) s
  ctxFlags c p.flags.toNat (tileItem s k) s1

/-- The pass moves to its next row, or ends after its last. -/
def passNext (k c : Nat) (p : PassOp) (total : Nat) (blk : Bool) (s : State) : State :=
  if total ≤ p.t + 1 then passEnd k c p blk s
  else modM k (fun m => { m with array := some { p with t := p.t + 1, row := [] } }) s

/-- Where mask bits of a queue come from: the bits left of MASK tokens taken, or the next MASK token (R94). -/
inductive MaskBits where
  | bits (bs : List Bool) (rest : List Bool) (pop : Bool)
  | wait
  | parity

/-- The next n mask bits of control queue q, with the key under which the unused bits are kept. R138 and R94 do not say
what becomes of a control token of another TYPE there: DESIGN CHOICE, its low 24 bits are taken as mask bits all the same
(log entry 38). -/
def nextBits (t : Tile) (q key n : Nat) : MaskBits :=
  let have_ := Tab.get [] t.masks key
  if n ≤ have_.length then .bits (have_.take n) (have_.drop n) false
  else
    match headOf t q with
    | .empty => .wait
    | .parity => .parity
    | .tok a =>
      let all := have_ ++ (List.range 24).map fun j => bitAt a.val.toNat j
      .bits (all.take n) (all.drop n) true

/-- The mask bits taken: the unused ones are kept, and the MASK token is consumed where it was needed. -/
def keepBits (k q key : Nat) (rest : List Bool) (pop : Bool) (s : State) : State :=
  modTile k (fun t => { t with masks := Tab.set [] t.masks key rest }) (if pop then popTok k q s else s)

/-- A row's stored sums: zeros while its ZERO bit is set (R142). -/
def psRow (s : State) (pa : Nat) : List Nat := (List.range 64).map fun n => peekNum s (pa + 4 * n) 4

/-- Sums written into a partial-sum row clear its ZERO bit (R142). -/
def putPsRow (pa : Nat) (xs : List Nat) (s : State) : State :=
  let s1 := poke s pa (xs.flatMap (toLE 4))
  { s1 with zeros := Tab.set false s1.zeros (pa / 256) false }

/-- A row becomes a ZERO row (R138, R139). -/
def setZeroRow (pa : Nat) (s : State) : State := { s with zeros := Tab.set false s.zeros (pa / 256) true }

/-- The activations of a row: strips whose bit is 0 read as zeros (R78). -/
def actsOf (fmt : Nat) (bs : List Byte) (biases : List Int) (bits : List Bool) : List Val :=
  match fmtOf fmt with
  | none => []
  | some f =>
    let w := fmtBytes fmt
    (List.range (64 * bits.length)).map fun e =>
      if bits.getD (e / 64) true then decode f (biases.getD (e / 64) 0) (imgElem bs 0 w e) else .zero false

/-- A partial-sum row of the tile, or what stops its read (R141, R154, R218): its bound, its words, and the word of ZERO bits
that covers it. -/
inductive RowAt where
  | at_ (pa : Nat)
  | stop (code : FaultCode) (d : FaultDetail)

/-- Row r of a tile's partial sums for an access that reads it or not. -/
def rowAt (s : State) (c k r : Nat) (read : Bool) : RowAt :=
  match psAddr s c k (256 * r) 256 with
  | none => .stop .bound (.access 2 (256 * r) 256)
  | some pa =>
    if read && s.zeroBad.contains (pa / 16384) then .stop .eccUe (.word pa)
    else
      match if read && !zeroRow s pa then ueAt s pa 256 else none with
      | some w => .stop .eccUe (.word w)
      | none => .at_ pa

/-- One row enters the array and its sums are written (R120, R140, R151, R152, R154). -/
def enterRow (k c : Nat) (p : PassOp) (d : Nat) (im : List Byte) (wfmt : Nat) (sp : Bool) (acts : List Val) (s : State) :
    State :=
  match rowAt s c k (pdRow d + p.t) (!p.init) with
  -- a row that has entered reads its sums 8 FCLK later (R140)
  | .stop code x => faultWith c code (tileItem s k) x
      (if code = .eccUe then modM k (fun m => { m with rows := satAdd 32 m.rows 1 }) s else s)
  | .at_ pa =>
    let r := rowSums im wfmt sp acts (if p.init then none else some (psRow s pa)) s.free
    let fl := r.foldl (fun a x => a ||| x.2) 0
    let s1 := useFree 8192 (putPsRow pa (r.map (·.1)) s)
    let s2 := mFlags k fl (modM k (fun m => { m with rows := satAdd 32 m.rows 1 }) s1)
    passNext k c { p with flags := p.flags ||| BitVec.ofNat 6 fl } (pdT d) false s2

/-- A row that its mask skips, or a row of a pass on an empty bank (R138, R139). -/
def skipRow (k c : Nat) (p : PassOp) (d : Nat) (blk : Bool) (s : State) : State :=
  match rowAt s c k (pdRow d + p.t) false with
  | .stop code x => faultWith c code (tileItem s k) x s
  | .at_ pa =>
    let s1 := if p.init then setZeroRow pa s else s
    let s2 := if blk then s1 else modM k (fun m => { m with skips := satAdd 32 m.skips 1 }) s1
    passNext k c p (pdT d) blk s2

/-- The strip numbers of a row (R138). -/
def rowStrips (d i t strips : Nat) : List Nat :=
  (List.range strips).map fun j => pdMBit0 d + t * pdMStr d + i * pdMInc d + j

/-- Several accesses to an A tile: their addresses, or what stops the first that fails. -/
def wideAll (s : State) (c a : Nat) (read : Bool) (xs : List (Nat × Nat)) : Except WideAt (List (Nat × Nat)) :=
  xs.mapM fun x =>
    match wideAt s c a x.1 x.2 read with
    | .at_ pa => .ok (pa, x.2)
    | w => .error w

/-- The mask words that cover a pass are read before its first row enters (R138). -/
def readMasks (k c : Nat) (p : PassOp) (d a strips : Nat) (s : State) : State :=
  let it := tileItem s k
  let t := tileAt s k
  let bs := (List.range (pdT d)).flatMap fun u => rowStrips d p.i u strips
  match wideAll s c a true ((bs.map (maskWord (pdAMask d))).eraseDups.map fun o => (o, 8)) with
  | .error w => wideFail .passOrDrain c it w s
  | .ok ws =>
    let bitOf (b : Nat) : Bool :=
      match asAddr s c a (maskWord (pdAMask d) b) 8 with
      | some pa => bitAt (peekNum s pa 8) (b % 64)
      | none => false
    guardedAll c it (agentCode k 0 1) t.vc t.epoch (ws.map fun w => (false, w.1, w.2))
      (fun s => modM k (fun m => { m with array := some { p with bits := some (bs.map bitOf) } }) s) s

/-- A row of a pass with ASRC NBR whose mask bits are known: the strips whose bit is 1 are read through the wide port,
with their bias bytes; the others read as zeros and are not fetched (R78, R135, R138). -/
def nbrRow (k c : Nat) (p : PassOp) (d a : Nat) (im : List Byte) (wfmt : Nat) (sp : Bool) (bits : List Bool) (s : State) :
    State :=
  let it := tileItem s k
  let t := tileAt s k
  let w := 64 * fmtBytes (pdFmt d)
  let off := (pdABase d + p.i * pdAInc d + p.t * pdAStride d) * 64
  let live := (bits.zipIdx.filter (·.1)).map (·.2)
  let strips := rowStrips d p.i p.t bits.length
  let acc := (if bits.all id then [(off, w * bits.length)] else live.map fun j => (off + j * w, w)) ++
    (if pdFmt d = 1 then live.map fun j => (pdABias d * 64 + strips.getD j 0, 1) else [])
  match wideAll s c a true acc with
  | .error e => wideFail .passOrDrain c it e s
  | .ok ws =>
    let strip (j : Nat) : List Byte :=
      match bits.getD j false, asAddr s c a (off + j * w) w with
      | true, some pa => peek s pa w
      | _, _ => List.replicate w 0
    let bias (j : Nat) : Int :=
      match bits.getD j false, asAddr s c a (pdABias d * 64 + strips.getD j 0) 1 with
      | true, some pa => signed 8 (peekNum s pa 1)
      | _, _ => 0
    let js := List.range bits.length
    guardedAll c it (agentCode k 0 1) t.vc t.epoch (ws.map fun x => (false, x.1, x.2))
      (enterRow k c p d im wfmt sp (actsOf (pdFmt d) (js.flatMap strip) (js.map bias) bits)) s

/-- A row with ASRC NBR (R135, R138, R139). -/
def rowNbr (k c : Nat) (p : PassOp) (d : Nat) (bank : Bank) (s : State) : State :=
  match sideTile k (pdSide d), bank with
  | none, _ => undef .passOrDrain c s
  | some a, .ready im wfmt sp =>
    let strips := if sp then 2 else 1
    if !pdMasked d then nbrRow k c p d a im wfmt sp (List.replicate strips true) s
    else
      match p.bits with
      | none => readMasks k c p d a strips s
      | some bs =>
        let bits := (bs.drop (strips * p.t)).take strips
        if bits.all (!·) then skipRow k c p d false s else nbrRow k c p d a im wfmt sp bits s
  | some _, _ => skipRow k c p d true s

/-- A row with ASRC QUEUE: mask bits from MQ at the row's start, then one token at a time (R136, R138, R139). A bank that
WSKIP marked has no SP24 bit, and R139 does not say how many tokens its rows have: DESIGN CHOICE, those of dense rows;
R136 does not say which queue DQ0 + j above 15 is: DESIGN CHOICE, one that never holds a token (log entry 38). -/
def rowQueue (k c : Nat) (p : PassOp) (d : Nat) (bank : Bank) (s : State) : State :=
  let it := tileItem s k
  let t := tileAt s k
  let (sp, blk) := match bank with | .ready _ _ x => (x, false) | _ => (false, true)
  let strips := if sp then 2 else 1
  let per := fmtBytes (pdFmt d)
  let doRow (bits : List Bool) (s : State) : State :=
    -- a strip whose bit is 0 is sent as no tokens (R94)
    let need := per * (bits.filter (·)).length
    if need = 0 then s
    else
      let q := pdDQ d + p.taken % nqOf (pdNQ d)
      match headOf (tileAt s k) q with
      | .empty => stall k 1 s
      | .parity => faultAt c .queueParity it s
      | .tok a =>
        let p1 := { p with taken := p.taken + 1, row := p.row ++ [a.val] }
        let s1 := popTok k q s
        if p1.row.length < need then modM k (fun m => { m with array := some p1 }) s1
        else
          let drop (s : State) : State :=
            let left := (Tab.get [] (tileAt s k).masks (pdMQ d)).drop strips
            if pdMasked d then modTile k (fun t => { t with masks := Tab.set [] t.masks (pdMQ d) left }) s else s
          match bank with
          | .ready im wfmt sp =>
            -- the tokens hold the strips whose bit is 1, in order
            let bytes := p1.row.flatMap tokBytes
            let full := (bits.zipIdx.flatMap fun b =>
              if b.1 then (bytes.drop (64 * per * ((bits.take b.2).filter (·)).length)).take (64 * per)
              else List.replicate (64 * per) 0)
            enterRow k c { p1 with row := [] } d im wfmt sp (actsOf (pdFmt d) full [] bits) (drop s1)
          | _ => skipRow k c { p1 with row := [] } d true (drop s1)
  if !pdMasked d then doRow (List.replicate strips true) s
  else
    match nextBits t (pdMQ d) (pdMQ d) strips with
    | .wait => stall k 1 s
    | .parity => faultAt c .queueParity it s
    | .bits bs rest pop =>
      -- the bits stay at the front of the kept ones until the row is done
      if bs.all (!·) then
        skipRow k c { p with row := [] } d blk (keepBits k (pdMQ d) (pdMQ d) rest pop s)
      else doRow bs (keepBits k (pdMQ d) (pdMQ d) (bs ++ rest) pop s)

/-- Whether a row of the pass must wait for a drain accepted earlier that has still to read it (R125). -/
def passHeld (m : MTile) (t : Tile) (row : Nat) (after : Bool) : Bool :=
  match m.drain with
  | none => false
  | some dr =>
    let dd := ddAt t dr.dd
    after && decide (fld dd 137 11 + dr.u ≤ row) && decide (row < fld dd 137 11 + fld dd 148 12)

/-- PASS_ROW: the next row of the pass in progress enters the array or is skipped (R120, R135 to R140). -/
def execPassRow (site : Site) (s : State) : Out :=
  let k := siteNo site
  let t := tileAt s k
  ground (match runOf s k, t.m.array with
  | some r, some p =>
    let d := pdAt t p.pd
    let bank := bankAt t.m p.bank
    if bank = .loading || bank = .invalid then s
    else if passHeld t.m t (pdRow d + p.t) p.after then s
    else if pdQueue d then rowQueue k r.ctx p d bank s
    else rowNbr k r.ctx p d bank s
  | _, _ => s) s

/-! ## Drains (R144 to R149, Table 04.7) -/

def ddBase (d : Nat) : Nat := fld d 0 13
def ddStride (d : Nat) : Nat := fld d 13 10
def ddInc (d : Nat) : Nat := fld d 23 13
def ddMask (d : Nat) : Nat := fld d 64 13
def ddMBit0 (d : Nat) : Nat := fld d 77 6
def ddMStr (d : Nat) : Nat := fld d 83 10
def ddMInc (d : Nat) : Nat := fld d 93 10
def ddBias (d : Nat) : Nat := fld d 103 13
def ddQueue (d : Nat) : Bool := bitAt d 128
def ddSide (d : Nat) : Nat := fld d 129 1
def ddFmt (d : Nat) : Nat := fld d 130 4
def ddMode (d : Nat) : Nat := fld d 134 2
def ddSat (d : Nat) : Bool := bitAt d 136
def ddRow0 (d : Nat) : Nat := fld d 137 11
def ddRows (d : Nat) : Nat := fld d 148 12
def ddPort (d : Nat) : Nat := fld d 160 2

/-- The drain cases of R149 that its descriptor alone decides, and R126. -/
def drainUndef (t : Tile) (k d : Nat) : Option UndefCase :=
  if 6 < ddFmt d then some .format
  else if (ddQueue d && ddFmt d = 1) || (!ddQueue d && (sideTile k (ddSide d)).isNone) then some .passOrDrain
  else if ddQueue d && stepsUseO t (ddPort d) then some .sharedQueue
  else none

/-- DRAIN: the drain takes a drain descriptor (R124, R144, R145). -/
def execDrain (site : Site) (s : State) : Out :=
  ground (tileStep site .M (fun st => st.opc = 4) (fun k c st s =>
    let t := tileAt s k
    let d := ddAt t (fld st.args 0 3)
    let i := iterIdx t st (bitAt st.args 5)
    if t.seq.issued || t.m.drain.isSome then issue .M k c st false id s
    else if ddRows d = 0 then issue .M k c st true id s
    else
      match drainUndef t k d with
      | some u => undef u c s
      | none =>
        let op : DrainOp := ⟨fld st.args 0 3, i, 0, [], [], t.m.array.isSome, 0⟩
        issue .M k c st true (modM k (fun m => { m with drain := some op })) s) s) s

/-- A row converted to OFMT: bias (LNS8), codes, flags (R145). -/
def drainConv (d : Nat) (row : List Nat) (base : Nat) : Int × List Nat × Flags :=
  if ddFmt d = 6 then (0, row, 0)
  else
    match fmtOf (ddFmt d) with
    | some .lns8 =>
      let (b, cs) := encodeBlock (ddMode d) base (row.map (decLin fp32))
      (b, cs.map (·.1), cs.foldl (fun a x => a ||| x.2) 0)
    | some f =>
      let cs := row.zipIdx.map fun (x, e) => convElem (.lin fp32) f (ddMode d) base e (ddSat d) (decLin fp32 x)
      (0, cs.map (·.1), cs.foldl (fun a x => a ||| x.2) 0)
    | none => (0, row, 0)

/-- The MASK token of up to 24 strips (Table 03.5). -/
def maskToken (bits : List Bool) : DataTok :=
  BitVec.ofNat 512 (0x20000000 + (bits.zipIdx.foldl (fun a b => if b.1 then a + 2 ^ b.2 else a) 0))

/-- The tokens of a group of strips: its MASK token, then the tokens of the strips whose bit is 1 (R94). -/
def groupToks (g : List (Bool × List DataTok)) : List (Bool × DataTok) :=
  (true, maskToken (g.map (·.1))) :: (g.filter (·.1)).flatMap fun x => x.2.map fun v => (false, v)

/-- The drain after its next row: its end after the last row with nothing left to send, when the flags it raised reach
the context (R153). -/
def drainSettle (k c : Nat) (o : DrainOp) (rows : Nat) (s : State) : State :=
  if rows ≤ o.u && o.toks.isEmpty && o.group.isEmpty then
    ctxFlags c o.flags.toNat (tileItem s k) (modM k (fun m => { m with
      drain := none, array := m.array.map fun p => { p with after := false } }) s)
  else modM k (fun m => { m with drain := some o }) s

/-- A converted row written to the neighbour A tile: mask bit, the row unless it is all zeros, bias byte (R147). -/
def drainNbr (k c : Nat) (o : DrainOp) (d a : Nat) (bias : Int) (codes : List Nat) (s : State) : State :=
  let it := tileItem s k
  let f := (fmtOf (ddFmt d)).getD (.lin fp32)
  let w := fmtBytes (ddFmt d)
  let b := ddMBit0 d + o.u * ddMStr d + o.i * ddMInc d
  let bit := codes.any fun x => !isZeroCode f x
  let off := (ddBase d + o.i * ddInc d + o.u * ddStride d) * 64
  let n := 64 * w
  let t := tileAt s k
  match wideAt s c a (maskWord (ddMask d) b) 8 true with
  | .at_ pm =>
    let biasAt := if ddFmt d = 1 then wideAt s c a (ddBias d * 64 + b) 1 false else .at_ 0
    match biasAt, (if bit then wideAt s c a off n false else .at_ 0) with
    | .at_ pb, .at_ pa =>
      guardedAll c it (agentCode k 0 2) t.vc t.epoch ([(true, if bit then pa else 0, if bit then n else 0),
          (true, pm + b % 64 / 8, 1), (true, pb, if ddFmt d = 1 then 1 else 0)]) (fun s =>
        let s1 := if bit then poke s pa (codes.flatMap (toLE w)) else s
        let s2 := putMaskBit pm b bit s1
        let s3 := if ddFmt d = 1 then poke s2 pb (toLE 1 (ofInt 8 bias)) else s2
        drainSettle k c { o with u := o.u + 1 } (ddRows d) s3) s
    | .at_ _, w => wideFail .passOrDrain c it w s
    | w, _ => wideFail .passOrDrain c it w s
  | w => wideFail .passOrDrain c it w s

/-- Whether the drain's next row must wait for a pass accepted earlier that has still to write it (R125). -/
def drainHeld (m : MTile) (t : Tile) (row : Nat) (after : Bool) : Bool :=
  match m.array with
  | none => false
  | some p =>
    let d := pdAt t p.pd
    after && decide (pdRow d + p.t ≤ row) && decide (row < pdRow d + pdT d)

/-- DRAIN_ROW: the drain in progress sends a waiting token, or reads and converts its next row (R145 to R148). -/
def execDrainRow (site : Site) (s : State) : Out :=
  let k := siteNo site
  let t := tileAt s k
  ground (match runOf s k, t.m.drain with
  | some r, some o =>
    let c := r.ctx
    let d := ddAt t o.dd
    match o.toks with
    | (ctrl, v) :: rest =>
      if hasCredit t (ddPort d) ctrl then
        drainSettle k c { o with toks := rest } (ddRows d) (sendTok k (ddPort d) ctrl v s)
      else s
    | [] =>
      let row := ddRow0 d + o.u
      if drainHeld t.m t row o.after then s
      else
        match rowAt s c k row true with
        | .stop code x => faultWith c code (tileItem s k) x s
        | .at_ pa =>
            let (bias, codes, fl) := drainConv d (psRow s pa) s.free
            -- the row has been read, whatever becomes of its results (Table 04.10)
            let s0 := mFlags k fl (modM k (fun m => { m with drained := satAdd 32 m.drained 1 }) (useFree 64 s))
            let o1 := { o with flags := o.flags ||| BitVec.ofNat 6 fl }
            if !ddQueue d then
              match sideTile k (ddSide d) with
              | none => undef .passOrDrain c s
              | some a => drainNbr k c o1 d a bias codes s0
            else
              let f := (fmtOf (ddFmt d)).getD (.lin fp32)
              let bit := codes.any fun x => !isZeroCode f x
              let g := o.group ++ [(bit, toksOf (codes.flatMap (toLE (fmtBytes (ddFmt d)))))]
              let done := decide (g.length = 24) || decide (ddRows d ≤ o.u + 1)
              let o2 := { o1 with u := o.u + 1, group := if done then [] else g, toks := if done then groupToks g else [] }
              drainSettle k c o2 (ddRows d) s0
  | _, _ => s) s

end Sys2Proof.Machine
end

