-- ==== Sys2Proof/Machine/ATile.lean ====
section
/-! DEFINITION. A tiles: the load-store engine, stream windows (R203 to R210). An engine operation is accepted by one
command and moves one token position per command after that. -/

namespace Sys2Proof.Machine

def adAddr (d : Nat) : Nat := fld d 0 14
def adInc (d : Nat) : Nat := fld d 14 14
def adCount (d : Nat) : Nat := fld d 28 12
def adFmt (d : Nat) : Nat := fld d 45 4
def adAmask (d : Nat) : Nat := fld d 64 14
def adMbit0 (d : Nat) : Nat := fld d 78 10
def adMinc (d : Nat) : Nat := fld d 88 10

def AKind.opc : AKind → Nat
  | .st => 1
  | .ld => 2
  | .aadd => 3
  | .aswap => 4

/-- Whether the operation takes tokens of a queue, and whether it sends on an output. -/
def AKind.takes : AKind → Bool
  | .ld => false
  | _ => true
def AKind.sends : AKind → Bool
  | .ld => true
  | .aswap => true
  | _ => false

/-- The cases of R208 that an engine step and its descriptor decide. -/
def aUndef (t : Tile) (kd : AKind) (d q o : Nat) : Option UndefCase :=
  if (fmtOf (adFmt d)).isNone then some .format
  else if kd = .aadd && !(adFmt d = 4 || adFmt d = 5 || adFmt d = 6 || adFmt d = 0xA) then some .aOperation
  else if adMask d && (kd = .aadd || kd = .aswap) then some .aOperation
  else if (kd.takes && stepsUseQ t q) || (kd.sends && stepsUseO t o) || (kd = .st && adMask d && stepsUseQ t (adMq d)) then
    some .aOperation
  else if (kd.takes && winHasQ t q) || (kd.sends && winHasO t o) || (kd = .st && adMask d && winHasQ t (adMq d)) then
    some .aOperation
  else if kd.takes && (qCtrl t q || !qEn t q) then some .aOperation
  else none

/-- The key under which an LD keeps the bits of the strips that its last MASK token covers. -/
def ldMaskKey : Nat := 64

/-- The engine takes a step (R203). -/
def aAccept (kd : AKind) (site : Site) (s : State) : State :=
  tileStep site .A (fun st => st.opc = kd.opc) (fun k c st s =>
    let t := tileAt s k
    let q := fld st.args 4 4
    let o := fld st.args 9 2
    let d := adAt t (fld st.args 0 4)
    if t.seq.issued || t.a.isSome then issue .A k c st false id s
    else
      match aUndef t kd d q o with
      | some u => undef u c s
      | none =>
        let op : AOp := ⟨kd, fld st.args 0 4, q, o, iterIdx t st (bitAt st.args 8), 0, bitAt st.args 11, []⟩
        issue .A k c st true (if adCount d = 0 then id else modTile k (fun t => { t with a := some op })) s) s

/-- The operation after a position is done. -/
def aNext (k : Nat) (p : AOp) (count : Nat) (s : State) : State :=
  modTile k (fun t => { t with a := if count ≤ p.j + 1 then none else some { p with j := p.j + 1 } }) s

/-- The place of 64 bytes in the tile's own banks, or what stops the access (R204, R215, R220). -/
inductive OwnAt where
  | at_ (pa : Nat)
  | stop (code : FaultCode) (d : FaultDetail)
  /-- a word of a sync region (R267) -/
  | sync
deriving DecidableEq, Repr

def ownAt (s : State) (c k off n : Nat) (read : Bool) : OwnAt :=
  match asAddr s c k off n with
  | none => .stop .bound (.access 1 off n)
  | some pa =>
    if syncAsHit s c (noHoop k) off n then .sync
    else
      match if read then ueAt s pa n else mergeUe s pa n with
      | some w => .stop .eccUe (.word w)
      | none => .at_ pa

/-- An access of the tile's engine to its own banks under the hazard detector. -/
def aTouch (k c off n : Nat) (read write : Bool) (atomic : Bool) (f : Nat → State → State) (s : State) : State :=
  let it := tileItem s k
  let t := tileAt s k
  match ownAt s c k off n read with
  | .stop e d => faultWith c e it d s
  | .sync => undef .syncWord c s
  | .at_ pa => guarded c it (agentCode k 0 0) t.vc t.epoch write atomic pa n (f pa) s

/-- The sum of two 64-B units in an element format (R205). -/
def addUnits (fmt : Nat) (a b : List Byte) : List Byte :=
  let w := fmtBytes fmt
  (List.range (64 / w)).flatMap fun e =>
    let x := leNat ((a.drop (w * e)).take w)
    let y := leNat ((b.drop (w * e)).take w)
    toLE w (match fmt with
      | 4 => addFlush bf16 x y
      | 5 => addFlush fp16 x y
      | 6 => addFlush fp32 x y
      | _ => (x + y) % 2 ^ 32)

/-- One mask bit of a strip of an A-tile operation: its word's place within the tile (R204). -/
def aStrip (d i k : Nat) : Nat := adMbit0 d + i * adMinc d + k

/-- ST moves its next position (R204). -/
def stMove (k c : Nat) (p : AOp) (s : State) : State :=
  let t := tileAt s k
  let d := adAt t p.ad
  let off := (adAddr d + p.i * adInc d + p.j) * 64
  let it := tileItem s k
  let store (after : State → State) (s : State) : State :=
    match headOf (tileAt s k) p.queue with
    | .empty => s
    | .parity => faultAt c .queueParity it s
    | .tok a =>
      aTouch k c off 64 false true false (fun pa s =>
        aNext k p (adCount d) (after (poke (popTok k p.queue s) pa (tokBytes a.val)))) s
  if !adMask d then store id s
  else
    let per := fmtBytes (adFmt d)
    let done (s : State) : State :=
      if (p.j + 1) % per = 0 || adCount d ≤ p.j + 1 then
        modTile k (fun t => { t with masks := Tab.set [] t.masks (adMq d) ((Tab.get [] t.masks (adMq d)).drop 1) }) s
      else s
    let go (bit : Bool) (s : State) : State :=
      if bit then store done s else aNext k p (adCount d) (done s)
    if p.j % per ≠ 0 then go ((Tab.get [] t.masks (adMq d)).headD false) s
    else
      -- a strip begins: its bit, from the bits at hand or the next MASK token, goes into its mask word
      match nextBits t (adMq d) (adMq d) 1 with
      | .wait => s
      | .parity => faultAt c .queueParity it s
      | .bits bs rest pop =>
        let bit := bs.headD false
        if bit && (qToks t p.queue).isEmpty then s
        else
          let b := aStrip d p.i (p.j / per)
          aTouch k c (maskByte (adAmask d) b) 1 true true false (fun pa s =>
            let s1 := putMaskBit (pa - b % 64 / 8) b bit (keepBits k (adMq d) (adMq d) (bit :: rest) pop s)
            go bit s1) s

/-- Bits of mask words read for an LD, or what stops the read. -/
def ldBits (s : State) (c k d i from_ n : Nat) : Except (Option (FaultCode × FaultDetail)) (List (Bool × Nat)) :=
  (List.range n).mapM fun j =>
    let b := aStrip d i (from_ + j)
    match ownAt s c k (maskByte (adAmask d) b) 1 true with
    | .stop e d => .error (some (e, d))
    | .sync => .error none
    | .at_ pa => .ok (bitAt (peekNum s pa 1) (b % 8), pa)

/-- LD moves its next position, or sends a MASK token (R204). -/
def ldMove (k c : Nat) (p : AOp) (s : State) : State :=
  let t := tileAt s k
  let d := adAt t p.ad
  let off := (adAddr d + p.i * adInc d + p.j) * 64
  let it := tileItem s k
  let send (after : State → State) (s : State) : State :=
    if !hasCredit t p.out false then s
    else aTouch k c off 64 true false false (fun pa s =>
      aNext k p (adCount d) (after (sendTok k p.out false (tokOf (peek s pa 64)) s))) s
  if !adMask d then send id s
  else
    let per := fmtBytes (adFmt d)
    match Tab.get [] t.masks ldMaskKey with
    | [] =>
      let strips := ceilDiv (adCount d) per
      let k0 := p.j / per
      let n := min 24 (strips - k0)
      match ldBits s c k d p.i k0 n with
      | .error (some (e, x)) => faultWith c e it x s
      | .error none => undef .syncWord c s
      | .ok bs =>
        if !hasCredit t p.out true then s
        else
          guardedAll c it (agentCode k 0 0) t.vc t.epoch (bs.map fun x => (false, x.2, 1)) (fun s =>
            modTile k (fun t => { t with masks := Tab.set [] t.masks ldMaskKey (bs.map (·.1)) })
              (sendTok k p.out true (maskToken (bs.map (·.1))) s)) s
    | bit :: rest =>
      let done (s : State) : State :=
        if (p.j + 1) % per = 0 || adCount d ≤ p.j + 1 then
          modTile k (fun t => { t with masks := Tab.set [] t.masks ldMaskKey rest }) s
        else s
      if bit then send done s else aNext k p (adCount d) (done s)

/-- AADD or ASWAP moves its next position (R205, R206). -/
def atomicMove (k c : Nat) (p : AOp) (s : State) : State :=
  let t := tileAt s k
  let d := adAt t p.ad
  let off := (adAddr d + p.i * adInc d + p.j) * 64
  match headOf t p.queue with
  | .empty => s
  | .parity => faultAt c .queueParity (tileItem s k) s
  | .tok a =>
    if p.kind = .aswap && !hasCredit t p.out false then s
    else
      aTouch k c off 64 true true true (fun pa s =>
        let old := peek s pa 64
        let new := if p.kind = .aadd then addUnits (adFmt d) old (tokBytes a.val) else tokBytes a.val
        let s1 := poke (popTok k p.queue s) pa new
        let s2 := if p.kind = .aswap then sendTok k p.out false (tokOf old) s1 else s1
        aNext k p (adCount d) s2) s

/-- An engine command: the next position of the operation in progress, or the acceptance of a step. -/
def aEngine (kd : AKind) (move : Nat → Nat → AOp → State → State) (site : Site) (s : State) : Out :=
  let k := siteNo site
  ground (match runOf s k, (tileAt s k).a with
  | some r, some p => if p.kind = kd then move k r.ctx p s else aAccept kd site s
  | _, _ => aAccept kd site s) s

/-- ST: tokens of a queue stored in the tile (R204). -/
def execSt (site : Site) (s : State) : Out := aEngine .st stMove site s

/-- LD: bytes of the tile sent on an output (R204). -/
def execLd (site : Site) (s : State) : Out := aEngine .ld ldMove site s

/-- AADD: tokens added into the tile (R205). -/
def execAadd (site : Site) (s : State) : Out := aEngine .aadd atomicMove site s

/-- ASWAP: tokens swapped with the tile's bytes (R206). -/
def execAswap (site : Site) (s : State) : Out := aEngine .aswap atomicMove site s

/-! ## Stream windows (R209, R210) -/

def winAt (t : Tile) (w : Nat) : Win := Tab.get Win.reset t.wins w
def setWin (k w : Nat) (x : Win) (s : State) : State :=
  modTile k (fun t => { t with wins := Tab.set Win.reset t.wins w x }) s

/-- A window is armed from its first unit, with its range check (R210). -/
def armWindow (k c w : Nat) (s : State) : State :=
  let r := swinReg (tileAt s k) w
  match asAddr s c k (swBase r * 64) (swLen r * 64) with
  | none => faultWith c .bound (tileItem s k) (.access 1 (swBase r * 64) (swLen r * 64)) (setWin k w Win.reset s)
  | some _ => setWin k w ⟨true, 0, decide (swLen r = 0), ownClock s k⟩ s

/-- WIN ARM (R209). -/
def execWinArm (site : Site) (s : State) : Out :=
  ground (tileStep site .A (fun st => decide (st.opc = 5) && !bitAt st.args 2) (fun k c st s =>
    let w := fld st.args 0 2
    let t := tileAt s k
    let act (s : State) : State :=
      if !swEn (swinReg t w) || (!t.seq.issued && (winAt t w).armed && !(winAt t w).done) then s else armWindow k c w s
    -- with END the window is armed when the step is reached, and the step fires under the condition of FENCE
    issue .A k c st true act s) s) s

/-- WIN WAIT: fires when the window is complete (R209); it covers the window's accesses (R519). -/
def execWinWait (site : Site) (s : State) : Out :=
  ground (tileStep site .A (fun st => decide (st.opc = 5) && bitAt st.args 2) (fun k c st s =>
    let w := fld st.args 0 2
    let t := tileAt s k
    let ok := swEn (swinReg t w) && (winAt t w).done
    let s1 := if ok then modTile k (fun t => { t with vc := Tab.set 0 t.vc (8192 + 4 * k + w) (t.epoch + 1) }) s else s
    plainStep .A k c st ok plainCtl s1) s) s

/-- What a window or a stream does is no step: the tile's program learns nothing from it (R519). -/
def unlearned (k : Nat) (f : State → State) (s : State) : State :=
  let vc := (tileAt s k).vc
  modTile k (fun t => { t with vc := vc }) (f s)

/-- A token leaves a queue into a window, a stream, a channel port or a binding. -/
def windowPop (k q : Nat) (s : State) : State := unlearned k (popTok k q) s

/-- WINDOW_TOKEN: an armed window moves its next token (R209). -/
def execWindowToken (site : Site) (window : Fin 4) (s : State) : Out :=
  let k := siteNo site
  let w := window.val
  let t := tileAt s k
  let r := swinReg t w
  let x := winAt t w
  ground (match runOf s k with
  | none => s
  | some run =>
    let c := run.ctx
    let it := tileItem s k
    if kindOf k ≠ .A || !swEn r || !x.armed || x.done then s
    else
      let o := fld (swQp r) 0 2
      if (if swDirOut r then stepsUseO t o || engineHasO t o
          else stepsUseQ t (swQp r) || engineHasQ t (swQp r) || qCtrl t (swQp r) || !qEn t (swQp r)) then
        undef .aOperation c s
      else
        let off := (swBase r + x.moved) * 64
        let next : Win := { x with moved := x.moved + 1, done := decide (swLen r ≤ x.moved + 1) }
        let touch (write : Bool) (f : Nat → State → State) : State :=
          match ownAt s c k off 64 (!write) with
          | .stop e d => faultWith c e it d s
          | .sync => undef .syncWord c s
          | .at_ pa => guarded c it (agentCode k 1 w) x.seen t.epoch write false pa 64 (f pa) s
        if swDirOut r then
          if !hasCredit t o false then s
          else touch false (fun pa s => setWin k w next (sendTokVc k o false (tokOf (peek s pa 64)) [] s))
        else
          match headOf t (swQp r) with
          | .empty => s
          | .parity => faultAt c .queueParity it s
          | .tok a => touch true (fun pa s => setWin k w next (poke (windowPop k (swQp r) s) pa (tokBytes a.val)))) s

end Sys2Proof.Machine
end

