-- ==== Sys2Proof/Machine/Circuits.lean ====
section
/-! DEFINITION. Circuits: a token travels from an output through the switch boxes to its queues, and its credit comes
back (R86 to R97). Directions: 0 N, 1 E, 2 S, 3 W. -/

namespace Sys2Proof.Machine

/-- The neighbour of a site in a direction; a B tile has one link into the ground (R83). -/
def neighbour (k d : Nat) : Option Nat :=
  let c := noCol k
  let r := noRow k
  if d = 0 then (if r = 0 then none else some (k - 1))
  else if d = 2 then (if r = 15 then none else some (k + 1))
  else if d = 1 then (if c = 31 then none else some (k + 16))
  else if c = 0 then none else some (k - 16)

/-- The other end's direction of a link. -/
def opposite (d : Nat) : Nat := (d + 2) % 4

/-- SRC of an SW_OUT entry as an input direction: 1 N, 2 E, 3 S, 4 W. -/
def srcOf (e : Nat) : Nat := fld e 0 3

/-- Whether the entries of a site for a slot break R89: a reserved SRC, or a direction without a link. -/
def badEntries (t : Tile) (k slot : Nat) : Bool :=
  (List.range 4).any fun d =>
    let src := srcOf (swOut t d slot)
    decide (5 < src) || (decide (src ≠ 0) && (neighbour k d).isNone) ||
      (decide (1 ≤ src) && decide (src ≤ 4) && (neighbour k (src - 1)).isNone)

/-- The leaves of a token that arrives at site k on input d in a slot: the queue that SW_IN names and every SW_OUT
entry that names this input in the next slot (R87, R88). `n` bounds the links of a path. -/
def arrive (s : State) (ctrl : Bool) : Nat → Nat → Nat → Nat → List Leaf
  | 0, _, _, _ => [.dead false]
  | n + 1, k, d, slot =>
    let t := tileAt s k
    let nxt := (slot + 1) % 4
    if badEntries t k nxt then [.badSwitch k]
    else
      let e := swIn t d slot
      let here : List Leaf :=
        if ctrl then (if bitAt e 5 then [.queue k (fld e 6 4)] else [])
        else if bitAt e 0 then [.queue k (fld e 1 4)] else []
      let outs := (List.range 4).filter fun o => decide (srcOf (swOut t o nxt) = d + 1)
      let on := outs.flatMap fun o =>
        match neighbour k o with
        | some j => arrive s ctrl n j (opposite o) nxt
        | none => [.badSwitch k]
      let all := here ++ on
      if all.isEmpty then [.dead ((List.range 4).any fun o => srcOf (swOut t o nxt) ≠ 0)] else all

/-- The leaves of a token that output o of site k injects in a slot (R88). -/
def inject (s : State) (ctrl : Bool) (k o slot : Nat) : List Leaf :=
  let t := tileAt s k
  let outs := (List.range 4).filter fun d => decide (srcOf (swOut t d slot) = 5) && decide (fld (swOut t d slot) 3 2 = o)
  outs.flatMap fun d =>
    match neighbour k d with
    | some j => arrive s ctrl 1024 j (opposite d) slot
    | none => [.badSwitch k]

/-- The sites that a token crosses from site k, which it enters on input d in a slot. -/
def crosses (s : State) : Nat → Nat → Nat → Nat → List Nat
  | 0, k, _, _ => [k]
  | n + 1, k, d, slot =>
    let t := tileAt s k
    let nxt := (slot + 1) % 4
    k :: ((List.range 4).filter fun o => decide (srcOf (swOut t o nxt) = d + 1)).flatMap fun o =>
      match neighbour k o with
      | some j => crosses s n j (opposite o) nxt
      | none => []

/-- The sites that the circuits of output o of site k cross. -/
def circuitSites (s : State) (k o : Nat) : List Nat :=
  (List.range 4).flatMap fun slot => (List.range 4).flatMap fun d =>
    let e := swOut (tileAt s k) d slot
    if srcOf e = 5 && fld e 3 2 = o then
      match neighbour k d with
      | some j => crosses s 1024 j (opposite d) slot
      | none => []
    else []

/-- Where a token in flight goes: to the leaves that a commit has left it, else to those of its circuit, in the first slot in
which its output injects. -/
def leavesOf (s : State) (a : Token) : List Leaf :=
  a.route.getD (((List.range 4).map (inject s a.ctrl a.src a.port)).find? (fun l => !l.isEmpty) |>.getD [])

/-- Whether a leaf cannot take the token (R96): a disabled queue, the other kind, or no room. Where START reloads the full
credits while tokens of an earlier run stay in the queue (R97), or where two circuits feed one queue with credits that
only together exceed it, a delivery beyond its capacity is no case that the spec grades: DESIGN CHOICE, both are taken as
R96's credit above the capacity (log entry 38). -/
def badQueue (s : State) (ctrl : Bool) : Leaf → Option Nat
  | .queue k q =>
    let t := tileAt s k
    if !qEn t q || qCtrl t q != ctrl || decide (qCap t q ≤ (qToks t q).length) then some k else none
  | _ => none

/-- Whether the credits of output o of site k exceed the capacity of a receiving queue (R96). -/
def credAbove (s : State) (ctrl : Bool) (k o : Nat) : Leaf → Bool
  | .queue j q => decide (qCap (tileAt s j) q < if ctrl then outC (tileAt s k) o else outD (tileAt s k) o)
  | _ => false

/-- The effect of a delivery: the token enters the queues of some leaves, stays on its way to the rest, and its credit waits
for every branch (R91). A branch that ends nowhere never gives its credit back: DEDUCED from R88 and R91 (log entry 38). -/
def deliver (h : Nat) (a : Token) (leaves rest : List Leaf) (s : State) : State :=
  let s1 := leaves.foldl (fun s l =>
    match l with
    | .queue k q => modTile k (fun t => { t with queues := Tab.set [] t.queues q (qToks t q ++ [{ a with route := none }]) }) s
    | _ => s) s
  let still (b : Token) : Token := if b.fid = a.fid then { b with route := some rest } else b
  modHoop h (fun x => { x with
    flight := if rest.isEmpty then eraseFirst (fun b => b.fid = a.fid) x.flight else x.flight.map still
    credits := if x.credits.any fun c => c.fid = a.fid then x.credits
      else x.credits ++ [⟨a.fid, a.src, a.port, a.ctrl, leaves.length + rest.length⟩] }) s1

/-- The context whose region a site lies in; `c` where its column is in none (R89). -/
def regionOwner (s : State) (c j : Nat) : Nat := if ownerOf s j = 0 then c else ownerOf s j

/-- Whether a leaf makes the case undefined for the module (R90): a circuit that joins two contexts, or one laid over a
slot that carries another source. The settings do not tell which entry a dead end was to have; where another source
holds some link of the site in that slot it is free whether that is the link: else the token is only lost (R89, DEDUCED,
log entry 38). -/
def moduleLeaf (s : State) (c : Nat) : Leaf → Bool
  | .queue j _ => decide (ownerOf s j ≠ c)
  | .dead other => other && decide (freeNat s 0 % 2 = 1)
  | .badSwitch _ => false

/-- Whether a token's leaves leave that question open. -/
def clashOpen (ls : List Leaf) : Bool := ls.contains (.dead true)

/-- What a delivery to some leaves breaks (R89, R96): an undefined case and its context. -/
def deliveryUndef (s : State) (c : Nat) (a : Token) (ls : List Leaf) : Option (UndefCase × Nat) :=
  match ls.findSome? fun l => match l with | .badSwitch j => some j | _ => none with
  | some j => some (.switchEntry, regionOwner s c j)
  | none =>
    (ls.findSome? fun l => if credAbove s a.ctrl a.src a.port l then some a.src else badQueue s a.ctrl l).map fun j =>
      (.queueDesc, ownerOf s j)

/-- TOKEN_DELIVER: the oldest token of an output and kind on its circuit reaches its queues, injected in the slot
(R86 to R96, R404); one that a commit has left on its way goes on to the rest of them. -/
def execTokenDeliver (site : Site) (port slot : Fin 4) (ctrl parityOk : Bool) (s : State) : Out :=
  let k := siteNo site
  let h := noHoop k
  match (hoopAt s h).flight.find? fun a => decide (a.src = k) && decide (a.port = port.val) && a.ctrl == ctrl with
  | none => .next s
  | some a =>
    let c := ownerOf s k
    let leaves := a.route.getD (inject s ctrl k port.val slot.val)
    let old := ((hoopAt s h).stale.find? fun x => decide (x.1 = k) && decide (x.2.1 = port.val)).filter fun _ => a.route.isNone
    if old.isSome && old.map (fun x => ownerOf s (tileNo h x.2.2 0)) = some c then ground (undef .oldCircuit c s) s
    else if old.isSome || leaves.any (moduleLeaf s c) then .next (undefModule s)
    else
      ground (if a.route.isNone && badEntries (tileAt s k) k slot.val then undef .switchEntry c s
      -- an output that holds no slot sends nothing (R87)
      else if leaves.isEmpty then s
      else
        match deliveryUndef s c a leaves with
        | some (u, j) => undef u j s
        | none => deliver h { a with parityOk := parityOk } leaves [] (useFree (if clashOpen leaves then 1 else 0) s)) s

/-- CREDIT_RETURN: a credit that every branch has passed on reaches the output that sent the token (R91, R96). -/
def execCreditReturn (site : Site) (port : Fin 4) (ctrl : Bool) (s : State) : Out :=
  let k := siteNo site
  let isIt (c : Credit) : Bool :=
    decide (c.src = k) && decide (c.port = port.val) && c.ctrl == ctrl && decide (c.left = 0)
  ground (if (hoopAt s (noHoop k)).credits.any isIt then
    let s1 := modHoop (noHoop k) (fun x => { x with credits := eraseFirst isIt x.credits }) s
    modTile k (fun t =>
      if ctrl then { t with ccred := Tab.set 0 t.ccred port.val (cCred t port.val + 1) }
      else { t with dcred := Tab.set 0 t.dcred port.val (dCred t port.val + 1) }) s1
  else s) s

end Sys2Proof.Machine
end

