-- ==== Sys2Proof/Machine/Streams.lean ====
section
/-! DEFINITION. Stream descriptors, element addresses, gradient apertures, translation through a TLB, and what a
stream does when it completes or parks (R234 to R263, R338). -/

namespace Sys2Proof.Machine

/-! ## Descriptors (Tables 07.4 and 07.5) -/

def sdVbase (d : Nat) : Nat := fld d 0 48
def sdWrite (d : Nat) : Bool := bitAt d 48
def sdMerge (d : Nat) : Bool := bitAt d 49
def sdEsize (d : Nat) : Nat := 2 ^ fld d 50 2
def sdConv (d : Nat) : Bool := bitAt d 52
def sdMfmt (d : Nat) : Nat := fld d 53 4
def sdTfmt (d : Nat) : Nat := fld d 57 4
def sdRmode (d : Nat) : Nat := fld d 61 2
def sdSatf (d : Nat) : Bool := bitAt d 63
def sdMptr (d : Nat) : Nat := fld d 64 48
def sdTag (d : Nat) : Nat := fld d 112 12
def sdPort (d : Nat) : Nat := fld d 124 2
def sdKind (d : Nat) : Nat := fld d 126 2
def sdIptr (d : Nat) : Nat := fld d 128 48
def sdRate (d : Nat) : Nat := fld d 176 12
def sdMen (d : Nat) : Bool := bitAt d 188
def sdIen (d : Nat) : Bool := bitAt d 189
def sdIw (d : Nat) : Nat := if bitAt d 190 then 8 else 4
def sdDone (d : Nat) : Bool := bitAt d 191
def sdStride (d n : Nat) : Int := signed 36 (fld d (192 + 64 * n) 36)
def sdCnt (d n : Nat) : Nat := fld d (192 + 64 * n + 36) 24

/-- Elements of a stream. -/
def sdTotal (d : Nat) : Nat := (List.range 5).foldl (fun a n => a * sdCnt d n) 1

/-- Bytes of an element in a token (R239). -/
def sdTsize (d : Nat) : Nat := if sdConv d then fmtBytes (sdTfmt d) else sdEsize d

/-- Elements for one coordinate of DIM4. -/
def sdInner (d : Nat) : Nat := (List.range 4).foldl (fun a n => a * sdCnt d n) 1

/-- Coordinate n of a linear element number. -/
def coordOf (d e n : Nat) : Nat := e / (List.range n).foldl (fun a m => a * sdCnt d m) 1 % sdCnt d n

/-- The address of element e, with the index of its DIM4 coordinate (R238). -/
def elemAddr (d e : Nat) (index : Nat) : Int :=
  (List.range 4).foldl (fun a n => a + coordOf d e n * sdStride d n) (sdVbase d : Int) + index * sdStride d 4

/-- Whether some circuit of an output ends at the queue of an inbound stream window (R210, R248). -/
def endsAtWindow (s : State) (k o : Nat) : Bool :=
  (List.range 4).any fun slot => (inject s false k o slot).any fun l =>
    match l with
    | .queue j q => kindOf j = .A && (List.range 4).any fun w =>
        let r := swinReg (tileAt s j) w
        swEn r && !swDirOut r && decide (swQp r = q)
    | _ => false

/-- The descriptor cases of R248 that do not depend on an address. R247 says that a PEER stream ignores MPTR and IPTR, and
R248 lists their misalignment without an exception: DESIGN CHOICE, it is undefined for a PEER stream too (log entry
38). -/
def streamUndef (s : State) (k d : Nat) : Bool :=
  sdKind d = 3 || (fmtOf (sdMfmt d)).isNone || (fmtOf (sdTfmt d)).isNone ||
  (sdConv d && (sdMfmt d = 1 || sdTfmt d = 1)) || (sdConv d && sdEsize d ≠ fmtBytes (sdMfmt d)) ||
  sdMptr d % 8 ≠ 0 || sdIptr d % sdIw d ≠ 0 || (sdMen d && sdKind d = 1) ||
  (sdMen d && (sdTotal d % 64 ≠ 0 || sdCnt d 0 % 64 ≠ 0)) ||
  (sdMen d && !sdWrite d && sdKind d = 0 && endsAtWindow s k (sdPort d)) ||
  (sdKind d = 1 && sdWrite d) || (sdKind d = 2 && (!sdWrite d || sdConv d || sdMen d || sdIen d))

/-! ## The gradient and direction apertures (R338, R340) -/

/-- A Darning register of a context, by its number in Table 12.13. -/
def dnReg (s : State) (c n : Nat) : Nat := (Tab.get 0 (ctxAt s c).dn n).toNat
def dnCur (s : State) (c : Nat) : Bool := bitAt (dnReg s c 0) 0
def dnNblk (s : State) (c : Nat) : Nat := fld (dnReg s c 1) 0 23

/-- The record of block b in a version (R336). -/
def recordAt (s : State) (c : Nat) (vb : Bool) (b : Nat) : Nat :=
  fld (dnReg s c (if vb then 5 else 4)) 0 48 + b * 256 * fld (dnReg s c 6) 0 16

/-- What an aperture redirects a context-relative address to. -/
structure Aperture where
  direction : Bool
  block : Nat
  at_ : Nat
deriving DecidableEq, Repr

def apertureOf (s : State) (c a : Nat) : Option Aperture :=
  let len := dnNblk s c * 16384
  let gap := fld (dnReg s c 7) 0 48
  let dap := fld (dnReg s c 8) 0 48
  let go (dir : Bool) (base : Nat) : Option Aperture :=
    if base ≤ a ∧ a < base + len then
      some ⟨dir, (a - base) / 16384, recordAt s c (dnCur s c) ((a - base) / 16384) + (a - base) % 16384⟩
    else none
  (go false gap).orElse fun _ => go true dap

/-! ## One stream -/

def streamAt (t : Tile) (n : Nat) : Stream := Tab.get Stream.reset t.b.streams n
def modB (k : Nat) (f : BTile → BTile) (s : State) : State := modTile k (fun t => { t with b := f t.b }) s
def setStream (k n : Nat) (x : Stream) (s : State) : State :=
  modB k (fun b => { b with streams := Tab.set Stream.reset b.streams n x }) s

/-- The completion of a stream: its flags reach the context, and its done token waits for a credit (R236, R239,
R246). -/
def completeStream (k c n : Nat) (x : Stream) (s : State) : State :=
  let d := sdAt (tileAt s k) n
  let tok : List (Bool × DataTok) := if sdDone d then [(true, BitVec.ofNat 512 (0x80000000 + n))] else []
  let s1 := setStream k n { x with st := .complete, out := x.out ++ tok } s
  if x.flags = 0 then s1 else ctxFlags c x.flags.toNat (unitItem k) s1

/-- Whether the region's phase allows a stream's direction (R252). -/
def phaseAllows (r : RunSt) (write : Bool) : Bool := if write then r.phase = .output else r.phase = .input

/-- The issue slots that streams of a tile hold (R233, R258). -/
def slotsUsed (t : Tile) : Nat := (t.b.streams.filter fun p => p.2.st = .issuing || p.2.st = .parked).length

/-- The first STARTED stream, in the order of starting, whose direction the phase allows. -/
def nextStarted (t : Tile) (r : RunSt) : Option Nat :=
  let xs := t.b.streams.filter fun p => p.2.st = .started && phaseAllows r (sdWrite (sdAt t p.1))
  (xs.foldl (fun b p => match b with | none => some p | some q => if p.2.started < q.2.started then some p else some q)
    none).map (·.1)

/-- STARTED streams become ISSUING while slots are free (R236); `fuel` bounds their number. -/
def promoteStreams (k : Nat) (r : RunSt) : Nat → State → State
  | 0, s => s
  | fuel + 1, s =>
    let t := tileAt s k
    if 128 ≤ slotsUsed t then s
    else
      match nextStarted t r with
      | none => s
      | some n => promoteStreams k r fuel (setStream k n { streamAt t n with st := .issuing } s)

/-- Two streams ISSUING at once in one direction on one PORT (R248). -/
def portClash (t : Tile) : Bool :=
  let xs := (t.b.streams.filter fun p => p.2.st = .issuing).map fun p => (sdWrite (sdAt t p.1), sdPort (sdAt t p.1))
  decide (xs.eraseDups.length < xs.length)

/-- A stream parks at the element boundary of an access whose translation failed: XLATE_PARKED (R258). The fault id is a
free value among those that no parked stream holds and that this one has not had last (R259). -/
def parkStream (k c n va access cause : Nat) (s : State) : State :=
  let t := tileAt s k
  let x := streamAt t n
  let used := (s.tiles.flatMap fun p => (p.2.b.streams.filter fun y => y.2.st = .parked).map fun y => y.2.faultId) ++ x.formerId.toList
  let start := freeNat s 0 % 65536
  let id := (((List.range (used.length + 1)).map fun i => (start + i) % 65536).find? fun i => !used.contains i).getD start
  let s1 := useFree 1 (setStream k n { x with st := .parked, faultId := id, formerId := some id, waitVa := some (va, access) } s)
  let s2 := modB k (fun b => { b with cntPark := satAdd 32 b.cntPark 1 }) s1
  raise 0x0006 c (toLE 2 id ++ toLE 1 (noHoop k) ++ toLE 1 (bTileName k) ++ toLE 2 n ++ toLE 1 access ++ toLE 1 cause ++
    toLE 8 va) s2

/-- Bytes of the page that a walk of the context finds at va; 2 MiB where it finds none. -/
def pageSize (s : State) (c q va : Nat) : Nat :=
  match walk s c q va with
  | .leaf _ size _ => size
  | _ => 2 ^ 21

/-- A walk for a stream begins, or joins one to the same page; with eight walks in progress the stream tries again
later (R257). -/
def startWalk (k c n va access : Nat) (s : State) : State :=
  let t := tileAt s k
  let page := pageSize s c (quarterOf (noHoop k)) va
  let same (w : Walk) : Bool := decide (w.ctx = c) && decide (w.va / page = va / page)
  let wait := setStream k n { streamAt t n with waitVa := some (va, access), st := .issuing }
  if t.b.walks.any same then
    wait (modB k (fun b => { b with walks := b.walks.map fun w => if same w then { w with streams := w.streams ++ [n] } else w }) s)
  else if 8 ≤ t.b.walks.length then s
  else
    wait (modB k (fun b => { b with walks := b.walks ++ [⟨c, va, [n]⟩], cntMiss := satAdd 32 b.cntMiss 1 }) s)

/-- The TLB's leaf for a virtual address of a context. -/
def tlbFind (t : Tile) (c va : Nat) : Option TlbEntry :=
  t.b.tlb.find? fun e => decide (e.ctx = c) && decide (e.va ≤ va) && decide (va < e.va + e.size)

/-- The outcome of a stream's access to HBM: the physical address, or the state after the stream waits, walks, parks
or faults. -/
inductive SAccess where
  | at_ (pa : Nat)
  | stop (s : State)

/-- An access of L bytes at context-relative address a (R255, R257, R258); `clear` says that every earlier element
has been delivered or acknowledged, which a bound violation, a walk and a parking wait for. -/
def streamAccess (k c n : Nat) (a : Int) (len : Nat) (write clear : Bool) (access : Nat) (s : State) : SAccess :=
  let t := tileAt s k
  let bound : SAccess := .stop ((if clear then faultWith c .bound (unitItem k) (.access 3 (a % 2 ^ 64).toNat len) s else s))
  if a < 0 then bound
  else
    match hbmVa s c a.toNat len with
    | none => bound
    | some va0 =>
      -- an aperture is redirected to the record of version CUR, whose own mapping is used
      let va? := match apertureOf s c a.toNat with
        | none => some va0
        | some ap => hbmVa s c ap.at_ len
      match va? with
      | none => bound
      | some va =>
        if syncHbmHit s c a.toNat len then .stop (undef .syncWord c s)
        else
          match tlbFind t c va with
          | some e =>
            if write && !e.w then .stop ((if clear then parkStream k c n va access 1 s else s))
            else .at_ (e.pa + (va - e.va))
          | none => .stop ((if clear then startWalk k c n va access s else s))

/-- How many of `cnt` pieces of w bytes from context-relative address a one request can cover: those within the bound,
clear of the sync region, and redirected to consecutive bytes where they lie in an aperture (R244, R255, R338). -/
def coverable (s : State) (c : Nat) (a : Int) (w cnt : Nat) : Nat :=
  let home (i : Nat) : Option Nat := (apertureOf s c (a + i * w).toNat).map fun ap => ap.at_ - i * w
  ((List.range cnt).takeWhile fun (i : Nat) => (hbmVa s c (a + i * w).toNat w).isSome && !syncHbmHit s c (a + i * w).toNat w &&
    home i == home 0).length

/-! ## Writes on their way to a controller (R27, R231, R254) -/

/-- Two writes of one source to one stack: they arrive in the order issued (R27). -/
def sameWay (x y : HbmWrite) : Bool := decide (x.site = y.site) && decide (stackOf x.pa = stackOf y.pa)

/-- The next write to arrive of those that take the way of w. -/
def firstOnWay (s : State) (w : HbmWrite) : Option HbmWrite := s.net.writes.find? fun x => !x.done && sameWay x w

/-- A write has been performed; its acknowledgement is on its way (R245). -/
def wroteAt (wid : Nat) (s : State) : State :=
  modNet (fun n => { n with writes := n.writes.map fun x => if x.wid = wid then { x with done := true } else x }) s

/-- Whether a write covers whole codewords outside the apertures, so that its controller merges nothing (R231, R338). -/
def isWhole (s : State) (w : HbmWrite) : Bool :=
  !w.mask && decide (w.pa % 32 = 0) && decide (w.data.length % 32 = 0) && (apertureOf s w.ctx w.ca).isNone

/-- Whole codewords at the head of a way are replaced at once; other writes wait for their controller's command.
`fuel` bounds the writes. -/
def settleWay (w : HbmWrite) : Nat → State → State
  | 0, s => s
  | fuel + 1, s =>
    match firstOnWay s w with
    | some x => if isWhole s x then settleWay w fuel (wroteAt x.wid (poke s x.pa x.data)) else s
    | none => s

/-- A write leaves for its controller. -/
def sendWrite (w : HbmWrite) (s : State) : State :=
  let s1 := modNet (fun n => { n with writes := n.writes ++ [w] }) s
  settleWay w s1.net.writes.length s1

end Sys2Proof.Machine
end

