-- ==== Sys2Proof/Machine/BTile.lean ====
section
/-! DEFINITION. Border tiles: stream steps, requests and data of streams, the merge buffer, walks, phases and peer
buffers (R233 to R264). One command issues at most one request and delivers at most one token. -/

namespace Sys2Proof.Machine

/-! ## Steps (R235, R236, R253) -/

/-- The stream that a step names: ARGS[9:0], plus the iteration index under ITER. -/
def stepStream (t : Tile) (st : Stp) : Nat := fld st.args 0 10 + iterIdx t st (bitAt st.args 10)

/-- SSTART: the stream becomes STARTED; an empty one is COMPLETE at once (R236, R240). -/
def execSstart (site : Site) (s : State) : Out :=
  ground (tileStep site .B (fun st => st.opc = 1) (fun k c st s =>
    let t := tileAt s k
    let n := stepStream t st
    let x := streamAt t n
    if t.seq.issued then issue .B k c st false id s
    else if sdCount t ≤ n then undef .streamDesc c s
    else if x.st ≠ .idle && x.st ≠ .complete then issue .B k c st false id s
    else if streamUndef s k (sdAt t n) then undef .streamDesc c s
    else
      let y := { Stream.reset with st := .started, started := t.b.nextStart, out := x.out }
      let start (s : State) : State :=
        let s1 := modB k (fun b => { b with nextStart := b.nextStart + 1 }) (setStream k n y s)
        if sdTotal (sdAt t n) = 0 then completeStream k c n y s1
        else
          match runOf s1 k with
          | some r => promoteStreams k r 1024 s1
          | none => s1
      let s' := issue .B k c st true start s
      if portClash (tileAt s' k) then undef .streamDesc c s' else s') s) s

/-- SWAIT: fires when the stream, started in the run, is COMPLETE (R235, R236). -/
def execSwait (site : Site) (s : State) : Out :=
  ground (tileStep site .B (fun st => st.opc = 2) (fun k c st s =>
    let t := tileAt s k
    let n := stepStream t st
    let x := streamAt t n
    if sdCount t ≤ n then undef .streamDesc c s
    else plainStep .B k c st (x.started ≠ 0 && decide (x.st = .complete)) plainCtl s) s) s

/-- Whether every READ stream that the tile started in the run is COMPLETE. -/
def readsDone (t : Tile) : Bool :=
  t.b.streams.all fun p => sdWrite (sdAt t p.1) || !p.2.pending

/-- A PHASE step records that the tile has fired it (R253). -/
def phaseStep (out : Bool) (site : Site) (s : State) : Out :=
  ground (tileStep site .B (fun st => decide (st.opc = 3) && (bitAt st.args 0 == out)) (fun k c st s =>
    let t := tileAt s k
    if !readsDone t || (st.flow = 4 && !fenceOk t .B) then unitBusy k s
    else fire k c st plainCtl (modB k (fun b => { b with fired := max b.fired (if out then 2 else 1) }) s)) s) s

/-- PHASE COMPUTE (R253). -/
def execPhaseCompute (site : Site) (s : State) : Out := phaseStep false site s

/-- PHASE OUT (R253). -/
def execPhaseOut (site : Site) (s : State) : Out := phaseStep true site s

/-- The active B-tile sequencers of a run's region. -/
def activeB (s : State) (h : Nat) (r : RunSt) : List Nat :=
  (regionTiles h r.c0 r.c1).filter fun k => kindOf k = .B && (tileAt s k).seq.on

/-- PHASE_ADVANCE: the region moves to its next phase once every active B-tile sequencer has fired its PHASE step or
its END (R252, R253). -/
def execPhaseAdvance (hoop : Fin 8) (entry : Fin 128) (s : State) : Out :=
  let h := hoop.val
  ground (match (hoopAt s h).runs.find? fun r => decide (r.entry = entry.val) && decide (r.stage = .running) with
  | none => s
  | some r =>
    let bs := activeB s h r
    let all (n : Nat) : Bool := !bs.isEmpty && bs.all fun k => decide (n ≤ (tileAt s k).b.fired) || (tileAt s k).seq.ended
    let go (p : Phase) : State :=
      let s1 := modHoop h (fun x => { x with runs := x.runs.map fun y => if y = r then { y with phase := p } else y }) s
      let s2 := bs.foldl (fun s k => promoteStreams k { r with phase := p } 1024 s) s1
      if bs.any fun k => portClash (tileAt s2 k) then undef .streamDesc r.ctx s2 else s2
    match r.phase with
    | .input => if all 1 then go .compute else s
    | .compute => if all 2 && (!r.split || r.outOk) then go .output else s
    | .output => s) s

/-! ## Requests (R238 to R244) -/

/-- Counts of one engine request of n bytes. -/
def countReq (k : Nat) (isRead : Bool) (n : Nat) (s : State) : State :=
  modB k (fun b => { b with
    cntReq := satAdd 32 b.cntReq 1
    cntRd := if isRead then satAdd 48 b.cntRd n else b.cntRd
    cntWr := if isRead then b.cntWr else satAdd 48 b.cntWr n }) s

/-- Requests of an engine in a direction that have been issued and not answered: a merged one is one request (R233,
R244). -/
def outstanding (t : Tile) (isRead : Bool) : Nat :=
  (t.b.streams.flatMap fun p => (p.2.reqs.filter fun r => r.isRead == isRead && !r.merge).map (·.grp)).eraseDups.length

/-- Whether the engine may issue one more request in a direction (R233). -/
def canIssue (t : Tile) (isRead : Bool) : Bool := decide (outstanding t isRead < if isRead then 192 else 64)

/-- Requests that wait in the merge buffer, in their order of arrival (R244). -/
def mergeWaiting (t : Tile) : List StreamReq :=
  (t.b.streams.flatMap fun p => p.2.reqs.filter (·.merge)).mergeSort fun a b => decide (a.wid ≤ b.wid)

/-- The entries of the merge buffer, oldest first: one direction and block each (R244). -/
def mergeGroups (t : Tile) : List (Bool × Nat) := ((mergeWaiting t).map fun r => (r.isRead, r.pa / 256)).eraseDups

/-- Whether a request waits in an entry of the merge buffer. -/
def inGroup (g : Bool × Nat) (r : StreamReq) : Bool := r.merge && r.isRead == g.1 && decide (r.pa / 256 = g.2)

/-- Bytes of its block that an entry's requests cover (R244). -/
def covered (rs : List StreamReq) : Nat :=
  ((List.range 256).filter fun i => rs.any fun r => decide (r.pa % 256 ≤ i) && decide (i < r.pa % 256 + r.len)).length

/-- A write of a stream, or of one mask bit (R242), leaves for its controller. -/
def putWrite (k c : Nat) (r : StreamReq) (s : State) : State :=
  sendWrite ⟨r.wid, c, quarterOf (noHoop k), some k, r.ca, r.pa, r.data, false, decide (r.kind = 3)⟩ s

/-- An entry of the merge buffer is issued: one request for all of it (R244). -/
def issueGroup (k c : Nat) (g : Bool × Nat) (s : State) : State :=
  let rs := (mergeWaiting (tileAt s k)).filter (inGroup g)
  let id := (rs.head?.map (·.wid)).getD 0
  let s1 := modB k (fun b => { b with streams := b.streams.map fun p =>
    (p.1, { p.2 with reqs := p.2.reqs.map fun r => if inGroup g r then { r with merge := false, grp := id } else r }) }) s
  let s2 := countReq k g.1 (covered rs) s1
  if g.1 then s2 else rs.foldl (fun s r => putWrite k c r s) s2

/-- Whether the engine may issue an entry of the merge buffer: it has room for it (R233), and the region's phase allows the
direction of the streams that it serves, to which their index and mask reads belong (R252). -/
def mayIssue (s : State) (k : Nat) (g : Bool × Nat) : Bool :=
  let t := tileAt s k
  canIssue t g.1 && (runOf s k).any fun r =>
    t.b.streams.all fun p => !p.2.reqs.any (inGroup g) || phaseAllows r (sdWrite (sdAt t p.1))

/-- A request of a stream, which `f` moves on, enters: issued at once, or through the merge buffer (R244). Where the
engine's outstanding requests leave it no room, it waits and nothing changes (R233). R244 does not say which entry is
issued, or when, once all 16 are in use: DESIGN CHOICE, the oldest when a request for a 17th block comes (log entry
38). -/
def enterReq (k c n : Nat) (r : StreamReq) (f : Stream → Stream) (s : State) : State :=
  let t := tileAt s k
  let d := sdAt t n
  let wid := s.net.nextWid
  let g := (r.isRead, r.pa / 256)
  let gs := mergeGroups t
  let add (m : Bool) (s : State) : State :=
    let x := f (streamAt (tileAt s k) n)
    setStream k n { x with reqs := x.reqs ++ [{ r with wid := wid, grp := wid, merge := m }] }
      (modNet (fun m => { m with nextWid := m.nextWid + 1 }) s)
  if sdMerge d && gs.contains g then
    let s1 := modB k (fun b => { b with cntMerged := satAdd 32 b.cntMerged 1 }) (add true s)
    if covered ((mergeWaiting (tileAt s1 k)).filter (inGroup g)) = 256 && mayIssue s1 k g then issueGroup k c g s1 else s1
  else if sdMerge d && r.len < 256 then
    if gs.length < 16 then add true s
    else
      let old := gs.headD g
      if mayIssue s k old then add true (issueGroup k c old s) else s
  else if canIssue t r.isRead then
    let s1 := countReq k r.isRead r.len (add false s)
    if r.isRead then s1 else putWrite k c { r with wid := wid } s1
  else s

/-- Elements from e on that follow each other in memory within one aligned 256-B block, up to `cap` (R244). -/
def runLen (d index : Nat) (e : Nat) (cap : Nat) : Nat :=
  let a := elemAddr d e index
  let sz : Int := sdEsize d
  let ok (i : Nat) : Bool :=
    let b := elemAddr d (e + i) (if sdIen d then index else coordOf d (e + i) 4)
    decide (b = a + i * sz) && decide (b / 256 = a / 256) && (!sdIen d || coordOf d (e + i) 4 = coordOf d e 4)
  ((List.range cap).takeWhile ok).length

/-- Elements that the present strip still holds, under MEN. -/
def stripLeft (d e total : Nat) : Nat := if sdMen d then min (64 - e % 64) (total - e) else total - e

/-- The index of element e, where it needs none or its entry has been read (R238). -/
def indexKnown (d : Nat) (x : Stream) (e : Nat) : Option Nat :=
  let c4 := coordOf d e 4
  if !sdIen d then some c4 else if x.idxAt ≤ c4 then x.idx[c4 - x.idxAt]? else none

/-- A read of index entries or mask words ahead of their use, an ordinary request of the stream (R238, R241): at most
`cnt` pieces of w bytes from piece `first` of the array at `base`, within one aligned 256-B block. -/
def aheadRead (k c n kind base w first cnt : Nat) (clear : Bool) (s : State) : State :=
  let x := streamAt (tileAt s k) n
  let a := base + first * w
  let m := max 1 (coverable s c a w (min cnt ((256 - a % 256) / w)))
  if x.reqs.any fun r => r.kind = kind && r.isRead then s
  else
    match streamAccess k c n a w false clear kind s with
    | .stop o => o
    | .at_ pa => enterReq k c n ⟨kind, first, m, a, pa, m * w, true, [], false, 0, 0⟩ id s

/-- The read of the index entries from that of element e on (R238). -/
def indexRead (k c n d e : Nat) (clear : Bool) (s : State) : State :=
  let c4 := coordOf d e 4
  aheadRead k c n 2 (sdIptr d) (sdIw d) c4 (sdCnt d 4 - c4) clear s

/-- Skipped strips ahead of a READ pass without a request (R241). -/
def skipStrips (x : Stream) : Stream :=
  let z := (x.bits.takeWhile (!·)).length
  { x with next := x.next + 64 * z, bits := x.bits.drop z }

/-- A READ goes on to its next strips: their bits are read, and a MASK token covers them (R241). -/
def maskIssue (k c n d : Nat) (clear : Bool) (s : State) : State :=
  let x := streamAt (tileAt s k) n
  let strips := sdTotal d / 64
  let cnt := min 24 (strips - x.next / 64)
  if cnt ≤ x.known.length then
    if !clear then s
    else (setStream k n (skipStrips { x with
      bits := x.known.take cnt, known := x.known.drop cnt, out := [(true, maskToken (x.known.take cnt))] }) s)
  else aheadRead k c n 3 (sdMptr d) 8 (x.maskAt / 64) (ceilDiv strips 64 - x.maskAt / 64) clear s

/-- One request of a READ (R238 to R244). -/
def readIssue (k c n d : Nat) (s : State) : State :=
  let x := streamAt (tileAt s k) n
  let total := sdTotal d
  let clear := x.reqs.isEmpty && x.out.isEmpty
  if total ≤ x.next then s
  else if sdMen d && x.bits.isEmpty then maskIssue k c n d clear s
  else
    match indexKnown d x x.next with
    | none => indexRead k c n d x.next clear s
    | some index =>
      let a := elemAddr d x.next index
      if a % (sdEsize d : Int) ≠ 0 then undef .streamDesc c s
      else
        let cnt := runLen d index x.next (min (256 / sdEsize d) (stripLeft d x.next total))
        let m := max 1 (coverable s c a (sdEsize d) cnt)
        match streamAccess k c n a (sdEsize d) false clear 0 s with
        | .stop o => o
        | .at_ pa =>
          (enterReq k c n ⟨0, x.next, m, a.toNat, pa, m * sdEsize d, true, [], false, 0, 0⟩ (fun y =>
            skipStrips { y with next := y.next + m
                                bits := if sdMen d && (y.next + m) % 64 = 0 then y.bits.drop 1 else y.bits }) s)

/-- Elements converted between two formats, with the flags they raise (R239, R64). -/
def convElems (src dst mode base : Nat) (satf : Bool) (xs : List Nat) : List Nat × Flags :=
  match fmtOf src, fmtOf dst with
  | some f, some g =>
    let ys := xs.zipIdx.map fun (x, e) => convElem f g mode base e satf (decode f 0 x)
    (ys.map (·.1), ys.foldl (fun a y => a ||| y.2) 0)
  | _, _ => (xs, 0)

/-- Bytes cut into elements of w bytes. -/
def elemsOfBytes (w : Nat) (bs : List Byte) : List Nat := (List.range (bs.length / w)).map fun e => leNat ((bs.drop (w * e)).take w)

/-- A WRITE takes the next token of its data queue (R239, R243). -/
def takeData (k c n q : Nat) (s : State) : State :=
  match headOf (tileAt s k) q with
  | .empty => s
  | .parity => faultAt c .queueParity (unitItem k) s
  | .tok a =>
    let s1 := windowPop k q s
    setStream k n { streamAt (tileAt s1 k) n with buf := (streamAt (tileAt s1 k) n).buf ++ tokBytes a.val } s1

/-- A WRITE takes the bit of its next strip and writes it alone into its mask word, a request of its own (R242, R244). -/
def maskWrite (k c n d : Nat) (clear : Bool) (s : State) : State :=
  let t := tileAt s k
  let x := streamAt t n
  let q := 4 + sdPort d
  match nextBits t q q 1 with
  | .wait => s
  | .parity => faultAt c .queueParity (unitItem k) s
  | .bits bs rest pop =>
    let bit := bs.headD false
    let st := x.next / 64
    let a := sdMptr d + 8 * (st / 64)
    match streamAccess k c n (a : Int) 8 true clear 3 s with
    | .stop o => o
    | .at_ pa =>
      let s1 := enterReq k c n ⟨3, x.next, 0, a + st % 64 / 8, pa + st % 64 / 8, 1, false,
          [BitVec.ofNat 8 (st % 8), if bit then 1 else 0], false, 0, 0⟩ (fun y =>
        { y with bits := if bit then [true] else [], next := if bit then y.next else y.next + 64 }) s
      if s1.net.nextWid = s.net.nextWid then s else unlearned k (keepBits k q q rest pop) s1

/-- One request of a WRITE: a strip's mask bit, a token taken, or bytes written (R239, R242, R244). -/
def writeIssue (k c n d : Nat) (s : State) : State :=
  let t := tileAt s k
  let x := streamAt t n
  let total := sdTotal d
  let clear := x.reqs.isEmpty
  let ts := sdTsize d
  if total ≤ x.next || !canIssue t false then s
  else if sdMen d && x.bits.isEmpty then maskWrite k c n d clear s
  else
    match indexKnown d x x.next with
    | none => indexRead k c n d x.next clear s
    | some index =>
      let a := elemAddr d x.next index
      if a % (sdEsize d : Int) ≠ 0 then undef .streamDesc c s
      else
        let want := runLen d index x.next (min (256 / sdEsize d) (stripLeft d x.next total))
        let have_ := x.buf.length / ts
        if have_ < want && !(qToks t (sdPort d)).isEmpty then takeData k c n (sdPort d) s
        else if have_ = 0 then s
        else
          let m := max 1 (coverable s c a (sdEsize d) (min have_ want))
          match streamAccess k c n a (sdEsize d) true clear 1 s with
          | .stop o => o
          | .at_ pa =>
            let raw := elemsOfBytes ts (x.buf.take (m * ts))
            let (ys, fl) := if sdConv d then convElems (sdTfmt d) (sdMfmt d) (sdRmode d) s.free (sdSatf d) raw else (raw, 0)
            let data := ys.flatMap (toLE (sdEsize d))
            (enterReq k c n ⟨1, x.next, m, a.toNat, pa, data.length, false, data, false, 0, 0⟩ (fun y =>
              -- the last token's bytes beyond the last element are ignored
              { y with next := y.next + m, flags := y.flags ||| BitVec.ofNat 6 fl
                       buf := if total ≤ y.next + m then [] else y.buf.drop (m * ts)
                       bits := if sdMen d && (y.next + m) % 64 = 0 then [] else y.bits }) (useFree 512 s))

/-- Tokens of a PEER stream. -/
def peerTokens (d : Nat) : Nat := ceilDiv (sdTotal d * sdEsize d) 64

/-- A PEER stream takes a token and sends it as a message (R247). -/
def peerIssue (k c n d : Nat) (s : State) : State :=
  let t := tileAt s k
  let x := streamAt t n
  if sdTotal d ≤ x.next then s
  else
    match headOf t (sdPort d) with
    | .empty => s
    | .parity => faultAt c .queueParity (unitItem k) s
    | .tok a =>
      let dst := bTileNo (fld (sdVbase d) 0 3) (fld (sdVbase d) 3 5)
      let s1 := windowPop k (sdPort d) s
      let s2 := setStream k n { streamAt (tileAt s1 k) n with next := min (sdTotal d) (x.next + 64 / sdEsize d) } s1
      modNet (fun m => { m with
        peers := m.peers ++ [⟨m.nextWid, k, n, dst, fld (sdVbase d) 8 2, c, a.val⟩], nextWid := m.nextWid + 1 }) s2

/-- STREAM_ISSUE: streams take free issue slots, and the named one issues a request, in a phase that allows its
direction (R236, R250, R252). -/
def execStreamIssue (site : Site) (stream : Fin 1024) (s : State) : Out :=
  let k := siteNo site
  let n := stream.val
  ground (match runOf s k with
  | none => s
  | some r =>
    if kindOf k ≠ .B || (streamAt (tileAt s k) n).started = 0 then s
    else
      let s1 := promoteStreams k r 1024 s
      let t := tileAt s1 k
      let x := streamAt t n
      let d := sdAt t n
      if portClash t then undef .streamDesc r.ctx s1
      else if (x.st = .started || x.st = .issuing) && !phaseAllows r (sdWrite d) then
        if x.st = .started then modB k (fun b => { b with cntPwait := satAdd 32 b.cntPwait 1 }) s1 else s1
      else if x.st ≠ .issuing || x.waitVa.isSome then s1
      else if sdKind d = 2 then peerIssue k r.ctx n d s1
      else if sdWrite d then writeIssue k r.ctx n d s1
      else readIssue k r.ctx n d s1) s

/-! ## Data of READ streams (R239, R243, R245) -/

/-- A waiting token of a stream leaves on its output; an issuing one counts its wait for a credit (Table 07.7). -/
def sendStreamTok (k n : Nat) (x : Stream) (port : Nat) (s : State) : Option State :=
  match x.out with
  | [] => none
  | (ctrl, v) :: rest =>
    if hasCredit (tileAt s k) port ctrl then
      let s1 := sendTokVc k port ctrl v [] s
      some (setStream k n { streamAt (tileAt s1 k) n with out := rest } s1)
    else if x.st = .issuing then some (modB k (fun b => { b with cntCwait := satAdd 32 b.cntCwait 1 }) s)
    else some s

/-- Packed bytes become tokens, or cordonnet transfers of 256 B; at the end of the stream a partial one is completed
with zero bytes. -/
def packStream (k c n d : Nat) (x : Stream) (s : State) : State :=
  let unit := if sdKind d = 1 then 256 else 64
  let last := decide (sdTotal d ≤ x.next) && x.reqs.isEmpty
  let whole := if last then ceilDiv x.buf.length unit else x.buf.length / unit
  let units := (List.range whole).map fun j => padTo unit ((x.buf.drop (unit * j)).take unit)
  let y := { x with buf := x.buf.drop (unit * whole) }
  if sdKind d = 1 then
    modNet (fun m => { m with xfers := m.xfers ++ units.map fun bs => ⟨noHoop k, c, sdTag d, bs⟩ }) (setStream k n y s)
  else setStream k n { y with out := y.out ++ units.map fun bs => (false, tokOf bs) } s

/-- A READ that has delivered its last token is COMPLETE (R236). -/
def readEnd (k c n d : Nat) (s : State) : State :=
  let x := streamAt (tileAt s k) n
  if x.st = .issuing && decide (sdTotal d ≤ x.next) && x.reqs.isEmpty && x.buf.isEmpty && x.out.isEmpty && x.bits.isEmpty then
    completeStream k c n x s
  else s

/-- The five coordinates of element e, 24 bits each, coordinate 0 lowest (Table 07.5). -/
def coordsOf (d e : Nat) : Nat := (List.range 5).foldl (fun a n => a + coordOf d e n * 2 ^ (24 * n)) 0

/-- A stream stops at element e, whose data depends on the uncorrectable codeword at pa (R263). -/
def streamUe (k c n d e pa : Nat) (s : State) : State :=
  faultWith c .eccUe (unitItem k) (.stream (stackOf pa) pa n (coordsOf d e)) s

/-- Bytes of a request that precede the first uncorrectable codeword, and that codeword (R263). -/
def goodBytes (s : State) (r : StreamReq) : Nat × Option Nat :=
  match ueAt s r.pa r.len with
  | none => (r.len, none)
  | some w => (w / 32 * 32 - r.pa, some w)

/-- Index entries or mask words that have returned (R238, R241): those before an uncorrectable codeword are kept, and
the rest is read again when it is needed. -/
def keepAhead (d : Nat) (r : StreamReq) (bs : List Byte) (x : Stream) : Stream :=
  let y := { x with reqs := eraseFirst (fun q => q.wid = r.wid) x.reqs }
  if r.kind = 2 then { y with idx := elemsOfBytes (sdIw d) bs, idxAt := r.first }
  else
    let words := elemsOfBytes 8 bs
    { y with maskAt := y.maskAt + 64 * words.length
             known := y.known ++ (words.flatMap fun w => (List.range 64).map (bitAt w)) }

/-- Bytes read at pa, with the bytes or the mask bit that one write brings. -/
def afterWrite (pa : Nat) (w : StreamReq) (bs : List Byte) : List Byte :=
  bs.zipIdx.map fun (b, i) =>
    if w.pa ≤ pa + i ∧ pa + i < w.pa + w.len then
      (if w.kind = 3 then setBitOf b (w.data.headD 0).toNat (w.data.getD 1 0 = 1) else w.data.getD (pa + i - w.pa) b)
    else b

/-- n bytes at pa as a read of the stream sees them: with the writes that the same stream made before it and that have not
reached memory (R254). An aperture write reaches GRAD instead (R338). -/
def peekOwn (s : State) (c : Nat) (x : Stream) (r : StreamReq) (n : Nat) : List Byte :=
  let late (w : StreamReq) : Bool := !w.isRead && decide (w.wid < r.wid) && (apertureOf s c w.ca).isNone &&
    (w.merge || s.net.writes.any fun y => decide (y.wid = w.wid) && !y.done)
  (x.reqs.filter late).foldl (fun bs w => afterWrite r.pa w bs) (peek s r.pa n)

/-- The oldest read that a stream has issued answers: index entries and mask words are kept, elements are converted and
packed. One of which no piece precedes an uncorrectable codeword stops the stream once every earlier element has been
delivered or acknowledged (R239, R263). -/
def readReturn (k c n d : Nat) (x : Stream) (r : StreamReq) (s : State) : State :=
  let w := if r.kind = 2 then sdIw d else if r.kind = 3 then 8 else sdEsize d
  let (good, bad) := goodBytes s r
  let m := good / w
  let bs := peekOwn s c x r (m * w)
  let s1 := modB k (fun b => { b with promoted := b.promoted.filter (· ≠ r.wid) }) s
  if bad.isSome && m = 0 then
    if x.reqs.head?.map (·.wid) = some r.wid && x.out.isEmpty then
      streamUe k c n d (if r.kind = 0 then r.first else x.next) (bad.getD 0) s
    else s
  else if r.kind = 2 || r.kind = 3 then setStream k n (keepAhead d r bs x) s1
  else
    let raw := elemsOfBytes w bs
    let (ys, fl) := if sdConv d then convElems (sdMfmt d) (sdTfmt d) (sdRmode d) s.free (sdSatf d) raw else (raw, 0)
    let left := if bad.isNone then [] else
      [{ r with first := r.first + m, count := r.count - m, ca := r.ca + m * w, pa := r.pa + m * w, len := r.len - m * w }]
    let y := { x with reqs := left ++ x.reqs.drop 1, buf := x.buf ++ ys.flatMap (toLE (sdTsize d))
                      flags := x.flags ||| BitVec.ofNat 6 fl }
    readEnd k c n d (packStream k c n d y (useFree 256 (if bad.isNone then s1 else s)))

/-- STREAM_READ_DATA: the oldest request's data returns, or a waiting token leaves (R238, R239, R241, R245, R246). -/
def execStreamReadData (site : Site) (stream : Fin 1024) (s : State) : Out :=
  let k := siteNo site
  let n := stream.val
  let t := tileAt s k
  let x := streamAt t n
  let d := sdAt t n
  ground (match runOf s k with
  | none => s
  | some run =>
    let c := run.ctx
    if kindOf k ≠ .B || x.started = 0 then s
    else
      match sendStreamTok k n x (sdPort d) s with
      | some s1 => readEnd k c n d s1
      | none =>
        if sdKind d = 1 && s.net.xfers.any fun f => decide (f.hoop = noHoop k) then s
        else
          match x.reqs.find? (·.isRead) with
          | none => if sdWrite d then s else readEnd k c n d s
          | some r => if r.merge then s else readReturn k c n d x r s) s

/-- A WRITE of which every element has been issued and every write acknowledged is COMPLETE (R236, R245). -/
def writeEnd (k c n d : Nat) (s : State) : State :=
  let y := streamAt (tileAt s k) n
  if y.st = .issuing && decide (sdTotal d ≤ y.next) && y.reqs.isEmpty && y.bits.isEmpty then completeStream k c n y s else s

/-- STREAM_WRITE_ACK: the oldest performed write of the stream is acknowledged; the last one makes it COMPLETE (R245). So
is one that an eviction stopped with every write performed (R260). -/
def execStreamWriteAck (site : Site) (stream : Fin 1024) (s : State) : Out :=
  let k := siteNo site
  let n := stream.val
  let t := tileAt s k
  let x := streamAt t n
  let d := sdAt t n
  ground (match runOf s k with
  | none => s
  | some run =>
    let doneW (r : StreamReq) : Bool := !r.isRead && !r.merge && s.net.writes.any fun w => decide (w.wid = r.wid) && w.done
    if kindOf k ≠ .B || x.started = 0 || !sdWrite d then s
    else
      match x.reqs.find? doneW with
      | none => if sdKind d = 2 then s else writeEnd k run.ctx n d s
      | some r =>
        let y := { x with reqs := eraseFirst (fun q => q.wid = r.wid) x.reqs }
        let s1 := modNet (fun m => { m with writes := eraseFirst (fun w => w.wid = r.wid) m.writes }) (setStream k n y s)
        let s2 := modB k (fun b => { b with promoted := b.promoted.filter (· ≠ r.wid) }) s1
        writeEnd k run.ctx n d s2) s

/-- MERGE_TIMEOUT: the n-th entry of the merge buffer is issued after its 16 NCLK, unless the engine's outstanding
requests leave no room or the phase holds it (R233, R244, R252). -/
def execMergeTimeout (site : Site) (n : Nat) (s : State) : Out :=
  let k := siteNo site
  ground (match runOf s k, (mergeGroups (tileAt s k))[n]? with
  | some r, some g => if mayIssue s k g then issueGroup k r.ctx g s else s
  | _, _ => s) s

/-- REQUEST_PROMOTE: the n-th outstanding request of an undeclared stream joins the declared class (R251). -/
def execRequestPromote (site : Site) (n : Nat) (s : State) : Out :=
  let k := siteNo site
  let t := tileAt s k
  let ws := (t.b.streams.flatMap fun p => if sdRate (sdAt t p.1) = 0 then p.2.reqs.map (·.wid) else []).filter fun w =>
    !t.b.promoted.contains w
  ground (if kindOf k ≠ .B then s
  else
    match (ws.mergeSort fun a b => decide (a ≤ b))[n]? with
    | some w => modB k (fun b => { b with promoted := b.promoted ++ [w] }) s
    | none => s) s

/-! ## Translation (R256 to R259) -/

/-- A leaf enters the TLB; with 512 entries a free choice of entry gives way (the replacement is not stated). -/
def tlbPut (k : Nat) (e : TlbEntry) (s : State) : State :=
  let old := (tileAt s k).b.tlb.filter fun x => !(decide (x.ctx = e.ctx) && decide (x.va = e.va))
  let kept := if 512 ≤ old.length then old.eraseIdx (freeNat s 0 % 512) else old
  useFree 1 (modB k (fun b => { b with tlb := kept ++ [e] }) s)

/-- A stream goes on after its walk found a leaf, or parks on a page without W. -/
def walkDone (k c : Nat) (w : Bool) (n : Nat) (s : State) : State :=
  let x := streamAt (tileAt s k) n
  match x.waitVa with
  | none => s
  | some (va, access) =>
    let write := access = 1 || (access = 3 && sdWrite (sdAt (tileAt s k) n))
    if write && !w then parkStream k c n va access 1 s
    else setStream k n { x with st := .issuing, waitVa := none, faultId := 0 } s

/-- TLB_WALK: the n-th walk of an engine completes (R257, R258). -/
def execTlbWalk (site : Site) (n : Nat) (s : State) : Out :=
  let k := siteNo site
  let t := tileAt s k
  ground (match t.b.walks[n]? with
  | none => s
  | some w =>
    if kindOf k ≠ .B then s
    else
      let s1 := modB k (fun b => { b with walks := b.walks.eraseIdx n }) s
      match walk s w.ctx (quarterOf (noHoop k)) w.va with
      | .ue pa => faultWith w.ctx .eccUe (unitItem k) (.word pa) s1
      | .miss =>
        (w.streams.foldl (fun s m =>
          match (streamAt (tileAt s k) m).waitVa with
          | some (va, access) => parkStream k w.ctx m va access 0 s
          | none => s) s1)
      | .leaf pa size wr =>
        let s2 := tlbPut k ⟨w.ctx, w.va / size * size, size, pa, wr⟩ s1
        w.streams.foldl (fun s m => walkDone k w.ctx wr m s) s2) s

/-! ## Peer buffers (R247) -/

/-- PEER_TOKEN_RECEIVE: a message on its way to the tile is accepted; messages of one source come in order (R27). -/
def execPeerTokenReceive (site : Site) (n : Nat) (s : State) : Out :=
  let k := siteNo site
  let mine := s.net.peers.filter fun p => p.dst = k
  ground (match mine[n]? with
  | none => s
  | some m =>
    if 1024 ≤ (tileAt s k).b.peer.length then s
    else
      let p := (mine.find? fun p => p.src = m.src).getD m
      let s1 := modNet (fun x => { x with peers := eraseFirst (fun y => y = p) x.peers }) s
      let s2 := modB k (fun b => { b with peer := b.peer ++ [⟨p.out, p.ctx, p.val⟩] }) s1
      let x := streamAt (tileAt s2 p.src) p.stream
      let d := sdAt (tileAt s2 p.src) p.stream
      let y := { x with done := x.done + 1 }
      if x.st = .issuing && decide (peerTokens d ≤ y.done) then completeStream p.src p.ctx p.stream y s2
      else setStream p.src p.stream y s2) s

/-- PEER_TOKEN_SEND: the oldest token of an output leaves while a run of its context is in progress on the region. -/
def execPeerTokenSend (site : Site) (out : Fin 4) (s : State) : Out :=
  let k := siteNo site
  let o := out.val
  let t := tileAt s k
  ground (match runOf s k, t.b.peer.find? fun p => p.out = o with
  | some r, some p =>
    if r.ctx ≠ p.ctx || !hasCredit t o false then s
    else sendTokVc k o false p.val [] (modB k (fun b => { b with peer := eraseFirst (fun q => q.out = o) b.peer }) s)
  | _, _ => s) s

end Sys2Proof.Machine
end

