-- ==== Sys2Proof/Machine/Controllers.lean ====
section
/-! DEFINITION. HBM controllers, the service path of the weight store, scrubbing and the background test (R196, R197,
R219 to R227, R231, R232, R338 to R341). -/

namespace Sys2Proof.Machine

/-! ## Writes by codeword (R197, R231) -/

/-- Bytes cut at the boundaries of 32-B codewords, each with its address. -/
def codewords (pa : Nat) (bs : List Byte) : List (Nat × List Byte) :=
  (List.range ((pa + bs.length + 31) / 32 - pa / 32)).map fun j =>
    let lo := max pa (32 * (pa / 32 + j))
    let hi := min (pa + bs.length) (32 * (pa / 32 + j + 1))
    (lo, (bs.drop (lo - pa)).take (hi - lo))

/-- Each codeword is replaced or merged; one whose merge meets an uncorrectable word is not written and is reported. -/
def writeCodewords (report : Nat → State → State) (pa : Nat) (bs : List Byte) (s : State) : State :=
  (codewords pa bs).foldl (fun s p =>
    match mergeUe s p.1 p.2.length with
    | some bad => report bad s
    | none => poke s p.1 p.2) s

/-- How an uncorrectable word is reported for a writer: its context's fault, or the log for context 0 (R220). -/
def reportUe (c : Nat) (site : Option Nat) (pa : Nat) (s : State) : State :=
  if c = 0 then ueFound pa s else faultWith c .eccUe ((site.map unitItem).getD noItem) (.word pa) s

/-- SERVICE_WRITE: a context-0 write to weight-slice codewords (R196, R197); one to an unpopulated address is discarded
and logged (R46, R217). One to a Hoop in Rest or Sleep starts its exit and waits for the end (R506). -/
def execServiceWrite (addr : BitVec 40) (data : List Byte) (s : State) : Out :=
  ground (if !fabricOn s then s
  else if isWs addr.toNat && isWs (addr.toNat + data.length - 1) then
    match asleepAt s addr.toNat with
    | some h => startExit h (modHoop h (fun x => { x with held := x.held ++ [(addr.toNat, data)] }) s)
    | none => writeCodewords ueFound addr.toNat data s
  else if populated addr.toNat then s else unpopulatedAt addr.toNat true s) s

/-- The service writes that waited for a Hoop's exit are made, in order. -/
def heldWrites (h : Nat) (s : State) : State :=
  (hoopAt s h).held.foldl (fun s x => writeCodewords ueFound x.1 x.2 s) (modHoop h (fun x => { x with held := [] }) s)

/-! ## Writes at an HBM controller -/

/-- ROLE, V and the rest of a block descriptor in HBM (Table 10.2), through the page tables of a quarter. -/
def blockDesc (s : State) (c q b : Nat) : Option Nat :=
  match hbmAddr s c q (fld (dnReg s c 2) 0 48 + 32 * b) 32 false with
  | .at_ pa => if (ueAt s pa 32).isSome then none else some (peekNum s pa 32)
  | _ => none

/-- Why a block descriptor could not be read. -/
def descFail (s : State) (c q b : Nat) : FaultCode :=
  match hbmAddr s c q (fld (dnReg s c 2) 0 48 + 32 * b) 32 false with
  | .at_ _ | .ue _ => .eccUe
  | .bound => .bound
  | _ => .xlate

/-- FP32 elements added to the stored ones (R339). -/
def addElems (old new : List Byte) : List Byte :=
  (List.range (new.length / 4)).flatMap fun e =>
    toLE 4 (addHbm (leNat ((old.drop (4 * e)).take 4)) (leNat ((new.drop (4 * e)).take 4)))

/-- Whether a block has been marked swept in the context's OPEN or DONE sweep (R356). -/
def sweptNow (s : State) (c b : Nat) : Bool :=
  let w := (ctxAt s c).sweep
  decide (w.st = .done) || (decide (w.st = .opened) && w.swept.contains b)

/-- One mask bit written through the merge of its codeword (R231, R242): the bytes name the bit and its value. -/
def mergeBit (report : Nat → State → State) (pa : Nat) (bs : List Byte) (s : State) : State :=
  match ueAt s pa 1 with
  | some bad => report bad s
  | none => poke s pa [setBitOf (Tab.get 0 s.mem pa) (bs.headD 0).toNat (bs.getD 1 0 = 1)]

/-- Elements added codeword by codeword (R339); one that is uncorrectable stays as it was and is reported. -/
def addCodewords (report : Nat → State → State) (pa : Nat) (bs : List Byte) (s : State) : State :=
  (codewords pa bs).foldl (fun s p =>
    match ueAt s p.1 p.2.length with
    | some bad => report bad s
    | none => poke s p.1 (addElems (peek s p.1 p.2.length) p.2)) s

/-- The outcome of a write that its controller checks: an undefined case, a fault of the writer, which may leave other
codewords written, or the state after it. -/
inductive WriteEnd where
  | undef
  | fail (code : FaultCode) (d : FaultDetail)
  | done (bad : Option Nat) (s : State)

/-- The codewords written; the first that is uncorrectable is named. -/
def written (f : (Nat → State → State) → State → State) (bad : Option Nat) (s : State) : WriteEnd :=
  .done bad (f (fun _ s => s) s)

/-- A write that lies in an aperture (R338 to R341, R356): discarded for a FROZEN or unused block, added or replaced. -/
def apertureEnd (w : HbmWrite) (ap : Aperture) (s : State) : WriteEnd :=
  let n := if w.mask then 1 else w.data.length
  if !ap.direction && (w.mask || w.ca % 4 ≠ 0 || n % 4 ≠ 0) then .undef
  else
    match blockDesc s w.ctx w.quarter ap.block with
    | none => .fail (descFail s w.ctx w.quarter ap.block) .none
    | some d =>
      if !bitAt d 0 || fld d 1 2 = 2 then
        .done none (modCtx w.ctx (fun x => { x with cntDiscard := satAdd 48 x.cntDiscard n }) s)
      else if sweptNow s w.ctx ap.block then .fail .lateGradient .none
      else
        match hbmAddr s w.ctx w.quarter ap.at_ n true with
        | .at_ pa =>
          if w.mask then written (mergeBit · pa w.data) (ueAt s pa 1) s
          else if ap.direction then written (writeCodewords · pa w.data) (mergeUe s pa n) s
          else written (addCodewords · pa w.data) (ueAt s pa n) s
        | .bound => .fail .bound (.access 3 ap.at_ n)
        | .ue pa => .fail .eccUe (.word pa)
        | _ => .fail .xlate .none

/-- A write outside the apertures: bytes, or one mask bit, merged into its codewords (R231, R242). -/
def plainEnd (w : HbmWrite) (s : State) : WriteEnd :=
  if w.mask then written (mergeBit · w.pa w.data) (ueAt s w.pa 1) s
  else written (writeCodewords · w.pa w.data) (mergeUe s w.pa w.data.length) s

/-- What a write's end means for the agent of this module that made it (R220, R338). -/
def endWrite (w : HbmWrite) (r : WriteEnd) (s : State) : State :=
  match r with
  | .undef => undef .accumulate w.ctx s
  | .fail e d => faultWith w.ctx e ((w.site.map unitItem).getD noItem) d s
  | .done none s' => s'
  | .done (some bad) s' => reportUe w.ctx w.site bad s'

/-- The n-th write on its way, or an earlier one that takes the same way (R27), reaches its controller if it is of the
kind that `is` accepts; whole codewords behind it follow. -/
def atController (n : Nat) (is : Option Aperture → Bool) (s : State) : Out :=
  ground (match (s.net.writes[n]?).bind (firstOnWay s) with
  | none => s
  | some w =>
    let ap := apertureOf s w.ctx w.ca
    if !is ap then s
    else
      let s' := endWrite w (match ap with | some x => apertureEnd w x s | none => plainEnd w s) s
      settleWay w s'.net.writes.length (wroteAt w.wid s')) s

/-- ACCUMULATE_WRITE: an aperture write is added into GRAD of version CUR (R338, R339). -/
def execAccumulateWrite (n : Nat) (s : State) : Out :=
  atController n (fun ap => (ap.map fun x => !x.direction).getD false) s

/-- DIRECTION_WRITE: a direction-aperture write replaces GRAD elements of version CUR (R340). -/
def execDirectionWrite (n : Nat) (s : State) : Out :=
  atController n (fun ap => (ap.map fun x => x.direction).getD false) s

/-- HBM_PARTIAL_WRITE: a write outside the apertures is merged into its codewords (R231). -/
def execHbmPartialWrite (n : Nat) (s : State) : Out :=
  atController n (fun ap => ap.isNone) s

/-! ## Scrubbing and the background test -/

/-- The corrections that ordinary accesses to a unit have made since it was last tested or scrubbed: a free number, since
no command tells which words are correctable (log entry 6). -/
def metBy (s : State) : Nat := freeNat s 1 % 2 ^ 32

/-- The n corrections that a test or scrub makes are counted with those that ordinary accesses have made; more than 64
within 1 s raise MEM_CE_RATE (R219, R221, R232). How many of the earlier ones still lie within that second is a free
value: the model has no clock. -/
def countCorr (key store hs tile found : Nat) (s : State) : State :=
  let before := freeNat s 0 % (Tab.get 0 s.maint.recent key + 1)
  let n := found + metBy s
  let s1 := useFree 2 { s with maint := { s.maint with
    corr := Tab.set 0 s.maint.corr key (satAdd 32 (Tab.get 0 s.maint.corr key) n)
    recent := Tab.set 0 s.maint.recent key (before + n) } }
  if before ≤ 64 && 64 < before + n then
    raise 0x0030 0 (toLE 1 store ++ toLE 1 hs ++ toLE 1 tile ++ toLE 1 0 ++ toLE 4 (before + n)) s1
  else s1

/-- A word becomes uncorrectable and is found (R224, R232). -/
def foundUe (pa : Nat) (s : State) : State :=
  let w := pa / 8
  ueFound pa { s with bad := if s.bad.contains w then s.bad else s.bad ++ [w] }

/-- Size of a store of a kind, and its spare rows (Table 06.1, R225). -/
def storeSize (st : Nat) : Nat := [0x1000000, 0x100000, 0x80000, 0x40000].getD st 0
def spareRows (st : Nat) : Nat := [32, 8, 4, 4].getD st 0

/-- Words of a window of a store that are uncorrectable already, and the first row of each group whose word of ZERO bits is
(R224). -/
def windowUes (s : State) (st h t now : Nat) : List Nat :=
  (s.bad.map (8 * ·) ++ s.zeroBad.map (16384 * ·)).filter fun pa =>
    populated pa && !isHbm pa && decide (storeOf pa = (st, h, t)) && decide (pa % storeSize st / 4096 = now)

/-- HBM_SCRUB: what a scrub of a stack finds (R232). -/
def execHbmScrub (stack : Fin 8) (finding : Finding) (s : State) : Out :=
  ground (if !fabricOn s then s else match finding with
  | .clean => countCorr (4 * 4096 + stack.val) 4 stack.val 0 0 s
  | .corrected n => countCorr (4 * 4096 + stack.val) 4 stack.val 0 n s
  | .uncorrectable pa => if isHbm pa && decide (stackOf pa = stack.val) then foundUe pa s else s
  | .rowFailed _ => s) s

/-- Stores of a kind in a Hoop (R43, Table 01.9). -/
def storeCount (st : Nat) : Nat := [128, 192, 128, 64].getD st 0

/-- A repair-list entry (R449). -/
def repairEntry (st h tile row spare : Nat) : BitVec 64 :=
  BitVec.ofNat 64 (st + h * 2 ^ 3 + tile * 2 ^ 6 + row * 2 ^ 14 + spare * 2 ^ 29 + 2 ^ 63)

/-- A failing row is replaced by a spare one (R225, R449). -/
def repairRow (st h tile row : Nat) (s : State) : State :=
  let key := st * 4096 + h * 256 + tile
  let used := Tab.get 0 s.maint.spares key
  let pay (spare : Nat) : List Byte := toLE 1 st ++ toLE 1 h ++ toLE 1 tile ++ toLE 1 0 ++ toLE 4 row ++ toLE 1 spare
  if spareRows st ≤ used then raise 0x0034 0 (pay 0xFF) s
  else
    let s1 := { s with maint := { s.maint with spares := Tab.set 0 s.maint.spares key (used + 1) } }
    if 512 ≤ s.maint.repairs.length then raise 0x0033 0 (pay used) s1
    else
      let e := repairEntry st h tile row used
      let s2 := { s1 with maint := { s1.maint with repairs := s1.maint.repairs ++ [e] } }
      let s3 := if s.dev.cfgDefaulted then s2
        else { s2 with flash := { s2.flash with block := { s2.flash.block with repairs := s2.flash.block.repairs ++ [e] } } }
      raise 0x0032 0 (pay used) s3

/-- BIST_WINDOW: the next 4 KiB window of a store is tested and written back (R222 to R227); what it finds lies in that
window, and words that were uncorrectable before are found again. The test pauses while the Hoop's clock is stopped. -/
def execBistWindow (store : Fin 4) (hoop : Fin 8) (tile : BitVec 8) (finding : Finding) (s : State) : Out :=
  ctl (let st := store.val
  let h := hoop.val
  let t := tile.toNat
  let key := st * 4096 + h * 256 + t
  if !fabricOn s || (hoopAt s h).power ≠ .on || storeCount st ≤ t then s
  else
    let now := Tab.get 0 s.maint.window key
    let s1 := (windowUes s st h t now).foldl (fun s pa => ueFound pa s)
      { s with maint := { s.maint with window := Tab.set 0 s.maint.window key ((now + 1) % (storeSize st / 4096)) } }
    match finding with
    | .clean => countCorr key st h t 0 s1
    | .corrected n => countCorr key st h t n s1
    | .uncorrectable pa =>
      if populated pa && !isHbm pa && decide (storeOf pa = (st, h, t)) && decide (pa % storeSize st / 4096 = now) &&
          !s.bad.contains (pa / 8) then
        foundUe pa s1
      else s1
    | .rowFailed row => if row / 4 = now then repairRow st h t row s1 else s1) s

end Sys2Proof.Machine
end

