-- ==== Sys2Proof/Machine/Routing.lean ====
section
/-! DEFINITION. Routing between modules: coordinates, the next direction, the lane class and port of a message, and the
messages that wait for a port, with the virtual channels and credits of the links (R460, R461, R463 to R474). -/

namespace Sys2Proof.Machine

/-- Fields of LINK_CFG (Table 13.5). -/
def lkEn (x : Link) : Bool := x.cfg.getLsbD 0
def lkFec (x : Link) : Nat := fld x.cfg.toNat 1 1
def lkRole (x : Link) : Nat := fld x.cfg.toNat 2 3
def lkRing (x : Link) : Nat := fld x.cfg.toNat 5 7
def lkAllow4 (x : Link) : Bool := x.cfg.getLsbD 13

/-- Whether a DL port is of lane class B (Table 13.1). -/
def classB (p : Nat) : Bool := [3, 4, 5, 9, 10, 11].contains p

/-- The quarter of a port (Table 13.1). -/
def portQuarter (p : Nat) : Nat := if p < 12 then p / 3 else if p = 12 then 0 else 3

/-- The enabled DL ports. -/
def dlPorts (s : State) : List Nat := (List.range 12).filter fun p => lkEn (linkAt s p)

/-- DX, DY or DZ for dimension 0, 1 or 2: the RING of its enabled ports, 1 where there is none (R463). -/
def ringLen (s : State) (dim : Nat) : Nat :=
  match (dlPorts s).find? fun p => decide ((lkRole (linkAt s p) + 1) / 2 = dim + 1) with
  | some p => max 1 (lkRing (linkAt s p))
  | none => 1

/-- The coordinates of a MODULE_ID (R463). -/
def moduleCoords (s : State) (m : Nat) : List Nat :=
  let dx := ringLen s 0
  let dy := ringLen s 1
  [m % dx, m / dx % dy, m / (dx * dy)]

def ownId (s : State) : Nat := s.dev.moduleId.toNat

/-- Whether the enabled ports of a port's dimension declare its RING (R465). -/
def ringsAgree (s : State) (p : Nat) : Bool :=
  (dlPorts s).all fun q => decide ((lkRole (linkAt s q) + 1) / 2 ≠ (lkRole (linkAt s p) + 1) / 2) ||
    decide (lkRing (linkAt s q) = lkRing (linkAt s p))

/-- Vector 2 of each HA-2 whose HL port has changed state since s0 (R483). -/
def tellPorts (s0 s : State) : State :=
  [12, 13].foldl (fun s p => if (linkAt s p).st = (linkAt s0 p).st then s else signal (p - 12) 2 s) s

/-- The neighbour that a ROLE implies (R470). -/
def neighbourOf (s : State) (role : Nat) : Option Nat :=
  if role = 0 || 6 < role then none
  else
    let dim := (role - 1) / 2
    let d := ringLen s dim
    let step := if role % 2 = 1 then 1 else d - 1
    let xs := updAt (fun x => (x + step) % d) dim (moduleCoords s (ownId s))
    some (xs.getD 0 0 + ringLen s 0 * (xs.getD 1 0 + ringLen s 1 * xs.getD 2 0))

/-- The ROLE of the direction that a message to a module takes first (R466): dimension order, the shorter way around,
+ on a tie; none where no coordinate differs. -/
def firstRole (s : State) (dest : Nat) : Option Nat :=
  let a := moduleCoords s (ownId s)
  let b := moduleCoords s dest
  (List.range 3).findSome? fun dim =>
    let d := ringLen s dim
    let diff := (b.getD dim 0 + d - a.getD dim 0 % d) % d
    if diff = 0 then none else some (if 2 * diff ≤ d then 2 * dim + 1 else 2 * dim + 2)

/-- The enabled ports of a direction. -/
def rolePorts (s : State) (role : Nat) : List Nat := (dlPorts s).filter fun p => lkRole (linkAt s p) = role

/-- The lane class that a message takes at its source: that of the first direction's port in its quarter, else A for an
even destination and B for an odd one (R467). -/
def laneClass (s : State) (quarter dest : Nat) : Bool :=
  match (firstRole s dest).bind fun role => (rolePorts s role).find? fun p => portQuarter p = quarter with
  | some p => classB p
  | none => decide (dest % 2 = 1)

/-- The lane class of a message: one that crosses this module keeps its own. -/
def classOf (s : State) (m : OutMsg) : Bool :=
  match m.msg with
  | .transit _ _ _ _ cls _ => cls
  | _ => laneClass s m.quarter m.dest

/-- The port of a lane class for the next direction to a module when every port is UP (R467). -/
def classPort (s : State) (cls : Bool) (dest : Nat) : Option Nat :=
  (firstRole s dest).bind fun role =>
    ((rolePorts s role).find? fun p => classB p == cls).orElse fun _ => (rolePorts s role).head?

/-- The port that a message from a quarter takes when every port is UP (R467). -/
def preferredPort (s : State) (quarter dest : Nat) : Option Nat := classPort s (laneClass s quarter dest) dest

/-- The port that a message takes when every port is UP: a beacon's own, else that of its lane class (R302, R467). -/
def ownPort (s : State) (m : OutMsg) : Option Nat := m.via.orElse fun _ => classPort s (classOf s m) m.dest

/-- The direction that a message takes. -/
def roleOf (s : State) (m : OutMsg) : Option Nat :=
  (m.via.map fun p => lkRole (linkAt s p)).orElse fun _ => firstRole s m.dest

/-- The port that a message takes now: another UP port of the direction where its own is not UP (R472). -/
def portNow (s : State) (m : OutMsg) : Option Nat :=
  match ownPort s m with
  | none => none
  | some p =>
    if (linkAt s p).st = .up then some p
    else (rolePorts s (lkRole (linkAt s p))).find? fun q => (linkAt s q).st = .up

/-! ## Virtual channels, sub-channels and credits (Table 01.4, R460, R461, R468) -/

/-- The virtual channel of a message (Table 01.4): 0 CTRL, 1 REQ, 2 RSP, 3 BULK. The spec names none for digests and for a
replica's request: DESIGN CHOICE, BULK and REQ (log entry 36). -/
def vcOf : PeerMsg → Nat
  | .knotReq .. | .knotReply .. | .knotAck .. | .knotFault .. | .chanTail .. | .chanHead .. | .lost .. | .beacon .. => 0
  | .ringSlots _ _ slots => if slots.length ≤ 1 then 1 else 3
  | .resyncAsk .. => 1
  | .ringAck _ | .copyAck .. | .recordAck .. => 2
  | .copyUnit .. | .deltaRecord .. | .digests .. => 3
  | .transit _ _ _ vc _ _ => vc.val

/-- Bytes of a message behind its 16-B header (R457); the contents of a CTRL message fit one flit (Table 01.4). -/
def bodyBytes : PeerMsg → Nat
  | .ringSlots _ _ slots => 64 * slots.length
  | .copyUnit _ _ bytes _ _ | .deltaRecord _ bytes | .transit _ _ _ _ _ bytes => bytes.length
  | .digests _ _ _ _ list => 20 * list.length
  | _ => 0

/-- Flits whose credits a message takes: those that it fills by itself. R460 counts credits in flits and R457 packs messages
of several channels into one: DESIGN CHOICE (log entry 36). -/
def flitsOf (m : PeerMsg) : Nat := ceilDiv (16 + bodyBytes m) 232

/-- Whether the hop of a direction from this module is its dimension's dateline hop (R468). -/
def dateline (s : State) (role : Nat) : Bool :=
  let dim := (role - 1) / 2
  let x := (moduleCoords s (ownId s)).getD dim 0
  if role % 2 = 1 then decide (x + 1 = ringLen s dim) else decide (x = 0)

/-- The sub-channel of the hop that a message takes from this module (R468): `came` is the ROLE and sub-channel by which
one in transit came in. -/
def subOf (s : State) (dest : Nat) (came : Option (Nat × Nat)) : Nat :=
  match firstRole s dest with
  | none => 0
  | some role =>
    if dateline s role then 1
    else
      match came with
      | some (r, sub) => if (r - 1) / 2 = (role - 1) / 2 then sub else 0
      | none => 0

/-- A part of the receive buffer: a sub-channel of a virtual channel. -/
def laneKey (vc sub : Nat) : Nat := 2 * vc + sub

/-- Flits of the pool that the channels in use have taken: what each but CTRL holds beyond its 8 reserved flits (R460). -/
def poolUsed (used : Tab Nat) : Nat := ((List.range 8).map fun k => if k < 2 then 0 else Tab.get 0 used k - 8).sum

/-- Whether the credits that the sender holds cover n more flits of a channel (R460): 16 reserved ones of a CTRL
sub-channel; 8 of any other, and a pool of 944. -/
def creditsCover (x : Link) (vc sub n : Nat) : Bool :=
  let k := laneKey vc sub
  let used := Tab.set 0 x.used k (Tab.get 0 x.used k + n)
  if vc = 0 then decide (Tab.get 0 used k ≤ 16) else decide (poolUsed used ≤ 944)

/-! ## Messages that wait -/

/-- Flits that a message of n bytes begins, behind `fill` bytes of the flit that is being filled (R457). -/
def newFlits (fill n : Nat) : Nat := ceilDiv (fill + n) 232 - (if fill = 0 then 0 else 1)

/-- The flits of a port after a message has been packed behind those in its payloads (R457, Table 13.3): the first flit that
the message begins carries the credits that the port owes. -/
def packed (x : Link) (m : OutMsg) : List Flit :=
  let new := (List.range (newFlits x.fill (16 + bodyBytes m.msg))).map fun i =>
    (⟨x.nextSend + BitVec.ofNat 16 i, x.nextRecv - 1, if x.fill = 0 && i = 0 then some 0 else none, [],
      if i = 0 then x.owed else []⟩ : Flit)
  let old := if x.fill = 0 then x.retry
    else updAt (fun (f : Flit) => { f with first := f.first.orElse fun _ => some x.fill }) (x.retry.length - 1) x.retry
  let all := old ++ new
  updAt (fun (f : Flit) => { f with msgs := f.msgs ++ [m] }) (all.length - 1) all

/-- A message enters its flits, which stay in the retry buffer until they are acknowledged (R458). -/
def intoFlit (p : Nat) (m : OutMsg) (s : State) : State :=
  let k := laneKey (vcOf m.msg) m.sub
  modLink p (fun x =>
    let n := newFlits x.fill (16 + bodyBytes m.msg)
    { x with
      retry := packed x m, fill := (x.fill + 16 + bodyBytes m.msg) % 232
      nextSend := x.nextSend + BitVec.ofNat 16 n, sent := satAdd 64 x.sent n
      used := Tab.set 0 x.used k (Tab.get 0 x.used k + flitsOf m.msg), owed := if n = 0 then x.owed else [] }) s

/-- No message waits: the flits that are being filled go out, with idle filler behind their messages (Table 13.3). -/
def sendFlits (s : State) : State :=
  (List.range 14).foldl (fun s p => if (linkAt s p).fill = 0 then s else modLink p (fun x => { x with fill := 0 }) s) s

/-- Whether a waiting message may enter its port: no earlier one of its direction and channel waits, none that goes again
waits ahead of it (R469, R472), and the retry buffer has room. -/
def mayEnter (s : State) (before : List OutMsg) (m : OutMsg) : Option Nat :=
  (portNow s m).filter fun p =>
    !(before.any fun x => decide (roleOf s x = roleOf s m) &&
      (x.again || (decide (vcOf x.msg = vcOf m.msg) && decide (x.sub = m.sub)))) &&
    decide ((linkAt s p).retry.length + flitsOf m.msg ≤ 1024)

/-- The waiting messages that may enter a flit now, by position, with their ports; those whose credits do not cover them
stay (R460). -/
def enterable (s : State) : List (Nat × Nat × OutMsg) :=
  s.net.waiting.zipIdx.filterMap fun (m, i) =>
    (mayEnter s (s.net.waiting.take i) m).bind fun p =>
      if creditsCover (linkAt s p) (vcOf m.msg) m.sub (flitsOf m.msg) then some (i, p, m) else none

/-- The turns of a weighted round robin RSP : BULK : REQ = 4 : 3 : 1 (R461). -/
def fullTurns : Tab Nat := [(1, 1), (2, 4), (3, 3)]

/-- The next message to enter a flit: CTRL first, else one of the first port that has any, by the turns of its weighted
round robin, which begin anew when no waiting channel has one left (R461). -/
def nextOut (s : State) : Option (Nat × Nat × OutMsg × Tab Nat) :=
  let es := enterable s
  match es.find? fun e => vcOf e.2.2.msg = 0 with
  | some (i, p, m) => some (i, p, m, (linkAt s p).turns)
  | none =>
    es.head?.bind fun e0 =>
      let p := e0.2.1
      let mine := es.filter fun e => e.2.1 = p
      let pick (ts : Tab Nat) : Option (Nat × Nat × OutMsg × Tab Nat) :=
        [2, 3, 1].findSome? fun vc =>
          if Tab.get 0 ts vc = 0 then none
          else (mine.find? fun e => vcOf e.2.2.msg = vc).map fun e => (e.1, p, e.2.2, Tab.set 0 ts vc (Tab.get 0 ts vc - 1))
      (pick (linkAt s p).turns).orElse fun _ => pick fullTurns

/-- Messages enter flits while any may; `fuel` bounds them. -/
def pumpFor : Nat → State → State
  | 0, s => s
  | fuel + 1, s =>
    match nextOut s with
    | none => s
    | some (i, p, m, ts) =>
      pumpFor fuel (intoFlit p m (modLink p (fun x => { x with turns := ts })
        (modNet (fun n => { n with waiting := n.waiting.eraseIdx i }) s)))

/-- A message that only credits hold back: the wait of its virtual channel counts the NCLK until the port looks again, a free
number, since the model has no clock (Table 13.7). -/
def countWaits (s : State) : State :=
  let held := s.net.waiting.zipIdx.filterMap fun (m, i) =>
    (mayEnter s (s.net.waiting.take i) m).map fun p => (p, vcOf m.msg)
  held.eraseDups.foldl (fun s (p, vc) =>
    useFree 1 (modLink p (fun x => { x with waits := Tab.set 0 x.waits vc (satAdd 64 (Tab.get 0 x.waits vc) (freeNat s 0)) }) s)) s

/-- Waiting messages enter flits; what stays behind for want of credits is counted. -/
def pump (s : State) : State := countWaits (sendFlits (pumpFor s.net.waiting.length s))

/-- A message for another module waits for its port (R472); a port takes no new message of a stopped context (R474). -/
def enqueue (m : OutMsg) (s : State) : State :=
  if m.ctx ≠ 0 && ctxSt s m.ctx = .faulted then
    match ownPort s m with
    | some p => modLink p (fun x => { x with disc474 := satAdd 32 x.disc474 1 }) s
    | none => s
  else pump (modNet (fun n => { n with waiting := n.waiting ++ [m] }) s)

/-- A message of a context of this module for another module. -/
def sendOut (ctx quarter dest : Nat) (msg : PeerMsg) (s : State) : State :=
  enqueue ⟨ctx, quarter, dest, msg, subOf s dest none, false, none⟩ s

/-- A message to the module at the other end of a port. -/
def sendVia (p : Nat) (msg : PeerMsg) (s : State) : State :=
  enqueue ⟨0, portQuarter p, (linkAt s p).peerMod, msg, subOf s (linkAt s p).peerMod none, false, some p⟩ s

/-- The queued messages of a stopped context that have not yet entered a flit are discarded at the ports; one that goes again
after a failed direction has been in a flit, and is delivered (R474). -/
def dropQueued (c : Nat) (s : State) : State :=
  let mine (m : OutMsg) : Bool := decide (m.ctx = c) && !m.again
  let s1 := modNet (fun n => { n with waiting := n.waiting.filter fun m => !mine m }) s
  pump ((s.net.waiting.filter mine).foldl (fun s m =>
    match ownPort s m with
    | some p => modLink p (fun x => { x with disc474 := satAdd 32 x.disc474 1 }) s
    | none => s) s1)

end Sys2Proof.Machine
end

