-- ==== Sys2Proof/Machine/Knots.lean ====
section
/-! DEFINITION. Knots: the words, their operations, waiters and bindings (R265 to R280). -/

namespace Sys2Proof.Machine

/-! ## Knot words (Table 08.1) -/

def knFull (w : Nat) : Bool := bitAt w 63
def knTarget (w : Nat) : Nat := fld w 40 16
def knCount (w : Nat) : Nat := fld w 24 16
def knValue (w : Nat) : Nat := fld w 0 24

/-- FULL and COUNT set to 0 (R269). -/
def knEmpty (w : Nat) : Nat := setFld (setFld w 63 1 0) 24 16 0

/-- An operation on a knot word (Table 08.5): the new word and the fault it raises; TAKE and PEEK of an empty knot
change nothing. Table 08.5 has no row for an ARRIVE that would take COUNT past TARGET, which a word written by KNOT_INIT
allows: DESIGN CHOICE, the knot becomes full with COUNT = TARGET (log entry 38). -/
def knotOp (op value w : Nat) : Nat × Option FaultCode :=
  match op with
  | 0 => if knFull w then (setFld w 62 1 1, some .knotOvf) else (setFld (setFld w 0 24 value) 63 1 1, none)
  | 1 => (if knFull w then knEmpty w else w, none)
  | 2 => (w, none)
  | 3 =>
    if knTarget w = 0 || knFull w then (setFld w 62 1 1, some .knotOvf)
    else if knCount w + 1 < knTarget w then (setFld w 24 16 (knCount w + 1), none)
    else (setFld (setFld w 24 16 (knTarget w)) 63 1 1, none)
  | _ => if knFull w then (knEmpty w, none) else (setFld w 61 1 1, some .knotUdf)

/-- Where a knot lies as a port: its A tile, or the controller of its stack (R271). -/
def knotPort (pa : Nat) : Nat := if isHbm pa then stackOf pa else 8 + pa / 0x100000

/-- Waiters that a knot port holds (R271). -/
def portWaiters (s : State) (pa : Nat) : Nat :=
  (s.net.waiters.filter fun p => knotPort p.1 = knotPort pa).foldl (fun n p => n + p.2.length) 0

def waitersAt (s : State) (pa : Nat) : List Waiter := Tab.get [] s.net.waiters pa
def setWaiters (pa : Nat) (ws : List Waiter) (s : State) : State :=
  modNet (fun n => { n with waiters := Tab.set [] n.waiters pa ws }) s

/-- The waiters that a full knot answers, those that keep waiting, and whether a TAKE was among the answered (R270). -/
def splitWaiters : List Waiter → List Waiter × List Waiter × Bool
  | [] => ([], [], false)
  | w :: ws =>
    if w.op = 1 then ([w], ws, true)
    else
      let (a, r, t) := splitWaiters ws
      (w :: a, r, t)

/-! ## Bindings (Table 08.6) -/

def kbOp (r : Nat) : Nat := fld r 5 3
def bindingAt (t : Tile) (b : Nat) : Binding := Tab.get .ready t.kb b
def setBinding (k b : Nat) (x : Binding) (s : State) : State :=
  modTile k (fun t => { t with kb := Tab.set .ready t.kb b x }) s

/-- A tile number as a site. -/
def siteOf (k : Nat) : Site := ⟨Fin.ofNat 8 (noHoop k), Fin.ofNat 32 (noCol k), Fin.ofNat 16 (noRow k)⟩

/-- The quarter of a knot. -/
def knotQuarter (pa : Nat) : Nat := if isHbm pa then hbmQuarter pa else quarterOf ((storeOf pa).2.1)

/-- A reply or RETRY on its way to a requester. -/
def replyTo (fromMod site binding ctx value : Nat) (retry : Bool) (pa : Nat) (s : State) : State :=
  let vc := Tab.get [] s.net.clocks (2 * pa)
  if fromMod = ownId s then
    modNet (fun n => { n with reps := n.reps ++ [⟨knotPort pa, site, binding, BitVec.ofNat 24 value, retry, vc⟩] }) s
  else sendOut ctx (knotQuarter pa) fromMod (.knotReply (siteOf site) (Fin.ofNat 16 binding) (BitVec.ofNat 24 value) retry) s

/-- The waiters of a knot that has become full are answered (R270). -/
def answerWaiters (pa : Nat) (s : State) : State :=
  let w := peekNum s pa 8
  let (ans, rest, taken) := splitWaiters (waitersAt s pa)
  let s1 := ans.foldl (fun s x => replyTo x.fromMod x.site x.binding x.ctx (knValue w) false pa s) s
  setWaiters pa rest (if taken then poke s1 pa (toLE 8 (knEmpty w)) else s1)

/-- A fault of a site's request (its bindings are 0 to 7; its end-of-run checks, as 8 to 11, and the Darning engine of its
Hoop, as 12, ask remote knots only): that of an end-of-run check is held for the check with the knot word that it found,
any other is raised in the context, and the binding's request has ended (R277, R280, R351). -/
def siteFault (c k b : Nat) (code : FaultCode) (d : FaultDetail) (word : Nat) (s : State) : State :=
  if 8 ≤ b && b < 12 then
    modTile k (fun t => { t with kchk := Tab.set 0 t.kchk (b - 8) (256 + code.num + 65536 * word) }) s
  else
    let s1 := faultWith c code (if b < 8 then tileItem s k else hoopItem (noHoop k)) d s
    if b < 8 then setBinding k b .ready s1 else s1

/-- A fault of a knot request, raised in the requesting context on the requesting module (R277), with the knot word that
its operation found. -/
def knotFaultTo (r : KnotReq) (code : FaultCode) (d : FaultDetail) (word : Nat) (s : State) : State :=
  match r.who with
  | some (k, b) =>
    if r.fromMod = ownId s then siteFault r.ctx k b code d word s
    else
      sendOut r.ctx (knotQuarter r.pa) r.fromMod
        (.knotFault (Fin.ofNat 16 r.ctx) (siteOf k) (Fin.ofNat 16 b) (BitVec.ofNat 8 code.num) (BitVec.ofNat 64 word)) s
  | none => if r.fromMod ≠ ownId s || r.ctx = 0 then s else faultWith r.ctx code noItem d s

/-- A site's FILL, ARRIVE or DRAIN has taken effect (R273); an end-of-run check has passed. -/
def siteDone (k b : Nat) (s : State) : State :=
  if b < 8 then setBinding k b .ready s
  else if b < 12 then modTile k (fun t => { t with kchk := Tab.set 0 t.kchk (b - 8) 2 }) s
  else s

/-- A request of FILL, ARRIVE or DRAIN has taken effect (R273); another module is told so. -/
def knotDone (r : KnotReq) (s : State) : State :=
  match r.who with
  | some (k, b) =>
    if r.fromMod = ownId s then siteDone k b s
    else sendOut r.ctx (knotQuarter r.pa) r.fromMod (.knotAck (siteOf k) (Fin.ofNat 16 b)) s
  | none => s

/-- What a requester knew joins what the knot's writers had observed (R519). -/
def knotClock (r : KnotReq) (s : State) : State :=
  if !s.dev.debug then s
  else modNet (fun n => { n with clocks := Tab.set [] n.clocks (2 * r.pa) (joinClock (Tab.get [] n.clocks (2 * r.pa)) r.vc) }) s

/-- A knot operation takes effect at its port (R269 to R271). -/
def knotEffect (r : KnotReq) (s : State) : State :=
  if (ueAt s r.pa 8).isSome then knotFaultTo r .eccUe (.word r.pa) 0 s
  else
    let w := peekNum s r.pa 8
    let (w', f) := knotOp r.op r.value.toNat w
    if r.op = 1 || r.op = 2 then
      match r.who with
      | none => s
      | some (k, b) =>
        if knFull w then replyTo r.fromMod k b r.ctx (knValue w) false r.pa (poke s r.pa (toLE 8 w'))
        else if (if isHbm r.pa then 512 else 64) ≤ portWaiters s r.pa then replyTo r.fromMod k b r.ctx 0 true r.pa s
        else setWaiters r.pa (waitersAt s r.pa ++ [⟨r.op, r.fromMod, k, b, r.ctx⟩]) s
    else
      let s1 := knotClock r (poke s r.pa (toLE 8 w'))
      match f with
      | some e => knotFaultTo r e .none w s1
      | none => knotDone r (if !knFull w && knFull w' then answerWaiters r.pa s1 else s1)

/-- The endpoint from which a request comes: two requests of one endpoint to one port keep their order (R27). The B tiles
of a Hoop use its control-VC endpoint; a binding of an A tile goes to its own tile's port (R275). -/
def reqSource (r : KnotReq) : Nat × Option Nat :=
  (r.fromMod, r.who.map fun p => if kindOf p.1 = .A then 8 + 8 * p.1 + p.2 else noHoop p.1)

/-- The n-th request on its way reaches its knot, if it has this operation and no earlier request of its endpoint to
the port is still on its way. A request to a Hoop in Rest or Sleep starts its exit and waits (R506). -/
def atKnot (op n : Nat) (s : State) : Out :=
  ground (match s.net.reqs[n]? with
  | none => s
  | some r =>
    if r.op ≠ op || (s.net.reqs.take n).any (fun x => decide (reqSource x = reqSource r) && decide (knotPort x.pa = knotPort r.pa)) then
      s
    else
      match asleepAt s r.pa with
      | some h => startExit h s
      | none => knotEffect r (modNet (fun m => { m with reqs := m.reqs.eraseIdx n }) s)) s

/-- KNOT_FILL (R269). -/
def execKnotFill (n : Nat) (s : State) : Out := atKnot 0 n s

/-- KNOT_TAKE (R270). -/
def execKnotTake (n : Nat) (s : State) : Out := atKnot 1 n s

/-- KNOT_PEEK (R270). -/
def execKnotPeek (n : Nat) (s : State) : Out := atKnot 2 n s

/-- KNOT_ARRIVE (R269). -/
def execKnotArrive (n : Nat) (s : State) : Out := atKnot 3 n s

/-- KNOT_DRAIN (R269). -/
def execKnotDrain (n : Nat) (s : State) : Out := atKnot 4 n s

/-! ## Requests (R272 to R277) -/

/-- The fault of a check that failed (R277). -/
def HbmAt.code : HbmAt → Option FaultCode
  | .at_ _ => none
  | .bound => some .bound
  | .notMapped => some .xlate
  | .protect => some .xlate
  | .ue _ => some .eccUe

/-- What the record of a knot's failed check names. -/
def HbmAt.detail (e : HbmAt) (cls off len : Nat) : FaultDetail :=
  match e with
  | .bound => .access cls off len
  | .ue pa => .word pa
  | _ => .none

/-- A request for a knot of another module (R275). -/
def remoteKnot (c q op value kaddr : Nat) (vc : Site × Fin 16) (s : State) : State :=
  sendOut c q (kaddrOf kaddr).mod
    (.knotReq (BitVec.ofNat 3 op) (BitVec.ofNat 24 value) (BitVec.ofNat 64 kaddr) (Fin.ofNat 16 c) s.dev.moduleId vc.1 vc.2) s

/-- A controller's or engine's own knot operation on an address of this module, for a context: relocated and checked
in the quarter's registers, then on its way (R266, R277). A remote one goes out on CTRL, with no one to answer. -/
def serviceKnot (c q op value : Nat) (kaddr : Nat) (s : State) : State :=
  let ka := kaddrOf kaddr
  if ka.remote && ka.mod ≠ ownId s then remoteKnot c q op value kaddr (⟨0, 0, 0⟩, 15) s
  else
    match knotAt s c q ka (op ≠ 2) with
    | .at_ pa => pushReq ⟨op, BitVec.ofNat 24 value, BitVec.ofNat 64 kaddr, c, pa, ownId s, none, []⟩ s
    | e => match e.code with
      | some f => faultWith c f noItem (e.detail 4 ka.off 8) s
      | none => s

/-- Queues and outputs of a tile that other agents use beside a binding (R274). -/
def queueShared (t : Tile) (kd : Kind) (b q : Nat) : Bool :=
  stepsUseQ t q ||
  ((List.range 8).any fun i => decide (i ≠ b) && bitAt (kbReg t i) 0 && decide (fld (kbReg t i) 1 4 = q)) ||
  (decide (kd = .A) && (winHasQ t q || engineHasQ t q)) ||
  (decide (kd = .B) && (List.range 4).any fun p => bitAt (cpReg t p) 0 && !bitAt (cpReg t p) 1 && decide (fld (cpReg t p) 2 4 = q)) ||
  (decide (kd = .B) && t.b.streams.any fun p =>
    p.2.pending && sdWrite (sdAt t p.1) &&
      (decide (sdPort (sdAt t p.1) = q) || (sdMen (sdAt t p.1) && decide (4 + sdPort (sdAt t p.1) = q))))

/-- The cases of R268, R272 and R274 that a binding's fields decide. -/
def bindingUndef (s : State) (k b : Nat) : Option UndefCase :=
  let t := tileAt s k
  let r := kbReg t b
  let ka := kaddrOf (fld r 64 64)
  let q := fld r 1 4
  if 4 < kbOp r || ka.bad then some .knotBinding
  else if kindOf k = .A && (ka.hbm || (ka.remote && ka.mod ≠ ownId s) || tileOfIndex .A ka.hoop ka.tile ≠ k) then
    some .knotBinding
  else if !qEn t q || !qCtrl t q then some .knotBinding
  else if queueShared t (kindOf k) b q ||
      ((kbOp r = 1 || kbOp r = 2) && (listedSteps t).any (fun i => bitAt (stepAt t i).outc (fld r 8 2))) then
    some .sharedQueue
  else none

/-- The operation of a binding leaves it: checked where it enters the control network, or on its way to another module
(R275, R277). -/
def bindingSend (k b c value : Nat) (vc : Tab Nat) (s : State) : State :=
  let r := kbReg (tileAt s k) b
  let op := kbOp r
  let ka := kaddrOf (fld r 64 64)
  let q := quarterOf (noHoop k)
  if ka.remote && ka.mod ≠ ownId s then
    setBinding k b .sent (remoteKnot c q op value (fld r 64 64) (siteOf k, Fin.ofNat 16 b) s)
  else
    match knotAt s c q ka (op ≠ 2) with
    | .at_ pa =>
      setBinding k b .sent (pushReq ⟨op, BitVec.ofNat 24 value, BitVec.ofNat 64 (fld r 64 64), c, pa, ownId s, some (k, b), vc⟩ s)
    | e => match e.code with
      | some f => siteFault c k b f (e.detail 4 ka.off 8) 0 s
      | none => s

/-- KNOT_REQUEST: a binding takes a token from KQ and sends its operation (R273). -/
def execKnotRequest (site : Site) (binding : Fin 8) (s : State) : Out :=
  let k := siteNo site
  let b := binding.val
  let t := tileAt s k
  let r := kbReg t b
  ground (match runOf s k with
  | none => s
  | some run =>
    if (kindOf k ≠ .A && kindOf k ≠ .B) || !bitAt r 0 then s
    else
      match bindingUndef s k b with
      | some u => undef u run.ctx s
      | none =>
        if bindingAt t b ≠ .ready then s
        else
          match headOf t (fld r 1 4) with
          | .empty => s
          | .parity => faultAt run.ctx .queueParity (tileItem s k) s
          | .tok a =>
            let v := if bitAt r 10 then fld r 11 24 else a.val.toNat % 2 ^ 24
            bindingSend k b run.ctx v a.vc (windowPop k (fld r 1 4) s)) s

/-- KNOT_RETRY: the binding sends the same request again (R271). -/
def execKnotRetry (site : Site) (binding : Fin 8) (s : State) : Out :=
  let k := siteNo site
  ground (match runOf s k with
  | none => s
  | some run =>
    if bindingAt (tileAt s k) binding.val ≠ .retry then s
    else bindingSend k binding.val run.ctx 0 [] s) s

/-- Whether a reply stands at its binding and waits for a control credit (R273). -/
def replyHeld (s : State) (r : KnotRep) : Bool :=
  let t := tileAt s r.site
  decide (r.binding < 8) && decide (bindingAt t r.binding = .sent) && !r.retry && !hasCredit t (fld (kbReg t r.binding) 8 2) true

/-- Whether an earlier reply or RETRY of the same port to the same Hoop is still on its way (R276). -/
def replyBehind (s : State) (n : Nat) (r : KnotRep) : Bool :=
  (s.net.reps.take n).any fun x => decide (x.port = r.port) && decide (noHoop x.site = noHoop r.site) && !replyHeld s x

/-- The number by which an engine tells the sweeps of a context apart. -/
def sweepMark (s : State) (c : Nat) : Nat := (ctxAt s c).sweeps % 32

/-- The site that stands for a Hoop's Darning engine as it asks for a context: the row is the context and the column its
sweep. -/
def engineSite (s : State) (h c : Nat) : Nat := tileNo h (sweepMark s c) c

/-- The barrier's reply has reached the Darning engine of a Hoop: the knot was full; after a RETRY the engine asks again
(R271, R351). A reply to a PEEK of an earlier sweep is ignored. -/
def engineReply (k : Nat) (retry : Bool) (s : State) : State :=
  if noCol k ≠ sweepMark s (noRow k) then s
  else modCtx (noRow k) (fun x => { x with sweep := { x.sweep with
    started := Tab.set 0 x.sweep.started (noHoop k) (if retry then 0 else 1) } }) s

/-- KNOT_REPLY: a reply reaches its binding and leaves on ROUT, for which it needs a control credit; a RETRY ends the
attempt (R271, R273). Replies of one port to one Hoop arrive in the order issued (R276). -/
def execKnotReply (n : Nat) (s : State) : Out :=
  ground (match s.net.reps[n]? with
  | none => s
  | some r =>
    let k := r.site
    let t := tileAt s k
    let s1 := modNet (fun m => { m with reps := m.reps.eraseIdx n }) s
    let o := fld (kbReg t r.binding) 8 2
    if replyBehind s n r then s
    else if r.binding = engineWho then engineReply k r.retry s1
    else if bindingAt t r.binding ≠ .sent then s1
    else if r.retry then setBinding k r.binding .retry s1
    else if !hasCredit t o true then s
    else
      (setBinding k r.binding .ready
        (sendTokVc k o true (BitVec.ofNat 512 (0x80000000 + r.value.toNat)) (if s.dev.debug then r.vc else []) s1))) s

/-- The DRAIN of an end-of-run check (R280): the check code of Table 08.17, the code to fault with, and the word found;
none where the knot was full. -/
def knotCheck (c k kaddr : Nat) (s : State) : Option (Nat × FaultCode × Nat) × State :=
  match knotAt s c (quarterOf (noHoop k)) (kaddrOf kaddr) true with
  | .at_ pa =>
    if (ueAt s pa 8).isSome then (some (8, .eccUe, 0), s)
    else
      let w := peekNum s pa 8
      let (w', f) := knotOp 4 0 w
      (f.map fun e => (8, e, w), poke s pa (toLE 8 w'))
  | .bound => (some (9, .bound, 0), s)
  | .ue _ => (some (10, .eccUe, 0), s)
  | _ => (some (10, .xlate, 0), s)

end Sys2Proof.Machine
end

