-- ==== Sys2Proof/Machine/Channels.lean ====
section
/-! DEFINITION. Channels: rings, ports, messages, the loader service, and what it queues (R282 to R291, R399). -/

namespace Sys2Proof.Machine

/-! ## Endpoints and rings -/

/-- An endpoint value (R426): the port of a B tile. -/
def endpointOf (k p : Nat) : Nat := noHoop k + 8 * bTileName k + 256 * p

/-- Whether an endpoint value names the Selvedge controller. -/
def isSelvedge (e : BitVec 32) : Bool := e.getLsbD 10

def ringN (x : Chan) : Nat := 2 ^ x.ringLog2

/-- Whether this module holds the sender half (bit 0), the receiver half (bit 1). -/
def hasSender (x : Chan) : Bool := bitAt x.half 0
def hasReceiver (x : Chan) : Bool := bitAt x.half 1

/-- The context-relative place of slot i of the ring (R285). -/
def slotOff (x : Chan) (i : Nat) : Nat := x.ringBase + 64 * (i % ringN x)

/-- The tile of a ring in A-tile memory. -/
def ringTileNo (x : Chan) : Nat := tileOfIndex .A x.ringHoop x.ringTile

/-- Where a slot of an A-tile ring lies (R215, R267, R285). -/
def tileSlot (s : State) (x : Chan) (i : Nat) : Except Stop Nat :=
  match asAddr s x.ctx (ringTileNo x) (slotOff x i) 64 with
  | none => .error (.fault .bound (.access 1 (slotOff x i) 64))
  | some pa => if syncAsHit s x.ctx x.ringHoop (slotOff x i) 64 then .error (.undef .syncWord) else .ok pa

/-- Where 64 bytes at a context-relative address of HBM lie, through the page tables of quarter q (R215, R255). -/
def hbm64 (s : State) (c q a : Nat) (write : Bool) : Except Stop Nat :=
  match hbmAddr s c q a 64 write with
  | .at_ pa => .ok pa
  | e => .error (.fault (e.code.getD .bound) (e.detail 3 a 64))

/-- The check of a slot of an HBM ring against the bound and the sync region (R215, R267). -/
def slotStop (s : State) (x : Chan) (i : Nat) : Option Stop :=
  if (hbmVa s x.ctx (slotOff x i) 64).isNone then some (.fault .bound (.access 3 (slotOff x i) 64))
  else if syncHbmHit s x.ctx (slotOff x i) 64 then some (.undef .syncWord)
  else none

/-- A slot written at its place: in an aperture as an accumulate or direction write (R338, R340). What stops the write comes
with the state that it leaves. -/
def putSlot (q : Nat) (x : Chan) (i : Nat) (v : DataTok) (s : State) : State × Option Stop :=
  if x.space = 0 then
    match tileSlot s x i with
    | .ok pa => (poke s pa (tokBytes v), none)
    | .error e => (s, some e)
  else
    match slotStop s x i, apertureOf s x.ctx (slotOff x i) with
    | some e, _ => (s, some e)
    | none, none =>
      match hbm64 s x.ctx q (slotOff x i) true with
      | .ok pa => (poke s pa (tokBytes v), none)
      | .error e => (s, some e)
    | none, some ap =>
      match apertureEnd ⟨0, x.ctx, q, none, slotOff x i, 0, tokBytes v, false, false⟩ ap s with
      | .undef => (s, some (.undef .accumulate))
      | .fail e d => (s, some (.fault e d))
      | .done none s' => (s', none)
      | .done (some bad) s' => (s', some (.fault .eccUe (.word bad)))

/-- Slots written into the ring from slot i on (R287), as far as nothing stops them. -/
def putSlots (q : Nat) (x : Chan) : Nat → List DataTok → State → State × Option Stop
  | _, [], s => (s, none)
  | i, v :: vs, s =>
    match putSlot q x i v s with
    | (s', none) => putSlots q x (i + 1) vs s'
    | r => r

/-- Where a slot is read: in an aperture the GRAD field of version CUR (R340). -/
def slotRead (s : State) (q : Nat) (x : Chan) (i : Nat) : Except Stop Nat :=
  if x.space = 0 then tileSlot s x i
  else
    match slotStop s x i with
    | some e => .error e
    | none => hbm64 s x.ctx q ((apertureOf s x.ctx (slotOff x i)).elim (slotOff x i) (·.at_)) false

/-- Slots read from the ring from slot i on; an uncorrectable one stops the read (R220). -/
def getSlots (s : State) (q : Nat) (x : Chan) : Nat → Nat → Except Stop (List DataTok)
  | _, 0 => .ok []
  | i, n + 1 =>
    match slotRead s q x i with
    | .error e => .error e
    | .ok pa =>
      match ueAt s pa 64 with
      | some bad => .error (.fault .eccUe (.word bad))
      | none =>
        match getSlots s q x (i + 1) n with
        | .ok vs => .ok (tokOf (peek s pa 64) :: vs)
        | .error e => .error e

/-- KIND, EXT and PADLEN of a first slot (Table 08.10). -/
def msgKind (v : DataTok) : Nat := fld v.toNat 0 4
def msgExt (v : DataTok) : Nat := fld v.toNat 4 2
def msgPadLen (v : DataTok) : Nat := fld v.toNat 16 16

/-- A PAD slot (R286). -/
def padSlot (len sent : Nat) : DataTok := BitVec.ofNat 512 (2 + (len % 65536) * 2 ^ 16 + sent % 65536 * 2 ^ 48)

/-- A first slot with the channel's message count (Table 08.10). -/
def withSeq (v : DataTok) (sent : Nat) : DataTok := BitVec.ofNat 512 (setFld v.toNat 48 16 sent)

/-- What a slot's writer had observed, for the hazard detector: the key in `net.clocks`. -/
def slotKey (n i : Nat) (x : Chan) : Nat := 2 * (65536 * n + i % ringN x) + 1

/-! ## Sending (R286, R287) -/

/-- The quarter of a source: that of its tile's Hoop; the controller's is Q0. -/
def siteQuarter (site : Option Nat) : Nat := (site.map fun k => quarterOf (noHoop k)).getD 0

/-- Slots of a source's tile, or of the controller, on their way into the ring: this module's, or the peer's over a link,
where their acknowledgement is awaited (R28, R469). -/
def pushSlots (n : Nat) (site : Option Nat) (i : Nat) (vs : List DataTok) (vc : Tab Nat) (s : State) : State × Option Stop :=
  let x := chanAt s n
  let q := siteQuarter site
  if hasReceiver x then
    match putSlots q x i vs s with
    | (s', none) =>
      (if s.dev.debug then modNet (fun m => { m with clocks := Tab.set [] m.clocks (slotKey n i x) vc }) s' else s', none)
    | r => r
  else
    (modNet (fun m => { m with far := m.far ++ [⟨m.nextWid, x.ctx, site, x.peerMod, some n⟩], nextWid := m.nextWid + 1 })
      (sendOut x.ctx q x.peerMod (.ringSlots (BitVec.ofNat 12 x.peerChan) (i % ringN x) vs) s), none)

/-- Whether a notification's FENCE is met: every write that its source has issued earlier, over a link, to HBM or into a peer
buffer, has been acknowledged (R28, R287). -/
def fenceMet (s : State) (f : Notice) : Bool :=
  (s.net.far.all fun w => decide (w.site ≠ f.site) || decide (f.limit ≤ w.wid)) &&
  (s.net.writes.all fun w => w.done || decide (w.site ≠ f.site) || decide (f.limit ≤ w.wid)) &&
  s.net.peers.all fun p => decide (some p.src ≠ f.site) || decide (f.limit ≤ p.wid)

/-- A notification leaves for its channel's receiver half. -/
def sendTail (f : Notice) (s : State) : State :=
  let x := chanAt s f.chan
  if hasReceiver x then modNet (fun m => { m with ctrls := m.ctrls ++ [(false, f.chan, f.tail)] }) s
  else sendOut x.ctx (siteQuarter f.site) x.peerMod (.chanTail (BitVec.ofNat 12 x.peerChan) f.tail) s

/-- The notifications whose FENCEs are met leave, in the order issued: a later one of a source waits for no less than an
earlier one. -/
def sendTails (s : State) : State :=
  let go := s.net.held.filter (fenceMet s)
  go.foldl (fun s f => sendTail f s) (modNet (fun m => { m with held := m.held.filter fun f => !go.contains f }) s)

/-- The tail is to be made known to the receiver half, behind the writes of its source (R28, R287). -/
def notifyTail (n : Nat) (site : Option Nat) (s : State) : State :=
  sendTails (modNet (fun m => { m with held := m.held ++ [⟨n, (chanAt s n).tail, site, m.nextWid⟩] }) s)

/-- Free slots as the sender half knows them (R286). -/
def freeSlots (x : Chan) : Nat := ringN x - (x.tail - x.headSeen).toNat

/-- The sender waits for ring space: cycles, and one event for each message (R290). -/
def chanWait (n : Nat) (s : State) : State :=
  modChan n (fun x => { x with
    stall := satAdd 48 x.stall 1, stallEv := if x.waited then x.stallEv else satAdd 32 x.stallEv 1, waited := true }) s

/-- The port's slots held so far. -/
def portSlots (t : Tile) (p : Nat) : List (DataTok × Tab Nat) := Tab.get [] t.b.ports p
def setPort (k p : Nat) (vs : List (DataTok × Tab Nat)) (s : State) : State :=
  modB k (fun b => { b with ports := Tab.set [] b.ports p vs }) s

/-- A whole message is written, after its PAD where needed, once there is room (R286); a sender half that does not know
its ring yet stalls (R282). -/
def sendMessage (n k p c : Nat) (vs : List (DataTok × Tab Nat)) (s : State) : State :=
  let it := tileItem s k
  let x := chanAt s n
  let len := vs.length
  let pos := x.tail.toNat % ringN x
  if !hasReceiver x && !x.ringKnown then s
  else if ringN x < len then faultAt c .chanTooLong it s
  else if ringN x < pos + len && freeSlots x < ringN x - pos then chanWait n s
  else
    let padded : State × Option Stop :=
      if ringN x < pos + len then
        match pushSlots n (some k) pos [padSlot (ringN x - pos) x.sent] [] s with
        | (s', none) => (modChan n (fun y => { y with tail := y.tail + BitVec.ofNat 32 (ringN x - pos) }) s', none)
        | r => r
      else (s, none)
    match padded with
    | (s1, some e) => e.out c it s1
    | (s1, none) =>
      let y := chanAt s1 n
      if freeSlots y < len then chanWait n s1
      else
        let slots := match vs.map (·.1) with
          | v :: rest => withSeq v y.sent :: rest
          | [] => []
        match pushSlots n (some k) (y.tail.toNat % ringN y) slots (vs.foldl (fun m v => joinClock m v.2) []) s1 with
        | (s2, some e) => e.out c it s2
        | (s2, none) =>
          let s3 := modChan n (fun z => { z with tail := z.tail + BitVec.ofNat 32 len, sent := satAdd 48 z.sent 1, waited := false }) s2
          notifyTail n (some k) (setPort k p [] s3)

/-- Whether another user shares a SEND port's queue (R274, R283). -/
def sendShared (t : Tile) (p q : Nat) : Bool :=
  stepsUseQ t q || ((List.range 8).any fun b => bitAt (kbReg t b) 0 && decide (fld (kbReg t b) 1 4 = q)) ||
  ((List.range 4).any fun i => decide (i ≠ p) && bitAt (cpReg t i) 0 && !bitAt (cpReg t i) 1 && decide (fld (cpReg t i) 2 4 = q)) ||
  t.b.streams.any fun x => x.2.pending && sdWrite (sdAt t x.1) && decide (sdPort (sdAt t x.1) = q)

/-- A command of a channel port of a B tile in a run, with its channel (R283): FAULTED, or OPEN for this port. -/
def portStep (recv : Bool) (site : Site) (port : Fin 4) (faulted open_ : Nat → Nat → Nat → State → State) (s : State) : Out :=
  let k := siteNo site
  let t := tileAt s k
  let r := cpReg t port.val
  ground (match runOf s k with
  | none => s
  | some run =>
    if kindOf k ≠ .B || !bitAt r 0 || bitAt r 1 != recv then s
    else
      let n := fld r 6 12
      let x := chanAt s n
      let mine := decide (x.ctx = run.ctx) && (if recv then hasReceiver x else hasSender x) &&
        decide ((if recv then x.receiver else x.sender).toNat = endpointOf k port.val)
      if !mine || x.st = .closed then undef .channelPort run.ctx s
      else if x.st = .faulted then faulted k run.ctx n s
      else open_ k run.ctx n s) s

/-- CHANNEL_SEND: the port takes a token of the message being gathered, or writes the whole message (R286); at a
FAULTED channel it discards and counts its tokens (R291). -/
def execChannelSend (site : Site) (port : Fin 4) (s : State) : Out :=
  let p := port.val
  portStep false site port
    (fun k c n s =>
      let q := fld (cpReg (tileAt s k) p) 2 4
      let held := (portSlots (tileAt s k) p).length
      let drop (m : Nat) (s : State) : State := modChan n (fun x => { x with discard := satAdd 32 x.discard m }) s
      if held ≠ 0 then drop held (setPort k p [] s)
      else
        match headOf (tileAt s k) q with
        | .empty => s
        | .parity => faultAt c .queueParity (tileItem s k) s
        | .tok _ => drop 1 (windowPop k q s))
    (fun k c n s =>
      let t := tileAt s k
      let q := fld (cpReg t p) 2 4
      let vs := portSlots t p
      if sendShared t p q then undef .sharedQueue c s
      else if vs.length ≠ 0 && decide ((vs.head?.map fun v => msgExt v.1 + 1).getD 0 ≤ vs.length) then
        sendMessage n k p c vs s
      else if qCtrl t q then s
      else
        match headOf t q with
        | .empty => s
        | .parity => faultAt c .queueParity (tileItem s k) s
        | .tok a =>
          if vs.isEmpty && msgKind a.val ≠ 1 then undef .channelPort c s
          else setPort k p (vs ++ [(a.val, a.vc)]) (windowPop k q s)) s

/-- The endpoints of a CTRL message of a channel: source and destination, each a module and a B tile or the controller (R27,
R282). The tail goes from the sender to the receiver, the head back. -/
def ctrlWay (s : State) (m : Bool × Nat × BitVec 32) : (Nat × Nat) × (Nat × Nat) :=
  let x := chanAt s m.2.1
  let tile (e : BitVec 32) : Nat := if isSelvedge e then 1024 else e.toNat % 256
  let a := (if hasSender x then ownId s else x.peerMod, tile x.sender)
  let b := (if hasReceiver x then ownId s else x.peerMod, tile x.receiver)
  if m.1 then (b, a) else (a, b)

/-- A tail or head has arrived at its half (R287, R288). -/
def takeCtrl (m : Bool × Nat × BitVec 32) (s : State) : State :=
  modChan m.2.1 (fun x =>
    if x.st ≠ .opened then x else if m.1 then { x with headSeen := m.2.2 } else { x with tailSeen := m.2.2 }) s

/-- The oldest tail or head of a channel arrives, or an older message of the same two endpoints (R27). -/
def ctrlArrives (head : Bool) (n : Nat) (s : State) : State :=
  match s.net.ctrls.find? fun m => m.1 == head && decide (m.2.1 = n) with
  | none => s
  | some m0 =>
    let same (m : Bool × Nat × BitVec 32) : Bool := decide (ctrlWay s m = ctrlWay s m0)
    takeCtrl ((s.net.ctrls.find? same).getD m0) (modNet (fun x => { x with ctrls := eraseFirst same x.ctrls }) s)

/-- CHANNEL_NOTIFY: notifications whose FENCE is now met leave their sources, and the receiver half takes the oldest one of
the channel's tail (R287). -/
def execChannelNotify (chan : BitVec 12) (s : State) : Out := ground (ctrlArrives false chan.toNat (sendTails s)) s

/-- HEAD_RETURN: the sender half takes the oldest returned head of the channel (R288). -/
def execHeadReturn (chan : BitVec 12) (s : State) : Out := ground (ctrlArrives true chan.toNat s) s

/-! ## Receiving (R288) -/

/-- The head advances and returns to the sender half (R288). -/
def advanceHead (n q k : Nat) (s : State) : State :=
  let s1 := modChan n (fun x => { x with head := x.head + BitVec.ofNat 32 k }) s
  let x := chanAt s1 n
  if hasSender x then modNet (fun m => { m with ctrls := m.ctrls ++ [(true, n, x.head)] }) s1
  else sendOut x.ctx q x.peerMod (.chanHead (BitVec.ofNat 12 x.peerChan) x.head) s1

/-- The oldest message of a ring past its PADs: the slots that PADs covered, and the message. A slot that is no PAD is
taken as a message. -/
def oldestMsg (s : State) (q : Nat) (x : Chan) : Nat → Nat → Except Stop (Nat × Option (List DataTok))
  | 0, skip => .ok (skip, none)
  | fuel + 1, skip =>
    let h := x.head + BitVec.ofNat 32 skip
    if h = x.tailSeen then .ok (skip, none)
    else
      match getSlots s q x h.toNat 1 with
      | .error e => .error e
      | .ok vs =>
        let v := vs.headD 0
        if msgKind v = 2 then oldestMsg s q x fuel (skip + max 1 (msgPadLen v))
        else
          match getSlots s q x h.toNat (msgExt v + 1) with
          | .error e => .error e
          | .ok ws => .ok (skip, some ws)

/-- CHANNEL_RECV: the port sends the next token of a message, after which the last one advances the head; or it reads
the next message, skipping PADs (R288). At a FAULTED channel nothing further is delivered (R291). -/
def execChannelRecv (site : Site) (port : Fin 4) (s : State) : Out :=
  let p := port.val
  portStep true site port (fun _ _ _ s => s)
    (fun k c n s =>
      let t := tileAt s k
      let q := quarterOf (noHoop k)
      let o := fld (cpReg t p) 2 2
      let x := chanAt s n
      match portSlots t p with
      | v :: rest =>
        let m := Tab.get 0 t.b.portSent p
        let (tok, vc) := (v :: rest).getD m v
        if !hasCredit t o false then s
        else
          let s1 := sendTokVc k o false tok vc s
          let setSent (j : Nat) : State → State := modB k (fun b => { b with portSent := Tab.set 0 b.portSent p j })
          if rest.length ≤ m then
            (modChan n (fun y => { y with recv := satAdd 48 y.recv 1 })
              (advanceHead n q (rest.length + 1) (setSent 0 (setPort k p [] s1))))
          else setSent (m + 1) s1
      | [] =>
        match oldestMsg s q x 2 0 with
        | .error e => e.out c (tileItem s k) s
        | .ok (skip, msg) =>
          let s1 := if skip = 0 then s else advanceHead n q skip s
          match msg with
          | none =>
            if hasCredit t o false then modChan n (fun y => { y with empty := satAdd 48 y.empty 1 }) s1 else s1
          | some vs =>
            let vc := if s.dev.debug then Tab.get [] s.net.clocks (slotKey n (chanAt s1 n).head.toNat x) else []
            setPort k p (vs.map fun v => (v, vc)) s1) s

/-- CHAN_RING_REPORT: the peer's receiver half has reported its ring to this module's sender half (R282). -/
def execChanRingReport (chan : BitVec 12) (ringLog2 : Nat) (s : State) : Out :=
  let n := chan.toNat
  let x := chanAt s n
  ground (if x.st ≠ .opened || !hasSender x || hasReceiver x || 16 < ringLog2 then s
  else modChan n (fun y => { y with ringLog2 := ringLog2, ringKnown := true }) s) s

/-- What is on its way for a channel that is no longer OPEN goes: its notifications, and acknowledgements to come. -/
def forgetChan (n : Nat) (s : State) : State :=
  modNet (fun m => { m with
    ctrls := m.ctrls.filter fun x => x.2.1 ≠ n, held := m.held.filter fun f => f.chan ≠ n
    far := m.far.filter fun w => w.chan ≠ some n }) s

/-- CHAN_FAULTED: the peer half's context faulted or was halted; this half becomes FAULTED and the event is raised
(R291). -/
def execChanFaulted (chan : BitVec 12) (s : State) : Out :=
  let n := chan.toNat
  let x := chanAt s n
  ground (if x.st ≠ .opened || x.half = 3 then s
  else
    (raise 0x0007 x.ctx (toLE 2 n ++ toLE 2 x.peerMod ++ toLE 2 x.peerChan)
      (forgetChan n (modChan n (fun y => { y with st := .faulted }) s)))) s

/-! ## Messages to the Selvedge controller (R283, R399, R478) -/

/-- Whether a copy still goes on: a fault or halt of its context abandons it at once (R480). -/
def copyLive (s : State) (x : Copy) : Bool := (ctxAt s x.ctx).latched.isNone

/-- Copies that the controller queues (R479). -/
def queuedCopies (s : State) : Nat := (s.net.copies.filter fun x => !x.running && copyLive s x).length

/-- The oldest message of a channel whose receiver is the Selvedge controller; its reads use the tables of Q0. With 1,024
copies queued the controller takes no message (R479). -/
def serviceMsg (n : Nat) (s : State) : Option (Nat × Except Stop (Nat × Option (List DataTok))) :=
  let x := chanAt s n
  if x.st = .opened && hasReceiver x && isSelvedge x.receiver && decide (queuedCopies s < 1024) then some (x.ctx, oldestMsg s 0 x 2 0) else none

/-- The message has been taken. -/
def serviceTaken (n k : Nat) (s : State) : State :=
  modChan n (fun x => { x with recv := satAdd 48 x.recv 1 }) (advanceHead n 0 k s)

/-- The resident pricking of a context and motif (R389). -/
def residentOf (s : State) (c motif : Nat) : Option Pricking :=
  s.pricks.find? fun p => decide (p.ctx = c) && decide (p.motif = motif)

/-- A load joins a Hoop's Bobbin port (R400). -/
def queueLoad (h : Nat) (l : Load) (s : State) : State := modHoop h (fun x => { x with loads := x.loads ++ [l] }) s

/-- The outcome of a loader request goes to its knot (R399). -/
def loaderDone (c motif status : Nat) (kaddr : BitVec 64) (s : State) : State :=
  serviceKnot c 0 0 (motif * 256 + status) kaddr.toNat s

/-- LOADER_REQUEST: a message of EXT 0 queues a load of a resident pricking (R399). -/
def execLoaderRequest (chan : BitVec 12) (s : State) : Out :=
  let n := chan.toNat
  ground (match serviceMsg n s with
  | none => s
  | some (c, .error e) => e.out c noItem s
  | some (_, .ok (_, none)) => s
  | some (c, .ok (skip, some vs)) =>
    if vs.length ≠ 1 then s
    else
      let v := (vs.headD 0).toNat
      let motif := fld v 164 16
      let kaddr := BitVec.ofNat 64 (fld v 192 64)
      let s1 := serviceTaken n (skip + 1) s
      if (kaddrOf kaddr.toNat).bad then undef .knotBinding c s
      else
        match residentOf s c motif with
        | none => loaderDone c motif 0x05 kaddr s1
        | some p =>
          queueLoad p.hoop ⟨.loader kaddr (bitAt v 181), c, motif, p.c0, p.c1, bitAt v 180, false, false⟩ s1) s

end Sys2Proof.Machine
end

