-- ==== Sys2Proof/Machine/Crypto.lean ====
section
/-! DEFINITION. The functions of public standards that the spec names: CRC-32C (R384), SHAKE256 (R365), AES-256 in
Galois counter mode (R385). PRESUMED from the standards (log entry 8). -/

namespace Sys2Proof.Machine

/-! ## CRC-32C -/

/-- One bit of the reflected CRC with polynomial 0x1EDC6F41. -/
def crcBit (c : BitVec 32) : BitVec 32 := if c.getLsbD 0 then (c >>> 1) ^^^ 0x82F63B78#32 else c >>> 1

def crcByte (c : BitVec 32) (b : Byte) : BitVec 32 :=
  (List.range 8).foldl (fun c _ => crcBit c) (c ^^^ b.setWidth 32)

/-- The CRC-32C of bytes (R384). -/
def crc32c (bs : List Byte) : Nat := (bs.foldl crcByte 0xFFFFFFFF#32 ^^^ 0xFFFFFFFF#32).toNat

/-! ## SHAKE256 -/

/-! The state is 25 lanes of 64 bits, five planes of five. -/

/-- A plane whose lane x is the given plane's lane x + n. -/
def planeTurn (n : Nat) (p : List (BitVec 64)) : List (BitVec 64) := p.drop n ++ p.take n

def planeXor (p q : List (BitVec 64)) : List (BitVec 64) := List.zipWith (· ^^^ ·) p q

/-- The five planes of a state. -/
def planesOf (a : List (BitVec 64)) : List (List (BitVec 64)) := (List.range 5).map fun y => (a.drop (5 * y)).take 5

/-- Theta: each lane takes the parities of the columns beside it. -/
def keccakTheta (ps : List (List (BitVec 64))) : List (BitVec 64) :=
  let parity := ps.foldl planeXor (List.replicate 5 0)
  let d := planeXor (planeTurn 4 parity) ((planeTurn 1 parity).map fun w => w.rotateLeft 1)
  ps.flatMap (planeXor d)

/-- Rho and pi in one walk over the 24 lanes other than the first: step t turns its lane by the t-th triangular number and
moves it to where the walk goes next. -/
def keccakWalk (a : List (BitVec 64)) : List (BitVec 64) :=
  ((List.range 24).foldl (fun (st : List (BitVec 64) × Nat × Nat) t =>
    let (b, x, y) := st
    let z := (2 * x + 3 * y) % 5
    (b.set (y + 5 * z) ((a.getD (x + 5 * y) 0).rotateLeft ((t + 1) * (t + 2) / 2 % 64)), y, z)) (a, 1, 0)).1

/-- Chi, on one plane. -/
def keccakChi (p : List (BitVec 64)) : List (BitVec 64) :=
  planeXor p (List.zipWith (fun u v => ~~~u &&& v) (planeTurn 1 p) (planeTurn 2 p))

/-- The shift register of the round constants: polynomial x^8 + x^6 + x^5 + x^4 + 1. -/
def keccakShift (r : BitVec 8) : BitVec 8 := if r.getLsbD 7 then (r <<< 1) ^^^ 0x71#8 else r <<< 1

/-- A round's constant, whose bits 2^j - 1 are the next seven bits of the register, and the register after it. -/
def keccakIota (r : BitVec 8) : BitVec 64 × BitVec 8 :=
  (List.range 7).foldl (fun (st : BitVec 64 × BitVec 8) j =>
    (if st.2.getLsbD 0 then st.1 ^^^ (1#64 <<< (2 ^ j - 1)) else st.1, keccakShift st.2)) (0, r)

/-- The permutation: 24 rounds. -/
def keccakF (a : List (BitVec 64)) : List (BitVec 64) :=
  ((List.range 24).foldl (fun (st : List (BitVec 64) × BitVec 8) _ =>
    let (rc, r) := keccakIota st.2
    match (planesOf (keccakWalk (keccakTheta (planesOf st.1)))).flatMap keccakChi with
    | [] => ([], r)
    | w :: rest => ((w ^^^ rc) :: rest, r)) (a, 1)).1

/-- One block of 136 bytes absorbed. -/
def shakeAbsorb (a : List (BitVec 64)) (blk : List Byte) : List (BitVec 64) :=
  keccakF ((List.range 25).map fun i =>
    if i < 17 then a.getD i 0 ^^^ BitVec.ofNat 64 (leNat ((blk.drop (8 * i)).take 8)) else a.getD i 0)

/-- The message with its padding. -/
def shakePad (bs : List Byte) : List Byte :=
  let n := 136 - bs.length % 136
  if n = 1 then bs ++ [0x9F] else bs ++ [0x1F] ++ List.replicate (n - 2) 0 ++ [0x80]

/-- The first n ≤ 136 bytes of SHAKE256. -/
def shake256 (n : Nat) (bs : List Byte) : List Byte :=
  let p := shakePad bs
  let a := (List.range (p.length / 136)).foldl (fun a i => shakeAbsorb a ((p.drop (136 * i)).take 136)) (List.replicate 25 0)
  (a.flatMap fun w => toLE 8 w.toNat).take n

/-! ## AES-256 in Galois counter mode -/

/-- Multiplication by x in GF(2^8), whose polynomial is x^8 + x^4 + x^3 + x + 1. -/
def xtime (b : Byte) : Byte := if b.getLsbD 7 then (b <<< 1) ^^^ 0x1B#8 else b <<< 1

/-- Multiplication in GF(2^8). -/
def byteMul (x y : Byte) : Byte :=
  ((List.range 8).foldl (fun (acc : Byte × Byte) i => (if x.getLsbD i then acc.1 ^^^ acc.2 else acc.1, xtime acc.2)) (0, y)).1

/-- The 254th power, which is the inverse where there is one: the product of the squares b^2 to b^128. -/
def byteInv (b : Byte) : Byte :=
  ((List.range 7).foldl (fun (acc : Byte × Byte) _ =>
    let q := byteMul acc.2 acc.2
    (byteMul acc.1 q, q)) (1, b)).1

/-- The byte substitution: the inverse, added to its own four left rotations and a constant. -/
def subByte (b : Byte) : Byte := ((List.range 5).map (byteInv b).rotateLeft).foldl (· ^^^ ·) 0x63

/-- The round keys as bytes: words are added one by one up to 60. -/
def aesExpand : Nat → Nat → Byte → List Byte → List Byte
  | 0, _, _, w => w
  | n + 1, i, rc, w =>
    let prev := (w.drop (4 * (i - 1))).take 4
    let t :=
      if i % 8 = 0 then
        let r := (prev.drop 1 ++ prev.take 1).map subByte
        (r.headD 0 ^^^ rc) :: r.tail
      else if i % 8 = 4 then prev.map subByte
      else prev
    let old := (w.drop (4 * (i - 8))).take 4
    aesExpand n (i + 1) (if i % 8 = 0 then xtime rc else rc) (w ++ List.zipWith (· ^^^ ·) old t)

def aesKeys (key : List Byte) : List Byte := aesExpand 52 8 1 key

def aesShift (s : List Byte) : List Byte := (List.range 16).map fun i => s.getD ((i + 4 * (i % 4)) % 16) 0

def aesMix (s : List Byte) : List Byte :=
  (List.range 4).flatMap fun c =>
    let a (i : Nat) : Byte := s.getD (4 * c + i % 4) 0
    (List.range 4).map fun i => xtime (a i) ^^^ xtime (a (i + 1)) ^^^ a (i + 1) ^^^ a (i + 2) ^^^ a (i + 3)

def aesBlock (ks : List Byte) (blk : List Byte) : List Byte :=
  let add (r : Nat) (s : List Byte) : List Byte := List.zipWith (· ^^^ ·) s ((ks.drop (16 * r)).take 16)
  let mid := (List.range 13).foldl (fun s r => add (r + 1) (aesMix (aesShift (s.map subByte)))) (add 0 blk)
  add 14 (aesShift (mid.map subByte))

/-- The number that big-endian bytes spell. -/
def beNat (bs : List Byte) : Nat := bs.foldl (fun a b => 256 * a + b.toNat) 0
def toBE (n x : Nat) : List Byte := (toLE n x).reverse

/-- Multiplication in GF(2^128) of Galois counter mode; bit 127 is the first. -/
def gfMul (x y : BitVec 128) : BitVec 128 :=
  ((List.range 128).foldl (fun (zv : BitVec 128 × BitVec 128) i =>
    let z := if x.getLsbD (127 - i) then zv.1 ^^^ zv.2 else zv.1
    (z, if zv.2.getLsbD 0 then (zv.2 >>> 1) ^^^ (0xE1#128 <<< 120) else zv.2 >>> 1)) (0, y)).1

def ghash (h : BitVec 128) (bs : List Byte) : BitVec 128 :=
  (List.range ((bs.length + 15) / 16)).foldl (fun a i =>
    gfMul (a ^^^ BitVec.ofNat 128 (beNat (padTo 16 ((bs.drop (16 * i)).take 16)))) h) 0

def pad16 (bs : List Byte) : List Byte := bs ++ List.replicate ((16 - bs.length % 16) % 16) 0

/-- The plaintext and the tag for a ciphertext, its additional data and a 96-bit IV (NIST SP 800-38D). -/
def gcmOpen (key iv aad ct : List Byte) : List Byte × List Byte :=
  let ks := aesKeys key
  let h := BitVec.ofNat 128 (beNat (aesBlock ks (List.replicate 16 0)))
  let ctr (n : Nat) : List Byte := aesBlock ks (iv ++ toBE 4 n)
  let pt := (List.range ((ct.length + 15) / 16)).flatMap fun i =>
    List.zipWith (· ^^^ ·) ((ct.drop (16 * i)).take 16) (ctr (i + 2))
  let g := ghash h (pad16 aad ++ pad16 ct ++ toBE 8 (8 * aad.length) ++ toBE 8 (8 * ct.length))
  (pt, List.zipWith (· ^^^ ·) (toBE 16 g.toNat) (ctr 1))

end Sys2Proof.Machine
end

