-- ==== Sys2Proof/Machine/Beacons.lean ====
section
/-! DEFINITION. The stitch's status and its alignment to a source: beacons, losses of the source, and the beacons that a
module sends (R300 to R304, R328, Table 09.2). -/

namespace Sys2Proof.Machine

/-- The skip level of a Hoop: its own, or the largest of the eight under DUTY_SCOPE MODULE (R328). -/
def skipLevel (s : State) (h : Nat) : Nat :=
  if s.stitch.cfg.getLsbD 28 then Tab.get 0 s.stitch.duty h
  else (List.range 8).foldl (fun m i => max m (Tab.get 0 s.stitch.duty i)) 0

def Lock.num : Lock → Nat
  | .freeRunning => 0
  | .locked => 1
  | .lost => 2

/-- STITCH_STAT (Table 09.2). -/
def stitchStat (s : State) : Nat :=
  Lock.num s.stitch.lock + s.stitch.mismatch.toNat * 4 +
    ((List.range 8).map fun h => skipLevel s h * 2 ^ (3 * h + 3)).sum

/-- Whether the stitch timer runs (R297). -/
def stitching (s : State) : Bool := s.dev.ready && !s.pins.dormant && !s.dev.bootWait

def stitchSrc (s : State) : Nat := fld s.stitch.cfg.toNat 25 2

/-- STITCH_PERIOD in force. -/
def periodNow (s : State) : Nat := fld s.stitch.cfg.toNat 0 25

/-- A follower that loses its source goes on with its own period. -/
def syncLost (s : State) : State :=
  if s.stitch.lock = .lost then s
  else
    let s1 := { s with stitch := { s.stitch with lock := .lost, placed := none, mismatches := 0, seen := [] } }
    raise 0x20 0 (toLE 4 (stitchStat s1)) s1

/-- A beacon or edge that does not match: the third in a row is a loss. -/
def syncMismatch (period : Nat) (s : State) : State :=
  let n := s.stitch.mismatches + 1
  let s1 := { s with stitch := { s.stitch with mismatch := true, mismatches := n, srcPeriod := period } }
  if 3 ≤ n then syncLost { s1 with stitch := { s1.stitch with mismatches := 0 } } else s1

/-- NCLK of a time in ns. -/
def nclkOf (ns : Nat) : Nat := ns * 9 / 5

/-- A beacon leaves on some ports (R302, R477). -/
def sendBeacon (ports : List Nat) (count : BitVec 64) (period : BitVec 25) (left : Nat) (s : State) : State :=
  ports.foldl (fun s q => sendVia q (.beacon count period left) s) s

/-- The trained DL ports. -/
def trainedPorts (s : State) : List Nat := (List.range 12).filter fun q => (linkAt s q).st = .up

/-- A beacon that arrives on a port (R302, R304): under another STITCH_SRC it is ignored, later copies are dropped, and a
period mismatch is counted; else it is forwarded on every other trained port, with the time that the arrival link and this
module (a free value) took, and places the boundary. -/
def takeBeacon (p : Nat) (count : BitVec 64) (period : BitVec 25) (remaining : Nat) (s : State) : State :=
  let x := s.stitch
  if !stitching s || stitchSrc s ≠ 2 || (linkAt s p).st ≠ .up || x.seen.contains count then s
  else
    let s1 := { s with stitch := { x with seen := count :: x.seen } }
    if period.toNat ≠ periodNow s then syncMismatch period.toNat s1
    else
      let left := remaining - nclkOf (linkAt s p).delay - freeNat s 0
      sendBeacon ((trainedPorts s).filter (· ≠ p)) count period left
        (useFree 1 { s1 with stitch := { s1.stitch with placed := some count, mismatches := 0 } })

/-- The master's beacon at a boundary: it names one that is at least 36,000 NCLK ahead (R300, R302). When, beyond that, a
master sends its beacons is left open: DESIGN CHOICE, one at each boundary (log entry 36). -/
def masterBeacon (s : State) : State :=
  let m := ceilDiv 36000 (periodNow s)
  if !s.stitch.cfg.getLsbD 27 then s
  else sendBeacon (trainedPorts s) (s.stitch.count + BitVec.ofNat 64 m) (BitVec.ofNat 25 (periodNow s)) (m * periodNow s) s

end Sys2Proof.Machine
end

