-- ==== Sys2Proof/Machine/Copies.lean ====
section
/-! DEFINITION. The copy service (R477 to R480) and the cordonnet (R31 to R33, R292, R293). -/

namespace Sys2Proof.Machine

/-! ## Copy requests (Table 13.8) -/

/-- Whether an address range of a copy is invalid (R478): a reserved field, a misaligned start, a range beyond its
A tile, or one that meets a sync region of this module. -/
def badCopyRange (s : State) (c : Nat) (ka : KAddr) (len : Nat) : Bool :=
  ka.bad || ka.off % 64 ≠ 0 || (!ka.hbm && decide (0x100000 < ka.off + len)) ||
  (!(ka.remote && ka.mod ≠ ownId s) && len ≠ 0 &&
    (if ka.hbm then syncHbmHit s c ka.off len else syncAsHit s c ka.hoop ka.off len))

/-- The undefined cases of a copy request (R478). -/
def badCopy (s : State) (c : Nat) (s0 s1 : Nat) : Bool :=
  let len := fld s0 128 32
  let src := kaddrOf (fld s0 64 64)
  let dst := kaddrOf (fld s1 0 64)
  src.remote || badCopyRange s c src len || badCopyRange s c dst len || len % 64 ≠ 0 || fld s0 160 352 ≠ 0 ||
  fld s1 194 318 ≠ 0 || (bitAt s1 192 && (kaddrOf (fld s1 64 64)).bad) || (bitAt s1 193 && (kaddrOf (fld s1 128 64)).bad)

/-- The quarter of a copy's source. -/
def copyQuarter (s : State) (c : Nat) (src : KAddr) : Nat :=
  if !src.hbm then quarterOf src.hoop
  else
    match hbmAddr s c 0 ((apertureOf s c src.off).elim src.off (·.at_)) 64 false with
    | .at_ pa => hbmQuarter pa
    | _ => 0

/-- The copy engine of a copy: its first-hop port, or DL(3q) for a local one (R479). -/
def copyPort (s : State) (c : Nat) (src dst : KAddr) : Nat :=
  let q := copyQuarter s c src
  if dst.remote && dst.mod ≠ ownId s then (preferredPort s q dst.mod).getD (3 * q) else 3 * q

/-- Copies that an engine runs (R479). -/
def runningOn (s : State) (p : Nat) : Nat :=
  (s.net.copies.filter fun x => x.running && decide (x.port = p) && copyLive s x).length

/-- A waiting copy of the engine begins when one has ended. -/
def startCopies (p : Nat) (s : State) : State :=
  if 16 ≤ runningOn s p then s
  else
    match findIdx (fun x => !x.running && decide (x.port = p) && copyLive s x) s.net.copies with
    | none => s
    | some i => modNet (fun n => { n with copies := updAt (fun x => { x with running := true }) i n.copies }) s

/-- COPY_REQUEST: a message of EXT 1 is handed to the copy engine of its first-hop port (R478, R479). -/
def execCopyRequest (chan : BitVec 12) (s : State) : Out :=
  let n := chan.toNat
  ground (match serviceMsg n s with
  | none => s
  | some (c, .error e) => e.out c noItem s
  | some (_, .ok (_, none)) => s
  | some (c, .ok (skip, some vs)) =>
    let a := (vs.headD 0).toNat
    let b := (vs.getD 1 0).toNat
    if vs.length ≠ 2 then s
    else if badCopy s c a b then undef .copyRequest c s
    else
      let x := chanAt s n
      let vc := if s.dev.debug then Tab.get [] s.net.clocks (slotKey n (x.head.toNat + skip) x) else []
      let src := kaddrOf (fld a 64 64)
      let port := copyPort s c src (kaddrOf (fld b 0 64))
      let cp : Copy :=
        { ctx := c, src := BitVec.ofNat 64 (fld a 64 64), len := fld a 128 32, dest := BitVec.ofNat 64 (fld b 0 64)
          done := if bitAt b 192 then some (BitVec.ofNat 64 (fld b 64 64)) else none
          arv := if bitAt b 193 then some (BitVec.ofNat 64 (fld b 128 64)) else none
          port := port, at_ := 0, unacked := 0, id := s.net.nextCopy, running := false, vc := vc }
      (startCopies port (modNet (fun m => { m with copies := m.copies ++ [cp], nextCopy := m.nextCopy + 1 })
        (serviceTaken n (skip + 2) s)))) s

/-! ## Units (R479, R480) -/

/-- The copy service as an agent of the hazard detector (R550). -/
def copyAgent : Nat := 4 * 4096

/-- Where n bytes of a copy lie on this module (R479 steps 3 and 4). -/
def copyAt (s : State) (c q : Nat) (ka : KAddr) (off n : Nat) (write : Bool) : HbmAt :=
  if ka.hbm then hbmAddr s c q (ka.off + off) n write
  else
    match asAddr s c (tileOfIndex .A ka.hoop ka.tile) (ka.off + off) n with
    | some pa => .at_ pa
    | none => .bound

/-- The pieces of n bytes from a context-relative address that lie in one block of an aperture each, which are multiples
of 16,384 B (R338): offset in the unit and length. -/
def unitPieces (a n : Nat) : List (Nat × Nat) :=
  let k := min n (16384 - a % 16384)
  (0, k) :: if k < n then [(k, n - k)] else []

/-- A unit read at its source: an aperture gives the GRAD field of version CUR (R340). -/
def unitRead (s : State) (c q : Nat) (ka : KAddr) (off n : Nat) : Except (FaultCode × FaultDetail) (List Byte) :=
  (unitPieces (ka.off + off) n).foldl (fun acc p =>
    match acc with
    | .error e => .error e
    | .ok bs =>
      let at_ := match (if ka.hbm then apertureOf s c (ka.off + off + p.1) else none) with
        | some ap => hbmAddr s c q ap.at_ p.2 false
        | none => copyAt s c q ka (off + p.1) p.2 false
      match at_ with
      | .at_ pa =>
        match ueAt s pa p.2 with
        | some bad => .error (.eccUe, .word bad)
        | none => .ok (bs ++ peek s pa p.2)
      | e => .error (e.code.getD .bound, e.detail (if ka.hbm then 3 else 1) (ka.off + off + p.1) p.2)) (.ok [])

/-- A piece written at its destination on this module; an aperture takes it as an accumulate or direction write (R338,
R480). -/
def pieceWrite (c q : Nat) (ka : KAddr) (off : Nat) (bs : List Byte) (s : State) : WriteEnd :=
  match (if ka.hbm then apertureOf s c (ka.off + off) else none) with
  | some ap => apertureEnd ⟨0, c, q, none, ka.off + off, 0, bs, false, false⟩ ap s
  | none =>
    match copyAt s c q ka off bs.length true with
    | .at_ pa => .done none (poke s pa bs)
    | e => .fail (e.code.getD .bound) (e.detail (if ka.hbm then 3 else 1) (ka.off + off) bs.length)

/-- How a unit's write ends: an undefined case, a fault of the requesting context with what has been written, or the
state after it. -/
inductive UnitEnd where
  | undef (s : State)
  | fail (code : FaultCode) (d : FaultDetail) (s : State)
  | ok (s : State)

/-- A unit written at its destination, piece by piece. -/
def unitWrite (c q : Nat) (ka : KAddr) (off : Nat) (bs : List Byte) (s : State) : UnitEnd :=
  (unitPieces (ka.off + off) bs.length).foldl (fun acc p =>
    match acc with
    | .ok s =>
      match pieceWrite c q ka (off + p.1) ((bs.drop p.1).take p.2) s with
      | .undef => .undef s
      | .fail e d => .fail e d s
      | .done none s' => .ok s'
      | .done (some bad) s' => .fail .eccUe (.word bad) s'
    | e => e) (.ok s)

/-- A copy that meets a fault ends without its FILL or ARRIVE (R480). -/
def endCopy (id : Nat) (s : State) : State :=
  match s.net.copies.find? fun x => x.id = id with
  | none => s
  | some x => startCopies x.port (modNet (fun n => { n with copies := eraseFirst (fun y => y.id = id) n.copies }) s)

def failCopy (x : Copy) (code : FaultCode) (d : FaultDetail) (s : State) : State :=
  faultWith x.ctx code noItem d (endCopy x.id s)

/-- The hazard detector's view of a copy's access to A-tile bytes. -/
def copyTouch (x : Copy) (ka : KAddr) (write : Bool) (pa n : Nat) (f : State → State) (s : State) : State :=
  if ka.hbm then f s else guarded x.ctx noItem copyAgent x.vc x.id write false pa n f s

/-- The engine reads a copy's next unit and writes it here, or sends it to its module. -/
def copyUnitStep (x : Copy) (s : State) : State :=
  let src := kaddrOf x.src.toNat
  let dst := kaddrOf x.dest.toNat
  let q := portQuarter x.port
  let n := min 256 (x.len - x.at_)
  let step (away : Nat) (s : State) : State := modNet (fun m => { m with copies := m.copies.map fun y =>
    if y.id = x.id then { y with at_ := y.at_ + n, unacked := y.unacked + away } else y }) s
  -- only accesses to A tiles have a place that the hazard detector looks at
  let touch (ka : KAddr) (write : Bool) (f : State → State) (s : State) : State :=
    match copyAt s x.ctx q ka x.at_ n write with
    | .at_ pa => copyTouch x ka write pa n f s
    | _ => f s
  match unitRead s x.ctx q src x.at_ n with
  | .error (e, d) => failCopy x e d s
  | .ok bs =>
    touch src false (fun s =>
      if dst.remote && dst.mod ≠ ownId s then
        let off := BitVec.ofNat 64 (x.dest.toNat + x.at_ / 8)
        step 1 (sendOut x.ctx q dst.mod (.copyUnit (Fin.ofNat 16 x.ctx) off bs s.dev.moduleId x.id) s)
      else
        touch dst true (fun s =>
          match unitWrite x.ctx q dst x.at_ bs s with
          | .undef s' => undef .accumulate x.ctx s'
          | .fail e d s' => failCopy x e d s'
          | .ok s' => step 0 s') s) s

/-- The hazard detector's view of a unit that another module wrote (R518, R519): `hit` follows a hazard, which faults the
context here. -/
def farTouch (u : CopyUnit) (ka : KAddr) (hit f : State → State) (s : State) : State :=
  if ka.hbm || !s.dev.debug then f s
  else
    match copyAt s u.ctx u.quarter ka 0 u.bytes.length true with
    | .at_ pa =>
      let s1 := guarded u.ctx noItem copyAgent (farClock s) u.copyId true false pa u.bytes.length id s
      useFree 1 (if (hazardOf s copyAgent (farClock s) true false pa u.bytes.length).isSome then hit s1 else f s1)
    | _ => f s

/-- A unit from another module is checked and written, and acknowledged with the fault of a failed check (R480). -/
def arrivedUnit (u : CopyUnit) (s : State) : State :=
  let ack (code : Nat) (s : State) : State :=
    sendOut u.ctx u.quarter u.fromMod (.copyAck u.copyId (BitVec.ofNat 8 code)) s
  let ka := kaddrOf u.dest.toNat
  if ka.bad || (if ka.hbm then syncHbmHit s u.ctx ka.off u.bytes.length else syncAsHit s u.ctx ka.hoop ka.off u.bytes.length) then
    undef .copyRequest u.ctx s
  else
    farTouch u ka (ack FaultCode.hazard.num) (fun s =>
      match unitWrite u.ctx u.quarter ka 0 u.bytes s with
      | .undef s' => undef .accumulate u.ctx s'
      | .fail e _ s' => ack e.num s'
      | .ok s' => ack 0 s') s

/-- Where a unit goes: two of one module to one place arrive in the order issued (R27, R469). -/
def unitPort (s : State) (u : CopyUnit) : Option Nat :=
  match copyAt s u.ctx u.quarter (kaddrOf u.dest.toNat) 0 u.bytes.length true with
  | .at_ pa => some (knotPort pa)
  | _ => none

/-- The unit that arrives where the n-th one is named: the first of its module and place. -/
def unitNext (s : State) (n : Nat) : Option (Nat × CopyUnit) :=
  (s.net.units[n]?).bind fun u =>
    (s.net.units.zipIdx.find? fun v => decide (v.1.fromMod = u.fromMod) && decide (unitPort s v.1 = unitPort s u)).map
      fun v => (v.2, v.1)

/-- The Hoops in Rest or Sleep whose A tiles a copy's next unit reads or writes on this module (R506). -/
def copyAsleep (s : State) (x : Copy) : List Nat :=
  let src := kaddrOf x.src.toNat
  let dst := kaddrOf x.dest.toNat
  [src, dst].filterMap fun ka =>
    if ka.hbm || (ka.remote && ka.mod ≠ ownId s) || decide ((hoopAt s ka.hoop).power = .on) then none else some ka.hoop

/-- The Hoop in Rest or Sleep that a unit from another module goes to. -/
def unitAsleep (s : State) (u : CopyUnit) : List Nat :=
  let ka := kaddrOf u.dest.toNat
  if ka.hbm || decide ((hoopAt s ka.hoop).power = .on) then [] else [ka.hoop]

/-- An access from outside starts the exit of Hoops in Rest or Sleep and waits for its end (R506). -/
def orWake (hs : List Nat) (f : State → State) (s : State) : State := if hs.isEmpty then f s else hs.foldl (fun s h => startExit h s) s

/-- COPY_WRITE: the n-th copy reads its next unit and writes or sends it, if its engine runs it; a copy whose context has
faulted ends (R480). Past the copies, the n-th unit that arrived from another module, or an earlier one of its module
and place, is written (R479). -/
def execCopyWrite (n : Nat) (s : State) : Out :=
  ground (match s.net.copies[n]? with
  | some x => if !copyLive s x then endCopy x.id s else if !x.running || x.len ≤ x.at_ then s
    else orWake (copyAsleep s x) (copyUnitStep x) s
  | none =>
    match unitNext s (n - s.net.copies.length) with
    | none => s
    | some (i, u) => orWake (unitAsleep s u) (fun s => arrivedUnit u (modNet (fun m => { m with units := m.units.eraseIdx i }) s)) s) s

/-- The knot operation that ends a copy, with what its requester and the copy itself had made known (R519). -/
def copyKnot (x : Copy) (op : Nat) (kaddr : BitVec 64) (s : State) : State :=
  let s1 := serviceKnot x.ctx (portQuarter x.port) op 0 kaddr.toNat s
  if s.dev.debug && decide (s.net.reqs.length < s1.net.reqs.length) then
    let vc := Tab.set 0 x.vc (agentKey copyAgent) (x.id + 1)
    modNet (fun m => { m with reqs := updAt (fun r => { r with vc := vc }) (m.reqs.length - 1) m.reqs }) s1
  else s1

/-- COPY_DONE: every destination write of the n-th copy is acknowledged; its knots are filled and counted (R479), unless its
context has faulted (R480). -/
def execCopyDone (n : Nat) (s : State) : Out :=
  ground (match s.net.copies[n]? with
  | none => s
  | some x =>
    if !copyLive s x then endCopy x.id s
    else if !x.running || x.at_ < x.len || x.unacked ≠ 0 then s
    else
      let s1 := endCopy x.id s
      let s2 := match x.done with
        | some a => copyKnot x 0 a s1
        | none => s1
      (match x.arv with
        | some a => copyKnot x 3 a s2
        | none => s2)) s

/-! ## The cordonnet -/

def subEn (e : Nat) : Bool := bitAt e 0
def subCtx (e : Nat) : Nat := fld e 1 4
def subTag (e : Nat) : Nat := fld e 5 12
def subTile (e : Nat) : Bool := bitAt e 17
def subBtile (e : Nat) : Nat := fld e 18 5
def subBout (e : Nat) : Nat := fld e 23 2
def subAtile (e : Nat) : Nat := fld e 25 8
def subBase (e : Nat) : Nat := fld e 33 14
def subLen (e : Nat) : Nat := fld e 47 12
def subArv (e : Nat) : Bool := bitAt e 59

def subAt (s : State) (h i : Nat) : Nat := (Tab.get 0 (hoopAt s h).subs i).toNat

/-- The entries of a tap that match a transfer (R32). -/
def matching (s : State) (h c tag : Nat) : List Nat :=
  (List.range 64).filter fun i => subEn (subAt s h i) && decide (subCtx (subAt s h i) = c) && decide (subTag (subAt s h i) = tag)

/-- A transfer of an ATILE entry is written into its A tile, with its range check at the first one (R293). -/
def subWrite (h i : Nat) (f : TapXfer) (s : State) : State :=
  let e := subAt s h i
  let c := subCtx e
  let k := Tab.get 0 (hoopAt s h).subCnt i
  let j := k % max 1 (subLen e)
  let tile := tileOfIndex .A h (subAtile e)
  let off := subBase e * 64
  let disable (s : State) : State :=
    modHoop h (fun x => { x with subs := Tab.set 0 x.subs i (BitVec.ofNat 128 (setFld e 0 1 0)) }) s
  let next (s : State) : State := modHoop h (fun x => { x with subCnt := Tab.set 0 x.subCnt i (k + 1) }) s
  match (if k = 0 then asAddr s c tile off (256 * subLen e) else some 0), asAddr s c tile (off + 256 * j) 256 with
  | some _, some pa =>
    if syncAsHit s c h (off + 256 * j) 256 then undef .syncWord c s
    else
      let code := h + 3 * 4096 + i * 32768
      guarded c (hoopItem h) code [] k true false pa 256 (fun s =>
        let s1 := next (poke s pa f.data)
        if subArv e && j + 1 = subLen e then
          if (kaddrOf (fld e 64 64)).bad then undef .knotBinding c s
          else serviceKnot c (quarterOf h) 3 0 (fld e 64 64) s1
        else s1) s
  | _, _ => faultWith c .bound (hoopItem h) (.access 1 (if k = 0 then off else off + 256 * j) (if k = 0 then 256 * subLen e else 256)) (disable s)

/-- A tap serves its oldest transfer: an entry's A-tile write, or tokens while credits last (R293). `fuel` bounds the
entries and tokens. -/
def drainTap (h : Nat) : Nat → State → State
  | 0, s => s
  | fuel + 1, s =>
    match (hoopAt s h).tapBuf with
    | [] => s
    | f :: rest =>
      let setBuf (b : List TapXfer) : State → State := modHoop h (fun x => { x with tapBuf := b })
      match f.entries with
      | [] => drainTap h fuel (setBuf rest s)
      | i :: is =>
        let e := subAt s h i
        if !subEn e then drainTap h fuel (setBuf ({ f with entries := is, sent := 0 } :: rest) s)
        else if subTile e then
          drainTap h fuel (setBuf ({ f with entries := is, sent := 0 } :: rest) (subWrite h i f s))
        else
          let k := bTileNo h (subBtile e)
          if !hasCredit (tileAt s k) (subBout e) false then s
          else
            let v := tokOf ((f.data.drop (64 * f.sent)).take 64)
            let s1 := sendTokVc k (subBout e) false v [] s
            drainTap h fuel (setBuf ((if f.sent = 3 then { f with entries := is, sent := 0 }
              else { f with sent := f.sent + 1 }) :: rest) s1)

/-- Every tap serves what it holds. -/
def drainTaps (s : State) : State :=
  (List.range 8).foldl (fun s h =>
    drainTap h (65 * (((hoopAt s h).tapBuf.map fun f => 4 * f.entries.length + 1).sum + 1)) s) s

/-- A transfer reaches a tap: held for its entries, or discarded and counted (R32). -/
def tapTake (f : Xfer) (h : Nat) (s : State) : State :=
  let es := matching s h f.ctx f.tag
  if es.isEmpty || (f.ctx ≠ 0 && ctxSt s f.ctx = .faulted) || (hoopAt s h).power ≠ .on then
    modHoop h (fun x => { x with tapDrop := satAdd 48 x.tapDrop 1 }) s
  else
    modHoop h (fun x => { x with tapRx := satAdd 48 x.tapRx 1, tapBuf := x.tapBuf ++ [⟨f.ctx, f.tag, f.data, es, 0⟩] }) s

/-- The oldest transfer of each sender that waits for the cordonnet. -/
def busHeads (s : State) : List Xfer :=
  (List.range 9).filterMap fun h => s.net.xfers.find? fun f => decide (f.hoop = h)

/-- The transfer whose turn it is (R31): the controller's, else that of the next tap in the round. -/
def busTurn (s : State) : Option Xfer :=
  ((8 :: (List.range 8).map fun i => (s.net.lastTap + 1 + i) % 8).findSome? fun h =>
    (busHeads s).find? fun f => decide (f.hoop = h))

/-- The taps with a full buffer and an entry that matches a waiting transfer: they stop the cordonnet (R33). -/
def fullTaps (s : State) : List Nat :=
  (List.range 8).filter fun h => decide (256 ≤ (hoopAt s h).tapBuf.length) &&
    (busHeads s).any fun f => !(matching s h f.ctx f.tag).isEmpty

/-- CORDONNET_TRANSFER: the taps serve what they hold, then, where an n-th transfer waits, the one whose turn it is
reaches every tap, unless a tap's full buffer stops the cordonnet, which is counted there (R31 to R33). -/
def execCordonnetTransfer (n : Nat) (s : State) : Out :=
  ground (let s0 := drainTaps s
  match s0.net.xfers[n]?, busTurn s0 with
  | some _, some f =>
    if !(fullTaps s0).isEmpty then
      (fullTaps s0).foldl (fun s h => modHoop h (fun x => { x with tapStall := satAdd 48 x.tapStall 1 }) s) s0
    else
      let s1 := modNet (fun m => { m with xfers := eraseFirst (fun g => g.hoop = f.hoop) m.xfers
                                          lastTap := if f.hoop < 8 then f.hoop else m.lastTap }) s0
      drainTaps ((List.range 8).foldl (fun s h => tapTake f h s) s1)
  | _, _ => s0) s

end Sys2Proof.Machine
end

