-- ==== Sys2Proof/Machine/Trans.lean ====
section
/-! DEFINITION. Transcendental functions (R186, Table 05.12): the exact value to far more bits than any format has, and
a result that is any code within the bound. A real number is held as y × 2^-600. -/

namespace Sys2Proof.Machine

/-- π, ln 2 and 2 / √π in units of 2^-600. -/
def piFix : Nat :=
  0x3243f6a8885a308d313198a2e03707344a4093822299f31d0082efa98ec4e6c89452821e638d01377be5466cf34e90c6cc0ac29b7c97c50dd3f84d5b5b54709179216d5d98979fb1bd1310b
def ln2Fix : Nat :=
  0xb17217f7d1cf79abc9e3b39803f2f6af40f343267298b62d8a0d175b8baafa2be7b876206debac98559552fb4afa1b10ed2eae35c138214427573b291169b8253e96ca16224ae8c51acbda
def twoRootPiFix : Nat :=
  0x120dd750429b6d11ae3a914fed7fd8688281341d7587cea2e7342b06199cc416180eb39f0b24e1e2281806c12d98f35d77a3e9ddc91c394f0e9eedf0efffd84a2a4ac3b98489b8cbd3845e8

/-- One in units of 2^-600. -/
def oneFix : Nat := 2 ^ 600

/-- A product of two numbers in units of 2^-600. -/
def mulFix (a b : Nat) : Nat := (a * b) >>> 600

/-- m × 2^e in units of 2^-600. -/
def toFix (m : Nat) (e : Int) : Nat := if 0 ≤ e + 600 then m <<< (e + 600).toNat else m >>> (-(e + 600)).toNat

/-- The sum of a power series: term j is the last one times x / 2^600 × num j / den j. -/
def series (x : Nat) (num den : Nat → Nat) : Nat → Nat → Nat → Nat → Nat
  | 0, _, _, acc => acc
  | n + 1, j, term, acc =>
    let t := mulFix term x * num j / den j
    if t = 0 then acc else series x num den n (j + 1) t (acc + t)

/-- An alternating series: positive and negative parts. -/
def altSeries (x : Nat) (den : Nat → Nat) (wt : Nat → Nat) : Nat → Nat → Nat → Int → Int
  | 0, _, _, acc => acc
  | n + 1, j, term, acc =>
    let t := mulFix term x / den j
    if t = 0 then acc
    else
      let u : Int := (t / wt j : Nat)
      altSeries x den wt n (j + 1) t (if j % 2 = 1 then acc - u else acc + u)

/-- exp (r) for 0 ≤ r < 1. -/
def expFix (r : Nat) : Nat := series r (fun _ => 1) (fun j => j) 200 1 oneFix oneFix

/-- A positive real as y × 2^-600 × 2^k. -/
structure Real' where
  y : Nat
  k : Int

/-- exp of x = ± a, with a in units of 2^-600 below 2^12: as a mantissa in [1, 2) and an exponent. -/
def expReal (neg : Bool) (a : Nat) : Real' :=
  let x : Int := if neg then -(a : Int) else a
  let k := x / ln2Fix
  ⟨expFix (x - k * ln2Fix).toNat, k⟩

/-- 2^x of x = ± a. -/
def exp2Real (neg : Bool) (a : Nat) : Real' :=
  let x : Int := if neg then -(a : Int) else a
  let k := x / oneFix
  ⟨expFix (mulFix (x - k * oneFix).toNat ln2Fix), k⟩

/-- ln of m × 2^e as a signed number in units of 2^-600. -/
def lnFix (m : Nat) (e : Int) : Int :=
  let k0 := Nat.log2 m
  -- z in [1, 2), halved where it exceeds 3/2
  let z0 := toFix m (-(k0 : Int))
  let up := decide (oneFix * 3 / 2 < z0)
  let k : Int := e + k0 + (if up then 1 else 0)
  let d : Int := if up then (z0 : Int) - 2 * oneFix else (z0 : Int) - oneFix
  let s : Int := if up then (z0 : Int) + 2 * oneFix else (z0 : Int) + oneFix
  let u := d.natAbs * oneFix / s.toNat
  let u2 := mulFix u u
  -- 2 atanh (u) = 2 (u + u^3 / 3 + ...)
  let a := series u2 (fun j => 2 * j - 1) (fun j => 2 * j + 1) 400 1 u u
  k * ln2Fix + (if d < 0 then -(2 * a : Int) else 2 * a)

/-- sin and cos of r in [0, π / 2). -/
def sinFix (r : Nat) : Int := altSeries (mulFix r r) (fun j => 2 * j * (2 * j + 1)) (fun _ => 1) 300 1 r r
def cosFix (r : Nat) : Int := altSeries (mulFix r r) (fun j => (2 * j - 1) * (2 * j)) (fun _ => 1) 300 1 oneFix oneFix

/-- sin of a ≥ 0 (`shift` 0) or cos (`shift` 1), by the quadrant of a. -/
def trig (shift a : Nat) : Int :=
  let q := 2 * a / piFix
  let r := a - q * piFix / 2
  match (q + shift) % 4 with
  | 0 => sinFix r
  | 1 => cosFix r
  | 2 => -sinFix r
  | _ => -cosFix r

/-- erf of a in [0, 6]. -/
def erfFix (a : Nat) : Nat :=
  ((altSeries (mulFix a a) (fun j => j) (fun j => 2 * j + 1) 800 1 a a).toNat * twoRootPiFix) >>> 600

/-- The exact result of a function on a finite operand: sign, magnitude as y × 2^-600 × 2^k, whether it is exactly
representable; or a code class. -/
inductive TrVal where
  | zero (neg : Bool)
  | real (neg : Bool) (y : Nat) (k : Int) (exact : Bool)
  | inf (neg : Bool)
  | nan
deriving DecidableEq, Repr

def signedReal (x : Int) (exact : Bool) : TrVal := if x = 0 then .zero false else .real (decide (x < 0)) x.natAbs 0 exact

/-- The functions of class TRANS on an operand: result and the flags of Table 05.12. -/
def transVal (fn : Nat) (v : Val) : TrVal × Flags :=
  let tiny : TrVal := .real false 1 (-3000) false
  let huge : TrVal := .real false oneFix 3000 false
  match fn, v with
  | _, .nan s => (.nan, if s then fInvalid else 0)
  -- EXP2, EXP
  | 0, .zero _ | 2, .zero _ => (.real false oneFix 0 true, 0)
  | 0, .inf n | 2, .inf n => (if n then .zero false else .inf false, 0)
  | 0, .fin n m e =>
    if 12 < e + Nat.log2 m then (if n then tiny else huge, 0)
    else
      let r := exp2Real n (toFix m e)
      (.real false r.y r.k (decide (r.y = oneFix) && decide (toFix m e % oneFix = 0) && decide (0 ≤ e || m % 2 ^ (-e).toNat = 0)), 0)
  | 2, .fin n m e =>
    if 12 < e + Nat.log2 m then (if n then tiny else huge, 0)
    else
      let r := expReal n (toFix m e)
      (.real false r.y r.k false, 0)
  -- LOG2, LN
  | 1, .zero _ | 3, .zero _ => (.inf true, fDivzero)
  | 1, .inf n | 3, .inf n => (if n then .nan else .inf false, if n then fInvalid else 0)
  | 1, .fin true _ _ | 3, .fin true _ _ => (.nan, fInvalid)
  | 1, .fin false m e =>
    if isPow2 m then (signedReal ((e + Nat.log2 m) * oneFix) true, 0)
    else
      let l := lnFix m e
      (signedReal (if l < 0 then -((l.natAbs * oneFix / ln2Fix : Nat) : Int) else (l.natAbs * oneFix / ln2Fix : Nat)) false, 0)
  | 3, .fin false m e => (signedReal (lnFix m e) (decide (isPow2 m && e + Nat.log2 m = 0)), 0)
  -- RCP
  | 4, .zero n => (.inf n, fDivzero)
  | 4, .inf n => (.zero n, 0)
  | 4, .fin n m e =>
    let k := Nat.log2 m
    (.real n (oneFix * 2 ^ k / m) (-(e + k)) (isPow2 m), 0)
  -- RSQRT
  | 5, .zero n => (.inf n, fDivzero)
  | 5, .inf n => (if n then .nan else .zero false, if n then fInvalid else 0)
  | 5, .fin true _ _ => (.nan, fInvalid)
  | 5, .fin false m e =>
    let odd := decide (e % 2 ≠ 0)
    let m' := if odd then 2 * m else m
    let e' := if odd then e - 1 else e
    -- 2^600 / sqrt (m')
    (.real false (isqrt (2 ^ 1200 / m')) (-(e' / 2)) (decide (isqrt m' * isqrt m' = m') && isPow2 (isqrt m')), 0)
  -- SIN, COS
  | 6, .zero n => (.zero n, 0)
  | 7, .zero _ => (.real false oneFix 0 true, 0)
  | 6, .inf _ | 7, .inf _ => (.nan, fInvalid)
  | 6, .fin n m e =>
    let x := trig 0 (toFix m e)
    (signedReal (if n then -x else x) false, 0)
  | 7, .fin _ m e => (signedReal (trig 1 (toFix m e)) false, 0)
  -- TANH
  | 8, .zero n => (.zero n, 0)
  | 8, .inf n => (.real n oneFix 0 true, 0)
  | 8, .fin n m e =>
    if 6 < e + Nat.log2 m then (.real n (oneFix - 1) 0 false, 0)
    else
      let r := expReal false (2 * toFix m e)
      let ex := r.y <<< r.k.toNat
      (.real n ((ex - oneFix) * oneFix / (ex + oneFix)) 0 false, 0)
  -- SIGMOID
  | 9, .zero _ => (.real false oneFix (-1) true, 0)
  | 9, .inf n => (if n then .zero false else .real false oneFix 0 true, 0)
  | 9, .fin n m e =>
    if 8 < e + Nat.log2 m then (if n then tiny else .real false (oneFix - 1) 0 false, 0)
    else
      let r := expReal true (toFix m e)
      let ex := r.y >>> (-r.k).toNat
      -- exp (x) / (1 + exp (x)) keeps the exponent of exp (x)
      (.real false ((if n then r.y else oneFix) * oneFix / (oneFix + ex)) (if n then r.k else 0) false, 0)
  -- ERF
  | _, .zero n => (.zero n, 0)
  | _, .inf n => (.real n oneFix 0 true, 0)
  | _, .fin n m e =>
    if decide (6 * oneFix < toFix m e) || decide (12 < e + Nat.log2 m) then (.real n (oneFix - oneFix / 2 ^ 60) 0 false, 0)
    else (.real n (erfFix (toFix m e)) 0 false, 0)
  | _, .lns _ _ => (.nan, 0)

/-- The bound of Table 05.12 in ulp; SIN and COS beyond 2^16 have an absolute bound of 2^-22. -/
def transUlps (fn : Nat) : Nat :=
  match fn with
  | 0 | 1 | 4 | 5 => 1
  | 10 => 3
  | _ => 2

/-- Whether SIN or COS has its absolute bound on this operand. -/
def transWide (fn : Nat) (v : Val) : Bool :=
  (fn = 6 || fn = 7) && (match v with | .fin _ m e => decide (2 ^ 16 * oneFix < toFix m e) | _ => false)

/-- Whether a code lies within the bound about the real ± y × 2^-600 × 2^k: so many ulp of the format, or 2^-22. -/
def transNear (f : LinFmt) (ulps : Nat) (wide : Bool) (n : Bool) (y : Nat) (k : Int) (code : Nat) : Bool :=
  let emin : Int := 1 - (f.bias : Int)
  let ex : Int := k - 600 + Nat.log2 y
  let ulp : Int := (if ex < emin then emin else ex) - f.frac
  -- differences in units of 2^(ulp - 4000), which no code and no bound has a part of; a smaller real counts as one
  let scale (m : Nat) (e : Int) : Int :=
    let s := e - (ulp - 4000)
    if 0 ≤ s then (m <<< s.toNat : Nat) else (max 1 (m >>> (-s).toNat) : Nat)
  let bound := if wide then (scale 1 (-22)).natAbs else ulps * 2 ^ 4000
  let near (pn : Bool) (pm : Nat) (pe : Int) : Bool :=
    decide ((if pn = n then scale y (k - 600) - scale pm pe else scale y (k - 600) + scale pm pe).natAbs ≤ bound)
  match decLin f code with
  | .fin pn pm pe => near pn pm pe
  | .zero pn => near pn 0 ulp
  | _ => false

/-- The FP32 evaluation of a real (R186): a free code within the bound of Table 05.12, else the nearest. The special
operands of the table have the result that it gives. -/
def trans32 (fn : Nat) (v : Val) (n : Bool) (y : Nat) (k : Int) (pick : Nat) : Nat :=
  let special := match v with | .inf _ => true | _ => false
  let code := (roundLin fp32 ⟨0, 0⟩ false n y (k - 600)).1
  if !special && transNear fp32 (transUlps fn) (transWide fn v) n y k (pick % 2 ^ 32) then pick % 2 ^ 32 else code

/-- The flags of a result `code` for a real: none where it is exact, else INEXACT, with UNDERFLOW where it is tiny (R59,
R186). -/
def transFlags (f : LinFmt) (exact : Bool) (code : Nat) : Flags :=
  if exact then 0 else if fld code 0 (f.width - 1) < 2 ^ f.frac then fInexact + fUnderflow else fInexact

/-- A class-TRANS result in a format and its flags (R186): an FP32 result within its bound; a BF16 or FP16 result is that
FP32 value rounded once under RMODE, within 1 ulp. -/
def trans (f : LinFmt) (r : Rnd) (fn : Nat) (v : Val) (pick : Nat) : Nat × Flags :=
  let (t, fl) := transVal fn v
  match t with
  | .nan => (f.nanCode, fl)
  | .zero n => (withSign f n 0, fl)
  | .inf n => ((toLin f r false false (.inf n)).1, fl)
  | .real n y k exact =>
    if y = 0 then (withSign f n 0, fl ||| fInexact ||| fUnderflow)
    else
      -- the exact result rounded at once, with its flags
      let (code, rf) := roundLin f r false n y (k - 600)
      if rf &&& fOverflow ≠ 0 then (code, fl ||| rf)
      else
        let x := trans32 fn v n y k pick
        let c :=
          if f.width = 32 then x
          else
            let z := (toLin f r false false (decLin fp32 x)).1
            if transNear f 1 false n y k z then z else code
        (c, fl ||| transFlags f (exact && rf = 0 && decide (c = code)) c)

end Sys2Proof.Machine
end

