-- ==== Sys2Proof/Machine/VAlu.lean ====
section
/-! DEFINITION. The arithmetic of vector tiles: sources, activity, and the result of one operation descriptor by class
(R172 to R192). Registers are read and written as lists of element codes. -/

namespace Sys2Proof.Machine

/-! ## Elements (R156) -/

/-- Elements of width w that a register holds. -/
def laneN (w : Nat) : Nat := 512 / w

/-- The element codes of a register's 512 bytes. -/
def elemsOf (w x : Nat) : List Nat := (List.range (laneN w)).map fun e => fld x (8 * w * e) (8 * w)

/-- The number that element codes of width w spell, element 0 lowest. -/
def packElems (w : Nat) (xs : List Nat) : Nat := xs.foldr (fun x a => x % 2 ^ (8 * w) + 2 ^ (8 * w) * a) 0

/-- The bias of the strip that holds element e (R56, Table 05.1). -/
def stripBias (b : BitVec 64) (e : Nat) : Int := signed 8 (fld b.toNat (8 * (e / 64)) 8)

def vRegAt (v : VTile) (r : Nat) : VReg := Tab.get 0 v.regs r
def vBiasAt (v : VTile) (r : Nat) : BitVec 64 := Tab.get 0 v.bias r
def vScalAt (v : VTile) (x : Nat) : BitVec 32 := Tab.get 0 v.scalars x

/-- A predicate; P0 reads as all ones (Table 05.1). -/
def vPredAt (v : VTile) (p : Nat) : BitVec 512 := if p = 0 then BitVec.allOnes 512 else Tab.get 0 v.preds p

/-! ## Operation descriptors (Table 05.6) -/

def vdFunc (d : Nat) : Nat := fld d 0 6
def vdClass (d : Nat) : Nat := fld d 6 4
def vdFmt (d : Nat) : Nat := fld d 10 4
def vdSa (d : Nat) : Nat := fld d 14 6
def vdSb (d : Nat) : Nat := fld d 20 6
def vdSc (d : Nat) : Nat := fld d 26 6
def vdDst (d : Nat) : Nat := fld d 32 5
def vdPred (d : Nat) : Nat := fld d 37 3
def vdPdst (d : Nat) : Nat := fld d 40 3
def vdZm (d : Nat) : Bool := bitAt d 43
def vdRmode (d : Nat) : Nat := fld d 56 2
def vdSatf (d : Nat) : Bool := bitAt d 58
def vdAux (d : Nat) : Nat := fld d 59 4

/-- The source codes that an operation reads, by its class and function (Table 05.8); PRED names predicates. -/
def vdSources (d : Nat) : List Nat :=
  let fn := vdFunc d
  let one := [vdSa d]
  let two := [vdSa d, vdSb d]
  match vdClass d with
  | 0 => if fn ≤ 2 || fn = 6 || fn = 7 || fn = 0xB then two else if fn ≤ 5 then [vdSa d, vdSb d, vdSc d] else one
  | 3 => if fn = 2 then one else two
  | 4 => two
  | 5 => []
  | 7 => if fn = 3 then one else two
  | 9 => if fn < 0xE then two else one
  | 0xA => []
  | _ => one

/-- Whether an operation writes DST: CMP and PRED write a predicate, RED and EXTRACT a scalar, PRED's counts too. -/
def vdHasDst (d : Nat) : Bool :=
  !(vdClass d = 4 || vdClass d = 5 || vdClass d = 6 || (vdClass d = 7 && vdFunc d = 8))

/-- VL: immediate, or the scalar that CNT names. -/
def vdVl (v : VTile) (d : Nat) : Nat := if bitAt d 55 then (vScalAt v (fld d 44 4)).toNat else fld d 44 11

/-- Activity of n elements (R173). -/
def activity (v : VTile) (d n : Nat) : List Bool :=
  (List.range n).map fun e => decide (e < vdVl v d) && (vPredAt v (vdPred d)).getLsbD e

/-- A source operand: its element codes and the bias word of its blocks. -/
structure VSrc where
  codes : List Nat
  bias  : BitVec 64

/-- A source by its code (Table 05.7); `prev` is the previous stage's result in a chain. A source that is no register
has no bias word that the spec states: it is free. -/
def sourceAt (v : VTile) (prev : Option (VReg × BitVec 64)) (free w code : Nat) : Option VSrc :=
  let freeBias := Config.freeWord free
  if code < 32 then some ⟨elemsOf w (vRegAt v code).toNat, vBiasAt v code⟩
  else if code < 48 then
    some ⟨List.replicate (laneN w) (fld (vScalAt v (code - 32)).toNat 0 (8 * w)), freeBias⟩
  else if code = 48 then prev.map fun p => ⟨elemsOf w p.1.toNat, p.2⟩
  else if code = 49 then some ⟨List.replicate (laneN w) 0, freeBias⟩
  else if code = 50 then some ⟨(List.range (laneN w)).map fun e => e % 2 ^ (8 * w), freeBias⟩
  else none

/-- The values of a source's elements. -/
def srcVals (f : Fmt) (x : VSrc) : List Val := x.codes.zipIdx.map fun (c, e) => decode f (stripBias x.bias e) c

/-! ## Results -/

/-- What an operation writes: a register with its bias word, a predicate, a scalar, lane flags; the format of its result;
and whether it writes every byte of that bias word. -/
structure VOut where
  reg   : Option (Nat × VReg × BitVec 64) := none
  pred  : Option (Nat × BitVec 512) := none
  scal  : Option (Nat × BitVec 32) := none
  lanes : Nat := 0
  fmt   : Nat := 0
  whole : Bool := false

/-- The lane flags that elements of width w raise (R156, R183). -/
def laneMask (w : Nat) (fls : List Flags) : Nat :=
  fls.zipIdx.foldl (fun a (fl, e) => if fl = 0 then a else a ||| (fl <<< (6 * (e * w / 4)))) 0

/-- The OR of all lanes' flags. -/
def laneAny (m : Nat) : Flags := (List.range 128).foldl (fun a l => a ||| fld m (6 * l) 6) 0

/-- Destination elements of width w: element off + e receives result e where e is active, and the zero of the format
under ZM 1 where it is not; every other element is unchanged (R173). -/
def writeElems (f : Fmt) (w off : Nat) (zm : Bool) (act : List Bool) (res : List Nat) (old : VReg) : VReg :=
  let a := act.toArray
  let r := res.toArray
  BitVec.ofNat 4096 (packElems w ((elemsOf w old.toNat).zipIdx.map fun (o, j) =>
    if j < off || off + a.size ≤ j then o
    else if a.getD (j - off) false then r.getD (j - off) 0
    else if zm then zeroOf f else o))

/-- An LNS8 destination, block by block (R173, R57): `vals` from element off on. Bias word, codes and flags. -/
def writeBlocks (mode base off : Nat) (zm : Bool) (act : List Bool) (vals : List Val) (old : VReg) (oldBias : BitVec 64) :
    VReg × BitVec 64 × List Flags :=
  let a := act.toArray
  let v := vals.toArray
  let blocks := (List.range (a.size / 64)).map fun j =>
    let on := (List.range 64).map fun e => a.getD (64 * j + e) false
    if on.any id then
      some (encodeBlock mode (base + 64 * j) (on.zipIdx.map fun (x, e) => if x then v.getD (64 * j + e) (.zero false) else .zero false))
    else none
  let b := blocks.toArray
  let j0 := off / 64
  let codes := (elemsOf 1 old.toNat).zipIdx.map fun (o, e) =>
    if e / 64 < j0 || j0 + b.size ≤ e / 64 then o
    else
      match b.getD (e / 64 - j0) none with
      | some (_, cs) => (cs.getD (e % 64) (0x40, 0)).1
      | none => if zm then 0x40 else o
  let bias := (List.range 8).foldl (fun x j =>
    if j < j0 || j0 + b.size ≤ j then x
    else
      match b.getD (j - j0) none with
      | some (bi, _) => setFld x (8 * j) 8 (ofInt 8 bi)
      | none => x) oldBias.toNat
  (BitVec.ofNat 4096 (packElems 1 codes), BitVec.ofNat 64 bias,
    blocks.flatMap fun x => match x with | some (_, cs) => cs.map (·.2) | none => List.replicate 64 0)

/-- Whether each of the eight blocks of an LNS8 register has an active element, so that its whole BIAS word is written
(R173). -/
def wholeBias (act : List Bool) : Bool := (List.range 8).all fun j => ((act.drop (64 * j)).take 64).any id

/-- Flags of the active elements alone. -/
def actFlags (act : List Bool) (fls : List Flags) : List Flags := (act.zip fls).map fun (a, fl) => if a then fl else 0

/-- An operation whose results are codes of a format other than LNS8, or raw codes. -/
def outCodes (v : VTile) (d : Nat) (f : Fmt) (fmt w : Nat) (res : List (Nat × Flags)) : VOut :=
  let act := activity v d (laneN w)
  { reg := some (vdDst d, writeElems f w 0 (vdZm d) act (res.map (·.1)) (vRegAt v (vdDst d)), vBiasAt v (vdDst d))
    lanes := laneMask w (actFlags act (res.map (·.2))), fmt := fmt }

/-- An operation whose destination is LNS8; `quiet` raises no flag of its own (MOV, ABS, NEG). -/
def outBlocks (v : VTile) (d base : Nat) (quiet : Bool) (res : List (Val × Flags)) : VOut :=
  let act := activity v d 512
  let (r, b, fls) := writeBlocks (vdRmode d) base 0 (vdZm d) act (res.map (·.1)) (vRegAt v (vdDst d)) (vBiasAt v (vdDst d))
  { reg := some (vdDst d, r, b), whole := wholeBias act
    lanes := if quiet then 0 else laneMask 1 ((actFlags act (res.map (·.2))).zipWith (fun a b => a ||| b) fls), fmt := 1 }

/-! ## Classes -/

/-- The lesser or greater of two values with the order of R175; the other operand beside a NaN. -/
def minMax (isMax : Bool) (a b : Val) : Val :=
  match isNan a, isNan b with
  | true, true => .nan false
  | true, false => b
  | false, true => a
  | false, false => if (if isMax then ltVal a b else ltVal b a) then b else a

/-- MIN and MAX on codes: which operand's code is the result, or the canonical NaN. -/
def minMaxCode (isMax : Bool) (nanCode : Nat) (a b : Val) (ca cb : Nat) : Nat × Flags :=
  (match isNan a, isNan b with
    | true, true => nanCode
    | true, false => cb
    | false, true => ca
    | false, false => if (if isMax then ltVal a b else ltVal b a) then cb else ca,
   if isSnan a || isSnan b then fInvalid else 0)

/-- A linear ARITH function of R175 on one element. MOV copies the code and, as every class but ABS and NEG, raises INVALID
for a signalling NaN (R52). -/
def arithLin (f : LinFmt) (r : Rnd) (satf : Bool) (fn : Nat) (a b c : Val) (ca cb : Nat) : Nat × Flags :=
  match fn with
  | 0 => fadd f r satf a b
  | 1 => fadd f r satf a (negVal b)
  | 2 => fma f r satf a b none
  | 3 => fma f r satf a b (some c)
  | 4 => fma f r satf a b (some (negVal c))
  | 5 => fma f r satf (negVal a) b (some c)
  | 6 => minMaxCode false f.nanCode a b ca cb
  | 7 => minMaxCode true f.nanCode a b ca cb
  | 8 => (ca % 2 ^ (f.width - 1), 0)
  | 9 => (ca ^^^ 2 ^ (f.width - 1), 0)
  | 0xB => fdiv f r a b
  | 0xC => fsqrt f r a
  | _ => (ca, if isSnan a then fInvalid else 0)

/-- The sources of three codes, where the operation reads them. -/
def threeSources (v : VTile) (prev : Option (VReg × BitVec 64)) (d base w : Nat) (useB useC : Bool) :
    Option (VSrc × VSrc × VSrc) := do
  let a ← sourceAt v prev base w (vdSa d)
  let b ← if useB then sourceAt v prev (base + 1) w (vdSb d) else some a
  let c ← if useC then sourceAt v prev (base + 2) w (vdSc d) else some a
  return (a, b, c)

/-- Class ARITH (R174, R175, R187 to R189). -/
def aluArith (v : VTile) (prev : Option (VReg × BitVec 64)) (d base : Nat) : Except UndefCase VOut :=
  let fn := vdFunc d
  let fmt := vdFmt d
  let w := fmtBytes fmt
  let useB := decide (fn ≤ 7) || decide (fn = 0xB)
  let useC := decide (3 ≤ fn) && decide (fn ≤ 5)
  let moves := decide (6 ≤ fn) && decide (fn ≤ 0xA)
  if 0xC < fn then .error .vDescriptor
  else
    match fmtOf fmt, threeSources v prev d base w useB useC with
    | none, _ => .error .format
    | some (.int _), _ => .error .format
    | some _, none => .error .vDescriptor
    | some (.lin f), some (a, b, c) =>
      if 0xB ≤ fn && f.width = 8 then .error .format
      else
        let va := srcVals (.lin f) a
        let vb := srcVals (.lin f) b
        let vc := srcVals (.lin f) c
        let res := (List.range (laneN w)).zip (va.zip (vb.zip (vc.zip (a.codes.zip b.codes)))) |>.map
          fun (e, x, y, z, ca, cb) => arithLin f (randAt (vdRmode d) (base + 3) e) (vdSatf d) fn x y z ca cb
        .ok (outCodes v d (.lin f) fmt w res)
    | some .lns16, some (a, b, _) =>
      if !moves then .error .format
      else
        let res := ((srcVals .lns16 a).zip (srcVals .lns16 b)).zip (a.codes.zip b.codes) |>.map fun ((x, y), ca, cb) =>
          match fn with
          | 6 => minMaxCode false 0xC000 x y ca cb
          | 7 => minMaxCode true 0xC000 x y ca cb
          | 8 => (ca % 2 ^ 15, 0)
          | 9 => (ca ^^^ 2 ^ 15, 0)
          | _ => (ca, 0)
        .ok (outCodes v d .lns16 fmt w res)
    | some .lns8, some (a, b, _) =>
      if !moves then .error .format
      else
        let signOf (g : Nat → Nat) : List (Val × Flags) :=
          a.codes.zipIdx.map fun (ca, e) => (decLns8 (stripBias a.bias e) (g ca), 0)
        let res : List (Val × Flags) :=
          match fn with
          | 6 => ((srcVals .lns8 a).zip (srcVals .lns8 b)).map fun (x, y) => (minMax false x y, 0)
          | 7 => ((srcVals .lns8 a).zip (srcVals .lns8 b)).map fun (x, y) => (minMax true x y, 0)
          | 8 => signOf (fun ca => ca % 2 ^ 7)
          | 9 => signOf (fun ca => ca ^^^ 2 ^ 7)
          | _ => signOf id
        .ok (outBlocks v d (base + 3) (8 ≤ fn) res)

/-- The value that an element brings to an LNS8 block: an integer passes through FP32, rounded under RMODE (Table 02.7,
R66). -/
def blockVal (src : Fmt) (r : Rnd) (v : Val) : Val × Flags :=
  match src with
  | .int _ => let (c, fl) := toLin fp32 r false false v; (decLin fp32 c, fl)
  | _ => (v, 0)

/-- Class CONV (R176): an element index counts elements of the wider format. Under ZM 1 a narrowing CONV leaves the
destination elements outside PART's range as they are: R173 does not say whether they count as inactive, DESIGN CHOICE
(log entry 38). -/
def aluConv (v : VTile) (prev : Option (VReg × BitVec 64)) (d base : Nat) : Except UndefCase VOut :=
  let part := fld (vdFunc d) 0 2
  let ws := fmtBytes (vdFmt d)
  let wd := fmtBytes (vdAux d)
  let k := if wd < ws then ws / wd else wd / ws
  match fmtOf (vdFmt d), fmtOf (vdAux d) with
  | some sf, some df =>
    if 3 < vdFunc d || k ≤ part then .error .vDescriptor
    else
      match sourceAt v prev base ws (vdSa d) with
      | none => .error .vDescriptor
      | some a =>
        let n := min (laneN ws) (laneN wd)
        let act := activity v d n
        let off := if wd < ws then part * n else 0
        let from_ := if ws < wd then part * n else 0
        let old := vRegAt v (vdDst d)
        let oldB := vBiasAt v (vdDst d)
        let wide := max ws wd
        let codes := (a.codes.drop from_).take n
        if vdFmt d = vdAux d then
          let bias := if vdFmt d = 1 then (List.range 8).foldl (fun x j =>
              if ((act.drop (64 * j)).take 64).any id then setFld x (8 * j) 8 (fld a.bias.toNat (8 * j) 8) else x) oldB.toNat
            else oldB.toNat
          -- a copied LNS8 block whose elements are not all active is whole: the others become 0x40 (R173)
          let blk (e : Nat) : Bool := vdFmt d = 1 && ((act.drop (64 * (e / 64))).take 64).any id
          let cs := codes.zipIdx.map fun (c, e) => if act.getD e false then c else 0x40
          let on := act.zipIdx.map fun (x, e) => x || blk e
          .ok { reg := some (vdDst d, writeElems df wd 0 (vdZm d) on (if vdFmt d = 1 then cs else codes) old,
                  BitVec.ofNat 64 bias), fmt := vdAux d, whole := vdFmt d = 1 && wholeBias act }
        else
          let vals := ((srcVals sf a).drop from_).take n
          match df with
          | .lns8 =>
            let bv := vals.zipIdx.map fun (x, e) => blockVal sf (randNext (vdRmode d) (base + 1) e) x
            let (r, b, fls) := writeBlocks (vdRmode d) (base + 1) off (vdZm d) act (bv.map (·.1)) old oldB
            .ok { reg := some (vdDst d, r, b), whole := decide (off = 0) && wholeBias act
                  lanes := laneMask wide ((actFlags act (bv.map (·.2))).zipWith (fun x y => x ||| y) fls), fmt := 1 }
          | _ =>
            let res := vals.zipIdx.map fun (x, e) => convElem sf df (vdRmode d) (base + 1) e (vdSatf d) x
            .ok { reg := some (vdDst d, writeElems df wd off (vdZm d) act (res.map (·.1)) old, oldB)
                  lanes := laneMask wide (actFlags act (res.map (·.2))), fmt := vdAux d }
  | _, _ => .error .format

/-- Class TRANS (R186). -/
def aluTrans (v : VTile) (prev : Option (VReg × BitVec 64)) (d base : Nat) : Except UndefCase VOut :=
  let fmt := vdFmt d
  let w := fmtBytes fmt
  if 0xA < vdFunc d then .error .vDescriptor
  else
    match fmtOf fmt with
    | some (.lin f) =>
      if f.width = 8 then .error .format
      else
        match sourceAt v prev base w (vdSa d) with
        | none => .error .vDescriptor
        | some a =>
          let act := (activity v d (laneN w)).toArray
          let res := (srcVals (.lin f) a).zipIdx.map fun (x, e) =>
            if act.getD e false then
              trans f (randAt (vdRmode d) (base + 1) e) (vdFunc d) x (Config.freeWord (base + 1 + laneN w + e)).toNat
            else (0, 0)
          .ok (outCodes v d (.lin f) fmt w res)
    | _ => .error .format

/-- Class LNS (R175, R188, R190). -/
def aluLns (v : VTile) (prev : Option (VReg × BitVec 64)) (d base : Nat) : Except UndefCase VOut :=
  let fn := vdFunc d
  let fmt := vdFmt d
  let w := fmtBytes fmt
  if 4 < fn then .error .vDescriptor
  else if 1 < fmt then .error .format
  else
    let f : Fmt := if fmt = 0 then .lns16 else .lns8
    match threeSources v prev d base w (fn ≠ 2) false with
    | none => .error .vDescriptor
    | some (a, b, _) =>
      let res := ((srcVals f a).zip (srcVals f b)).zipIdx.map fun ((x, y), e) =>
        match fn with
        | 0 => lnsMul x y
        | 1 => lnsDiv x y
        | 2 => lnsSqrt x
        | 3 => lnsAdd (base + 3) e x y
        | _ => lnsAdd (base + 3) e x (negVal y)
      if fmt = 0 then
        let out := res.zipIdx.map fun ((x, fl), e) =>
          let (c, fl') := toLns16 (randAt (vdRmode d) (base + 515) e) false x
          (c, fl ||| fl')
        .ok (outCodes v d f fmt w out)
      else .ok (outBlocks v d (base + 515) false res)

/-- Whether a comparison holds (R177). -/
def cmpHolds (fn : Nat) (a b : Val) : Bool :=
  match cmpVal a b with
  | none => fn = 1 || fn = 6
  | some o =>
    match fn with
    | 0 => o = .eq
    | 1 => o ≠ .eq
    | 2 => o = .lt
    | 3 => o ≠ .gt
    | 4 => o = .gt
    | 5 => o ≠ .lt
    | _ => false

/-- Bits as a predicate. -/
def predOf (bs : List Bool) : BitVec 512 := BitVec.ofNat 512 (bs.foldr (fun b a => (if b then 1 else 0) + 2 * a) 0)

/-- Class CMP (R177). -/
def aluCmp (v : VTile) (d base : Nat) : Except UndefCase VOut :=
  let fmt := vdFmt d
  let w := fmtBytes fmt
  if 6 < vdFunc d then .error .vDescriptor
  else
    match fmtOf fmt, threeSources v none d base w true false with
    | none, _ => .error .format
    | some _, none => .error .vDescriptor
    | some f, some (a, b, _) =>
      let act := activity v d (laneN w)
      let prs := (srcVals f a).zip (srcVals f b)
      let old := vPredAt v (vdPdst d)
      let bits := (act.zip prs).zipIdx.map fun ((on, x, y), e) =>
        if on then cmpHolds (vdFunc d) x y else if vdZm d then false else old.getLsbD e
      .ok { pred := some (vdPdst d, predOf bits), fmt := fmt
            lanes := laneMask w (actFlags act (prs.map fun (x, y) => if isSnan x || isSnan y then fInvalid else 0)) }

/-- Class PRED, on all 512 bits (R177). -/
def aluPred (v : VTile) (d : Nat) : Except UndefCase VOut :=
  let a := vPredAt v (fld (vdSa d) 0 3)
  let b := vPredAt v (fld (vdSb d) 0 3)
  let bits := (List.range 512).filter fun e => a.getLsbD e
  match vdFunc d with
  | 0 => .ok { pred := some (vdPdst d, a &&& b) }
  | 1 => .ok { pred := some (vdPdst d, a ||| b) }
  | 2 => .ok { pred := some (vdPdst d, a ^^^ b) }
  | 3 => .ok { pred := some (vdPdst d, a &&& ~~~b) }
  | 4 => .ok { pred := some (vdPdst d, ~~~a) }
  | 5 => .ok { scal := some (vdAux d, BitVec.ofNat 32 bits.length) }
  | 6 => .ok { scal := some (vdAux d, match bits with | [] => 0xFFFFFFFF | e :: _ => BitVec.ofNat 32 e) }
  | _ => .error .vDescriptor

/-- Class RED (R179, Table 05.17). Which lane of LANE_FLAGS holds the flags of a reduction is left open: DESIGN CHOICE, that of
its first active element; so is an empty MAX or MIN of the formats that Table 05.17 does not name: DESIGN CHOICE, the
code of FP32 for BF16 and FP16 and that of INT32 for INT8 and INT16 (log entry 38). -/
def aluRed (v : VTile) (d base : Nat) : Except UndefCase VOut :=
  let fn := vdFunc d
  let fmt := vdFmt d
  let w := fmtBytes fmt
  let okFmt := decide (4 ≤ fmt) && decide (fmt ≤ 0xA) || (fmt = 0 && fn ≠ 0)
  match fmtOf fmt, sourceAt v none base w (vdSa d) with
  | none, _ => .error .format
  | some f, src =>
    if 4 < fn then .error .vDescriptor
    else if !okFmt then .error .format
    else
      match src with
      | none => .error .vDescriptor
      | some a =>
        let act := activity v d (laneN w)
        let xs := ((act.zip (srcVals f a)).zip a.codes).zipIdx.filterMap fun (((on, x), c), e) =>
          if on then some (x, c, e) else none
        let isInt := decide (8 ≤ fmt)
        let put (x : Nat) (fl : Flags) : Except UndefCase VOut :=
          .ok { scal := some (vdAux d, BitVec.ofNat 32 x), fmt := fmt
                lanes := laneMask w ((List.range (laneN w)).map fun e =>
                  if xs.head?.map (·.2.2) = some e then fl else 0) }
        if xs.isEmpty then
          put (match fn with
            | 0 => 0
            | 1 => if isInt then 0x80000000 else if fmt = 0 then 0xC000 else 0xFF800000
            | 2 => if isInt then 0x7FFFFFFF else if fmt = 0 then 0xC000 else 0x7F800000
            | _ => 0xFFFFFFFF) 0
        else if fn = 0 then
          if isInt then
            put (ofInt 32 (xs.foldl (fun s x => s + signed (8 * w) x.2.1) 0)) 0
          else
            let (c, fl) := floatSum (xs.map (·.1)) (base + 1)
            put c fl
        else
          let isMax := decide (fn = 1 ∨ fn = 3)
          let fl := if xs.any fun x => isSnan x.1 then fInvalid else 0
          let best := xs.foldl (fun b x =>
            match b with
            | none => if isNan x.1 then none else some x
            | some y => if isNan x.1 then b else if (if isMax then ltVal y.1 x.1 else ltVal x.1 y.1) then some x else b) none
          let nan := match f with | .lin g => g.nanCode | _ => 0xC000
          let first := (xs.head?.map (·.2.2)).getD 0
          if fn ≤ 2 then put ((best.map (·.2.1)).getD nan) fl
          else put ((best.map (·.2.2)).getD first) fl

/-- INVALID for a code that is a signalling NaN (R52). -/
def snanFlag (f : Fmt) (c : Nat) : Flags := if isSnan (decode f 0 c) then fInvalid else 0

/-- Class PERM (R177); an index at or above N has no stated result in BCAST and EXTRACT: it is free. An element that
takes a signalling NaN raises INVALID (R52). -/
def aluPerm (v : VTile) (d base : Nat) : Except UndefCase VOut :=
  let fn := vdFunc d
  let fmt := vdFmt d
  let w := fmtBytes fmt
  let useB := fn ≠ 3
  match fmtOf fmt, threeSources v none d base w useB false with
  | none, _ => .error .format
  | some f, src =>
    if 8 < fn then .error .vDescriptor
    else if fmt = 1 then .error .format
    else
      match src with
      | none => .error .vDescriptor
      | some (x, y, _) =>
        let n := laneN w
        let a := x.codes.toArray
        let b := y.codes.toArray
        let s := b.getD 0 0
        let free := (Config.freeWord (base + 3)).toNat % 2 ^ (8 * w)
        let took (x : Nat) : Nat × Flags := (x, snanFlag f x)
        let el (e : Nat) : Nat × Flags :=
          match fn with
          | 0 => let i := b.getD e 0; if n ≤ i then (0, 0) else took (a.getD i 0)
          | 1 => took (a.getD ((e + s) % n) 0)
          | 2 => if n ≤ s then (free, 0) else took (a.getD s 0)
          | 3 => took (a.getD (n - 1 - e) 0)
          | 4 => took (if e % 2 = 0 then a.getD (e / 2) 0 else b.getD (e / 2) 0)
          | 5 => took (if e % 2 = 0 then a.getD (e / 2 + n / 2) 0 else b.getD (e / 2 + n / 2) 0)
          | 6 => took (if e < n / 2 then a.getD (2 * e) 0 else b.getD (2 * (e - n / 2)) 0)
          | _ => took (if e < n / 2 then a.getD (2 * e + 1) 0 else b.getD (2 * (e - n / 2) + 1) 0)
        if fn = 8 then
          let (x, fl) := if n ≤ s then (free, 0) else took (a.getD s 0)
          .ok { scal := some (vdAux d, BitVec.ofNat 32 x), fmt := fmt
                lanes := laneMask w (actFlags (activity v d n) ((List.range n).map fun e => if e = s then fl else 0)) }
        else .ok (outCodes v d f fmt w ((List.range n).map el))

/-- Class CMPX (R177); an active element that is a signalling NaN raises INVALID (R52). -/
def aluCmpx (v : VTile) (d base : Nat) : Except UndefCase VOut :=
  let fmt := vdFmt d
  let w := fmtBytes fmt
  match fmtOf fmt, sourceAt v none base w (vdSa d) with
  | none, _ => .error .format
  | some f, src =>
    if 1 < vdFunc d then .error .vDescriptor
    else if fmt = 1 then .error .format
    else
      match src with
      | none => .error .vDescriptor
      | some x =>
        let act := activity v d (laneN w)
        let on := (List.range (laneN w)).filter fun e => act.getD e false
        let count : BitVec 32 := BitVec.ofNat 32 on.length
        let old := vRegAt v (vdDst d)
        let bias := vBiasAt v (vdDst d)
        if vdFunc d = 0 then
          let a := x.codes.toArray
          let taken := on.map fun e => a.getD e 0
          let r := writeElems f w 0 false (taken.map fun _ => true) taken old
          .ok { reg := some (vdDst d, r, bias), scal := some (vdAux d, count), fmt := fmt
                lanes := laneMask w (actFlags act (x.codes.map (snanFlag f))) }
        else
          let res := (act.foldl (fun (out, k) b => if b then (x.codes.getD k 0 :: out, k + 1) else (0 :: out, k)) ([], 0)).1.reverse
          .ok { reg := some (vdDst d, writeElems f w 0 (vdZm d) act res old, bias), scal := some (vdAux d, count), fmt := fmt
                lanes := laneMask w (actFlags act (res.map (snanFlag f))) }

/-- An integer function of R178 on elements of n bits. -/
def intElem (n fn a b : Nat) : Nat :=
  let sa := signed n a
  let sb := signed n b
  let sat (x : Int) : Nat := ofInt n (max (-(2 ^ (n - 1) : Int)) (min x (2 ^ (n - 1) - 1)))
  match fn with
  | 0x0 => (a + b) % 2 ^ n
  | 0x1 => ofInt n (sa - sb)
  | 0x2 => (a * b) % 2 ^ n
  | 0x3 => ofInt n (sa * sb / 2 ^ n)
  | 0x4 => sat (sa + sb)
  | 0x5 => sat (sa - sb)
  | 0x6 => if sb < sa then b else a
  | 0x7 => if sa < sb then b else a
  | 0x8 => (a <<< (b % n)) % 2 ^ n
  | 0x9 => a >>> (b % n)
  | 0xA => ofInt n (sa / 2 ^ (b % n))
  | 0xB => a &&& b
  | 0xC => a ||| b
  | 0xD => a ^^^ b
  | 0xE => 2 ^ n - 1 - a
  | 0xF => ((List.range n).filter (bitAt a)).length
  | _ => if a = 0 then n else n - 1 - Nat.log2 a

/-- Class INT (R178); AND, OR, XOR and NOT act on the raw bits of any code. With FMT LNS8 they merge raw codes and leave
the destination's BIAS word: R173 encodes an LNS8 destination by R57, which has no meaning for raw bits, DESIGN CHOICE
(log entry 38). -/
def aluInt (v : VTile) (prev : Option (VReg × BitVec 64)) (d base : Nat) : Except UndefCase VOut :=
  let fn := vdFunc d
  let fmt := vdFmt d
  let w := fmtBytes fmt
  let raw := decide (0xB ≤ fn) && decide (fn ≤ 0xE)
  match fmtOf fmt, threeSources v prev d base w (fn < 0xE) false with
  | none, _ => .error .format
  | some f, src =>
    if 0x10 < fn then .error .vDescriptor
    else if fmt < 8 && !raw then .error .format
    else
      match src with
      | none => .error .vDescriptor
      | some (a, b, _) =>
        .ok (outCodes v d f fmt w ((a.codes.zip b.codes).map fun (x, y) => (intElem (8 * w) fn x y, 0)))

/-- Class RAND (R180): two outputs of a lane's generator, whose sequence is no part of the interface (R62). -/
def aluRand (v : VTile) (d base : Nat) : Except UndefCase VOut :=
  let rnd (e : Nat) : Nat := (Config.freeWord (base + e)).toNat % 2 ^ 32
  match vdFunc d with
  | 0 => if vdFmt d ≠ 0xA then .error .format
    else .ok (outCodes v d (.int 32) 0xA 4 ((List.range 128).map fun e => (rnd e, 0)))
  | 1 => if vdFmt d ≠ 6 then .error .format
    else .ok (outCodes v d (.lin fp32) 6 4 ((List.range 128).map fun e =>
      (if rnd e / 256 = 0 then 0 else (roundLin fp32 ⟨0, 0⟩ false false (rnd e / 256) (-24)).1, 0)))
  | _ => .error .vDescriptor

/-- Free values that one operation may use. -/
def vFreeStep : Nat := 2048

/-- One operation descriptor evaluated on the tile's state; `prev` is the previous stage's result. -/
def aluRun (v : VTile) (prev : Option (VReg × BitVec 64)) (d base : Nat) : Except UndefCase VOut :=
  match vdClass d with
  | 0 => aluArith v prev d base
  | 1 => aluConv v prev d base
  | 2 => aluTrans v prev d base
  | 3 => aluLns v prev d base
  | 4 => aluCmp v d base
  | 5 => aluPred v d
  | 6 => aluRed v d base
  | 7 => aluPerm v d base
  | 8 => aluCmpx v d base
  | 9 => aluInt v prev d base
  | 0xA => aluRand v d base
  | _ => .error .vDescriptor

/-- The tile's state after an operation; writes to P0 are discarded (Table 05.1). A BIAS word that is uncorrectable stays so
until it has been written whole (R218, R220). -/
def vApply (o : VOut) (write : Bool) (v : VTile) : VTile :=
  let v1 := match o.reg with
    | some (r, x, b) => if write then { v with
        regs := Tab.set 0 v.regs r x, bias := Tab.set 0 v.bias r b
        biasBad := if o.whole then v.biasBad.filter (· ≠ r) else v.biasBad } else v
    | none => v
  let v2 := match o.pred with
    | some (p, x) => if p = 0 then v1 else { v1 with preds := Tab.set 0 v1.preds p x }
    | none => v1
  let v3 := match o.scal with
    | some (x, y) => { v2 with scalars := Tab.set 0 v2.scalars x y }
    | none => v2
  { v3 with laneFlags := v3.laneFlags ||| BitVec.ofNat 768 o.lanes, flags := v3.flags ||| BitVec.ofNat 6 (laneAny o.lanes) }

/-! ## Chains (R181, R182, Table 05.9) -/

def cdStages (d : Nat) : Nat := fld d 56 4
def cdStage (d k : Nat) : Nat := fld d (7 * k) 7
def cdWr (d k : Nat) : Bool := bitAt d (64 + k) || decide (k + 1 = cdStages d)

/-- The classes that may be stages. -/
def isStage (cls : Nat) : Bool := cls = 0 || cls = 1 || cls = 2 || cls = 3 || cls = 9 || cls = 0xA

/-- Whether a descriptor reads source T. -/
def readsT (d : Nat) : Bool := (vdSources d).contains 48

/-- The stages of a chain from the k-th on; `prev` holds the previous stage's result and its format. -/
def chainRun (t : Tile) (cd : Nat) : Nat → Nat → Option (VReg × BitVec 64 × Nat) → VTile → Nat → Nat →
    Except UndefCase (VTile × Nat)
  | 0, _, _, v, lanes, _ => .ok (v, lanes)
  | n + 1, k, prev, v, lanes, base =>
    let d := vdAt t (cdStage cd k)
    if !isStage (vdClass d) then .error .vDescriptor
    else if readsT d && (match prev with | none => true | some p => decide (p.2.2 ≠ vdFmt d)) then .error .vDescriptor
    else
      match aluRun v (prev.map fun p => (p.1, p.2.1)) d base with
      | .error u => .error u
      | .ok o =>
        let res := match o.reg with | some (_, x, b) => some (x, b, o.fmt) | none => none
        chainRun t cd n (k + 1) res (vApply o (cdWr cd k) v) (lanes ||| o.lanes) (base + vFreeStep)

end Sys2Proof.Machine
end

