-- ==== Sys2Proof/Machine/Rules.lean ====
section
/-! DEFINITION. The update rules of the sweep and their group descriptors (R343 to R347, Tables 10.5 and 10.6). -/

namespace Sys2Proof.Machine

/-! ## Group descriptors (Table 10.5) -/

def gdRule (g : Nat) : Nat := fld g 0 8
def gdNesterov (g : Nat) : Bool := bitAt g 8
def gdBiascorr (g : Nat) : Bool := bitAt g 9
def gdNfchk (g : Nat) : Bool := bitAt g 10
def gdMfmt (g : Nat) : Nat := fld g 11 4
def gdRmode (g : Nat) : Nat := fld g 15 2
def gdSatf (g : Nat) : Bool := bitAt g 17
def gdFirstm (g : Nat) : Bool := bitAt g 18
def gdLr (g : Nat) : Nat := fld g 64 32
def gdWd (g : Nat) : Nat := fld g 96 32
def gdBeta1 (g : Nat) : Nat := fld g 128 32
def gdBeta2 (g : Nat) : Nat := fld g 160 32
def gdEps (g : Nat) : Nat := fld g 192 32
def gdScale (g : Nat) : Nat := fld g 224 32
def gdClip (g : Nat) : Nat := fld g 256 32

/-- Slots of 4,096 elements that a rule keeps (Table 10.6). -/
def stateSlots (g : Nat) : Nat :=
  match gdRule g with
  | 0x02 => 1
  | 0x03 => 2
  | 0x04 => 1
  | 0x05 => if gdFirstm g then 1 else 0
  | 0x06 => 2
  | _ => 0

/-- S, the state bytes of a group's rule (Table 10.6). -/
def stateSize (g : Nat) : Nat := (if gdRule g = 5 then 512 else 0) + 4096 * fmtBytes (gdMfmt g) * stateSlots g

/-- A rule that may be used: not 0x00, not reserved (R337). -/
def ruleOk (g : Nat) : Bool := decide (1 ≤ gdRule g) && decide (gdRule g ≤ 7)

/-! ## FP32 expressions with their flags (R345) -/

/-- A value of an expression, its flags gathered on the way. -/
abbrev FM (α : Type) := StateM Flags α

def note (x : Nat × Flags) : FM Nat := fun fl => (x.1, fl ||| x.2)
def addM (a b : Nat) : FM Nat := note (add32 a b)
def subM (a b : Nat) : FM Nat := note (sub32 a b)
def mulM (a b : Nat) : FM Nat := note (mul32 a b)
def divM (a b : Nat) : FM Nat := note (div32 a b)
def sqrtM (a : Nat) : FM Nat := note (sqrt32 a)

/-- 1.0. -/
def one32 : Nat := 0x3F800000

/-- The sign of a value as ±1, with sign(±0) = 0. -/
def sign32 (x : Nat) : Nat :=
  match decLin fp32 x with
  | .zero _ => 0
  | .nan _ => 0x7FC00000
  | v => if isNeg v then 0xBF800000 else one32

/-- max(a, b) of FP32 codes; a NaN is kept. -/
def max32 (a b : Nat) : Nat :=
  if isNan (decLin fp32 a) then a else if isNan (decLin fp32 b) then b
  else if cmpVal (decLin fp32 a) (decLin fp32 b) = some .lt then b else a

/-- A sum in an order that is not fixed (R73), divided by n. -/
def meanM (xs : List Nat) (n : Nat) (base : Nat) : FM Nat := do
  let s ← note (floatSum (xs.map (decLin fp32)) base)
  let d ← note (toLin fp32 ⟨0, 0⟩ false false (.fin false n 0))
  divM s d

/-- What a rule works on for a block: group descriptor, η with its flags, B1, B2, φ, and a base of free values. -/
structure RuleEnv where
  g    : Nat
  eta  : Nat
  etaFlags : Flags
  b1   : Nat
  b2   : Nat
  phi  : Nat
  base : Nat
deriving DecidableEq, Repr

/-- η = LR × LR_SCALE (R344), with its flags. -/
def etaOf (g lr : Nat) : Nat × Flags := mul32 (gdLr g) lr

/-- AdamW's and LAMB's moments: m, v, m̂ / (√v̂ + ε). -/
def adam (e : RuleEnv) (grad m v : Nat) : FM (Nat × Nat × Nat) := do
  let nb1 ← subM one32 (gdBeta1 e.g)
  let nb2 ← subM one32 (gdBeta2 e.g)
  let m' ← addM (← mulM (gdBeta1 e.g) m) (← mulM nb1 grad)
  let v' ← addM (← mulM (gdBeta2 e.g) v) (← mulM nb2 (← mulM grad grad))
  let mh ← if gdBiascorr e.g then mulM m' e.b1 else pure m'
  let vh ← if gdBiascorr e.g then mulM v' e.b2 else pure v'
  let q ← divM mh (← addM (← sqrtM vh) (gdEps e.g))
  return (m', v', q)

/-- One parameter of a rule other than Adafactor: master and state slots (Table 10.6). -/
def ruleStep (e : RuleEnv) (w grad : Nat) (st : List Nat) : FM (Nat × List Nat) := do
  let g := e.g
  let gr ← mulM (gdScale g) grad
  let wd ← mulM (gdWd g) w
  match gdRule g with
  | 0x02 =>
    let m ← addM (← addM (← mulM (gdBeta1 g) (st.getD 0 0)) gr) wd
    if gdNesterov g then
      let u ← addM (← addM gr wd) (← mulM (gdBeta1 g) m)
      return (← subM w (← mulM e.eta u), [m])
    else return (← subM w (← mulM e.eta m), [m])
  | 0x03 =>
    let (m, v, q) ← adam e gr (st.getD 0 0) (st.getD 1 0)
    return (← subM w (← mulM e.eta (← addM q wd)), [m, v])
  | 0x04 =>
    let nb1 ← subM one32 (gdBeta1 g)
    let nb2 ← subM one32 (gdBeta2 g)
    let m := st.getD 0 0
    let c ← addM (← mulM (gdBeta1 g) m) (← mulM nb1 gr)
    let w' ← subM w (← mulM e.eta (← addM (sign32 c) wd))
    let m' ← addM (← mulM (gdBeta2 g) m) (← mulM nb2 gr)
    return (w', [m'])
  | 0x06 =>
    let (m, v, q0) ← adam e gr (st.getD 0 0) (st.getD 1 0)
    let q ← addM q0 wd
    return (← subM w (← mulM (← mulM e.eta e.phi) q), [m, v])
  -- SGD and DIRECT
  | _ => return (← subM w (← mulM e.eta (← addM gr wd)), [])

/-- q of LAMB for one parameter, for pass 1 (R346). -/
def lambQ (e : RuleEnv) (w grad : Nat) (st : List Nat) : FM Nat := do
  let gr ← mulM (gdScale e.g) grad
  let (_, _, q) ← adam e gr (st.getD 0 0) (st.getD 1 0)
  addM q (← mulM (gdWd e.g) w)

/-- Adafactor on a whole block: masters, factors r and c, and the moment slot (Table 10.6). -/
def adafactor (e : RuleEnv) (w grad r c m : List Nat) : FM (List Nat × List Nat × List Nat × List Nat) := do
  let g := e.g
  let gs ← grad.mapM fun x => mulM (gdScale g) x
  let sq ← gs.mapM fun x => do addM (← mulM x x) (gdEps g)
  let nb2 ← subM one32 (gdBeta2 g)
  let rows ← (List.range 64).mapM fun n => meanM ((sq.drop (64 * n)).take 64) 64 (e.base + 8192 + 64 * n)
  let cols ← (List.range 64).mapM fun k => meanM ((List.range 64).map fun n => sq.getD (64 * n + k) 0) 64 (e.base + 12288 + 64 * k)
  let r' ← (r.zip rows).mapM fun (a, b) => do addM (← mulM (gdBeta2 g) a) (← mulM nb2 b)
  let c' ← (c.zip cols).mapM fun (a, b) => do addM (← mulM (gdBeta2 g) a) (← mulM nb2 b)
  let mr ← meanM r' 64 (e.base + 24576)
  let u0 ← gs.zipIdx.mapM fun (x, j) => do
    let d ← divM (← mulM (r'.getD (j / 64) 0) (c'.getD (j % 64) 0)) mr
    divM x (← sqrtM d)
  let us ← u0.mapM fun x => mulM x x
  let rms ← sqrtM (← meanM us 4096 (e.base + 28672))
  let k := max32 one32 (← divM rms (gdClip g))
  let u1 ← u0.mapM fun x => divM x k
  let u ← if gdFirstm g then do
      let nb1 ← subM one32 (gdBeta1 g)
      (m.zip u1).mapM fun (a, b) => do addM (← mulM (gdBeta1 g) a) (← mulM nb1 b)
    else pure u1
  let w' ← (w.zip u).mapM fun (a, b) => do subM a (← mulM e.eta (← addM b (← mulM (gdWd g) a)))
  return (w', r', c', if gdFirstm g then u else [])

/-! ## Bias corrections (R345) -/

def binary64 : LinFmt := ⟨52, 1023, 0x7FEFFFFFFFFFFFFF, 0x7FF8000000000000, some 0x7FF0000000000000, 64⟩

/-- m × 2^e, of which at most 320 bits of m are kept, and whether none was dropped. -/
def trimBits (m : Nat) (e : Int) (exact : Bool) : Nat × Int × Bool :=
  if m < 2 ^ 320 then (m, e, exact)
  else
    let k := Nat.log2 m - 256
    (m >>> k, e + k, exact && decide (m % 2 ^ k = 0))

/-- (m × 2^e)^n by squarings; `fuel` bounds the bits of n. -/
def powBits : Nat → Nat → Int → Bool → Nat → Nat × Int × Bool
  | 0, _, _, exact, _ => (1, 0, exact)
  | fuel + 1, m, e, exact, n =>
    if n = 0 then (1, 0, exact)
    else
      let (m2, e2, x2) := trimBits (m * m) (2 * e) exact
      let (hm, he, hx) := powBits fuel m2 e2 x2 (n / 2)
      if n % 2 = 1 then trimBits (hm * m) (he + e) hx else (hm, he, hx)

/-- β^STEP in binary64. The spec does not state how the power is rounded: where it is no binary64 number a free value takes
the nearest one or a neighbour of it. -/
def powOf (beta step pick : Nat) : Nat :=
  let odd := decide (step % 2 = 1)
  let inf := 0x7FF0000000000000
  match decLin fp32 beta with
  | .fin neg m e =>
    let (pm, pe, exact) := powBits 65 m e true step
    let (near, fl) := roundLin binary64 ⟨0, 0⟩ false false pm pe
    let code := if exact && fl = 0 then near else if near = 0 then pick % 2 else min inf (near + pick % 3 - 1)
    withSign binary64 (neg && odd) code
  | .zero neg => if step = 0 then 0x3FF0000000000000 else withSign binary64 (neg && odd) 0
  | .inf neg => if step = 0 then 0x3FF0000000000000 else withSign binary64 (neg && odd) inf
  | _ => binary64.nanCode

/-- 1 / (1 − β^STEP) in binary64, rounded to FP32 (R345). -/
def biasCorr (beta step pick : Nat) : Nat :=
  let one := decLin binary64 0x3FF0000000000000
  let d := (fadd binary64 ⟨0, 0⟩ false one (negVal (decLin binary64 (powOf beta step pick)))).1
  let q := (fdiv binary64 ⟨0, 0⟩ one (decLin binary64 d)).1
  (toLin fp32 ⟨0, 0⟩ false false (decLin binary64 q)).1

/-! ## Working images (R333, R345) -/

/-- Which neighbour the engine's conversion tables give for an operand: a fixed function of it (R65, R345). An FP32 operand
stands as its code, an LNS16 one as its code above 2^32. -/
def engineUp (x : Nat) : Bool := Config.tableUp 1 x

/-- An FP32 value rounded to a format other than LNS8 by Table 02.7; under SR the draw is the k-th from a base. -/
def roundTo (f : Fmt) (rmode base k : Nat) (satf : Bool) (x : Nat) : Nat × Flags :=
  match f with
  | .lns16 => toLns16 (randAt rmode base k) (engineUp x) (decLin fp32 x)
  | .lin g => toLin g (randAt rmode base k) satf false (decLin fp32 x)
  | _ => (0, 0)

/-- A strip of values encoded as an LNS8 block (R57): bias and codes. -/
def roundBlock (rmode base : Nat) (xs : List Nat) : Int × List (Nat × Flags) :=
  let (b, low) := blockBias (xs.map (decLin fp32))
  (b, xs.zipIdx.map fun (x, k) => encLns8 (randAt rmode base k) (engineUp x) b low (decLin fp32 x))

/-- Bytes of the elements and, for LNS8, of the biases of a new image, laid over the old one, whose index words stay. -/
def imageOf (wfmt : Nat) (sp24 : Bool) (rmode : Nat) (satf : Bool) (base : Nat) (masters : List Nat) (old : List Byte) :
    List Byte × Flags :=
  if wfmt = 1 then
    let per := if sp24 then 32 else 64
    let blocks := (List.range (4096 / per)).map fun b => roundBlock rmode (base + 64 * b) ((masters.drop (per * b)).take per)
    let codes := blocks.flatMap fun b => b.2.map fun x => BitVec.ofNat 8 x.1
    let biases := blocks.map fun b => BitVec.ofNat 8 (ofInt 8 b.1)
    let fl := blocks.foldl (fun a b => b.2.foldl (fun a x => a ||| x.2) a) 0
    let at_ := if sp24 then 5120 else 4096
    (codes ++ (old.drop 4096).take (at_ - 4096) ++ biases ++ old.drop (at_ + biases.length), fl)
  else
    match fmtOf wfmt with
    | none => (old, 0)
    | some f =>
      let w := fmtBytes wfmt
      let ys := masters.zipIdx.map fun (x, k) => roundTo f rmode base k satf x
      (ys.flatMap (fun y => toLE w y.1) ++ old.drop (4096 * w), ys.foldl (fun a y => a ||| y.2) 0)

/-- An element of a state slot as FP32 (R345). -/
def widen (mfmt x : Nat) : Nat × Flags :=
  match fmtOf mfmt with
  | none => (0, 0)
  | some f => if mfmt = 6 then (x, 0) else toLin fp32 ⟨0, 0⟩ false (engineUp (2 ^ 32 + x)) (decode f 0 x)

/-- A state slot read as FP32, with the flags of its conversions, and FP32 results as MFMT (R345, R347). -/
def slotIn (mfmt : Nat) (bs : List Byte) : List Nat × Flags :=
  let w := fmtBytes mfmt
  let ys := (List.range (bs.length / w)).map fun k => widen mfmt (leNat ((bs.drop (w * k)).take w))
  (ys.map (·.1), ys.foldl (fun a y => a ||| y.2) 0)

def slotOut (mfmt rmode base : Nat) (xs : List Nat) : List Byte × Flags :=
  match fmtOf mfmt with
  | none => ([], 0)
  | some f =>
    let ys := xs.zipIdx.map fun (x, k) => if mfmt = 6 then (x, 0) else roundTo f rmode base k false x
    (ys.flatMap (fun y => toLE (fmtBytes mfmt) y.1), ys.foldl (fun a y => a ||| y.2) 0)

/-- FP32 codes of bytes, and bytes of FP32 codes. -/
def words32 (bs : List Byte) : List Nat := (List.range (bs.length / 4)).map fun k => leNat ((bs.drop (4 * k)).take 4)
def bytes32 (xs : List Nat) : List Byte := xs.flatMap (toLE 4)

/-- A block's evaluation: new masters, new state bytes, flags (R344, R345, R347). -/
def evalBlock (e : RuleEnv) (grad master : List Nat) (state : List Byte) : List Nat × List Byte × Flags :=
  let g := e.g
  let slot := 4096 * fmtBytes (gdMfmt g)
  let finish (w : List Nat) (fl : Flags) : Flags :=
    if gdNfchk g && w.any (fun x => match decLin fp32 x with | .nan _ => true | .inf _ => true | _ => false) then
      fl ||| fInvalid
    else fl
  if gdRule g = 5 then
    let r := words32 (state.take 256)
    let c := words32 ((state.drop 256).take 256)
    let (m, fl1) := slotIn (gdMfmt g) ((state.drop 512).take slot)
    let ((w, r', c', m'), fl) := adafactor e master grad r c m (e.etaFlags ||| fl1)
    let (mb, fl2) := slotOut (gdMfmt g) (gdRmode g) (e.base + 16384) m'
    (w, bytes32 r' ++ bytes32 c' ++ mb, finish w (fl ||| fl2))
  else
    let n := stateSlots g
    let ins := (List.range n).map fun k => slotIn (gdMfmt g) ((state.drop (slot * k)).take slot)
    let outs := (List.range 4096).map fun j =>
      ruleStep e (master.getD j 0) (grad.getD j 0) (ins.map fun s => s.1.getD j 0) 0
    let w := outs.map fun o => o.1.1
    let fl := outs.foldl (fun a o => a ||| o.2) (ins.foldl (fun a s => a ||| s.2) e.etaFlags)
    let slots := (List.range n).map fun k =>
      slotOut (gdMfmt g) (gdRmode g) (e.base + 16384 + 4096 * k) (outs.map fun o => o.1.2.getD k 0)
    (w, slots.flatMap (·.1), finish w (slots.foldl (fun a s => a ||| s.2) fl))

/-- The squared norms of w and q over a block, for LAMB's pass 1, with the flags of the squares and their sums (R346). -/
def lambNorms (e : RuleEnv) (grad master : List Nat) (state : List Byte) : Nat × Nat × Flags :=
  let slot := 4096 * fmtBytes (gdMfmt e.g)
  let ins := (List.range 2).map fun k => (slotIn (gdMfmt e.g) ((state.drop (slot * k)).take slot)).1
  let qs := (List.range 4096).map fun j => (lambQ e (master.getD j 0) (grad.getD j 0) (ins.map fun s => s.getD j 0) 0).1
  let sq (xs : List Nat) (k : Nat) : Nat × Flags :=
    let ys := xs.map fun x => mul32 x x
    let (t, fl) := floatSum (ys.map fun y => decLin fp32 y.1) (e.base + 8192 + 4096 * k)
    (t, ys.foldl (fun a y => a ||| y.2) fl)
  let (w2, fw) := sq master 0
  let (q2, fq) := sq qs 1
  (w2, q2, fw ||| fq)

/-- φ of LAMB from the summed squares (R346). -/
def lambPhi (w2 q2 : Nat) : Nat :=
  let w := (sqrt32 w2).1
  let q := (sqrt32 q2).1
  let zero (x : Nat) : Bool := match decLin fp32 x with | .zero _ => true | _ => false
  if zero w || zero q then one32 else (div32 w q).1

end Sys2Proof.Machine
end

