-- ==== Sys2Proof/Machine/VTile.lean ====
section
/-! DEFINITION. Vector tiles: issue unit, load-store unit, mover, queue unit and scalar unit (R156 to R193). An operation
acts whole when its unit accepts it; a queue operation moves one token position per command, the mover one line. -/

namespace Sys2Proof.Machine

def modV (k : Nat) (f : VTile → VTile) (s : State) : State := modTile k (fun t => { t with v := f t.v }) s

/-! ## Issue unit -/

/-- Registers that a descriptor reads, and the one it writes (R161). -/
def vdReads (d : Nat) : List Nat := (vdSources d).filter (· < 32)

def vdWrites (d : Nat) : List Nat := if vdHasDst d then [vdDst d] else []

/-- Whether a queue operation in progress still has to write or read a register that this one uses (R161). -/
def vHeld (v : VTile) (reads writes : List Nat) : Bool :=
  (v.qin.map fun q => reads.contains q.reg || writes.contains q.reg).getD false ||
  (v.qout.map fun q => writes.contains q.reg).getD false

/-- The flags of an operation or chain reach the context after its results (R183, R184). -/
def vDone (k c : Nat) (lanes : Nat) (s : State) : State := ctxFlags c (laneAny lanes) (tileItem s k) s

/-- Whether an operation on LNS8 reads a BIAS side word that is uncorrectable (R218). -/
def vdBiasUe (v : VTile) (d : Nat) : Bool := decide (vdFmt d = 1) && (vdReads d).any v.biasBad.contains

/-- A VOP of the classes that `is` accepts (R172 to R174). -/
def vop (is : Nat → Bool) (site : Site) (s : State) : Out :=
  let t0 := tileAt s (siteNo site)
  let vd (st : Stp) : Nat := vdAt t0 (fld st.args 0 7)
  ground (tileStep site .V (fun st => decide (st.opc = 1) && is (vdClass (vd st))) (fun k c st s =>
    let t := tileAt s k
    let d := vd st
    if t.seq.issued || vHeld t.v (vdReads d) (vdWrites d) then issue .V k c st false id s
    else if vdBiasUe t.v d then faultAt c .eccUe (tileItem s k) s
    else
      match aluRun t.v none d s.free with
      | .error u => undef u c s
      | .ok o =>
        issue .V k c st true (fun s =>
          vDone k c o.lanes (useFree vFreeStep (modV k (fun v =>
            { vApply o true v with ops := satAdd 32 v.ops 1 }) s))) s) s) s

/-- VOP of class ARITH; a reserved class is undefined (R174). -/
def execVopArith (site : Site) (s : State) : Out := vop (fun cl => decide (cl = 0) || decide (0xA < cl)) site s

/-- VOP of class CONV (R176). -/
def execVopConv (site : Site) (s : State) : Out := vop (fun cl => decide (cl = 1)) site s

/-- VOP of class TRANS (R186). -/
def execVopTrans (site : Site) (s : State) : Out := vop (fun cl => decide (cl = 2)) site s

/-- VOP of class LNS (R190). -/
def execVopLns (site : Site) (s : State) : Out := vop (fun cl => decide (cl = 3)) site s

/-- VOP of class CMP (R177). -/
def execVopCmp (site : Site) (s : State) : Out := vop (fun cl => decide (cl = 4)) site s

/-- VOP of class PRED (R177). -/
def execVopPred (site : Site) (s : State) : Out := vop (fun cl => decide (cl = 5)) site s

/-- VOP of class RED (R179). -/
def execVopRed (site : Site) (s : State) : Out := vop (fun cl => decide (cl = 6)) site s

/-- VOP of class PERM (R177). -/
def execVopPerm (site : Site) (s : State) : Out := vop (fun cl => decide (cl = 7)) site s

/-- VOP of class CMPX (R177). -/
def execVopCmpx (site : Site) (s : State) : Out := vop (fun cl => decide (cl = 8)) site s

/-- VOP of class INT (R178). -/
def execVopInt (site : Site) (s : State) : Out := vop (fun cl => decide (cl = 9)) site s

/-- VOP of class RAND (R180). -/
def execVopRand (site : Site) (s : State) : Out := vop (fun cl => decide (cl = 0xA)) site s

/-- The registers that a chain reads and writes. -/
def chainRegs (t : Tile) (cd : Nat) : List Nat × List Nat :=
  if cdStages cd = 0 then ([fld cd 72 5], [fld cd 77 5])
  else
    let ks := List.range (cdStages cd)
    (ks.flatMap fun k => vdReads (vdAt t (cdStage cd k)), (ks.filter (cdWr cd)).map fun k => vdDst (vdAt t (cdStage cd k)))

/-- Whether a chain reads a BIAS side word that is uncorrectable (R218). -/
def chainBiasUe (t : Tile) (cd : Nat) : Bool :=
  if cdStages cd = 0 then t.v.biasBad.contains (fld cd 72 5)
  else (List.range (cdStages cd)).any fun k => vdBiasUe t.v (vdAt t (cdStage cd k))

/-- CHAIN: fused stages, or the copy of NSTAGE 0 (R181, R182). -/
def execChain (site : Site) (s : State) : Out :=
  ground (tileStep site .V (fun st => st.opc = 2) (fun k c st s =>
    let t := tileAt s k
    let cd := cdAt t (fld st.args 0 4)
    let (rd, wr) := chainRegs t cd
    if t.seq.issued || vHeld t.v rd wr then issue .V k c st false id s
    else if 8 < cdStages cd then undef .vDescriptor c s
    else if chainBiasUe t cd then faultAt c .eccUe (tileItem s k) s
    else if cdStages cd = 0 then
      issue .V k c st true (modV k (fun v => { v with
        regs := Tab.set 0 v.regs (fld cd 77 5) (vRegAt v (fld cd 72 5))
        bias := Tab.set 0 v.bias (fld cd 77 5) (vBiasAt v (fld cd 72 5))
        biasBad := v.biasBad.filter (· ≠ fld cd 77 5)
        ops := satAdd 32 v.ops 1 })) s
    else
      match chainRun t cd (cdStages cd) 0 none t.v 0 s.free with
      | .error u => undef u c s
      | .ok (v, lanes) =>
        issue .V k c st true (fun s => vDone k c lanes
          (useFree (8 * vFreeStep) (modV k (fun _ => { v with ops := satAdd 32 v.ops 1 }) s))) s) s) s

/-! ## Load-store unit and mover (R163 to R168, Table 05.3) -/

def mdAbase (d : Nat) : Nat := fld d 0 14
def mdAinc (d : Nat) : Nat := fld d 14 14
def mdCline (d : Nat) : Nat := fld d 28 9
def mdCinc (d : Nat) : Nat := fld d 37 9
def mdNlines (d : Nat) : Nat := fld d 46 10
def mdSpace (d : Nat) : Bool := bitAt d 56
def mdMask (d : Nat) : Bool := bitAt d 57
def mdBias (d : Nat) : Bool := bitAt d 58
def mdFmt (d : Nat) : Nat := fld d 59 4
def mdAmask (d : Nat) : Nat := fld d 64 14
def mdAbias (d : Nat) : Nat := fld d 78 14
def mdMbit0 (d : Nat) : Nat := fld d 92 10
def mdMinc (d : Nat) : Nat := fld d 102 10

/-- Strips of 512 B: 8, 4 or 2 (Table 05.3). -/
def mdStrips (d : Nat) : Nat := 8 / fmtBytes (mdFmt d)

/-- The A-tile neighbour of a V tile: C6 for C7, C12 for C13, C19 for C18, C25 for C24 (R159). -/
def vNeighbour (k : Nat) : Nat := if noCol k = 7 || noCol k = 13 then k - 16 else k + 16

/-- A wide-port access of a V tile: its address, or what stops it (R159, R163, R168). -/
def vWide (s : State) (c k off n : Nat) (read : Bool) : Except Stop Nat :=
  match wideAt s c (vNeighbour k) off n read with
  | .at_ pa => .ok pa
  | .bound a n => .error (.fault .bound (.access 1 a n))
  | .banks => .error (.undef .vAccess)
  | .sync => .error (.undef .syncWord)
  | .ue pa => .error (.fault .eccUe (.word pa))

/-- Every A-tile place of an operation lies within the context's bound: checked before any byte moves (R163). -/
def vBounds (s : State) (c k : Nat) (xs : List (Nat × Nat)) : Except Stop Unit :=
  match xs.find? fun x => (asAddr s c (vNeighbour k) x.1 x.2).isNone with
  | some x => .error (.fault .bound (.access 1 x.1 x.2))
  | none => .ok ()

/-- A read of a cache line or a BIAS side word that is uncorrectable (R168, R218). -/
def vLineUe (s : State) (k pa key : Nat) : Except Stop Unit :=
  match ueAt s pa 512 with
  | some w => .error (.fault .eccUe (.word w))
  | none => if (tileAt s k).v.biasBad.contains key then .error (.fault .eccUe .none) else .ok ()

/-- A cache line's address; a line above 511 is undefined (R163). -/
def lineAt (k line : Nat) : Except Stop Nat := if 511 < line then .error (.undef .vAccess) else .ok (ocBase k + 512 * line)

/-- The A-tile places of a VLD or VST with SPACE 1: the data, the mask words, the bias bytes (R165, R166). -/
def vldPlaces (d i : Nat) : List (Nat × Nat) :=
  let b := mdMbit0 d + i * mdMinc d
  [((mdAbase d + i * mdAinc d) * 64, 512)] ++
    (if mdMask d then (List.range (mdStrips d)).map fun j => (maskWord (mdAmask d) (b + j), 8) else []) ++
    (if mdBias d then [(mdAbias d * 64 + b, 8)] else [])

/-- The A-tile places of lines n on of a CLOAD or CEVICT (R167). With EFMT of 16 or 32 bits a line has 4 or 2 strips, and
BIASEN still moves the 8 bytes of its BIAS word: R167 states no other count, DESIGN CHOICE (log entry 38). -/
def moverPlaces (d i n : Nat) : List (Nat × Nat) :=
  let m := mdNlines d - n
  [((mdAbase d + i * mdAinc d) * 64 + 512 * n, 512 * m)] ++
    (if mdBias d then (List.range m).map fun l => (mdAbias d * 64 + mdMbit0 d + i * mdMinc d + (n + l) * mdStrips d, 8) else [])

def overlaps (xs ys : List (Nat × Nat)) : Bool :=
  xs.any fun x => ys.any fun y => decide (x.1 < y.1 + y.2) && decide (y.1 < x.1 + x.2)

/-- Whether the mover still has to write what this operation reads or writes, or to read what it writes (R161): a cache
line or A-tile bytes. -/
def moverHeld (t : Tile) (lines places : List (Nat × Nat)) (writes : Bool) : Bool :=
  match t.v.mover with
  | none => false
  | some o =>
    let d := mdAt t o.md
    let left := [(mdCline d + o.i * mdCinc d + o.n, mdNlines d - o.n)]
    ((o.load || writes) && overlaps lines left) || ((!o.load || writes) && overlaps places (moverPlaces d o.i o.n))

/-- The register and bias word that a VLD brings, with the A-tile places it reads (R165, R166). With SPACE 1 and BIASEN 0
nothing is stated of the BIAS word: DESIGN CHOICE, it keeps its bytes but those of strips whose bit is 0 (log entry 38).
Third, whether the whole BIAS word is written. -/
def vldRead (s : State) (c k d i : Nat) (old : BitVec 64) : Except Stop (Nat × Nat × Bool × List (Bool × Nat × Nat)) := do
  if !mdSpace d then
    let line := mdCline d + i * mdCinc d
    let pa ← lineAt k line
    let _ ← vLineUe s k pa (32 + line)
    return (peekNum s pa 512, (Tab.get 0 (tileAt s k).v.lineBias line).toNat, true, [])
  else
    let off := (mdAbase d + i * mdAinc d) * 64
    let b := mdMbit0 d + i * mdMinc d
    let sN := mdStrips d
    let w := fmtBytes (mdFmt d)
    let z := zeroOf ((fmtOf (mdFmt d)).getD .lns16)
    let _ ← vBounds s c k (vldPlaces d i)
    let bits ← (List.range sN).mapM fun j => do
      if mdMask d then
        let pm ← vWide s c k (maskWord (mdAmask d) (b + j)) 8 true
        return (bitAt (peekNum s pm 8) ((b + j) % 64), [(false, pm + (b + j) % 64 / 8, 1)])
      else return (true, [])
    let seen := bits.flatMap (·.2)
    if bits.all fun x => !x.1 then
      return (packElems w (List.replicate (laneN w) z), 0, true, seen)
    else
      let strips ← (bits.zipIdx).mapM fun (x, j) => do
        if x.1 then
          let pa ← vWide s c k (off + 64 * w * j) (64 * w) true
          return (peekNum s pa (64 * w), [(false, pa, 64 * w)])
        else return (packElems w (List.replicate 64 z), [])
      let reg := strips.foldr (fun x a => x.1 + 2 ^ (512 * w) * a) 0
      let (bias, ba) ← if mdBias d then do
          let pb ← vWide s c k (mdAbias d * 64 + b) 8 true
          pure (peekNum s pb 8, [(false, pb, 8)])
        else pure (old.toNat, [])
      let bias' := bits.zipIdx.foldl (fun a (x, j) => if x.1 then a else setFld a (8 * j) 8 0) bias
      return (reg, bias', mdBias d, seen ++ strips.flatMap (·.2) ++ ba)

/-- A VLD or VST on descriptor MD, once nothing holds it. -/
def vMemStep (opc : Nat) (regs : Nat → List Nat × List Nat) (act : Nat → Nat → Stp → Nat → Nat → State → State)
    (site : Site) (s : State) : Out :=
  ground (tileStep site .V (fun st => st.opc = opc) (fun k c st s =>
    let t := tileAt s k
    let d := mdAt t (fld st.args 0 4)
    let i := iterIdx t st (bitAt st.args 9)
    let (rd, wr) := regs (fld st.args 4 5)
    let line := mdCline d + i * mdCinc d
    let busy := moverHeld t (if mdSpace d then [] else [(line, 1)]) (if mdSpace d then vldPlaces d i else []) (opc = 4)
    if t.seq.issued || vHeld t.v rd wr || busy then issue .V k c st false id s
    -- a parity error in a queue that the step names stops it before anything moves
    else if (bitsOf 16 st.inq).any fun q => decide (headOf t q = .parity) then issue .V k c st true id s
    else if (fmtOf (mdFmt d)).isNone then undef .format c s
    else act k c st d i s) s) s

/-- VLD: a register from a cache line or from the A tile (R165, R166). -/
def execVld (site : Site) (s : State) : Out :=
  vMemStep 3 (fun r => ([], [r])) (fun k c st d i s =>
    let t := tileAt s k
    let r := fld st.args 4 5
    match vldRead s c k d i (vBiasAt t.v r) with
    | .error e => e.out c (tileItem s k) s
    | .ok (x, b, whole, acc) =>
      guardedAll c (tileItem s k) (agentCode k 0 1) t.vc t.epoch acc (issue .V k c st true (modV k (fun v => { v with
        regs := Tab.set 0 v.regs r (BitVec.ofNat 4096 x), bias := Tab.set 0 v.bias r (BitVec.ofNat 64 b)
        biasBad := if whole then v.biasBad.filter (· ≠ r) else v.biasBad }))) s) site s

/-- The places that a VST to the A tile writes: mask bits, strips and bias bytes, in that order (R165, R166, R147). -/
def vstPlan (s : State) (c k d i : Nat) (x b : Nat) :
    Except Stop (List (Nat × Nat × Bool) × List (Nat × List Byte)) := do
  let off := (mdAbase d + i * mdAinc d) * 64
  let b0 := mdMbit0 d + i * mdMinc d
  let w := fmtBytes (mdFmt d)
  let f := (fmtOf (mdFmt d)).getD .lns16
  let _ ← vBounds s c k (vldPlaces d i)
  let strips ← (List.range (mdStrips d)).mapM fun j => do
    let n := fld x (512 * w * j) (512 * w)
    let bit := !mdMask d || (List.range 64).any fun e => !isZeroCode f (fld n (8 * w * e) (8 * w))
    let m ← if mdMask d then do
        let pm ← vWide s c k (maskWord (mdAmask d) (b0 + j)) 8 true
        pure [(pm, b0 + j, bit)]
      else pure []
    let wr ← if bit then do
        let pa ← vWide s c k (off + 64 * w * j) (64 * w) false
        pure [(pa, toLE (64 * w) n)]
      else pure []
    return (m, wr)
  let bias ← if mdBias d then do
      let pb ← vWide s c k (mdAbias d * 64 + b0) 8 false
      pure [(pb, toLE 8 b)]
    else pure []
  return (strips.flatMap (·.1), strips.flatMap (·.2) ++ bias)

/-- VST: a register to a cache line or to the A tile (R165, R166). -/
def execVst (site : Site) (s : State) : Out :=
  vMemStep 4 (fun r => ([r], [])) (fun k c st d i s =>
    let t := tileAt s k
    let r := fld st.args 4 5
    let x := (vRegAt t.v r).toNat
    let b := vBiasAt t.v r
    if t.v.biasBad.contains r && (!mdSpace d || mdBias d) then faultAt c .eccUe (tileItem s k) s
    else if !mdSpace d then
      let line := mdCline d + i * mdCinc d
      match lineAt k line with
      | .error e => e.out c (tileItem s k) s
      | .ok pa => issue .V k c st true (fun s =>
          modV k (fun v => { v with
            lineBias := Tab.set 0 v.lineBias line b, biasBad := v.biasBad.filter (· ≠ 32 + line) }) (poke s pa (toLE 512 x))) s
    else
      match vstPlan s c k d i x b.toNat with
      | .error e => e.out c (tileItem s k) s
      | .ok (bits, runs) =>
        let acc := bits.map (fun m => (true, m.1 + m.2.1 % 64 / 8, 1)) ++ runs.map fun p => (true, p.1, p.2.length)
        guardedAll c (tileItem s k) (agentCode k 0 1) t.vc t.epoch acc (issue .V k c st true (fun s =>
          let s1 := bits.foldl (fun s m => putMaskBit m.1 m.2.1 m.2.2 s) s
          runs.foldl (fun s p => poke s p.1 p.2) s1)) s) site s

/-- One line of a CLOAD or CEVICT: the A-tile and cache places and the bias place. -/
def moverLine (s : State) (c k d i n : Nat) (load : Bool) : Except Stop (Nat × Nat × Nat × Option Nat) := do
  let line := mdCline d + i * mdCinc d + n
  let pc ← lineAt k line
  let pa ← vWide s c k ((mdAbase d + i * mdAinc d) * 64 + 512 * n) 512 load
  if !load then
    let _ ← vLineUe s k pc (if mdBias d then 32 + line else 544)
  let pb ← if mdBias d then do
      let p ← vWide s c k (mdAbias d * 64 + mdMbit0 d + i * mdMinc d + n * mdStrips d) 8 load
      pure (some p)
    else pure none
  return (line, pc, pa, pb)

/-- The bytes of one line move, with its bias bytes (R167). -/
def moveLine (k line pc pa : Nat) (pb : Option Nat) (load : Bool) (s : State) : State :=
  let s1 := if load then poke s pc (peek s pa 512) else poke s pa (peek s pc 512)
  let s2 := match pb with
    | none => s1
    | some p =>
      if load then modV k (fun v => { v with
        lineBias := Tab.set 0 v.lineBias line (BitVec.ofNat 64 (peekNum s1 p 8))
        biasBad := v.biasBad.filter (· ≠ 32 + line) }) s1
      else poke s1 p (toLE 8 (Tab.get 0 (tileAt s1 k).v.lineBias line).toNat)
  modV k (fun v => { v with lines := satAdd 32 v.lines 1 }) s2

/-- The mover moves the next line of its operation, which ends after its last; lines before one that fails are complete
(R167, R193). -/
def moverNext (k c : Nat) (o : MovOp) (s : State) : State :=
  let t := tileAt s k
  let d := mdAt t o.md
  let it := tileItem s k
  match moverLine s c k d o.i o.n o.load with
  | .error e => e.out c it s
  | .ok (line, pc, pa, pb) =>
    let acc := (!o.load, pa, 512) :: (match pb with | some p => [(!o.load, p, 8)] | none => [])
    guardedAll c it (agentCode k 0 2) t.vc t.epoch acc (fun s =>
      (modV k (fun v => { v with
        mover := if mdNlines d ≤ o.n + 1 then none else some { o with n := o.n + 1 } }) (moveLine k line pc pa pb o.load s))) s

/-- A mover step is accepted by the idle mover; with NLINES 0 nothing moves (R163, R167). -/
def moverAccept (opc : Nat) (load : Bool) (site : Site) (s : State) : State :=
  tileStep site .V (fun st => st.opc = opc) (fun k c st s =>
    let t := tileAt s k
    let d := mdAt t (fld st.args 0 4)
    let i := iterIdx t st (bitAt st.args 9)
    if t.seq.issued || t.v.mover.isSome then issue .V k c st false id s
    else if (bitsOf 16 st.inq).any fun q => decide (headOf t q = .parity) then issue .V k c st true id s
    else if (fmtOf (mdFmt d)).isNone then undef .format c s
    else if mdNlines d = 0 then issue .V k c st true id s
    else
      match vBounds s c k (moverPlaces d i 0) with
      | .error e => e.out c (tileItem s k) s
      | .ok _ => issue .V k c st true (modV k (fun v => { v with mover := some ⟨load, fld st.args 0 4, i, 0⟩ })) s) s

/-- A mover command: the next line of the operation in progress, or the acceptance of a step. -/
def moverStep (opc : Nat) (load : Bool) (site : Site) (s : State) : Out :=
  let k := siteNo site
  ground (match runOf s k, (tileAt s k).v.mover with
  | some r, some o => if o.load = load then moverNext k r.ctx o s else moverAccept opc load site s
  | _, _ => moverAccept opc load site s) s

/-- CLOAD: units of 512 B from the A tile into cache lines, a line per command (R167). -/
def execCload (site : Site) (s : State) : Out := moverStep 5 true site s

/-- CEVICT: cache lines back into the A tile, a line per command (R167). -/
def execCevict (site : Site) (s : State) : Out := moverStep 6 false site s

/-! ## Queue unit (R169 to R171, Table 05.5) -/

def ptOut (d : Nat) : Bool := bitAt d 0
def ptCtrl (d : Nat) : Bool := bitAt d 1
def ptQp (d : Nat) : Nat := fld d 2 4
def ptNq (d : Nat) : Nat := fld d 6 2
def ptCount (d : Nat) : Nat := fld d 8 8
def ptMask (d : Nat) : Bool := bitAt d 16
def ptMq (d : Nat) : Nat := fld d 17 4
def ptFmt (d : Nat) : Nat := fld d 21 4
def ptFlush (d : Nat) : Bool := bitAt d 25

/-- The output that DIR out names. -/
def ptPort (d : Nat) : Nat := fld d 2 2

/-- The port cases of R162 and R171. -/
def ptUndef (t : Tile) (d : Nat) : Option UndefCase :=
  if (fmtOf (ptFmt d)).isNone then some .format
  else if (ptCtrl d && ptFmt d ≠ 0xA) || decide ((if ptCtrl d then 128 else 8) < ptCount d) || ptNq d = 3 ||
      (ptMask d && ptNq d ≠ 0) || (!ptOut d && !ptCtrl d && ptFmt d = 1) then some .vDescriptor
  else if ptOut d then (if stepsUseO t (ptPort d) then some .sharedQueue else none)
  else
    let n := if ptCtrl d then 1 else nqOf (ptNq d)
    if ((List.range n).any fun j => stepsUseQ t (ptQp d + j)) || (ptMask d && !ptCtrl d && stepsUseQ t (ptMq d)) then
      some .sharedQueue
    else none

/-- A queue step is accepted by its half of the queue unit. -/
def qioAccept (out : Bool) (site : Site) (s : State) : State :=
  let t0 := tileAt s (siteNo site)
  let pt (st : Stp) : Nat := ptAt t0 (fld st.args 0 3)
  tileStep site .V (fun st => decide (st.opc = 7) && (ptOut (pt st) == out)) (fun k c st s =>
    let t := tileAt s k
    let r := fld st.args 3 5
    let held := if out then vHeld t.v [r] [] || t.v.qout.isSome else vHeld t.v [] [r] || t.v.qin.isSome
    if t.seq.issued || held then issue .V k c st false id s
    else
      match ptUndef t (pt st) with
      | some u => undef u c s
      | none =>
        let op : QioOp := ⟨fld st.args 0 3, r, 0⟩
        let idle := decide (ptCount (pt st) = 0) && !(out && ptFlush (pt st))
        issue .V k c st true (if idle then id else modV k (fun v => if out then { v with qout := some op } else { v with qin := some op })) s) s

/-- A token position of an inbound operation is done; the last one ends it. -/
def qinNext (q : QioOp) (count : Nat) (v : VTile) : VTile :=
  { v with qin := if count ≤ q.j + 1 then none else some { q with j := q.j + 1 } }

/-- n bytes of a register replaced at a byte offset. -/
def putReg (x : VReg) (off n v : Nat) : VReg := BitVec.ofNat 4096 (setFld x.toNat (8 * off) (8 * n) v)

/-- The next position of the inbound operation in progress. -/
def qinMove (k c : Nat) (q : QioOp) (s : State) : State :=
  let t := tileAt s k
  let d := ptAt t q.pt
  let it := tileItem s k
  let count := ptCount d
  let put (off n x : Nat) (took : Bool) (s : State) : State :=
    modV k (fun v => qinNext q count { v with
      regs := Tab.set 0 v.regs q.reg (putReg (vRegAt v q.reg) off n x)
      tokens := if took then satAdd 32 v.tokens 1 else v.tokens }) s
  let take (qu off n : Nat) (s : State) : State :=
    match headOf (tileAt s k) qu with
    | .empty => s
    | .parity => faultAt c .queueParity it s
    | .tok a => put off n a.val.toNat true (popTok k qu s)
  if count ≤ q.j then modV k (fun v => { v with qin := none }) s
  else if ptCtrl d then take (ptQp d) (4 * q.j) 4 s
  else if !ptMask d then take (ptQp d + q.j % nqOf (ptNq d)) (64 * q.j) 64 s
  else
    let w := fmtBytes (ptFmt d)
    let z := packElems w (List.replicate (64 / w) (zeroOf ((fmtOf (ptFmt d)).getD .lns16)))
    let left := Tab.get 0 t.v.inLeft q.pt
    -- the strip in progress, or the next one with its bit
    match (if left = 0 then nextBits t (ptMq d) (32 + q.pt) 1 else
      .bits [(Tab.get [] t.masks (32 + q.pt)).headD false] [] false) with
    | .wait => s
    | .parity => faultAt c .queueParity it s
    | .bits b rest pop =>
      let bit := b.headD false
      let s1 := if left = 0 then
          modV k (fun v => { v with inLeft := Tab.set 0 v.inLeft q.pt w, tokens := if pop then satAdd 32 v.tokens 1 else v.tokens })
            (keepBits k (ptMq d) (32 + q.pt) (bit :: rest) pop s)
        else s
      let step (s : State) : State :=
        let l := Tab.get 0 (tileAt s k).v.inLeft q.pt
        let s2 := modV k (fun v => { v with inLeft := Tab.set 0 v.inLeft q.pt (l - 1) }) s
        if l = 1 then modTile k (fun t => { t with masks := Tab.set [] t.masks (32 + q.pt) ((Tab.get [] t.masks (32 + q.pt)).drop 1) }) s2
        else s2
      if !bit then step (put (64 * q.j) 64 z false s1)
      else
        let s2 := take (ptQp d) (64 * q.j) 64 s1
        if (tileAt s2 k).v.qin = some q then s2 else step s2

/-- QIO with DIR in: accepted, or its next token position (R170, R171). -/
def execQioIn (site : Site) (s : State) : Out :=
  let k := siteNo site
  ground (match runOf s k, (tileAt s k).v.qin with
  | some r, some q => qinMove k r.ctx q s
  | _, _ => qioAccept false site s) s

/-- The outbound operation ends when every position has been taken and nothing is left to send. -/
def qoutSettle (k o count : Nat) (q : QioOp) (s : State) : State :=
  modV k (fun v => { v with qout :=
    if count ≤ q.j && (Tab.get [] v.outToks o).isEmpty then none else some q }) s

/-- A strip's bit: whether it holds a non-zero element (R77). -/
def stripBit (f : Fmt) (w : Nat) (toks : List DataTok) : Bool :=
  toks.any fun v => (List.range (64 / w)).any fun e => !isZeroCode f (fld v.toNat (8 * w * e) (8 * w))

/-- The next position of the outbound operation in progress, or a waiting token. Tokens of a strip that is not whole when
the operation ends, FLUSH or not, are held for the next one on the output: R170 sends strips, DESIGN CHOICE (log
entry 38). -/
def qoutMove (k : Nat) (q : QioOp) (s : State) : State :=
  let t := tileAt s k
  let d := ptAt t q.pt
  let o := ptPort d
  let count := ptCount d
  let counted (s : State) : State := modV k (fun v => { v with tokens := satAdd 32 v.tokens 1 }) s
  match Tab.get [] t.v.outToks o with
  | (ctrl, x) :: rest =>
    if hasCredit t o ctrl then
      (qoutSettle k o count q (counted (modV k (fun v => { v with outToks := Tab.set [] v.outToks o rest })
        (sendTok k o ctrl x s))))
    else s
  | [] =>
    let reg := (vRegAt t.v q.reg).toNat
    if count ≤ q.j && !(ptMask d && !ptCtrl d && ptFlush d && !(Tab.get [] t.v.outStrips o).isEmpty) then
      qoutSettle k o count q s
    else if ptCtrl d || !ptMask d then
      if hasCredit t o (ptCtrl d) then
        let x := if ptCtrl d then fld reg (32 * q.j) 32 else fld reg (512 * q.j) 512
        qoutSettle k o count { q with j := q.j + 1 } (counted (sendTok k o (ptCtrl d) (BitVec.ofNat 512 x) s))
      else s
    else
      let w := fmtBytes (ptFmt d)
      let f := (fmtOf (ptFmt d)).getD .lns16
      let strips := Tab.get [] t.v.outStrips o
      let part := Tab.get [] t.v.outPart o
      let taken := decide (q.j < count)
      let part1 := if taken then part ++ [BitVec.ofNat 512 (fld reg (512 * q.j) 512)] else part
      let whole := decide (part1.length = w) && taken
      let strips1 := if whole then strips ++ [(stripBit f w part1, part1)] else strips
      let part2 := if whole then [] else part1
      let j1 := if taken then q.j + 1 else q.j
      let send := decide (strips1.length = 24) || (decide (count ≤ j1) && ptFlush d && !strips1.isEmpty)
      (qoutSettle k o count { q with j := j1 } (modV k (fun v => { v with
        outPart := Tab.set [] v.outPart o part2
        outStrips := Tab.set [] v.outStrips o (if send then [] else strips1)
        outToks := Tab.set [] v.outToks o (if send then groupToks strips1 else []) }) s))

/-- QIO with DIR out: accepted, or its next token position (R170, R171). -/
def execQioOut (site : Site) (s : State) : Out :=
  let k := siteNo site
  ground (match runOf s k, (tileAt s k).v.qout with
  | some _, some q => qoutMove k q s
  | _, _ => qioAccept true site s) s

/-! ## Scalar unit -/

/-- A XOP of a sub-operation: the new value of the scalar from the old one, the immediate and the iteration index. -/
def xop (sub : Nat) (f : Nat → Nat → Nat → Nat) (site : Site) (s : State) : Out :=
  ground (tileStep site .V (fun st => decide (st.opc = 8) && decide (fld st.args 16 2 = sub)) (fun k c st s =>
    let t := tileAt s k
    let x := fld st.args 0 4
    let i := iterIdx t st true
    issue .V k c st true (modV k (fun v => { v with
      scalars := Tab.set 0 v.scalars x (BitVec.ofNat 32 (f (vScalAt v x).toNat (fld st.args 4 12) i)) })) s) s) s

/-- XOP SET: X ← imm, zero-extended (R160). -/
def execXopSet (site : Site) (s : State) : Out := xop 0 (fun _ imm _ => imm) site s

/-- XOP SHLOR: X ← (X << 12) | imm. -/
def execXopShlor (site : Site) (s : State) : Out := xop 1 (fun x imm _ => x * 2 ^ 12 ||| imm) site s

/-- XOP ITER: X ← the iteration index of the step's LC field. -/
def execXopIter (site : Site) (s : State) : Out := xop 2 (fun _ _ i => i) site s

/-- XOP ADD: X ← X + imm, sign-extended, modulo 2^32. -/
def execXopAdd (site : Site) (s : State) : Out := xop 3 (fun x imm _ => ofInt 32 (x + signed 12 imm)) site s

/-- FLAGRD: lane l's flags into element l as INT32; CLR clears LANE_FLAGS after the read (R160). -/
def execFlagrd (site : Site) (s : State) : Out :=
  ground (tileStep site .V (fun st => st.opc = 9) (fun k c st s =>
    let t := tileAt s k
    let r := fld st.args 0 5
    issue .V k c st (!vHeld t.v [] [r]) (modV k (fun v => { v with
      regs := Tab.set 0 v.regs r (BitVec.ofNat 4096 (packElems 4 ((List.range 128).map fun l => fld v.laneFlags.toNat (6 * l) 6)))
      laneFlags := if bitAt st.args 5 then 0 else v.laneFlags })) s) s) s

end Sys2Proof.Machine
end

