-- ==== Sys2Proof/Machine/Delta.lean ====
section
/-! DEFINITION. HBM accesses of a Darning engine or the controller for a context, delta records and their rings
(R363 to R368). -/

namespace Sys2Proof.Machine

/-! ## Accesses of an engine -/

/-- Steps of an engine: changes made before it is stopped stay. -/
abbrev Eng (α : Type) := ExceptT Stop (StateM State) α

/-- The outcome of an engine's steps for a context. -/
def engOut (c : Nat) (it : Item) (x : Eng Unit) (s : State) : State :=
  match x.run s with
  | (.ok _, s') => s'
  | (.error e, s') => e.out c it s'

/-- A range cut at 64-B boundaries. -/
def cut64 (a n : Nat) : List (Nat × Nat) :=
  (List.range ((a + n + 63) / 64 - a / 64)).map fun j =>
    let lo := max a (64 * (a / 64 + j))
    (lo, min (a + n) (64 * (a / 64 + j + 1)) - lo)

/-- The physical address of an access: relocated, checked and translated (R335, R361). -/
def engAt (c q a n : Nat) (write : Bool) : Eng Nat := do
  let s ← get
  if syncHbmHit s c a n then throw (.undef .syncWord)
  match hbmAddr s c q a n write with
  | .at_ pa => pure pa
  | e => throw (.fault (e.code.getD .bound) (e.detail 3 a n))

/-- An engine stops at an uncorrectable word (R218, R361). -/
def soundWord (bad : Option Nat) : Eng Unit := match bad with
  | some pa => throw (.fault .eccUe (.word pa))
  | none => pure ()

/-- An engine's read: in an aperture, of the GRAD field of version CUR (R340). -/
def engRead (c q a n : Nat) : Eng (List Byte) := do
  let parts ← (cut64 a n).mapM fun p => do
    let s ← get
    let pa ← engAt c q ((apertureOf s c p.1).elim p.1 (·.at_)) p.2 false
    soundWord (ueAt s pa p.2)
    pure (peek s pa p.2)
  pure parts.flatten

/-- A write in an aperture is an accumulate or direction write, whoever makes it (R338, R340). -/
def engAperture (c q a : Nat) (v : List Byte) (ap : Aperture) : Eng Unit := do
  let s ← get
  if syncHbmHit s c a v.length then throw (.undef .syncWord)
  if (hbmVa s c a v.length).isNone then throw (.fault .bound (.access 3 a v.length))
  match apertureEnd ⟨0, c, q, none, a, 0, v, false, false⟩ ap s with
  | .undef => throw (.undef .accumulate)
  | .fail e d => throw (.fault e d)
  | .done none s' => set s'
  | .done (some bad) s' => do
    set s'
    throw (.fault .eccUe (.word bad))

def engWrite (c q a : Nat) (bs : List Byte) : Eng Unit := do
  for p in cut64 a bs.length do
    let s ← get
    let v := (bs.drop (p.1 - a)).take p.2
    match apertureOf s c p.1 with
    | none =>
      let pa ← engAt c q p.1 p.2 true
      soundWord (mergeUe s pa p.2)
      set (poke s pa v)
    | some ap => engAperture c q p.1 v ap

/-! ## Payload codes (R364) -/

/-- A payload compressed: 64 zero bytes as one code, other 64-B pieces as literals. -/
def compress (bs : List Byte) : List Byte :=
  (List.range (ceilDiv bs.length 64)).flatMap fun i =>
    let p := (bs.drop (64 * i)).take 64
    if p.length = 64 && p.all (· = 0) then [0xC0] else BitVec.ofNat 8 (p.length - 1) :: p

/-- Codes decoded until n bytes have been produced; `fuel` bounds the codes. -/
def expand : Nat → Nat → List Byte → List Byte
  | 0, _, _ => []
  | _, 0, _ => []
  | _, _, [] => []
  | fuel + 1, n, c :: bs =>
    let x := c.toNat
    let piece := if x < 0x80 then bs.take (x + 1)
      else List.replicate (if x < 0xC0 then x - 0x7F else (x - 0xBF) * 64) 0
    piece.take n ++ expand fuel (n - piece.length) (if x < 0x80 then bs.drop (x + 1) else bs)

def xorBytes (a b : List Byte) : List Byte := a.zipIdx.map fun (x, i) => x ^^^ b.getD i 0

/-! ## Records (Table 10.8) -/

/-- The 64-B header of a delta record. -/
structure DHead where
  kind   : Nat
  enc    : Nat
  master : Bool
  wfmt   : Nat
  sp24   : Bool
  ctx    : Nat
  src    : Nat
  step   : Nat
  block  : Nat
  ilen   : Nat
  clen   : Nat
  digest : Nat
  prev   : Nat
deriving DecidableEq, Repr

def DHead.bytes (r : DHead) : List Byte :=
  toLE 2 (r.kind + r.enc * 2 ^ 8 + r.master.toNat * 2 ^ 10 + r.wfmt * 2 ^ 11 + r.sp24.toNat * 2 ^ 15) ++
    toLE 6 (r.ctx + r.src * 2 ^ 4) ++ toLE 8 r.step ++ toLE 4 r.block ++ toLE 2 r.ilen ++ toLE 2 r.clen ++ toLE 8 0 ++
    toLE 16 r.digest ++ toLE 16 r.prev

def dheadOf (bs : List Byte) : DHead :=
  let w := leNat (bs.take 64)
  ⟨fld w 0 8, fld w 8 2, bitAt w 10, fld w 11 4, bitAt w 15, fld w 16 4, fld w 20 14, fld w 64 64, fld w 128 32,
    fld w 160 16, fld w 176 16, fld w 256 128, fld w 384 128⟩

/-- A record: its header, its payload and zero bytes up to a multiple of 64 (R363). -/
def recordBytes (r : DHead) (payload : List Byte) : List Byte :=
  r.bytes ++ padTo (ceilDiv payload.length 64 * 64) payload

/-- A record without payload: ROLLBACK 2, COMMIT 3, GAP 4, PAD 5. -/
def plainRecord (s : State) (c kind step block : Nat) : List Byte :=
  recordBytes ⟨kind, 0, false, 0, false, c, ownId s, step, block, 0, 0, 0, 0⟩ []

/-- The digest of a block image (R365). -/
def imageDigest (b step : Nat) (img : List Byte) : List Byte := shake256 16 (toLE 8 b ++ toLE 8 step ++ img)

/-- A DATA record of a block: old and new image with their masters where the payload carries them (R364, R366). -/
def dataRecord (s : State) (c b step enc : Nat) (wfmt : Nat) (sp24 master : Bool) (old new : List Byte)
    (digest prev : List Byte) : List Byte :=
  let x := compress (xorBytes new old)
  let r := compress new
  let useXor := decide (enc = 0) || (decide (enc = 2) && decide (x.length ≤ r.length))
  let pay := if useXor then x else r
  recordBytes ⟨1, if useXor then 0 else 1, master, wfmt, sp24, c, ownId s, step, b, new.length, pay.length,
    leNat digest, leNat prev⟩ pay

/-! ## Rings (R367) -/

def modDelta (c : Nat) (f : Delta → Delta) (s : State) : State := modCtx c (fun x => { x with delta := f x.delta }) s

/-- Where a record of k slots goes in a ring of n slots: it waits, it needs a PAD of m slots first, or a position. -/
inductive Place where
  | wait
  | pad (m : Nat)
  | put (pos : Nat)
deriving DecidableEq, Repr

/-- Slots that a record of k slots takes from a tail, its PAD included. -/
def needs (n tail k : Nat) : Nat := if n < tail % n + k then n - tail % n + k else k

def placeIn (n : Nat) (head tail : Nat) (k : Nat) : Place :=
  let p := tail % n
  let free := n - (tail + 2 ^ 32 - head) % 2 ^ 32
  if n < p + k then (if n - p ≤ free then .pad (n - p) else .wait)
  else if k ≤ free then .put p else .wait

/-- A ring's base and RING_LOG2; RING_LOG2 0 is no ring. -/
def deltaRing (s : State) (c q : Nat) : Nat × Nat := Tab.get (0, 0) (ctxAt s c).delta.rings q
def deltaTail (s : State) (c q : Nat) : BitVec 32 := Tab.get 0 (ctxAt s c).delta.tails q
def deltaHead (s : State) (c q : Nat) : BitVec 32 := Tab.get 0 (ctxAt s c).delta.heads q

/-- Bytes written at a position of ring q, whole before DR_TAIL advances. -/
def deltaPut (c q pos slots : Nat) (bs : List Byte) : Eng Unit := do
  let s ← get
  engWrite c q ((deltaRing s c q).1 + 64 * pos) bs
  modify (modDelta c fun d => { d with tails := Tab.set 0 d.tails q (Tab.get 0 d.tails q + BitVec.ofNat 32 slots) })

/-- A record joins those that wait for a ring: its KIND, for a DATA record with the Hoop of its engine + 16 × the flags of its
block, and its block. -/
def deltaQueue (c q kind hoop b : Nat) (bs : List Byte) (s : State) : State :=
  modDelta c (fun d => { d with queue := Tab.set [] d.queue q (Tab.get [] d.queue q ++ [(kind + 256 * hoop, b, bs)]) }) s

def queued (s : State) (c q : Nat) : List (Nat × Nat × List Byte) := Tab.get [] (ctxAt s c).delta.queue q

/-- COMMIT and ROLLBACK go to every configured ring (R366). -/
def deltaAll (c kind step : Nat) (s : State) : State :=
  (List.range 4).foldl (fun s q =>
    if (deltaRing s c q).2 = 0 then s else deltaQueue c q kind 0 0 (plainRecord s c kind step 0) s) s

/-! ## Replica targets (R368) -/

/-- The channel message that names a record of an inbox ring by its address and length. -/
def noteMsg (addr len : Nat) : DataTok := BitVec.ofNat 512 (1 + addr % 2 ^ 64 * 2 ^ 64 + len * 2 ^ 128 + 2 ^ 160)

/-- A record on its way to replica targets, each with a channel message that follows it. A record for this module itself
is named once it lies in the inbox ring; how an owner knows where a peer's ring takes its record is not stated, so that
address is free. -/
def toTargets (c q : Nat) (ts : List (Nat × Nat)) (bs : List Byte) (s : State) : State :=
  ts.foldl (fun s t =>
    if t.1 = ownId s then modDelta c (fun d => { d with arrived := d.arrived ++ [(bs, some t.2)] }) s
    else
      useFree 1 (modDelta c (fun d => { d with notes := d.notes ++ [(t.2, noteMsg (freeNat s 0) bs.length)] })
        (modNet (fun m => { m with far := m.far ++ [⟨m.nextWid, c, none, t.1, none⟩], nextWid := m.nextWid + 1 })
          (sendOut c q t.1 (.deltaRecord (Fin.ofNat 16 c) bs) s)))) s

def toReplicas (c q : Nat) (bs : List Byte) (s : State) : State := toTargets c q (ctxAt s c).delta.repl bs s

/-- The controller sends a message of one slot on a channel of the context, once the ring has room; the channel counts
the wait (R286, R290). On a channel that is not OPEN with the controller as its sender, the message is dropped. -/
def serviceSend (n c : Nat) (v : DataTok) (s : State) : Bool × State :=
  let x := chanAt s n
  if x.ctx ≠ c || x.st ≠ .opened || !hasSender x || !isSelvedge x.sender then (true, s)
  else if (!hasReceiver x && !x.ringKnown) || freeSlots x < 1 then (false, chanWait n s)
  else
    match pushSlots n none (x.tail.toNat % ringN x) [withSeq v x.sent] [] s with
    | (s1, some e) => (true, e.out c noItem s1)
    | (s1, none) => (true, notifyTail n none (modChan n (fun z =>
        { z with tail := z.tail + 1, sent := satAdd 48 z.sent 1, waited := false }) s1))

/-- The messages that wait are sent in order. -/
def sendNotes (c : Nat) : List (Nat × DataTok) → State → State
  | [], s => modDelta c (fun d => { d with notes := [] }) s
  | (n, v) :: rest, s =>
    match serviceSend n c v s with
    | (true, s1) => sendNotes c rest s1
    | (false, s1) => modDelta c (fun d => { d with notes := (n, v) :: rest }) s1

def pumpNotes (c : Nat) (s : State) : State := sendNotes c (ctxAt s c).delta.notes s

end Sys2Proof.Machine
end

