-- ==== Sys2Proof/Machine/Journal.lean ====
section
/-! DEFINITION. Commands of the host as the controller takes them: the journal, completions, final statuses that come
later, and sessions (R412 to R424, R444). -/

namespace Sys2Proof.Machine

/-- Status codes (Table 12.8). -/
def Status.num : Status → Nat
  | .ok => 0x00
  | .accepted => 0x01
  | .badOpcode => 0x02
  | .badArg => 0x03
  | .noResource => 0x04
  | .badState => 0x05
  | .txnConflict => 0x06
  | .txnUnknown => 0x07
  | .unsupportedGen => 0x08
  | .authFail => 0x09
  | .restricted => 0x0A
  | .timeout => 0x0B
  | .memUe => 0x0C

/-- The context in which a command runs: its origin, port, session, its transaction tag, its journal number and tag,
and whether it came through the priority mailbox. -/
structure Env where
  origin  : Origin
  port    : Nat
  session : Nat
  txn     : Option Nat
  txnId   : BitVec 16
  seq     : Nat
  tag     : BitVec 32
deriving DecidableEq, Repr

/-- What a command comes to: a final status with its RESULT, or a status that comes later. -/
inductive HostRes where
  | done (st : Status) (result : Nat) (s : State)
  | later (w : WaitFor) (s : State)

/-- A command that ends without effect. -/
def failWith (st : Status) (s : State) : HostRes := .done st 0 s

/-! ## Rings -/

def ringAt (s : State) (p r : Nat) : Ring := Tab.get Ring.reset (portAt s p).rings r
def setRing (p r : Nat) (x : Ring) (s : State) : State :=
  modPort p (fun q => { q with rings := Tab.set Ring.reset q.rings r x }) s

/-- Bytes of a slot (Table 12.5). -/
def slotBytes (x : Ring) : Nat := 16 * 2 ^ x.slot.toNat

/-- Slots of a ring. -/
def ringSlots (x : Ring) : Nat := 2 ^ x.log2n.toNat

/-- Whether the ring has a slot to serve (R417). -/
def ringHas (x : Ring) : Bool := x.en && x.tail ≠ x.head

/-- The session of a ring (R414). -/
def sessionOf (p r : Nat) : Nat := p * 8 + r

/-- The push buffer of a port (R410). -/
def pushBase (p : Nat) : Nat := 0x2FE0000000 + p * 0x800000

/-! ## Journal (R444, Table 12.15) -/

/-- An entry is written when the command is taken. -/
def journalPut (e : JEntry) (s : State) : State :=
  { s with
    logs := { s.logs with seq := e.seq, journal := (e :: s.logs.journal).take 8192 }
    dev := { s.dev with jWrapped := s.dev.jWrapped || decide (8192 ≤ s.logs.journal.length) } }

/-- RESULT as a completion gives it (Table 12.7). -/
def resultOf (st : Status) (result : Nat) : Nat := if st = .ok || st = .accepted then result else 0

/-- An entry is rewritten with the final status, and RESULT as in the completion. -/
def journalFinal (seq : Nat) (st : Status) (result : Nat) (txn : Option (BitVec 16)) (s : State) : State :=
  { s with logs := { s.logs with journal := s.logs.journal.map fun e =>
      if e.seq = seq then
        { e with status := st, final := true, result := BitVec.ofNat 64 (resultOf st result), txnId := txn.getD e.txnId }
      else e } }

/-- SEQ of the newest and the oldest entry held; 0 when empty (Table 12.3). -/
def jNewest (s : State) : Nat := (s.logs.journal.head?.map (·.seq)).getD 0
def jOldest (s : State) : Nat := (s.logs.journal.getLast?.map (·.seq)).getD 0

/-! ## Completions (R413, R417, R420, R421) -/

/-- Bytes 0 to 23 of a completion (Table 12.7). -/
def completionBytes (s : State) (st : Status) (txnId : BitVec 16) (tag : BitVec 32) (seq result : Nat) : List Byte :=
  toLE 1 st.num ++ toLE 1 (128 + (if s.dev.unqualified then 64 else 0)) ++ toLE 2 txnId.toNat ++ toLE 4 tag.toNat ++
    toLE 6 seq ++ toLE 2 0 ++ toLE 8 (resultOf st result)

/-- A completion is posted where the command came from; a ring's HEAD and a slot's busy bit advance, and the HA-2 signals
vector 1 for a priority command. -/
def postAt (o : Origin) (bs : List Byte) (s : State) : State :=
  match o with
  | .ring p r =>
    let x := ringAt s p r
    let off := x.head.toNat % ringSlots x * slotBytes x
    let s1 := if x.loc then modPort p (fun q => { q with ringArea := putBytes q.ringArea off bs }) s
      else hostWrite s p (x.base.toNat + off) bs
    setRing p r { x with head := x.head + 1 } s1
  | .pm p k =>
    signal p 1 (modPort p (fun q => { q with slots := putBytes q.slots (32 * k) bs, busy := q.busy &&& ~~~(1#4 <<< k) }) s)
  | .batch _ p addr host =>
    if host then hostWrite s p addr bs else poke s (pushBase p + addr) bs
  | .mgmt => s

/-- Whether a command of this origin is told its status in place. -/
def post (o : Origin) (st : Status) (txnId : BitVec 16) (tag : BitVec 32) (seq result : Nat) (s : State) : State :=
  postAt o (completionBytes s st txnId tag seq result) s

/-- The session that an event or journal entry names for an origin. -/
def originSession : Origin → Nat
  | .ring p r => sessionOf p r
  | .pm p _ => 32 + p
  | .batch n _ _ _ => n
  | .mgmt => 36

/-- A batch that waits for this command learns its status (R418, R437). -/
def Wait.learns (seq : Nat) (st : Status) (w : Wait) : Wait :=
  match w.what with
  | .batchRun b => if b.entry = seq then { w with what := .batchRun { b with status := b.status.or (some st) } } else w
  | _ => w

/-- The final status of a waiting command (R418, R516): its journal entry, then its slot or CMD_DONE, and the batch that
waits for it. -/
def finish (seq : Nat) (st : Status) (result : Nat) (s : State) : State :=
  match s.waits.find? fun w => w.seq = seq with
  | none => s
  | some w =>
    let s1 := journalFinal seq st result none
      { s with waits := (eraseFirst (fun x => x.seq = seq) s.waits).map (Wait.learns seq st) }
    if w.accepted then
      raise 0x0001 0 (toLE 6 seq ++ toLE 1 (originSession w.origin) ++ toLE 1 w.opcode ++ toLE 1 st.num ++ toLE 3 0 ++
        toLE 4 w.tag.toNat ++ toLE 8 (resultOf st result)) s1
    else post w.origin st w.txnId w.tag seq result s1

/-- Every waiting command that `is` selects ends with a status. -/
def finishAll (is : WaitFor → Bool) (st : Status) (s : State) : State :=
  (s.waits.filter fun w => is w.what).foldl (fun s w => finish w.seq st 0 s) s

/-! ## Transactions and sessions -/

def txnAt (s : State) (id : Nat) : Option Txn := s.txns.find? fun t => t.id = id
def modTxn (id : Nat) (f : Txn → Txn) (s : State) : State :=
  { s with txns := s.txns.map fun t => if t.id = id then f t else t }

/-- The settings that a staged change sets. -/
def Staged.settings : Staged → List Setting
  | .item i n _ => [.item i n]
  | .entry h n _ => [.entry h n]
  | .period _ _ => [.period]
  | .load _ _ h c0 c1 _ => (List.range (c1 + 1 - c0)).map fun i => .motif h (c0 + i)
  | .run c _ _ => [.runCount c]
  | .sweepCommit c => [.sweepCommit c]

def Txn.stages (t : Txn) (x : Setting) : Bool := t.staged.any fun y => y.settings.contains x

/-- Settings have been applied: every transaction that stages one of them will conflict. -/
def touch (is : Setting → Bool) (s : State) : State :=
  { s with txns := s.txns.map fun t =>
    { t with touched := (t.touched ++ (t.staged.flatMap Staged.settings).filter is).eraseDups } }

/-- PRICK_APPLY_DONE (Table 12.16). -/
def applyDone (c motif : Nat) (status : Nat) (s : State) : State := raise 0x0008 c (toLE 2 motif ++ toLE 1 status) s

/-- A transaction is discarded; each of its loads ends with this status (R402). -/
def dropTxn (id status : Nat) (s : State) : State :=
  match txnAt s id with
  | none => s
  | some t =>
    t.staged.foldl (fun s x => match x with
      | .load c motif _ _ _ _ => applyDone c motif status s
      | _ => s) { s with txns := eraseFirst (fun u => u.id = id) s.txns }

/-- A session closes: its open transactions are kept as orphans (R415). -/
def orphan (n : Nat) (s : State) : State :=
  { s with txns := s.txns.map fun t => if t.session = some n && !t.committing then { t with session := none } else t }

/-- A ring's session closes and its EN returns to 0 (R415, R417). A command of it that still waits reports by CMD_DONE. -/
def closeRing (p r : Nat) (s : State) : State :=
  let s1 := { s with waits := s.waits.map fun w => if w.origin = .ring p r then { w with accepted := true } else w }
  orphan (sessionOf p r) (setRing p r { ringAt s p r with en := false, opened := false } s1)

/-! ## Taking a command -/

/-- A command as the controller knows it: its opcode, generation, whether it may be tagged (R439), when the variant or
DEV_STATUS refuses it (R3, R424), when its arguments are bad, and what it does. -/
structure HostCmd where
  opcode   : Nat
  gen      : Nat
  taggable : Bool := false
  refused  : State → Bool := fun _ => false
  badArgs  : Env → State → Bool := fun _ _ => false
  run      : Env → State → HostRes

/-- The checks before a command's own (R419, R423, R439): generation, restriction, reserved bits and the tag, session. -/
def preCheck (c : HostCmd) (gen : Nat) (opened rsv txn : Bool) (txnId : BitVec 16) (session : Option Nat) (env : Env)
    (s : State) : Option Status :=
  if gen < c.gen then some .badOpcode
  else if (s.dev.restricted && decide (1 < c.gen)) || c.refused s then some .restricted
  else if rsv || (txn && !c.taggable) || (!txn && txnId ≠ 0) || c.badArgs env s then some .badArg
  else if !opened && c.opcode ≠ 0x02 then some .badState
  else if txn then
    match txnAt s txnId.toNat with
    | some t => if t.session = session && !t.committing then none else some .txnUnknown
    | none => some .txnUnknown
  else none

/-- A command that has been taken: journalled, checked, carried out, and answered or left waiting. -/
def runCmd (c : HostCmd) (env : Env) (pre : Option Status) (batch : Bool) (s : State) : State × Status :=
  let e : JEntry := ⟨env.seq, env.session, c.opcode, env.txnId, .accepted, false, batch, env.tag, s.stitch.count, 0⟩
  let s1 := journalPut e s
  let res := match pre with
    | some st => failWith st s1
    | none => c.run env s1
  match res with
  | .done st result s2 =>
    let id := if c.opcode = 0x48 && st = .ok then some (BitVec.ofNat 16 result) else none
    (post env.origin st env.txnId env.tag env.seq result (journalFinal env.seq st result id s2), st)
  | .later w s2 =>
    ({ s2 with waits := s2.waits ++ [⟨env.seq, env.origin, c.opcode, env.txnId, env.tag, false, w⟩] }, .accepted)

/-- Whether a command of this ring still waits for its status. -/
def ringWaits (s : State) (p r : Nat) : Bool := s.waits.any fun w => decide (w.origin = .ring p r) && !w.accepted

/-- The number in n bytes of a slot at an offset. -/
def slotNum (bs : List Byte) (off n : Nat) : Nat := leNat ((bs.drop off).take n)

/-- A command that is refused with BAD_OPCODE. -/
def unknownCmd (opcode : Nat) : HostCmd := { opcode := opcode, gen := 256, run := fun _ s => failWith .badOpcode s }

/-- A command of a generation whose argument is out of range. -/
def badArgCmd (opcode gen : Nat) : HostCmd :=
  { opcode := opcode, gen := gen, badArgs := fun _ _ => true, run := fun _ s => failWith .badArg s }

/-- The opcodes of Table 12.9. -/
def opcodes : List Nat :=
  [0x01, 0x02, 0x03, 0x10, 0x11, 0x12, 0x13, 0x18, 0x19, 0x20, 0x21, 0x28, 0x29, 0x2A, 0x2B, 0x2C, 0x30, 0x31, 0x38, 0x39,
   0x3A, 0x3B, 0x3C, 0x40, 0x48, 0x49, 0x4A, 0x50, 0x51, 0x52, 0x58, 0x60, 0x61, 0x62, 0x68, 0x70, 0x78]

/-- The refused command that a ring's slot holds when its bytes spell none of Table 12.9: an opcode that the table lacks, or
a SUB or SCOPE beyond the table's. A slot with a command of the table holds the command of the block that comes (DESIGN
CHOICE, log entry 38). -/
def slotRefused (bs : List Byte) : Option HostCmd :=
  let op := slotNum bs 0 1
  if !opcodes.contains op then some (unknownCmd op)
  else if op = 0x3B && decide (1 < slotNum bs 9 1) then some (badArgCmd op 2)
  else if op = 0x70 && decide (2 < slotNum bs 8 1) then some (badArgCmd op 1)
  else none

/-- The first 16 bytes of the slot at HEAD of a ring (R416). Those of a ring in host memory are free: the host writes them
without a command of the table (log entry 38). -/
def headSlot (s : State) (p r : Nat) : List Byte :=
  let x := ringAt s p r
  if x.loc then bytesAt (portAt s p).ringArea (x.head.toNat % ringSlots x * slotBytes x) 16
  else toLE 16 (Config.hostSlot s.free s.logs.seq).toNat

/-- Slots at HEAD that spell no command of Table 12.9 are taken, journalled and refused, at most n of them (R417, R423,
R444). -/
def refuseSlots (p r : Nat) : Nat → State → State
  | 0, s => s
  | n + 1, s =>
    let x := ringAt s p r
    let bs := headSlot s p r
    match slotRefused bs with
    | none => s
    | some c =>
      if !s.dev.ready || !ringHas x || ringWaits s p r then s
      else
        let id : BitVec 16 := BitVec.ofNat 16 (slotNum bs 2 2)
        let txn := bitAt (slotNum bs 1 1) 0
        let env : Env := ⟨.ring p r, p, sessionOf p r, if txn then some id.toNat else none, id, s.logs.seq + 1,
          BitVec.ofNat 32 (slotNum bs 4 4)⟩
        let pre := preCheck c x.slot.toNat x.opened (decide (1 < slotNum bs 1 1)) txn id (some (sessionOf p r)) env s
        refuseSlots p r n (runCmd c env pre false s).1

/-- A command taken from the slot at HEAD of a ring (R417): READY, the ring in use, and no earlier command of it
without a completion. Slots that spell no command are refused first. -/
def hostCommand (h : Hdr) (c : HostCmd) (s0 : State) : Out :=
  let p := h.port.val
  let r := h.ring.val
  let s := refuseSlots p r (ringSlots (ringAt s0 p r)) s0
  let x := ringAt s p r
  if !s.dev.ready || !ringHas x || ringWaits s p r then .next s
  else
    let n := sessionOf p r
    let seq := s.logs.seq + 1
    let env : Env := ⟨.ring p r, p, n, if h.txn then some h.txnId.toNat else none, h.txnId, seq, h.tag⟩
    let pre := preCheck c x.slot.toNat x.opened h.rsv h.txn h.txnId (some n) env s
    ctl (runCmd c env pre false s).1 s

/-- Whether a command of this origin may be told ACCEPTED: a priority or management command may not (R413). -/
def Origin.accepts : Origin → Bool
  | .ring _ _ | .batch _ _ _ _ => true
  | _ => false

/-- CMD_ACCEPTED: a command whose final status is not known posts ACCEPTED, and its ring or its batch moves on (R418, R437).
A priority command waits for its final status (R413). -/
def execCmdAccepted (seq : BitVec 48) (s : State) : Out :=
  ctl (match s.waits.find? fun w => decide (w.seq = seq.toNat) with
  | some w =>
    if w.accepted || !w.origin.accepts then s
    else
      let mark (y : Wait) : Wait := if y.seq = w.seq then { y with accepted := true } else y
      post w.origin .accepted w.txnId w.tag w.seq 0
        { s with waits := s.waits.map fun y => (mark y).learns w.seq .accepted }
  | none => s) s

end Sys2Proof.Machine
end

