-- ==== Sys2Proof/Machine/Darning.lean ====
section
/-! DEFINITION. The Darning engines: blocks of a sweep, its rollback, its commit, delta rings, replicas and digests
(R332 to R371). -/

namespace Sys2Proof.Machine

/-! ## Block descriptors (Table 10.2) -/

def bdV (d : Nat) : Bool := bitAt d 0
def bdRole (d : Nat) : Nat := fld d 1 2
def bdGroup (d : Nat) : Nat := fld d 3 8
def bdWfmt (d : Nat) : Nat := fld d 11 4
def bdSp24 (d : Nat) : Bool := bitAt d 15
def bdHbm (d : Nat) : Bool := bitAt d 16
def bdHoop (d : Nat) : Nat := fld d 17 3
def bdTile (d : Nat) : Nat := fld d 20 7
def bdWoff (d : Nat) : Nat := 128 * fld d 27 17
def bdWhbm (d : Nat) : Nat := fld d 64 48

/-- The column of a block's M tile, for a block in a slice. -/
def bdCol (d : Nat) : Nat := (colsOf .M).getD (bdTile d / 16) 0

/-- Bytes of a block's image. -/
def bdSize (d : Nat) : Nat := imageSize (bdWfmt d) (bdSp24 d)

/-- A block's descriptor, read by an engine; sync words and failed accesses stop it. -/
def bdRead (c q b : Nat) : Eng Nat := do
  let s ← get
  let bs ← engRead c q (fld (dnReg s c 2) 0 48 + 32 * b) 32
  pure (leNat bs)

/-- A block's descriptor where it can be read. -/
def bdAt (s : State) (c q b : Nat) : Option Nat :=
  match (bdRead c q b).run s with
  | (.ok d, _) => some d
  | _ => none

/-! ## The sweep's state -/

def modSweep (c : Nat) (f : Sweep → Sweep) (s : State) : State := modCtx c (fun x => { x with sweep := f x.sweep }) s
def sweepAt (s : State) (c : Nat) : Sweep := (ctxAt s c).sweep

/-- A group descriptor as SWEEP_BEGIN read it (R343). -/
def groupAt (w : Sweep) (g : Nat) : Nat := leNat ((w.groups.drop (64 * g)).take 64)

/-- Whether a block is processed in LAMB's pass 1 (R346). -/
def isLamb (w : Sweep) (d : Nat) : Bool := bdV d && decide (bdRole d = 0) && decide (gdRule (groupAt w (bdGroup d)) = 6)

/-- Whether any group of the sweep uses LAMB (R346). -/
def usesLamb (s : State) (c : Nat) : Bool := (List.range 256).any fun g => decide (gdRule (groupAt (sweepAt s c) g) = 6)

/-- Whether a block's WFMT and its group's MFMT are formats that the engine takes (R50, Tables 10.2 and 10.5). -/
def formatsOk (w : Sweep) (d : Nat) : Bool :=
  let m := gdMfmt (groupAt w (bdGroup d))
  decide (bdWfmt d ≤ 3) && (decide (m = 0) || decide (m = 4) || decide (m = 6))

/-- Whether pass 1 is still to be combined. -/
def inPass1 (s : State) (c : Nat) : Bool := !(sweepAt s c).lambPass2 && usesLamb s c

/-- Blocks whose DATA record still waits for a ring, with the Hoop of their engine. -/
def inFlight (s : State) (c : Nat) : List (Nat × Nat) :=
  (List.range 4).flatMap fun q => ((queued s c q).filter fun r => r.1 % 256 = 1).map fun r => (r.2.1, r.1 / 256 % 16)

/-- Whether an engine has blocks in flight. -/
def engineBusy (s : State) (h : Nat) : Bool := softCtxs.any fun c => (inFlight s c).any fun p => decide (p.2 = h)

/-- The pause of a SWEEP entry ends with the engine's last block in flight; a later entry begins its blocks then (R311). -/
def pauseEnds (h : Nat) (s : State) : State :=
  if engineBusy s h then s
  else modHoop h (fun x => { x with
    runs := (x.runs.filter fun r => r.stage ≠ .pausing).map fun r => if r.stage = .sweeping then { r with outOk := true } else r }) s

/-- Whether a SWEEP entry in progress on the Hoop lets the engine process a block, no earlier one's pause holding it (R311);
`outOk` tells that of a sweep's entry. -/
def entryTakes (s : State) (c h d : Nat) : Bool :=
  (hoopAt s h).runs.any fun r => decide (r.stage = .sweeping) && decide (r.ctx = c) && r.outOk &&
    (bdHbm d || (decide (r.c0 ≤ bdCol d) && decide (bdCol d ≤ r.c1)))

/-- The next block of the engine, in block-number order (R352): in pass 1 the next LAMB block. -/
def nextBlock (c h : Nat) : Eng (Option (Nat × Nat)) := do
  let s ← get
  let w := sweepAt s c
  let p1 := inPass1 s c
  let busy := (inFlight s c).map (·.1)
  for b in List.range (dnNblk s c) do
    if !(if p1 then w.pass1.contains b else (w.done.contains b || busy.contains b)) then
      let d ← bdRead c (quarterOf h) b
      if bdV d && bdHoop d = h && (!p1 || isLamb w d) && entryTakes s c h d then return some (b, d)
  return none

/-- The engine PEEKs the barrier knot until it has been full once (R351): 2 marks the request to another module, whose
reply marks 1. -/
def barrierFull (c h : Nat) : Eng Bool := do
  let s ← get
  let w := sweepAt s c
  if Tab.get 0 w.started h = 1 then return true
  let ka := kaddrOf w.barrier.toNat
  let mark : State → State := modSweep c fun w => { w with started := Tab.set 0 w.started h 1 }
  if ka.remote && ka.mod ≠ ownId s then
    if Tab.get 0 w.started h = 0 then
      modify fun s => remoteKnot c (quarterOf h) 2 0 w.barrier.toNat (siteOf (engineSite s h c), Fin.ofNat 16 engineWho)
        (modSweep c (fun w => { w with started := Tab.set 0 w.started h 2 }) s)
    return false
  match knotAt s c (quarterOf h) ka false with
  | .at_ pa =>
    soundWord (ueAt s pa 8)
    let full := knFull (peekNum s pa 8)
    if full then modify mark
    return full
  | e => throw (.fault (e.code.getD .bound) (e.detail 4 ka.off 8))

/-- One block of an engine: the sweep is OPEN, a SWEEP entry is in progress on the Hoop, the barrier has been full, fewer
than eight blocks of the engine are in flight, and the next block has the ROLE. -/
def engineStep (c h role : Nat) (body : Nat → Nat → Eng Unit) (s : State) : Out :=
  ground (
    let going := (hoopAt s h).runs.any fun r => decide (r.stage = .sweeping) && decide (r.ctx = c)
    if (sweepAt s c).st ≠ .opened || (ctxAt s c).latched.isSome || !going || (hoopAt s h).power ≠ .on ||
      decide (8 ≤ ((inFlight s c).filter fun p => p.2 = h).length) then s
    else
      engOut c (hoopItem h) (do
        if ← barrierFull c h then
          match ← nextBlock c h with
          | some (b, d) =>
            if bdRole d = role then
              if !formatsOk (sweepAt (← get) c) d then throw (.undef .format)
              body b d
          | none => pure ()) s) s

/-! ## Images, logs and records -/

/-- The image of a block, in its slice through the service path or in HBM. -/
def imgRead (c q d : Nat) : Eng (List Byte) := do
  if bdHbm d then engRead c q (bdWhbm d) (bdSize d)
  else
    let s ← get
    match wsAddr s c (tileOfIndex .M (bdHoop d) (bdTile d)) (bdWoff d) (bdSize d) with
    | none => throw (.fault .bound (.access 0 (bdWoff d) (bdSize d)))
    | some pa =>
      match ueAt s pa (bdSize d) with
      | some bad => throw (.fault .weightUe (.image pa bad))
      | none => pure (peek s pa (bdSize d))

def imgWrite (c q d : Nat) (img : List Byte) : Eng Unit := do
  if bdHbm d then engWrite c q (bdWhbm d) img
  else
    let s ← get
    match wsAddr s c (tileOfIndex .M (bdHoop d) (bdTile d)) (bdWoff d) (bdSize d) with
    | none => throw (.fault .bound (.access 0 (bdWoff d) (bdSize d)))
    | some pa => set (poke s pa img)

def logBase (s : State) (c : Nat) : Nat := fld (dnReg s c 9) 0 48
def logSlotAt (s : State) (c b : Nat) : Nat := logBase s c + (b + 1) * 10240

/-- The log header (R360): MAGIC, the state (1 OPEN, 2 COMMITTED, 3 ROLLED_BACK), CUR at SWEEP_BEGIN, STEP. -/
def logHeader (c state : Nat) : Eng Unit := do
  let s ← get
  let w := sweepAt s c
  engWrite c 0 (logBase s c) (padTo 64 (toLE 2 0x4C47 ++ toLE 1 state ++ toLE 1 w.cur0.toNat ++ toLE 4 0 ++ toLE 8 w.step.toNat))

/-- The old image goes to the block's log slot (R353 step 5): slot header, then image. -/
def logImage (c q b : Nat) (img : List Byte) : Eng Unit := do
  let s ← get
  if (sweepAt s c).logged.contains b then return
  let hdr := padTo 64 (toLE 4 b ++ toLE 4 1 ++ toLE 8 (sweepAt s c).step.toNat)
  engWrite c q (logSlotAt s c b) (hdr ++ img)
  modify (modSweep c fun w => { w with logged := w.logged ++ [b] })

/-- DIGEST of a version with the reserved bytes after it (Table 10.4). -/
def digestWrite (c q rec : Nat) (dg : List Byte) : Eng Unit := engWrite c q (rec + 32768) (padTo 256 dg)

/-- Whether every block with V = 1 has been finished. -/
def allDone (s : State) (c : Nat) : Bool :=
  (List.range (dnNblk s c)).all fun b => (sweepAt s c).done.contains b || ((bdAt s c 0 b).map fun d => !bdV d).getD false

/-- SWEEP_DONE when every engine has processed its blocks (R357). -/
def checkDone (c : Nat) (s : State) : State :=
  if (sweepAt s c).st = .opened && allDone s c then
    raise 0x0010 c (toLE 8 (sweepAt s c).step.toNat) (modSweep c (fun w => { w with st := .done }) s)
  else s

/-- A block has been processed. -/
def blockDone (c b : Nat) (s : State) : State :=
  if (sweepAt s c).done.contains b then s
  else
    checkDone c (modCtx c (fun x => { x with
      cntBlocks := satAdd 32 x.cntBlocks 1, sweep := { x.sweep with done := x.sweep.done ++ [b] } }) s)

/-- A block of an engine ends: the flags of its evaluation and conversions reach the context (R347). -/
def blockEnds (c h fl b : Nat) (s : State) : State := blockDone c b (ctxFlags c fl (hoopItem h) s)

/-- What a rule works on for a block. -/
def envOf (s : State) (c g : Nat) : RuleEnv :=
  let w := sweepAt s c
  let gd := groupAt w g
  let n (t : Tab (BitVec 32)) : Nat := (Tab.get 0 t g).toNat
  ⟨gd, (etaOf gd w.lr.toNat).1, (etaOf gd w.lr.toNat).2, n w.b1, n w.b2, lambPhi (n w.normW) (n w.normQ), s.free⟩

/-- Free values that a block's evaluation may use. -/
def evalFree : Nat := 65536

/-! ## Blocks with ROLE OWN (R353) -/

/-- The block's count knot is drained; an empty knot is KNOT_UDF (R342, R353 step 1). -/
def drainCount (c q b : Nat) : Eng Unit := do
  let s ← get
  match knotAt s c q (kaddrOf (2 ^ 45 + (fld (dnReg s c 10) 0 45 + b) % 2 ^ 45)) true with
  | .at_ pa =>
    soundWord (ueAt s pa 8)
    let (w, f) := knotOp 4 0 (peekNum s pa 8)
    set (poke s pa (toLE 8 w))
    match f with
    | some e => throw (.fault e .none)
    | none => pure ()
  | e => throw (.fault (e.code.getD .bound) (e.detail 4 (8 * (fld (dnReg s c 10) 0 45 + b)) 8))

/-- LAMB's pass 1 on a block: its squared norms join the group's, in an order that is not fixed; the flags of the squares and
their sums are recorded then (R346, R347). -/
def lambBlock (c h b d : Nat) : Eng Unit := do
  let s ← get
  let q := quarterOf h
  let r := recordAt s c (dnCur s c) b
  let e := envOf s c (bdGroup d)
  let grad ← engRead c q r 16384
  let master ← engRead c q (r + 16384) 16384
  let st ← engRead c q (r + 33024) (stateSize e.g)
  let (w2, q2, fl) := lambNorms e (words32 grad) (words32 master) st
  let add (t : Tab (BitVec 32)) (x : Nat) : Tab (BitVec 32) :=
    Tab.set 0 t (bdGroup d) (BitVec.ofNat 32 (add32 (Tab.get 0 t (bdGroup d)).toNat x).1)
  modify fun s => ctxFlags c fl (hoopItem h) (useFree evalFree
    (modSweep c (fun w => { w with pass1 := w.pass1 ++ [b], normW := add w.normW w2, normQ := add w.normQ q2 }) s))

/-- Whether a block's record goes to a ring or to a replica. -/
def wantsRecord (s : State) (c q : Nat) : Bool := (deltaRing s c q).2 ≠ 0 || !(ctxAt s c).delta.repl.isEmpty

/-- The steps of an OWN block (R353, R345, R347). -/
def ownBlock (c h b d : Nat) : Eng Unit := do
  let q := quarterOf h
  drainCount c q b
  modify (modSweep c fun w => { w with swept := w.swept ++ [b] })
  let s ← get
  let cur := recordAt s c (dnCur s c) b
  let alt := recordAt s c (!dnCur s c) b
  let e := envOf s c (bdGroup d)
  let step := (sweepAt s c).step.toNat
  let grad ← engRead c q cur 16384
  let master ← engRead c q (cur + 16384) 16384
  let st ← engRead c q (cur + 33024) (stateSize e.g)
  let (w, st', fl) := evalBlock e (words32 grad) (words32 master) st
  engWrite c q (alt + 16384) (bytes32 w)
  engWrite c q (alt + 33024) st'
  engWrite c q alt (List.replicate 16384 0)
  let old ← imgRead c q d
  logImage c q b old
  let (new, fl2) := imageOf (bdWfmt d) (bdSp24 d) (gdRmode e.g) (gdSatf e.g) (e.base + 32768) w old
  imgWrite c q d new
  let dg := imageDigest b step new
  digestWrite c q alt dg
  let s ← get
  let dl := (ctxAt s c).delta
  let m := dl.master
  let ask := dl.owed.filter fun o => o.1 = b
  let prev ← if wantsRecord s c q || !ask.isEmpty then engRead c q (cur + 32768) 16 else pure []
  let record (enc : Nat) : List Byte := dataRecord s c b step enc (bdWfmt d) (bdSp24 d) m (old ++ if m then master else [])
    (new ++ if m then bytes32 w else []) dg prev
  -- the whole image goes to the peers that have asked for it (R369)
  let s1 := useFree evalFree s
  let s2 := if ask.isEmpty then s1
    else toTargets c q (dl.repl.filter fun t => ask.any fun o => decide (o.2 = t.1)) (record 1)
      (modDelta c (fun x => { x with owed := x.owed.filter fun o => o.1 ≠ b }) s1)
  if wantsRecord s c q then set (deltaQueue c q 1 (h + 16 * (fl ||| fl2)) b (record dl.enc) s2)
  else set (blockEnds c h (fl ||| fl2) b s2)

/-- DARNING_OWN_BLOCK (R352, R353): in LAMB's pass 1 the block is read and computed only (R346). -/
def execDarningOwnBlock (ctx : Fin 16) (hoop : Fin 8) (s : State) : Out :=
  let c := ctx.val
  let h := hoop.val
  engineStep c h 0 (fun b d => do
    let s ← get
    if inPass1 s c then lambBlock c h b d else ownBlock c h b d) s

/-! ## Blocks with ROLE FROZEN (R355) -/

/-- DARNING_FROZEN_BLOCK: MASTER, DIGEST and state are copied from version CUR to version ALT. -/
def execDarningFrozenBlock (ctx : Fin 16) (hoop : Fin 8) (s : State) : Out :=
  let c := ctx.val
  let h := hoop.val
  engineStep c h 2 (fun b d => do
    let s ← get
    let q := quarterOf h
    let cur := recordAt s c (dnCur s c) b
    let alt := recordAt s c (!dnCur s c) b
    let n := stateSize (groupAt (sweepAt s c) (bdGroup d))
    let copy (off len : Nat) : Eng Unit := do
      let bs ← engRead c q (cur + off) len
      engWrite c q (alt + off) bs
    copy 16384 16384
    copy 32768 16
    copy 33024 n
    modify fun s => blockDone c b (modSweep c (fun w => { w with swept := w.swept ++ [b] }) s)) s

/-! ## Blocks with ROLE REPLICA (R354, R369) -/

/-- A divergence is raised, then DIVPOL acts (R369): 0 goes on, 1 asks the owner, 2 faults the context with HALTED. -/
def diverged (c b peer point step : Nat) (s : State) : State :=
  let s1 := raise 0x0015 c (toLE 4 b ++ toLE 2 peer ++ toLE 1 point ++ toLE 1 0 ++ toLE 8 step) s
  match fld (dnReg s c 0) 1 2 with
  | 1 =>
    let s2 := modDelta c (fun d => { d with asked := if d.asked.contains b then d.asked else d.asked ++ [b] }) s1
    if peer = ownId s then
      modDelta c (fun d => { d with owed := if d.owed.contains (b, peer) then d.owed else d.owed ++ [(b, peer)] }) s2
    else sendOut c 0 peer (.resyncAsk (Fin.ofNat 16 c) (BitVec.ofNat 32 b) s.dev.moduleId) s2
  | 2 => faultAt c .halted noItem s1
  | _ => s1

def asked (s : State) (c b : Nat) : Bool := (ctxAt s c).delta.asked.contains b

/-- A record is applied to its block; at a divergence with RESYNC_FROM_OWNER the block waits for the owner's REPLACE
record, which needs no PREV_DIGEST. -/
def replicaBlock (c h b d : Nat) (bs : List Byte) : Eng Unit := do
  let s ← get
  let q := quarterOf h
  let r := dheadOf bs
  let step := (sweepAt s c).step.toNat
  let cur := recordAt s c (dnCur s c) b
  let alt := recordAt s c (!dnCur s c) b
  let own ← engRead c q (cur + 32768) 16
  let wasAsked := asked s c b
  if !wasAsked && leNat own ≠ r.prev then modify (diverged c b r.src 0 step)
  let s ← get
  if (ctxAt s c).latched.isSome then return
  if !wasAsked && asked s c b then return
  let old ← imgRead c q d
  let master ← if r.master then engRead c q (cur + 16384) 16384 else pure []
  let pay := padTo r.ilen (expand (r.clen + 1) r.ilen ((bs.drop 64).take r.clen))
  let n := bdSize d
  let new := if r.enc = 0 then xorBytes (pay.take n) old else pay.take n
  logImage c q b old
  imgWrite c q d new
  if r.master then
    let m := (pay.drop n).take 16384
    engWrite c q (alt + 16384) (if r.enc = 0 then xorBytes m master else m)
  let dg := imageDigest b step new
  digestWrite c q alt dg
  if leNat dg ≠ r.digest then
    modify (diverged c b r.src 1 step)
    let s ← get
    if asked s c b || (ctxAt s c).latched.isSome then return
  modify fun s => blockDone c b (modDelta c (fun x => { x with asked := x.asked.filter (· ≠ b) })
    (modSweep c (fun w => { w with swept := if w.swept.contains b then w.swept else w.swept ++ [b] }) s))

/-- DARNING_REPLICA_BLOCK: once the block's DATA record of this STEP has come (R354). -/
def execDarningReplicaBlock (ctx : Fin 16) (hoop : Fin 8) (s : State) : Out :=
  let c := ctx.val
  engineStep c hoop.val 1 (fun b d => do
    let s ← get
    if inPass1 s c then return
    let mine (r : Nat × List Byte) : Bool := decide (r.1 = b) && decide ((dheadOf r.2).step = (sweepAt s c).step.toNat)
    match (ctxAt s c).delta.ready.find? mine with
    | none => pure ()
    | some r =>
      set (modDelta c (fun x => { x with ready := eraseFirst mine x.ready }) s)
      -- an XOR record gives way to the REPLACE record that was asked for
      if !(asked s c b) || (dheadOf r.2).enc = 1 then replicaBlock c hoop.val b d r.2) s

/-- LAMB_PASS2: every engine has finished pass 1 (R346). -/
def execLambPass2 (ctx : Fin 16) (s : State) : Out :=
  let c := ctx.val
  let w := sweepAt s c
  let ready := (List.range (dnNblk s c)).all fun b =>
    w.pass1.contains b || ((bdAt s c 0 b).map fun d => !isLamb w d).getD false
  ground (if w.st = .opened && inPass1 s c && ready then modSweep c (fun w => { w with lambPass2 := true }) s
    else s) s

/-! ## Rollback and commit (R357 to R360) -/

/-- The causes of SWEEP_ROLLED_BACK (Table 12.16). -/
def causeCommand : Nat := 0
def causeFault : Nat := 1
def causeOwner : Nat := 2
def causeRecover : Nat := 3

/-- The sweep becomes ROLLING_BACK: the engines take no new block, and records of blocks in flight are not written. -/
def beginRollback (c cause : Nat) (s : State) : State :=
  let w := sweepAt s c
  if w.st = .opened || w.st = .done then
    (List.range 8).foldl (fun s h => pauseEnds h s) <| modCtx c (fun x => { x with
      sweep := { x.sweep with st := .rollingBack, cause := cause }
      delta := { x.delta with ready := []
                              queue := (x.delta.queue.map fun p => (p.1, p.2.filter fun r => r.1 % 256 ≠ 1)).filter fun p => p.2 ≠ [] } }) s
  else s

/-- The logged image of a block is restored; one that cannot be read is formed anew from MASTER of version CUR (R359). -/
def restoreBlock (c b : Nat) : Eng Unit := do
  let s ← get
  let d ← bdRead c 0 b
  let q := quarterOf (bdHoop d)
  match (engRead c q (logSlotAt s c b) (64 + bdSize d)).run s with
  | (.ok bs, _) => imgWrite c q d (bs.drop 64)
  | (.error _, _) =>
    let m ← engRead c q (recordAt s c (dnCur s c) b + 16384) 16384
    let g := groupAt (sweepAt s c) (bdGroup d)
    -- only the index words of a 2:4 image are kept
    let present ← if bdSp24 d then imgRead c q d else pure []
    imgWrite c q d (imageOf (bdWfmt d) (bdSp24 d) (gdRmode g) (gdSatf g) s.free (words32 m) present).1
    modify fun s => raise 0x0013 c (toLE 4 b) (useFree evalFree s)
  modify (modSweep c fun w => { w with restored := w.restored + 1 })

/-- Steps whose failure changes nothing further: a rollback goes on. -/
def tryEng (x : Eng Unit) (s : State) : State :=
  match x.run s with
  | (_, s') => s'

/-- The sweep has ended in NONE: the commands that wait for it end (R358). -/
def sweepEnds (c n : Nat) (s : State) : State :=
  let s1 := (s.waits.filter fun w => match w.what with
    | .sweepRollback x => decide (x = c)
    | _ => false).foldl (fun s w => finish w.seq .ok n s) s
  finishAll (fun w => match w with
    | .sweepCommit x => decide (x = c)
    | _ => false) .badState s1

/-- A rollback: the logged images are restored, the header is marked, ROLLBACK records are queued, the event is raised and
the sweep becomes NONE (R358). -/
def rollbackNow (c : Nat) (s : State) : State :=
  let w := sweepAt s c
  let s1 := w.logged.foldl (fun s b => tryEng (restoreBlock c b) s) s
  let s2 := tryEng (logHeader c 3) s1
  let step := w.step.toNat
  let n := (sweepAt s2 c).restored
  let s3 := toReplicas c 0 (plainRecord s c 2 step 0) (deltaAll c 2 step s2)
  let cause := if w.recover then causeRecover else w.cause
  let s4 := raise 0x0012 c (toLE 8 step ++ toLE 1 cause ++ toLE 3 0 ++ toLE 4 n)
    (modCtx c (fun x => { x with sweep := Sweep.reset }) s3)
  sweepEnds c n s4

/-- An uncorrectable word that the commit of a sweep needs: of the page tables, on the way to the log header (R547). -/
def headerUe (s : State) (c : Nat) : Option Nat :=
  match (logHeader c 2).run s with
  | (.error (.fault .eccUe (.word pa)), _) => some pa
  | _ => none

/-- A DONE sweep commits in one swap: CUR flips, DN_STEP takes STEP, the header is marked, COMMIT records are queued and
the event is raised (R357). Records of this STEP that are left over are discarded and counted (R368). -/
def sweepCommitNow (c : Nat) (s : State) : State :=
  let step := (sweepAt s c).step
  let cur := !dnCur s c
  let s1 := modCtx c (fun x => { x with
    dn := Tab.set 0 x.dn 0 (Tab.get 0 x.dn 0 ^^^ 1), dnStep := step }) s
  let s2 := tryEng (logHeader c 2) s1
  raise 0x0011 c (toLE 8 step.toNat ++ toLE 1 cur.toNat)
    (deltaAll c 3 step.toNat (modCtx c (fun x => { x with
      sweep := Sweep.reset, cntInbox := satAdd 32 x.cntInbox x.delta.ready.length, delta := { x.delta with ready := [] } }) s2))

/-! ## Delta rings (R367) -/

/-- The first record of a quarter's queue that `is` selects has been written or dropped. -/
def dropRecord (c q : Nat) (is : Nat × Nat × List Byte → Bool) (s : State) : State :=
  match (queued s c q).find? is with
  | none => s
  | some (kind, b, _) =>
    let s1 := modDelta c (fun d => { d with queue := Tab.set [] d.queue q (eraseFirst is (Tab.get [] d.queue q)) }) s
    if kind % 256 = 1 then pauseEnds (kind / 256 % 16) (blockEnds c (kind / 256 % 16) (kind / 4096) b s1) else s1

/-- The record at the front of a quarter's queue has been written or dropped. -/
def popRecord (c q : Nat) (s : State) : State := dropRecord c q (fun _ => true) s

/-- Under DROP, the first DATA record of a quarter's queue does not fit: it is dropped and counted (R367). -/
def dropData (c q : Nat) (s : State) : State :=
  let isData (r : Nat × Nat × List Byte) : Bool := decide (r.1 % 256 = 1)
  match (queued s c q).find? isData with
  | none => s
  | some (_, _, bs) =>
    dropRecord c q isData (toReplicas c q bs (modCtx c (fun x => { x with
      cntDrop := satAdd 32 x.cntDrop 1
      delta := { x.delta with gaps := Tab.set 0 x.delta.gaps q (Tab.get 0 x.delta.gaps q + 1) } }) s))

/-- What the ring-full policy does while the front of a quarter's queue does not fit: it waits; under DROP a DATA record at the
front goes, and behind a COMMIT or ROLLBACK that waits every DATA record, none of which fits either. -/
def ringFull (c q : Nat) (s : State) : State :=
  if !(ctxAt s c).delta.drop then s
  else if ((queued s c q).head?.map (·.1 % 256)) = some 1 then dropData c q s
  else (queued s c q).foldl (fun s _ => dropData c q s) s

/-- A record is placed, after a PAD where it needs one; false where it does not fit (R286, R367). -/
def placeRecord (c q : Nat) (bs : List Byte) : Eng Bool := do
  let s ← get
  let n := 2 ^ (deltaRing s c q).2
  let k := bs.length / 64
  match placeIn n (deltaHead s c q).toNat (deltaTail s c q).toNat k with
  | .put p => do
    deltaPut c q p k bs
    return true
  | .wait => return false
  | .pad m => do
    deltaPut c q (n - m) m (plainRecord s c 5 (dheadOf bs).step m)
    let s ← get
    match placeIn n (deltaHead s c q).toNat (deltaTail s c q).toNat k with
    | .put p => do
      deltaPut c q p k bs
      return true
    | _ => return false

/-- A record goes into its ring; it waits, or is dropped and counted, where it does not fit. After drops a GAP record
precedes the next one that fits (R367). -/
def ringStep (c q kind : Nat) (bs : List Byte) : Eng Unit := do
  let s ← get
  let gaps := Tab.get 0 (ctxAt s c).delta.gaps q
  let n := 2 ^ (deltaRing s c q).2
  let tail := (deltaTail s c q).toNat
  let free := n - (tail + 2 ^ 32 - (deltaHead s c q).toNat) % 2 ^ 32
  if gaps ≠ 0 && free < 1 + needs n (tail + 1) (bs.length / 64) then modify (ringFull c q)
  else do
    if gaps ≠ 0 then
      let _ ← placeRecord c q (plainRecord s c 4 (dheadOf bs).step gaps)
      modify fun s => raise 0x0014 c (toLE 1 q ++ toLE 3 0 ++ toLE 4 gaps)
        (modDelta c (fun d => { d with gaps := Tab.set 0 d.gaps q 0 }) s)
    if ← placeRecord c q bs then
      modify fun s => popRecord c q (if kind % 256 = 1 then toReplicas c q bs s else s)
    else modify (ringFull c q)

/-- DELTA_RING_WRITE: messages of replica records that wait are sent, then the record at the front of the quarter's queue
is written; a quarter without a ring writes none. -/
def execDeltaRingWrite (ctx : Fin 16) (quarter : Fin 4) (s : State) : Out :=
  let c := ctx.val
  let q := quarter.val
  let s1 := pumpNotes c s
  ground (match queued s1 c q with
  | [] => s1
  | (kind, _, bs) :: _ =>
    if (deltaRing s1 c q).2 = 0 then popRecord c q (toReplicas c q bs s1)
    else engOut c noItem (ringStep c q kind bs) s1) s

/-! ## The inbox (R354, R361, R368) -/

/-- A record that has reached this module is written into the inbox ring once there is room; the message of one that the
module itself sends can name it then (R368). -/
def inboxFill (c : Nat) : Eng Unit := do
  let s ← get
  let d := (ctxAt s c).delta
  match d.arrived with
  | [] => pure ()
  | (bs, chan) :: rest =>
    if d.inbox.2 = 0 then
      set (modCtx c (fun x => { x with cntInbox := satAdd 32 x.cntInbox 1, delta := { x.delta with arrived := rest } }) s)
    else
      let n := 2 ^ d.inbox.2
      let k := bs.length / 64
      let adv (m : Nat) (s : State) : State := modDelta c (fun d => { d with inTail := (d.inTail + m) % 2 ^ 32 }) s
      let put (p : Nat) : Eng Unit := do
        engWrite c 0 (d.inbox.1 + 64 * p) bs
        let note := chan.toList.map fun t => (t, noteMsg (d.inbox.1 + 64 * p) bs.length)
        modify fun s => modDelta c (fun d => { d with arrived := rest, notes := d.notes ++ note }) (adv k s)
      match placeIn n d.inHead d.inTail k with
      | .put p => put p
      | .wait => pure ()
      | .pad m => do
        engWrite c 0 (d.inbox.1 + 64 * (n - m)) (plainRecord s c 5 (dheadOf bs).step m)
        modify (adv m)
        match placeIn n d.inHead ((d.inTail + m) % 2 ^ 32) k with
        | .put p => put p
        | _ => pure ()

/-- A channel of the context whose receiver is the controller and whose oldest message names bytes: its number, its slots,
DADDR and DLEN (R368). -/
def noteChan (s : State) (c : Nat) : Option (Nat × Nat × Nat × Nat) :=
  (s.chans.map (·.1)).findSome? fun n =>
    match serviceMsg n s with
    | some (x, .ok (skip, some [v])) =>
      if x = c && fld v.toNat 128 32 ≠ 0 then some (n, skip + 1, fld v.toNat 64 64, fld v.toNat 128 32) else none
    | _ => none

/-- A record is handed to the engine that sweeps its block, rolls the sweep back, or is discarded and counted. -/
def inboxHand (c : Nat) (bs : List Byte) (s : State) : State :=
  let r := dheadOf bs
  let w := sweepAt s c
  let same := decide (w.step.toNat = r.step)
  let drop (s : State) : State := modCtx c (fun x => { x with cntInbox := satAdd 32 x.cntInbox 1 }) s
  if r.kind = 2 then
    if same && (w.st = .opened || w.st = .done) then beginRollback c causeOwner s else drop s
  else
    let replica := ((bdAt s c 0 r.block).map fun d => bdV d && decide (bdRole d = 1)).getD false
    if r.kind = 1 && same && w.st = .opened && replica && r.block < dnNblk s c then
      modDelta c (fun d => { d with ready := d.ready ++ [(r.block, bs)] }) s
    else drop s

/-- The head of the inbox ring moves past the PADs and the records handed over; `fuel` bounds their number. -/
def inboxFree (c : Nat) : Nat → Eng Unit
  | 0 => pure ()
  | fuel + 1 => do
    let s ← get
    let d := (ctxAt s c).delta
    let adv (m : Nat) : Eng Unit := do
      modify fun s => modDelta c (fun d => { d with inHead := (d.inHead + m) % 2 ^ 32 }) s
      inboxFree c fuel
    match d.taken.find? fun t => t.1 = d.inHead with
    | some t => do
      modify fun s => modDelta c (fun d => { d with taken := eraseFirst (fun u => u.1 = t.1) d.taken }) s
      adv t.2
    | none =>
      if d.inHead = d.inTail then pure ()
      else
        let h ← engRead c 0 (d.inbox.1 + 64 * (d.inHead % 2 ^ d.inbox.2)) 64
        if (dheadOf h).kind = 5 then adv (max 1 (dheadOf h).block) else pure ()

/-- The record that the oldest channel message names by DADDR and DLEN is handed over. A message that names no bytes of the
ring's records waits while records wait for room, and names nothing otherwise. -/
def inboxTake (c : Nat) : Eng Unit := do
  let s ← get
  let d := (ctxAt s c).delta
  match noteChan s c with
  | none => pure ()
  | some (n, k, addr, len) => do
    let size := 2 ^ d.inbox.2
    let held := (d.inTail + 2 ^ 32 - d.inHead) % 2 ^ 32
    let slots := ceilDiv len 64
    let pos := (addr - d.inbox.1) / 64
    let ahead := (pos + size - d.inHead % size) % size
    let first := (d.inHead + ahead) % 2 ^ 32
    if d.inbox.2 = 0 || addr < d.inbox.1 || addr % 64 ≠ 0 || size ≤ pos || held < ahead + slots ||
      d.taken.any (fun t => t.1 = first) then
      if d.arrived.isEmpty then set (serviceTaken n k s)
    else
      let bs ← engRead c 0 addr (64 * slots)
      modify fun s => inboxHand c bs (modDelta c (fun d => { d with taken := d.taken ++ [(first, slots)] }) (serviceTaken n k s))
      inboxFree c (size + 1)

/-- DELTA_INBOX_RECEIVE (R368). -/
def execDeltaInboxReceive (ctx : Fin 16) (s : State) : Out :=
  let c := ctx.val
  ground (engOut c noItem (do
    inboxFill c
    inboxTake c) s) s

/-! ## Resynchronisation and digests (R369, R370) -/

/-- A replica's request: the owner sends a REPLACE record of the block's current image once the open sweep has formed it; until
then, and outside a sweep, the request waits for the block's next image (R369). -/
def resyncAsked (c b peer : Nat) (s : State) : State :=
  if dnNblk s c ≤ b then s
  else
    engOut c noItem (do
      let d ← bdRead c 0 b
      if bdV d && bdRole d = 0 then
        let w := sweepAt s c
        let q := quarterOf (bdHoop d)
        let dl := (ctxAt s c).delta
        if (w.st = .opened || w.st = .done) && (w.done.contains b || (inFlight s c).any fun p => p.1 = b) then
          let img ← imgRead c q d
          let alt := recordAt s c (!dnCur s c) b
          let m ← if dl.master then engRead c q (alt + 16384) 16384 else pure []
          let dg ← engRead c q (alt + 32768) 16
          let prev ← engRead c q (recordAt s c (dnCur s c) b + 32768) 16
          let all := img ++ m
          let r := dataRecord s c b w.step.toNat 1 (bdWfmt d) (bdSp24 d) dl.master all all dg prev
          set (toTargets c q ((dl.repl.filter fun t => t.1 = peer).take 1) r s)
        else
          set (modDelta c (fun x => { x with
            owed := if x.owed.contains (b, peer) then x.owed else x.owed ++ [(b, peer)] }) s)) s

/-- REPLICA_RESYNC (R369). -/
def execReplicaResync (ctx : Fin 16) (block : BitVec 32) (peer : BitVec 14) (s : State) : Out :=
  ground (resyncAsked ctx.val block.toNat peer.toNat s) s

/-- What a digest read finds: nothing for a block that is not in use or cannot be reached, a digest, or an uncorrectable
word (R547). -/
inductive DigestRead where
  | skip
  | digest (d : BitVec 32 × BitVec 128)
  | ue (pa : Nat)
deriving DecidableEq, Repr

/-- The digest of version CUR of a block (R370). -/
def digestAt (s : State) (c b : Nat) : DigestRead :=
  let stopped (e : Stop) : DigestRead := match e with
    | .fault _ (.word pa) => .ue pa
    | _ => .skip
  if dnNblk s c ≤ b then .skip
  else
    match (bdRead c 0 b).run s with
    | (.error e, _) => stopped e
    | (.ok d, _) =>
      if !bdV d then .skip
      else
        match (engRead c 0 (recordAt s c (dnCur s c) b + 32768) 16).run s with
        | (.error e, _) => stopped e
        | (.ok dg, _) => .digest (BitVec.ofNat 32 b, BitVec.ofNat 128 (leNat dg))

/-- The digests of some blocks. -/
def digestsOf (s : State) (c : Nat) (bs : List Nat) : List (BitVec 32 × BitVec 128) :=
  bs.filterMap fun b => match digestAt s c b with
    | .digest d => some d
    | _ => none

/-- The first uncorrectable word that the digests of some blocks meet. -/
def digestUe (s : State) (c : Nat) (bs : List Nat) : Option Nat :=
  bs.findSome? fun b => match digestAt s c b with
    | .ue pa => some pa
    | _ => none

/-- The blocks of a peer's list whose digests differ from this module's. -/
def mismatches (s : State) (c : Nat) (ds : List (BitVec 32 × BitVec 128)) : List Nat :=
  (ds.filter fun p => (digestsOf s c [p.1.toNat]).any fun own => decide (own.2 ≠ p.2)).map fun p => p.1.toNat

/-- Each mismatch is handled under R369 where this module's copy is a replica. -/
def compareDigests (c peer : Nat) (ds : List (BitVec 32 × BitVec 128)) (s : State) : State :=
  let w := sweepAt s c
  let step := if w.st = .none then (ctxAt s c).dnStep else w.step
  (mismatches s c ds).foldl (fun s b =>
    if ((bdAt s c 0 b).map fun d => decide (bdRole d = 1)).getD false then diverged c b peer 2 step.toNat s else s) s

/-- A list of digests from a peer for the DIGEST_COMPARE with this number: the peer's own list is compared and answered with
this module's, over the links; an answer ends the DIGEST_COMPARE (R370, R477). A word that the comparison needs and that
proves uncorrectable is reported (R547). -/
def takeDigests (c peer : Nat) (answer : Bool) (seq : BitVec 48) (digests : List (BitVec 32 × BitVec 128)) (s : State) : State :=
  if !answer then
    let bs := digests.map fun p => p.1.toNat
    let s1 := match digestUe s c bs with
      | some pa => ueFound pa s
      | none => s
    compareDigests c peer digests
      (sendOut c 0 peer (.digests (Fin.ofNat 16 c) s.dev.moduleId true seq (digestsOf s c bs)) s1)
  else
    match s.waits.find? fun w => decide (w.seq = seq.toNat) with
    | none => s
    | some w =>
      match w.what with
      | .digest x p first count =>
        if x = c && p = peer then
          let mine := digests.filter fun d => decide (first ≤ d.1.toNat) && decide (d.1.toNat < first + count)
          match digestUe s c (mine.map fun d => d.1.toNat) with
          | some pa => finish w.seq .memUe 0 (ueFound pa s)
          | none => finish w.seq .ok (mismatches s c mine).length (compareDigests c p mine s)
        else s
      | _ => s

/-- DIGEST_EXCHANGE (R370). -/
def execDigestExchange (ctx : Fin 16) (peer : BitVec 14) (exchange : Bool × BitVec 48)
    (digests : List (BitVec 32 × BitVec 128)) (s : State) : Out :=
  ctl (takeDigests ctx.val peer.toNat exchange.1 exchange.2 digests s) s

/-- PEER_ANSWER_TIMEOUT: a command that waits for a peer's answer completes with TIMEOUT (Table 12.8). -/
def execPeerAnswerTimeout (seq : BitVec 48) (s : State) : Out :=
  ctl (match s.waits.find? fun w => decide (w.seq = seq.toNat) with
  | none => s
  | some w =>
    match w.what with
    | .digest _ _ _ _ => finish w.seq .timeout 0 s
    | _ => s) s

end Sys2Proof.Machine
end

