-- ==== Sys2Proof/Machine/Links.lean ====
section
/-! DEFINITION. Link ports: training, retraining, flits, replay, messages from other modules, discarded messages, and the
host-link retrain (R458, R464, R465, R470 to R473, R480, R484, R503). -/

namespace Sys2Proof.Machine

/-! ## Host ports (R503) -/

/-- A port's sessions close, its rings, event ring and PUSH_PAGE return to their reset values, and its open transactions
are kept as orphans. A command of the port that still waits reports by CMD_DONE. -/
def hostRetrain (p : Nat) (s : State) : State :=
  let s1 := (List.range 8).foldl (fun s r => orphan (sessionOf p r) s) s
  let mine (o : Origin) : Bool := match o with
    | .ring q _ => decide (q = p)
    | _ => false
  { modPort p (fun x => { x with rings := [], ev := EvRing.reset, pushPage := 0 }) s1 with
    waits := s1.waits.map fun w => if mine w.origin then { w with accepted := true } else w }

/-! ## States of a port (R470 to R472) -/

/-- The FEC mode that a port runs: HL ports always run LOW_LATENCY (R456). -/
def fecOf (s : State) (p : Nat) : Nat := if p < 12 then lkFec (linkAt s p) else 1

/-- The messages of unacknowledged flits are resent ahead of later messages of their direction (R472). -/
def resend (p : Nat) (s : State) : State :=
  let old := ((linkAt s p).retry.flatMap (·.msgs)).map fun m => { m with again := true }
  pump (modNet (fun n => { n with waiting := old ++ n.waiting }) (modLink p (fun x => { x with retry := [], fill := 0 }) s))

/-- An UP port starts to retrain: LINK_RETRAIN with its cause; an HL port's retrain is a host-link retrain (R472, R484). -/
def retrain (p cause : Nat) (s : State) : State :=
  let s1 := modLink p (fun x => { x with st := .training, retrains := satAdd 32 x.retrains 1 }) s
  let s2 := resend p (raise 0x0102 0 (toLE 1 p ++ toLE 1 cause) s1)
  if p < 12 then s2 else hostRetrain (p - 12) s2

/-- An UP port leaves that state for DOWN or DISABLED with a cause of LINK_DOWN (Table 13.6). -/
def linkDown (p : Nat) (st : LinkState) (cause : Nat) (s : State) : State :=
  let s1 := resend p (raise 0x0101 0 (toLE 1 p ++ toLE 1 cause) (modLink p (fun x => { x with st := st }) s))
  if p < 12 then s1 else hostRetrain (p - 12) s1

/-- A module whose MODULE_ID lies outside its torus holds its DL ports DOWN (R463). -/
def idFits (s : State) : Bool := decide (ownId s < ringLen s 0 * ringLen s 1 * ringLen s 2)

/-- DL ports that are UP go DOWN where the module's MODULE_ID or the RING values of their dimension hold them so (R463,
R465). -/
def holdDown (s : State) : State :=
  (dlPorts s).foldl (fun t p => if (linkAt t p).st = .up && !(idFits s && ringsAgree s p) then linkDown p .down 3 t else t) s

/-- LINK_CFG takes a new value: a port no longer in use is DISABLED, any other retrains (R464, R472). -/
def linkConfig (p : Nat) (v : BitVec 64) (s : State) : State :=
  let up := decide ((linkAt s p).st = .up)
  let s1 := modLink p (fun x => { x with cfg := v }) s
  tellPorts s (holdDown (if !v.getLsbD 0 then
      if up then linkDown p .disabled 2 s1 else modLink p (fun x => { x with st := .disabled }) s1
    else if up then retrain p 3 s1
    else modLink p (fun x => { x with st := .training }) s1))

/-- Whether a port may train: in use, not UP, with an LP image running and the fabric on (R470, R492, R507). -/
def mayTrain (s : State) (p : Nat) : Bool :=
  let x := linkAt s p
  lkEn x && decide (x.st ≠ .up) && decide (s.dev.lp ≠ 0xFF) && !s.pins.dormant && !s.dev.bootWait

/-- Training has ended without success: LINK_DOWN with its cause (Table 13.6), 4 TRAINING_FAILED, or 0 LOSS_OF_LOCK where the
lock that the port lost has not come back. The spec does not say when a port that lost lock goes DOWN: DESIGN CHOICE (log
entry 36). -/
def trainFailed (p cause : Nat) (s : State) : State :=
  raise 0x0101 0 (toLE 1 p ++ toLE 1 cause) (modLink p (fun x => { x with st := .down }) s)

/-- The lanes that a training may end with: 8, or 4 where ALLOW4 is set. -/
def lanesOk (x : Link) (lanes : Nat) : Bool := decide (lanes = 8) || (decide (lanes = 4) && lkAllow4 x)

/-- A port becomes UP: flit numbers and credits start anew, LINK_UP and, at four lanes, LINK_DEGRADED are raised (R470, R472). -/
def linkUp (p lanes peerMod peerPort delay : Nat) (s : State) : State :=
  let s1 := modLink p (fun x => { x with
    st := .up, lanes := lanes, peerPort := peerPort, peerMod := peerMod, delay := delay, nextRecv := 0, nextSend := 0
    asked := false, retry := [], fill := 0, used := [], owed := [], turns := [] }) s
  let s2 := raise 0x0100 0 (toLE 1 p ++ toLE 1 lanes ++ toLE 1 (fecOf s p) ++ toLE 1 peerPort ++ toLE 2 peerMod ++ toLE 2 0 ++
    toLE 4 delay) s1
  pump (if lanes = 4 then raise 0x0103 0 (toLE 1 p ++ toLE 1 4) s2 else s2)

/-- LINK_TRAIN: a training ends. A peer that is not the neighbour which ROLE and RING imply, or another port of it, is
LINK_MISWIRED; otherwise a MODULE_ID outside the torus, or different RING values, hold the port DOWN (R463, R465, R470). -/
def execLinkTrain (port : Fin 14) (result : TrainResult) (s : State) : Out :=
  let p := port.val
  let x := linkAt s p
  let down (s : State) : State := modLink p (fun x => { x with st := .down }) s
  ground (if !mayTrain s p then s
  else
    tellPorts s (match result with
    | .failed => trainFailed p 4 s
    | .noLock => trainFailed p 0 s
    | .trained lanes peerMod peerPort peerRing delay =>
      if !lanesOk x lanes then trainFailed p 4 s
      else if 12 ≤ p then linkUp p lanes peerMod.toNat peerPort delay s
      else if neighbourOf s (lkRole x) ≠ some peerMod.toNat || peerPort ≠ (p + 6) % 12 then
        raise 0x0104 0 (toLE 1 p ++ toLE 1 peerPort ++ toLE 2 peerMod.toNat) (down s)
      else if !idFits s || peerRing ≠ lkRing x || !ringsAgree s p then down s
      else linkUp p lanes peerMod.toNat peerPort delay s)) s

/-- An UP port loses its link: it retrains with a cause of LINK_RETRAIN, or its peer has been reset (R472, R502). -/
def linkLost (p : Nat) (cause : RetrainCause) (s : State) : State :=
  match cause with
  | .lossOfLock => retrain p 0 s
  | .replayRate => retrain p 1 s
  | .laneFailed => retrain p 2 s
  | .peerReset => linkDown p .down 1 s

/-- LINK_RETRAIN (R472). -/
def execLinkRetrain (port : Fin 14) (cause : RetrainCause) (s : State) : Out :=
  ctl (if (linkAt s port.val).st = .up then tellPorts s (linkLost port.val cause s) else s) s

/-- LINK_DELAY_MEASURE (R471). -/
def execLinkDelayMeasure (port : Fin 14) (delay : Nat) (s : State) : Out :=
  ctl (if (linkAt s port.val).st = .up then modLink port.val (fun x => { x with delay := min delay (2 ^ 32 - 1) }) s else s) s

/-- HOST_LINK_RETRAIN: the effects of R503 on an HL port. -/
def execHostLinkRetrain (hl : Fin 2) (s : State) : Out := ctl (hostRetrain hl.val s) s

/-! ## Messages from other modules (R275 to R278, R287, R288, R302, R368 to R370, R477, R479, R480) -/

/-- The fault code that a number names (Table 15.1). -/
def FaultCode.ofNum (n : Nat) : Option FaultCode :=
  [FaultCode.bound, .xlate, .eccUe, .overrun, .knotOvf, .knotUdf, .gatherCount, .chanTooLong, .lateGradient, .steerMismatch,
    .hazard, .laneFlagTrap, .halted, .weightUe, .queueParity, .linkLost].find? fun f => f.num = n

/-- A fault that reaches a software context which exists. -/
def faultLive (c : Nat) (code : FaultCode) (it : Item) (s : State) : State :=
  if c = 0 || (ctxAt s c).st = .free then s else faultAt c code it s

/-- A LOST notice faults its context, unless a fault is latched (R473). -/
def lostMessage (c : Nat) (s : State) : State :=
  if (ctxAt s c).latched.isSome then s else faultLive c .linkLost noItem s

/-- Slots from another module are written into the ring of a receiver half of this module and acknowledged; what stops one
is raised in the half's context (R287, R469). -/
def slotsArrive (n q slot : Nat) (slots : List DataTok) (s : State) : State :=
  let x := chanAt s n
  if x.st ≠ .opened || !hasReceiver x then s
  else
    match putSlots q x slot slots s with
    | (s1, none) =>
      let note (m : Tab (Tab Nat)) (i : Nat) : Tab (Tab Nat) := Tab.set [] m (slotKey n (slot + i) x) (farClock s1)
      let s2 := if s1.dev.debug then
          useFree 1 (modNet (fun m => { m with clocks := (List.range slots.length).foldl note m.clocks }) s1)
        else s1
      sendOut x.ctx q x.peerMod (.ringAck (BitVec.ofNat 12 x.peerChan)) s2
    | (s1, some e) => e.out x.ctx noItem s1

/-- A tail or head comes in for an OPEN half, behind those before it (R27, R287, R288). -/
def ctrlOut (m : Bool × Nat × BitVec 32) (s : State) : State :=
  if (chanAt s m.2.1).st = .opened then modNet (fun n => { n with ctrls := n.ctrls ++ [m] }) s else s

/-- The oldest write of some kind to another module is acknowledged, and the notifications that waited for it leave (R28,
R469). -/
def farAcked (is : FarWrite → Bool) (s : State) : State :=
  sendTails (modNet (fun n => { n with far := eraseFirst is n.far }) s)

/-- The order in which replies that came over a link port reach one Hoop (R276, R469): a number beyond those of the knot
ports of this module. -/
def replyPort (p : Nat) : Nat := 2 ^ 48 + p

/-- A message that arrived on a port and a sub-channel. A knot request is relocated, checked and translated in the port's
quarter (R277); its failure goes back as the requester's fault. A message between other modules goes on by the port of its
lane class for its next direction (R467, R468). -/
def deliverMsg (p sub : Nat) (m : PeerMsg) (s : State) : State :=
  let q := portQuarter p
  match m with
  | .knotReq op value kaddr ctx fromMod site binding =>
    let ka := kaddrOf kaddr.toNat
    if ka.bad || 4 < op.toNat then undef .knotBinding ctx.val s
    else
      match knotAt s ctx.val q ka (op ≠ 2) with
      | .at_ pa =>
        useFree 1 (pushReq ⟨op.toNat, value, kaddr, ctx.val, pa, fromMod.toNat, some (siteNo site, binding.val), farClock s⟩ s)
      | e =>
        let code := (e.code.getD .bound).num
        sendOut ctx.val q fromMod.toNat (.knotFault ctx site binding (BitVec.ofNat 8 code) (2 ^ 63)) s
  | .knotReply site binding value retry =>
    useFree 1 (modNet (fun n => { n with
      reps := n.reps ++ [⟨replyPort p, siteNo site, binding.val, value, retry, farClock s⟩] }) s)
  | .knotAck site binding => siteDone (siteNo site) binding.val s
  | .knotFault ctx site binding code word =>
    (match FaultCode.ofNum code.toNat with
      | some f => if ctx = 0 || ctxSt s ctx.val = .free then s else siteFault ctx.val (siteNo site) binding.val f .none word.toNat s
      | none => s)
  | .ringSlots chan slot slots => slotsArrive chan.toNat q slot slots s
  | .ringAck chan => farAcked (fun w => decide (w.chan = some chan.toNat)) s
  | .chanTail chan tail => ctrlOut (false, chan.toNat, tail) s
  | .chanHead chan head => ctrlOut (true, chan.toNat, head) s
  | .copyUnit ctx dest bytes fromMod copyId =>
    modNet (fun n => { n with units := n.units ++ [⟨ctx.val, dest, bytes, fromMod.toNat, copyId, q⟩] }) s
  | .copyAck copyId fault =>
    (match s.net.copies.find? fun x => x.id = copyId with
      | none => s
      | some x =>
        match FaultCode.ofNum fault.toNat with
        | some f => if copyLive s x then failCopy x f .none s else s
        | none => modNet (fun n => { n with copies := n.copies.map fun y =>
            if y.id = copyId then { y with unacked := y.unacked - 1 } else y }) s)
  | .deltaRecord ctx bytes =>
    sendOut 0 q (dheadOf bytes).src (.recordAck ctx s.dev.moduleId)
      (modDelta ctx.val (fun d => { d with arrived := d.arrived ++ [(bytes, none)] }) s)
  | .recordAck ctx fromMod =>
    farAcked (fun w => decide (w.chan = none) && decide (w.ctx = ctx.val) && decide (w.dest = fromMod.toNat)) s
  | .resyncAsk ctx block fromMod => resyncAsked ctx.val block.toNat fromMod.toNat s
  | .digests ctx fromMod answer seq list => takeDigests ctx.val fromMod.toNat answer seq list s
  | .beacon count period remaining => takeBeacon p count period remaining s
  | .lost ctx => lostMessage ctx.val s
  | .transit _ dest _ _ _ _ =>
    (if dest.toNat = ownId s then s
      else enqueue ⟨0, q, dest.toNat, m, subOf s dest.toNat (some (lkRole (linkAt s p), sub)), false, none⟩ s)

/-- The messages of a flit, in order; the credits of their flits are owed to the peer. -/
def deliverAll (p : Nat) : List (Fin 2 × PeerMsg) → State → State
  | [], s => s
  | (sub, m) :: ms, s =>
    let k := laneKey (vcOf m) sub.val
    let s1 := modLink p (fun x => { x with owed := Tab.set 0 x.owed k (Tab.get 0 x.owed k + flitsOf m) }) s
    deliverAll p ms (deliverMsg p sub.val m s1)

/-- Credits come back (R460). -/
def takeCredits (p : Nat) (cs : List (Fin 4 × Fin 2 × Nat)) (s : State) : State :=
  cs.foldl (fun s (vc, sub, n) =>
    let k := laneKey vc.val sub.val
    modLink p (fun x => { x with used := Tab.set 0 x.used k (Tab.get 0 x.used k - n) }) s) s

/-- Flits up to the acknowledged number leave the retry buffer (R458). -/
def ackFlits (p : Nat) (ack : BitVec 16) (s : State) : State :=
  modLink p (fun x => { x with retry := x.retry.filter fun e => !decide ((ack - e.seq).toNat < 2 ^ 15) }) s

/-- Symbols that the FEC corrected are counted; more than 1,000,000 within 1 s raise LINK_CE_RATE (Tables 13.6, 13.7). How
many of the earlier ones still lie within that second is a free value: the model has no clock. -/
def countSymbols (p n : Nat) (s : State) : State :=
  if n = 0 then s
  else
    let x := linkAt s p
    let before := freeNat s 0 % (x.ceRecent + 1)
    let s1 := useFree 1 (modLink p (fun x => { x with corrected := satAdd 64 x.corrected n, ceRecent := before + n }) s)
    if before ≤ 1000000 && 1000000 < before + n then raise 0x0105 0 (toLE 1 p ++ toLE 3 0 ++ toLE 4 (before + n)) s1 else s1

/-- FLIT_RECEIVE: the next flit whose codeword is intact and whose CRC holds is accepted, its credits are taken and its
messages delivered; any other is discarded until the missing one arrives, and a replay is requested (R457, R458, R460). Only
an uncorrectable codeword counts as one (Table 13.7). -/
def execFlitReceive (port : Fin 14) (intact : Bool) (seq ack : BitVec 16) (flit : FlitBody) (s0 : State) : Out :=
  let p := port.val
  let x := linkAt s0 p
  let s := countSymbols p flit.corrected s0
  ground (if x.st ≠ .up then s0
  else if !intact then
    modLink p (fun x => { x with recv := satAdd 64 x.recv 1, uncorr := satAdd 32 x.uncorr 1, asked := true }) s
  else if !flit.crcOk || seq ≠ x.nextRecv then modLink p (fun x => { x with recv := satAdd 64 x.recv 1, asked := true }) s
  else
    let s1 := takeCredits p flit.credits (ackFlits p ack (modLink p (fun x => { x with
      recv := satAdd 64 x.recv 1, nextRecv := x.nextRecv + 1, asked := false }) s))
    (deliverAll p (if p < 12 then flit.messages else []) (pump s1))) s0

/-- FLIT_REPLAY: the peer requests a replay; the sender replays from the requested flit onward (R458). -/
def execFlitReplay (port : Fin 14) (fromSeq : BitVec 16) (s : State) : Out :=
  let p := port.val
  let x := linkAt s p
  let again := x.retry.filter fun e => decide ((e.seq - fromSeq).toNat < 2 ^ 15)
  ground (if x.st ≠ .up || again.isEmpty then s
  else (pump (modLink p (fun x => { x with
    retry := again, replays := satAdd 32 x.replays 1, sent := satAdd 64 x.sent again.length }) s))) s

/-! ## Discarded messages (R473) -/

/-- LINK_DISCARD: the n-th waiting message has waited 10 ms for a direction whose ports are not UP. It is discarded. Its LOST
notice faults its context, where that is of this module, or leaves on CTRL for the message's source; a notice that
cannot be delivered is itself discarded. -/
def execLinkDiscard (n : Nat) (s : State) : Out :=
  ground (match s.net.waiting[n]? with
  | none => s
  | some m =>
    match portNow s m with
    | some _ => s
    | none =>
      let p := (ownPort s m).getD 0
      let s1 := modLink p (fun x => { x with disc473 := satAdd 32 x.disc473 1 })
        (modNet (fun k => { k with waiting := k.waiting.eraseIdx n }) s)
      let s2 := raise 0x0106 0 (toLE 1 p ++ toLE 1 0 ++ toLE 2 m.dest ++ toLE 4 1) s1
      (match m.msg with
        | .lost _ => s2
        | .transit src _ ctx _ _ _ => sendOut 0 m.quarter src.toNat (.lost ctx) s2
        | _ => lostMessage m.ctx s2)) s

/-- LOST_NOTICE: a notice for a message of this module faults its context, unless a fault is latched. -/
def execLostNotice (ctx : Fin 16) (s : State) : Out :=
  ground (lostMessage ctx.val s) s

end Sys2Proof.Machine
end

