-- ==== Sys2Proof/Machine/Gather.lean ====
section
/-! DEFINITION. Gathering queues (R112 to R117). -/

namespace Sys2Proof.Machine

def gCfg (t : Tile) : Nat := cfgNum t 0xC0 4
def gFmt (t : Tile) : Nat := fld (gCfg t) 0 4
def gOutFmt (t : Tile) : Nat := fld (gCfg t) 4 4
def gTagged (t : Tile) : Bool := bitAt (gCfg t) 8
def gExp (t : Tile) : Nat := fld (cfgNum t 0xC4 4) 0 16
def gFirst (t : Tile) : Nat := fld (cfgNum t 0xC8 4) 0 10
def gLast (t : Tile) : Nat := fld (cfgNum t 0xC8 4) 16 10
def gGrp (t : Tile) : Nat := fld (cfgNum t 0xCC 4) 0 12
def gExpFwd (t : Tile) : Nat := cfgNum t 0xD0 4
def gABase (t : Tile) : Nat := fld (cfgNum t 0xD4 4) 0 20

/-- Whether GFMT and OUTFMT are among those of Table 03.14 (R117). -/
def gFmtOk (t : Tile) : Bool :=
  if gFmt t = 0xA then gOutFmt t = 0xA
  else (gFmt t = 4 || gFmt t = 5 || gFmt t = 6) && (gOutFmt t = 4 || gOutFmt t = 5 || gOutFmt t = 6)

/-- Whether a contribution is of 16-bit elements. -/
def gNarrow (t : Tile) : Bool := gFmt t = 4 || gFmt t = 5

/-- Slots that a contribution feeds, the step p of R113. -/
def gStep (t : Tile) : Nat := if gNarrow t then 2 else 1

/-- A float element as FP32, its subnormals flushed (R68, R114). -/
def gWiden (fmt x : Nat) : Nat :=
  match fmt with
  | 4 => (toLin fp32 ⟨0, 0⟩ false false (decLin bf16 (flushCode bf16 x))).1
  | 5 => (toLin fp32 ⟨0, 0⟩ false false (decLin fp16 (flushCode fp16 x))).1
  | _ => x

/-- Element e of a token, w bytes wide. -/
def tokElem (v : DataTok) (w e : Nat) : Nat := fld v.toNat (8 * w * e) (8 * w)

/-- An accumulator plus an addend (R114). -/
def gAdd (fmt a b : Nat) : Nat := if fmt = 0xA then (a + b) % 2 ^ 32 else addFlush fp32 a b

/-- A slot after the 16 addends that start at element `at_` of a contribution. -/
def gAccum (t : Tile) (v : DataTok) (at_ : Nat) (g : GSlot) : GSlot :=
  let w := if gNarrow t then 2 else 4
  let acc := (List.range 16).foldl (fun a e =>
    a + gAdd (gFmt t) (fld g.acc.toNat (32 * e) 32) (gWiden (gFmt t) (tokElem v w (at_ + e))) * 2 ^ (32 * e)) 0
  { acc := BitVec.ofNat 512 acc, count := g.count + 1, full := decide (g.count + 1 = gExp t) }

/-- The control queue paired with a data queue: the one that the same SW_IN entry feeds (R113). -/
def gPair (t : Tile) (q : Nat) : Option Nat :=
  (List.range 16).findSome? fun i =>
    let e := swIn t (i / 4) (i % 4)
    if bitAt e 0 && decide (fld e 1 4 = q) && bitAt e 5 then some (fld e 6 4) else none

/-- Whether a slot is usable (R112, R116). -/
def gUsable (t : Tile) (j : Nat) : Bool := decide (gFirst t ≤ j) && decide (j ≤ gLast t) && decide (0 < gExp t)

/-- The contribution at the head of a queue enters slot j; `note` records the tag group or the count of tokens. -/
def gTake (k c q j : Nat) (note : GTile → GTile) (s : State) : State :=
  let t := tileAt s k
  let js := if gNarrow t then [j, j + 1] else [j]
  match headOf t q with
  | .empty => s
  | .parity => faultAt c .queueParity (unitItem k) s
  | .tok a =>
    if !js.all (gUsable t) || (gExpFwd t ≠ 0xFFFFFFFF && decide (gExpFwd t ≤ t.g.cntFwd)) then
      faultAt c .gatherCount (unitItem k) s
    else if js.any fun i => (Tab.get GSlot.reset t.g.slots i).full then s
    else
      let slots := js.zipIdx.foldl (fun m p =>
        Tab.set GSlot.reset m p.1 (gAccum t a.val (16 * p.2) (Tab.get GSlot.reset m p.1))) t.g.slots
      modTile k (fun t => { t with g := note ({ t.g with slots := slots } : GTile) }) (popTok k q s)

/-- Whether the control token at the head of a queue's paired control queue faults the context at once (R116): no SLOT
token, or one that names an odd slot for 16-bit contributions. -/
def gBadTag (t : Tile) (q : Nat) : Bool :=
  match (gPair t q).map (headOf t) with
  | some (.tok a) => decide (fld a.val.toNat 28 4 ≠ 3) || (gNarrow t && bitAt a.val.toNat 0)
  | _ => false

/-- One contribution token of an input queue is added into its slots (R113 to R116). Under SEQ a 16-bit contribution whose
slot comes out odd, by an odd SLOT_FIRST or W, is none that the spec names: DESIGN CHOICE, it too feeds slots j and j + 1;
under TAGGED with G_GRP 0 a SLOT token names no contribution: DESIGN CHOICE, it is taken alone, when a contribution waits
(log entry 38). -/
def gContribute (k c q : Nat) (s : State) : State :=
  let t := tileAt s k
  if qCtrl t q || !qEn t q then s
  else if !gFmtOk t then undef .format c s
  else if gTagged t && gBadTag t q then faultAt c .gatherCount (unitItem k) s
  else if (qToks t q).isEmpty then s
  else if !gTagged t then
    let n := Tab.get 0 t.g.taken q
    let w := gLast t + 1 - gFirst t
    let j := gFirst t + (if w = 0 then 0 else n * gStep t % w)
    gTake k c q j (fun g => { g with taken := Tab.set 0 g.taken q (n + 1) }) s
  else
    let (slot, left) := Tab.get (0, 0) t.g.group q
    let after (slot left : Nat) : Nat × Nat := if left ≤ 1 then (0, 0) else (slot + gStep t, left - 1)
    let step (slot left : Nat) (s : State) : State :=
      gTake k c q slot (fun g => { g with group := Tab.set (0, 0) g.group q (after slot left) }) s
    if left ≠ 0 then step slot left s
    else
      match gPair t q with
      | none => s
      | some cq =>
        match headOf t cq with
        | .empty => s
        | .parity => faultAt c .queueParity (unitItem k) s
        | .tok a =>
          let v := a.val.toNat
          if gGrp t = 0 then popTok k cq s
          else
            -- the pair is taken together (R106): the SLOT token, then the first contribution of its group
            let s1 := modTile k (fun t => { t with g := { t.g with
              group := Tab.set (0, 0) t.g.group q (fld v 0 10, gGrp t) } }) (popTok k cq s)
            step (fld v 0 10) (gGrp t) s1

/-- GATHER_CONTRIBUTION: a contribution at an input queue is taken. -/
def execGatherContribution (site : Site) (queue : Fin 16) (s : State) : Out :=
  let k := siteNo site
  ground (match runOf s k with
  | none => s
  | some r => if kindOf k ≠ .G then s else gContribute k r.ctx queue.val s) s

/-- The values of a completed slot rounded to OUTFMT with RNE (R115). R68 flushes the subnormals of the adders; whether it
means this rounding too is left open: DESIGN CHOICE, a subnormal BF16 or FP16 result is kept (log entry 38). -/
def gRound (t : Tile) (g : GSlot) : List Byte :=
  (List.range 16).flatMap fun e =>
    let x := fld g.acc.toNat (32 * e) 32
    match gOutFmt t with
    | 4 => toLE 2 (toLin bf16 ⟨0, 0⟩ false false (decLin fp32 x)).1
    | 5 => toLE 2 (toLin fp16 ⟨0, 0⟩ false false (decLin fp32 x)).1
    | _ => toLE 4 x

/-- Slots return to count 0 with zero accumulators, and G_CNT_FWD counts them (R115). -/
def gClear (k : Nat) (js : List Nat) (s : State) : State :=
  modTile k (fun t => { t with g := { t.g with
    slots := js.foldl (fun m j => Tab.set GSlot.reset m j GSlot.reset) t.g.slots
    cntFwd := (t.g.cntFwd + js.length) % 2 ^ 32 } }) s

/-- A completed slot leaves, as a token or into the neighbour A tile (R115). -/
def gForward (k c j : Nat) (s : State) : State :=
  let t := tileAt s k
  let at_ (i : Nat) : GSlot := Tab.get GSlot.reset t.g.slots i
  let narrow := gOutFmt t = 4 || gOutFmt t = 5
  if !(at_ j).full then s
  else if !gFmtOk t then undef .format c s
  else if bitAt (gCfg t) 9 then
    -- DEST ATILE: C15 for C14, C16 for C17 (R85)
    let a := if noCol k = 14 then k + 16 else k - 16
    let off := gABase t + j * (if narrow then 32 else 64)
    let bs := gRound t (at_ j)
    match asAddr s c a off bs.length with
    | none => faultWith c .bound (unitItem k) (.access 1 off bs.length) s
    | some pa =>
      if syncAsHit s c (noHoop a) off bs.length then undef .syncWord c s else
      guarded c (unitItem k) (agentCode k 2 0) t.vc t.epoch true false pa bs.length
        (fun s => gClear k [j] (poke s pa bs)) s
  else
    let lo := if narrow then j / 2 * 2 else j
    let js := if narrow then [lo, lo + 1] else [lo]
    if !js.all fun i => (at_ i).full then s
    else if !hasCredit t 0 false || (bitAt (gCfg t) 10 && !hasCredit t 0 true) then s
    else
      let s1 := if bitAt (gCfg t) 10 then sendTok k 0 true (BitVec.ofNat 512 (0x30000000 + lo)) s else s
      gClear k js (sendTok k 0 false (tokOf (js.flatMap fun i => gRound t (at_ i))) s1)

/-- GATHER_SLOT_FORWARD: a completed slot is forwarded. -/
def execGatherSlotForward (site : Site) (slot : Fin 1024) (s : State) : Out :=
  let k := siteNo site
  ground (match runOf s k with
  | none => s
  | some r => if kindOf k ≠ .G then s else gForward k r.ctx slot.val s) s

end Sys2Proof.Machine
end

