-- ==== Sys2Proof/Machine/Shuttles.lean ====
section
/-! DEFINITION. Shuttles: the steering transactions of R105 to R111, R548 and R549. A command starts a transaction when
its control value and the first token of its group are at the heads of their queues, or moves one token. -/

namespace Sys2Proof.Machine

def shMode (t : Tile) : Nat := cfgNum t 0xC0 4
def shGrp (t : Tile) : Nat := fld (cfgNum t 0xC4 4) 0 12
def shConst (t : Tile) : Nat := fld (cfgNum t 0xC8 4) 0 28
def shCap (t : Tile) (o : Nat) : Nat := fld (cfgNum t (0xCC + 4 * o) 4) 0 16
def shExpCtrl (t : Tile) : Nat := cfgNum t 0xDC 4
def shExpData (t : Tile) : Nat := cfgNum t 0xE0 4

/-- MODE of SH_MODE (Table 03.11): 1 SELECT, 2 MERGE, 3 FILTER, 4 REPEAT, 5 COUNTED, 6 SPILL. -/
def shModeNo (t : Tile) : Nat := fld (shMode t) 0 3

/-- The steering field F of an ARG (R107). -/
def steerF (t : Tile) (arg : Nat) : Nat := fld arg (fld (shMode t) 5 5) (if bitAt (shMode t) 10 then 2 else 1)

/-- The output to which SPILL sends a group for output F: F while it has carried fewer than SH_CAP(F) groups, else SPO,
which has no limit (R108, Table 03.13). -/
def spillTo (t : Tile) (f : Nat) : Nat :=
  if Tab.get 0 t.sh.groups f < shCap t f then f else fld (shMode t) 11 2

/-- The legs of a transaction with this control argument (Table 03.13). -/
def shLegs (t : Tile) (arg : Nat) : List Leg :=
  let f := steerF t arg
  let n := fld arg 0 28
  match shModeNo t with
  | 1 => [⟨0, some f, false, 1⟩]
  | 2 => [⟨f, some 0, false, 1⟩]
  | 3 =>
    if bitAt f 0 then [⟨0, some 0, false, 1⟩]
    else if bitAt (shMode t) 13 then [⟨0, some 1, false, 1⟩]
    else [⟨0, none, false, 1⟩]
  | 4 => if n = 0 then [⟨0, none, false, 1⟩] else [⟨0, some 0, true, n⟩]
  | 5 => if n = 0 then [⟨1, some 1, false, 1⟩] else [⟨1, some 0, false, 1⟩, ⟨0, some 0, false, n - 1⟩, ⟨0, some 1, false, 1⟩]
  | 6 => [⟨0, some (spillTo t f), false, 1⟩]
  | _ => []

/-- Legs without those that move no group. -/
def liveLegs (ls : List Leg) : List Leg := ls.filter fun l => l.times ≠ 0

/-- Counts of a transaction that starts (R548): the control count, dropped groups, groups that SPILL sends to SPO, groups
carried. The spec does not say what a 32-bit count does past its last value: DESIGN CHOICE, these and G_CNT_FWD wrap (log
entry 38). -/
def shStart (t : Tile) (arg : Nat) (legs : List Leg) : STile :=
  let x := t.sh
  let drop := legs.any fun l => l.out.isNone
  let spill := decide (shModeNo t = 6) && decide (spillTo t (steerF t arg) = fld (shMode t) 11 2)
  { x with
    cntCtrl := (x.cntCtrl + 1) % 2 ^ 32
    cntDrop := if drop then (x.cntDrop + 1) % 2 ^ 32 else x.cntDrop
    cntSpill := if spill then (x.cntSpill + 1) % 2 ^ 32 else x.cntSpill
    groups := if shModeNo t = 6 && spillTo t (steerF t arg) = steerF t arg then
        Tab.set 0 x.groups (steerF t arg) (Tab.get 0 x.groups (steerF t arg) + 1) else x.groups
    legs := if shGrp t = 0 then [] else legs
    moved := 0
    busy := true }

/-- The end of a transaction that has nothing left to move. -/
def shSettle (k : Nat) (s : State) : State :=
  modTile k (fun t => if t.sh.legs.isEmpty && t.sh.fwd.isNone then { t with sh := { t.sh with busy := false } } else t) s

/-- A transaction starts, or a control token whose TYPE the mode does not take is consumed and counted (R111). -/
def shBegin (k c : Nat) (s : State) : State :=
  let t := tileAt s k
  let konst := bitAt (shMode t) 3
  let want := if shModeNo t = 4 || shModeNo t = 5 then 4 else 1
  if konst && shGrp t = 0 then s
  else
    let start (arg : Nat) (val : DataTok) (s : State) : State :=
      let legs := liveLegs (shLegs t arg)
      match legs with
      | [] => s
      | l :: _ =>
        if shGrp t ≠ 0 && (qToks t l.queue).isEmpty then s
        else
          let s1 := if konst then s else popTok k 4 s
          let s2 := modTile k (fun t' => { t' with sh :=
            { shStart t arg legs with
              fwd := if bitAt (shMode t) 4 && !konst then l.out.map (fun o => (o, val)) else none } }) s1
          shSettle k s2
    if konst then start (shConst t) 0 s
    else
      match headOf t 4 with
      | .empty => s
      | .parity => faultAt c .queueParity (unitItem k) s
      | .tok a =>
        let v := a.val.toNat
        if fld v 28 4 ≠ want then
          modTile k (fun t => { t with sh :=
            { t.sh with cntCtrl := (t.sh.cntCtrl + 1) % 2 ^ 32, badType := t.sh.badType + 1 } }) (popTok k 4 s)
        else start (fld v 0 28) a.val s

/-- The legs after one more token of the first leg. -/
def legsAfter (grp : Nat) (x : STile) : STile :=
  match x.legs with
  | [] => x
  | l :: ls =>
    if x.moved + 1 < grp then { x with moved := x.moved + 1 }
    else if l.times ≤ 1 then { x with moved := 0, legs := ls }
    else { x with moved := 0, legs := { l with times := l.times - 1 } :: ls }

/-- A group that its last copy has left is consumed (R109, R548). -/
def shConsume (k q : Nat) (s : State) : State :=
  let n := shGrp (tileAt s k)
  modTile k (fun t => { t with sh := { t.sh with cntData := (t.sh.cntData + n) % 2 ^ 32 } })
    ((List.range n).foldl (fun s _ => popTok k q s) s)

/-- A transaction in progress forwards its control token (R549) or moves one data token (R105). A kept group leaves its
queue when the last token of its last copy has been sent, so a queue that does not hold the whole group never ends it. -/
def shMove (k c : Nat) (s : State) : State :=
  let t := tileAt s k
  match t.sh.fwd with
  | some (o, v) =>
    if hasCredit t o true then
      shSettle k (modTile k (fun t => { t with sh := { t.sh with fwd := none } }) (sendTok k o true v s))
    else s
  | none =>
    match t.sh.legs with
    | [] => shSettle k s
    | l :: _ =>
      match (if l.keep then (qToks t l.queue)[t.sh.moved]? else (qToks t l.queue)[0]?) with
      | none => s
      | some a =>
        if !a.parityOk then faultAt c .queueParity (unitItem k) s
        else if l.out.any fun o => !hasCredit t o false then s
        else
          let s1 := if l.keep then modTile k (fun t => { t with vc := joinClock t.vc a.vc }) s else popTok k l.queue s
          let s2 := match l.out with
            | some o => sendTok k o false a.val s1
            | none => s1
          let s3 := if l.keep && decide (l.times ≤ 1) && decide (shGrp t ≤ t.sh.moved + 1) then shConsume k l.queue s2 else s2
          (shSettle k (modTile k (fun t => { t with sh :=
            { legsAfter (shGrp t) t.sh with
              cntData := if l.keep then t.sh.cntData else (t.sh.cntData + 1) % 2 ^ 32 } }) s3))

/-- A shuttle of a run's region starts a transaction, or goes on with the one in progress. -/
def shAct (k c : Nat) (s : State) : State := if (tileAt s k).sh.busy then shMove k c s else shBegin k c s

/-- A command of a shuttle in a mode: it acts while a run is in progress on its region. -/
def shuttle (mode : Nat) (site : Site) (s : State) : Out :=
  let k := siteNo site
  let t := tileAt s k
  ground (match runOf s k with
  | none => s
  | some r =>
    if kindOf k ≠ .S then s
    else if shModeNo t = 7 then undef .shuttleMode r.ctx s
    else if shModeNo t ≠ mode then s
    else shAct k r.ctx s) s

/-- SELECT: group D0 → O(F) (Table 03.13). -/
def execShuttleSelect (site : Site) (s : State) : Out := shuttle 1 site s

/-- MERGE: group D(F) → O0. -/
def execShuttleMerge (site : Site) (s : State) : Out := shuttle 2 site s

/-- FILTER: group D0 → O0, discarded, or sent to O1. -/
def execShuttleFilter (site : Site) (s : State) : Out := shuttle 3 site s

/-- REPEAT: group D0 sent n times to O0. -/
def execShuttleRepeat (site : Site) (s : State) : Out := shuttle 4 site s

/-- COUNTED: group D1, then groups of D0. -/
def execShuttleCounted (site : Site) (s : State) : Out := shuttle 5 site s

/-- SPILL: group D0 → O(F) or the spill output. -/
def execShuttleSpill (site : Site) (s : State) : Out := shuttle 6 site s

end Sys2Proof.Machine
end

