-- ==== Sys2Proof/Machine/Dumps.lean ====
section
/-! DEFINITION. Dump and telemetry records (R294 to R296, R520, R550). -/

namespace Sys2Proof.Machine

/-! ## Records (Table 08.14) -/

/-- One item for a dump: kind, context, the item's Hoop, column and row, the payload's fields, and the entries or token
contents that follow them. -/
structure DumpItem where
  kind    : Nat
  ctx     : Nat
  hoop    : Nat := 0
  col     : Nat := 0
  row     : Nat := 0
  fields  : List Byte
  entries : List (List Byte) := []
deriving DecidableEq, Repr

/-- A record of an item: header, payload, zero bytes up to a multiple of 8. -/
def recordOf (s : State) (x : DumpItem) (cont : Bool) (payload : List Byte) : List Byte :=
  let len := 16 + ceilDiv payload.length 8 * 8
  toLE 2 x.kind ++ toLE 2 len ++
    toLE 4 (x.ctx + x.hoop * 2 ^ 4 + x.col * 2 ^ 7 + x.row * 2 ^ 12 + cont.toNat * 2 ^ 16) ++
    toLE 8 s.stitch.count.toNat ++ padTo (len - 16) payload

/-- Entries cut into groups of at most `room` bytes, the first of at most `first`. -/
def splitEntries (room : Nat) : Nat → List Byte → List (List Byte) → List (List Byte)
  | _, acc, [] => [acc]
  | left, acc, e :: es =>
    if e.length ≤ left then splitEntries room (left - e.length) (acc ++ e) es
    else acc :: splitEntries room (room - e.length) e es

/-- The records of an item, at most 65,528 B each (R294). -/
def recordsOf (s : State) (x : DumpItem) : List (List Byte) :=
  match splitEntries 65512 (65512 - x.fields.length) [] x.entries with
  | [] => [recordOf s x false x.fields]
  | p :: ps => recordOf s x false (x.fields ++ p) :: ps.map (recordOf s x true)

/-- Records that a buffer of `left` bytes holds together with DUMP_END; how many are written and how many not (R295). -/
def fitRecords : Nat → List (List Byte) → List Byte × Nat × Nat
  | _, [] => ([], 0, 0)
  | left, r :: rs =>
    if r.length + 32 ≤ left then
      let (bs, n, m) := fitRecords (left - r.length) rs
      (r ++ bs, n + 1, m)
    else ([], 0, rs.length + 1)

/-- A whole dump for a buffer: its bytes with DUMP_END, and whether it was cut short. -/
def dumpBytes (s : State) (ctx len : Nat) (xs : List DumpItem) : List Byte × Bool :=
  let (bs, n, m) := fitRecords len (xs.flatMap (recordsOf s))
  let last : DumpItem :=
    { kind := 0xFF, ctx := ctx, fields := toLE 4 n ++ toLE 4 m ++ toLE 1 (if m = 0 then 0 else 1) ++ toLE 7 0 }
  (bs ++ recordOf s last false last.fields, m ≠ 0)

/-! ## Items of a context (Table 08.17) -/

/-- A site's item: its tile as captured for the dump, or as it stands. -/
def dumpTile (s : State) (c k : Nat) : Tile :=
  match (ctxAt s c).captured.find? fun p => p.1 = k with
  | some p => p.2
  | none => tileAt s k

/-- The sites of the columns that record a context, by Hoop, column and row. -/
def sitesOf (s : State) (c : Nat) : List Nat := (List.range 4096).filter fun k => ownerOf s k = c

def siteItem (kind c k : Nat) (fields : List Byte) (entries : List (List Byte) := []) : DumpItem :=
  ⟨kind, c, noHoop k, noCol k, noRow k, fields, entries⟩

/-- The KADDR of the knot at a place of this module (Table 08.3). -/
def kaddrHbm (off : Nat) : Nat := 2 ^ 45 + off / 8
def kaddrTile (h tile off : Nat) : Nat := off / 8 + h * 2 ^ 17 + tile * 2 ^ 20

/-- A word of a sync region: its KADDR, its physical address, in an A tile that tile, and an uncorrectable page-table entry on
the way to it. -/
structure SyncWord where
  kaddr : Nat
  pa    : Nat
  tile  : Option Nat
  table : Option Nat
deriving DecidableEq, Repr

/-- The uncorrectable word that a read of a sync word meets. -/
def SyncWord.ue (x : SyncWord) (s : State) : Option Nat := x.table.orElse fun _ => ueAt s x.pa 8

/-- Every word of a context's sync regions. -/
def syncWords (s : State) (c : Nat) : List SyncWord :=
  let ats := (List.range 8).flatMap fun h =>
    let r := (Tab.get 0 (ctxAt s c).syncAs h).toNat
    (if fld r 14 14 = 0 then [] else List.range 192).flatMap fun t => (List.range (8 * fld r 14 14)).filterMap fun i =>
      let off := 64 * fld r 0 14 + 8 * i
      (asAddr s c (tileOfIndex .A h t) off 8).map fun pa => ⟨kaddrTile h t off, pa, some (tileOfIndex .A h t), none⟩
  let r := (ctxAt s c).syncHbm.toNat
  ats ++ (List.range (8 * fld r 42 20)).filterMap fun i =>
    let off := 64 * fld r 0 42 + 8 * i
    match hbmAddr s c 0 off 8 false with
    | .at_ pa => some ⟨kaddrHbm off, pa, none, none⟩
    | .ue w => some ⟨kaddrHbm off, 0, none, some w⟩
    | _ => none

def waiterBytes (w : Waiter) : List Byte :=
  toLE 8 (w.fromMod + noHoop w.site * 2 ^ 14 + noCol w.site * 2 ^ 17 + noRow w.site * 2 ^ 22 + w.binding * 2 ^ 26 + w.op * 2 ^ 29)

/-- The KNOT item of a word: one that is not zero or has a waiter (R294). A word that no translation reaches gives none. -/
def knotItem (s : State) (c : Nat) (x : SyncWord) : Option DumpItem :=
  let w := peekNum s x.pa 8
  let ws := waitersAt s x.pa
  let at_ (f : Nat → Nat) : Nat := (x.tile.map f).getD 0
  if x.table.isSome || (w = 0 && ws.isEmpty) then none
  else some { kind := 2, ctx := c, hoop := at_ noHoop, col := at_ noCol, row := at_ noRow,
              fields := toLE 8 x.kaddr ++ toLE 8 w ++ toLE 4 ws.length ++ toLE 4 0, entries := ws.map waiterBytes }

def knotItems (s : State) (c : Nat) : List DumpItem := (syncWords s c).filterMap (knotItem s c)

def ChanState.num : ChanState → Nat
  | .closed => 0
  | .opened => 1
  | .faulted => 2

/-- CHANNEL items: each half that this module holds. The sender half counts messages sent, waits for ring space and the
tokens that its port discards, the receiver half messages delivered and idle time (Table 08.11). -/
def chanItems (s : State) (c : Nat) : List DumpItem :=
  s.chans.flatMap fun (n, x) =>
    if x.ctx ≠ c || x.st = .closed then []
    else ((if hasSender x then [0] else []) ++ (if hasReceiver x then [1] else [])).map fun half =>
      let head := if half = 0 then x.headSeen else x.head
      let tail := if half = 0 then x.tail else x.tailSeen
      let sends (n : Nat) : Nat := if half = 0 then n else 0
      let takes (n : Nat) : Nat := if half = 1 then n else 0
      { kind := 3, ctx := c,
        fields := toLE 2 n ++ toLE 1 half ++ toLE 1 0 ++ toLE 2 x.peerMod ++ toLE 2 x.peerChan ++
          toLE 4 (x.st.num + x.ctx * 4 + x.ringLog2 * 64) ++ toLE 4 head.toNat ++ toLE 4 tail.toNat ++ toLE 4 (sends x.stallEv) ++
          toLE 4 (sends x.discard) ++ toLE 4 0 ++ toLE 8 (sends x.sent) ++ toLE 8 (takes x.recv) ++ toLE 8 (sends x.stall) ++
          toLE 8 (takes x.empty) }

def seqItem (c k : Nat) (t : Tile) : DumpItem :=
  siteItem 4 c k (toLE 2 t.seq.pc ++ toLE 1 t.seq.wait ++ toLE 1 (seqEn t).toNat ++ toLE 4 t.seq.waitIn ++
    toLE 4 t.seq.waitCred ++ toLE 4 0 ++ (List.range 8).flatMap fun i => toLE 4 (lcAt t i))

def shuttleItem (c k : Nat) (t : Tile) : DumpItem :=
  let x := t.sh
  siteItem 5 c k (toLE 4 x.cntCtrl ++ toLE 4 x.cntData ++ toLE 4 x.cntDrop ++ toLE 4 x.cntSpill ++
      ((List.range 6).flatMap fun q => toLE 2 (qToks t q).length) ++ toLE 1 x.busy.toNat ++ toLE 3 0)
    ((List.range 6).flatMap fun q => (qToks t q).map fun a => toLE (if q < 4 then 64 else 4) a.val.toNat)

def gatherItem (c k : Nat) (t : Tile) : DumpItem :=
  let slots := t.g.slots.filter fun p => p.2.count ≠ 0
  siteItem 6 c k (toLE 4 t.g.cntFwd ++ toLE 2 slots.length ++ toLE 2 0)
    (slots.map fun p => toLE 4 (p.1 + p.2.count * 2 ^ 16))

def mtileItem (c k : Nat) (t : Tile) : DumpItem :=
  siteItem 7 c k (toLE 1 t.m.flags.toNat ++ toLE 7 0 ++ toLE 4 t.m.rows ++ toLE 4 t.m.skips ++ toLE 4 t.m.blkSkip ++ toLE 4 t.m.drained)

def vtileItem (c k : Nat) (t : Tile) : DumpItem :=
  siteItem 8 c k (toLE 1 t.v.flags.toNat ++ toLE 7 0 ++ toLE 4 t.v.ops ++ toLE 4 t.v.lines ++ toLE 4 t.v.tokens ++ toLE 4 0 ++
    toLE 96 t.v.laneFlags.toNat)

def StreamState.num : StreamState → Nat
  | .idle => 0
  | .started => 1
  | .issuing => 2
  | .parked => 3
  | .complete => 4
  | .cancelled => 5

/-- STREAM items of an engine: each resident stream, then the engine (R550). -/
def streamItems (c k : Nat) (t : Tile) : List DumpItem :=
  ((List.range (sdCount t)).map fun n =>
    let x := streamAt t n
    let d := sdAt t n
    siteItem 9 c k (toLE 2 n ++ toLE 1 x.st.num ++ toLE 1 0 ++ toLE 2 (if x.st = .parked then x.faultId else 0) ++ toLE 2 0 ++
      ((List.range 5).flatMap fun i => toLE 4 (coordOf d x.next i)) ++ toLE 4 0)) ++
  [siteItem 9 c k (toLE 2 0xFFFF ++ toLE 6 0 ++ toLE 8 t.b.cntRd ++ toLE 8 t.b.cntWr ++ toLE 4 t.b.cntReq ++ toLE 4 t.b.cntMerged ++
    toLE 4 t.b.cntMiss ++ toLE 4 t.b.cntPark ++ toLE 4 t.b.cntCwait ++ toLE 4 t.b.cntPwait ++ toLE 4 t.b.cntDrop ++ toLE 4 0)]

/-- Items of the sites of a context of one kind. -/
def kindItems (s : State) (c : Nat) (is : Kind → Bool) (f : Nat → Tile → List DumpItem) : List DumpItem :=
  (sitesOf s c).flatMap fun k => if is (kindOf k) then f k (dumpTile s c k) else []

/-- CHECK_FAIL items: failed end-of-run checks and hazards. -/
def checkItems (s : State) (c : Nat) : List DumpItem :=
  (s.logs.checks.filter fun x => x.1 = c).reverse.map (fun (_, k, chk, item, decl, found) =>
    siteItem 0xA c k (toLE 1 chk ++ toLE 7 0 ++ toLE 8 item ++ toLE 8 decl ++ toLE 8 found)) ++
  (s.logs.hazards.filter fun x => x.1 = c).reverse.map fun (_, pa, x, y) =>
    { kind := 0xA, ctx := c, fields := toLE 1 11 ++ toLE 7 0 ++ toLE 8 pa ++ toLE 8 y ++ toLE 8 x }

/-- TAP items: each tap with the enabled entries of the scope. -/
def tapItems (s : State) (ctx : Nat) (cs : List Nat) : List DumpItem :=
  (List.range 8).map fun h =>
    let es := (List.range 64).filter fun i => subEn (subAt s h i) && cs.contains (subCtx (subAt s h i))
    { kind := 0xB, ctx := ctx, hoop := h,
      fields := toLE 8 (hoopAt s h).tapRx ++ toLE 8 (hoopAt s h).tapDrop ++ toLE 8 (hoopAt s h).tapStall ++
        toLE 1 es.length ++ toLE 7 0,
      entries := es.map fun i => toLE 16 (subAt s h i) }

/-- The items of SEQ to STREAM records of a context. -/
def tileItems (s : State) (c : Nat) (kind : Nat) : List DumpItem :=
  match kind with
  | 4 => kindItems s c (fun kd => kd ≠ .S && kd ≠ .G) fun k t => [seqItem c k t]
  | 5 => kindItems s c (· = .S) fun k t => [shuttleItem c k t]
  | 6 => kindItems s c (· = .G) fun k t => [gatherItem c k t]
  | 7 => kindItems s c (· = .M) fun k t => [mtileItem c k t]
  | 8 => kindItems s c (· = .V) fun k t => [vtileItem c k t]
  | _ => kindItems s c (· = .B) fun k t => streamItems c k t

/-- What a column records of its last commit: context, MOTIF, and the tokens discarded of each queue (R374, R401). -/
def columnItem (s : State) (h col : Nat) : DumpItem :=
  let m := Tab.get (0, 0) (hoopAt s h).motifs col
  { kind := Config.columnKind.toNat, ctx := m.1, hoop := h, col := col,
    fields := toLE 4 m.1 ++ toLE 4 m.2 ++
      (List.range 256).flatMap fun i => toLE 2 (Tab.get 0 (hoopAt s h).discard (256 * col + i)) }

/-- The columns that record a context. -/
def columnItems (s : State) (c : Nat) : List DumpItem :=
  (List.range 8).flatMap fun h => (List.range 32).filterMap fun col =>
    if (Tab.get (0, 0) (hoopAt s h).motifs col).1 = c then some (columnItem s h col) else none

/-- The configuration registers of a tile and, of a B tile, its stream descriptors (R234, "Ground"). -/
def configItems (s : State) (c : Nat) : List DumpItem :=
  (sitesOf s c).map fun k =>
    let t := dumpTile s c k
    siteItem Config.tileKind.toNat c k (toLE 1024 (cfgNum t 0 1024))
      (if kindOf k = .B then (List.range (sdCount t)).map fun n => toLE 64 (sdRead t n) else [])

/-- A dump's items in the order of Table 08.15, after DUMP_BEGIN with these payload fields. -/
def dumpItems (s : State) (scope : Nat) (cs : List Nat) (begins : List Byte) : List DumpItem :=
  let ctx := if scope = 0xFF then 0 else scope
  { kind := 1, ctx := ctx, fields := begins } ::
    (cs.flatMap (knotItems s) ++ cs.flatMap (chanItems s) ++
      [4, 5, 6, 7, 8, 9].flatMap (fun kind => cs.flatMap fun c => tileItems s c kind) ++
      cs.flatMap (checkItems s) ++ tapItems s ctx cs)

/-- What SYNC_DUMP writes: those items, then the configuration and column records. -/
def syncItems (s : State) (scope : Nat) (cs : List Nat) (begins : List Byte) : List DumpItem :=
  dumpItems s scope cs begins ++ cs.flatMap (configItems s) ++ cs.flatMap (columnItems s)

/-- The first word that proves uncorrectable as the knots of a scope are read, and the items before it (R547). -/
def syncStop (s : State) (scope : Nat) (cs : List Nat) (begins : List Byte) : Option (Nat × List DumpItem) :=
  let ws := cs.flatMap fun c => (syncWords s c).map fun x => (c, x)
  let good := ws.takeWhile fun x => (x.2.ue s).isNone
  (ws.drop good.length).head?.map fun x =>
    ((x.2.ue s).getD 0,
      { kind := 1, ctx := if scope = 0xFF then 0 else scope, fields := begins } :: good.filterMap fun x => knotItem s x.1 x.2)

/-! ## The fault dump (R296, R510) -/

/-- The fault-dump area of a context (Table 01.10). -/
def faultDumpBase (c : Nat) : Nat := 0x2FF0000000 + c * 0x400000

/-- Bytes 0 to 9 of CTX_FAULT, which DUMP_BEGIN carries too. -/
def faultFields (l : Latched) : List Byte :=
  toLE 1 l.code.num ++ toLE 1 l.reason ++ toLE 1 l.load ++ toLE 1 l.hoop ++ toLE 1 l.col ++ toLE 1 l.row ++ toLE 2 l.step ++
    toLE 2 l.extra

/-- The dump of a faulted context goes into its area. -/
def faultDump (c : Nat) (l : Latched) (s : State) : State :=
  let (bs, _) := dumpBytes s c 0x400000 (dumpItems s c [c] (toLE 1 c ++ toLE 1 1 ++ faultFields l ++ toLE 4 0))
  poke s (faultDumpBase c) bs

end Sys2Proof.Machine
end

