-- ==== Sys2Proof/Machine/Regions.lean ====
section
/-! DEFINITION. Regions of columns: whether they hold a motif, how a run begins on them, how they stop, their end-of-run
checks and their scan images (R96 to R104, R155, R193, R262, R308, R314, R321 to R324, R401). -/

namespace Sys2Proof.Machine

/-! ## Columns and motifs (R401) -/

def motifAt (s : State) (h c : Nat) : Nat × Nat := Tab.get (0, 0) (hoopAt s h).motifs c

/-- A region holds a motif: every column of it records the context and the motif, and no other column does. -/
def holds (s : State) (h c0 c1 c m : Nat) : Bool :=
  (List.range 32).all fun col => decide (motifAt s h col = (c, m)) == (decide (c0 ≤ col) && decide (col ≤ c1))

/-- The runs of adjacent columns of a Hoop that record one motif of a context: first and last column, motif. -/
def regionsOn (s : State) (c h : Nat) : List (Nat × Nat × Nat) :=
  (List.range 32).foldl (fun acc col =>
    let m := motifAt s h col
    if m.1 ≠ c || c = 0 then acc
    else
      match acc.getLast? with
      | some (c0, c1, x) => if c1 + 1 = col && x = m.2 then acc.dropLast ++ [(c0, col, x)] else acc ++ [(col, col, m.2)]
      | none => [(col, col, m.2)]) []

/-- The regions that hold a context's motifs, in all Hoops: Hoop, first and last column, motif. -/
def regionsOf (s : State) (c : Nat) : List (Nat × Nat × Nat × Nat) :=
  (List.range 8).flatMap fun h => (regionsOn s c h).map fun r => (h, r)

def inRegion (h c0 c1 k : Nat) : Bool := decide (noHoop k = h) && decide (c0 ≤ noCol k) && decide (noCol k ≤ c1)

/-! ## Tokens and credits on the links of a region (R398 step 2) -/

/-- Whether a leaf is a queue of a region. -/
def leafIn (h c0 c1 : Nat) : Leaf → Bool
  | .queue k _ => inRegion h c0 c1 k
  | _ => false

/-- Whether a token in flight may be on a link of a region: its circuit begins there, ends there or crosses it. -/
def mayBeIn (s : State) (h c0 c1 : Nat) (a : Token) : Bool :=
  inRegion h c0 c1 a.src || (leavesOf s a).any (leafIn h c0 c1) ||
    (a.route.isNone && (circuitSites s a.src a.port).any (inRegion h c0 c1))

/-- A token on a link of the region reaches its queues in the region; on the other branches it has left the region or waits
to leave it, and what it goes to from there stands. -/
def landToken (h c0 c1 : Nat) (a : Token) (s : State) : State :=
  let c := ownerOf s a.src
  let ls := leavesOf s a
  let mine := ls.filter (leafIn h c0 c1)
  let on := ls.filter fun l => match l with
    | .queue _ _ => !leafIn h c0 c1 l
    | _ => false
  let dead := ls.filter fun l => match l with
    | .dead _ => true
    | _ => false
  if ls.isEmpty then s
  else if ls.any (moduleLeaf s c) then undefModule s
  else
    match deliveryUndef s c a (mine ++ ls.filter fun l => !leafIn h c0 c1 l && !on.contains l) with
    | some (u, j) => undef u j s
    | none =>
      let s1 := useFree (if clashOpen ls then 1 else 0) s
      if mine.isEmpty then modHoop h (fun x => { x with
          flight := x.flight.map fun b => if b.fid = a.fid then { b with route := some ls } else b }) s1
      else deliver h a (mine ++ dead) on s1

/-- Tokens on links of a region reach their queues (R398 step 2), those of one circuit in their order. A token that the
region sends is on its links; of those that circuits of other regions bring, it is free how many had crossed the boundary
before the seal: the others wait at their senders. -/
def landTokens (h c0 c1 : Nat) (s : State) : State :=
  let way (a : Token) : Nat × Nat × Bool := (a.src, a.port, a.ctrl)
  (((hoopAt s h).flight.filter (mayBeIn s h c0 c1)).map way).eraseDups.foldl (fun s w =>
    let ts := (hoopAt s h).flight.filter fun a => decide (way a = w)
    if inRegion h c0 c1 w.1 then ts.foldl (fun s a => landToken h c0 c1 a s) s
    else (ts.take (freeNat s 0 % (ts.length + 1))).foldl (fun s a => landToken h c0 c1 a s) (useFree 1 s)) s

/-- Credits that every branch has returned reach the outputs of the region that sent their tokens. -/
def landCredits (h c0 c1 : Nat) (s : State) : State :=
  let back (c : Credit) : Bool := inRegion h c0 c1 c.src && decide (c.left = 0)
  ((hoopAt s h).credits.filter back).foldl (fun s c =>
    modTile c.src (fun t =>
      if c.ctrl then { t with ccred := Tab.set 0 t.ccred c.port (cCred t c.port + 1) }
      else { t with dcred := Tab.set 0 t.dcred c.port (dCred t c.port + 1) }) s)
    (modHoop h (fun x => { x with credits := x.credits.filter fun c => !back c }) s)

/-- The queues of a region are emptied, with the bits of their MASK tokens; the credits of discarded tokens end with
them. -/
def emptyQueues (h c0 c1 : Nat) (s : State) : State :=
  let ks := regionTiles h c0 c1
  let gone := ks.flatMap fun k => (tileAt s k).queues.flatMap fun q => q.2.map (·.fid)
  let s1 := ks.foldl (fun s k => modTile k (fun t => { t with queues := [], masks := [] }) s) s
  modHoop h (fun x => { x with credits := x.credits.filter fun c => !gone.contains c.fid }) s1

/-- The queues of a stopped region are emptied, with what its circuits carry. -/
def emptyRegion (h c0 c1 : Nat) (s : State) : State :=
  modHoop h (fun x => { x with
    flight := x.flight.filter fun a => !inRegion h c0 c1 a.src
    credits := x.credits.filter fun c => !inRegion h c0 c1 c.src }) (emptyQueues h c0 c1 s)

/-! ## START (R308) -/

/-- The sequencer at START: active where SEQ_CTRL.EN is 1, at ENTRY, its counters loaded (R98, R100, R104). -/
def startSeq (k : Nat) (t : Tile) : Seq :=
  if (kindOf k = .S || kindOf k = .G) || !seqEn t then Seq.reset
  else { Seq.reset with
    on := true, pc := seqEntry t
    lc := (List.range 8).foldl (fun m i => Tab.set 0 m i (lcInit t i)) [] }

/-- A tile at START: credits, sequencer, units, counters and streams as R96, R100, R104, R131, R152, R157, R209, R236 and
R264 state; queues with the bits of their MASK tokens (R94, R97), TLB, knot bindings and channel ports keep what they
hold. An output without a circuit never gains a credit (R87). -/
def startTile (k : Nat) (t : Tile) : Tile :=
  let outs := (List.range 4).filter (hasCircuit t)
  { t with
    dcred := outs.foldl (fun m o => Tab.set 0 m o (outD t o)) []
    ccred := outs.foldl (fun m o => Tab.set 0 m o (outC t o)) []
    kchk := [], seq := startSeq k t, m := MTile.reset, v := VTile.reset, a := none, wins := [], sh := STile.reset, g := GTile.reset
    b := { BTile.reset with tlb := t.b.tlb, peer := t.b.peer, ports := t.b.ports, portSent := t.b.portSent }
    -- the strips of an LD end with it
    masks := t.masks.filter fun p => p.1 ≠ ldMaskKey }

/-- A saved tile's tokens, streams and counter registers return; a stream saved while parked walks again (R260, R323). -/
def restoreTile (saved t : Tile) : Tile :=
  let live := saved.b.streams.filter fun p => p.2.st ≠ .idle && p.2.st ≠ .complete
  { t with
    queues := saved.queues, masks := saved.masks
    seq := { t.seq with waitIn := saved.seq.waitIn, waitCred := saved.seq.waitCred }
    m := { t.m with flags := saved.m.flags, rows := saved.m.rows, skips := saved.m.skips, blkSkip := saved.m.blkSkip
                    drained := saved.m.drained }
    v := { t.v with laneFlags := saved.v.laneFlags, flags := saved.v.flags, ops := saved.v.ops, lines := saved.v.lines
                    tokens := saved.v.tokens }
    sh := { t.sh with cntCtrl := saved.sh.cntCtrl, cntData := saved.sh.cntData, cntDrop := saved.sh.cntDrop
                      cntSpill := saved.sh.cntSpill, badType := saved.sh.badType }
    g := { t.g with cntFwd := saved.g.cntFwd }
    b := { t.b with
      nextStart := saved.b.nextStart, cntRd := saved.b.cntRd, cntWr := saved.b.cntWr, cntReq := saved.b.cntReq
      cntMerged := saved.b.cntMerged, cntMiss := saved.b.cntMiss, cntPark := saved.b.cntPark
      cntCwait := saved.b.cntCwait, cntPwait := saved.b.cntPwait, cntDrop := saved.b.cntDrop
      streams := live.map fun p =>
        (p.1, { p.2 with st := if p.2.st = .parked then .issuing else p.2.st, waitVa := none, faultId := 0 }) } }

/-- The scan area of a context on a Hoop, and a site's record in it (R322). -/
def scanBase (c h : Nat) : Nat := 0x2FC8000000 + quarterOf h * 0x3000000000 + (2 * (c - 1) + h % 2) * 0x600000
def scanRecord (c k : Nat) : Nat := scanBase c (noHoop k) + (16 * noCol k + noRow k) * 12288

/-- Bytes of queue tokens and saved streams in a tile's record (R321). -/
def scanBytes (t : Tile) : Nat :=
  (t.queues.map fun q => if qCtrl t q.1 then 4 * q.2.length else 64 * q.2.length).sum +
    96 * (t.b.streams.filter fun p => p.2.st ≠ .idle && p.2.st ≠ .complete).length

/-- Bytes of a tile's record: 512 B of registers ahead of those (R321). -/
def tileRecord (t : Tile) : Nat := 512 + scanBytes t

/-- An armed image of a context for a region and motif. -/
def armedImage (s : State) (c h c0 c1 m : Nat) : Bool :=
  (ctxAt s c).images.any fun i => i == (h, c0, c1, m, true, false)

/-- Whether the enabled queues of a tile overlap or extend beyond unit 1,023 (R96). -/
def queuesClash (t : Tile) : Bool :=
  let qs := (List.range 16).filter (qEn t)
  let base (q : Nat) : Nat := fld (qDesc t q) 0 10
  qs.any fun q => decide (1024 < base q + qDepth t q) ||
    qs.any fun r => decide (q < r) && decide (base q < base r + qDepth t r) && decide (base r < base q + qDepth t q)

/-- Windows with ARM 0 are armed at START (R209). -/
def startWindows (c k : Nat) (s : State) : State :=
  if kindOf k ≠ .A then s
  else (List.range 4).foldl (fun s w =>
    if swEn (swinReg (tileAt s k) w) && !swArm (swinReg (tileAt s k) w) then armWindow k c w s else s) s

/-- The hazard tags of the region's A tiles are cleared (R518). -/
def clearTags (ks : List Nat) (s : State) : State :=
  let bases := (ks.filter fun k => kindOf k = .A).map asBase
  let other (w : Nat) : Bool := !bases.any fun b => decide (b ≤ 8 * w) && decide (8 * w < b + 0x100000)
  { s with tags := s.tags.filter fun p => other p.1 }

def modRun (h : Nat) (r : RunSt) (f : RunSt → RunSt) (s : State) : State :=
  modHoop h (fun x => { x with runs := x.runs.map fun y => if y = r then f y else y }) s

/-- Whether a context has an entry in progress that is no sweep. -/
def hasRun (s : State) (c : Nat) : Bool :=
  (List.range 8).any fun h => (hoopAt s h).runs.any fun r =>
    decide (r.ctx = c) && decide (r.stage ≠ .sweeping) && decide (r.stage ≠ .pausing)

/-- A context whose RUN count has ended is IDLE once every run of its last stitch has ended (R317). -/
def settleIdle (s : State) : State :=
  softCtxs.foldl (fun s c =>
    let x := ctxAt s c
    if x.ending && decide (x.st = .active) && !hasRun s c then
      modCtx c (fun x => { x with st := .idle, ending := false, runLeft := some 0 }) s
    else s) s

/-- An entry is no longer in progress. -/
def dropRun (h e : Nat) (s : State) : State :=
  settleIdle (modHoop h (fun x => { x with runs := x.runs.filter fun y => y.entry ≠ e }) s)
def runAt (s : State) (h e : Nat) : Option RunSt := (hoopAt s h).runs.find? fun r => r.entry = e

/-- The item of a scheduler fault (R510). -/
def entryItem (h c0 : Nat) : Item := ⟨h, c0, 0xFF, 0xFFFF⟩

/-- The run of an entry whose load has ended begins: the region must hold MOTIF, an armed image is restored and
disarmed, the region is initialised and its sequencers start (R308, R309, R324). -/
def beginRun (h : Nat) (r : RunSt) (s : State) : State :=
  let ks := regionTiles h r.c0 r.c1
  if !holds s h r.c0 r.c1 r.ctx r.motif then
    latch r.ctx .overrun (entryItem h r.c0) 1 0 .none (dropRun h r.entry s)
  else if ks.any fun k => queuesClash (tileAt s k) then undef .queueDesc r.ctx s
  else
    let armed := armedImage s r.ctx h r.c0 r.c1 r.motif
    let saved (k : Nat) : Option Tile := ((ctxAt s r.ctx).scanned.find? fun p => p.1 = k).map (·.2)
    let bad := armed && ks.any fun k =>
      (ueAt s (scanRecord r.ctx k) (tileRecord ((saved k).getD Tile.reset))).isSome
    let s1 := ks.foldl (fun s k => modTile k (startTile k) s) (clearTags ks s)
    let s2 := if armed && !bad then
        ks.foldl (fun s k => match saved k with | some t => modTile k (restoreTile t) s | none => s) s1 else s1
    let s3 := if armed then modCtx r.ctx (fun x => { x with images := x.images.map fun i =>
        if i = (h, r.c0, r.c1, r.motif, true, false) then (h, r.c0, r.c1, r.motif, false, false) else i }) s2 else s2
    if bad then latch r.ctx .eccUe (entryItem h r.c0) 0 0 .none (dropRun h r.entry s3)
    else
      modRun h r (fun y => { y with stage := .running, phase := .input })
        (ks.foldl (fun s k => startWindows r.ctx k s) s3)

/-! ## Stopping a region (R155, R193, R262) -/

/-- An effect for each of several things, in order. -/
def each {α : Type} (xs : List α) (f : α → State → State) (s : State) : State := xs.foldl (fun s x => f x s) s

/-- A write on its way is performed. -/
def performWrite (w : HbmWrite) (s : State) : State :=
  if w.done then s
  else
    endWrite w (match apertureOf s w.ctx w.ca with
      | some ap => apertureEnd w ap s
      | none => plainEnd w s) s

/-- The writes that a tile has issued are performed (R262). -/
def performWrites (k : Nat) (s : State) : State :=
  let mine (w : HbmWrite) : Bool := decide (w.site = some k)
  modNet (fun n => { n with writes := n.writes.filter fun w => !mine w }) (each (s.net.writes.filter mine) performWrite s)

/-- A stream at the stop: CANCELLED, or under R260 stopped at the element boundary, where reads that have not been
delivered will be made again. -/
def stopStream (keep : Bool) (x : Stream) : Stream :=
  if x.st = .idle || x.st = .complete then x
  else if !keep then { x with st := .cancelled, reqs := [], waitVa := none }
  else
    match x.reqs.find? fun r => r.isRead && decide (r.kind = 0) with
    | none => { x with reqs := [], parkOnRestore := decide (x.st = .parked) }
    | some r =>
      let strips := (List.range (x.next / 64 - r.first / 64)).map fun i =>
        x.reqs.any fun q => decide (q.kind = 0) && decide (q.first / 64 = r.first / 64 + i)
      { x with next := r.first, bits := if x.maskAt = 0 then x.bits else strips ++ x.bits, reqs := []
               parkOnRestore := decide (x.st = .parked) }

def Bank.stopped : Bank → Bank
  | .loading => .invalid
  | b => b

/-- The units of a tile at the stop: a load in progress is abandoned and its bank becomes invalid; rows, tokens and lines
that completed stay. -/
def stopUnits (keep : Bool) (t : Tile) : Tile :=
  { t with
    m := { t.m with loader := none, array := none, drain := none, bank0 := t.m.bank0.stopped, bank1 := t.m.bank1.stopped }
    v := { t.v with qin := none, qout := none, mover := none }
    a := none
    b := { t.b with walks := [], promoted := [], streams := t.b.streams.map fun p => (p.1, stopStream keep p.2) } }

/-- The flags of a tile's streams reach the context as the streams stop (R239). -/
def stopFlags (c k : Nat) (s : State) : State :=
  (tileAt s k).b.streams.foldl (fun s p =>
    if p.2.flags = 0 || p.2.st = .idle || p.2.st = .complete then s
    else ctxFlags c p.2.flags.toNat (unitItem k) (setStream k p.1 { streamAt (tileAt s k) p.1 with flags := 0 } s)) s

/-- A tile stops: writes issued or held in the merge buffer complete, its units end. -/
def stopTile (keep : Bool) (c k : Nat) (s : State) : State :=
  let s1 := (mergeGroups (tileAt s k)).foldl (fun s g => if g.1 then s else issueGroup k c g s) s
  modTile k (stopUnits keep) (stopFlags c k (performWrites k s1))

def stopRegion (keep : Bool) (c h c0 c1 : Nat) (s : State) : State :=
  each (regionTiles h c0 c1) (stopTile keep c) s

/-- The items of a region as they stand are kept for the dump (R314, R325). -/
def captureRegion (c h c0 c1 : Nat) (s : State) : State :=
  let now := (regionTiles h c0 c1).map fun k => (k, tileAt s k)
  modCtx c (fun x => { x with captured := (x.captured.filter fun p => !inRegion h c0 c1 p.1) ++ now }) s

/-! ## End-of-run checks (R101, R102, R111, R116, R280) -/

/-- A failed check: the fault code, the tile, and the CHECK_FAIL record's check, item, declared and found values. -/
structure CheckFail where
  code : FaultCode
  tile : Nat
  chk  : Nat
  item : Nat
  decl : Nat
  found : Nat
deriving DecidableEq, Repr

/-- Tokens left in the queues of a tile. -/
def tokensLeft (t : Tile) (qs : List Nat) : Nat := (qs.map fun q => (qToks t q).length).sum

/-- The checks of a shuttle (R111, R550). -/
def shuttleChecks (k : Nat) (t : Tile) : List CheckFail :=
  let x := t.sh
  let left := tokensLeft t (List.range 6)
  (if shExpCtrl t ≠ 0xFFFFFFFF && x.cntCtrl ≠ shExpCtrl t then [⟨.steerMismatch, k, 0, 0, shExpCtrl t, x.cntCtrl⟩] else []) ++
  (if shExpData t ≠ 0xFFFFFFFF && x.cntData ≠ shExpData t then [⟨.steerMismatch, k, 1, 0, shExpData t, x.cntData⟩] else []) ++
  (if x.busy then [⟨.steerMismatch, k, 2, 0, shGrp t, x.moved⟩] else []) ++
  (if left ≠ 0 then [⟨.steerMismatch, k, 3, 0, 0, left⟩] else []) ++
  (if x.badType ≠ 0 then [⟨.steerMismatch, k, 4, 0, 0, x.badType⟩] else [])

/-- The checks of a gathering queue (R116, R550). -/
def gatherChecks (k : Nat) (t : Tile) : List CheckFail :=
  let left := tokensLeft t (List.range 16)
  (t.g.slots.filter fun p => p.2.count ≠ 0).map (fun p => ⟨.gatherCount, k, 5, p.1, gExp t, p.2.count⟩) ++
  (if gExpFwd t ≠ 0xFFFFFFFF && t.g.cntFwd ≠ gExpFwd t then [⟨.gatherCount, k, 6, 0, gExpFwd t, t.g.cntFwd⟩] else []) ++
  (if left ≠ 0 then [⟨.gatherCount, k, 7, 0, 0, left⟩] else [])

/-- The checks of a tile that DRAIN a knot of another module (R280). -/
def remoteChecks (s : State) (k : Nat) : List Nat :=
  if kindOf k ≠ .A && kindOf k ≠ .B then [] else (List.range 4).filter fun i =>
    let r := kchkReg (tileAt s k) i
    let ka := kaddrOf (fld r 64 64)
    bitAt r 0 && !ka.bad && ka.remote && decide (ka.mod ≠ ownId s)

/-- The DRAINs of a region's checks leave for knots of other modules. -/
def askChecks (c h c0 c1 : Nat) (s : State) : State :=
  (regionTiles h c0 c1).foldl (fun s k => (remoteChecks s k).foldl (fun s i =>
    if Tab.get 0 (tileAt s k).kchk i ≠ 0 then s
    else remoteKnot c (quarterOf h) 4 0 (fld (kchkReg (tileAt s k) i) 64 64) (siteOf k, Fin.ofNat 16 (8 + i))
      (modTile k (fun t => { t with kchk := Tab.set 0 t.kchk i 1 }) s)) s) s

/-- Whether every such check of a region has been answered. -/
def checksAnswered (s : State) (h c0 c1 : Nat) : Bool :=
  (regionTiles h c0 c1).all fun k => (remoteChecks s k).all fun i => decide (2 ≤ Tab.get 0 (tileAt s k).kchk i)

/-- The failure of an answered check (R102, R280, R550): an empty knot, with the word that it held, or one that failed its
bound or translation. -/
def remoteFail (k kaddr n : Nat) : List CheckFail :=
  let fail (code : FaultCode) (chk decl : Nat) : List CheckFail := [⟨code, k, chk, kaddr, decl, n / 65536⟩]
  if n = 2 then []
  else if n % 65536 = 256 + FaultCode.knotUdf.num then fail .knotUdf 8 (2 ^ 63)
  else if n % 65536 = 256 + FaultCode.bound.num then fail .bound 9 0
  else if n % 65536 = 256 + FaultCode.eccUe.num then fail .eccUe 8 (2 ^ 63)
  else fail .xlate 10 0

/-- A knot check of a tile: its DRAIN, and the failure it finds (R280). -/
def knotCheckAt (c k i : Nat) (s : State) : Except State (List CheckFail × State) :=
  let r := kchkReg (tileAt s k) i
  let ka := kaddrOf (fld r 64 64)
  if !bitAt r 0 then .ok ([], s)
  else if ka.bad then .error (undef .knotBinding c s)
  else if ka.remote && ka.mod ≠ ownId s then
    .ok (remoteFail k (fld r 64 64) (Tab.get 0 (tileAt s k).kchk i),
      modTile k (fun t => { t with kchk := Tab.set 0 t.kchk i 0 }) s)
  else
    match knotCheck c k (fld r 64 64) s with
    | (none, s1) => .ok ([], s1)
    | (some (chk, code, w), s1) => .ok ([⟨code, k, chk, fld r 64 64, if chk = 8 then 2 ^ 63 else 0, w⟩], s1)

/-- The checks of one tile. -/
def tileChecks (c k : Nat) (s : State) : Except State (List CheckFail × State) :=
  let t := tileAt s k
  match kindOf k with
  | .S => if shModeNo t = 7 then .error (undef .shuttleMode c s) else .ok (shuttleChecks k t, s)
  | .G => .ok (gatherChecks k t, s)
  | .M => .ok ([], s)
  | .V => .ok ([], s)
  | _ => (List.range 4).foldl (fun acc i =>
      match acc with
      | .error o => .error o
      | .ok (fs, s) =>
        match knotCheckAt c k i s with
        | .error o => .error o
        | .ok (gs, s1) => .ok (fs ++ gs, s1)) (.ok ([], s))

/-- The first failure in the order of R102. -/
def firstFail (fs : List CheckFail) : Option CheckFail :=
  [FaultCode.steerMismatch, .gatherCount, .knotUdf, .bound, .xlate, .eccUe].findSome? fun code => fs.find? fun f => f.code = code

/-- The end-of-run checks of a region: failures are recorded for the dump and the first code is latched. -/
def runChecks (c h c0 c1 : Nat) (s : State) : State :=
  let res : Except State (List CheckFail × State) := (regionTiles h c0 c1).foldl (fun acc k =>
    match acc with
    | .error o => .error o
    | .ok (fs, s) =>
      match tileChecks c k s with
      | .error o => .error o
      | .ok (gs, s1) => .ok (fs ++ gs, s1)) (.ok ([], s))
  match res with
  | .error o => o
  | .ok (fs, s1) =>
    let s2 := { s1 with logs := { s1.logs with
      checks := (fs.map fun f => (c, f.tile, f.chk, f.item, f.decl, f.found)).reverse ++ s1.logs.checks } }
    match firstFail fs with
    | none => s2
    | some f => faultAt c f.code (tileItem s2 f.tile) s2

/-! ## Scan images (R320 to R323) -/

/-- Whether every tile of the regions fits its record. -/
def scanFits (s : State) (rs : List (Nat × Nat × Nat × Nat)) : Bool :=
  rs.all fun (h, c0, c1, _) => (regionTiles h c0 c1).all fun k => decide (scanBytes (tileAt s k) ≤ 11776)

/-- The first token of the regions whose parity fails when it is read for the scan (R513). -/
def scanParity (s : State) (rs : List (Nat × Nat × Nat × Nat)) : Option Nat :=
  rs.findSome? fun (h, c0, c1, _) => (regionTiles h c0 c1).find? fun k =>
    (tileAt s k).queues.any fun q => q.2.any fun a => !a.parityOk

/-- n bytes that the spec does not lay out: free values. -/
def freeBytes (n : Nat) (s : State) : List Byte :=
  ((List.range (ceilDiv n 64)).flatMap fun i => tokBytes (Config.freeTok (s.free + i))).take n

/-- n bytes of a record whose layout the spec does not give, written at pa. -/
def pokeFree (pa n : Nat) (s : State) : State := useFree (ceilDiv n 64) (poke s pa (freeBytes n s))

/-- A region's records are written into the scan area, whose bytes the spec does not lay out, and its image is held; it
replaces the records of earlier scans. -/
def scanRegion (c : Nat) (armed post : Bool) (r : Nat × Nat × Nat × Nat) (s : State) : State :=
  let (h, c0, c1, m) := r
  let ks := regionTiles h c0 c1
  let s1 := ks.foldl (fun s k => pokeFree (scanRecord c k) (tileRecord (tileAt s k)) s) s
  modCtx c (fun x => { x with
    images := (x.images.filter fun i => !(decide (i.1 = h) && decide (i.2.1 ≤ c1) && decide (c0 ≤ i.2.2.1))) ++
      [(h, c0, c1, m, armed, post)]
    scanned := (x.scanned.filter fun p => !inRegion h c0 c1 p.1) ++ ks.map fun k => (k, tileAt s k) }) s1

end Sys2Proof.Machine
end

