-- ==== Sys2Proof/Machine/Loads.lean ====
section
/-! DEFINITION. Repeat-table entries as they read, and the Bobbin port: loads, their staging and their commit (R305, R307,
R394 to R403). -/

namespace Sys2Proof.Machine

/-! ## Repeat-table entries (Table 09.3) -/

def enV (e : Nat) : Bool := bitAt e 0
def enKind (e : Nat) : Nat := fld e 1 3
def enCtx (e : Nat) : Nat := fld e 4 4
def enC0 (e : Nat) : Nat := fld e 8 5
def enC1 (e : Nat) : Nat := fld e 13 5
def enReconf (e : Nat) : Bool := bitAt e 18
def enScan (e : Nat) : Bool := bitAt e 19
def enSplit (e : Nat) : Bool := bitAt e 20
def enMotif (e : Nat) : Nat := fld e 32 16
def enStart (e : Nat) : Nat := fld e 64 25
def enDeadline (e : Nat) : Nat := fld e 96 25
def enOutAt (e : Nat) : Nat := fld e 128 25

def entryAt (s : State) (h e : Nat) : Nat := (Tab.get 0 (hoopAt s h).table e).toNat

/-- Whether the present stitch is skipped for a Hoop (R328). -/
def skipped (s : State) (h : Nat) : Bool := decide (s.stitch.count.toNat % 8 < skipLevel s h)

/-- Whether a reset or CTX_DESTROY of a context waits for its rollback (R358): it has stopped, and starts nothing. -/
def resetting (s : State) (c : Nat) : Bool :=
  s.waits.any fun w => match w.what with
    | .resetCtx x | .ctxDestroy x => decide (x = c)
    | _ => false

/-- Whether an entry may start: valid, of this kind, its context ACTIVE in this stitch, the stitch not skipped (R307, R317);
after Dormant a rollback that its entry interrupted comes first (R507). -/
def mayStart (s : State) (h e kind : Nat) : Bool :=
  let x := entryAt s h e
  enV x && decide (enKind x = kind) && decide (ctxSt s (enCtx x) = .active) &&
    !(ctxAt s (enCtx x)).ending && !skipped s h && !resetting s (enCtx x) &&
    !softCtxs.any fun c => (ctxAt s c).sweep.cut && decide ((ctxAt s c).sweep.st = .rollingBack)

/-- What an entry in progress is. -/
def runOfEntry (e x : Nat) (stage : RunStage) : RunSt :=
  ⟨e, enCtx x, enC0 x, enC1 x, enMotif x, stage, .input, enSplit x, false⟩

/-! ## Load statuses and ends -/

/-- The value of a load status (Table 11.10). -/
def PrickStatus.num : PrickStatus → Nat
  | .ok => 0x00
  | .truncated => 0x01
  | .wrongDevice => 0x02
  | .auth => 0x03
  | .check => 0x04
  | .region => 0x05
  | .notQuiet => 0x06
  | .key => 0x07
  | .aborted => 0x08

/-- The TXN_COMMIT, or the batch, that waits for a transaction ends (R437, R442). -/
def finishTxn (id : Nat) (st : Status) (s : State) : State :=
  (s.waits.filter fun w => match w.what with
    | .commit x => decide (x = id)
    | .batch x _ => decide (x = id)
    | _ => false).foldl (fun s w => finish w.seq st (match w.what with | .batch _ n => n | _ => 0) s) s

/-- Loads of a transaction leave the ports. -/
def unstageTxn (id : Nat) (s : State) : State :=
  (List.range 8).foldl (fun s h => modHoop h (fun x => { x with loads := x.loads.filter fun l => l.origin ≠ .txn id }) s) s

/-- A committing transaction fails: nothing of it applies, the load that failed raises its own status and every other
load of it PRICK_ABORTED (R402). -/
def failTxn (id : Nat) (st : Status) (own : Nat → Nat → PrickStatus) (s : State) : State :=
  match txnAt s id with
  | none => s
  | some t =>
    let s1 := t.staged.foldl (fun s x => match x with
      | .load c motif _ _ _ _ => applyDone c motif (own c motif).num s
      | _ => s) { s with txns := eraseFirst (fun u => u.id = id) s.txns }
    finishTxn id st (unstageTxn id s1)

/-- A load has ended with a status; it has left its port (R309, R310, R390, R399, R402). -/
def loadEnds (h : Nat) (l : Load) (st : PrickStatus) (s : State) : State :=
  match l.origin with
  | .entry e =>
    match runAt s h e with
    | none => s
    | some r =>
      if st ≠ .ok then latch r.ctx .overrun (entryItem h r.c0) 1 st.num .none (dropRun h e s)
      else if enKind (entryAt s h e) = 1 then beginRun h r s
      else dropRun h e s
  | .apply => applyDone l.ctx l.motif st.num s
  | .loader k _ => loaderDone l.ctx l.motif st.num k s
  | .txn id =>
    if st = .ok then s
    else failTxn id .badState (fun c m => if c = l.ctx && m = l.motif then st else .aborted) s

/-! ## The port (R394, R395, R400) -/

def loadsOf (s : State) (h : Nat) : List Load := (hoopAt s h).loads
def takeLoad (h i : Nat) (s : State) : State := modHoop h (fun x => { x with loads := x.loads.eraseIdx i }) s
def columnsMeet (a b : Load) : Bool := decide (a.c0 ≤ b.c1) && decide (b.c0 ≤ a.c1)

/-- The load that an entry at START asks for (R308, R310). -/
def entryLoad (e x : Nat) (early : Bool) : Load := ⟨.entry e, enCtx x, enMotif x, enC0 x, enC1 x, false, early, false⟩

/-- BOBBIN_PREFETCH: the port begins the reads of a load at START; the load waits for its START (R395). -/
def execBobbinPrefetch (hoop : Fin 8) (entry : Fin 128) (s : State) : Out :=
  ctl (let h := hoop.val
  let e := entry.val
  let x := entryAt s h e
  let loads := enV x && (decide (enKind x = 2) || (decide (enKind x = 1) && enReconf x))
  if loads && !(loadsOf s h).any fun l => l.origin = .entry e then queueLoad h (entryLoad e x true) s else s) s

/-- The load of an entry that starts: the prefetched one, or a new one. -/
def startLoad (h e : Nat) (s : State) : State :=
  let s1 := modHoop h (fun x => { x with loads := x.loads.filter fun l => l.origin ≠ .entry e }) s
  queueLoad h (entryLoad e (entryAt s h e) false) s1

/-- The place of the load that the port takes next: loads at START in entry order, then the others in arrival order. -/
def nextLoad (ls : List Load) : Option Nat :=
  let ready (l : Load) : Bool := !l.prefetched && !l.staged
  let byEntry := (List.range 128).findSome? fun e => findIdx (fun l => ready l && decide (l.origin = .entry e)) ls
  byEntry.orElse fun _ => findIdx ready ls

/-- Bytes of one site in a pricking's table. -/
def siteBytes (m : Tab Byte) (base n : Nat) : Tab Byte :=
  (m.filter fun p => decide (base ≤ p.1) && decide (p.1 < base + n)).map fun p => (p.1 - base, p.2)

/-- The shadow planes of the region are cleared and take the pricking's bytes (R376); reserved bits stay 0 (R6). -/
def stagePlanes (p : Pricking) (s : State) : State :=
  (regionTiles p.hoop p.c0 p.c1).foldl (fun s k =>
    let site := noCol k * 16 + noRow k
    modTile k (fun t => { t with
      shCfg := keptRegs (kindOf k) (siteBytes p.cfg (site * 1024) 1024)
      shProg := siteBytes p.prog (site * 131072) 131072 }) s) s

/-- Whether a staged load commits as soon as it is staged (R396). -/
def commitsNow (l : Load) : Bool :=
  l.staged && match l.origin with
    | .entry _ => true
    | .loader _ now => now
    | _ => false

/-- BOBBIN_LOAD: the port runs one load at a time. It takes its next load, once no staged load holds its columns, and stages
the resident pricking into the shadow planes (R376, R394, R400, R403). -/
def execBobbinLoad (hoop : Fin 8) (s : State) : Out :=
  ctl (let h := hoop.val
  match nextLoad (loadsOf s h) with
  | none => s
  | some i =>
    match (loadsOf s h)[i]? with
    | none => s
    | some l =>
      if (hoopAt s h).power ≠ .on || (loadsOf s h).any (fun m => commitsNow m || (m.staged && columnsMeet l m)) then s
      else
        match residentOf s l.ctx l.motif with
        | none => loadEnds h l .region (takeLoad h i s)
        | some p =>
          if p.hoop ≠ h || p.c0 ≠ l.c0 || p.c1 ≠ l.c1 then loadEnds h l .region (takeLoad h i s)
          else
            match ueAt s p.at_ p.size with
            | some pa => loadEnds h l .check (ueFound pa (takeLoad h i s))
            | none =>
              let staged (m : Load) : Load := { m with staged := true, discard := m.discard || p.discard }
              modHoop h (fun x => { x with loads := updAt staged i x.loads }) (stagePlanes p s)) s

/-! ## Commit (R396 to R398, R401) -/

/-- Whether the region of a load is quiet, once its links have landed; DRAIN_DISCARD waives the queues (R397, R398). -/
def quiet (s : State) (h : Nat) (l : Load) : Bool :=
  let busy (r : RunSt) : Bool := decide (enKind (entryAt s h r.entry) = 1) && decide (l.origin ≠ .entry r.entry) &&
    decide (r.c0 ≤ l.c1) && decide (l.c0 ≤ r.c1)
  !(hoopAt s h).runs.any busy && (regionTiles h l.c0 l.c1).all fun k =>
    let t := tileAt s k
    (l.discard || t.queues.isEmpty) &&
      !t.b.streams.any fun p => p.2.st = .started || p.2.st = .issuing || p.2.st = .parked

/-- Q_DISCARD of the region's columns: the tokens that the commit discards (R374). -/
def noteDiscard (h : Nat) (l : Load) (s : State) : State :=
  let ks := regionTiles h l.c0 l.c1
  let count (m : Tab Nat) (k q : Nat) : Tab Nat :=
    Tab.set 0 m ((noCol k * 16 + noRow k) * 16 + q) (min 65535 (qToks (tileAt s k) q).length)
  modHoop h (fun x => { x with discard := ks.foldl (fun m k => (List.range 16).foldl (fun m q => count m k q) m) x.discard }) s

/-- The outputs of a Hoop whose circuits reach one of the regions that commit, themselves in none: after the commit they send
into it under old settings (R404). -/
def reachers (h : Nat) (ls : List Load) (s : State) : List (Nat × Nat × Nat) :=
  ((List.range 512).map fun i => h * 512 + i).flatMap fun k =>
    if ls.any fun l => inRegion h l.c0 l.c1 k then []
    else ls.flatMap fun l =>
      ((List.range 4).filter fun o => (circuitSites s k o).any (inRegion h l.c0 l.c1)).map fun o => (k, o, l.c0)

/-- The planes of a region are swapped and its columns record the load (R376, R401). -/
def swapPlanes (h : Nat) (l : Load) (s : State) : State :=
  let s1 := (regionTiles h l.c0 l.c1).foldl (fun s k => modTile k (fun t =>
    { t with cfg := t.shCfg, prog := t.shProg, shCfg := t.cfg, shProg := t.prog, masks := [] }) s) s
  modHoop h (fun x => { x with
    stale := x.stale.filter fun y => !inRegion h l.c0 l.c1 y.1
    motifs := (List.range (l.c1 + 1 - l.c0)).foldl (fun m i => Tab.set (0, 0) m (l.c0 + i) (l.ctx, l.motif)) x.motifs })
    (touch (fun x => match x with | .motif g col => decide (g = h) && decide (l.c0 ≤ col) && decide (col ≤ l.c1) | _ => false) s1)

/-- The loads that commit together on a Hoop, whose links have landed and whose regions are quiet: queues are emptied under
DRAIN_DISCARD, the planes of all are swapped at once (R376, R398, R402), and circuits of other regions that reach them are
noted (R404). -/
def swapLoads (h : Nat) (ls : List Load) (s : State) : State :=
  let stale := reachers h ls s
  let s1 := ls.foldl (fun s l => swapPlanes h l (emptyQueues h l.c0 l.c1 (noteDiscard h l s))) s
  modHoop h (fun x => { x with stale := (x.stale.filter fun y => !stale.contains y) ++ stale }) s1

/-- A staged load commits: the links of the region land, the quiet test is made, and the planes are swapped. -/
def commitLoad (h : Nat) (l : Load) (s : State) : PrickStatus × State :=
  let s1 := landCredits h l.c0 l.c1 (landTokens h l.c0 l.c1 s)
  if !quiet s1 h l then (.notQuiet, s1) else (.ok, swapLoads h [l] s1)

/-- The i-th load of a port commits and ends. -/
def commitAt (h i : Nat) (s : State) : State :=
  match (loadsOf s h)[i]? with
  | none => s
  | some l =>
    let (st, s1) := commitLoad h l (takeLoad h i s)
    loadEnds h l st s1

/-- LOAD_COMMIT: a load at START, or a loader request that commits at once (R396, R398). -/
def execLoadCommit (hoop : Fin 8) (s : State) : Out :=
  ctl (match findIdx commitsNow (loadsOf s hoop.val) with
  | none => s
  | some i => commitAt hoop.val i s) s

/-- Loads that commit at the boundary: of PRICK_LOAD with APPLY, and loader requests with NOW 0 (R396). `fuel` bounds
their number. -/
def boundaryLoads (h : Nat) : Nat → State → State
  | 0, s => s
  | fuel + 1, s =>
    let due (l : Load) : Bool := l.staged && match l.origin with
      | .apply => true
      | .loader _ now => !now
      | _ => false
    match findIdx due (loadsOf s h) with
    | none => s
    | some i => boundaryLoads h fuel (commitAt h i s)

/-! ## Abandoned loads (R325, R403) -/

/-- The loads of a port that `is` selects end with PRICK_ABORTED and leave their regions unchanged; the knot of a loader whose
context has faulted is not filled, since the requests of a stopped context are discarded (R281, R399). -/
def abortLoads (h : Nat) (is : Load → Bool) (s : State) : State :=
  let s1 := modHoop h (fun x => { x with loads := x.loads.filter fun l => !is l }) s
  ((loadsOf s h).filter is).foldl (fun s l =>
    match l.origin with
    | .entry e => dropRun h e s
    | .apply => applyDone l.ctx l.motif PrickStatus.aborted.num s
    | .loader k _ => if (ctxAt s l.ctx).latched.isSome then s else loaderDone l.ctx l.motif PrickStatus.aborted.num k s
    | .txn id => failTxn id .badState (fun _ _ => .aborted) s) s1

end Sys2Proof.Machine
end

