-- ==== Sys2Proof/Machine/Teardown.lean ====
section
/-! DEFINITION. Tear-down of a faulted context, HALT, and the context reset (R281, R291, R318, R325 to R327, R474). -/

namespace Sys2Proof.Machine

/-! ## Stopping a context everywhere (R325 steps 2 to 6) -/

/-- The runs of a context: Hoop and run. -/
def runsOf (s : State) (c : Nat) : List (Nat × RunSt) :=
  (List.range 8).flatMap fun h => ((hoopAt s h).runs.filter fun r => r.ctx = c).map fun r => (h, r)

/-- Waiting requests of a context leave every knot, and requests and replies on their way are discarded (R281). -/
def dropKnots (c : Nat) (s : State) : State :=
  let own := ownId s
  let gone (fromMod ctx : Nat) : Bool := decide (fromMod = own) && decide (ctx = c)
  modNet (fun n => { n with
    reqs := n.reqs.filter fun r => !gone r.fromMod r.ctx
    reps := n.reps.filter fun r => repOwner s r ≠ c
    waiters := (n.waiters.map fun p => (p.1, p.2.filter fun w => !gone w.fromMod w.ctx)).filter fun p => p.2 ≠ [] }) s

/-- The channels of a context become FAULTED; what its ports had gathered is lost (R291). -/
def faultChannels (c : Nat) (s : State) : State :=
  let s1 := modNet (fun n => { n with
      ctrls := n.ctrls.filter fun m => (chanAt s m.2.1).ctx ≠ c
      held := n.held.filter fun f => (chanAt s f.chan).ctx ≠ c
      far := n.far.filter fun w => w.ctx ≠ c })
    { s with chans := s.chans.map fun p => (p.1, if p.2.ctx = c && p.2.st = .opened then { p.2 with st := .faulted } else p.2) }
  (sitesOf s c).foldl (fun s k => modTile k (fun t => { t with b := { t.b with ports := [], portSent := [] } }) s) s1

/-- Tokens of a context's streams in every peer buffer are discarded and counted (R247). -/
def dropPeers (c : Nat) (s : State) : State :=
  let s1 := modNet (fun n => { n with peers := n.peers.filter fun p => p.ctx ≠ c }) s
  (s1.tiles.map (·.1)).foldl (fun s k => modB k (fun b =>
    let keep := b.peer.filter fun p => p.ctx ≠ c
    { b with peer := keep, cntDrop := satAdd 32 b.cntDrop (b.peer.length - keep.length) }) s) s1

/-- Copies of a context are abandoned, and its transfers on the cordonnet are discarded (R32, R480). -/
def dropTransfers (c : Nat) (s : State) : State :=
  let s1 := modNet (fun n => { n with
    copies := n.copies.filter fun x => x.ctx ≠ c, xfers := n.xfers.filter fun x => x.ctx ≠ c }) s
  let bus := (s.net.xfers.filter fun x => x.ctx = c).length
  let s2 := (List.range 8).foldl (fun s h => modHoop h (fun x => { x with
    tapBuf := x.tapBuf.filter fun f => f.ctx ≠ c
    tapDrop := satAdd 48 x.tapDrop (bus + (x.tapBuf.filter fun f => f.ctx = c).length) }) s) s1
  (List.range 224).foldl (fun s i => startCopies (i % 14) s) s2

/-- Every region of a context is captured, unless its items were captured at a forced stop (R314). -/
def captureAll (c : Nat) (s : State) : State :=
  (regionsOf s c).foldl (fun s (h, c0, c1, _) =>
    if (ctxAt s c).captured.any fun p => inRegion h c0 c1 p.1 then s else captureRegion c h c0 c1 s) s

/-- Steps 2 to 6 of R325: tiles, streams and loads stop, an open sweep rolls back, channels and knots are marked, the
items are captured, queues are emptied and regions released. `scan` also takes POST_MORTEM images (R318). -/
def stopContext (c cause : Nat) (scan : Bool) (s : State) : State :=
  let runs := runsOf s c
  let s1 := each (runs.filter fun p => p.2.stage = .running) (fun p => stopRegion false c p.1 p.2.c0 p.2.c1) s
  let s2 := (List.range 8).foldl (fun s h => abortLoads h (fun l => l.ctx = c) s) s1
  let s3 := beginRollback c cause s2
  let s4 := dropTransfers c (dropPeers c (dropKnots c (faultChannels c s3)))
  let s5 := captureAll c (dropQueued c s4)
  let rs := regionsOf s5 c
  let s6 := if scan then rs.foldl (fun s r => scanRegion c false true r s) s5 else s5
  let s7 := rs.foldl (fun s (h, c0, c1, _) => emptyRegion h c0 c1 s) s6
  let s8 := (List.range 8).foldl (fun s h => modHoop h (fun x => { x with runs := x.runs.filter fun r => r.ctx ≠ c }) s) s7
  (sitesOf s8 c).foldl (fun s k => modTile k (fun t => { t with kb := [], kchk := [] }) s) s8

/-! ## The tear-down (R325, R326) -/

/-- The eviction of a context ends: the images that it has taken are discarded and EVICT_CONTEXT completes with BAD_STATE
(R324). -/
def endEviction (c : Nat) (s : State) : State :=
  if (ctxAt s c).st ≠ .evicting then s
  else
    let rs := if (ctxAt s c).evictEnd then regionsOf s c else []
    let taken (i : Nat × Nat × Nat × Nat × Bool × Bool) : Bool :=
      !i.2.2.2.2.1 && !i.2.2.2.2.2 && rs.contains (i.1, i.2.1, i.2.2.1, i.2.2.2.1)
    finishAll (fun w => match w with | .evict x => decide (x = c) | _ => false) .badState
      (modCtx c (fun x => { x with images := x.images.filter fun i => !taken i, evictEnd := false }) s)

/-- The log entry of a context fault (Table 15.3). -/
def faultLog (c : Nat) (l : Latched) (s : State) : State :=
  logEntry 1 c l.code.num l.reason
    (l.hoop + l.col * 2 ^ 8 + l.row * 2 ^ 16 + l.step * 2 ^ 24 + l.extra * 2 ^ 40 + l.load * 2 ^ 56) s.logs.eseq s

/-- The tear-down of a context whose fault is latched: it is stopped, its dump is written, CTX_FAULT is raised and the
context is FAULTED. -/
def tearDown (c : Nat) (scan : Bool) (s : State) : State :=
  match (ctxAt s c).latched with
  | none => s
  | some l0 =>
    if l0.done then s
    else
      let s1 := stopContext c causeFault scan (endEviction c s)
      let l := ((ctxAt s1 c).latched).getD l0
      let s2 := faultDump c l s1
      let s3 := faultLog c l (raise 0x0005 c (faultFields l) s2)
      let s4 := { s3 with logs := { s3.logs with
        checks := s3.logs.checks.filter fun x => x.1 ≠ c, hazards := s3.logs.hazards.filter fun x => x.1 ≠ c } }
      modCtx c (fun x => { x with
        st := .faulted, latched := some { l with done := true }, captured := [], runPend := none, runLeft := some 0
        ending := false }) s4

/-- CONTEXT_TEARDOWN (R325). -/
def execContextTeardown (ctx : Fin 16) (s : State) : Out := ctl (if ctx.val = 0 then s else tearDown ctx.val false s) s

/-- Whether HALT stops a context: ACTIVE or EVICTING (R318). -/
def haltable (s : State) (c : Nat) : Bool := decide (ctxSt s c = .active) || decide (ctxSt s c = .evicting)

/-- A context is halted: HALTED is latched and it is torn down. A context whose fault is latched keeps its code and is
torn down too, so that it is stopped. -/
def haltCtx (scan : Bool) (c : Nat) (s : State) : State :=
  if haltable s c then tearDown c scan (faultAt c .halted noItem s)
  else tearDown c false s

/-! ## Context reset (R327) -/

/-- The repeat-table entries that name a context as they stand. -/
def entriesOf (s : State) (c : Nat) : Setting → Bool
  | .entry h n => enV (entryAt s h n) && decide (enCtx (entryAt s h n) = c)
  | _ => false

/-- The columns that record a context as they stand. -/
def columnsOf (s : State) (c : Nat) : Setting → Bool
  | .motif h col => decide ((motifAt s h col).1 = c)
  | _ => false

/-- The active planes of the columns that record a context return to reset values, their queues are empty, and they record
nothing; counters stay (R327, Table 14.11). -/
def unloadColumns (c : Nat) (s : State) : State :=
  let s1 := (sitesOf s c).foldl (fun s k => modTile k (fun t =>
    { t with cfg := [], prog := [], queues := [], masks := [], seq := { t.seq with on := false } }) s) s
  (List.range 8).foldl (fun s h => modHoop h (fun x => { x with
    discard := x.discard.filter fun p => (Tab.get (0, 0) x.motifs (p.1 / 256)).1 ≠ c
    motifs := x.motifs.filter fun p => p.2.1 ≠ c }) s)
    (touch (columnsOf s c) s1)

/-- The valid entries of a context leave the repeat tables. -/
def dropEntries (c : Nat) (s : State) : State :=
  (List.range 8).foldl (fun s h => modHoop h (fun x => { x with
    table := x.table.filter fun p => enCtx p.2.toNat ≠ c }) s) (touch (entriesOf s c) s)

/-- A context reset, once its tiles have stopped: loads that were asked for since are abandoned, prickings are unloaded,
entries, images and channels go, CTX_FLAGS is cleared, and the context is IDLE. -/
def resetEffect (c : Nat) (s : State) : State :=
  let s0 := (List.range 8).foldl (fun s h => abortLoads h (fun l => l.ctx = c) s) s
  let s1 := dropEntries c (unloadColumns c { s0 with hoops := s0.hoops.map fun p =>
    (p.1, { p.2 with runs := p.2.runs.filter fun r => r.ctx ≠ c }) })
  let s2 := { s1 with chans := s1.chans.filter fun p => p.2.ctx ≠ c }
  modCtx c (fun x => { x with
    st := .idle, latched := none, flags := 0, images := [], scanned := [], captured := [], runPend := none
    runLeft := some 0, ending := false, evictEnd := false }) s2

/-- The subscriptions of a context are disabled. -/
def dropSubs (c : Nat) (s : State) : State :=
  let off (e : BitVec 128) : BitVec 128 := BitVec.ofNat 128 (setFld e.toNat 0 1 0)
  (List.range 8).foldl (fun s h => (List.range 64).foldl (fun s i =>
    if subEn (subAt s h i) && subCtx (subAt s h i) = c then
      modHoop h (fun x => { x with subs := Tab.set 0 x.subs i (off (Tab.get 0 x.subs i)) }) s else s) s) s

/-- CTX_DESTROY beyond the reset: prickings are freed, subscriptions disabled, registers 0, the context FREE. -/
def destroyEffect (c : Nat) (s : State) : State :=
  let s1 := resetEffect c s
  modCtx c (fun x => { x with
    st := .free, trap := 0, relocWs := [], relocAs := [], relocPs := [], relocHbm := 0, syncAs := [], syncHbm := 0, dn := []
    dnStep := 0 })
    (dropSubs c { s1 with pricks := s1.pricks.filter fun p => p.ctx ≠ c })

/-- A context that is to be reset stops first: a latched fault is torn down, an active one is stopped and its sweep rolled
back. -/
def quiesce (c : Nat) (s : State) : State :=
  match (ctxAt s c).latched with
  | some l => if l.done then s else tearDown c false s
  | none => stopContext c causeCommand false (endEviction c s)

end Sys2Proof.Machine
end

