-- ==== Sys2Proof/Machine/Scheduler.lean ====
section
/-! DEFINITION. The scheduler: entries at START, OUT_AT, DEADLINE and completion, forced stops, and the scan of an
eviction (R307 to R315, R320, R505, R506). -/

namespace Sys2Proof.Machine

def pushRun (h : Nat) (r : RunSt) (s : State) : State := modHoop h (fun x => { x with runs := x.runs ++ [r] }) s

/-- Whether columns of an entry are in use by an entry in progress that is no sweep. -/
def columnsBusy (s : State) (h x : Nat) : Bool :=
  (hoopAt s h).runs.any fun r => decide (r.stage ≠ .sweeping) && decide (r.stage ≠ .pausing) &&
    decide (r.c0 ≤ enC1 x) && decide (enC0 x ≤ r.c1)

/-- Whether a Hoop's clock runs, or it leaves Rest: then an entry's work waits for the end of the exit (R506). -/
def hoopServes (s : State) (h : Nat) : Bool :=
  decide ((hoopAt s h).power = .on) || decide ((hoopAt s h).power = .exiting false)

/-- A load prefetched for an entry that does not start is dropped. -/
def dropPrefetch (h e : Nat) (s : State) : State :=
  modHoop h (fun x => { x with loads := x.loads.filter fun l => !(decide (l.origin = .entry e) && l.prefetched) }) s

/-- An entry of a kind that may start, on free columns of a Hoop that serves it. -/
def startsNow (s : State) (h e kind : Nat) : Bool :=
  mayStart s h e kind && (runAt s h e).isNone && !columnsBusy s h (entryAt s h e) && hoopServes s h

/-- ENTRY_START: at START of a RUN entry its load is asked for, or its run begins (R307, R308). -/
def execEntryStart (hoop : Fin 8) (entry : Fin 128) (s : State) : Out :=
  let h := hoop.val
  let e := entry.val
  let x := entryAt s h e
  ground (if !startsNow s h e 1 then dropPrefetch h e s
  else
    let r := runOfEntry e x .loading
    let s1 := pushRun h r s
    if enReconf x then startLoad h e s1
    else if (hoopAt s h).power = .on then beginRun h r s1
    else s1) s

/-- RECONF_START: at START of a RECONF entry its load is asked for (R310). -/
def execReconfStart (hoop : Fin 8) (entry : Fin 128) (s : State) : Out :=
  let h := hoop.val
  let e := entry.val
  ground (if !startsNow s h e 2 then dropPrefetch h e s
  else startLoad h e (pushRun h (runOfEntry e (entryAt s h e) .loading) s)) s

/-- SWEEP_START: the Hoop's engine may process the blocks of the context's open sweep; during the pause of an earlier entry
it begins them when that ends (R311). -/
def execSweepStart (hoop : Fin 8) (entry : Fin 128) (s : State) : Out :=
  let h := hoop.val
  let e := entry.val
  let x := entryAt s h e
  let free := (runAt s h e).all fun r => decide (r.stage = .pausing)
  ground (if mayStart s h e 3 && free && hoopServes s h && decide ((sweepAt s (enCtx x)).st = .opened) then
      pushRun h { runOfEntry e x .sweeping with outOk := !engineBusy s h }
        (modHoop h (fun y => { y with runs := y.runs.filter fun r => r.entry ≠ e }) s)
    else s) s

/-- OUT_AT_REACHED: a PHASE_SPLIT region may enter OUT (R312). -/
def execOutAtReached (hoop : Fin 8) (entry : Fin 128) (s : State) : Out :=
  let h := hoop.val
  ground (match runAt s h entry.val with
  | none => s
  | some r => if r.split then modRun h r (fun y => { y with outOk := true }) s else s) s

/-! ## DEADLINE (R259, R260, R314) -/

/-- Whether a shuttle or G tile may have fired or received a token in the run. -/
def actedInRun (t : Tile) : Bool := decide (t.sh ≠ STile.reset) || decide (t.g ≠ GTile.reset) || !t.queues.isEmpty

/-- The item of an OVERRUN at DEADLINE (R510): the first active sequencer that has not fired its END; else the first
shuttle or G tile that fired or received a token in the last 64 FCLK; else the entry. The model has no clock: which of those
that acted in the run is the first to have done so within that time is a free choice (log entry 34). -/
def overrunItem (s : State) (h : Nat) (r : RunSt) : Item :=
  let ks := regionTiles h r.c0 r.c1
  match ks.find? fun k => (tileAt s k).seq.on && !(tileAt s k).seq.ended with
  | some k => tileItem s k
  | none =>
    let late := ks.filter fun k => (kindOf k = .S || kindOf k = .G) && actedInRun (tileAt s k)
    match late[freeNat s 0 % (late.length + 1)]? with
    | some k => unitItem k
    | none => entryItem h r.c0

/-- The B tile of the first parked stream of a region. -/
def parkedTile (s : State) (h : Nat) (r : RunSt) : Option Nat :=
  (regionTiles h r.c0 r.c1).find? fun k => (tileAt s k).b.streams.any fun p => decide (p.2.st = .parked)

/-- DEADLINE: a SWEEP entry's engine pauses; a load that has not committed is OVERRUN; an incomplete run is force-stopped,
with XLATE where a stream is parked, and without a fault where the context is EVICTING (R259, R260, R310, R311, R314). -/
def execDeadline (hoop : Fin 8) (entry : Fin 128) (s : State) : Out :=
  let h := hoop.val
  let e := entry.val
  ground (match runAt s h e with
  | none => s
  | some r =>
    match r.stage with
    | .sweeping => pauseEnds h (modRun h r (fun y => { y with stage := .pausing }) s)
    | .pausing => s
    | .stopped => s
    | .loading =>
      let s1 := modHoop h (fun x => { x with loads := x.loads.filter fun l => l.origin ≠ .entry e }) s
      latch r.ctx .overrun (entryItem h r.c0) 0 0 .none (dropRun h e s1)
    | .running =>
      let keep := decide ((ctxAt s r.ctx).st = .evicting) && (ctxAt s r.ctx).latched.isNone && (parkedTile s h r).isSome
      let s1 := if keep then s
        else match parkedTile s h r with
          | some k => faultAt r.ctx .xlate (tileItem s k) s
          | none => useFree 1 (faultAt r.ctx .overrun (overrunItem s h r) s)
      modRun h r (fun y => { y with stage := .stopped }) (stopRegion keep r.ctx h r.c0 r.c1 s1)) s

/-- FORCED_STOP_COMPLETE: the region's items are captured, its queues emptied and the region released; a region stopped
for an eviction keeps its queues for the scan (R260, R314). -/
def execForcedStopComplete (hoop : Fin 8) (entry : Fin 128) (s : State) : Out :=
  let h := hoop.val
  let e := entry.val
  ground (match runAt s h e with
  | none => s
  | some r =>
    if r.stage ≠ .stopped then s
    else if (ctxAt s r.ctx).latched.isNone then dropRun h e s
    else dropRun h e (emptyRegion h r.c0 r.c1 (captureRegion r.ctx h r.c0 r.c1 s))) s

/-! ## Completion (R101, R313) -/

/-- The links of regions land before a scan reads their queues. -/
def landAll (rs : List (Nat × Nat × Nat × Nat)) (s : State) : State :=
  rs.foldl (fun s (h, c0, c1, _) => landCredits h c0 c1 (landTokens h c0 c1 s)) s

/-- A scan of regions: a parity error faults the context; else records and images are written and the queues emptied. -/
def scanOut (c : Nat) (armed : Bool) (rs : List (Nat × Nat × Nat × Nat)) (s : State) : State :=
  match scanParity s rs with
  | some k => faultAt c .queueParity (tileItem s k) s
  | none =>
    rs.foldl (fun s (h, c0, c1, _) => emptyRegion h c0 c1 s) (rs.foldl (fun s r => scanRegion c armed false r s) s)

/-- Whether an effect on a tile of a context changes the tile or raises a fault. -/
def changes (k c : Nat) (f : State → State) (s : State) : Bool :=
  decide (tileAt (f s) k ≠ tileAt s k) || decide ((ctxAt (f s) c).latched ≠ (ctxAt s c).latched)

/-- Whether a shuttle or G tile of a context can fire (R101). A mode or format that is undefined shows in the checks. -/
def steers (k c : Nat) (s : State) : Bool :=
  let t := tileAt s k
  match kindOf k with
  | .S => decide (1 ≤ shModeNo t) && decide (shModeNo t ≤ 6) && changes k c (shAct k c) s
  | .G => gFmtOk t && ((List.range 16).any (fun q => changes k c (gContribute k c q) s) ||
      t.g.slots.any fun p => changes k c (gForward k c p.1) s)
  | _ => false

/-- Whether a site is a shuttle or G tile of a region. -/
def steering (h c0 c1 k : Nat) : Bool := inRegion h c0 c1 k && (kindOf k = .S || kindOf k = .G)

/-- Whether the shuttles and G tiles of a region stay quiet for as long as nothing else happens (R101 condition 2): none of
them can fire, and no token or credit is on its way to one. -/
def steeringQuiet (s : State) (c h c0 c1 : Nat) : Bool :=
  ((regionTiles h c0 c1).all fun k => !steers k c s) &&
  ((hoopAt s h).flight.all fun a => (leavesOf s a).all fun l => match l with
    | .queue k _ => !steering h c0 c1 k
    | _ => true) &&
  (hoopAt s h).credits.all fun x => !(steering h c0 c1 x.src && decide (x.left = 0))

/-- RUN_COMPLETE: every active sequencer has fired END and the shuttles and G tiles of the region are quiet: the end-of-run
checks are made, once those of remote knots have been answered (R101, R280), and with SCAN_OUT_AFTER the region is
scanned out and its image armed. A region that does not fit its scan records stays incomplete. Where a shuttle waits for
an output without a circuit after all sequencers have ended, R107 speaks of OVERRUN, and R101 with R111 of a completed run
whose check fails: DESIGN CHOICE, the run completes with STEER_MISMATCH (log entry 38). -/
def execRunComplete (hoop : Fin 8) (entry : Fin 128) (s : State) : Out :=
  let h := hoop.val
  let e := entry.val
  ground (match runAt s h e with
  | none => s
  | some r =>
    let ended := (regionTiles h r.c0 r.c1).all fun k => !(tileAt s k).seq.on || (tileAt s k).seq.ended
    if r.stage ≠ .running || !ended || !steeringQuiet s r.ctx h r.c0 r.c1 then s
    else
      let rs := [(h, r.c0, r.c1, r.motif)]
      let scan := enScan (entryAt s h e)
      let s0 := if scan then landAll rs s else s
      if scan && !scanFits s0 rs then s0
      else if !checksAnswered s0 h r.c0 r.c1 then askChecks r.ctx h r.c0 r.c1 s0
      else
        let s1 := runChecks r.ctx h r.c0 r.c1 s0
        dropRun h e (if scan && (ctxAt s1 r.ctx).latched.isNone then scanOut r.ctx true rs s1 else s1)) s

/-! ## Eviction (R320, R321) -/

/-- Whether a context was ACTIVE when its eviction began: its RUN count has not ended. -/
def wasActive (x : Ctx) : Bool := decide (x.runLeft ≠ some 0) || x.ending

/-- EVICTION_SCAN: every run of the context has ended; its regions are scanned out and their queues emptied. Where a tile
exceeds its record, EVICT_CONTEXT completes with NO_RESOURCE and the context returns to its former state. -/
def execEvictionScan (ctx : Fin 16) (s : State) : Out :=
  ctl (let c := ctx.val
  let x := ctxAt s c
  if x.st ≠ .evicting || x.latched.isSome || x.evictEnd || !(runsOf s c).isEmpty then s
  else
    let rs := regionsOf s c
    let s1 := landAll rs s
    if !scanFits s1 rs then
      (finishAll (fun w => match w with | .evict y => decide (y = c) | _ => false) .noResource
        (modCtx c (fun x => { x with st := if wasActive x then .active else .idle }) s1))
    else modCtx c (fun x => { x with evictEnd := true }) (scanOut c false rs s1)) s

end Sys2Proof.Machine
end

