-- ==== Sys2Proof/Machine/Settings.lean ====
section
/-! DEFINITION. Configuration items, what a transaction stages, the checks of its commit and the commit itself (R216, R266,
R292, R299, R306, R435, R439 to R443, R512, R515). -/

namespace Sys2Proof.Machine

/-! ## Items (Table 12.13, R512) -/

/-- How an item may be set: with or without a tag, with a tag only, without a tag only, or not at all. -/
inductive ItemTxn where
  | optional | required | untagged | readOnly
deriving DecidableEq, Repr

def itemTxn (item : Nat) : Option ItemTxn :=
  if [0x01, 0x02, 0x30, 0x31, 0x40, 0x50].contains item then some .optional
  else if [0x10, 0x11, 0x12, 0x13, 0x14, 0x15, 0x20].contains item then some .required
  else if [0x41, 0x42, 0x43].contains item then some .untagged
  else if [0x60, 0x61, 0x62, 0x63, 0x64, 0x65].contains item then some .readOnly
  else none

/-- The context that an INDEX names (0: none), and the place within it; none out of range. -/
def itemLoc (item index : Nat) : Option (Nat × Nat) :=
  let soft (c i : Nat) : Option (Nat × Nat) := if 1 ≤ c && c ≤ 15 then some (c, i) else none
  if [0x01, 0x02, 0x13, 0x15, 0x62, 0x63].contains item then soft index 0
  else if [0x10, 0x11, 0x12, 0x14].contains item then soft (index / 8) (index % 8)
  else if item = 0x20 then (if index % 256 ≤ 10 then soft (index / 256) (index % 256) else none)
  else
    let n := if item = 0x30 || item = 0x31 then 512 else if item = 0x50 then 14 else if item = 0x65 then 1024 else 1
    if index < n then some (0, index) else none

/-- The bits of a Darning register and what its value must be a multiple of (Table 10.3). -/
def dnForm (r : Nat) : Nat × Nat :=
  [(3, 1), (23, 1), (48, 32), (48, 64), (48, 256), (48, 256), (16, 1), (48, 16384), (48, 16384), (48, 4096), (45, 1)].getD r (0, 1)

/-- Widths of BASE and BOUND and the capacity of a relocation register, in granules (Table 06.5). -/
def relocForm (item : Nat) : Nat × Nat × Nat :=
  if item = 0x10 then (12, 13, 4096) else if item = 0x11 then (8, 9, 256) else if item = 0x12 then (7, 8, 128) else (27, 28, 2 ^ 27)

/-- A relocation or sync register of a context. -/
def regOf (s : State) (item c h : Nat) : Nat :=
  if item = 0x10 then relocWs s c h else if item = 0x11 then relocAs s c h else if item = 0x12 then relocPs s c h
  else if item = 0x13 then relocHbm s c else if item = 0x14 then (Tab.get 0 (ctxAt s c).syncAs h).toNat
  else (ctxAt s c).syncHbm.toNat

/-- Whether a relocation register lies within its class and meets no other software context's range (R216). -/
def relocFits (s : State) (item c h v : Nat) : Bool :=
  let (bw, nw, cap) := relocForm item
  let base := fld v 0 bw
  let n := fld v bw nw
  let meets (d : Nat) : Bool :=
    let w := regOf s item d h
    decide (fld w bw nw ≠ 0) && decide (base < fld w 0 bw + fld w bw nw) && decide (fld w 0 bw < base + n)
  decide (v < 2 ^ (bw + nw)) && decide (base + n ≤ cap) && (n = 0 || !(softCtxs.filter (· ≠ c)).any meets)

/-- Whether a sync register's range lies within the context's relocated range (R266); an empty range does. -/
def syncFits (s : State) (item c h v : Nat) : Bool :=
  if item = 0x14 then
    decide (v < 2 ^ 28) && (fld v 14 14 = 0 || decide (64 * (fld v 0 14 + fld v 14 14) ≤ fld (relocAs s c h) 8 9 * 4096))
  else
    decide (v < 2 ^ 62) && (fld v 42 20 = 0 || decide (64 * (fld v 0 42 + fld v 42 20) ≤ fld (relocHbm s c) 27 28 * 0x200000))

/-- Whether a value keeps the reserved bits and ranges of its item's own table. -/
def valueFits (s : State) (item sub v : Nat) : Bool :=
  if item = 0x01 || item = 0x02 then decide (v < 64)
  else if item = 0x20 then
    decide (v < 2 ^ (dnForm sub).1) && v % (dnForm sub).2 = 0 && (sub ≠ 0 || fld v 1 2 ≠ 3) && (sub ≠ 1 || decide (v ≤ 4194304))
  else if item = 0x30 then
    decide (v < 2 ^ 60) && (!bitAt v 17 || (fld v 47 12 ≠ 0 && decide (fld v 25 8 ≤ 191)))
  else if item = 0x31 then true
  else if item = 0x40 then
    fld v 29 3 = 0 && fld v 48 16 = 0 && fld v 25 2 ≠ 3 && decide (80 ≤ fld v 32 8) && decide (fld v 32 8 ≤ 104) &&
      fld v 0 25 = fld s.stitch.cfg.toNat 0 25
  else if item = 0x41 then decide (v < 2)
  else if item = 0x42 then decide (v < 2 ^ 14)
  else if item = 0x43 then decide (v < 2 ^ 16) && !bitAt v 7
  else if item = 0x50 then
    decide (v < 2 ^ 14) && fld v 5 7 ≠ 0 && decide (fld v 2 3 = 7) == decide (12 ≤ sub) && (12 ≤ sub || bitAt v 12)
  else false

/-! ## Reading -/

def SweepState.num : SweepState → Nat
  | .none => 0
  | .opened => 1
  | .done => 2
  | .rollingBack => 3

/-- DN_STAT (Table 10.3). -/
def dnStat (s : State) (c : Nat) : Nat := SweepState.num (sweepAt s c).st + (sweepAt s c).lambPass2.toNat * 4

/-- FAULT_LOG_HDR (Table 15.2). -/
def faultLogHdr (s : State) : Nat :=
  ((s.logs.faults.head?.map (·.lseq)).getD 0) % 2 ^ 32 + s.logs.faults.length * 2 ^ 32 + s.logs.wrapped.toNat * 2 ^ 41

/-- Word w of slot i of the sticky fault log (R512, Table 15.3). -/
def faultLogWord (s : State) (i w : Nat) : Nat :=
  match s.logs.faults.find? fun e => e.lseq % 256 = i with
  | none => 0
  | some e =>
    [e.kind + e.ctx * 2 ^ 8 + e.code * 2 ^ 16 + e.detail * 2 ^ 24 + e.lseq % 2 ^ 32 * 2 ^ 32, e.stitch.toNat, e.wher.toNat,
      e.eseq].getD w 0

/-- The value in force of an item (R435). -/
def getItem (s : State) (item c sub : Nat) : Nat :=
  if item = 0x01 then (ctxAt s c).trap.toNat
  else if item = 0x02 then (ctxAt s c).flags.toNat
  else if 0x10 ≤ item && item ≤ 0x15 then regOf s item c sub
  else if item = 0x20 then dnReg s c sub
  else if item = 0x30 then subAt s (sub / 64) (sub % 64) % 2 ^ 64
  else if item = 0x31 then subAt s (sub / 64) (sub % 64) / 2 ^ 64
  else if item = 0x40 then s.stitch.cfg.toNat
  else if item = 0x41 then s.dev.options.toNat
  else if item = 0x42 then s.dev.moduleId.toNat
  else if item = 0x43 then s.dev.mgmtAddr.toNat
  else if item = 0x50 then (linkAt s sub).cfg.toNat
  else if item = 0x60 then s.stitch.count.toNat
  else if item = 0x61 then stitchStat s
  else if item = 0x62 then dnStat s c
  else if item = 0x63 then (ctxAt s c).dnStep.toNat
  else if item = 0x64 then faultLogHdr s
  else faultLogWord s (sub / 4) (sub % 4)

/-! ## Applying -/

/-- Skip levels that left or returned to 0 raise their events, and THERMAL_DUTY follows them (R328). -/
def dutyEvents (old : List Nat) (s : State) : State :=
  let s1 := (List.range 8).foldl (fun s h =>
    let k := skipLevel s h
    if old.getD h 0 = 0 && k ≠ 0 then raise 0x22 0 (toLE 1 h ++ toLE 1 k) s
    else if old.getD h 0 ≠ 0 && k = 0 then raise 0x23 0 (toLE 1 h) s
    else s) s
  modDev (fun d => { d with thermal := (List.range 8).any fun h => skipLevel s1 h ≠ 0 }) s1

def skipLevels (s : State) : List Nat := (List.range 8).map (skipLevel s)

/-- STITCH_CFG applies: the period in force stays, and a new source has still to lock (Table 12.13, R300, R303). -/
def setStitchCfg (v : Nat) (s : State) : State :=
  let src := fld v 25 2
  let old := skipLevels s
  let cfg := BitVec.ofNat 64 (setFld v 0 25 (fld s.stitch.cfg.toNat 0 25))
  let x := s.stitch
  let y := if src = fld x.cfg.toNat 25 2 then { x with cfg := cfg, syncOut := x.syncOut && bitAt v 27 }
    else { x with
      cfg := cfg, lock := .freeRunning, mismatch := false, mismatches := 0, srcPeriod := 0, placed := none
      syncOut := x.syncOut && bitAt v 27 }
  dutyEvents old { s with stitch := y }

/-- A subscription entry's half is written; its count of transfers starts anew (R292, R293). -/
def setSub (i : Nat) (hi : Bool) (v : Nat) (s : State) : State :=
  let e := subAt s (i / 64) (i % 64)
  let w := if hi then e % 2 ^ 64 + v * 2 ^ 64 else e / 2 ^ 64 * 2 ^ 64 + v
  modHoop (i / 64) (fun x => { x with
    subs := Tab.set 0 x.subs (i % 64) (BitVec.ofNat 128 w), subCnt := Tab.set 0 x.subCnt (i % 64) 0 }) s

/-- An item takes a value. MODULE_ID and MGMT_ADDR wait for their own times (Table 12.13). -/
def setItem (item index : Nat) (value : BitVec 64) (s : State) : State :=
  let v := value.toNat
  match itemLoc item index with
  | none => s
  | some (c, i) =>
    if item = 0x01 then modCtx c (fun x => { x with trap := BitVec.ofNat 6 v }) s
    else if item = 0x02 then modCtx c (fun x => { x with flags := x.flags &&& ~~~BitVec.ofNat 6 v }) s
    else if item = 0x10 then modCtx c (fun x => { x with relocWs := Tab.set 0 x.relocWs i (BitVec.ofNat 32 v) }) s
    else if item = 0x11 then modCtx c (fun x => { x with relocAs := Tab.set 0 x.relocAs i (BitVec.ofNat 32 v) }) s
    else if item = 0x12 then modCtx c (fun x => { x with relocPs := Tab.set 0 x.relocPs i (BitVec.ofNat 32 v) }) s
    else if item = 0x13 then modCtx c (fun x => { x with relocHbm := value }) s
    else if item = 0x14 then modCtx c (fun x => { x with syncAs := Tab.set 0 x.syncAs i (BitVec.ofNat 32 v) }) s
    else if item = 0x15 then modCtx c (fun x => { x with syncHbm := value }) s
    else if item = 0x20 then modCtx c (fun x => { x with dn := Tab.set 0 x.dn i value }) s
    else if item = 0x30 then setSub i false v s
    else if item = 0x31 then setSub i true v s
    else if item = 0x40 then setStitchCfg v s
    else if item = 0x41 then modDev (fun d => { d with options := value }) s
    else if item = 0x42 then modDev (fun d => { d with nextModuleId := some (BitVec.ofNat 14 v) }) s
    else if item = 0x43 then modDev (fun d => { d with nextMgmt := some (BitVec.ofNat 16 v) }) s
    else if item = 0x50 then linkConfig i value s
    else s

/-! ## Staged settings and conflicts (R440 to R442) -/

/-- Bytes of shadow state that a staged change takes, which the spec leaves open. -/
def Staged.size (x : Staged) : Nat :=
  (Config.stagedBytes (match x with
    | .item _ _ _ => 0
    | .entry _ _ _ => 1
    | .period _ _ => 2
    | .load _ _ _ _ _ _ => 3
    | .run _ _ _ => 4
    | .sweepCommit _ => 5)).toNat

/-- Items of one context. -/
def ofCtx (c : Nat) : Setting → Bool
  | .item i n => match itemLoc i n with
    | some (d, _) => decide (d = c) && decide (c ≠ 0)
    | none => false
  | _ => false

/-- What is left of staged changes when others replace their settings. -/
def replaced (old new : List Staged) : List Staged :=
  old.filter fun y => !y.settings.any fun x => new.any fun z => z.settings.contains x

def shadowOf (xs : List Staged) : Nat := (xs.map Staged.size).sum

/-- Changes staged in a transaction; loads that they replace end with PRICK_ABORTED. None: they exceed its shadow state. -/
def stage (id : Nat) (new : List Staged) (s : State) : Option State :=
  match txnAt s id with
  | none => none
  | some t =>
    let kept := replaced t.staged new
    let gone := t.staged.filter fun y => !kept.contains y
    if 65536 < shadowOf kept + shadowOf new then none
    else
      some (gone.foldl (fun s y => match y with
        | .load c m _ _ _ _ => applyDone c m PrickStatus.aborted.num s
        | _ => s) (modTxn id (fun t => { t with staged := kept ++ new }) s))

/-- The relocation and sync registers as they will stand with what a transaction stages (R266). -/
def regsWith (xs : List Staged) (s : State) : State :=
  xs.foldl (fun s x => match x with
    | .item i n v => if 0x10 ≤ i && i ≤ 0x15 then setItem i n v s else s
    | _ => s) s

/-! ## The checks of a commit (R442, Table 09.5, R515) -/

def enMeets (a b : Nat) : Bool := decide (enC0 a ≤ enC1 b) && decide (enC0 b ≤ enC1 a)
def enApart (a b : Nat) : Bool := decide (enDeadline a ≤ enStart b) || decide (enDeadline b ≤ enStart a)

/-- START of each at least 4,500 NCLK after the other's DEADLINE, counted around the stitch. -/
def enGuarded (period a b : Nat) : Bool :=
  let after (x y : Nat) : Bool := decide (enDeadline x + 4500 ≤ enStart y) && decide (enDeadline y + 4500 ≤ enStart x + period)
  after a b || after b a

/-- The checks of one entry. -/
def entryOk (s : State) (h period e : Nat) : Bool :=
  let resident := s.pricks.any fun p => decide (p.ctx = enCtx e) && decide (p.motif = enMotif e) && decide (p.hoop = h) &&
    decide (p.c0 = enC0 e) && decide (p.c1 = enC1 e)
  decide (enKind e ≤ 3) && enCtx e ≠ 0 && decide (enC0 e ≤ enC1 e) && decide (enStart e < enDeadline e) &&
    decide (enDeadline e ≤ period) && (!(enKind e = 1 || enKind e = 2) || resident) &&
    (!enSplit e || (decide (enStart e ≤ enOutAt e) && decide (enOutAt e < enDeadline e)))

/-- The checks of two entries of one Hoop. -/
def pairOk (period a b : Nat) : Bool :=
  if enKind a = 3 && enKind b = 3 then enApart a b
  else if enKind a = 3 || enKind b = 3 || !enMeets a b then true
  else if enCtx a = enCtx b then enApart a b else enGuarded period a b

/-- Every pair of a list. -/
def pairsOk (f : Nat → Nat → Bool) : List Nat → Bool
  | [] => true
  | x :: xs => xs.all (f x) && pairsOk f xs

/-- A table with staged entries. -/
def tableWith (h : Nat) (xs : List Staged) (m : Tab (BitVec 256)) : Tab (BitVec 256) :=
  xs.foldl (fun m x => match x with
    | .entry g n v => if g = h then Tab.set 0 m n v else m
    | _ => m) m

def validOf (m : Tab (BitVec 256)) : List Nat := (m.map fun p => p.2.toNat).filter enV

/-- The repeat-table checks of a Hoop, against the period that will be in force (R299, R306). -/
def tableOk (s : State) (h period : Nat) (xs : List Staged) : Bool :=
  let old := (hoopAt s h).table
  let new := tableWith h xs old
  let es := validOf new
  let fresh := (new.filter fun p => Tab.get 0 old p.1 ≠ p.2).map (fun p => p.2.toNat) |>.filter enV
  let early (a b : Nat) : Bool := enKind a = 3 || enKind b = 3 || enCtx a = enCtx b || !enMeets a b ||
    decide (4500 ≤ enStart a) || decide (4500 + enDeadline b ≤ enStart a + period)
  es.all (entryOk s h period) && pairsOk (pairOk period) es && fresh.all fun a => (validOf old).all (early a)

def periodOf (s : State) (xs : List Staged) : Nat :=
  (xs.findSome? fun x => match x with
    | .period p _ => some p
    | _ => none).getD (fld s.stitch.cfg.toNat 0 25)

/-- The relocation ranges and the sync regions as the commit would leave them (R216, R266). -/
def regsOk (s : State) (xs : List Staged) : Bool :=
  let s1 := regsWith xs s
  xs.all fun x => match x with
    | .item i n _ =>
      match itemLoc i n with
      | none => true
      | some (c, h) =>
        if 0x10 ≤ i && i ≤ 0x13 then
          relocFits s1 i c h (regOf s1 i c h) && (i ≠ 0x11 || syncFits s1 0x14 c h (regOf s1 0x14 c h)) &&
            (i ≠ 0x13 || syncFits s1 0x15 c h (regOf s1 0x15 c h))
        else if i = 0x14 || i = 0x15 then syncFits s1 i c h (regOf s1 i c h) else true
    | _ => true

/-- No staged RUN names a boundary that has passed (R515). -/
def firstsOk (s : State) (xs : List Staged) : Bool :=
  xs.all fun x => match x with
    | .run _ _ first => first = 0 || decide (s.stitch.count.toNat ≤ first.toNat)
    | _ => true

/-- Staged RUNs and sweep commits against the state of their contexts (R319, R357, R515). -/
def statesOk (s : State) (xs : List Staged) : Bool :=
  xs.all fun x => match x with
    | .run c _ _ => (ctxSt s c = .idle || ctxSt s c = .active) && s.pins.haltN
    | .sweepCommit c => (sweepAt s c).st = .done && (ctxAt s c).latched.isNone
    | _ => true

/-- The loads of a transaction in the ports: Hoop and load. -/
def txnLoads (s : State) (id : Nat) : List (Nat × Load) :=
  (List.range 8).flatMap fun h => ((loadsOf s h).filter fun l => l.origin = .txn id).map fun l => (h, l)

/-- A committing transaction's boundary: AT_COUNT has come and its loads are staged (R299, R402, R442). -/
def dueTxn (s : State) (t : Txn) : Bool :=
  let at_ := (t.staged.findSome? fun x => match x with
    | .period _ n => some n.toNat
    | _ => none).getD 0
  t.committing && decide (at_ ≤ s.stitch.count.toNat) && (txnLoads s t.id).all fun p => p.2.staged

/-! ## The commit (R442) -/

/-- A RUN becomes pending; STITCHES 0 on an IDLE context cancels a pending one (R317). -/
def runPending (c : Nat) (stitches : BitVec 32) (first : BitVec 64) (tagged : Bool) (s : State) : State :=
  let idle := decide (ctxSt s c = .idle)
  modCtx c (fun x => { x with runPend := if idle && stitches = 0 then none else some (stitches, first, tagged) }) s

/-- One staged change applies; loads are swapped apart. -/
def applyStaged (x : Staged) (s : State) : State :=
  match x with
  | .item i n v => setItem i n v s
  | .entry h n v => modHoop h (fun x => { x with table := Tab.set 0 x.table n v }) s
  | .period p _ =>
    let same := if fld s.stitch.cfg.toNat 25 2 = 1 then
        decide (p ≤ s.stitch.srcPeriod + 64) && decide (s.stitch.srcPeriod ≤ p + 64)
      else decide (s.stitch.srcPeriod = p)
    { s with stitch := { s.stitch with
      cfg := BitVec.ofNat 64 (setFld s.stitch.cfg.toNat 0 25 p)
      mismatch := s.stitch.mismatch && !same, mismatches := if same then 0 else s.stitch.mismatches } }
  | .load _ _ _ _ _ _ => s
  | .run c n f => runPending c n f true s
  | .sweepCommit c => sweepCommitNow c s

/-- A committing transaction at its boundary: checked, then applied in one swap or discarded. An uncorrectable word of its
shadow state fails it (R513); the spec gives such a word no physical address, so WHERE of its log entry is free. -/
def commitTxn (id : Nat) (s : State) : State :=
  match txnAt s id with
  | none => s
  | some t =>
    let loads := txnLoads s id
    let s1 := loads.foldl (fun s (h, l) => landCredits h l.c0 l.c1 (landTokens h l.c0 l.c1 s)) s
    let aborted (_ _ : Nat) : PrickStatus := .aborted
    if (t.staged.flatMap Staged.settings).any fun x => t.touched.contains x then failTxn id .txnConflict aborted s
    else if !((List.range 8).all fun h => tableOk s h (periodOf s t.staged) t.staged) || !regsOk s t.staged || !firstsOk s t.staged then
      failTxn id .badArg aborted s
    else if t.shadowBad then failTxn id .badState aborted (useFree 1 (logEntry 3 0 0 5 (freeNat s 0) 0 s))
    else if loads.any fun p => !quiet s1 p.1 p.2 then failTxn id .badState (fun _ _ => .notQuiet) s1
    else if !statesOk s1 t.staged then failTxn id .badState aborted s1
    else
      match t.staged.findSome? fun x => match x with | .sweepCommit c => headerUe s1 c | _ => none with
      | some pa => failTxn id .memUe aborted (ueFound pa s1)
      | none =>
      let s2 := unstageTxn id { s1 with txns := eraseFirst (fun u => u.id = id) s1.txns }
      let s3 := t.staged.foldl (fun s x => applyStaged x s) s2
      let on (h : Nat) : List Load := (loads.filter fun p => p.1 = h).map (·.2)
      let s4 := loads.foldl (fun s p => applyDone p.2.ctx p.2.motif 0 s)
        ((List.range 8).foldl (fun s h => if (on h).isEmpty then s else swapLoads h (on h) s) s3)
      finishTxn id .ok (touch (fun x => t.stages x) s4)

end Sys2Proof.Machine
end

