-- ==== Sys2Proof/Machine/Firmware.lean ====
section
/-! DEFINITION. Status registers, firmware images and their verification, the persistent block as bytes, the device
information block and the attestation report (Tables 12.3, 12.4, 12.11, 12.17, 14.2, 14.5, 14.6, R448, R486 to R488, R495,
R497). -/

namespace Sys2Proof.Machine

/-! ## Registers of the module -/

/-- DEV_STATUS (Table 12.4). -/
def devStatus (s : State) : Nat :=
  let d := s.dev
  d.ready.toNat + d.cfgDefaulted.toNat * 2 + d.restricted.toNat * 4 + d.unqualified.toNat * 8 + (if d.debug && !s.trust.secure then 16 else 0) +
    s.trust.secure.toNat * 32 + d.thermal.toNat * 64 + d.bootSlot.toNat * 128 + d.jWrapped.toNat * 256 +
    (!s.pins.haltN).toNat * 512

/-- MB_GENS (Table 12.3): 0 in ROM recovery, MB1 alone while RESTRICTED (R492, R494). -/
def mbGens (s : State) : Nat := if s.dev.romRecovery then 0 else if s.dev.restricted then 1 else 7

def devSig : Nat := 0x564B06B0

/-- FUSE_STATE (Table 14.6). -/
def fuseState (s : State) : Nat :=
  let t := s.trust
  t.bsk.isSome.toNat + t.secure.toNat * 2 + t.debugOff.toNat * 4 + t.revoked.toNat * 8 + t.bbram.isSome.toNat * 128 +
    t.tamperSeen.toNat * 256

/-- A boot or firmware event is raised and held for event rings still to be enabled, up to 16 of them (R495). -/
def raiseBoot (code ctx : Nat) (payload : List Byte) (s : State) : State :=
  let s1 := raise code ctx payload s
  { s1 with logs := { s1.logs with held := (s1.logs.held ++ s1.logs.raised.take 1).take 16 } }

/-! ## Firmware images (Table 14.2) -/

def fwNum (img : List Byte) (off n : Nat) : Nat := leNat ((img.drop off).take n)
def fwKey (img : List Byte) : Nat := fwNum img 5 1
def fwVersion (img : List Byte) : Nat := fwNum img 8 4
def fwIf (img : List Byte) : Nat := fwNum img 12 2
def fwBody (img : List Byte) : Nat := fwNum img 0x20 4
def fwLen (img : List Byte) : Nat := 64 + fwBody img + 1280
def fwSigned (img : List Byte) : List Byte := img.take (64 + fwBody img)
def fwSig (img : List Byte) : List Byte := (img.drop (64 + fwBody img)).take 1280
def fwB0 (img : List Byte) : Bool := bitAt (fwNum img 0x1C 4) 0

/-- The image digest (R486). -/
def fwDigest (img : List Byte) : List Byte := shake256 64 (fwSigned img)

/-- Why an image does not verify (R487), as IMAGE_REJECTED codes it (Table 14.4): 1 FORMAT, 2 SIGNATURE, 3 KEY_REVOKED. -/
def fwReason (s : State) (kind : Nat) (img : List Byte) : Option Nat :=
  if fwNum img 0 4 ≠ 0x4657494D || fwNum img 4 1 ≠ kind || fwNum img 6 2 ≠ 1 || 3 < fwKey img || img.length < fwLen img ||
    (if kind = 0 then 0x300000 else 0x3FF000) < fwLen img then some 1
  else if s.trust.revoked.getLsbD (fwKey img) then some 3
  else if !Config.falconVerify (fwKey img) (fwSigned img) (fwSig img) then some 2
  else none

def fwSlotAt (s : State) (kind slot : Nat) : FwSlot := Tab.get FwSlot.reset s.flash.slots (2 * kind + slot)
def setFwSlot (kind slot : Nat) (x : FwSlot) (s : State) : State :=
  { s with flash := { s.flash with slots := Tab.set FwSlot.reset s.flash.slots (2 * kind + slot) x } }

/-- Why a slot does not verify: 0 EMPTY, or its image's reason. -/
def slotReason (s : State) (kind slot : Nat) : Option Nat :=
  let x := fwSlotAt s kind slot
  if x.gen = 0 then some 0 else fwReason s kind x.image

/-- Whether b's IF_VER lies within a's ACC range for b's kind. -/
def fwAccepts (a : List Byte) (kb : Nat) (b : List Byte) : Bool :=
  decide (fwNum a (0x10 + 4 * kb) 2 ≤ fwIf b) && decide (fwIf b ≤ fwNum a (0x12 + 4 * kb) 2)

/-- Two images are compatible (R487). -/
def fwCompatible (ka : Nat) (a : List Byte) (kb : Nat) (b : List Byte) : Bool := fwAccepts a kb b && fwAccepts b ka a

/-- The slot of the running image of a kind: 0xFF for none. -/
def runningSlot (s : State) (kind : Nat) : Nat := [s.dev.sf, s.dev.sq, s.dev.lp].getD kind 0xFF

def runningImage (s : State) (kind : Nat) : Option (List Byte) :=
  if runningSlot s kind = 0xFF then none else some (fwSlotAt s kind (runningSlot s kind)).image

def runningVersion (s : State) (kind : Nat) : Nat := ((runningImage s kind).map fwVersion).getD 0

/-- The inactive slot of a kind: the one that does not run; slot A where none runs. -/
def inactiveSlot (s : State) (kind : Nat) : Nat := if runningSlot s kind = 0 then 1 else 0

/-- The write of an image into a slot begins: its record's GENERATION is 0 (R488 steps 1 and 2). -/
def beginFlash (kind slot : Nat) (img : List Byte) (s : State) : State :=
  let s1 := setFwSlot kind slot ⟨0, img.take (fwLen img)⟩ s
  { s1 with flash := { s1.flash with writing := some (kind, slot) } }

/-- The larger GENERATION of a kind's two slots. -/
def topGen (s : State) (kind : Nat) : Nat := max (fwSlotAt s kind 0).gen.toNat (fwSlotAt s kind 1).gen.toNat

/-- A written slot that verifies takes its GENERATION, and FW_UPDATE_DONE is raised (R488 steps 3 and 4). -/
def endFlash (kind slot : Nat) (s : State) : State :=
  let x := fwSlotAt s kind slot
  let s0 := { s with flash := { s.flash with writing := none } }
  if (fwReason s kind x.image).isSome then s0
  else
    let gen := 1 + topGen s kind
    raiseBoot 0x0202 0 (toLE 1 kind ++ toLE 1 slot ++ toLE 2 0 ++ toLE 4 gen ++ toLE 4 (fwVersion x.image))
      (setFwSlot kind slot { x with gen := BitVec.ofNat 32 gen } s0)

/-! ## The persistent block (Table 12.17) -/

/-- Bytes 0 to 16,379 of a block. -/
def blockBytes (b : PBlock) : List Byte :=
  let links := (List.range 14).flatMap fun p => toLE 8 (Tab.get 0 b.linkCfg p).toNat
  let low := toLE 2 0x5043 ++ toLE 2 1 ++ toLE 4 0 ++ toLE 8 b.stitchCfg.toNat ++ toLE 8 b.options.toNat ++
    toLE 2 b.mgmtAddr.toNat ++ toLE 6 0 ++ toLE 2 b.moduleId.toNat ++ toLE 30 0 ++ links
  padTo 16380 (padTo 0x1000 low ++ (b.repairs.take 512).flatMap fun r => toLE 8 r.toNat)

/-- The check word of a block (R448). -/
def blockCheck (b : PBlock) : Nat := crc32c (blockBytes b)

/-- The block that CFG_PERSIST writes: the running items, MODULE_ID and MGMT_ADDR as last set, and the running repairs. -/
def runningBlock (s : State) : PBlock :=
  { good := true, stitchCfg := s.stitch.cfg, options := s.dev.options, mgmtAddr := s.dev.nextMgmt.getD s.dev.mgmtAddr
    moduleId := s.dev.nextModuleId.getD s.dev.moduleId
    linkCfg := (List.range 14).foldl (fun m p => Tab.set 0 m p (linkAt s p).cfg) [], repairs := s.maint.repairs }

/-! ## The device information block (Tables 12.11, 01.5, 01.6) -/

/-- A distance entry: idle latency, bandwidth, brides crossed. -/
def distance (h q : Nat) : Nat :=
  let x := quarterOf h ^^^ q
  let brides := if x = 0 then 0 else if x = 3 then 2 else 1
  110 + 30 * (h % 2) + 70 * brides + (if brides = 0 then 369 else 190) * 2 ^ 16 + brides * 2 ^ 32

def infoBlock (s : State) : List Byte :=
  let head := toLE 4 devSig ++ toLE 1 1 ++ toLE 1 s.trust.secure.toNat ++ toLE 2 (ownId s) ++ toLE 16 Config.deviceId.toNat ++
    toLE 4 (runningVersion s 0) ++ toLE 4 (runningVersion s 1) ++ toLE 4 (runningVersion s 2) ++ toLE 1 (mbGens s) ++
    toLE 1 s.dev.bootSlot.toNat ++ toLE 2 0 ++ toLE 4 (fld s.stitch.cfg.toNat 0 25) ++ toLE 4 0 ++
    [8, 32, 16, 16] ++ toLE 2 4096 ++ toLE 2 0 ++ toLE 8 0x1800000000 ++ toLE 2 8192 ++ toLE 1 16 ++ toLE 2 64
  padTo 0x100 head ++ (List.range 32).flatMap fun i => toLE 8 (distance (i / 4) (i % 4))

/-! ## The attestation report (Table 14.5) -/

/-- The certificate chain that the identity area of 64 KiB holds (Table 14.1). -/
def certChain (s : State) : List Byte := (Config.certChain s.trust.secure).take 65536

/-- Bytes of a report. -/
def reportLen (s : State) : Nat := 4736 + (certChain s).length

/-- A report over a host nonce: ALIAS_PK and ALIAS_ENDORSE as the last boot derived and made them. Keys and signatures are
Config's, and the time since cold reset is free (R496, R497). -/
def attestReport (s : State) (nonce : List Byte) : List Byte :=
  let dig (k : Nat) : List Byte := ((runningImage s k).map fwDigest).getD (List.replicate 64 0)
  let booted := fwDigest s.trust.bootImage
  let pk := padTo 1793 (Config.aliasKey s.trust.uds booted)
  let block := if s.flash.block.good then
      shake256 64 (blockBytes s.flash.block ++ toLE 4 (blockCheck s.flash.block))
    else (List.range 8).flatMap fun i => toLE 8 (freeNat s i)
  let body := toLE 4 0x41545354 ++ toLE 2 1 ++ toLE 2 0 ++ toLE 4 (reportLen s) ++ toLE 4 devSig ++ toLE 16 Config.deviceId.toNat ++
    padTo 32 nonce ++ toLE 8 (devStatus s) ++ toLE 4 (fuseState s) ++ toLE 4 (runningVersion s 0) ++ toLE 4 (runningVersion s 1) ++
    toLE 4 (runningVersion s 2) ++ toLE 1 s.dev.sf ++ toLE 1 s.dev.sq ++ toLE 1 s.dev.lp ++ toLE 5 0 ++ dig 0 ++ dig 1 ++ dig 2 ++
    block ++ toLE 8 s.stitch.count.toNat ++ toLE 8 (freeNat s 8) ++ pk ++ toLE 7 0 ++
    padTo 1280 (Config.endorsement s.trust.uds (pk ++ toLE 4 s.trust.bootFuses.toNat ++ booted)) ++ toLE 4 (certChain s).length ++ toLE 4 0 ++
    certChain s
  body ++ padTo 1280 (Config.reportSig s.trust.uds booted body)

end Sys2Proof.Machine
end

