-- ==== Sys2Proof/Machine/Mailbox.lean ====
section
/-! DEFINITION. Host commands of the module: device information, sessions, transactions, configuration items, the journal,
firmware update, attestation, telemetry and debug mode (R419, R422, R425, R430 to R436, R439 to R445, R450, R476). -/

namespace Sys2Proof.Machine

/-! ## Buffers (R422, R547) -/

def bufPush (b : BitVec 64) : Bool := b.getLsbD 63
def bufOff (b : BitVec 64) : Nat := b.toNat % 2 ^ 63

/-- A buffer of n bytes that R422 refuses on a port. -/
def bufBad (p : Nat) (b : BitVec 64) (n : Nat) : Bool :=
  if bufPush b then decide (0x800000 < bufOff b + n) else decide (2 ≤ p)

/-- n bytes of a buffer; an uncorrectable word of the push buffer is reported. -/
def bufRead (p : Nat) (b : BitVec 64) (n : Nat) (s : State) : Except State (List Byte) :=
  if !bufPush b then .ok (hostRead s p (bufOff b) n)
  else
    match ueAt s (pushBase p + bufOff b) n with
    | some pa => .error (ueFound pa s)
    | none => .ok (peek s (pushBase p + bufOff b) n)

/-- A command over what its buffer holds; with an uncorrectable word it ends with MEM_UE. -/
def withBuf (p : Nat) (b : BitVec 64) (n : Nat) (s : State) (f : List Byte → HostRes) : HostRes :=
  match bufRead p b n s with
  | .ok bs => f bs
  | .error s1 => .done .memUe 0 s1

/-- Codewords are written in order up to the first whose merge meets an uncorrectable word, which is reported. -/
def writeUntil : List (Nat × List Byte) → State → Bool × State
  | [], s => (true, s)
  | (pa, bs) :: rest, s =>
    match mergeUe s pa bs.length with
    | some bad => (false, ueFound bad s)
    | none => writeUntil rest (poke s pa bs)

/-- Bytes written into a buffer, and whether all of them were. -/
def bufWrite (p : Nat) (b : BitVec 64) (bs : List Byte) (s : State) : Bool × State :=
  if bufPush b then writeUntil (codewords (pushBase p + bufOff b) bs) s else (true, hostWrite s p (bufOff b) bs)

/-- A command that answers with bytes in a buffer. -/
def answer (p : Nat) (b : BitVec 64) (bs : List Byte) (result : Nat) (s : State) : HostRes :=
  match bufWrite p b bs s with
  | (true, s1) => .done .ok result s1
  | (false, s1) => .done .memUe 0 s1

/-- A context argument that names no software context (R38). -/
def badCtx (c : BitVec 8) : Bool := c = 0 || decide (15 < c.toNat)

def isFree (s : State) (c : Nat) : Bool := decide (ctxSt s c = .free)

/-! ## Device information and sessions (R419) -/

/-- DEVICE_INFO: the information block, or its first LEN bytes (Table 12.11). -/
def cmdDeviceInfo (rbuf : BitVec 64) (len : BitVec 32) : HostCmd :=
  { opcode := 0x01, gen := 1
    badArgs := fun e _ => bufBad e.port rbuf len.toNat
    run := fun e s =>
      let bs := (infoBlock s).take len.toNat
      answer e.port rbuf bs bs.length s }

def execDeviceInfo (h : Hdr) (rbuf : BitVec 64) (len : BitVec 32) (s : State) : Out := hostCommand h (cmdDeviceInfo rbuf len) s

/-- Open and orphaned transactions of a session go to another. -/
def adopt (old new : Nat) (s : State) : State :=
  { s with txns := s.txns.map fun t =>
    if !t.committing && (t.session = some old || (t.session = none && decide (t.owner = old))) then
      { t with session := some new, owner := new } else t }

/-- A session closes on whatever ring it is; its transactions become orphans. -/
def closeSession (n : Nat) (s : State) : State :=
  orphan n (setRing (n / 8) (n % 8) { ringAt s (n / 8) (n % 8) with opened := false } s)

/-- OPEN (R419). -/
def cmdOpenSession (gen oflags old : BitVec 8) : HostCmd :=
  { opcode := 0x02, gen := 1
    badArgs := fun _ _ => decide (1 < oflags.toNat) || (oflags.getLsbD 0 && decide (31 < old.toNat))
    run := fun e s =>
      let g := gen.toNat
      let p := e.session / 8
      let r := e.session % 8
      let x := ringAt s p r
      if g = 0 || 3 < g || !bitAt (mbGens s) (g - 1) then failWith .unsupportedGen s
      else if x.slot.toNat ≠ g then failWith .badArg s
      else if x.opened && !oflags.getLsbD 0 then failWith .badState s
      else
        let s1 := if oflags.getLsbD 0 then adopt old.toNat e.session (closeSession old.toNat s) else s
        .done .ok (e.session + jNewest s1 * 2 ^ 16) (setRing p r { ringAt s1 p r with opened := true, gen := g } s1) }

def execOpenSession (h : Hdr) (gen oflags oldSession : BitVec 8) (s : State) : Out :=
  hostCommand h (cmdOpenSession gen oflags oldSession) s

/-- The open transactions of a session are rolled back. -/
def rollbackAll (n : Nat) (s : State) : State :=
  (s.txns.filter fun t => decide (t.session = some n) && !t.committing).foldl
    (fun s t => dropTxn t.id PrickStatus.aborted.num s) s

/-- CLOSE: the session's open transactions are rolled back and it closes (R419). -/
def cmdCloseSession : HostCmd :=
  { opcode := 0x03, gen := 1, run := fun e s => .done .ok 0 (closeSession e.session (rollbackAll e.session s)) }

def execCloseSession (h : Hdr) (s : State) : Out := hostCommand h cmdCloseSession s

/-! ## Transactions (R439, R442, R443, R299, R402) -/

/-- Transactions that the module may hold at once. -/
def txnLimit : Nat := 16

/-- The id that TXN_BEGIN gives: a free one of those that no transaction holds. -/
def freshTxn (s : State) : Nat :=
  ((List.range (txnLimit + 1)).map fun i => (freeNat s 0 + i) % 65535 + 1).find? (fun i => (txnAt s i).isNone) |>.getD 0

/-- A transaction opens for a session. -/
def openTxn (n id : Nat) (s : State) : State :=
  useFree 1 { s with txns := s.txns ++ [⟨id, some n, n, false, 0, [], [], false⟩] }

/-- TXN_BEGIN. -/
def cmdTxnBegin : HostCmd :=
  { opcode := 0x48, gen := 2
    run := fun e s =>
      if txnLimit ≤ s.txns.length then failWith .noResource s else .done .ok (freshTxn s) (openTxn e.session (freshTxn s) s) }

def execTxnBegin (h : Hdr) (s : State) : Out := hostCommand h cmdTxnBegin s

/-- Whether a transaction stages a STITCH_SET whose boundary has passed (R299). -/
def atPassed (s : State) (t : Txn) : Bool :=
  t.staged.any fun x => match x with
    | .period _ n => n ≠ 0 && decide (n.toNat ≤ s.stitch.count.toNat)
    | _ => false

/-- TXN_COMMIT is accepted: the transaction is committing, and its loads enter the ports (R402, R442). -/
def acceptCommit (id seq : Nat) (s : State) : State :=
  match txnAt s id with
  | none => s
  | some t =>
    t.staged.foldl (fun s x => match x with
      | .load c m h c0 c1 d => queueLoad h ⟨.txn id, c, m, c0, c1, d, false, false⟩ s
      | _ => s) (modTxn id (fun t => { t with committing := true, commitSeq := seq }) s)

/-- TXN_COMMIT. -/
def cmdTxnCommit (id : BitVec 16) : HostCmd :=
  { opcode := 0x49, gen := 2
    run := fun e s =>
      match txnAt s id.toNat with
      | none => failWith .txnUnknown s
      | some t =>
        if t.session ≠ some e.session || t.committing then failWith .txnUnknown s
        else if atPassed s t then .done .badArg 0 (dropTxn id.toNat PrickStatus.aborted.num s)
        else .later (.commit id.toNat) (acceptCommit id.toNat e.seq s) }

def execTxnCommit (h : Hdr) (id : BitVec 16) (s : State) : Out := hostCommand h (cmdTxnCommit id) s

/-- TXN_ROLLBACK. -/
def cmdTxnRollback (id : BitVec 16) : HostCmd :=
  { opcode := 0x4A, gen := 2
    run := fun e s =>
      match txnAt s id.toNat with
      | none => failWith .txnUnknown s
      | some t =>
        if t.session ≠ some e.session || t.committing then failWith .txnUnknown s
        else .done .ok 0 (dropTxn id.toNat PrickStatus.aborted.num s) }

def execTxnRollback (h : Hdr) (id : BitVec 16) (s : State) : Out := hostCommand h (cmdTxnRollback id) s

/-- A tagged command stages its changes (R440). -/
def stageIn (e : Env) (xs : List Staged) (s : State) : HostRes :=
  match stage (e.txn.getD 0) xs s with
  | some s1 => .done .ok 0 s1
  | none => failWith .noResource s

/-! ## Configuration items (R435, R436) -/

/-- What a transaction has staged. -/
def stagedOf (s : State) (txn : Option Nat) : List Staged :=
  match txn with
  | none => []
  | some id => ((txnAt s id).map (·.staged)).getD []

/-- The relocation and sync checks of a setting, with what its transaction stages (R216, R266). -/
def setFits (s : State) (txn : Option Nat) (item index : Nat) (v : BitVec 64) : Bool :=
  match itemLoc item index with
  | none => false
  | some (c, h) =>
    let s1 := regsWith (stagedOf s txn ++ [.item item index v]) s
    if 0x10 ≤ item && item ≤ 0x13 then relocFits s1 item c h v.toNat
    else if item = 0x14 || item = 0x15 then syncFits s1 item c h v.toNat
    else true

/-- Arguments of CFG_SET that complete with BAD_ARG. -/
def badSet (e : Env) (s : State) (item index : Nat) (v : BitVec 64) : Bool :=
  match itemTxn item, itemLoc item index with
  | some k, some (_, sub) =>
    k = .readOnly || (k = .untagged && e.txn.isSome) ||
      !((0x10 ≤ item && item ≤ 0x15) || valueFits s item sub v.toNat) || !setFits s e.txn item index v
  | _, _ => true

/-- An item that applies as soon as it is set (Table 12.13). -/
def atOnce (item : Nat) : Bool := itemTxn item = some .untagged

/-- CFG_SET: staged when tagged; else at the item's own time, or at the next boundary. -/
def cmdCfgSet (item : BitVec 16) (index : BitVec 32) (value : BitVec 64) : HostCmd :=
  { opcode := 0x51, gen := 2, taggable := true
    badArgs := fun e s => badSet e s item.toNat index.toNat value
    run := fun e s =>
      let i := item.toNat
      let n := index.toNat
      let c := ((itemLoc i n).map (·.1)).getD 0
      if (c ≠ 0 && isFree s c) || (i = 0x20 && decide ((sweepAt s c).st ≠ .none)) ||
        (itemTxn i = some .required && e.txn.isNone) then failWith .badState s
      else if e.txn.isSome then stageIn e [.item i n value] s
      else if atOnce i then .done .ok 0 (setItem i n value s)
      else .later (.item i n value) s }

def execCfgSet (h : Hdr) (item : BitVec 16) (index : BitVec 32) (value : BitVec 64) (s : State) : Out :=
  hostCommand h (cmdCfgSet item index value) s

/-- CFG_GET: the value in force. -/
def cmdCfgGet (item : BitVec 16) (index : BitVec 32) : HostCmd :=
  { opcode := 0x50, gen := 2
    badArgs := fun _ _ => (itemTxn item.toNat).isNone || (itemLoc item.toNat index.toNat).isNone
    run := fun _ s =>
      match itemLoc item.toNat index.toNat with
      | none => failWith .badArg s
      | some (c, i) => if c ≠ 0 && isFree s c then failWith .badState s else .done .ok (getItem s item.toNat c i) s }

def execCfgGet (h : Hdr) (item : BitVec 16) (index : BitVec 32) (s : State) : Out := hostCommand h (cmdCfgGet item index) s

/-- CFG_PERSIST: the running items and repairs go to flash (R448). -/
def cmdCfgPersist : HostCmd :=
  { opcode := 0x52, gen := 2
    run := fun _ s =>
      let b := runningBlock s
      .done .ok (blockCheck b) (modDev (fun d => { d with cfgDefaulted := false }) { s with flash := { s.flash with block := b } }) }

def execCfgPersist (h : Hdr) (s : State) : Out := hostCommand h cmdCfgPersist s

/-! ## The journal (R445) -/

/-- An entry as 32 bytes (Table 12.15). -/
def entryBytes (e : JEntry) : List Byte :=
  toLE 6 e.seq ++ toLE 1 e.session ++ toLE 1 e.opcode ++ toLE 2 e.txnId.toNat ++ toLE 1 e.status.num ++
    toLE 1 (e.final.toNat + e.batch.toNat * 2) ++ toLE 4 e.tag.toNat ++ toLE 8 e.stitch.toNat ++ toLE 8 e.result.toNat

/-- JOURNAL_READ: entries in SEQ order, without the read's own. -/
def cmdJournalRead (max : BitVec 16) (fromSeq : BitVec 48) (rbuf : BitVec 64) : HostCmd :=
  { opcode := 0x58, gen := 1
    badArgs := fun e _ => bufBad e.port rbuf (32 * max.toNat)
    run := fun e s =>
      let es := ((s.logs.journal.reverse.filter fun x => decide (fromSeq.toNat ≤ x.seq) && decide (x.seq ≠ e.seq)).take max.toNat)
      let first := ((es.head?).map (·.seq)).getD 0
      answer e.port rbuf (es.flatMap entryBytes) (es.length + first * 2 ^ 16) s }

def execJournalRead (h : Hdr) (max : BitVec 16) (fromSeq : BitVec 48) (rbuf : BitVec 64) (s : State) : Out :=
  hostCommand h (cmdJournalRead max fromSeq rbuf) s

/-! ## Firmware and attestation (R431, R432, R488, R497) -/

/-- FW_UPDATE: the image of the push buffer is checked and its write into the inactive slot begins. -/
def cmdFwUpdate (image : BitVec 8) (len : BitVec 32) : HostCmd :=
  { opcode := 0x60, gen := 1
    badArgs := fun _ _ => decide (2 < image.toNat) || decide (0x800000 < len.toNat)
    run := fun e s =>
      if s.flash.writing.isSome then failWith .badState s
      else
        withBuf e.port (1#64 <<< 63) len.toNat s fun img =>
          let k := image.toNat
          if (fwReason s k img).isSome then failWith .authFail s
          else .later (.fwUpdate k (inactiveSlot s k)) (beginFlash k (inactiveSlot s k) img s) }

def execFwUpdate (h : Hdr) (image : BitVec 8) (len : BitVec 32) (s : State) : Out := hostCommand h (cmdFwUpdate image len) s

/-- ATTEST: a report over the nonce in the first 32 B of RBUF. -/
def cmdAttest (len : BitVec 32) (rbuf : BitVec 64) : HostCmd :=
  { opcode := 0x61, gen := 1
    badArgs := fun e s => decide (len.toNat < reportLen s) || bufBad e.port rbuf len.toNat
    run := fun e s =>
      withBuf e.port rbuf 32 s fun nonce => answer e.port rbuf (attestReport s nonce) (reportLen s) (useFree 9 s) }

def execAttest (h : Hdr) (len : BitVec 32) (rbuf : BitVec 64) (s : State) : Out := hostCommand h (cmdAttest len rbuf) s

/-! ## Telemetry (R450, R476, Tables 12.18 and 13.7) -/

def CtxState.num : CtxState → Nat
  | .free => 0
  | .idle => 1
  | .active => 2
  | .evicting => 3
  | .evicted => 4
  | .faulted => 5

/-- The hottest junction of a Hoop that thermal control last saw; free before the first. -/
def junction (s : State) (h : Nat) : Nat :=
  match s.dev.temps[h]? with
  | some t => ofInt 8 t
  | none => freeNat s (20 + h) % 256

/-- The module power of the last sample; free before the first. -/
def powerNow (s : State) : Nat := (s.dev.samples.head?).getD (freeNat s 17 % 65536)

/-- The corrections of a store's words that ordinary accesses have made since TELEMETRY last reported them (R219): a free
number, since no command tells which words are correctable (log entry 6). -/
def metCorr (s : State) (store : Nat) : Nat := freeNat s (28 + store) % 2 ^ 32

/-- They count with those that tests and scrubs report; only the sum of a store is ever shown. -/
def countMet (s : State) : State :=
  { s with maint := { s.maint with corr := (List.range 5).foldl (fun m st =>
      Tab.set 0 m (st * 4096) (satAdd 32 (Tab.get 0 m (st * 4096)) (metCorr s st))) s.maint.corr } }

/-- The MODULE record's fields: the input voltage, the stacks' temperatures and the time since cold reset are free. -/
def moduleItem (s : State) : DumpItem :=
  let corr (st : Nat) : Nat :=
    satAdd 32 ((s.maint.corr.filter fun p => p.1 / 4096 = st).map (·.2)).sum (metCorr s st)
  { kind := 0x10, ctx := 0
    fields := toLE 8 (devStatus s) ++ toLE 8 s.stitch.count.toNat ++ toLE 4 (stitchStat s) ++ toLE 2 (freeNat s 16) ++
      toLE 2 (powerNow s) ++ ((List.range 8).flatMap fun h => toLE 1 (junction s h)) ++ toLE 8 (freeNat s 18) ++
      ((List.range 5).flatMap fun st => toLE 4 (corr st)) ++ toLE 4 0 ++ toLE 8 (freeNat s 19) }

def LinkState.num : LinkState → Nat
  | .disabled => 0
  | .down => 1
  | .training => 2
  | .up => 3

/-- A LINK record's fields (Table 13.7). -/
def linkItem (s : State) (p : Nat) : DumpItem :=
  let x := linkAt s p
  { kind := 0x12, ctx := 0
    fields := toLE 1 p ++ toLE 1 x.st.num ++ toLE 1 x.lanes ++ toLE 1 (fecOf s p) ++ toLE 1 x.peerPort ++ toLE 1 0 ++
      toLE 2 x.peerMod ++ toLE 4 x.delay ++ toLE 4 x.retrains ++ toLE 8 x.sent ++ toLE 8 x.recv ++ toLE 8 x.corrected ++
      toLE 4 x.uncorr ++ toLE 4 x.replays ++ ((List.range 4).flatMap fun v => toLE 8 (Tab.get 0 x.waits v)) ++
      toLE 4 x.disc473 ++ toLE 4 x.disc474 }

/-- The CONTEXT record's fields. -/
def ctxItem (s : State) (c : Nat) : DumpItem :=
  let x := ctxAt s c
  { kind := 0x11, ctx := c
    fields := toLE 1 (ctxSt s c).num ++ toLE 1 ((x.latched.map fun l => l.code.num).getD 0) ++ toLE 1 x.flags.toNat ++
      toLE 1 x.trap.toNat ++ toLE 4 (dnStat s c) ++ toLE 8 x.dnStep.toNat ++ toLE 4 x.cntBlocks ++ toLE 4 x.cntDrop ++
      toLE 4 x.cntInbox ++ toLE 4 0 ++ toLE 8 x.cntDiscard ++ ((List.range 4).flatMap fun q => toLE 4 (deltaHead s c q).toNat) ++
      ((List.range 4).flatMap fun q => toLE 4 (deltaTail s c q).toNat) }

/-- The items that TELEMETRY writes for a scope, in R450's order. -/
def telemetryItems (s : State) (scope c : Nat) : List DumpItem :=
  if scope = 0 then moduleItem s :: (List.range 14).map (linkItem s)
  else
    ctxItem s c :: ([4, 7, 8, 9].flatMap (tileItems s c) ++ chanItems s c ++ tapItems s c [c] ++ columnItems s c)

/-- The counters of a link record return to 0. -/
def clearLink (p : Nat) (s : State) : State :=
  modLink p (fun x => { x with
    retrains := 0, sent := 0, recv := 0, corrected := 0, uncorr := 0, replays := 0, waits := [], disc473 := 0, disc474 := 0 }) s

/-- The RC registers that an item copies return to 0 (Tables 04.10, 05.10, 07.7 and 13.7). -/
def clearItem (x : DumpItem) (s : State) : State :=
  let k := tileNo x.hoop x.col x.row
  if x.kind = 0x12 then clearLink (leNat (x.fields.take 1)) s
  else if x.kind = 7 then modTile k (fun t => { t with m := { t.m with rows := 0, skips := 0, blkSkip := 0, drained := 0 } }) s
  else if x.kind = 8 then modTile k (fun t => { t with v := { t.v with ops := 0, lines := 0, tokens := 0 } }) s
  else if x.kind = 9 && leNat (x.fields.take 2) = 0xFFFF then
    modTile k (fun t => { t with b := { t.b with
      cntRd := 0, cntWr := 0, cntReq := 0, cntMerged := 0, cntMiss := 0, cntPark := 0, cntCwait := 0, cntPwait := 0, cntDrop := 0 } }) s
  else s

/-- The items whose records a buffer of `len` bytes holds whole. -/
def heldItems (s : State) (len : Nat) (xs : List DumpItem) : List DumpItem :=
  (xs.foldl (fun (acc : Nat × List DumpItem) x =>
    let n := ((recordsOf s x).map List.length).sum
    (acc.1 + n, if acc.1 + n + 32 ≤ len then acc.2 ++ [x] else acc.2)) (0, [])).2

/-- Free values that TELEMETRY may report. -/
def telemetryFree : Nat := 33

/-- TELEMETRY; with CLR the RC registers that it copies return to 0. -/
def cmdTelemetry (scope ctx tf : BitVec 8) (len : BitVec 32) (rbuf : BitVec 64) : HostCmd :=
  { opcode := 0x62, gen := 1
    badArgs := fun e _ => decide (1 < scope.toNat) || (scope = 1 && badCtx ctx) || decide (1 < tf.toNat) ||
      decide (len.toNat < 32) || bufBad e.port rbuf len.toNat
    run := fun e s =>
      let c := ctx.toNat
      if scope = 1 && isFree s c then failWith .badState s
      else
        let xs := telemetryItems s scope.toNat c
        let bs := (dumpBytes s (if scope = 1 then c else 0) len.toNat xs).1
        let s1 := if tf.getLsbD 0 then (heldItems s len.toNat xs).foldl (fun s x => clearItem x s) s else s
        answer e.port rbuf bs bs.length (useFree telemetryFree (if scope = 0 then countMet s1 else s1)) }

def execTelemetry (h : Hdr) (scope ctx tf : BitVec 8) (len : BitVec 32) (rbuf : BitVec 64) (s : State) : Out :=
  hostCommand h (cmdTelemetry scope ctx tf len rbuf) s

/-! ## Debug mode and the warm reset (R3, R430, R433) -/

/-- DEBUG_MODE takes effect at the next boundary. -/
def cmdDebugMode (on : BitVec 8) : HostCmd :=
  { opcode := 0x68, gen := 2
    refused := fun s => s.trust.secure || s.trust.debugOff
    badArgs := fun _ _ => decide (1 < on.toNat)
    run := fun _ s => .later (.debug (on = 1)) s }

def execDebugMode (h : Hdr) (on : BitVec 8) (s : State) : Out := hostCommand h (cmdDebugMode on) s

/-- RESET with SCOPE WARM completes; its warm reset follows (R433). -/
def cmdResetWarm (_target : BitVec 8) : HostCmd :=
  { opcode := 0x70, gen := 1, run := fun _ s => .done .ok 0 (modDev (fun d => { d with warmAsked := true }) s) }

def execResetWarm (h : Hdr) (target : BitVec 8) (s : State) : Out := hostCommand h (cmdResetWarm target) s

end Sys2Proof.Machine
end

