-- ==== Sys2Proof/Machine/Contexts.lean ====
section
/-! DEFINITION. Host commands on contexts: creation and destruction, RUN, HALT, eviction and scans, resets, channels, knots
and dumps (R282, R285, R294, R295, R316 to R327, R426, R427, R429, R434, R504). -/

namespace Sys2Proof.Machine

/-! ## CTX_CREATE (R434, Table 12.10) -/

/-- The settings that a parameter block makes. -/
def blockItems (c : Nat) (bs : List Byte) : List Staged :=
  let w (off n : Nat) : BitVec 64 := BitVec.ofNat 64 (leNat ((bs.drop off).take n))
  [.item 0x13 c (w 0x10 8), .item 0x15 c (w 0x18 8)] ++
    (List.range 8).flatMap fun h =>
      [.item 0x10 (8 * c + h) (w (0x20 + 4 * h) 4), .item 0x11 (8 * c + h) (w (0x40 + 4 * h) 4),
        .item 0x12 (8 * c + h) (w (0x60 + 4 * h) 4), .item 0x14 (8 * c + h) (w (0x80 + 4 * h) 4)]

/-- Whether a block keeps its reserved bits, R216 and R266. -/
def blockFits (s : State) (c : Nat) (bs : List Byte) : Bool :=
  let s1 := regsWith (blockItems c bs) s
  decide (leNat ((bs.drop 8).take 4) < 64) && ((bs.drop 0xC).take 4).all (· = 0) && (bs.drop 0xA0).all (· = 0) &&
    (blockItems c bs).all fun x => match x with
      | .item i n v =>
        match itemLoc i n with
        | none => false
        | some (d, h) => if i ≤ 0x13 then relocFits s1 i d h v.toNat else syncFits s1 i d h v.toNat
      | _ => false

/-- Page tables of a context as its CTX_CREATE leaves them: empty in every quarter (R256, R428). -/
def emptyTables (c : Nat) (s : State) : State :=
  let base (q : Nat) : Nat := ptRoot q c
  let kept (a : Nat) : Bool := !(List.range 4).any fun q => decide (base q ≤ a) && decide (a < base q + 0x400000)
  modCtx c (fun x => { x with tables := [] })
    { s with mem := s.mem.filter fun p => kept p.1, bad := s.bad.filter fun w => kept (8 * w) }

/-- A context is created at a stitch boundary: its registers are the block's, everything else of it starts anew. -/
def createEffect (c : Nat) (bs : List Byte) (s : State) : State :=
  let s1 := modCtx c (fun _ => { Ctx.reset with
    st := .idle, srSeed := BitVec.ofNat 64 (leNat (bs.take 8)), trap := BitVec.ofNat 6 (leNat ((bs.drop 8).take 4)) }) s
  regsWith (blockItems c bs) (emptyTables c s1)

def cmdCtxCreate (ctx : BitVec 8) (param : BitVec 64) : HostCmd :=
  { opcode := 0x10, gen := 2
    badArgs := fun e s => badCtx ctx || bufBad e.port param 256 ||
      match bufRead e.port param 256 s with
      | .ok bs => !blockFits s ctx.toNat bs
      | .error _ => false
    run := fun e s =>
      let c := ctx.toNat
      let again := s.waits.any fun w => match w.what with | .ctxCreate d _ => decide (d = c) | _ => false
      if !isFree s c || again then failWith .badState s
      else withBuf e.port param 256 s fun bs => .later (.ctxCreate c bs) s }

def execCtxCreate (h : Hdr) (ctx : BitVec 8) (param : BitVec 64) (s : State) : Out := hostCommand h (cmdCtxCreate ctx param) s

/-! ## Resets of a context and of a Hoop (R327, R358, R504) -/

/-- A context reset or CTX_DESTROY of a stopped context completes, once its sweep has rolled back (R358). -/
def settleReset (destroy : Bool) (c : Nat) (s : State) : State :=
  let s1 := if destroy then destroyEffect c s else resetEffect c s
  touch (ofCtx c) s1

/-- CTX_DESTROY and RESET of a context: it stops, and its reset waits for a rollback. -/
def resetRun (destroy : Bool) (c : Nat) (s : State) : HostRes :=
  let s1 := quiesce c s
  if (sweepAt s1 c).st = .none then .done .ok 0 (settleReset destroy c s1)
  else .later (if destroy then .ctxDestroy c else .resetCtx c) s1

def cmdCtxDestroy (ctx : BitVec 8) : HostCmd :=
  { opcode := 0x11, gen := 2
    badArgs := fun _ _ => badCtx ctx
    run := fun _ s =>
      if [CtxState.idle, .evicted, .faulted].contains (ctxSt s ctx.toNat) then resetRun true ctx.toNat s else failWith .badState s }

def execCtxDestroy (h : Hdr) (ctx : BitVec 8) (s : State) : Out := hostCommand h (cmdCtxDestroy ctx) s

def cmdResetContext (target : BitVec 8) : HostCmd :=
  { opcode := 0x70, gen := 1
    badArgs := fun _ _ => badCtx target
    run := fun _ s => if isFree s target.toNat then failWith .badState s else resetRun false target.toNat s }

def execResetContext (h : Hdr) (target : BitVec 8) (s : State) : Out := hostCommand h (cmdResetContext target) s

/-- Contexts with a run or a load on a Hoop. -/
def hoopUsers (s : State) (h : Nat) : List Nat :=
  softCtxs.filter fun c => (hoopAt s h).runs.any (fun r => decide (r.ctx = c)) || (loadsOf s h).any fun l => decide (l.ctx = c)

/-- On-chip memory of a Hoop reads zeros: A tiles, partial sums, operand caches (R228). -/
def loseOnChip (h : Nat) (s : State) : State :=
  let lost (a : Nat) : Bool :=
    (decide (0xC400000000 + h * 0x10000000 ≤ a) && decide (a < 0xC400000000 + (h + 1) * 0x10000000)) ||
    (decide (0xC500000000 + h * 0x4000000 ≤ a) && decide (a < 0xC500000000 + (h + 1) * 0x4000000)) ||
    (decide (0xC580000000 + h * 0x1000000 ≤ a) && decide (a < 0xC580000000 + (h + 1) * 0x1000000))
  { s with
    mem := s.mem.filter fun p => !lost p.1, bad := s.bad.filter fun w => !lost (8 * w)
    zeros := s.zeros.filter fun p => !lost (256 * p.1), zeroBad := s.zeroBad.filter fun z => !lost (16384 * z)
    tags := s.tags.filter fun p => !lost (8 * p.1) }

/-- A knot's place in an A tile of a Hoop. -/
def knotOn (h pa : Nat) : Bool :=
  decide (0xC400000000 + h * 0x10000000 ≤ pa) && decide (pa < 0xC400000000 + (h + 1) * 0x10000000)

/-- The items of a Hoop that its reset and Sleep lose (Table 14.11): tiles with their planes, TLBs and counters, motif
records, Q_DISCARD, what its circuits and tap carry, its stores. -/
def loseHoop (h : Nat) (s : State) : State :=
  let s1 := loseOnChip h { s with tiles := s.tiles.filter fun p => noHoop p.1 ≠ h }
  let s2 := modNet (fun n => { n with waiters := n.waiters.filter fun p => !knotOn h p.1 }) s1
  modHoop h (fun x => { x with
    motifs := [], discard := [], tapRx := 0, tapDrop := 0, tapStall := 0, tapBuf := [], flight := [], credits := [] }) s2

/-- A context faults with HALTED and is torn down at once; one whose fault is latched keeps its code. -/
def haltNow (c : Nat) (s : State) : State := tearDown c false (faultAt c .halted noItem s)

def cmdResetHoop (target : BitVec 8) : HostCmd :=
  { opcode := 0x70, gen := 1
    badArgs := fun _ _ => decide (7 < target.toNat)
    run := fun _ s =>
      let h := target.toNat
      .done .ok 0 (heldWrites h (modHoop h (fun x => { x with power := .on, runs := [], loads := [] })
        (loseHoop h (abortLoads h (fun _ => true) (each (hoopUsers s h) haltNow s))))) }

def execResetHoop (h : Hdr) (target : BitVec 8) (s : State) : Out := hostCommand h (cmdResetHoop target) s

/-! ## RUN and HALT (R317, R318, R515) -/

def cmdRun (ctx : BitVec 8) (stitches : BitVec 32) (first : BitVec 64) : HostCmd :=
  { opcode := 0x28, gen := 2, taggable := true
    refused := fun s => s.dev.unqualified && !s.dev.options.getLsbD 0
    badArgs := fun _ s => badCtx ctx || (first ≠ 0 && decide (first.toNat ≤ s.stitch.count.toNat))
    run := fun e s =>
      let c := ctx.toNat
      if e.txn.isSome then stageIn e [.run c stitches first] s
      else if (ctxSt s c = .idle || ctxSt s c = .active) && s.pins.haltN then .done .ok 0 (runPending c stitches first false s)
      else failWith .badState s }

def execRun (h : Hdr) (ctx : BitVec 8) (stitches : BitVec 32) (first : BitVec 64) (s : State) : Out :=
  hostCommand h (cmdRun ctx stitches first) s

/-- The contexts that HALT names. -/
def haltTargets (ctx : BitVec 8) : List Nat := if ctx = 0xFF then softCtxs else [ctx.toNat]

def cmdHalt (ctx hflags : BitVec 8) : HostCmd :=
  { opcode := 0x29, gen := 1
    badArgs := fun _ _ => (badCtx ctx && decide (ctx ≠ 0xFF)) || decide (1 < hflags.toNat)
    run := fun _ s =>
      let cs := haltTargets ctx
      let scan := hflags.getLsbD 0
      let rs := (cs.filter (haltable s)).flatMap (regionsOf s)
      if scan && !scanFits (landAll rs s) rs then failWith .noResource s
      else .done .ok 0 (each cs (haltCtx scan) s) }

def execHalt (h : Hdr) (ctx hflags : BitVec 8) (s : State) : Out := hostCommand h (cmdHalt ctx hflags) s

/-! ## Eviction and scans (R320, R321, R323) -/

/-- EVICT_CONTEXT: the context becomes EVICTING, and a pending RUN of it is dropped. -/
def cmdEvictContext (ctx : BitVec 8) : HostCmd :=
  { opcode := 0x2A, gen := 2
    badArgs := fun _ _ => badCtx ctx
    run := fun _ s =>
      let c := ctx.toNat
      if (ctxSt s c = .idle || ctxSt s c = .active) && decide ((sweepAt s c).st = .none) then
        .later (.evict c) (modCtx c (fun x => { x with st := .evicting, runPend := none }) s)
      else failWith .badState s }

def execEvictContext (h : Hdr) (ctx : BitVec 8) (s : State) : Out := hostCommand h (cmdEvictContext ctx) s

/-- SCAN_OUT of an IDLE context: its regions are scanned and their queues emptied. -/
def cmdScanOut (ctx : BitVec 8) : HostCmd :=
  { opcode := 0x2B, gen := 2
    badArgs := fun _ _ => badCtx ctx
    run := fun _ s =>
      let c := ctx.toNat
      let rs := regionsOf s c
      if ctxSt s c ≠ .idle then failWith .badState s
      else
        let s1 := landAll rs s
        if !scanFits s1 rs then .done .noResource 0 s1
        else
          let s2 := scanOut c false rs s1
          .done (if (ctxAt s2 c).latched.isSome then .badState else .ok) 0 s2 }

def execScanOut (h : Hdr) (ctx : BitVec 8) (s : State) : Out := hostCommand h (cmdScanOut ctx) s

/-- SCAN_IN arms the images that are not POST_MORTEM; an EVICTED context becomes IDLE. -/
def cmdScanIn (ctx : BitVec 8) : HostCmd :=
  { opcode := 0x2C, gen := 2
    badArgs := fun _ _ => badCtx ctx
    run := fun _ s =>
      let c := ctx.toNat
      if ctxSt s c = .idle || ctxSt s c = .evicted then
        .done .ok 0 (modCtx c (fun x => { x with
          st := .idle, images := x.images.map fun (h, c0, c1, m, armed, post) => (h, c0, c1, m, armed || !post, post) }) s)
      else failWith .badState s }

def execScanIn (h : Hdr) (ctx : BitVec 8) (s : State) : Out := hostCommand h (cmdScanIn ctx) s

/-! ## Channels (R282, R285, R426) -/

/-- Whether a ring lies within the context's bounds and outside its sync regions. -/
def ringFits (s : State) (c : Nat) (hbm : Bool) (hoop tile base bytes : Nat) : Bool :=
  base % 64 = 0 &&
    if hbm then (hbmVa s c base bytes).isSome && !syncHbmHit s c base bytes
    else
      decide (hoop < 8) && decide (tile < 192) && (asAddr s c (tileOfIndex .A hoop tile) base bytes).isSome &&
        !syncAsHit s c hoop base bytes

def cmdChanCreate (ctx cfl : BitVec 8) (chan : BitVec 16) (ringLog2 ringHoop ringTile : BitVec 8) (sender receiver : BitVec 32)
    (ringBase : BitVec 64) (peerMod peerChan : BitVec 16) : HostCmd :=
  let half := cfl.toNat % 4
  let hbm := cfl.getLsbD 2
  let c := ctx.toNat
  let badEnd (e : BitVec 32) : Bool := decide (2 ^ 11 ≤ e.toNat)
  { opcode := 0x30, gen := 2
    badArgs := fun _ s =>
      badCtx ctx || decide (7 < cfl.toNat) || half = 3 || decide (4096 ≤ chan.toNat) ||
      (half ≠ 2 && badEnd sender) || (half ≠ 1 && badEnd receiver) ||
      (half ≠ 0 && (decide (2 ^ 14 ≤ peerMod.toNat) || decide (4096 ≤ peerChan.toNat))) ||
      (half ≠ 1 && (decide (16 < ringLog2.toNat) ||
        !ringFits s c hbm ringHoop.toNat ringTile.toNat ringBase.toNat (64 * 2 ^ ringLog2.toNat) ||
        (!hbm && !isSelvedge receiver && decide (receiver.toNat % 8 ≠ ringHoop.toNat))))
    run := fun _ s =>
      if isFree s c || (chanAt s chan.toNat).st ≠ .closed then failWith .badState s
      else
        .done .ok 0 (modChan chan.toNat (fun _ => { Chan.reset with
          st := .opened, ctx := c, half := [3, 1, 2].getD half 3, space := hbm.toNat, ringLog2 := ringLog2.toNat
          ringHoop := ringHoop.toNat, ringTile := ringTile.toNat, ringBase := ringBase.toNat, sender := sender
          receiver := receiver, peerMod := if half = 0 then 0 else peerMod.toNat
          peerChan := if half = 0 then 0 else peerChan.toNat, ringKnown := half = 0 }) s) }

def execChanCreate (h : Hdr) (ctx cfl : BitVec 8) (chan : BitVec 16) (ringLog2 ringHoop ringTile : BitVec 8)
    (sender receiver : BitVec 32) (ringBase : BitVec 64) (peerMod peerChan : BitVec 16) (s : State) : Out :=
  hostCommand h (cmdChanCreate ctx cfl chan ringLog2 ringHoop ringTile sender receiver ringBase peerMod peerChan) s

/-! ## KNOT_INIT (R265, R427, R547) -/

/-- Where `count` consecutive knots lie, translated in order; none where one may not be written. -/
def knotsAt (s : State) (c : Nat) (ka : KAddr) (count : Nat) : List HbmAt :=
  (List.range count).map fun i => knotAt s c 0 { ka with off := ka.off + 8 * i } true

def HbmAt.pa? : HbmAt → Option Nat
  | .at_ pa => some pa
  | _ => none

/-- Knots are written in order until a merge meets an uncorrectable word; a FULL word answers its waiters. -/
def initKnots (word : Nat) : List Nat → State → Bool × State
  | [], s => (true, s)
  | pa :: rest, s =>
    match mergeUe s pa 8 with
    | some bad => (false, ueFound bad s)
    | none =>
      let s1 := poke s pa (toLE 8 word)
      initKnots word rest (if knFull word then answerWaiters pa s1 else s1)

def cmdKnotInit (ctx : BitVec 8) (count : BitVec 32) (kaddr word : BitVec 64) : HostCmd :=
  { opcode := 0x31, gen := 2
    badArgs := fun _ s =>
      let c := ctx.toNat
      let ka := kaddrOf kaddr.toNat
      badCtx ctx || ka.bad || ka.remote || count = 0 || fld word.toNat 56 5 ≠ 0 || !inSync s c ka ka.off ||
        !inSync s c ka (ka.off + 8 * (count.toNat - 1)) ||
        match (knotsAt s c ka count.toNat).find? fun a => a.pa?.isNone with
        | some (.ue _) | none => false
        | some _ => true
    run := fun _ s =>
      let c := ctx.toNat
      let ka := kaddrOf kaddr.toNat
      let n := count.toNat
      if isFree s c then failWith .badState s
      else
        let ats := knotsAt s c ka n
        match ats.find? fun a => a.pa?.isNone with
        | some (.ue pa) => .done .memUe 0 (ueFound pa s)
        | some _ => failWith .badArg s
        | none =>
          match initKnots (setFld word.toNat 61 2 0) (ats.filterMap HbmAt.pa?) s with
          | (true, s1) => .done .ok 0 s1
          | (false, s1) => .done .memUe 0 s1 }

def execKnotInit (h : Hdr) (ctx : BitVec 8) (count : BitVec 32) (kaddr word : BitVec 64) (s : State) : Out :=
  hostCommand h (cmdKnotInit ctx count kaddr word) s

/-! ## SYNC_DUMP (R294, R295, R429, R547) -/

/-- The free areas of a quarter's context-0 range (Table 01.10): first and end offset. -/
def freeAreas (q : Nat) : List (Nat × Nat) :=
  [(0x17C00000, 0x20000000), (0x22000000, 0x30000000)] ++
    if q = 0 then [] else [(0x20000000, 0x22000000), (0x30000000, 0x34000000)]

/-- Whether a dump buffer lies within one free area. -/
def dumpFits (pa len : Nat) : Bool :=
  (List.range 4).any fun q => (freeAreas q).any fun (lo, hi) =>
    decide (ctx0Base q + lo ≤ pa) && decide (pa + len ≤ ctx0Base q + hi)

def cmdSyncDump (ctx : BitVec 8) (len : BitVec 32) (pa : BitVec 64) : HostCmd :=
  { opcode := 0x40, gen := 2
    badArgs := fun _ _ => (badCtx ctx && decide (ctx ≠ 0xFF)) || decide (len.toNat < 32) || !dumpFits pa.toNat len.toNat
    run := fun _ s =>
      let c := ctx.toNat
      if ctx ≠ 0xFF && isFree s c then failWith .badState s
      else
        let begins := toLE 1 c ++ toLE 4 0 ++ [0xFF, 0xFF, 0xFF] ++ toLE 2 0xFFFF ++ toLE 6 0
        let cs := if ctx = 0xFF then softCtxs else [c]
        match syncStop s c cs begins with
        | some (bad, xs) =>
          let bs := (fitRecords len.toNat (xs.flatMap (recordsOf s))).1
          .done .memUe 0 (match writeUntil (codewords pa.toNat bs) s with
            | (true, s1) => ueFound bad s1
            | (false, s1) => s1)
        | none =>
          let (bs, trunc) := dumpBytes s (if ctx = 0xFF then 0 else c) len.toNat (syncItems s c cs begins)
          match writeUntil (codewords pa.toNat bs) s with
          | (true, s1) => .done .ok (bs.length + trunc.toNat * 2 ^ 32) s1
          | (false, s1) => .done .memUe 0 s1 }

def execSyncDump (h : Hdr) (ctx : BitVec 8) (len : BitVec 32) (pa : BitVec 64) (s : State) : Out :=
  hostCommand h (cmdSyncDump ctx len pa) s

end Sys2Proof.Machine
end

