-- ==== Sys2Proof/Machine/Sweeps.lean ====
section
/-! DEFINITION. Host commands of the update sweep: SWEEP_BEGIN, SWEEP_COMMIT, SWEEP_ROLLBACK, DELTA_CONFIG and DIGEST_COMPARE
(R335, R337, R343, R349, R350, R357, R358, R360, R366, R370, Table 12.12). -/

namespace Sys2Proof.Machine

/-! ## HBM reads of the controller (R256, R547) -/

/-- What a read through a context's relocation and Q0's tables finds. -/
inductive HbmRead where
  | ok (bs : List Byte)
  | bad
  /-- a word of a sync region (R267) -/
  | sync
  /-- an uncorrectable page-table entry -/
  | tableUe (pa : Nat)
  | ue (pa : Nat)
deriving DecidableEq, Repr

/-- Pieces that no page crosses, read in order. -/
def readParts (s : State) (c : Nat) : List (Nat × Nat) → HbmRead
  | [] => .ok []
  | (a, n) :: rest =>
    if syncHbmHit s c a n then .sync
    else match hbmAddr s c 0 a n false with
    | .at_ pa =>
      match ueAt s pa n with
      | some w => .ue w
      | none =>
        match readParts s c rest with
        | .ok bs => .ok (peek s pa n ++ bs)
        | e => e
    | .ue pa => .tableUe pa
    | _ => .bad

/-- n bytes at a context-relative address; the whole range lies within the bound. -/
def ctlRead (s : State) (c a n : Nat) : HbmRead :=
  if (hbmVa s c a n).isNone then .bad else readParts s c (cut64 a n)

/-- The controller has met a word of a sync region for a context, which is undefined within the context (R267). With which
status the command then completes is left open: DESIGN CHOICE, OK (log entry 38). -/
def readSync (c : Nat) (s : State) : HostRes := .done .ok 0 (undef .syncWord c s)

/-! ## SWEEP_BEGIN (R337, R349, R350) -/

/-- The regions that Table 10.3 names: context-relative address and bytes. -/
def dnRegions (s : State) (c : Nat) : List (Nat × Nat) :=
  let n := dnNblk s c
  let at_ (r : Nat) : Nat := fld (dnReg s c r) 0 48
  let rec_ := 256 * fld (dnReg s c 6) 0 16 * n
  [(at_ 2, 32 * n), (at_ 3, 16384), (at_ 4, rec_), (at_ 5, rec_), (at_ 7, 16384 * n), (at_ 8, 16384 * n),
    (at_ 9, 10240 * (n + 1)), (8 * fld (dnReg s c 10) 0 45, 8 * n)]

/-- The valid block descriptors and the group table of a context, as SWEEP_BEGIN reads them. -/
def sweepTables (s : State) (c : Nat) : HbmRead × List Nat :=
  match if dnNblk s c = 0 then .ok [] else ctlRead s c (fld (dnReg s c 2) 0 48) (32 * dnNblk s c) with
  | .ok bs =>
    let ds := ((List.range (dnNblk s c)).map fun b => leNat ((bs.drop (32 * b)).take 32)).filter bdV
    if ds.isEmpty then (.ok [], []) else (ctlRead s c (fld (dnReg s c 3) 0 48) 16384, ds)
  | e => (e, [])

/-- R337 for the valid blocks. -/
def blocksOk (s : State) (c : Nat) (groups : List Byte) (ds : List Nat) : Bool :=
  let group (g : Nat) : Nat := leNat ((groups.drop (64 * g)).take 64)
  ds.isEmpty ||
    ((dnRegions s c).all fun r => (hbmVa s c r.1 r.2).isSome) &&
      ds.all fun d => ruleOk (group (bdGroup d)) &&
        decide (33024 + stateSize (group (bdGroup d)) ≤ 256 * fld (dnReg s c 6) 0 16)

/-- An OPEN sweep as SWEEP_BEGIN starts it: group table, bias corrections and CUR are taken now (R343, R345). -/
def startSweep (s : State) (c : Nat) (groups : List Byte) (lr : BitVec 32) (step barrier : BitVec 64) : Sweep :=
  let w0 := { Sweep.reset with st := .opened, step := step, lr := lr, barrier := barrier, cur0 := dnCur s c, groups := groups }
  let b (f : Nat → Nat) (off : Nat) : Tab (BitVec 32) := (List.range 256).foldl (fun m g =>
    let d := groupAt w0 g
    if gdBiascorr d then Tab.set 0 m g (BitVec.ofNat 32 (biasCorr (f d) step.toNat (freeNat s (off + g)))) else m) []
  { w0 with b1 := b gdBeta1 0, b2 := b gdBeta2 256 }

/-- A sweep without a valid block commits at once (R350). -/
def commitEmpty (c : Nat) (step : BitVec 64) (s : State) : State :=
  let cur := !dnCur s c
  let s1 := modCtx c (fun x => { x with dn := Tab.set 0 x.dn 0 (Tab.get 0 x.dn 0 ^^^ 1), dnStep := step, cntBlocks := 0 }) s
  raise 0x0011 c (toLE 8 step.toNat ++ toLE 1 cur.toNat) (deltaAll c 3 step.toNat s1)

def cmdSweepBegin (ctx : BitVec 8) (lrScale : BitVec 32) (step barrier : BitVec 64) : HostCmd :=
  { opcode := 0x38, gen := 2
    refused := fun s => s.dev.unqualified && !s.dev.options.getLsbD 0
    badArgs := fun _ s => badCtx ctx || (kaddrOf barrier.toNat).bad ||
      match sweepTables s ctx.toNat with
      | (.ok gs, ds) => !blocksOk s ctx.toNat gs ds
      | (.bad, _) => true
      | _ => false
    run := fun _ s =>
      let c := ctx.toNat
      if !(ctxSt s c = .idle || ctxSt s c = .active) || (sweepAt s c).st ≠ .none then failWith .badState s
      else
        match sweepTables s c with
        | (.ue pa, _) | (.tableUe pa, _) => .done .memUe 0 (ueFound pa s)
        | (.sync, _) => readSync c s
        | (.bad, _) => failWith .badArg s
        | (.ok gs, ds) =>
          if ds.isEmpty then .done .ok 0 (commitEmpty c step s)
          else
            let s1 := useFree 512 (modCtx c (fun x => { x with
              cntBlocks := 0, sweeps := x.sweeps + 1, sweep := startSweep s c gs lrScale step barrier }) s)
            match (logHeader c 1).run s1 with
            | (.ok _, s2) => .done .ok 0 s2
            | (.error (.fault .eccUe (.word pa)), _) => .done .memUe 0 (ueFound pa s)
            | (.error (.undef _), _) => readSync c s
            | (.error _, _) => failWith .badArg s }

def execSweepBegin (h : Hdr) (ctx : BitVec 8) (lrScale : BitVec 32) (step barrier : BitVec 64) (s : State) : Out :=
  hostCommand h (cmdSweepBegin ctx lrScale step barrier) s

/-! ## SWEEP_COMMIT and SWEEP_ROLLBACK (R357, R358, R360) -/

def cmdSweepCommit (ctx sf : BitVec 8) : HostCmd :=
  { opcode := 0x39, gen := 2, taggable := true
    badArgs := fun _ _ => badCtx ctx || decide (1 < sf.toNat)
    run := fun e s =>
      let c := ctx.toNat
      if isFree s c then failWith .badState s
      else if e.txn.isSome then stageIn e [.sweepCommit c] s
      else if !sf.getLsbD 0 && (sweepAt s c).st ≠ .done then failWith .badState s
      else .later (.sweepCommit c) s }

def execSweepCommit (h : Hdr) (ctx sf : BitVec 8) (s : State) : Out := hostCommand h (cmdSweepCommit ctx sf) s

/-- The blocks whose log slot is VALID for a STEP, or cannot be read. -/
def validSlots (s : State) (c : Nat) (step : Nat) : List Nat :=
  (List.range (dnNblk s c)).filter fun b =>
    match ctlRead s c (logSlotAt s c b) 64 with
    | .ok h => decide (leNat (h.take 4) = b) && decide (leNat ((h.drop 4).take 4) = 1) && decide (leNat ((h.drop 8).take 8) = step)
    | .bad | .sync => false
    | .ue _ | .tableUe _ => ((bdAt s c 0 b).map bdV).getD false

/-- SWEEP_ROLLBACK with RECOVER: an OPEN log header brings back the sweep that it names, to be rolled back. -/
def recoverSweep (c : Nat) (s : State) : HostRes :=
  match ctlRead s c (logBase s c) 64 with
  | .ue pa | .tableUe pa => .done .memUe 0 (ueFound pa s)
  | .sync => readSync c s
  | .bad => .done .ok 0 s
  | .ok h =>
    if leNat (h.take 2) ≠ 0x4C47 || leNat ((h.drop 2).take 1) ≠ 1 then .done .ok 0 s
    else
      let step := leNat ((h.drop 8).take 8)
      let groups := ctlRead s c (fld (dnReg s c 3) 0 48) 16384
      match if dnNblk s c = 0 then .ok [] else ctlRead s c (fld (dnReg s c 2) 0 48) (32 * dnNblk s c), groups with
      | .ue pa, _ | .tableUe pa, _ | _, .ue pa | _, .tableUe pa => .done .memUe 0 (ueFound pa s)
      | .sync, _ | _, .sync => readSync c s
      | _, _ => .later (.sweepRollback c) (modSweep c (fun _ => { Sweep.reset with
        st := .rollingBack, step := BitVec.ofNat 64 step, cur0 := leNat ((h.drop 3).take 1) = 1
        groups := match groups with
          | .ok gs => gs
          | _ => []
        logged := validSlots s c step, cause := causeRecover, recover := true }) s)

def cmdSweepRollback (ctx sf : BitVec 8) : HostCmd :=
  { opcode := 0x3A, gen := 2
    badArgs := fun _ _ => badCtx ctx || decide (1 < sf.toNat)
    run := fun _ s =>
      let c := ctx.toNat
      if isFree s c then failWith .badState s
      else if (sweepAt s c).st ≠ .none then .later (.sweepRollback c) (beginRollback c causeCommand s)
      else if sf.getLsbD 0 then recoverSweep c s
      else .done .ok 0 s }

def execSweepRollback (h : Hdr) (ctx sf : BitVec 8) (s : State) : Out := hostCommand h (cmdSweepRollback ctx sf) s

/-! ## DELTA_CONFIG (R366, Table 12.12) -/

/-- Whether a delta configuration block keeps its ranges and reserved bits. -/
def deltaFits (bs : List Byte) : Bool :=
  let n (off len : Nat) : Nat := leNat ((bs.drop off).take len)
  let ring (off : Nat) : Bool :=
    let log := n (off + 8) 1
    n (off + 9) 7 = 0 && (log = 0 || (decide (9 ≤ log) && decide (log ≤ 26) && n off 8 % 64 = 0 && decide (n off 8 < 2 ^ 48)))
  let repl := fld (n 0 4) 4 4
  fld (n 0 4) 0 2 ≠ 3 && decide (repl ≤ 8) && decide (n 0 4 < 256) && n 4 12 = 0 &&
    ((List.range 5).all fun k => ring (0x10 + 16 * k)) &&
    (List.range repl).all fun k => fld (n (0x60 + 8 * k) 8) 14 2 = 0 && decide (n (0x60 + 8 * k) 8 < 2 ^ 28)

/-- The delta configuration that a block sets; ring counters and records that wait stay. -/
def deltaSet (bs : List Byte) (d : Delta) : Delta :=
  let n (off len : Nat) : Nat := leNat ((bs.drop off).take len)
  let w := n 0 4
  { d with
    enc := fld w 0 2, master := bitAt w 2, drop := bitAt w 3
    rings := (List.range 4).foldl (fun m q =>
      let log := n (0x18 + 16 * q) 1
      Tab.set (0, 0) m q (if log = 0 then (0, 0) else (n (0x10 + 16 * q) 8, log))) []
    inbox := if n 0x58 1 = 0 then (0, 0) else (n 0x50 8, n 0x58 1)
    repl := (List.range (fld w 4 4)).map fun k => (fld (n (0x60 + 8 * k) 8) 0 14, fld (n (0x60 + 8 * k) 8) 16 12) }

def cmdDeltaConfigSet (ctx : BitVec 8) (param : BitVec 64) : HostCmd :=
  { opcode := 0x3B, gen := 2
    badArgs := fun e s => badCtx ctx || bufBad e.port param 160 ||
      match bufRead e.port param 160 s with
      | .ok bs => !deltaFits bs
      | .error _ => false
    run := fun e s =>
      let c := ctx.toNat
      if isFree s c || (sweepAt s c).st ≠ .none then failWith .badState s
      else withBuf e.port param 160 s fun bs => .done .ok 0 (modDelta c (deltaSet bs) s) }

def execDeltaConfigSet (h : Hdr) (ctx : BitVec 8) (param : BitVec 64) (s : State) : Out :=
  hostCommand h (cmdDeltaConfigSet ctx param) s

/-- ACK sets a ring's DR_HEAD at once, in every sweep state (R366, R367). -/
def cmdDeltaConfigAck (ctx ring : BitVec 8) (drHead : BitVec 32) : HostCmd :=
  { opcode := 0x3B, gen := 2
    badArgs := fun _ _ => badCtx ctx || decide (3 < ring.toNat)
    run := fun _ s =>
      let c := ctx.toNat
      if isFree s c then failWith .badState s
      else .done .ok 0 (modDelta c (fun d => { d with heads := Tab.set 0 d.heads ring.toNat drHead }) s) }

def execDeltaConfigAck (h : Hdr) (ctx ring : BitVec 8) (drHead : BitVec 32) (s : State) : Out :=
  hostCommand h (cmdDeltaConfigAck ctx ring drHead) s

/-! ## DIGEST_COMPARE (R370) -/

/-- DIGEST_COMPARE sends this module's list to the peer, which leaves out blocks with V = 0, and waits for the peer's. -/
def cmdDigestCompare (ctx : BitVec 8) (peer : BitVec 16) (count first : BitVec 32) : HostCmd :=
  { opcode := 0x3C, gen := 2
    badArgs := fun _ _ => badCtx ctx || decide (2 ^ 14 ≤ peer.toNat)
    run := fun e s =>
      let c := ctx.toNat
      let bs := (List.range (min count.toNat (dnNblk s c - first.toNat))).map (· + first.toNat)
      if isFree s c then failWith .badState s
      else
        match digestUe s c bs with
        | some pa => .done .memUe 0 (ueFound pa s)
        | none => .later (.digest c peer.toNat first.toNat count.toNat)
            (sendOut c 0 peer.toNat
              (.digests (Fin.ofNat 16 c) s.dev.moduleId false (BitVec.ofNat 48 e.seq) (digestsOf s c bs)) s) }

def execDigestCompare (h : Hdr) (ctx : BitVec 8) (peer : BitVec 16) (count first : BitVec 32) (s : State) : Out :=
  hostCommand h (cmdDigestCompare ctx peer count first) s

/-! ## The end of a rollback (R327, R358) -/

/-- A reset or CTX_DESTROY that waited for the sweep to be NONE completes. -/
def settleWait (c : Nat) (w : Wait) (s : State) : State :=
  match w.what with
  | .resetCtx x => if x = c then finish w.seq .ok 0 (settleReset false c s) else s
  | .ctxDestroy x => if x = c then finish w.seq .ok 0 (settleReset true c s) else s
  | _ => s

/-- SWEEP_ROLLBACK_RESTORE: a rolling-back sweep ends in NONE, and what waited for that completes. -/
def execSweepRollbackRestore (ctx : Fin 16) (s : State) : Out :=
  ctl (let c := ctx.val
  if (sweepAt s c).st ≠ .rollingBack then s
  else
    let s1 := rollbackNow c s
    s1.waits.foldl (fun s w => settleWait c w s) s1) s

end Sys2Proof.Machine
end

