-- ==== Sys2Proof/Machine/Mapping.lean ====
section
/-! DEFINITION. MEM_MAP and XLATE_RESOLVE: the page tables of a context in their four copies (R45, R256, R257, R259, R428,
R514). -/

namespace Sys2Proof.Machine

/-! ## Tables (R256, R428) -/

/-- The outcome of a change to page tables. -/
inductive MapRes where
  | ok (s : State)
  /-- no table is left in the space -/
  | full
  | ue (pa : Nat) (s : State)

def MapRes.bind (r : MapRes) (f : State → MapRes) : MapRes :=
  match r with
  | .ok s => f s
  | e => e

def tableAt (q c t : Nat) : Nat := ptRoot q c + 4096 * t

/-- An entry of a context's table t in Q0's copy; none where it cannot be read. -/
def ptGet (s : State) (c t i : Nat) : Option Nat := ptEntry s (tableAt 0 c t) i

/-- An entry is written in the four copies at once, once no merge of theirs meets an uncorrectable word (R547). -/
def ptSet (c t i : Nat) (e : Nat → Nat) (s : State) : MapRes :=
  match (List.range 4).findSome? fun q => mergeUe s (tableAt q c t + 8 * i) 8 with
  | some pa => .ue pa s
  | none => .ok ((List.range 4).foldl (fun s q => poke s (tableAt q c t + 8 * i) (toLE 8 (e q))) s)

/-- A leaf entry (Table 07.6). -/
def leafEntry (pa : Nat) (w : Bool) : Nat := 3 + w.toNat * 4 + pa / 4096 * 4096

/-- An entry that points to table t in each copy's own space. -/
def pointer (c t q : Nat) : Nat := 1 + tableAt q c t

/-- The table that a non-leaf entry of Q0's copy points to. -/
def tableOf (c e : Nat) : Nat := (fld e 12 28 * 4096 - ptRoot 0 c) / 4096

/-- The 512 entries of a table are set in every copy. -/
def fillTable (c t : Nat) (e : Nat → Nat) (s : State) : State :=
  (List.range 4).foldl (fun s q => poke s (tableAt q c t) ((List.range 512).flatMap fun i => toLE 8 (e i))) s

/-- A free table of the space: 1 to 1,023. -/
def freeTable (s : State) (c : Nat) : Option Nat :=
  (List.range 1023).map (· + 1) |>.find? fun t => !(ctxAt s c).tables.contains t

/-- A new table with these entries is used, and an entry points to it. -/
def newTable (c t i : Nat) (e : Nat → Nat) (s : State) (k : Nat → State → MapRes) : MapRes :=
  match freeTable s c with
  | none => .full
  | some n =>
    (ptSet c t i (pointer c n) s).bind fun s1 =>
      k n (fillTable c n e (modCtx c (fun x => { x with tables := x.tables ++ [n] }) s1))

def dropTable (c t : Nat) (s : State) : State := modCtx c (fun x => { x with tables := x.tables.filter (· ≠ t) }) s

/-- The first entry of a table that is valid or cannot be read. -/
def firstEntry (s : State) (c t : Nat) : Option Nat :=
  (List.range 512).find? fun i => ((ptGet s c t i).map fun e => bitAt e 0).getD true

/-- Entry i of table t is read; an uncorrectable word stops the change. -/
def withEntry (c t i : Nat) (s : State) (k : Nat → MapRes) : MapRes :=
  match ptGet s c t i with
  | some e => k e
  | none => .ue (tableAt 0 c t + 8 * i) s

/-- The table below an entry, made where there is none; a leaf of 1 GiB is split into its 512 pages of 2 MiB. -/
def below (c t i : Nat) (s : State) (k : Nat → State → MapRes) : MapRes :=
  withEntry c t i s fun e =>
    if !bitAt e 0 then newTable c t i (fun _ => 0) s k
    else if bitAt e 1 then newTable c t i (fun j => leafEntry (fld e 30 10 * 2 ^ 30 + j * 2 ^ 21) (bitAt e 2)) s k
    else k (tableOf c e) s

def idx1 (va : Nat) : Nat := va / 2 ^ 39 % 512
def idx2 (va : Nat) : Nat := va / 2 ^ 30 % 512
def idx3 (va : Nat) : Nat := va / 2 ^ 21 % 512

/-- One page is mapped; a table that a 1 GiB page replaces is freed. -/
def mapPage (c : Nat) (big w : Bool) (va pa : Nat) (s : State) : MapRes :=
  below c 0 (idx1 va) s fun t2 s1 =>
    if big then
      withEntry c t2 (idx2 va) s1 fun e =>
        (ptSet c t2 (idx2 va) (fun _ => leafEntry pa w) s1).bind fun s2 =>
          .ok (if bitAt e 0 && !bitAt e 1 then dropTable c (tableOf c e) s2 else s2)
    else below c t2 (idx2 va) s1 fun t3 s2 => ptSet c t3 (idx3 va) (fun _ => leafEntry pa w) s2

/-- A table left without a valid entry is freed, and the entry above it becomes 0; an entry that cannot be read stops the
change (R547). -/
def pruneTable (c up i t : Nat) (s : State) : MapRes :=
  match firstEntry s c t with
  | none => (ptSet c up i (fun _ => 0) s).bind fun s1 => .ok (dropTable c t s1)
  | some j => withEntry c t j s fun _ => .ok s

/-- One page is unmapped; pages that are not mapped stay so. -/
def unmapPage (c : Nat) (big : Bool) (va : Nat) (s : State) : MapRes :=
  withEntry c 0 (idx1 va) s fun e1 =>
    if !bitAt e1 0 then .ok s
    else
      let t2 := tableOf c e1
      withEntry c t2 (idx2 va) s fun e2 =>
        if !bitAt e2 0 then .ok s
        else
          let done : MapRes :=
            if big then
              (ptSet c t2 (idx2 va) (fun _ => 0) s).bind fun s1 =>
                .ok (if bitAt e2 1 then s1 else dropTable c (tableOf c e2) s1)
            else
              below c t2 (idx2 va) s fun t3 s1 =>
                (ptSet c t3 (idx3 va) (fun _ => 0) s1).bind (pruneTable c t2 (idx2 va) t3)
          done.bind (pruneTable c 0 (idx1 va) t2)

/-! ## MEM_MAP (R428) -/

def mfW (f : BitVec 8) : Bool := f.getLsbD 0
def mfUnmap (f : BitVec 8) : Bool := f.getLsbD 1
def mfBig (f : BitVec 8) : Bool := f.getLsbD 2
def mfSize (f : BitVec 8) : Nat := if mfBig f then 2 ^ 30 else 2 ^ 21

/-- The pages of a MEM_MAP, in order. -/
def mapPages (c : Nat) (f : BitVec 8) : Nat → Nat → Nat → State → MapRes
  | 0, _, _, s => .ok s
  | n + 1, va, pa, s =>
    (if mfUnmap f then unmapPage c (mfBig f) va s else mapPage c (mfBig f) (mfW f) va pa s).bind
      (mapPages c f n (va + mfSize f) (pa + mfSize f))

/-- Whether a page holds a mapping. -/
def pageMapped (s : State) (c : Nat) (big : Bool) (va : Nat) : Bool :=
  match ptGet s c 0 (idx1 va) with
  | none => false
  | some e1 =>
    bitAt e1 0 &&
      match ptGet s c (tableOf c e1) (idx2 va) with
      | none => false
      | some e2 =>
        bitAt e2 0 && (big || bitAt e2 1 || ((ptGet s c (tableOf c e2) (idx3 va)).map fun e => bitAt e 0).getD false)

/-- Whether a MEM_MAP changes or removes a mapping. -/
def changesMap (s : State) (c : Nat) (f : BitVec 8) (count va : Nat) : Bool :=
  (List.range count).any fun i => pageMapped s c (mfBig f) (va + i * mfSize f)

/-- Whether the pages lie under a region that Table 10.3 names (R361). -/
def underSweep (s : State) (c : Nat) (f : BitVec 8) (count va : Nat) : Bool :=
  (sweepAt s c).st ≠ .none && (dnRegions s c).any fun r =>
    match hbmVa s c r.1 r.2 with
    | some a => r.2 ≠ 0 && decide (a < va + count * mfSize f) && decide (va < a + r.2)
    | none => false

/-- TLB entries of a context are invalidated in every engine (R257). -/
def dropTlb (c : Nat) (s : State) : State :=
  (s.tiles.map (·.1)).foldl (fun s k => modB k (fun b => { b with tlb := b.tlb.filter fun e => e.ctx ≠ c }) s) s

/-- A MEM_MAP with its status: NO_RESOURCE maps nothing; an uncorrectable word stops it where it stands. -/
def mapNow (c : Nat) (f : BitVec 8) (count va pa : Nat) (s : State) : Status × State :=
  match mapPages c f count va pa s with
  | .ok s1 => (.ok, s1)
  | .full => (.noResource, s)
  | .ue w s1 => (.memUe, ueFound w s1)

/-- A page that R45 refuses: it does not lie in the software contexts' HBM. -/
def badPages (pa count size : Nat) : Bool :=
  decide (0xC000000000 ≤ pa) || decide (0x2FC0000000 < pa % 0x3000000000 + count * size)

def cmdMemMap (ctx mflags : BitVec 8) (count : BitVec 32) (va pa : BitVec 64) : HostCmd :=
  let size := mfSize mflags
  { opcode := 0x12, gen := 2
    badArgs := fun _ _ =>
      badCtx ctx || decide (7 < mflags.toNat) || va.toNat % size ≠ 0 || decide (2 ^ 48 < va.toNat + count.toNat * size) ||
        (!mfUnmap mflags && (pa.toNat % size ≠ 0 || (count ≠ 0 && badPages pa.toNat count.toNat size)))
    run := fun _ s =>
      let c := ctx.toNat
      if isFree s c then failWith .badState s
      else if changesMap s c mflags count.toNat va.toNat then
        if underSweep s c mflags count.toNat va.toNat then
          let (st, s1) := mapNow c mflags count.toNat va.toNat pa.toNat (undef .mapUnderSweep c s)
          .done st 0 s1
        else
          match mapPages c mflags count.toNat va.toNat pa.toNat s with
          | .full => failWith .noResource s
          | _ => .later (.mapChange c mflags count.toNat va.toNat pa.toNat) s
      else
        let (st, s1) := mapNow c mflags count.toNat va.toNat pa.toNat s
        .done st 0 s1 }

def execMemMap (h : Hdr) (ctx mflags : BitVec 8) (count : BitVec 32) (va pa : BitVec 64) (s : State) : Out :=
  hostCommand h (cmdMemMap ctx mflags count va pa) s

/-! ## XLATE_RESOLVE (R259, R514) -/

/-- The tile and stream of a context that is parked under a fault id. -/
def parkedUnder (s : State) (c id : Nat) : Option (Nat × Nat) :=
  (sitesOf s c).findSome? fun k =>
    ((tileAt s k).b.streams.find? fun p => decide (p.2.st = .parked) && decide (p.2.faultId = id)).map fun p => (k, p.1)

/-- The stream walks again; with eight walks in progress it makes its access anew. -/
def walkAgain (c k n : Nat) (s : State) : State :=
  let x := streamAt (tileAt s k) n
  let s1 := setStream k n { x with st := .issuing, waitVa := none, faultId := 0 } s
  match x.waitVa with
  | some (va, access) => startWalk k c n va access s1
  | none => s1

def cmdXlateResolve (ctx : BitVec 8) (faultId : BitVec 16) : HostCmd :=
  { opcode := 0x13, gen := 2
    badArgs := fun _ s => badCtx ctx || (parkedUnder s ctx.toNat faultId.toNat).isNone
    run := fun _ s =>
      if isFree s ctx.toNat then failWith .badState s
      else .done .ok 0 (((parkedUnder s ctx.toNat faultId.toNat).map fun (k, n) => walkAgain ctx.toNat k n s).getD s) }

def execXlateResolve (h : Hdr) (ctx : BitVec 8) (faultId : BitVec 16) (s : State) : Out :=
  hostCommand h (cmdXlateResolve ctx faultId) s

end Sys2Proof.Machine
end

