-- ==== Sys2Proof/Machine/Images.lean ====
section
/-! DEFINITION. Pricking images and the commands that make them resident, and the commands that stage the schedule:
PRICK_LOAD, PRICK_UNLOAD, REPEAT_WRITE and STITCH_SET (R299, R306, R372, R373, R377 to R391). -/

namespace Sys2Proof.Machine

/-! ## The header (R377, R378, R386, R388) -/

def hdNum (h : List Byte) (off n : Nat) : Nat := leNat ((h.drop off).take n)
def hdHoop (h : List Byte) : Nat := hdNum h 0x11 1
def hdC0 (h : List Byte) : Nat := hdNum h 0x12 1
def hdC1 (h : List Byte) : Nat := hdNum h 0x13 1
def hdKey (h : List Byte) : Nat := hdNum h 0x14 1
def hdMotif (h : List Byte) : Nat := hdNum h 0x16 2
def hdBody (h : List Byte) : Nat := hdNum h 0x28 4

/-- Bytes of the image that a header declares. -/
def hdSize (h : List Byte) : Nat := 64 + hdBody h + if hdKey h = 0 then 0 else 16

/-- The key that KEYSRC names, where it is present (R386). -/
def hdKeyOf (s : State) (h : List Byte) : Option (BitVec 256) :=
  if hdKey h = 1 then s.trust.bsk else if hdKey h = 2 then s.trust.bbram else none

/-- The header stage (R388): the first failure, in its order. -/
def headerStatus (s : State) (h : List Byte) : PrickStatus :=
  let c0 := hdC0 h
  let c1 := hdC1 h
  if hdNum h 0 4 ≠ 0x5052434B || hdNum h 4 2 ≠ 1 || hdNum h 6 2 ≠ 64 || hdNum h 8 4 ≠ devSig || !bitAt (hdNum h 0xC 4) 0 ||
    hdBody h % 8 ≠ 0 || (hdKey h = 0 && hdNum h 0x18 12 ≠ 0) then .wrongDevice
  else if hdKey h ≠ 0 && (hdKeyOf s h).isNone then .key
  else if s.trust.secure && hdKey h = 0 then .auth
  else if 1 < hdNum h 0x10 1 || 7 < hdHoop h || 31 < c1 || c1 < c0 || decide (hdNum h 0x10 1 = 0) != (c0 == 0 && c1 == 31) ||
    hdMotif h = 0 || 0x800000 < hdSize h then .region
  else .ok

/-! ## The body (R379 to R384) -/

/-- A body being parsed: what is left of it, the bytes since the last CHECK, the load registers, what has been found, and
what bursts have written: frames as 96 × column + minor, program units as (site, unit). -/
structure Parse where
  rest    : List Byte
  seg     : List Byte
  hoop    : Nat
  c0      : Nat
  c1      : Nat
  minor   : Nat
  col     : Nat
  fhoop   : Nat
  count   : Nat
  prog    : Bool
  discard : Bool
  pbase   : Nat
  poff    : Nat
  first   : Bool
  checked : Bool
  trunc   : Bool
  check   : Bool
  region  : Bool
  frames  : List Nat
  units   : List (Nat × Nat)
  cfgB    : Tab Byte
  progB   : Tab Byte
deriving DecidableEq, Repr

def Parse.start (h body : List Byte) : Parse :=
  ⟨body, body, hdHoop h, hdC0 h, hdC1 h, 0, 0, 0, 0, false, false, 0, 0, true, false, false, false, false, [], [], [], []⟩

/-- The unit of 128 B at a frame: its row and its place in the row block (R373). -/
def frameBase (col minor : Nat) : Nat := (col * 16 + minor / 5) * 1024 + minor % 5 * 128

/-- One unit of a burst to frames (R381). -/
def frameUnit (u : List Byte) (p : Parse) : Parse :=
  let ok := decide (p.fhoop = p.hoop) && decide (p.c0 ≤ p.col) && decide (p.col ≤ p.c1) && decide (p.minor < 80)
  let p1 := if ok then
      { p with cfgB := putBytes p.cfgB (frameBase p.col p.minor) u, frames := (96 * p.col + p.minor) :: p.frames }
    else { p with region := true }
  if p.minor = 91 then { p1 with minor := 0, col := p.col + 1 } else { p1 with minor := p.minor + 1 }

/-- One unit of a burst to program images (R382): the tile at COLUMN and ROW of PROGRAM_BASE. -/
def progUnit (u : List Byte) (p : Parse) : Parse :=
  let row := fld p.pbase 0 4
  let col := fld p.pbase 4 5
  let site := col * 16 + row
  let ok := decide (p.c0 ≤ col) && decide (col ≤ p.c1) && decide ((p.poff + 1) * 128 ≤ progSize (kindOfCol col))
  let p1 := if ok then
      { p with progB := putBytes p.progB (site * 131072 + p.poff * 128) u, units := (site, p.poff) :: p.units }
    else { p with region := true }
  { p1 with poff := p.poff + 1 }

/-- The units of a burst. -/
def burst : Nat → Parse → Parse
  | 0, p => p
  | n + 1, p =>
    let u := p.rest.take 128
    let p1 := { p with rest := p.rest.drop 128 }
    burst n (if p.prog then progUnit u p1 else frameUnit u p1)

/-- A word written to a load register (Table 11.8). -/
def loadReg (sub v : Nat) (p : Parse) : Parse :=
  match sub with
  | 1 => { p with minor := fld v 0 10, col := fld v 10 5, fhoop := fld v 15 3 }
  | 2 => { p with count := fld v 0 12 }
  | 3 => { p with prog := bitAt v 0, discard := bitAt v 1 }
  | 4 =>
    if fld v 0 3 = p.hoop && fld v 3 5 = p.c0 && fld v 8 5 = p.c1 then p else { p with region := true }
  | 5 => { p with pbase := v, poff := fld v 16 10 }
  | _ => { p with check := true }

/-- A field of `w` bits at bit `bit` of a store's bytes takes a symbol: set, or added to (R383). -/
def patchField (add : Bool) (base bit w sym : Nat) (m : Tab Byte) : Tab Byte :=
  let n := (bit % 8 + w + 7) / 8
  let old := numAt m (base + bit / 8) n
  let v := if add then fld old (bit % 8) w + sym else sym
  putBytes m (base + bit / 8) (toLE n (setFld old (bit % 8) w v))

/-- A RELOC (R383, Table 11.9). -/
def reloc (sub arg t : Nat) (syms : List Nat) (p : Parse) : Parse :=
  let col := fld t 1 5
  let row := fld t 6 4
  let minor := fld t 10 7
  let bit := fld t 17 20
  let w := fld t 37 6 + 1
  let site := col * 16 + row
  let hit :=
    if bitAt t 0 then
      decide (bit + w ≤ 8 * progSize (kindOfCol col)) &&
        ((List.range ((bit + w - 1) / 1024 - bit / 1024 + 1)).all fun i => p.units.contains (site, bit / 1024 + i))
    else decide (minor < 96) && p.frames.contains (96 * col + minor) && decide (bit + w ≤ 1024)
  let known := decide (sub ≤ 1) && decide (arg < syms.length)
  let p1 := { p with check := p.check || !known, region := p.region || !hit }
  if !known || !hit then p1
  else if bitAt t 0 then { p1 with progB := patchField (sub = 1) (site * 131072) bit w (syms.getD arg 0) p1.progB }
  else { p1 with cfgB := patchField (sub = 1) (frameBase col minor) bit w (syms.getD arg 0) p1.cfgB }

/-- The packets of a body (Table 11.7); `fuel` bounds their number. A reserved type ends the parse. -/
def packets (syms : List Nat) : Nat → Parse → Parse
  | 0, p => { p with trunc := true }
  | fuel + 1, p =>
    if p.rest.length < 8 then { p with trunc := true }
    else
      let w := leNat (p.rest.take 8)
      let ty := fld w 0 8
      let sub := fld w 8 8
      let arg := fld w 32 32
      let next := leNat ((p.rest.drop 8).take 8)
      let p0 := { p with region := p.region || (p.first && !(ty = 1 && sub = 4)), first := false }
      let p1 := { p0 with rest := p.rest.drop 8 }
      let p2 := { p0 with rest := p.rest.drop 16, checked := false }
      match ty with
      | 0x01 => if p1.rest.length < 8 then { p1 with trunc := true } else packets syms fuel (loadReg sub next p2)
      | 0x02 =>
        if p1.rest.length < 128 * p.count then { p1 with trunc := true }
        else packets syms fuel (burst p.count { p1 with checked := false })
      | 0x03 => if p1.rest.length < 8 then { p1 with trunc := true } else packets syms fuel (reloc sub arg next syms p2)
      | 0x04 =>
        let sum := crc32c (p.seg.take (p.seg.length - p.rest.length))
        packets syms fuel { p1 with check := p1.check || decide (sum ≠ arg), checked := true, seg := p1.rest }
      | 0x0F => { p1 with check := p1.check || !p.checked || !p1.rest.isEmpty }
      | _ => { p1 with check := true }

def parseBody (h body : List Byte) (syms : List Nat) : Parse :=
  packets syms (body.length / 8 + 1) (Parse.start h body)

/-- The status of a body: the first that applies in the order of R388. -/
def bodyStatus (auth : Bool) (p : Parse) : PrickStatus :=
  if p.trunc then .truncated else if !auth then .auth else if p.check then .check else if p.region then .region else .ok

/-! ## The store of a quarter (R389, R390) -/

def storeBase (q : Nat) : Nat := ctx0Base q

/-- The first place of a quarter's store that holds n bytes at a multiple of 256. -/
def storePlace (s : State) (q n : Nat) : Option Nat :=
  let used := s.pricks.filter fun p => decide (storeBase q ≤ p.at_) && decide (p.at_ < storeBase q + 0x8000000)
  let ends := storeBase q :: used.map fun p => ceilDiv (p.at_ + p.size) 256 * 256
  let free (a : Nat) : Bool := decide (a + n ≤ storeBase q + 0x8000000) &&
    used.all fun p => decide (a + n ≤ p.at_) || decide (p.at_ + p.size ≤ a)
  (ends.filter free).foldl (fun b a => match b with
    | none => some a
    | some x => some (min x a)) none

/-! ## PRICK_LOAD (R390) -/

/-- The source's first n bytes: the port's push buffer, or the context's HBM. -/
def sourceRead (s : State) (p c : Nat) (hbm : Bool) (addr n : Nat) : HbmRead :=
  if hbm then ctlRead s c addr n
  else
    match ueAt s (pushBase p) n with
    | some pa => .ue pa
    | none => .ok (peek s (pushBase p) n)

/-- Whether a part of the image lies in HBM that the source's context cannot reach. Source bytes beyond the image are not
read (R389). -/
def sourceBad (s : State) (c len addr : Nat) : Bool :=
  decide (64 ≤ len) && match ctlRead s c addr 64 with
    | .bad => true
    | .sync | .tableUe _ | .ue _ => false
    | .ok h => decide (headerStatus s h = .ok) && decide (ctlRead s c addr (min len (hdSize h)) = .bad)

/-- A pricking becomes resident and, with APPLY, is applied. Its bytes stand in the store in a layout that the spec does not
give. -/
def makeResident (e : Env) (c : Nat) (apply discard : Bool) (h : List Byte) (size at_ : Nat) (p : Parse) (s : State) : State :=
  let x : Pricking := ⟨c, hdMotif h, hdHoop h, hdC0 h, hdC1 h, p.discard, size, at_, p.cfgB, p.progB⟩
  let s1 := pokeFree at_ size { s with pricks := s.pricks ++ [x] }
  if !apply then s1
  else
    match e.txn with
    | some id => (stage id [.load c x.motif x.hoop x.c0 x.c1 discard] s1).getD s1
    | none => queueLoad x.hoop ⟨.apply, c, x.motif, x.c0, x.c1, discard, false, false⟩ s1

/-- A load that ends with a status and leaves nothing resident. -/
def loadFails (st : PrickStatus) (motif : Nat) (s : State) : HostRes := .done .ok (st.num + motif * 2 ^ 16) s

/-- The body stage of a load whose header passed. -/
def loadBody (e : Env) (c : Nat) (flags : BitVec 8) (len addr at_ : Nat) (syms : List Nat) (h : List Byte) (s : State) : HostRes :=
  let size := hdSize h
  match sourceRead s e.port c (flags.getLsbD 0) addr (min len size) with
  | .bad => failWith .badArg s
  | .sync => readSync c s
  | .tableUe pa => .done .memUe 0 (ueFound pa s)
  | .ue pa => loadFails (if len < size then .truncated else .check) (hdMotif h) (ueFound pa s)
  | .ok bs =>
    if len < size then loadFails .truncated (hdMotif h) s
    else
      let raw := (bs.drop 64).take (hdBody h)
      let (body, tag) := match hdKeyOf s h with
        | some k => gcmOpen (toLE 32 k.toNat) ((h.drop 0x18).take 12) h raw
        | none => (raw, [])
      let auth := hdKey h = 0 || decide (tag = bs.drop (64 + hdBody h))
      let p := parseBody h body syms
      match bodyStatus auth p with
      | .ok =>
        .done .ok (hdMotif h * 2 ^ 16) (makeResident e c (flags.getLsbD 1) (flags.getLsbD 2) h size at_ p s)
      | st => loadFails st (hdMotif h) s

/-- The header stage and what R390 places between it and the body. -/
def loadHeader (e : Env) (c : Nat) (flags : BitVec 8) (len addr : Nat) (syms : List Nat) (s : State) : HostRes :=
  if len < 64 then loadFails .truncated 0 s
  else
    match sourceRead s e.port c (flags.getLsbD 0) addr 64 with
    | .bad => failWith .badArg s
    | .sync => readSync c s
    | .tableUe pa => .done .memUe 0 (ueFound pa s)
    -- the MOTIF field of a header that cannot be read is free
    | .ue pa => loadFails .check (freeNat s 0 % 65536) (useFree 1 (ueFound pa s))
    | .ok h =>
      match headerStatus s h with
      | .ok =>
        let staged : Staged := .load c (hdMotif h) (hdHoop h) (hdC0 h) (hdC1 h) (flags.getLsbD 2)
        let room := match e.txn with
          | some id => (stage id [staged] s).isSome
          | none => true
        if (residentOf s c (hdMotif h)).isSome then failWith .badState s
        else
          match storePlace s (quarterOf (hdHoop h)) (hdSize h) with
          | none => failWith .noResource s
          | some at_ =>
            if 1024 ≤ s.pricks.length || !room then failWith .noResource s
            else loadBody e c flags len addr at_ syms h s
      | st => loadFails st (hdMotif h) s

def cmdPrickLoad (ctx pflags : BitVec 8) (nsym : BitVec 16) (len : BitVec 32) (addr patch : BitVec 64) : HostCmd :=
  let n := 8 * nsym.toNat
  { opcode := 0x18, gen := 2, taggable := pflags.getLsbD 1
    refused := fun s => pflags.getLsbD 1 && s.dev.unqualified && !s.dev.options.getLsbD 0
    badArgs := fun e _ => badCtx ctx || decide (7 < pflags.toNat) || decide (256 < nsym.toNat) || decide (0x800000 < len.toNat) ||
      (n ≠ 0 && bufBad e.port patch n)
    run := fun e s =>
      let c := ctx.toNat
      if isFree s c then failWith .badState s
      else if pflags.getLsbD 0 && sourceBad s c len.toNat addr.toNat then failWith .badArg s
      else if n = 0 then loadHeader e c pflags len.toNat addr.toNat [] s
      else
        withBuf e.port patch n s fun bs =>
          loadHeader e c pflags len.toNat addr.toNat ((List.range nsym.toNat).map fun i => leNat ((bs.drop (8 * i)).take 8)) s }

def execPrickLoad (h : Hdr) (ctx pflags : BitVec 8) (nsym : BitVec 16) (len : BitVec 32) (addr patch : BitVec 64) (s : State) : Out :=
  hostCommand h (cmdPrickLoad ctx pflags nsym len addr patch) s

/-! ## PRICK_UNLOAD (R391) -/

/-- Whether a valid entry, committed or staged, names a pricking, or a load from it waits. -/
def prickInUse (s : State) (c m : Nat) : Bool :=
  let names (x : Nat) : Bool := enV x && (enKind x = 1 || enKind x = 2) && decide (enCtx x = c) && decide (enMotif x = m)
  ((List.range 8).any fun h => ((hoopAt s h).table.any fun p => names p.2.toNat) ||
    (loadsOf s h).any fun l => decide (l.ctx = c) && decide (l.motif = m)) ||
  s.txns.any fun t => !t.committing && t.staged.any fun x => match x with
    | .entry _ _ v => names v.toNat
    | _ => false

def cmdPrickUnload (ctx : BitVec 8) (motif : BitVec 16) : HostCmd :=
  { opcode := 0x19, gen := 2
    badArgs := fun _ s => badCtx ctx || (residentOf s ctx.toNat motif.toNat).isNone
    run := fun _ s =>
      let c := ctx.toNat
      let m := motif.toNat
      if isFree s c || prickInUse s c m then failWith .badState s
      else .done .ok 0 { s with pricks := s.pricks.filter fun p => !(decide (p.ctx = c) && decide (p.motif = m)) } }

def execPrickUnload (h : Hdr) (ctx : BitVec 8) (motif : BitVec 16) (s : State) : Out := hostCommand h (cmdPrickUnload ctx motif) s

/-! ## REPEAT_WRITE and STITCH_SET (R299, R306, R316) -/

/-- The bits of an entry that Table 09.3 reserves. -/
def entryReserved (e : Nat) : Bool :=
  fld e 21 11 ≠ 0 || fld e 48 16 ≠ 0 || fld e 89 7 ≠ 0 || fld e 121 7 ≠ 0 || fld e 153 103 ≠ 0

def entriesIn (bs : List Byte) (n : Nat) : List Nat := (List.range n).map fun i => leNat ((bs.drop (32 * i)).take 32)

/-- REPEAT_WRITE: its entries are staged; a valid one that names a FREE context is not accepted. -/
def cmdRepeatWrite (hoop first count : BitVec 8) (buf : BitVec 64) : HostCmd :=
  let n := count.toNat
  { opcode := 0x20, gen := 2, taggable := true
    badArgs := fun e s => decide (7 < hoop.toNat) || decide (128 < first.toNat + n) || bufBad e.port buf (32 * n) ||
      match bufRead e.port buf (32 * n) s with
      | .ok bs => (entriesIn bs n).any entryReserved
      | .error _ => false
    run := fun e s =>
      if e.txn.isNone then failWith .badState s
      else
        withBuf e.port buf (32 * n) s fun bs =>
          let es := entriesIn bs n
          if es.any fun x => enV x && enCtx x ≠ 0 && isFree s (enCtx x) then failWith .badState s
          else stageIn e (es.zipIdx.map fun (x, i) => .entry hoop.toNat (first.toNat + i) (BitVec.ofNat 256 x)) s }

def execRepeatWrite (h : Hdr) (hoop first count : BitVec 8) (buf : BitVec 64) (s : State) : Out :=
  hostCommand h (cmdRepeatWrite hoop first count buf) s

def cmdStitchSet (period : BitVec 32) (atCount : BitVec 64) : HostCmd :=
  { opcode := 0x21, gen := 2, taggable := true
    badArgs := fun _ _ => decide (period.toNat < 18000) || decide (18000000 < period.toNat)
    run := fun e s => if e.txn.isNone then failWith .badState s else stageIn e [.period period.toNat atCount] s }

def execStitchSet (h : Hdr) (period : BitVec 32) (atCount : BitVec 64) (s : State) : Out :=
  hostCommand h (cmdStitchSet period atCount) s

end Sys2Proof.Machine
end

