-- ==== Sys2Proof/Machine/Stitch.lean ====
section
/-! DEFINITION. The stitch boundary, its alignment to a master, thermal skip levels, the power monitor, and timed changes
(R257, R297 to R304, R316, R317, R320, R328, R357, R396, R434, R435, R442, R443, R505, R530, R541). -/

namespace Sys2Proof.Machine

/-! ## Commands that complete at a boundary -/

/-- What a waiting command comes to at a boundary: nothing yet, or a status. Transactions end on their own. -/
def atBoundary (w : Wait) (s : State) : State :=
  let ends (st : Status) (s : State) : State := finish w.seq st 0 s
  match w.what with
  | .item i n v =>
    let c := ((itemLoc i n).map (·.1)).getD 0
    if c ≠ 0 && isFree s c then ends .badState s
    else ends .ok (touch (fun x => decide (x = .item i n)) (setItem i n v s))
  | .ctxCreate c bs =>
    if blockFits s c bs then ends .ok (touch (ofCtx c) (createEffect c bs s)) else ends .badArg s
  | .debug on => ends .ok (modDev (fun d => { d with debug := on }) s)
  | .mapChange c f n va pa =>
    if isFree s c then ends .badState s
    else
      -- a region of a sweep that has begun since (R361)
      let s0 := if underSweep s c f n va then undef .mapUnderSweep c s else s
      let (st, s1) := mapNow c f n va pa s0
      ends st (dropTlb c s1)
  | .commit id => match txnAt s id with
    | some t => if dueTxn s t then commitTxn id s else s
    | none => s
  | .batch id _ => match txnAt s id with
    | some t => if dueTxn s t then commitTxn id s else s
    | none => s
  | .sweepCommit c =>
    if (sweepAt s c).st = .done && (ctxAt s c).latched.isNone then
      match headerUe s c with
      | some pa => ends .memUe (ueFound pa s)
      | none => ends .ok (touch (fun x => decide (x = .sweepCommit c)) (sweepCommitNow c s))
    else s
  | .evict c =>
    if (ctxAt s c).evictEnd && (ctxAt s c).latched.isNone then
      ends .ok (modCtx c (fun x => { x with st := .evicted, evictEnd := false, runLeft := some 0, ending := false }) (dropEntries c s))
    else s
  | _ => s

/-! ## RUN counts (R317) -/

/-- The stitch that ends counts; at the end of the last one the context is IDLE once its runs have ended. -/
def countRun (c : Nat) (s : State) : State :=
  let x := ctxAt s c
  match x.st, x.runLeft with
  | .active, some (n + 1) => modCtx c (fun x => { x with runLeft := some n, ending := x.ending || n = 0 }) s
  | _, _ => s

/-- A pending RUN begins at its boundary. -/
def startRun (c : Nat) (s : State) : State :=
  let x := ctxAt s c
  match x.runPend with
  | none => s
  | some (n, first, tagged) =>
    if first ≠ 0 && decide (s.stitch.count.toNat < first.toNat) then s
    else
      let s1 := if tagged then s else touch (fun y => decide (y = .runCount c)) s
      modCtx c (fun x => { x with
        runPend := none
        st := if n ≠ 0 then .active else x.st
        runLeft := if n = 0xFFFFFFFF then none else some n.toNat
        ending := decide (n = 0) && decide (x.st = .active) }) s1

def runCounts (s : State) : State :=
  settleIdle (softCtxs.foldl (fun s c => startRun c s) (softCtxs.foldl (fun s c => countRun c s) s))

/-! ## Rest (R505) -/

/-- A Hoop without valid RUN, RECONF or SWEEP entry, queued or staged load, or run enters Rest. -/
def enterRest (h : Nat) (s : State) : State :=
  let x := hoopAt s h
  let busy := x.table.any fun p => enV p.2.toNat && enKind p.2.toNat ≠ 0
  let staged := s.txns.any fun t => t.staged.any fun y => match y with
    | .load _ _ k _ _ _ => decide (k = h)
    | _ => false
  if x.power = .on && !busy && !staged && x.loads.isEmpty && x.runs.isEmpty then modHoop h (fun x => { x with power := .rest }) s else s

/-! ## The boundary (R297, R303) -/

/-- The count advances, or takes what the source announced; a follower that was not locked is LOCKED then. -/
def nextCount (s : State) : State :=
  let x := s.stitch
  match x.placed with
  | none => { s with stitch := { x with count := x.count + 1 } }
  | some n =>
    let s1 := { s with stitch := { x with count := if x.lock = .locked then x.count + 1 else n, lock := .locked, placed := none } }
    if x.lock = .locked then s1 else raise 0x21 0 (toLE 4 (stitchStat s1)) s1

/-- STITCH_BOUNDARY: the master's beacon, waiting commands in the order of their acceptance, loads, RUN counts and Rest. -/
def execStitchBoundary (s : State) : Out :=
  ctl (if !stitching s then s
  else
    let s1 := masterBeacon (nextCount s)
    let s2 := s1.waits.foldl (fun s w => atBoundary w s) s1
    let s3 := each (List.range 8) (fun h s => boundaryLoads h (loadsOf s h).length s) s2
    (List.range 8).foldl (fun s h => enterRest h s) (runCounts s3)) s

/-! ## Alignment (R300 to R304, R530) -/

/-- STITCH_SYNC_OUT_ASSERT: the master drives the pin. -/
def execStitchSyncOutAssert (level : Bool) (s : State) : Out :=
  ctl (if stitching s && s.stitch.cfg.getLsbD 27 then { s with stitch := { s.stitch with syncOut := level } } else s) s

/-- STITCH_SYNC_IN_EDGE under PIN: an edge too soon after the last is ignored; one more than 64 NCLK off a locked
follower's boundary does not match, and the time since the last edge is the source's period. No count comes with an edge:
the one that a locking follower takes is free. -/
def execStitchSyncInEdge (sinceLastNs offset : Nat) (s : State) : Out :=
  ctl (if !stitching s || stitchSrc s ≠ 1 || decide (sinceLastNs < 1000) then s
  else if s.stitch.lock = .locked && decide (64 < offset) then syncMismatch (nclkOf sinceLastNs) s
  else if s.stitch.lock = .locked then { s with stitch := { s.stitch with mismatches := 0 } }
  else useFree 1 { s with stitch := { s.stitch with
    mismatches := 0, placed := some (if s.stitch.placed.isSome then s.stitch.placed.getD 0 else Config.freeWord s.free) } }) s

/-- STITCH_BEACON (R302). -/
def execStitchBeacon (port : Fin 12) (count : BitVec 64) (period : BitVec 25) (remaining : Nat) (s : State) : Out :=
  ctl (takeBeacon port.val count period remaining s) s

/-- STITCH_SYNC_LOST (R303). -/
def execStitchSyncLost (s : State) : Out := ctl (if stitching s && stitchSrc s ≠ 0 then syncLost s else s) s

/-! ## Thermal control (R328) -/

/-- The level of a Hoop at a junction temperature. -/
def dutyStep (tDuty : Int) (t : Int) (k : Nat) : Nat :=
  if tDuty ≤ t then min 7 (k + 1) else if t ≤ tDuty - 5 then k - 1 else k

/-- THERMAL_EVAL: skip levels follow the hottest junction of each Hoop. After a trip the sensors are still read (R544). -/
def execThermalEval (temps : List Int) (s : State) : Out :=
  ctl (if temps.length ≠ 8 then s
  else if !stitching s then (if s.pins.tripped then modDev (fun d => { d with temps := temps }) s else s)
  else
    let old := skipLevels s
    let t : Int := fld s.stitch.cfg.toNat 32 8
    let duty := (List.range 8).foldl (fun m h => Tab.set 0 m h (dutyStep t (temps.getD h 0) (Tab.get 0 s.stitch.duty h))) []
    dutyEvents old (modDev (fun d => { d with temps := temps }) { s with stitch := { s.stitch with duty := duty } })) s

/-! ## Power (R541) -/

/-- The limits that samples break: more than 10 ms above 3,400 W, and a mean of 100 ms above it. -/
def powerBroken (nOver : Nat) (xs : List Nat) : Bool × Bool :=
  (decide (10 < nOver), decide (xs.length = 100) && decide (340000 < xs.sum))

/-- Whether a limit is broken that was not before. -/
def newlyBroken (old new : Bool × Bool) : Bool := (new.1 && !old.1) || (new.2 && !old.2)

/-- POWER_SAMPLE: either limit that comes to be broken raises POWER_OVER. -/
def execPowerSample (watts : Nat) (s : State) : Out :=
  ctl (let xs := (watts :: s.dev.samples).take 100
  let nOver := if 3400 < watts then s.dev.overRun + 1 else 0
  let s1 := modDev (fun d => { d with samples := xs, overRun := nOver }) s
  if newlyBroken (powerBroken s.dev.overRun s.dev.samples) (powerBroken nOver xs) then
      raise 0x24 0 (toLE 2 (xs.sum / xs.length) ++ toLE 2 (xs.foldl max 0)) s1
    else s1) s

/-! ## Timed changes -/

/-- TXN_TIMEOUT: an open or orphaned transaction is rolled back (R443). -/
def execTxnTimeout (id : BitVec 16) (s : State) : Out :=
  ctl (match txnAt s id.toNat with
  | none => s
  | some t =>
    if t.committing then s
    else raise 0x0004 0 (toLE 2 id.toNat ++ toLE 1 t.owner) (dropTxn id.toNat PrickStatus.aborted.num s)) s

/-- The management endpoint answers at an address and EID. -/
def setMgmt (v : BitVec 16) (s : State) : State :=
  modDev (fun d => { d with mgmtAddr := v, nextMgmt := none, eid := BitVec.ofNat 8 (v.toNat / 256) }) s

/-- MGMT_ADDR_APPLY (Table 12.13). -/
def execMgmtAddrApply (s : State) : Out :=
  ctl (match s.dev.nextMgmt with
  | some v => setMgmt v s
  | none => s) s

end Sys2Proof.Machine
end

