-- ==== Sys2Proof/Machine/Power.lean ====
section
/-! DEFINITION. HALT_N, resets and the boot chain, firmware writes that end, module Dormant, the thermal trip, and the power
states of Hoops (R319, R331, R485 to R496, R501 to R508, R535 to R538, R544). -/

namespace Sys2Proof.Machine

/-- Whether the controller runs: its rail is present and no reset is held; a tripped module takes no warm reset (R501, R536,
R544). -/
def ctlRuns (s : State) : Bool := s.pins.aux && s.pins.modRstN && (s.pins.warmRstN || s.pins.tripped)

def modPins (f : Pins → Pins) (s : State) : State := { s with pins := f s.pins }

/-! ## HALT_N and ALERT_N (R319, R331, R527) -/

/-- Bit c for each context of a list. -/
def ctxMask (cs : List Nat) : Nat := (cs.map (2 ^ ·)).sum

/-- HALT_N falls: every load that is queued or in progress, of whatever context, is abandoned (Table 11.12), every pending
RUN is dropped, ALERT_N is driven low, and HALT_PIN is raised with the contexts that are halted, and logged. -/
def haltPulled (s : State) : State :=
  let s0 := (List.range 8).foldl (fun s h => abortLoads h (fun _ => true) s) s
  let s1 := modPins (fun p => { p with haltN := false, alertN := false }) s0
  let s2 := softCtxs.foldl (fun s c => modCtx c (fun x => { x with runPend := none }) s) s1
  let s3 := raise 0x0009 0 (toLE 2 (ctxMask (softCtxs.filter (haltable s)))) s2
  logEntry 4 0 0 0 0 s3.logs.eseq s3

/-- HALT_N_FALL: every ACTIVE or EVICTING context is halted. While a reset is held only the pin falls. -/
def execHaltNFall (s : State) : Out :=
  keepQueue (if !s.pins.haltN then s
  else if !ctlRuns s then modPins (fun p => { p with haltN := false }) s
  else ctlPart (haltPulled s) (each softCtxs (haltCtx false) (haltPulled s))) s

/-- HALT_N_RISE. -/
def execHaltNRise (s : State) : Out := .next (modPins (fun p => { p with haltN := true }) s)

/-- ALERT_RELEASE: HALT_N has been high for 1 µs. -/
def execAlertRelease (s : State) : Out :=
  .next (if s.pins.haltN then modPins (fun p => { p with alertN := true }) s else s)

/-! ## What resets keep (Table 14.11) -/

/-- The device before its boot: nothing runs and READY is 0. -/
def offDev : Dev := { Dev.reset with ready := false, sf := 0xFF, sq := 0xFF, lp := 0xFF }

/-- What a cold reset keeps: flash, fuses and BBRAM, pins, and what lies outside the module. A flash write in progress
leaves its slot with GENERATION 0 (Table 14.13). -/
def coldState (s : State) : State :=
  { State.reset with
    pending := s.pending, host := s.host, free := s.free, flash := { s.flash with writing := none }
    vectors := (tellPorts s { s with links := s.links.map fun x => (x.1, Link.reset x.2.cfg) }).vectors
    ha2 := (tellPorts s { s with links := s.links.map fun x => (x.1, Link.reset x.2.cfg) }).ha2
    trust := { s.trust with tamperSeen := false, udsLocked := false, bootImage := [], bootFuses := 0 }
    pins := { s.pins with dormant := false, overvolt := false, alertN := true }
    dev := offDev, links := [] }

/-- Bytes that a warm reset keeps: HBM and the weight store. -/
def warmKeeps (pa : Nat) : Bool := isHbm pa || isWs pa

/-- What a warm reset keeps beyond a cold one: the journal, SEQ and ESEQ, the sticky fault log, HBM and the weight store,
STITCH_COUNT and the repairs. -/
def warmState (cause : Nat) (s : State) : State :=
  let c := coldState s
  { c with
    mem := s.mem.filter fun p => warmKeeps p.1, bad := s.bad.filter fun w => warmKeeps (8 * w)
    logs := { s.logs with held := [], hazards := [], checks := [] }
    stitch := { Stitch.reset with count := s.stitch.count }
    trust := { s.trust with udsLocked := false, bootImage := [], bootFuses := 0 }
    pins := { s.pins with dormant := false, overvolt := false }
    dev := { offDev with jWrapped := s.dev.jWrapped, nextModuleId := s.dev.nextModuleId, bootCause := cause }
    maint := { Maint.reset with repairs := s.maint.repairs, spares := s.maint.spares } }

/-- The writes that the merge buffers of border tiles hold leave for HBM, as at the stop of a context (R262, R331). -/
def flushMerges (s : State) : State :=
  each (s.tiles.map (·.1)) (fun k s =>
    each ((mergeGroups (tileAt s k)).filter fun g => !g.1) (fun g s => issueGroup k (ownerOf s k) g s) s) s

/-- A warm reset starts: every context stops as HALT_N stops it, without dumps or events, issued HBM writes complete, and the
fabric and the controller are reset (R502). -/
def warmDown (cause : Nat) (s : State) : State :=
  let s1 := flushMerges s
  warmState cause { ctlPart s (each s1.net.writes performWrite s1) with logs := s.logs }

/-! ## The boot chain (R487, R489 to R493) -/

/-- The slots that the straps let a boot consider. -/
def considered (src : BitVec 2) : List Nat := if src = 1 then [0] else if src = 2 then [1] else [0, 1]

/-- The verified slots of a kind, by generation; equal generations take slot A first. -/
def verifiedSlots (s : State) (src : BitVec 2) (kind : Nat) : List Nat :=
  let xs := (considered src).filter fun k => (slotReason s kind k).isNone
  if xs.length = 2 && decide ((fwSlotAt s kind 0).gen.toNat < (fwSlotAt s kind 1).gen.toNat) then [1, 0] else xs

def slotImage (s : State) (kind slot : Nat) : List Byte := (fwSlotAt s kind slot).image

/-- Whether the images of two slots are compatible. -/
def slotsMatch (s : State) (ka a kb b : Nat) : Bool := fwCompatible ka (slotImage s ka a) kb (slotImage s kb b)

/-- The SQ and LP that an SF boots with. -/
def partners (s : State) (src : BitVec 2) (sf : Nat) : Option (Nat × Nat) :=
  (verifiedSlots s src 1).findSome? fun sq => (verifiedSlots s src 2).findSome? fun lp =>
    if slotsMatch s 0 sf 1 sq && slotsMatch s 0 sf 2 lp then some (sq, lp) else none

/-- The slots that boot: SF, SQ and LP. -/
def chooseSlots (s : State) (src : BitVec 2) : Option (Nat × Nat × Nat) :=
  (verifiedSlots s src 0).findSome? fun sf => (partners s src sf).map fun p => (sf, p.1, p.2)

/-- Whether a verified image has no compatible partner: an SF without a pair, or an SQ or LP without an SF. -/
def partnerless (s : State) (src : BitVec 2) (kind slot : Nat) : Bool :=
  if kind = 0 then (partners s src slot).isNone
  else !(verifiedSlots s src 0).any fun sf => slotsMatch s 0 sf kind slot

/-- IMAGE_REJECTED for each image that fails verification and each that is left without a partner; `sf` runs. -/
def rejectImages (src : BitVec 2) (sf : Option Nat) (s0 : State) : State :=
  (List.range 6).foldl (fun s i =>
    let kind := i / 2
    let slot := i % 2
    let reason := match slotReason s0 kind slot with
      | some r => some r
      | none => if partnerless s0 src kind slot && !(kind = 0 && sf = some slot) then some 4 else none
    match reason with
    | some r => if (considered src).contains slot then
        raiseBoot 0x0201 0 (toLE 1 kind ++ toLE 1 slot ++ toLE 1 r ++ toLE 1 0 ++ toLE 4 (fwSlotAt s0 kind slot).gen.toNat) s
      else s
    | none => s) s0

/-- The persistent items take their flash values, or the factory's where the block fails its check (R436, R448). -/
def applyBlock (s : State) : State :=
  let b := if s.flash.block.good then s.flash.block else s.flash.factory
  let links := (List.range 14).foldl (fun m p => Tab.set (Link.reset 0) m p (Link.reset (Tab.get 0 b.linkCfg p))) []
  setMgmt b.mgmtAddr
    (modDev (fun d => { d with
      cfgDefaulted := !s.flash.block.good, options := b.options, moduleId := s.dev.nextModuleId.getD b.moduleId
      nextModuleId := none }) { s with stitch := { s.stitch with cfg := b.stitchCfg }, links := links })

/-- Spare rows that a repair list uses, by store. -/
def sparesOf (xs : List (BitVec 64)) : Tab Nat :=
  xs.foldl (fun m e =>
    let v := e.toNat
    let key := fld v 0 3 * 4096 + fld v 3 3 * 256 + fld v 6 8
    if bitAt v 63 then Tab.set 0 m key (max (Tab.get 0 m key) (fld v 29 6 + 1)) else m) []

/-- The repair list of flash is applied at a cold boot; a warm reset has kept the running one (R226). -/
def applyRepairs (s : State) : State :=
  if s.dev.bootCause ≠ 0 then s
  else
    let xs := (if s.flash.block.good then s.flash.block else s.flash.factory).repairs
    { s with maint := { s.maint with repairs := xs, spares := sparesOf xs } }

/-- The running images and what boot decides by them (R492, R493). -/
def runImages (sf sq lp : Nat) (restricted : Bool) (s : State) : State :=
  let lacks (kind slot : Nat) : Bool := slot ≠ 0xFF && !fwB0 (slotImage s kind slot)
  modDev (fun d => { d with
    sf := sf, sq := sq, lp := lp, restricted := restricted, romRecovery := false, bootSlot := decide (sf = 1)
    unqualified := lacks 0 sf || lacks 1 sq || lacks 2 lp }) s

/-- A TAMPER that is still to be raised is raised (R499). -/
def tellTamper (s : State) : State :=
  match s.trust.tamper with
  | some c => raiseBoot 0x0203 0 (toLE 1 c) { s with trust := { s.trust with tamper := none } }
  | none => s

/-- READY is 1 and BOOT_COMPLETE is raised. -/
def bootReady (cause : Nat) (s : State) : State :=
  let s1 := modDev (fun d => { d with ready := true, bootWait := false }) s
  raiseBoot 0x0200 0 (toLE 1 cause ++ toLE 1 s1.dev.sf ++ toLE 1 s1.dev.sq ++ toLE 1 s1.dev.lp ++ toLE 4 (devStatus s1)) s1

/-- ROM recovery: no image runs, READY is 0 and RESTRICTED is 1 (R494). -/
def enterRecovery (s : State) : State :=
  modDev (fun d => { d with romRecovery := true, restricted := true, ready := false }) s

/-- The ROM has chosen: the images run, the persistent block is applied, the alias key of the SF image is derived and endorsed,
and the UDS is locked (R490, R496). -/
def startImages (sf sq lp : Nat) (restricted : Bool) (src : BitVec 2) (s : State) : State :=
  let s1 := rejectImages src (some sf) s
  let s2 := applyRepairs (applyBlock (runImages sf sq lp restricted s1))
  tellTamper { s2 with trust :=
    { s2.trust with udsLocked := true, bootImage := slotImage s2 0 sf, bootFuses := BitVec.ofNat 32 (fuseState s2) } }

/-! ## Module Dormant (R505, R507, R535) -/

/-- A stitch that has lost its lock, its skip levels and its time base; STITCH_COUNT is kept. -/
def dormantStitch (x : Stitch) : Stitch := { Stitch.reset with cfg := x.cfg, count := x.count }

/-- Links and everything on its way are lost with the fabric; numbers already given are not given again. -/
def dormantNet (n : Net) : Net :=
  { Net.reset with nextCopy := n.nextCopy, nextWid := n.nextWid, nextFid := n.nextFid }

/-- What Dormant loses (Table 14.11): the on-chip stores of every Hoop with its loads, tiles and circuits, sessions and
descriptors, stitch lock, counters, links. -/
def dormantLoses (s : State) : State :=
  let s1 := (List.range 8).foldl (fun s h => loseHoop h (abortLoads h (fun _ => true) s)) s
  let s2 := (List.range 4).foldl (fun s p => hostRetrain p s) s1
  let links := (List.range 14).foldl (fun m p => Tab.set (Link.reset 0) m p (Link.reset (linkAt s2 p).cfg)) []
  modDev (fun d => { d with ready := false, thermal := false })
    { tellPorts s { s2 with links := links } with
      stitch := dormantStitch s2.stitch, net := dormantNet s2.net, links := links
      txns := s2.txns.map fun t => if t.committing then t else { t with session := none }
      maint := { s2.maint with window := [], corr := [], recent := [] } }

/-- Whether the write of CFG_PERSIST may still be under way: no command has been taken since. The spec does not say when it
ends within its 200 ms (DESIGN CHOICE, log entry 13). -/
def persistOpen (s : State) : Bool :=
  (s.logs.journal.head?.map fun e => decide (e.opcode = 0x52) && decide (e.status = .ok)).getD false

/-- A power loss during the write of the persistent block leaves a block that fails its check (R448, R538). -/
def cutPersist (s : State) : State :=
  if !persistOpen s then s
  else
    useFree 1 (if freeNat s 0 % 2 = 1 then { s with flash := { s.flash with block := { s.flash.block with good := false } } } else s)

/-- Rollbacks in progress are interrupted (R507). -/
def cutRollbacks (s : State) : State :=
  softCtxs.foldl (fun s c =>
    if (sweepAt s c).st = .rollingBack then modSweep c (fun w => { w with cut := true }) s else s) s

/-- Dormant is entered: ACTIVE and EVICTING contexts are halted, DORMANT_ENTER is raised, HBM writes complete. -/
def dormantNow (over54 : Bool) (s : State) : State :=
  let halted := softCtxs.filter (haltable s)
  let s1 := each halted (haltCtx false) s
  let s2 := each s1.net.writes performWrite (raiseBoot 0x0205 0 (toLE 2 (ctxMask halted)) (cutPersist s1))
  modPins (fun p => { p with input := false, dormant := true, overvolt := over54 }) (ctlPart s (dormantLoses (cutRollbacks s2)))

/-- A boot that has started its images reaches READY. With the input out of limits a cold one waits for it (R536), and a
warm one completes and enters Dormant (Table 14.13). -/
def bootEnds (s : State) : State :=
  if s.pins.input then bootReady s.dev.bootCause s
  else if s.dev.bootCause = 0 then modDev (fun d => { d with bootWait := true }) s
  else dormantNow false (bootReady s.dev.bootCause s)

/-- The boot chain under a value of the straps (R489, R491). -/
def bootFrom (src : BitVec 2) (s : State) : State :=
  if src = 3 then enterRecovery s
  else
    match chooseSlots s src with
    | some (sf, sq, lp) => bootEnds (startImages sf sq lp false src s)
    | none =>
      match verifiedSlots s src 0 with
      | [] => enterRecovery (rejectImages src none s)
      | sf :: _ =>
        let lp := ((verifiedSlots s src 2).find? fun k => slotsMatch s 0 sf 2 k).getD 0xFF
        bootEnds (startImages sf 0xFF lp true src s)

/-- The supply returns or falls: DORMANT_ENTER, the input has fallen below 44 V, and INPUT_OVERVOLTAGE, it has been
disconnected. A module in reset, in ROM recovery, tripped or waiting for its input only has no input. -/
def inputLost (over54 : Bool) (s : State) : State :=
  if !ctlRuns s || !s.dev.ready then modPins (fun p => { p with input := false, overvolt := p.overvolt || (p.dormant && over54) }) s
  else dormantNow over54 s

/-- DORMANT_ENTER (R507). -/
def execDormantEnter (s : State) : Out := keepQueue (inputLost false s) s

/-- INPUT_OVERVOLTAGE (R535). -/
def execInputOvervoltage (s : State) : Out := keepQueue (inputLost true s) s

/-- DORMANT_EXIT: the input has stayed within limits for 10 ms; the running images are reloaded (R507). -/
def execDormantExit (s : State) : Out :=
  keepQueue (if s.pins.dormant && ctlRuns s then
      bootReady 3 (modPins (fun p => { p with input := true, dormant := false, overvolt := false }) s)
    else s) s

/-- INPUT_WITHIN_LIMITS: a boot that waits for the input goes on (R536). -/
def execInputWithinLimits (s : State) : Out :=
  keepQueue (if s.pins.dormant then s
    else
      let s1 := modPins (fun p => { p with input := true }) s
      if s.dev.bootWait && ctlRuns s then bootReady s.dev.bootCause s1 else s1) s

/-! ## The TAP's hold on the lands (R528, R532) -/

/-- What the lands do: outputs and bidirectional lands are high-impedance without the auxiliary rail and in cold reset, where
the boundary tests alone may drive them (R528, R532). THERMTRIP_N keeps a latched trip. -/
def tapEffect (p : Pins) : Pins :=
  let on := p.aux && !p.modRstN
  let drive := on && [3, 4, 5, 7].contains p.ir.toNat
  { p with drive := drive, hiz := !p.aux || (!p.modRstN && !drive), toggling := on && [4, 5].contains p.ir.toNat }

/-- The TAP in its reset state: IDCODE is selected. -/
def tapInit (p : Pins) : Pins := tapEffect { p with ir := 1, dr := 0x1564B0F3#320 }

/-! ## Resets (R501, R502, R537, R538, R544) -/

/-- COLD_RESET: power-on, or MOD_RST_N goes low; the reset holds until its release. -/
def execColdReset (s : State) : Out :=
  keepQueue (modPins (fun p => tapEffect { p with modRstN := false, aux := true }) (coldState s)) s

/-- AUX_RAIL_LOSS: a cold reset that holds until the rail returns. The TAP, a thermal trip and a key being fused are lost
with the rail. -/
def execAuxRailLoss (s : State) : Out :=
  keepQueue (let s1 := coldState (cutPersist s)
  modPins (fun p => tapInit { p with aux := false, tripped := false, thermtripN := true, boundary := [] })
    { s1 with trust := { s1.trust with busy := false, pendKey := none, result := if s1.trust.busy then 4 else 0, capture := 0 } }) s

/-- Whether a warm reset has an effect: the module is out of cold reset and not tripped (R501, R537, R544). -/
def warmServes (s : State) : Bool := s.pins.aux && s.pins.modRstN && !s.pins.tripped && !s.dev.bootWait

/-- WARM_RESET: WARM_RST_N goes low and holds the reset, which a cold reset or a trip overrides; or the reset that a RESET
command asked for begins, samples BOOT_SRC and boots (R489, R501). -/
def execWarmReset (cause : WarmCause) (s : State) : Out :=
  keepQueue (if !s.pins.warmRstN then s
  else
    match cause with
    | .pin => modPins (fun p => { p with warmRstN := false }) (if warmServes s then warmDown 1 s else s)
    | .command src =>
      if warmServes s && s.dev.warmAsked then bootFrom src (modPins (fun p => { p with bootSrc := src }) (warmDown 2 s)) else s) s

/-- RESET_RELEASE: a reset pin goes high; once neither is held, BOOT_SRC is sampled and the boot chain runs. The boundary
tests end with MOD_RST_N, and the reset ends a thermal trip (R489, R501, R532, R544). -/
def execResetRelease (pin : ResetPin) (bootSrc : BitVec 2) (s : State) : Out :=
  keepQueue (match pin with
  | .modRst =>
    if !s.pins.aux || s.pins.modRstN then s
    else
      let s1 := modPins (fun p => tapEffect { p with
        modRstN := true, bootSrc := bootSrc, tripped := false, thermtripN := true }) s
      if s1.pins.warmRstN then bootFrom bootSrc s1 else s1
  | .warmRst =>
    if s.pins.warmRstN then s
    else
      let s1 := modPins (fun p => { p with warmRstN := true, bootSrc := bootSrc }) s
      if !s1.pins.aux || !s1.pins.modRstN || s1.pins.tripped then s1
      else if s1.dev.bootWait then (if s1.pins.input then bootReady s1.dev.bootCause s1 else s1)
      else bootFrom bootSrc s1) s

/-- THERMTRIP: the regulators of the 54 V input are off and what they held is lost; the controller keeps its logs, its
images and its ports (R544). A module in cold reset trips as well, without more to lose. -/
def execThermtrip (s : State) : Out :=
  keepQueue (if !s.pins.aux || s.pins.tripped then s
    else if !s.pins.modRstN then modPins (fun p => { p with tripped := true, thermtripN := false }) s
    else
      let c := coldState s
      { c with
        pins := { s.pins with tripped := true, thermtripN := false, dormant := false }
        logs := { s.logs with hazards := [], checks := [] }
        dev := { s.dev with ready := false, debug := false, thermal := false, bootWait := false }
        ports := (dormantLoses s).ports, flash := s.flash, trust := s.trust
        maint := { Maint.reset with repairs := s.maint.repairs, spares := s.maint.spares } }) s

/-! ## Firmware writes (R488, R494) -/

/-- ROM recovery ends as its slot write ends: the module boots by R491 (R494). -/
def recoveryDone (slot : Nat) (s : State) : State :=
  let s1 := endFlash 0 slot { s with ports := s.ports.map fun x => (x.1, { x.2 with busy := 0 }) }
  bootFrom (if s.pins.bootSrc = 3 then 0 else s.pins.bootSrc) (modDev (fun d => { d with romRecovery := false, staging := [] }) s1)

/-- FW_UPDATE_DONE: the write of an image ends and the command that asked for it completes, or ROM recovery boots. -/
def execFwUpdateDone (s : State) : Out :=
  keepQueue (match s.flash.writing with
  | none => s
  | some (kind, slot) =>
    if !ctlRuns s then s
    else if s.dev.romRecovery then (if s.pins.tripped then s else recoveryDone slot s)
    else
      let good := (fwReason s kind (slotImage s kind slot)).isNone
      let s1 := endFlash kind slot s
      ctlPart s ((s1.waits.filter fun w => decide (w.what = .fwUpdate kind slot)).foldl (fun s w =>
        if good then finish w.seq .ok slot s else finish w.seq .authFail 0 s) s1)) s

/-- Whether PM_BUSY of a port shows that the ROM checks or writes a staged image (R494). -/
def romBusy (s : State) : Bool := [2, 3].any fun p => bitAt (portAt s p).busy.toNat 0

/-- The doorbell of ROM recovery: PM_BUSY is set while the ROM checks and writes the staged image. -/
def recoveryBell (p v : Nat) (s : State) : State :=
  if !s.dev.romRecovery || !ctlRuns s || s.pins.tripped || !bitAt v 0 || romBusy s then s
  else modPort p (fun x => { x with busy := x.busy ||| 1 }) s

/-- The check of the staged image as an SF image ends: one that verifies is written into the SF slot of lower GENERATION, and
for one that does not PM_BUSY returns to 0 (R494). -/
def recoveryCheck (s : State) : State :=
  let img := bytesAt s.dev.staging 0 0x300000
  if !s.dev.romRecovery || !ctlRuns s || s.pins.tripped || !romBusy s || s.flash.writing.isSome then s
  else if (fwReason s 0 img).isSome then { s with ports := s.ports.map fun x => (x.1, { x.2 with busy := 0 }) }
  else beginFlash 0 (if (fwSlotAt s 0 1).gen.toNat < (fwSlotAt s 0 0).gen.toNat then 1 else 0) img s

/-! ## Hoop power (R505, R506) -/

/-- Whether a software context has memory or a sync region on a Hoop. -/
def hoopBound (s : State) (h : Nat) : Bool :=
  softCtxs.any fun c => fld (relocAs s c h) 8 9 ≠ 0 || fld (relocPs s c h) 7 8 ≠ 0 || fld (regOf s 0x14 c h) 14 14 ≠ 0

/-- HOOP_SLEEP_ENTER: a Hoop in Rest that no context is bound to is power-gated. -/
def execHoopSleepEnter (hoop : Fin 8) (s : State) : Out :=
  ctl (let h := hoop.val
  if (hoopAt s h).power = .rest && !hoopBound s h && fabricOn s then
      modHoop h (fun x => { x with power := .sleep }) (loseHoop h s)
    else s) s

/-- Whether a Hoop's committed table has a valid RUN, RECONF or SWEEP entry. -/
def hoopWork (s : State) (h : Nat) : Bool := (hoopAt s h).table.any fun p => enV p.2.toNat && enKind p.2.toNat ≠ 0

/-- Whether a cause of exit holds: a commit gave the Hoop an entry, or in Sleep a bound; a load waits; an access came. -/
def exitCause (s : State) (h : Nat) : ExitCause → Bool
  | .commitEntry => hoopWork s h || (decide ((hoopAt s h).power = .sleep) && hoopBound s h)
  | .loadRequest => !(hoopAt s h).loads.isEmpty
  | .outsideAccess => true

/-- HOOP_EXIT: a Hoop in Rest or Sleep starts its exit. -/
def execHoopExit (hoop : Fin 8) (cause : ExitCause) (s : State) : Out :=
  ctl (let h := hoop.val
  if !fabricOn s || !exitCause s h cause then s
    else startExit h s) s

/-- The runs that wait for the end of an exit from Rest: of entries at START whose load is not asked for. -/
def waitingRuns (s : State) (h : Nat) : List RunSt :=
  (hoopAt s h).runs.filter fun r => decide (r.stage = .loading) &&
    !(loadsOf s h).any fun l => decide (l.origin = .entry r.entry)

/-- HOOP_EXIT_COMPLETE: the Hoop's clock runs, writes from outside that waited are made, and entries whose START fell into an
exit from Rest begin. -/
def execHoopExitComplete (hoop : Fin 8) (s : State) : Out :=
  ctl (let h := hoop.val
  match (hoopAt s h).power with
  | .exiting fromSleep =>
    let s1 := heldWrites h (modHoop h (fun x => { x with power := .on }) s)
    if fromSleep || !fabricOn s then s1
    else each (waitingRuns s h) (fun r => beginRun h r) s1
  | _ => s) s

end Sys2Proof.Machine
end

