-- ==== Sys2Proof/Machine/HostWindow.lean ====
section
/-! DEFINITION. Batches, the priority mailbox, the host window and its ports, BAR2, and out-of-band management (R393, R408 to
R413, R415, R417, R437, R438, R446, R451 to R453, R482, R484, R494, R495, R531). -/

namespace Sys2Proof.Machine

/-! ## Commands as slots (R420, Tables 12.6 and 12.9) -/

/-- The bytes of its arguments and the command that a slot of MB1 or MB2 holds, other than BATCH (Table 12.9). -/
def slotCmd (bs : List Byte) : List (Nat × Nat) × HostCmd :=
  let op := slotNum bs 0 1
  let n (w off k : Nat) : BitVec w := BitVec.ofNat w (slotNum bs off k)
  match op with
  | 0x01 => ([(8, 8), (16, 4)], cmdDeviceInfo (n 64 8 8) (n 32 16 4))
  | 0x02 => ([(8, 1), (9, 1), (10, 1)], cmdOpenSession (n 8 8 1) (n 8 9 1) (n 8 10 1))
  | 0x03 => ([], cmdCloseSession)
  | 0x10 => ([(8, 1), (16, 8)], cmdCtxCreate (n 8 8 1) (n 64 16 8))
  | 0x11 => ([(8, 1)], cmdCtxDestroy (n 8 8 1))
  | 0x12 => ([(8, 1), (9, 1), (12, 4), (16, 8), (24, 8)], cmdMemMap (n 8 8 1) (n 8 9 1) (n 32 12 4) (n 64 16 8) (n 64 24 8))
  | 0x13 => ([(8, 1), (10, 2)], cmdXlateResolve (n 8 8 1) (n 16 10 2))
  | 0x18 => ([(8, 1), (9, 1), (10, 2), (12, 4), (16, 8), (24, 8)],
      cmdPrickLoad (n 8 8 1) (n 8 9 1) (n 16 10 2) (n 32 12 4) (n 64 16 8) (n 64 24 8))
  | 0x19 => ([(8, 1), (10, 2)], cmdPrickUnload (n 8 8 1) (n 16 10 2))
  | 0x20 => ([(8, 1), (9, 1), (10, 1), (16, 8)], cmdRepeatWrite (n 8 8 1) (n 8 9 1) (n 8 10 1) (n 64 16 8))
  | 0x21 => ([(12, 4), (16, 8)], cmdStitchSet (n 32 12 4) (n 64 16 8))
  | 0x28 => ([(8, 1), (12, 4), (16, 8)], cmdRun (n 8 8 1) (n 32 12 4) (n 64 16 8))
  | 0x29 => ([(8, 1), (9, 1)], cmdHalt (n 8 8 1) (n 8 9 1))
  | 0x2A => ([(8, 1)], cmdEvictContext (n 8 8 1))
  | 0x2B => ([(8, 1)], cmdScanOut (n 8 8 1))
  | 0x2C => ([(8, 1)], cmdScanIn (n 8 8 1))
  | 0x30 => ([(8, 1), (9, 1), (10, 2), (12, 1), (13, 1), (14, 1), (16, 4), (20, 4), (24, 8), (32, 2), (34, 2)],
      cmdChanCreate (n 8 8 1) (n 8 9 1) (n 16 10 2) (n 8 12 1) (n 8 13 1) (n 8 14 1) (n 32 16 4) (n 32 20 4) (n 64 24 8)
        (n 16 32 2) (n 16 34 2))
  | 0x31 => ([(8, 1), (12, 4), (16, 8), (24, 8)], cmdKnotInit (n 8 8 1) (n 32 12 4) (n 64 16 8) (n 64 24 8))
  | 0x38 => ([(8, 1), (12, 4), (16, 8), (24, 8)], cmdSweepBegin (n 8 8 1) (n 32 12 4) (n 64 16 8) (n 64 24 8))
  | 0x39 => ([(8, 1), (9, 1)], cmdSweepCommit (n 8 8 1) (n 8 9 1))
  | 0x3A => ([(8, 1), (9, 1)], cmdSweepRollback (n 8 8 1) (n 8 9 1))
  | 0x3B => match slotNum bs 9 1 with
    | 0 => ([(8, 1), (9, 1), (16, 8)], cmdDeltaConfigSet (n 8 8 1) (n 64 16 8))
    | 1 => ([(8, 1), (9, 1), (10, 1), (12, 4)], cmdDeltaConfigAck (n 8 8 1) (n 8 10 1) (n 32 12 4))
    | _ => ([], badArgCmd 0x3B 2)
  | 0x3C => ([(8, 1), (10, 2), (12, 4), (16, 4)], cmdDigestCompare (n 8 8 1) (n 16 10 2) (n 32 12 4) (n 32 16 4))
  | 0x40 => ([(8, 1), (12, 4), (16, 8)], cmdSyncDump (n 8 8 1) (n 32 12 4) (n 64 16 8))
  | 0x48 => ([], cmdTxnBegin)
  | 0x49 => ([(8, 2)], cmdTxnCommit (n 16 8 2))
  | 0x4A => ([(8, 2)], cmdTxnRollback (n 16 8 2))
  | 0x50 => ([(8, 2), (12, 4)], cmdCfgGet (n 16 8 2) (n 32 12 4))
  | 0x51 => ([(8, 2), (12, 4), (16, 8)], cmdCfgSet (n 16 8 2) (n 32 12 4) (n 64 16 8))
  | 0x52 => ([], cmdCfgPersist)
  | 0x58 => ([(8, 2), (10, 6), (16, 8)], cmdJournalRead (n 16 8 2) (n 48 10 6) (n 64 16 8))
  | 0x60 => ([(8, 1), (12, 4)], cmdFwUpdate (n 8 8 1) (n 32 12 4))
  | 0x61 => ([(12, 4), (16, 8)], cmdAttest (n 32 12 4) (n 64 16 8))
  | 0x62 => ([(8, 1), (9, 1), (10, 1), (12, 4), (16, 8)], cmdTelemetry (n 8 8 1) (n 8 9 1) (n 8 10 1) (n 32 12 4) (n 64 16 8))
  | 0x68 => ([(8, 1)], cmdDebugMode (n 8 8 1))
  | 0x70 => match slotNum bs 8 1 with
    | 0 => ([(8, 1), (9, 1)], cmdResetWarm (n 8 9 1))
    | 1 => ([(8, 1), (9, 1)], cmdResetContext (n 8 9 1))
    | 2 => ([(8, 1), (9, 1)], cmdResetHoop (n 8 9 1))
    | _ => ([], badArgCmd 0x70 1)
  | _ => ([], unknownCmd op)

/-- Whether a reserved bit of a slot is 1: FLAGS [7:1], or a byte that no argument uses (R420). -/
def slotRsv (used : List (Nat × Nat)) (bs : List Byte) : Bool :=
  decide (1 < slotNum bs 1 1) || (List.range bs.length).any fun i =>
    decide (8 ≤ i) && !(used.any fun (off, k) => decide (off ≤ i) && decide (i < off + k)) && decide (bs.getD i 0 ≠ 0)

/-- A slot's command is taken from a batch or the priority mailbox: the generation served there, the session that it acts
for (none: the priority mailbox) and the transaction of a GROUP. -/
def takeSlot (gen : Nat) (session : Option Nat) (group : Option Nat) (env : Env) (c : HostCmd) (used : List (Nat × Nat))
    (bs : List Byte) (s : State) : State × Status :=
  let txn := bitAt (slotNum bs 1 1) 0
  let id : BitVec 16 := BitVec.ofNat 16 (slotNum bs 2 2)
  let e : Env := { env with
    txn := if group.isSome then group else if txn then some id.toNat else none
    txnId := id, seq := s.logs.seq + 1, tag := BitVec.ofNat 32 (slotNum bs 4 4) }
  runCmd c e (preCheck c gen true (slotRsv used bs) txn id session e s) session.isSome s

/-! ## BATCH (R437, R438) -/

/-- Slots of 64 B. -/
def slotsOf (bs : List Byte) : List (List Byte) := (List.range (bs.length / 64)).map fun i => (bs.drop (64 * i)).take 64

/-- The i-th entry of a batch is taken: its status, ACCEPTED while it waits, and its number. -/
def batchEntry (group : Option Nat) (e : Env) (off : Nat) (host : Bool) (i : Nat) (bs : List Byte) (s : State) : State × Status :=
  let (used, c) := slotCmd bs
  takeSlot 2 (some e.session) group { e with origin := .batch e.session e.port (off + 64 * i) host } c used bs s

/-- The first entry that failed, once the i-th has ended with a status: one that is neither OK nor ACCEPTED fails. -/
def noteFailed (i : Nat) (st : Status) (failed : Option (Nat × Status)) : Option (Nat × Status) :=
  if failed.isNone && st ≠ .ok && st ≠ .accepted then some (i, st) else failed

/-- Whether an entry may stand in a GROUP: of a kind that may be tagged, with TXN 0. -/
def mayGroup (bs : List Byte) : Bool := (slotCmd bs).2.taggable && !bitAt (slotNum bs 1 1) 0

/-- RESULT of a batch: the entries run and the first that failed. -/
def batchResult (run : Nat) (failed : Option (Nat × Status)) : Nat := run + (failed.map (·.1)).getD 0 * 2 ^ 16

/-- The status of a batch whose entries have run. -/
def batchStatus (cont : Bool) (failed : Option (Nat × Status)) : Status :=
  if cont then .ok else (failed.map (·.2)).getD .ok

/-- Entries in order, up to the first that fails unless CONTINUE is set. The batch waits at an entry that waits (R418). -/
def batchRun (cont : Bool) (e : Env) (off : Nat) (host : Bool) :
    List (List Byte) → Nat → Option (Nat × Status) → State → HostRes
  | [], i, failed, s => .done (batchStatus cont failed) (batchResult i failed) s
  | bs :: rest, i, failed, s =>
    if failed.isSome && !cont then .done (batchStatus cont failed) (batchResult i failed) s
    else
      let (s1, st) := batchEntry none e off host i bs s
      if st = .accepted then .later (.batchRun ⟨cont, off, host, rest, i + 1, failed, s.logs.seq + 1, none⟩) s1
      else batchRun cont e off host rest (i + 1) (noteFailed i st failed) s1

/-- Entries of a GROUP, which are staged at once: how many have run, and the first that failed. -/
def groupEntries (cont : Bool) (group : Nat) (e : Env) (off : Nat) (host : Bool) :
    List (List Byte) → Nat → Option (Nat × Status) → State → Nat × Option (Nat × Status) × State
  | [], i, failed, s => (i, failed, s)
  | bs :: rest, i, failed, s =>
    if failed.isSome && !cont then (i, failed, s)
    else
      let (s1, st) := batchEntry (some group) e off host i bs s
      groupEntries cont group e off host rest (i + 1) (noteFailed i st failed) s1

/-- The batch of a ring whose entry's status is known, with that status. -/
def batchReady (s : State) : Option (Wait × BatchRun × Status) :=
  s.waits.findSome? fun w => match w.what with
    | .batchRun b => b.status.map fun st => (w, b, st)
    | _ => none

/-- A batch goes on once its entry's status is known (R418, R437). -/
def batchTick (s : State) : State :=
  match batchReady s with
  | none => s
  | some (w, b, st) =>
    match w.origin with
    | .ring p r =>
      let e : Env := ⟨.ring p r, p, sessionOf p r, none, 0, w.seq, w.tag⟩
      match batchRun b.cont e b.off b.host b.rest b.ran (noteFailed (b.ran - 1) st b.failed) s with
      | .done st result s1 => finish w.seq st result s1
      | .later what s1 =>
        { s1 with waits := s1.waits.map fun y => if y.seq = w.seq then { y with what := what } else y }
    | _ => s

/-- Entries of a GROUP are staged in one transaction, which commits as TXN_COMMIT does, or is rolled back. -/
def groupRun (cont : Bool) (e : Env) (off : Nat) (host : Bool) (slots : List (List Byte)) (s : State) : HostRes :=
  if txnLimit ≤ s.txns.length then failWith .noResource s
  else
    let id := freshTxn s
    let (n, failed, s1) := groupEntries cont id e off host slots 0 none (openTxn e.session id s)
    let drop := dropTxn id PrickStatus.aborted.num s1
    if failed.isSome then .done (batchStatus cont failed) (batchResult n failed) drop
    else if ((txnAt s1 id).map (atPassed s1)).getD false then .done .badArg 0 drop
    else .later (.batch id n) (acceptCommit id e.seq s1)

/-- BATCH. -/
def cmdBatch (bf : BitVec 8) (count : BitVec 16) (buf : BitVec 64) : HostCmd :=
  let n := 64 * count.toNat
  let cont := bf.getLsbD 1
  { opcode := 0x78, gen := 3
    badArgs := fun e s => decide (3 < bf.toNat) || count = 0 || decide (256 < count.toNat) || bufBad e.port buf n ||
      (bf.getLsbD 0 && match bufRead e.port buf n s with
        | .ok bs => !(slotsOf bs).all mayGroup
        | .error _ => false)
    run := fun e s =>
      withBuf e.port buf n s fun bs =>
        if bf.getLsbD 0 then groupRun cont e (bufOff buf) (!bufPush buf) (slotsOf bs) s
        else batchRun cont e (bufOff buf) (!bufPush buf) (slotsOf bs) 0 none s }

def execBatch (h : Hdr) (bf : BitVec 8) (count : BitVec 16) (buf : BitVec 64) (s : State) : Out :=
  hostCommand h (cmdBatch bf count buf) s

/-! ## The priority mailbox (R412, R413) -/

/-- A slot of the priority mailbox holds HALT or RESET; every other opcode is refused. -/
def priorityCmd (bs : List Byte) : List (Nat × Nat) × HostCmd :=
  if slotNum bs 0 1 = 0x29 || slotNum bs 0 1 = 0x70 then slotCmd bs else ([], unknownCmd (slotNum bs 0 1))

/-- A submitted slot runs. -/
def prioritySlot (p k : Nat) (s : State) : State :=
  let bs := bytesAt (portAt s p).slots (32 * k) 32
  let (used, c) := priorityCmd bs
  (takeSlot 1 none none ⟨.pm p k, p, 32 + p, none, 0, 0, 0⟩ c used bs s).1

/-- A write to PM_DOORBELL submits the slots that are not busy; they run in ascending order. -/
def pmSubmit (p v : Nat) (s : State) : State :=
  if !s.dev.ready then s
  else
    let ks := (bitsOf 4 v).filter fun k => !bitAt (portAt s p).busy.toNat k
    let mark (b : BitVec 4) (k : Nat) : BitVec 4 := b ||| (1#4 <<< k)
    each ks (prioritySlot p) (modPort p (fun x => { x with busy := ks.foldl mark x.busy }) s)

/-! ## Ring descriptors (R415, R417, R446) -/

/-- A command-ring descriptor as it reads (Table 12.5). -/
def ringWord (x : Ring) : Nat :=
  x.base.toNat + x.en.toNat * 2 ^ 64 + x.loc.toNat * 2 ^ 65 + x.slot.toNat * 2 ^ 66 + x.log2n.toNat * 2 ^ 68 +
    x.opened.toNat * 2 ^ 72 + x.tail.toNat * 2 ^ 96 + x.head.toNat * 2 ^ 128

/-- The conditions under which EN 1 takes effect. -/
def ringOk (p r : Nat) (x : Ring) : Bool :=
  x.tail = 0 && x.slot ≠ 0 && decide (x.log2n.toNat ≤ 12) &&
    if x.loc then decide (r = 0) && decide (ringSlots x * slotBytes x ≤ 1024) else decide (p < 2)

/-- A doorbell: slots that spell no command are refused, and a ring that has run over is closed. -/
def ringBell (p r : Nat) (s : State) : State :=
  let x := ringAt s p r
  if !s.dev.ready || !x.en || decide ((x.tail - x.head).toNat ≤ ringSlots x) then refuseSlots p r (ringSlots x) s
  else raise 0x0003 0 (toLE 1 (sessionOf p r) ++ toLE 3 0 ++ toLE 4 x.head.toNat ++ toLE 4 x.tail.toNat) (closeRing p r s)

/-- A write of n bytes at an offset of a command-ring descriptor. -/
def ringDescWrite (p r off n v : Nat) (s : State) : State :=
  let x := ringAt s p r
  let w := setFld (ringWord x) (8 * off) (8 * n) v
  let tail := if s.dev.ready then BitVec.ofNat 32 (fld w 96 32) else x.tail
  let y : Ring := { x with
    base := BitVec.ofNat 64 (fld w 0 64), loc := bitAt w 65, slot := BitVec.ofNat 2 (fld w 66 2)
    log2n := BitVec.ofNat 4 (fld w 68 4), tail := tail }
  if x.en then
    let s1 := setRing p r { x with tail := tail } s
    if !bitAt w 64 then closeRing p r s1 else if off ≤ 12 && 12 < off + n then ringBell p r s1 else s1
  else if bitAt w 64 && ringOk p r y then setRing p r { y with en := true, head := 0, opened := false } s
  else setRing p r y s

/-- An event-ring descriptor as it reads (Table 12.14). -/
def evWord (x : EvRing) : Nat :=
  x.base.toNat + x.en.toNat * 2 ^ 64 + x.loc.toNat * 2 ^ 65 + x.log2n.toNat * 2 ^ 66 + x.head.toNat * 2 ^ 96 +
    x.tail.toNat * 2 ^ 128 + x.lost * 2 ^ 160

/-- The conditions of R415 as they apply to an event ring. -/
def evOk (p : Nat) (x : EvRing) : Bool :=
  x.tail = 0 && decide (3 ≤ x.log2n.toNat) && decide (x.log2n.toNat ≤ 16) && if x.loc then x.log2n = 3 else decide (p < 2)

/-- A write of n bytes at an offset of the event-ring descriptor. An enabled ring starts at HEAD 0 and receives the boot
events that are held (R415, R495). -/
def evDescWrite (p off n v : Nat) (s : State) : State :=
  let x := (portAt s p).ev
  let w := setFld (evWord x) (8 * off) (8 * n) v
  let head := BitVec.ofNat 32 (fld w 96 32)
  let y : EvRing := { x with
    base := BitVec.ofNat 64 (fld w 0 64), loc := bitAt w 65, log2n := BitVec.ofNat 5 (fld w 66 5), head := head }
  let put (z : EvRing) (s : State) : State := modPort p (fun q => { q with ev := z }) s
  if x.en then put { x with head := head, en := bitAt w 64 } s
  else if bitAt w 64 && evOk p y then
    s.logs.held.foldl (fun s r => ringPut r p s) (put { y with en := true, head := 0, lost := 0, missed := 0 } s)
  else put y s

/-! ## The push window (R410, R494) -/

/-- The physical address behind an offset of a port's push window. -/
def pushAt (s : State) (p off : Nat) : Nat := pushBase p + (portAt s p).pushPage.toNat * 4096 + off

/-- What a read of the push window comes to: its bytes, or an uncorrectable word. -/
def pushRead (p off n : Nat) (s : State) : Option (List Byte) × State :=
  let page := (portAt s p).pushPage.toNat
  if s.dev.romRecovery then
    (some (if page < 768 then bytesAt s.dev.staging (page * 4096 + off) n else List.replicate n 0), s)
  else if !fabricOn s then (some (toLE n (freeNat s 0)), useFree 1 s)
  else
    match ueAt s (pushAt s p off) n with
    | some pa => (none, ueFound pa s)
    | none => (some (peek s (pushAt s p off) n), s)

/-- A write through the push window. -/
def pushStore (p off : Nat) (bs : List Byte) (s : State) : State :=
  let page := (portAt s p).pushPage.toNat
  if s.dev.romRecovery then
    (if page < 768 then modDev (fun d => { d with staging := putBytes d.staging (page * 4096 + off) bs }) s else s)
  else if !fabricOn s then s
  else writeCodewords ueFound (pushAt s p off) bs s

/-! ## The host window (R408, R409, Table 12.2) -/

/-- Whether a port's window is reached: the controller is out of reset, an HL port is UP, and ROM recovery serves only BSPI
and PSP (R484, R494, R501). -/
def windowUp (s : State) (p : Nat) : Bool :=
  ctlRuns s &&
    (decide (2 ≤ p) || (decide ((linkAt s (12 + p)).st = .up) && !s.dev.romRecovery))

/-- The 8 bytes of the register at an aligned offset below the push window. -/
def windowReg (s : State) (p off : Nat) : Nat :=
  let x := portAt s p
  let area (m : Tab Byte) (lo : Nat) : Nat := numAt m (off - lo) 8
  if off = 0 then devSig + 2 ^ 32
  else if off = 0x8 then devStatus s
  else if off = 0x10 then mbGens s
  else if off = 0x18 then p
  else if 0x100 ≤ off && off < 0x180 then area x.slots 0x100
  else if off = 0x188 then x.busy.toNat
  else if 0x200 ≤ off && off < 0x300 then fld (ringWord (ringAt s p ((off - 0x200) / 32))) (8 * (off % 32)) 64
  else if off = 0x300 then x.pushPage.toNat
  else if 0x400 ≤ off && off < 0x420 then fld (evWord x.ev) (8 * (off % 32)) 64
  else if 0x600 ≤ off && off < 0x800 then area x.evArea 0x600
  else if off = 0x800 then jNewest s
  else if off = 0x808 then jOldest s
  else if 0xC00 ≤ off && off < 0x1000 then area x.ringArea 0xC00
  else 0

/-- The aligned 8-B unit at an offset, as BSPI and PSP read it: all ones for an uncorrectable word. -/
def windowUnit (p off : Nat) (s : State) : List Byte × State :=
  if 0x1000 ≤ off && off < 0x2000 then
    match pushRead p (off - 0x1000) 8 s with
    | (some bs, s1) => (bs, s1)
    | (none, s1) => (List.replicate 8 0xFF, s1)
  else (toLE 8 (windowReg s p off), s)

/-- A write of n bytes (4 or 8, aligned) to a register. PM_DOORBELL has its own meaning. -/
def windowStore (p off n v : Nat) (s : State) : State :=
  let bytes := toLE n v
  if off = 0x8 then (if bitAt v 8 then modDev (fun d => { d with jWrapped := false }) s else s)
  else if 0x100 ≤ off && off < 0x180 then modPort p (fun x => { x with slots := putBytes x.slots (off - 0x100) bytes }) s
  else if 0x200 ≤ off && off < 0x300 then ringDescWrite p ((off - 0x200) / 32) (off % 32) n v s
  else if off = 0x300 then modPort p (fun x => { x with pushPage := BitVec.ofNat 11 v }) s
  else if 0x400 ≤ off && off < 0x420 then evDescWrite p (off % 32) n v s
  else if 0x600 ≤ off && off < 0x800 then modPort p (fun x => { x with evArea := putBytes x.evArea (off - 0x600) bytes }) s
  else if 0xC00 ≤ off && off < 0x1000 then modPort p (fun x => { x with ringArea := putBytes x.ringArea (off - 0xC00) bytes }) s
  else if 0x1000 ≤ off && off < 0x2000 then pushStore p (off - 0x1000) bytes s
  else s

/-- A write of bytes to the MSI-X table of a port's HA-2; a vector that is unmasked pends no longer (Table 13.9; PRESUMED, PCI
Express). -/
def msixWrite (p off : Nat) (bs : List Byte) (s : State) : State :=
  let s1 := { s with ha2 := { s.ha2 with table := putBytes s.ha2.table (64 * p + off) bs } }
  { s1 with ha2 := { s1.ha2 with pending := s1.ha2.pending.filter fun x => msixMasked s1 (x.1 / 4) (x.1 % 4) } }

/-- A naturally aligned write of 4 or 8 bytes to BAR0 or through a port's window; any other access is ignored. -/
def windowWrite (p off n v : Nat) (s : State) : State :=
  if !windowUp s p || off % n ≠ 0 then s
  else if 0x2000 ≤ off then (if p < 2 && 0x8000 ≤ off && off < 0x8030 then msixWrite p (off - 0x8000) (toLE n v) s else s)
  else if off = 0x180 then (if s.dev.romRecovery then recoveryBell p v s else pmSubmit p v s)
  else windowStore p off n v s

/-- PM_DOORBELL (R412). -/
def execPmDoorbell (port : Fin 4) (value : BitVec 64) (s : State) : Out :=
  keepQueue (windowWrite port.val 0x180 8 value.toNat s) s

/-- COMMAND_RING_TAIL: the TAIL of a command ring is written (R417). -/
def execCommandRingTail (port : Fin 4) (ring : Fin 8) (tail : BitVec 32) (s : State) : Out :=
  keepQueue (windowWrite port.val (0x20C + 32 * ring.val) 4 tail.toNat s) s

/-- COMMAND_RING_ENABLE: the word of a descriptor that holds EN is written with EN 1 (R415). -/
def execCommandRingEnable (port : Fin 4) (ring : Fin 8) (word : BitVec 32) (s : State) : Out :=
  keepQueue (windowWrite port.val (0x208 + 32 * ring.val) 4 (word ||| 1).toNat s) s

/-- COMMAND_RING_DISABLE: the same word with EN 0. -/
def execCommandRingDisable (port : Fin 4) (ring : Fin 8) (word : BitVec 32) (s : State) : Out :=
  keepQueue (windowWrite port.val (0x208 + 32 * ring.val) 4 (word &&& ~~~1).toNat s) s

/-- EVENT_RING_ENABLE (R446, R495). -/
def execEventRingEnable (port : Fin 4) (word : BitVec 32) (s : State) : Out :=
  keepQueue (windowWrite port.val 0x408 4 (word ||| 1).toNat s) s

/-- REGISTER_WRITE: any other write through the window. -/
def execRegisterWrite (port : Fin 4) (offset : BitVec 16) (wide : Bool) (value : BitVec 64) (s : State) : Out :=
  let n := if wide then 8 else 4
  keepQueue (windowWrite port.val offset.toNat n (value.toNat % 2 ^ (8 * n)) s) s

/-- RECOVERY_DOORBELL: the doorbell as ROM recovery serves it (R494). -/
def execRecoveryDoorbell (port : Fin 4) (value : BitVec 64) (s : State) : Out :=
  keepQueue (if windowUp s port.val then recoveryBell port.val value.toNat s else s) s

/-! ## The push window as a command -/

/-- What the last read through a port returned. -/
def answerRead (p : Nat) (bs : List Byte) (abort : Bool) (s : State) : State :=
  modPort p (fun x => { x with out := bs, abort := abort }) s

/-- PUSH_WINDOW_READ: the word of the page, all ones or Completer Abort for an uncorrectable word; all ones through an HL
port that is not UP, and 0 for an access that is not aligned (R409, R410, R484). -/
def execPushWindowRead (port : Fin 4) (offset : BitVec 12) (wide : Bool) (s : State) : Out :=
  ctl (let p := port.val
  let n := if wide then 8 else 4
  if !windowUp s p then (if p < 2 then answerRead p (List.replicate n 0xFF) false s else s)
    else if offset.toNat % n ≠ 0 then answerRead p (List.replicate n 0) false s
    else
      match pushRead p offset.toNat n s with
      | (some bs, s1) => answerRead p bs false s1
      | (none, s1) => if p < 2 then answerRead p [] true s1 else answerRead p (List.replicate n 0xFF) false s1) s

/-- PUSH_WINDOW_WRITE (R410). -/
def execPushWindowWrite (port : Fin 4) (offset : BitVec 12) (wide : Bool) (value : BitVec 64) (s : State) : Out :=
  let n := if wide then 8 else 4
  keepQueue (windowWrite port.val (0x1000 + offset.toNat) n (value.toNat % 2 ^ (8 * n)) s) s

/-! ## BSPI and PSP (R393, R531) -/

/-- Bytes at ascending addresses from `a`, as the units of the window that they make up: an aligned 8-B unit of which all, or
its low or its high half alone, has come is one write; any other part of one is discarded. -/
def unitWrites (a : Nat) (bs : List Byte) : List (Nat × Nat × Nat) :=
  let last := a + bs.length
  (List.range (last / 8 + 1 - a / 8)).flatMap fun i =>
    let u := 8 * (a / 8 + i)
    let lo := max a u
    let n := min last (u + 8) - lo
    if (n = 8 || n = 4) && lo % 4 = 0 then [(lo, n, leNat ((bs.drop (lo - a)).take n))] else []

/-- The writes of a transaction, in order. -/
def transactionWrite (p a : Nat) (bs : List Byte) (s : State) : Out :=
  keepQueue (each (unitWrites a bs) (fun x => windowWrite p x.1 x.2.1 x.2.2) s) s

/-- The units of a transaction that reads `n` bytes from `a`, each read once as its first byte is driven. -/
def transactionRead (p a n : Nat) (s : State) : State :=
  let us := (List.range ((a + n + 7) / 8 - a / 8)).map fun i => 8 * (a / 8 + i)
  let (bs, s1) := us.foldl (fun (acc : List Byte × State) u =>
    if u < 0x2000 then
      let (xs, t) := windowUnit p u acc.2
      (acc.1 ++ xs, t)
    else (acc.1 ++ List.replicate 8 0, acc.2)) ([], s)
  answerRead p ((bs.drop (a % 8)).take n) false s1

/-- BSPI_WRITE: opcode 0x38. -/
def execBspiWrite (addr : BitVec 16) (data : List Byte) (s : State) : Out := transactionWrite 2 addr.toNat data s

/-- BSPI_READ: opcode 0xEB. -/
def execBspiRead (addr : BitVec 16) (count : Nat) (s : State) : Out :=
  ctl (if windowUp s 2 then transactionRead 2 addr.toNat count s else s) s

/-- PSP_WRITE: the address clock gives a word address of 12 bits; a transaction whose D[15:12] are not 0 is ignored. -/
def execPspWrite (address : BitVec 16) (words : List (BitVec 16)) (s : State) : Out :=
  if 4096 ≤ address.toNat then .next s
  else transactionWrite 3 (2 * address.toNat) (words.flatMap fun w => toLE 2 w.toNat) s

/-- PSP_READ: `count` words are driven. -/
def execPspRead (address : BitVec 16) (count : Nat) (s : State) : Out :=
  ctl (if windowUp s 3 && decide (address.toNat < 4096) then transactionRead 3 (2 * address.toNat) (2 * count) s else s) s

/-! ## BAR2 (R482, Tables 01.10 and 13.9) -/

/-- What the host may do at an offset of a context-0 range: read, write. -/
def ctx0Access (q off : Nat) : Bool × Bool :=
  if off < 0x8000000 then (false, false)
  else if off < 0x13400000 then (true, false)
  else if off < 0x14000000 then (false, false)
  else if off < 0x17C00000 then (true, false)
  else if off < 0x30000000 then (true, true)
  else if off < 0x34000000 then (true, decide (q ≠ 0))
  else (false, false)

/-- What the host may do at a physical address through BAR2. -/
def bar2Access (a : Nat) : Bool × Bool :=
  if !isHbm a then (false, false)
  else if isSoftHbm a then (true, true)
  else ctx0Access (a / 0x3000000000) (a % 0x3000000000 - 0x2FC0000000)

/-- A context-0 access through BAR2 to an address that is not populated is recorded (R46). -/
def bar2Log (a n : Nat) (write : Bool) (s : State) : State :=
  match ((List.range n).map fun i => a + i).find? fun x => !populated x with
  | some x => unpopulatedAt x write s
  | none => s

/-- BAR2_READ: what may not be read reads 0; an uncorrectable word ends the read with Completer Abort. -/
def execBar2Read (port : Fin 2) (addr : BitVec 40) (count : Nat) (s : State) : Out :=
  ctl (let p := port.val
  let a := addr.toNat
  let xs := (List.range count).map fun i => a + i
  let bad := xs.findSome? fun x => if (bar2Access x).1 then ueAt s x 1 else none
  if !windowUp s p then answerRead p (List.replicate count 0xFF) false s
    else
      match bad with
      | some pa => answerRead p [] true (ueFound pa s)
      | none =>
        bar2Log a count false (answerRead p (xs.map fun x => if (bar2Access x).1 then Tab.get 0 s.mem x else 0) false s)) s

/-- BAR2_WRITE: what may not be written is ignored. -/
def execBar2Write (port : Fin 2) (addr : BitVec 40) (data : List Byte) (s : State) : Out :=
  ctl (if !windowUp s port.val then s
    else bar2Log addr.toNat data.length true (((codewords addr.toNat data).filter fun x => (bar2Access x.1).2).foldl
      (fun s x => writeCodewords ueFound x.1 x.2 s) s)) s

/-! ## Out-of-band management (R451 to R453) -/

/-- PLDM_REQUEST_UPDATE: an update of the inactive slot, journalled under session 36. Its answer is SUCCESS, ERROR or
ALREADY_IN_UPDATE_MODE. -/
def execPldmRequestUpdate (image : BitVec 8) (data : List Byte) (s : State) : Out :=
  let k := image.toNat
  let cmd : HostCmd :=
    { opcode := 0x60, gen := 1
      badArgs := fun _ _ => decide (2 < k)
      run := fun _ s =>
        if s.flash.writing.isSome then failWith .badState s
        else if (fwReason s k data).isSome then failWith .authFail s
        else .later (.fwUpdate k (inactiveSlot s k)) (beginFlash k (inactiveSlot s k) data s) }
  let env : Env := ⟨.mgmt, 0, 36, none, 0, s.logs.seq + 1, 0⟩
  if !ctlRuns s || s.dev.romRecovery then .next s
  else
    let (s1, st) := runCmd cmd env (preCheck cmd 1 true false false 0 none env s) false s
    let code : Byte := if st = .accepted then 0 else if s.flash.writing.isSome then 0x81 else 1
    ctl (modDev (fun d => { d with mgmtOut := [code] }) s1) s

/-- A sensor's value: temperatures and power as last measured, a flag of DEV_STATUS, else a free value. -/
def sensorBytes (x : Sensor) (s : State) : List Byte :=
  match x with
  | .hoopJunction h => toLE 1 (junction s h.val)
  | .modulePower => toLE 2 (powerNow s)
  | .statusFlag b => toLE 1 (fld (devStatus s) b.val 1)
  | .hbmStack _ => toLE 1 (freeNat s 18)
  | _ => toLE 2 (freeNat s 18)

/-- PLDM_SENSOR_READ. -/
def execPldmSensorRead (sensor : Sensor) (s : State) : Out :=
  ctl (if ctlRuns s && !s.dev.romRecovery then
      let bs := sensorBytes sensor s
      useFree telemetryFree (modDev (fun d => { d with mgmtOut := bs }) s)
    else s) s

/-- MCTP_EID_ASSIGN: the bus owner gives the EID while the EID of MGMT_ADDR is 0. -/
def execMctpEidAssign (eid : BitVec 8) (s : State) : Out :=
  ctl (if ctlRuns s && !s.dev.romRecovery && decide (s.dev.mgmtAddr.toNat / 256 = 0) then modDev (fun d => { d with eid := eid }) s else s) s

/-! ## What goes on without a command -/

/-- What the controller does while no command comes: the ROM checks a staged image, or a batch goes on. DESIGN CHOICE (log
entry 2). -/
def tick (s : State) : State := if s.dev.romRecovery then recoveryCheck s else batchTick s

end Sys2Proof.Machine
end

