-- ==== Sys2Proof/Machine/Tap.lean ====
section
/-! DEFINITION. The TAP and its instructions, key provisioning, and the zeroising of BBRAM (R498 to R500, R532, R539). -/

namespace Sys2Proof.Machine

/-! ## BBRAM (R499) -/

/-- BBRAM loses its key and check word. The cause is told at once where the controller runs, or at the next boot. -/
def zeroise (cause : Nat) (s : State) : State :=
  let s1 := { s with trust := { s.trust with bbram := none, tamperSeen := true, tamper := some cause } }
  if ctlRuns s then tellTamper s1 else s1

/-- TAMPER_N_LOW: the pin was low for this long; less than 1 µs has no effect. -/
def execTamperNLow (ns : Nat) (s : State) : Out := keepQueue (if 1000 ≤ ns then zeroise 0 s else s) s

/-- VBAT_LOW: VBAT is below its retention limit. -/
def execVbatLow (s : State) : Out := keepQueue (zeroise 2 s) s

/-! ## Instructions (R532, Table 16.7) -/

/-- What the boundary register captures: the levels of the reset pins, HALT_N, ALERT_N, THERMTRIP_N and BOOT_SRC. The spec does
not give its cells: their order is a DESIGN CHOICE, and the other cells are free (log entry 18). -/
def capturedPins (s : State) : BitVec 320 :=
  let p := s.pins
  let known := p.modRstN.toNat + p.warmRstN.toNat * 2 + p.haltN.toNat * 4 + p.alertN.toNat * 8 + p.thermtripN.toNat * 16 +
    p.bootSrc.toNat * 32
  BitVec.ofNat 320 (known + 128 * leNat ((List.range 5).flatMap fun i => toLE 8 (freeNat s i)))

/-- An instruction is loaded; its data register holds `dr` (0 where the bypass register is selected). -/
def setIr (ir : BitVec 8) (dr : BitVec 320) (s : State) : State :=
  if s.pins.aux then modPins (fun p => tapEffect { p with ir := ir, dr := dr }) s else s

/-- TAP_RESET: TRST_N low, or five TCK with TMS high. -/
def execTapReset (s : State) : Out := .next (if s.pins.aux then modPins tapInit s else s)

/-- IDCODE. -/
def execIdcode (s : State) : Out := .next (setIr 0x01 0x1564B0F3 s)

/-- SAMPLE/PRELOAD: the boundary register captures the pins, and its cells take what is shifted in. -/
def execSamplePreload (boundary : List Bool) (s : State) : Out :=
  .next (if s.pins.aux then useFree 5 (modPins (fun p => { p with boundary := boundary }) (setIr 0x02 (capturedPins s) s)) else s)

/-- A boundary test that captures pins: it takes effect while MOD_RST_N is held low, and else acts as BYPASS. -/
def pinTest (ir : BitVec 8) (s : State) : State :=
  if s.pins.modRstN then setIr ir 0 s else useFree 5 (setIr ir (capturedPins s) s)

/-- EXTEST: the boundary cells drive the outputs. -/
def execExtest (s : State) : Out := .next (pinTest 0x03 s)

/-- EXTEST_PULSE: the AC outputs toggle. -/
def execExtestPulse (s : State) : Out := .next (pinTest 0x04 s)

/-- EXTEST_TRAIN: the AC outputs toggle. -/
def execExtestTrain (s : State) : Out := .next (pinTest 0x05 s)

/-- HIGHZ: outputs are high-impedance. -/
def execHighz (s : State) : Out := .next (setIr 0x06 0 s)

/-- CLAMP: the boundary cells drive the outputs, with the bypass register selected. -/
def execClamp (s : State) : Out := .next (setIr 0x07 0 s)

/-- BYPASS, and every value without an instruction. -/
def execBypass (ir : BitVec 8) (s : State) : Out :=
  let listed := [0x01, 0x02, 0x03, 0x04, 0x05, 0x06, 0x07, 0x40].contains ir.toNat
  .next (setIr (if listed then 0xFF else ir) 0 s)

/-! ## KEYPROV (R500, Table 14.8) -/

/-- The status that Capture-DR loads. -/
def keyStatus (s : State) : BitVec 320 :=
  let t := s.trust
  BitVec.ofNat 320 (t.busy.toNat + t.bsk.isSome.toNat * 2 + t.bbram.isSome.toNat * 4 + t.result % 16 * 8 + t.secure.toNat * 128)

/-- Whether KEYPROV works: MOD_RST_N high and the auxiliary rail within limits. -/
def keyServes (s : State) : Bool := s.pins.aux && s.pins.modRstN

/-- KEYPROV_STATUS. -/
def execKeyprovStatus (s : State) : Out :=
  keepQueue (if keyServes s then
      setIr 0x40 (keyStatus s) { s with trust := { s.trust with capture := keyStatus s } }
    else s) s

def keyOk : Nat := 0
def keyBadCheck : Nat := 1
def keyAlready : Nat := 2
def keyRefused : Nat := 3

def setResult (r : Nat) (s : State) : State := { s with trust := { s.trust with result := r } }

/-- The check of KEY, little-endian, against KCHK. -/
def keyChecks (key : BitVec 256) (kchk : BitVec 32) : Bool := decide (crc32c (toLE 32 key.toNat) = kchk.toNat)

/-- KEY_PROVISIONED (Table 14.4). -/
def keyEvent (target mask : Nat) (s : State) : State := raiseBoot 0x0204 0 (toLE 1 target ++ toLE 1 mask) s

/-- FUSE_PROGRAM begins; it ends with FUSE_PROGRAM_DONE. -/
def fuseProgram (key : BitVec 256) (s : State) : State :=
  if s.trust.bsk.isSome then setResult keyAlready s
  else { s with trust := { s.trust with busy := true, pendKey := some key, result := keyOk } }

def bbramWrite (key : BitVec 256) (s : State) : State :=
  keyEvent 1 0 { s with trust := { s.trust with bbram := some key, result := keyOk } }

/-- BBRAM_ZEROISE raises TAMPER for its cause, and KEY_PROVISIONED as each operation does. -/
def bbramZeroise (s : State) : State := keyEvent 1 0 (zeroise 1 (setResult keyOk s))

/-- REVOKE_KEY: refused where no key would remain. -/
def revokeKey (key : BitVec 256) (s : State) : State :=
  let mask : BitVec 4 := key.setWidth 4
  if s.trust.revoked ||| mask = 0xF then setResult keyRefused s
  else keyEvent 2 mask.toNat { s with trust := { s.trust with revoked := s.trust.revoked ||| mask, result := keyOk } }

/-- What the operation of an OP value does; a value without one is REFUSED (Table 14.8). -/
def keyEffect (op : Nat) (key : BitVec 256) (s : State) : State :=
  match op with
  | 0x0 => s
  | 0x1 => fuseProgram key s
  | 0x2 => bbramWrite key s
  | 0x3 => bbramZeroise s
  | 0x4 => revokeKey key s
  | _ => setResult keyRefused s

/-- Update-DR of KEYPROV: the operation that OP names, held while a fuse is being programmed, ended by a KCHK that does not
match. -/
def keyOp (op : Nat) (key : BitVec 256) (kchk : BitVec 32) (s : State) : Out :=
  keepQueue (let s1 := setIr 0x40 s.pins.dr s
  if !keyServes s then s
    else if s.trust.busy then s1
    else if !keyChecks key kchk then setResult keyBadCheck s1
    else keyEffect op key s1) s

/-- KEYPROV_FUSE_PROGRAM. -/
def execKeyprovFuseProgram (key : BitVec 256) (kchk : BitVec 32) (s : State) : Out := keyOp 0x1 key kchk s

/-- FUSE_PROGRAM_DONE. -/
def execFuseProgramDone (s : State) : Out :=
  keepQueue (match s.trust.pendKey with
  | none => s
  | some k =>
    if s.trust.bsk.isSome then s
    else keyEvent 0 0 { s with trust := { s.trust with bsk := some k, busy := false, pendKey := none, result := keyOk } }) s

/-- KEYPROV_BBRAM_WRITE. -/
def execKeyprovBbramWrite (key : BitVec 256) (kchk : BitVec 32) (s : State) : Out := keyOp 0x2 key kchk s

/-- KEYPROV_BBRAM_ZEROISE. -/
def execKeyprovBbramZeroise (key : BitVec 256) (kchk : BitVec 32) (s : State) : Out := keyOp 0x3 key kchk s

/-- KEYPROV_REVOKE_KEY. -/
def execKeyprovRevokeKey (key : BitVec 256) (kchk : BitVec 32) (s : State) : Out := keyOp 0x4 key kchk s

end Sys2Proof.Machine
end

