-- ==== Sys2Proof/Machine/Dispatch.lean ====
section
/-! DEFINITION. One arm per command: the direct call of its meaning. -/

namespace Sys2Proof.Machine

/-- The effect of a command on everything but the queue. -/
def exec (i : Instr) (s : State) : Host.Outcome State Fault Refusal :=
  match i with
  | .deviceInfo h rbuf len => Sys2Proof.Machine.execDeviceInfo h rbuf len s
  | .openSession h gen oflags oldSession => Sys2Proof.Machine.execOpenSession h gen oflags oldSession s
  | .closeSession h => Sys2Proof.Machine.execCloseSession h s
  | .ctxCreate h ctx param => Sys2Proof.Machine.execCtxCreate h ctx param s
  | .ctxDestroy h ctx => Sys2Proof.Machine.execCtxDestroy h ctx s
  | .memMap h ctx mflags count va pa => Sys2Proof.Machine.execMemMap h ctx mflags count va pa s
  | .xlateResolve h ctx faultId => Sys2Proof.Machine.execXlateResolve h ctx faultId s
  | .prickLoad h ctx pflags nsym len addr patch => Sys2Proof.Machine.execPrickLoad h ctx pflags nsym len addr patch s
  | .prickUnload h ctx motif => Sys2Proof.Machine.execPrickUnload h ctx motif s
  | .repeatWrite h hoop first count buf => Sys2Proof.Machine.execRepeatWrite h hoop first count buf s
  | .stitchSet h period atCount => Sys2Proof.Machine.execStitchSet h period atCount s
  | .run h ctx stitches first => Sys2Proof.Machine.execRun h ctx stitches first s
  | .halt h ctx hflags => Sys2Proof.Machine.execHalt h ctx hflags s
  | .evictContext h ctx => Sys2Proof.Machine.execEvictContext h ctx s
  | .evictionScan ctx => Sys2Proof.Machine.execEvictionScan ctx s
  | .scanOut h ctx => Sys2Proof.Machine.execScanOut h ctx s
  | .scanIn h ctx => Sys2Proof.Machine.execScanIn h ctx s
  | .chanCreate h ctx cfl chan ringLog2 ringHoop ringTile sender receiver ringBase peerMod peerChan => Sys2Proof.Machine.execChanCreate h ctx cfl chan ringLog2 ringHoop ringTile sender receiver ringBase peerMod peerChan s
  | .knotInit h ctx count kaddr word => Sys2Proof.Machine.execKnotInit h ctx count kaddr word s
  | .sweepBegin h ctx lrScale step barrier => Sys2Proof.Machine.execSweepBegin h ctx lrScale step barrier s
  | .sweepCommit h ctx sf => Sys2Proof.Machine.execSweepCommit h ctx sf s
  | .sweepRollback h ctx sf => Sys2Proof.Machine.execSweepRollback h ctx sf s
  | .deltaConfigSet h ctx param => Sys2Proof.Machine.execDeltaConfigSet h ctx param s
  | .deltaConfigAck h ctx ring drHead => Sys2Proof.Machine.execDeltaConfigAck h ctx ring drHead s
  | .digestCompare h ctx peer count first => Sys2Proof.Machine.execDigestCompare h ctx peer count first s
  | .peerAnswerTimeout seq => Sys2Proof.Machine.execPeerAnswerTimeout seq s
  | .syncDump h ctx len pa => Sys2Proof.Machine.execSyncDump h ctx len pa s
  | .txnBegin h => Sys2Proof.Machine.execTxnBegin h s
  | .txnCommit h id => Sys2Proof.Machine.execTxnCommit h id s
  | .txnRollback h id => Sys2Proof.Machine.execTxnRollback h id s
  | .cfgGet h item index => Sys2Proof.Machine.execCfgGet h item index s
  | .cfgSet h item index value => Sys2Proof.Machine.execCfgSet h item index value s
  | .cfgPersist h => Sys2Proof.Machine.execCfgPersist h s
  | .journalRead h max fromSeq rbuf => Sys2Proof.Machine.execJournalRead h max fromSeq rbuf s
  | .fwUpdate h image len => Sys2Proof.Machine.execFwUpdate h image len s
  | .attest h len rbuf => Sys2Proof.Machine.execAttest h len rbuf s
  | .telemetry h scope ctx tf len rbuf => Sys2Proof.Machine.execTelemetry h scope ctx tf len rbuf s
  | .debugMode h on => Sys2Proof.Machine.execDebugMode h on s
  | .resetWarm h target => Sys2Proof.Machine.execResetWarm h target s
  | .resetContext h target => Sys2Proof.Machine.execResetContext h target s
  | .resetHoop h target => Sys2Proof.Machine.execResetHoop h target s
  | .batch h bf count buf => Sys2Proof.Machine.execBatch h bf count buf s
  | .pmDoorbell port value => Sys2Proof.Machine.execPmDoorbell port value s
  | .commandRingTail port ring tail => Sys2Proof.Machine.execCommandRingTail port ring tail s
  | .commandRingEnable port ring word => Sys2Proof.Machine.execCommandRingEnable port ring word s
  | .commandRingDisable port ring word => Sys2Proof.Machine.execCommandRingDisable port ring word s
  | .eventRingEnable port word => Sys2Proof.Machine.execEventRingEnable port word s
  | .registerWrite port offset wide value => Sys2Proof.Machine.execRegisterWrite port offset wide value s
  | .cmdAccepted seq => Sys2Proof.Machine.execCmdAccepted seq s
  | .txnTimeout id => Sys2Proof.Machine.execTxnTimeout id s
  | .pushWindowRead port offset wide => Sys2Proof.Machine.execPushWindowRead port offset wide s
  | .pushWindowWrite port offset wide value => Sys2Proof.Machine.execPushWindowWrite port offset wide value s
  | .bspiWrite addr data => Sys2Proof.Machine.execBspiWrite addr data s
  | .bspiRead addr count => Sys2Proof.Machine.execBspiRead addr count s
  | .pspWrite address words => Sys2Proof.Machine.execPspWrite address words s
  | .pspRead address count => Sys2Proof.Machine.execPspRead address count s
  | .bar2Read port addr count => Sys2Proof.Machine.execBar2Read port addr count s
  | .bar2Write port addr data => Sys2Proof.Machine.execBar2Write port addr data s
  | .recoveryDoorbell port value => Sys2Proof.Machine.execRecoveryDoorbell port value s
  | .pldmRequestUpdate image data => Sys2Proof.Machine.execPldmRequestUpdate image data s
  | .pldmSensorRead sensor => Sys2Proof.Machine.execPldmSensorRead sensor s
  | .mgmtAddrApply => Sys2Proof.Machine.execMgmtAddrApply s
  | .stitchBoundary => Sys2Proof.Machine.execStitchBoundary s
  | .stitchSyncOutAssert level => Sys2Proof.Machine.execStitchSyncOutAssert level s
  | .stitchSyncInEdge sinceLastNs offset => Sys2Proof.Machine.execStitchSyncInEdge sinceLastNs offset s
  | .stitchBeacon port count period remaining => Sys2Proof.Machine.execStitchBeacon port count period remaining s
  | .stitchSyncLost => Sys2Proof.Machine.execStitchSyncLost s
  | .thermalEval temps => Sys2Proof.Machine.execThermalEval temps s
  | .powerSample watts => Sys2Proof.Machine.execPowerSample watts s
  | .entryStart hoop entry => Sys2Proof.Machine.execEntryStart hoop entry s
  | .reconfStart hoop entry => Sys2Proof.Machine.execReconfStart hoop entry s
  | .sweepStart hoop entry => Sys2Proof.Machine.execSweepStart hoop entry s
  | .outAtReached hoop entry => Sys2Proof.Machine.execOutAtReached hoop entry s
  | .deadline hoop entry => Sys2Proof.Machine.execDeadline hoop entry s
  | .forcedStopComplete hoop entry => Sys2Proof.Machine.execForcedStopComplete hoop entry s
  | .runComplete hoop entry => Sys2Proof.Machine.execRunComplete hoop entry s
  | .contextTeardown ctx => Sys2Proof.Machine.execContextTeardown ctx s
  | .nop site => Sys2Proof.Machine.execNop site s
  | .skipz site => Sys2Proof.Machine.execSkipz site s
  | .wload site => Sys2Proof.Machine.execWload site s
  | .wloadComplete site => Sys2Proof.Machine.execWloadComplete site s
  | .wskip site => Sys2Proof.Machine.execWskip site s
  | .pass site => Sys2Proof.Machine.execPass site s
  | .passRow site => Sys2Proof.Machine.execPassRow site s
  | .drain site => Sys2Proof.Machine.execDrain site s
  | .drainRow site => Sys2Proof.Machine.execDrainRow site s
  | .mFence site => Sys2Proof.Machine.execMFence site s
  | .vopArith site => Sys2Proof.Machine.execVopArith site s
  | .vopConv site => Sys2Proof.Machine.execVopConv site s
  | .vopTrans site => Sys2Proof.Machine.execVopTrans site s
  | .vopLns site => Sys2Proof.Machine.execVopLns site s
  | .vopCmp site => Sys2Proof.Machine.execVopCmp site s
  | .vopPred site => Sys2Proof.Machine.execVopPred site s
  | .vopRed site => Sys2Proof.Machine.execVopRed site s
  | .vopPerm site => Sys2Proof.Machine.execVopPerm site s
  | .vopCmpx site => Sys2Proof.Machine.execVopCmpx site s
  | .vopInt site => Sys2Proof.Machine.execVopInt site s
  | .vopRand site => Sys2Proof.Machine.execVopRand site s
  | .chain site => Sys2Proof.Machine.execChain site s
  | .vld site => Sys2Proof.Machine.execVld site s
  | .vst site => Sys2Proof.Machine.execVst site s
  | .cload site => Sys2Proof.Machine.execCload site s
  | .cevict site => Sys2Proof.Machine.execCevict site s
  | .qioIn site => Sys2Proof.Machine.execQioIn site s
  | .qioOut site => Sys2Proof.Machine.execQioOut site s
  | .xopSet site => Sys2Proof.Machine.execXopSet site s
  | .xopShlor site => Sys2Proof.Machine.execXopShlor site s
  | .xopIter site => Sys2Proof.Machine.execXopIter site s
  | .xopAdd site => Sys2Proof.Machine.execXopAdd site s
  | .flagrd site => Sys2Proof.Machine.execFlagrd site s
  | .vFence site => Sys2Proof.Machine.execVFence site s
  | .st site => Sys2Proof.Machine.execSt site s
  | .ld site => Sys2Proof.Machine.execLd site s
  | .aadd site => Sys2Proof.Machine.execAadd site s
  | .aswap site => Sys2Proof.Machine.execAswap site s
  | .winArm site => Sys2Proof.Machine.execWinArm site s
  | .winWait site => Sys2Proof.Machine.execWinWait site s
  | .aFence site => Sys2Proof.Machine.execAFence site s
  | .windowToken site window => Sys2Proof.Machine.execWindowToken site window s
  | .sstart site => Sys2Proof.Machine.execSstart site s
  | .swait site => Sys2Proof.Machine.execSwait site s
  | .phaseCompute site => Sys2Proof.Machine.execPhaseCompute site s
  | .phaseOut site => Sys2Proof.Machine.execPhaseOut site s
  | .bFence site => Sys2Proof.Machine.execBFence site s
  | .phaseAdvance hoop entry => Sys2Proof.Machine.execPhaseAdvance hoop entry s
  | .tokenDeliver site port slot ctrl parityOk => Sys2Proof.Machine.execTokenDeliver site port slot ctrl parityOk s
  | .creditReturn site port ctrl => Sys2Proof.Machine.execCreditReturn site port ctrl s
  | .shuttleSelect site => Sys2Proof.Machine.execShuttleSelect site s
  | .shuttleMerge site => Sys2Proof.Machine.execShuttleMerge site s
  | .shuttleFilter site => Sys2Proof.Machine.execShuttleFilter site s
  | .shuttleRepeat site => Sys2Proof.Machine.execShuttleRepeat site s
  | .shuttleCounted site => Sys2Proof.Machine.execShuttleCounted site s
  | .shuttleSpill site => Sys2Proof.Machine.execShuttleSpill site s
  | .gatherContribution site queue => Sys2Proof.Machine.execGatherContribution site queue s
  | .gatherSlotForward site slot => Sys2Proof.Machine.execGatherSlotForward site slot s
  | .knotRequest site binding => Sys2Proof.Machine.execKnotRequest site binding s
  | .knotFill n => Sys2Proof.Machine.execKnotFill n s
  | .knotTake n => Sys2Proof.Machine.execKnotTake n s
  | .knotPeek n => Sys2Proof.Machine.execKnotPeek n s
  | .knotArrive n => Sys2Proof.Machine.execKnotArrive n s
  | .knotDrain n => Sys2Proof.Machine.execKnotDrain n s
  | .knotReply n => Sys2Proof.Machine.execKnotReply n s
  | .knotRetry site binding => Sys2Proof.Machine.execKnotRetry site binding s
  | .channelSend site port => Sys2Proof.Machine.execChannelSend site port s
  | .channelNotify chan => Sys2Proof.Machine.execChannelNotify chan s
  | .channelRecv site port => Sys2Proof.Machine.execChannelRecv site port s
  | .headReturn chan => Sys2Proof.Machine.execHeadReturn chan s
  | .loaderRequest chan => Sys2Proof.Machine.execLoaderRequest chan s
  | .copyRequest chan => Sys2Proof.Machine.execCopyRequest chan s
  | .copyWrite n => Sys2Proof.Machine.execCopyWrite n s
  | .copyDone n => Sys2Proof.Machine.execCopyDone n s
  | .cordonnetTransfer n => Sys2Proof.Machine.execCordonnetTransfer n s
  | .streamIssue site stream => Sys2Proof.Machine.execStreamIssue site stream s
  | .streamReadData site stream => Sys2Proof.Machine.execStreamReadData site stream s
  | .streamWriteAck site stream => Sys2Proof.Machine.execStreamWriteAck site stream s
  | .mergeTimeout site n => Sys2Proof.Machine.execMergeTimeout site n s
  | .requestPromote site n => Sys2Proof.Machine.execRequestPromote site n s
  | .tlbWalk site n => Sys2Proof.Machine.execTlbWalk site n s
  | .peerTokenReceive site n => Sys2Proof.Machine.execPeerTokenReceive site n s
  | .peerTokenSend site out => Sys2Proof.Machine.execPeerTokenSend site out s
  | .accumulateWrite n => Sys2Proof.Machine.execAccumulateWrite n s
  | .directionWrite n => Sys2Proof.Machine.execDirectionWrite n s
  | .hbmPartialWrite n => Sys2Proof.Machine.execHbmPartialWrite n s
  | .serviceWrite addr data => Sys2Proof.Machine.execServiceWrite addr data s
  | .hbmScrub stack finding => Sys2Proof.Machine.execHbmScrub stack finding s
  | .bistWindow store hoop tile finding => Sys2Proof.Machine.execBistWindow store hoop tile finding s
  | .darningOwnBlock ctx hoop => Sys2Proof.Machine.execDarningOwnBlock ctx hoop s
  | .darningReplicaBlock ctx hoop => Sys2Proof.Machine.execDarningReplicaBlock ctx hoop s
  | .darningFrozenBlock ctx hoop => Sys2Proof.Machine.execDarningFrozenBlock ctx hoop s
  | .lambPass2 ctx => Sys2Proof.Machine.execLambPass2 ctx s
  | .sweepRollbackRestore ctx => Sys2Proof.Machine.execSweepRollbackRestore ctx s
  | .deltaRingWrite ctx quarter => Sys2Proof.Machine.execDeltaRingWrite ctx quarter s
  | .deltaInboxReceive ctx => Sys2Proof.Machine.execDeltaInboxReceive ctx s
  | .replicaResync ctx block peer => Sys2Proof.Machine.execReplicaResync ctx block peer s
  | .bobbinPrefetch hoop entry => Sys2Proof.Machine.execBobbinPrefetch hoop entry s
  | .bobbinLoad hoop => Sys2Proof.Machine.execBobbinLoad hoop s
  | .loadCommit hoop => Sys2Proof.Machine.execLoadCommit hoop s
  | .linkTrain port result => Sys2Proof.Machine.execLinkTrain port result s
  | .linkRetrain port cause => Sys2Proof.Machine.execLinkRetrain port cause s
  | .flitReceive port intact seq ack flit => Sys2Proof.Machine.execFlitReceive port intact seq ack flit s
  | .flitReplay port fromSeq => Sys2Proof.Machine.execFlitReplay port fromSeq s
  | .linkDelayMeasure port delay => Sys2Proof.Machine.execLinkDelayMeasure port delay s
  | .linkDiscard n => Sys2Proof.Machine.execLinkDiscard n s
  | .lostNotice ctx => Sys2Proof.Machine.execLostNotice ctx s
  | .hostLinkRetrain hl => Sys2Proof.Machine.execHostLinkRetrain hl s
  | .haltNFall => Sys2Proof.Machine.execHaltNFall s
  | .alertRelease => Sys2Proof.Machine.execAlertRelease s
  | .coldReset => Sys2Proof.Machine.execColdReset s
  | .warmReset cause => Sys2Proof.Machine.execWarmReset cause s
  | .tamperNLow ns => Sys2Proof.Machine.execTamperNLow ns s
  | .vbatLow => Sys2Proof.Machine.execVbatLow s
  | .auxRailLoss => Sys2Proof.Machine.execAuxRailLoss s
  | .dormantEnter => Sys2Proof.Machine.execDormantEnter s
  | .dormantExit => Sys2Proof.Machine.execDormantExit s
  | .inputOvervoltage => Sys2Proof.Machine.execInputOvervoltage s
  | .thermtrip => Sys2Proof.Machine.execThermtrip s
  | .hoopSleepEnter hoop => Sys2Proof.Machine.execHoopSleepEnter hoop s
  | .hoopExit hoop cause => Sys2Proof.Machine.execHoopExit hoop cause s
  | .hoopExitComplete hoop => Sys2Proof.Machine.execHoopExitComplete hoop s
  | .keyprovStatus => Sys2Proof.Machine.execKeyprovStatus s
  | .keyprovFuseProgram key kchk => Sys2Proof.Machine.execKeyprovFuseProgram key kchk s
  | .keyprovBbramWrite key kchk => Sys2Proof.Machine.execKeyprovBbramWrite key kchk s
  | .keyprovBbramZeroise key kchk => Sys2Proof.Machine.execKeyprovBbramZeroise key kchk s
  | .keyprovRevokeKey key kchk => Sys2Proof.Machine.execKeyprovRevokeKey key kchk s
  | .tapReset => Sys2Proof.Machine.execTapReset s
  | .idcode => Sys2Proof.Machine.execIdcode s
  | .samplePreload boundary => Sys2Proof.Machine.execSamplePreload boundary s
  | .extest => Sys2Proof.Machine.execExtest s
  | .extestPulse => Sys2Proof.Machine.execExtestPulse s
  | .extestTrain => Sys2Proof.Machine.execExtestTrain s
  | .highz => Sys2Proof.Machine.execHighz s
  | .clamp => Sys2Proof.Machine.execClamp s
  | .bypass ir => Sys2Proof.Machine.execBypass ir s
  | .haltNRise => Sys2Proof.Machine.execHaltNRise s
  | .resetRelease pin bootSrc => Sys2Proof.Machine.execResetRelease pin bootSrc s
  | .inputWithinLimits => Sys2Proof.Machine.execInputWithinLimits s
  | .chanRingReport chan ringLog2 => Sys2Proof.Machine.execChanRingReport chan ringLog2 s
  | .chanFaulted chan => Sys2Proof.Machine.execChanFaulted chan s
  | .digestExchange ctx peer answers digests => Sys2Proof.Machine.execDigestExchange ctx peer answers digests s
  | .fwUpdateDone => Sys2Proof.Machine.execFwUpdateDone s
  | .fuseProgramDone => Sys2Proof.Machine.execFuseProgramDone s
  | .mctpEidAssign eid => Sys2Proof.Machine.execMctpEidAssign eid s

end Sys2Proof.Machine
end

