-- ==== Sys2Proof/Safety.lean ====
section
/-! DEFINITION. What counts as a safe run, and the terms in which claims are stated. -/

namespace Sys2Proof.Machine

/-- The outcome is a next state that satisfies P. -/
def Answers (o : Host.Outcome State Fault Refusal) (P : State → Prop) : Prop := ∃ t, o = .next t ∧ P t

/-- The fuses of one state are kept by another (R498): a programmed bit-stream key stays, the variant and DEBUG_DISABLE
stay, and no revoked key is restored. -/
def FusesKept (s t : State) : Prop :=
  (∀ k, s.trust.bsk = some k → t.trust.bsk = some k) ∧ t.trust.secure = s.trust.secure ∧
    t.trust.debugOff = s.trust.debugOff ∧ ∀ i, s.trust.revoked.getLsbD i = true → t.trust.revoked.getLsbD i = true

/-- Some ROM firmware key is not revoked (R500). -/
def SomeKeyLeft (s : State) : Prop := s.trust.revoked ≠ 0xF

/-- A safe run of n steps: no step faults or is refused, and blown fuses stay blown. -/
def SafeRun (n : Nat) (s : State) : Prop := Answers (Sys2Proof.core.run n s) (FusesKept s)

/-! ## Host commands -/

/-- The ring that a command comes from. -/
def ringOf (h : Hdr) (s : State) : Ring := ringAt s h.port.val h.ring.val

/-- The session of that ring (R414). -/
def sessionNo (h : Hdr) : Nat := sessionOf h.port.val h.ring.val

/-- The controller takes the command of `h` next: it is READY, the ring has a slot to serve, and no earlier command of the
ring is without a completion (R417). Nothing of R3, R419 and R423 refuses it: the session is open at the command's
generation, the module is not restricted, no reserved bit is set, and the slot's bytes spell no command that Table 12.9
lacks. -/
structure Takes (gen : Nat) (h : Hdr) (s : State) : Prop where
  ready   : s.dev.ready = true
  slot    : ringHas (ringOf h s) = true
  alone   : ringWaits s h.port.val h.ring.val = false
  known   : gen ≤ (ringOf h s).slot.toNat
  opened  : (ringOf h s).opened = true
  allowed : s.dev.restricted = false ∨ gen ≤ 1
  clean   : h.rsv = false
  spelled : slotRefused (headSlot s h.port.val h.ring.val) = none

/-- A command without a transaction tag is taken (R439). -/
structure Untagged (gen : Nat) (h : Hdr) (s : State) : Prop extends Takes gen h s where
  plain : h.txn = false
  noId  : h.txnId = 0

/-- A command tagged with an open transaction of its session is taken (R439). -/
structure Tagged (gen : Nat) (h : Hdr) (x : Txn) (s : State) : Prop extends Takes gen h s where
  tag  : h.txn = true
  held : txnAt s h.txnId.toNat = some x
  mine : x.session = some (sessionNo h)
  idle : x.committing = false

/-- The 24 bytes of the slot from which the command of `h` is taken in `s`, as they stand in `t`. -/
def slotAfter (h : Hdr) (s t : State) : List Byte :=
  let x := ringOf h s
  let off := x.head.toNat % ringSlots x * slotBytes x
  if x.loc then bytesAt (portAt t h.port.val).ringArea off 24 else hostRead t h.port.val (x.base.toNat + off) 24

/-- The command of `h` has ended with a status: its ring's HEAD has advanced over its slot, the slot holds the completion
of Table 12.7, and the journal's newest entry is the command's, final (R417, R420, R444). -/
structure Answered (h : Hdr) (op : Nat) (st : Status) (result : Nat) (s t : State) : Prop where
  head  : (ringOf h t).head = (ringOf h s).head + 1
  bytes : slotAfter h s t = completionBytes t st h.txnId h.tag (s.logs.seq + 1) result
  count : t.logs.seq = s.logs.seq + 1
  entry : t.logs.journal.head? = some
    ⟨s.logs.seq + 1, sessionNo h, op, if op = 0x48 ∧ st = .ok then BitVec.ofNat 16 result else h.txnId, st, true, false, h.tag,
      s.stitch.count, BitVec.ofNat 64 (resultOf st result)⟩

/-- The command of `h` has been taken and its final status comes later: it waits, its slot is not answered, and its
journal entry says ACCEPTED (R418, R444). -/
structure Waits (h : Hdr) (op : Nat) (what : WaitFor) (s t : State) : Prop where
  wait  : t.waits = s.waits ++ [⟨s.logs.seq + 1, .ring h.port.val h.ring.val, op, h.txnId, h.tag, false, what⟩]
  head  : (ringOf h t).head = (ringOf h s).head
  count : t.logs.seq = s.logs.seq + 1
  entry : t.logs.journal.head? = some
    ⟨s.logs.seq + 1, sessionNo h, op, h.txnId, .accepted, false, false, h.tag, s.stitch.count, 0⟩

/-- An outcome in which the command of `h` ends with a status and its result, in a state that satisfies P. -/
def Ends (o : Out) (h : Hdr) (op : Nat) (st : Status) (result : Nat) (s : State) (P : State → Prop) : Prop :=
  ∃ t, o = .next t ∧ Answered h op st result s t ∧ P t

/-- An outcome in which the command of `h` waits, in a state that satisfies P. -/
def Defers (o : Out) (h : Hdr) (op : Nat) (what : WaitFor) (s : State) (P : State → Prop) : Prop :=
  ∃ t, o = .next t ∧ Waits h op what s t ∧ P t

/-- The state in which a taken command is carried out: its journal entry is written (R444). -/
def taken (h : Hdr) (op : Nat) (s : State) : State :=
  journalPut ⟨s.logs.seq + 1, sessionNo h, op, h.txnId, .accepted, false, false, h.tag, s.stitch.count, 0⟩ s

/-- Whether a host address lies in the slot from which the command of `h` is taken. -/
def InSlot (h : Hdr) (s : State) (a : Nat) : Prop :=
  let x := ringOf h s
  let at_ := h.port.val * 2 ^ 64 + (x.base.toNat + x.head.toNat % ringSlots x * slotBytes x)
  x.loc = false ∧ at_ ≤ a ∧ a < at_ + 24

/-- The bytes have been written into a buffer of the command of `h`, and into nothing else of memory; of host memory only
the command's own slot changes beside them (R422). -/
def Filled (h : Hdr) (buf : BitVec 64) (bs : List Byte) (s t : State) : Prop :=
  if bufPush buf then t.mem = putBytes s.mem (pushBase h.port.val + bufOff buf) bs
  else t.mem = s.mem ∧ ∀ a, ¬ InSlot h s a →
    Tab.get 0 t.host a = Tab.get 0 (putBytes s.host (h.port.val * 2 ^ 64 + bufOff buf) bs) a

/-- A buffer that a command may write `bs` to: R422 allows it on the port, and no write of it meets an uncorrectable word. -/
def Fits (h : Hdr) (buf : BitVec 64) (n : Nat) (bs : List Byte) (s : State) : Prop :=
  bufBad h.port.val buf n = false ∧ (bufWrite h.port.val buf bs s).1 = true

/-! ## Other commands -/

/-- An event is raised: it takes the next ESEQ and carries STITCH_COUNT and its payload (R446). -/
def Raised (code ctx : Nat) (bs : List Byte) (s t : State) : Prop :=
  t.logs.eseq = s.logs.eseq + 1 ∧ t.logs.raised = ⟨s.logs.eseq + 1, code, ctx, s.stitch.count, bs⟩ :: s.logs.raised

/-- No event is raised. -/
def NoEvent (s t : State) : Prop := t.logs.eseq = s.logs.eseq ∧ t.logs.raised = s.logs.raised

/-- Memory, tiles, circuits, contexts, channels, prickings, links and what is on its way stay as they are. -/
structure FabricKept (s t : State) : Prop where
  mem    : t.mem = s.mem
  bad    : t.bad = s.bad
  tiles  : t.tiles = s.tiles
  zeros  : t.zeros = s.zeros
  hoops  : t.hoops = s.hoops
  ctxs   : t.ctxs = s.ctxs
  chans  : t.chans = s.chans
  pricks : t.pricks = s.pricks
  net    : t.net = s.net
  tags   : t.tags = s.tags

/-- Transactions, waiting commands, the stitch, links, flash, repairs, fuses and pins stay as they are. -/
structure ControlKept (s t : State) : Prop where
  txns   : t.txns = s.txns
  waits  : t.waits = s.waits
  stitch : t.stitch = s.stitch
  links  : t.links = s.links
  flash  : t.flash = s.flash
  maint  : t.maint = s.maint
  trust  : t.trust = s.trust
  pins   : t.pins = s.pins

/-! ## Steps of tiles -/

/-- The sequencer of a site's tile, of kind `kd`, stands in a run of context c on step `st`; the queues that the step names
hold a sound token each, its outputs hold their credits, its FLOW stays within the program, and it names no queue or output
that a window or the engine of an A tile uses (R98 to R100, R208). -/
structure StandsOn (site : Site) (kd : Kind) (c : Nat) (st : Stp) (s : State) : Prop where
  run   : ∃ r, runOf s (siteNo site) = some r ∧ r.ctx = c
  kind  : kindOf (siteNo site) = kd
  on    : (tileAt s (siteNo site)).seq.on = true
  live  : (tileAt s (siteNo site)).seq.ended = false
  step  : curStep (tileAt s (siteNo site)) = st
  fires : st.flow ≤ 4 ∧ st.flow ≠ 3
  flows : (flowTo (tileAt s (siteNo site)) st).isSome = true
  known : opcKnown kd st.opc = true
  ins   : inReady (tileAt s (siteNo site)) st = true
  outs  : outReady (tileAt s (siteNo site)) st = true
  sound : ∀ q ∈ bitsOf 16 st.inq, headOf (tileAt s (siteNo site)) q ≠ .parity
  alone : kd = .A → stepShares (tileAt s (siteNo site)) st = false

/-- Step `st` of tile k has fired in u, which leaves t: FLOW has acted, each queue that it names has lost its first token,
each output has spent a credit and carries a token, and nothing else has changed (R92, R96, R99, R100). -/
structure Fired (k : Nat) (st : Stp) (u t : State) : Prop where
  seq    : ∀ q, flowTo (tileAt u k) st = some q →
    (tileAt t k).seq = { q with waitIn := (tileAt u k).seq.waitIn, waitCred := (tileAt u k).seq.waitCred }
  queues : ∀ i, qToks (tileAt t k) i = if i ∈ bitsOf 16 st.inq then (qToks (tileAt u k) i).tail else qToks (tileAt u k) i
  dcred  : ∀ o, dCred (tileAt t k) o = dCred (tileAt u k) o - if o ∈ bitsOf 4 st.outd then 1 else 0
  ccred  : ∀ o, cCred (tileAt t k) o = cCred (tileAt u k) o - if o ∈ bitsOf 4 st.outc then 1 else 0
  sentD  : ∀ o ∈ bitsOf 4 st.outd, ∃ a ∈ (hoopAt t (noHoop k)).flight, a.src = k ∧ a.port = o ∧ a.ctrl = false
  sentC  : ∀ o ∈ bitsOf 4 st.outc, ∃ a ∈ (hoopAt t (noHoop k)).flight, a.src = k ∧ a.port = o ∧ a.ctrl = true
  units  : (tileAt t k).m = (tileAt u k).m ∧ (tileAt t k).v = (tileAt u k).v ∧ (tileAt t k).a = (tileAt u k).a ∧
    (tileAt t k).wins = (tileAt u k).wins ∧ (tileAt t k).b = (tileAt u k).b ∧ (tileAt t k).kb = (tileAt u k).kb ∧
    (tileAt t k).cfg = (tileAt u k).cfg ∧ (tileAt t k).prog = (tileAt u k).prog
  others : ∀ j, j ≠ k → tileAt t j = tileAt u j
  hoops  : ∀ h, h ≠ noHoop k → hoopAt t h = hoopAt u h
  table  : (hoopAt t (noHoop k)).table = (hoopAt u (noHoop k)).table ∧ (hoopAt t (noHoop k)).runs = (hoopAt u (noHoop k)).runs
  mem    : t.mem = u.mem
  ctxs   : t.ctxs = u.ctxs
  chans  : t.chans = u.chans
  logs   : t.logs = u.logs
  dev    : t.dev = u.dev

/-- A step's unit has taken its operation, which makes s into u, and the step fires; with END it fires only under the
condition of FENCE, and stays current until then (R124). -/
def Accepts (o : Out) (kd : Kind) (k : Nat) (st : Stp) (s u : State) : Prop :=
  ∃ t, o = .next t ∧
    if st.flow = 4 then (if fenceOk (tileAt u k) kd then Fired k st (issueMark k u) t else t = groundPart s (issueMark k u))
    else Fired k st u t

/-! ## Contexts -/

/-- A context that has been torn down with a code: FAULTED, no RUN pending, the code latched and its tear-down done, and the
newest event, after those that the tear-down raises before it, is its CTX_FAULT with the record of the latch (R325). -/
def TornDown (c : Nat) (code : FaultCode) (s t : State) : Prop :=
  (ctxAt t c).st = .faulted ∧ (ctxAt t c).runPend = none ∧
    ∃ l, (ctxAt t c).latched = some l ∧ l.code = code ∧ l.done = true ∧
      ∃ e es, t.logs.raised = e :: es ++ s.logs.raised ∧ e.code = 0x0005 ∧ e.ctx = c ∧ e.payload = faultFields l

/-- A context without images, channels, runs and repeat-table entries, and that no column of a Hoop records (R327). -/
structure Unloaded (c : Nat) (t : State) : Prop where
  images  : (ctxAt t c).images = []
  chans   : ∀ p ∈ t.chans, p.2.ctx ≠ c
  runs    : ∀ h < 8, ∀ r ∈ (hoopAt t h).runs, r.ctx ≠ c
  entries : ∀ h < 8, ∀ p ∈ (hoopAt t h).table, enCtx p.2.toNat ≠ c
  columns : ∀ h < 8, ∀ p ∈ (hoopAt t h).motifs, p.2.1 ≠ c

/-- A byte of a Hoop's on-chip stores but its weight store: its A tiles, partial sums and operand caches (Table 01.8). -/
def onChip (h a : Nat) : Bool :=
  (decide (0xC400000000 + h * 0x10000000 ≤ a) && decide (a < 0xC400000000 + (h + 1) * 0x10000000)) ||
    (decide (0xC500000000 + h * 0x4000000 ≤ a) && decide (a < 0xC500000000 + (h + 1) * 0x4000000)) ||
    (decide (0xC580000000 + h * 0x1000000 ≤ a) && decide (a < 0xC580000000 + (h + 1) * 0x1000000))

/-! ## Boundaries -/

/-- The item i at index n took the value v in t, where it was in s: CTX_TRAP, a subscription half, a relocation, sync or Darning
register reads as v, and the bits of CTX_FLAGS that v names are cleared (R435, Table 12.13). -/
def ItemTook (i n : Nat) (v : BitVec 64) (s t : State) : Prop :=
  ∀ c wd, itemLoc i n = some (c, wd) →
    (i = 0x01 → (ctxAt t c).trap = BitVec.ofNat 6 v.toNat) ∧
    (i = 0x02 → (ctxAt t c).flags = (ctxAt s c).flags &&& ~~~BitVec.ofNat 6 v.toNat) ∧
    (i = 0x10 ∨ i = 0x11 ∨ i = 0x12 ∨ i = 0x14 → regOf t i c wd = v.toNat % 2 ^ 32) ∧
    (i = 0x13 ∨ i = 0x15 → regOf t i c wd = v.toNat) ∧
    (i = 0x20 → dnReg t c wd = v.toNat) ∧
    (i = 0x30 ∨ i = 0x31 → getItem t i 0 wd = v.toNat)

/-- A boundary whose waiting command has left u ends in t: RUN counts go on and Hoops may enter Rest, and all else of the module
is as in u (R317, R505). -/
structure Bounded (u t : State) : Prop where
  ctxs   : t.ctxs = (runCounts u).ctxs
  hoops  : ∀ h, { hoopAt t h with power := .on } = { hoopAt u h with power := .on }
  waits  : t.waits = u.waits
  txns   : t.txns = (runCounts u).txns
  mem    : t.mem = u.mem
  tiles  : t.tiles = u.tiles
  chans  : t.chans = u.chans
  stitch : t.stitch = u.stitch
  links  : t.links = u.links
  net    : t.net = u.net
  dev    : t.dev = u.dev

/-! ## Knots, channels, links -/

/-- A fault with this code is latched for a context that had none (R326). -/
def Latches (c : Nat) (code : FaultCode) (s t : State) : Prop :=
  (ctxAt s c).latched = none → ∃ l, (ctxAt t c).latched = some l ∧ l.code = code ∧ l.extra = 0 ∧ l.done = false

/-- The n-th request on its way is next at the port of its knot, whose word can be read; it comes from binding b of this
module's tile k, and the clock of the knot's Hoop runs (R27, R275, R506). -/
structure KnotNext (n : Nat) (r : KnotReq) (k b : Nat) (s : State) : Prop where
  req   : s.net.reqs[n]? = some r
  first : ∀ x ∈ s.net.reqs.take n, reqSource x = reqSource r → knotPort x.pa ≠ knotPort r.pa
  sound : ueAt s r.pa 8 = none
  ram   : isPs r.pa = false
  own   : r.fromMod = ownId s
  awake : asleepAt s r.pa = none
  who   : r.who = some (k, b)

/-- Write w is the next to reach its controller of those that take the way of the n-th write on its way (R27). -/
def ArrivesNext (n : Nat) (w : HbmWrite) (s : State) : Prop := (s.net.writes[n]?).bind (firstOnWay s) = some w

/-- Command c serves write w, in u, of which P holds; whole codewords behind it on its way follow (R27, R245). -/
def Arrives (c : Instr) (w : HbmWrite) (s : State) (P : State → Prop) : Prop :=
  ∃ u, exec c s = .next (settleWay w u.net.writes.length u) ∧
    u.net.writes = (s.net.writes.map fun x => if x.wid = w.wid then { x with done := true } else x) ∧ P u

/-- A knot operation has been served: its request is gone, its word is v, and nothing else of memory, no queue and no
channel has changed. -/
structure KnotServed (n : Nat) (pa v : Nat) (s t : State) : Prop where
  reqs  : t.net.reqs = s.net.reqs.eraseIdx n
  mem   : t.mem = putBytes s.mem pa (toLE 8 v)
  queue : ∀ k q, qToks (tileAt t k) q = qToks (tileAt s k) q
  chans : t.chans = s.chans

/-- A knot whose word becomes v, full: the waiting PEEKs before the first waiting TAKE are answered with its VALUE, and so is
that TAKE, which empties it; the others keep waiting (R270). -/
def KnotFilled (n pa v : Nat) (s t : State) : Prop :=
  let ws := waitersAt s pa
  let now := ws.takeWhile (fun x => decide (x.op ≠ 1)) ++ (ws.dropWhile fun x => decide (x.op ≠ 1)).take 1
  let took := ws.any fun x => decide (x.op = 1)
  t.net.reqs = s.net.reqs.eraseIdx n ∧
  t.mem = (if took then putBytes (putBytes s.mem pa (toLE 8 v)) pa (toLE 8 (setFld (setFld v 63 1 0) 24 16 0))
    else putBytes s.mem pa (toLE 8 v)) ∧
  waitersAt t pa = ws.drop now.length ∧
  ((∀ x ∈ ws, x.fromMod = ownId s) →
    t.net.reps.map (fun p => (p.site, p.binding, p.value, p.retry)) =
      s.net.reps.map (fun p => (p.site, p.binding, p.value, p.retry)) ++
      now.map fun x => (x.site, x.binding, BitVec.ofNat 24 (fld v 0 24), false))

/-- Port p of a border tile in a run is set to send to channel n, or to receive from it, and the channel's endpoint is the
port (R283). -/
structure PortOn (recv : Bool) (site : Site) (p : Fin 4) (n : Nat) (st : ChanState) (s : State) : Prop where
  run   : ∃ r, runOf s (siteNo site) = some r ∧ (chanAt s n).ctx = r.ctx
  kind  : kindOf (siteNo site) = .B
  on    : bitAt (cpReg (tileAt s (siteNo site)) p.val) 0 = true
  way   : bitAt (cpReg (tileAt s (siteNo site)) p.val) 1 = recv
  chan  : fld (cpReg (tileAt s (siteNo site)) p.val) 6 12 = n
  half  : (if recv then hasReceiver (chanAt s n) else hasSender (chanAt s n)) = true
  ends  : (if recv then (chanAt s n).receiver else (chanAt s n).sender).toNat = endpointOf (siteNo site) p.val
  state : (chanAt s n).st = st

/-! ## Engines of the training service -/

/-- Steps of an engine or the controller end with a result, in u. -/
def Does {α : Type} (x : Eng α) (s : State) (a : α) (u : State) : Prop := x.run s = (.ok a, u)

/-- The Darning engine of a Hoop takes block b with descriptor d for a context: the sweep is OPEN, a SWEEP entry is in
progress, no fault is latched, fewer than eight of its blocks are in flight, the barrier has been full, which leaves u, and b is
the engine's next block (R311, R351, R352). -/
structure EngineOn (c h b d : Nat) (s u : State) : Prop where
  opened  : (sweepAt s c).st = .opened
  sound   : (ctxAt s c).latched = none
  power   : (hoopAt s h).power = .on
  going   : ∃ r ∈ (hoopAt s h).runs, r.stage = .sweeping ∧ r.ctx = c
  room    : ((inFlight s c).filter fun p => p.2 = h).length < 8
  barrier : Does (barrierFull c h) s true u
  next    : Does (nextBlock c h) u (some (b, d)) u

/-- A processed block with no record to write is swept and finished, and counted; one with a record joins its ring's queue
(R353, R356, R366). -/
def BlockEnds (c q b : Nat) (s t : State) : Prop :=
  b ∈ (sweepAt t c).swept ∧
  if wantsRecord s c q then (∃ r, queued t c q = queued s c q ++ [r] ∧ r.2.1 = b) ∧ (ctxAt t c).cntBlocks = (ctxAt s c).cntBlocks
  else b ∈ (sweepAt t c).done ∧ (ctxAt t c).cntBlocks = satAdd 32 (ctxAt s c).cntBlocks 1

/-! ## Groups of commands -/

/-- The commands of the ground, its engines, its controllers and the links among its agents, but for TOKEN_DELIVER, which can
meet a case that is undefined for the module (R90, R404). -/
def groundCommand : Instr → Bool
  | .entryStart .. | .reconfStart .. | .sweepStart .. | .outAtReached .. | .deadline .. | .forcedStopComplete .. |
    .runComplete .. | .nop .. | .skipz .. | .wload .. | .wloadComplete .. | .wskip .. | .pass .. | .passRow .. |
    .drain .. | .drainRow .. | .mFence .. | .vopArith .. | .vopConv .. | .vopTrans .. | .vopLns .. | .vopCmp .. |
    .vopPred .. | .vopRed .. | .vopPerm .. | .vopCmpx .. | .vopInt .. | .vopRand .. | .chain .. | .vld .. | .vst .. |
    .cload .. | .cevict .. | .qioIn .. | .qioOut .. | .xopSet .. | .xopShlor .. | .xopIter .. | .xopAdd .. | .flagrd .. |
    .vFence .. | .st .. | .ld .. | .aadd .. | .aswap .. | .winArm .. | .winWait .. | .aFence .. | .windowToken .. |
    .sstart .. | .swait .. | .phaseCompute .. | .phaseOut .. | .bFence .. | .phaseAdvance .. |
    .creditReturn .. | .shuttleSelect .. | .shuttleMerge .. | .shuttleFilter .. | .shuttleRepeat .. |
    .shuttleCounted .. | .shuttleSpill .. | .gatherContribution .. | .gatherSlotForward .. | .knotRequest .. |
    .knotFill .. | .knotTake .. | .knotPeek .. | .knotArrive .. | .knotDrain .. | .knotReply .. | .knotRetry .. |
    .channelSend .. | .channelNotify .. | .channelRecv .. | .headReturn .. | .loaderRequest .. | .copyRequest .. |
    .copyWrite .. | .copyDone .. | .cordonnetTransfer .. | .streamIssue .. | .streamReadData .. | .streamWriteAck .. |
    .mergeTimeout .. | .requestPromote .. | .tlbWalk .. | .peerTokenReceive .. | .peerTokenSend .. |
    .accumulateWrite .. | .directionWrite .. | .hbmPartialWrite .. | .serviceWrite .. | .hbmScrub .. |
    .darningOwnBlock .. | .darningReplicaBlock .. | .darningFrozenBlock .. | .lambPass2 .. | .deltaRingWrite .. |
    .deltaInboxReceive .. | .replicaResync .. | .linkTrain .. | .flitReceive .. | .flitReplay .. | .linkDiscard .. |
    .lostNotice .. | .chanRingReport .. | .chanFaulted .. => true
  | _ => false

/-- The commands of the pins, the TAP, the resets and the host window, and the end of an image's write, at which ROM recovery
boots. -/
def outerCommand : Instr → Bool
  | .pmDoorbell .. | .commandRingTail .. | .commandRingEnable .. | .commandRingDisable .. | .eventRingEnable .. |
    .registerWrite .. | .pushWindowWrite .. | .bspiWrite .. | .pspWrite .. | .recoveryDoorbell .. | .haltNFall .. |
    .alertRelease .. | .coldReset .. | .warmReset .. | .tamperNLow .. | .vbatLow .. | .auxRailLoss .. |
    .dormantEnter .. | .dormantExit .. | .inputOvervoltage .. | .thermtrip .. | .keyprovStatus .. |
    .keyprovFuseProgram .. | .keyprovBbramWrite .. | .keyprovBbramZeroise .. | .keyprovRevokeKey .. | .tapReset .. |
    .idcode .. | .samplePreload .. | .extest .. | .extestPulse .. | .extestTrain .. | .highz .. | .clamp .. |
    .bypass .. | .haltNRise .. | .resetRelease .. | .inputWithinLimits .. | .fuseProgramDone .. |
    .fwUpdateDone .. => true
  | _ => false

end Sys2Proof.Machine
end

