-- ==== Sys2Proof/Certificates/Slice0/Obligations.lean ====
section
/-! DEFINITION. The statements for the provers. -/

open Sys2Proof Sys2Proof.Machine

/-- Completion of deviceInfo, journalRead, attest and telemetry: DEVICE_INFO, JOURNAL_READ, ATTEST and TELEMETRY complete
with OK, and their buffer holds what R425, R445, R432 and R450 say, whatever form the buffer has. The model's choices
(log entry 13): JOURNAL_READ leaves out its own entry and gives first SEQ 0 when it writes none, and DEVICE_INFO writes
the smaller of LEN and 512 bytes. -/
def Obligations.ReadingCommandsFillTheirBuffer : Prop :=
  (∀ (h : Hdr) (rbuf : BitVec 64) (len : BitVec 32) (s : State), Untagged 1 h s →
    let bs := (infoBlock (taken h 0x01 s)).take len.toNat
    Fits h rbuf len.toNat bs s →
    Ends (exec (.deviceInfo h rbuf len) s) h 0x01 .ok bs.length s (Filled h rbuf bs s)) ∧
  (∀ (h : Hdr) (max : BitVec 16) (fromSeq : BitVec 48) (rbuf : BitVec 64) (s : State), Untagged 1 h s →
    let es := ((s.logs.journal.take 8191).reverse.filter fun x =>
      decide (fromSeq.toNat ≤ x.seq) && decide (x.seq ≠ s.logs.seq + 1)).take max.toNat
    let bs := es.flatMap entryBytes
    Fits h rbuf (32 * max.toNat) bs s →
    Ends (exec (.journalRead h max fromSeq rbuf) s) h 0x58 .ok (es.length + ((es.head?.map (·.seq)).getD 0) * 2 ^ 16) s
      (Filled h rbuf bs s)) ∧
  (∀ (h : Hdr) (len : BitVec 32) (rbuf : BitVec 64) (nonce : List Byte) (s : State), Untagged 1 h s → reportLen s ≤ len.toNat →
    bufRead h.port.val rbuf 32 s = .ok nonce →
    let bs := attestReport (taken h 0x61 s) nonce
    Fits h rbuf len.toNat bs s →
    Ends (exec (.attest h len rbuf) s) h 0x61 .ok (reportLen s) s (Filled h rbuf bs s)) ∧
  (∀ (h : Hdr) (scope ctx tf : BitVec 8) (len : BitVec 32) (rbuf : BitVec 64) (s : State), Untagged 1 h s →
    scope.toNat ≤ 1 → tf.toNat ≤ 1 → 32 ≤ len.toNat →
    (scope = 1 → badCtx ctx = false ∧ ctxSt s ctx.toNat ≠ .free) →
    let u := taken h 0x62 s
    let xs := telemetryItems u scope.toNat ctx.toNat
    let bs := (dumpBytes u (if scope = 1 then ctx.toNat else 0) len.toNat xs).1
    Fits h rbuf len.toNat bs s →
    Ends (exec (.telemetry h scope ctx tf len rbuf) s) h 0x62 .ok bs.length s fun t => Filled h rbuf bs s t ∧
      (tf = 0 → t.tiles = s.tiles ∧ t.links = s.links) ∧
      (tf = 1 → ∀ p, (∃ x ∈ heldItems u len.toNat xs, x.kind = 0x12 ∧ leNat (x.fields.take 1) = p) →
        (linkAt t p).sent = 0 ∧ (linkAt t p).recv = 0 ∧ (linkAt t p).retrains = 0))

/-- Completion of openSession and closeSession: OPEN makes the ring's session open at the generation asked for and returns
its number with the journal's SEQ; CLOSE rolls back the session's open transactions and closes it (R419). Completion of
txnBegin, txnCommit and txnRollback: TXN_BEGIN opens an empty transaction for its session under an id that no other
holds; TXN_COMMIT makes it committing and waits for its boundary; TXN_ROLLBACK discards it (R439, R442, R443).
Completion of cfgGet, cfgSet and cfgPersist: CFG_GET returns the value in force; CFG_SET of an item of Table 12.13
without a tag applies at once or waits for the boundary; CFG_PERSIST writes the items and repairs to flash with their
check word and clears CFG_DEFAULTED (R435, R436, R448); that it writes the block at once, with MODULE_ID and MGMT_ADDR
as last set, is the model's choice (log entry 13). Completion of fwUpdate, debugMode and resetWarm: FW_UPDATE begins the
write of an image that verifies into the slot that does not run; DEBUG_MODE waits for the boundary, at which debug mode
is as asked; RESET with SCOPE WARM completes and asks for the warm reset (R430, R431, R433, R488). -/
def Obligations.SessionsTransactionsAndItemsAct : Prop :=
  ((∀ (h : Hdr) (gen oflags old : BitVec 8) (s : State),
     s.dev.ready = true → ringHas (ringOf h s) = true → ringWaits s h.port.val h.ring.val = false → h.rsv = false →
     slotRefused (headSlot s h.port.val h.ring.val) = none → h.txn = false → h.txnId = 0 → 1 ≤ (ringOf h s).slot.toNat → oflags.toNat ≤ 1 → (oflags.getLsbD 0 = true → old.toNat ≤ 31) →
     1 ≤ gen.toNat → gen.toNat ≤ 3 → bitAt (mbGens s) (gen.toNat - 1) = true → (ringOf h s).slot.toNat = gen.toNat →
     ((ringOf h s).opened = true → oflags.getLsbD 0 = true) →
     Ends (exec (.openSession h gen oflags old) s) h 0x02 .ok (sessionNo h + (s.logs.seq + 1) * 2 ^ 16) s fun t =>
       (ringOf h t).opened = true ∧ (ringOf h t).gen = gen.toNat ∧
       (oflags.getLsbD 0 = false → t.txns = s.txns) ∧
       (oflags.getLsbD 0 = true → ∀ x ∈ s.txns, x.session = some old.toNat → x.owner = old.toNat → x.committing = false →
         ∃ y ∈ t.txns, y.id = x.id ∧ y.session = some (sessionNo h) ∧ y.staged = x.staged)) ∧
   (∀ (h : Hdr) (s : State), Untagged 1 h s → (s.txns.map (·.id)).Nodup →
     Ends (exec (.closeSession h) s) h 0x03 .ok 0 s fun t =>
       (ringOf h t).opened = false ∧
       t.txns = s.txns.filter fun x => !(decide (x.session = some (sessionNo h)) && !x.committing))) ∧
  ((∀ (h : Hdr) (s : State), Untagged 2 h s → s.txns.length < txnLimit →
     ∃ id, 1 ≤ id ∧ id ≤ 65535 ∧ txnAt s id = none ∧
       Ends (exec (.txnBegin h) s) h 0x48 .ok id s fun t => t.txns = s.txns ++ [⟨id, some (sessionNo h), sessionNo h, false, 0, [], [], false⟩]) ∧
   (∀ (h : Hdr) (id : BitVec 16) (x : Txn) (s : State), Untagged 2 h s → txnAt s id.toNat = some x →
     x.session = some (sessionNo h) → x.committing = false → atPassed s x = false →
     Defers (exec (.txnCommit h id) s) h 0x49 (.commit id.toNat) s fun t =>
       txnAt t id.toNat = some { x with committing := true, commitSeq := s.logs.seq + 1 } ∧
       ∀ j, j ≠ id.toNat → txnAt t j = txnAt s j) ∧
   (∀ (h : Hdr) (id : BitVec 16) (x : Txn) (s : State), Untagged 2 h s → (s.txns.map (·.id)).Nodup →
     txnAt s id.toNat = some x → x.session = some (sessionNo h) → x.committing = false →
     Ends (exec (.txnRollback h id) s) h 0x4A .ok 0 s fun t =>
       t.txns = s.txns.filter fun y => decide (y.id ≠ id.toNat))) ∧
  ((∀ (h : Hdr) (item : BitVec 16) (index : BitVec 32) (c i : Nat) (s : State), Untagged 2 h s →
     (itemTxn item.toNat).isSome = true → itemLoc item.toNat index.toNat = some (c, i) → (c ≠ 0 → ctxSt s c ≠ .free) →
     Ends (exec (.cfgGet h item index) s) h 0x50 .ok (getItem s item.toNat c i) s fun t =>
       t.ctxs = s.ctxs ∧ t.hoops = s.hoops ∧ t.stitch = s.stitch ∧ t.links = s.links) ∧
   (∀ (h : Hdr) (v : BitVec 64) (s : State), Untagged 2 h s →
     (v.toNat < 2 → Ends (exec (.cfgSet h 0x41 0 v) s) h 0x51 .ok 0 s fun t => t.dev.options = v) ∧
     (v.toNat < 2 ^ 14 → Ends (exec (.cfgSet h 0x42 0 v) s) h 0x51 .ok 0 s fun t =>
       t.dev.nextModuleId = some (BitVec.ofNat 14 v.toNat) ∧ t.dev.moduleId = s.dev.moduleId) ∧
     (v.toNat < 2 ^ 16 → v.getLsbD 7 = false → Ends (exec (.cfgSet h 0x43 0 v) s) h 0x51 .ok 0 s fun t =>
       t.dev.nextMgmt = some (BitVec.ofNat 16 v.toNat) ∧ t.dev.mgmtAddr = s.dev.mgmtAddr)) ∧
   (∀ (h : Hdr) (item : BitVec 16) (index : BitVec 32) (v : BitVec 64) (c i : Nat) (s : State), Untagged 2 h s →
     itemTxn item.toNat = some .optional → itemLoc item.toNat index.toNat = some (c, i) →
     valueFits s item.toNat i v.toNat = true → (c ≠ 0 → ctxSt s c ≠ .free) →
     Defers (exec (.cfgSet h item index v) s) h 0x51 (.item item.toNat index.toNat v) s fun t =>
       t.ctxs = s.ctxs ∧ t.hoops = s.hoops ∧ t.stitch = s.stitch ∧ t.links = s.links) ∧
   (∀ (h : Hdr) (s : State), Untagged 2 h s →
     Ends (exec (.cfgPersist h) s) h 0x52 .ok (blockCheck (runningBlock s)) s fun t =>
       t.flash = { s.flash with block := runningBlock s } ∧ t.dev.cfgDefaulted = false)) ∧
  ((∀ (h : Hdr) (image : BitVec 8) (len : BitVec 32) (img : List Byte) (s : State), Untagged 1 h s → image.toNat ≤ 2 →
     len.toNat ≤ 0x800000 → s.flash.writing = none → bufRead h.port.val (1#64 <<< 63) len.toNat s = .ok img →
     fwReason s image.toNat img = none →
     let slot := inactiveSlot s image.toNat
     Defers (exec (.fwUpdate h image len) s) h 0x60 (.fwUpdate image.toNat slot) s fun t =>
       t.flash.writing = some (image.toNat, slot) ∧ fwSlotAt t image.toNat slot = ⟨0, img.take (fwLen img)⟩ ∧
       ∀ k, k ≠ 2 * image.toNat + slot → Tab.get FwSlot.reset t.flash.slots k = Tab.get FwSlot.reset s.flash.slots k) ∧
   (∀ (h : Hdr) (on : BitVec 8) (s : State), Untagged 2 h s → s.trust.secure = false → s.trust.debugOff = false → on.toNat ≤ 1 →
     Defers (exec (.debugMode h on) s) h 0x68 (.debug (decide (on = 1))) s fun t => t.dev.debug = s.dev.debug ∧
       (stitching s = true → s.waits = [] → (∀ h < 8, (hoopAt s h).loads = []) → s.stitch.placed = none →
         ∃ v, exec .stitchBoundary t = .next v ∧ v.waits = [] ∧ v.dev = { t.dev with debug := decide (on = 1) } ∧ v.mem = t.mem)) ∧
   (∀ (h : Hdr) (target : BitVec 8) (s : State), Untagged 1 h s →
     Ends (exec (.resetWarm h target) s) h 0x70 .ok 0 s fun t => t.dev.warmAsked = true))

/-- Completion of ctxCreate, run, evictContext and scanIn: CTX_CREATE is taken with its parameter block, and the next stitch
boundary makes the context IDLE with the block's registers; RUN makes a RUN pending; EVICT_CONTEXT makes the context
EVICTING and drops its pending RUN; SCAN_IN arms its images and makes it IDLE; other contexts keep everything (R317,
R320, R323, R434). Completion of halt and contextTeardown: HALT stops an ACTIVE or EVICTING context with HALTED, raises
CTX_FAULT with that code and makes it FAULTED, and leaves every other as it is where no write of another is on its way
and no RUN of another ends; with CTX 0xFF it does so to each; CONTEXT_TEARDOWN does the same for a fault that is
latched, whose code stays (R318, R325). -/
def Obligations.ContextsRunHaltAndTearDown : Prop :=
  ((∀ (h : Hdr) (ctx : BitVec 8) (param : BitVec 64) (bs : List Byte) (s : State), Untagged 2 h s → badCtx ctx = false →
     bufBad h.port.val param 256 = false → bufRead h.port.val param 256 s = .ok bs → blockFits s ctx.toNat bs = true →
     ctxSt s ctx.toNat = .free → (∀ w ∈ s.waits, ∀ b, w.what ≠ .ctxCreate ctx.toNat b) →
     Defers (exec (.ctxCreate h ctx param) s) h 0x10 (.ctxCreate ctx.toNat bs) s fun t => t.ctxs = s.ctxs ∧ t.mem = s.mem ∧
       (stitching s = true → s.waits = [] → (∀ h < 8, (hoopAt s h).loads = []) → s.stitch.placed = none →
         ∃ v, exec .stitchBoundary t = .next v ∧ v.waits = [] ∧ (ctxAt v ctx.toNat).st = .idle ∧
           (ctxAt v ctx.toNat).srSeed = BitVec.ofNat 64 (leNat (bs.take 8)) ∧
           (ctxAt v ctx.toNat).trap = BitVec.ofNat 6 (leNat ((bs.drop 8).take 4)) ∧
           (ctxAt v ctx.toNat).relocHbm = BitVec.ofNat 64 (leNat ((bs.drop 0x10).take 8)) ∧ (ctxAt v ctx.toNat).tables = [])) ∧
   (∀ (h : Hdr) (ctx : BitVec 8) (stitches : BitVec 32) (first : BitVec 64) (s : State), Untagged 2 h s → badCtx ctx = false →
     (s.dev.unqualified = false ∨ s.dev.options.getLsbD 0 = true) → (first ≠ 0 → s.stitch.count.toNat < first.toNat) →
     (ctxSt s ctx.toNat = .idle ∨ ctxSt s ctx.toNat = .active) → s.pins.haltN = true →
     Ends (exec (.run h ctx stitches first) s) h 0x28 .ok 0 s fun t =>
       ctxAt t ctx.toNat = { ctxAt s ctx.toNat with
         runPend := if ctxSt s ctx.toNat = .idle ∧ stitches = 0 then none else some (stitches, first, false) } ∧
       ∀ c, c ≠ ctx.toNat → ctxAt t c = ctxAt s c) ∧
   (∀ (h : Hdr) (ctx : BitVec 8) (s : State), Untagged 2 h s → badCtx ctx = false →
     (ctxSt s ctx.toNat = .idle ∨ ctxSt s ctx.toNat = .active) → (sweepAt s ctx.toNat).st = .none →
     Defers (exec (.evictContext h ctx) s) h 0x2A (.evict ctx.toNat) s fun t =>
       ctxAt t ctx.toNat = { ctxAt s ctx.toNat with st := .evicting, runPend := none } ∧
       ∀ c, c ≠ ctx.toNat → ctxAt t c = ctxAt s c) ∧
   (∀ (h : Hdr) (ctx : BitVec 8) (s : State), Untagged 2 h s → badCtx ctx = false →
     (ctxSt s ctx.toNat = .idle ∨ ctxSt s ctx.toNat = .evicted) →
     Ends (exec (.scanIn h ctx) s) h 0x2C .ok 0 s fun t =>
       (ctxAt t ctx.toNat).st = .idle ∧
       (ctxAt t ctx.toNat).images = ((ctxAt s ctx.toNat).images.map fun (h, c0, c1, m, armed, post) => (h, c0, c1, m, armed || !post, post)) ∧
       ∀ c, c ≠ ctx.toNat → ctxAt t c = ctxAt s c)) ∧
  ((∀ (h : Hdr) (ctx hflags : BitVec 8) (s : State), Untagged 1 h s → badCtx ctx = false → hflags.toNat ≤ 1 →
     haltable s ctx.toNat = true →
     (hflags = 1 → scanFits (landAll (regionsOf s ctx.toNat) (taken h 0x29 s)) (regionsOf s ctx.toNat) = true) →
     ∃ t, exec (.halt h ctx hflags) s = .next t ∧ TornDown ctx.toNat .halted s t ∧
       ((∀ w ∈ s.net.writes, w.ctx = ctx.toNat) → (∀ d, d ≠ ctx.toNat → (ctxAt s d).ending = false) →
         ∀ d, d ≠ ctx.toNat → ctxAt t d = ctxAt s d)) ∧
   (∀ (h : Hdr) (hflags : BitVec 8) (s : State), Untagged 1 h s → hflags.toNat ≤ 1 → s.net.writes = [] →
     (∀ c, (ctxAt s c).ending = false) →
     (hflags = 1 → scanFits (landAll ((softCtxs.filter (haltable s)).flatMap (regionsOf s)) (taken h 0x29 s))
       ((softCtxs.filter (haltable s)).flatMap (regionsOf s)) = true) →
     ∃ t, exec (.halt h 0xFF hflags) s = .next t ∧
       ∀ c ∈ softCtxs, haltable s c = true → (ctxAt t c).st = .faulted ∧ (ctxAt t c).runPend = none ∧
         ∃ l, (ctxAt t c).latched = some l ∧ l.code = .halted ∧ l.done = true) ∧
   (∀ (h : Hdr) (ctx hflags : BitVec 8) (s : State), Untagged 1 h s → (badCtx ctx = false ∨ ctx = 0xFF) → hflags.toNat ≤ 1 →
     (∀ c ∈ haltTargets ctx, haltable s c = false ∧ ∀ l, (ctxAt s c).latched = some l → l.done = true) →
     Ends (exec (.halt h ctx hflags) s) h 0x29 .ok 0 s fun t =>
       t.ctxs = s.ctxs ∧ t.tiles = s.tiles ∧ t.hoops = s.hoops ∧ t.mem = s.mem ∧ t.chans = s.chans) ∧
   (∀ (ctx : Fin 16) (l : Latched) (s : State), ctx.val ≠ 0 → (ctxAt s ctx.val).latched = some l → l.done = false →
     ∃ t, exec (.contextTeardown ctx) s = .next t ∧ TornDown ctx.val l.code s t))

/-- Completion of ctxDestroy, resetContext and resetHoop: with no sweep to roll back, CTX_DESTROY leaves the context FREE
with its relocation registers 0 and without prickings, and RESET of a context leaves it IDLE, both without runs,
channels, scan images and repeat-table entries, and no column records the context; RESET of a Hoop leaves it without
runs and loads, its tiles at reset (R327, R504). Completion of scanOut and evictionScan: SCAN_OUT of an IDLE context
empties the queues of its regions and holds their images; EVICTION_SCAN does so for an EVICTING one whose runs have
ended, and its eviction ends at the next boundary (R320, R321). -/
def Obligations.ResetsAndScansEmptyTheRegions : Prop :=
  ((∀ (h : Hdr) (ctx : BitVec 8) (s : State), Untagged 2 h s → badCtx ctx = false →
     ctxSt s ctx.toNat ∈ [CtxState.idle, .evicted, .faulted] → (sweepAt s ctx.toNat).st = .none →
     ∃ t, exec (.ctxDestroy h ctx) s = .next t ∧ (ctxAt t ctx.toNat).st = .free ∧ (ctxAt t ctx.toNat).latched = none ∧
       (ctxAt t ctx.toNat).relocWs = [] ∧ (ctxAt t ctx.toNat).relocAs = [] ∧ (ctxAt t ctx.toNat).relocPs = [] ∧
       (ctxAt t ctx.toNat).relocHbm = 0 ∧ Unloaded ctx.toNat t ∧ ∀ p ∈ t.pricks, p.ctx ≠ ctx.toNat) ∧
   (∀ (h : Hdr) (target : BitVec 8) (s : State), Untagged 1 h s → badCtx target = false → ctxSt s target.toNat ≠ .free →
     (sweepAt s target.toNat).st = .none →
     ∃ t, exec (.resetContext h target) s = .next t ∧ (ctxAt t target.toNat).st = .idle ∧
       (ctxAt t target.toNat).latched = none ∧ (ctxAt t target.toNat).flags = 0 ∧ Unloaded target.toNat t) ∧
   (∀ (h : Hdr) (target : BitVec 8) (s : State), Untagged 1 h s → target.toNat ≤ 7 →
     ∃ t, exec (.resetHoop h target) s = .next t ∧ (hoopAt t target.toNat).runs = [] ∧ (hoopAt t target.toNat).loads = [] ∧
       (hoopAt t target.toNat).power = .on ∧ (hoopAt t target.toNat).motifs = [] ∧
       ∀ k, noHoop k = target.toNat → tileAt t k = Tile.reset)) ∧
  ((∀ (h : Hdr) (ctx : BitVec 8) (s : State), Untagged 2 h s → badCtx ctx = false → ctxSt s ctx.toNat = .idle →
     let rs := regionsOf s ctx.toNat
     let u := landAll rs (taken h 0x2B s)
     scanFits u rs = true → scanParity u rs = none →
     ∃ t, exec (.scanOut h ctx) s = .next t ∧
       (∀ r ∈ rs, ∀ k ∈ regionTiles r.1 r.2.1 r.2.2.1, (tileAt t k).queues = []) ∧
       (ctxAt t ctx.toNat).images = (ctxAt (rs.foldl (fun s r => scanRegion ctx.toNat false false r s) u) ctx.toNat).images) ∧
   (∀ (ctx : Fin 16) (s : State), (ctxAt s ctx.val).st = .evicting → (ctxAt s ctx.val).latched = none →
     (ctxAt s ctx.val).evictEnd = false → runsOf s ctx.val = [] →
     let rs := regionsOf s ctx.val
     let u := landAll rs s
     scanFits u rs = true → scanParity u rs = none →
     ∃ t, exec (.evictionScan ctx) s = .next t ∧ (ctxAt t ctx.val).evictEnd = true ∧
       (∀ r ∈ rs, ∀ k ∈ regionTiles r.1 r.2.1 r.2.2.1, (tileAt t k).queues = [])))

/-- Completion of memMap, xlateResolve, chanCreate, knotInit and syncDump: MEM_MAP of pages that hold no mapping sets the
page tables at once, and one that changes a mapping waits for the boundary, as a whole (the model's choice, log entry
32: R257 and R547 speak of each page); XLATE_RESOLVE takes a parked stream back to ISSUING; CHAN_CREATE opens a channel;
KNOT_INIT writes a knot; a dump is written into its buffer (R259, R282, R427, R428, R429). -/
def Obligations.MemoryAndChannelCommandsAct : Prop :=
  (∀ (h : Hdr) (ctx mflags : BitVec 8) (count : BitVec 32) (va pa : BitVec 64) (s : State), Untagged 2 h s →
    badCtx ctx = false → mflags.toNat ≤ 7 → va.toNat % mfSize mflags = 0 → va.toNat + count.toNat * mfSize mflags ≤ 2 ^ 48 →
    (mfUnmap mflags = true ∨ pa.toNat % mfSize mflags = 0 ∧ badPages pa.toNat count.toNat (mfSize mflags) = false) →
    ctxSt s ctx.toNat ≠ .free →
    (∀ u, changesMap s ctx.toNat mflags count.toNat va.toNat = false →
      mapPages ctx.toNat mflags count.toNat va.toNat pa.toNat (taken h 0x12 s) = .ok u →
      ∃ t, exec (.memMap h ctx mflags count va pa) s = .next t ∧ t.mem = u.mem ∧ t.ctxs = u.ctxs ∧ t.tiles = u.tiles) ∧
    (changesMap s ctx.toNat mflags count.toNat va.toNat = true → underSweep s ctx.toNat mflags count.toNat va.toNat = false →
      (∀ u, mapPages ctx.toNat mflags count.toNat va.toNat pa.toNat (taken h 0x12 s) = .ok u →
        Defers (exec (.memMap h ctx mflags count va pa) s) h 0x12
          (.mapChange ctx.toNat mflags count.toNat va.toNat pa.toNat) s fun t => t.mem = s.mem ∧ t.ctxs = s.ctxs))) ∧
  (∀ (h : Hdr) (ctx : BitVec 8) (faultId : BitVec 16) (k n : Nat) (s : State), Untagged 2 h s → badCtx ctx = false →
    ctxSt s ctx.toNat ≠ .free → parkedUnder s ctx.toNat faultId.toNat = some (k, n) →
    Ends (exec (.xlateResolve h ctx faultId) s) h 0x13 .ok 0 s fun t =>
      (streamAt (tileAt t k) n).st = .issuing ∧ (streamAt (tileAt t k) n).faultId = 0 ∧ t.mem = s.mem ∧
      ∀ j, j ≠ k → tileAt t j = tileAt s j) ∧
  (∀ (h : Hdr) (ctx cfl : BitVec 8) (chan : BitVec 16) (ringLog2 ringHoop ringTile : BitVec 8) (sender receiver : BitVec 32)
      (ringBase : BitVec 64) (peerMod peerChan : BitVec 16) (s : State), Untagged 2 h s → badCtx ctx = false →
    cfl.toNat ≤ 7 → cfl.toNat % 4 ≠ 3 → chan.toNat < 4096 →
    (cfl.toNat % 4 ≠ 2 → sender.toNat < 2 ^ 11) → (cfl.toNat % 4 ≠ 1 → receiver.toNat < 2 ^ 11) →
    (cfl.toNat % 4 ≠ 0 → peerMod.toNat < 2 ^ 14 ∧ peerChan.toNat < 4096) →
    (cfl.toNat % 4 ≠ 1 → ringLog2.toNat ≤ 16 ∧
      ringFits s ctx.toNat (cfl.getLsbD 2) ringHoop.toNat ringTile.toNat ringBase.toNat (64 * 2 ^ ringLog2.toNat) = true ∧
      (cfl.getLsbD 2 = true ∨ isSelvedge receiver = true ∨ receiver.toNat % 8 = ringHoop.toNat)) →
    ctxSt s ctx.toNat ≠ .free → (chanAt s chan.toNat).st = .closed →
    Ends (exec (.chanCreate h ctx cfl chan ringLog2 ringHoop ringTile sender receiver ringBase peerMod peerChan) s) h 0x30 .ok 0 s
      fun t =>
        (chanAt t chan.toNat).st = .opened ∧ (chanAt t chan.toNat).ctx = ctx.toNat ∧
        (chanAt t chan.toNat).half = [3, 1, 2].getD (cfl.toNat % 4) 3 ∧ (chanAt t chan.toNat).tail = 0 ∧
        (chanAt t chan.toNat).head = 0 ∧ (chanAt t chan.toNat).sender = sender ∧ (chanAt t chan.toNat).receiver = receiver ∧
        ∀ n, n ≠ chan.toNat → chanAt t n = chanAt s n) ∧
  (∀ (h : Hdr) (ctx : BitVec 8) (kaddr word : BitVec 64) (pa : Nat) (s : State), Untagged 2 h s → badCtx ctx = false →
    let ka := kaddrOf kaddr.toNat
    ka.bad = false → ka.remote = false → fld word.toNat 56 5 = 0 → ctxSt s ctx.toNat ≠ .free →
    inSync s ctx.toNat ka ka.off = true → knotAt s ctx.toNat 0 ka true = .at_ pa → mergeUe s pa 8 = none →
    (knFull (setFld word.toNat 61 2 0) = false ∨ Tab.get [] s.net.waiters pa = []) →
    Ends (exec (.knotInit h ctx 1 kaddr word) s) h 0x31 .ok 0 s fun t =>
      t.mem = putBytes s.mem pa (toLE 8 (setFld word.toNat 61 2 0))) ∧
  (∀ (h : Hdr) (ctx : BitVec 8) (len : BitVec 32) (pa : BitVec 64) (s : State), Untagged 2 h s →
    (badCtx ctx = false ∧ ctxSt s ctx.toNat ≠ .free ∨ ctx = 0xFF) → 32 ≤ len.toNat → dumpFits pa.toNat len.toNat = true →
    let u := taken h 0x40 s
    let begins := toLE 1 ctx.toNat ++ toLE 4 0 ++ [0xFF, 0xFF, 0xFF] ++ toLE 2 0xFFFF ++ toLE 6 0
    let cs := if ctx = 0xFF then softCtxs else [ctx.toNat]
    let dump := dumpBytes u (if ctx = 0xFF then 0 else ctx.toNat) len.toNat (syncItems u ctx.toNat cs begins)
    syncStop u ctx.toNat cs begins = none →
    (writeUntil (codewords pa.toNat dump.1) s).1 = true →
    Ends (exec (.syncDump h ctx len pa) s) h 0x40 .ok (dump.1.length + dump.2.toNat * 2 ^ 32) s fun t =>
      t.mem = putBytes s.mem pa.toNat dump.1)

/-- Completion of repeatWrite, stitchSet and of the tagged forms of cfgSet, run and sweepCommit: the command ends with OK
once its changes are staged, in place of earlier ones of the same settings; nothing in force changes (R440). Completion
of prickLoad and prickUnload: PRICK_LOAD of an image whose header and body pass makes its pricking resident and, with
APPLY, queues its load at the Bobbin port; an image whose header fails leaves nothing resident and names the failure.
PRICK_UNLOAD removes a pricking that nothing uses (R388, R390, R391, R396). -/
def Obligations.StagedCommandsAndPrickingsAreLoaded : Prop :=
  (∀ (h : Hdr) (x : Txn) (s : State), Tagged 2 h x s →
     let Room (new : List Staged) : Prop := shadowOf (replaced x.staged new) + shadowOf new ≤ 65536
     let P (new : List Staged) (t : State) : Prop :=
       txnAt t h.txnId.toNat = some { x with staged := replaced x.staged new ++ new } ∧
         t.ctxs = s.ctxs ∧ t.hoops = s.hoops ∧ t.stitch = s.stitch ∧ t.mem = s.mem ∧ t.tiles = s.tiles
     (∀ (item : BitVec 16) (index : BitVec 32) (v : BitVec 64) (c i : Nat),
       (itemTxn item.toNat = some .optional ∨ itemTxn item.toNat = some .required) → itemLoc item.toNat index.toNat = some (c, i) →
       (0x10 ≤ item.toNat ∧ item.toNat ≤ 0x15 ∨ valueFits s item.toNat i v.toNat = true) →
       setFits s (some h.txnId.toNat) item.toNat index.toNat v = true → (c ≠ 0 → ctxSt s c ≠ .free) →
       (item.toNat = 0x20 → (sweepAt s c).st = .none) → Room [.item item.toNat index.toNat v] →
       Ends (exec (.cfgSet h item index v) s) h 0x51 .ok 0 s (P [.item item.toNat index.toNat v])) ∧
     (∀ (ctx : BitVec 8) (n : BitVec 32) (first : BitVec 64), badCtx ctx = false →
       (s.dev.unqualified = false ∨ s.dev.options.getLsbD 0 = true) → (first ≠ 0 → s.stitch.count.toNat < first.toNat) →
       ctxSt s ctx.toNat ≠ .free → Room [.run ctx.toNat n first] →
       Ends (exec (.run h ctx n first) s) h 0x28 .ok 0 s (P [.run ctx.toNat n first])) ∧
     (∀ (hoop first count : BitVec 8) (buf : BitVec 64) (bs : List Byte),
       hoop.toNat ≤ 7 → first.toNat + count.toNat ≤ 128 → bufBad h.port.val buf (32 * count.toNat) = false →
       bufRead h.port.val buf (32 * count.toNat) s = .ok bs →
       (∀ e ∈ entriesIn bs count.toNat, entryReserved e = false ∧ (enV e = true → enCtx e ≠ 0 → ctxSt s (enCtx e) ≠ .free)) →
       let new := (entriesIn bs count.toNat).zipIdx.map fun (e, i) => Staged.entry hoop.toNat (first.toNat + i) (BitVec.ofNat 256 e)
       Room new → Ends (exec (.repeatWrite h hoop first count buf) s) h 0x20 .ok 0 s (P new)) ∧
     (∀ (period : BitVec 32) (n : BitVec 64), 18000 ≤ period.toNat → period.toNat ≤ 18000000 → Room [.period period.toNat n] →
       Ends (exec (.stitchSet h period n) s) h 0x21 .ok 0 s (P [.period period.toNat n])) ∧
     (∀ (ctx sf : BitVec 8), badCtx ctx = false → sf.toNat ≤ 1 → ctxSt s ctx.toNat ≠ .free → Room [.sweepCommit ctx.toNat] →
       Ends (exec (.sweepCommit h ctx sf) s) h 0x39 .ok 0 s (P [.sweepCommit ctx.toNat]))) ∧
  ((∀ (h : Hdr) (ctx pflags : BitVec 8) (nsym : BitVec 16) (len : BitVec 32) (addr patch : BitVec 64) (s : State),
     Untagged 2 h s → badCtx ctx = false → pflags.toNat ≤ 7 → nsym.toNat ≤ 256 → 64 ≤ len.toNat → len.toNat ≤ 0x800000 →
     (pflags.getLsbD 1 = true → s.dev.unqualified = false ∨ s.dev.options.getLsbD 0 = true) → ctxSt s ctx.toNat ≠ .free →
     (pflags.getLsbD 0 = true → sourceBad s ctx.toNat len.toNat addr.toNat = false) →
     ∀ (syms : List Nat), (nsym = 0 ∧ syms = [] ∨ nsym ≠ 0 ∧ bufBad h.port.val patch (8 * nsym.toNat) = false ∧
       ∃ b, bufRead h.port.val patch (8 * nsym.toNat) s = .ok b ∧
         syms = (List.range nsym.toNat).map fun i => leNat ((b.drop (8 * i)).take 8)) →
     ∀ (hd : List Byte), sourceRead s h.port.val ctx.toNat (pflags.getLsbD 0) addr.toNat 64 = .ok hd →
     (headerStatus s hd ≠ .ok → Ends (exec (.prickLoad h ctx pflags nsym len addr patch) s) h 0x18 .ok
       ((headerStatus s hd).num + hdMotif hd * 2 ^ 16) s fun t => t.pricks = s.pricks ∧ t.hoops = s.hoops) ∧
     (∀ (bs : List Byte) (a : Nat), headerStatus s hd = .ok → residentOf s ctx.toNat (hdMotif hd) = none →
       storePlace s (quarterOf (hdHoop hd)) (hdSize hd) = some a → s.pricks.length < 1024 → hdSize hd ≤ len.toNat →
       sourceRead s h.port.val ctx.toNat (pflags.getLsbD 0) addr.toNat (hdSize hd) = .ok bs →
       let raw := (bs.drop 64).take (hdBody hd)
       let x := match hdKeyOf s hd with
         | some k => gcmOpen (toLE 32 k.toNat) ((hd.drop 0x18).take 12) hd raw
         | none => (raw, [])
       let p := parseBody hd x.1 syms
       bodyStatus (decide (hdKey hd = 0) || decide (x.2 = bs.drop (64 + hdBody hd))) p = .ok →
       Ends (exec (.prickLoad h ctx pflags nsym len addr patch) s) h 0x18 .ok (hdMotif hd * 2 ^ 16) s fun t =>
         t.pricks = s.pricks ++
           [⟨ctx.toNat, hdMotif hd, hdHoop hd, hdC0 hd, hdC1 hd, p.discard, hdSize hd, a, p.cfgB, p.progB⟩] ∧
         (hoopAt t (hdHoop hd)).loads = (hoopAt s (hdHoop hd)).loads ++ (if pflags.getLsbD 1 then
           [⟨.apply, ctx.toNat, hdMotif hd, hdC0 hd, hdC1 hd, pflags.getLsbD 2, false, false⟩] else []) ∧ t.tiles = s.tiles)) ∧
   (∀ (h : Hdr) (ctx : BitVec 8) (motif : BitVec 16) (s : State), Untagged 2 h s → badCtx ctx = false → ctxSt s ctx.toNat ≠ .free →
     residentOf s ctx.toNat motif.toNat ≠ none → prickInUse s ctx.toNat motif.toNat = false →
     Ends (exec (.prickUnload h ctx motif) s) h 0x19 .ok 0 s fun t => residentOf t ctx.toNat motif.toNat = none ∧
       (∀ c m, (c, m) ≠ (ctx.toNat, motif.toNat) → residentOf t c m = residentOf s c m) ∧ t.hoops = s.hoops ∧ t.tiles = s.tiles))

/-- Completion of sweepBegin, sweepCommit, sweepRollback, deltaConfigSet, deltaConfigAck and digestCompare: SWEEP_BEGIN
opens a sweep with its STEP, LR_SCALE and BARRIER, or commits at once when no block is valid; SWEEP_COMMIT of a sweep
that is DONE is taken and at the next stitch boundary CUR flips, DN_STEP is the sweep's and the sweep is NONE;
SWEEP_ROLLBACK sends an open or done sweep to ROLLING_BACK and is OK where none is; DELTA_CONFIG sets the rings, ACK a
ring's DR_HEAD; DIGEST_COMPARE waits for the peer (R335, R350, R357, R358, R366, R367, R370). The model's choices: WAIT
with no sweep waits for one (log entry 26); SET keeps the rings' heads, ACK is accepted during a sweep, and an empty
sweep raises SWEEP_COMMITTED (log entry 27). -/
def Obligations.SweepCommandsAct : Prop :=
  (∀ (h : Hdr) (ctx : BitVec 8) (lr : BitVec 32) (step barrier : BitVec 64) (gs : List Byte) (ds : List Nat) (s : State),
    Untagged 2 h s → (s.dev.unqualified = false ∨ s.dev.options.getLsbD 0 = true) → badCtx ctx = false →
    (kaddrOf barrier.toNat).bad = false → sweepTables s ctx.toNat = (.ok gs, ds) → blocksOk s ctx.toNat gs ds = true →
    (ctxSt s ctx.toNat = .idle ∨ ctxSt s ctx.toNat = .active) → (sweepAt s ctx.toNat).st = .none →
    (ds = [] → ∃ t, exec (.sweepBegin h ctx lr step barrier) s = .next t ∧
      (ctxAt t ctx.toNat).dnStep = step ∧ dnCur t ctx.toNat = !dnCur s ctx.toNat ∧ (sweepAt t ctx.toNat).st = .none ∧
      ∃ e ∈ t.logs.raised, e.code = 0x0011 ∧ e.ctx = ctx.toNat) ∧
    (∀ (w : Sweep) (u : State), ds ≠ [] → w = startSweep (taken h 0x38 s) ctx.toNat gs lr step barrier →
      (logHeader ctx.toNat 1).run (useFree 512 (modCtx ctx.toNat (fun x => { x with
        cntBlocks := 0, sweeps := x.sweeps + 1, sweep := w }) (taken h 0x38 s))) = (.ok (), u) →
      ∃ t, exec (.sweepBegin h ctx lr step barrier) s = .next t ∧ t.mem = u.mem ∧ sweepAt t ctx.toNat = sweepAt u ctx.toNat ∧
        w.st = .opened ∧ w.step = step ∧ w.lr = lr ∧ w.barrier = barrier ∧ w.groups = gs)) ∧
  (∀ (h : Hdr) (ctx sf : BitVec 8) (s : State), Untagged 2 h s → badCtx ctx = false → sf.toNat ≤ 1 → ctxSt s ctx.toNat ≠ .free →
    (sf = 1 ∨ (sweepAt s ctx.toNat).st = .done) →
    Defers (exec (.sweepCommit h ctx sf) s) h 0x39 (.sweepCommit ctx.toNat) s fun t => t.ctxs = s.ctxs ∧ t.mem = s.mem ∧
      ((sweepAt s ctx.toNat).st = .done → (ctxAt s ctx.toNat).latched = none → headerUe s ctx.toNat = none → stitching s = true → s.waits = [] →
        (∀ h < 8, (hoopAt s h).loads = []) → s.stitch.placed = none →
        ∃ v, exec .stitchBoundary t = .next v ∧ v.waits = [] ∧ (sweepAt v ctx.toNat).st = .none ∧
          (ctxAt v ctx.toNat).dnStep = (sweepAt s ctx.toNat).step ∧ dnCur v ctx.toNat = !dnCur s ctx.toNat)) ∧
  (∀ (h : Hdr) (ctx sf : BitVec 8) (s : State), Untagged 2 h s → badCtx ctx = false → sf.toNat ≤ 1 → ctxSt s ctx.toNat ≠ .free →
    ((sweepAt s ctx.toNat).st = .opened ∨ (sweepAt s ctx.toNat).st = .done →
      Defers (exec (.sweepRollback h ctx sf) s) h 0x3A (.sweepRollback ctx.toNat) s fun t =>
        (sweepAt t ctx.toNat).st = .rollingBack ∧ (sweepAt t ctx.toNat).logged = (sweepAt s ctx.toNat).logged ∧
        (∀ c, c ≠ ctx.toNat → ctxAt t c = ctxAt s c) ∧ t.mem = s.mem) ∧
    ((sweepAt s ctx.toNat).st = .none → sf = 0 →
      Ends (exec (.sweepRollback h ctx sf) s) h 0x3A .ok 0 s fun t => t.ctxs = s.ctxs ∧ t.mem = s.mem)) ∧
  (∀ (h : Hdr) (ctx : BitVec 8) (param : BitVec 64) (bs : List Byte) (s : State), Untagged 2 h s → badCtx ctx = false →
    bufBad h.port.val param 160 = false → bufRead h.port.val param 160 s = .ok bs → deltaFits bs = true →
    ctxSt s ctx.toNat ≠ .free → (sweepAt s ctx.toNat).st = .none →
    Ends (exec (.deltaConfigSet h ctx param) s) h 0x3B .ok 0 s fun t =>
      (ctxAt t ctx.toNat).delta = deltaSet bs (ctxAt s ctx.toNat).delta ∧
      (ctxAt t ctx.toNat).delta.heads = (ctxAt s ctx.toNat).delta.heads ∧ ∀ c, c ≠ ctx.toNat → ctxAt t c = ctxAt s c) ∧
  (∀ (h : Hdr) (ctx ring : BitVec 8) (head : BitVec 32) (s : State), Untagged 2 h s → badCtx ctx = false → ring.toNat ≤ 3 →
    ctxSt s ctx.toNat ≠ .free →
    Ends (exec (.deltaConfigAck h ctx ring head) s) h 0x3B .ok 0 s fun t =>
      deltaHead t ctx.toNat ring.toNat = head ∧ (∀ q, q ≠ ring.toNat → deltaHead t ctx.toNat q = deltaHead s ctx.toNat q) ∧
      ∀ c, c ≠ ctx.toNat → ctxAt t c = ctxAt s c) ∧
  (∀ (h : Hdr) (ctx : BitVec 8) (peer : BitVec 16) (count first : BitVec 32) (s : State), Untagged 2 h s → badCtx ctx = false →
    peer.toNat < 2 ^ 14 → ctxSt s ctx.toNat ≠ .free →
    digestUe s ctx.toNat ((List.range (min count.toNat (dnNblk s ctx.toNat - first.toNat))).map (· + first.toNat)) = none →
    Defers (exec (.digestCompare h ctx peer count first) s) h 0x3C (.digest ctx.toNat peer.toNat first.toNat count.toNat) s
      fun t => t.ctxs = s.ctxs ∧ t.mem = s.mem)

/-- Completion of batch: BATCH runs its entries in order and is answered at its own slot once they have run: without
CONTINUE with the status of the entry that failed, with CONTINUE with OK, and with a RESULT that counts the entries run
and names the first that failed (0 where none failed: the model's choice, log entry 13) where the status is OK; at an
entry that waits, the batch waits for its status, and goes on when nothing is pending (R418; log entry 2); a GROUP that
stages all its entries becomes one committing transaction that waits, and one with a failing entry is rolled back (R437,
R438). An entry of a batch whose opcode Table 12.9 lacks, or that is a BATCH, fails with BAD_OPCODE and, without
CONTINUE, ends the batch with that status: its completion stands at its own place, and it is the only entry run (R423,
R437). Completion of cmdAccepted, peerAnswerTimeout, digestExchange, fwUpdateDone and txnTimeout: a command that waits
on a ring is answered ACCEPTED once and stops holding its ring (R418); a digest exchange with a peer ends with TIMEOUT
where the peer does not answer, and with OK and 0 where every digest agrees, and a peer's list is answered with this
module's (R370); the flash write of an image that verifies ends with its GENERATION and FW_UPDATE_DONE (R488). An open
transaction that times out is discarded with TXN_TIMEOUT, which names an orphan's last owner (the model's choice, log
entry 34; R443). -/
def Obligations.BatchesRunAndWaitingCommandsEnd : Prop :=
  ((∀ (h : Hdr) (bf : BitVec 8) (count : BitVec 16) (buf : BitVec 64) (bs : List Byte) (s : State), Untagged 3 h s →
     bf.toNat ≤ 3 → 1 ≤ count.toNat → count.toNat ≤ 256 → bufBad h.port.val buf (64 * count.toNat) = false →
     bufRead h.port.val buf (64 * count.toNat) s = .ok bs → (bf.getLsbD 0 = true → (slotsOf bs).all mayGroup = true) →
     let cont := bf.getLsbD 1
     let e : Env := ⟨.ring h.port.val h.ring.val, h.port.val, sessionNo h, none, h.txnId, s.logs.seq + 1, h.tag⟩
     let u0 := taken h 0x78 s
     (∀ (st : Status) (r : Nat) (u : State), bf.getLsbD 0 = false →
       batchRun cont e (bufOff buf) (!bufPush buf) (slotsOf bs) 0 none u0 = .done st r u →
       ∃ t, exec (.batch h bf count buf) s = .next t ∧ (ringOf h t).head = (ringOf h u).head + 1 ∧
         slotAfter h u t = completionBytes t st h.txnId h.tag (s.logs.seq + 1) r ∧
         t.mem = u.mem ∧ t.ctxs = u.ctxs ∧ t.txns = u.txns ∧ t.waits = u.waits ∧ t.hoops = u.hoops) ∧
     (∀ (w : WaitFor) (u : State), bf.getLsbD 0 = false →
       batchRun cont e (bufOff buf) (!bufPush buf) (slotsOf bs) 0 none u0 = .later w u →
       ∃ t b, exec (.batch h bf count buf) s = .next t ∧ w = .batchRun b ∧ b.status = none ∧ (∃ x ∈ u.waits, x.seq = b.entry) ∧
         t.waits = u.waits ++ [⟨s.logs.seq + 1, .ring h.port.val h.ring.val, 0x78, h.txnId, h.tag, false, w⟩] ∧
         (ringOf h t).head = (ringOf h u).head ∧ t.mem = u.mem ∧ t.ctxs = u.ctxs ∧ t.txns = u.txns ∧ t.hoops = u.hoops) ∧
     (∀ (k : Nat) (failed : Option (Nat × Status)) (u : State), bf.getLsbD 0 = true → s.txns.length < txnLimit →
       let id := freshTxn u0
       groupEntries cont id e (bufOff buf) (!bufPush buf) (slotsOf bs) 0 none (openTxn (sessionNo h) id u0) = (k, failed, u) →
       (∀ x, failed = none → txnAt u id = some x → atPassed u x = false →
         ∃ t, exec (.batch h bf count buf) s = .next t ∧
           t.waits = u.waits ++ [⟨s.logs.seq + 1, .ring h.port.val h.ring.val, 0x78, h.txnId, h.tag, false, .batch id k⟩] ∧
           txnAt t id = some { x with committing := true, commitSeq := s.logs.seq + 1 } ∧ (ringOf h t).head = (ringOf h u).head) ∧
       (∀ i st, failed = some (i, st) →
         ∃ t, exec (.batch h bf count buf) s = .next t ∧ (∀ j, j ≠ id → txnAt t j = txnAt u j) ∧
           t.txns.length = (u.txns.eraseP fun y => decide (y.id = id)).length ∧
           (ringOf h t).head = (ringOf h u).head + 1))) ∧
   (∀ (s : State) (w : Wait) (b : BatchRun) (st : Status) (p r : Nat), s.pending = [] → s.dev.romRecovery = false →
     batchReady s = some (w, b, st) → w.origin = .ring p r →
     let e : Env := ⟨.ring p r, p, sessionOf p r, none, 0, w.seq, w.tag⟩
     ∀ (st' : Status) (n : Nat) (u : State),
       batchRun b.cont e b.off b.host b.rest b.ran (noteFailed (b.ran - 1) st b.failed) s = .done st' n u →
       Sys2Proof.Machine.step s = .next { finish w.seq st' n u with pending := [] })) ∧
  (∀ (e : Env) (off : Nat) (host : Bool) (bs : List Byte) (rest : List (List Byte)) (s : State),
     opcodes.contains (slotNum bs 0 1) = false ∨ slotNum bs 0 1 = 0x78 →
     ∃ u, batchRun false e off host (bs :: rest) 0 none s = .done .badOpcode 1 u ∧
       u.ctxs = s.ctxs ∧ u.txns = s.txns ∧ u.waits = s.waits ∧ u.tiles = s.tiles ∧ u.logs.seq = s.logs.seq + 1 ∧
       (host = true → u.mem = s.mem ∧ u.host = putBytes s.host (e.port * 2 ^ 64 + off)
         (completionBytes u .badOpcode (BitVec.ofNat 16 (slotNum bs 2 2)) (BitVec.ofNat 32 (slotNum bs 4 4)) (s.logs.seq + 1) 0)) ∧
       (host = false → u.host = s.host ∧ u.mem = putBytes s.mem (pushBase e.port + off)
         (completionBytes u .badOpcode (BitVec.ofNat 16 (slotNum bs 2 2)) (BitVec.ofNat 32 (slotNum bs 4 4)) (s.logs.seq + 1) 0))) ∧
  (let Told (w : Wait) (st : Status) (r : Nat) (s t : State) : Prop :=
     t.waits = (eraseFirst (fun x => decide (x.seq = w.seq)) s.waits).map (Wait.learns w.seq st) ∧
     (w.accepted = true → ∃ x ∈ t.logs.raised, x.code = 0x0001 ∧ x.ctx = 0 ∧
       x.payload = toLE 6 w.seq ++ toLE 1 (originSession w.origin) ++ toLE 1 w.opcode ++ toLE 1 st.num ++ toLE 3 0 ++
         toLE 4 w.tag.toNat ++ toLE 8 r) ∧
     (∀ p q, w.accepted = false → w.origin = .ring p q → (ringAt t p q).head = (ringAt s p q).head + 1)
   (∀ (seq : BitVec 48) (w : Wait) (p r : Nat) (s : State), (s.waits.find? fun w => decide (w.seq = seq.toNat)) = some w →
     w.accepted = false → w.origin = .ring p r →
     ∃ t, exec (.cmdAccepted seq) s = .next t ∧ (ringAt t p r).head = (ringAt s p r).head + 1 ∧
       (Wait.learns w.seq .accepted { w with accepted := true } ∈ t.waits) ∧ t.waits.length = s.waits.length ∧ t.txns = s.txns ∧ t.ctxs = s.ctxs) ∧
   (∀ (seq : BitVec 48) (w : Wait) (c p f n : Nat) (s : State), (s.waits.find? fun w => decide (w.seq = seq.toNat)) = some w →
     w.what = .digest c p f n →
     (∃ t, exec (.peerAnswerTimeout seq) s = .next t ∧ Told w .timeout 0 s t ∧ t.ctxs = s.ctxs ∧ t.tiles = s.tiles) ∧
     (∀ (ctx : Fin 16) (peer : BitVec 14) (ds : List (BitVec 32 × BitVec 128)), ctx.val = c → peer.toNat = p →
       let held := ds.filter fun d => decide (f ≤ d.1.toNat) && decide (d.1.toNat < f + n)
       mismatches s c held = [] → digestUe s c (held.map fun d => d.1.toNat) = none →
       ∃ t, exec (.digestExchange ctx peer (true, seq) ds) s = .next t ∧ Told w .ok 0 s t ∧ t.ctxs = s.ctxs ∧ t.tiles = s.tiles)) ∧
   (∀ (ctx : Fin 16) (peer : BitVec 14) (seq : BitVec 48) (ds : List (BitVec 32 × BitVec 128)) (s : State),
     let u := sendOut ctx.val 0 peer.toNat
       (.digests ctx s.dev.moduleId true seq (digestsOf s ctx.val (ds.map fun p => p.1.toNat))) s
     digestUe s ctx.val (ds.map fun p => p.1.toNat) = none → mismatches s ctx.val ds = [] →
     ∃ t, exec (.digestExchange ctx peer (false, seq) ds) s = .next t ∧ t.net = u.net ∧ t.links = u.links ∧
       t.waits = s.waits ∧ t.ctxs = s.ctxs ∧ t.mem = s.mem) ∧
   (∀ (k slot : Nat) (s : State), s.flash.writing = some (k, slot) → s.dev.romRecovery = false → s.pins.aux = true → s.pins.modRstN = true → s.pins.warmRstN = true →
     fwReason s k (fwSlotAt s k slot).image = none → (∀ w ∈ s.waits, w.what ≠ .fwUpdate k slot) →
     ∃ t, exec .fwUpdateDone s = .next t ∧ t.flash.writing = none ∧ fwSlotAt t k slot = { fwSlotAt s k slot with
         gen := BitVec.ofNat 32 (1 + max (fwSlotAt s k 0).gen.toNat (fwSlotAt s k 1).gen.toNat) } ∧
       (∃ x ∈ t.logs.raised, x.code = 0x0202) ∧ t.trust = s.trust ∧ t.pins = s.pins) ∧
   (∀ (id : BitVec 16) (x : Txn) (s : State), txnAt s id.toNat = some x → x.committing = false →
     ∃ t, exec (.txnTimeout id) s = .next t ∧ t.txns = eraseFirst (fun y => decide (y.id = id.toNat)) s.txns ∧
       (∃ y ∈ t.logs.raised, y.code = 0x0004 ∧ y.payload = toLE 2 id.toNat ++ toLE 1 x.owner) ∧
       t.ctxs = s.ctxs ∧ t.hoops = s.hoops ∧ t.stitch = s.stitch))

/-- Completion of commandRingTail, commandRingEnable, commandRingDisable and eventRingEnable: a TAIL within the ring's slots
is taken, and a slot that then stands at HEAD with an opcode outside Table 12.9 is refused with BAD_OPCODE; one beyond
them closes the ring with RING_ERROR and orphans its session's transactions; EN 1 opens an empty ring when its fields
allow it, EN 0 closes it; an event ring starts empty, and stays off while its TAIL is not 0 (R415, R417, R423, R446).
The model's choices: a ring with LOG2N above its limit stays off, the end of a ring closes its session (log entry 10),
and a slot that spells no command is refused as soon as its ring is served (log entry 12). Completion of registerWrite,
pmDoorbell, bspiWrite and pspWrite: of writes to the window's registers, JWRAP is cleared by a 1, the push page and the
mailbox slots take what is written, read-only registers and unaligned accesses change nothing, and a write to the MSI-X
table of an HL port's HA-2 writes that table, with a vector that it unmasks pending no longer (R482; PRESUMED of PCI
Express, log entry 13). A doorbell of the priority mailbox runs the submitted slots in ascending order; an opcode other
than HALT and RESET completes with BAD_OPCODE and its busy bit clears (R408, R409, R412, R413). A BSPI or PSP
transaction of one aligned 8-B unit is that register write, and three words of one are discarded (R393, R531; of BSPI
the model's choice, log entry 11). -/
def Obligations.DescriptorsAndWindowWritesAct : Prop :=
  ((∀ (port : Fin 4) (ring : Fin 8) (tail : BitVec 32) (s : State), windowUp s port.val = true → s.dev.ready = true →
     let x := ringAt s port.val ring.val
     x.en = true →
     ((tail - x.head).toNat ≤ ringSlots x → slotRefused (headSlot s port.val ring.val) = none → ∃ t, exec (.commandRingTail port ring tail) s = .next t ∧
       ringAt t port.val ring.val = { x with tail := tail } ∧ (∀ q, q ≠ ring.val → ringAt t port.val q = ringAt s port.val q) ∧
       t.txns = s.txns ∧ t.logs = s.logs ∧ t.waits = s.waits) ∧
     (∀ op, slotNum (headSlot s port.val ring.val) 0 1 = op → op ∉ opcodes → tail = x.head + 1 →
       ringWaits s port.val ring.val = false → ∃ t, exec (.commandRingTail port ring tail) s = .next t ∧
         (ringAt t port.val ring.val).head = x.head + 1 ∧ t.logs.seq = s.logs.seq + 1 ∧
         (∃ e, t.logs.journal.head? = some e ∧ e.opcode = op ∧ e.status = .badOpcode) ∧ t.ctxs = s.ctxs ∧ t.txns = s.txns) ∧
     (ringSlots x < (tail - x.head).toNat → ∃ t, exec (.commandRingTail port ring tail) s = .next t ∧
       ringAt t port.val ring.val = { x with tail := tail, en := false, opened := false } ∧
       t.txns = s.txns.map (fun y =>
         if y.session = some (port.val * 8 + ring.val) ∧ y.committing = false then { y with session := none } else y) ∧
       ∃ e ∈ t.logs.raised, e.code = 0x0003 ∧
         e.payload = toLE 1 (port.val * 8 + ring.val) ++ toLE 3 0 ++ toLE 4 x.head.toNat ++ toLE 4 tail.toNat)) ∧
   (∀ (port : Fin 4) (ring : Fin 8) (word : BitVec 32) (s : State), windowUp s port.val = true →
     let x := ringAt s port.val ring.val
     x.en = false → x.tail = 0 →
     let slot : BitVec 2 := BitVec.ofNat 2 (fld word.toNat 2 2)
     let log2n : BitVec 4 := BitVec.ofNat 4 (fld word.toNat 4 4)
     slot ≠ 0 → log2n.toNat ≤ 12 →
     (word.getLsbD 1 = true → ring.val = 0 ∧ 2 ^ log2n.toNat * (16 * 2 ^ slot.toNat) ≤ 1024) →
     (word.getLsbD 1 = false → port.val < 2) →
     ∃ t, exec (.commandRingEnable port ring word) s = .next t ∧
       ringAt t port.val ring.val =
         { x with en := true, loc := word.getLsbD 1, slot := slot, log2n := log2n, head := 0, opened := false } ∧
       (∀ q, q ≠ ring.val → ringAt t port.val q = ringAt s port.val q) ∧ t.txns = s.txns ∧ t.logs = s.logs) ∧
   (∀ (port : Fin 4) (ring : Fin 8) (word : BitVec 32) (s : State), windowUp s port.val = true →
     let x := ringAt s port.val ring.val
     x.en = true → ∃ t, exec (.commandRingDisable port ring word) s = .next t ∧
       ringAt t port.val ring.val = { x with en := false, opened := false } ∧
       t.txns = s.txns.map (fun y =>
         if y.session = some (port.val * 8 + ring.val) ∧ y.committing = false then { y with session := none } else y) ∧
       t.ctxs = s.ctxs ∧ t.logs = s.logs) ∧
   (∀ (port : Fin 4) (word : BitVec 32) (s : State), windowUp s port.val = true →
     let x := (portAt s port.val).ev
     let log2n : BitVec 5 := BitVec.ofNat 5 (fld word.toNat 2 5)
     x.en = false →
     (x.tail = 0 → 3 ≤ log2n.toNat → log2n.toNat ≤ 16 → (word.getLsbD 1 = true → log2n = 3) →
       (word.getLsbD 1 = false → port.val < 2) → s.logs.held = [] →
       ∃ t, exec (.eventRingEnable port word) s = .next t ∧
         (portAt t port.val).ev =
           { x with en := true, loc := word.getLsbD 1, log2n := log2n, head := 0, tail := 0, lost := 0, missed := 0 } ∧
         (portAt t port.val).rings = (portAt s port.val).rings ∧ t.logs = s.logs) ∧
     (x.tail ≠ 0 → ∃ t, exec (.eventRingEnable port word) s = .next t ∧
       (portAt t port.val).ev = { x with loc := word.getLsbD 1, log2n := log2n } ∧ t.logs = s.logs))) ∧
  ((∀ (port : Fin 4) (wide : Bool) (v : BitVec 64) (s : State), windowUp s port.val = true →
     (v.getLsbD 8 = true → ∃ t, exec (.registerWrite port 0x8 wide v) s = .next t ∧ t = { s with
       dev := { s.dev with jWrapped := false } }) ∧
     (∃ t, exec (.registerWrite port 0x300 wide v) s = .next t ∧
       (portAt t port.val).pushPage = BitVec.ofNat 11 v.toNat ∧ (∀ q, q ≠ port.val → portAt t q = portAt s q) ∧ t.mem = s.mem) ∧
     (∀ off ∈ [0x0, 0x10, 0x18, 0x188, 0x800, 0x808], exec (.registerWrite port (BitVec.ofNat 16 off) wide v) s = .next s) ∧
     (∀ (off : BitVec 16), off.toNat % 4 ≠ 0 ∨ 0x2000 ≤ off.toNat ∧ (2 ≤ port.val ∨ off.toNat < 0x8000 ∨ 0x8030 ≤ off.toNat) →
       exec (.registerWrite port off wide v) s = .next s) ∧
     (∀ (i : Fin 12), port.val < 2 → ∃ t, exec (.registerWrite port (BitVec.ofNat 16 (0x8000 + 4 * i.val)) false v) s = .next t ∧
       t.ha2.table = putBytes s.ha2.table (64 * port.val + 4 * i.val) (toLE 4 (v.toNat % 2 ^ 32)) ∧
       (∀ x ∈ t.ha2.pending, x ∈ s.ha2.pending ∧ msixMasked t (x.1 / 4) (x.1 % 4) = true) ∧ t = { s with ha2 := t.ha2 }) ∧
     (∀ (i : Fin 16), ∃ t, exec (.registerWrite port (BitVec.ofNat 16 (0x100 + 8 * i.val)) true v) s = .next t ∧
       (portAt t port.val).slots = putBytes (portAt s port.val).slots (8 * i.val) (toLE 8 v.toNat) ∧
       (∀ q, q ≠ port.val → portAt t q = portAt s q) ∧ t.mem = s.mem)) ∧
   (∀ (port : Fin 4) (v : BitVec 64) (s : State), windowUp s port.val = true → s.dev.romRecovery = false → s.dev.ready = true →
     let ks := (bitsOf 4 v.toNat).filter fun k => !bitAt (portAt s port.val).busy.toNat k
     exec (.pmDoorbell port v) s = .next { each ks (prioritySlot port.val) (modPort port.val (fun x => { x with
       busy := ks.foldl (fun b k => b ||| (1#4 <<< k)) x.busy }) s) with pending := s.pending }) ∧
   (∀ (p k : Nat) (s : State), k < 4 →
     let bs := bytesAt (portAt s p).slots (32 * k) 32
     slotNum bs 0 1 ≠ 0x29 → slotNum bs 0 1 ≠ 0x70 →
     let t := prioritySlot p k s
     (portAt t p).busy = (portAt s p).busy &&& ~~~(1#4 <<< k) ∧
       slotNum (bytesAt (portAt t p).slots (32 * k) 32) 0 1 = 0x02 ∧ t.ctxs = s.ctxs ∧ t.hoops = s.hoops ∧ t.mem = s.mem ∧
       t.txns = s.txns) ∧
   (∀ (addr : BitVec 16) (data : List Byte) (s : State), windowUp s 2 = true → addr.toNat % 8 = 0 → addr.toNat + 8 ≤ 0x10000 →
     data.length = 8 →
     ∃ t, exec (.bspiWrite addr data) s = .next t ∧ exec (.registerWrite 2 addr true (BitVec.ofNat 64 (leNat data))) s = .next t) ∧
   (∀ (address : BitVec 16) (words : List (BitVec 16)) (s : State), windowUp s 3 = true → address.toNat < 4096 →
     address.toNat % 4 = 0 → words.length = 4 →
     ∃ t, exec (.pspWrite address words) s = .next t ∧
       exec (.registerWrite 3 (BitVec.ofNat 16 (2 * address.toNat)) true (BitVec.ofNat 64 (leNat (words.flatMap fun w => toLE 2 w.toNat)))) s =
         .next t) ∧
   (∀ (address : BitVec 16) (words : List (BitVec 16)) (s : State), address.toNat % 4 = 0 → words.length = 3 →
     exec (.pspWrite address words) s = .next s))

/-- Completion of pushWindowRead, pushWindowWrite, bspiRead, pspRead, bar2Read and bar2Write: reads through the window and
BAR2 return the bytes, or all ones where the HL port is not up or the word is uncorrectable; writes through the push
window and BAR2 change the codeword they address and nothing else, and an access through BAR2 to an unpopulated address
is recorded in the fault log (R46, R410, R482, R484, R531). -/
def Obligations.WindowReadsAndStoresAct : Prop :=
  (∀ (port : Fin 4) (off : BitVec 12) (wide : Bool) (s : State),
    let n := if wide then 8 else 4
    let pa := pushAt s port.val off.toNat
    (windowUp s port.val = false → port.val < 2 → ∃ t, exec (.pushWindowRead port off wide) s = .next t ∧
      (portAt t port.val).out = List.replicate n 0xFF ∧ (portAt t port.val).abort = false ∧ t.mem = s.mem) ∧
    (windowUp s port.val = true → s.dev.romRecovery = false → fabricOn s = true → off.toNat % n = 0 →
      (ueAt s pa n = none → ∃ t, exec (.pushWindowRead port off wide) s = .next t ∧
        (portAt t port.val).out = peek s pa n ∧ (portAt t port.val).abort = false ∧ t.mem = s.mem ∧ t.ctxs = s.ctxs) ∧
      (∀ w, ueAt s pa n = some w → ∃ t, exec (.pushWindowRead port off wide) s = .next t ∧
        (port.val < 2 → (portAt t port.val).abort = true) ∧
        (2 ≤ port.val → (portAt t port.val).out = List.replicate n 0xFF ∧ (portAt t port.val).abort = false) ∧
        (∃ e ∈ t.logs.raised, e.code = 0x31) ∧ t.mem = s.mem) ∧
      (∀ v : BitVec 64, mergeUe s pa n = none → ∃ t, exec (.pushWindowWrite port off wide v) s = .next t ∧
        t.mem = putBytes s.mem pa (toLE n (v.toNat % 2 ^ (8 * n))) ∧ t.ports = s.ports ∧ t.logs = s.logs ∧ t.ctxs = s.ctxs))) ∧
  (∀ (addr : BitVec 16) (s : State), windowUp s 2 = true → addr.toNat % 8 = 0 → addr.toNat < 0x1000 →
    ∃ t, exec (.bspiRead addr 8) s = .next t ∧ (portAt t 2).out = toLE 8 (windowReg s 2 addr.toNat) ∧ t.mem = s.mem ∧
      ∀ q, q ≠ 2 → portAt t q = portAt s q) ∧
  (∀ (address : BitVec 16) (s : State), windowUp s 3 = true → address.toNat % 4 = 0 → address.toNat < 0x800 →
    ∃ t, exec (.pspRead address 4) s = .next t ∧ (portAt t 3).out = toLE 8 (windowReg s 3 (2 * address.toNat)) ∧ t.mem = s.mem ∧
      ∀ q, q ≠ 3 → portAt t q = portAt s q) ∧
  (∀ (port : Fin 2) (addr : BitVec 40) (count : Nat) (s : State), windowUp s port.val = true →
    (∀ i, i < count → (bar2Access (addr.toNat + i)).1 = true → ueAt s (addr.toNat + i) 1 = none) →
    ∃ t, exec (.bar2Read port addr count) s = .next t ∧ (portAt t port.val).out = (List.range count).map (fun i =>
      if (bar2Access (addr.toNat + i)).1 then Tab.get 0 s.mem (addr.toNat + i) else 0) ∧
      (portAt t port.val).abort = false ∧ t.mem = s.mem ∧ t.host = s.host ∧
      (0 < count → populated addr.toNat = false → ∃ e, t.logs.faults = (e :: s.logs.faults).take 256 ∧ e.kind = 2 ∧
        e.detail = 0 ∧ e.wher = BitVec.ofNat 64 addr.toNat)) ∧
  (∀ (port : Fin 2) (addr : BitVec 40) (count : Nat) (s : State), windowUp s port.val = false →
    ∃ t, exec (.bar2Read port addr count) s = .next t ∧ (portAt t port.val).out = List.replicate count 0xFF ∧
      (portAt t port.val).abort = false ∧ t.mem = s.mem ∧ t.logs = s.logs) ∧
  (∀ (port : Fin 2) (addr : BitVec 40) (data : List Byte) (s : State), windowUp s port.val = true → data ≠ [] →
    addr.toNat % 32 + data.length ≤ 32 →
    ((bar2Access addr.toNat).2 = true → mergeUe s addr.toNat data.length = none →
      ∃ t, exec (.bar2Write port addr data) s = .next t ∧ t.mem = putBytes s.mem addr.toNat data ∧ t.ports = s.ports ∧
        t.logs = s.logs ∧ t.host = s.host) ∧
    ((bar2Access addr.toNat).2 = false →
      (populated addr.toNat = true → exec (.bar2Write port addr data) s = .next s) ∧
      (populated addr.toNat = false → ∃ t e, exec (.bar2Write port addr data) s = .next t ∧ t.mem = s.mem ∧
        t.logs.faults = (e :: s.logs.faults).take 256 ∧ e.kind = 2 ∧ e.detail = 1 ∧ e.wher = BitVec.ofNat 64 addr.toNat)))

/-- Completion of recoveryDoorbell, pldmRequestUpdate, pldmSensorRead, mgmtAddrApply and mctpEidAssign: ROM recovery's
doorbell sets PM_BUSY; the check of the staged image, which the model makes when nothing is pending (log entry 2),
begins the write of one that verifies into the SF slot of lower GENERATION, slot A on a tie, and clears PM_BUSY for one
that does not; the end of that write boots, as AUTO where the straps ask for recovery (R494; log entry 15). An update
over PLDM waits with its image in the inactive slot and is answered SUCCESS (PRESUMED, log entry 14); a status sensor
returns its bit of DEV_STATUS; MGMT_ADDR applies, and the bus owner gives the EID while MGMT_ADDR gives none (R451,
R452, R453). -/
def Obligations.RecoveryAndManagementAct : Prop :=
  (∀ (port : Fin 4) (v : BitVec 64) (s : State), windowUp s port.val = true → s.dev.romRecovery = true → s.pins.tripped = false →
    v.getLsbD 0 = true → romBusy s = false → ∃ t, exec (.recoveryDoorbell port v) s = .next t ∧
      (portAt t port.val).busy = (portAt s port.val).busy ||| 1 ∧ (∀ q, q ≠ port.val → portAt t q = portAt s q) ∧
      t = { s with ports := t.ports }) ∧
  (∀ (s : State), s.pending = [] → s.dev.romRecovery = true → ctlRuns s = true → s.pins.tripped = false → romBusy s = true →
    s.flash.writing = none →
    let img := bytesAt s.dev.staging 0 0x300000
    let slot := if (fwSlotAt s 0 1).gen.toNat < (fwSlotAt s 0 0).gen.toNat then 1 else 0
    ∃ t, Sys2Proof.Machine.step s = .next t ∧
      (fwReason s 0 img = none → t.flash.writing = some (0, slot) ∧ fwSlotAt t 0 slot = ⟨0, img.take (fwLen img)⟩ ∧
        t = { s with flash := t.flash }) ∧
      (fwReason s 0 img ≠ none → (∀ p, (portAt t p).busy = 0) ∧ t = { s with ports := t.ports })) ∧
  (∀ (k slot : Nat) (s : State), s.flash.writing = some (k, slot) → s.dev.romRecovery = true → ctlRuns s = true →
    s.pins.tripped = false →
    let w := endFlash 0 slot { s with ports := s.ports.map fun x => (x.1, { x.2 with busy := 0 }) }
    exec .fwUpdateDone s = .next { bootFrom (if s.pins.bootSrc = 3 then 0 else s.pins.bootSrc)
      (modDev (fun d => { d with romRecovery := false, staging := [] }) w) with pending := s.pending } ∧
      w.flash.writing = none ∧ (fwReason s 0 (fwSlotAt s 0 slot).image = none →
        (fwSlotAt s 0 0).gen.toNat < 2 ^ 32 - 1 → (fwSlotAt s 0 1).gen.toNat < 2 ^ 32 - 1 → (fwSlotAt w 0 slot).gen ≠ 0)) ∧
  (∀ (image : BitVec 8) (data : List Byte) (s : State), ctlRuns s = true → s.dev.romRecovery = false → image.toNat ≤ 2 →
    s.flash.writing = none → fwReason s image.toNat data = none →
    let slot := inactiveSlot s image.toNat
    ∃ t, exec (.pldmRequestUpdate image data) s = .next t ∧ t.dev.mgmtOut = [0] ∧ t.flash.writing = some (image.toNat, slot) ∧
      fwSlotAt t image.toNat slot = ⟨0, data.take (fwLen data)⟩ ∧
      t.waits = s.waits ++ [⟨s.logs.seq + 1, .mgmt, 0x60, 0, 0, false, .fwUpdate image.toNat slot⟩] ∧
      t.logs.seq = s.logs.seq + 1 ∧ t.ports = s.ports) ∧
  (∀ (b : Fin 10) (s : State), ctlRuns s = true → s.dev.romRecovery = false →
    ∃ t, exec (.pldmSensorRead (.statusFlag b)) s = .next t ∧ t.dev.mgmtOut = toLE 1 (fld (devStatus s) b.val 1) ∧
      t.logs = s.logs ∧ t.pins = s.pins ∧ t.ports = s.ports) ∧
  (∀ (v : BitVec 16) (s : State), s.dev.nextMgmt = some v →
    ∃ t, exec .mgmtAddrApply s = .next t ∧ t.dev.mgmtAddr = v ∧ t.dev.nextMgmt = none ∧
      t.dev.eid = BitVec.ofNat 8 (v.toNat / 256) ∧ t.flash = s.flash) ∧
  (∀ (eid : BitVec 8) (s : State), ctlRuns s = true → s.dev.romRecovery = false →
    (s.dev.mgmtAddr.toNat < 256 → ∃ t, exec (.mctpEidAssign eid) s = .next t ∧ t.dev = { s.dev with eid := eid } ∧ t.flash = s.flash) ∧
    (256 ≤ s.dev.mgmtAddr.toNat → exec (.mctpEidAssign eid) s = .next s))

/-- Completion of tapReset, idcode, samplePreload, extest, extestPulse, extestTrain, highz, clamp, bypass: each TAP
instruction selects its register and has its effect on the lands, which the boundary tests have only while MOD_RST_N is
held low, when all other outputs are high-impedance; SAMPLE and the tests that capture pins load them; nothing else of
the module changes (R528, R532, Table 16.7). The order of the boundary cells, and that a listed value acts as 0xFF under
BYPASS, are the model's choices (log entry 18). Completion of keyprovStatus: Capture-DR of KEYPROV loads BUSY, whether
the bit-stream key and the BBRAM key are programmed, the last result, and the variant (R500, Table 14.8). -/
def Obligations.TapInstructionsAndKeyStatusAct : Prop :=
  (∀ s : State, s.pins.aux = true →
     let low := !s.pins.modRstN
     let chosen (ir : BitVec 8) (dr : BitVec 320) (drive hiz toggling : Bool) : Out :=
       .next { s with pins := { s.pins with ir := ir, dr := dr, drive := drive, hiz := hiz, toggling := toggling } }
     let test (ir : BitVec 8) (toggling : Bool) : Out :=
       if low then .next { s with free := s.free + 5, pins := { s.pins with
         ir := ir, dr := capturedPins s, drive := true, hiz := false, toggling := toggling } }
       else chosen ir 0 false false false
     exec .tapReset s = chosen 0x01 0x1564B0F3 false low false ∧
     exec .idcode s = chosen 0x01 0x1564B0F3 false low false ∧
     (∀ cells, exec (.samplePreload cells) s = .next { s with free := s.free + 5, pins :=
       { s.pins with ir := 0x02, dr := capturedPins s, boundary := cells, drive := false, hiz := low, toggling := false } }) ∧
     exec .extest s = test 0x03 false ∧
     exec .extestPulse s = test 0x04 true ∧
     exec .extestTrain s = test 0x05 true ∧
     exec .highz s = chosen 0x06 0 false low false ∧
     exec .clamp s = chosen 0x07 0 low false false ∧
     ((capturedPins s).getLsbD 0 = s.pins.modRstN ∧ (capturedPins s).getLsbD 2 = s.pins.haltN ∧
       (capturedPins s).getLsbD 4 = s.pins.thermtripN) ∧
     ∀ ir : BitVec 8, (exec (.bypass ir) s = chosen ir 0 false low false ∧ 7 < ir.toNat ∧ ir ≠ 0x40) ∨
       (exec (.bypass ir) s = chosen 0xFF 0 false low false ∧ ((1 ≤ ir.toNat ∧ ir.toNat ≤ 7) ∨ ir = 0x40)) ∨
       (exec (.bypass ir) s = chosen ir 0 false low false ∧ ir = 0)) ∧
  (∀ s : State, s.pins.aux = true → s.pins.modRstN = true → ∃ t, exec .keyprovStatus s = .next t ∧
     t.pins.ir = 0x40 ∧ t.pins.dr = t.trust.capture ∧
     t.trust = { s.trust with capture := t.trust.capture } ∧
     t.trust.capture.getLsbD 0 = s.trust.busy ∧ t.trust.capture.getLsbD 1 = s.trust.bsk.isSome ∧
     t.trust.capture.getLsbD 2 = s.trust.bbram.isSome ∧ fld t.trust.capture.toNat 3 4 = s.trust.result % 16 ∧
     t.trust.capture.getLsbD 7 = s.trust.secure ∧ t.trust.capture.toNat < 256 ∧
     FabricKept s t ∧ t.logs = s.logs)

/-- Completion of keyprovFuseProgram, keyprovBbramWrite, keyprovBbramZeroise, keyprovRevokeKey: what an operation of KEYPROV
does to fuses and BBRAM when its KCHK matches and no fuse is being programmed: a key goes into fuses once, BBRAM is
written or zeroised, and a ROM key is revoked unless none would remain; each raises KEY_PROVISIONED, and a zeroising
also TAMPER, first where the controller runs (R499, R500, Table 14.4; that order, and that a refused operation raises
nothing, are the model's choices, log entry 18). Completion of fuseProgramDone: a KEYPROV operation whose KCHK is not
the CRC-32C of KEY ends with its result and changes nothing else of trust; the programming of a fuse ends with the key
in fuses and KEY_PROVISIONED (R498, R500); that KCHK is checked for every operation, and that the programming goes on
under MOD_RST_N, are the model's choices (log entries 16 and 18). Completion of tamperNLow, vbatLow: TAMPER_N low for 1
µs and VBAT below its limit zeroise BBRAM and raise TAMPER with their cause; while a reset is held the cause is kept for
the next boot; a shorter pulse has no effect (R499). -/
def Obligations.KeyOperationsAndTamperAct : Prop :=
  (∀ (key : BitVec 256) (kchk : BitVec 32) (s : State), s.pins.aux = true → s.pins.modRstN = true → s.trust.busy = false →
     crc32c (toLE 32 key.toNat) = kchk.toNat →
     (s.trust.bsk = none → ∃ t, exec (.keyprovFuseProgram key kchk) s = .next t ∧
       t.trust = { s.trust with busy := true, pendKey := some key, result := 0 } ∧ NoEvent s t ∧ FabricKept s t) ∧
     (s.trust.bsk.isSome = true → ∃ t, exec (.keyprovFuseProgram key kchk) s = .next t ∧
       t.trust = { s.trust with result := 2 } ∧ NoEvent s t ∧ FabricKept s t) ∧
     (∃ t, exec (.keyprovBbramWrite key kchk) s = .next t ∧ t.trust = { s.trust with bbram := some key, result := 0 } ∧
       Raised 0x0204 0 [1, 0] s t ∧ FabricKept s t) ∧
     (ctlRuns s = true → ∃ t e, exec (.keyprovBbramZeroise key kchk) s = .next t ∧
       t.trust = { s.trust with bbram := none, tamperSeen := true, tamper := none, result := 0 } ∧
       e.code = 0x0203 ∧ e.payload = [1] ∧
       t.logs.raised = ⟨s.logs.eseq + 2, 0x0204, 0, s.stitch.count, [1, 0]⟩ :: e :: s.logs.raised ∧ FabricKept s t) ∧
     (ctlRuns s = false → ∃ t, exec (.keyprovBbramZeroise key kchk) s = .next t ∧
       t.trust = { s.trust with bbram := none, tamperSeen := true, tamper := some 1, result := 0 } ∧
       Raised 0x0204 0 [1, 0] s t ∧ FabricKept s t) ∧
     (s.trust.revoked ||| key.setWidth 4 ≠ 0xF → ∃ t, exec (.keyprovRevokeKey key kchk) s = .next t ∧
       t.trust = { s.trust with revoked := s.trust.revoked ||| key.setWidth 4, result := 0 } ∧
       Raised 0x0204 0 [2, BitVec.ofNat 8 (key.toNat % 16)] s t ∧ FabricKept s t) ∧
     (s.trust.revoked ||| key.setWidth 4 = 0xF → ∃ t, exec (.keyprovRevokeKey key kchk) s = .next t ∧
       t.trust = { s.trust with result := 3 } ∧ NoEvent s t ∧ FabricKept s t)) ∧
  ((∀ (key : BitVec 256) (kchk : BitVec 32) (s : State), s.pins.aux = true → s.pins.modRstN = true → s.trust.busy = false →
     crc32c (toLE 32 key.toNat) ≠ kchk.toNat →
     ∀ c ∈ [Instr.keyprovFuseProgram key kchk, .keyprovBbramWrite key kchk, .keyprovBbramZeroise key kchk, .keyprovRevokeKey key kchk],
       ∃ t, exec c s = .next t ∧ t.trust = { s.trust with result := 1 } ∧ t.logs = s.logs ∧ FabricKept s t) ∧
   (∀ (key : BitVec 256) (s : State), s.trust.pendKey = some key → s.trust.bsk = none →
     ∃ t, exec .fuseProgramDone s = .next t ∧ t.trust = { s.trust with bsk := some key, busy := false, pendKey := none, result := 0 } ∧
       Raised 0x0204 0 [0, 0] s t ∧ FabricKept s t ∧ t.pins = s.pins)) ∧
  (∀ s : State, let gone (cause : Nat) (c : Instr) : Prop :=
       ∃ t, exec c s = .next t ∧ t.trust.bbram = none ∧ t.trust.tamperSeen = true ∧ t.trust.bsk = s.trust.bsk ∧
         t.trust.revoked = s.trust.revoked ∧ t.pins = s.pins ∧ FabricKept s t ∧
         if ctlRuns s then t.trust.tamper = none ∧ Raised 0x0203 0 [BitVec.ofNat 8 cause] s t
         else t.trust.tamper = some cause ∧ NoEvent s t
     (∀ ns, 1000 ≤ ns → gone 0 (.tamperNLow ns)) ∧ gone 2 .vbatLow ∧
     ∀ ns, ns < 1000 → exec (.tamperNLow ns) s = .next s)

/-- Completion of haltNFall, haltNRise, alertRelease: HALT_N falling abandons every load that is queued or in progress,
drops every pending RUN, drives ALERT_N low, raises HALT_PIN with the contexts that it halts and logs it, and leaves
each of them FAULTED with HALTED, where no write is on its way, no RUN is ending and no load of the loader service
waits; the other contexts keep their state, and the other pins their levels (R319, R403, R527, Table 12.14). -/
def Obligations.HaltPinHaltsEveryContext : Prop :=
  (∀ s : State, s.pins.haltN = true → ctlRuns s = true → (∀ c ∈ softCtxs, haltable s c = false ∧ ∀ l, (ctxAt s c).latched = some l → l.done = true) →
    (∀ h < 8, (hoopAt s h).loads = []) →
    ∃ t, exec .haltNFall s = .next t ∧ t.pins = { s.pins with haltN := false, alertN := false } ∧
      Raised 0x0009 0 [0, 0] s t ∧ t.logs.lseq = s.logs.lseq + 1 ∧
      (∀ c ∈ softCtxs, (ctxAt t c).runPend = none ∧ (ctxAt t c).st = (ctxAt s c).st) ∧
      t.mem = s.mem ∧ t.tiles = s.tiles ∧ t.trust = s.trust) ∧
  (∀ s : State, s.pins.haltN = true → ctlRuns s = true → s.net.writes = [] → (∀ c, (ctxAt s c).ending = false) →
    (∀ h < 8, ∀ l ∈ (hoopAt s h).loads, ∀ k b, l.origin ≠ .loader k b) →
    ∃ t, exec .haltNFall s = .next t ∧ t.pins = { s.pins with haltN := false, alertN := false } ∧ t.trust = s.trust ∧
      (∀ h < 8, (hoopAt t h).loads = []) ∧
      (∃ e ∈ t.logs.raised, e.code = 0x0009 ∧ e.payload = toLE 2 (ctxMask (softCtxs.filter (haltable s)))) ∧
      (∃ e ∈ t.logs.faults, e.kind = 4) ∧
      ∀ c ∈ softCtxs, (ctxAt t c).runPend = none ∧
        (haltable s c = true → (ctxAt t c).st = .faulted ∧
          ∃ l, (ctxAt t c).latched = some l ∧ l.code = .halted ∧ l.done = true) ∧
        (haltable s c = false → (∀ l, (ctxAt s c).latched = some l → l.done = true) →
          (ctxAt t c).st = (ctxAt s c).st ∧ (ctxAt t c).latched = (ctxAt s c).latched)) ∧
  (∀ s : State, s.pins.haltN = true → ctlRuns s = false →
    exec .haltNFall s = .next { s with pins := { s.pins with haltN := false } }) ∧
  (∀ s : State, exec .haltNRise s = .next { s with pins := { s.pins with haltN := true } }) ∧
  (∀ s : State, s.pins.haltN = true → exec .alertRelease s = .next { s with pins := { s.pins with alertN := true } }) ∧
  (∀ s : State, s.pins.haltN = false → exec .alertRelease s = .next s)

/-- Completion of coldReset and auxRailLoss: a cold reset, by MOD_RST_N or by the loss of the auxiliary rail, loses
everything but flash, fuses and BBRAM, and holds: READY is 0 and the outputs are high-impedance. The rail's loss ends a
fuse programming with FAILED, resets the TAP, and may leave a persistent block that was being written failing its check
(R448, R501, R508, R528, R532, R538, Table 14.11). The model's choices: how long such a write may last (log entry 13),
and that a fuse programming survives MOD_RST_N (log entry 16). Completion of warmReset: a warm reset by its pin
completes issued HBM writes, those of the merge buffers with them, and holds the reset; it keeps HBM and the weight
store, the journal and its counts, the sticky fault log, STITCH_COUNT, the repairs, flash and keys, and loses the rest
(R262, R501, R502, R508); under a cold reset, a trip or a boot that waits the pin is recorded, and no more. One that a
RESET command asked for samples BOOT_SRC and boots at once (the model's choice, log entry 15). -/
def Obligations.ResetsKeepWhatSurvives : Prop :=
  (∀ s : State, let lost (t : State) : Prop :=
       t.mem = [] ∧ t.bad = [] ∧ t.tiles = [] ∧ t.hoops = [] ∧ t.ctxs = [] ∧ t.chans = [] ∧ t.pricks = [] ∧ t.txns = [] ∧
       t.waits = [] ∧ t.ports = [] ∧ t.logs = Logs.reset ∧ t.stitch = Stitch.reset ∧ t.net = Net.reset ∧ t.tags = [] ∧ t.zeros = [] ∧
       t.maint = Maint.reset ∧ t.dev.ready = false ∧ t.dev.restricted = false ∧ t.dev.debug = false ∧
       t.flash.slots = s.flash.slots ∧ t.flash.block = { s.flash.block with good := t.flash.block.good } ∧ t.flash.factory = s.flash.factory ∧ t.flash.writing = none ∧
       t.trust.bsk = s.trust.bsk ∧ t.trust.bbram = s.trust.bbram ∧ t.trust.revoked = s.trust.revoked ∧
       t.trust.uds = s.trust.uds ∧ t.trust.secure = s.trust.secure ∧ t.trust.debugOff = s.trust.debugOff ∧ t.host = s.host ∧
       t.pins.haltN = s.pins.haltN ∧ t.pins.warmRstN = s.pins.warmRstN ∧ t.pins.input = s.pins.input
     (∃ t, exec .coldReset s = .next t ∧ lost t ∧ t.pins.modRstN = false ∧ t.pins.aux = true ∧ t.pins.hiz = !t.pins.drive ∧
       t.flash.block = s.flash.block) ∧
     ∃ t, exec .auxRailLoss s = .next t ∧ lost t ∧ t.pins.aux = false ∧ t.pins.hiz = true ∧ t.pins.tripped = false ∧ t.pins.thermtripN = true ∧
       t.pins.ir = 1 ∧ t.pins.dr = 0x1564B0F3 ∧ t.trust.busy = false ∧ t.trust.pendKey = none ∧
       t.trust.result = (if s.trust.busy then 4 else 0) ∧
       ((s.logs.journal.head?.map fun e => e.opcode) ≠ some 0x52 → t.flash.block = s.flash.block)) ∧
  ((∀ s : State, warmServes s = true → s.pins.warmRstN = true →
     let u := ctlPart s (each (flushMerges s).net.writes performWrite (flushMerges s))
     (∃ t, exec (.warmReset .pin) s = .next t ∧ t.pins.warmRstN = false ∧ t.pins.modRstN = true ∧ t.dev.ready = false ∧
       (∀ a, Tab.get 0 t.mem a = if isHbm a || isWs a then Tab.get 0 u.mem a else 0) ∧
       t.logs.seq = s.logs.seq ∧ t.logs.eseq = s.logs.eseq ∧ t.logs.journal = s.logs.journal ∧ t.logs.faults = s.logs.faults ∧
       t.stitch.count = u.stitch.count ∧ t.maint.repairs = u.maint.repairs ∧ t.flash.slots = u.flash.slots ∧
       t.trust.bsk = s.trust.bsk ∧ t.trust.bbram = s.trust.bbram ∧ t.trust.revoked = s.trust.revoked ∧
       t.tiles = [] ∧ t.ctxs = [] ∧ t.chans = [] ∧ t.pricks = [] ∧ t.txns = [] ∧ t.waits = [] ∧ t.net = Net.reset ∧
       t.dev.bootCause = 1) ∧
     ∀ src : BitVec 2, s.dev.warmAsked = true →
       exec (.warmReset (.command src)) s = keepQueue (bootFrom src (modPins (fun p => { p with bootSrc := src })
         (warmState 2 { u with logs := s.logs }))) s ∧
       (src = 3 → ∃ t, exec (.warmReset (.command src)) s = .next t ∧
         t.dev.romRecovery = true ∧ t.dev.restricted = true ∧ t.dev.ready = false) ∧
       (s.pins.input = true → src ≠ 3 → ∀ sf sq lp, chooseSlots u src = some (sf, sq, lp) →
         ∃ t, exec (.warmReset (.command src)) s = .next t ∧ t.dev.ready = true ∧ t.dev.restricted = false ∧ t.dev.sf = sf ∧
           t.dev.sq = sq ∧ t.dev.lp = lp ∧ t.trust.udsLocked = true ∧ t.trust.bootImage = (fwSlotAt s 0 sf).image)) ∧
   (∀ s : State, warmServes s = false → s.pins.warmRstN = true →
     exec (.warmReset .pin) s = .next { s with pins := { s.pins with warmRstN := false } }))

/-- Completion of resetRelease: a release of the last held reset pin samples BOOT_SRC and boots: the chosen images run, the
UDS is locked, READY is 1 and BOOT_COMPLETE is raised last. Without a compatible SQ the module is restricted; without an
SF, or when the straps ask for it, it is in ROM recovery; a cold boot without the 54 V input waits for it (R489, R491,
R493, R494, R496, R536). That the boot runs whole at the release is the model's choice (log entry 15). A release while
the other reset pin is held, or of WARM_RST_N while tripped, samples BOOT_SRC and nothing more, a release of a pin that
is high changes nothing, and one of WARM_RST_N under a boot that waits goes on with it once the input is there (R501,
R536, R537, R544). -/
def Obligations.ReleasedResetsBoot : Prop :=
  (∀ (s : State) (pin : ResetPin) (src : BitVec 2),
     (pin = .modRst ∧ s.pins.aux = true ∧ s.pins.modRstN = false ∧ s.pins.warmRstN = true ∨
       pin = .warmRst ∧ s.pins.aux = true ∧ s.pins.modRstN = true ∧ s.pins.warmRstN = false ∧ s.pins.tripped = false ∧
         s.dev.bootWait = false) →
     (src = 3 → ∃ t, exec (.resetRelease pin src) s = .next t ∧ t.dev.romRecovery = true ∧ t.dev.restricted = true ∧
       t.dev.ready = false ∧ t.pins.modRstN = true ∧ t.pins.warmRstN = true) ∧
     (src ≠ 3 → verifiedSlots s src 0 = [] → ∃ t, exec (.resetRelease pin src) s = .next t ∧ t.dev.romRecovery = true ∧
       t.dev.restricted = true ∧ t.dev.ready = false ∧ t.pins.modRstN = true ∧ t.pins.warmRstN = true) ∧
     (src ≠ 3 → s.pins.input = true → ∀ sf sq lp, chooseSlots s src = some (sf, sq, lp) →
       ∃ t, exec (.resetRelease pin src) s = .next t ∧ t.dev.ready = true ∧ t.dev.restricted = false ∧ t.dev.romRecovery = false ∧
         t.dev.sf = sf ∧ t.dev.sq = sq ∧ t.dev.lp = lp ∧ t.trust.udsLocked = true ∧ t.trust.bootImage = (fwSlotAt s 0 sf).image ∧ t.pins.bootSrc = src ∧
         (∃ e, t.logs.raised.head? = some e ∧ e.code = 0x0200 ∧ e.payload.take 4 = [BitVec.ofNat 8 s.dev.bootCause, BitVec.ofNat 8 sf,
           BitVec.ofNat 8 sq, BitVec.ofNat 8 lp])) ∧
     (src ≠ 3 → s.pins.input = true → chooseSlots s src = none → ∀ sf rest, verifiedSlots s src 0 = sf :: rest →
       ∃ t, exec (.resetRelease pin src) s = .next t ∧ t.dev.ready = true ∧ t.dev.restricted = true ∧ t.dev.sf = sf ∧
         t.dev.sq = 0xFF ∧ t.trust.udsLocked = true) ∧
     (src ≠ 3 → s.pins.input = false → s.dev.bootCause = 0 → s.dev.ready = false → (chooseSlots s src).isSome = true →
       ∃ t, exec (.resetRelease pin src) s = .next t ∧ t.dev.ready = false ∧ t.dev.bootWait = true)) ∧
  (∀ (s : State) (src : BitVec 2),
     (s.pins.warmRstN = false → s.pins.modRstN = false ∨ s.pins.tripped = true → exec (.resetRelease .warmRst src) s =
       .next { s with pins := { s.pins with warmRstN := true, bootSrc := src } }) ∧
     (s.pins.warmRstN = false → s.pins.modRstN = false → s.pins.aux = true → exec (.resetRelease .modRst src) s =
       .next { s with pins := { s.pins with
         modRstN := true, bootSrc := src, tripped := false, thermtripN := true, drive := false, hiz := false, toggling := false } }) ∧
     (s.pins.warmRstN = false → s.pins.aux = true → s.pins.modRstN = true → s.pins.tripped = false → s.dev.bootWait = true →
       (s.pins.input = true → ∃ t, exec (.resetRelease .warmRst src) s = .next t ∧ t.dev.ready = true ∧ t.dev.bootWait = false ∧
         FabricKept s t ∧ ∃ e, t.logs.raised = e :: s.logs.raised ∧ e.code = 0x0200) ∧
       (s.pins.input = false → exec (.resetRelease .warmRst src) s =
         .next { s with pins := { s.pins with warmRstN := true, bootSrc := src } })) ∧
     (s.pins.modRstN = true → exec (.resetRelease .modRst src) s = .next s) ∧
     (s.pins.warmRstN = true → exec (.resetRelease .warmRst src) s = .next s))

/-- Completion of dormantEnter and inputOvervoltage: a fall of the 54 V input, or its overvoltage, halts the running
contexts, which end FAULTED with HALTED where no write is on its way and no RUN is ending, raises DORMANT_ENTER with
their mask, completes HBM writes and makes the module Dormant: READY is 0, HBM and the weight store keep what they then
hold, the other stores of every Hoop read 0, and the tiles, the stitch lock and the links are lost (R507, R508, R535).
What of CFG_PERSIST is cut short is the model's choice (log entry 13), and so are READY 0 and that no LINK_DOWN is
raised (log entry 17). Completion of dormantExit and inputWithinLimits: the input's return ends Dormant with
BOOT_COMPLETE and cause 3, and a boot that waits for the input goes on; while the controller does not run, or nothing
waits, only the input is recorded (R507, R536). Completion of thermtrip: a thermal trip drives THERMTRIP_N low and loses
the fabric, its memories and every context; the journal, the fault log, flash and keys stay, and a second trip changes
nothing; in cold reset only the trip is latched (R544). That device, repairs and logs stay is the model's choice (log
entry 17). -/
def Obligations.PowerLossAndTripTurnTheFabricOff : Prop :=
  (∀ s : State, ctlRuns s = true → s.dev.ready = true →
     let halted := softCtxs.filter (haltable s)
     let u := each halted (haltCtx false) s
     let v := each u.net.writes performWrite (raiseBoot 0x0205 0 (toLE 2 (ctxMask halted)) (cutPersist u))
     ∀ c ∈ [Instr.dormantEnter, .inputOvervoltage], ∃ t, exec c s = .next t ∧
       t.pins = { s.pins with input := false, dormant := true, overvolt := decide (c = .inputOvervoltage) } ∧
       t.dev.ready = false ∧ t.trust = s.trust ∧ t.stitch.count = v.stitch.count ∧ t.stitch.lock = .freeRunning ∧
       (∃ e ∈ t.logs.raised, e.code = 0x0205 ∧ e.payload = toLE 2 (ctxMask halted)) ∧
       (s.net.writes = [] → (∀ d, (ctxAt s d).ending = false) → ∀ d ∈ halted, (ctxAt t d).st = .faulted ∧
         ∃ l, (ctxAt t d).latched = some l ∧ l.code = .halted ∧ l.done = true) ∧
       (∀ a, isHbm a = true ∨ isWs a = true → Tab.get 0 t.mem a = Tab.get 0 v.mem a) ∧
       (∀ h < 8, ∀ a, onChip h a = true → Tab.get 0 t.mem a = 0) ∧
       t.net.writes = [] ∧ t.net.reqs = [] ∧ t.net.waiters = [] ∧ (∀ k, noHoop k < 8 → tileAt t k = Tile.reset) ∧
       (∀ p < 14, linkAt t p = Link.reset (linkAt v p).cfg)) ∧
  ((∀ s : State, s.pins.dormant = true → ctlRuns s = true → ∃ t, exec .dormantExit s = .next t ∧ t.dev.ready = true ∧
     t.pins = { s.pins with input := true, dormant := false, overvolt := false } ∧ FabricKept s t ∧ t.trust = s.trust ∧
     t.dev.sf = s.dev.sf ∧ t.dev.sq = s.dev.sq ∧ t.dev.lp = s.dev.lp ∧
     ∃ e, t.logs.raised = e :: s.logs.raised ∧ e.code = 0x0200 ∧ e.payload.head? = some 3) ∧
   (∀ s : State, s.pins.dormant = false → s.dev.bootWait = true → ctlRuns s = true → ∃ t, exec .inputWithinLimits s = .next t ∧
     t.dev.ready = true ∧ t.dev.bootWait = false ∧ t.pins = { s.pins with input := true } ∧ FabricKept s t ∧
     ∃ e, t.logs.raised = e :: s.logs.raised ∧ e.code = 0x0200) ∧
   (∀ s : State, s.pins.dormant = false → (s.dev.bootWait = false ∨ ctlRuns s = false) →
     exec .inputWithinLimits s = .next { s with pins := { s.pins with input := true } }) ∧
   (∀ s : State, s.pins.dormant = false → exec .dormantExit s = .next s) ∧
   ∀ s : State, s.pins.dormant = true → exec .inputWithinLimits s = .next s) ∧
  ((∀ s : State, s.pins.aux = true → s.pins.modRstN = true → s.pins.tripped = false → ∃ t, exec .thermtrip s = .next t ∧
     t.pins = { s.pins with tripped := true, thermtripN := false, dormant := false } ∧ t.dev.ready = false ∧
     t.mem = [] ∧ t.tiles = [] ∧ t.hoops = [] ∧ t.ctxs = [] ∧ t.chans = [] ∧ t.pricks = [] ∧ t.txns = [] ∧ t.waits = [] ∧ t.net = Net.reset ∧
     t.logs.journal = s.logs.journal ∧ t.logs.faults = s.logs.faults ∧ t.flash = s.flash ∧ t.trust = s.trust ∧
     t.maint.repairs = s.maint.repairs) ∧
   (∀ s : State, s.pins.aux = true → s.pins.modRstN = false → s.pins.tripped = false →
     exec .thermtrip s = .next { s with pins := { s.pins with tripped := true, thermtripN := false } }) ∧
   ∀ s : State, s.pins.tripped = true → exec .thermtrip s = .next s)

/-- Completion of hoopSleepEnter, hoopExit and hoopExitComplete: a Hoop in Rest without bounds goes to Sleep and loses its
tiles and its on-chip stores, which read 0, but its weight store, and all other memory stays; a commit, a load or an
access starts its exit, and the exit's end turns it on, makes the writes from outside that waited and, after Rest,
begins the runs that waited (R505, R506, R508, Table 14.11). -/
def Obligations.HoopsSleepAndWake : Prop :=
  (∀ (hoop : Fin 8) (s : State), (hoopAt s hoop.val).power = .rest → hoopBound s hoop.val = false → fabricOn s = true →
    ∃ t, exec (.hoopSleepEnter hoop) s = .next t ∧ (hoopAt t hoop.val).power = .sleep ∧ (hoopAt t hoop.val).motifs = [] ∧
      (hoopAt t hoop.val).flight = [] ∧ (hoopAt t hoop.val).table = (hoopAt s hoop.val).table ∧
      (∀ k, noHoop k = hoop.val → tileAt t k = Tile.reset) ∧ (∀ k, noHoop k ≠ hoop.val → tileAt t k = tileAt s k) ∧
      (∀ h, h ≠ hoop.val → hoopAt t h = hoopAt s h) ∧ 
      (∀ a, Tab.get 0 t.mem a = if onChip hoop.val a then 0 else Tab.get 0 s.mem a) ∧ t.ctxs = s.ctxs ∧ t.logs = s.logs) ∧
  (∀ (hoop : Fin 8) (cause : ExitCause) (s : State), fabricOn s = true → exitCause s hoop.val cause = true →
    ((hoopAt s hoop.val).power = .rest ∨ (hoopAt s hoop.val).power = .sleep) →
    ∃ t, exec (.hoopExit hoop cause) s = .next t ∧ (hoopAt t hoop.val).power = .exiting (decide ((hoopAt s hoop.val).power = .sleep)) ∧
      (∀ h, h ≠ hoop.val → hoopAt t h = hoopAt s h) ∧ t.tiles = s.tiles ∧ t.mem = s.mem ∧ t.ctxs = s.ctxs) ∧
  (∀ (hoop : Fin 8) (fromSleep : Bool) (s : State), (hoopAt s hoop.val).power = .exiting fromSleep →
    let on := heldWrites hoop.val (modHoop hoop.val (fun x => { x with power := .on }) s)
    (hoopAt on hoop.val).power = .on ∧ (hoopAt on hoop.val).held = [] ∧
    ((hoopAt s hoop.val).held = [] → on.mem = s.mem ∧ on.logs = s.logs) ∧
    (fromSleep = true ∨ fabricOn s = false ∨ waitingRuns s hoop.val = [] → exec (.hoopExitComplete hoop) s = .next on) ∧
    (fromSleep = false → fabricOn s = true → exec (.hoopExitComplete hoop) s =
      .next (ctlPart s (each (waitingRuns s hoop.val) (fun r => beginRun hoop.val r) on))))

/-- Completion of stitchBoundary: at a boundary where no command waits and no load is at hand, STITCH_COUNT advances by one,
pending RUNs begin, counts go on, and a Hoop without work or a load that a transaction stages enters Rest; a master
sends its beacon, one at each boundary (the model's choice, log entry 36); memory and tiles stay (R297, R302, R317,
R505). A boundary that a source announced takes its count and locks, with SYNC_LOCKED; once locked the count goes up by
one (R300, R303). A waiting command whose time is the boundary takes effect there and waits no longer: DEBUG_MODE, a
CFG_SET item whose context is not FREE, CTX_CREATE whose block still fits, a change of a mapping, a transaction that is
due, SWEEP_COMMIT of a sweep that is DONE, and EVICT_CONTEXT once its scan has ended. Of a transaction with one staged
change: an item takes its value, a repeat-table entry stands in its table, a RUN whose boundary has come makes its
context ACTIVE (R257, R317, R320, R350, R418, R434, R435, R442). -/
def Obligations.BoundariesApplyWhatWaits : Prop :=
  (∀ s : State, stitching s = true → s.waits = [] → (∀ h < 8, (hoopAt s h).loads = []) → s.stitch.placed = none →
     ∃ t, exec .stitchBoundary s = .next t ∧ t.stitch = { s.stitch with count := s.stitch.count + 1 } ∧
       (∀ c, 1 ≤ c → c ≤ 15 → ∀ n tagged, (ctxAt s c).runPend = some (n, 0, tagged) → n ≠ 0 → hasRun s c = false →
         (ctxAt t c).st = .active ∧ (ctxAt t c).runPend = none ∧ (ctxAt t c).runLeft = if n = 0xFFFFFFFF then none else some n.toNat) ∧
       (∀ c n, 1 ≤ c → c ≤ 15 → (ctxAt s c).runPend = none → (ctxAt s c).st = .active → (ctxAt s c).runLeft = some (n + 2) →
         (ctxAt s c).ending = false → (ctxAt t c).st = .active ∧ (ctxAt t c).runLeft = some (n + 1)) ∧
       (∀ c, 1 ≤ c → c ≤ 15 → (ctxAt s c).runPend = none → (ctxAt s c).st = .active → (ctxAt s c).runLeft = some 1 → hasRun s c = false →
         (ctxAt t c).st = .idle) ∧
       (∀ h < 8, let rests : Prop := (hoopAt s h).power = .on ∧ hoopWork s h = false ∧ (hoopAt s h).runs = [] ∧
           ∀ x ∈ s.txns, ∀ c m c0 c1 d, Staged.load c m h c0 c1 d ∉ x.staged
         (rests → (hoopAt t h).power = .rest) ∧ (¬ rests → (hoopAt t h).power = (hoopAt s h).power)) ∧
       t.mem = s.mem ∧ t.tiles = s.tiles ∧ t.chans = s.chans ∧ t.dev = s.dev ∧ t.logs = s.logs ∧
       t.net = (masterBeacon (nextCount s)).net ∧ t.links = (masterBeacon (nextCount s)).links ∧
       (s.stitch.cfg.getLsbD 27 = false → t.net = s.net ∧ t.links = s.links)) ∧
  (∀ (s : State) (n : BitVec 64), stitching s = true → s.waits = [] → (∀ h < 8, (hoopAt s h).loads = []) →
     s.stitch.placed = some n →
     ∃ t, exec .stitchBoundary s = .next t ∧ t.stitch.lock = .locked ∧ t.stitch.placed = none ∧
       t.stitch.count = (if s.stitch.lock = .locked then s.stitch.count + 1 else n) ∧
       (s.stitch.lock ≠ .locked → ∃ e, t.logs.raised = e :: s.logs.raised ∧ e.code = 0x21) ∧
       (s.stitch.lock = .locked → t.logs = s.logs)) ∧
  (∀ (s : State) (w : Wait), stitching s = true → s.waits = [w] → (∀ h < 8, (hoopAt s h).loads = []) → s.stitch.placed = none →
     let p := masterBeacon (nextCount s)
     (∀ on, w.what = .debug on → ∃ t, exec .stitchBoundary s = .next t ∧ t.dev = { s.dev with debug := on } ∧ t.waits = [] ∧
       t.stitch.count = s.stitch.count + 1 ∧ t.mem = s.mem ∧ t.tiles = s.tiles) ∧
     (∀ i n v, w.what = .item i n v → (∀ c wd, itemLoc i n = some (c, wd) → c ≠ 0 → isFree s c = false) →
       let u := finish w.seq .ok 0 (touch (fun x => decide (x = .item i n)) (setItem i n v p))
       (∀ h < 8, (hoopAt u h).loads = []) →
       ∃ t, exec .stitchBoundary s = .next t ∧ t.waits = [] ∧ ItemTook i n v s t ∧ Bounded u t) ∧
     (∀ id x, w.what = .commit id → txnAt s id = some x → dueTxn p x = true →
       let u := commitTxn id p
       (∀ h < 8, (hoopAt u h).loads = []) →
       ∃ t, exec .stitchBoundary s = .next t ∧ t.waits = u.waits ∧ Bounded u t) ∧
     (∀ id x y, w.what = .commit id → txnAt s id = some x → dueTxn p x = true → x.staged = [y] → x.touched = [] →
       x.shadowBad = false → (∀ h < 8, tableOk p h (periodOf p [y]) [y] = true) → regsOk p [y] = true → firstsOk p [y] = true →
       statesOk p [y] = true → (∀ c, y ≠ .sweepCommit c) →
       ∃ t, exec .stitchBoundary s = .next t ∧ t.waits = [] ∧
         (∀ i n v, y = .item i n v → ItemTook i n v s t) ∧
         (∀ h e v, y = .entry h e v → Tab.get 0 (hoopAt t h).table e = v) ∧
         (∀ c n first, y = .run c n first → n ≠ 0 → 1 ≤ c → c ≤ 15 → first.toNat ≤ p.stitch.count.toNat →
           (ctxAt t c).st = .active ∧ (ctxAt t c).runPend = none ∧
             (ctxAt t c).runLeft = if n = 0xFFFFFFFF then none else some n.toNat)) ∧
     (∀ c, w.what = .sweepCommit c → (sweepAt s c).st = .done → (ctxAt s c).latched = none → headerUe p c = none →
       let u := finish w.seq .ok 0 (touch (fun x => decide (x = .sweepCommit c)) (sweepCommitNow c p))
       (∀ h < 8, (hoopAt u h).loads = []) →
       ∃ t, exec .stitchBoundary s = .next t ∧ t.waits = [] ∧ (sweepAt t c).st = .none ∧ Bounded u t) ∧
     (∀ c bs, w.what = .ctxCreate c bs → blockFits s c bs = true →
       let u := finish w.seq .ok 0 (touch (ofCtx c) (createEffect c bs p))
       ∃ t, exec .stitchBoundary s = .next t ∧ t.waits = [] ∧ Bounded u t) ∧
     (∀ c f n va pa, w.what = .mapChange c f n va pa → isFree s c = false → underSweep p c f n va = false →
       let m := mapNow c f n va pa p
       let u := finish w.seq m.1 0 (dropTlb c m.2)
       ∃ t, exec .stitchBoundary s = .next t ∧ t.waits = [] ∧ Bounded u t) ∧
     (∀ c, w.what = .evict c → (ctxAt s c).evictEnd = true → (ctxAt s c).latched = none →
       1 ≤ c → c ≤ 15 → (ctxAt s c).runPend = none →
       ∃ t, exec .stitchBoundary s = .next t ∧ t.waits = [] ∧ (ctxAt t c).st = .evicted ∧ (ctxAt t c).evictEnd = false ∧
         (∀ h < 8, ∀ x ∈ (hoopAt t h).table, enCtx x.2.toNat ≠ c) ∧ t.mem = s.mem ∧ t.tiles = s.tiles))

/-- Completion of stitchSyncOutAssert, stitchSyncInEdge and stitchSyncLost: the master drives SYNC_OUT where its bit is set;
an edge, a beacon and the loss of the source act on a follower's lock: a match clears the mismatches, the third mismatch
in a row or a loss makes it LOST with SYNC_LOST (R301 to R303, R530). Completion of stitchBeacon: a beacon of the period
in force places the next boundary and is forwarded on every other UP port with less time left; a copy of one already
seen changes nothing, and another period is a mismatch, which is not forwarded (R302, R303; the last, and how the copies
are told, are the model's choices, log entry 34). Completion of thermalEval and powerSample: the skip level of each Hoop
goes up by one, at most to 7, while its hottest junction is at T_DUTY or above, and down by one at 5 degrees below;
after a trip the sensors are still read; a power limit that comes to be broken raises POWER_OVER with mean and peak,
also while the other is broken (R328, R541, R544; that a mean needs 100 samples and the peak is the window's are the
model's choices, log entry 34). -/
def Obligations.FollowersBeaconsAndSamplesAct : Prop :=
  ((∀ (level : Bool) (s : State), stitching s = true → s.stitch.cfg.getLsbD 27 = true →
     exec (.stitchSyncOutAssert level) s = .next { s with stitch := { s.stitch with syncOut := level } }) ∧
   (∀ (ns off : Nat) (s : State), stitching s = true → stitchSrc s = 1 → 1000 ≤ ns → s.stitch.lock = .locked → off ≤ 64 →
     exec (.stitchSyncInEdge ns off) s = .next { s with stitch := { s.stitch with mismatches := 0 } }) ∧
   (∀ (ns off : Nat) (s : State), stitching s = true → stitchSrc s = 1 → 1000 ≤ ns → s.stitch.lock = .locked → 64 < off →
     s.stitch.mismatches < 2 → exec (.stitchSyncInEdge ns off) s =
       .next { s with stitch := { s.stitch with mismatch := true, mismatches := s.stitch.mismatches + 1 } }) ∧
   (∀ (ns off : Nat) (s : State), stitching s = true → stitchSrc s = 1 → 1000 ≤ ns → s.stitch.lock = .locked → 64 < off →
     2 ≤ s.stitch.mismatches → ∃ t, exec (.stitchSyncInEdge ns off) s = .next t ∧ t.stitch.lock = .lost ∧ t.stitch.mismatches = 0 ∧
       t.stitch.count = s.stitch.count ∧ ∃ e, t.logs.raised = e :: s.logs.raised ∧ e.code = 0x20) ∧
   (∀ (ns off : Nat) (s : State), stitching s = true → stitchSrc s = 1 → 1000 ≤ ns → s.stitch.lock ≠ .locked →
     ∃ t, exec (.stitchSyncInEdge ns off) s = .next t ∧ t.stitch.placed.isSome = true ∧ t.stitch.mismatches = 0 ∧
       t.stitch.lock = s.stitch.lock ∧ t.stitch.count = s.stitch.count) ∧
   (∀ s : State, stitching s = true → stitchSrc s ≠ 0 → s.stitch.lock ≠ .lost → ∃ t, exec .stitchSyncLost s = .next t ∧
     t.stitch = { s.stitch with lock := .lost, placed := none, mismatches := 0, seen := [] } ∧
     ∃ e, t.logs.raised = e :: s.logs.raised ∧ e.code = 0x20)) ∧
  (∀ (port : Fin 12) (count : BitVec 64) (period : BitVec 25) (left : Nat) (s : State), stitching s = true → stitchSrc s = 2 →
     (linkAt s port.val).st = .up →
     (s.stitch.seen.contains count = false → period.toNat = fld s.stitch.cfg.toNat 0 25 →
       ∃ t rest, exec (.stitchBeacon port count period left) s = .next t ∧ t.stitch.placed = some count ∧
         t.stitch.seen = count :: s.stitch.seen ∧
         t.stitch.mismatches = 0 ∧ t.stitch.lock = s.stitch.lock ∧ t.stitch.count = s.stitch.count ∧ rest ≤ left ∧
         let sent := ((trainedPorts s).filter (· ≠ port.val)).foldl (fun u q => sendVia q (.beacon count period rest) u) (useFree 1 s)
         t.net = sent.net ∧ t.links = sent.links) ∧
     (s.stitch.seen.contains count = true → exec (.stitchBeacon port count period left) s = .next s) ∧
     (s.stitch.seen.contains count = false → period.toNat ≠ fld s.stitch.cfg.toNat 0 25 → s.stitch.mismatches < 2 →
       exec (.stitchBeacon port count period left) s = .next { s with stitch := { s.stitch with
         seen := count :: s.stitch.seen, mismatch := true, mismatches := s.stitch.mismatches + 1, srcPeriod := period.toNat } })) ∧
  ((∀ (temps : List Int) (s : State), stitching s = true → temps.length = 8 → ∃ t, exec (.thermalEval temps) s = .next t ∧
     (∀ h < 8, Tab.get 0 t.stitch.duty h =
       let k := Tab.get 0 s.stitch.duty h
       let x := temps.getD h 0
       let limit : Int := (fld s.stitch.cfg.toNat 32 8 : Nat)
       if limit ≤ x then min 7 (k + 1) else if x ≤ limit - 5 then k - 1 else k) ∧
     t.dev.temps = temps ∧ t.stitch.count = s.stitch.count ∧ FabricKept s t) ∧
   (∀ (temps : List Int) (s : State), stitching s = false → s.pins.tripped = true → temps.length = 8 →
     exec (.thermalEval temps) s = .next { s with dev := { s.dev with temps := temps } }) ∧
   (∀ (watts : Nat) (s : State),
     let xs := (watts :: s.dev.samples).take 100
     let nOver := if 3400 < watts then s.dev.overRun + 1 else 0
     ∃ t, exec (.powerSample watts) s = .next t ∧ t.dev = { s.dev with samples := xs, overRun := nOver } ∧ FabricKept s t ∧
       let old := powerBroken s.dev.overRun s.dev.samples
       let new := powerBroken nOver xs
       (new.1 = true ∧ old.1 = false ∨ new.2 = true ∧ old.2 = false →
         Raised 0x24 0 (toLE 2 (xs.sum / xs.length) ++ toLE 2 (xs.foldl max 0)) s t) ∧
       ((new.1 = true → old.1 = true) → (new.2 = true → old.2 = true) → t.logs = s.logs)))

/-- Completion of entryStart, reconfStart and sweepStart: an entry that may start is in progress from START: a RUN entry
with RECONF and a RECONF entry ask for their load, a RUN entry whose region holds MOTIF runs with its tiles started, and
a SWEEP entry of an open sweep lets its engine process blocks; an entry that may not start begins nothing (R307, R308,
R310, R311). -/
def Obligations.EntriesStart : Prop :=
  ∀ (hoop : Fin 8) (entry : Fin 128) (s : State),
    let h := hoop.val
    let x := entryAt s h entry.val
    (startsNow s h entry.val 1 = true → enReconf x = true → ∃ t, exec (.entryStart hoop entry) s = .next t ∧
      (hoopAt t h).runs = (hoopAt s h).runs ++ [runOfEntry entry.val x .loading] ∧
      (∃ l ∈ (hoopAt t h).loads, l.origin = .entry entry.val) ∧ t.tiles = s.tiles ∧ t.ctxs = s.ctxs ∧ t.mem = s.mem) ∧
    (startsNow s h entry.val 1 = true → enReconf x = false → (hoopAt s h).power = .on →
      holds s h (enC0 x) (enC1 x) (enCtx x) (enMotif x) = true →
      (∀ k ∈ regionTiles h (enC0 x) (enC1 x), queuesClash (tileAt s k) = false) →
      armedImage s (enCtx x) h (enC0 x) (enC1 x) (enMotif x) = false →
      ∃ t, exec (.entryStart hoop entry) s = .next t ∧
        (hoopAt t h).runs = (hoopAt s h).runs ++ [runOfEntry entry.val x .running] ∧
        (∀ k ∈ regionTiles h (enC0 x) (enC1 x), (tileAt t k).seq = startSeq k (tileAt s k) ∧ (tileAt t k).m = MTile.reset ∧
          (tileAt t k).v = VTile.reset ∧ (tileAt t k).queues = (tileAt s k).queues) ∧
        (∀ k, k ∉ regionTiles h (enC0 x) (enC1 x) → tileAt t k = tileAt s k) ∧ t.mem = s.mem ∧ t.chans = s.chans) ∧
    (startsNow s h entry.val 2 = true → ∃ t, exec (.reconfStart hoop entry) s = .next t ∧
      (hoopAt t h).runs = (hoopAt s h).runs ++ [runOfEntry entry.val x .loading] ∧
      (∃ l ∈ (hoopAt t h).loads, l.origin = .entry entry.val) ∧ t.tiles = s.tiles ∧ t.ctxs = s.ctxs ∧ t.mem = s.mem) ∧
    (mayStart s h entry.val 3 = true → runAt s h entry.val = none → hoopServes s h = true → (sweepAt s (enCtx x)).st = .opened →
      ∃ t, exec (.sweepStart hoop entry) s = .next t ∧
        (hoopAt t h).runs = (hoopAt s h).runs ++ [{ runOfEntry entry.val x .sweeping with outOk := !engineBusy s h }] ∧ t.tiles = s.tiles ∧ t.ctxs = s.ctxs ∧
        t.mem = s.mem) ∧
    (mayStart s h entry.val 1 = false → ∃ t, exec (.entryStart hoop entry) s = .next t ∧ (hoopAt t h).runs = (hoopAt s h).runs ∧
      t.tiles = s.tiles ∧ t.ctxs = s.ctxs ∧ t.mem = s.mem) ∧
    (mayStart s h entry.val 2 = false → ∃ t, exec (.reconfStart hoop entry) s = .next t ∧ (hoopAt t h).runs = (hoopAt s h).runs ∧
      t.tiles = s.tiles ∧ t.ctxs = s.ctxs ∧ t.mem = s.mem) ∧
    (mayStart s h entry.val 3 = false → exec (.sweepStart hoop entry) s = .next s)

/-- Completion of outAtReached, deadline and forcedStopComplete: OUT_AT lets a PHASE_SPLIT region enter OUT; DEADLINE makes
a sweep's entry pause, and releases it once the engine has no block in flight, and faults the context of a load or a run
that is not complete with OVERRUN (XLATE where a stream is parked), naming the item that overrunItem gives (log entry
34); a completed forced stop releases the region (R310 to R314). Completion of runComplete: a run whose active
sequencers have all ended, and of whose shuttles and G tiles none can fire or has a token or credit on its way,
completes once the checks of remote knots have been answered: the end-of-run checks are made and the entry is released;
with SCAN_OUT_AFTER its region is scanned out and its queues are empty. Until then the run stays (R101, R280, R313,
R321; a shuttle that waits for an output without a circuit fails its check, the model's choice, log entry 38). -/
def Obligations.EntriesEndAndRunsComplete : Prop :=
  (∀ (hoop : Fin 8) (entry : Fin 128) (s : State) (r : RunSt), let h := hoop.val
     runAt s h entry.val = some r → ((hoopAt s h).runs.map (·.entry)).Nodup →
     (r.split = true → ∃ t, exec (.outAtReached hoop entry) s = .next t ∧ runAt t h entry.val = some { r with outOk := true } ∧
       t.tiles = s.tiles ∧ t.mem = s.mem ∧ t.ctxs = s.ctxs) ∧
     (r.stage = .sweeping → ∃ t, exec (.deadline hoop entry) s = .next t ∧
       runAt t h entry.val = (if engineBusy s h then some { r with stage := .pausing } else none) ∧
       t.tiles = s.tiles ∧ t.mem = s.mem ∧ t.ctxs = s.ctxs) ∧
     (r.stage = .pausing → exec (.deadline hoop entry) s = .next s) ∧
     (r.stage = .loading → (ctxAt s r.ctx).latched = none → ∃ t, exec (.deadline hoop entry) s = .next t ∧
       runAt t h entry.val = none ∧ (∀ l ∈ (hoopAt t h).loads, l.origin ≠ .entry entry.val) ∧
       (∃ l, (ctxAt t r.ctx).latched = some l ∧ l.code = .overrun ∧ l.done = false) ∧ t.tiles = s.tiles ∧ t.mem = s.mem) ∧
     (r.stage = .running →
       let keep := decide ((ctxAt s r.ctx).st = .evicting) && (ctxAt s r.ctx).latched.isNone && (parkedTile s h r).isSome
       let u := stopRegion keep r.ctx h r.c0 r.c1 (if keep then s else match parkedTile s h r with
          | some k => faultAt r.ctx .xlate (tileItem s k) s
          | none => useFree 1 (faultAt r.ctx .overrun (overrunItem s h r) s))
       (hoopAt u h).runs = (hoopAt s h).runs →
       ∃ t, exec (.deadline hoop entry) s = .next t ∧ runAt t h entry.val = some { r with stage := .stopped } ∧
         (ctxAt t r.ctx).latched = (ctxAt u r.ctx).latched ∧ t.tiles = u.tiles ∧ t.mem = u.mem) ∧
     (r.stage = .stopped → ∃ t, exec (.forcedStopComplete hoop entry) s = .next t ∧ runAt t h entry.val = none ∧
       ((ctxAt s r.ctx).latched ≠ none → ∀ k ∈ regionTiles h r.c0 r.c1, (tileAt t k).queues = []) ∧ t.mem = s.mem)) ∧
  (∀ (hoop : Fin 8) (entry : Fin 128) (s : State) (r : RunSt), let h := hoop.val
     runAt s h entry.val = some r → r.stage = .running →
     (∀ k ∈ regionTiles h r.c0 r.c1, (tileAt s k).seq.on = true → (tileAt s k).seq.ended = true) →
     steeringQuiet s r.ctx h r.c0 r.c1 = true →
     let v := if enScan (entryAt s h entry.val) then landAll [(h, r.c0, r.c1, r.motif)] s else s
     let u := runChecks r.ctx h r.c0 r.c1 v
     (enScan (entryAt s h entry.val) = false → checksAnswered v h r.c0 r.c1 = true →
       ∃ t, exec (.runComplete hoop entry) s = .next t ∧ runAt t h entry.val = none ∧ t.mem = u.mem ∧ t.tiles = u.tiles ∧
         (ctxAt t r.ctx).latched = (ctxAt u r.ctx).latched) ∧
     (enScan (entryAt s h entry.val) = false → checksAnswered v h r.c0 r.c1 = false →
       ∃ t, exec (.runComplete hoop entry) s = .next t ∧ runAt t h entry.val = some r ∧ t.mem = s.mem) ∧
     (enScan (entryAt s h entry.val) = true → scanFits v [(h, r.c0, r.c1, r.motif)] = true →
       checksAnswered v h r.c0 r.c1 = true → (ctxAt u r.ctx).latched = none → scanParity u [(h, r.c0, r.c1, r.motif)] = none →
       ∃ t, exec (.runComplete hoop entry) s = .next t ∧ runAt t h entry.val = none ∧
         (∀ k ∈ regionTiles h r.c0 r.c1, (tileAt t k).queues = []) ∧
         (h, r.c0, r.c1, r.motif, true, false) ∈ (ctxAt t r.ctx).images))

/-- Completion of nop, mFence, vFence, aFence, bFence and skipz: a NOP of any kind, and a FENCE whose tile's units are idle,
fire; with END a NOP too waits for that (R99, R124). A step that SKIPZ stands on goes to TARGET and reloads its counter
when the counter is 0, else to the next step (R100). A step with END whose operation its unit has taken fires once the
condition of FENCE holds (R124). -/
def Obligations.PlainAndEndStepsFire : Prop :=
  ((∀ (site : Site) (kd : Kind) (c : Nat) (st : Stp) (s : State), StandsOn site kd c st s → st.opc = 0 →
     (st.flow = 4 → fenceOk (tileAt s (siteNo site)) kd = true) →
     ∃ t, exec (.nop site) s = .next t ∧ Fired (siteNo site) st s t) ∧
   (∀ (site : Site) (c : Nat) (st : Stp) (s : State),
     (StandsOn site .M c st s → st.opc = 5 → fenceOk (tileAt s (siteNo site)) .M = true →
       ∃ t, exec (.mFence site) s = .next t ∧ Fired (siteNo site) st s t) ∧
     (StandsOn site .V c st s → st.opc = 0x0A → fenceOk (tileAt s (siteNo site)) .V = true →
       ∃ t, exec (.vFence site) s = .next t ∧ Fired (siteNo site) st s t) ∧
     (StandsOn site .A c st s → st.opc = 6 → fenceOk (tileAt s (siteNo site)) .A = true →
       ∃ t, exec (.aFence site) s = .next t ∧ Fired (siteNo site) st s t) ∧
     (StandsOn site .B c st s → st.opc = 4 → fenceOk (tileAt s (siteNo site)) .B = true →
       ∃ t, exec (.bFence site) s = .next t ∧ Fired (siteNo site) st s t)) ∧
   (∀ (site : Site) (r : RunSt) (s : State), let k := siteNo site
     let t := tileAt s k
     runOf s k = some r → kindOf k ≠ .S → kindOf k ≠ .G → t.seq.on = true → t.seq.ended = false → (curStep t).flow = 3 →
     (lcAt t (curStep t).lc = 0 → exec (.skipz site) s = .next (modTile k (fun t => { t with seq := { t.seq with
       wait := 0, issued := false, pc := (curStep t).target, lc := Tab.set 0 t.seq.lc (curStep t).lc (lcInit t (curStep t).lc) } }) s)) ∧
     (lcAt t (curStep t).lc ≠ 0 → t.seq.pc ≠ 1023 → exec (.skipz site) s =
       .next (modTile k (fun t => { t with seq := { t.seq with wait := 0, issued := false, pc := t.seq.pc + 1 } }) s)))) ∧
  (∀ (site : Site) (c : Nat) (st : Stp) (s : State),
     let k := siteNo site
     let fires (kd : Kind) (i : Instr) : Prop := StandsOn site kd c st s → (tileAt s k).seq.issued = true →
       fenceOk (tileAt s k) kd = true → ∃ t, exec i s = .next t ∧ Fired k st s t
     (st.opc = 1 → fires .M (.wload site)) ∧ (st.opc = 2 → fires .M (.wskip site)) ∧ (st.opc = 3 → fires .M (.pass site)) ∧
     (st.opc = 4 → fires .M (.drain site)) ∧ (st.opc = 2 → fires .V (.chain site)) ∧ (st.opc = 3 → fires .V (.vld site)) ∧
     (st.opc = 4 → fires .V (.vst site)) ∧ (st.opc = 5 → fires .V (.cload site)) ∧ (st.opc = 6 → fires .V (.cevict site)) ∧
     (st.opc = 1 → vdClass (vdAt (tileAt s k) (fld st.args 0 7)) = 9 → fires .V (.vopInt site)) ∧
     (st.opc = 9 → fires .V (.flagrd site)) ∧ (st.opc = 2 → fires .A (.ld site)) ∧ (st.opc = 1 → fires .A (.st site)) ∧
     (st.opc = 1 → fires .B (.sstart site)))

/-- Completion of wload, wskip, pass and drain: the idle unit accepts its operation. The loader gets a bank, a slice address
and a format, the array a pass from its first row, the drain its descriptor; a bank marked by WSKIP is empty, at once or
when the pass that uses it has ended, and a pass or drain without rows does nothing (R124, R125, R128, R130, R133,
R144). Completion of wloadComplete: a weight load ends with its bank holding the bytes of its slice, or, where a
codeword of them is uncorrectable, with the bank invalid and WEIGHT_UE (R128, R131, R132). A WSKIP that waits for the
pass on its bank marks the bank empty when that pass has ended, here with a last row that its mask skips: the loader is
idle again, and until then the bank holds its image (R125, R130, R138). -/
def Obligations.MatrixStepsAndWeightLoadsAct : Prop :=
  (∀ (site : Site) (c : Nat) (st : Stp) (s : State), StandsOn site .M c st s →
     let k := siteNo site
     let t := tileAt s k
     t.seq.issued = false →
     (st.opc = 1 → t.m.loader = none → ∀ pa,
       let d := wdAt t (fld st.args 0 4)
       let n := imageSize (fld d 17 4) (bitAt d 21)
       isMFmt (fld d 17 4) = true → wsAddr s c k ((fld d 0 17 + iterIdx t st (bitAt st.args 5) * fld d 22 17) * 128) n = some pa →
       Accepts (exec (.wload site) s) .M k st s (modM k (fun m =>
         { (if bankBusy t.m (fld st.args 4 1) then m else setBank m (fld st.args 4 1) .loading) with
           loader := some ⟨fld st.args 4 1, pa, fld d 17 4, bitAt d 21, peek s pa n, false⟩ }) s)) ∧
     (st.opc = 2 → t.m.loader = none →
       Accepts (exec (.wskip site) s) .M k st s (modM k (fun m => if bankBusy t.m (fld st.args 4 1) then
         { m with loader := some ⟨fld st.args 4 1, 0, 0, false, [], true⟩ } else setBank m (fld st.args 4 1) .empty) s)) ∧
     (st.opc = 3 → t.m.array = none →
       let d := pdAt t (fld st.args 0 4)
       let i := iterIdx t st (bitAt st.args 5)
       (pdT d = 0 → Accepts (exec (.pass site) s) .M k st s s) ∧
       (pdT d ≠ 0 → passUndef t k d = none → (psAddr s c k (256 * pdRow d) (256 * pdT d)).isSome = true →
         let op : PassOp := ⟨fld st.args 0 4, i, fld st.args 4 1, 0, passInit d (fld st.args 6 2) i, 0, [], t.m.drain.isSome, 0, none⟩
         Accepts (exec (.pass site) s) .M k st s (modM k (fun m => { m with array := some op }) s))) ∧
     (st.opc = 4 → t.m.drain = none →
       let d := ddAt t (fld st.args 0 3)
       (ddRows d = 0 → Accepts (exec (.drain site) s) .M k st s s) ∧
       let op : DrainOp := ⟨fld st.args 0 3, iterIdx t st (bitAt st.args 5), 0, [], [], t.m.array.isSome, 0⟩
       (ddRows d ≠ 0 → drainUndef t k d = none →
         Accepts (exec (.drain site) s) .M k st s (modM k (fun m => { m with drain := some op }) s)))) ∧
  (∀ (site : Site) (r : RunSt) (l : LoadOp) (s : State), let k := siteNo site
     let m := (tileAt s k).m
     let n := imageSize l.fmt l.sp24
     runOf s k = some r → m.loader = some l → l.skip = false → (bankBusy m l.bank = true → bankAt m l.bank = .loading) →
     ((ueAt s l.addr n) = none → ∃ t, exec (.wloadComplete site) s = .next t ∧ (tileAt t k).m.loader = none ∧
       (∃ im, bankAt (tileAt t k).m l.bank = .ready im l.fmt l.sp24 ∧ (l.old = peek s l.addr n → im = l.old)) ∧
       (∀ b < 2, b ≠ (if l.bank = 0 then 0 else 1) → bankAt (tileAt t k).m b = bankAt m b) ∧ t.mem = s.mem ∧
       (∀ j, j ≠ k → tileAt t j = tileAt s j) ∧ t.ctxs = s.ctxs) ∧
     ((ueAt s l.addr n).isSome = true → (ctxAt s r.ctx).latched = none → ∃ t, exec (.wloadComplete site) s = .next t ∧
       (tileAt t k).m.loader = none ∧ bankAt (tileAt t k).m l.bank = .invalid ∧
       ∃ x, (ctxAt t r.ctx).latched = some x ∧ x.code = .weightUe)) ∧
  (∀ (site : Site) (r : RunSt) (p : PassOp) (l : LoadOp) (bs : List Bool) (im : List Byte) (fmt : Nat) (sp : Bool) (pb : Nat)
     (s : State), let k := siteNo site
     let x := tileAt s k
     let d := pdAt x p.pd
     let strips := if sp then 2 else 1
     runOf s k = some r → x.m.array = some p → x.m.loader = some l → l.skip = true → l.bank = p.bank →
     bankAt x.m p.bank = .ready im fmt sp → passHeld x.m x (pdRow d + p.t) p.after = false → pdQueue d = false →
     pdMasked d = true → (sideTile k (pdSide d)).isSome = true → p.bits = some bs →
     ((bs.drop (strips * p.t)).take strips).all (!·) = true → psAddr s r.ctx k (256 * (pdRow d + p.t)) 256 = some pb →
     ∃ t, exec (.passRow site) s = .next t ∧ (tileAt t k).m.skips = satAdd 32 x.m.skips 1 ∧
       (p.init = true → zeroRow t pb = true) ∧ t.mem = s.mem ∧
       if p.t + 1 < pdT d then bankAt (tileAt t k).m p.bank = .ready im fmt sp ∧ (tileAt t k).m.loader = some l
       else bankAt (tileAt t k).m p.bank = .empty ∧ (tileAt t k).m.loader = none ∧ (tileAt t k).m.array = none)

/-- Completion of passRow: a row of a pass that reads its neighbour unmasked enters the array: its partial-sum row takes the
row's sums, its ZERO bit is cleared, and the pass goes on or ends after its last row; on a bank marked empty an INIT row
becomes a ZERO row (R120, R135, R139, R140, R142). A pass that reads queues takes one token for each command, and the
last token of a row, the only one of an 8-bit row, sends the row of all its tokens into the array (R120, R136, R140). -/
def Obligations.RowsAndQueuePassesEnterTheArray : Prop :=
  (∀ (site : Site) (r : RunSt) (p : PassOp) (s : State), let k := siteNo site
     let x := tileAt s k
     let d := pdAt x p.pd
     runOf s k = some r → x.m.array = some p → passHeld x.m x (pdRow d + p.t) p.after = false → pdQueue d = false →
     pdMasked d = false → ∀ a, sideTile k (pdSide d) = some a → ∀ pb, psAddr s r.ctx k (256 * (pdRow d + p.t)) 256 = some pb →
     (∀ im fmt pa, bankAt x.m p.bank = .ready im fmt false → pdFmt d ≠ 1 → s.dev.debug = false →
       wideAt s r.ctx a ((pdABase d + p.i * pdAInc d + p.t * pdAStride d) * 64) (64 * fmtBytes (pdFmt d)) true = .at_ pa →
       (p.init = true ∨ s.zeroBad.contains (pb / 16384) = false ∧ (zeroRow s pb = true ∨ ueAt s pb 256 = none)) →
       let sums := rowSums im fmt false (actsOf (pdFmt d) (peek s pa (64 * fmtBytes (pdFmt d))) [] [true])
         (if p.init then none else some (psRow s pb)) s.free
       ∃ t, exec (.passRow site) s = .next t ∧ peek t pb 256 = sums.flatMap (fun y => toLE 4 y.1) ∧ zeroRow t pb = false ∧
         (tileAt t k).m.rows = satAdd 32 x.m.rows 1 ∧ ((tileAt t k).m.array.isSome = decide (p.t + 1 < pdT d)) ∧
         (∀ j, j ≠ k → tileAt t j = tileAt s j) ∧ t.chans = s.chans) ∧
     (bankAt x.m p.bank = .empty → ∃ t, exec (.passRow site) s = .next t ∧ (p.init = true → zeroRow t pb = true) ∧
       (p.init = false → t.zeros = s.zeros) ∧ t.mem = s.mem ∧ ((tileAt t k).m.array.isSome = decide (p.t + 1 < pdT d)))) ∧
  ((∀ (site : Site) (r : RunSt) (p : PassOp) (im : List Byte) (fmt : Nat) (a : Token) (pb : Nat) (s : State), let k := siteNo site
     let x := tileAt s k
     let d := pdAt x p.pd
     let q := pdDQ d + p.taken % nqOf (pdNQ d)
     let u := popTok k q s
     runOf s k = some r → x.m.array = some p → passHeld x.m x (pdRow d + p.t) p.after = false → pdQueue d = true →
     pdMasked d = false → bankAt x.m p.bank = .ready im fmt false → headOf x q = .tok a →
     p.row.length + 1 = fmtBytes (pdFmt d) → psAddr s r.ctx k (256 * (pdRow d + p.t)) 256 = some pb →
     (p.init = true ∨ s.zeroBad.contains (pb / 16384) = false ∧ (zeroRow s pb = true ∨ ueAt s pb 256 = none)) →
     let sums := rowSums im fmt false (actsOf (pdFmt d) (((p.row ++ [a.val]).flatMap tokBytes).take (64 * fmtBytes (pdFmt d))) [] [true])
       (if p.init then none else some (psRow s pb)) u.free
     ∃ t, exec (.passRow site) s = .next t ∧ peek t pb 256 = sums.flatMap (fun y => toLE 4 y.1) ∧ zeroRow t pb = false ∧
       qToks (tileAt t k) q = (qToks x q).tail ∧ (tileAt t k).m.rows = satAdd 32 x.m.rows 1 ∧
       (if p.t + 1 < pdT d then ∃ p', (tileAt t k).m.array = some p' ∧ p'.t = p.t + 1 ∧ p'.row = [] ∧ p'.taken = p.taken + 1
         else (tileAt t k).m.array = none) ∧ ∀ j, j ≠ k → tileAt t j = tileAt s j) ∧
   ∀ (site : Site) (r : RunSt) (p : PassOp) (im : List Byte) (fmt : Nat) (a : Token) (s : State), let k := siteNo site
     let x := tileAt s k
     let d := pdAt x p.pd
     runOf s k = some r → x.m.array = some p → passHeld x.m x (pdRow d + p.t) p.after = false → pdQueue d = true →
     pdMasked d = false → bankAt x.m p.bank = .ready im fmt false → headOf x (pdDQ d + p.taken % nqOf (pdNQ d)) = .tok a →
     p.row.length + 1 < fmtBytes (pdFmt d) →
     ∃ t, exec (.passRow site) s = .next t ∧ (tileAt t k).m.array = some { p with taken := p.taken + 1, row := p.row ++ [a.val] } ∧
       qToks (tileAt t k) (pdDQ d + p.taken % nqOf (pdNQ d)) = (qToks x (pdDQ d + p.taken % nqOf (pdNQ d))).tail ∧ t.mem = s.mem ∧
       t.zeros = s.zeros ∧ ∀ j, j ≠ k → tileAt t j = tileAt s j)

/-- Completion of drainRow: a drain sends a waiting token when its output holds a credit; else it converts its next row,
which to a neighbour goes with its mask bit, and to a queue joins the group of its MASK token (R145 to R148). -/
def Obligations.DrainsConvertRows : Prop :=
  ∀ (site : Site) (r : RunSt) (o : DrainOp) (s : State), let k := siteNo site
    let x := tileAt s k
    let d := ddAt x o.dd
    runOf s k = some r → x.m.drain = some o →
    (∀ ctrl v rest, o.toks = (ctrl, v) :: rest → hasCredit x (ddPort d) ctrl = true → ∃ t, exec (.drainRow site) s = .next t ∧
      (∃ y ∈ (hoopAt t (noHoop k)).flight, y.src = k ∧ y.port = ddPort d ∧ y.ctrl = ctrl ∧ y.val = v) ∧
      (∀ o', (tileAt t k).m.drain = some o' → o'.toks = rest) ∧ t.mem = s.mem) ∧
    (∀ pa, o.toks = [] → drainHeld x.m x (ddRow0 d + o.u) o.after = false → psAddr s r.ctx k (256 * (ddRow0 d + o.u)) 256 = some pa →
      s.zeroBad.contains (pa / 16384) = false → (zeroRow s pa = true ∨ ueAt s pa 256 = none) →
      let codes := (drainConv d (psRow s pa) s.free).2.1
      let bit := codes.any fun y => !isZeroCode ((fmtOf (ddFmt d)).getD (.lin fp32)) y
      (ddQueue d = true → ∃ t, exec (.drainRow site) s = .next t ∧ (tileAt t k).m.drained = satAdd 32 x.m.drained 1 ∧
        (∀ o', (tileAt t k).m.drain = some o' → o'.u = o.u + 1 ∧
          (if o.group.length = 23 ∨ ddRows d ≤ o.u + 1 then o'.group = [] ∧ o'.toks.length ≠ 0 else
            o'.group = o.group ++ [(bit, toksOf (codes.flatMap (toLE (fmtBytes (ddFmt d)))))] ∧ o'.toks = [])) ∧ t.mem = s.mem) ∧
      (∀ a pm pw, ddQueue d = false → ddFmt d ≠ 1 → sideTile k (ddSide d) = some a → s.dev.debug = false →
        let b := ddMBit0 d + o.u * ddMStr d + o.i * ddMInc d
        wideAt (useFree 64 s) r.ctx a (maskWord (ddMask d) b) 8 true = .at_ pm →
        wideAt (useFree 64 s) r.ctx a ((ddBase d + o.i * ddInc d + o.u * ddStride d) * 64) (64 * fmtBytes (ddFmt d)) false = .at_ pw →
        bit = true → (pm + 8 ≤ pw ∨ pw + 64 * fmtBytes (ddFmt d) ≤ pm) →
        ∃ t, exec (.drainRow site) s = .next t ∧ (tileAt t k).m.drained = satAdd 32 x.m.drained 1 ∧
          peek t pw (64 * fmtBytes (ddFmt d)) = codes.flatMap (toLE (fmtBytes (ddFmt d))) ∧
          bitAt (peekNum t pm 8) (b % 64) = true))

/-- Completion of vopArith, vopConv, vopTrans, vopLns, vopCmp, vopPred, vopRed, vopPerm, vopCmpx, vopInt and vopRand: a VOP
of each class, once no queue operation holds its registers, writes what its class computes: destination, predicate,
scalar and lane flags, the flags reach the context, and the step fires (R160, R172 to R174, R183). An integer VOP on
registers writes each active element by its function and leaves every other element of the destination, or zeroes it
under ZM; no other register, predicate or scalar changes and no lane flag is raised (R173, R178, R183). Completion of
chain: CHAIN runs its stages in order, each on the result of the one before, and with NSTAGE 0 copies a register with
its bias (R181, R182). -/
def Obligations.VectorOperationsAndChainsAct : Prop :=
  (∀ (site : Site) (c : Nat) (st : Stp) (s : State), StandsOn site .V c st s → st.opc = 1 →
     let k := siteNo site
     let v := (tileAt s k).v
     let d := vdAt (tileAt s k) (fld st.args 0 7)
     (tileAt s k).seq.issued = false → vHeld v (vdReads d) (vdWrites d) = false → vdBiasUe v d = false → ∀ o, aluRun v none d s.free = .ok o →
     let u := vDone k c o.lanes (useFree vFreeStep (modV k (fun v => { vApply o true v with ops := satAdd 32 v.ops 1 }) s))
     ∀ p ∈ [(Instr.vopArith site, 0), (.vopConv site, 1), (.vopTrans site, 2), (.vopLns site, 3), (.vopCmp site, 4), (.vopPred site, 5),
       (.vopRed site, 6), (.vopPerm site, 7), (.vopCmpx site, 8), (.vopInt site, 9), (.vopRand site, 10)],
       vdClass d = p.2 → Accepts (exec p.1 s) .V k st s u) ∧
  (∀ (site : Site) (c : Nat) (st : Stp) (s : State), StandsOn site .V c st s → st.opc = 1 → st.flow ≠ 4 →
     let k := siteNo site
     let v := (tileAt s k).v
     let d := vdAt (tileAt s k) (fld st.args 0 7)
     let w := fmtBytes (vdFmt d)
     vdClass d = 9 → 8 ≤ vdFmt d → vdFmt d ≤ 0xA → vdFunc d ≤ 0x10 → vdSa d < 32 → vdSb d < 32 →
     (tileAt s k).seq.issued = false → vHeld v (vdReads d) (vdWrites d) = false →
     ∃ t, exec (.vopInt site) s = .next t ∧
       (∀ e < laneN w, fld (vRegAt (tileAt t k).v (vdDst d)).toNat (8 * w * e) (8 * w) =
         if e < vdVl v d ∧ (vPredAt v (vdPred d)).getLsbD e = true then
           intElem (8 * w) (vdFunc d) (fld (vRegAt v (vdSa d)).toNat (8 * w * e) (8 * w)) (fld (vRegAt v (vdSb d)).toNat (8 * w * e) (8 * w))
             % 2 ^ (8 * w)
         else if vdZm d then 0 else fld (vRegAt v (vdDst d)).toNat (8 * w * e) (8 * w)) ∧
       (∀ r, r ≠ vdDst d → vRegAt (tileAt t k).v r = vRegAt v r) ∧ (tileAt t k).v.preds = v.preds ∧
       (tileAt t k).v.scalars = v.scalars ∧ (tileAt t k).v.laneFlags = v.laneFlags ∧ (∀ x, ctxAt t x = ctxAt s x) ∧ t.mem = s.mem ∧
       ∀ j, j ≠ k → tileAt t j = tileAt s j) ∧
  (∀ (site : Site) (c : Nat) (st : Stp) (s : State), StandsOn site .V c st s → st.opc = 2 →
     let k := siteNo site
     let x := tileAt s k
     let cd := cdAt x (fld st.args 0 4)
     x.seq.issued = false → vHeld x.v (chainRegs x cd).1 (chainRegs x cd).2 = false → chainBiasUe x cd = false →
     (cdStages cd = 0 → Accepts (exec (.chain site) s) .V k st s (modV k (fun v => { v with
       regs := Tab.set 0 v.regs (fld cd 77 5) (vRegAt v (fld cd 72 5))
       bias := Tab.set 0 v.bias (fld cd 77 5) (vBiasAt v (fld cd 72 5))
       biasBad := v.biasBad.filter (· ≠ fld cd 77 5)
       ops := satAdd 32 v.ops 1 }) s)) ∧
     (∀ v lanes, cdStages cd ≠ 0 → cdStages cd ≤ 8 → chainRun x cd (cdStages cd) 0 none x.v 0 s.free = .ok (v, lanes) →
       Accepts (exec (.chain site) s) .V k st s
         (vDone k c lanes (useFree (8 * vFreeStep) (modV k (fun _ => { v with ops := satAdd 32 v.ops 1 }) s)))))

/-- Completion of vld and vst: VLD brings a register and its bias from a cache line or from the neighbour A tile, VST takes
them there; the cache holds 512 lines of 512 B (R163, R165, R166). Completion of cload and cevict: the idle mover takes
a step whose A-tile places all lie within the bound, and then each command moves one line: CLOAD copies 512 B from the
neighbour A tile into a cache line, CEVICT copies one back, with its BIAS bytes where the descriptor asks for them; each
line is counted and the last one ends the operation. With no lines nothing moves (R163, R167, R193). -/
def Obligations.VectorLoadsStoresAndMoversAct : Prop :=
  (∀ (site : Site) (c : Nat) (st : Stp) (s : State), StandsOn site .V c st s →
     let k := siteNo site
     let x := tileAt s k
     let d := mdAt x (fld st.args 0 4)
     let i := iterIdx x st (bitAt st.args 9)
     let r := fld st.args 4 5
     let line := mdCline d + i * mdCinc d
     x.seq.issued = false → (fmtOf (mdFmt d)).isSome = true →
     (st.opc = 3 → vHeld x.v [] [r] = false → mdSpace d = false → line ≤ 511 → moverHeld x [(line, 1)] [] false = false →
       ueAt s (ocBase k + 512 * line) 512 = none → x.v.biasBad.contains (32 + line) = false →
       Accepts (exec (.vld site) s) .V k st s (modV k (fun v => { v with
         regs := Tab.set 0 v.regs r (BitVec.ofNat 4096 (peekNum s (ocBase k + 512 * line) 512))
         bias := Tab.set 0 v.bias r (Tab.get 0 v.lineBias line)
         biasBad := v.biasBad.filter (· ≠ r) }) s)) ∧
     (∀ y b whole acc, st.opc = 3 → vHeld x.v [] [r] = false → mdSpace d = true → moverHeld x [] (vldPlaces d i) false = false →
       vldRead s c k d i (vBiasAt x.v r) = .ok (y, b, whole, acc) →
       s.dev.debug = false → Accepts (exec (.vld site) s) .V k st s (modV k (fun v => { v with
         regs := Tab.set 0 v.regs r (BitVec.ofNat 4096 y), bias := Tab.set 0 v.bias r (BitVec.ofNat 64 b)
         biasBad := if whole then v.biasBad.filter (· ≠ r) else v.biasBad }) s)) ∧
     (st.opc = 4 → vHeld x.v [r] [] = false → mdSpace d = false → line ≤ 511 → moverHeld x [(line, 1)] [] true = false →
       x.v.biasBad.contains r = false →
       Accepts (exec (.vst site) s) .V k st s (modV k (fun v => { v with
         lineBias := Tab.set 0 v.lineBias line (vBiasAt x.v r), biasBad := v.biasBad.filter (· ≠ 32 + line) })
         (poke s (ocBase k + 512 * line) (toLE 512 (vRegAt x.v r).toNat)))) ∧
     (∀ bits runs, st.opc = 4 → vHeld x.v [r] [] = false → mdSpace d = true → moverHeld x [] (vldPlaces d i) true = false →
       (x.v.biasBad.contains r = false ∨ mdBias d = false) →
       vstPlan s c k d i (vRegAt x.v r).toNat (vBiasAt x.v r).toNat = .ok (bits, runs) → s.dev.debug = false →
       Accepts (exec (.vst site) s) .V k st s
         (runs.foldl (fun s p => poke s p.1 p.2) (bits.foldl (fun s m => putMaskBit m.1 m.2.1 m.2.2 s) s)))) ∧
  ((∀ (site : Site) (c : Nat) (st : Stp) (s : State), StandsOn site .V c st s →
     let k := siteNo site
     let x := tileAt s k
     let d := mdAt x (fld st.args 0 4)
     let i := iterIdx x st (bitAt st.args 9)
     x.seq.issued = false → x.v.mover = none → (fmtOf (mdFmt d)).isSome = true →
     (mdNlines d = 0 → (st.opc = 5 → Accepts (exec (.cload site) s) .V k st s s) ∧
       (st.opc = 6 → Accepts (exec (.cevict site) s) .V k st s s)) ∧
     (mdNlines d ≠ 0 → (∀ p ∈ moverPlaces d i 0, (asAddr s c (vNeighbour k) p.1 p.2).isSome = true) →
       (st.opc = 5 → Accepts (exec (.cload site) s) .V k st s
         (modV k (fun v => { v with mover := some ⟨true, fld st.args 0 4, i, 0⟩ }) s)) ∧
       (st.opc = 6 → Accepts (exec (.cevict site) s) .V k st s
         (modV k (fun v => { v with mover := some ⟨false, fld st.args 0 4, i, 0⟩ }) s)))) ∧
   (∀ (site : Site) (r : RunSt) (o : MovOp) (line pc pa : Nat) (pb : Option Nat) (s : State),
     let k := siteNo site
     let x := tileAt s k
     let d := mdAt x o.md
     runOf s k = some r → x.v.mover = some o → s.dev.debug = false → moverLine s r.ctx k d o.i o.n o.load = .ok (line, pc, pa, pb) →
     ∃ t, exec (if o.load then .cload site else .cevict site) s = .next t ∧
       (tileAt t k).v.mover = (if mdNlines d ≤ o.n + 1 then none else some { o with n := o.n + 1 }) ∧
       (tileAt t k).v.lines = satAdd 32 x.v.lines 1 ∧ (tileAt t k).v.regs = x.v.regs ∧
       (o.load = true → peek t pc 512 = peek s pa 512 ∧ (∀ a, a < pc ∨ pc + 512 ≤ a → Tab.get 0 t.mem a = Tab.get 0 s.mem a) ∧
         ∀ p, pb = some p → (p + 8 ≤ pc ∨ pc + 512 ≤ p) → Tab.get 0 (tileAt t k).v.lineBias line = BitVec.ofNat 64 (peekNum s p 8)) ∧
       (o.load = false → (∀ p, pb = some p → p + 8 ≤ pa ∨ pa + 512 ≤ p) → peek t pa 512 = peek s pc 512 ∧
         (∀ p, pb = some p → peek t p 8 = toLE 8 (Tab.get 0 x.v.lineBias line).toNat) ∧
         ∀ a, (a < pa ∨ pa + 512 ≤ a) → (∀ p, pb = some p → a < p ∨ p + 8 ≤ a) → Tab.get 0 t.mem a = Tab.get 0 s.mem a) ∧
       (∀ j, j ≠ k → tileAt t j = tileAt s j) ∧ t.ctxs = s.ctxs))

/-- Completion of qioIn and qioOut: QIO is accepted by its half of the queue unit and then moves a token for each command:
in, from its queue into its place in the register, out, from the register with a credit of the output; the last one ends
it (R169 to R171). Completion of xopSet, xopShlor, xopIter, xopAdd and flagrd: XOP sets a scalar, shifts twelve bits
into it, gives it the iteration index, or adds to it modulo 2^32; FLAGRD gives each lane's flags as an element and with
CLR clears them (R160). One token for each command after acceptance is the model's choice (log entry 20). -/
def Obligations.QueueUnitsScalarsAndFlagsAct : Prop :=
  ((∀ (site : Site) (c : Nat) (st : Stp) (s : State), StandsOn site .V c st s → st.opc = 7 →
     let k := siteNo site
     let x := tileAt s k
     let d := ptAt x (fld st.args 0 3)
     let r := fld st.args 3 5
     let op : QioOp := ⟨fld st.args 0 3, r, 0⟩
     x.seq.issued = false → ptUndef x d = none → x.v.qin = none → x.v.qout = none → ptCount d ≠ 0 →
     (ptOut d = false → Accepts (exec (.qioIn site) s) .V k st s (modV k (fun v => { v with qin := some op }) s)) ∧
     (ptOut d = true → Accepts (exec (.qioOut site) s) .V k st s (modV k (fun v => { v with qout := some op }) s))) ∧
   (∀ (site : Site) (run : RunSt) (q : QioOp) (a : Token) (s : State),
     let k := siteNo site
     let x := tileAt s k
     let d := ptAt x q.pt
     let qu := if ptCtrl d then ptQp d else ptQp d + q.j % nqOf (ptNq d)
     runOf s k = some run → x.v.qin = some q → q.j < ptCount d → (ptCtrl d = true ∨ ptMask d = false) → headOf x qu = .tok a →
     ∃ t, exec (.qioIn site) s = .next t ∧ qToks (tileAt t k) qu = (qToks x qu).tail ∧
       vRegAt (tileAt t k).v q.reg = (if ptCtrl d then putReg (vRegAt x.v q.reg) (4 * q.j) 4 a.val.toNat
         else putReg (vRegAt x.v q.reg) (64 * q.j) 64 a.val.toNat) ∧
       (tileAt t k).v.qin = (if ptCount d ≤ q.j + 1 then none else some { q with j := q.j + 1 }) ∧
       (tileAt t k).v.tokens = satAdd 32 x.v.tokens 1 ∧ t.mem = s.mem ∧ ∀ j, j ≠ k → tileAt t j = tileAt s j) ∧
   (∀ (site : Site) (run : RunSt) (q : QioOp) (s : State),
     let k := siteNo site
     let x := tileAt s k
     let d := ptAt x q.pt
     let val := if ptCtrl d then fld (vRegAt x.v q.reg).toNat (32 * q.j) 32 else fld (vRegAt x.v q.reg).toNat (512 * q.j) 512
     runOf s k = some run → x.v.qout = some q → q.j < ptCount d → (ptCtrl d = true ∨ ptMask d = false) →
     Tab.get [] x.v.outToks (ptPort d) = [] → hasCredit x (ptPort d) (ptCtrl d) = true →
     ∃ t, exec (.qioOut site) s = .next t ∧
       (∃ y ∈ (hoopAt t (noHoop k)).flight, y.src = k ∧ y.port = ptPort d ∧ y.ctrl = ptCtrl d ∧ y.val = BitVec.ofNat 512 val) ∧
       (tileAt t k).v.qout = (if ptCount d ≤ q.j + 1 then none else some { q with j := q.j + 1 }) ∧
       (tileAt t k).v.regs = x.v.regs ∧ t.mem = s.mem)) ∧
  (∀ (site : Site) (c : Nat) (st : Stp) (s : State), StandsOn site .V c st s → st.flow ≠ 4 →
     let k := siteNo site
     let v := (tileAt s k).v
     let imm := fld st.args 4 12
     let x := fld st.args 0 4
     let old := vScalAt v x
     let gives (i : Instr) (y : BitVec 32) : Prop := ∃ t, exec i s = .next t ∧ vScalAt (tileAt t k).v x = y ∧
       (∀ z, z ≠ x → vScalAt (tileAt t k).v z = vScalAt v z) ∧ (tileAt t k).v.regs = v.regs ∧ t.mem = s.mem
     (tileAt s k).seq.issued = false →
     (st.opc = 8 → fld st.args 16 2 = 0 → gives (.xopSet site) (BitVec.ofNat 32 imm)) ∧
     (st.opc = 8 → fld st.args 16 2 = 1 → gives (.xopShlor site) (old <<< 12 ||| BitVec.ofNat 32 imm)) ∧
     (st.opc = 8 → fld st.args 16 2 = 2 → gives (.xopIter site) (BitVec.ofNat 32 (iterIdx (tileAt s k) st true))) ∧
     (st.opc = 8 → fld st.args 16 2 = 3 → gives (.xopAdd site) (old + (BitVec.ofNat 12 imm).signExtend 32)) ∧
     (st.opc = 9 → vHeld v [] [fld st.args 0 5] = false → ∃ t, exec (.flagrd site) s = .next t ∧
       (∀ l < 128, fld (vRegAt (tileAt t k).v (fld st.args 0 5)).toNat (32 * l) 32 = fld v.laneFlags.toNat (6 * l) 6) ∧
       (tileAt t k).v.laneFlags = (if bitAt st.args 5 then 0 else v.laneFlags) ∧
       ∀ r, r ≠ fld st.args 0 5 → vRegAt (tileAt t k).v r = vRegAt v r))

/-- Completion of st, ld, aadd and aswap: the engine of an A tile takes ST, LD, AADD and ASWAP when it is idle, and the four
are done after COUNT positions (R203). Each position of an engine operation moves 64 B: ST stores a token, LD sends the
tile's bytes, AADD adds a token into them, ASWAP stores a token and sends what stood there; the operation goes on, or
ends after COUNT positions (R204 to R206). -/
def Obligations.EngineStepsMoveTheirUnits : Prop :=
  (∀ (site : Site) (c : Nat) (st : Stp) (s : State), StandsOn site .A c st s →
     let k := siteNo site
     let x := tileAt s k
     let d := adAt x (fld st.args 0 4)
     x.seq.issued = false → x.a = none →
     ∀ p ∈ [(Instr.st site, AKind.st, 1), (.ld site, .ld, 2), (.aadd site, .aadd, 3), (.aswap site, .aswap, 4)], st.opc = p.2.2 →
       aUndef x p.2.1 d (fld st.args 4 4) (fld st.args 9 2) = none →
       (adCount d = 0 → Accepts (exec p.1 s) .A k st s s) ∧
       (adCount d ≠ 0 → Accepts (exec p.1 s) .A k st s (modTile k (fun t => { t with a := some (⟨p.2.1, fld st.args 0 4, fld st.args 4 4,
         fld st.args 9 2, iterIdx x st (bitAt st.args 8), 0, bitAt st.args 11, []⟩ : AOp) }) s))) ∧
  (∀ (site : Site) (r : RunSt) (p : AOp) (pa : Nat) (s : State),
     let k := siteNo site
     let x := tileAt s k
     let d := adAt x p.ad
     let off := (adAddr d + p.i * adInc d + p.j) * 64
     let next : Option AOp := if adCount d ≤ p.j + 1 then none else some { p with j := p.j + 1 }
     runOf s k = some r → x.a = some p → adMask d = false → s.dev.debug = false →
     (∀ a, p.kind = .st → headOf x p.queue = .tok a → ownAt s r.ctx k off 64 false = .at_ pa →
       ∃ t, exec (.st site) s = .next t ∧ peek t pa 64 = tokBytes a.val ∧ qToks (tileAt t k) p.queue = (qToks x p.queue).tail ∧
         (tileAt t k).a = next ∧ (∀ b, b < pa ∨ pa + 64 ≤ b → Tab.get 0 t.mem b = Tab.get 0 s.mem b) ∧ t.ctxs = s.ctxs) ∧
     (p.kind = .ld → hasCredit x p.out false = true → ownAt s r.ctx k off 64 true = .at_ pa →
       ∃ t, exec (.ld site) s = .next t ∧ (∃ y ∈ (hoopAt t (noHoop k)).flight, y.src = k ∧ y.port = p.out ∧ y.ctrl = false ∧
         y.val = tokOf (peek s pa 64)) ∧ (tileAt t k).a = next ∧ t.mem = s.mem ∧ t.ctxs = s.ctxs) ∧
     (∀ a, p.kind = .aadd → headOf x p.queue = .tok a → ownAt s r.ctx k off 64 true = .at_ pa →
       ∃ t, exec (.aadd site) s = .next t ∧ peek t pa 64 = addUnits (adFmt d) (peek s pa 64) (tokBytes a.val) ∧
         qToks (tileAt t k) p.queue = (qToks x p.queue).tail ∧ (tileAt t k).a = next ∧
         ∀ b, b < pa ∨ pa + 64 ≤ b → Tab.get 0 t.mem b = Tab.get 0 s.mem b) ∧
     (∀ a, p.kind = .aswap → headOf x p.queue = .tok a → hasCredit x p.out false = true → ownAt s r.ctx k off 64 true = .at_ pa →
       ∃ t, exec (.aswap site) s = .next t ∧ peek t pa 64 = tokBytes a.val ∧ (∃ y ∈ (hoopAt t (noHoop k)).flight, y.src = k ∧
         y.port = p.out ∧ y.val = tokOf (peek s pa 64)) ∧ (tileAt t k).a = next ∧
         ∀ b, b < pa ∨ pa + 64 ≤ b → Tab.get 0 t.mem b = Tab.get 0 s.mem b))

/-- Completion of winArm, winWait and windowToken: WIN ARM arms an enabled window from its first unit, WIN WAIT fires once
its window is complete, and an armed window moves a token for each command until LEN units have moved (R209, R210). -/
def Obligations.WindowsMoveTokens : Prop :=
  (∀ (site : Site) (c : Nat) (st : Stp) (s : State), StandsOn site .A c st s → st.opc = 5 →
    let k := siteNo site
    let x := tileAt s k
    let w := fld st.args 0 2
    let reg := swinReg x w
    x.seq.issued = false → swEn reg = true →
    (bitAt st.args 2 = false → ((winAt x w).armed = false ∨ (winAt x w).done = true) →
      (asAddr s c k (swBase reg * 64) (swLen reg * 64)).isSome = true →
      Accepts (exec (.winArm site) s) .A k st s (setWin k w ⟨true, 0, decide (swLen reg = 0), ownClock s k⟩ s)) ∧
    (bitAt st.args 2 = true → (winAt x w).done = true → (st.flow = 4 → fenceOk x .A = true) →
      ∃ t, exec (.winWait site) s = .next t ∧
        Fired k st (modTile k (fun t => { t with vc := Tab.set 0 t.vc (8192 + 4 * k + w) (t.epoch + 1) }) s) t)) ∧
  (∀ (site : Site) (window : Fin 4) (run : RunSt) (pa : Nat) (s : State),
    let k := siteNo site
    let x := tileAt s k
    let reg := swinReg x window.val
    let w := winAt x window.val
    let off := (swBase reg + w.moved) * 64
    let next : Win := { w with moved := w.moved + 1, done := decide (swLen reg ≤ w.moved + 1) }
    runOf s k = some run → kindOf k = .A → swEn reg = true → w.armed = true → w.done = false → s.dev.debug = false →
    (∀ a, swDirOut reg = false → stepsUseQ x (swQp reg) = false → engineHasQ x (swQp reg) = false → qCtrl x (swQp reg) = false → qEn x (swQp reg) = true →
      headOf x (swQp reg) = .tok a → ownAt s run.ctx k off 64 false = .at_ pa →
      ∃ t, exec (.windowToken site window) s = .next t ∧ winAt (tileAt t k) window.val = next ∧ peek t pa 64 = tokBytes a.val ∧
        qToks (tileAt t k) (swQp reg) = (qToks x (swQp reg)).tail ∧
        ∀ b, b < pa ∨ pa + 64 ≤ b → Tab.get 0 t.mem b = Tab.get 0 s.mem b) ∧
    (swDirOut reg = true → stepsUseO x (fld (swQp reg) 0 2) = false → engineHasO x (fld (swQp reg) 0 2) = false → hasCredit x (fld (swQp reg) 0 2) false = true →
      ownAt s run.ctx k off 64 true = .at_ pa →
      ∃ t, exec (.windowToken site window) s = .next t ∧ winAt (tileAt t k) window.val = next ∧
        (∃ y ∈ (hoopAt t (noHoop k)).flight, y.src = k ∧ y.port = fld (swQp reg) 0 2 ∧ y.val = tokOf (peek s pa 64)) ∧ t.mem = s.mem))

/-- Completion of sstart, swait, phaseCompute, phaseOut and phaseAdvance: SSTART starts an idle or complete stream, which
takes a free issue slot when the phase allows, or is COMPLETE at once when it is empty; SWAIT fires when its stream is
COMPLETE; a PHASE step fires when the tile's READ streams are, and is recorded; a region moves on once every active B
tile has fired its PHASE step or END (R235, R236, R252, R253). Completion of streamIssue: an issuing stream without mask
and index issues one request of its next elements, at most 256 B: a READ whose access translates, a WRITE whose tokens
it holds; a WRITE without enough takes a token of its queue, a PEER stream sends one as a message, and a stream that its
phase holds counts the wait (R233, R236, R239, R244, R247, R252). -/
def Obligations.StreamsStartAndIssueRequests : Prop :=
  ((∀ (site : Site) (r : RunSt) (st : Stp) (s : State), StandsOn site .B r.ctx st s → runOf s (siteNo site) = some r →
     let k := siteNo site
     let x := tileAt s k
     let n := stepStream x st
     let d := sdAt x n
     let y := streamAt x n
     let y' : Stream := { Stream.reset with st := .started, started := x.b.nextStart, out := y.out }
     let s1 := modB k (fun b => { b with nextStart := b.nextStart + 1 }) (setStream k n y' s)
     let u := if sdTotal d = 0 then completeStream k r.ctx n y' s1 else promoteStreams k r 1024 s1
     (st.opc = 1 → x.seq.issued = false → n < sdCount x → (y.st = .idle ∨ y.st = .complete) → streamUndef s k d = false →
       portClash (tileAt u k) = false → Accepts (exec (.sstart site) s) .B k st s u) ∧
     (st.opc = 2 → n < sdCount x → y.started ≠ 0 → y.st = .complete → (st.flow = 4 → fenceOk x .B = true) →
       ∃ t, exec (.swait site) s = .next t ∧ Fired k st s t) ∧
     (st.opc = 3 → bitAt st.args 0 = false → readsDone x = true → (st.flow = 4 → fenceOk x .B = true) →
       ∃ t, exec (.phaseCompute site) s = .next t ∧ Fired k st (modB k (fun b => { b with fired := max b.fired 1 }) s) t) ∧
     (st.opc = 3 → bitAt st.args 0 = true → readsDone x = true → (st.flow = 4 → fenceOk x .B = true) →
       ∃ t, exec (.phaseOut site) s = .next t ∧ Fired k st (modB k (fun b => { b with fired := max b.fired 2 }) s) t)) ∧
   (∀ (hoop : Fin 8) (entry : Fin 128) (r : RunSt) (s : State),
     let h := hoop.val
     let bs := activeB s h r
     let moved (p : Phase) : State := bs.foldl (fun s k => promoteStreams k { r with phase := p } 1024 s)
       (modHoop h (fun x => { x with runs := x.runs.map fun y => if y = r then { y with phase := p } else y }) s)
     (hoopAt s h).runs.find? (fun r => decide (r.entry = entry.val) && decide (r.stage = .running)) = some r → bs ≠ [] →
     (r.phase = .input → (∀ k ∈ bs, 1 ≤ (tileAt s k).b.fired ∨ (tileAt s k).seq.ended = true) →
       (∀ k ∈ bs, portClash (tileAt (moved .compute) k) = false) → ∃ t, exec (.phaseAdvance hoop entry) s = .next t ∧
         { r with phase := .compute } ∈ (hoopAt t h).runs ∧ t.mem = s.mem) ∧
     (r.phase = .compute → (r.split = true → r.outOk = true) →
       (∀ k ∈ bs, 2 ≤ (tileAt s k).b.fired ∨ (tileAt s k).seq.ended = true) →
       (∀ k ∈ bs, portClash (tileAt (moved .output) k) = false) → ∃ t, exec (.phaseAdvance hoop entry) s = .next t ∧
         { r with phase := .output } ∈ (hoopAt t h).runs ∧ t.mem = s.mem))) ∧
  (∀ (site : Site) (stream : Fin 1024) (r : RunSt) (s : State),
     let k := siteNo site
     let n := stream.val
     let u := promoteStreams k r 1024 s
     let x := streamAt (tileAt u k) n
     let d := sdAt (tileAt u k) n
     let a := elemAddr d x.next (coordOf d x.next 4)
     runOf s k = some r → kindOf k = .B → (streamAt (tileAt s k) n).started ≠ 0 → portClash (tileAt u k) = false →
     (x.st = .started → phaseAllows r (sdWrite d) = false →
       exec (.streamIssue site stream) s = .next (groundPart s (modB k (fun b => { b with cntPwait := satAdd 32 b.cntPwait 1 }) u))) ∧
     (x.st = .issuing → phaseAllows r (sdWrite d) = true → x.waitVa = none → x.next < sdTotal d →
       (∀ q, sdKind d = 2 → headOf (tileAt u k) (sdPort d) = .tok q → ∃ t, exec (.streamIssue site stream) s = .next t ∧
         (∃ w, (⟨w, k, n, bTileNo (fld (sdVbase d) 0 3) (fld (sdVbase d) 3 5), fld (sdVbase d) 8 2, r.ctx, q.val⟩ : PeerSend) ∈ t.net.peers) ∧
         qToks (tileAt t k) (sdPort d) = (qToks (tileAt u k) (sdPort d)).tail ∧
         (streamAt (tileAt t k) n).next = min (sdTotal d) (x.next + 64 / sdEsize d)) ∧
       (∀ pa, sdKind d ≠ 2 → sdWrite d = false → sdMen d = false → sdIen d = false → x.bits = [] → canIssue (tileAt u k) true = true →
         (sdMerge d = true → ∀ g, (mergeGroups (tileAt u k)).head? = some g → mayIssue u k g = true) →
         a % (sdEsize d : Int) = 0 → streamAccess k r.ctx n a (sdEsize d) false (x.reqs.isEmpty && x.out.isEmpty) 0 u = .at_ pa →
         ∃ t m, exec (.streamIssue site stream) s = .next t ∧ 1 ≤ m ∧ m * sdEsize d ≤ 256 ∧ (streamAt (tileAt t k) n).next = x.next + m ∧
           (∃ q ∈ (streamAt (tileAt t k) n).reqs, q.first = x.next ∧ q.count = m ∧ q.pa = pa ∧ q.isRead = true) ∧
           (sdMerge d = false → t.mem = s.mem)) ∧
       (∀ pa, sdKind d ≠ 2 → sdWrite d = true → sdMen d = false → sdIen d = false → canIssue (tileAt u k) false = true →
         (sdMerge d = true → ∀ g, (mergeGroups (tileAt u k)).head? = some g → mayIssue u k g = true) →
         a % (sdEsize d : Int) = 0 → sdTsize d ≤ x.buf.length → qToks (tileAt u k) (sdPort d) = [] →
         streamAccess k r.ctx n a (sdEsize d) true x.reqs.isEmpty 1 u = .at_ pa →
         ∃ t m, exec (.streamIssue site stream) s = .next t ∧ 1 ≤ m ∧ m * sdEsize d ≤ 256 ∧ (streamAt (tileAt t k) n).next = x.next + m ∧
           ∃ q ∈ (streamAt (tileAt t k) n).reqs, q.first = x.next ∧ q.count = m ∧ q.pa = pa ∧ q.isRead = false ∧ q.len = q.data.length) ∧
       (∀ q, sdKind d ≠ 2 → sdWrite d = true → sdMen d = false → sdIen d = false → canIssue (tileAt u k) false = true →
         a % (sdEsize d : Int) = 0 → x.buf.length < sdTsize d → headOf (tileAt u k) (sdPort d) = .tok q →
         ∃ t, exec (.streamIssue site stream) s = .next t ∧ (streamAt (tileAt t k) n).buf = x.buf ++ tokBytes q.val ∧
           qToks (tileAt t k) (sdPort d) = (qToks (tileAt u k) (sdPort d)).tail ∧ (streamAt (tileAt t k) n).next = x.next ∧ t.mem = s.mem)))

/-- Completion of streamReadData and streamWriteAck: a READ's waiting token leaves with a credit of its output, and counts
the wait without one; then the oldest request's data is packed. A WRITE's performed request is acknowledged, and the
last one makes the stream COMPLETE; so does the command where an eviction left none (R236, R239, R245, R246, R260). Only
an issuing stream counts the wait (R264). Completion of mergeTimeout, requestPromote, peerTokenReceive and
peerTokenSend: a request of the merge buffer is issued at its timeout, a request joins the declared class at its
promotion, and a peer token is taken into the buffer of its tile and leaves it with a credit (R244, R247, R251).
Completion of tlbWalk: a walk that finds a leaf enters it into the TLB and its streams go on; one that finds none parks
them with XLATE_PARKED (R257, R258). -/
def Obligations.RequestsCompleteAndWalksEnd : Prop :=
  (∀ (site : Site) (stream : Fin 1024) (run : RunSt) (s : State),
     let k := siteNo site
     let n := stream.val
     let x := streamAt (tileAt s k) n
     let d := sdAt (tileAt s k) n
     runOf s k = some run → kindOf k = .B → x.started ≠ 0 →
     (∀ ctrl v rest, x.out = (ctrl, v) :: rest → hasCredit (tileAt s k) (sdPort d) ctrl = true →
       ∃ t, exec (.streamReadData site stream) s = .next t ∧
         (∃ y ∈ (hoopAt t (noHoop k)).flight, y.src = k ∧ y.port = sdPort d ∧ y.ctrl = ctrl ∧ y.val = v) ∧
         (rest ≠ [] → (streamAt (tileAt t k) n).out = rest) ∧ t.mem = s.mem) ∧
     (∀ ctrl v rest, x.out = (ctrl, v) :: rest → hasCredit (tileAt s k) (sdPort d) ctrl = false →
       ∃ t, exec (.streamReadData site stream) s = .next t ∧ (tileAt t k).b.cntCwait =
         (if x.st = .issuing then satAdd 32 (tileAt s k).b.cntCwait 1 else (tileAt s k).b.cntCwait) ∧
         (streamAt (tileAt t k) n).out = x.out ∧ t.mem = s.mem) ∧
     (∀ q rest, x.out = [] → sdWrite d = false → sdKind d = 0 → x.reqs = q :: rest → q.isRead = true → q.kind = 0 → q.merge = false →
       (∀ w ∈ rest, w.isRead = true) → q.len % sdEsize d = 0 → 0 < q.len → ueAt s q.pa q.len = none →
       ∃ t, exec (.streamReadData site stream) s = .next t ∧ (streamAt (tileAt t k) n).reqs = rest ∧
         (sdConv d = false → ∃ whole, (streamAt (tileAt t k) n).buf =
           (x.buf ++ (elemsOfBytes (sdEsize d) (peek s q.pa q.len)).flatMap (toLE (sdTsize d))).drop (64 * whole)) ∧ t.mem = s.mem) ∧
     (∀ q, sdWrite d = true → (x.reqs.map (·.wid)).Nodup → q ∈ x.reqs → x.reqs.find? (fun q => !q.isRead && !q.merge &&
         s.net.writes.any fun w => decide (w.wid = q.wid) && w.done) = some q →
       ∃ t, exec (.streamWriteAck site stream) s = .next t ∧ q ∉ (streamAt (tileAt t k) n).reqs ∧
         t.net.writes.length + 1 = s.net.writes.length ∧
         (x.reqs = [q] → x.st = .issuing → sdTotal d ≤ x.next → x.bits = [] → (streamAt (tileAt t k) n).st = .complete) ∧ t.mem = s.mem) ∧
     (sdWrite d = true → sdKind d ≠ 2 → x.reqs = [] → x.st = .issuing → sdTotal d ≤ x.next → x.bits = [] →
       ∃ t, exec (.streamWriteAck site stream) s = .next t ∧ (streamAt (tileAt t k) n).st = .complete ∧ t.mem = s.mem)) ∧
  ((∀ (site : Site) (n : Nat) (r : RunSt) (g : Bool × Nat) (s : State), let k := siteNo site
     runOf s k = some r → (mergeGroups (tileAt s k))[n]? = some g → mayIssue s k g = true → ∃ t, exec (.mergeTimeout site n) s = .next t ∧
       (∀ i, ∀ q ∈ (streamAt (tileAt t k) i).reqs, q.isRead = g.1 → q.pa / 256 = g.2 → q.merge = false) ∧
       (tileAt t k).b.cntReq = satAdd 32 (tileAt s k).b.cntReq 1 ∧ t.ctxs = s.ctxs) ∧
   (∀ (site : Site) (n w : Nat) (s : State), let k := siteNo site
     let x := tileAt s k
     let ws := (x.b.streams.flatMap fun p => if sdRate (sdAt x p.1) = 0 then p.2.reqs.map (·.wid) else []).filter fun w =>
       !x.b.promoted.contains w
     kindOf k = .B → (ws.mergeSort fun a b => decide (a ≤ b))[n]? = some w →
     exec (.requestPromote site n) s = .next (modB k (fun b => { b with promoted := b.promoted ++ [w] }) s)) ∧
   (∀ (site : Site) (n : Nat) (m f : PeerSend) (s : State), let k := siteNo site
     (s.net.peers.filter fun p => p.dst = k)[n]? = some m → (s.net.peers.filter fun p => p.dst = k).find? (fun p => p.src = m.src) = some f →
     (tileAt s k).b.peer.length < 1024 → ∃ t, exec (.peerTokenReceive site n) s = .next t ∧
       t.net.peers = eraseFirst (fun p => p = f) s.net.peers ∧
       (tileAt t k).b.peer = (tileAt s k).b.peer ++ [⟨f.out, f.ctx, f.val⟩] ∧ t.mem = s.mem) ∧
   (∀ (site : Site) (out : Fin 4) (r : RunSt) (p : PeerTok) (s : State), let k := siteNo site
     runOf s k = some r → (tileAt s k).b.peer.find? (fun p => p.out = out.val) = some p → r.ctx = p.ctx →
     hasCredit (tileAt s k) out.val false = true → ∃ t, exec (.peerTokenSend site out) s = .next t ∧
       (∃ y ∈ (hoopAt t (noHoop k)).flight, y.src = k ∧ y.port = out.val ∧ y.ctrl = false ∧ y.val = p.val) ∧
       (tileAt t k).b.peer.length + 1 = (tileAt s k).b.peer.length ∧ t.mem = s.mem)) ∧
  (∀ (site : Site) (n va access stream : Nat) (c : Nat) (s : State), let k := siteNo site
     kindOf k = .B → (tileAt s k).b.walks[n]? = some ⟨c, va, [stream]⟩ → (streamAt (tileAt s k) stream).waitVa = some (va, access) →
     (∀ pa size w, walk s c (quarterOf (noHoop k)) va = .leaf pa size w → ((access ≠ 1 ∧ access ≠ 3) ∨ w = true) →
       ∃ t, exec (.tlbWalk site n) s = .next t ∧ (⟨c, va / size * size, size, pa, w⟩ : TlbEntry) ∈ (tileAt t k).b.tlb ∧
         (streamAt (tileAt t k) stream).st = .issuing ∧ (streamAt (tileAt t k) stream).waitVa = none ∧
         (tileAt t k).b.walks = (tileAt s k).b.walks.eraseIdx n ∧ t.mem = s.mem) ∧
     (walk s c (quarterOf (noHoop k)) va = .miss → ∃ t, exec (.tlbWalk site n) s = .next t ∧
       (streamAt (tileAt t k) stream).st = .parked ∧ (tileAt t k).b.cntPark = satAdd 32 (tileAt s k).b.cntPark 1 ∧
       (∃ e, t.logs.raised = e :: s.logs.raised ∧ e.code = 0x0006 ∧ e.ctx = c) ∧ t.mem = s.mem))

/-- Completion of tokenDeliver and creditReturn: the oldest token of an output reaches every queue that its circuit names
for the slot, and its credit comes back once for all of them; the credit of a token that every branch has consumed
returns to its output (R86, R87, R91, R96). -/
def Obligations.TokensAndCreditsTravel : Prop :=
  (∀ (site : Site) (port slot : Fin 4) (ctrl ok : Bool) (a : Token) (s : State),
    let k := siteNo site
    let leaves := inject s ctrl k port.val slot.val
    (hoopAt s (noHoop k)).flight.find? (fun a => decide (a.src = k) && decide (a.port = port.val) && a.ctrl == ctrl) = some a →
    a.route = none → (∀ y ∈ (hoopAt s (noHoop k)).credits, y.fid ≠ a.fid) → (∀ x ∈ (hoopAt s (noHoop k)).stale, x.1 = k → x.2.1 ≠ port.val) → badEntries (tileAt s k) k slot.val = false → leaves ≠ [] →
    (∀ l ∈ leaves, ∃ j q, l = .queue j q ∧ ownerOf s j = ownerOf s k ∧ badQueue s ctrl l = none ∧ credAbove s ctrl k port.val l = false) →
    ∃ t, exec (.tokenDeliver site port slot ctrl ok) s = .next t ∧
      (∀ j q, Leaf.queue j q ∈ leaves → { a with parityOk := ok } ∈ qToks (tileAt t j) q) ∧
      (∀ j q, Leaf.queue j q ∉ leaves → qToks (tileAt t j) q = qToks (tileAt s j) q) ∧
      (hoopAt t (noHoop k)).flight = eraseFirst (fun b => b.fid = a.fid) (hoopAt s (noHoop k)).flight ∧
      (hoopAt t (noHoop k)).credits = (hoopAt s (noHoop k)).credits ++ [⟨a.fid, a.src, a.port, a.ctrl, leaves.length⟩] ∧
      t.mem = s.mem ∧ t.ctxs = s.ctxs ∧ t.chans = s.chans) ∧
  (∀ (site : Site) (port : Fin 4) (ctrl : Bool) (cr : Credit) (s : State), let k := siteNo site
    cr ∈ (hoopAt s (noHoop k)).credits → cr.src = k → cr.port = port.val → cr.ctrl = ctrl → cr.left = 0 →
    ∃ t, exec (.creditReturn site port ctrl) s = .next t ∧
      (hoopAt t (noHoop k)).credits.length + 1 = (hoopAt s (noHoop k)).credits.length ∧
      (ctrl = true → cCred (tileAt t k) port.val = cCred (tileAt s k) port.val + 1 ∧ (tileAt t k).dcred = (tileAt s k).dcred) ∧
      (ctrl = false → dCred (tileAt t k) port.val = dCred (tileAt s k) port.val + 1 ∧ (tileAt t k).ccred = (tileAt s k).ccred) ∧
      (∀ j, j ≠ k → tileAt t j = tileAt s j) ∧ t.mem = s.mem ∧ t.ctxs = s.ctxs)

/-- Completion of shuttleSelect, shuttleMerge, shuttleFilter, shuttleRepeat, shuttleCounted and shuttleSpill: an idle
shuttle takes a control token once its first group is at hand, counts it, and has the legs of its mode: SELECT to the
output named, MERGE from the queue named, FILTER passed, sent aside or dropped, REPEAT n times, COUNTED n groups, SPILL
to the spill output; a token of another TYPE is consumed and counted (R105 to R111, R548, Table 03.13). A shuttle
transaction in progress forwards its control token first, then moves the tokens of its legs one by one, each with a
credit of its output, or discards them; a leg that keeps its group leaves the tokens in their queue until the last token
of its last copy has been sent, and then the group is consumed and counted once (R105, R109, R548, R549). One token for
each command, and shuttle counters that wrap at 2^32, are the model's choices (log entries 35 and 38). -/
def Obligations.ShuttlesTakeControlAndMoveTokens : Prop :=
  (∀ (site : Site) (r : RunSt) (a : Token) (l : Leg) (s : State),
     let k := siteNo site
     let x := tileAt s k
     let arg := fld a.val.toNat 0 28
     let f := steerF x arg
     runOf s k = some r → kindOf k = .S → x.sh.busy = false → bitAt (shMode x) 3 = false → headOf x 4 = .tok a → shGrp x ≠ 0 →
     ∀ p ∈ [(Instr.shuttleSelect site, 1, 1, [(⟨0, some f, false, 1⟩ : Leg)]),
         (.shuttleMerge site, 2, 1, [⟨f, some 0, false, 1⟩]),
         (.shuttleFilter site, 3, 1, [⟨0, if bitAt f 0 then some 0 else if bitAt (shMode x) 13 then some 1 else none, false, 1⟩]),
         (.shuttleRepeat site, 4, 4, if arg = 0 then [⟨0, none, false, 1⟩]
           else [⟨0, some 0, true, arg⟩]),
         (.shuttleCounted site, 5, 4, if arg = 0 then [⟨1, some 1, false, 1⟩]
           else if arg = 1 then [⟨1, some 0, false, 1⟩, ⟨0, some 1, false, 1⟩]
           else [⟨1, some 0, false, 1⟩, ⟨0, some 0, false, arg - 1⟩, ⟨0, some 1, false, 1⟩]),
         (.shuttleSpill site, 6, 1, [⟨0, some (spillTo x f), false, 1⟩])],
       shModeNo x = p.2.1 → (fld a.val.toNat 28 4 = p.2.2.1 → p.2.2.2.head? = some l → qToks x l.queue ≠ [] →
         ∃ t, exec p.1 s = .next t ∧ (tileAt t k).sh.legs = p.2.2.2 ∧ (tileAt t k).sh.busy = true ∧
           (tileAt t k).sh.cntCtrl = (x.sh.cntCtrl + 1) % 2 ^ 32 ∧ qToks (tileAt t k) 4 = (qToks x 4).tail ∧
           (tileAt t k).sh.fwd = (if bitAt (shMode x) 4 then l.out.map (fun o => (o, a.val)) else none) ∧ t.mem = s.mem) ∧
       (fld a.val.toNat 28 4 ≠ p.2.2.1 → ∃ t, exec p.1 s = .next t ∧ (tileAt t k).sh.badType = x.sh.badType + 1 ∧
         (tileAt t k).sh.busy = false ∧ qToks (tileAt t k) 4 = (qToks x 4).tail ∧ t.mem = s.mem)) ∧
  (∀ (site : Site) (r : RunSt) (s : State),
     let k := siteNo site
     let x := tileAt s k
     let lastCopy (l : Leg) : Prop := l.keep = true ∧ l.times ≤ 1 ∧ shGrp x ≤ x.sh.moved + 1
     runOf s k = some r → kindOf k = .S → x.sh.busy = true →
     ∀ p ∈ [(Instr.shuttleSelect site, 1), (.shuttleMerge site, 2), (.shuttleFilter site, 3), (.shuttleRepeat site, 4),
       (.shuttleCounted site, 5), (.shuttleSpill site, 6)], shModeNo x = p.2 →
       (∀ o v, x.sh.fwd = some (o, v) → hasCredit x o true = true → ∃ t, exec p.1 s = .next t ∧ (tileAt t k).sh.fwd = none ∧
         (∃ y ∈ (hoopAt t (noHoop k)).flight, y.src = k ∧ y.port = o ∧ y.ctrl = true ∧ y.val = v) ∧
         (tileAt t k).sh.legs = x.sh.legs ∧ t.mem = s.mem) ∧
       (∀ l ls a, x.sh.fwd = none → x.sh.legs = l :: ls →
         (if l.keep then (qToks x l.queue)[x.sh.moved]? else (qToks x l.queue)[0]?) = some a → a.parityOk = true →
         (∀ o, l.out = some o → hasCredit x o false = true) → ∃ t, exec p.1 s = .next t ∧
           (∀ o, l.out = some o → ∃ y ∈ (hoopAt t (noHoop k)).flight, y.src = k ∧ y.port = o ∧ y.ctrl = false ∧ y.val = a.val) ∧
           (l.keep = false → qToks (tileAt t k) l.queue = (qToks x l.queue).tail ∧
             (tileAt t k).sh.cntData = (x.sh.cntData + 1) % 2 ^ 32) ∧
           (l.keep = true → ¬lastCopy l → qToks (tileAt t k) l.queue = qToks x l.queue ∧
             (tileAt t k).sh.cntData = x.sh.cntData) ∧
           (lastCopy l → qToks (tileAt t k) l.queue = (qToks x l.queue).drop (shGrp x) ∧
             (tileAt t k).sh.cntData = (x.sh.cntData + shGrp x) % 2 ^ 32) ∧
           ((tileAt t k).sh.legs, (tileAt t k).sh.moved) = (if x.sh.moved + 1 < shGrp x then (x.sh.legs, x.sh.moved + 1)
             else if l.times ≤ 1 then (ls, 0) else ({ l with times := l.times - 1 } :: ls, 0)) ∧ t.mem = s.mem))

/-- Completion of gatherContribution and gatherSlotForward: a contribution token is added into the slots that its queue's
count or its SLOT token names, each slot's count goes up and is full at EXP; a full slot leaves on output 0 with a
credit, or is stored in the neighbour A tile, and returns to 0 (R112 to R115). Adding in the order in which tokens are
taken (log entry 20), and a 16-bit contribution under SEQ whose slot is odd, a SLOT token taken alone, subnormal results
and counters that wrap (log entry 38), are the model's choices. -/
def Obligations.GatheringQueuesAccumulate : Prop :=
  (∀ (site : Site) (queue : Fin 16) (r : RunSt) (a : Token) (s : State),
    let k := siteNo site
    let q := queue.val
    let x := tileAt s k
    runOf s k = some r → kindOf k = .G → qCtrl x q = false → qEn x q = true → gFmtOk x = true → headOf x q = .tok a →
    (gExpFwd x = 0xFFFFFFFF ∨ x.g.cntFwd < gExpFwd x) →
    let n := Tab.get 0 x.g.taken q
    let untagged := gFirst x + (if gLast x + 1 - gFirst x = 0 then 0 else n * gStep x % (gLast x + 1 - gFirst x))
    let tagged := Tab.get (0, 0) x.g.group q
    let j := if gTagged x then tagged.1 else untagged
    (gTagged x = true → tagged.2 ≠ 0 ∧ gBadTag x q = false) → (∀ i, (i = j ∨ i = j + 1 ∧ gNarrow x = true) →
      gUsable x i = true ∧ (Tab.get GSlot.reset x.g.slots i).full = false) →
    ∃ t, exec (.gatherContribution site queue) s = .next t ∧ qToks (tileAt t k) q = (qToks x q).tail ∧
      (∀ i, (i = j ∨ i = j + 1 ∧ gNarrow x = true) → Tab.get GSlot.reset (tileAt t k).g.slots i =
        gAccum x a.val (16 * (i - j)) (Tab.get GSlot.reset x.g.slots i)) ∧
      (∀ i, i ≠ j → (i = j + 1 → gNarrow x = false) →
        Tab.get GSlot.reset (tileAt t k).g.slots i = Tab.get GSlot.reset x.g.slots i) ∧
      (gTagged x = false → Tab.get 0 (tileAt t k).g.taken q = n + 1) ∧ t.mem = s.mem) ∧
  (∀ (site : Site) (slot : Fin 1024) (r : RunSt) (s : State),
    let k := siteNo site
    let x := tileAt s k
    let g := Tab.get GSlot.reset x.g.slots slot.val
    let narrow := gOutFmt x = 4 ∨ gOutFmt x = 5
    runOf s k = some r → kindOf k = .G → g.full = true → gFmtOk x = true →
    (bitAt (gCfg x) 9 = false → ¬narrow → bitAt (gCfg x) 10 = false → hasCredit x 0 false = true →
      ∃ t, exec (.gatherSlotForward site slot) s = .next t ∧ Tab.get GSlot.reset (tileAt t k).g.slots slot.val = GSlot.reset ∧
        (tileAt t k).g.cntFwd = (x.g.cntFwd + 1) % 2 ^ 32 ∧
        (∃ y ∈ (hoopAt t (noHoop k)).flight, y.src = k ∧ y.port = 0 ∧ y.ctrl = false ∧ y.val = tokOf (gRound x g)) ∧ t.mem = s.mem) ∧
    (bitAt (gCfg x) 9 = false → narrow → bitAt (gCfg x) 10 = false → hasCredit x 0 false = true → slot.val % 2 = 0 →
      (Tab.get GSlot.reset x.g.slots (slot.val + 1)).full = true →
      ∃ t, exec (.gatherSlotForward site slot) s = .next t ∧ Tab.get GSlot.reset (tileAt t k).g.slots slot.val = GSlot.reset ∧
        Tab.get GSlot.reset (tileAt t k).g.slots (slot.val + 1) = GSlot.reset ∧ (tileAt t k).g.cntFwd = (x.g.cntFwd + 2) % 2 ^ 32 ∧
        (∃ y ∈ (hoopAt t (noHoop k)).flight, y.src = k ∧ y.port = 0 ∧ y.ctrl = false ∧
          y.val = tokOf (gRound x g ++ gRound x (Tab.get GSlot.reset x.g.slots (slot.val + 1)))) ∧ t.mem = s.mem) ∧
    (∀ pa, bitAt (gCfg x) 9 = true → s.dev.debug = false →
      let a := if noCol k = 14 then k + 16 else k - 16
      let off := gABase x + slot.val * (if gOutFmt x = 4 || gOutFmt x = 5 then 32 else 64)
      asAddr s r.ctx a off (gRound x g).length = some pa → syncAsHit s r.ctx (noHoop a) off (gRound x g).length = false →
      ∃ t, exec (.gatherSlotForward site slot) s = .next t ∧ Tab.get GSlot.reset (tileAt t k).g.slots slot.val = GSlot.reset ∧
        (tileAt t k).g.cntFwd = (x.g.cntFwd + 1) % 2 ^ 32 ∧ peek t pa (gRound x g).length = gRound x g ∧
        ∀ b, b < pa ∨ pa + (gRound x g).length ≤ b → Tab.get 0 t.mem b = Tab.get 0 s.mem b))

/-- Completion of knotFill, knotTake, knotPeek, knotArrive and knotDrain: FILL sets an empty knot full and answers its
waiters, TAKE and PEEK of a full knot reply with its VALUE, TAKE empties it, both wait at an empty one, or get a RETRY
at the limit; ARRIVE counts to TARGET; DRAIN empties. FILL of a full knot and an ARRIVE without target set OVF, DRAIN of
an empty one UDF, and each faults its context (R269 to R271, Table 08.5). -/
def Obligations.KnotsTakeOperations : Prop :=
  ∀ (n k b : Nat) (r : KnotReq) (s : State), KnotNext n r k b s → b < 8 →
    let w := peekNum s r.pa 8
    let full := (setFld (setFld w 63 1 0) 24 16 0)
    let room := portWaiters s r.pa < if isHbm r.pa then 512 else 64
    (r.op = 0 → knFull w = false → ∃ t, exec (.knotFill n) s = .next t ∧
      KnotFilled n r.pa (setFld (setFld w 0 24 r.value.toNat) 63 1 1) s t ∧ bindingAt (tileAt t k) b = .ready) ∧
    (r.op = 0 → knFull w = true → ∃ t, exec (.knotFill n) s = .next t ∧ KnotServed n r.pa (setFld w 62 1 1) s t ∧
      Latches r.ctx .knotOvf s t ∧ bindingAt (tileAt t k) b = .ready) ∧
    (∀ p ∈ [(Instr.knotTake n, 1), (.knotPeek n, 2)], r.op = p.2 →
      (knFull w = true → ∃ t, exec p.1 s = .next t ∧ KnotServed n r.pa (if p.2 = 1 then full else w) s t ∧
        ∃ x, t.net.reps = s.net.reps ++ [x] ∧ x.site = k ∧ x.binding = b ∧ x.value = BitVec.ofNat 24 (fld w 0 24) ∧ x.retry = false) ∧
      (knFull w = false → room → ∃ t, exec p.1 s = .next t ∧ t.net.reqs = s.net.reqs.eraseIdx n ∧ t.mem = s.mem ∧
        waitersAt t r.pa = waitersAt s r.pa ++ [⟨p.2, r.fromMod, k, b, r.ctx⟩] ∧ t.net.reps = s.net.reps) ∧
      (knFull w = false → ¬room → ∃ t, exec p.1 s = .next t ∧ t.net.reqs = s.net.reqs.eraseIdx n ∧ t.mem = s.mem ∧
        t.net.waiters = s.net.waiters ∧ ∃ x, t.net.reps = s.net.reps ++ [x] ∧ x.site = k ∧ x.binding = b ∧ x.retry = true)) ∧
    (r.op = 3 → knTarget w ≠ 0 → knFull w = false → knCount w + 1 < knTarget w → ∃ t, exec (.knotArrive n) s = .next t ∧
      KnotServed n r.pa (setFld w 24 16 (knCount w + 1)) s t ∧ bindingAt (tileAt t k) b = .ready) ∧
    (r.op = 3 → knTarget w ≠ 0 → knFull w = false → knTarget w ≤ knCount w + 1 → ∃ t, exec (.knotArrive n) s = .next t ∧
      KnotFilled n r.pa (setFld (setFld w 24 16 (knTarget w)) 63 1 1) s t ∧ bindingAt (tileAt t k) b = .ready) ∧
    (r.op = 3 → knTarget w = 0 ∨ knFull w = true → ∃ t, exec (.knotArrive n) s = .next t ∧
      KnotServed n r.pa (setFld w 62 1 1) s t ∧ Latches r.ctx .knotOvf s t ∧ bindingAt (tileAt t k) b = .ready) ∧
    (r.op = 4 → knFull w = true → ∃ t, exec (.knotDrain n) s = .next t ∧ KnotServed n r.pa full s t ∧
      bindingAt (tileAt t k) b = .ready) ∧
    (r.op = 4 → knFull w = false → ∃ t, exec (.knotDrain n) s = .next t ∧ KnotServed n r.pa (setFld w 61 1 1) s t ∧
      Latches r.ctx .knotUdf s t ∧ bindingAt (tileAt t k) b = .ready)

/-- Completion of knotRequest, knotRetry and knotReply: an idle binding takes a token from KQ and sends its operation with
the token's low 24 bits or its constant; one that got a RETRY sends again; an address outside the sync region faults
with BOUND. A reply frees the binding and leaves on ROUT as a control token with the VALUE; a RETRY is kept (R271, R273,
R277). -/
def Obligations.BindingsSendAndReceive : Prop :=
  (∀ (site : Site) (binding : Fin 8) (run : RunSt) (s : State),
    let k := siteNo site
    let x := tileAt s k
    let g := kbReg x binding.val
    let q := fld g 1 4
    let ka := kaddrOf (fld g 64 64)
    runOf s k = some run → (kindOf k = .A ∨ kindOf k = .B) → (ka.remote = false ∨ ka.mod = ownId s) →
    (∀ a, bitAt g 0 = true → bindingUndef s k binding.val = none → bindingAt x binding.val = .ready → headOf x q = .tok a →
      (∀ pa, knotAt (windowPop k q s) run.ctx (quarterOf (noHoop k)) ka (kbOp g ≠ 2) = .at_ pa →
        ∃ t r, exec (.knotRequest site binding) s = .next t ∧ t.net.reqs = s.net.reqs ++ [r] ∧ r.op = kbOp g ∧
          r.value = (if bitAt g 10 then BitVec.ofNat 24 (fld g 11 24) else a.val.setWidth 24) ∧ r.ctx = run.ctx ∧ r.pa = pa ∧
          r.fromMod = ownId s ∧ r.who = some (k, binding.val) ∧ bindingAt (tileAt t k) binding.val = .sent ∧
          qToks (tileAt t k) q = (qToks x q).tail ∧ t.mem = s.mem) ∧
      (knotAt (windowPop k q s) run.ctx (quarterOf (noHoop k)) ka (kbOp g ≠ 2) = .bound →
        ∃ t, exec (.knotRequest site binding) s = .next t ∧ Latches run.ctx .bound s t ∧ t.net.reqs = s.net.reqs ∧ t.mem = s.mem)) ∧
    (∀ pa, bindingAt x binding.val = .retry → knotAt s run.ctx (quarterOf (noHoop k)) ka (kbOp g ≠ 2) = .at_ pa →
      ∃ t r, exec (.knotRetry site binding) s = .next t ∧ t.net.reqs = s.net.reqs ++ [r] ∧ r.op = kbOp g ∧ r.ctx = run.ctx ∧
        r.pa = pa ∧ r.who = some (k, binding.val) ∧ bindingAt (tileAt t k) binding.val = .sent ∧ t.mem = s.mem)) ∧
  (∀ (n : Nat) (r : KnotRep) (s : State), s.net.reps[n]? = some r → replyBehind s n r = false → r.binding < 8 →
    bindingAt (tileAt s r.site) r.binding = .sent →
    let o := fld (kbReg (tileAt s r.site) r.binding) 8 2
    (r.retry = true → ∃ t, exec (.knotReply n) s = .next t ∧ bindingAt (tileAt t r.site) r.binding = .retry ∧
      t.net.reps = s.net.reps.eraseIdx n ∧ t.mem = s.mem) ∧
    (r.retry = false → hasCredit (tileAt s r.site) o true = true → ∃ t, exec (.knotReply n) s = .next t ∧
      bindingAt (tileAt t r.site) r.binding = .ready ∧ t.net.reps = s.net.reps.eraseIdx n ∧
      cCred (tileAt t r.site) o + 1 = cCred (tileAt s r.site) o ∧
      (∃ y ∈ (hoopAt t (noHoop r.site)).flight, y.src = r.site ∧ y.port = o ∧ y.ctrl = true ∧
        y.val = BitVec.ofNat 512 (0x80000000 + r.value.toNat)) ∧ t.mem = s.mem))

/-- Completion of channelSend, channelRecv, channelNotify, headReturn, chanRingReport and chanFaulted: a SEND port gathers
the EXT + 1 tokens of a message, then writes them with the message count, advances the tail and notifies the receiver
once the source's writes before it are in place; the halves take each other's tail and head, of one pair of endpoints in
order; a RECV port reads the slots at the head, sends them as tokens and then advances the head; a FAULTED channel
discards. Ring reports and faults of the peer are taken over (R27, R28, R282, R286 to R288, R290, R291). What a PAD
carries, SEQ as the number of messages sent before, and what counts as a stall are the model's choices (log entry 23);
so is how far writes of other modules are awaited (log entry 36). -/
def Obligations.ChannelsMoveMessages : Prop :=
  (∀ (site : Site) (port : Fin 4) (n : Nat) (st : ChanState) (s : State), PortOn false site port n st s →
    let k := siteNo site
    let x := tileAt s k
    let y := chanAt s n
    let q := fld (cpReg x port.val) 2 4
    let vs := portSlots x port.val
    (∀ a, st = .faulted → vs = [] → headOf x q = .tok a → ∃ t, exec (.channelSend site port) s = .next t ∧
      qToks (tileAt t k) q = (qToks x q).tail ∧ (chanAt t n).discard = satAdd 32 y.discard 1 ∧ t.mem = s.mem) ∧
    (st = .faulted → vs ≠ [] → ∃ t, exec (.channelSend site port) s = .next t ∧ portSlots (tileAt t k) port.val = [] ∧
      (chanAt t n).discard = satAdd 32 y.discard vs.length ∧ t.mem = s.mem) ∧
    (∀ a, st = .opened → sendShared x port.val q = false → (∀ v, vs.head? = some v → vs.length < msgExt v.1 + 1) →
      qCtrl x q = false → headOf x q = .tok a → (vs = [] → msgKind a.val = 1) → ∃ t, exec (.channelSend site port) s = .next t ∧
      (portSlots (tileAt t k) port.val).map (·.1) = vs.map (·.1) ++ [a.val] ∧ qToks (tileAt t k) q = (qToks x q).tail ∧
      t.chans = s.chans ∧ t.mem = s.mem) ∧
    (∀ v rest u, st = .opened → sendShared x port.val q = false → vs = v :: rest → msgExt v.1 + 1 ≤ vs.length →
      hasReceiver y = true → let pos := y.tail.toNat % ringN y
      let slots := BitVec.ofNat 512 (setFld v.1.toNat 48 16 y.sent) :: rest.map (·.1)
      pos + vs.length ≤ ringN y → vs.length ≤ freeSlots y →
      pushSlots n (some k) pos slots (vs.foldl (fun m v => joinClock m v.2) []) s = (u, none) →
      let f : Notice := ⟨n, y.tail + BitVec.ofNat 32 vs.length, some k, u.net.nextWid⟩
      ∃ t, exec (.channelSend site port) s = .next t ∧ t.mem = u.mem ∧ (chanAt t n).tail = y.tail + BitVec.ofNat 32 vs.length ∧
        (chanAt t n).sent = satAdd 48 y.sent 1 ∧ portSlots (tileAt t k) port.val = [] ∧
        (fenceMet u f = true → (false, n, f.tail) ∈ t.net.ctrls ∧
          (u.net.held = [] → t.net.ctrls = u.net.ctrls ++ [(false, n, f.tail)] ∧ t.net.held = [])) ∧
        (fenceMet u f = false → f ∈ t.net.held ∧ (u.net.held = [] → t.net.ctrls = u.net.ctrls)) ∧
        (∀ pa, y.space = 0 → asAddr s y.ctx (tileOfIndex .A y.ringHoop y.ringTile) (y.ringBase + 64 * pos) (64 * vs.length) = some pa →
          t.mem = putBytes s.mem pa (slots.flatMap tokBytes)))) ∧
  (∀ (site : Site) (port : Fin 4) (n : Nat) (s : State), PortOn true site port n .opened s →
    let k := siteNo site
    let x := tileAt s k
    let y := chanAt s n
    let q := quarterOf (noHoop k)
    let o := fld (cpReg x port.val) 2 2
    let vs := portSlots x port.val
    let m := Tab.get 0 x.b.portSent port.val
    (∀ v, vs[m]? = some v → hasCredit x o false = true → ∃ t, exec (.channelRecv site port) s = .next t ∧
      (∃ z ∈ (hoopAt t (noHoop k)).flight, z.src = k ∧ z.port = o ∧ z.ctrl = false ∧ z.val = v.1) ∧
      dCred (tileAt t k) o + 1 = dCred x o ∧ t.mem = s.mem ∧
      (m + 1 < vs.length → portSlots (tileAt t k) port.val = vs ∧ Tab.get 0 (tileAt t k).b.portSent port.val = m + 1 ∧
        t.chans = s.chans) ∧
      (m + 1 = vs.length → portSlots (tileAt t k) port.val = [] ∧ Tab.get 0 (tileAt t k).b.portSent port.val = 0 ∧
        (chanAt t n).head = y.head + BitVec.ofNat 32 vs.length ∧ (chanAt t n).recv = satAdd 48 y.recv 1 ∧
        (hasSender y = true → t.net.ctrls = s.net.ctrls ++ [(true, n, y.head + BitVec.ofNat 32 vs.length)]))) ∧
    (∀ v ws, vs = [] → y.head ≠ y.tailSeen → getSlots s q y y.head.toNat 1 = .ok [v] → msgKind v ≠ 2 →
      getSlots s q y y.head.toNat (msgExt v + 1) = .ok ws → ∃ t, exec (.channelRecv site port) s = .next t ∧
      (portSlots (tileAt t k) port.val).map (·.1) = ws ∧ t.chans = s.chans ∧ t.mem = s.mem) ∧
    (∀ v, vs = [] → y.head ≠ y.tailSeen → getSlots s q y y.head.toNat 1 = .ok [v] → msgKind v = 2 → hasSender y = true →
      let h := y.head + BitVec.ofNat 32 (max 1 (msgPadLen v))
      h = y.tailSeen → ∃ t, exec (.channelRecv site port) s = .next t ∧ (chanAt t n).head = h ∧
      t.net.ctrls = s.net.ctrls ++ [(true, n, h)] ∧ portSlots (tileAt t k) port.val = [] ∧ t.mem = s.mem)) ∧
  (∀ (chan : BitVec 12) (s : State),
    let n := chan.toNat
    let x := chanAt s n
    let took (head : Bool) (u : State) (i : Instr) : Prop := ∀ m0 m, u.net.ctrls.find? (fun m => m.1 == head && decide (m.2.1 = n)) = some m0 →
      u.net.ctrls.find? (fun m => decide (ctrlWay u m = ctrlWay u m0)) = some m → ∃ t, exec i s = .next t ∧
        chanAt t m.2.1 = (if (chanAt s m.2.1).st ≠ .opened then chanAt s m.2.1
          else if m.1 then { chanAt s m.2.1 with headSeen := m.2.2 } else { chanAt s m.2.1 with tailSeen := m.2.2 }) ∧
        t.net.ctrls = eraseFirst (fun m => decide (ctrlWay u m = ctrlWay u m0)) u.net.ctrls ∧
        (∀ j, j ≠ m.2.1 → chanAt t j = chanAt s j) ∧ t.mem = s.mem
    took false (sendTails s) (.channelNotify chan) ∧ took true s (.headReturn chan) ∧
    (∀ f, s.net.held = [f] → f.chan = n → x.st = .opened → hasReceiver x = true → fenceMet s f = true → s.net.ctrls = [] →
      ∃ t, exec (.channelNotify chan) s = .next t ∧ chanAt t n = { x with tailSeen := f.tail } ∧
        t.net.held = [] ∧ t.net.ctrls = [] ∧ (∀ j, j ≠ n → chanAt t j = chanAt s j) ∧ t.mem = s.mem) ∧
    (∀ g, x.st = .opened → hasSender x = true → hasReceiver x = false → g ≤ 16 → ∃ t, exec (.chanRingReport chan g) s = .next t ∧
      chanAt t n = { x with ringLog2 := g, ringKnown := true } ∧ t.mem = s.mem ∧ t.net = s.net) ∧
    (x.st = .opened → x.half ≠ 3 → ∃ t, exec (.chanFaulted chan) s = .next t ∧ chanAt t n = { x with st := .faulted } ∧
      Raised 0x0007 x.ctx (toLE 2 n ++ toLE 2 x.peerMod ++ toLE 2 x.peerChan) s t ∧ t.mem = s.mem ∧ t.net.far.all (·.chan ≠ some n) ∧
      t.net.ctrls = s.net.ctrls.filter (fun m => m.2.1 ≠ n) ∧ t.net.held = s.net.held.filter (fun f => f.chan ≠ n)))

/-- Completion of loaderRequest, copyRequest, copyWrite, copyDone and cordonnetTransfer: the Selvedge controller takes
loader and copy messages of its channels: a load of a resident pricking is queued at its Hoop, an unknown motif is
answered with status 05H, a copy is handed to an engine. A running copy moves its next unit of at most 256 B, here or to
another module; when all is written its FILL and ARRIVE leave. A transfer on the cordonnet reaches every tap: one with a
matching entry writes it to its A tile or sends its four tokens, the others count a drop. A copy's read of an aperture
gives GRAD of version CUR (R31 to R33, R293, R340, R399, R400, R478 to R480). Page tables of quarter 0 for the service
rings and knots are the model's choice (log entry 23). -/
def Obligations.ServicesMoveData : Prop :=
  (∀ (chan : BitVec 12) (c skip : Nat) (vs : List DataTok) (s : State), serviceMsg chan.toNat s = some (c, .ok (skip, some vs)) →
    let n := chan.toNat
    let x := chanAt s n
    let a := (vs.headD 0).toNat
    let b := (vs.getD 1 0).toNat
    let kaddr := BitVec.ofNat 64 (fld a 192 64)
    (∀ p, vs.length = 1 → (kaddrOf kaddr.toNat).bad = false → residentOf s c (fld a 164 16) = some p →
      ∃ t, exec (.loaderRequest chan) s = .next t ∧ (chanAt t n).head = x.head + BitVec.ofNat 32 (skip + 1) ∧
        (chanAt t n).recv = satAdd 48 x.recv 1 ∧ (hoopAt t p.hoop).loads = (hoopAt s p.hoop).loads ++
          [⟨.loader kaddr (bitAt a 181), c, fld a 164 16, p.c0, p.c1, bitAt a 180, false, false⟩] ∧ t.mem = s.mem) ∧
    (∀ pa, vs.length = 1 → (kaddrOf kaddr.toNat).bad = false → residentOf s c (fld a 164 16) = none →
      ((kaddrOf kaddr.toNat).remote = false ∨ (kaddrOf kaddr.toNat).mod = ownId s) →
      knotAt (serviceTaken n (skip + 1) s) c 0 (kaddrOf kaddr.toNat) true = .at_ pa →
      ∃ t r, exec (.loaderRequest chan) s = .next t ∧ (chanAt t n).head = x.head + BitVec.ofNat 32 (skip + 1) ∧
        t.net.reqs = s.net.reqs ++ [r] ∧ r.op = 0 ∧ r.value = BitVec.ofNat 24 (256 * fld a 164 16 + 5) ∧ r.pa = pa ∧ t.mem = s.mem) ∧
    (vs.length = 2 → badCopy s c a b = false →
      ∃ t, exec (.copyRequest chan) s = .next t ∧ (chanAt t n).head = x.head + BitVec.ofNat 32 (skip + 2) ∧
        (∃ y ∈ t.net.copies, y.id = s.net.nextCopy ∧ y.ctx = c ∧ y.src = BitVec.ofNat 64 (fld a 64 64) ∧ y.len = fld a 128 32 ∧
          y.dest = BitVec.ofNat 64 (fld b 0 64) ∧ y.done = (if bitAt b 192 then some (BitVec.ofNat 64 (fld b 64 64)) else none) ∧
          y.arv = (if bitAt b 193 then some (BitVec.ofNat 64 (fld b 128 64)) else none) ∧ y.at_ = 0 ∧ y.unacked = 0) ∧
        t.net.copies.length = s.net.copies.length + 1 ∧ t.mem = s.mem)) ∧
  (∀ (n : Nat) (x : Copy) (s : State), s.net.copies[n]? = some x → x.running = true → copyLive s x = true → s.dev.debug = false →
    let src := kaddrOf x.src.toNat
    let dst := kaddrOf x.dest.toNat
    let q := portQuarter x.port
    let m := min 256 (x.len - x.at_)
    (∀ pa, x.at_ < x.len → copyAsleep s x = [] → (src.off + x.at_) % 16384 + m ≤ 16384 →
      (match (if src.hbm then apertureOf s x.ctx (src.off + x.at_) else none) with
        | some ap => hbmAddr s x.ctx q ap.at_ m false
        | none => copyAt s x.ctx q src x.at_ m false) = .at_ pa → ueAt s pa m = none →
      (∀ pb, (dst.remote = false ∨ dst.mod = ownId s) → (dst.off + x.at_) % 16384 + m ≤ 16384 → (dst.hbm = true → apertureOf s x.ctx (dst.off + x.at_) = none) →
        copyAt s x.ctx q dst x.at_ m true = .at_ pb → ∃ t, exec (.copyWrite n) s = .next t ∧ t.mem = putBytes s.mem pb (peek s pa m) ∧
          t.net.copies = s.net.copies.map fun y => if y.id = x.id then { y with at_ := y.at_ + m } else y) ∧
      (dst.remote = true → dst.mod ≠ ownId s → ctxSt s x.ctx ≠ .faulted → ∃ t, exec (.copyWrite n) s = .next t ∧ t.mem = s.mem ∧
          t.net.copies = s.net.copies.map fun y => if y.id = x.id then { y with at_ := y.at_ + m, unacked := y.unacked + 1 } else y)) ∧
    (x.len ≤ x.at_ → x.unacked = 0 → (∀ y ∈ s.net.copies, y.id = x.id → y = x) →
      ∀ pd pv, (∀ a, x.done = some a → ((kaddrOf a.toNat).remote = false ∨ (kaddrOf a.toNat).mod = ownId s) ∧
          knotAt s x.ctx q (kaddrOf a.toNat) true = .at_ pd) →
        (∀ a, x.arv = some a → ((kaddrOf a.toNat).remote = false ∨ (kaddrOf a.toNat).mod = ownId s) ∧
          knotAt s x.ctx q (kaddrOf a.toNat) true = .at_ pv) → ∃ t, exec (.copyDone n) s = .next t ∧
        t.net.copies.map (·.id) = (eraseFirst (fun y => y.id = x.id) s.net.copies).map (·.id) ∧
        t.net.reqs.map (fun r => (r.op, r.value, r.pa, r.ctx)) = s.net.reqs.map (fun r => (r.op, r.value, r.pa, r.ctx)) ++
          (if x.done.isSome then [(0, 0, pd, x.ctx)] else []) ++ (if x.arv.isSome then [(3, 0, pv, x.ctx)] else []) ∧ t.mem = s.mem)) ∧
  (∀ (n pb : Nat) (u : CopyUnit) (s : State), let ka := kaddrOf u.dest.toNat
    s.net.copies.length ≤ n → s.dev.debug = false → unitAsleep s u = [] → s.net.units[n - s.net.copies.length]? = some u →
    (∀ v ∈ s.net.units.take (n - s.net.copies.length), v.fromMod ≠ u.fromMod) → ka.off % 16384 + u.bytes.length ≤ 16384 →
    ka.bad = false → (ka.hbm = true → apertureOf s u.ctx ka.off = none) →
    (if ka.hbm then syncHbmHit s u.ctx ka.off u.bytes.length else syncAsHit s u.ctx ka.hoop ka.off u.bytes.length) = false →
    copyAt s u.ctx u.quarter ka 0 u.bytes.length true = .at_ pb → ∃ t, exec (.copyWrite n) s = .next t ∧
      t.mem = putBytes s.mem pb u.bytes ∧ t.net.units = s.net.units.eraseIdx (n - s.net.copies.length)) ∧
  (∀ (n : Nat) (f : Xfer) (s : State), n < s.net.xfers.length → busTurn s = some f →
    let left := eraseFirst (fun g => g.hoop = f.hoop) s.net.xfers
    (∀ h, h < 8 → (hoopAt s h).tapBuf = []) →
    ((∀ h, h < 8 → matching s h f.ctx f.tag = []) → ∃ t, exec (.cordonnetTransfer n) s = .next t ∧
      t.net.xfers = left ∧ (∀ h, h < 8 → (hoopAt t h).tapDrop = satAdd 48 (hoopAt s h).tapDrop 1) ∧ t.mem = s.mem) ∧
    (∀ h i, h < 8 → matching s h f.ctx f.tag = [i] → (∀ j, j < 8 → j ≠ h → matching s j f.ctx f.tag = []) →
      ctxSt s f.ctx ≠ .faulted → (hoopAt s h).power = .on →
      let e := subAt s h i
      let off := 64 * subBase e
      let j := Tab.get 0 (hoopAt s h).subCnt i % max 1 (subLen e)
      let a := tileOfIndex .A h (subAtile e)
      (∀ p0 pa, subTile e = true → s.dev.debug = false → asAddr s f.ctx a off (256 * subLen e) = some p0 →
        asAddr s f.ctx a (off + 256 * j) 256 = some pa → syncAsHit s f.ctx h (off + 256 * j) 256 = false →
        (subArv e = true → j + 1 = subLen e → (kaddrOf (fld e 64 64)).bad = false) → ∃ t, exec (.cordonnetTransfer n) s = .next t ∧ t.net.xfers = left ∧
        t.mem = putBytes s.mem pa f.data ∧ (hoopAt t h).tapRx = satAdd 48 (hoopAt s h).tapRx 1 ∧ (hoopAt t h).tapBuf = [] ∧
        Tab.get 0 (hoopAt t h).subCnt i = Tab.get 0 (hoopAt s h).subCnt i + 1 ∧
        ∀ j, j < 8 → j ≠ h → (hoopAt t j).tapDrop = satAdd 48 (hoopAt s j).tapDrop 1) ∧
      (let k := bTileNo h (subBtile e)
       subTile e = false → 4 ≤ dCred (tileAt s k) (subBout e) → ∃ t, exec (.cordonnetTransfer n) s = .next t ∧
        t.net.xfers = left ∧ t.mem = s.mem ∧ (hoopAt t h).tapBuf = [] ∧
        dCred (tileAt t k) (subBout e) + 4 = dCred (tileAt s k) (subBout e) ∧
        ∀ m, m < 4 → ∃ y ∈ (hoopAt t h).flight, y.src = k ∧ y.port = subBout e ∧ y.ctrl = false ∧
          y.val = tokOf ((f.data.drop (64 * m)).take 64))))

/-- Completion of accumulateWrite and directionWrite: a gradient-aperture write is added element by element to GRAD of
version CUR, a direction-aperture write replaces it, one mask bit included; a block already swept faults the writer with
LATE_GRADIENT, as a codeword that cannot be read faults it with ECC_UE and a descriptor that cannot be reached with its
own code. An accumulate write of other than whole aligned elements is undefined within the context. DN_GAP and the
record are 4-B aligned (premise). The write is served with done, and whole codewords behind it on its way follow (R27,
R338 to R340, R356). The fault code of a descriptor that cannot be reached is the model's choice (log entry 21). -/
def Obligations.AperturesAccumulateAndReplace : Prop :=
  ∀ (n : Nat) (w : HbmWrite) (ap : Aperture) (s : State),
    ArrivesNext n w s → apertureOf s w.ctx w.ca = some ap → ap.at_ % 4 = 0 → w.data ≠ [] →
    let c := if ap.direction then Instr.directionWrite n else .accumulateWrite n
    let arrives (P : State → Prop) : Prop := Arrives c w s P
    let whole := w.mask = false ∧ w.ca % 4 = 0 ∧ w.data.length % 4 = 0
    (ap.direction = false → ¬whole →
      exec c s = .next (settleWay w (undef .accumulate w.ctx s).net.writes.length (wroteAt w.wid (undef .accumulate w.ctx s)))) ∧
    ((ap.direction = false → whole) →
      (blockDesc s w.ctx w.quarter ap.block = none →
        arrives fun u => u.mem = s.mem ∧ Latches w.ctx (descFail s w.ctx w.quarter ap.block) s u) ∧
      (∀ d, blockDesc s w.ctx w.quarter ap.block = some d → ¬(bitAt d 0 = false ∨ fld d 1 2 = 2) →
        (sweptNow s w.ctx ap.block = true → arrives fun u => u.mem = s.mem ∧ Latches w.ctx .lateGradient s u) ∧
        (sweptNow s w.ctx ap.block = false →
          ∀ pa, hbmAddr s w.ctx w.quarter ap.at_ (if w.mask then 1 else w.data.length) true = .at_ pa →
          (ap.direction = false → ueAt s pa w.data.length = none →
            arrives fun u => u.mem = putBytes s.mem pa (addElems (peek s pa w.data.length) w.data) ∧ u.ctxs = s.ctxs) ∧
          (ap.direction = false → w.ctx ≠ 0 → pa / 32 = (pa + w.data.length - 1) / 32 → ueAt s pa w.data.length ≠ none →
            arrives fun u => u.mem = s.mem ∧ Latches w.ctx .eccUe s u) ∧
          (ap.direction = true → w.mask = false → mergeUe s pa w.data.length = none →
            arrives fun u => u.mem = putBytes s.mem pa w.data ∧ u.ctxs = s.ctxs) ∧
          (∀ j v, ap.direction = true → w.mask = true → w.data = [j, v] → ueAt s pa 1 = none →
            arrives fun u => u.mem = putBytes s.mem pa [setBitOf (Tab.get 0 s.mem pa) j.toNat (v = 1)] ∧ u.ctxs = s.ctxs))))

/-- An accumulate or direction write to a block whose ROLE is FROZEN, or whose V is 0, changes no byte of memory, and its
bytes are counted in DN_CNT_DISCARD (R341). -/
def Obligations.WritesToUnusedBlocksAreDiscarded : Prop :=
  ∀ (n d : Nat) (w : HbmWrite) (ap : Aperture) (s : State),
    ArrivesNext n w s → apertureOf s w.ctx w.ca = some ap →
    (ap.direction = false → w.mask = false ∧ w.ca % 4 = 0 ∧ w.data.length % 4 = 0) →
    blockDesc s w.ctx w.quarter ap.block = some d → (bitAt d 0 = false ∨ fld d 1 2 = 2) →
    Arrives (if ap.direction then .directionWrite n else .accumulateWrite n) w s fun u => u.mem = s.mem ∧ u.bad = s.bad ∧
      (ctxAt u w.ctx).cntDiscard = satAdd 48 (ctxAt s w.ctx).cntDiscard (if w.mask then 1 else w.data.length) ∧
      (ctxAt u w.ctx).latched = (ctxAt s w.ctx).latched ∧ u.tiles = s.tiles ∧ u.chans = s.chans ∧ u.logs = s.logs

/-- Completion of hbmPartialWrite and serviceWrite: a write outside the apertures, or by the service path, replaces its
bytes, one mask bit included; a codeword whose merge meets an uncorrectable word is left as it is and faults the writer
with ECC_UE. A service write to an unpopulated address changes nothing and is logged (R46, R196, R197, R217, R231,
R242). Completion of hbmScrub and bistWindow: a scrub and the background test, which tests one 4 KiB window of a store
after another, count what they correct and what ordinary accesses have corrected since (a free number), raise
MEM_CE_RATE once a unit passes 64 corrections within a second (how many earlier ones lie within it is free, log entry
38), report an uncorrectable word with MEM_UE_FOUND and in the fault log, also one that was uncorrectable before, and
repair a failing row with the next spare one, which the repair list and the configuration block keep (R219, R221 to
R227, R232, R449). -/
def Obligations.WritesMergeAndScrubsRepair : Prop :=
  ((∀ (n : Nat) (w : HbmWrite) (s : State), ArrivesNext n w s → apertureOf s w.ctx w.ca = none →
     let arrives (P : State → Prop) : Prop := Arrives (.hbmPartialWrite n) w s P
     (w.mask = false →
       ((∀ p ∈ codewords w.pa w.data, mergeUe s p.1 p.2.length = none) →
         arrives fun u => u.mem = putBytes s.mem w.pa w.data ∧ u.ctxs = s.ctxs) ∧
       (w.ctx ≠ 0 → w.pa / 32 = (w.pa + w.data.length - 1) / 32 → w.data ≠ [] → mergeUe s w.pa w.data.length ≠ none →
         arrives fun u => u.mem = s.mem ∧ Latches w.ctx .eccUe s u)) ∧
     (∀ j v, w.mask = true → w.data = [j, v] → ueAt s w.pa 1 = none →
       arrives fun u => u.mem = putBytes s.mem w.pa [setBitOf (Tab.get 0 s.mem w.pa) j.toNat (v = 1)] ∧ u.ctxs = s.ctxs)) ∧
   (∀ (addr : BitVec 40) (data : List Byte) (s : State), fabricOn s = true → let a := addr.toNat
     (isWs a = true → isWs (a + data.length - 1) = true → asleepAt s a = none → (∀ p ∈ codewords a data, mergeUe s p.1 p.2.length = none) →
       ∃ t, exec (.serviceWrite addr data) s = .next t ∧ t.mem = putBytes s.mem a data ∧ t.ctxs = s.ctxs ∧ t.logs = s.logs) ∧
     (populated a = false → ∃ t, exec (.serviceWrite addr data) s = .next t ∧ t.mem = s.mem ∧ t.ctxs = s.ctxs ∧
       t.logs.faults.head? = some ⟨2, 0, 0, 1, s.logs.lseq + 1, s.stitch.count, BitVec.ofNat 64 a, 0⟩ ∧ NoEvent s t))) ∧
  (let counted (key store hs tile n : Nat) (s t : State) : Prop :=
     let before := freeNat s 0 % (Tab.get 0 s.maint.recent key + 1)
     let m := n + metBy s
     Tab.get 0 t.maint.corr key = satAdd 32 (Tab.get 0 s.maint.corr key) m ∧ Tab.get 0 t.maint.recent key = before + m ∧
     t.mem = s.mem ∧ t.bad = s.bad ∧
     (if before ≤ 64 ∧ 64 < before + m then
       Raised 0x0030 0 (toLE 1 store ++ toLE 1 hs ++ toLE 1 tile ++ toLE 1 0 ++ toLE 4 (before + m)) s t else NoEvent s t)
   let found (store hs tile pa : Nat) (s t : State) : Prop :=
     pa / 8 ∈ t.bad ∧ t.mem = s.mem ∧
     Raised 0x0031 0 (toLE 1 store ++ toLE 1 hs ++ toLE 1 tile ++ toLE 1 0 ++ toLE 8 pa) s t ∧
     t.logs.faults.head? = some ⟨3, 0, 0, store, s.logs.lseq + 1, s.stitch.count, BitVec.ofNat 64 pa, s.logs.eseq + 1⟩
   (∀ (stack : Fin 8) (s : State), fabricOn s = true →
     (∃ t, exec (.hbmScrub stack .clean) s = .next t ∧ counted (4 * 4096 + stack.val) 4 stack.val 0 0 s t) ∧
     (∀ n, ∃ t, exec (.hbmScrub stack (.corrected n)) s = .next t ∧ counted (4 * 4096 + stack.val) 4 stack.val 0 n s t) ∧
     (∀ pa, isHbm pa = true → stackOf pa = stack.val → ∃ t, exec (.hbmScrub stack (.uncorrectable pa)) s = .next t ∧
       found 4 stack.val 0 pa s t)) ∧
   (∀ (store : Fin 4) (hoop : Fin 8) (tile : BitVec 8) (s : State), fabricOn s = true → (hoopAt s hoop.val).power = .on →
     tile.toNat < storeCount store.val →
     let st := store.val
     let h := hoop.val
     let key := st * 4096 + h * 256 + tile.toNat
     let now := Tab.get 0 s.maint.window key
     let next := (now + 1) % (storeSize st / 4096)
     let used := Tab.get 0 s.maint.spares key
     let pay (row spare : Nat) : List Byte := toLE 1 st ++ toLE 1 h ++ toLE 1 tile.toNat ++ toLE 1 0 ++ toLE 4 row ++ toLE 1 spare
     (∀ pa, windowUes s st h tile.toNat now = [pa] → ∃ t, exec (.bistWindow store hoop tile .clean) s = .next t ∧
       ⟨s.logs.eseq + 1, 0x0031, 0, s.stitch.count, toLE 1 st ++ toLE 1 h ++ toLE 1 tile.toNat ++ toLE 1 0 ++ toLE 8 pa⟩ ∈
         t.logs.raised ∧ t.mem = s.mem ∧ t.bad = s.bad ∧ t.ctxs = s.ctxs) ∧
     (windowUes s st h tile.toNat now = [] →
       (∃ t, exec (.bistWindow store hoop tile .clean) s = .next t ∧ Tab.get 0 t.maint.window key = next ∧
         counted key st h tile.toNat 0 s t) ∧
       (∀ n, ∃ t, exec (.bistWindow store hoop tile (.corrected n)) s = .next t ∧ Tab.get 0 t.maint.window key = next ∧
         counted key st h tile.toNat n s t) ∧
       (∀ pa, populated pa = true → isHbm pa = false → storeOf pa = (st, h, tile.toNat) →
         pa % storeSize st / 4096 = now → pa / 8 ∉ s.bad →
         ∃ t, exec (.bistWindow store hoop tile (.uncorrectable pa)) s = .next t ∧ Tab.get 0 t.maint.window key = next ∧
           found st h tile.toNat pa s t) ∧
       (∀ row, row / 4 = now →
         (used < spareRows st → s.maint.repairs.length < 512 → ∃ t, exec (.bistWindow store hoop tile (.rowFailed row)) s = .next t ∧
           Tab.get 0 t.maint.spares key = used + 1 ∧ t.maint.repairs = s.maint.repairs ++ [repairEntry st h tile.toNat row used] ∧
           t.flash.block.repairs = s.flash.block.repairs ++ (if s.dev.cfgDefaulted then [] else [repairEntry st h tile.toNat row used]) ∧
           Raised 0x0032 0 (pay row used) s t ∧ t.mem = s.mem) ∧
         (used < spareRows st → 512 ≤ s.maint.repairs.length → ∃ t, exec (.bistWindow store hoop tile (.rowFailed row)) s = .next t ∧
           Tab.get 0 t.maint.spares key = used + 1 ∧ t.maint.repairs = s.maint.repairs ∧ Raised 0x0033 0 (pay row used) s t ∧ t.mem = s.mem) ∧
         (spareRows st ≤ used → ∃ t, exec (.bistWindow store hoop tile (.rowFailed row)) s = .next t ∧ t.maint.repairs = s.maint.repairs ∧
           Raised 0x0034 0 (pay row 0xFF) s t ∧ t.mem = s.mem)))))

/-- Completion of darningOwnBlock: an OWN block: its count knot is drained, GRAD, MASTER and state of version CUR are read,
the rule's result goes to version ALT with GRAD zeroed, the old image is logged, the new image and its digest are
written. DIGEST of CUR is read where a record of the block is to be made: for a ring, for replicas, or for peers that
have asked for the image. The block's flags join the context's summary when it ends, with a record when that has left
the queue. In LAMB's pass 1 the block is read only, and its norms join the group's with their flags at once (R345 to
R347, R353, R361, R369; log entries 1, 25, 26 and 38 give the model's choices: free roundings, when a record is formed
and its layout, requests, and the flags of LAMB's passes). -/
def Obligations.OwnBlocksAreSwept : Prop :=
  ∀ (ctx : Fin 16) (hoop : Fin 8) (b d : Nat) (s u : State), EngineOn ctx.val hoop.val b d s u → formatsOk (sweepAt u ctx.val) d = true → bdRole d = 0 →
    let c := ctx.val
    let q := quarterOf hoop.val
    let cur := recordAt u c (dnCur u c) b
    let alt := recordAt u c (!dnCur u c) b
    (∀ grad master st, inPass1 u c = true → Does (engRead c q cur 16384) u grad u → Does (engRead c q (cur + 16384) 16384) u master u →
      let e := envOf u c (bdGroup d)
      Does (engRead c q (cur + 33024) (stateSize e.g)) u st u →
      let sums := lambNorms e (words32 grad) (words32 master) st
      ∃ t, exec (.darningOwnBlock ctx hoop) s = .next t ∧ (sweepAt t c).pass1 = (sweepAt u c).pass1 ++ [b] ∧ t.mem = u.mem ∧
        (ctxAt t c).flags = (ctxAt u c).flags ||| BitVec.ofNat 6 sums.2.2 ∧
        Tab.get 0 (sweepAt t c).normW (bdGroup d) = BitVec.ofNat 32 (add32 (Tab.get 0 (sweepAt u c).normW (bdGroup d)).toNat
          sums.1).1 ∧
        Tab.get 0 (sweepAt t c).normQ (bdGroup d) = BitVec.ofNat 32 (add32 (Tab.get 0 (sweepAt u c).normQ (bdGroup d)).toNat
          sums.2.1).1) ∧
    (∀ u0 u2 u3 u4 u5 grad master st old, inPass1 u c = false → Does (drainCount c q b) u () u0 →
      let u1 := modSweep c (fun w => { w with swept := w.swept ++ [b] }) u0
      let e := envOf u1 c (bdGroup d)
      let step := (sweepAt u1 c).step.toNat
      Does (engRead c q cur 16384) u1 grad u1 → Does (engRead c q (cur + 16384) 16384) u1 master u1 →
      Does (engRead c q (cur + 33024) (stateSize e.g)) u1 st u1 →
      let r := evalBlock e (words32 grad) (words32 master) st
      Does (do engWrite c q (alt + 16384) (bytes32 r.1); engWrite c q (alt + 33024) r.2.1
               engWrite c q alt (List.replicate 16384 0)) u1 () u2 →
      Does (imgRead c q d) u2 old u2 → Does (logImage c q b old) u2 () u3 →
      let new := imageOf (bdWfmt d) (bdSp24 d) (gdRmode e.g) (gdSatf e.g) (e.base + 32768) r.1 old
      Does (imgWrite c q d new.1) u3 () u4 → Does (digestWrite c q alt (imageDigest b step new.1)) u4 () u5 →
      let fl := r.2.2 ||| new.2
      (wantsRecord u5 c q = true ∨ b ∈ (ctxAt u5 c).delta.owed.map (·.1) → ∃ prev, Does (engRead c q (cur + 32768) 16) u5 prev u5) →
      ∃ t, exec (.darningOwnBlock ctx hoop) s = .next t ∧ t.mem = u5.mem ∧ BlockEnds c q b u5 t ∧
        (∀ o ∈ (ctxAt t c).delta.owed, o.1 ≠ b) ∧
        (if wantsRecord u5 c q then (ctxAt t c).flags = (ctxAt u5 c).flags ∧
            ∃ bs, queued t c q = queued u5 c q ++ [(1 + 256 * (hoop.val + 16 * fl), b, bs)]
          else (ctxAt t c).flags = (ctxAt u5 c).flags ||| BitVec.ofNat 6 fl))

/-- Completion of darningFrozenBlock and darningReplicaBlock: a FROZEN block's MASTER, DIGEST and state are copied to
version ALT. A REPLICA block takes the DATA record of the sweep's STEP that has come for it, MASTER of CUR being read
where the record carries one: the old image is logged, the new one and its digest are written; a PREV_DIGEST that
differs raises REPLICA_DIVERGED and under DIVPOL 1 asks the owner and under DIVPOL 2 faults the context with HALTED. A
block whose formats the engine does not take is undefined within the context (R50, R354, R355, R369). How a divergence
under DIVPOL 1 waits, and which peers answer, are the model's choices (log entry 26). -/
def Obligations.FrozenAndReplicaBlocksAreSwept : Prop :=
  ∀ (ctx : Fin 16) (hoop : Fin 8) (b d : Nat) (s u : State), EngineOn ctx.val hoop.val b d s u →
    let c := ctx.val
    (formatsOk (sweepAt u c) d = false → ∀ i, i = .darningOwnBlock ctx hoop ∧ bdRole d = 0 ∨ i = .darningReplicaBlock ctx hoop ∧ bdRole d = 1 ∨
      i = .darningFrozenBlock ctx hoop ∧ bdRole d = 2 → exec i s = .next (groundPart s (undef .format c u))) ∧
    (formatsOk (sweepAt u c) d = true →
    let q := quarterOf hoop.val
    let cur := recordAt u c (dnCur u c) b
    let alt := recordAt u c (!dnCur u c) b
    (∀ u1 u2 u3 m dg st, bdRole d = 2 → Does (engRead c q (cur + 16384) 16384) u m u → Does (engWrite c q (alt + 16384) m) u () u1 →
      Does (engRead c q (cur + 32768) 16) u1 dg u1 → Does (engWrite c q (alt + 32768) dg) u1 () u2 →
      Does (engRead c q (cur + 33024) (stateSize (groupAt (sweepAt u c) (bdGroup d)))) u2 st u2 →
      Does (engWrite c q (alt + 33024) st) u2 () u3 → ∃ t, exec (.darningFrozenBlock ctx hoop) s = .next t ∧
        b ∈ (sweepAt t c).swept ∧ b ∈ (sweepAt t c).done ∧ t.mem = u3.mem) ∧
    let step := (sweepAt u c).step.toNat
    let mine (r : Nat × List Byte) : Bool := decide (r.1 = b) && decide ((dheadOf r.2).step = step)
    (∀ bs own, bdRole d = 1 → inPass1 u c = false → (ctxAt u c).delta.ready.find? mine = some (b, bs) → asked u c b = false →
      let r := dheadOf bs
      let u0 := modDelta c (fun x => { x with ready := eraseFirst mine x.ready }) u
      Does (engRead c q (cur + 32768) 16) u0 own u0 →
      (∀ old master u1 u2 u3 u4, leNat own = r.prev → (ctxAt u c).latched = none → Does (imgRead c q d) u0 old u0 →
        (r.master = true → Does (engRead c q (cur + 16384) 16384) u0 master u0) → Does (logImage c q b old) u0 () u1 →
        let pay := padTo r.ilen (expand (r.clen + 1) r.ilen ((bs.drop 64).take r.clen))
        let n := bdSize d
        let new := if r.enc = 0 then xorBytes (pay.take n) old else pay.take n
        let m := (pay.drop n).take 16384
        Does (imgWrite c q d new) u1 () u2 →
        Does (if r.master then engWrite c q (alt + 16384) (if r.enc = 0 then xorBytes m master else m) else pure ()) u2 () u3 →
        Does (digestWrite c q alt (imageDigest b step new)) u3 () u4 → leNat (imageDigest b step new) = r.digest →
        ∃ t, exec (.darningReplicaBlock ctx hoop) s = .next t ∧ b ∈ (sweepAt t c).swept ∧ b ∈ (sweepAt t c).done ∧ t.mem = u4.mem) ∧
      (leNat own ≠ r.prev → (ctxAt u c).latched = none →
        let tells (t : State) : Prop := Raised 0x0015 c (toLE 4 b ++ toLE 2 r.src ++ toLE 1 0 ++ toLE 1 0 ++ toLE 8 step) u t ∧
          t.mem = u.mem ∧ (sweepAt t c).done = (sweepAt u c).done
        (fld (dnReg u c 0) 1 2 = 2 → ∃ t, exec (.darningReplicaBlock ctx hoop) s = .next t ∧ Latches c .halted u t ∧ tells t) ∧
        (fld (dnReg u c 0) 1 2 = 1 → ∃ t, exec (.darningReplicaBlock ctx hoop) s = .next t ∧ asked t c b = true ∧ tells t))))

/-- Completion of lambPass2 and sweepRollbackRestore: LAMB goes on to pass 2 once every LAMB block has finished pass 1. A
rolled-back sweep ends in NONE with SWEEP_ROLLED_BACK, its cause and the images restored (R346, R358, Table 12.16).
Completion of deltaRingWrite: messages of replica records that wait are sent, then the record at the front of a
quarter's queue is written whole before its tail advances, and its block is finished, whose flags join the context's
then; without room it waits; under the DROP policy a DATA record at the front is dropped then and counted, and behind a
COMMIT or ROLLBACK that waits every DATA record. A record that would wrap follows a PAD. A quarter without a ring writes
none (R347, R366, R367). Layouts that Table 10 leaves open and records that wait for room are the model's choices (log
entries 25 and 38). -/
def Obligations.PassesFinishAndRecordsReachTheirRings : Prop :=
  ((∀ (ctx : Fin 16) (s : State), let c := ctx.val
     (sweepAt s c).st = .opened → inPass1 s c = true →
     (∀ b, b < dnNblk s c → b ∈ (sweepAt s c).pass1 ∨ ∃ d, bdAt s c 0 b = some d ∧ isLamb (sweepAt s c) d = false) →
     ∃ t, exec (.lambPass2 ctx) s = .next t ∧ sweepAt t c = { sweepAt s c with lambPass2 := true } ∧ t.mem = s.mem ∧ NoEvent s t) ∧
   (∀ (ctx : Fin 16) (u : State) (s : State), let c := ctx.val
     let w := sweepAt s c
     let r := w.logged.foldl (fun s b => tryEng (restoreBlock c b) s) s
     w.st = .rollingBack → s.waits = [] → Does (logHeader c 3) r () u →
     ∃ t, exec (.sweepRollbackRestore ctx) s = .next t ∧ sweepAt t c = Sweep.reset ∧ t.mem = u.mem ∧
       Raised 0x0012 c (toLE 8 w.step.toNat ++ toLE 1 (if w.recover then causeRecover else w.cause) ++ toLE 3 0 ++
         toLE 4 (sweepAt u c).restored) u t)) ∧
  (∀ (ctx : Fin 16) (quarter : Fin 4) (kind b : Nat) (bs : List Byte) (rest : List (Nat × Nat × List Byte)) (o : State),
     let c := ctx.val
     let q := quarter.val
     let s := pumpNotes c o
     let d := (ctxAt s c).delta
     let tail := deltaTail s c q
     let place := placeIn (2 ^ (deltaRing s c q).2) (deltaHead s c q).toNat tail.toNat (bs.length / 64)
     queued s c q = (kind, b, bs) :: rest → Tab.get 0 d.gaps q = 0 → b ∉ (sweepAt s c).done →
     let popped (t : State) : Prop := queued t c q = rest ∧
       (kind % 256 = 1 → b ∈ (sweepAt t c).done ∧ (ctxAt t c).flags = (ctxAt s c).flags ||| BitVec.ofNat 6 (kind / 4096))
     ((deltaRing s c q).2 = 0 → ∃ t, exec (.deltaRingWrite ctx quarter) o = .next t ∧ popped t ∧ t.mem = s.mem ∧
       deltaTail t c q = tail) ∧
     ((deltaRing s c q).2 ≠ 0 →
       (∀ p u, place = .put p → Does (engWrite c q ((deltaRing s c q).1 + 64 * p) bs) s () u →
         ∃ t, exec (.deltaRingWrite ctx quarter) o = .next t ∧ popped t ∧ t.mem = u.mem ∧
           deltaTail t c q = tail + BitVec.ofNat 32 (bs.length / 64)) ∧
       (∀ m p u v, place = .pad m → Does (deltaPut c q (2 ^ (deltaRing s c q).2 - m) m (plainRecord s c 5 (dheadOf bs).step m)) s () u →
         placeIn (2 ^ (deltaRing s c q).2) (deltaHead s c q).toNat (deltaTail u c q).toNat (bs.length / 64) = .put p →
         Does (deltaPut c q p (bs.length / 64) bs) u () v → ∃ t, exec (.deltaRingWrite ctx quarter) o = .next t ∧ popped t ∧
         t.mem = v.mem ∧ deltaTail t c q = deltaTail v c q) ∧
       (place = .wait → d.drop = false → ∃ t, exec (.deltaRingWrite ctx quarter) o = .next t ∧
         queued t c q = (kind, b, bs) :: rest ∧ t.mem = s.mem ∧ deltaTail t c q = tail) ∧
       (place = .wait → d.drop = true → kind % 256 = 1 → ∃ t, exec (.deltaRingWrite ctx quarter) o = .next t ∧ popped t ∧
         (ctxAt t c).cntDrop = satAdd 32 (ctxAt s c).cntDrop 1 ∧ Tab.get 0 (ctxAt t c).delta.gaps q = 1 ∧ t.mem = s.mem ∧
         deltaTail t c q = tail) ∧
       (place = .wait → d.drop = true → kind % 256 ≠ 1 → let gone := (queued s c q).filter fun r => r.1 % 256 = 1
         ∃ t, exec (.deltaRingWrite ctx quarter) o = .next t ∧ queued t c q = (queued s c q).filter (fun r => r.1 % 256 ≠ 1) ∧
         (gone ≠ [] → (ctxAt t c).cntDrop = satAdd 32 (ctxAt s c).cntDrop gone.length) ∧ Tab.get 0 (ctxAt t c).delta.gaps q = gone.length ∧
         (∀ r ∈ gone, r.2.1 ∈ (sweepAt t c).done) ∧ t.mem = s.mem ∧ deltaTail t c q = tail)))

/-- Completion of deltaInboxReceive and replicaResync: a record that has come is written into the inbox ring where there is
room, dropped and counted without an inbox; one of this module itself is named by a channel message then. The record
that the oldest message names by DADDR and DLEN is handed over: DATA of a REPLICA block waits for the engine, ROLLBACK
of the STEP rolls back, one of another STEP is counted; the head of the ring moves past what has been handed over. The
owner answers a resynchronisation with a REPLACE record once the open sweep has formed the block's image; until then the
request waits (R354, R361, R368, R369; the message that follows a record and the request that waits are the model's
choice, log entries 25 and 26). -/
def Obligations.ReplicasReceiveRecords : Prop :=
  (∀ (ctx : Fin 16) (s : State), let c := ctx.val
    let d := (ctxAt s c).delta
    let size := 2 ^ d.inbox.2
    (∀ bs ch rest, d.arrived = (bs, ch) :: rest → d.inbox.2 = 0 → noteChan s c = none → ∃ t, exec (.deltaInboxReceive ctx) s = .next t ∧
      (ctxAt t c).delta.arrived = rest ∧ (ctxAt t c).cntInbox = satAdd 32 (ctxAt s c).cntInbox 1 ∧ t.mem = s.mem) ∧
    (∀ bs ch rest p u, d.arrived = (bs, ch) :: rest → d.inbox.2 ≠ 0 → placeIn size d.inHead d.inTail (bs.length / 64) = .put p →
      Does (engWrite c 0 (d.inbox.1 + 64 * p) bs) s () u → noteChan u c = none →
      ∃ t, exec (.deltaInboxReceive ctx) s = .next t ∧ (ctxAt t c).delta.arrived = rest ∧ t.mem = u.mem ∧
        (ctxAt t c).delta.inTail = (d.inTail + bs.length / 64) % 2 ^ 32 ∧ (ctxAt t c).delta.inHead = d.inHead ∧
        (ctxAt t c).delta.notes = d.notes ++ ch.toList.map fun n => (n, noteMsg (d.inbox.1 + 64 * p) bs.length)) ∧
    (∀ n k addr len bs v, d.arrived = [] → noteChan s c = some (n, k, addr, len) →
      let slots := ceilDiv len 64
      let pos := (addr - d.inbox.1) / 64
      let ahead := (pos + size - d.inHead % size) % size
      let first := (d.inHead + ahead) % 2 ^ 32
      d.inbox.2 ≠ 0 → d.inbox.1 ≤ addr → addr % 64 = 0 → pos < size → ahead + slots ≤ (d.inTail + 2 ^ 32 - d.inHead) % 2 ^ 32 →
      (∀ x ∈ d.taken, x.1 ≠ first) → Does (engRead c 0 addr (64 * slots)) s bs s →
      let u := inboxHand c bs (modDelta c (fun x => { x with taken := x.taken ++ [(first, slots)] }) (serviceTaken n k s))
      let r := dheadOf bs
      Does (inboxFree c (size + 1)) u () v →
      let took (P : State → Prop) : Prop := ∃ t, exec (.deltaInboxReceive ctx) s = .next t ∧
        (chanAt t n).head = (chanAt s n).head + BitVec.ofNat 32 k ∧ t.mem = s.mem ∧
        (ctxAt t c).delta.inHead = (ctxAt v c).delta.inHead ∧
        (ahead = 0 → d.taken = [] → d.inHead < 2 ^ 32 → d.inTail = (d.inHead + slots) % 2 ^ 32 → (ctxAt t c).delta.inHead = d.inTail) ∧ P t
      (∀ dsc, r.kind = 1 → (sweepAt s c).step.toNat = r.step → (sweepAt s c).st = .opened → bdAt s c 0 r.block = some dsc →
        bdV dsc = true → bdRole dsc = 1 → r.block < dnNblk s c → took fun t => (ctxAt t c).delta.ready = d.ready ++ [(r.block, bs)]) ∧
      (r.kind = 2 → (sweepAt s c).step.toNat = r.step → ((sweepAt s c).st = .opened ∨ (sweepAt s c).st = .done) →
        took fun t => (sweepAt t c).st = .rollingBack ∧ (sweepAt t c).cause = causeOwner) ∧
      ((sweepAt s c).step.toNat ≠ r.step → took fun t => (ctxAt t c).cntInbox = satAdd 32 (ctxAt s c).cntInbox 1))) ∧
  (∀ (ctx : Fin 16) (block : BitVec 32) (peer : BitVec 14) (d chan : Nat) (img m dg prev : List Byte) (s : State),
    let c := ctx.val
    let b := block.toNat
    let w := sweepAt s c
    let q := quarterOf (bdHoop d)
    let formed := (w.st = .opened ∨ w.st = .done) ∧ (b ∈ w.done ∨ b ∈ (inFlight s c).map (·.1))
    let cur := recordAt s c (dnCur s c) b
    let alt := recordAt s c (!dnCur s c) b
    let all := img ++ if (ctxAt s c).delta.master then m else []
    let r := dataRecord s c b w.step.toNat 1 (bdWfmt d) (bdSp24 d) (ctxAt s c).delta.master all all dg prev
    b < dnNblk s c → Does (bdRead c 0 b) s d s → bdV d = true → bdRole d = 0 →
    (formed → Does (imgRead c q d) s img s → ((ctxAt s c).delta.master = true → Does (engRead c q (alt + 16384) 16384) s m s) →
      Does (engRead c q (alt + 32768) 16) s dg s →
      Does (engRead c q (cur + 32768) 16) s prev s → (ctxAt s c).delta.repl.filter (fun t => t.1 = peer.toNat) = [(peer.toNat, chan)] →
      ∃ t, exec (.replicaResync ctx block peer) s = .next t ∧ t.mem = s.mem ∧ (ctxAt t c).delta.repl = (ctxAt s c).delta.repl ∧
        (peer.toNat ≠ ownId s → (ctxAt t c).delta.notes = (ctxAt s c).delta.notes ++ [(chan, noteMsg (freeNat s 0) r.length)]) ∧
        (peer.toNat = ownId s → (ctxAt t c).delta.arrived = (ctxAt s c).delta.arrived ++ [(r, some chan)])) ∧
    (¬formed → ∃ t, exec (.replicaResync ctx block peer) s = .next t ∧ (b, peer.toNat) ∈ (ctxAt t c).delta.owed ∧ t.mem = s.mem ∧
      t.net = s.net ∧ sweepAt t c = w))

/-- Completion of bobbinPrefetch, bobbinLoad and loadCommit: a load at START may be read ahead; the port takes the loads in
order, one at a time, and stages the resident pricking into the shadow planes of its columns, reserved bits 0; a
pricking that is not resident there ends the load with REGION. A staged load commits once its region is quiet: the
planes are swapped and the columns record the context and motif (R6, R376, R394 to R401, Table 11.10; which tokens land
before the quiet test is the model's choice, log entry 38). -/
def Obligations.LoadsAreStagedAndCommitted : Prop :=
  (∀ (hoop : Fin 8) (entry : Fin 128) (s : State), let h := hoop.val
    let x := entryAt s h entry.val
    enV x = true → (enKind x = 2 ∨ enKind x = 1 ∧ enReconf x = true) → (∀ l ∈ loadsOf s h, l.origin ≠ .entry entry.val) →
    ∃ t, exec (.bobbinPrefetch hoop entry) s = .next t ∧ t.mem = s.mem ∧ t.tiles = s.tiles ∧
      loadsOf t h = loadsOf s h ++ [⟨.entry entry.val, enCtx x, enMotif x, enC0 x, enC1 x, false, true, false⟩]) ∧
  (∀ (hoop : Fin 8) (i : Nat) (l : Load) (s : State), let h := hoop.val
    nextLoad (loadsOf s h) = some i → (loadsOf s h)[i]? = some l → (hoopAt s h).power = .on →
    (∀ m ∈ loadsOf s h, commitsNow m = false ∧ (m.staged = true → columnsMeet l m = false)) →
    (∀ p, residentOf s l.ctx l.motif = some p → p.hoop = h → p.c0 = l.c0 → p.c1 = l.c1 → ueAt s p.at_ p.size = none →
      ∃ t, exec (.bobbinLoad hoop) s = .next t ∧ t.mem = s.mem ∧
        loadsOf t h = updAt (fun m => { m with staged := true, discard := m.discard || p.discard }) i (loadsOf s h) ∧
        (∀ k ∈ regionTiles h l.c0 l.c1, (tileAt t k).cfg = (tileAt s k).cfg ∧ (tileAt t k).prog = (tileAt s k).prog ∧
          (tileAt t k).shCfg = keptRegs (kindOf k) (siteBytes p.cfg ((noCol k * 16 + noRow k) * 1024) 1024) ∧
          (tileAt t k).shProg = siteBytes p.prog ((noCol k * 16 + noRow k) * 131072) 131072) ∧
        ∀ k, k ∉ regionTiles h l.c0 l.c1 → tileAt t k = tileAt s k) ∧
    ((∀ p, residentOf s l.ctx l.motif = some p → p.hoop ≠ h ∨ p.c0 ≠ l.c0 ∨ p.c1 ≠ l.c1) → l.origin = .apply →
      ∃ t, exec (.bobbinLoad hoop) s = .next t ∧ t.mem = s.mem ∧ t.tiles = s.tiles ∧ loadsOf t h = (loadsOf s h).eraseIdx i ∧
        Raised 0x0008 l.ctx (toLE 2 l.motif ++ toLE 1 0x05) s t)) ∧
  (∀ (hoop : Fin 8) (i : Nat) (l : Load) (s u : State), let h := hoop.val
    findIdx commitsNow (loadsOf s h) = some i → (loadsOf s h)[i]? = some l → l.c0 ≤ l.c1 → l.c1 < 32 →
    commitLoad h l (takeLoad h i s) = (.ok, u) →
    (∀ k ∈ regionTiles h l.c0 l.c1, (tileAt u k).cfg = (tileAt s k).shCfg ∧ (tileAt u k).prog = (tileAt s k).shProg ∧
      (tileAt u k).shCfg = (tileAt s k).cfg ∧ (tileAt u k).shProg = (tileAt s k).prog ∧ (tileAt u k).queues = []) ∧
    (∀ col, l.c0 ≤ col → col ≤ l.c1 → Tab.get (0, 0) (hoopAt u h).motifs col = (l.ctx, l.motif)) ∧ u.mem = s.mem ∧
    (∀ k now, l.origin = .loader k now → ∃ t, exec (.loadCommit hoop) s = .next t ∧ t.tiles = u.tiles ∧ t.mem = u.mem ∧
      loadsOf t h = (loadsOf s h).eraseIdx i ∧ t = ctlPart s (loaderDone l.ctx l.motif 0 k u)) ∧
    (∀ e r, l.origin = .entry e → runAt u h e = some r →
      (enKind (entryAt u h e) ≠ 1 → ∃ t, exec (.loadCommit hoop) s = .next t ∧ t.tiles = u.tiles ∧ t.mem = u.mem ∧
        ∀ y ∈ (hoopAt t h).runs, y.entry ≠ e) ∧
      (enKind (entryAt u h e) = 1 → exec (.loadCommit hoop) s = .next (ctlPart s (beginRun h r u)))))

/-- Completion of linkTrain, linkRetrain and linkDelayMeasure: a training that ends well brings the port UP with its peer,
lanes and delay, flit numbers and credits anew, and raises LINK_UP, and LINK_DEGRADED at four lanes; a peer that is not
the neighbour that ROLE and RING imply is LINK_MISWIRED, else a different RING, of the peer or within the dimension,
holds the port DOWN; a failure is LINK_DOWN, with cause LOSS_OF_LOCK where the lock has not come back (the model's
choice, log entry 36). Loss of an UP port raises LINK_RETRAIN and trains again, and what no port has acknowledged waits
ahead of later messages; a reset of the peer takes it DOWN; the delay of an UP port is measured (R460, R463, R465, R470
to R472). -/
def Obligations.LinksTrainAndRetrain : Prop :=
  (∀ (port : Fin 14) (s : State),
    let p := port.val
    let x := linkAt s p
    let kept (t : State) : Prop := t.mem = s.mem ∧ t.ctxs = s.ctxs ∧ t.chans = s.chans ∧ ∀ j, j ≠ p → (linkAt t j).st = (linkAt s j).st
    mayTrain s p = true →
    (∀ e ∈ [(TrainResult.failed, 4), (.noLock, 0)], ∃ t, exec (.linkTrain port e.1) s = .next t ∧ (linkAt t p).st = .down ∧
      Raised 0x0101 0 (toLE 1 p ++ toLE 1 e.2) s t ∧ kept t) ∧
    ∀ (lanes : Nat) (peerMod : BitVec 14) (peerPort ring delay : Nat), let c := Instr.linkTrain port (.trained lanes peerMod peerPort ring delay)
      (lanesOk x lanes = false → ∃ t, exec c s = .next t ∧ (linkAt t p).st = .down ∧ Raised 0x0101 0 (toLE 1 p ++ toLE 1 4) s t ∧ kept t) ∧
      (p < 12 → lanesOk x lanes = true → neighbourOf s (lkRole x) = some peerMod.toNat → peerPort = (p + 6) % 12 →
        (idFits s = false ∨ ring ≠ lkRing x ∨ ringsAgree s p = false) → ∃ t, exec c s = .next t ∧
        (linkAt t p).st = .down ∧ NoEvent s t ∧ kept t) ∧
      (p < 12 → lanesOk x lanes = true → (neighbourOf s (lkRole x) ≠ some peerMod.toNat ∨ peerPort ≠ (p + 6) % 12) →
        ∃ t, exec c s = .next t ∧ (linkAt t p).st = .down ∧ Raised 0x0104 0 (toLE 1 p ++ toLE 1 peerPort ++ toLE 2 peerMod.toNat) s t ∧ kept t) ∧
      (lanesOk x lanes = true → (p < 12 → idFits s = true ∧ ring = lkRing x ∧ ringsAgree s p = true ∧
        neighbourOf s (lkRole x) = some peerMod.toNat ∧ peerPort = (p + 6) % 12) →
        let up := toLE 1 p ++ toLE 1 lanes ++ toLE 1 (fecOf s p) ++ toLE 1 peerPort ++ toLE 2 peerMod.toNat ++ toLE 2 0 ++ toLE 4 delay
        ∃ t, exec c s = .next t ∧ (linkAt t p).st = .up ∧ (linkAt t p).lanes = lanes ∧
        (linkAt t p).peerMod = peerMod.toNat ∧ (linkAt t p).peerPort = peerPort ∧ (linkAt t p).delay = delay ∧
        (linkAt t p).nextRecv = 0 ∧ (linkAt t p).asked = false ∧ (lanes = 8 → Raised 0x0100 0 up s t) ∧
        (lanes = 4 → ∃ u, Raised 0x0100 0 up s u ∧ u.stitch = s.stitch ∧ Raised 0x0103 0 (toLE 1 p ++ toLE 1 4) u t) ∧ kept t)) ∧
  (∀ (port : Fin 14) (delay : Nat) (s : State), let p := port.val
    (linkAt s p).st = .up →
    let old := ((linkAt s p).retry.flatMap (·.msgs)).map fun m => { m with again := true }
    let lost (st : LinkState) (t : State) : Prop := (linkAt t p).st = st ∧ (linkAt t p).retry = [] ∧
      ((∀ j, j ≠ p → (linkAt s j).st ≠ .up) → t.net.waiting = old ++ s.net.waiting) ∧ t.mem = s.mem ∧ t.ctxs = s.ctxs
    (∀ k ∈ [(RetrainCause.lossOfLock, 0), (.replayRate, 1), (.laneFailed, 2)], ∃ t, exec (.linkRetrain port k.1) s = .next t ∧
      lost .training t ∧ (linkAt t p).retrains = satAdd 32 (linkAt s p).retrains 1 ∧ Raised 0x0102 0 (toLE 1 p ++ toLE 1 k.2) s t) ∧
    (∃ t, exec (.linkRetrain port .peerReset) s = .next t ∧ lost .down t ∧ Raised 0x0101 0 (toLE 1 p ++ toLE 1 1) s t) ∧
    (delay < 2 ^ 32 → ∃ t, exec (.linkDelayMeasure port delay) s = .next t ∧ linkAt t p = { linkAt s p with delay := delay } ∧
      (∀ j, j ≠ p → linkAt t j = linkAt s j) ∧ t.mem = s.mem ∧ t.net = s.net))

/-- Completion of hostLinkRetrain: a host-link retrain closes the port's sessions and returns its command rings, event ring
and PUSH_PAGE to their reset values; its transactions stay, without a session, and memory, the push buffer included,
keeps its contents (R503). -/
def Obligations.HostLinkRetrainResetsThePort : Prop :=
  ∀ (hl : Fin 2) (s : State), ∃ t, exec (.hostLinkRetrain hl) s = .next t ∧ (portAt t hl.val).rings = [] ∧
    (portAt t hl.val).ev = EvRing.reset ∧ (portAt t hl.val).pushPage = 0 ∧ (∀ j, j ≠ hl.val → portAt t j = portAt s j) ∧
    (∀ x ∈ t.txns, ∀ n, x.session = some n → x.committing = false → ∀ r, r < 8 → n ≠ sessionOf hl.val r) ∧
    t.txns.map (·.id) = s.txns.map (·.id) ∧ t.mem = s.mem ∧ t.ctxs = s.ctxs ∧ t.chans = s.chans

/-- Completion of flitReceive and flitReplay: corrected symbols are counted, and LINK_CE_RATE is raised above 1,000,000
within a second (how many earlier ones lie within it is free, log entry 38). The next intact flit of an UP port is
accepted: flits up to its acknowledgement leave the retry buffer, its credits return to the sender, and its knot,
channel, copy, delta and LOST messages act here; one for another module goes on towards it. A flit with an uncorrectable
codeword, which alone is counted, a failing CRC or another number is discarded and asked for again; a replay resends the
flits from the one asked for (R28, R275 to R278, R287, R288, R368, R458, R460, R467, R479, R480). That the
acknowledgement names the last flit accepted in order, how credits are counted, and what a message of a peer holds
beyond the tables are the model's choices (log entries 22 and 36). Completion of linkDiscard and lostNotice: a message
whose direction has no UP port is discarded and counted, LINK_LOST is raised, and its context faults with LINK_LOST
unless a fault is latched, as a LOST notice does; a message between other modules faults no context here (R473). -/
def Obligations.FlitsDeliverAndMessagesAreLost : Prop :=
  (∀ (port : Fin 14) (n : Nat) (seq ack : BitVec 16) (o : State),
     let p := port.val
     let s := countSymbols p n o
     let x := linkAt s p
     (linkAt o p).st = .up →
     let flit (intact crc : Bool) (ms : List (Fin 2 × PeerMsg)) (cs : List (Fin 4 × Fin 2 × Nat)) := exec (.flitReceive port intact seq ack ⟨crc, n, ms, cs⟩) o
     (n = 0 → s = o) ∧
     (n ≠ 0 → let before := freeNat o 0 % ((linkAt o p).ceRecent + 1)
       x = { linkAt o p with corrected := satAdd 64 (linkAt o p).corrected n, ceRecent := before + n } ∧ s.net = o.net ∧ s.mem = o.mem ∧
       (before ≤ 1000000 ∧ 1000000 < before + n → Raised 0x0105 0 (toLE 1 p ++ toLE 3 0 ++ toLE 4 (before + n)) o s)) ∧
     (∀ crc ms cs, ∃ t, flit false crc ms cs = .next t ∧ t.mem = s.mem ∧ t.net = s.net ∧
       linkAt t p = { x with recv := satAdd 64 x.recv 1, uncorr := satAdd 32 x.uncorr 1, asked := true }) ∧
     (∀ crc ms cs, crc = false ∨ seq ≠ x.nextRecv → ∃ t, flit true crc ms cs = .next t ∧ t.mem = s.mem ∧ t.net = s.net ∧
       linkAt t p = { x with recv := satAdd 64 x.recv 1, asked := true }) ∧
     (s.net.waiting = [] →
       let kept := x.retry.filter fun e => !decide ((ack - e.seq).toNat < 2 ^ 15)
       let again := (linkAt o p).retry.filter fun e => decide ((e.seq - seq).toNat < 2 ^ 15)
       (again ≠ [] → ∃ t, exec (.flitReplay port seq) o = .next t ∧ linkAt t p =
         { linkAt o p with retry := again, replays := satAdd 32 (linkAt o p).replays 1, fill := 0
                           sent := satAdd 64 (linkAt o p).sent again.length } ∧
         t.mem = o.mem ∧ t.net = o.net) ∧
       (∀ (vc : Fin 4) (sub : Fin 2) (k : Nat), seq = x.nextRecv → ∃ t, flit true true [] [(vc, sub, k)] = .next t ∧
         let lane := 2 * vc.val + sub.val
         linkAt t p = { x with recv := satAdd 64 x.recv 1, nextRecv := x.nextRecv + 1, asked := false, retry := kept, fill := 0
                               used := Tab.set 0 x.used lane (Tab.get 0 x.used lane - k) } ∧ t.mem = s.mem ∧ t.net = s.net) ∧
       ∀ sub : Fin 2,
       let got (m : PeerMsg) (P : State → Prop) : Prop := seq = x.nextRecv → ∃ t, flit true true [(sub, m)] [] = .next t ∧
         (linkAt t p).nextRecv = x.nextRecv + 1 ∧ (linkAt t p).recv = satAdd 64 x.recv 1 ∧ (linkAt t p).asked = false ∧ P t
       let quiet (m : PeerMsg) (P : State → Prop) : Prop := got m fun t => t.mem = s.mem ∧ (linkAt t p).retry = kept ∧
         Tab.get 0 (linkAt t p).owed (2 * vcOf m + sub.val) = Tab.get 0 x.owed (2 * vcOf m + sub.val) + flitsOf m ∧ P t
       (p < 12 →
         (∀ (op : BitVec 3) (v : BitVec 24) (a : BitVec 64) (c : Fin 16) (m : BitVec 14) (site : Site) (b : Fin 16) (pa : Nat),
           (kaddrOf a.toNat).bad = false → op.toNat ≤ 4 → knotAt s c.val (portQuarter p) (kaddrOf a.toNat) (op ≠ 2) = .at_ pa →
           quiet (.knotReq op v a c m site b) fun t => ∃ seen,
             t.net = { s.net with reqs := s.net.reqs ++ [⟨op.toNat, v, a, c.val, pa, m.toNat, some (siteNo site, b.val), seen⟩] }) ∧
         (∀ (site : Site) (b : Fin 16) (v : BitVec 24) (y : Bool), quiet (.knotReply site b v y) fun t =>
           ∃ seen, t.net = { s.net with reps := s.net.reps ++ [⟨replyPort p, siteNo site, b.val, v, y, seen⟩] }) ∧
         (∀ (site : Site) (b : Fin 16), quiet (.knotAck site b) fun t => t.net = s.net ∧
           (b.val < 8 → Tab.get Binding.ready (tileAt t (siteNo site)).kb b.val = .ready) ∧
           (8 ≤ b.val → b.val < 12 → Tab.get 0 (tileAt t (siteNo site)).kchk (b.val - 8) = 2)) ∧
         (∀ (c : Fin 16) (site : Site) (b : Fin 16) (f : FaultCode) (wd : BitVec 64), c ≠ 0 → ctxSt s c.val ≠ .free →
           quiet (.knotFault c site b (BitVec.ofNat 8 f.num) wd) fun t => (b.val < 8 ∨ b.val = 12 → Latches c.val f s t) ∧
             (8 ≤ b.val → b.val < 12 → Tab.get 0 (tileAt t (siteNo site)).kchk (b.val - 8) = 256 + f.num + 65536 * wd.toNat)) ∧
         (∀ (k : BitVec 12) (i : Nat) (vs : List DataTok) (u : State), (chanAt s k.toNat).st = .opened → hasReceiver (chanAt s k.toNat) = true →
           putSlots (portQuarter p) (chanAt s k.toNat) i vs s = (u, none) → got (.ringSlots k i vs) fun t => t.mem = u.mem ∧ t.chans = s.chans) ∧
         (∀ k : BitVec 12, got (.ringAck k) fun t => t.net.far = eraseFirst (fun w => decide (w.chan = some k.toNat)) s.net.far ∧ t.mem = s.mem) ∧
         (∀ (k : BitVec 12) (v : BitVec 32) (y : Bool), quiet (if y then .chanHead k v else .chanTail k v) fun t => t.net =
           if (chanAt s k.toNat).st = .opened then { s.net with ctrls := s.net.ctrls ++ [(y, k.toNat, v)] } else s.net) ∧
         (∀ (c : Fin 16) (a : BitVec 64) (bs : List Byte) (m : BitVec 14) (i : Nat), quiet (.copyUnit c a bs m i) fun t =>
           t.net = { s.net with units := s.net.units ++ [⟨c.val, a, bs, m.toNat, i, portQuarter p⟩] }) ∧
         (∀ (i : Nat) (y : Copy), s.net.copies.find? (fun z => z.id = i) = some y → quiet (.copyAck i 0) fun t =>
           t.net = { s.net with copies := s.net.copies.map fun z => if z.id = i then { z with unacked := z.unacked - 1 } else z }) ∧
         (∀ (c : Fin 16) (bs : List Byte), let src := (dheadOf bs).src
           let out : OutMsg := ⟨0, portQuarter p, src, .recordAck c s.dev.moduleId, subOf s src none, false, none⟩
           got (.deltaRecord c bs) fun t => (ctxAt t c.val).delta.arrived = (ctxAt s c.val).delta.arrived ++ [(bs, none)] ∧
             t.mem = s.mem ∧ (portNow s out = none → t.net = { s.net with waiting := [out] })) ∧
         (∀ (c : Fin 16) (m : BitVec 14), got (.recordAck c m) fun t => t.mem = s.mem ∧ t.net.far =
           eraseFirst (fun w => decide (w.chan = none) && decide (w.ctx = c.val) && decide (w.dest = m.toNat)) s.net.far) ∧
         (∀ c : Fin 16, c ≠ 0 → ctxSt s c.val ≠ .free → quiet (.lost c) fun t => Latches c.val .linkLost s t ∧ t.net = s.net) ∧
         (∀ (src dest : BitVec 14) (c : Fin 16) (vc : Fin 4) (cls : Bool) (bs : List Byte), let m := PeerMsg.transit src dest c vc cls bs
           let out : OutMsg := ⟨0, portQuarter p, dest.toNat, m, subOf s dest.toNat (some (lkRole x, sub.val)), false, none⟩
           (dest.toNat ≠ ownId s → portNow s out = none → quiet m fun t => t.net = { s.net with waiting := [out] }) ∧
           (∀ r, dest.toNat ≠ ownId s → portNow s out = some r → r ≠ p → (linkAt s r).retry.length + flitsOf m ≤ 1024 →
             creditsCover (linkAt s r) vc.val out.sub (flitsOf m) = true → quiet m fun t => t.net = s.net ∧
             (linkAt t r).nextSend = (linkAt s r).nextSend + BitVec.ofNat 16 (flitsOf m) ∧
             (linkAt t r).retry.flatMap (·.msgs) = (linkAt s r).retry.flatMap (·.msgs) ++ [out]))))) ∧
  ((∀ (n : Nat) (m : OutMsg) (s : State), s.net.waiting[n]? = some m → portNow s m = none →
     let p := (ownPort s m).getD 0
     let own : Bool := match m.msg with
       | .lost _ => false
       | .transit _ _ _ _ _ _ => false
       | _ => true
     ∃ t, exec (.linkDiscard n) s = .next t ∧
       (linkAt t p).disc473 = satAdd 32 (linkAt s p).disc473 1 ∧ Raised 0x0106 0 (toLE 1 p ++ toLE 1 0 ++ toLE 2 m.dest ++ toLE 4 1) s t ∧
       t.mem = s.mem ∧ ((∀ src dst c vc cls bs, m.msg ≠ .transit src dst c vc cls bs) → t.net.waiting = s.net.waiting.eraseIdx n) ∧
       (if own then (m.ctx ≠ 0 → ctxSt s m.ctx ≠ .free → Latches m.ctx .linkLost s t) ∧
         (∀ l, (ctxAt s m.ctx).latched = some l → (ctxAt t m.ctx).latched = some l) else t.ctxs = s.ctxs)) ∧
   (∀ (ctx : Fin 16) (s : State), ctx ≠ 0 → ctxSt s ctx.val ≠ .free → ∃ t, exec (.lostNotice ctx) s = .next t ∧
     Latches ctx.val .linkLost s t ∧ (∀ l, (ctxAt s ctx.val).latched = some l → t = s) ∧ t.mem = s.mem ∧ t.net = s.net))

/-- A step takes the command at the front of the queue and carries it out with the rest of the queue; on an empty queue a
ROM recovery check or a batch that waits goes on, and else the block idles (the model's choice, log entry 2). -/
def Obligations.StepTakesTheFrontCommand : Prop :=
  (∀ (c : Instr) (rest : List Instr) (s : State), s.pending = c :: rest → step s = exec c { s with pending := rest }) ∧
  ∀ s : State, s.pending = [] → step s = keepQueue (tick s) s ∧
    (s.dev.romRecovery = false → batchReady s = none → step s = .next s)

/-- No command can stop the block: each answers a next state, in every state. What the spec calls undefined leaves a free
state within its grade (R8, R9, log entry 37). -/
def Obligations.EveryCommandAnswersANextState : Prop :=
  ∀ (i : Instr) (s : State), ∃ t, exec i s = .next t

/-- The state after reset: READY, every software context FREE, every session closed, the journal and the event count empty,
the stitch at count 0 with its factory period, DEV_SIG and the IDCODE those of B0, no transaction, channel or pricking,
and the invariants that every step keeps (R5, R297, R419, R444, Table 14.11; the device's slot choice is log entry 3). -/
def Obligations.ResetIsTheSpecs : Prop :=
  State.reset.pending = [] ∧ State.reset.dev.ready = true ∧ (∀ c, 1 ≤ c → c ≤ 15 → ctxSt State.reset c = .free) ∧
  (∀ p r, (ringAt State.reset p r).opened = false ∧ (ringAt State.reset p r).en = false) ∧
  (∀ p, (portAt State.reset p).ev = EvRing.reset ∧ (portAt State.reset p).pushPage = 0) ∧
  State.reset.logs.seq = 0 ∧ State.reset.logs.eseq = 0 ∧ State.reset.logs.journal = [] ∧ State.reset.stitch.count = 0 ∧
  fld State.reset.stitch.cfg.toNat 0 25 = 900000 ∧ devSig = 0x564B06B0 ∧ State.reset.pins.dr.toNat % 2 ^ 32 = 0x1564B0F3 ∧
  State.reset.txns = [] ∧ State.reset.chans = [] ∧ State.reset.pricks = [] ∧ State.reset.waits = [] ∧
  Memory.wf State.reset.mem = true ∧ Memory.wf State.reset.host = true ∧ SomeKeyLeft State.reset

/-- Commands are served first in, first out: a step removes exactly the front of the queue, and no command changes the rest. -/
def Obligations.TheQueueIsServedInOrder : Prop :=
  ∀ s t : State, step s = .next t → t.pending = s.pending.tail

/-- No step clears a blown fuse: a programmed bit-stream key, the variant, DEBUG_DISABLE and every revocation stay (R498). -/
def Obligations.BlownFusesStayBlown : Prop :=
  ∀ s t : State, step s = .next t → FusesKept s t

/-- No step revokes the last ROM firmware key (R500, Table 14.8). -/
def Obligations.SomeRomKeyStays : Prop :=
  ∀ s t : State, SomeKeyLeft s → step s = .next t → SomeKeyLeft t

/-- Memory, and the host's memory as the model holds it, keep their canonical form: addresses rise strictly and no listed
byte is zero. -/
def Obligations.MemoryStaysCanonical : Prop :=
  (∀ s t : State, Memory.wf s.mem = true → Memory.wf s.host = true → step s = .next t →
    Memory.wf t.mem = true ∧ Memory.wf t.host = true) ∧
  (∀ (s : State) (pa : Nat) (bs : List Byte), Memory.wf s.mem = true → Memory.wf (poke s pa bs).mem = true ∧
    ∀ a, Tab.get 0 (poke s pa bs).mem a = if pa ≤ a ∧ a < pa + bs.length then bs.getD (a - pa) 0 else Tab.get 0 s.mem a)

/-- The frame of whole groups: a command of the ground leaves transactions, waiting commands, flash, fuses, pins and the
queue as they are, and TOKEN_DELIVER, whose undefined cases can reach the whole module (R9, R90, R404), leaves the
host's memory, flash, fuses, pins and the queue; any command but those of pins, TAP, resets and the host window leaves
fuses, BBRAM and pins (R405, R498, R527). -/
def Obligations.CommandsKeepWhatIsNotTheirs : Prop :=
  (∀ (c : Instr) (s t : State), groundCommand c = true → exec c s = .next t → t.txns = s.txns ∧ t.waits = s.waits ∧
    t.flash = s.flash ∧ t.trust = s.trust ∧ t.pins = s.pins ∧ t.pending = s.pending) ∧
  (∀ (site : Site) (port slot : Fin 4) (ctrl sound : Bool) (s t : State), exec (.tokenDeliver site port slot ctrl sound) s = .next t →
    t.flash = s.flash ∧ t.trust = s.trust ∧ t.pins = s.pins ∧ t.host = s.host ∧ t.pending = s.pending) ∧
  (∀ (c : Instr) (s t : State), outerCommand c = false → exec c s = .next t → t.trust = s.trust ∧ t.pins = s.pins)

/-- MEM_MAP completes with BAD_ARG when a page that it would map lies outside the HBM ranges of software contexts, and maps
nothing (R45). -/
def Obligations.PagesOutsideSoftwareHbmAreBadArguments : Prop :=
  ∀ (h : Hdr) (ctx mflags : BitVec 8) (count : BitVec 32) (va pa : BitVec 64) (i : Nat) (s : State), Untagged 2 h s →
    mfUnmap mflags = false → i < count.toNat → let lo := pa.toNat + i * mfSize mflags
    ¬(isSoftHbm lo = true ∧ isSoftHbm (lo + mfSize mflags - 1) = true) →
    Ends (exec (.memMap h ctx mflags count va pa) s) h 0x12 .badArg 0 s fun t => FabricKept s t ∧ ControlKept s t
end

