-- ==== Sys2Proof/Laws/Fields.lean ====
section
/-! SUPPORT. Laws of bit fields. -/

namespace Sys2Proof.Machine

theorem fld_eq (x lo w : Nat) : fld x lo w = x / 2 ^ lo % 2 ^ w := by rw [fld, Nat.shiftRight_eq_div_pow]

theorem fld_testBit (x lo w i : Nat) : (fld x lo w).testBit i = (decide (i < w) && x.testBit (lo + i)) := by
  rw [fld, Nat.testBit_mod_two_pow, Nat.testBit_shiftRight]

theorem setFld_eq (x lo w v : Nat) :
    setFld x lo w v = 2 ^ lo * (2 ^ w * (x / 2 ^ lo / 2 ^ w) + v % 2 ^ w) + x % 2 ^ lo := by
  rw [setFld, fld_eq, Nat.shiftLeft_eq, Nat.shiftLeft_eq]
  have h1 : x = 2 ^ lo * (x / 2 ^ lo) + x % 2 ^ lo := (Nat.div_add_mod x (2 ^ lo)).symm
  have h2 : x / 2 ^ lo = 2 ^ w * (x / 2 ^ lo / 2 ^ w) + x / 2 ^ lo % 2 ^ w := (Nat.div_add_mod _ _).symm
  generalize x / 2 ^ lo / 2 ^ w = c at h2 ⊢
  generalize x / 2 ^ lo % 2 ^ w = b at h2 ⊢
  generalize x % 2 ^ lo = l at h1 ⊢
  rw [h2] at h1
  rw [Nat.mul_add] at h1 ⊢
  rw [Nat.mul_comm b, Nat.mul_comm (v % 2 ^ w)]
  omega

/-- A field that is set reads as its value, and every other bit as before. -/
theorem setFld_testBit (x lo w v i : Nat) :
    (setFld x lo w v).testBit i = if lo ≤ i ∧ i < lo + w then v.testBit (i - lo) else x.testBit i := by
  rw [setFld_eq, Nat.testBit_two_pow_mul_add _ (Nat.mod_lt _ (by positivity))]
  by_cases h1 : i < lo
  · rw [if_pos h1, if_neg (by omega), Nat.testBit_mod_two_pow]; simp [h1]
  · rw [if_neg h1, Nat.testBit_two_pow_mul_add _ (Nat.mod_lt _ (by positivity))]
    by_cases h2 : i - lo < w
    · rw [if_pos h2, if_pos (by omega), Nat.testBit_mod_two_pow]; simp [h2]
    · rw [if_neg h2, if_neg (by omega), Nat.testBit_div_two_pow, Nat.testBit_div_two_pow]
      congr 1; omega

theorem fld_setFld_same {x lo w v a k : Nat} (h : a + k ≤ w) : fld (setFld x lo w v) (lo + a) k = fld v a k := by
  apply Nat.eq_of_testBit_eq; intro i
  rw [fld_testBit, fld_testBit, setFld_testBit]
  by_cases hi : i < k
  · rw [if_pos (by omega)]; simp only [hi, decide_true, Bool.true_and]; congr 1; omega
  · simp [hi]

theorem fld_setFld_other {x lo w v a k : Nat} (h : a + k ≤ lo ∨ lo + w ≤ a) : fld (setFld x lo w v) a k = fld x a k := by
  apply Nat.eq_of_testBit_eq; intro i
  rw [fld_testBit, fld_testBit, setFld_testBit]
  by_cases hi : i < k
  · rw [if_neg (by omega)]
  · simp [hi]

theorem bitAt_setFld_same {x lo w v a : Nat} (h : a < w) : bitAt (setFld x lo w v) (lo + a) = bitAt v a := by
  rw [bitAt, setFld_testBit, if_pos (by omega), bitAt]; congr 1; omega

theorem bitAt_setFld_other {x lo w v a : Nat} (h : a < lo ∨ lo + w ≤ a) : bitAt (setFld x lo w v) a = bitAt x a := by
  rw [bitAt, setFld_testBit, if_neg (by omega), bitAt]

end Sys2Proof.Machine
end

