-- ==== Sys2Proof/Laws/Table.lean ====
section
/-! SUPPORT. Laws of sparse tables and of memories: read after write, and that every write keeps the canonical form. -/

namespace Sys2Proof.Machine

variable {β : Type}

@[simp] theorem Tab.get_nil (d : β) (k : Nat) : Tab.get d [] k = d := rfl

theorem Tab.get_erase (d : β) (m : Tab β) (k j : Nat) :
    Tab.get d (Tab.erase m k) j = if j = k then d else Tab.get d m j := by
  induction m with
  | nil => simp [Tab.erase, Tab.get]
  | cons p m ih =>
    obtain ⟨a, v⟩ := p
    by_cases h : k = a
    · simp only [Tab.erase, h, if_true] at ih ⊢
      rw [ih]; by_cases hj : j = a <;> simp [Tab.get, hj]
    · simp only [Tab.erase, h, if_false, Tab.get, ih]
      by_cases hj : j = a
      · have : ¬ j = k := by omega
        simp [hj, show ¬ a = k by omega]
      · simp [hj]

theorem Tab.get_insert (d : β) (m : Tab β) (k j : Nat) (v : β) (hk : ∀ p ∈ m, p.1 ≠ k) :
    Tab.get d (Tab.insert m k v) j = if j = k then v else Tab.get d m j := by
  induction m with
  | nil => simp [Tab.insert, Tab.get]
  | cons p m ih =>
    obtain ⟨a, w⟩ := p
    have ha : a ≠ k := hk (a, w) (by simp)
    have ih := ih (fun p hp => hk p (by simp [hp]))
    simp only [Tab.insert]
    split
    · simp [Tab.get]
    · simp only [Tab.get, ih]
      by_cases hj : j = a
      · simp [hj, ha]
      · simp [hj]

theorem Tab.erase_free (m : Tab β) (k : Nat) : ∀ p ∈ Tab.erase m k, p.1 ≠ k := by
  induction m with
  | nil => simp [Tab.erase]
  | cons p m ih =>
    obtain ⟨a, w⟩ := p
    by_cases h : k = a
    · simpa [Tab.erase, h] using ih
    · intro p hp
      simp only [Tab.erase, h, if_false, List.mem_cons] at hp
      rcases hp with rfl | hp
      · exact fun e => h e.symm
      · exact ih p hp

/-- A table read after a write: the written value at its key, every other key as before. -/
theorem Tab.get_set [DecidableEq β] (d : β) (m : Tab β) (k j : Nat) (v : β) :
    Tab.get d (Tab.set d m k v) j = if j = k then v else Tab.get d m j := by
  unfold Tab.set
  split
  · next h => rw [Tab.get_erase, h]
  · rw [Tab.get_insert _ _ _ _ _ (Tab.erase_free m k), Tab.get_erase]
    split <;> rfl

@[simp] theorem Tab.get_set_same [DecidableEq β] (d : β) (m : Tab β) (k : Nat) (v : β) :
    Tab.get d (Tab.set d m k v) k = v := by simp [Tab.get_set]

theorem Tab.get_set_other [DecidableEq β] (d : β) (m : Tab β) {k j : Nat} (v : β) (h : j ≠ k) :
    Tab.get d (Tab.set d m k v) j = Tab.get d m j := by simp [Tab.get_set, h]

/-! ## The canonical form -/

theorem Tab.wfFrom_mono [DecidableEq β] {d : β} {m : Tab β} {lo lo' : Nat} (h : lo' ≤ lo)
    (hw : Tab.wfFrom d lo m = true) : Tab.wfFrom d lo' m = true := by
  cases m with
  | nil => rfl
  | cons p m =>
    obtain ⟨a, w⟩ := p
    simp only [Tab.wfFrom, Bool.and_eq_true, decide_eq_true_eq] at *
    exact ⟨⟨by omega, hw.1.2⟩, hw.2⟩

theorem Tab.wfFrom_erase [DecidableEq β] {d : β} {m : Tab β} {lo : Nat} (k : Nat) (hw : Tab.wfFrom d lo m = true) :
    Tab.wfFrom d lo (Tab.erase m k) = true := by
  induction m generalizing lo with
  | nil => rfl
  | cons p m ih =>
    obtain ⟨a, w⟩ := p
    simp only [Tab.wfFrom, Bool.and_eq_true, decide_eq_true_eq] at hw
    simp only [Tab.erase]
    split
    · exact Tab.wfFrom_mono (by omega) (ih hw.2)
    · simp only [Tab.wfFrom, Bool.and_eq_true, decide_eq_true_eq]
      exact ⟨hw.1, ih hw.2⟩

theorem Tab.wfFrom_insert [DecidableEq β] {d : β} {m : Tab β} {lo : Nat} (k : Nat) (v : β) (hv : v ≠ d) (hl : lo ≤ k)
    (hk : ∀ p ∈ m, p.1 ≠ k) (hw : Tab.wfFrom d lo m = true) : Tab.wfFrom d lo (Tab.insert m k v) = true := by
  induction m generalizing lo with
  | nil => simp [Tab.insert, Tab.wfFrom, hv, hl]
  | cons p m ih =>
    obtain ⟨a, w⟩ := p
    have ha : a ≠ k := hk (a, w) (by simp)
    simp only [Tab.wfFrom, Bool.and_eq_true, decide_eq_true_eq] at hw
    simp only [Tab.insert]
    split
    · simp only [Tab.wfFrom, Bool.and_eq_true, decide_eq_true_eq]
      exact ⟨⟨hl, hv⟩, ⟨by omega, hw.1.2⟩, hw.2⟩
    · simp only [Tab.wfFrom, Bool.and_eq_true, decide_eq_true_eq]
      exact ⟨hw.1, ih (by omega) (fun p hp => hk p (by simp [hp])) hw.2⟩

/-- Writing a table keeps its canonical form. -/
theorem Tab.wf_set [DecidableEq β] {d : β} {m : Tab β} (k : Nat) (v : β) (hw : Tab.wf d m = true) :
    Tab.wf d (Tab.set d m k v) = true := by
  unfold Tab.set Tab.wf at *
  split
  · exact Tab.wfFrom_erase k hw
  · next h => exact Tab.wfFrom_insert k v h (Nat.zero_le _) (Tab.erase_free m k) (Tab.wfFrom_erase k hw)

/-! ## Bytes -/

@[simp] theorem bytesAt_length (m : Tab Byte) (a n : Nat) : (bytesAt m a n).length = n := by
  induction n generalizing a with
  | zero => rfl
  | succ n ih => simp [bytesAt, ih]

/-- Writing bytes keeps the canonical form of a memory. -/
theorem wf_putBytes {m : Tab Byte} (a : Nat) (bs : List Byte) (hw : Memory.wf m = true) :
    Memory.wf (putBytes m a bs) = true := by
  induction bs generalizing m a with
  | nil => exact hw
  | cons b bs ih => exact ih (a + 1) (Tab.wf_set a b hw)

/-- A byte outside the bytes written reads as before. -/
theorem get_putBytes_other {m : Tab Byte} {a x : Nat} {bs : List Byte} (h : x < a ∨ a + bs.length ≤ x) :
    Tab.get 0 (putBytes m a bs) x = Tab.get 0 m x := by
  induction bs generalizing m a with
  | nil => rfl
  | cons b bs ih =>
    simp only [List.length_cons] at h
    rw [putBytes, ih (by omega), Tab.get_set_other _ _ _ (by omega)]

/-- A byte that was written reads as it was written. -/
theorem get_putBytes_at {m : Tab Byte} {a i : Nat} {bs : List Byte} (h : i < bs.length) :
    Tab.get 0 (putBytes m a bs) (a + i) = bs[i] := by
  induction bs generalizing m a i with
  | nil => simp at h
  | cons b bs ih =>
    cases i with
    | zero => rw [putBytes, get_putBytes_other (by omega)]; simp
    | succ i =>
      have := ih (m := Tab.set 0 m a b) (a := a + 1) (i := i) (by simpa using h)
      rw [putBytes, show a + (i + 1) = a + 1 + i by omega, this]; simp

/-- Bytes read back after they were written. -/
theorem bytesAt_putBytes (m : Tab Byte) (a : Nat) (bs : List Byte) : bytesAt (putBytes m a bs) a bs.length = bs := by
  have key : ∀ (n a : Nat) (m : Tab Byte) (i : Nat) (h : i < n), (bytesAt m a n)[i]? = some (Tab.get 0 m (a + i)) := by
    intro n
    induction n with
    | zero => intro _ _ i h; omega
    | succ n ih =>
      intro a m i h
      cases i with
      | zero => simp [bytesAt]
      | succ i =>
        simp only [bytesAt, List.getElem?_cons_succ]
        rw [ih (a + 1) m i (by omega), show a + 1 + i = a + (i + 1) by omega]
  apply List.ext_getElem?
  intro i
  by_cases h : i < bs.length
  · rw [key _ _ _ _ h, get_putBytes_at h, List.getElem?_eq_getElem h]
  · rw [List.getElem?_eq_none (by simpa using h), List.getElem?_eq_none (by simpa using h)]

end Sys2Proof.Machine
end

