-- ==== Sys2Proof/Laws/State.lean ====
section
/-! SUPPORT. Laws of the updates of one item: what each leaves as it was, and what it writes. -/

namespace Sys2Proof.Machine

/-! ### setTile -/

@[simp] theorem setTile_pending (s : State) (k : Nat) (t : Tile) : (setTile s k t).pending = s.pending := rfl
@[simp] theorem setTile_mem (s : State) (k : Nat) (t : Tile) : (setTile s k t).mem = s.mem := rfl
@[simp] theorem setTile_bad (s : State) (k : Nat) (t : Tile) : (setTile s k t).bad = s.bad := rfl
@[simp] theorem setTile_host (s : State) (k : Nat) (t : Tile) : (setTile s k t).host = s.host := rfl
@[simp] theorem setTile_vectors (s : State) (k : Nat) (t : Tile) : (setTile s k t).vectors = s.vectors := rfl
@[simp] theorem setTile_ha2 (s : State) (k : Nat) (t : Tile) : (setTile s k t).ha2 = s.ha2 := rfl
@[simp] theorem setTile_zeros (s : State) (k : Nat) (t : Tile) : (setTile s k t).zeros = s.zeros := rfl
@[simp] theorem setTile_zeroBad (s : State) (k : Nat) (t : Tile) : (setTile s k t).zeroBad = s.zeroBad := rfl
@[simp] theorem setTile_hoops (s : State) (k : Nat) (t : Tile) : (setTile s k t).hoops = s.hoops := rfl
@[simp] theorem setTile_ctxs (s : State) (k : Nat) (t : Tile) : (setTile s k t).ctxs = s.ctxs := rfl
@[simp] theorem setTile_chans (s : State) (k : Nat) (t : Tile) : (setTile s k t).chans = s.chans := rfl
@[simp] theorem setTile_pricks (s : State) (k : Nat) (t : Tile) : (setTile s k t).pricks = s.pricks := rfl
@[simp] theorem setTile_txns (s : State) (k : Nat) (t : Tile) : (setTile s k t).txns = s.txns := rfl
@[simp] theorem setTile_ports (s : State) (k : Nat) (t : Tile) : (setTile s k t).ports = s.ports := rfl
@[simp] theorem setTile_waits (s : State) (k : Nat) (t : Tile) : (setTile s k t).waits = s.waits := rfl
@[simp] theorem setTile_logs (s : State) (k : Nat) (t : Tile) : (setTile s k t).logs = s.logs := rfl
@[simp] theorem setTile_stitch (s : State) (k : Nat) (t : Tile) : (setTile s k t).stitch = s.stitch := rfl
@[simp] theorem setTile_dev (s : State) (k : Nat) (t : Tile) : (setTile s k t).dev = s.dev := rfl
@[simp] theorem setTile_links (s : State) (k : Nat) (t : Tile) : (setTile s k t).links = s.links := rfl
@[simp] theorem setTile_net (s : State) (k : Nat) (t : Tile) : (setTile s k t).net = s.net := rfl
@[simp] theorem setTile_flash (s : State) (k : Nat) (t : Tile) : (setTile s k t).flash = s.flash := rfl
@[simp] theorem setTile_trust (s : State) (k : Nat) (t : Tile) : (setTile s k t).trust = s.trust := rfl
@[simp] theorem setTile_pins (s : State) (k : Nat) (t : Tile) : (setTile s k t).pins = s.pins := rfl
@[simp] theorem setTile_maint (s : State) (k : Nat) (t : Tile) : (setTile s k t).maint = s.maint := rfl
@[simp] theorem setTile_tags (s : State) (k : Nat) (t : Tile) : (setTile s k t).tags = s.tags := rfl
@[simp] theorem setTile_free (s : State) (k : Nat) (t : Tile) : (setTile s k t).free = s.free := rfl

/-! ### modTile -/

@[simp] theorem modTile_pending (k : Nat) (f : Tile → Tile) (s : State) : (modTile k f s).pending = s.pending := rfl
@[simp] theorem modTile_mem (k : Nat) (f : Tile → Tile) (s : State) : (modTile k f s).mem = s.mem := rfl
@[simp] theorem modTile_bad (k : Nat) (f : Tile → Tile) (s : State) : (modTile k f s).bad = s.bad := rfl
@[simp] theorem modTile_host (k : Nat) (f : Tile → Tile) (s : State) : (modTile k f s).host = s.host := rfl
@[simp] theorem modTile_vectors (k : Nat) (f : Tile → Tile) (s : State) : (modTile k f s).vectors = s.vectors := rfl
@[simp] theorem modTile_ha2 (k : Nat) (f : Tile → Tile) (s : State) : (modTile k f s).ha2 = s.ha2 := rfl
@[simp] theorem modTile_zeros (k : Nat) (f : Tile → Tile) (s : State) : (modTile k f s).zeros = s.zeros := rfl
@[simp] theorem modTile_zeroBad (k : Nat) (f : Tile → Tile) (s : State) : (modTile k f s).zeroBad = s.zeroBad := rfl
@[simp] theorem modTile_hoops (k : Nat) (f : Tile → Tile) (s : State) : (modTile k f s).hoops = s.hoops := rfl
@[simp] theorem modTile_ctxs (k : Nat) (f : Tile → Tile) (s : State) : (modTile k f s).ctxs = s.ctxs := rfl
@[simp] theorem modTile_chans (k : Nat) (f : Tile → Tile) (s : State) : (modTile k f s).chans = s.chans := rfl
@[simp] theorem modTile_pricks (k : Nat) (f : Tile → Tile) (s : State) : (modTile k f s).pricks = s.pricks := rfl
@[simp] theorem modTile_txns (k : Nat) (f : Tile → Tile) (s : State) : (modTile k f s).txns = s.txns := rfl
@[simp] theorem modTile_ports (k : Nat) (f : Tile → Tile) (s : State) : (modTile k f s).ports = s.ports := rfl
@[simp] theorem modTile_waits (k : Nat) (f : Tile → Tile) (s : State) : (modTile k f s).waits = s.waits := rfl
@[simp] theorem modTile_logs (k : Nat) (f : Tile → Tile) (s : State) : (modTile k f s).logs = s.logs := rfl
@[simp] theorem modTile_stitch (k : Nat) (f : Tile → Tile) (s : State) : (modTile k f s).stitch = s.stitch := rfl
@[simp] theorem modTile_dev (k : Nat) (f : Tile → Tile) (s : State) : (modTile k f s).dev = s.dev := rfl
@[simp] theorem modTile_links (k : Nat) (f : Tile → Tile) (s : State) : (modTile k f s).links = s.links := rfl
@[simp] theorem modTile_net (k : Nat) (f : Tile → Tile) (s : State) : (modTile k f s).net = s.net := rfl
@[simp] theorem modTile_flash (k : Nat) (f : Tile → Tile) (s : State) : (modTile k f s).flash = s.flash := rfl
@[simp] theorem modTile_trust (k : Nat) (f : Tile → Tile) (s : State) : (modTile k f s).trust = s.trust := rfl
@[simp] theorem modTile_pins (k : Nat) (f : Tile → Tile) (s : State) : (modTile k f s).pins = s.pins := rfl
@[simp] theorem modTile_maint (k : Nat) (f : Tile → Tile) (s : State) : (modTile k f s).maint = s.maint := rfl
@[simp] theorem modTile_tags (k : Nat) (f : Tile → Tile) (s : State) : (modTile k f s).tags = s.tags := rfl
@[simp] theorem modTile_free (k : Nat) (f : Tile → Tile) (s : State) : (modTile k f s).free = s.free := rfl

/-! ### modHoop -/

@[simp] theorem modHoop_pending (h : Nat) (f : Hoop → Hoop) (s : State) : (modHoop h f s).pending = s.pending := rfl
@[simp] theorem modHoop_mem (h : Nat) (f : Hoop → Hoop) (s : State) : (modHoop h f s).mem = s.mem := rfl
@[simp] theorem modHoop_bad (h : Nat) (f : Hoop → Hoop) (s : State) : (modHoop h f s).bad = s.bad := rfl
@[simp] theorem modHoop_host (h : Nat) (f : Hoop → Hoop) (s : State) : (modHoop h f s).host = s.host := rfl
@[simp] theorem modHoop_vectors (h : Nat) (f : Hoop → Hoop) (s : State) : (modHoop h f s).vectors = s.vectors := rfl
@[simp] theorem modHoop_ha2 (h : Nat) (f : Hoop → Hoop) (s : State) : (modHoop h f s).ha2 = s.ha2 := rfl
@[simp] theorem modHoop_tiles (h : Nat) (f : Hoop → Hoop) (s : State) : (modHoop h f s).tiles = s.tiles := rfl
@[simp] theorem modHoop_zeros (h : Nat) (f : Hoop → Hoop) (s : State) : (modHoop h f s).zeros = s.zeros := rfl
@[simp] theorem modHoop_zeroBad (h : Nat) (f : Hoop → Hoop) (s : State) : (modHoop h f s).zeroBad = s.zeroBad := rfl
@[simp] theorem modHoop_ctxs (h : Nat) (f : Hoop → Hoop) (s : State) : (modHoop h f s).ctxs = s.ctxs := rfl
@[simp] theorem modHoop_chans (h : Nat) (f : Hoop → Hoop) (s : State) : (modHoop h f s).chans = s.chans := rfl
@[simp] theorem modHoop_pricks (h : Nat) (f : Hoop → Hoop) (s : State) : (modHoop h f s).pricks = s.pricks := rfl
@[simp] theorem modHoop_txns (h : Nat) (f : Hoop → Hoop) (s : State) : (modHoop h f s).txns = s.txns := rfl
@[simp] theorem modHoop_ports (h : Nat) (f : Hoop → Hoop) (s : State) : (modHoop h f s).ports = s.ports := rfl
@[simp] theorem modHoop_waits (h : Nat) (f : Hoop → Hoop) (s : State) : (modHoop h f s).waits = s.waits := rfl
@[simp] theorem modHoop_logs (h : Nat) (f : Hoop → Hoop) (s : State) : (modHoop h f s).logs = s.logs := rfl
@[simp] theorem modHoop_stitch (h : Nat) (f : Hoop → Hoop) (s : State) : (modHoop h f s).stitch = s.stitch := rfl
@[simp] theorem modHoop_dev (h : Nat) (f : Hoop → Hoop) (s : State) : (modHoop h f s).dev = s.dev := rfl
@[simp] theorem modHoop_links (h : Nat) (f : Hoop → Hoop) (s : State) : (modHoop h f s).links = s.links := rfl
@[simp] theorem modHoop_net (h : Nat) (f : Hoop → Hoop) (s : State) : (modHoop h f s).net = s.net := rfl
@[simp] theorem modHoop_flash (h : Nat) (f : Hoop → Hoop) (s : State) : (modHoop h f s).flash = s.flash := rfl
@[simp] theorem modHoop_trust (h : Nat) (f : Hoop → Hoop) (s : State) : (modHoop h f s).trust = s.trust := rfl
@[simp] theorem modHoop_pins (h : Nat) (f : Hoop → Hoop) (s : State) : (modHoop h f s).pins = s.pins := rfl
@[simp] theorem modHoop_maint (h : Nat) (f : Hoop → Hoop) (s : State) : (modHoop h f s).maint = s.maint := rfl
@[simp] theorem modHoop_tags (h : Nat) (f : Hoop → Hoop) (s : State) : (modHoop h f s).tags = s.tags := rfl
@[simp] theorem modHoop_free (h : Nat) (f : Hoop → Hoop) (s : State) : (modHoop h f s).free = s.free := rfl

/-! ### modCtx -/

@[simp] theorem modCtx_pending (c : Nat) (f : Ctx → Ctx) (s : State) : (modCtx c f s).pending = s.pending := rfl
@[simp] theorem modCtx_mem (c : Nat) (f : Ctx → Ctx) (s : State) : (modCtx c f s).mem = s.mem := rfl
@[simp] theorem modCtx_bad (c : Nat) (f : Ctx → Ctx) (s : State) : (modCtx c f s).bad = s.bad := rfl
@[simp] theorem modCtx_host (c : Nat) (f : Ctx → Ctx) (s : State) : (modCtx c f s).host = s.host := rfl
@[simp] theorem modCtx_vectors (c : Nat) (f : Ctx → Ctx) (s : State) : (modCtx c f s).vectors = s.vectors := rfl
@[simp] theorem modCtx_ha2 (c : Nat) (f : Ctx → Ctx) (s : State) : (modCtx c f s).ha2 = s.ha2 := rfl
@[simp] theorem modCtx_tiles (c : Nat) (f : Ctx → Ctx) (s : State) : (modCtx c f s).tiles = s.tiles := rfl
@[simp] theorem modCtx_zeros (c : Nat) (f : Ctx → Ctx) (s : State) : (modCtx c f s).zeros = s.zeros := rfl
@[simp] theorem modCtx_zeroBad (c : Nat) (f : Ctx → Ctx) (s : State) : (modCtx c f s).zeroBad = s.zeroBad := rfl
@[simp] theorem modCtx_hoops (c : Nat) (f : Ctx → Ctx) (s : State) : (modCtx c f s).hoops = s.hoops := rfl
@[simp] theorem modCtx_chans (c : Nat) (f : Ctx → Ctx) (s : State) : (modCtx c f s).chans = s.chans := rfl
@[simp] theorem modCtx_pricks (c : Nat) (f : Ctx → Ctx) (s : State) : (modCtx c f s).pricks = s.pricks := rfl
@[simp] theorem modCtx_txns (c : Nat) (f : Ctx → Ctx) (s : State) : (modCtx c f s).txns = s.txns := rfl
@[simp] theorem modCtx_ports (c : Nat) (f : Ctx → Ctx) (s : State) : (modCtx c f s).ports = s.ports := rfl
@[simp] theorem modCtx_waits (c : Nat) (f : Ctx → Ctx) (s : State) : (modCtx c f s).waits = s.waits := rfl
@[simp] theorem modCtx_logs (c : Nat) (f : Ctx → Ctx) (s : State) : (modCtx c f s).logs = s.logs := rfl
@[simp] theorem modCtx_stitch (c : Nat) (f : Ctx → Ctx) (s : State) : (modCtx c f s).stitch = s.stitch := rfl
@[simp] theorem modCtx_dev (c : Nat) (f : Ctx → Ctx) (s : State) : (modCtx c f s).dev = s.dev := rfl
@[simp] theorem modCtx_links (c : Nat) (f : Ctx → Ctx) (s : State) : (modCtx c f s).links = s.links := rfl
@[simp] theorem modCtx_net (c : Nat) (f : Ctx → Ctx) (s : State) : (modCtx c f s).net = s.net := rfl
@[simp] theorem modCtx_flash (c : Nat) (f : Ctx → Ctx) (s : State) : (modCtx c f s).flash = s.flash := rfl
@[simp] theorem modCtx_trust (c : Nat) (f : Ctx → Ctx) (s : State) : (modCtx c f s).trust = s.trust := rfl
@[simp] theorem modCtx_pins (c : Nat) (f : Ctx → Ctx) (s : State) : (modCtx c f s).pins = s.pins := rfl
@[simp] theorem modCtx_maint (c : Nat) (f : Ctx → Ctx) (s : State) : (modCtx c f s).maint = s.maint := rfl
@[simp] theorem modCtx_tags (c : Nat) (f : Ctx → Ctx) (s : State) : (modCtx c f s).tags = s.tags := rfl
@[simp] theorem modCtx_free (c : Nat) (f : Ctx → Ctx) (s : State) : (modCtx c f s).free = s.free := rfl

/-! ### modChan -/

@[simp] theorem modChan_pending (n : Nat) (f : Chan → Chan) (s : State) : (modChan n f s).pending = s.pending := rfl
@[simp] theorem modChan_mem (n : Nat) (f : Chan → Chan) (s : State) : (modChan n f s).mem = s.mem := rfl
@[simp] theorem modChan_bad (n : Nat) (f : Chan → Chan) (s : State) : (modChan n f s).bad = s.bad := rfl
@[simp] theorem modChan_host (n : Nat) (f : Chan → Chan) (s : State) : (modChan n f s).host = s.host := rfl
@[simp] theorem modChan_vectors (n : Nat) (f : Chan → Chan) (s : State) : (modChan n f s).vectors = s.vectors := rfl
@[simp] theorem modChan_ha2 (n : Nat) (f : Chan → Chan) (s : State) : (modChan n f s).ha2 = s.ha2 := rfl
@[simp] theorem modChan_tiles (n : Nat) (f : Chan → Chan) (s : State) : (modChan n f s).tiles = s.tiles := rfl
@[simp] theorem modChan_zeros (n : Nat) (f : Chan → Chan) (s : State) : (modChan n f s).zeros = s.zeros := rfl
@[simp] theorem modChan_zeroBad (n : Nat) (f : Chan → Chan) (s : State) : (modChan n f s).zeroBad = s.zeroBad := rfl
@[simp] theorem modChan_hoops (n : Nat) (f : Chan → Chan) (s : State) : (modChan n f s).hoops = s.hoops := rfl
@[simp] theorem modChan_ctxs (n : Nat) (f : Chan → Chan) (s : State) : (modChan n f s).ctxs = s.ctxs := rfl
@[simp] theorem modChan_pricks (n : Nat) (f : Chan → Chan) (s : State) : (modChan n f s).pricks = s.pricks := rfl
@[simp] theorem modChan_txns (n : Nat) (f : Chan → Chan) (s : State) : (modChan n f s).txns = s.txns := rfl
@[simp] theorem modChan_ports (n : Nat) (f : Chan → Chan) (s : State) : (modChan n f s).ports = s.ports := rfl
@[simp] theorem modChan_waits (n : Nat) (f : Chan → Chan) (s : State) : (modChan n f s).waits = s.waits := rfl
@[simp] theorem modChan_logs (n : Nat) (f : Chan → Chan) (s : State) : (modChan n f s).logs = s.logs := rfl
@[simp] theorem modChan_stitch (n : Nat) (f : Chan → Chan) (s : State) : (modChan n f s).stitch = s.stitch := rfl
@[simp] theorem modChan_dev (n : Nat) (f : Chan → Chan) (s : State) : (modChan n f s).dev = s.dev := rfl
@[simp] theorem modChan_links (n : Nat) (f : Chan → Chan) (s : State) : (modChan n f s).links = s.links := rfl
@[simp] theorem modChan_net (n : Nat) (f : Chan → Chan) (s : State) : (modChan n f s).net = s.net := rfl
@[simp] theorem modChan_flash (n : Nat) (f : Chan → Chan) (s : State) : (modChan n f s).flash = s.flash := rfl
@[simp] theorem modChan_trust (n : Nat) (f : Chan → Chan) (s : State) : (modChan n f s).trust = s.trust := rfl
@[simp] theorem modChan_pins (n : Nat) (f : Chan → Chan) (s : State) : (modChan n f s).pins = s.pins := rfl
@[simp] theorem modChan_maint (n : Nat) (f : Chan → Chan) (s : State) : (modChan n f s).maint = s.maint := rfl
@[simp] theorem modChan_tags (n : Nat) (f : Chan → Chan) (s : State) : (modChan n f s).tags = s.tags := rfl
@[simp] theorem modChan_free (n : Nat) (f : Chan → Chan) (s : State) : (modChan n f s).free = s.free := rfl

/-! ### modPort -/

@[simp] theorem modPort_pending (p : Nat) (f : Port → Port) (s : State) : (modPort p f s).pending = s.pending := rfl
@[simp] theorem modPort_mem (p : Nat) (f : Port → Port) (s : State) : (modPort p f s).mem = s.mem := rfl
@[simp] theorem modPort_bad (p : Nat) (f : Port → Port) (s : State) : (modPort p f s).bad = s.bad := rfl
@[simp] theorem modPort_host (p : Nat) (f : Port → Port) (s : State) : (modPort p f s).host = s.host := rfl
@[simp] theorem modPort_vectors (p : Nat) (f : Port → Port) (s : State) : (modPort p f s).vectors = s.vectors := rfl
@[simp] theorem modPort_ha2 (p : Nat) (f : Port → Port) (s : State) : (modPort p f s).ha2 = s.ha2 := rfl
@[simp] theorem modPort_tiles (p : Nat) (f : Port → Port) (s : State) : (modPort p f s).tiles = s.tiles := rfl
@[simp] theorem modPort_zeros (p : Nat) (f : Port → Port) (s : State) : (modPort p f s).zeros = s.zeros := rfl
@[simp] theorem modPort_zeroBad (p : Nat) (f : Port → Port) (s : State) : (modPort p f s).zeroBad = s.zeroBad := rfl
@[simp] theorem modPort_hoops (p : Nat) (f : Port → Port) (s : State) : (modPort p f s).hoops = s.hoops := rfl
@[simp] theorem modPort_ctxs (p : Nat) (f : Port → Port) (s : State) : (modPort p f s).ctxs = s.ctxs := rfl
@[simp] theorem modPort_chans (p : Nat) (f : Port → Port) (s : State) : (modPort p f s).chans = s.chans := rfl
@[simp] theorem modPort_pricks (p : Nat) (f : Port → Port) (s : State) : (modPort p f s).pricks = s.pricks := rfl
@[simp] theorem modPort_txns (p : Nat) (f : Port → Port) (s : State) : (modPort p f s).txns = s.txns := rfl
@[simp] theorem modPort_waits (p : Nat) (f : Port → Port) (s : State) : (modPort p f s).waits = s.waits := rfl
@[simp] theorem modPort_logs (p : Nat) (f : Port → Port) (s : State) : (modPort p f s).logs = s.logs := rfl
@[simp] theorem modPort_stitch (p : Nat) (f : Port → Port) (s : State) : (modPort p f s).stitch = s.stitch := rfl
@[simp] theorem modPort_dev (p : Nat) (f : Port → Port) (s : State) : (modPort p f s).dev = s.dev := rfl
@[simp] theorem modPort_links (p : Nat) (f : Port → Port) (s : State) : (modPort p f s).links = s.links := rfl
@[simp] theorem modPort_net (p : Nat) (f : Port → Port) (s : State) : (modPort p f s).net = s.net := rfl
@[simp] theorem modPort_flash (p : Nat) (f : Port → Port) (s : State) : (modPort p f s).flash = s.flash := rfl
@[simp] theorem modPort_trust (p : Nat) (f : Port → Port) (s : State) : (modPort p f s).trust = s.trust := rfl
@[simp] theorem modPort_pins (p : Nat) (f : Port → Port) (s : State) : (modPort p f s).pins = s.pins := rfl
@[simp] theorem modPort_maint (p : Nat) (f : Port → Port) (s : State) : (modPort p f s).maint = s.maint := rfl
@[simp] theorem modPort_tags (p : Nat) (f : Port → Port) (s : State) : (modPort p f s).tags = s.tags := rfl
@[simp] theorem modPort_free (p : Nat) (f : Port → Port) (s : State) : (modPort p f s).free = s.free := rfl

/-! ### modLink -/

@[simp] theorem modLink_pending (p : Nat) (f : Link → Link) (s : State) : (modLink p f s).pending = s.pending := rfl
@[simp] theorem modLink_mem (p : Nat) (f : Link → Link) (s : State) : (modLink p f s).mem = s.mem := rfl
@[simp] theorem modLink_bad (p : Nat) (f : Link → Link) (s : State) : (modLink p f s).bad = s.bad := rfl
@[simp] theorem modLink_host (p : Nat) (f : Link → Link) (s : State) : (modLink p f s).host = s.host := rfl
@[simp] theorem modLink_vectors (p : Nat) (f : Link → Link) (s : State) : (modLink p f s).vectors = s.vectors := rfl
@[simp] theorem modLink_ha2 (p : Nat) (f : Link → Link) (s : State) : (modLink p f s).ha2 = s.ha2 := rfl
@[simp] theorem modLink_tiles (p : Nat) (f : Link → Link) (s : State) : (modLink p f s).tiles = s.tiles := rfl
@[simp] theorem modLink_zeros (p : Nat) (f : Link → Link) (s : State) : (modLink p f s).zeros = s.zeros := rfl
@[simp] theorem modLink_zeroBad (p : Nat) (f : Link → Link) (s : State) : (modLink p f s).zeroBad = s.zeroBad := rfl
@[simp] theorem modLink_hoops (p : Nat) (f : Link → Link) (s : State) : (modLink p f s).hoops = s.hoops := rfl
@[simp] theorem modLink_ctxs (p : Nat) (f : Link → Link) (s : State) : (modLink p f s).ctxs = s.ctxs := rfl
@[simp] theorem modLink_chans (p : Nat) (f : Link → Link) (s : State) : (modLink p f s).chans = s.chans := rfl
@[simp] theorem modLink_pricks (p : Nat) (f : Link → Link) (s : State) : (modLink p f s).pricks = s.pricks := rfl
@[simp] theorem modLink_txns (p : Nat) (f : Link → Link) (s : State) : (modLink p f s).txns = s.txns := rfl
@[simp] theorem modLink_ports (p : Nat) (f : Link → Link) (s : State) : (modLink p f s).ports = s.ports := rfl
@[simp] theorem modLink_waits (p : Nat) (f : Link → Link) (s : State) : (modLink p f s).waits = s.waits := rfl
@[simp] theorem modLink_logs (p : Nat) (f : Link → Link) (s : State) : (modLink p f s).logs = s.logs := rfl
@[simp] theorem modLink_stitch (p : Nat) (f : Link → Link) (s : State) : (modLink p f s).stitch = s.stitch := rfl
@[simp] theorem modLink_dev (p : Nat) (f : Link → Link) (s : State) : (modLink p f s).dev = s.dev := rfl
@[simp] theorem modLink_net (p : Nat) (f : Link → Link) (s : State) : (modLink p f s).net = s.net := rfl
@[simp] theorem modLink_flash (p : Nat) (f : Link → Link) (s : State) : (modLink p f s).flash = s.flash := rfl
@[simp] theorem modLink_trust (p : Nat) (f : Link → Link) (s : State) : (modLink p f s).trust = s.trust := rfl
@[simp] theorem modLink_pins (p : Nat) (f : Link → Link) (s : State) : (modLink p f s).pins = s.pins := rfl
@[simp] theorem modLink_maint (p : Nat) (f : Link → Link) (s : State) : (modLink p f s).maint = s.maint := rfl
@[simp] theorem modLink_tags (p : Nat) (f : Link → Link) (s : State) : (modLink p f s).tags = s.tags := rfl
@[simp] theorem modLink_free (p : Nat) (f : Link → Link) (s : State) : (modLink p f s).free = s.free := rfl

/-! ### modNet -/

@[simp] theorem modNet_pending (f : Net → Net) (s : State) : (modNet f s).pending = s.pending := rfl
@[simp] theorem modNet_mem (f : Net → Net) (s : State) : (modNet f s).mem = s.mem := rfl
@[simp] theorem modNet_bad (f : Net → Net) (s : State) : (modNet f s).bad = s.bad := rfl
@[simp] theorem modNet_host (f : Net → Net) (s : State) : (modNet f s).host = s.host := rfl
@[simp] theorem modNet_vectors (f : Net → Net) (s : State) : (modNet f s).vectors = s.vectors := rfl
@[simp] theorem modNet_ha2 (f : Net → Net) (s : State) : (modNet f s).ha2 = s.ha2 := rfl
@[simp] theorem modNet_tiles (f : Net → Net) (s : State) : (modNet f s).tiles = s.tiles := rfl
@[simp] theorem modNet_zeros (f : Net → Net) (s : State) : (modNet f s).zeros = s.zeros := rfl
@[simp] theorem modNet_zeroBad (f : Net → Net) (s : State) : (modNet f s).zeroBad = s.zeroBad := rfl
@[simp] theorem modNet_hoops (f : Net → Net) (s : State) : (modNet f s).hoops = s.hoops := rfl
@[simp] theorem modNet_ctxs (f : Net → Net) (s : State) : (modNet f s).ctxs = s.ctxs := rfl
@[simp] theorem modNet_chans (f : Net → Net) (s : State) : (modNet f s).chans = s.chans := rfl
@[simp] theorem modNet_pricks (f : Net → Net) (s : State) : (modNet f s).pricks = s.pricks := rfl
@[simp] theorem modNet_txns (f : Net → Net) (s : State) : (modNet f s).txns = s.txns := rfl
@[simp] theorem modNet_ports (f : Net → Net) (s : State) : (modNet f s).ports = s.ports := rfl
@[simp] theorem modNet_waits (f : Net → Net) (s : State) : (modNet f s).waits = s.waits := rfl
@[simp] theorem modNet_logs (f : Net → Net) (s : State) : (modNet f s).logs = s.logs := rfl
@[simp] theorem modNet_stitch (f : Net → Net) (s : State) : (modNet f s).stitch = s.stitch := rfl
@[simp] theorem modNet_dev (f : Net → Net) (s : State) : (modNet f s).dev = s.dev := rfl
@[simp] theorem modNet_links (f : Net → Net) (s : State) : (modNet f s).links = s.links := rfl
@[simp] theorem modNet_flash (f : Net → Net) (s : State) : (modNet f s).flash = s.flash := rfl
@[simp] theorem modNet_trust (f : Net → Net) (s : State) : (modNet f s).trust = s.trust := rfl
@[simp] theorem modNet_pins (f : Net → Net) (s : State) : (modNet f s).pins = s.pins := rfl
@[simp] theorem modNet_maint (f : Net → Net) (s : State) : (modNet f s).maint = s.maint := rfl
@[simp] theorem modNet_tags (f : Net → Net) (s : State) : (modNet f s).tags = s.tags := rfl
@[simp] theorem modNet_free (f : Net → Net) (s : State) : (modNet f s).free = s.free := rfl

/-! ### modDev -/

@[simp] theorem modDev_pending (f : Dev → Dev) (s : State) : (modDev f s).pending = s.pending := rfl
@[simp] theorem modDev_mem (f : Dev → Dev) (s : State) : (modDev f s).mem = s.mem := rfl
@[simp] theorem modDev_bad (f : Dev → Dev) (s : State) : (modDev f s).bad = s.bad := rfl
@[simp] theorem modDev_host (f : Dev → Dev) (s : State) : (modDev f s).host = s.host := rfl
@[simp] theorem modDev_vectors (f : Dev → Dev) (s : State) : (modDev f s).vectors = s.vectors := rfl
@[simp] theorem modDev_ha2 (f : Dev → Dev) (s : State) : (modDev f s).ha2 = s.ha2 := rfl
@[simp] theorem modDev_tiles (f : Dev → Dev) (s : State) : (modDev f s).tiles = s.tiles := rfl
@[simp] theorem modDev_zeros (f : Dev → Dev) (s : State) : (modDev f s).zeros = s.zeros := rfl
@[simp] theorem modDev_zeroBad (f : Dev → Dev) (s : State) : (modDev f s).zeroBad = s.zeroBad := rfl
@[simp] theorem modDev_hoops (f : Dev → Dev) (s : State) : (modDev f s).hoops = s.hoops := rfl
@[simp] theorem modDev_ctxs (f : Dev → Dev) (s : State) : (modDev f s).ctxs = s.ctxs := rfl
@[simp] theorem modDev_chans (f : Dev → Dev) (s : State) : (modDev f s).chans = s.chans := rfl
@[simp] theorem modDev_pricks (f : Dev → Dev) (s : State) : (modDev f s).pricks = s.pricks := rfl
@[simp] theorem modDev_txns (f : Dev → Dev) (s : State) : (modDev f s).txns = s.txns := rfl
@[simp] theorem modDev_ports (f : Dev → Dev) (s : State) : (modDev f s).ports = s.ports := rfl
@[simp] theorem modDev_waits (f : Dev → Dev) (s : State) : (modDev f s).waits = s.waits := rfl
@[simp] theorem modDev_logs (f : Dev → Dev) (s : State) : (modDev f s).logs = s.logs := rfl
@[simp] theorem modDev_stitch (f : Dev → Dev) (s : State) : (modDev f s).stitch = s.stitch := rfl
@[simp] theorem modDev_links (f : Dev → Dev) (s : State) : (modDev f s).links = s.links := rfl
@[simp] theorem modDev_net (f : Dev → Dev) (s : State) : (modDev f s).net = s.net := rfl
@[simp] theorem modDev_flash (f : Dev → Dev) (s : State) : (modDev f s).flash = s.flash := rfl
@[simp] theorem modDev_trust (f : Dev → Dev) (s : State) : (modDev f s).trust = s.trust := rfl
@[simp] theorem modDev_pins (f : Dev → Dev) (s : State) : (modDev f s).pins = s.pins := rfl
@[simp] theorem modDev_maint (f : Dev → Dev) (s : State) : (modDev f s).maint = s.maint := rfl
@[simp] theorem modDev_tags (f : Dev → Dev) (s : State) : (modDev f s).tags = s.tags := rfl
@[simp] theorem modDev_free (f : Dev → Dev) (s : State) : (modDev f s).free = s.free := rfl

/-! ### useFree -/

@[simp] theorem useFree_pending (n : Nat) (s : State) : (useFree n s).pending = s.pending := rfl
@[simp] theorem useFree_mem (n : Nat) (s : State) : (useFree n s).mem = s.mem := rfl
@[simp] theorem useFree_bad (n : Nat) (s : State) : (useFree n s).bad = s.bad := rfl
@[simp] theorem useFree_host (n : Nat) (s : State) : (useFree n s).host = s.host := rfl
@[simp] theorem useFree_vectors (n : Nat) (s : State) : (useFree n s).vectors = s.vectors := rfl
@[simp] theorem useFree_ha2 (n : Nat) (s : State) : (useFree n s).ha2 = s.ha2 := rfl
@[simp] theorem useFree_tiles (n : Nat) (s : State) : (useFree n s).tiles = s.tiles := rfl
@[simp] theorem useFree_zeros (n : Nat) (s : State) : (useFree n s).zeros = s.zeros := rfl
@[simp] theorem useFree_zeroBad (n : Nat) (s : State) : (useFree n s).zeroBad = s.zeroBad := rfl
@[simp] theorem useFree_hoops (n : Nat) (s : State) : (useFree n s).hoops = s.hoops := rfl
@[simp] theorem useFree_ctxs (n : Nat) (s : State) : (useFree n s).ctxs = s.ctxs := rfl
@[simp] theorem useFree_chans (n : Nat) (s : State) : (useFree n s).chans = s.chans := rfl
@[simp] theorem useFree_pricks (n : Nat) (s : State) : (useFree n s).pricks = s.pricks := rfl
@[simp] theorem useFree_txns (n : Nat) (s : State) : (useFree n s).txns = s.txns := rfl
@[simp] theorem useFree_ports (n : Nat) (s : State) : (useFree n s).ports = s.ports := rfl
@[simp] theorem useFree_waits (n : Nat) (s : State) : (useFree n s).waits = s.waits := rfl
@[simp] theorem useFree_logs (n : Nat) (s : State) : (useFree n s).logs = s.logs := rfl
@[simp] theorem useFree_stitch (n : Nat) (s : State) : (useFree n s).stitch = s.stitch := rfl
@[simp] theorem useFree_dev (n : Nat) (s : State) : (useFree n s).dev = s.dev := rfl
@[simp] theorem useFree_links (n : Nat) (s : State) : (useFree n s).links = s.links := rfl
@[simp] theorem useFree_net (n : Nat) (s : State) : (useFree n s).net = s.net := rfl
@[simp] theorem useFree_flash (n : Nat) (s : State) : (useFree n s).flash = s.flash := rfl
@[simp] theorem useFree_trust (n : Nat) (s : State) : (useFree n s).trust = s.trust := rfl
@[simp] theorem useFree_pins (n : Nat) (s : State) : (useFree n s).pins = s.pins := rfl
@[simp] theorem useFree_maint (n : Nat) (s : State) : (useFree n s).maint = s.maint := rfl
@[simp] theorem useFree_tags (n : Nat) (s : State) : (useFree n s).tags = s.tags := rfl

/-! ### hostWrite -/

@[simp] theorem hostWrite_pending (s : State) (p a : Nat) (bs : List Byte) : (hostWrite s p a bs).pending = s.pending := rfl
@[simp] theorem hostWrite_mem (s : State) (p a : Nat) (bs : List Byte) : (hostWrite s p a bs).mem = s.mem := rfl
@[simp] theorem hostWrite_bad (s : State) (p a : Nat) (bs : List Byte) : (hostWrite s p a bs).bad = s.bad := rfl
@[simp] theorem hostWrite_vectors (s : State) (p a : Nat) (bs : List Byte) : (hostWrite s p a bs).vectors = s.vectors := rfl
@[simp] theorem hostWrite_ha2 (s : State) (p a : Nat) (bs : List Byte) : (hostWrite s p a bs).ha2 = s.ha2 := rfl
@[simp] theorem hostWrite_tiles (s : State) (p a : Nat) (bs : List Byte) : (hostWrite s p a bs).tiles = s.tiles := rfl
@[simp] theorem hostWrite_zeros (s : State) (p a : Nat) (bs : List Byte) : (hostWrite s p a bs).zeros = s.zeros := rfl
@[simp] theorem hostWrite_zeroBad (s : State) (p a : Nat) (bs : List Byte) : (hostWrite s p a bs).zeroBad = s.zeroBad := rfl
@[simp] theorem hostWrite_hoops (s : State) (p a : Nat) (bs : List Byte) : (hostWrite s p a bs).hoops = s.hoops := rfl
@[simp] theorem hostWrite_ctxs (s : State) (p a : Nat) (bs : List Byte) : (hostWrite s p a bs).ctxs = s.ctxs := rfl
@[simp] theorem hostWrite_chans (s : State) (p a : Nat) (bs : List Byte) : (hostWrite s p a bs).chans = s.chans := rfl
@[simp] theorem hostWrite_pricks (s : State) (p a : Nat) (bs : List Byte) : (hostWrite s p a bs).pricks = s.pricks := rfl
@[simp] theorem hostWrite_txns (s : State) (p a : Nat) (bs : List Byte) : (hostWrite s p a bs).txns = s.txns := rfl
@[simp] theorem hostWrite_ports (s : State) (p a : Nat) (bs : List Byte) : (hostWrite s p a bs).ports = s.ports := rfl
@[simp] theorem hostWrite_waits (s : State) (p a : Nat) (bs : List Byte) : (hostWrite s p a bs).waits = s.waits := rfl
@[simp] theorem hostWrite_logs (s : State) (p a : Nat) (bs : List Byte) : (hostWrite s p a bs).logs = s.logs := rfl
@[simp] theorem hostWrite_stitch (s : State) (p a : Nat) (bs : List Byte) : (hostWrite s p a bs).stitch = s.stitch := rfl
@[simp] theorem hostWrite_dev (s : State) (p a : Nat) (bs : List Byte) : (hostWrite s p a bs).dev = s.dev := rfl
@[simp] theorem hostWrite_links (s : State) (p a : Nat) (bs : List Byte) : (hostWrite s p a bs).links = s.links := rfl
@[simp] theorem hostWrite_net (s : State) (p a : Nat) (bs : List Byte) : (hostWrite s p a bs).net = s.net := rfl
@[simp] theorem hostWrite_flash (s : State) (p a : Nat) (bs : List Byte) : (hostWrite s p a bs).flash = s.flash := rfl
@[simp] theorem hostWrite_trust (s : State) (p a : Nat) (bs : List Byte) : (hostWrite s p a bs).trust = s.trust := rfl
@[simp] theorem hostWrite_pins (s : State) (p a : Nat) (bs : List Byte) : (hostWrite s p a bs).pins = s.pins := rfl
@[simp] theorem hostWrite_maint (s : State) (p a : Nat) (bs : List Byte) : (hostWrite s p a bs).maint = s.maint := rfl
@[simp] theorem hostWrite_tags (s : State) (p a : Nat) (bs : List Byte) : (hostWrite s p a bs).tags = s.tags := rfl
@[simp] theorem hostWrite_free (s : State) (p a : Nat) (bs : List Byte) : (hostWrite s p a bs).free = s.free := rfl

/-! ### poke -/

@[simp] theorem poke_pending (s : State) (a : Nat) (bs : List Byte) : (poke s a bs).pending = s.pending := rfl
@[simp] theorem poke_host (s : State) (a : Nat) (bs : List Byte) : (poke s a bs).host = s.host := rfl
@[simp] theorem poke_vectors (s : State) (a : Nat) (bs : List Byte) : (poke s a bs).vectors = s.vectors := rfl
@[simp] theorem poke_ha2 (s : State) (a : Nat) (bs : List Byte) : (poke s a bs).ha2 = s.ha2 := rfl
@[simp] theorem poke_tiles (s : State) (a : Nat) (bs : List Byte) : (poke s a bs).tiles = s.tiles := rfl
@[simp] theorem poke_zeros (s : State) (a : Nat) (bs : List Byte) : (poke s a bs).zeros = s.zeros := rfl
@[simp] theorem poke_zeroBad (s : State) (a : Nat) (bs : List Byte) : (poke s a bs).zeroBad = s.zeroBad := rfl
@[simp] theorem poke_hoops (s : State) (a : Nat) (bs : List Byte) : (poke s a bs).hoops = s.hoops := rfl
@[simp] theorem poke_ctxs (s : State) (a : Nat) (bs : List Byte) : (poke s a bs).ctxs = s.ctxs := rfl
@[simp] theorem poke_chans (s : State) (a : Nat) (bs : List Byte) : (poke s a bs).chans = s.chans := rfl
@[simp] theorem poke_pricks (s : State) (a : Nat) (bs : List Byte) : (poke s a bs).pricks = s.pricks := rfl
@[simp] theorem poke_txns (s : State) (a : Nat) (bs : List Byte) : (poke s a bs).txns = s.txns := rfl
@[simp] theorem poke_ports (s : State) (a : Nat) (bs : List Byte) : (poke s a bs).ports = s.ports := rfl
@[simp] theorem poke_waits (s : State) (a : Nat) (bs : List Byte) : (poke s a bs).waits = s.waits := rfl
@[simp] theorem poke_logs (s : State) (a : Nat) (bs : List Byte) : (poke s a bs).logs = s.logs := rfl
@[simp] theorem poke_stitch (s : State) (a : Nat) (bs : List Byte) : (poke s a bs).stitch = s.stitch := rfl
@[simp] theorem poke_dev (s : State) (a : Nat) (bs : List Byte) : (poke s a bs).dev = s.dev := rfl
@[simp] theorem poke_links (s : State) (a : Nat) (bs : List Byte) : (poke s a bs).links = s.links := rfl
@[simp] theorem poke_net (s : State) (a : Nat) (bs : List Byte) : (poke s a bs).net = s.net := rfl
@[simp] theorem poke_flash (s : State) (a : Nat) (bs : List Byte) : (poke s a bs).flash = s.flash := rfl
@[simp] theorem poke_trust (s : State) (a : Nat) (bs : List Byte) : (poke s a bs).trust = s.trust := rfl
@[simp] theorem poke_pins (s : State) (a : Nat) (bs : List Byte) : (poke s a bs).pins = s.pins := rfl
@[simp] theorem poke_maint (s : State) (a : Nat) (bs : List Byte) : (poke s a bs).maint = s.maint := rfl
@[simp] theorem poke_tags (s : State) (a : Nat) (bs : List Byte) : (poke s a bs).tags = s.tags := rfl
@[simp] theorem poke_free (s : State) (a : Nat) (bs : List Byte) : (poke s a bs).free = s.free := rfl

/-! ### groundPart -/

@[simp] theorem groundPart_pending (s s' : State) : (groundPart s s').pending = s.pending := rfl
@[simp] theorem groundPart_mem (s s' : State) : (groundPart s s').mem = s'.mem := rfl
@[simp] theorem groundPart_bad (s s' : State) : (groundPart s s').bad = s'.bad := rfl
@[simp] theorem groundPart_host (s s' : State) : (groundPart s s').host = s'.host := rfl
@[simp] theorem groundPart_vectors (s s' : State) : (groundPart s s').vectors = s'.vectors := rfl
@[simp] theorem groundPart_ha2 (s s' : State) : (groundPart s s').ha2 = s'.ha2 := rfl
@[simp] theorem groundPart_tiles (s s' : State) : (groundPart s s').tiles = s'.tiles := rfl
@[simp] theorem groundPart_zeros (s s' : State) : (groundPart s s').zeros = s'.zeros := rfl
@[simp] theorem groundPart_zeroBad (s s' : State) : (groundPart s s').zeroBad = s'.zeroBad := rfl
@[simp] theorem groundPart_hoops (s s' : State) : (groundPart s s').hoops = s'.hoops := rfl
@[simp] theorem groundPart_ctxs (s s' : State) : (groundPart s s').ctxs = s'.ctxs := rfl
@[simp] theorem groundPart_chans (s s' : State) : (groundPart s s').chans = s'.chans := rfl
@[simp] theorem groundPart_pricks (s s' : State) : (groundPart s s').pricks = s'.pricks := rfl
@[simp] theorem groundPart_txns (s s' : State) : (groundPart s s').txns = s.txns := rfl
@[simp] theorem groundPart_ports (s s' : State) : (groundPart s s').ports = s'.ports := rfl
@[simp] theorem groundPart_waits (s s' : State) : (groundPart s s').waits = s.waits := rfl
@[simp] theorem groundPart_logs (s s' : State) : (groundPart s s').logs = s'.logs := rfl
@[simp] theorem groundPart_stitch (s s' : State) : (groundPart s s').stitch = s'.stitch := rfl
@[simp] theorem groundPart_dev (s s' : State) : (groundPart s s').dev = s'.dev := rfl
@[simp] theorem groundPart_links (s s' : State) : (groundPart s s').links = s'.links := rfl
@[simp] theorem groundPart_net (s s' : State) : (groundPart s s').net = s'.net := rfl
@[simp] theorem groundPart_flash (s s' : State) : (groundPart s s').flash = s.flash := rfl
@[simp] theorem groundPart_trust (s s' : State) : (groundPart s s').trust = s.trust := rfl
@[simp] theorem groundPart_pins (s s' : State) : (groundPart s s').pins = s.pins := rfl
@[simp] theorem groundPart_maint (s s' : State) : (groundPart s s').maint = s'.maint := rfl
@[simp] theorem groundPart_tags (s s' : State) : (groundPart s s').tags = s'.tags := rfl
@[simp] theorem groundPart_free (s s' : State) : (groundPart s s').free = s'.free := rfl

/-! ### ctlPart -/

@[simp] theorem ctlPart_pending (s s' : State) : (ctlPart s s').pending = s.pending := rfl
@[simp] theorem ctlPart_mem (s s' : State) : (ctlPart s s').mem = s'.mem := rfl
@[simp] theorem ctlPart_bad (s s' : State) : (ctlPart s s').bad = s'.bad := rfl
@[simp] theorem ctlPart_host (s s' : State) : (ctlPart s s').host = s'.host := rfl
@[simp] theorem ctlPart_vectors (s s' : State) : (ctlPart s s').vectors = s'.vectors := rfl
@[simp] theorem ctlPart_ha2 (s s' : State) : (ctlPart s s').ha2 = s'.ha2 := rfl
@[simp] theorem ctlPart_tiles (s s' : State) : (ctlPart s s').tiles = s'.tiles := rfl
@[simp] theorem ctlPart_zeros (s s' : State) : (ctlPart s s').zeros = s'.zeros := rfl
@[simp] theorem ctlPart_zeroBad (s s' : State) : (ctlPart s s').zeroBad = s'.zeroBad := rfl
@[simp] theorem ctlPart_hoops (s s' : State) : (ctlPart s s').hoops = s'.hoops := rfl
@[simp] theorem ctlPart_ctxs (s s' : State) : (ctlPart s s').ctxs = s'.ctxs := rfl
@[simp] theorem ctlPart_chans (s s' : State) : (ctlPart s s').chans = s'.chans := rfl
@[simp] theorem ctlPart_pricks (s s' : State) : (ctlPart s s').pricks = s'.pricks := rfl
@[simp] theorem ctlPart_txns (s s' : State) : (ctlPart s s').txns = s'.txns := rfl
@[simp] theorem ctlPart_ports (s s' : State) : (ctlPart s s').ports = s'.ports := rfl
@[simp] theorem ctlPart_waits (s s' : State) : (ctlPart s s').waits = s'.waits := rfl
@[simp] theorem ctlPart_logs (s s' : State) : (ctlPart s s').logs = s'.logs := rfl
@[simp] theorem ctlPart_stitch (s s' : State) : (ctlPart s s').stitch = s'.stitch := rfl
@[simp] theorem ctlPart_dev (s s' : State) : (ctlPart s s').dev = s'.dev := rfl
@[simp] theorem ctlPart_links (s s' : State) : (ctlPart s s').links = s'.links := rfl
@[simp] theorem ctlPart_net (s s' : State) : (ctlPart s s').net = s'.net := rfl
@[simp] theorem ctlPart_flash (s s' : State) : (ctlPart s s').flash = s'.flash := rfl
@[simp] theorem ctlPart_trust (s s' : State) : (ctlPart s s').trust = s.trust := rfl
@[simp] theorem ctlPart_pins (s s' : State) : (ctlPart s s').pins = s.pins := rfl
@[simp] theorem ctlPart_maint (s s' : State) : (ctlPart s s').maint = s'.maint := rfl
@[simp] theorem ctlPart_tags (s s' : State) : (ctlPart s s').tags = s'.tags := rfl
@[simp] theorem ctlPart_free (s s' : State) : (ctlPart s s').free = s'.free := rfl

/-! ### journalPut -/

@[simp] theorem journalPut_pending (e : JEntry) (s : State) : (journalPut e s).pending = s.pending := rfl
@[simp] theorem journalPut_mem (e : JEntry) (s : State) : (journalPut e s).mem = s.mem := rfl
@[simp] theorem journalPut_bad (e : JEntry) (s : State) : (journalPut e s).bad = s.bad := rfl
@[simp] theorem journalPut_host (e : JEntry) (s : State) : (journalPut e s).host = s.host := rfl
@[simp] theorem journalPut_vectors (e : JEntry) (s : State) : (journalPut e s).vectors = s.vectors := rfl
@[simp] theorem journalPut_ha2 (e : JEntry) (s : State) : (journalPut e s).ha2 = s.ha2 := rfl
@[simp] theorem journalPut_tiles (e : JEntry) (s : State) : (journalPut e s).tiles = s.tiles := rfl
@[simp] theorem journalPut_zeros (e : JEntry) (s : State) : (journalPut e s).zeros = s.zeros := rfl
@[simp] theorem journalPut_zeroBad (e : JEntry) (s : State) : (journalPut e s).zeroBad = s.zeroBad := rfl
@[simp] theorem journalPut_hoops (e : JEntry) (s : State) : (journalPut e s).hoops = s.hoops := rfl
@[simp] theorem journalPut_ctxs (e : JEntry) (s : State) : (journalPut e s).ctxs = s.ctxs := rfl
@[simp] theorem journalPut_chans (e : JEntry) (s : State) : (journalPut e s).chans = s.chans := rfl
@[simp] theorem journalPut_pricks (e : JEntry) (s : State) : (journalPut e s).pricks = s.pricks := rfl
@[simp] theorem journalPut_txns (e : JEntry) (s : State) : (journalPut e s).txns = s.txns := rfl
@[simp] theorem journalPut_ports (e : JEntry) (s : State) : (journalPut e s).ports = s.ports := rfl
@[simp] theorem journalPut_waits (e : JEntry) (s : State) : (journalPut e s).waits = s.waits := rfl
@[simp] theorem journalPut_stitch (e : JEntry) (s : State) : (journalPut e s).stitch = s.stitch := rfl
@[simp] theorem journalPut_links (e : JEntry) (s : State) : (journalPut e s).links = s.links := rfl
@[simp] theorem journalPut_net (e : JEntry) (s : State) : (journalPut e s).net = s.net := rfl
@[simp] theorem journalPut_flash (e : JEntry) (s : State) : (journalPut e s).flash = s.flash := rfl
@[simp] theorem journalPut_trust (e : JEntry) (s : State) : (journalPut e s).trust = s.trust := rfl
@[simp] theorem journalPut_pins (e : JEntry) (s : State) : (journalPut e s).pins = s.pins := rfl
@[simp] theorem journalPut_maint (e : JEntry) (s : State) : (journalPut e s).maint = s.maint := rfl
@[simp] theorem journalPut_tags (e : JEntry) (s : State) : (journalPut e s).tags = s.tags := rfl
@[simp] theorem journalPut_free (e : JEntry) (s : State) : (journalPut e s).free = s.free := rfl

/-! ### journalFinal -/

@[simp] theorem journalFinal_pending (n : Nat) (st : Status) (r : Nat) (x : Option (BitVec 16)) (s : State) : (journalFinal n st r x s).pending = s.pending := rfl
@[simp] theorem journalFinal_mem (n : Nat) (st : Status) (r : Nat) (x : Option (BitVec 16)) (s : State) : (journalFinal n st r x s).mem = s.mem := rfl
@[simp] theorem journalFinal_bad (n : Nat) (st : Status) (r : Nat) (x : Option (BitVec 16)) (s : State) : (journalFinal n st r x s).bad = s.bad := rfl
@[simp] theorem journalFinal_host (n : Nat) (st : Status) (r : Nat) (x : Option (BitVec 16)) (s : State) : (journalFinal n st r x s).host = s.host := rfl
@[simp] theorem journalFinal_vectors (n : Nat) (st : Status) (r : Nat) (x : Option (BitVec 16)) (s : State) : (journalFinal n st r x s).vectors = s.vectors := rfl
@[simp] theorem journalFinal_ha2 (n : Nat) (st : Status) (r : Nat) (x : Option (BitVec 16)) (s : State) : (journalFinal n st r x s).ha2 = s.ha2 := rfl
@[simp] theorem journalFinal_tiles (n : Nat) (st : Status) (r : Nat) (x : Option (BitVec 16)) (s : State) : (journalFinal n st r x s).tiles = s.tiles := rfl
@[simp] theorem journalFinal_zeros (n : Nat) (st : Status) (r : Nat) (x : Option (BitVec 16)) (s : State) : (journalFinal n st r x s).zeros = s.zeros := rfl
@[simp] theorem journalFinal_zeroBad (n : Nat) (st : Status) (r : Nat) (x : Option (BitVec 16)) (s : State) : (journalFinal n st r x s).zeroBad = s.zeroBad := rfl
@[simp] theorem journalFinal_hoops (n : Nat) (st : Status) (r : Nat) (x : Option (BitVec 16)) (s : State) : (journalFinal n st r x s).hoops = s.hoops := rfl
@[simp] theorem journalFinal_ctxs (n : Nat) (st : Status) (r : Nat) (x : Option (BitVec 16)) (s : State) : (journalFinal n st r x s).ctxs = s.ctxs := rfl
@[simp] theorem journalFinal_chans (n : Nat) (st : Status) (r : Nat) (x : Option (BitVec 16)) (s : State) : (journalFinal n st r x s).chans = s.chans := rfl
@[simp] theorem journalFinal_pricks (n : Nat) (st : Status) (r : Nat) (x : Option (BitVec 16)) (s : State) : (journalFinal n st r x s).pricks = s.pricks := rfl
@[simp] theorem journalFinal_txns (n : Nat) (st : Status) (r : Nat) (x : Option (BitVec 16)) (s : State) : (journalFinal n st r x s).txns = s.txns := rfl
@[simp] theorem journalFinal_ports (n : Nat) (st : Status) (r : Nat) (x : Option (BitVec 16)) (s : State) : (journalFinal n st r x s).ports = s.ports := rfl
@[simp] theorem journalFinal_waits (n : Nat) (st : Status) (r : Nat) (x : Option (BitVec 16)) (s : State) : (journalFinal n st r x s).waits = s.waits := rfl
@[simp] theorem journalFinal_stitch (n : Nat) (st : Status) (r : Nat) (x : Option (BitVec 16)) (s : State) : (journalFinal n st r x s).stitch = s.stitch := rfl
@[simp] theorem journalFinal_dev (n : Nat) (st : Status) (r : Nat) (x : Option (BitVec 16)) (s : State) : (journalFinal n st r x s).dev = s.dev := rfl
@[simp] theorem journalFinal_links (n : Nat) (st : Status) (r : Nat) (x : Option (BitVec 16)) (s : State) : (journalFinal n st r x s).links = s.links := rfl
@[simp] theorem journalFinal_net (n : Nat) (st : Status) (r : Nat) (x : Option (BitVec 16)) (s : State) : (journalFinal n st r x s).net = s.net := rfl
@[simp] theorem journalFinal_flash (n : Nat) (st : Status) (r : Nat) (x : Option (BitVec 16)) (s : State) : (journalFinal n st r x s).flash = s.flash := rfl
@[simp] theorem journalFinal_trust (n : Nat) (st : Status) (r : Nat) (x : Option (BitVec 16)) (s : State) : (journalFinal n st r x s).trust = s.trust := rfl
@[simp] theorem journalFinal_pins (n : Nat) (st : Status) (r : Nat) (x : Option (BitVec 16)) (s : State) : (journalFinal n st r x s).pins = s.pins := rfl
@[simp] theorem journalFinal_maint (n : Nat) (st : Status) (r : Nat) (x : Option (BitVec 16)) (s : State) : (journalFinal n st r x s).maint = s.maint := rfl
@[simp] theorem journalFinal_tags (n : Nat) (st : Status) (r : Nat) (x : Option (BitVec 16)) (s : State) : (journalFinal n st r x s).tags = s.tags := rfl
@[simp] theorem journalFinal_free (n : Nat) (st : Status) (r : Nat) (x : Option (BitVec 16)) (s : State) : (journalFinal n st r x s).free = s.free := rfl

/-! ### setRing -/

@[simp] theorem setRing_pending (p r : Nat) (x : Ring) (s : State) : (setRing p r x s).pending = s.pending := rfl
@[simp] theorem setRing_mem (p r : Nat) (x : Ring) (s : State) : (setRing p r x s).mem = s.mem := rfl
@[simp] theorem setRing_bad (p r : Nat) (x : Ring) (s : State) : (setRing p r x s).bad = s.bad := rfl
@[simp] theorem setRing_host (p r : Nat) (x : Ring) (s : State) : (setRing p r x s).host = s.host := rfl
@[simp] theorem setRing_vectors (p r : Nat) (x : Ring) (s : State) : (setRing p r x s).vectors = s.vectors := rfl
@[simp] theorem setRing_ha2 (p r : Nat) (x : Ring) (s : State) : (setRing p r x s).ha2 = s.ha2 := rfl
@[simp] theorem setRing_tiles (p r : Nat) (x : Ring) (s : State) : (setRing p r x s).tiles = s.tiles := rfl
@[simp] theorem setRing_zeros (p r : Nat) (x : Ring) (s : State) : (setRing p r x s).zeros = s.zeros := rfl
@[simp] theorem setRing_zeroBad (p r : Nat) (x : Ring) (s : State) : (setRing p r x s).zeroBad = s.zeroBad := rfl
@[simp] theorem setRing_hoops (p r : Nat) (x : Ring) (s : State) : (setRing p r x s).hoops = s.hoops := rfl
@[simp] theorem setRing_ctxs (p r : Nat) (x : Ring) (s : State) : (setRing p r x s).ctxs = s.ctxs := rfl
@[simp] theorem setRing_chans (p r : Nat) (x : Ring) (s : State) : (setRing p r x s).chans = s.chans := rfl
@[simp] theorem setRing_pricks (p r : Nat) (x : Ring) (s : State) : (setRing p r x s).pricks = s.pricks := rfl
@[simp] theorem setRing_txns (p r : Nat) (x : Ring) (s : State) : (setRing p r x s).txns = s.txns := rfl
@[simp] theorem setRing_waits (p r : Nat) (x : Ring) (s : State) : (setRing p r x s).waits = s.waits := rfl
@[simp] theorem setRing_logs (p r : Nat) (x : Ring) (s : State) : (setRing p r x s).logs = s.logs := rfl
@[simp] theorem setRing_stitch (p r : Nat) (x : Ring) (s : State) : (setRing p r x s).stitch = s.stitch := rfl
@[simp] theorem setRing_dev (p r : Nat) (x : Ring) (s : State) : (setRing p r x s).dev = s.dev := rfl
@[simp] theorem setRing_links (p r : Nat) (x : Ring) (s : State) : (setRing p r x s).links = s.links := rfl
@[simp] theorem setRing_net (p r : Nat) (x : Ring) (s : State) : (setRing p r x s).net = s.net := rfl
@[simp] theorem setRing_flash (p r : Nat) (x : Ring) (s : State) : (setRing p r x s).flash = s.flash := rfl
@[simp] theorem setRing_trust (p r : Nat) (x : Ring) (s : State) : (setRing p r x s).trust = s.trust := rfl
@[simp] theorem setRing_pins (p r : Nat) (x : Ring) (s : State) : (setRing p r x s).pins = s.pins := rfl
@[simp] theorem setRing_maint (p r : Nat) (x : Ring) (s : State) : (setRing p r x s).maint = s.maint := rfl
@[simp] theorem setRing_tags (p r : Nat) (x : Ring) (s : State) : (setRing p r x s).tags = s.tags := rfl
@[simp] theorem setRing_free (p r : Nat) (x : Ring) (s : State) : (setRing p r x s).free = s.free := rfl

/-! ### modTxn -/

@[simp] theorem modTxn_pending (i : Nat) (f : Txn → Txn) (s : State) : (modTxn i f s).pending = s.pending := rfl
@[simp] theorem modTxn_mem (i : Nat) (f : Txn → Txn) (s : State) : (modTxn i f s).mem = s.mem := rfl
@[simp] theorem modTxn_bad (i : Nat) (f : Txn → Txn) (s : State) : (modTxn i f s).bad = s.bad := rfl
@[simp] theorem modTxn_host (i : Nat) (f : Txn → Txn) (s : State) : (modTxn i f s).host = s.host := rfl
@[simp] theorem modTxn_vectors (i : Nat) (f : Txn → Txn) (s : State) : (modTxn i f s).vectors = s.vectors := rfl
@[simp] theorem modTxn_ha2 (i : Nat) (f : Txn → Txn) (s : State) : (modTxn i f s).ha2 = s.ha2 := rfl
@[simp] theorem modTxn_tiles (i : Nat) (f : Txn → Txn) (s : State) : (modTxn i f s).tiles = s.tiles := rfl
@[simp] theorem modTxn_zeros (i : Nat) (f : Txn → Txn) (s : State) : (modTxn i f s).zeros = s.zeros := rfl
@[simp] theorem modTxn_zeroBad (i : Nat) (f : Txn → Txn) (s : State) : (modTxn i f s).zeroBad = s.zeroBad := rfl
@[simp] theorem modTxn_hoops (i : Nat) (f : Txn → Txn) (s : State) : (modTxn i f s).hoops = s.hoops := rfl
@[simp] theorem modTxn_ctxs (i : Nat) (f : Txn → Txn) (s : State) : (modTxn i f s).ctxs = s.ctxs := rfl
@[simp] theorem modTxn_chans (i : Nat) (f : Txn → Txn) (s : State) : (modTxn i f s).chans = s.chans := rfl
@[simp] theorem modTxn_pricks (i : Nat) (f : Txn → Txn) (s : State) : (modTxn i f s).pricks = s.pricks := rfl
@[simp] theorem modTxn_ports (i : Nat) (f : Txn → Txn) (s : State) : (modTxn i f s).ports = s.ports := rfl
@[simp] theorem modTxn_waits (i : Nat) (f : Txn → Txn) (s : State) : (modTxn i f s).waits = s.waits := rfl
@[simp] theorem modTxn_logs (i : Nat) (f : Txn → Txn) (s : State) : (modTxn i f s).logs = s.logs := rfl
@[simp] theorem modTxn_stitch (i : Nat) (f : Txn → Txn) (s : State) : (modTxn i f s).stitch = s.stitch := rfl
@[simp] theorem modTxn_dev (i : Nat) (f : Txn → Txn) (s : State) : (modTxn i f s).dev = s.dev := rfl
@[simp] theorem modTxn_links (i : Nat) (f : Txn → Txn) (s : State) : (modTxn i f s).links = s.links := rfl
@[simp] theorem modTxn_net (i : Nat) (f : Txn → Txn) (s : State) : (modTxn i f s).net = s.net := rfl
@[simp] theorem modTxn_flash (i : Nat) (f : Txn → Txn) (s : State) : (modTxn i f s).flash = s.flash := rfl
@[simp] theorem modTxn_trust (i : Nat) (f : Txn → Txn) (s : State) : (modTxn i f s).trust = s.trust := rfl
@[simp] theorem modTxn_pins (i : Nat) (f : Txn → Txn) (s : State) : (modTxn i f s).pins = s.pins := rfl
@[simp] theorem modTxn_maint (i : Nat) (f : Txn → Txn) (s : State) : (modTxn i f s).maint = s.maint := rfl
@[simp] theorem modTxn_tags (i : Nat) (f : Txn → Txn) (s : State) : (modTxn i f s).tags = s.tags := rfl
@[simp] theorem modTxn_free (i : Nat) (f : Txn → Txn) (s : State) : (modTxn i f s).free = s.free := rfl

/-! ### logEntry -/

@[simp] theorem logEntry_pending (a b c d e g : Nat) (s : State) : (logEntry a b c d e g s).pending = s.pending := rfl
@[simp] theorem logEntry_mem (a b c d e g : Nat) (s : State) : (logEntry a b c d e g s).mem = s.mem := rfl
@[simp] theorem logEntry_bad (a b c d e g : Nat) (s : State) : (logEntry a b c d e g s).bad = s.bad := rfl
@[simp] theorem logEntry_host (a b c d e g : Nat) (s : State) : (logEntry a b c d e g s).host = s.host := rfl
@[simp] theorem logEntry_vectors (a b c d e g : Nat) (s : State) : (logEntry a b c d e g s).vectors = s.vectors := rfl
@[simp] theorem logEntry_ha2 (a b c d e g : Nat) (s : State) : (logEntry a b c d e g s).ha2 = s.ha2 := rfl
@[simp] theorem logEntry_tiles (a b c d e g : Nat) (s : State) : (logEntry a b c d e g s).tiles = s.tiles := rfl
@[simp] theorem logEntry_zeros (a b c d e g : Nat) (s : State) : (logEntry a b c d e g s).zeros = s.zeros := rfl
@[simp] theorem logEntry_zeroBad (a b c d e g : Nat) (s : State) : (logEntry a b c d e g s).zeroBad = s.zeroBad := rfl
@[simp] theorem logEntry_hoops (a b c d e g : Nat) (s : State) : (logEntry a b c d e g s).hoops = s.hoops := rfl
@[simp] theorem logEntry_ctxs (a b c d e g : Nat) (s : State) : (logEntry a b c d e g s).ctxs = s.ctxs := rfl
@[simp] theorem logEntry_chans (a b c d e g : Nat) (s : State) : (logEntry a b c d e g s).chans = s.chans := rfl
@[simp] theorem logEntry_pricks (a b c d e g : Nat) (s : State) : (logEntry a b c d e g s).pricks = s.pricks := rfl
@[simp] theorem logEntry_txns (a b c d e g : Nat) (s : State) : (logEntry a b c d e g s).txns = s.txns := rfl
@[simp] theorem logEntry_ports (a b c d e g : Nat) (s : State) : (logEntry a b c d e g s).ports = s.ports := rfl
@[simp] theorem logEntry_waits (a b c d e g : Nat) (s : State) : (logEntry a b c d e g s).waits = s.waits := rfl
@[simp] theorem logEntry_stitch (a b c d e g : Nat) (s : State) : (logEntry a b c d e g s).stitch = s.stitch := rfl
@[simp] theorem logEntry_dev (a b c d e g : Nat) (s : State) : (logEntry a b c d e g s).dev = s.dev := rfl
@[simp] theorem logEntry_links (a b c d e g : Nat) (s : State) : (logEntry a b c d e g s).links = s.links := rfl
@[simp] theorem logEntry_net (a b c d e g : Nat) (s : State) : (logEntry a b c d e g s).net = s.net := rfl
@[simp] theorem logEntry_flash (a b c d e g : Nat) (s : State) : (logEntry a b c d e g s).flash = s.flash := rfl
@[simp] theorem logEntry_trust (a b c d e g : Nat) (s : State) : (logEntry a b c d e g s).trust = s.trust := rfl
@[simp] theorem logEntry_pins (a b c d e g : Nat) (s : State) : (logEntry a b c d e g s).pins = s.pins := rfl
@[simp] theorem logEntry_maint (a b c d e g : Nat) (s : State) : (logEntry a b c d e g s).maint = s.maint := rfl
@[simp] theorem logEntry_tags (a b c d e g : Nat) (s : State) : (logEntry a b c d e g s).tags = s.tags := rfl
@[simp] theorem logEntry_free (a b c d e g : Nat) (s : State) : (logEntry a b c d e g s).free = s.free := rfl

/-! ### latch -/

@[simp] theorem latch_pending (c : Nat) (x : FaultCode) (it : Item) (a b : Nat) (d : FaultDetail) (s : State) : (latch c x it a b d s).pending = s.pending := rfl
@[simp] theorem latch_mem (c : Nat) (x : FaultCode) (it : Item) (a b : Nat) (d : FaultDetail) (s : State) : (latch c x it a b d s).mem = s.mem := rfl
@[simp] theorem latch_bad (c : Nat) (x : FaultCode) (it : Item) (a b : Nat) (d : FaultDetail) (s : State) : (latch c x it a b d s).bad = s.bad := rfl
@[simp] theorem latch_host (c : Nat) (x : FaultCode) (it : Item) (a b : Nat) (d : FaultDetail) (s : State) : (latch c x it a b d s).host = s.host := rfl
@[simp] theorem latch_vectors (c : Nat) (x : FaultCode) (it : Item) (a b : Nat) (d : FaultDetail) (s : State) : (latch c x it a b d s).vectors = s.vectors := rfl
@[simp] theorem latch_ha2 (c : Nat) (x : FaultCode) (it : Item) (a b : Nat) (d : FaultDetail) (s : State) : (latch c x it a b d s).ha2 = s.ha2 := rfl
@[simp] theorem latch_tiles (c : Nat) (x : FaultCode) (it : Item) (a b : Nat) (d : FaultDetail) (s : State) : (latch c x it a b d s).tiles = s.tiles := rfl
@[simp] theorem latch_zeros (c : Nat) (x : FaultCode) (it : Item) (a b : Nat) (d : FaultDetail) (s : State) : (latch c x it a b d s).zeros = s.zeros := rfl
@[simp] theorem latch_zeroBad (c : Nat) (x : FaultCode) (it : Item) (a b : Nat) (d : FaultDetail) (s : State) : (latch c x it a b d s).zeroBad = s.zeroBad := rfl
@[simp] theorem latch_hoops (c : Nat) (x : FaultCode) (it : Item) (a b : Nat) (d : FaultDetail) (s : State) : (latch c x it a b d s).hoops = s.hoops := rfl
@[simp] theorem latch_chans (c : Nat) (x : FaultCode) (it : Item) (a b : Nat) (d : FaultDetail) (s : State) : (latch c x it a b d s).chans = s.chans := rfl
@[simp] theorem latch_pricks (c : Nat) (x : FaultCode) (it : Item) (a b : Nat) (d : FaultDetail) (s : State) : (latch c x it a b d s).pricks = s.pricks := rfl
@[simp] theorem latch_txns (c : Nat) (x : FaultCode) (it : Item) (a b : Nat) (d : FaultDetail) (s : State) : (latch c x it a b d s).txns = s.txns := rfl
@[simp] theorem latch_ports (c : Nat) (x : FaultCode) (it : Item) (a b : Nat) (d : FaultDetail) (s : State) : (latch c x it a b d s).ports = s.ports := rfl
@[simp] theorem latch_waits (c : Nat) (x : FaultCode) (it : Item) (a b : Nat) (d : FaultDetail) (s : State) : (latch c x it a b d s).waits = s.waits := rfl
@[simp] theorem latch_logs (c : Nat) (x : FaultCode) (it : Item) (a b : Nat) (d : FaultDetail) (s : State) : (latch c x it a b d s).logs = s.logs := rfl
@[simp] theorem latch_stitch (c : Nat) (x : FaultCode) (it : Item) (a b : Nat) (d : FaultDetail) (s : State) : (latch c x it a b d s).stitch = s.stitch := rfl
@[simp] theorem latch_dev (c : Nat) (x : FaultCode) (it : Item) (a b : Nat) (d : FaultDetail) (s : State) : (latch c x it a b d s).dev = s.dev := rfl
@[simp] theorem latch_links (c : Nat) (x : FaultCode) (it : Item) (a b : Nat) (d : FaultDetail) (s : State) : (latch c x it a b d s).links = s.links := rfl
@[simp] theorem latch_net (c : Nat) (x : FaultCode) (it : Item) (a b : Nat) (d : FaultDetail) (s : State) : (latch c x it a b d s).net = s.net := rfl
@[simp] theorem latch_flash (c : Nat) (x : FaultCode) (it : Item) (a b : Nat) (d : FaultDetail) (s : State) : (latch c x it a b d s).flash = s.flash := rfl
@[simp] theorem latch_trust (c : Nat) (x : FaultCode) (it : Item) (a b : Nat) (d : FaultDetail) (s : State) : (latch c x it a b d s).trust = s.trust := rfl
@[simp] theorem latch_pins (c : Nat) (x : FaultCode) (it : Item) (a b : Nat) (d : FaultDetail) (s : State) : (latch c x it a b d s).pins = s.pins := rfl
@[simp] theorem latch_maint (c : Nat) (x : FaultCode) (it : Item) (a b : Nat) (d : FaultDetail) (s : State) : (latch c x it a b d s).maint = s.maint := rfl
@[simp] theorem latch_tags (c : Nat) (x : FaultCode) (it : Item) (a b : Nat) (d : FaultDetail) (s : State) : (latch c x it a b d s).tags = s.tags := rfl
@[simp] theorem latch_free (c : Nat) (x : FaultCode) (it : Item) (a b : Nat) (d : FaultDetail) (s : State) : (latch c x it a b d s).free = s.free := rfl

/-! ### stall -/

@[simp] theorem stall_pending (k a : Nat) (s : State) : (stall k a s).pending = s.pending := rfl
@[simp] theorem stall_mem (k a : Nat) (s : State) : (stall k a s).mem = s.mem := rfl
@[simp] theorem stall_bad (k a : Nat) (s : State) : (stall k a s).bad = s.bad := rfl
@[simp] theorem stall_host (k a : Nat) (s : State) : (stall k a s).host = s.host := rfl
@[simp] theorem stall_vectors (k a : Nat) (s : State) : (stall k a s).vectors = s.vectors := rfl
@[simp] theorem stall_ha2 (k a : Nat) (s : State) : (stall k a s).ha2 = s.ha2 := rfl
@[simp] theorem stall_zeros (k a : Nat) (s : State) : (stall k a s).zeros = s.zeros := rfl
@[simp] theorem stall_zeroBad (k a : Nat) (s : State) : (stall k a s).zeroBad = s.zeroBad := rfl
@[simp] theorem stall_hoops (k a : Nat) (s : State) : (stall k a s).hoops = s.hoops := rfl
@[simp] theorem stall_ctxs (k a : Nat) (s : State) : (stall k a s).ctxs = s.ctxs := rfl
@[simp] theorem stall_chans (k a : Nat) (s : State) : (stall k a s).chans = s.chans := rfl
@[simp] theorem stall_pricks (k a : Nat) (s : State) : (stall k a s).pricks = s.pricks := rfl
@[simp] theorem stall_txns (k a : Nat) (s : State) : (stall k a s).txns = s.txns := rfl
@[simp] theorem stall_ports (k a : Nat) (s : State) : (stall k a s).ports = s.ports := rfl
@[simp] theorem stall_waits (k a : Nat) (s : State) : (stall k a s).waits = s.waits := rfl
@[simp] theorem stall_logs (k a : Nat) (s : State) : (stall k a s).logs = s.logs := rfl
@[simp] theorem stall_stitch (k a : Nat) (s : State) : (stall k a s).stitch = s.stitch := rfl
@[simp] theorem stall_dev (k a : Nat) (s : State) : (stall k a s).dev = s.dev := rfl
@[simp] theorem stall_links (k a : Nat) (s : State) : (stall k a s).links = s.links := rfl
@[simp] theorem stall_net (k a : Nat) (s : State) : (stall k a s).net = s.net := rfl
@[simp] theorem stall_flash (k a : Nat) (s : State) : (stall k a s).flash = s.flash := rfl
@[simp] theorem stall_trust (k a : Nat) (s : State) : (stall k a s).trust = s.trust := rfl
@[simp] theorem stall_pins (k a : Nat) (s : State) : (stall k a s).pins = s.pins := rfl
@[simp] theorem stall_maint (k a : Nat) (s : State) : (stall k a s).maint = s.maint := rfl
@[simp] theorem stall_tags (k a : Nat) (s : State) : (stall k a s).tags = s.tags := rfl
@[simp] theorem stall_free (k a : Nat) (s : State) : (stall k a s).free = s.free := rfl

/-! ### pushReq -/

@[simp] theorem pushReq_pending (r : KnotReq) (s : State) : (pushReq r s).pending = s.pending := rfl
@[simp] theorem pushReq_mem (r : KnotReq) (s : State) : (pushReq r s).mem = s.mem := rfl
@[simp] theorem pushReq_bad (r : KnotReq) (s : State) : (pushReq r s).bad = s.bad := rfl
@[simp] theorem pushReq_host (r : KnotReq) (s : State) : (pushReq r s).host = s.host := rfl
@[simp] theorem pushReq_vectors (r : KnotReq) (s : State) : (pushReq r s).vectors = s.vectors := rfl
@[simp] theorem pushReq_ha2 (r : KnotReq) (s : State) : (pushReq r s).ha2 = s.ha2 := rfl
@[simp] theorem pushReq_tiles (r : KnotReq) (s : State) : (pushReq r s).tiles = s.tiles := rfl
@[simp] theorem pushReq_zeros (r : KnotReq) (s : State) : (pushReq r s).zeros = s.zeros := rfl
@[simp] theorem pushReq_zeroBad (r : KnotReq) (s : State) : (pushReq r s).zeroBad = s.zeroBad := rfl
@[simp] theorem pushReq_hoops (r : KnotReq) (s : State) : (pushReq r s).hoops = s.hoops := rfl
@[simp] theorem pushReq_ctxs (r : KnotReq) (s : State) : (pushReq r s).ctxs = s.ctxs := rfl
@[simp] theorem pushReq_chans (r : KnotReq) (s : State) : (pushReq r s).chans = s.chans := rfl
@[simp] theorem pushReq_pricks (r : KnotReq) (s : State) : (pushReq r s).pricks = s.pricks := rfl
@[simp] theorem pushReq_txns (r : KnotReq) (s : State) : (pushReq r s).txns = s.txns := rfl
@[simp] theorem pushReq_ports (r : KnotReq) (s : State) : (pushReq r s).ports = s.ports := rfl
@[simp] theorem pushReq_waits (r : KnotReq) (s : State) : (pushReq r s).waits = s.waits := rfl
@[simp] theorem pushReq_logs (r : KnotReq) (s : State) : (pushReq r s).logs = s.logs := rfl
@[simp] theorem pushReq_stitch (r : KnotReq) (s : State) : (pushReq r s).stitch = s.stitch := rfl
@[simp] theorem pushReq_dev (r : KnotReq) (s : State) : (pushReq r s).dev = s.dev := rfl
@[simp] theorem pushReq_links (r : KnotReq) (s : State) : (pushReq r s).links = s.links := rfl
@[simp] theorem pushReq_flash (r : KnotReq) (s : State) : (pushReq r s).flash = s.flash := rfl
@[simp] theorem pushReq_trust (r : KnotReq) (s : State) : (pushReq r s).trust = s.trust := rfl
@[simp] theorem pushReq_pins (r : KnotReq) (s : State) : (pushReq r s).pins = s.pins := rfl
@[simp] theorem pushReq_maint (r : KnotReq) (s : State) : (pushReq r s).maint = s.maint := rfl
@[simp] theorem pushReq_tags (r : KnotReq) (s : State) : (pushReq r s).tags = s.tags := rfl
@[simp] theorem pushReq_free (r : KnotReq) (s : State) : (pushReq r s).free = s.free := rfl

/-! ### backCredit -/

@[simp] theorem backCredit_pending (h n : Nat) (s : State) : (backCredit h n s).pending = s.pending := rfl
@[simp] theorem backCredit_mem (h n : Nat) (s : State) : (backCredit h n s).mem = s.mem := rfl
@[simp] theorem backCredit_bad (h n : Nat) (s : State) : (backCredit h n s).bad = s.bad := rfl
@[simp] theorem backCredit_host (h n : Nat) (s : State) : (backCredit h n s).host = s.host := rfl
@[simp] theorem backCredit_vectors (h n : Nat) (s : State) : (backCredit h n s).vectors = s.vectors := rfl
@[simp] theorem backCredit_ha2 (h n : Nat) (s : State) : (backCredit h n s).ha2 = s.ha2 := rfl
@[simp] theorem backCredit_tiles (h n : Nat) (s : State) : (backCredit h n s).tiles = s.tiles := rfl
@[simp] theorem backCredit_zeros (h n : Nat) (s : State) : (backCredit h n s).zeros = s.zeros := rfl
@[simp] theorem backCredit_zeroBad (h n : Nat) (s : State) : (backCredit h n s).zeroBad = s.zeroBad := rfl
@[simp] theorem backCredit_ctxs (h n : Nat) (s : State) : (backCredit h n s).ctxs = s.ctxs := rfl
@[simp] theorem backCredit_chans (h n : Nat) (s : State) : (backCredit h n s).chans = s.chans := rfl
@[simp] theorem backCredit_pricks (h n : Nat) (s : State) : (backCredit h n s).pricks = s.pricks := rfl
@[simp] theorem backCredit_txns (h n : Nat) (s : State) : (backCredit h n s).txns = s.txns := rfl
@[simp] theorem backCredit_ports (h n : Nat) (s : State) : (backCredit h n s).ports = s.ports := rfl
@[simp] theorem backCredit_waits (h n : Nat) (s : State) : (backCredit h n s).waits = s.waits := rfl
@[simp] theorem backCredit_logs (h n : Nat) (s : State) : (backCredit h n s).logs = s.logs := rfl
@[simp] theorem backCredit_stitch (h n : Nat) (s : State) : (backCredit h n s).stitch = s.stitch := rfl
@[simp] theorem backCredit_dev (h n : Nat) (s : State) : (backCredit h n s).dev = s.dev := rfl
@[simp] theorem backCredit_links (h n : Nat) (s : State) : (backCredit h n s).links = s.links := rfl
@[simp] theorem backCredit_net (h n : Nat) (s : State) : (backCredit h n s).net = s.net := rfl
@[simp] theorem backCredit_flash (h n : Nat) (s : State) : (backCredit h n s).flash = s.flash := rfl
@[simp] theorem backCredit_trust (h n : Nat) (s : State) : (backCredit h n s).trust = s.trust := rfl
@[simp] theorem backCredit_pins (h n : Nat) (s : State) : (backCredit h n s).pins = s.pins := rfl
@[simp] theorem backCredit_maint (h n : Nat) (s : State) : (backCredit h n s).maint = s.maint := rfl
@[simp] theorem backCredit_tags (h n : Nat) (s : State) : (backCredit h n s).tags = s.tags := rfl
@[simp] theorem backCredit_free (h n : Nat) (s : State) : (backCredit h n s).free = s.free := rfl

/-! ### signal -/

@[simp] theorem signal_pending (p v : Nat) (s : State) : (signal p v s).pending = s.pending := rfl
@[simp] theorem signal_mem (p v : Nat) (s : State) : (signal p v s).mem = s.mem := rfl
@[simp] theorem signal_bad (p v : Nat) (s : State) : (signal p v s).bad = s.bad := rfl
@[simp] theorem signal_host (p v : Nat) (s : State) : (signal p v s).host = s.host := rfl
@[simp] theorem signal_tiles (p v : Nat) (s : State) : (signal p v s).tiles = s.tiles := rfl
@[simp] theorem signal_zeros (p v : Nat) (s : State) : (signal p v s).zeros = s.zeros := rfl
@[simp] theorem signal_zeroBad (p v : Nat) (s : State) : (signal p v s).zeroBad = s.zeroBad := rfl
@[simp] theorem signal_hoops (p v : Nat) (s : State) : (signal p v s).hoops = s.hoops := rfl
@[simp] theorem signal_ctxs (p v : Nat) (s : State) : (signal p v s).ctxs = s.ctxs := rfl
@[simp] theorem signal_chans (p v : Nat) (s : State) : (signal p v s).chans = s.chans := rfl
@[simp] theorem signal_pricks (p v : Nat) (s : State) : (signal p v s).pricks = s.pricks := rfl
@[simp] theorem signal_txns (p v : Nat) (s : State) : (signal p v s).txns = s.txns := rfl
@[simp] theorem signal_ports (p v : Nat) (s : State) : (signal p v s).ports = s.ports := rfl
@[simp] theorem signal_waits (p v : Nat) (s : State) : (signal p v s).waits = s.waits := rfl
@[simp] theorem signal_logs (p v : Nat) (s : State) : (signal p v s).logs = s.logs := rfl
@[simp] theorem signal_stitch (p v : Nat) (s : State) : (signal p v s).stitch = s.stitch := rfl
@[simp] theorem signal_dev (p v : Nat) (s : State) : (signal p v s).dev = s.dev := rfl
@[simp] theorem signal_links (p v : Nat) (s : State) : (signal p v s).links = s.links := rfl
@[simp] theorem signal_net (p v : Nat) (s : State) : (signal p v s).net = s.net := rfl
@[simp] theorem signal_flash (p v : Nat) (s : State) : (signal p v s).flash = s.flash := rfl
@[simp] theorem signal_trust (p v : Nat) (s : State) : (signal p v s).trust = s.trust := rfl
@[simp] theorem signal_pins (p v : Nat) (s : State) : (signal p v s).pins = s.pins := rfl
@[simp] theorem signal_maint (p v : Nat) (s : State) : (signal p v s).maint = s.maint := rfl
@[simp] theorem signal_tags (p v : Nat) (s : State) : (signal p v s).tags = s.tags := rfl
@[simp] theorem signal_free (p v : Nat) (s : State) : (signal p v s).free = s.free := rfl

/-! ### modPins -/

@[simp] theorem modPins_pending (f : Pins → Pins) (s : State) : (modPins f s).pending = s.pending := rfl
@[simp] theorem modPins_mem (f : Pins → Pins) (s : State) : (modPins f s).mem = s.mem := rfl
@[simp] theorem modPins_bad (f : Pins → Pins) (s : State) : (modPins f s).bad = s.bad := rfl
@[simp] theorem modPins_host (f : Pins → Pins) (s : State) : (modPins f s).host = s.host := rfl
@[simp] theorem modPins_vectors (f : Pins → Pins) (s : State) : (modPins f s).vectors = s.vectors := rfl
@[simp] theorem modPins_ha2 (f : Pins → Pins) (s : State) : (modPins f s).ha2 = s.ha2 := rfl
@[simp] theorem modPins_tiles (f : Pins → Pins) (s : State) : (modPins f s).tiles = s.tiles := rfl
@[simp] theorem modPins_zeros (f : Pins → Pins) (s : State) : (modPins f s).zeros = s.zeros := rfl
@[simp] theorem modPins_zeroBad (f : Pins → Pins) (s : State) : (modPins f s).zeroBad = s.zeroBad := rfl
@[simp] theorem modPins_hoops (f : Pins → Pins) (s : State) : (modPins f s).hoops = s.hoops := rfl
@[simp] theorem modPins_ctxs (f : Pins → Pins) (s : State) : (modPins f s).ctxs = s.ctxs := rfl
@[simp] theorem modPins_chans (f : Pins → Pins) (s : State) : (modPins f s).chans = s.chans := rfl
@[simp] theorem modPins_pricks (f : Pins → Pins) (s : State) : (modPins f s).pricks = s.pricks := rfl
@[simp] theorem modPins_txns (f : Pins → Pins) (s : State) : (modPins f s).txns = s.txns := rfl
@[simp] theorem modPins_ports (f : Pins → Pins) (s : State) : (modPins f s).ports = s.ports := rfl
@[simp] theorem modPins_waits (f : Pins → Pins) (s : State) : (modPins f s).waits = s.waits := rfl
@[simp] theorem modPins_logs (f : Pins → Pins) (s : State) : (modPins f s).logs = s.logs := rfl
@[simp] theorem modPins_stitch (f : Pins → Pins) (s : State) : (modPins f s).stitch = s.stitch := rfl
@[simp] theorem modPins_dev (f : Pins → Pins) (s : State) : (modPins f s).dev = s.dev := rfl
@[simp] theorem modPins_links (f : Pins → Pins) (s : State) : (modPins f s).links = s.links := rfl
@[simp] theorem modPins_net (f : Pins → Pins) (s : State) : (modPins f s).net = s.net := rfl
@[simp] theorem modPins_flash (f : Pins → Pins) (s : State) : (modPins f s).flash = s.flash := rfl
@[simp] theorem modPins_trust (f : Pins → Pins) (s : State) : (modPins f s).trust = s.trust := rfl
@[simp] theorem modPins_maint (f : Pins → Pins) (s : State) : (modPins f s).maint = s.maint := rfl
@[simp] theorem modPins_tags (f : Pins → Pins) (s : State) : (modPins f s).tags = s.tags := rfl
@[simp] theorem modPins_free (f : Pins → Pins) (s : State) : (modPins f s).free = s.free := rfl

/-! ### Items read after an update -/

@[simp] theorem hoopAt_setTile (s : State) (k : Nat) (t : Tile) (j : Nat) : hoopAt (setTile s k t) j = hoopAt s j := rfl
@[simp] theorem ctxAt_setTile (s : State) (k : Nat) (t : Tile) (j : Nat) : ctxAt (setTile s k t) j = ctxAt s j := rfl
@[simp] theorem chanAt_setTile (s : State) (k : Nat) (t : Tile) (j : Nat) : chanAt (setTile s k t) j = chanAt s j := rfl
@[simp] theorem portAt_setTile (s : State) (k : Nat) (t : Tile) (j : Nat) : portAt (setTile s k t) j = portAt s j := rfl
@[simp] theorem linkAt_setTile (s : State) (k : Nat) (t : Tile) (j : Nat) : linkAt (setTile s k t) j = linkAt s j := rfl
@[simp] theorem hoopAt_modTile (k : Nat) (f : Tile → Tile) (s : State) (j : Nat) : hoopAt (modTile k f s) j = hoopAt s j := rfl
@[simp] theorem ctxAt_modTile (k : Nat) (f : Tile → Tile) (s : State) (j : Nat) : ctxAt (modTile k f s) j = ctxAt s j := rfl
@[simp] theorem chanAt_modTile (k : Nat) (f : Tile → Tile) (s : State) (j : Nat) : chanAt (modTile k f s) j = chanAt s j := rfl
@[simp] theorem portAt_modTile (k : Nat) (f : Tile → Tile) (s : State) (j : Nat) : portAt (modTile k f s) j = portAt s j := rfl
@[simp] theorem linkAt_modTile (k : Nat) (f : Tile → Tile) (s : State) (j : Nat) : linkAt (modTile k f s) j = linkAt s j := rfl
@[simp] theorem tileAt_modHoop (h : Nat) (f : Hoop → Hoop) (s : State) (j : Nat) : tileAt (modHoop h f s) j = tileAt s j := rfl
@[simp] theorem ctxAt_modHoop (h : Nat) (f : Hoop → Hoop) (s : State) (j : Nat) : ctxAt (modHoop h f s) j = ctxAt s j := rfl
@[simp] theorem chanAt_modHoop (h : Nat) (f : Hoop → Hoop) (s : State) (j : Nat) : chanAt (modHoop h f s) j = chanAt s j := rfl
@[simp] theorem portAt_modHoop (h : Nat) (f : Hoop → Hoop) (s : State) (j : Nat) : portAt (modHoop h f s) j = portAt s j := rfl
@[simp] theorem linkAt_modHoop (h : Nat) (f : Hoop → Hoop) (s : State) (j : Nat) : linkAt (modHoop h f s) j = linkAt s j := rfl
@[simp] theorem tileAt_modCtx (c : Nat) (f : Ctx → Ctx) (s : State) (j : Nat) : tileAt (modCtx c f s) j = tileAt s j := rfl
@[simp] theorem hoopAt_modCtx (c : Nat) (f : Ctx → Ctx) (s : State) (j : Nat) : hoopAt (modCtx c f s) j = hoopAt s j := rfl
@[simp] theorem chanAt_modCtx (c : Nat) (f : Ctx → Ctx) (s : State) (j : Nat) : chanAt (modCtx c f s) j = chanAt s j := rfl
@[simp] theorem portAt_modCtx (c : Nat) (f : Ctx → Ctx) (s : State) (j : Nat) : portAt (modCtx c f s) j = portAt s j := rfl
@[simp] theorem linkAt_modCtx (c : Nat) (f : Ctx → Ctx) (s : State) (j : Nat) : linkAt (modCtx c f s) j = linkAt s j := rfl
@[simp] theorem tileAt_modChan (n : Nat) (f : Chan → Chan) (s : State) (j : Nat) : tileAt (modChan n f s) j = tileAt s j := rfl
@[simp] theorem hoopAt_modChan (n : Nat) (f : Chan → Chan) (s : State) (j : Nat) : hoopAt (modChan n f s) j = hoopAt s j := rfl
@[simp] theorem ctxAt_modChan (n : Nat) (f : Chan → Chan) (s : State) (j : Nat) : ctxAt (modChan n f s) j = ctxAt s j := rfl
@[simp] theorem portAt_modChan (n : Nat) (f : Chan → Chan) (s : State) (j : Nat) : portAt (modChan n f s) j = portAt s j := rfl
@[simp] theorem linkAt_modChan (n : Nat) (f : Chan → Chan) (s : State) (j : Nat) : linkAt (modChan n f s) j = linkAt s j := rfl
@[simp] theorem tileAt_modPort (p : Nat) (f : Port → Port) (s : State) (j : Nat) : tileAt (modPort p f s) j = tileAt s j := rfl
@[simp] theorem hoopAt_modPort (p : Nat) (f : Port → Port) (s : State) (j : Nat) : hoopAt (modPort p f s) j = hoopAt s j := rfl
@[simp] theorem ctxAt_modPort (p : Nat) (f : Port → Port) (s : State) (j : Nat) : ctxAt (modPort p f s) j = ctxAt s j := rfl
@[simp] theorem chanAt_modPort (p : Nat) (f : Port → Port) (s : State) (j : Nat) : chanAt (modPort p f s) j = chanAt s j := rfl
@[simp] theorem linkAt_modPort (p : Nat) (f : Port → Port) (s : State) (j : Nat) : linkAt (modPort p f s) j = linkAt s j := rfl
@[simp] theorem tileAt_modLink (p : Nat) (f : Link → Link) (s : State) (j : Nat) : tileAt (modLink p f s) j = tileAt s j := rfl
@[simp] theorem hoopAt_modLink (p : Nat) (f : Link → Link) (s : State) (j : Nat) : hoopAt (modLink p f s) j = hoopAt s j := rfl
@[simp] theorem ctxAt_modLink (p : Nat) (f : Link → Link) (s : State) (j : Nat) : ctxAt (modLink p f s) j = ctxAt s j := rfl
@[simp] theorem chanAt_modLink (p : Nat) (f : Link → Link) (s : State) (j : Nat) : chanAt (modLink p f s) j = chanAt s j := rfl
@[simp] theorem portAt_modLink (p : Nat) (f : Link → Link) (s : State) (j : Nat) : portAt (modLink p f s) j = portAt s j := rfl
@[simp] theorem tileAt_modNet (f : Net → Net) (s : State) (j : Nat) : tileAt (modNet f s) j = tileAt s j := rfl
@[simp] theorem hoopAt_modNet (f : Net → Net) (s : State) (j : Nat) : hoopAt (modNet f s) j = hoopAt s j := rfl
@[simp] theorem ctxAt_modNet (f : Net → Net) (s : State) (j : Nat) : ctxAt (modNet f s) j = ctxAt s j := rfl
@[simp] theorem chanAt_modNet (f : Net → Net) (s : State) (j : Nat) : chanAt (modNet f s) j = chanAt s j := rfl
@[simp] theorem portAt_modNet (f : Net → Net) (s : State) (j : Nat) : portAt (modNet f s) j = portAt s j := rfl
@[simp] theorem linkAt_modNet (f : Net → Net) (s : State) (j : Nat) : linkAt (modNet f s) j = linkAt s j := rfl
@[simp] theorem tileAt_modDev (f : Dev → Dev) (s : State) (j : Nat) : tileAt (modDev f s) j = tileAt s j := rfl
@[simp] theorem hoopAt_modDev (f : Dev → Dev) (s : State) (j : Nat) : hoopAt (modDev f s) j = hoopAt s j := rfl
@[simp] theorem ctxAt_modDev (f : Dev → Dev) (s : State) (j : Nat) : ctxAt (modDev f s) j = ctxAt s j := rfl
@[simp] theorem chanAt_modDev (f : Dev → Dev) (s : State) (j : Nat) : chanAt (modDev f s) j = chanAt s j := rfl
@[simp] theorem portAt_modDev (f : Dev → Dev) (s : State) (j : Nat) : portAt (modDev f s) j = portAt s j := rfl
@[simp] theorem linkAt_modDev (f : Dev → Dev) (s : State) (j : Nat) : linkAt (modDev f s) j = linkAt s j := rfl
@[simp] theorem tileAt_useFree (n : Nat) (s : State) (j : Nat) : tileAt (useFree n s) j = tileAt s j := rfl
@[simp] theorem hoopAt_useFree (n : Nat) (s : State) (j : Nat) : hoopAt (useFree n s) j = hoopAt s j := rfl
@[simp] theorem ctxAt_useFree (n : Nat) (s : State) (j : Nat) : ctxAt (useFree n s) j = ctxAt s j := rfl
@[simp] theorem chanAt_useFree (n : Nat) (s : State) (j : Nat) : chanAt (useFree n s) j = chanAt s j := rfl
@[simp] theorem portAt_useFree (n : Nat) (s : State) (j : Nat) : portAt (useFree n s) j = portAt s j := rfl
@[simp] theorem linkAt_useFree (n : Nat) (s : State) (j : Nat) : linkAt (useFree n s) j = linkAt s j := rfl
@[simp] theorem tileAt_hostWrite (s : State) (p a : Nat) (bs : List Byte) (j : Nat) : tileAt (hostWrite s p a bs) j = tileAt s j := rfl
@[simp] theorem hoopAt_hostWrite (s : State) (p a : Nat) (bs : List Byte) (j : Nat) : hoopAt (hostWrite s p a bs) j = hoopAt s j := rfl
@[simp] theorem ctxAt_hostWrite (s : State) (p a : Nat) (bs : List Byte) (j : Nat) : ctxAt (hostWrite s p a bs) j = ctxAt s j := rfl
@[simp] theorem chanAt_hostWrite (s : State) (p a : Nat) (bs : List Byte) (j : Nat) : chanAt (hostWrite s p a bs) j = chanAt s j := rfl
@[simp] theorem portAt_hostWrite (s : State) (p a : Nat) (bs : List Byte) (j : Nat) : portAt (hostWrite s p a bs) j = portAt s j := rfl
@[simp] theorem linkAt_hostWrite (s : State) (p a : Nat) (bs : List Byte) (j : Nat) : linkAt (hostWrite s p a bs) j = linkAt s j := rfl
@[simp] theorem tileAt_poke (s : State) (a : Nat) (bs : List Byte) (j : Nat) : tileAt (poke s a bs) j = tileAt s j := rfl
@[simp] theorem hoopAt_poke (s : State) (a : Nat) (bs : List Byte) (j : Nat) : hoopAt (poke s a bs) j = hoopAt s j := rfl
@[simp] theorem ctxAt_poke (s : State) (a : Nat) (bs : List Byte) (j : Nat) : ctxAt (poke s a bs) j = ctxAt s j := rfl
@[simp] theorem chanAt_poke (s : State) (a : Nat) (bs : List Byte) (j : Nat) : chanAt (poke s a bs) j = chanAt s j := rfl
@[simp] theorem portAt_poke (s : State) (a : Nat) (bs : List Byte) (j : Nat) : portAt (poke s a bs) j = portAt s j := rfl
@[simp] theorem linkAt_poke (s : State) (a : Nat) (bs : List Byte) (j : Nat) : linkAt (poke s a bs) j = linkAt s j := rfl
@[simp] theorem tileAt_groundPart (s s' : State) (j : Nat) : tileAt (groundPart s s') j = tileAt s' j := rfl
@[simp] theorem hoopAt_groundPart (s s' : State) (j : Nat) : hoopAt (groundPart s s') j = hoopAt s' j := rfl
@[simp] theorem ctxAt_groundPart (s s' : State) (j : Nat) : ctxAt (groundPart s s') j = ctxAt s' j := rfl
@[simp] theorem chanAt_groundPart (s s' : State) (j : Nat) : chanAt (groundPart s s') j = chanAt s' j := rfl
@[simp] theorem portAt_groundPart (s s' : State) (j : Nat) : portAt (groundPart s s') j = portAt s' j := rfl
@[simp] theorem linkAt_groundPart (s s' : State) (j : Nat) : linkAt (groundPart s s') j = linkAt s' j := rfl
@[simp] theorem tileAt_ctlPart (s s' : State) (j : Nat) : tileAt (ctlPart s s') j = tileAt s' j := rfl
@[simp] theorem hoopAt_ctlPart (s s' : State) (j : Nat) : hoopAt (ctlPart s s') j = hoopAt s' j := rfl
@[simp] theorem ctxAt_ctlPart (s s' : State) (j : Nat) : ctxAt (ctlPart s s') j = ctxAt s' j := rfl
@[simp] theorem chanAt_ctlPart (s s' : State) (j : Nat) : chanAt (ctlPart s s') j = chanAt s' j := rfl
@[simp] theorem portAt_ctlPart (s s' : State) (j : Nat) : portAt (ctlPart s s') j = portAt s' j := rfl
@[simp] theorem linkAt_ctlPart (s s' : State) (j : Nat) : linkAt (ctlPart s s') j = linkAt s' j := rfl
@[simp] theorem tileAt_journalPut (e : JEntry) (s : State) (j : Nat) : tileAt (journalPut e s) j = tileAt s j := rfl
@[simp] theorem hoopAt_journalPut (e : JEntry) (s : State) (j : Nat) : hoopAt (journalPut e s) j = hoopAt s j := rfl
@[simp] theorem ctxAt_journalPut (e : JEntry) (s : State) (j : Nat) : ctxAt (journalPut e s) j = ctxAt s j := rfl
@[simp] theorem chanAt_journalPut (e : JEntry) (s : State) (j : Nat) : chanAt (journalPut e s) j = chanAt s j := rfl
@[simp] theorem portAt_journalPut (e : JEntry) (s : State) (j : Nat) : portAt (journalPut e s) j = portAt s j := rfl
@[simp] theorem linkAt_journalPut (e : JEntry) (s : State) (j : Nat) : linkAt (journalPut e s) j = linkAt s j := rfl
@[simp] theorem tileAt_journalFinal (n : Nat) (st : Status) (r : Nat) (x : Option (BitVec 16)) (s : State) (j : Nat) : tileAt (journalFinal n st r x s) j = tileAt s j := rfl
@[simp] theorem hoopAt_journalFinal (n : Nat) (st : Status) (r : Nat) (x : Option (BitVec 16)) (s : State) (j : Nat) : hoopAt (journalFinal n st r x s) j = hoopAt s j := rfl
@[simp] theorem ctxAt_journalFinal (n : Nat) (st : Status) (r : Nat) (x : Option (BitVec 16)) (s : State) (j : Nat) : ctxAt (journalFinal n st r x s) j = ctxAt s j := rfl
@[simp] theorem chanAt_journalFinal (n : Nat) (st : Status) (r : Nat) (x : Option (BitVec 16)) (s : State) (j : Nat) : chanAt (journalFinal n st r x s) j = chanAt s j := rfl
@[simp] theorem portAt_journalFinal (n : Nat) (st : Status) (r : Nat) (x : Option (BitVec 16)) (s : State) (j : Nat) : portAt (journalFinal n st r x s) j = portAt s j := rfl
@[simp] theorem linkAt_journalFinal (n : Nat) (st : Status) (r : Nat) (x : Option (BitVec 16)) (s : State) (j : Nat) : linkAt (journalFinal n st r x s) j = linkAt s j := rfl
@[simp] theorem tileAt_setRing (p r : Nat) (x : Ring) (s : State) (j : Nat) : tileAt (setRing p r x s) j = tileAt s j := rfl
@[simp] theorem hoopAt_setRing (p r : Nat) (x : Ring) (s : State) (j : Nat) : hoopAt (setRing p r x s) j = hoopAt s j := rfl
@[simp] theorem ctxAt_setRing (p r : Nat) (x : Ring) (s : State) (j : Nat) : ctxAt (setRing p r x s) j = ctxAt s j := rfl
@[simp] theorem chanAt_setRing (p r : Nat) (x : Ring) (s : State) (j : Nat) : chanAt (setRing p r x s) j = chanAt s j := rfl
@[simp] theorem linkAt_setRing (p r : Nat) (x : Ring) (s : State) (j : Nat) : linkAt (setRing p r x s) j = linkAt s j := rfl
@[simp] theorem tileAt_modTxn (i : Nat) (f : Txn → Txn) (s : State) (j : Nat) : tileAt (modTxn i f s) j = tileAt s j := rfl
@[simp] theorem hoopAt_modTxn (i : Nat) (f : Txn → Txn) (s : State) (j : Nat) : hoopAt (modTxn i f s) j = hoopAt s j := rfl
@[simp] theorem ctxAt_modTxn (i : Nat) (f : Txn → Txn) (s : State) (j : Nat) : ctxAt (modTxn i f s) j = ctxAt s j := rfl
@[simp] theorem chanAt_modTxn (i : Nat) (f : Txn → Txn) (s : State) (j : Nat) : chanAt (modTxn i f s) j = chanAt s j := rfl
@[simp] theorem portAt_modTxn (i : Nat) (f : Txn → Txn) (s : State) (j : Nat) : portAt (modTxn i f s) j = portAt s j := rfl
@[simp] theorem linkAt_modTxn (i : Nat) (f : Txn → Txn) (s : State) (j : Nat) : linkAt (modTxn i f s) j = linkAt s j := rfl
@[simp] theorem tileAt_logEntry (a b c d e g : Nat) (s : State) (j : Nat) : tileAt (logEntry a b c d e g s) j = tileAt s j := rfl
@[simp] theorem hoopAt_logEntry (a b c d e g : Nat) (s : State) (j : Nat) : hoopAt (logEntry a b c d e g s) j = hoopAt s j := rfl
@[simp] theorem ctxAt_logEntry (a b c d e g : Nat) (s : State) (j : Nat) : ctxAt (logEntry a b c d e g s) j = ctxAt s j := rfl
@[simp] theorem chanAt_logEntry (a b c d e g : Nat) (s : State) (j : Nat) : chanAt (logEntry a b c d e g s) j = chanAt s j := rfl
@[simp] theorem portAt_logEntry (a b c d e g : Nat) (s : State) (j : Nat) : portAt (logEntry a b c d e g s) j = portAt s j := rfl
@[simp] theorem linkAt_logEntry (a b c d e g : Nat) (s : State) (j : Nat) : linkAt (logEntry a b c d e g s) j = linkAt s j := rfl
@[simp] theorem tileAt_latch (c : Nat) (x : FaultCode) (it : Item) (a b : Nat) (d : FaultDetail) (s : State) (j : Nat) : tileAt (latch c x it a b d s) j = tileAt s j := rfl
@[simp] theorem hoopAt_latch (c : Nat) (x : FaultCode) (it : Item) (a b : Nat) (d : FaultDetail) (s : State) (j : Nat) : hoopAt (latch c x it a b d s) j = hoopAt s j := rfl
@[simp] theorem chanAt_latch (c : Nat) (x : FaultCode) (it : Item) (a b : Nat) (d : FaultDetail) (s : State) (j : Nat) : chanAt (latch c x it a b d s) j = chanAt s j := rfl
@[simp] theorem portAt_latch (c : Nat) (x : FaultCode) (it : Item) (a b : Nat) (d : FaultDetail) (s : State) (j : Nat) : portAt (latch c x it a b d s) j = portAt s j := rfl
@[simp] theorem linkAt_latch (c : Nat) (x : FaultCode) (it : Item) (a b : Nat) (d : FaultDetail) (s : State) (j : Nat) : linkAt (latch c x it a b d s) j = linkAt s j := rfl
@[simp] theorem hoopAt_stall (k a : Nat) (s : State) (j : Nat) : hoopAt (stall k a s) j = hoopAt s j := rfl
@[simp] theorem ctxAt_stall (k a : Nat) (s : State) (j : Nat) : ctxAt (stall k a s) j = ctxAt s j := rfl
@[simp] theorem chanAt_stall (k a : Nat) (s : State) (j : Nat) : chanAt (stall k a s) j = chanAt s j := rfl
@[simp] theorem portAt_stall (k a : Nat) (s : State) (j : Nat) : portAt (stall k a s) j = portAt s j := rfl
@[simp] theorem linkAt_stall (k a : Nat) (s : State) (j : Nat) : linkAt (stall k a s) j = linkAt s j := rfl
@[simp] theorem tileAt_pushReq (r : KnotReq) (s : State) (j : Nat) : tileAt (pushReq r s) j = tileAt s j := rfl
@[simp] theorem hoopAt_pushReq (r : KnotReq) (s : State) (j : Nat) : hoopAt (pushReq r s) j = hoopAt s j := rfl
@[simp] theorem ctxAt_pushReq (r : KnotReq) (s : State) (j : Nat) : ctxAt (pushReq r s) j = ctxAt s j := rfl
@[simp] theorem chanAt_pushReq (r : KnotReq) (s : State) (j : Nat) : chanAt (pushReq r s) j = chanAt s j := rfl
@[simp] theorem portAt_pushReq (r : KnotReq) (s : State) (j : Nat) : portAt (pushReq r s) j = portAt s j := rfl
@[simp] theorem linkAt_pushReq (r : KnotReq) (s : State) (j : Nat) : linkAt (pushReq r s) j = linkAt s j := rfl
@[simp] theorem tileAt_backCredit (h n : Nat) (s : State) (j : Nat) : tileAt (backCredit h n s) j = tileAt s j := rfl
@[simp] theorem ctxAt_backCredit (h n : Nat) (s : State) (j : Nat) : ctxAt (backCredit h n s) j = ctxAt s j := rfl
@[simp] theorem chanAt_backCredit (h n : Nat) (s : State) (j : Nat) : chanAt (backCredit h n s) j = chanAt s j := rfl
@[simp] theorem portAt_backCredit (h n : Nat) (s : State) (j : Nat) : portAt (backCredit h n s) j = portAt s j := rfl
@[simp] theorem linkAt_backCredit (h n : Nat) (s : State) (j : Nat) : linkAt (backCredit h n s) j = linkAt s j := rfl
@[simp] theorem tileAt_signal (p v : Nat) (s : State) (j : Nat) : tileAt (signal p v s) j = tileAt s j := rfl
@[simp] theorem hoopAt_signal (p v : Nat) (s : State) (j : Nat) : hoopAt (signal p v s) j = hoopAt s j := rfl
@[simp] theorem ctxAt_signal (p v : Nat) (s : State) (j : Nat) : ctxAt (signal p v s) j = ctxAt s j := rfl
@[simp] theorem chanAt_signal (p v : Nat) (s : State) (j : Nat) : chanAt (signal p v s) j = chanAt s j := rfl
@[simp] theorem portAt_signal (p v : Nat) (s : State) (j : Nat) : portAt (signal p v s) j = portAt s j := rfl
@[simp] theorem linkAt_signal (p v : Nat) (s : State) (j : Nat) : linkAt (signal p v s) j = linkAt s j := rfl
@[simp] theorem tileAt_modPins (f : Pins → Pins) (s : State) (j : Nat) : tileAt (modPins f s) j = tileAt s j := rfl
@[simp] theorem hoopAt_modPins (f : Pins → Pins) (s : State) (j : Nat) : hoopAt (modPins f s) j = hoopAt s j := rfl
@[simp] theorem ctxAt_modPins (f : Pins → Pins) (s : State) (j : Nat) : ctxAt (modPins f s) j = ctxAt s j := rfl
@[simp] theorem chanAt_modPins (f : Pins → Pins) (s : State) (j : Nat) : chanAt (modPins f s) j = chanAt s j := rfl
@[simp] theorem portAt_modPins (f : Pins → Pins) (s : State) (j : Nat) : portAt (modPins f s) j = portAt s j := rfl
@[simp] theorem linkAt_modPins (f : Pins → Pins) (s : State) (j : Nat) : linkAt (modPins f s) j = linkAt s j := rfl

theorem tileAt_modTile (k : Nat) (f : Tile → Tile) (s : State) (j : Nat) :
    tileAt (modTile k f s) j = if j = k then f (tileAt s k) else tileAt s j := by
  simp [modTile, tileAt, setTile, Tab.get_set]

@[simp] theorem tileAt_modTile_same (k : Nat) (f : Tile → Tile) (s : State) : tileAt (modTile k f s) k = f (tileAt s k) := by
  simp [tileAt_modTile]

theorem tileAt_modTile_other {k j : Nat} (f : Tile → Tile) (s : State) (h : j ≠ k) : tileAt (modTile k f s) j = tileAt s j := by
  simp [tileAt_modTile, h]

theorem hoopAt_modHoop (k : Nat) (f : Hoop → Hoop) (s : State) (j : Nat) :
    hoopAt (modHoop k f s) j = if j = k then f (hoopAt s k) else hoopAt s j := by
  simp [modHoop, hoopAt, Tab.get_set]

@[simp] theorem hoopAt_modHoop_same (k : Nat) (f : Hoop → Hoop) (s : State) : hoopAt (modHoop k f s) k = f (hoopAt s k) := by
  simp [hoopAt_modHoop]

theorem hoopAt_modHoop_other {k j : Nat} (f : Hoop → Hoop) (s : State) (h : j ≠ k) : hoopAt (modHoop k f s) j = hoopAt s j := by
  simp [hoopAt_modHoop, h]

theorem ctxAt_modCtx (k : Nat) (f : Ctx → Ctx) (s : State) (j : Nat) :
    ctxAt (modCtx k f s) j = if j = k then f (ctxAt s k) else ctxAt s j := by
  simp [modCtx, ctxAt, Tab.get_set]

@[simp] theorem ctxAt_modCtx_same (k : Nat) (f : Ctx → Ctx) (s : State) : ctxAt (modCtx k f s) k = f (ctxAt s k) := by
  simp [ctxAt_modCtx]

theorem ctxAt_modCtx_other {k j : Nat} (f : Ctx → Ctx) (s : State) (h : j ≠ k) : ctxAt (modCtx k f s) j = ctxAt s j := by
  simp [ctxAt_modCtx, h]

theorem chanAt_modChan (k : Nat) (f : Chan → Chan) (s : State) (j : Nat) :
    chanAt (modChan k f s) j = if j = k then f (chanAt s k) else chanAt s j := by
  simp [modChan, chanAt, Tab.get_set]

@[simp] theorem chanAt_modChan_same (k : Nat) (f : Chan → Chan) (s : State) : chanAt (modChan k f s) k = f (chanAt s k) := by
  simp [chanAt_modChan]

theorem chanAt_modChan_other {k j : Nat} (f : Chan → Chan) (s : State) (h : j ≠ k) : chanAt (modChan k f s) j = chanAt s j := by
  simp [chanAt_modChan, h]

theorem portAt_modPort (k : Nat) (f : Port → Port) (s : State) (j : Nat) :
    portAt (modPort k f s) j = if j = k then f (portAt s k) else portAt s j := by
  simp [modPort, portAt, Tab.get_set]

@[simp] theorem portAt_modPort_same (k : Nat) (f : Port → Port) (s : State) : portAt (modPort k f s) k = f (portAt s k) := by
  simp [portAt_modPort]

theorem portAt_modPort_other {k j : Nat} (f : Port → Port) (s : State) (h : j ≠ k) : portAt (modPort k f s) j = portAt s j := by
  simp [portAt_modPort, h]

theorem linkAt_modLink (k : Nat) (f : Link → Link) (s : State) (j : Nat) :
    linkAt (modLink k f s) j = if j = k then f (linkAt s k) else linkAt s j := by
  simp [modLink, linkAt, Tab.get_set]

@[simp] theorem linkAt_modLink_same (k : Nat) (f : Link → Link) (s : State) : linkAt (modLink k f s) k = f (linkAt s k) := by
  simp [linkAt_modLink]

theorem linkAt_modLink_other {k j : Nat} (f : Link → Link) (s : State) (h : j ≠ k) : linkAt (modLink k f s) j = linkAt s j := by
  simp [linkAt_modLink, h]

@[simp] theorem modNet_net (f : Net → Net) (s : State) : (modNet f s).net = f s.net := rfl
@[simp] theorem modDev_dev (f : Dev → Dev) (s : State) : (modDev f s).dev = f s.dev := rfl
@[simp] theorem modPins_pins (f : Pins → Pins) (s : State) : (modPins f s).pins = f s.pins := rfl
@[simp] theorem useFree_free (n : Nat) (s : State) : (useFree n s).free = s.free + n := rfl

end Sys2Proof.Machine
end

