-- ==== Sys2Proof/Laws/Ops.lean ====
section
/-! SUPPORT. Laws of the shared operations: what each can answer and what it leaves as it was. -/

namespace Sys2Proof.Machine

/-! ## Outcomes -/

@[simp] theorem ground_next (u s : State) : ground u s = .next (groundPart s u) := rfl
@[simp] theorem ctl_next (u s : State) : ctl u s = .next (ctlPart s u) := rfl
@[simp] theorem keepQueue_next (u s : State) : keepQueue u s = .next { u with pending := s.pending } := rfl
@[simp] theorem groundPart_self (s : State) : groundPart s s = s := rfl
@[simp] theorem ctlPart_self (s : State) : ctlPart s s = s := rfl

/-- What every update of a fold keeps, the fold keeps. -/
theorem foldl_keeps {α β γ : Type} (g : β → γ) (f : β → α → β) (h : ∀ b a, g (f b a) = g b) (l : List α) (b : β) :
    g (l.foldl f b) = g b := by
  induction l generalizing b with
  | nil => rfl
  | cons a l ih => rw [List.foldl_cons, ih, h]

/-! ## Events: `raise` changes the logs, event rings, host memory and the free counter only -/

/-- The part of the state that an event record's way into the rings keeps. -/
def noEvents (s : State) : State := { s with host := [], vectors := [], ha2 := Ha2.reset, ports := [], free := 0 }

theorem ringWrite_keeps (p : Nat) (bs : List Byte) (s : State) : noEvents (ringWrite p bs s) = noEvents s := by
  unfold ringWrite; dsimp only; split <;> rfl

@[simp] theorem noEvents_modPort (p : Nat) (f : Port → Port) (s : State) : noEvents (modPort p f s) = noEvents s := rfl
@[simp] theorem noEvents_useFree (n : Nat) (s : State) : noEvents (useFree n s) = noEvents s := rfl

theorem ringPut_keeps (r : EventRec) (p : Nat) (s : State) : noEvents (ringPut r p s) = noEvents s := by
  simp only [ringPut, apply_ite noEvents, ringWrite_keeps, noEvents_modPort, noEvents_useFree, ite_self]

theorem raise_keeps (code c : Nat) (bs : List Byte) (s : State) :
    noEvents (raise code c bs s) = noEvents { s with logs := { s.logs with
      eseq := s.logs.eseq + 1, raised := ⟨s.logs.eseq + 1, code, c, s.stitch.count, bs⟩ :: s.logs.raised } } := by
  unfold raise
  exact foldl_keeps noEvents _ (fun b a => ringPut_keeps _ _ _) _ _

/-- Everything that `raise` does beside the event rings: the record is numbered and listed. -/
theorem raise_eq (code c : Nat) (bs : List Byte) (s : State) :
    raise code c bs s = { s with
      logs := { s.logs with
        eseq := s.logs.eseq + 1, raised := ⟨s.logs.eseq + 1, code, c, s.stitch.count, bs⟩ :: s.logs.raised }
      host := (raise code c bs s).host, vectors := (raise code c bs s).vectors, ha2 := (raise code c bs s).ha2
      ports := (raise code c bs s).ports
      free := (raise code c bs s).free } := by
  have h := raise_keeps code c bs s
  generalize raise code c bs s = t at h
  cases t; cases s
  simp only [noEvents, State.mk.injEq, true_and, and_true] at h
  simp_all

@[simp] theorem raise_pending (code c : Nat) (bs : List Byte) (s : State) : (raise code c bs s).pending = s.pending := by rw [raise_eq]
@[simp] theorem raise_mem (code c : Nat) (bs : List Byte) (s : State) : (raise code c bs s).mem = s.mem := by rw [raise_eq]
@[simp] theorem raise_bad (code c : Nat) (bs : List Byte) (s : State) : (raise code c bs s).bad = s.bad := by rw [raise_eq]
@[simp] theorem raise_tiles (code c : Nat) (bs : List Byte) (s : State) : (raise code c bs s).tiles = s.tiles := by rw [raise_eq]
@[simp] theorem raise_zeros (code c : Nat) (bs : List Byte) (s : State) : (raise code c bs s).zeros = s.zeros := by rw [raise_eq]
@[simp] theorem raise_zeroBad (code c : Nat) (bs : List Byte) (s : State) : (raise code c bs s).zeroBad = s.zeroBad := by rw [raise_eq]
@[simp] theorem raise_hoops (code c : Nat) (bs : List Byte) (s : State) : (raise code c bs s).hoops = s.hoops := by rw [raise_eq]
@[simp] theorem raise_ctxs (code c : Nat) (bs : List Byte) (s : State) : (raise code c bs s).ctxs = s.ctxs := by rw [raise_eq]
@[simp] theorem raise_chans (code c : Nat) (bs : List Byte) (s : State) : (raise code c bs s).chans = s.chans := by rw [raise_eq]
@[simp] theorem raise_pricks (code c : Nat) (bs : List Byte) (s : State) : (raise code c bs s).pricks = s.pricks := by rw [raise_eq]
@[simp] theorem raise_txns (code c : Nat) (bs : List Byte) (s : State) : (raise code c bs s).txns = s.txns := by rw [raise_eq]
@[simp] theorem raise_waits (code c : Nat) (bs : List Byte) (s : State) : (raise code c bs s).waits = s.waits := by rw [raise_eq]
@[simp] theorem raise_stitch (code c : Nat) (bs : List Byte) (s : State) : (raise code c bs s).stitch = s.stitch := by rw [raise_eq]
@[simp] theorem raise_dev (code c : Nat) (bs : List Byte) (s : State) : (raise code c bs s).dev = s.dev := by rw [raise_eq]
@[simp] theorem raise_links (code c : Nat) (bs : List Byte) (s : State) : (raise code c bs s).links = s.links := by rw [raise_eq]
@[simp] theorem raise_net (code c : Nat) (bs : List Byte) (s : State) : (raise code c bs s).net = s.net := by rw [raise_eq]
@[simp] theorem raise_flash (code c : Nat) (bs : List Byte) (s : State) : (raise code c bs s).flash = s.flash := by rw [raise_eq]
@[simp] theorem raise_trust (code c : Nat) (bs : List Byte) (s : State) : (raise code c bs s).trust = s.trust := by rw [raise_eq]
@[simp] theorem raise_pins (code c : Nat) (bs : List Byte) (s : State) : (raise code c bs s).pins = s.pins := by rw [raise_eq]
@[simp] theorem raise_maint (code c : Nat) (bs : List Byte) (s : State) : (raise code c bs s).maint = s.maint := by rw [raise_eq]
@[simp] theorem raise_tags (code c : Nat) (bs : List Byte) (s : State) : (raise code c bs s).tags = s.tags := by rw [raise_eq]
@[simp] theorem tileAt_raise (code c : Nat) (bs : List Byte) (s : State) (j : Nat) : tileAt (raise code c bs s) j = tileAt s j := by
  simp [tileAt]
@[simp] theorem hoopAt_raise (code c : Nat) (bs : List Byte) (s : State) (j : Nat) : hoopAt (raise code c bs s) j = hoopAt s j := by
  simp [hoopAt]
@[simp] theorem ctxAt_raise (code c : Nat) (bs : List Byte) (s : State) (j : Nat) : ctxAt (raise code c bs s) j = ctxAt s j := by
  simp [ctxAt]
@[simp] theorem chanAt_raise (code c : Nat) (bs : List Byte) (s : State) (j : Nat) : chanAt (raise code c bs s) j = chanAt s j := by
  simp [chanAt]
@[simp] theorem linkAt_raise (code c : Nat) (bs : List Byte) (s : State) (j : Nat) : linkAt (raise code c bs s) j = linkAt s j := by
  simp [linkAt]

/-- The event that `raise` lists. -/
@[simp] theorem raise_logs (code c : Nat) (bs : List Byte) (s : State) : (raise code c bs s).logs = { s.logs with
    eseq := s.logs.eseq + 1, raised := ⟨s.logs.eseq + 1, code, c, s.stitch.count, bs⟩ :: s.logs.raised } := by rw [raise_eq]

/-- The part of a port that events keep. -/
def noRing (x : Port) : Port := { x with ev := EvRing.reset, evArea := [] }

theorem noRing_modPort (p : Nat) (f : Port → Port) (s : State) (j : Nat) (h : ∀ x, noRing (f x) = noRing x) :
    noRing (portAt (modPort p f s) j) = noRing (portAt s j) := by
  rw [portAt_modPort]; split
  · next e => rw [h, e]
  · rfl

theorem ringWrite_port (p : Nat) (bs : List Byte) (s : State) (j : Nat) :
    noRing (portAt (ringWrite p bs s) j) = noRing (portAt s j) := by
  unfold ringWrite
  dsimp only
  rw [portAt_signal]
  refine (noRing_modPort _ _ _ _ ?_).trans ?_
  · intro x; rfl
  split
  · refine noRing_modPort _ _ _ _ ?_
    intro x; rfl
  · rfl

theorem ringPut_port (r : EventRec) (p : Nat) (s : State) (j : Nat) :
    noRing (portAt (ringPut r p s) j) = noRing (portAt s j) := by
  have h (a : EvRing → EvRing) (s : State) :
      noRing (portAt (modPort p (fun x => { x with ev := a x.ev }) s) j) = noRing (portAt s j) := by
    refine noRing_modPort _ _ _ _ ?_
    intro x; rfl
  have h1 := h (fun e => { e with missed := 0 })
  have h2 := h (fun e => { e with lost := satAdd 32 e.lost 1, missed := satAdd 32 e.missed 1 })
  simp only [ringPut, apply_ite (fun s => noRing (portAt s j)), ringWrite_port, h1, h2, portAt_useFree, ite_self]

/-- An event changes nothing of a port but its event ring. -/
theorem raise_port (code c : Nat) (bs : List Byte) (s : State) (j : Nat) :
    noRing (portAt (raise code c bs s) j) = noRing (portAt s j) := by
  unfold raise
  exact foldl_keeps (fun s => noRing (portAt s j)) _ (fun b a => ringPut_port _ _ _ _) _ _

@[simp] theorem ringAt_raise (code c : Nat) (bs : List Byte) (s : State) (p r : Nat) :
    ringAt (raise code c bs s) p r = ringAt s p r := by
  change Tab.get _ (noRing (portAt (raise code c bs s) p)).rings r = Tab.get _ (noRing (portAt s p)).rings r
  rw [raise_port]

end Sys2Proof.Machine
end

