-- ==== Sys2Proof/Laws/Host.lean ====
section
/-! SUPPORT. Laws of host commands: what taking one, answering one and leaving one to wait do. -/

namespace Sys2Proof.Machine

@[simp] theorem toLE_length (n x : Nat) : (toLE n x).length = n := by
  induction n generalizing x with
  | zero => rfl
  | succ n ih => simp [toLE, ih]

@[simp] theorem completionBytes_length (s : State) (st : Status) (i : BitVec 16) (g : BitVec 32) (q r : Nat) :
    (completionBytes s st i g q r).length = 24 := by simp [completionBytes]

theorem completionBytes_congr {s t : State} (h : s.dev.unqualified = t.dev.unqualified) (st : Status) (i : BitVec 16)
    (g : BitVec 32) (q r : Nat) : completionBytes s st i g q r = completionBytes t st i g q r := by
  simp [completionBytes, h]

/-- The environment of a command that is taken from its ring. -/
def cmdEnv (h : Hdr) (s : State) : Env :=
  ⟨.ring h.port.val h.ring.val, h.port.val, sessionNo h, if h.txn then some h.txnId.toNat else none, h.txnId, s.logs.seq + 1, h.tag⟩

@[simp] theorem ringAt_setRing_same (p r : Nat) (x : Ring) (s : State) : ringAt (setRing p r x s) p r = x := by
  simp [ringAt, setRing]

theorem ringAt_modPort_same (p q r : Nat) (f : Port → Port) (s : State) (h : ∀ x, (f x).rings = x.rings) :
    ringAt (modPort q f s) p r = ringAt s p r := by
  unfold ringAt
  rw [portAt_modPort]; split
  · next e => rw [h, e]
  · rfl

/-- The checks before an untagged command's own pass. -/
theorem preCheck_untagged {c : HostCmd} {h : Hdr} {s : State} (hr : Untagged c.gen h s) (href : c.refused s = false)
    (hb : c.badArgs (cmdEnv h s) s = false) :
    preCheck c (ringOf h s).slot.toNat (ringOf h s).opened h.rsv h.txn h.txnId (some (sessionNo h)) (cmdEnv h s) s = none := by
  have h1 : (s.dev.restricted && decide (1 < c.gen)) = false := by
    rcases hr.allowed with e | e
    · simp [e]
    · simp; intro _; omega
  simp [preCheck, hr.known, h1, href, hb, hr.clean, hr.plain, hr.noId, hr.opened]

/-- The checks before a tagged command's own pass. -/
theorem preCheck_tagged {c : HostCmd} {h : Hdr} {x : Txn} {s : State} (hr : Tagged c.gen h x s) (hg : c.taggable = true)
    (href : c.refused s = false) (hb : c.badArgs (cmdEnv h s) s = false) :
    preCheck c (ringOf h s).slot.toNat (ringOf h s).opened h.rsv h.txn h.txnId (some (sessionNo h)) (cmdEnv h s) s = none := by
  have h1 : (s.dev.restricted && decide (1 < c.gen)) = false := by
    rcases hr.allowed with e | e
    · simp [e]
    · simp; intro _; omega
  simp [preCheck, hr.known, h1, href, hb, hr.clean, hr.opened, hr.tag, hr.held, hr.mine, hr.idle, hg]

/-- Slots that spell commands of Table 12.9 stay in their ring. -/
theorem refuseSlots_none {p r n : Nat} {s : State} (h : slotRefused (headSlot s p r) = none) : refuseSlots p r n s = s := by
  cases n with
  | zero => rfl
  | succ n => simp [refuseSlots, h]

/-- A command that is taken and passes the checks runs in the state that holds its journal entry. -/
theorem hostCommand_runs {h : Hdr} {c : HostCmd} {s : State} (hsp : slotRefused (headSlot s h.port.val h.ring.val) = none)
    (hready : s.dev.ready = true) (hslot : ringHas (ringOf h s) = true)
    (halone : ringWaits s h.port.val h.ring.val = false)
    (hpre : preCheck c (ringOf h s).slot.toNat (ringOf h s).opened h.rsv h.txn h.txnId (some (sessionNo h)) (cmdEnv h s) s = none) :
    hostCommand h c s = ctl (runCmd c (cmdEnv h s) none false s).1 s := by
  unfold hostCommand
  simp only [refuseSlots_none hsp]
  have h1 : ringHas (ringAt s h.port.val h.ring.val) = true := hslot
  simp only [hready, h1, halone, Bool.not_true, Bool.or_self, Bool.false_eq_true, if_false]
  change ctl (runCmd c (cmdEnv h s) (preCheck c (ringOf h s).slot.toNat (ringOf h s).opened h.rsv h.txn h.txnId
    (some (sessionNo h)) (cmdEnv h s) s) false s).1 s = _
  rw [hpre]

/-- A buffer reads the same in the state in which the command runs. -/
theorem bufRead_taken {h : Hdr} {op : Nat} {s : State} {p n : Nat} {b : BitVec 64} {bs : List Byte}
    (hb : bufRead p b n s = .ok bs) : bufRead p b n (taken h op s) = .ok bs := by
  unfold bufRead at hb ⊢
  split at hb
  · next hp => rw [if_pos hp]; exact hb
  · next hp =>
    rw [if_neg hp]
    have e1 : ueAt (taken h op s) (pushBase p + bufOff b) n = ueAt s (pushBase p + bufOff b) n := rfl
    split at hb
    · simp at hb
    · next hu => simp only [e1, hu]; exact hb

@[simp] theorem journalFinal_seq (n : Nat) (st : Status) (r : Nat) (x : Option (BitVec 16)) (s : State) :
    (journalFinal n st r x s).logs.seq = s.logs.seq := rfl

/-- What a post changes: the port and host memory only. -/
theorem post_ring_eq (p r : Nat) (st : Status) (i : BitVec 16) (g : BitVec 32) (q x : Nat) (s : State) :
    post (.ring p r) st i g q x s = { s with
      host := (post (.ring p r) st i g q x s).host, ports := (post (.ring p r) st i g q x s).ports } := by
  unfold post postAt
  dsimp only
  split <;> rfl

theorem portAt_setRing_area (p r : Nat) (x : Ring) (s : State) : (portAt (setRing p r x s) p).ringArea = (portAt s p).ringArea := by
  simp [setRing]

/-- What a post to a ring writes: the slot at HEAD, and HEAD. -/
theorem post_ring (p r : Nat) (st : Status) (i : BitVec 16) (g : BitVec 32) (q x : Nat) (s : State) :
    let y := ringAt s p r
    let off := y.head.toNat % ringSlots y * slotBytes y
    let t := post (.ring p r) st i g q x s
    ringAt t p r = { y with head := y.head + 1 } ∧
      (if y.loc then bytesAt (portAt t p).ringArea off 24 else hostRead t p (y.base.toNat + off) 24) =
        completionBytes s st i g q x := by
  intro y off t
  have hlen : 24 = (completionBytes s st i g q x).length := by simp
  refine ⟨?_, ?_⟩
  · simp only [t, post, postAt, ringAt_setRing_same]; rfl
  · simp only [t, post, postAt]
    by_cases hl : y.loc = true
    · have hl' : (ringAt s p r).loc = true := hl
      simp only [hl, hl', if_true, portAt_setRing_area, portAt_modPort_same]
      conv_lhs => rw [hlen]
      exact bytesAt_putBytes _ _ _
    · have hl' : ¬ (ringAt s p r).loc = true := hl
      simp only [hl, hl', Bool.false_eq_true, if_false]
      simp only [hostRead, setRing_host, hostWrite]
      rw [show (p * 2 ^ 64 + ((ringAt s p r).base.toNat + (ringAt s p r).head.toNat % ringSlots (ringAt s p r) * slotBytes (ringAt s p r)))
        = p * 2 ^ 64 + (y.base.toNat + off) from rfl]
      conv_lhs => rw [hlen]
      exact bytesAt_putBytes _ _ _

/-- Beside the slot, a post changes no host byte; other ports stay. -/
theorem post_ring_else (p r : Nat) (st : Status) (i : BitVec 16) (g : BitVec 32) (q x : Nat) (s : State) :
    let y := ringAt s p r
    let at_ := p * 2 ^ 64 + (y.base.toNat + y.head.toNat % ringSlots y * slotBytes y)
    (∀ a, ¬ (y.loc = false ∧ at_ ≤ a ∧ a < at_ + 24) → Tab.get 0 (post (.ring p r) st i g q x s).host a = Tab.get 0 s.host a) ∧
      ∀ j, j ≠ p → portAt (post (.ring p r) st i g q x s) j = portAt s j := by
  intro y at_
  constructor
  · intro a ha
    simp only [post, postAt]
    by_cases hl : (ringAt s p r).loc = true
    · simp [hl]
    · simp only [hl, Bool.false_eq_true, if_false, setRing_host, hostWrite]
      refine get_putBytes_other ?_
      simp only [completionBytes_length]
      have hy : y.loc = false := by simpa using hl
      by_contra hc
      exact ha ⟨hy, by simp only [at_, y]; omega, by simp only [at_, y]; omega⟩
  · intro j hj
    simp only [post, postAt, setRing]
    split
    · rw [portAt_modPort_other _ _ hj, portAt_modPort_other _ _ hj]
    · rw [portAt_modPort_other _ _ hj]; rfl

/-- A command that ends: its completion is posted and journalled, and the rest of its effect stands. -/
theorem hostCommand_done {h : Hdr} {c : HostCmd} {s u : State} {st : Status} {r : Nat}
    (hsp : slotRefused (headSlot s h.port.val h.ring.val) = none) (hready : s.dev.ready = true)
    (hslot : ringHas (ringOf h s) = true) (halone : ringWaits s h.port.val h.ring.val = false)
    (hpre : preCheck c (ringOf h s).slot.toNat (ringOf h s).opened h.rsv h.txn h.txnId (some (sessionNo h)) (cmdEnv h s) s = none)
    (hrun : c.run (cmdEnv h s) (taken h c.opcode s) = .done st r u)
    (hring : ringOf h u = { ringOf h s with opened := (ringOf h u).opened, gen := (ringOf h u).gen, en := (ringOf h u).en })
    (hj : u.logs.journal = (taken h c.opcode s).logs.journal) (hq : u.logs.seq = s.logs.seq + 1) :
    ∃ t, hostCommand h c s = .next t ∧ Answered h c.opcode st r s t ∧
      t = { u with
        pending := s.pending, trust := s.trust, pins := s.pins
        logs := { u.logs with journal := t.logs.journal }, host := t.host, ports := t.ports } ∧
      ringOf h t = { ringOf h u with head := (ringOf h s).head + 1 } ∧
      (∀ a, ¬ InSlot h s a → Tab.get 0 t.host a = Tab.get 0 u.host a) ∧ ∀ j, j ≠ h.port.val → portAt t j = portAt u j := by
  rw [hostCommand_runs hsp hready hslot halone hpre]
  have hrun' : c.run (cmdEnv h s) (journalPut ⟨(cmdEnv h s).seq, (cmdEnv h s).session, c.opcode, (cmdEnv h s).txnId, .accepted, false, false,
    (cmdEnv h s).tag, s.stitch.count, 0⟩ s) = .done st r u := hrun
  simp only [runCmd, hrun', ctl_next]
  set u1 := journalFinal (cmdEnv h s).seq st r (if (decide (c.opcode = 72) && decide (st = .ok)) = true then some (BitVec.ofNat 16 r) else none) u
    with hu1
  have hring1 : ringOf h u1 = ringOf h u := rfl
  have hp := post_ring h.port.val h.ring.val st h.txnId h.tag (s.logs.seq + 1) r u1
  have hpo := post_ring_else h.port.val h.ring.val st h.txnId h.tag (s.logs.seq + 1) r u1
  have hpe := post_ring_eq h.port.val h.ring.val st h.txnId h.tag (s.logs.seq + 1) r u1
  set t1 := post (.ring h.port.val h.ring.val) st h.txnId h.tag (s.logs.seq + 1) r u1 with ht1
  have hbase : (ringOf h u).base = (ringOf h s).base := by rw [hring]
  have hloc : (ringOf h u).loc = (ringOf h s).loc := by rw [hring]
  have hslotw : (ringOf h u).slot = (ringOf h s).slot := by rw [hring]
  have hlog : (ringOf h u).log2n = (ringOf h s).log2n := by rw [hring]
  have hhead : (ringOf h u).head = (ringOf h s).head := by rw [hring]
  refine ⟨ctlPart s t1, rfl, ⟨?_, ?_, ?_, ?_⟩, ?_, ?_, ?_, ?_⟩
  · change (ringAt t1 h.port.val h.ring.val).head = _
    rw [hp.1]; exact congrArg (· + 1) hhead
  · have h2 := hp.2
    have e1 : ringAt u1 h.port.val h.ring.val = ringOf h u := rfl
    simp only [e1, ringSlots, slotBytes, hbase, hloc, hslotw, hlog, hhead] at h2
    unfold slotAfter
    simp only [ringSlots, slotBytes]
    refine Eq.trans ?_ (h2.trans ?_)
    · rfl
    · refine completionBytes_congr ?_ _ _ _ _ _
      change _ = t1.dev.unqualified
      rw [hpe]
  · change t1.logs.seq = _
    rw [hpe]; exact hq
  · change t1.logs.journal.head? = _
    rw [hpe]
    simp only [hu1, journalFinal, hj, taken, journalPut, cmdEnv]
    rw [List.take_succ_cons]
    by_cases h48 : c.opcode = 72 ∧ st = .ok
    · simp [h48]
    · have h48' : ¬ (c.opcode = 72 ∧ st = .ok) := h48
      have : (decide (c.opcode = 72) && decide (st = .ok)) = false := by simpa using h48'
      simp [this, h48']
  · rw [hpe]; rfl
  · change ringAt t1 h.port.val h.ring.val = _
    rw [hp.1]
    change { ringOf h u with head := (ringOf h u).head + 1 } = _
    rw [hhead]
  · intro a ha
    refine hpo.1 a ?_
    have e1 : ringAt u1 h.port.val h.ring.val = ringOf h u := rfl
    simp only [e1, ringSlots, slotBytes, hbase, hloc, hslotw, hlog, hhead]
    exact ha
  · exact hpo.2

/-- A command that is left to wait. -/
theorem hostCommand_later {h : Hdr} {c : HostCmd} {s u : State} {w : WaitFor}
    (hsp : slotRefused (headSlot s h.port.val h.ring.val) = none) (hready : s.dev.ready = true)
    (hslot : ringHas (ringOf h s) = true) (halone : ringWaits s h.port.val h.ring.val = false)
    (hpre : preCheck c (ringOf h s).slot.toNat (ringOf h s).opened h.rsv h.txn h.txnId (some (sessionNo h)) (cmdEnv h s) s = none)
    (hrun : c.run (cmdEnv h s) (taken h c.opcode s) = .later w u) (hring : ringOf h u = ringOf h s)
    (hj : u.logs.journal = (taken h c.opcode s).logs.journal) (hq : u.logs.seq = s.logs.seq + 1) (hw : u.waits = s.waits) :
    ∃ t, hostCommand h c s = .next t ∧ Waits h c.opcode w s t ∧
      t = { u with pending := s.pending, trust := s.trust, pins := s.pins, waits := t.waits } := by
  rw [hostCommand_runs hsp hready hslot halone hpre]
  have hrun' : c.run (cmdEnv h s) (journalPut ⟨(cmdEnv h s).seq, (cmdEnv h s).session, c.opcode, (cmdEnv h s).txnId, .accepted, false, false,
    (cmdEnv h s).tag, s.stitch.count, 0⟩ s) = .later w u := hrun
  simp only [runCmd, hrun', ctl_next]
  refine ⟨_, rfl, ⟨?_, ?_, ?_, ?_⟩, rfl⟩
  · simp [ctlPart, hw, cmdEnv]
  · change (ringOf h u).head = _
    rw [hring]
  · exact hq
  · change u.logs.journal.head? = _
    rw [hj]; simp [taken, journalPut, List.take_succ_cons]

/-- An untagged command that ends with OK and keeps its ring, the journal and SEQ as they were on taking it. -/
theorem untagged_ok {h : Hdr} {c : HostCmd} {s u : State} {r : Nat} (hr : Untagged c.gen h s) (href : c.refused s = false)
    (hb : c.badArgs (cmdEnv h s) s = false) (hrun : c.run (cmdEnv h s) (taken h c.opcode s) = .done .ok r u)
    (hring : ringOf h u = ringOf h s) (hj : u.logs.journal = (taken h c.opcode s).logs.journal)
    (hq : u.logs.seq = s.logs.seq + 1) :
    ∃ t, hostCommand h c s = .next t ∧ Answered h c.opcode .ok r s t ∧ t = { u with
      pending := s.pending, trust := s.trust, pins := s.pins
      logs := { u.logs with journal := t.logs.journal }, host := t.host, ports := t.ports } := by
  obtain ⟨t, t1, t2, t3, -⟩ := hostCommand_done hr.spelled hr.ready hr.slot hr.alone (preCheck_untagged hr href hb) hrun
    (by rw [hring]) hj hq
  exact ⟨t, t1, by simpa using t2, t3⟩

/-- A tagged command that ends with OK. -/
theorem tagged_ok {h : Hdr} {c : HostCmd} {x : Txn} {s u : State} {r : Nat} (hr : Tagged c.gen h x s) (hg : c.taggable = true)
    (href : c.refused s = false)
    (hb : c.badArgs (cmdEnv h s) s = false) (hrun : c.run (cmdEnv h s) (taken h c.opcode s) = .done .ok r u)
    (hring : ringOf h u = ringOf h s) (hj : u.logs.journal = (taken h c.opcode s).logs.journal)
    (hq : u.logs.seq = s.logs.seq + 1) :
    ∃ t, hostCommand h c s = .next t ∧ Answered h c.opcode .ok r s t ∧ t = { u with
      pending := s.pending, trust := s.trust, pins := s.pins
      logs := { u.logs with journal := t.logs.journal }, host := t.host, ports := t.ports } := by
  obtain ⟨t, t1, t2, t3, -⟩ := hostCommand_done hr.spelled hr.ready hr.slot hr.alone (preCheck_tagged hr hg href hb) hrun
    (by rw [hring]) hj hq
  exact ⟨t, t1, by simpa using t2, t3⟩

/-- An untagged command that is left to wait. -/
theorem untagged_later {h : Hdr} {c : HostCmd} {s u : State} {w : WaitFor} (hr : Untagged c.gen h s) (href : c.refused s = false)
    (hb : c.badArgs (cmdEnv h s) s = false) (hrun : c.run (cmdEnv h s) (taken h c.opcode s) = .later w u)
    (hring : ringOf h u = ringOf h s) (hj : u.logs.journal = (taken h c.opcode s).logs.journal)
    (hq : u.logs.seq = s.logs.seq + 1) (hw : u.waits = s.waits) :
    ∃ t, hostCommand h c s = .next t ∧ Waits h c.opcode w s t ∧
      t = { u with pending := s.pending, trust := s.trust, pins := s.pins, waits := t.waits } :=
  hostCommand_later hr.spelled hr.ready hr.slot hr.alone (preCheck_untagged hr href hb) hrun hring hj hq hw

end Sys2Proof.Machine
end

