-- ==== Sys2Proof/Laws/Memory.lean ====
section
/-! SUPPORT. Laws of memory: bytes written codeword by codeword, and buffers of commands. -/

namespace Sys2Proof.Machine

theorem putBytes_append (m : Tab Byte) (a : Nat) (xs ys : List Byte) :
    putBytes m a (xs ++ ys) = putBytes (putBytes m a xs) (a + xs.length) ys := by
  induction xs generalizing m a with
  | nil => rfl
  | cons x xs ih =>
    simp only [List.cons_append, putBytes, ih, List.length_cons]
    rw [show a + (xs.length + 1) = a + 1 + xs.length by omega]

/-- Writing the codewords of some bytes in order writes the bytes. -/
theorem putBytes_codewords (m : Tab Byte) (pa : Nat) (bs : List Byte) :
    (codewords pa bs).foldl (fun m p => putBytes m p.1 p.2) m = putBytes m pa bs := by
  have key : ∀ n, ((List.range n).map fun j =>
      let lo := max pa (32 * (pa / 32 + j))
      let hi := min (pa + bs.length) (32 * (pa / 32 + j + 1))
      (lo, (bs.drop (lo - pa)).take (hi - lo))).foldl (fun m p => putBytes m p.1 p.2) m =
      putBytes m pa (bs.take (32 * (pa / 32 + n) - pa)) := by
    intro n
    induction n with
    | zero =>
      have : 32 * (pa / 32 + 0) - pa = 0 := by omega
      simp only [this, List.range_zero, List.map_nil, List.foldl_nil, List.take_zero]; rfl
    | succ n ih =>
      rw [List.range_succ, List.map_append, List.foldl_append, ih]
      simp only [List.map_cons, List.map_nil, List.foldl_cons, List.foldl_nil]
      by_cases hle : bs.length ≤ 32 * (pa / 32 + n) - pa
      · have h1 : bs.drop (max pa (32 * (pa / 32 + n)) - pa) = [] := List.drop_eq_nil_iff.mpr (by omega)
        rw [h1, List.take_nil, List.take_of_length_le hle, List.take_of_length_le (by omega)]; rfl
      · have h2 : bs.take (32 * (pa / 32 + (n + 1)) - pa) = bs.take (32 * (pa / 32 + n) - pa) ++
            (bs.drop (32 * (pa / 32 + n) - pa)).take (32 * (pa / 32 + (n + 1)) - pa - (32 * (pa / 32 + n) - pa)) := by
          rw [← List.take_add]; congr 1; omega
        rw [h2, putBytes_append]
        have h3 : (bs.take (32 * (pa / 32 + n) - pa)).length = 32 * (pa / 32 + n) - pa := by
          rw [List.length_take]; omega
        rw [h3]
        have h4 : max pa (32 * (pa / 32 + n)) = pa + (32 * (pa / 32 + n) - pa) := by omega
        have h5 : max pa (32 * (pa / 32 + n)) - pa = 32 * (pa / 32 + n) - pa := by omega
        rw [h5, h4]
        congr 1
        have h6 : ∀ (xs : List Byte) (a b : Nat), (a = b ∨ (xs.length ≤ a ∧ xs.length ≤ b)) → xs.take a = xs.take b := by
          intro xs a b h
          rcases h with rfl | ⟨h, h'⟩
          · rfl
          · rw [List.take_of_length_le h, List.take_of_length_le h']
        refine h6 _ _ _ ?_
        simp only [List.length_drop]
        omega
  have h := key ((pa + bs.length + 31) / 32 - pa / 32)
  rw [List.take_of_length_le (by omega)] at h
  exact h

/-- Codewords that are all written leave what writing their bytes leaves. -/
theorem writeUntil_mem {xs : List (Nat × List Byte)} {s : State} (h : (writeUntil xs s).1 = true) :
    (writeUntil xs s).2.mem = xs.foldl (fun m p => putBytes m p.1 p.2) s.mem ∧
      (writeUntil xs s).2 = { s with mem := (writeUntil xs s).2.mem, bad := (writeUntil xs s).2.bad } := by
  induction xs generalizing s with
  | nil => exact ⟨rfl, rfl⟩
  | cons p rest ih =>
    obtain ⟨pa, bs⟩ := p
    rw [writeUntil] at h ⊢
    split at h
    · simp at h
    · next hm =>
      have := ih h
      refine ⟨this.1, this.2.trans ?_⟩
      rfl

/-- Whether codewords can be written depends on the uncorrectable words alone. -/
theorem writeUntil_congr {xs : List (Nat × List Byte)} {s s' : State} (h : s.bad = s'.bad) (hz : s.zeroBad = s'.zeroBad) :
    (writeUntil xs s).1 = (writeUntil xs s').1 := by
  induction xs generalizing s s' with
  | nil => rfl
  | cons p rest ih =>
    obtain ⟨pa, bs⟩ := p
    have hm : mergeUe s pa bs.length = mergeUe s' pa bs.length := by simp [mergeUe, ueAt, h, hz]
    rw [writeUntil, writeUntil, hm]
    split
    · rfl
    · exact ih (by simp [poke, h]) (by simp [poke, hz])

theorem bufWrite_congr {p : Nat} {b : BitVec 64} {bs : List Byte} {s s' : State} (h : s.bad = s'.bad)
    (hz : s.zeroBad = s'.zeroBad) :
    (bufWrite p b bs s).1 = (bufWrite p b bs s').1 := by
  unfold bufWrite; split
  · exact writeUntil_congr h hz
  · rfl

/-- A buffer that takes its bytes: memory or host memory holds them, and nothing else changes. -/
theorem bufWrite_eq {p : Nat} {b : BitVec 64} {bs : List Byte} {s : State} (h : (bufWrite p b bs s).1 = true) :
    (bufWrite p b bs s).2 = { s with
      mem := if bufPush b then putBytes s.mem (pushBase p + bufOff b) bs else s.mem
      bad := (bufWrite p b bs s).2.bad
      host := if bufPush b then s.host else putBytes s.host (p * 2 ^ 64 + bufOff b) bs } := by
  unfold bufWrite at *
  by_cases hp : bufPush b = true
  · simp only [hp, if_true] at *
    have := writeUntil_mem h
    rw [putBytes_codewords] at this
    rw [← this.1]; exact this.2
  · simp only [hp, if_false, Bool.false_eq_true, hostWrite]

theorem answer_ok {p : Nat} {b : BitVec 64} {bs : List Byte} {r : Nat} {s : State} (h : (bufWrite p b bs s).1 = true) :
    answer p b bs r s = .done .ok r (bufWrite p b bs s).2 := by
  unfold answer
  generalize bufWrite p b bs s = x at h ⊢
  obtain ⟨ok, t⟩ := x
  simp only at h; subst h; rfl

end Sys2Proof.Machine
end

