-- ==== Sys2Proof/Machine/Lands.lean ====
section
/-! DEFINITION. The land grid: what each of the 9,216 lands carries (R523 to R526, Tables 16.2 to 16.4). The events of
the pins themselves are commands (Pins.lean). -/

namespace Sys2Proof.Machine

/-- The sideband signals of Table 16.4; a bus names its bit. -/
inductive Signal where
  | tamperN | refclkP | refclkN | bootSrc (bit : Nat) | modRstN | warmRstN | haltN | alertN | thermtripN
  | stitchSyncIn | stitchSyncOut | tck | tms | tdi | tdo | trstN | mgmtScl | mgmtSda | bspiSck | bspiCsN
  | bspiIo (bit : Nat) | pspClk | pspCsN | pspWeN | pspD (bit : Nat)
deriving DecidableEq, Repr

/-- What a land carries. Link ports are numbered as in Table 13.1: DL0 to DL11, then HL0 and HL1. -/
inductive Land where
  | gnd
  | aux12
  | vbat
  /-- of the factory test field, unconnected on the board -/
  | test
  | signal (s : Signal)
  | tx (port lane : Nat) (pos : Bool)
  | rx (port lane : Nat) (pos : Bool)
deriving DecidableEq, Repr

/-- The port whose block holds a row at the left edge, and at the right edge (Table 16.2), by the row's group of 8. -/
def landPort (right : Bool) (row : Nat) : Option Nat :=
  let left := [none, some 0, some 1, some 2, some 12, none, none, some 6, some 7, some 8, none, none]
  let rgt := [none, some 3, some 4, some 5, none, none, none, some 9, some 10, some 11, some 13, none]
  ((if right then rgt else left).getD ((row - 1) / 8) none)

/-- The land of one lane at offset k from the edge (Table 16.3). -/
def laneLand (port lane k : Nat) : Land :=
  match k with
  | 1 => .tx port lane true
  | 2 => .tx port lane false
  | 5 => .rx port lane false
  | 6 => .rx port lane true
  | _ => .gnd

/-- A row of the sideband block (Table 16.4). -/
def sidebandRow (row : Nat) : List Land :=
  let sig := List.map Land.signal
  match row with
  | 41 | 42 => List.replicate 8 .aux12
  | 43 => [.vbat, .vbat, .signal .tamperN, .gnd, .signal .refclkP, .signal .refclkN, .gnd, .signal (.bootSrc 0)]
  | 44 => sig [.modRstN, .warmRstN, .haltN, .alertN, .thermtripN, .stitchSyncIn, .stitchSyncOut, .bootSrc 1]
  | 45 => sig [.tck, .tms, .tdi, .tdo, .trstN, .mgmtScl, .mgmtSda, .bspiSck]
  | 46 => sig [.bspiCsN, .bspiIo 0, .bspiIo 1, .bspiIo 2, .bspiIo 3, .pspClk, .pspCsN, .pspWeN]
  | 47 => sig ((List.range 8).map .pspD)
  | 48 => sig ((List.range 8).map fun b => .pspD (b + 8))
  | _ => []

/-- What the land row/column carries, both from 1 to 96; none: there is no such land (R523 to R526). -/
def landAt (row col : Nat) : Option Land :=
  if row < 1 || 96 < row || col < 1 || 96 < col then none
  else if 41 ≤ row && row ≤ 48 && col ≤ 8 then (sidebandRow row)[col - 1]?
  else if 49 ≤ row && row ≤ 52 && 41 ≤ col && col ≤ 56 then some .test
  else
    let k := if col ≤ 48 then col - 1 else 96 - col
    match landPort (48 < col) row with
    | some p => some (laneLand p ((row - 1) % 8) k)
    | none => some .gnd

/-- The quarter under which a land lies (R523). -/
def landQuarter (row col : Nat) : Nat := (if 48 < row then 2 else 0) + if 48 < col then 1 else 0

end Sys2Proof.Machine
end

