-- ==== Sys2Proof/WellFormed.lean ====
section
/-! DEFINITION. What makes a command well formed beyond the types of its operands. A command that is not well formed
spells nothing that a source of commands can send. -/

namespace Sys2Proof

/-- A finding names an address of the physical space (R41). -/
def Finding.wf : Finding → Bool
  | .clean => true
  | .corrected n => decide (n < 2 ^ 32)
  | .uncorrectable pa => decide (pa < 2 ^ 40)
  | .rowFailed row => decide (row < 2 ^ 15)

/-- A training ends at 4 or 8 lanes with a port of Table 13.1 and a RING of its field. -/
def TrainResult.wf : TrainResult → Bool
  | .failed => true
  | .noLock => true
  | .trained lanes _ peerPort peerRing delay =>
    (lanes == 4 || lanes == 8) && decide (peerPort < 14) && decide (peerRing < 128) && decide (delay < 2 ^ 32)

/-- A copied unit holds at most 256 B; ring slots come one at least; a record is whole. -/
def PeerMsg.wf : PeerMsg → Bool
  | .knotReq _ _ _ _ _ _ _ => true
  | .knotReply _ _ _ _ => true
  | .knotAck _ _ => true
  | .knotFault _ _ _ _ _ => true
  | .ringSlots _ slot slots => decide (slot < 65536) && !slots.isEmpty
  | .ringAck _ => true
  | .chanTail _ _ => true
  | .chanHead _ _ => true
  | .copyUnit _ _ bytes _ _ => decide (bytes.length ≤ 256) && !bytes.isEmpty
  | .copyAck _ _ => true
  | .deltaRecord _ bytes => !bytes.isEmpty
  | .recordAck _ _ => true
  | .resyncAsk _ _ _ => true
  | .digests _ _ _ _ _ => true
  | .beacon _ _ _ => true
  | .lost _ => true
  | .transit _ _ _ _ _ _ => true

/-- A well-formed command. -/
def Instr.wf : Instr → Bool
  | .deviceInfo _ _ _ => true
  | .openSession _ _ _ _ => true
  | .closeSession _ => true
  | .ctxCreate _ _ _ => true
  | .ctxDestroy _ _ => true
  | .memMap _ _ _ _ _ _ => true
  | .xlateResolve _ _ _ => true
  | .prickLoad _ _ _ _ _ _ _ => true
  | .prickUnload _ _ _ => true
  | .repeatWrite _ _ _ _ _ => true
  | .stitchSet _ _ _ => true
  | .run _ _ _ _ => true
  | .halt _ _ _ => true
  | .evictContext _ _ => true
  | .evictionScan _ => true
  | .scanOut _ _ => true
  | .scanIn _ _ => true
  | .chanCreate _ _ _ _ _ _ _ _ _ _ _ _ => true
  | .knotInit _ _ _ _ _ => true
  | .sweepBegin _ _ _ _ _ => true
  | .sweepCommit _ _ _ => true
  | .sweepRollback _ _ _ => true
  | .deltaConfigSet _ _ _ => true
  | .deltaConfigAck _ _ _ _ => true
  | .digestCompare _ _ _ _ _ => true
  | .peerAnswerTimeout _ => true
  | .syncDump _ _ _ _ => true
  | .txnBegin _ => true
  | .txnCommit _ _ => true
  | .txnRollback _ _ => true
  | .cfgGet _ _ _ => true
  | .cfgSet _ _ _ _ => true
  | .cfgPersist _ => true
  | .journalRead _ _ _ _ => true
  | .fwUpdate _ _ _ => true
  | .attest _ _ _ => true
  | .telemetry _ _ _ _ _ _ => true
  | .debugMode _ _ => true
  | .resetWarm _ _ => true
  | .resetContext _ _ => true
  | .resetHoop _ _ => true
  | .batch _ _ _ _ => true
  | .pmDoorbell _ _ => true
  | .commandRingTail _ _ _ => true
  | .commandRingEnable _ _ word => word.getLsbD 0
  | .commandRingDisable _ _ word => !word.getLsbD 0
  | .eventRingEnable _ word => word.getLsbD 0
  | .registerWrite _ _ wide value => wide || decide (value.toNat < 2 ^ 32)
  | .cmdAccepted _ => true
  | .txnTimeout _ => true
  | .pushWindowRead _ _ _ => true
  | .pushWindowWrite _ _ wide value => wide || decide (value.toNat < 2 ^ 32)
  | .bspiWrite addr data => decide (addr.toNat + data.length ≤ 2 ^ 16)
  | .bspiRead addr count => decide (addr.toNat + count ≤ 2 ^ 16)
  | .pspWrite _ _ => true
  | .pspRead _ _ => true
  | .bar2Read _ addr count => decide (addr.toNat + count ≤ 2 ^ 40)
  | .bar2Write _ addr data => decide (addr.toNat + data.length ≤ 2 ^ 40)
  | .recoveryDoorbell _ _ => true
  | .pldmRequestUpdate _ _ => true
  | .pldmSensorRead _ => true
  | .mgmtAddrApply => true
  | .stitchBoundary => true
  | .stitchSyncOutAssert _ => true
  | .stitchSyncInEdge _ _ => true
  | .stitchBeacon _ _ _ remaining => decide (remaining < 2 ^ 32)
  | .stitchSyncLost => true
  | .thermalEval temps => temps.length == 8
  | .powerSample _ => true
  | .entryStart _ _ => true
  | .reconfStart _ _ => true
  | .sweepStart _ _ => true
  | .outAtReached _ _ => true
  | .deadline _ _ => true
  | .forcedStopComplete _ _ => true
  | .runComplete _ _ => true
  | .contextTeardown _ => true
  | .nop _ => true
  | .skipz _ => true
  | .wload _ => true
  | .wloadComplete _ => true
  | .wskip _ => true
  | .pass _ => true
  | .passRow _ => true
  | .drain _ => true
  | .drainRow _ => true
  | .mFence _ => true
  | .vopArith _ => true
  | .vopConv _ => true
  | .vopTrans _ => true
  | .vopLns _ => true
  | .vopCmp _ => true
  | .vopPred _ => true
  | .vopRed _ => true
  | .vopPerm _ => true
  | .vopCmpx _ => true
  | .vopInt _ => true
  | .vopRand _ => true
  | .chain _ => true
  | .vld _ => true
  | .vst _ => true
  | .cload _ => true
  | .cevict _ => true
  | .qioIn _ => true
  | .qioOut _ => true
  | .xopSet _ => true
  | .xopShlor _ => true
  | .xopIter _ => true
  | .xopAdd _ => true
  | .flagrd _ => true
  | .vFence _ => true
  | .st _ => true
  | .ld _ => true
  | .aadd _ => true
  | .aswap _ => true
  | .winArm _ => true
  | .winWait _ => true
  | .aFence _ => true
  | .windowToken _ _ => true
  | .sstart _ => true
  | .swait _ => true
  | .phaseCompute _ => true
  | .phaseOut _ => true
  | .bFence _ => true
  | .phaseAdvance _ _ => true
  | .tokenDeliver _ _ _ _ _ => true
  | .creditReturn _ _ _ => true
  | .shuttleSelect _ => true
  | .shuttleMerge _ => true
  | .shuttleFilter _ => true
  | .shuttleRepeat _ => true
  | .shuttleCounted _ => true
  | .shuttleSpill _ => true
  | .gatherContribution _ _ => true
  | .gatherSlotForward _ _ => true
  | .knotRequest _ _ => true
  | .knotFill _ => true
  | .knotTake _ => true
  | .knotPeek _ => true
  | .knotArrive _ => true
  | .knotDrain _ => true
  | .knotReply _ => true
  | .knotRetry _ _ => true
  | .channelSend _ _ => true
  | .channelNotify _ => true
  | .channelRecv _ _ => true
  | .headReturn _ => true
  | .loaderRequest _ => true
  | .copyRequest _ => true
  | .copyWrite _ => true
  | .copyDone _ => true
  | .cordonnetTransfer _ => true
  | .streamIssue _ _ => true
  | .streamReadData _ _ => true
  | .streamWriteAck _ _ => true
  | .mergeTimeout _ _ => true
  | .requestPromote _ _ => true
  | .tlbWalk _ _ => true
  | .peerTokenReceive _ _ => true
  | .peerTokenSend _ _ => true
  | .accumulateWrite _ => true
  | .directionWrite _ => true
  | .hbmPartialWrite _ => true
  | .serviceWrite addr data => decide (addr.toNat + data.length ≤ 2 ^ 40)
  | .hbmScrub _ finding => finding.wf
  | .bistWindow _ _ _ finding => finding.wf
  | .darningOwnBlock _ _ => true
  | .darningReplicaBlock _ _ => true
  | .darningFrozenBlock _ _ => true
  | .lambPass2 _ => true
  | .sweepRollbackRestore _ => true
  | .deltaRingWrite _ _ => true
  | .deltaInboxReceive _ => true
  | .replicaResync _ _ _ => true
  | .bobbinPrefetch _ _ => true
  | .bobbinLoad _ => true
  | .loadCommit _ => true
  | .linkTrain _ result => result.wf
  | .linkRetrain _ _ => true
  | .flitReceive _ _ _ _ flit => flit.messages.all (fun m => m.2.wf) && flit.credits.all (fun c => decide (c.2.2 ≤ 1024))
  | .flitReplay _ _ => true
  | .linkDelayMeasure _ _ => true
  | .linkDiscard _ => true
  | .lostNotice _ => true
  | .hostLinkRetrain _ => true
  | .haltNFall => true
  | .alertRelease => true
  | .coldReset => true
  | .warmReset _ => true
  | .tamperNLow _ => true
  | .vbatLow => true
  | .auxRailLoss => true
  | .dormantEnter => true
  | .dormantExit => true
  | .inputOvervoltage => true
  | .thermtrip => true
  | .hoopSleepEnter _ => true
  | .hoopExit _ _ => true
  | .hoopExitComplete _ => true
  | .keyprovStatus => true
  | .keyprovFuseProgram _ _ => true
  | .keyprovBbramWrite _ _ => true
  | .keyprovBbramZeroise _ _ => true
  | .keyprovRevokeKey _ _ => true
  | .tapReset => true
  | .idcode => true
  | .samplePreload _ => true
  | .extest => true
  | .extestPulse => true
  | .extestTrain => true
  | .highz => true
  | .clamp => true
  | .bypass ir => !([0x01, 0x02, 0x03, 0x04, 0x05, 0x06, 0x07, 0x40].contains ir.toNat)
  | .haltNRise => true
  | .resetRelease _ _ => true
  | .inputWithinLimits => true
  | .chanRingReport _ _ => true
  | .chanFaulted _ => true
  | .digestExchange _ _ _ _ => true
  | .fwUpdateDone => true
  | .fuseProgramDone => true
  | .mctpEidAssign _ => true

end Sys2Proof
end

