-- ==== Sys2Proof/Tests/Slice0.lean ====
section
/-! SUPPORT. The model's own tests: ill-formed terms, worked values of the spec, and for each statement concrete states and
operands that meet its hypotheses. -/

set_option Elab.async false

namespace Sys2Proof.Tests

open Sys2Proof Sys2Proof.Machine

/-! ## Ill-formed commands are refused, one for each check -/

/-- A header of a plain command of port 0, ring 0. -/
def hdr0 : Hdr := ⟨0, 0, false, 0, 7, false⟩

theorem test_wf_findings :
    (Instr.hbmScrub 0 (.corrected (2 ^ 32))).wf = false ∧ (Instr.hbmScrub 0 (.uncorrectable (2 ^ 40))).wf = false ∧
      (Instr.bistWindow 0 0 0 (.rowFailed (2 ^ 15))).wf = false ∧ (Instr.hbmScrub 0 .clean).wf = true := by decide

theorem test_wf_training :
    (Instr.linkTrain 0 (.trained 5 0 0 0 0)).wf = false ∧ (Instr.linkTrain 0 (.trained 8 0 14 0 0)).wf = false ∧
      (Instr.linkTrain 0 (.trained 8 0 0 128 0)).wf = false ∧ (Instr.linkTrain 0 (.trained 8 0 0 0 (2 ^ 32))).wf = false ∧
      (Instr.linkTrain 0 (.trained 4 0 13 127 450)).wf = true := by decide

theorem test_wf_messages :
    (Instr.flitReceive 0 true 0 0 ⟨true, 0, [(0, .ringSlots 0 65536 [0])], []⟩).wf = false ∧
      (Instr.flitReceive 0 true 0 0 ⟨true, 0, [(0, .ringSlots 0 0 [])], []⟩).wf = false ∧
      (Instr.flitReceive 0 true 0 0 ⟨true, 0, [(0, .copyUnit 0 0 [] 0 0)], []⟩).wf = false ∧
      (Instr.flitReceive 0 true 0 0 ⟨true, 0, [(0, .copyUnit 0 0 (List.replicate 257 0) 0 0)], []⟩).wf = false ∧
      (Instr.flitReceive 0 true 0 0 ⟨true, 0, [(0, .deltaRecord 0 [])], []⟩).wf = false ∧
      (Instr.flitReceive 0 true 0 0 ⟨true, 0, [(0, .chanTail 0 0), (1, .copyAck 0 0)], [(3, 1, 8)]⟩).wf = true := by decide +kernel

theorem test_wf_descriptors :
    (Instr.commandRingEnable 0 0 0).wf = false ∧ (Instr.commandRingDisable 0 0 1).wf = false ∧
      (Instr.eventRingEnable 0 0).wf = false ∧ (Instr.registerWrite 0 0 false 0x100000000).wf = false ∧
      (Instr.pushWindowWrite 0 0 false 0x100000000).wf = false := by decide

theorem test_wf_ranges :
    (Instr.bspiWrite 0xFFFF [0, 0]).wf = false ∧ (Instr.bspiRead 0xFFFF 2).wf = false ∧
      (Instr.bar2Read 0 0xFFFFFFFFFF 2).wf = false ∧ (Instr.bar2Write 0 0xFFFFFFFFFF [0, 0]).wf = false ∧
      (Instr.serviceWrite 0xFFFFFFFFFF [0, 0]).wf = false ∧ (Instr.stitchBeacon 0 0 0 (2 ^ 32)).wf = false ∧
      (Instr.thermalEval [50]).wf = false ∧ (Instr.bypass 0x40).wf = false ∧ (Instr.bypass 0xFF).wf = true := by decide

/-! ## Worked values of the spec -/

/-- Round to nearest even. -/
def rne : Rnd := ⟨0, 0⟩

/-- Table 02.9, LNS16 rows, whichever way the model's free bit rounds a tie within the log's error. -/
theorem test_lns16_samples : ∀ p : Bool,
    toLns16 rne p (decLin fp32 0x3F800000) = (0x0000, 0) ∧ toLns16 rne p (decLin fp32 0x40400000) = (0x0196, fInexact) ∧
      toLns16 rne p (decLin fp32 0xBEC00000) = (0xFE96, fInexact) ∧
      toLns16 rne p (decLin fp32 0x1F800000) = (0x4000, fUnderflow + fInexact) := by decide +kernel

/-- Table 02.9, FP8 rows: 300 and 500. -/
theorem test_fp8_samples :
    roundLin e4m3 rne false false 300 0 = (0x79, fInexact) ∧ roundLin e5m2 rne false false 300 0 = (0x5D, fInexact) ∧
      roundLin e4m3 rne true false 500 0 = (0x7E, fOverflow + fInexact) ∧
      roundLin e4m3 rne false false 500 0 = (0x7F, fOverflow + fInexact) := by decide +kernel

/-- Table 02.10: 6.0, -0.5, 0, 1.5, and 0.001 and 0.00001 as FP32 holds them; the bias is -5. -/
def sampleBlock : List Val :=
  [0x40C00000, 0xBF000000, 0, 0x3FC00000, 0x3A83126F, 0x3727C5AC].map (decLin fp32)

theorem test_block_bias : blockBias sampleBlock = (-5, false) := by decide +kernel

theorem test_block_codes : ∀ p : Bool, sampleBlock.map (encLns8 rne p (-5) false) =
    [(0x3D, fInexact), (0xA0, 0), (0x40, 0), (0x2D, fInexact), (0x58, fInexact), (0x40, fLogsat + fInexact)] := by
  decide +kernel

/-- The M tile's product of LNS16 0x0196 and BF16 -0.375: 6,496 - 5,796 = 700, negative (02, after Table 02.10). -/
theorem test_product_logs : product (decLns16 0x0196) (decLin bf16 0xBEC0) = .fin true 700 := by decide +kernel

/-- R43: the M tile at C23, row 5 of H6. -/
theorem test_weight_slice : wsBase (tileNo 6 23 5) = 0xC355000000 := by decide +kernel

/-- The relocation of the example of 06: context 3, C2 row 6 of H4. -/
def relocState : State := { State.reset with ctxs := [(3, { Ctx.reset with st := .idle, relocWs := [(4, 1024#32 + 16#32 * 4096#32)] })] }

theorem test_reloc_example :
    wsAddr relocState 3 (tileNo 4 2 6) 36736 (imageSize 1 true) = some 0xC206408F80 ∧
      wsAddr relocState 3 (tileNo 4 2 6) 102656 (imageSize 1 true) = none ∧ imageSize 1 true = 5248 := by decide +kernel

/-- The stack of the example of 07, and the fault-dump area of context 4 (15). -/
theorem test_stack_and_dump : stackOf 0x3049000000 = 2 ∧ faultDumpBase 4 = 0x2FF1000000 := by decide +kernel

/-- Module 1,935 of the torus of 16 x 24 x 32: its enabled links with the RING values of that torus. -/
def torusState : State :=
  { State.reset with
    dev := { Dev.reset with moduleId := 1935 }
    links := (List.range 12).map fun p => (p, Link.reset (BitVec.ofNat 64
      (1 + 4 * ([1, 3, 5, 2, 4, 6, 2, 4, 6, 1, 3, 5].getD p 0) + 32 * ([16, 24, 32].getD ((([1, 3, 5, 2, 4, 6, 2, 4, 6, 1, 3, 5].getD p 0) - 1) / 2) 1)))) }

/-- The worked example of 13: to module 2,289 the first direction is X+, by DL0 from Q0 and DL9 from Q3. -/
theorem test_routes : firstRole torusState 2289 = some 1 ∧ preferredPort torusState 0 2289 = some 0 ∧
    preferredPort torusState 3 2289 = some 9 := by decide +kernel

/-- The recovery example of 12: the RESULT of the OPEN that is journalled as SEQ 90,116 on session 0. -/
def crashState : State :=
  { State.reset with
    logs := { Logs.reset with seq := 90115 }
    txns := [⟨7, some 0, 0, false, 0, [], [], false⟩]
    ports := [(0, { Port.reset with rings := [(0, { Ring.reset with en := true, loc := true, slot := 2, log2n := 3, tail := 1 })], ringArea := [(0, 1)] })] }

theorem test_recovering_open :
    (match exec (.openSession ⟨0, 0, false, 0, 1, false⟩ 2 1 0) crashState with
      | .next t => decide (bytesAt (portAt t 0).ringArea 0 24 = completionBytes t .ok 0 1 90116 0x160040000) && (ringAt t 0 0).opened
      | _ => false) = true := by decide +kernel

/-- Thermal duty (16, R328): at 102.9 degrees the level of every Hoop rises to 1 and THERMAL_DUTY_ENTER is raised. -/
theorem test_thermal_duty :
    (match exec (.thermalEval [102, 102, 102, 102, 102, 102, 102, 102]) State.reset with
      | .next t => decide (Tab.get 0 t.stitch.duty 0 = 1) && t.logs.raised.any fun e => decide (e.code = 0x22)
      | _ => false) = true := by decide +kernel

/-- R524's example: RX_P of lane 5 of DL4 is land 22/90. -/
theorem test_land_of_dl4_lane_5 : Machine.landAt 22 90 = some (.rx 4 5 true) := by decide

/-- R526: 8,192 lands are GND beside those of the lanes and of the sideband block; 448 and 2 stand there. -/
theorem test_ground_lands :
    ((List.range 96).map fun r => ((List.range 96).filter fun c =>
      Machine.landAt (r + 1) (c + 1) == some .gnd).length).sum = 8192 + 448 + 2 := by decide +kernel

/-! ## States that meet the hypotheses of the statements

Helpers: a reset module whose port 0, ring 0 holds an open session at generation 3 with one slot to serve, and contexts,
tiles and Hoops put into it. -/

/-- A table of one entry. -/
def one {β : Type} (k : Nat) (v : β) : Tab β := [(k, v)]

/-- A ring of the window with 128-byte slots, open at generation 3, with one slot to serve. -/
def openRing : Ring := { Ring.reset with en := true, opened := true, loc := true, slot := 3, gen := 3, log2n := 3, tail := 1 }

/-- The state with that ring as ring 0 of port 0; its slot holds an OPCODE of Table 12.9. -/
def served (s : State) : State := { s with ports := one 0 { Port.reset with rings := one 0 openRing, ringArea := one 0 1 } }

/-- The reset module with the ring. -/
def s0 : State := served State.reset

/-- A context in a state. -/
def ctxIn (st : CtxState) : Ctx := { Ctx.reset with st := st }

/-- The module with the ring and context 3 in a state. -/
def withCtx (x : Ctx) : State := { s0 with ctxs := one 3 x }

theorem untagged_of {gen : Nat} {h : Hdr} {s : State}
    (x : s.dev.ready = true ∧ ringHas (ringOf h s) = true ∧ ringWaits s h.port.val h.ring.val = false ∧
      gen ≤ (ringOf h s).slot.toNat ∧ (ringOf h s).opened = true ∧ (s.dev.restricted = false ∨ gen ≤ 1) ∧
      h.rsv = false ∧ h.txn = false ∧ h.txnId = 0 ∧ (slotRefused (headSlot s h.port.val h.ring.val)).isNone = true) : Untagged gen h s :=
  let y := x.2.2.2.2.2.2.2
  ⟨⟨x.1, x.2.1, x.2.2.1, x.2.2.2.1, x.2.2.2.2.1, x.2.2.2.2.2.1, x.2.2.2.2.2.2.1, Option.isNone_iff_eq_none.mp y.2.2⟩, y.1, y.2.1⟩

theorem fits_of {h : Hdr} {buf : BitVec 64} {n : Nat} {bs : List Byte} {s : State}
    (a : bufBad h.port.val buf n = false) (b : (bufWrite h.port.val buf bs s).1 = true) : Fits h buf n bs s := ⟨a, b⟩

/-- An outcome that is a next state with a property. -/
def nextWith (o : Out) (p : State → Bool) : Bool := match o with
  | .next u => p u
  | _ => false

theorem next_of {o : Out} {p : State → Bool} (h : nextWith o p = true) : ∃ u, o = .next u ∧ p u = true := by
  cases o with
  | next u => exact ⟨u, rfl, h⟩
  | fault f => cases h
  | refused r => cases h

/-- A result that is not an error, with a property. -/
def okWith {ε α : Type} (o : Except ε α) (p : α → Bool) : Bool := match o with
  | .ok u => p u
  | .error _ => false

theorem ok_of {ε α : Type} {o : Except ε α} {p : α → Bool} (h : okWith o p = true) : ∃ u, o = .ok u ∧ p u = true := by
  cases o with
  | ok u => exact ⟨u, rfl, h⟩
  | error e => cases h

/-! ### ReadingCommandsFillTheirBuffer -/

theorem witness_device_info : Untagged 1 hdr0 s0 ∧
    Fits hdr0 0x1000 8192 ((infoBlock (taken hdr0 0x01 s0)).take 8192) s0 ∧
    Fits hdr0 (1#64 <<< 63) 16 ((infoBlock (taken hdr0 0x01 s0)).take 16) s0 :=
  ⟨untagged_of (by decide +kernel), fits_of (by decide) rfl, fits_of (by decide) (by decide +kernel)⟩

theorem witness_journal_read : Untagged 1 hdr0 s0 ∧
    Fits hdr0 0x1000 (32 * 8) ((((s0.logs.journal.take 8191).reverse.filter fun x =>
      decide (0 ≤ x.seq) && decide (x.seq ≠ s0.logs.seq + 1)).take 8).flatMap entryBytes) s0 :=
  ⟨untagged_of (by decide +kernel), fits_of (by decide) rfl⟩

theorem witness_attest : ∃ nonce, Untagged 1 hdr0 s0 ∧ reportLen s0 ≤ (0x20000#32).toNat ∧ bufRead 0 0x1000 32 s0 = .ok nonce ∧
    Fits hdr0 0x1000 0x20000 (attestReport (taken hdr0 0x61 s0) nonce) s0 :=
  ⟨_, untagged_of (by decide +kernel),
    by have : (certChain s0).length ≤ 65536 := List.length_take_le 65536 (Config.certChain false)
       show 4736 + (certChain s0).length ≤ 131072
       omega,
    rfl, fits_of (by decide) rfl⟩

theorem witness_telemetry : Untagged 1 hdr0 (withCtx (ctxIn .idle)) ∧ badCtx 3 = false ∧ ctxSt (withCtx (ctxIn .idle)) 3 ≠ .free ∧
    (∀ bs, Fits hdr0 0x1000 4096 bs (withCtx (ctxIn .idle))) :=
  ⟨untagged_of (by decide +kernel), by decide, by decide, fun _ => fits_of (by decide) rfl⟩

/-! ### SessionsTransactionsAndItemsAct -/

/-- The module with an open transaction 7 of session 0 that stages a run count. -/
def txn7 : Txn := ⟨7, some 0, 0, false, 0, [.run 3 1 0], [], false⟩
def withTxn : State := { withCtx (ctxIn .idle) with txns := [txn7] }

/-- The module whose ring is enabled with 32-byte slots and not open, with transaction 7 left of session 5. -/
def closedRing : State :=
  { State.reset with
    ports := one 0 { Port.reset with rings := one 0 { openRing with opened := false, slot := 2, gen := 0 }, ringArea := one 0 2 }
    txns := [⟨7, some 5, 5, false, 0, [], [], false⟩] }

theorem witness_open : ∀ oflags : Fin 2, closedRing.dev.ready = true ∧ ringHas (ringOf hdr0 closedRing) = true ∧
    ringWaits closedRing 0 0 = false ∧ 1 ≤ (ringOf hdr0 closedRing).slot.toNat ∧ oflags.val ≤ 1 ∧ (5#8).toNat ≤ 31 ∧
    bitAt (mbGens closedRing) ((2#8).toNat - 1) = true ∧ (ringOf hdr0 closedRing).slot.toNat = (2#8).toNat ∧
    (slotRefused (headSlot closedRing 0 0)).isNone = true ∧ (ringOf hdr0 closedRing).opened = false := by decide +kernel

theorem witness_close : Untagged 1 hdr0 withTxn ∧ (withTxn.txns.map (·.id)).Nodup :=
  ⟨untagged_of (by decide +kernel), by decide⟩

theorem witness_txns : Untagged 2 hdr0 withTxn ∧ withTxn.txns.length < txnLimit ∧ txnAt withTxn 7 = some txn7 ∧
    txn7.session = some (sessionNo hdr0) ∧ txn7.committing = false ∧ atPassed withTxn txn7 = false ∧
    (withTxn.txns.map (·.id)).Nodup :=
  ⟨untagged_of (by decide +kernel), by decide +kernel⟩

theorem witness_items : Untagged 2 hdr0 (withCtx (ctxIn .idle)) ∧
    ((itemTxn 0x60).isSome = true ∧ itemLoc 0x60 0 = some (0, 0)) ∧ ((itemTxn 0x10).isSome = true ∧ itemLoc 0x10 31 = some (3, 7)) ∧
    (itemTxn 0x01 = some .optional ∧ itemLoc 0x01 3 = some (3, 0) ∧ valueFits (withCtx (ctxIn .idle)) 0x01 0 63 = true) ∧
    (itemTxn 0x50 = some .optional ∧ itemLoc 0x50 13 = some (0, 13)) ∧ ctxSt (withCtx (ctxIn .idle)) 3 ≠ .free ∧
    ((1#64).toNat < 2 ∧ (16383#64).toNat < 2 ^ 14 ∧ (0xFF7F#64).toNat < 2 ^ 16 ∧ (0xFF7F#64).getLsbD 7 = false) :=
  ⟨untagged_of (by decide +kernel), by decide +kernel⟩

/-- An image of kind SF with no body, under key 0: what FW_UPDATE verifies when the signature does. -/
theorem witness_fw_update (hv : ∀ k b g, Config.falconVerify k b g = true) :
    ∃ s img, Untagged 1 hdr0 s ∧ s.flash.writing = none ∧ bufRead 0 (1#64 <<< 63) 1344 s = .ok img ∧ fwReason s 0 img = none := by
  refine ⟨{ s0 with mem := putBytes [] 0x2FE0000000 (manufactureImage 0) }, manufactureImage 0, untagged_of (by decide +kernel),
    rfl, ?_, ?_⟩
  · have h : okWith (bufRead 0 (1#64 <<< 63) 1344 { s0 with mem := putBytes [] 0x2FE0000000 (manufactureImage 0) })
        (fun bs => decide (bs = manufactureImage 0)) = true := by decide +kernel
    obtain ⟨u, hu, hp⟩ := ok_of h
    rw [hu, of_decide_eq_true hp]
  · simp only [fwReason, hv]
    decide +kernel

theorem witness_debug_and_reset : Untagged 2 hdr0 s0 ∧ Untagged 1 hdr0 s0 ∧ s0.trust.secure = false ∧ s0.trust.debugOff = false ∧
    stitching s0 = true ∧ s0.waits = [] ∧ (∀ h < 8, (hoopAt s0 h).loads = []) ∧ s0.stitch.placed = none :=
  ⟨untagged_of (by decide +kernel), untagged_of (by decide +kernel), by decide +kernel⟩

/-! ### ContextsRunHaltAndTearDown -/

/-- Context 3 is ACTIVE with a run of entry 0 on column 1 of Hoop 0, whose column record names it. -/
def runOn : RunSt := ⟨0, 3, 1, 1, 0x101, .running, .input, false, false⟩
def activeState : State :=
  { withCtx { ctxIn .active with runLeft := none } with
    hoops := one 0 { Hoop.reset with motifs := one 1 (3, 0x101), runs := [runOn] } }

theorem witness_ctx_create : Untagged 2 hdr0 s0 ∧ badCtx 3 = false ∧ bufBad 0 0x1000 256 = false ∧
    bufRead 0 0x1000 256 s0 = .ok (bytesAt [] 0x1000 256) ∧ blockFits s0 3 (bytesAt [] 0x1000 256) = true ∧ ctxSt s0 3 = .free ∧
    s0.waits = [] ∧ stitching s0 = true ∧ (∀ h < 8, (hoopAt s0 h).loads = []) ∧ s0.stitch.placed = none :=
  ⟨untagged_of (by decide +kernel), by decide, by decide, rfl, by decide +kernel, by decide, rfl, by decide +kernel⟩

theorem witness_run : Untagged 2 hdr0 activeState ∧ activeState.dev.unqualified = false ∧
    activeState.stitch.count.toNat < (9#64).toNat ∧ ctxSt activeState 3 = .active ∧ activeState.pins.haltN = true ∧
    (sweepAt activeState 3).st = .none :=
  ⟨untagged_of (by decide +kernel), by decide +kernel⟩

theorem witness_scan_in : Untagged 2 hdr0 (withCtx (ctxIn .evicted)) ∧ ctxSt (withCtx (ctxIn .evicted)) 3 = .evicted :=
  ⟨untagged_of (by decide +kernel), by decide +kernel⟩

theorem witness_halt : Untagged 1 hdr0 activeState ∧ badCtx 3 = false ∧ haltable activeState 3 = true ∧
    (ctxAt activeState 3).latched = none ∧
    scanFits (landAll (regionsOf activeState 3) (taken hdr0 0x29 activeState)) (regionsOf activeState 3) = true :=
  ⟨untagged_of (by decide +kernel), by decide +kernel⟩

theorem witness_halt_all : Untagged 1 hdr0 activeState ∧ activeState.net.writes = [] ∧
    (∀ c, (ctxAt activeState c).ending = false) ∧
    scanFits (landAll ((softCtxs.filter (haltable activeState)).flatMap (regionsOf activeState)) (taken hdr0 0x29 activeState))
      ((softCtxs.filter (haltable activeState)).flatMap (regionsOf activeState)) = true :=
  ⟨untagged_of (by decide +kernel), rfl, fun c => by by_cases h : c = 3 <;> simp [ctxAt, activeState, withCtx, one, Tab.get, ctxIn, Ctx.reset, h],
    by decide +kernel⟩

theorem witness_halt_none : Untagged 1 hdr0 (withCtx (ctxIn .idle)) ∧
    ∀ c ∈ haltTargets 0xFF, haltable (withCtx (ctxIn .idle)) c = false ∧ (ctxAt (withCtx (ctxIn .idle)) c).latched = none :=
  ⟨untagged_of (by decide +kernel), by decide +kernel⟩

/-- The active context with a BOUND fault latched. -/
def latchedState : State := faultAt 3 .bound noItem activeState

theorem witness_teardown : (ctxAt latchedState 3).latched = some ⟨.bound, 255, 255, 255, 65535, 0, 0, 0, .none, false⟩ := by
  decide +kernel

/-! ### ResetsAndScansEmptyTheRegions -/

/-- Context 3 is IDLE and column 1 of Hoop 0 records its motif. -/
def idleState (st : CtxState) : State := { withCtx (ctxIn st) with hoops := one 0 { Hoop.reset with motifs := one 1 (3, 0x101) } }

theorem witness_ctx_destroy : Untagged 2 hdr0 (idleState .idle) ∧ badCtx 3 = false ∧ ctxSt (idleState .idle) 3 = .idle ∧
    (sweepAt (idleState .idle) 3).st = .none := ⟨untagged_of (by decide +kernel), by decide +kernel⟩

theorem witness_reset_context : Untagged 1 hdr0 activeState ∧ badCtx 3 = false ∧ ctxSt activeState 3 ≠ .free ∧
    (sweepAt activeState 3).st = .none := ⟨untagged_of (by decide +kernel), by decide +kernel⟩

theorem witness_reset_hoop : Untagged 1 hdr0 activeState ∧ (0#8).toNat ≤ 7 := ⟨untagged_of (by decide +kernel), by decide⟩

theorem witness_scan_out : Untagged 2 hdr0 (idleState .idle) ∧ regionsOf (idleState .idle) 3 = [(0, 1, 1, 0x101)] ∧
    scanFits (landAll (regionsOf (idleState .idle) 3) (taken hdr0 0x2B (idleState .idle))) (regionsOf (idleState .idle) 3) = true ∧
    scanParity (landAll (regionsOf (idleState .idle) 3) (taken hdr0 0x2B (idleState .idle))) (regionsOf (idleState .idle) 3) = none :=
  ⟨untagged_of (by decide +kernel), by decide +kernel⟩

theorem witness_eviction_scan : (ctxAt (idleState .evicting) 3).st = .evicting ∧ (ctxAt (idleState .evicting) 3).latched = none ∧
    (ctxAt (idleState .evicting) 3).evictEnd = false ∧ runsOf (idleState .evicting) 3 = [] ∧
    scanFits (landAll (regionsOf (idleState .evicting) 3) (idleState .evicting)) (regionsOf (idleState .evicting) 3) = true ∧
    scanParity (landAll (regionsOf (idleState .evicting) 3) (idleState .evicting)) (regionsOf (idleState .evicting) 3) = none := by
  decide +kernel

/-! ### MemoryAndChannelCommandsAct -/

/-- Context 3 with the whole of A tiles and of HBM, a sync region of 64 bytes in its A tiles on Hoop 0, and 2 MiB mapped. -/
def memCtx : Ctx :=
  { ctxIn .idle with relocAs := one 0 (BitVec.ofNat 32 (256 * 256)), relocHbm := BitVec.ofNat 64 (2 ^ 20 * 2 ^ 27), syncAs := one 0 (BitVec.ofNat 32 (2 ^ 14)) }
def memState : State := withCtx memCtx
/-- Its page tables in the four copies: tables 1 and 2, and page 0 mapped to 0x200000, writable. -/
def mappedState : State :=
  { withCtx { memCtx with tables := [1, 2] } with
    mem := [0, 1, 2, 3].foldl (fun m q => putBytes (putBytes (putBytes m (tableAt q 3 0) (toLE 8 (pointer 3 1 q)))
      (tableAt q 3 1) (toLE 8 (pointer 3 2 q))) (tableAt q 3 2) (toLE 8 (leafEntry 0x200000 true))) [] }

/-- The same with page 1 mapped as well. -/
def mappedTwo : State :=
  { mappedState with
    mem := [0, 1, 2, 3].foldl (fun m q => putBytes m (tableAt q 3 2 + 8) (toLE 8 (leafEntry 0x400000 true))) mappedState.mem }

theorem map_ok {o : MapRes} (h : (match o with | .ok _ => true | _ => false) = true) : ∃ u, o = .ok u := by
  cases o with
  | ok u => exact ⟨u, rfl⟩
  | full => cases h
  | ue p s => cases h

theorem witness_mem_map_new : ∃ u, Untagged 2 hdr0 mappedState ∧ (0x200000#64).toNat % mfSize 1 = 0 ∧
    badPages 0x400000 1 (mfSize 1) = false ∧ ctxSt mappedState 3 ≠ .free ∧ changesMap mappedState 3 1 1 0x200000 = false ∧
    mapPages 3 1 1 0x200000 0x400000 (taken hdr0 0x12 mappedState) = .ok u := by
  obtain ⟨u, hu⟩ := map_ok (o := mapPages 3 1 1 0x200000 0x400000 (taken hdr0 0x12 mappedState)) (by decide +kernel)
  exact ⟨u, untagged_of (by decide +kernel), by decide +kernel, by decide +kernel, by decide +kernel, by decide +kernel, hu⟩

theorem witness_mem_map_change : ∃ u, Untagged 2 hdr0 mappedTwo ∧ mfUnmap 2 = true ∧ ctxSt mappedTwo 3 ≠ .free ∧
    changesMap mappedTwo 3 2 1 0x200000 = true ∧ underSweep mappedTwo 3 2 1 0x200000 = false ∧
    mapPages 3 2 1 0x200000 0 (taken hdr0 0x12 mappedTwo) = .ok u := by
  obtain ⟨u, hu⟩ := map_ok (o := mapPages 3 2 1 0x200000 0 (taken hdr0 0x12 mappedTwo)) (by decide +kernel)
  exact ⟨u, untagged_of (by decide +kernel), by decide +kernel, by decide +kernel, by decide +kernel, by decide +kernel, hu⟩

/-- A stream of the border tile C0, row 0 of Hoop 0 is parked under fault id 9. -/
def parkedState : State :=
  { withCtx (ctxIn .active) with
    hoops := one 0 { Hoop.reset with motifs := one 0 (3, 0x101) }
    tiles := one 0 { Tile.reset with b := { BTile.reset with streams := one 0 { Stream.reset with st := .parked, faultId := 9 } } } }

theorem witness_xlate_resolve : Untagged 2 hdr0 parkedState ∧ ctxSt parkedState 3 ≠ .free ∧
    parkedUnder parkedState 3 9 = some (0, 0) :=
  ⟨untagged_of (by decide +kernel), by decide +kernel, by decide +kernel⟩

theorem witness_chan_create : Untagged 2 hdr0 memState ∧ ctxSt memState 3 ≠ .free ∧ (chanAt memState 4095).st = .closed ∧
    ringFits memState 3 false 0 0 64 (64 * 2 ^ 4) = true ∧ (2047#32).toNat < 2 ^ 11 ∧ (8#32).toNat % 8 = (0#8).toNat ∧
    ringFits memState 3 true 0 0 0 (64 * 2 ^ 16) = true ∧ isSelvedge 1024 = true ∧ (16383#16).toNat < 2 ^ 14 :=
  ⟨untagged_of (by decide +kernel), by decide +kernel⟩

theorem witness_knot_init : Untagged 2 hdr0 memState ∧ (kaddrOf 7).bad = false ∧ (kaddrOf 7).remote = false ∧
    fld (0x8000000000000005#64).toNat 56 5 = 0 ∧ inSync memState 3 (kaddrOf 7) (kaddrOf 7).off = true ∧
    knotAt memState 3 0 (kaddrOf 7) true = .at_ 0xC400000038 ∧ mergeUe memState 0xC400000038 8 = none ∧
    Tab.get [] memState.net.waiters 0xC400000038 = [] :=
  ⟨untagged_of (by decide +kernel), by decide +kernel⟩

theorem witness_sync_dump : Untagged 2 hdr0 s0 ∧ dumpFits 0x2FD7C00000 32 = true ∧
    (let begins := toLE 1 0xFF ++ toLE 4 0 ++ [0xFF, 0xFF, 0xFF] ++ toLE 2 0xFFFF ++ toLE 6 0
     let u := taken hdr0 0x40 s0
     syncStop u 0xFF softCtxs begins = none ∧
      (writeUntil (codewords 0x2FD7C00000 (dumpBytes u 0 32 (syncItems u 0xFF softCtxs begins)).1) s0).1 = true) :=
  ⟨untagged_of (by decide +kernel), by decide +kernel, by decide +kernel⟩

/-! ### StagedCommandsAndPrickingsAreLoaded -/

/-- A header tagged with transaction 7, which context 3's module holds open. -/
def hdr7 : Hdr := ⟨0, 0, true, 7, 7, false⟩

/-- A state in which the transaction is open. -/
def tagState : State := { withTxn with ctxs := one 3 memCtx }

theorem witness_tagged : Tagged 2 hdr7 txn7 tagState := by
  refine ⟨⟨?_, ?_, ?_, ?_, ?_, ?_, ?_, ?_⟩, ?_, ?_, ?_, ?_⟩
  · decide +kernel
  · decide +kernel
  · decide +kernel
  · decide +kernel
  · decide +kernel
  · decide +kernel
  · decide +kernel
  · exact Option.isNone_iff_eq_none.mp (by decide +kernel)
  all_goals decide +kernel

/-- Whatever its open size, a staged change takes less than 256 bytes of a transaction's shadow state. -/
theorem shadow_le (xs : List Staged) : shadowOf xs ≤ 255 * xs.length := by
  induction xs with
  | nil => simp [shadowOf]
  | cons x xs ih =>
    have h : x.size ≤ 255 := by unfold Staged.size; omega
    simp only [shadowOf, List.map_cons, List.sum_cons, List.length_cons] at *
    omega

theorem room (a b : List Staged) (h : a.length + b.length ≤ 256) : shadowOf a + shadowOf b ≤ 65536 := by
  have := shadow_le a
  have := shadow_le b
  omega

theorem witness_staged_items :
    (itemTxn 0x10 = some .required ∧ itemLoc 0x10 24 = some (3, 0) ∧ setFits tagState (some 7) 0x10 24 0x1000 = true ∧
      ctxSt tagState 3 ≠ .free) ∧
    (itemTxn 0x20 = some .required ∧ itemLoc 0x20 (3 * 256 + 1) = some (3, 1) ∧ valueFits tagState 0x20 1 4194304 = true ∧
      setFits tagState (some 7) 0x20 (3 * 256 + 1) 4194304 = true ∧ (sweepAt tagState 3).st = .none) ∧
    (badCtx 3 = false ∧ tagState.dev.unqualified = false ∧ tagState.stitch.count.toNat < (1#64).toNat) ∧
    (18000 ≤ (18000#32).toNat ∧ (18000000#32).toNat ≤ 18000000) := by decide +kernel

theorem witness_staged_room : ∀ x ∈ [Staged.item 0x10 24 0x1000, .item 0x20 769 4194304, .run 3 1 1, .period 18000 0, .sweepCommit 3,
    .entry 7 127 1], shadowOf (replaced txn7.staged [x]) + shadowOf [x] ≤ 65536 := by
  intro x _
  refine room _ _ ?_
  have : (replaced txn7.staged [x]).length ≤ txn7.staged.length := List.length_filter_le _ _
  have : txn7.staged.length = 1 := rfl
  simp only [List.length_singleton]
  omega

theorem witness_staged_entries : ∃ bs, (7#8).toNat ≤ 7 ∧ (127#8).toNat + (1#8).toNat ≤ 128 ∧ bufBad 0 0x1000 (32 * 1) = false ∧
    bufRead 0 0x1000 (32 * 1) { tagState with host := one 0x1000 1 } = .ok bs ∧
    (∀ e ∈ entriesIn bs 1, entryReserved e = false ∧ enV e = true) :=
  ⟨hostRead { tagState with host := one 0x1000 1 } 0 0x1000 32, by decide, by decide, by decide, rfl, by decide +kernel⟩

/-- A plain image for column 1 of Hoop 0, MOTIF 0x101: REGION, CHECK and END. -/
def regionPacket : List Byte := toLE 1 1 ++ toLE 1 4 ++ toLE 6 0 ++ toLE 8 (8 + 256)
def imageBody : List Byte := regionPacket ++ toLE 4 4 ++ toLE 4 (crc32c regionPacket) ++ toLE 8 0x0F
def imageHeader (sig : Nat) : List Byte := padTo 64 (toLE 4 0x5052434B ++ toLE 2 1 ++ toLE 2 64 ++ toLE 4 sig ++ toLE 4 1 ++
  toLE 1 1 ++ toLE 1 0 ++ toLE 1 1 ++ toLE 1 1 ++ toLE 2 0 ++ toLE 2 0x101 ++ toLE 16 0 ++ toLE 4 32)
def imageState (sig : Nat) : State :=
  { withCtx (ctxIn .idle) with mem := putBytes [] 0x2FE0000000 (imageHeader sig ++ imageBody) }

theorem witness_prick_load : Untagged 2 hdr0 (imageState devSig) ∧ ctxSt (imageState devSig) 3 ≠ .free ∧
    (imageState devSig).dev.unqualified = false ∧
    okWith (match sourceRead (imageState devSig) 0 3 false 0 64 with | .ok b => .ok b | _ => .error 0)
      (fun b => decide (b = imageHeader devSig)) = true ∧
    headerStatus (imageState devSig) (imageHeader devSig) = .ok ∧ residentOf (imageState devSig) 3 0x101 = none ∧
    hdMotif (imageHeader devSig) = 0x101 ∧ hdSize (imageHeader devSig) = 96 ∧ hdKey (imageHeader devSig) = 0 ∧
    (storePlace (imageState devSig) (quarterOf (hdHoop (imageHeader devSig))) 96).isSome = true ∧
    okWith (match sourceRead (imageState devSig) 0 3 false 0 96 with | .ok b => .ok b | _ => .error 0)
      (fun b => decide (b = imageHeader devSig ++ imageBody)) = true ∧
    bodyStatus true (parseBody (imageHeader devSig) imageBody []) = .ok :=
  ⟨untagged_of (by decide +kernel), by decide +kernel⟩

/-- Its header fails when the signature is that of another stepping. -/
theorem witness_prick_header : Untagged 2 hdr0 (imageState 1) ∧ headerStatus (imageState 1) (imageHeader 1) = .wrongDevice :=
  ⟨untagged_of (by decide +kernel), by decide +kernel⟩

def prick3 : Pricking := ⟨3, 0x101, 0, 1, 1, false, 96, 0x2FC0000000, [], []⟩

theorem witness_prick_unload : Untagged 2 hdr0 { withCtx (ctxIn .idle) with pricks := [prick3] } ∧
    residentOf { withCtx (ctxIn .idle) with pricks := [prick3] } 3 0x101 ≠ none ∧
    prickInUse { withCtx (ctxIn .idle) with pricks := [prick3] } 3 0x101 = false :=
  ⟨untagged_of (by decide +kernel), by decide +kernel⟩

/-! ### SweepCommandsAct -/

/-- Context 3's page 0 of 1 GiB lies at physical 0 in every copy, writable; one OWN block of LNS16 in the slice of tile 0 of
Hoop 0, in a group of rule 1 with FP32 moments. -/
def sweepMem : List Host.Cell :=
  putBytes (putBytes ([0, 1, 2, 3].foldl (fun m q => putBytes (putBytes m (tableAt q 3 0) (toLE 8 (pointer 3 1 q)))
    (tableAt q 3 1) (toLE 8 (leafEntry 0 true))) []) 0x10000 (toLE 32 1)) 0x20000 (toLE 64 (1 + 6 * 2 ^ 11))

def sweepCtx (st : SweepState) : Ctx :=
  { memCtx with
    st := .active, tables := [1], relocWs := one 0 (BitVec.ofNat 32 (4096 * 4096))
    dn := [(1, 1), (2, 0x10000), (3, 0x20000), (4, 0x100000), (5, 0x200000), (6, 256), (7, 0x300000), (8, 0x400000), (9, 0x500000), (10, 0xC0000)]
    sweep := { Sweep.reset with st := st } }

def sweepState (st : SweepState) : State := { withCtx (sweepCtx st) with mem := sweepMem }

/-- Reading the tables of the sweep succeeds, with one valid block. -/
theorem witness_sweep_tables : ∃ gs ds, sweepTables (sweepState .none) 3 = (.ok gs, ds) ∧ ds ≠ [] ∧
    blocksOk (sweepState .none) 3 gs ds = true := by
  have h : (match sweepTables (sweepState .none) 3 with
    | (.ok gs, ds) => decide (ds ≠ []) && blocksOk (sweepState .none) 3 gs ds
    | _ => false) = true := by decide +kernel
  revert h
  cases e : sweepTables (sweepState .none) 3 with
  | mk a b =>
    cases a with
    | ok gs => intro h; simp only [Bool.and_eq_true, decide_eq_true_eq] at h; exact ⟨gs, b, rfl, h.1, h.2⟩
    | bad => intro h; cases h
    | ue p => intro h; cases h
    | sync => intro h; cases h
    | tableUe p => intro h; cases h

theorem witness_sweep_begin : Untagged 2 hdr0 (sweepState .none) ∧ (sweepState .none).dev.unqualified = false ∧
    (kaddrOf 0).bad = false ∧ ctxSt (sweepState .none) 3 = .active ∧ (sweepAt (sweepState .none) 3).st = .none :=
  ⟨untagged_of (by decide +kernel), by decide +kernel⟩

/-- A context whose DN_CTRL names no block. -/
theorem witness_sweep_empty : ∃ gs, sweepTables memState 3 = (.ok gs, []) ∧ blocksOk memState 3 gs [] = true :=
  ⟨[], by decide +kernel, by decide +kernel⟩

/-- The groups that SWEEP_BEGIN reads there. -/
def sweepGroups : List Byte := match sweepTables (sweepState .none) 3 with
  | (.ok gs, _) => gs
  | _ => []

/-- The log header of the sweep can be written. -/
theorem witness_log_header : ∃ u, (logHeader 3 1).run (useFree 512 (modCtx 3 (fun x => { x with
    cntBlocks := 0, sweeps := x.sweeps + 1, sweep := startSweep (taken hdr0 0x38 (sweepState .none)) 3 sweepGroups 0x3F800000 1 7 })
    (taken hdr0 0x38 (sweepState .none)))) = (.ok (), u) := by
  have h : (match (logHeader 3 1).run (useFree 512 (modCtx 3 (fun x => { x with
    cntBlocks := 0, sweeps := x.sweeps + 1, sweep := startSweep (taken hdr0 0x38 (sweepState .none)) 3 sweepGroups 0x3F800000 1 7 })
    (taken hdr0 0x38 (sweepState .none)))) with
    | (.ok (), _) => true
    | _ => false) = true := by decide +kernel
  revert h
  cases (logHeader 3 1).run (useFree 512 (modCtx 3 (fun x => { x with
    cntBlocks := 0, sweeps := x.sweeps + 1, sweep := startSweep (taken hdr0 0x38 (sweepState .none)) 3 sweepGroups 0x3F800000 1 7 })
    (taken hdr0 0x38 (sweepState .none)))) with
  | mk a b =>
    cases a with
    | ok x => intro _; exact ⟨b, rfl⟩
    | error e => intro h; cases h

theorem witness_sweep_ends : Untagged 2 hdr0 (sweepState .opened) ∧ Untagged 2 hdr0 (sweepState .done) ∧
    (sweepAt (sweepState .opened) 3).st = .opened ∧ (sweepAt (sweepState .done) 3).st = .done ∧ (1#8).toNat ≤ 1 ∧
    ctxSt (sweepState .done) 3 ≠ .free ∧ (ctxAt (sweepState .done) 3).latched = none ∧ headerUe (sweepState .done) 3 = none ∧ stitching (sweepState .done) = true ∧
    (sweepState .done).waits = [] ∧ (∀ h < 8, (hoopAt (sweepState .done) h).loads = []) ∧ (sweepState .done).stitch.placed = none :=
  ⟨untagged_of (by decide +kernel), untagged_of (by decide +kernel), by decide +kernel⟩

theorem witness_delta_config : Untagged 2 hdr0 memState ∧ bufBad 0 0x1000 160 = false ∧
    bufRead 0 0x1000 160 memState = .ok (bytesAt [] 0x1000 160) ∧ deltaFits (bytesAt [] 0x1000 160) = true ∧
    (sweepAt memState 3).st = .none ∧ (3#8).toNat ≤ 3 ∧ (16383#16).toNat < 2 ^ 14 ∧
    digestUe (sweepState .none) 3 ((List.range (min 1 (dnNblk (sweepState .none) 3 - 0))).map (· + 0)) = none :=
  ⟨untagged_of (by decide +kernel), by decide, rfl, by decide +kernel⟩

/-! ### BatchesRunAndWaitingCommandsEnd -/

/-- A module whose host memory holds one 64-byte slot at 0x1000. -/
def batchState (slot : List Byte) : State := { s0 with host := putBytes [] 0x1000 slot }
def beginSlot : List Byte := padTo 64 (toLE 1 0x48)
def periodSlot (p : Nat) : List Byte := padTo 64 (toLE 1 0x21 ++ toLE 11 0 ++ toLE 4 p)
def batchEnv (s : State) : Env := ⟨.ring 0 0, 0, 0, none, 0, s.logs.seq + 1, 7⟩

/-- What a batch run that ends, or waits, leaves. -/
def endsWith (o : HostRes) (p : Status → Nat → State → Bool) : Bool := match o with
  | .done st r u => p st r u
  | _ => false
def waitsWith (o : HostRes) (p : WaitFor → State → Bool) : Bool := match o with
  | .later w u => p w u
  | _ => false

theorem ends_of {o : HostRes} {p : Status → Nat → State → Bool} (h : endsWith o p = true) :
    ∃ st r u, o = .done st r u ∧ p st r u = true := by
  cases o with
  | done st r u => exact ⟨st, r, u, rfl, h⟩
  | later w u => cases h

theorem waits_of {o : HostRes} {p : WaitFor → State → Bool} (h : waitsWith o p = true) : ∃ w u, o = .later w u ∧ p w u = true := by
  cases o with
  | done st r u => cases h
  | later w u => exact ⟨w, u, rfl, h⟩

theorem witness_batch : ∃ bs st r u, Untagged 3 hdr0 (batchState beginSlot) ∧ bufRead 0 0x1000 (64 * 1) (batchState beginSlot) = .ok bs ∧
    batchRun false (batchEnv (batchState beginSlot)) 0x1000 true (slotsOf bs) 0 none (taken hdr0 0x78 (batchState beginSlot)) = .done st r u ∧
    decide (r = 1) = true :=
  let ⟨st, r, u, h, x⟩ := ends_of (o := batchRun false (batchEnv (batchState beginSlot)) 0x1000 true (slotsOf (hostRead (batchState beginSlot) 0 0x1000 64))
    0 none (taken hdr0 0x78 (batchState beginSlot))) (p := fun _ r _ => decide (r = 1)) (by decide +kernel)
  ⟨_, st, r, u, untagged_of (by decide +kernel), rfl, h, x⟩

/-- EVICT_CONTEXT of context 3, an entry that waits. -/
def evictSlot : List Byte := padTo 64 (toLE 1 0x2A ++ toLE 7 0 ++ toLE 1 3)
def evictBatch : State := { batchState evictSlot with ctxs := one 3 (ctxIn .idle) }

theorem witness_batch_waits : ∃ w u, Untagged 3 hdr0 evictBatch ∧
    batchRun false (batchEnv evictBatch) 0x1000 true [evictSlot] 0 none (taken hdr0 0x78 evictBatch) = .later w u ∧
    decide (u.waits.length = 1) = true :=
  let ⟨w, u, h, x⟩ := waits_of (o := batchRun false (batchEnv evictBatch) 0x1000 true [evictSlot] 0 none (taken hdr0 0x78 evictBatch))
    (p := fun _ u => decide (u.waits.length = 1)) (by decide +kernel)
  ⟨w, u, untagged_of (by decide +kernel), h, x⟩

/-- A batch of one entry, whose status has come, waits on ring 0 of port 0. -/
def batchGoes : Wait := ⟨1, .ring 0 0, 0x78, 0, 7, false, .batchRun ⟨false, 0x1000, true, [], 1, none, 2, some .ok⟩⟩

theorem witness_batch_goes_on : ∃ st r u, ({ s0 with waits := [batchGoes] } : State).pending = [] ∧
    ({ s0 with waits := [batchGoes] } : State).dev.romRecovery = false ∧
    batchReady { s0 with waits := [batchGoes] } = some (batchGoes, ⟨false, 0x1000, true, [], 1, none, 2, some .ok⟩, .ok) ∧
    batchRun false (batchEnv s0) 0x1000 true [] 1 (noteFailed 0 .ok none) { s0 with waits := [batchGoes] } = .done st r u :=
  ⟨_, _, _, rfl, rfl, by decide +kernel, rfl⟩

/-- A group whose entry fails at once. -/
theorem witness_group_fails : ∃ bs, Untagged 3 hdr0 (batchState (periodSlot 0)) ∧
    bufRead 0 0x1000 (64 * 1) (batchState (periodSlot 0)) = .ok bs ∧ (slotsOf bs).all mayGroup = true ∧
    (batchState (periodSlot 0)).txns.length < txnLimit ∧
    (groupEntries false (freshTxn (taken hdr0 0x78 (batchState (periodSlot 0)))) (batchEnv (batchState (periodSlot 0))) 0x1000 true
      (slotsOf bs) 0 none (openTxn 0 (freshTxn (taken hdr0 0x78 (batchState (periodSlot 0)))) (taken hdr0 0x78 (batchState (periodSlot 0))))).2.1.isSome
        = true :=
  ⟨_, untagged_of (by decide +kernel), rfl, by decide +kernel, by decide +kernel, by decide +kernel⟩

theorem stages (id : Nat) (env : Env) (host : env.origin = .batch 0 0 0x1000 true) (s : State) (hs : s.dev.restricted = false)
    (ht : s.txns = [⟨id, some 0, 0, false, 0, [], [], false⟩]) : ∃ u x,
      takeSlot 2 (some 0) (some id) env (cmdStitchSet 900000 0) [(12, 4), (16, 8)] (periodSlot 900000) s = (u, .ok) ∧
      txnAt u id = some x ∧ atPassed u x = false := by
  have pre : ∀ e, preCheck (cmdStitchSet 900000 0) 2 true (slotRsv [(12, 4), (16, 8)] (periodSlot 900000))
      (bitAt (slotNum (periodSlot 900000) 1 1) 0) (BitVec.ofNat 16 (slotNum (periodSlot 900000) 2 2)) (some 0) e s = none := by
    intro e
    have h : preCheck (cmdStitchSet 900000 0) 2 true (slotRsv [(12, 4), (16, 8)] (periodSlot 900000))
      (bitAt (slotNum (periodSlot 900000) 1 1) 0) (BitVec.ofNat 16 (slotNum (periodSlot 900000) 2 2)) (some 0) e s =
        if (s.dev.restricted && decide (1 < 2)) || false then some .restricted else none := rfl
    rw [h, hs]
    rfl
  have hst : ∀ j : JEntry, ∃ v, stage id [.period 900000 0] (journalPut j s) = some v ∧
      v.txns = [⟨id, some 0, 0, false, 0, [.period 900000 0], [], false⟩] := by
    intro j
    have h0 : (journalPut j s).txns = s.txns := rfl
    refine ⟨modTxn id (fun t => { t with staged := [.period 900000 0] }) (journalPut j s), ?_, ?_⟩
    · unfold stage
      have h1 : txnAt (journalPut j s) id = some ⟨id, some 0, 0, false, 0, [], [], false⟩ := by unfold txnAt; rw [h0, ht]; simp
      rw [h1]
      have := room (replaced [] [.period 900000 0]) [.period 900000 0] (by decide)
      simp only
      rw [if_neg (by omega)]
      rfl
    · simp only [modTxn, h0, ht]
      simp
  choose v hv hx using hst
  unfold takeSlot
  simp only [pre, runCmd, Option.isSome_some]
  simp only [cmdStitchSet, stageIn, Option.isNone_some, Bool.false_eq_true, if_false, Option.getD_some, if_true, BitVec.toNat_ofNat, Nat.reducePow]
  rw [show BitVec.toNat (900000 : BitVec 32) = 900000 from rfl, hv]
  refine ⟨_, ⟨id, some 0, 0, false, 0, [.period 900000 0], [], false⟩, rfl, ?_, ?_⟩
  · simp [post, postAt, host, hostWrite, txnAt, journalFinal, hx]
  · simp [atPassed]

theorem witness_group (id : Nat) : ∃ u x,
    groupEntries false id (batchEnv (batchState (periodSlot 900000))) 0x1000 true [periodSlot 900000] 0 none
      (openTxn 0 id (taken hdr0 0x78 (batchState (periodSlot 900000)))) = (1, none, u) ∧
    txnAt u id = some x ∧ atPassed u x = false := by
  have hc : slotCmd (periodSlot 900000) = ([(12, 4), (16, 8)], cmdStitchSet 900000 0) := rfl
  obtain ⟨u, x, h, hx⟩ := stages id { batchEnv (batchState (periodSlot 900000)) with origin := .batch 0 0 0x1000 true } rfl
    (openTxn 0 id (taken hdr0 0x78 (batchState (periodSlot 900000)))) rfl rfl
  refine ⟨u, x, ?_, hx⟩
  simp only [groupEntries, batchEntry, hc]
  have h' : takeSlot 2 (some (batchEnv (batchState (periodSlot 900000))).session) (some id)
    { batchEnv (batchState (periodSlot 900000)) with
      origin := .batch (batchEnv (batchState (periodSlot 900000))).session (batchEnv (batchState (periodSlot 900000))).port (4096 + 64 * 0) true }
    (cmdStitchSet 900000 0) [(12, 4), (16, 8)] (periodSlot 900000)
    (openTxn 0 id (taken hdr0 0x78 (batchState (periodSlot 900000)))) = (u, .ok) := h
  rw [h']
  rfl

theorem witness_unknown_entries : opcodes.contains (slotNum [0x79] 0 1) = false ∧ opcodes.contains (slotNum [0] 0 1) = false ∧
    slotNum [0x78] 0 1 = 0x78 := by decide +kernel

/-- A DIGEST_COMPARE of context 3 with module 5 waits on ring 0 of port 0. -/
def digestWait : Wait := ⟨1, .ring 0 0, 0x3C, 0, 7, false, .digest 3 5 0 8⟩
def waitState : State := { withCtx (ctxIn .idle) with waits := [digestWait] }

theorem witness_waiting : (waitState.waits.find? fun w => decide (w.seq = (1#48).toNat)) = some digestWait ∧
    digestWait.accepted = false ∧ digestWait.origin = .ring 0 0 ∧ digestWait.what = .digest 3 5 0 8 ∧
    mismatches waitState 3 ([].filter fun d : BitVec 32 × BitVec 128 => decide (0 ≤ d.1.toNat) && decide (d.1.toNat < 0 + 8)) = [] ∧
    digestUe waitState 3 [] = none ∧
    txnAt withTxn (7#16).toNat = some txn7 ∧ txn7.committing = false := by decide +kernel

/-- An image that verifies when its signature does, written into slot B of SF. -/
theorem witness_fw_update_done (hv : ∀ k b g, Config.falconVerify k b g = true) : ∃ s : State,
    s.flash.writing = some (0, 1) ∧ s.dev.romRecovery = false ∧ s.pins.aux = true ∧ s.pins.modRstN = true ∧ s.pins.warmRstN = true ∧
    fwReason s 0 (fwSlotAt s 0 1).image = none ∧ s.waits = [] := by
  refine ⟨{ State.reset with flash := { Flash.reset with slots := one 1 ⟨0, manufactureImage 0⟩, writing := some (0, 1) } },
    rfl, rfl, rfl, rfl, rfl, ?_, rfl⟩
  simp only [fwReason, hv]
  decide +kernel

/-! ### DescriptorsAndWindowWritesAct -/

/-- The module with both host links UP and, on port 2, ring 0 enabled in the window with 128-byte slots. -/
def windowState : State :=
  { State.reset with
    links := [(12, { Link.reset 0 with st := .up }), (13, { Link.reset 0 with st := .up })]
    ports := one 2 { Port.reset with rings := one 0 openRing, ringArea := one 0 1 } }

theorem witness_descriptors : windowUp windowState 2 = true ∧ windowUp windowState 0 = true ∧ windowState.dev.ready = true ∧
    (ringAt windowState 2 0).en = true ∧ (8#32 - (ringAt windowState 2 0).head).toNat ≤ ringSlots (ringAt windowState 2 0) ∧
    ringSlots (ringAt windowState 2 0) < (9#32 - (ringAt windowState 2 0).head).toNat ∧
    (ringAt windowState 0 7).en = false ∧ (ringAt windowState 0 7).tail = 0 ∧ (ringAt windowState 3 0).en = false ∧
    (fld (0xC5#32).toNat 2 2 = 1 ∧ fld (0xC5#32).toNat 4 4 = 12 ∧ (0xC5#32).getLsbD 1 = false) ∧
    (fld (0x3F#32).toNat 2 2 = 3 ∧ fld (0x3F#32).toNat 4 4 = 3 ∧ (0x3F#32).getLsbD 1 = true) ∧
    (portAt windowState 0).ev.en = false ∧ fld (0x41#32).toNat 2 5 = 16 ∧ fld (0xF#32).toNat 2 5 = 3 ∧
    windowState.logs.held = [] := by decide +kernel

/-- An event ring that has been used, and is off. -/
theorem witness_used_event_ring : windowUp (modPort 0 (fun x => { x with ev := { x.ev with tail := 5 } }) windowState) 0 = true ∧
    (portAt (modPort 0 (fun x => { x with ev := { x.ev with tail := 5 } }) windowState) 0).ev.en = false ∧
    (portAt (modPort 0 (fun x => { x with ev := { x.ev with tail := 5 } }) windowState) 0).ev.tail ≠ 0 := by decide +kernel

theorem witness_window_writes : windowUp windowState 3 = true ∧ (0x100#64).getLsbD 8 = true ∧ windowState.dev.romRecovery = false ∧
    slotNum (bytesAt (portAt windowState 2).slots 0 32) 0 1 ≠ 0x29 ∧ slotNum (bytesAt (portAt windowState 2).slots 0 32) 0 1 ≠ 0x70 ∧
    (0xFFF8#16).toNat + 8 ≤ 0x10000 ∧ (0xFF8#16).toNat % 4 = 0 := by decide +kernel

/-- The same module with a slot of an opcode that Table 12.9 lacks at the head of port 2's ring. -/
def oddSlot : State :=
  { windowState with ports := one 2 { Port.reset with rings := one 0 { openRing with tail := 0 }, ringArea := [(0, 0x7F)] } }

theorem witness_slots : (slotRefused (headSlot windowState 2 0)).isNone = true ∧ slotNum (headSlot oddSlot 2 0) 0 1 = 0x7F ∧
    0x7F ∉ opcodes ∧ ringWaits oddSlot 2 0 = false ∧ (ringAt oddSlot 2 0).en = true ∧ (1#32) = (ringAt oddSlot 2 0).head + 1 := by
  decide +kernel

/-! ### WindowReadsAndStoresAct -/

/-- The same module with an uncorrectable word at the base of port 0's push buffer. -/
def badWord : State := { windowState with bad := [0x2FE0000000 / 8] }

theorem witness_window_reads : ctlRuns State.reset = true ∧ windowUp State.reset 0 = false ∧ fabricOn windowState = true ∧
    ueAt windowState (pushAt windowState 0 0xFF8) 8 = none ∧ mergeUe windowState (pushAt windowState 0 0xFFC) 4 = none ∧
    (ueAt badWord (pushAt badWord 0 0) 8).isSome = true ∧ windowUp badWord 0 = true ∧
    (∀ i, i < 8 → (bar2Access (0x1000 + i)).1 = true → ueAt windowState (0x1000 + i) 1 = none) ∧
    (bar2Access 0x1000).2 = true ∧ mergeUe windowState 0x1000 32 = none ∧ (bar2Access 0xC000000000).2 = false ∧
    populated 0xC000000000 = true ∧ (bar2Access 0xC800000000).2 = false ∧ populated 0xC800000000 = false := by
  decide +kernel

/-! ### RecoveryAndManagementAct -/

def recoveryState : State := { windowState with dev := { Dev.reset with romRecovery := true, ready := false } }

theorem witness_recovery_reject : windowUp recoveryState 2 = true ∧ recoveryState.dev.romRecovery = true ∧
    recoveryState.pins.tripped = false ∧ romBusy recoveryState = false ∧ ctlRuns recoveryState = true ∧ recoveryState.pending = [] ∧
    recoveryState.flash.writing = none ∧ romBusy (modPort 2 (fun x => { x with busy := 1 }) recoveryState) = true ∧
    fwReason recoveryState 0 [] ≠ none := by
  refine ⟨by decide +kernel, rfl, rfl, by decide +kernel, by decide +kernel, rfl, rfl, by decide +kernel, ?_⟩
  have h : fwReason recoveryState 0 [] = some 1 := by decide +kernel
  rw [h]; simp

theorem bytesAt_piece (m : Tab Byte) (off n : Nat) : ∀ (a len : Nat), off + n ≤ len →
    ((bytesAt m a len).drop off).take n = bytesAt m (a + off) n := by
  induction off with
  | zero =>
    induction n with
    | zero => intro a len h; simp [bytesAt]
    | succ n ih =>
      intro a len h
      obtain ⟨k, rfl⟩ : ∃ k, len = k + 1 := ⟨len - 1, by omega⟩
      have := ih (a + 1) k (by omega)
      simp only [List.drop_zero] at this
      simp [bytesAt, this]
  | succ o ih =>
    intro a len h
    obtain ⟨k, rfl⟩ : ∃ k, len = k + 1 := ⟨len - 1, by omega⟩
    rw [bytesAt, List.drop_succ_cons, ih (a + 1) k (by omega), Nat.add_assoc, Nat.add_comm 1 o]

theorem bytesAt_length (m : Tab Byte) (n : Nat) : ∀ a, (bytesAt m a n).length = n := by
  induction n with
  | zero => intro a; rfl
  | succ n ih => intro a; simp [bytesAt, ih]

/-- ROM recovery's buffer holds an image of kind SF. -/
def stagedState : State := { recoveryState with dev := { recoveryState.dev with staging := putBytes [] 0 (manufactureImage 0) } }

theorem witness_recovery_boot (hv : ∀ k b g, Config.falconVerify k b g = true) :
    windowUp stagedState 2 = true ∧ stagedState.dev.romRecovery = true ∧
    fwReason stagedState 0 (bytesAt stagedState.dev.staging 0 0x300000) = none := by
  refine ⟨by decide +kernel, rfl, ?_⟩
  have num : ∀ off n, off + n ≤ 0x300000 → fwNum (bytesAt stagedState.dev.staging 0 0x300000) off n =
      leNat (bytesAt stagedState.dev.staging off n) := by
    intro off n h
    unfold fwNum
    rw [bytesAt_piece _ _ _ _ _ h, Nat.zero_add]
  simp only [fwReason, hv, fwLen, fwBody, fwKey, bytesAt_length, num 0 4 (by omega), num 4 1 (by omega), num 6 2 (by omega),
    num 0x20 4 (by omega), num 5 1 (by omega)]
  decide +kernel

/-- The image is being written into slot A of SF. -/
theorem witness_recovery_done (hv : ∀ k b g, Config.falconVerify k b g = true) : ∃ s : State,
    s.flash.writing = some (0, 0) ∧ s.dev.romRecovery = true ∧ ctlRuns s = true ∧ s.pins.tripped = false ∧
    fwReason s 0 (fwSlotAt s 0 0).image = none ∧ (fwSlotAt s 0 0).gen.toNat < 2 ^ 32 - 1 ∧ (fwSlotAt s 0 1).gen.toNat < 2 ^ 32 - 1 := by
  refine ⟨{ recoveryState with flash := { Flash.reset with slots := one 0 ⟨0, manufactureImage 0⟩, writing := some (0, 0) } },
    rfl, rfl, rfl, rfl, ?_, by decide +kernel, by decide +kernel⟩
  simp only [fwReason, hv]
  decide +kernel

theorem witness_management (hv : ∀ k b g, Config.falconVerify k b g = true) : ctlRuns State.reset = true ∧
    State.reset.dev.romRecovery = false ∧ State.reset.flash.writing = none ∧ fwReason State.reset 2 (manufactureImage 2) = none := by
  refine ⟨by decide +kernel, rfl, rfl, ?_⟩
  simp only [fwReason, hv]
  decide +kernel

theorem witness_management_address : (modDev (fun d => { d with nextMgmt := some 0x1234 }) State.reset).dev.nextMgmt = some 0x1234 ∧
    (modDev (fun d => { d with mgmtAddr := 0x100 }) State.reset).dev.mgmtAddr.toNat = 256 ∧ State.reset.dev.mgmtAddr.toNat < 256 ∧
    ctlRuns (modDev (fun d => { d with mgmtAddr := 0x100 }) State.reset) = true := by decide +kernel

/-! ### Pins, the TAP and keys -/

def lowState : State := { State.reset with pins := { Pins.reset with warmRstN := false } }
def keyState : State := { State.reset with trust := { Trust.reset with bsk := some 1, revoked := 7 } }
def pendingKey : State := { State.reset with trust := { Trust.reset with busy := true, pendKey := some 5 } }

theorem witness_keys : State.reset.pins.aux = true ∧ State.reset.pins.modRstN = true ∧ State.reset.trust.busy = false ∧
    crc32c (toLE 32 (8#256).toNat) = (BitVec.ofNat 32 (crc32c (toLE 32 8))).toNat ∧ State.reset.trust.bsk = none ∧
    keyState.trust.bsk.isSome = true ∧ lowState.pins.warmRstN = false ∧
    State.reset.trust.revoked ||| (8#256).setWidth 4 ≠ 0xF ∧ keyState.trust.revoked ||| (8#256).setWidth 4 = 0xF ∧
    crc32c (toLE 32 (8#256).toNat) ≠ (0#32).toNat ∧ pendingKey.trust.pendKey = some 5 ∧ pendingKey.trust.bsk = none := by
  decide +kernel

def haltedPin : State := { State.reset with pins := { Pins.reset with haltN := false } }
def lowRst : State := { State.reset with pins := { Pins.reset with modRstN := false } }

theorem witness_halt_pin : State.reset.pins.haltN = true ∧ ctlRuns State.reset = true ∧
    (∀ c ∈ softCtxs, haltable (withCtx (ctxIn .idle)) c = false ∧ (ctxAt (withCtx (ctxIn .idle)) c).latched = none) ∧
    ctlRuns lowRst = false ∧ lowRst.pins.haltN = true ∧ haltedPin.pins.haltN = false := by decide +kernel

theorem witness_halt_pin_runs : activeState.pins.haltN = true ∧ ctlRuns activeState = true ∧ (∀ h < 8, (hoopAt State.reset h).loads = []) := by
  decide +kernel

/-! ### Resets, boot, power -/

theorem witness_warm_reset : warmServes { activeState with dev := { Dev.reset with warmAsked := true } } = true ∧
    activeState.pins.warmRstN = true ∧ activeState.pins.input = true ∧ activeState.pins.bootSrc ≠ 3 := by decide +kernel

/-- A module held in reset by a pin, with or without the input. -/
def heldState (warm input : Bool) : State :=
  { State.reset with pins := { Pins.reset with modRstN := warm, warmRstN := !warm, input := input } }

/-- Slot A of each kind verifies when signatures do. -/
theorem slots_verify (hv : ∀ k b g, Config.falconVerify k b g = true) (s : State) (hf : s.flash = Flash.reset)
    (ht : s.trust = Trust.reset) (k : Nat) (hk : k < 3) : verifiedSlots s 0 k = [0] := by
  have h0 : slotReason s k 0 = none := by
    have : fwSlotAt s k 0 = fwSlotAt State.reset k 0 := by unfold fwSlotAt; rw [hf]; rfl
    unfold slotReason
    rw [this]
    match k, hk with
    | 0, _ => simp only [fwReason, hv, ht]; decide +kernel
    | 1, _ => simp only [fwReason, hv, ht]; decide +kernel
    | 2, _ => simp only [fwReason, hv, ht]; decide +kernel
  have h1 : slotReason s k 1 = some 0 := by
    have : fwSlotAt s k 1 = FwSlot.reset := by
      unfold fwSlotAt; rw [hf]
      match k, hk with
      | 0, _ => rfl
      | 1, _ => rfl
      | 2, _ => rfl
    unfold slotReason
    rw [this]
    rfl
  have hc : considered 0 = [0, 1] := by decide
  unfold verifiedSlots
  rw [hc]
  simp only [List.filter_cons, h0, h1, Option.isNone_none, Option.isNone_some]
  rfl

theorem witness_boot (hv : ∀ k b g, Config.falconVerify k b g = true) (warm input : Bool) :
    chooseSlots (heldState warm input) 0 = some (0, 0, 0) := by
  have h (k : Nat) (hk : k < 3) := slots_verify hv (heldState warm input) rfl rfl k hk
  have m1 : slotsMatch (heldState warm input) 0 0 1 0 = true := by cases warm <;> cases input <;> decide +kernel
  have m2 : slotsMatch (heldState warm input) 0 0 2 0 = true := by cases warm <;> cases input <;> decide +kernel
  simp only [chooseSlots, partners, h 0 (by decide), h 1 (by decide), h 2 (by decide), List.findSome?_cons, m1, m2]
  rfl

/-- Flash with slot A of SF alone. -/
def sfOnly : State := { heldState true true with flash := { Flash.reset with slots := one 0 ⟨1, manufactureImage 0⟩ } }
def noImages : State := { heldState true true with flash := { Flash.reset with slots := [] } }

theorem witness_restricted_boot (hv : ∀ k b g, Config.falconVerify k b g = true) :
    chooseSlots sfOnly 0 = none ∧ verifiedSlots sfOnly 0 0 = [0] := by
  have h0 : verifiedSlots sfOnly 0 0 = [0] := by
    have a : slotReason sfOnly 0 0 = none := by
      change (if (1 : BitVec 32) = 0 then some 0 else fwReason sfOnly 0 (manufactureImage 0)) = none
      simp only [fwReason, hv]
      decide +kernel
    have b : slotReason sfOnly 0 1 = some 0 := by decide +kernel
    have hc : considered 0 = [0, 1] := by decide
    unfold verifiedSlots
    rw [hc]
    simp only [List.filter_cons, a, b, Option.isNone_none, Option.isNone_some]
    rfl
  have h1 : verifiedSlots sfOnly 0 1 = [] := by decide +kernel
  exact ⟨by simp only [chooseSlots, partners, h0, h1]; rfl, h0⟩

theorem witness_releases : (heldState false true).pins.modRstN = false ∧ (heldState false true).pins.warmRstN = true ∧
    (heldState true true).pins.warmRstN = false ∧ (heldState true true).pins.modRstN = true ∧ (heldState true true).pins.aux = true ∧
    verifiedSlots noImages 0 0 = [] ∧ (heldState false false).pins.input = false ∧ (heldState false false).dev.bootCause = 0 ∧
    ({ State.reset with pins := { Pins.reset with modRstN := false, warmRstN := false } } : State).pins.warmRstN = false ∧
    ({ State.reset with pins := { Pins.reset with warmRstN := false, tripped := true } } : State).pins.tripped = true ∧
    (∀ input : Bool, ({ State.reset with pins := { Pins.reset with warmRstN := false, input := input }, dev := { Dev.reset with ready := false, bootWait := true } } : State).dev.bootWait = true) := by decide +kernel

/-- The pin falls under a cold reset. -/
theorem witness_warm_recorded : warmServes (heldState false true) = false ∧ (heldState false true).pins.warmRstN = true := by
  decide +kernel

theorem witness_dormant : ctlRuns activeState = true ∧ activeState.dev.ready = true := by decide +kernel

def dormantState : State := { State.reset with pins := { Pins.reset with dormant := true, input := false }, dev := { Dev.reset with ready := false } }
def waitingBoot : State := { State.reset with pins := { Pins.reset with input := false }, dev := { Dev.reset with ready := false, bootWait := true } }

theorem witness_input : dormantState.pins.dormant = true ∧ ctlRuns dormantState = true ∧ waitingBoot.pins.dormant = false ∧
    waitingBoot.dev.bootWait = true ∧ ctlRuns waitingBoot = true ∧ State.reset.dev.bootWait = false ∧
    State.reset.pins.tripped = false ∧ (heldState false true).pins.tripped = false ∧ ({ State.reset with pins := { Pins.reset with tripped := true } } : State).pins.tripped = true := by
  decide +kernel

def restState (p : HoopPower) : State := { State.reset with hoops := one 5 { Hoop.reset with power := p } }

theorem witness_hoops : (hoopAt (restState .rest) 5).power = .rest ∧ hoopBound (restState .rest) 5 = false ∧
    fabricOn (restState .rest) = true ∧ (hoopAt (restState .sleep) 5).power = .sleep ∧
    exitCause (restState .sleep) 5 .outsideAccess = true ∧ (hoopAt (restState (.exiting false)) 5).power = .exiting false ∧
    waitingRuns (restState (.exiting false)) 5 = [] ∧ (hoopAt (restState (.exiting true)) 5).held = [] := by decide +kernel

/-! ### The stitch and the scheduler -/

/-- Context 3 has a pending RUN, 4 runs on with stitches left, and 5 is in its last stitch. -/
def boundState : State :=
  { State.reset with
    ctxs := [(3, { ctxIn .idle with runPend := some (5, 0, false) }), (4, { ctxIn .active with runLeft := some 3 }),
      (5, { ctxIn .active with runLeft := some 1 })]
    hoops := one 2 { Hoop.reset with power := .sleep } }

def placedState (l : Lock) : State := { State.reset with stitch := { Stitch.reset with lock := l, placed := some 77 } }

theorem witness_boundaries : stitching boundState = true ∧ boundState.waits = [] ∧ (∀ h < 8, (hoopAt boundState h).loads = []) ∧
    boundState.stitch.placed = none ∧ (ctxAt boundState 3).runPend = some (5, 0, false) ∧ hasRun boundState 3 = false ∧
    (ctxAt boundState 4).st = .active ∧ (ctxAt boundState 4).runLeft = some 3 ∧ (ctxAt boundState 4).ending = false ∧
    (ctxAt boundState 5).runLeft = some 1 ∧ hasRun boundState 5 = false ∧
    stitching (placedState .freeRunning) = true ∧ (placedState .freeRunning).stitch.placed = some 77 ∧
    (∀ h < 8, (hoopAt (placedState .locked) h).loads = []) ∧ (placedState .locked).stitch.lock = .locked := by decide +kernel

def waitsFor (w : WaitFor) : Wait := ⟨1, .mgmt, 0x51, 0, 7, false, w⟩
def dueState (w : WaitFor) : State := { sweepState .done with waits := [waitsFor w], txns := [{ txn7 with committing := true, commitSeq := 1 }] }

theorem witness_waiting_item : (∀ h < 8, (hoopAt (finish 1 .ok 0 (touch (fun x => decide (x = .item 1 3))
      (setItem 1 3 9 (nextCount (dueState (.item 1 3 9)))))) h).loads = []) ∧
    itemLoc 1 3 = some (3, 0) ∧ isFree (dueState (.item 1 3 9)) 3 = false ∧ stitching (dueState (.debug true)) = true ∧
    (∀ h < 8, (hoopAt (dueState (.item 1 3 9)) h).loads = []) ∧ (dueState (.item 1 3 9)).stitch.placed = none := by decide +kernel

theorem witness_waiting_commit : txnAt (dueState (.commit 7)) 7 = some { txn7 with committing := true, commitSeq := 1 } ∧
    dueTxn (nextCount (dueState (.commit 7))) { txn7 with committing := true, commitSeq := 1 } = true ∧
    ∀ h < 8, (hoopAt (commitTxn 7 (nextCount (dueState (.commit 7)))) h).loads = [] := by decide +kernel

/-- Transaction 7 is due, with one staged change. -/
def dueOf (y : Staged) : State :=
  { tagState with waits := [waitsFor (.commit 7)], txns := [{ txn7 with committing := true, commitSeq := 1, staged := [y] }] }

theorem witness_waiting_staged : ∀ y ∈ [Staged.item 0x10 24 0x1000, .entry 7 127 (BitVec.ofNat 256 (1 + 3 * 2 + 3 * 2 ^ 4 + 2 ^ 8 + 2 ^ 13 + 9000 * 2 ^ 96)), .run 3 1 0],
    stitching (dueOf y) = true ∧ (∀ h < 8, (hoopAt (dueOf y) h).loads = []) ∧ (dueOf y).stitch.placed = none ∧
    (let p := masterBeacon (nextCount (dueOf y))
     dueTxn p { txn7 with committing := true, commitSeq := 1, staged := [y] } = true ∧
      (∀ h < 8, tableOk p h (periodOf p [y]) [y] = true) ∧ regsOk p [y] = true ∧ firstsOk p [y] = true ∧ statesOk p [y] = true) ∧
    txnAt (dueOf y) 7 = some { txn7 with committing := true, commitSeq := 1, staged := [y] } ∧ txn7.touched = [] ∧
    txn7.shadowBad = false := by decide +kernel

theorem witness_waiting_others : blockFits (dueState (.ctxCreate 5 (List.replicate 256 0))) 5 (List.replicate 256 0) = true ∧
    (let s := { memState with waits := [waitsFor (.mapChange 3 0 1 0 0)] }
     isFree s 3 = false ∧ underSweep (masterBeacon (nextCount s)) 3 0 1 0 = false ∧ stitching s = true ∧
      (∀ h < 8, (hoopAt s h).loads = []) ∧ s.stitch.placed = none) ∧
    (let s := { dueState (.evict 3) with ctxs := one 3 { ctxIn .evicting with evictEnd := true } }
     (ctxAt s 3).evictEnd = true ∧ (ctxAt s 3).latched = none ∧ (ctxAt s 3).runPend = none ∧ stitching s = true ∧
      (∀ h < 8, (hoopAt s h).loads = []) ∧ s.stitch.placed = none) := by decide +kernel

theorem witness_waiting_sweep : (sweepAt (dueState (.sweepCommit 3)) 3).st = .done ∧ (ctxAt (dueState (.sweepCommit 3)) 3).latched = none ∧
    headerUe (masterBeacon (nextCount (dueState (.sweepCommit 3)))) 3 = none ∧ ∀ h < 8, (hoopAt (finish 1 .ok 0 (touch (fun x => decide (x = .sweepCommit 3)) (sweepCommitNow 3 (nextCount (dueState (.sweepCommit 3)))))) h).loads = [] := by
  decide +kernel

/-- A follower of source `src`, with a lock and mismatches in a row, its beacons arriving on DL0. -/
def follower (src : Nat) (l : Lock) (n : Nat) : State :=
  { State.reset with
    stitch := { Stitch.reset with cfg := BitVec.ofNat 64 (900000 + src * 2 ^ 25 + 2 ^ 27 + 100 * 2 ^ 32), lock := l, mismatches := n, seen := [4] }
    links := [(0, { Link.reset 1 with st := .up }), (3, { Link.reset 1 with st := .up })] }

theorem witness_followers : stitching (follower 1 .locked 0) = true ∧ (follower 1 .locked 0).stitch.cfg.getLsbD 27 = true ∧
    stitchSrc (follower 1 .locked 1) = 1 ∧ (follower 1 .locked 1).stitch.mismatches < 2 ∧ 2 ≤ (follower 1 .locked 2).stitch.mismatches ∧
    (follower 1 .freeRunning 0).stitch.lock ≠ .locked ∧ stitchSrc (follower 2 .locked 0) ≠ 0 ∧
    stitchSrc (follower 2 .locked 0) = 2 ∧ (linkAt (follower 2 .locked 0) 0).st = .up ∧ (linkAt (follower 2 .locked 0) 3).st = .up ∧
    (follower 2 .locked 0).stitch.seen.contains 5 = false ∧ (follower 2 .locked 0).stitch.seen.contains 4 = true ∧
    (900000#25).toNat = fld (follower 2 .locked 0).stitch.cfg.toNat 0 25 := by decide +kernel

theorem witness_heat_and_power : stitching State.reset = true ∧ ([110, 100, 99, 96, 95, 94, 20, 0] : List Int).length = 8 ∧
    powerBroken (if 3400 < 3401 then 10 + 1 else 0) ((3401 :: []).take 100) = (true, false) ∧ powerBroken 10 [] = (false, false) ∧
    stitching ({ State.reset with pins := { Pins.reset with tripped := true }, dev := { Dev.reset with ready := false } } : State) = false := by decide +kernel

/-! ### EntriesStart, EntriesEndAtTheirTimes, RunsComplete -/

/-- A repeat-table entry of a kind for context 3, column 1, MOTIF 0x101, with its flags. -/
def entryWord (kind flags : Nat) : BitVec 256 := BitVec.ofNat 256 (1 + kind * 2 + 3 * 2 ^ 4 + 2 ^ 8 + 2 ^ 13 + flags * 2 ^ 18 + 0x101 * 2 ^ 32)

/-- Context 3 is ACTIVE, with one entry on Hoop 0 and its region holding the motif. -/
def entryState (kind flags : Nat) (runs : List RunSt) : State :=
  { State.reset with
    ctxs := one 3 { ctxIn .active with runLeft := none, sweep := { Sweep.reset with st := .opened } }
    hoops := one 0 { Hoop.reset with motifs := one 1 (3, 0x101), table := one 0 (entryWord kind flags), runs := runs } }

theorem witness_entries_start : startsNow (entryState 1 1 []) 0 0 1 = true ∧ enReconf (entryAt (entryState 1 1 []) 0 0) = true ∧
    startsNow (entryState 1 0 []) 0 0 1 = true ∧ enReconf (entryAt (entryState 1 0 []) 0 0) = false ∧
    (hoopAt (entryState 1 0 []) 0).power = .on ∧ holds (entryState 1 0 []) 0 1 1 3 0x101 = true ∧
    (∀ k ∈ regionTiles 0 1 1, queuesClash (tileAt (entryState 1 0 []) k) = false) ∧ armedImage (entryState 1 0 []) 3 0 1 1 0x101 = false ∧
    startsNow (entryState 2 0 []) 0 0 2 = true ∧ mayStart (entryState 3 0 []) 0 0 3 = true ∧ runAt (entryState 3 0 []) 0 0 = none ∧
    hoopServes (entryState 3 0 []) 0 = true ∧ (sweepAt (entryState 3 0 []) 3).st = .opened ∧
    mayStart (entryState 2 0 []) 0 0 1 = false ∧ mayStart (entryState 3 0 []) 0 0 2 = false ∧ mayStart (entryState 1 0 []) 0 0 3 = false := by
  decide +kernel

def runIn (st : RunStage) : RunSt := ⟨0, 3, 1, 1, 0x101, st, .compute, true, false⟩

theorem witness_entries_end : ∀ st ∈ [RunStage.loading, .running, .stopped, .sweeping, .pausing],
    runAt (entryState 1 0 [runIn st]) 0 0 = some (runIn st) ∧ ((hoopAt (entryState 1 0 [runIn st]) 0).runs.map (·.entry)).Nodup ∧
    (runIn st).split = true ∧ (ctxAt (entryState 1 0 [runIn st]) 3).latched = none := by decide +kernel

theorem witness_forced_stop : parkedTile (entryState 1 0 [runIn .running]) 0 (runIn .running) = none ∧
    (hoopAt (stopRegion false 3 0 1 1 (useFree 1 (faultAt 3 .overrun (overrunItem (entryState 1 0 [runIn .running]) 0 (runIn .running))
      (entryState 1 0 [runIn .running])))) 0).runs = [runIn .running] := by decide +kernel

theorem witness_run_complete : runAt (entryState 1 0 [runIn .running]) 0 0 = some (runIn .running) ∧
    (∀ k ∈ regionTiles 0 1 1, (tileAt (entryState 1 0 [runIn .running]) k).seq.on = true →
      (tileAt (entryState 1 0 [runIn .running]) k).seq.ended = true) ∧
    (∀ n ∈ [0, 2], steeringQuiet (entryState 1 n [runIn .running]) 3 0 1 1 = true) ∧
    enScan (entryAt (entryState 1 0 [runIn .running]) 0 0) = false ∧ enScan (entryAt (entryState 1 2 [runIn .running]) 0 0) = true ∧
    (∀ n ∈ [0, 2], let v := landAll [(0, 1, 1, 0x101)] (entryState 1 n [runIn .running])
      let u := runChecks 3 0 1 1 v
      scanFits v [(0, 1, 1, 0x101)] = true ∧ checksAnswered v 0 1 1 = true ∧ checksAnswered (entryState 1 n [runIn .running]) 0 1 1 = true ∧
      (ctxAt u 3).latched = none ∧ scanParity u [(0, 1, 1, 0x101)] = none) := by decide +kernel

/-- The same run, whose A tile in row 0 checks a knot of module 5 that has not answered. -/
def uncheckedState : State :=
  { entryState 1 0 [runIn .running] with
    tiles := one (tileNo 0 1 0) { Tile.reset with cfg := putBytes [] 0x160 (toLE 8 1 ++ toLE 8 (2 ^ 46 + 5 * 2 ^ 47)) } }

theorem witness_unchecked : runAt uncheckedState 0 0 = some (runIn .running) ∧ steeringQuiet uncheckedState 3 0 1 1 = true ∧ checksAnswered uncheckedState 0 1 1 = false := by
  decide +kernel

/-! ### Steps of tiles

Hoop 0 runs context 3 on all its columns; a tile's planes are built from fields at byte offsets. -/

/-- Planes from (offset, bytes, value). -/
def img (xs : List (Nat × Nat × Nat)) : Tab Byte := xs.foldl (fun m p => putBytes m p.1 (toLE p.2.1 p.2.2)) []

/-- The words of Table 03.8, with INQ, OUTD and OUTC 0. -/
def stepWord (opc flow args : Nat) : Nat := opc * 2 ^ 58 + flow * 2 ^ 31 + args

def stepFields (opc flow args : Nat) : Stp := ⟨opc, 0, 0, 0, flow, 0, 0, args⟩

def wholeRun : RunSt := ⟨0, 3, 0, 31, 0x101, .running, .compute, true, true⟩

/-- Context 3 ACTIVE, the whole of each store of Hoop 0 its own. -/
def mapped : Ctx :=
  { ctxIn .active with
    relocWs := one 0 (BitVec.ofNat 32 (4096 * 2 ^ 12))
    relocAs := one 0 (BitVec.ofNat 32 (256 * 2 ^ 8))
    relocPs := one 0 (BitVec.ofNat 32 (128 * 2 ^ 7)) }

/-- Hoop 0 in its run, and the whole of each store mapped for context 3. -/
def running (k : Nat) (t : Tile) : State :=
  { State.reset with
    tiles := one k t
    hoops := one 0 { Hoop.reset with runs := [wholeRun] }
    ctxs := one 3 mapped }

/-- A tile whose sequencer stands on step 0. -/
def tileWith (prog : List (Nat × Nat × Nat)) (cfg : List (Nat × Nat × Nat)) : Tile :=
  { Tile.reset with prog := img prog, cfg := img cfg, seq := { Seq.reset with on := true } }

/-- Sites of Hoop 0, row 0. -/
def at0 (c : Fin 32) : Site := ⟨0, c, 0⟩
def mSite : Site := at0 2
def vSite : Site := at0 7
def aSite : Site := at0 1
def bSite : Site := at0 0

def standsB (site : Site) (kd : Kind) (c : Nat) (st : Stp) (s : State) : Bool :=
  let t := tileAt s (siteNo site)
  decide ((runOf s (siteNo site)).map (·.ctx) = some c) && decide (kindOf (siteNo site) = kd) && t.seq.on && !t.seq.ended &&
  decide (curStep t = st) && decide (st.flow ≤ 4 ∧ st.flow ≠ 3) && (flowTo t st).isSome && opcKnown kd st.opc && inReady t st &&
  outReady t st && ((bitsOf 16 st.inq).all fun q => decide (headOf t q ≠ .parity)) && (decide (kd ≠ .A) || !stepShares t st)

theorem stands_of {site : Site} {kd : Kind} {c : Nat} {st : Stp} {s : State} (h : standsB site kd c st s = true) :
    StandsOn site kd c st s := by
  simp only [standsB, Bool.and_eq_true, decide_eq_true_eq, Bool.not_eq_true', List.all_eq_true] at h
  obtain ⟨⟨⟨⟨⟨⟨⟨⟨⟨⟨⟨a, b⟩, d⟩, e⟩, f⟩, g⟩, i⟩, j⟩, k⟩, l⟩, m⟩, n⟩ := h
  refine ⟨?_, b, d, e, f, g, i, j, k, l, m, fun ha => by simpa [ha] using n⟩
  cases hr : runOf s (siteNo site) with
  | none => rw [hr] at a; cases a
  | some r => rw [hr] at a; exact ⟨r, rfl, by simpa using a⟩

/-- A state whose tile of a site stands on a step, with descriptors in its program. -/
def onStep (site : Site) (opc flow args : Nat) (prog : List (Nat × Nat × Nat)) : State :=
  running (siteNo site) (tileWith ((0, 8, stepWord opc flow args) :: prog) [])

theorem witness_plain_steps :
    (∀ p ∈ [(mSite, Kind.M, 0), (vSite, .V, 0), (aSite, .A, 0), (bSite, .B, 0), (mSite, .M, 5), (vSite, .V, 0x0A), (aSite, .A, 6), (bSite, .B, 4)],
      ∀ flow ∈ [0, 4], StandsOn p.1 p.2.1 3 (stepFields p.2.2 flow 0) (onStep p.1 p.2.2 flow 0 []) ∧
        fenceOk (tileAt (onStep p.1 p.2.2 flow 0 []) (siteNo p.1)) p.2.1 = true) := by
  have h : ∀ p ∈ [(mSite, Kind.M, 0), (vSite, .V, 0), (aSite, .A, 0), (bSite, .B, 0), (mSite, .M, 5), (vSite, .V, 0x0A), (aSite, .A, 6), (bSite, .B, 4)],
      ∀ flow ∈ [0, 4], standsB p.1 p.2.1 3 (stepFields p.2.2 flow 0) (onStep p.1 p.2.2 flow 0 []) = true ∧
        fenceOk (tileAt (onStep p.1 p.2.2 flow 0 []) (siteNo p.1)) p.2.1 = true := by decide +kernel
  exact fun p hp f hf => ⟨stands_of (h p hp f hf).1, (h p hp f hf).2⟩

/-- A tile on a SKIPZ, its counter 0 at a value. -/
def skipState (lc : Nat) : State :=
  running (siteNo mSite) { (tileWith [(0, 8, stepWord 0 3 0 + 5 * 2 ^ 18)] [(0xA0, 4, 9)]) with seq := { Seq.reset with on := true, lc := one 0 lc } }

theorem witness_skipz : ∀ lc ∈ [0, 2], runOf (skipState lc) (siteNo mSite) = some wholeRun ∧ kindOf (siteNo mSite) ≠ .S ∧ kindOf (siteNo mSite) ≠ .G ∧
    (tileAt (skipState lc) (siteNo mSite)).seq.on = true ∧ (tileAt (skipState lc) (siteNo mSite)).seq.ended = false ∧
    (curStep (tileAt (skipState lc) (siteNo mSite))).flow = 3 ∧ lcAt (tileAt (skipState lc) (siteNo mSite)) 0 = lc ∧
    (curStep (tileAt (skipState lc) (siteNo mSite))).lc = 0 ∧ (tileAt (skipState lc) (siteNo mSite)).seq.pc ≠ 1023 := by decide +kernel

/-- A tile on a step whose operation its unit has taken. -/
def issued (s : State) (k : Nat) : State := modTile k (fun t => { t with seq := { t.seq with issued := true } }) s

theorem witness_end_steps :
    ∀ p ∈ [(mSite, Kind.M, 1, 0), (mSite, .M, 2, 0), (mSite, .M, 3, 0), (mSite, .M, 4, 0), (vSite, .V, 2, 0), (vSite, .V, 3, 0), (vSite, .V, 4, 0),
      (vSite, .V, 5, 0), (vSite, .V, 6, 0), (vSite, .V, 1, 9), (vSite, .V, 9, 0), (aSite, .A, 2, 0), (aSite, .A, 1, 0), (bSite, .B, 1, 0)],
      let s := issued (onStep p.1 p.2.2.1 4 0 [(0x2000, 8, p.2.2.2 * 2 ^ 6)]) (siteNo p.1)
      standsB p.1 p.2.1 3 (stepFields p.2.2.1 4 0) s = true ∧ (tileAt s (siteNo p.1)).seq.issued = true ∧
        fenceOk (tileAt s (siteNo p.1)) p.2.1 = true ∧ vdClass (vdAt (tileAt s (siteNo p.1)) 0) = p.2.2.2 := by decide +kernel

/-! ### Matrix tiles -/

theorem witness_wload : let s := onStep mSite 1 0 0 []
    standsB mSite .M 3 (stepFields 1 0 0) s = true ∧ (tileAt s (siteNo mSite)).seq.issued = false ∧ (tileAt s (siteNo mSite)).m.loader = none ∧
    isMFmt (fld (wdAt (tileAt s (siteNo mSite)) 0) 17 4) = true ∧
    wsAddr s 3 (siteNo mSite) 0 (imageSize (fld (wdAt (tileAt s (siteNo mSite)) 0) 17 4) (bitAt (wdAt (tileAt s (siteNo mSite)) 0) 21)) =
      some 0xC000000000 := by decide +kernel

/-- A PASS of four rows from the west neighbour; a DRAIN of two rows of FP32 to it. -/
def passState (opc : Nat) (m : MTile) : State :=
  let s := onStep mSite opc 0 0 [(0x2080, 24, 4 * 2 ^ 136), (0x2200, 24, 6 * 2 ^ 130 + 2 * 2 ^ 148 + 3 * 2 ^ 64)]
  modTile (siteNo mSite) (fun t => { t with m := m }) s

def readyBank : Bank := .ready [0x40, 0x41] 0 false

theorem witness_accepts : ∀ p ∈ [(passState 2 MTile.reset, 2), (passState 3 { MTile.reset with bank0 := readyBank }, 3), (passState 4 MTile.reset, 4),
      (onStep mSite 3 0 0 [], 3), (onStep mSite 4 0 0 [], 4)],
    standsB mSite .M 3 (stepFields p.2 0 0) p.1 = true ∧ (tileAt p.1 (siteNo mSite)).seq.issued = false ∧ (tileAt p.1 (siteNo mSite)).m.loader = none ∧
    (tileAt p.1 (siteNo mSite)).m.array = none ∧ (tileAt p.1 (siteNo mSite)).m.drain = none := by decide +kernel

theorem witness_pass_and_drain : let s := passState 3 { MTile.reset with bank0 := readyBank }
    let t := tileAt s (siteNo mSite)
    bankAt t.m 0 ≠ .invalid ∧ pdT (pdAt t 0) = 4 ∧ passUndef t (siteNo mSite) (pdAt t 0) = none ∧
    (psAddr s 3 (siteNo mSite) 0 (256 * 4)).isSome = true ∧ pdT (pdAt (tileAt (onStep mSite 3 0 0 []) (siteNo mSite)) 0) = 0 ∧
    ddRows (ddAt t 0) = 2 ∧ drainUndef t (siteNo mSite) (ddAt t 0) = none ∧ ddRows (ddAt (tileAt (onStep mSite 4 0 0 []) (siteNo mSite)) 0) = 0 ∧
    bankAt (tileAt (modTile (siteNo mSite) (fun t => { t with m := { t.m with bank0 := .empty } }) (onStep mSite 3 0 0 [])) (siteNo mSite)).m 0 ≠ .invalid := by
  decide +kernel

/-- A load in progress; `ue` puts an uncorrectable word into its slice. -/
def loadState (ue : Bool) : State :=
  let s := passState 0 { MTile.reset with bank0 := .loading, loader := some ⟨0, 0xC000000000, 1, false, [], false⟩ }
  if ue then { s with bad := [0xC000000000 / 8 + 2] } else s

theorem witness_loads : runOf (loadState false) (siteNo mSite) = some wholeRun ∧ (tileAt (loadState false) (siteNo mSite)).m.loader = some ⟨0, 0xC000000000, 1, false, [], false⟩ ∧
    (tileAt (loadState false) (siteNo mSite)).m.array = none ∧ bankAt (tileAt (loadState false) (siteNo mSite)).m 0 = .loading ∧ ueAt (loadState false) 0xC000000000 (imageSize 1 false) = none ∧
    (ueAt (loadState true) 0xC000000000 (imageSize 1 false)).isSome = true ∧ (ctxAt (loadState true) 3).latched = none := by decide +kernel

/-- A pass in progress on a bank. -/
def passOp (init : Bool) : PassOp := ⟨0, 0, 0, 3, init, 0, [], false, 0, none⟩
def rowState (init : Bool) (b : Bank) : State := passState 0 { MTile.reset with bank0 := b, array := some (passOp init) }

theorem witness_rows : ∀ init ∈ [true, false], ∀ b ∈ [readyBank, .empty], let s := rowState init b
    let t := tileAt s (siteNo mSite)
    runOf s (siteNo mSite) = some wholeRun ∧ t.m.array = some (passOp init) ∧ passHeld t.m t (pdRow (pdAt t 0) + 3) false = false ∧
    pdQueue (pdAt t 0) = false ∧ pdMasked (pdAt t 0) = false ∧ sideTile (siteNo mSite) (pdSide (pdAt t 0)) = some (siteNo aSite) ∧
    psAddr s 3 (siteNo mSite) (256 * (pdRow (pdAt t 0) + 3)) 256 = some 0xC500000300 ∧ bankAt t.m 0 = b ∧ pdFmt (pdAt t 0) ≠ 1 ∧
    s.dev.debug = false ∧ wideAt s 3 (siteNo aSite) 0 128 true = .at_ 0xC400000000 ∧ s.zeroBad.contains (0xC500000300 / 16384) = false ∧
    ueAt s 0xC500000300 256 = none := by decide +kernel

def tok7 : Token := ⟨false, 7, true, 0, 0, 1, [], none⟩

/-- A pass that reads queue 0, which holds a token. -/
def queuePass : State :=
  let s := onStep mSite 0 0 0 [(0x2080, 24, 4 * 2 ^ 136 + 2 ^ 128)]
  modTile (siteNo mSite) (fun t => { t with m := { MTile.reset with bank0 := readyBank, array := some (passOp true) }, queues := one 0 [tok7] }) s

theorem witness_queue_pass : let t := tileAt queuePass (siteNo mSite)
    runOf queuePass (siteNo mSite) = some wholeRun ∧ t.m.array = some (passOp true) ∧ passHeld t.m t (pdRow (pdAt t 0) + 3) false = false ∧
    pdQueue (pdAt t 0) = true ∧ pdMasked (pdAt t 0) = false ∧ bankAt t.m 0 = readyBank ∧
    headOf t (pdDQ (pdAt t 0) + 0 % nqOf (pdNQ (pdAt t 0))) = .tok tok7 ∧ ([] : List DataTok).length + 1 < fmtBytes (pdFmt (pdAt t 0)) := by
  decide +kernel

/-- The same pass with the first of its row's two tokens taken. -/
theorem witness_queue_row : let p : PassOp := { passOp true with taken := 1, row := [5] }
    let s := modTile (siteNo mSite) (fun t => { t with m := { t.m with array := some p } }) queuePass
    let t := tileAt s (siteNo mSite)
    runOf s (siteNo mSite) = some wholeRun ∧ t.m.array = some p ∧ passHeld t.m t (pdRow (pdAt t 0) + 3) false = false ∧
    headOf t (pdDQ (pdAt t 0) + 1 % nqOf (pdNQ (pdAt t 0))) = .tok tok7 ∧ p.row.length + 1 = fmtBytes (pdFmt (pdAt t 0)) ∧
    psAddr s 3 (siteNo mSite) (256 * (pdRow (pdAt t 0) + 3)) 256 = some 0xC500000300 := by decide +kernel

/-- A WSKIP waits for a masked pass of four rows, of which row u is next, with no mask bit set. -/
def skipPass (u : Nat) : PassOp := { passOp true with t := u, bits := some (List.replicate 4 false) }
def skipLoad : LoadOp := ⟨0, 0, 0, false, [], true⟩
def maskedState (u : Nat) : State :=
  let s := onStep mSite 0 0 0 [(0x2080, 24, 4 * 2 ^ 136 + 2 ^ 135)]
  modTile (siteNo mSite) (fun t => { t with
    m := { MTile.reset with bank0 := readyBank, array := some (skipPass u), loader := some skipLoad } }) s

theorem witness_skips : ∀ u ∈ [2, 3], let s := maskedState u
    let t := tileAt s (siteNo mSite)
    runOf s (siteNo mSite) = some wholeRun ∧ t.m.array = some (skipPass u) ∧ t.m.loader = some skipLoad ∧ bankAt t.m 0 = readyBank ∧
    passHeld t.m t (pdRow (pdAt t 0) + u) false = false ∧ pdQueue (pdAt t 0) = false ∧ pdMasked (pdAt t 0) = true ∧
    (sideTile (siteNo mSite) (pdSide (pdAt t 0))).isSome = true ∧ pdT (pdAt t 0) = 4 ∧
    (((List.replicate 4 false).drop (1 * u)).take 1).all (!·) = true ∧
    (psAddr s 3 (siteNo mSite) (256 * (pdRow (pdAt t 0) + u)) 256).isSome = true := by decide +kernel

/-- A drain in progress: `q` sends to output 0, else to the west neighbour; the row holds one number. -/
def drainOp (toks : List (Bool × DataTok)) (group : List (Bool × List DataTok)) : DrainOp := ⟨0, 0, 0, toks, group, false, 0⟩
def drainState (q : Bool) (toks : List (Bool × DataTok)) (group : List (Bool × List DataTok)) (rows : Nat) : State :=
  let s := onStep mSite 0 0 0 [(0x2200, 24, 6 * 2 ^ 130 + rows * 2 ^ 148 + 64 * 2 ^ 64 + if q then 2 ^ 128 else 0)]
  { modTile (siteNo mSite) (fun t => { t with m := { MTile.reset with drain := some (drainOp toks group) }, dcred := one 0 2 }) s with
    mem := one 0xC500000000 0x3F }

theorem witness_drains : ∀ p ∈ [(drainState true [(false, 5)] [] 2, drainOp [(false, 5)] []), (drainState true [] [] 2, drainOp [] []), (drainState true [] [] 1, drainOp [] []),
      (drainState false [] [] 2, drainOp [] [])], let t := tileAt p.1 (siteNo mSite)
    runOf p.1 (siteNo mSite) = some wholeRun ∧ t.m.drain = some p.2 ∧ hasCredit t (ddPort (ddAt t 0)) false = true ∧
    drainHeld t.m t (ddRow0 (ddAt t 0) + 0) false = false ∧ psAddr p.1 3 (siteNo mSite) 0 256 = some 0xC500000000 ∧
    p.1.zeroBad.contains (0xC500000000 / 16384) = false ∧ ueAt p.1 0xC500000000 256 = none ∧ p.1.dev.debug = false := by decide +kernel

theorem witness_drain_row : let s := drainState false [] [] 2
    let d := ddAt (tileAt s (siteNo mSite)) 0
    ddQueue d = false ∧ ddQueue (ddAt (tileAt (drainState true [] [] 2) (siteNo mSite)) 0) = true ∧ ddFmt d ≠ 1 ∧
    sideTile (siteNo mSite) (ddSide d) = some (siteNo aSite) ∧ (drainConv d (psRow s 0xC500000000) 0).2.1.any (fun y => !isZeroCode (.lin fp32) y) = true ∧
    wideAt (useFree 64 s) 3 (siteNo aSite) (maskWord (ddMask d) 0) 8 true = .at_ 0xC400001000 ∧
    wideAt (useFree 64 s) 3 (siteNo aSite) 0 256 false = .at_ 0xC400000000 := by decide +kernel

/-! ### Vector tiles -/

/-- An operation descriptor: class, function and format, from registers 1 to 3 to register 4 and predicate 1, one element. -/
def vdWord (cls fn fmt : Nat) : Nat :=
  fn + cls * 2 ^ 6 + fmt * 2 ^ 10 + 1 * 2 ^ 14 + 2 * 2 ^ 20 + 3 * 2 ^ 26 + 4 * 2 ^ 32 + 1 * 2 ^ 40 + 1 * 2 ^ 44

/-- The V tile on a VOP of a class. -/
def vopState (cls fn fmt : Nat) : State := onStep vSite 1 0 0 [(0x2000, 8, vdWord cls fn fmt)]

theorem witness_vops : ∀ p ∈ [(0, 4), (1, 4), (2, 4), (3, 0), (4, 4), (5, 4), (6, 4), (7, 4), (8, 4), (9, 10), (10, 10)],
    let s := vopState p.1 0 p.2
    let v := (tileAt s (siteNo vSite)).v
    let d := vdAt (tileAt s (siteNo vSite)) 0
    standsB vSite .V 3 (stepFields 1 0 0) s = true ∧ (tileAt s (siteNo vSite)).seq.issued = false ∧ vHeld v (vdReads d) (vdWrites d) = false ∧ vdBiasUe v d = false ∧
    okWith (aluRun v none d s.free) (fun _ => true) = true ∧ vdClass d = p.1 := by decide +kernel

theorem witness_int_vop : ∀ p ∈ [(0, 8), (0x10, 8), (3, 9), (0x10, 0xA)], let s := vopState 9 p.1 p.2
    let d := vdAt (tileAt s (siteNo vSite)) 0
    standsB vSite .V 3 (stepFields 1 0 0) s = true ∧ vdClass d = 9 ∧ vdFmt d = p.2 ∧ vdFunc d = p.1 ∧ vdSa d < 32 ∧ vdSb d < 32 ∧
    (tileAt s (siteNo vSite)).seq.issued = false ∧ vHeld (tileAt s (siteNo vSite)).v (vdReads d) (vdWrites d) = false := by decide +kernel

/-- The V tile on a CHAIN of n stages, each the integer sum of registers 1 and 2. -/
def chainState (n : Nat) : State := onStep vSite 2 0 0 [(0x2000, 8, vdWord 9 0 8), (0x2400, 16, n * 2 ^ 56)]

theorem witness_chains : ∀ n ∈ [0, 1, 8], let s := chainState n
    let x := tileAt s (siteNo vSite)
    let cd := cdAt x 0
    standsB vSite .V 3 (stepFields 2 0 0) s = true ∧ x.seq.issued = false ∧ vHeld x.v (chainRegs x cd).1 (chainRegs x cd).2 = false ∧ chainBiasUe x cd = false ∧
    cdStages cd = n ∧ okWith (chainRun x cd n 0 none x.v 0 s.free) (fun _ => true) = true := by decide +kernel

/-- The V tile on a memory step with its descriptor. -/
def moveState (opc md : Nat) : State := onStep vSite opc 0 0 [(0x2500, 16, md)]
def mdWord (space : Bool) (lines : Nat) : Nat := 4 * 2 ^ 59 + 511 * 2 ^ 28 + lines * 2 ^ 46 + if space then 2 ^ 56 else 0

theorem witness_vld_and_vst : ∀ opc ∈ [3, 4], ∀ space ∈ [true, false], let s := moveState opc (mdWord space 0)
    let x := tileAt s (siteNo vSite)
    let d := mdAt x 0
    standsB vSite .V 3 (stepFields opc 0 0) s = true ∧ x.seq.issued = false ∧ (fmtOf (mdFmt d)).isSome = true ∧ vHeld x.v [0] [0] = false ∧
    mdSpace d = space ∧ mdCline d + 0 * mdCinc d ≤ 511 ∧ ueAt s (ocBase (siteNo vSite) + 512 * 511) 512 = none ∧ s.dev.debug = false ∧
    x.v.biasBad = [] ∧ (∀ store : Bool, moverHeld x [(511, 1)] [] store = false ∧ moverHeld x [] (vldPlaces d 0) store = false) := by
  decide +kernel

theorem witness_vld_neighbour : let s := moveState 3 (mdWord true 0)
    let x := tileAt s (siteNo vSite)
    okWith (vldRead s 3 (siteNo vSite) (mdAt x 0) 0 (vBiasAt x.v 0)) (fun _ => true) = true ∧
    okWith (vstPlan s 3 (siteNo vSite) (mdAt x 0) 0 (vRegAt x.v 0).toNat (vBiasAt x.v 0).toNat) (fun _ => true) = true := by decide +kernel

theorem witness_movers : ∀ opc ∈ [5, 6], ∀ n ∈ [0, 1], let s := moveState opc (mdWord true n)
    let x := tileAt s (siteNo vSite)
    let d := mdAt x 0
    standsB vSite .V 3 (stepFields opc 0 0) s = true ∧ x.seq.issued = false ∧ (fmtOf (mdFmt d)).isSome = true ∧ mdNlines d = n ∧ mdBias d = false ∧
    mdCline d + 0 * mdCinc d ≤ 511 ∧ s.dev.debug = false ∧ wideAt s 3 (vNeighbour (siteNo vSite)) 0 512 true = .at_ (asBase (siteNo (at0 6))) ∧
    wideAt s 3 (vNeighbour (siteNo vSite)) 0 512 false = .at_ (asBase (siteNo (at0 6))) ∧
    ueAt s (ocBase (siteNo vSite) + 512 * 511) 512 = none ∧ (asAddr s 3 (vNeighbour (siteNo vSite)) 0 512).isSome = true ∧
    (∀ p ∈ moverPlaces d 0 0, (asAddr s 3 (vNeighbour (siteNo vSite)) p.1 p.2).isSome = true) ∧
    (∀ load : Bool, okWith (moverLine s 3 (siteNo vSite) (mdAt (tileAt (moveState opc (mdWord true 1)) (siteNo vSite)) 0) 0 0 load) (fun _ => true) = true) := by decide +kernel

/-- The V tile on a QIO: port descriptor, with a unit in progress, a token in queue 0 and credits of output 0. -/
def qioState (pt : Nat) (qin qout : Option QioOp) : State :=
  let s := onStep vSite 7 0 (4 * 2 ^ 3) [(0x2600, 4, pt)]
  modTile (siteNo vSite) (fun t => { t with
    v := { VTile.reset with qin := qin, qout := qout }, queues := one 0 [tok7], dcred := one 0 2, ccred := one 0 2 }) s

/-- A port descriptor: two tokens, in or out, of data or control. -/
def ptWord (out ctrl : Bool) : Nat := (if out then 1 else 0) + (if ctrl then 2 + 10 * 2 ^ 21 else 6 * 2 ^ 21) + 2 * 2 ^ 8

theorem witness_qio : ∀ out ∈ [true, false], ∀ ctrl ∈ [true, false], let s := qioState (ptWord out ctrl) none none
    let x := tileAt s (siteNo vSite)
    let d := ptAt x 0
    standsB vSite .V 3 (stepFields 7 0 (4 * 2 ^ 3)) s = true ∧ x.seq.issued = false ∧ ptUndef x d = none ∧ x.v.qin = none ∧ x.v.qout = none ∧
    ptCount d ≠ 0 ∧ ptOut d = out ∧ ptCtrl d = ctrl ∧ ptMask d = false := by decide +kernel

theorem witness_qio_moves : ∀ ctrl ∈ [true, false], ∀ j ∈ [0, 1], let q : QioOp := ⟨0, 4, j⟩
    let s := qioState (ptWord false ctrl) (some q) none
    let x := tileAt s (siteNo vSite)
    let d := ptAt x 0
    let u := qioState (ptWord true ctrl) none (some q)
    let y := tileAt u (siteNo vSite)
    runOf s (siteNo vSite) = some wholeRun ∧ x.v.qin = some q ∧ j < ptCount d ∧ ptMask d = false ∧
    headOf x (if ptCtrl d then ptQp d else ptQp d + j % nqOf (ptNq d)) = .tok tok7 ∧ runOf u (siteNo vSite) = some wholeRun ∧ y.v.qout = some q ∧
    j < ptCount (ptAt y 0) ∧ ptMask (ptAt y 0) = false ∧ Tab.get [] y.v.outToks (ptPort (ptAt y 0)) = [] ∧
    hasCredit y (ptPort (ptAt y 0)) (ptCtrl (ptAt y 0)) = true := by decide +kernel

theorem witness_xop : ∀ p ∈ [(8, 0), (8, 1), (8, 2), (8, 3), (9, 0)], let s := onStep vSite p.1 0 (0xFFF * 2 ^ 4 + p.2 * 2 ^ 16) []
    standsB vSite .V 3 (stepFields p.1 0 (0xFFF * 2 ^ 4 + p.2 * 2 ^ 16)) s = true ∧ (tileAt s (siteNo vSite)).seq.issued = false ∧
    fld (0xFFF * 2 ^ 4 + p.2 * 2 ^ 16) 16 2 = p.2 ∧ vHeld (tileAt s (siteNo vSite)).v [] [0] = false := by decide +kernel

/-! ### A tiles -/

/-- The A tile on an engine step: queue 1 enabled with a token, credits of output 0, COUNT positions. -/
def engineState (opc count : Nat) (a : Option AOp) : State :=
  let s := running (siteNo aSite) (tileWith [(0, 8, stepWord opc 0 (1 * 2 ^ 4)), (0x2000, 16, count * 2 ^ 28 + 6 * 2 ^ 45)] [(0x44, 4, 2 ^ 21)])
  modTile (siteNo aSite) (fun t => { t with a := a, queues := one 1 [tok7], dcred := one 0 2 }) s

theorem witness_engine_steps : ∀ p ∈ [(AKind.st, 1), (.ld, 2), (.aadd, 3), (.aswap, 4)], ∀ count ∈ [0, 3], let s := engineState p.2 count none
    let x := tileAt s (siteNo aSite)
    standsB aSite .A 3 (stepFields p.2 0 (1 * 2 ^ 4)) s = true ∧ x.seq.issued = false ∧ x.a = none ∧ aUndef x p.1 (adAt x 0) 1 0 = none ∧
    adCount (adAt x 0) = count := by decide +kernel

theorem witness_engine_moves : ∀ kd ∈ [AKind.st, .ld, .aadd, .aswap], ∀ j ∈ [0, 2], let p : AOp := ⟨kd, 0, 1, 0, 0, j, false, []⟩
    let s := engineState 0 3 (some p)
    let x := tileAt s (siteNo aSite)
    runOf s (siteNo aSite) = some wholeRun ∧ x.a = some p ∧ adMask (adAt x 0) = false ∧ s.dev.debug = false ∧ headOf x 1 = .tok tok7 ∧
    hasCredit x 0 false = true ∧ ownAt s 3 (siteNo aSite) (j * 64) 64 true = .at_ (asBase (siteNo aSite) + j * 64) ∧
    ownAt s 3 (siteNo aSite) (j * 64) 64 false = .at_ (asBase (siteNo aSite) + j * 64) := by decide +kernel

/-- The A tile on a WIN step, window 0 enabled with LEN 2, its queue or output 1. -/
def armedState (wait out : Bool) (flow : Nat) (w : Win) : State :=
  let s := running (siteNo aSite) (tileWith [(0, 8, stepWord 5 flow (if wait then 4 else 0))]
    [(0x44, 4, 2 ^ 21), (0xC0, 8, 1 + (if out then 2 else 0) + 1 * 2 ^ 2 + 2 * 2 ^ 21)])
  modTile (siteNo aSite) (fun t => { t with wins := one 0 w, queues := one 1 [tok7], dcred := one 1 2 }) s

theorem witness_window_steps : ∀ flow ∈ [0, 4], ∀ w ∈ [Win.reset, ⟨true, 2, true, []⟩], let s := armedState false false flow w
    let u := armedState true false flow ⟨true, 2, true, []⟩
    let x := tileAt s (siteNo aSite)
    standsB aSite .A 3 (stepFields 5 flow 0) s = true ∧ x.seq.issued = false ∧ swEn (swinReg x 0) = true ∧
    ((winAt x 0).armed = false ∨ (winAt x 0).done = true) ∧ (asAddr s 3 (siteNo aSite) (swBase (swinReg x 0) * 64) (swLen (swinReg x 0) * 64)).isSome = true ∧
    standsB aSite .A 3 (stepFields 5 flow 4) u = true ∧ (tileAt u (siteNo aSite)).seq.issued = false ∧ bitAt 4 2 = true ∧ bitAt 0 2 = false ∧
    (winAt (tileAt u (siteNo aSite)) 0).done = true ∧ fenceOk (tileAt u (siteNo aSite)) .A = true := by decide +kernel

theorem witness_window_moves : ∀ n ∈ [0, 1], ∀ out ∈ [true, false], let s := armedState false out 0 ⟨true, n, false, []⟩
    let x := tileAt s (siteNo aSite)
    let r := swinReg x 0
    runOf s (siteNo aSite) = some wholeRun ∧ kindOf (siteNo aSite) = .A ∧ swEn r = true ∧ winAt x 0 = ⟨true, n, false, []⟩ ∧ s.dev.debug = false ∧
    swDirOut r = out ∧ stepsUseQ x (swQp r) = false ∧ engineHasQ x (swQp r) = false ∧ qCtrl x (swQp r) = false ∧ qEn x (swQp r) = true ∧ headOf x (swQp r) = .tok tok7 ∧
    stepsUseO x (fld (swQp r) 0 2) = false ∧ engineHasO x (fld (swQp r) 0 2) = false ∧ hasCredit x (fld (swQp r) 0 2) false = true ∧
    ownAt s 3 (siteNo aSite) (n * 64) 64 false = .at_ (asBase (siteNo aSite) + n * 64) ∧
    ownAt s 3 (siteNo aSite) (n * 64) 64 true = .at_ (asBase (siteNo aSite) + n * 64) := by decide +kernel

/-! ### Border tiles -/

/-- A stream descriptor: its bytes of HBM from context-relative address 0, elements of 1 B, CNT0, and further fields. -/
def sdWord (write : Bool) (cnt more : Nat) : Nat :=
  (if write then 2 ^ 48 else 0) + more + cnt * 2 ^ 228 + 2 ^ 292 + 2 ^ 356 + 2 ^ 420 + 2 ^ 484 + 2 ^ 192

/-- A B tile on a step, with one stream descriptor, its stream and a run in a phase; 2 MiB of HBM are translated by its TLB. -/
def streamState (opc flow args sd : Nat) (x : Stream) (ph : Phase) (b : BTile → BTile) : State :=
  let s := running (siteNo bSite) { tileWith [(0, 8, stepWord opc flow args), (0x2000, 64, sd)] [(0xC0, 4, 1)] with
    b := b { BTile.reset with streams := one 0 x, tlb := [⟨3, 0, 2 ^ 21, 0x40000000, true⟩] }, queues := one 0 [tok7], dcred := one 0 2 }
  { s with ctxs := one 3 { mapped with relocHbm := BitVec.ofNat 64 (2 ^ 27) }, hoops := one 0 { Hoop.reset with runs := [{ wholeRun with phase := ph }] } }

def runPh (ph : Phase) : RunSt := { wholeRun with phase := ph }
def plainStream (st : StreamState) : Stream := { Stream.reset with st := st, started := if st = .idle then 0 else 1 }

theorem witness_sstart : ∀ flow ∈ [0, 4], ∀ write ∈ [true, false], ∀ cnt ∈ [0, 100], ∀ st ∈ [StreamState.idle, .complete],
    let s := streamState 1 flow 0 (sdWord write cnt 0) (plainStream st) .input id
    let k := siteNo bSite
    let x := tileAt s k
    let d := sdAt x 0
    let y := streamAt x 0
    let y' : Stream := { Stream.reset with st := .started, started := x.b.nextStart, out := y.out }
    let s1 := modB k (fun b => { b with nextStart := b.nextStart + 1 }) (setStream k 0 y' s)
    let u := if sdTotal d = 0 then completeStream k 3 0 y' s1 else promoteStreams k (runPh .input) 1024 s1
    standsB bSite .B 3 (stepFields 1 flow 0) s = true ∧ runOf s k = some (runPh .input) ∧ x.seq.issued = false ∧ stepStream x (stepFields 1 flow 0) = 0 ∧
    0 < sdCount x ∧ y.st = st ∧ streamUndef s k d = false ∧ portClash (tileAt u k) = false ∧ sdTotal d = cnt := by decide +kernel

theorem witness_swait_and_phase : ∀ flow ∈ [0, 4], ∀ p ∈ [(2, 0), (3, 0), (3, 1)], let s := streamState p.1 flow p.2 (sdWord false 4 0) (plainStream .complete) .compute id
    let x := tileAt s (siteNo bSite)
    standsB bSite .B 3 (stepFields p.1 flow p.2) s = true ∧ (p.1 = 2 → stepStream x (stepFields p.1 flow p.2) < sdCount x) ∧ (streamAt x 0).started ≠ 0 ∧
    (streamAt x 0).st = .complete ∧ fenceOk x .B = true ∧ readsDone x = true := by decide +kernel

theorem witness_phase_advance : ∀ p ∈ [(Phase.input, 1), (Phase.compute, 2)],
    let s := streamState 0 0 0 (sdWord false 4 0) (plainStream .complete) p.1 (fun b => { b with fired := p.2 })
    let r := runPh p.1
    let bs := activeB s 0 r
    let moved (q : Phase) : State := bs.foldl (fun s k => promoteStreams k { r with phase := q } 1024 s)
      (modHoop 0 (fun x => { x with runs := x.runs.map fun y => if y = r then { y with phase := q } else y }) s)
    (hoopAt s 0).runs.find? (fun r => decide (r.entry = 0) && decide (r.stage = .running)) = some r ∧ bs ≠ [] ∧ r.split = true ∧ r.outOk = true ∧
    (∀ k ∈ bs, p.2 ≤ (tileAt s k).b.fired) ∧ (∀ k ∈ bs, portClash (tileAt (moved .compute) k) = false) ∧
    (∀ k ∈ bs, portClash (tileAt (moved .output) k) = false) := by decide +kernel

/-- Stream states that StreamsIssueRequests is about. -/
def issuing : Stream := plainStream .issuing

theorem witness_streams_issue : ∀ p ∈ [(streamState 0 0 0 (sdWord false 100 0) (plainStream .started) .compute id, StreamState.started),
      (streamState 0 0 0 (sdWord true 100 (2 * 2 ^ 126)) issuing .output id, .issuing), (streamState 0 0 0 (sdWord false 100 0) issuing .input id, .issuing),
      (streamState 0 0 0 (sdWord true 1 0) { issuing with buf := [9] } .output (fun b => b), .issuing), (streamState 0 0 0 (sdWord true 100 0) issuing .output id, .issuing)],
    let s := p.1
    let k := siteNo bSite
    ∀ r ∈ (hoopAt s 0).runs, let u := promoteStreams k r 1024 s
    let x := streamAt (tileAt u k) 0
    let d := sdAt (tileAt u k) 0
    runOf s k = some r ∧ kindOf k = .B ∧ (streamAt (tileAt s k) 0).started ≠ 0 ∧ portClash (tileAt u k) = false ∧ x.st = p.2 ∧
    (x.st = .started → phaseAllows r (sdWrite d) = false) ∧ (x.st = .issuing → phaseAllows r (sdWrite d) = true) ∧ x.waitVa = none ∧ x.next < sdTotal d ∧ headOf (tileAt u k) (sdPort d) = .tok tok7 ∧
    sdMen d = false ∧ sdIen d = false ∧ x.bits = [] ∧ outstanding (tileAt u k) true < 192 ∧ outstanding (tileAt u k) false < 64 ∧
    elemAddr d x.next (coordOf d x.next 4) % (sdEsize d : Int) = 0 ∧ hbmVa u 3 0 1 = some 0 ∧ apertureOf u 3 0 = none ∧ syncHbmHit u 3 0 1 = false ∧
    tlbFind (tileAt u k) 3 0 = some ⟨3, 0, 2 ^ 21, 0x40000000, true⟩ := by decide +kernel

theorem witness_stream_kinds : ∀ p ∈ [(sdWord true 100 (2 * 2 ^ 126), 2, true), (sdWord false 100 0, 0, false), (sdWord true 1 0, 0, true)],
    sdKind p.1 = p.2.1 ∧ sdWrite p.1 = p.2.2 ∧ sdTsize p.1 = 1 ∧ elemAddr p.1 0 (coordOf p.1 0 4) = 0 := by decide +kernel

/-- A WRITE stream holding the bytes of its next element, its queue empty. -/
def writeReady : State :=
  modTile (siteNo bSite) (fun t => { t with queues := [] }) (streamState 0 0 0 (sdWord true 1 0) { issuing with buf := [9] } .output id)

def isAt (a : SAccess) (pa : Nat) : Bool := match a with | .at_ x => decide (x = pa) | .stop _ => false
theorem isAt_of {a : SAccess} {pa : Nat} (h : isAt a pa = true) : a = .at_ pa := by
  cases a with
  | at_ x => simp only [isAt, decide_eq_true_eq] at h; rw [h]
  | stop o => cases h

theorem witness_stream_access : let k := siteNo bSite
    let r := streamState 0 0 0 (sdWord false 100 0) issuing .input id
    streamAccess k 3 0 0 1 false true 0 (promoteStreams k (runPh .input) 1024 r) = .at_ 0x40000000 ∧
    streamAccess k 3 0 0 1 true true 1 (promoteStreams k (runPh .output) 1024 writeReady) = .at_ 0x40000000 ∧
    (∀ p ∈ [(r, Phase.input), (writeReady, .output)], ∀ read ∈ [true, false], canIssue (tileAt (promoteStreams k (runPh p.2) 1024 p.1) k) read = true) ∧
    (∀ d ∈ [sdWord false 100 0, sdWord true 1 0], sdMen d = false ∧ sdIen d = false ∧ sdMerge d = false) ∧ issuing.bits = [] ∧
    qToks (tileAt writeReady k) 0 = [] ∧ portClash (tileAt (promoteStreams k (runPh .output) 1024 writeReady) k) = false :=
  ⟨isAt_of (by decide +kernel), isAt_of (by decide +kernel), by decide +kernel, by decide +kernel, rfl, by decide +kernel, by decide +kernel⟩

/-- A request on its way, and a write of it that its controller has performed. -/
def reqOf (read merge : Bool) : StreamReq := ⟨0, 0, 4, 0, 0x40000000, 4, read, if read then [] else [1, 2, 3, 4], merge, 6, 6⟩
def ackState : State :=
  let s := streamState 0 0 0 (sdWord true 4 0) { issuing with next := 4, reqs := [reqOf false false] } .output id
  modNet (fun n => { n with writes := [⟨6, 3, 0, some (siteNo bSite), 0, 0x40000000, [1, 2, 3, 4], true, false⟩] }) s

theorem witness_stream_ack : let x := streamAt (tileAt ackState (siteNo bSite)) 0
    runOf ackState (siteNo bSite) = some (runPh .output) ∧ x.started ≠ 0 ∧ sdWrite (sdAt (tileAt ackState (siteNo bSite)) 0) = true ∧
    (x.reqs.map (·.wid)).Nodup ∧ reqOf false false ∈ x.reqs ∧ x.reqs.find? (fun q => !q.isRead && !q.merge &&
        ackState.net.writes.any fun w => decide (w.wid = q.wid) && w.done) = some (reqOf false false) ∧ x.reqs = [reqOf false false] ∧ x.st = .issuing ∧
    sdTotal (sdAt (tileAt ackState (siteNo bSite)) 0) ≤ x.next ∧ x.bits = [] := by decide +kernel

/-- A WRITE whose elements are all issued and performed, its requests gone with an eviction. -/
theorem witness_stream_ends : let s := streamState 0 0 0 (sdWord true 4 0) { issuing with next := 4 } .output id
    let x := streamAt (tileAt s (siteNo bSite)) 0
    let d := sdAt (tileAt s (siteNo bSite)) 0
    runOf s (siteNo bSite) = some (runPh .output) ∧ x.started ≠ 0 ∧ sdWrite d = true ∧ sdKind d ≠ 2 ∧ x.reqs = [] ∧ x.st = .issuing ∧ sdTotal d ≤ x.next ∧
    x.bits = [] := by decide +kernel

/-- A READ with a token to send, with or without a credit, and one with data to pack. -/
def readState (out : List (Bool × DataTok)) (cred : Nat) : State :=
  modTile (siteNo bSite) (fun t => { t with dcred := one 0 cred })
    (streamState 0 0 0 (sdWord false 8 0) { issuing with next := 4, out := out, reqs := [reqOf true false] } .input id)

theorem witness_stream_read : ∀ p ∈ [(readState [(false, 5), (false, 6)] 2, [(false, (5 : DataTok)), (false, 6)], true), (readState [(false, 5)] 0, [(false, 5)], false),
      (readState [] 2, [], true)], let x := streamAt (tileAt p.1 (siteNo bSite)) 0
    runOf p.1 (siteNo bSite) = some (runPh .input) ∧ x.started ≠ 0 ∧ x.out = p.2.1 ∧ hasCredit (tileAt p.1 (siteNo bSite)) 0 false = p.2.2 ∧
    sdPort (sdAt (tileAt p.1 (siteNo bSite)) 0) = 0 ∧ sdWrite (sdAt (tileAt p.1 (siteNo bSite)) 0) = false ∧ sdKind (sdAt (tileAt p.1 (siteNo bSite)) 0) = 0 ∧
    sdConv (sdAt (tileAt p.1 (siteNo bSite)) 0) = false ∧ x.reqs = [reqOf true false] ∧ ueAt p.1 0x40000000 4 = none := by decide +kernel

/-- A request in the merge buffer, and one that may be promoted. -/
def mergeState (merge : Bool) : State :=
  streamState 0 0 0 (sdWord false 8 0) { issuing with next := 4, reqs := [reqOf true merge] } .input id

theorem witness_merge : runOf (mergeState true) (siteNo bSite) = some (runPh .input) ∧ (mergeGroups (tileAt (mergeState true) (siteNo bSite)))[0]? = some (true, 0x400000) ∧
    mayIssue (mergeState true) (siteNo bSite) (true, 0x400000) = true := by
  have h : (tileAt (mergeState true) (siteNo bSite)).b.streams.flatMap (fun p => p.2.reqs.filter (·.merge)) = [reqOf true true] := by decide +kernel
  refine ⟨by decide +kernel, ?_, by decide +kernel⟩
  simp only [mergeGroups, mergeWaiting, h, List.mergeSort_singleton]
  decide +kernel

/-- Merging streams with a request in the merge buffer, which may be issued, and elements left. -/
def mergingState (write : Bool) : State :=
  streamState 0 0 0 (sdWord write 8 (2 ^ 49)) { issuing with next := 4, reqs := [reqOf (!write) true], buf := [9] } (if write then .output else .input) id

theorem witness_merging_issue : ∀ write ∈ [true, false],
    let s := mergingState write
    let k := siteNo bSite
    let r := runPh (if write then .output else .input)
    let u := promoteStreams k r 1024 s
    runOf s k = some r ∧ portClash (tileAt u k) = false ∧ sdMerge (sdAt (tileAt u k) 0) = true ∧ (streamAt (tileAt u k) 0).next < 8 ∧
    sdTotal (sdAt (tileAt u k) 0) = 8 ∧ canIssue (tileAt u k) (!write) = true ∧ (mergeGroups (tileAt u k)).head? = some (!write, 0x400000) ∧
    mayIssue u k (!write, 0x400000) = true := by
  intro write hw
  have h : ∀ write ∈ [true, false], let k := siteNo bSite
      (tileAt (promoteStreams k (runPh (if write then .output else .input)) 1024 (mergingState write)) k).b.streams.flatMap
        (fun p => p.2.reqs.filter (·.merge)) = [reqOf (!write) true] := by decide +kernel
  have h := h write hw
  have g : (mergeGroups (tileAt (promoteStreams (siteNo bSite) (runPh (if write then .output else .input)) 1024 (mergingState write)) (siteNo bSite))).head? =
      some (!write, 0x400000) := by
    simp only [mergeGroups, mergeWaiting, h, List.mergeSort_singleton]
    revert write; decide +kernel
  refine ⟨?_, ?_, ?_, ?_, ?_, ?_, g, ?_⟩ <;> (revert write; decide +kernel)

theorem witness_promote : let x := tileAt (mergeState false) (siteNo bSite)
    let ws := (x.b.streams.flatMap fun p => if sdRate (sdAt x p.1) = 0 then p.2.reqs.map (·.wid) else []).filter fun w => !x.b.promoted.contains w
    kindOf (siteNo bSite) = .B ∧ (ws.mergeSort fun a b => decide (a ≤ b))[0]? = some 6 := by
  have h : (((tileAt (mergeState false) (siteNo bSite)).b.streams.flatMap fun p =>
      if sdRate (sdAt (tileAt (mergeState false) (siteNo bSite)) p.1) = 0 then p.2.reqs.map (·.wid) else []).filter fun w =>
        !(tileAt (mergeState false) (siteNo bSite)).b.promoted.contains w) = [6] := by decide +kernel
  refine ⟨by decide +kernel, ?_⟩
  simp only [h, List.mergeSort_singleton]
  rfl

/-- Two peer tokens of one sender on their way to the B tile, and one in its buffer. -/
def peerState : State :=
  modNet (fun n => { n with peers := [⟨1, 16, 0, siteNo bSite, 0, 3, 11⟩, ⟨2, 16, 0, siteNo bSite, 0, 3, 12⟩] })
    (streamState 0 0 0 0 Stream.reset .input (fun b => { b with peer := [⟨0, 3, 9⟩] }))

theorem witness_peers : let k := siteNo bSite
    (peerState.net.peers.filter fun p => p.dst = k)[1]? = some ⟨2, 16, 0, siteNo bSite, 0, 3, 12⟩ ∧
    (peerState.net.peers.filter fun p => p.dst = k).find? (fun p => p.src = 16) = some ⟨1, 16, 0, siteNo bSite, 0, 3, 11⟩ ∧ (tileAt peerState k).b.peer.length < 1024 ∧
    runOf peerState k = some (runPh .input) ∧ (tileAt peerState k).b.peer.find? (fun p => p.out = 0) = some ⟨0, 3, 9⟩ ∧ (runPh .input).ctx = 3 ∧
    hasCredit (tileAt peerState k) 0 false = true :=
  by decide +kernel

/-- A walk in progress for stream 0, whose tables map its first 2 MiB, or nothing. -/
def walkState (leaf : Bool) : State :=
  let root := ptRoot 0 3
  let s := streamState 0 0 0 (sdWord false 8 0) { issuing with waitVa := some (0x1234, 0) } .input (fun b => { b with walks := [⟨3, 0x1234, [0]⟩] })
  let m := putBytes (putBytes [] root (toLE 8 (1 + root + 0x1000))) (root + 0x1000) (toLE 8 (1 + root + 0x2000))
  if leaf then { s with mem := putBytes m (root + 0x2000) (toLE 8 (7 + 3 * 2 ^ 21)) } else s

theorem witness_walks : let k := siteNo bSite
    (∀ leaf ∈ [true, false], kindOf k = .B ∧ (tileAt (walkState leaf) k).b.walks[0]? = some ⟨3, 0x1234, [0]⟩ ∧
      (streamAt (tileAt (walkState leaf) k) 0).waitVa = some (0x1234, 0)) ∧
    walk (walkState true) 3 (quarterOf (noHoop k)) 0x1234 = .leaf (3 * 2 ^ 21) (2 ^ 21) true ∧
    walk (walkState false) 3 (quarterOf (noHoop k)) 0x1234 = .miss := by decide +kernel

/-! ### Circuits, shuttles and gathering queues -/

/-- A tile with these registers in a run. -/
def tileReg (cfg : List (Nat × Nat × Nat)) : Tile := tileWith [] cfg

/-- A1 of Hoop 0 sends output 0 east in slot 0 to queue 3 of M2, of its kind; a token is on the circuit and a credit on its way back. -/
def circuitState (ctrl : Bool) : State :=
  let s := running (siteNo aSite) { tileReg [(2 * 4, 2, 5), (0x80, 4, 2 + 2 * 2 ^ 11)] with dcred := one 0 1, ccred := one 0 1 }
  { s with
    tiles := one (siteNo aSite) (tileAt s (siteNo aSite)) ++
      one (siteNo mSite) (tileReg [(0x20 + 2 * 12, 2, if ctrl then 2 ^ 5 + 3 * 2 ^ 6 else 1 + 3 * 2), (0x4C, 4, 4 * 2 ^ 10 + 2 ^ 21 + if ctrl then 2 ^ 20 else 0)])
    hoops := one 0 { Hoop.reset with runs := [wholeRun], flight := [⟨ctrl, 7, true, siteNo aSite, 0, 8, [], none⟩], credits := [⟨6, siteNo aSite, 0, ctrl, 0⟩] } }

theorem witness_circuits : ∀ ctrl ∈ [true, false], let s := circuitState ctrl
    let k := siteNo aSite
    (hoopAt s (noHoop k)).flight.find? (fun a => decide (a.src = k) && decide (a.port = 0) && a.ctrl == ctrl) = some ⟨ctrl, 7, true, k, 0, 8, [], none⟩ ∧
    badEntries (tileAt s k) k 0 = false ∧ inject s ctrl k 0 0 = [.queue (siteNo mSite) 3] ∧ ownerOf s (siteNo mSite) = ownerOf s k ∧
    badQueue s ctrl (.queue (siteNo mSite) 3) = none ∧ credAbove s ctrl k 0 (.queue (siteNo mSite) 3) = false ∧
    (⟨6, k, 0, ctrl, 0⟩ : Credit) ∈ (hoopAt s (noHoop k)).credits ∧ (∀ y ∈ (hoopAt s (noHoop k)).credits, y.fid ≠ 7) ∧ (hoopAt s (noHoop k)).stale = [] := by decide +kernel

def sSite : Site := at0 5

/-- A shuttle in a mode, groups of one token; a control token with an ARG in queue 4, and data in queues 0 to 3. -/
def shuttleState (mode type arg : Nat) (sh : STile) : State :=
  running (siteNo sSite) { tileReg [(0xC0, 4, mode), (0xC4, 4, 1)] with
    queues := [(0, [tok7]), (1, [tok7]), (2, [tok7]), (3, [tok7]), (4, [⟨true, BitVec.ofNat 512 (type * 2 ^ 28 + arg), true, 0, 0, 2, [], none⟩])],
    dcred := one 0 2, ccred := one 0 2, sh := sh }

/-- A transaction in progress: a control token to forward, and a leg. -/
def moving (fwd : Bool) (keep : Bool) : STile :=
  { STile.reset with busy := true, fwd := if fwd then some (0, 9) else none, legs := [⟨0, some 0, keep, 1⟩] }

theorem witness_shuttle_begins : ∀ m ∈ [1, 2, 3, 4, 5, 6], ∀ arg ∈ [0, 1, 3], ∀ fwd ∈ [0, 16],
    let type := if m = 4 ∨ m = 5 then 4 else 1
    let s := shuttleState (m + fwd) type arg STile.reset
    let x := tileAt s (siteNo sSite)
    runOf s (siteNo sSite) = some wholeRun ∧ kindOf (siteNo sSite) = .S ∧ x.sh.busy = false ∧ bitAt (shMode x) 3 = false ∧
    headOf x 4 = .tok ⟨true, BitVec.ofNat 512 (type * 2 ^ 28 + arg), true, 0, 0, 2, [], none⟩ ∧ shGrp x ≠ 0 ∧ shModeNo x = m ∧
    (∀ l ∈ liveLegs (shLegs x arg), qToks x l.queue ≠ []) ∧ liveLegs (shLegs x arg) ≠ [] ∧
    headOf (tileAt (shuttleState m 7 arg STile.reset) (siteNo sSite)) 4 = .tok ⟨true, BitVec.ofNat 512 (7 * 2 ^ 28 + arg), true, 0, 0, 2, [], none⟩ := by
  decide +kernel

theorem witness_shuttle_moves : ∀ m ∈ [1, 2, 3, 4, 5, 6], ∀ keep ∈ [true, false], let s := shuttleState m 1 0 (moving true keep)
    let u := shuttleState m 1 0 (moving false keep)
    let x := tileAt s (siteNo sSite)
    let y := tileAt u (siteNo sSite)
    runOf s (siteNo sSite) = some wholeRun ∧ x.sh.busy = true ∧ shModeNo x = m ∧ x.sh.fwd = some (0, 9) ∧ hasCredit x 0 true = true ∧
    runOf u (siteNo sSite) = some wholeRun ∧ y.sh.busy = true ∧ y.sh.fwd = none ∧ y.sh.legs = [⟨0, some 0, keep, 1⟩] ∧
    (if keep then (qToks y 0)[y.sh.moved]? else (qToks y 0)[0]?) = some tok7 ∧ tok7.parityOk = true ∧ hasCredit y 0 false = true := by decide +kernel

/-- A leg that keeps its group, before its last copy: the token stays in its queue. -/
theorem witness_shuttle_copies : let x := tileAt (shuttleState 4 1 0 { moving false true with legs := [⟨0, some 0, true, 2⟩] }) (siteNo sSite)
    x.sh.busy = true ∧ shModeNo x = 4 ∧ x.sh.fwd = none ∧ x.sh.legs = [⟨0, some 0, true, 2⟩] ∧ (qToks x 0)[x.sh.moved]? = some tok7 ∧
    hasCredit x 0 false = true := by decide +kernel

def gSite : Site := at0 14

/-- A gathering queue: formats, TAGGED or the A-tile destination in `bits`, slots 0 to 3, EXP 2; queue 1 enabled with a token. -/
def gatherState (fmt out bits : Nat) (g : GTile) : State :=
  running (siteNo gSite) { tileReg [(0x44, 4, 2 ^ 21), (0xC0, 4, fmt + out * 16 + bits), (0xC4, 4, 2), (0xC8, 4, 3 * 2 ^ 16), (0xD0, 4, 5)] with
    queues := one 1 [tok7], dcred := one 0 1, g := g }

theorem witness_gather_takes : ∀ fmt ∈ [4, 5, 6, 0xA], ∀ tagged ∈ [true, false],
    let s := gatherState fmt fmt (if tagged then 2 ^ 8 else 0) { GTile.reset with group := one 1 (2, 3), taken := one 1 1 }
    let x := tileAt s (siteNo gSite)
    let n := Tab.get 0 x.g.taken 1
    let untagged := gFirst x + (if gLast x + 1 - gFirst x = 0 then 0 else n * gStep x % (gLast x + 1 - gFirst x))
    let j := if gTagged x then 2 else untagged
    runOf s (siteNo gSite) = some wholeRun ∧ kindOf (siteNo gSite) = .G ∧ qCtrl x 1 = false ∧ qEn x 1 = true ∧ gFmtOk x = true ∧
    headOf x 1 = .tok tok7 ∧ x.g.cntFwd < gExpFwd x ∧ gTagged x = tagged ∧ gBadTag x 1 = false ∧ Tab.get (0, 0) x.g.group 1 = (2, 3) ∧ gUsable x j = true ∧
    (Tab.get GSlot.reset x.g.slots j).full = false ∧ (gNarrow x = true → gUsable x (j + 1) = true ∧ (Tab.get GSlot.reset x.g.slots (j + 1)).full = false) := by
  decide +kernel

def fullSlot : GSlot := ⟨0x3F800000, 2, true⟩

theorem witness_gather_forwards : ∀ p ∈ [(6, 6, 0), (4, 4, 0), (6, 6, 2 ^ 9), (4, 4, 2 ^ 9)],
    let s := gatherState p.1 p.2.1 p.2.2 { GTile.reset with slots := [(0, fullSlot), (1, fullSlot)] }
    let x := tileAt s (siteNo gSite)
    let g := Tab.get GSlot.reset x.g.slots 0
    runOf s (siteNo gSite) = some wholeRun ∧ g.full = true ∧ gFmtOk x = true ∧ decide (bitAt (gCfg x) 9 = true) = decide (p.2.2 = 2 ^ 9) ∧
    gOutFmt x = p.2.1 ∧ bitAt (gCfg x) 10 = false ∧ hasCredit x 0 false = true ∧ (Tab.get GSlot.reset x.g.slots 1).full = true ∧
    noCol (siteNo gSite) = 14 ∧ (asAddr s 3 (siteNo gSite + 16) (gABase x) (gRound x g).length).isSome = true ∧
    syncAsHit s 3 (noHoop (siteNo gSite + 16)) (gABase x) (gRound x g).length = false ∧ s.dev.debug = false := by decide +kernel

/-! ### Knots and bindings

The knot at offset 0 of A1 of Hoop 0, which context 3's sync region holds. -/

def knotPa : Nat := 0xC400000000
def knotReqOf (op value : Nat) : KnotReq := ⟨op, BitVec.ofNat 24 value, 0, 3, knotPa, 0, some (siteNo aSite, 1), []⟩
def synced : Ctx := { mapped with syncAs := one 0 (BitVec.ofNat 32 (2 ^ 14)) }

/-- One request on its way, the knot's word, and its waiters. -/
def knotState (op w : Nat) (ws : List Waiter) : State :=
  { State.reset with
    ctxs := one 3 synced, mem := putBytes [] knotPa (toLE 8 w)
    net := { State.reset.net with reqs := [knotReqOf op 5], waiters := Tab.set [] [] knotPa ws } }

theorem knotNext_of {n : Nat} {r : KnotReq} {k b : Nat} {s : State}
    (h : s.net.reqs[n]? = some r ∧ (∀ x ∈ s.net.reqs.take n, reqSource x = reqSource r → knotPort x.pa ≠ knotPort r.pa) ∧
      ueAt s r.pa 8 = none ∧ isPs r.pa = false ∧ r.fromMod = ownId s ∧ asleepAt s r.pa = none ∧ r.who = some (k, b)) : KnotNext n r k b s :=
  ⟨h.1, h.2.1, h.2.2.1, h.2.2.2.1, h.2.2.2.2.1, h.2.2.2.2.2.1, h.2.2.2.2.2.2⟩

def kFull : Nat := 2 ^ 63
def kTarget : Nat := 2 * 2 ^ 40
def waiter (op : Nat) : Waiter := ⟨op, 0, siteNo aSite, 2, 3⟩

theorem witness_knots : ∀ p ∈ [(0, 0, [waiter 2, waiter 1]), (0, kFull, []), (1, kFull, []), (1, 0, []), (2, kFull, []), (2, 0, []), (3, kTarget, []),
      (3, kTarget + 2 ^ 24, [waiter 1]), (3, 0, []), (3, kTarget + kFull, []), (4, kFull, []), (4, 0, [])],
    KnotNext 0 (knotReqOf p.1 5) (siteNo aSite) 1 (knotState p.1 p.2.1 p.2.2) ∧ peekNum (knotState p.1 p.2.1 p.2.2) knotPa 8 = p.2.1 ∧
    portWaiters (knotState p.1 p.2.1 p.2.2) knotPa < 64 := by
  have h : ∀ p ∈ [(0, 0, [waiter 2, waiter 1]), (0, kFull, []), (1, kFull, []), (1, 0, []), (2, kFull, []), (2, 0, []), (3, kTarget, []),
      (3, kTarget + 2 ^ 24, [waiter 1]), (3, 0, []), (3, kTarget + kFull, []), (4, kFull, []), (4, 0, [])],
    let s := knotState p.1 p.2.1 p.2.2
    let r := knotReqOf p.1 5
    (s.net.reqs[0]? = some r ∧ (∀ x ∈ s.net.reqs.take 0, reqSource x = reqSource r → knotPort x.pa ≠ knotPort r.pa) ∧
      ueAt s r.pa 8 = none ∧ isPs r.pa = false ∧ r.fromMod = ownId s ∧ asleepAt s r.pa = none ∧ r.who = some (siteNo aSite, 1)) ∧
    peekNum s knotPa 8 = p.2.1 ∧ portWaiters s knotPa < 64 := by decide +kernel
  exact fun p hp => ⟨knotNext_of (h p hp).1, (h p hp).2⟩

theorem witness_knot_numbers : knFull kFull = true ∧ knFull 0 = false ∧ knTarget kTarget = 2 ∧ knCount kTarget + 1 < knTarget kTarget ∧
    knFull kTarget = false ∧ knTarget (kTarget + 2 ^ 24) ≤ knCount (kTarget + 2 ^ 24) + 1 ∧ knFull (kTarget + 2 ^ 24) = false ∧ knTarget 0 = 0 ∧
    knFull (kTarget + kFull) = true ∧ isHbm knotPa = false ∧
    ¬ portWaiters (knotState 1 0 (List.replicate 64 (waiter 1))) knotPa < 64 := by decide +kernel

/-- A binding of A1: FILL with the token's value, KQ 2, ROUT 1. -/
def bindingState (b : Binding) (sync : Bool) : State :=
  let s := running (siteNo aSite) { tileReg [(0x48, 4, 2 ^ 21 + 2 ^ 20), (0xE0 + 16, 16, 1 + 2 * 2 + 1 * 2 ^ 8)] with
    queues := one 2 [⟨true, 5, true, 0, 0, 1, [], none⟩], ccred := one 1 1, kb := Tab.set .ready [] 1 b }
  let u := modNet (fun n => { n with reps := [⟨knotPort knotPa, siteNo aSite, 1, 9, false, []⟩, ⟨knotPort knotPa, siteNo aSite, 1, 0, true, []⟩] }) s
  if sync then { u with ctxs := one 3 synced } else u

theorem witness_bindings : ∀ b ∈ [Binding.ready, .retry, .sent], let s := bindingState b true
    let x := tileAt s (siteNo aSite)
    let g := kbReg x 1
    let ka := kaddrOf (fld g 64 64)
    runOf s (siteNo aSite) = some wholeRun ∧ kindOf (siteNo aSite) = .A ∧ ka.remote = false ∧ bitAt g 0 = true ∧ fld g 1 4 = 2 ∧ fld g 8 2 = 1 ∧
    bindingUndef s (siteNo aSite) 1 = none ∧ bindingAt x 1 = b ∧ headOf x 2 = .tok ⟨true, 5, true, 0, 0, 1, [], none⟩ ∧
    knotAt (windowPop (siteNo aSite) 2 s) 3 0 ka (kbOp g ≠ 2) = .at_ knotPa ∧ knotAt s 3 0 ka (kbOp g ≠ 2) = .at_ knotPa ∧
    knotAt (windowPop (siteNo aSite) 2 (bindingState b false)) 3 0 ka (kbOp g ≠ 2) = .bound ∧
    s.net.reps[0]? = some ⟨knotPort knotPa, siteNo aSite, 1, 9, false, []⟩ ∧ s.net.reps[1]? = some ⟨knotPort knotPa, siteNo aSite, 1, 0, true, []⟩ ∧ replyBehind s 0 ⟨knotPort knotPa, siteNo aSite, 1, 9, false, []⟩ = false ∧
    replyBehind { s with net := { s.net with reps := s.net.reps.drop 1 } } 0 ⟨knotPort knotPa, siteNo aSite, 1, 0, true, []⟩ = false ∧ hasCredit x 1 true = true := by
  decide +kernel

/-! ### Channels: channel 9 with both halves here, its ring of 16 slots at 4 KiB of A1, its ports those of B0 -/

def ringChan (st : ChanState) (tail tailSeen : Nat) : Chan :=
  { Chan.reset with
    st := st, ctx := 3, half := 3, ringLog2 := 4, ringBase := 4096, sender := BitVec.ofNat 32 (endpointOf (siteNo bSite) 0)
    receiver := BitVec.ofNat 32 (endpointOf (siteNo bSite) 1), tail := BitVec.ofNat 32 tail, tailSeen := BitVec.ofNat 32 tailSeen }

/-- B0 in a run: CP0 sends from queue 2, CP1 receives to output 1; slots held by a port. -/
def chanState (x : Chan) (ports : Tab (List (DataTok × Tab Nat))) (tok : DataTok) : State :=
  let s := running (siteNo bSite) { tileReg [(0x48, 4, 2 ^ 21), (0x1A0, 4, 1 + 2 * 4 + 9 * 2 ^ 6), (0x1A4, 4, 1 + 2 + 1 * 4 + 9 * 2 ^ 6)] with
    queues := one 2 [⟨false, tok, true, 0, 0, 1, [], none⟩], dcred := one 1 2, b := { BTile.reset with ports := ports } }
  { s with chans := one 9 x }

theorem portOn_of {recv : Bool} {site : Site} {p : Fin 4} {n : Nat} {st : ChanState} {s : State}
    (h : (runOf s (siteNo site)).map (·.ctx) = some (chanAt s n).ctx ∧ kindOf (siteNo site) = .B ∧
      bitAt (cpReg (tileAt s (siteNo site)) p.val) 0 = true ∧ bitAt (cpReg (tileAt s (siteNo site)) p.val) 1 = recv ∧
      fld (cpReg (tileAt s (siteNo site)) p.val) 6 12 = n ∧ (if recv then hasReceiver (chanAt s n) else hasSender (chanAt s n)) = true ∧
      (if recv then (chanAt s n).receiver else (chanAt s n).sender).toNat = endpointOf (siteNo site) p.val ∧ (chanAt s n).st = st) :
    PortOn recv site p n st s := by
  obtain ⟨a, b, c, d, e, f, g, i⟩ := h
  refine ⟨?_, b, c, d, e, f, g, i⟩
  cases hr : runOf s (siteNo site) with
  | none => rw [hr] at a; cases a
  | some r => rw [hr] at a; exact ⟨r, rfl, by simpa using a.symm⟩

/-- A port's condition as one that is evaluated. -/
def portB (recv : Bool) (site : Site) (p : Fin 4) (n : Nat) (st : ChanState) (s : State) : Bool :=
  decide ((runOf s (siteNo site)).map (·.ctx) = some (chanAt s n).ctx ∧ kindOf (siteNo site) = .B ∧
      bitAt (cpReg (tileAt s (siteNo site)) p.val) 0 = true ∧ bitAt (cpReg (tileAt s (siteNo site)) p.val) 1 = recv ∧
      fld (cpReg (tileAt s (siteNo site)) p.val) 6 12 = n ∧ (if recv then hasReceiver (chanAt s n) else hasSender (chanAt s n)) = true ∧
      (if recv then (chanAt s n).receiver else (chanAt s n).sender).toNat = endpointOf (siteNo site) p.val ∧ (chanAt s n).st = st)

theorem witness_send_faulted : ∀ ports ∈ [[], one 0 [((1 : DataTok), ([] : Tab Nat))]], let s := chanState (ringChan .faulted 0 0) ports 1
    portB false bSite 0 9 .faulted s = true ∧ portSlots (tileAt s (siteNo bSite)) 0 = Tab.get [] ports 0 ∧
    headOf (tileAt s (siteNo bSite)) (fld (cpReg (tileAt s (siteNo bSite)) 0) 2 4) = .tok ⟨false, 1, true, 0, 0, 1, [], none⟩ := by decide +kernel

/-- A first slot of a two-slot message, and what follows it. -/
def first2 : DataTok := BitVec.ofNat 512 (1 + 1 * 16)

theorem witness_send_gathers : ∀ ports ∈ [[], one 0 [(first2, ([] : Tab Nat))]], let s := chanState (ringChan .opened 14 0) ports first2
    let x := tileAt s (siteNo bSite)
    portB false bSite 0 9 .opened s = true ∧ sendShared x 0 2 = false ∧ fld (cpReg x 0) 2 4 = 2 ∧ qCtrl x 2 = false ∧
    (∀ v ∈ (portSlots x 0).head?.toList, (portSlots x 0).length < msgExt v.1 + 1) ∧
    headOf x 2 = .tok ⟨false, first2, true, 0, 0, 1, [], none⟩ ∧ msgKind first2 = 1 := by decide +kernel

/-- A port that holds a whole message, at the ring's last two slots. -/
def sendState : State := chanState (ringChan .opened 14 0) (one 0 [(first2, []), (7, [])]) first2

theorem witness_send_writes : ∃ u, portB false bSite 0 9 .opened sendState = true ∧ sendShared (tileAt sendState (siteNo bSite)) 0 2 = false ∧
    portSlots (tileAt sendState (siteNo bSite)) 0 = (first2, []) :: [(7, [])] ∧ msgExt first2 + 1 ≤ 2 ∧ hasReceiver (chanAt sendState 9) = true ∧
    (chanAt sendState 9).tail.toNat % ringN (chanAt sendState 9) + 2 ≤ ringN (chanAt sendState 9) ∧ 2 ≤ freeSlots (chanAt sendState 9) ∧
    pushSlots 9 (some (siteNo bSite)) 14 (BitVec.ofNat 512 (setFld first2.toNat 48 16 0) :: [(7 : DataTok)]) [] sendState = (u, none) ∧
    fenceMet u ⟨9, (chanAt sendState 9).tail + 2, some (siteNo bSite), u.net.nextWid⟩ = true ∧ u.net.held = [] ∧ (chanAt sendState 9).space = 0 ∧
    (asAddr sendState 3 (tileOfIndex .A 0 0) (4096 + 64 * 14) (64 * 2)).isSome = true := by
  refine ⟨(pushSlots 9 (some (siteNo bSite)) 14 (BitVec.ofNat 512 (setFld first2.toNat 48 16 0) :: [(7 : DataTok)]) [] sendState).1, ?_⟩
  refine ⟨by decide +kernel, by decide +kernel, rfl, by decide +kernel, by decide +kernel, by decide +kernel, by decide +kernel,
    Prod.ext rfl (Option.isNone_iff_eq_none.1 ?_), ?_, ?_, rfl, ?_⟩ <;> decide +kernel

/-- The source's writes that a notice waits for (R28). -/
theorem witness_send_held : let f : Notice := ⟨9, 2, some (siteNo bSite), 1⟩
    let s := modNet (fun n => { n with writes := [⟨0, 3, 0, some (siteNo bSite), 0, 0, [1], false, false⟩], held := [f] }) sendState
    fenceMet s f = false ∧ fenceMet sendState f = true ∧ sendState.net.ctrls = [] ∧ (chanAt sendState 9).st = .opened ∧
    hasReceiver (chanAt sendState 9) = true := by decide +kernel

/-- A port that delivers a message of two tokens from one on; and a ring holding a message, or a PAD. -/
def recvState (m : Nat) : State :=
  modTile (siteNo bSite) (fun t => { t with b := { t.b with portSent := Tab.set 0 [] 1 m } })
    (chanState (ringChan .opened 2 2) (one 1 [(first2, []), (7, [])]) 0)
def ringState (first : Nat) (tail : Nat) : State :=
  { chanState (ringChan .opened tail tail) [] 0 with mem := putBytes [] (knotPa + 4096) (toLE 8 first) }

theorem witness_recv : (∀ m ∈ [0, 1], portB true bSite 1 9 .opened (recvState m) = true ∧
      Tab.get 0 (tileAt (recvState m) (siteNo bSite)).b.portSent 1 = m ∧ ((portSlots (tileAt (recvState m) (siteNo bSite)) 1).map (·.1))[m]? = some (if m = 0 then first2 else 7) ∧
      hasCredit (tileAt (recvState m) (siteNo bSite)) (fld (cpReg (tileAt (recvState m) (siteNo bSite)) 1) 2 2) false = true) ∧
    (∀ p ∈ [(17, 2), (2 + 2 * 2 ^ 16, 2)], portB true bSite 1 9 .opened (ringState p.1 p.2) = true ∧ portSlots (tileAt (ringState p.1 p.2) (siteNo bSite)) 1 = [] ∧
      (chanAt (ringState p.1 p.2) 9).head ≠ (chanAt (ringState p.1 p.2) 9).tailSeen ∧ hasSender (chanAt (ringState p.1 p.2) 9) = true) ∧
    msgKind (17 : DataTok) ≠ 2 ∧ msgKind (BitVec.ofNat 512 (2 + 2 * 2 ^ 16)) = 2 ∧
    (0 : BitVec 32) + BitVec.ofNat 32 (max 1 (msgPadLen (BitVec.ofNat 512 (2 + 2 * 2 ^ 16)))) = (chanAt (ringState (2 + 2 * 2 ^ 16) 2) 9).tailSeen := by decide +kernel

theorem witness_ring_slots : ∃ vs ws us, getSlots (ringState 17 2) 0 (chanAt (ringState 17 2) 9) 0 1 = .ok vs ∧ vs = [(17 : DataTok)] ∧
    getSlots (ringState 17 2) 0 (chanAt (ringState 17 2) 9) 0 (msgExt (17 : DataTok) + 1) = .ok ws ∧
    getSlots (ringState (2 + 2 * 2 ^ 16) 2) 0 (chanAt (ringState (2 + 2 * 2 ^ 16) 2) 9) 0 1 = .ok us ∧ us = [BitVec.ofNat 512 (2 + 2 * 2 ^ 16)] := by
  obtain ⟨vs, h1, p1⟩ := ok_of (o := getSlots (ringState 17 2) 0 (chanAt (ringState 17 2) 9) 0 1) (p := fun x => decide (x = [(17 : DataTok)])) (by decide +kernel)
  obtain ⟨ws, h2, -⟩ := ok_of (o := getSlots (ringState 17 2) 0 (chanAt (ringState 17 2) 9) 0 (msgExt (17 : DataTok) + 1)) (p := fun _ => true) (by decide +kernel)
  obtain ⟨us, h3, p3⟩ := ok_of (o := getSlots (ringState (2 + 2 * 2 ^ 16) 2) 0 (chanAt (ringState (2 + 2 * 2 ^ 16) 2) 9) 0 1)
    (p := fun x => decide (x = [(BitVec.ofNat 512 (2 + 2 * 2 ^ 16) : DataTok)])) (by decide +kernel)
  exact ⟨vs, ws, us, h1, of_decide_eq_true p1, h2, h3, of_decide_eq_true p3⟩

/-- Notifications on their way between two ports of one tile, the tail first, and a channel with one half here. -/
theorem witness_channel_halves : let s := modNet (fun n => { n with ctrls := [(false, 9, 4), (true, 9, 3)] }) (chanState (ringChan .opened 4 0) [] 0)
    let u := { s with chans := one 9 { ringChan .opened 4 0 with half := 1 } }
    (∀ head ∈ [false, true], let m0 : Bool × Nat × BitVec 32 := (head, 9, if head then 3 else 4)
      (sendTails s).net.ctrls.find? (fun m => m.1 == head && decide (m.2.1 = 9)) = some m0 ∧
      (sendTails s).net.ctrls.find? (fun m => decide (ctrlWay (sendTails s) m = ctrlWay (sendTails s) m0)) = some (false, 9, 4)) ∧
    (chanAt u 9).st = .opened ∧ hasSender (chanAt u 9) = true ∧ hasReceiver (chanAt u 9) = false ∧ (chanAt u 9).half ≠ 3 := by decide +kernel

/-! ### The Selvedge controller, copies and the cordonnet -/

/-- A channel to the controller whose ring holds a message at its head. -/
def serviceState (slots : List Nat) : State :=
  let x := { ringChan .opened slots.length slots.length with receiver := BitVec.ofNat 32 (2 ^ 10) }
  { chanState x [] 0 with ctxs := one 3 synced, mem := putBytes [] (knotPa + 4096) (slots.flatMap (toLE 64)) }

/-- A loader message: motif 0x101, its outcome to the knot of the sync region. -/
def loaderSlot : Nat := 1 + 0x101 * 2 ^ 164
def withPrick (s : State) : State := { s with pricks := [⟨3, 0x101, 0, 1, 1, false, 0, 0, [], []⟩] }

/-- Two copy slots: 320 B from offset 128 to 8192 of A1. -/
def copySlots : List Nat := [1 + 16 + 16 * 2 ^ 64 + 320 * 2 ^ 128, 1024]

/-- Whether a channel's oldest message to the controller is these slots. -/
def serviceIs (n : Nat) (s : State) (c : Nat) (vs : List DataTok) : Bool := match serviceMsg n s with
  | some (c', .ok (0, some ws)) => decide (c' = c ∧ ws = vs)
  | _ => false

theorem serviceIs_of {n : Nat} {s : State} {c : Nat} {vs : List DataTok} (h : serviceIs n s c vs = true) :
    serviceMsg n s = some (c, .ok (0, some vs)) := by
  unfold serviceIs at h
  split at h
  · rename_i c' ws hm
    simp only [decide_eq_true_eq] at h
    rw [hm, h.1, h.2]
  · cases h

theorem witness_loader : serviceMsg 9 (serviceState [loaderSlot]) = some (3, .ok (0, some [BitVec.ofNat 512 loaderSlot])) ∧
    serviceMsg 9 (withPrick (serviceState [loaderSlot])) = some (3, .ok (0, some [BitVec.ofNat 512 loaderSlot])) ∧
    (kaddrOf (fld loaderSlot 192 64)).bad = false ∧ (kaddrOf (fld loaderSlot 192 64)).remote = false ∧
    (residentOf (withPrick (serviceState [loaderSlot])) 3 (fld loaderSlot 164 16)).isSome = true ∧
    residentOf (serviceState [loaderSlot]) 3 (fld loaderSlot 164 16) = none ∧
    knotAt (serviceTaken 9 1 (serviceState [loaderSlot])) 3 0 (kaddrOf (fld loaderSlot 192 64)) true = .at_ knotPa :=
  ⟨serviceIs_of (by decide +kernel), serviceIs_of (by decide +kernel), by decide +kernel, by decide +kernel, by decide +kernel, by decide +kernel,
    by decide +kernel⟩

theorem witness_copy_request : serviceMsg 9 (serviceState copySlots) = some (3, .ok (0, some (copySlots.map (BitVec.ofNat 512)))) ∧
    ((serviceState copySlots).net.copies.filter fun x => !x.running).length < 1024 ∧
    badCopy (serviceState copySlots) 3 (copySlots.headD 0) (copySlots.getD 1 0) = false :=
  ⟨serviceIs_of (by decide +kernel), by decide +kernel, by decide +kernel⟩

/-- A running copy of 320 B at a position: 128 to 8192 of A1, or to module 1; its knots those of the sync region. -/
def copyOf (at_ : Nat) (away : Bool) : Copy :=
  { ctx := 3, src := 16, len := 320, dest := BitVec.ofNat 64 (1024 + if away then 2 ^ 46 + 2 ^ 47 else 0), done := some 0, arv := some 0, port := 0
    at_ := at_, unacked := 0, id := 4, running := true, vc := [] }
def copyState (x : Copy) : State :=
  let s := running (siteNo aSite) (tileReg [])
  { s with ctxs := one 3 synced, net := { s.net with copies := [x], units := [⟨3, 1024, [1, 2, 3, 4], 1, 5, 0⟩] } }

theorem witness_copies : ∀ at_ ∈ [0, 256], ∀ away ∈ [true, false], let x := copyOf at_ away
    let s := copyState x
    s.net.copies[0]? = some x ∧ x.running = true ∧ copyLive s x = true ∧ copyAsleep s x = [] ∧ s.dev.debug = false ∧ x.at_ < x.len ∧
    copyAt s 3 0 (kaddrOf x.src.toNat) x.at_ (min 256 (x.len - x.at_)) false = .at_ (knotPa + 128 + at_) ∧ ueAt s (knotPa + 128 + at_) (min 256 (x.len - x.at_)) = none ∧
    ((kaddrOf x.dest.toNat).remote = away) ∧ (away = true → (kaddrOf x.dest.toNat).mod ≠ ownId s) ∧ (kaddrOf x.dest.toNat).hbm = false ∧ (kaddrOf x.src.toNat).hbm = false ∧
    ((kaddrOf x.src.toNat).off + x.at_) % 16384 + min 256 (x.len - x.at_) ≤ 16384 ∧ ((kaddrOf x.dest.toNat).off + x.at_) % 16384 + min 256 (x.len - x.at_) ≤ 16384 ∧
    copyAt s 3 0 (kaddrOf x.dest.toNat) x.at_ (min 256 (x.len - x.at_)) true = .at_ (knotPa + 8192 + at_) ∧ ctxSt s 3 ≠ .faulted := by decide +kernel

theorem witness_copy_done : let x := copyOf 320 false
    let s := copyState x
    s.net.copies[0]? = some x ∧ x.running = true ∧ copyLive s x = true ∧ s.dev.debug = false ∧ x.len ≤ x.at_ ∧ x.unacked = 0 ∧ (∀ y ∈ s.net.copies, y.id = x.id → y = x) ∧ (kaddrOf (0 : BitVec 64).toNat).remote = false ∧
    knotAt s 3 0 (kaddrOf (0 : BitVec 64).toNat) true = .at_ knotPa := by decide +kernel

theorem witness_copy_unit : let s := copyState (copyOf 0 false)
    let ka := kaddrOf (1024 : BitVec 64).toNat
    s.net.copies.length ≤ 1 ∧ s.dev.debug = false ∧ unitAsleep s ⟨3, 1024, [1, 2, 3, 4], 1, 5, 0⟩ = [] ∧ s.net.units[1 - s.net.copies.length]? = some ⟨3, 1024, [1, 2, 3, 4], 1, 5, 0⟩ ∧ ka.off % 16384 + 4 ≤ 16384 ∧ ka.bad = false ∧ ka.hbm = false ∧
    syncAsHit s 3 ka.hoop ka.off 4 = false ∧ copyAt s 3 0 ka 0 4 true = .at_ (knotPa + 8192) := by decide +kernel

/-- A transfer for context 3, tag 7, and Hoop 1's tap with an entry for it: two transfers to A1, or output 2 of B0. -/
def subWord (tile : Bool) : BitVec 128 := BitVec.ofNat 128 (1 + 3 * 2 + 7 * 32 + (if tile then 2 ^ 17 else 0) + 2 * 2 ^ 23 + 64 * 2 ^ 33 + 2 * 2 ^ 47)
def xferState (tile : Option Bool) : State :=
  { State.reset with
    ctxs := one 3 { mapped with relocAs := one 1 (BitVec.ofNat 32 (256 * 2 ^ 8)) }
    tiles := one (tileNo 1 0 0) { Tile.reset with dcred := one 2 5 }
    hoops := one 1 { Hoop.reset with subs := (match tile with | some b => one 5 (subWord b) | none => []) }
    net := { State.reset.net with xfers := [⟨0, 3, 7, List.replicate 256 1⟩] } }

theorem witness_transfers : ∀ t ∈ [none, some true, some false], let s := xferState t
    s.net.xfers[0]? = some ⟨0, 3, 7, List.replicate 256 1⟩ ∧ busTurn s = some ⟨0, 3, 7, List.replicate 256 1⟩ ∧ (∀ h < 8, (hoopAt s h).tapBuf = []) ∧
    matching s 1 3 7 = (if t = none then [] else [5]) ∧ (∀ j < 8, j ≠ 1 → matching s j 3 7 = []) ∧ ctxSt s 3 ≠ .faulted ∧ (hoopAt s 1).power = .on := by
  decide +kernel

theorem witness_tap : let s := xferState (some true)
    let e := subAt s 1 5
    subTile e = true ∧ s.dev.debug = false ∧ asAddr s 3 (tileOfIndex .A 1 (subAtile e)) (64 * subBase e) (256 * subLen e) = some 0xC410001000 ∧
    asAddr s 3 (tileOfIndex .A 1 (subAtile e)) (64 * subBase e + 256 * 0) 256 = some 0xC410001000 ∧
    syncAsHit s 3 1 (64 * subBase e + 256 * 0) 256 = false ∧ subArv e = false ∧ subTile (subAt (xferState (some false)) 1 5) = false ∧
    4 ≤ dCred (tileAt (xferState (some false)) (bTileNo 1 (subBtile (subAt (xferState (some false)) 1 5)))) (subBout (subAt (xferState (some false)) 1 5)) := by
  decide +kernel

/-! ### HBM controllers and maintenance -/

/-- A write on its way, in context 3's sweep tables; its block's descriptor as `v` says. -/
def apertureState (ca : Nat) (data : List Byte) (valid : Bool) (st : SweepState) : State :=
  let x := sweepCtx st
  let s := { withCtx { x with dn := if valid then x.dn else Tab.set 0 x.dn 2 0x90000 } with mem := sweepMem }
  modNet (fun n => { n with writes := [⟨5, 3, 0, none, ca, ca, data, false, false⟩] }) s

theorem witness_apertures : ∀ p ∈ [(0x300010, false), (0x400010, true)], ∀ st ∈ [SweepState.none, .done],
    let s := apertureState p.1 [1, 2, 3, 4] true st
    let w : HbmWrite := ⟨5, 3, 0, none, p.1, p.1, [1, 2, 3, 4], false, false⟩
    let ap : Aperture := ⟨p.2, 0, 0x100010⟩
    (s.net.writes[0]?).bind (firstOnWay s) = some w ∧ w.mask = false ∧ ap.at_ % 4 = 0 ∧ w.data ≠ [] ∧ w.ctx ≠ 0 ∧ apertureOf s 3 p.1 = some ap ∧ p.1 % 4 = 0 ∧ [1, 2, 3, 4].length % 4 = 0 ∧
    blockDesc s 3 0 0 = some 1 ∧ ¬(bitAt 1 0 = false ∨ fld 1 1 2 = 2) ∧ sweptNow s 3 0 = decide (st = .done) ∧
    hbmAddr s 3 0 ap.at_ 4 true = .at_ 0x100010 ∧ ueAt s 0x100010 4 = none ∧ mergeUe s 0x100010 4 = none ∧ 0x100010 / 32 = (0x100010 + 4 - 1) / 32 ∧
    hbmAddr s 3 0 ap.at_ 1 true = .at_ 0x100010 ∧ ueAt s 0x100010 1 = none ∧ ueAt { s with bad := [0x100010 / 8] } 0x100010 4 ≠ none := by decide +kernel

/-- A mask write and a misaligned one to an aperture, and a block table that nothing maps. -/
theorem witness_aperture_forms : let m : HbmWrite := ⟨5, 3, 0, none, 0x400010, 0x400010, [3, 1], false, true⟩
    let w : HbmWrite := ⟨5, 3, 0, none, 0x300011, 0x300011, [1], false, false⟩
    let at_ (w : HbmWrite) : State := modNet (fun n => { n with writes := [w] }) (apertureState 0 [] true .none)
    let far : State := modCtx 3 (fun x => { x with dn := Tab.set 0 x.dn 2 (2 ^ 46) }) (at_ { w with ca := 0x300010 })
    (∀ x ∈ [m, w], ((at_ x).net.writes[0]?).bind (firstOnWay (at_ x)) = some x ∧ (apertureOf (at_ x) 3 x.ca).isSome = true) ∧ w.ca % 4 ≠ 0 ∧
    (apertureOf far 3 0x300010).map (·.block) = some 0 ∧ blockDesc far 3 0 0 = none := by decide +kernel

theorem witness_discarded : ∀ p ∈ [(0x300010, false), (0x400010, true)], let s := apertureState p.1 [1, 2, 3, 4] false .none
    (s.net.writes[0]?).bind (firstOnWay s) = some ⟨5, 3, 0, none, p.1, p.1, [1, 2, 3, 4], false, false⟩ ∧ apertureOf s 3 p.1 = some ⟨p.2, 0, 0x100010⟩ ∧
    blockDesc s 3 0 0 = some 0 ∧ bitAt 0 0 = false := by decide +kernel

/-- A plain or mask write on its way, with or without an uncorrectable word beside it. -/
def writeState (w : HbmWrite) (bad : List Nat) : State := modNet (fun n => { n with writes := [w] }) { withCtx (sweepCtx .none) with mem := sweepMem, bad := bad }

theorem witness_writes : let w : HbmWrite := ⟨5, 3, 0, none, 0x5010, 0x5010, [1, 2], false, false⟩
    let m : HbmWrite := ⟨5, 3, 0, none, 0x5010, 0x5010, [3, 1], false, true⟩
    ((writeState w []).net.writes[0]?).bind (firstOnWay (writeState w [])) = some w ∧ apertureOf (writeState w []) 3 w.ca = none ∧
    (∀ p ∈ codewords w.pa w.data, mergeUe (writeState w []) p.1 p.2.length = none) ∧ w.pa / 32 = (w.pa + 1) / 32 ∧
    mergeUe (writeState w [0x5010 / 8]) w.pa 2 ≠ none ∧ (ctxAt (writeState w [0x5010 / 8]) 3).latched = none ∧
    ((writeState m []).net.writes[0]?).bind (firstOnWay (writeState m [])) = some m ∧ ueAt (writeState m []) m.pa 1 = none := by decide +kernel

theorem witness_service_write : fabricOn State.reset = true ∧ isWs (0xC000000010#40).toNat = true ∧ isWs ((0xC000000010#40).toNat + 40 - 1) = true ∧
    asleepAt State.reset (0xC000000010#40).toNat = none ∧ populated (0xC480000000#40).toNat = false ∧
    ∀ p ∈ codewords (0xC000000010#40).toNat (List.replicate 40 7), mergeUe State.reset p.1 p.2.length = none := by decide +kernel

theorem witness_scrubs : fabricOn State.reset = true ∧ Tab.get 0 { State.reset with maint := { State.reset.maint with recent := one (4 * 4096 + 2) 60 } }.maint.recent (4 * 4096 + 2) = 60 ∧
    isHbm 0x3049000000 = true ∧ stackOf 0x3049000000 = 2 ∧ (hoopAt State.reset 3).power = .on ∧ (127#8).toNat < storeCount 0 ∧ (191#8).toNat < storeCount 1 ∧
    populated 0xC480000000 = false ∧ populated (0xC000000000 + 3 * 0x80000000 + 127 * 0x1000000) = true ∧ isHbm (0xC000000000 + 3 * 0x80000000 + 127 * 0x1000000) = false ∧
    storeOf (0xC000000000 + 3 * 0x80000000 + 127 * 0x1000000) = (0, 3, 127) ∧ (3 : Nat) / 4 = Tab.get 0 State.reset.maint.window (3 * 256 + 127) ∧
    (0xC000000000 + 3 * 0x80000000 + 127 * 0x1000000) % storeSize 0 / 4096 = Tab.get 0 State.reset.maint.window (3 * 256 + 127) ∧ Tab.get 0 State.reset.maint.spares (3 * 256 + 127) < spareRows 0 ∧
    State.reset.maint.repairs.length < 512 ∧ 512 ≤ (List.replicate 512 (0#64)).length ∧ spareRows 0 ≤ Tab.get 0 (one (3 * 256 + 127) 32) (3 * 256 + 127) := by decide +kernel

/-- A word of the window to be tested that is uncorrectable already, and a window without one. -/
theorem witness_window_ues : let s : State := { State.reset with bad := [(0xC000000000 + 3 * 0x80000000 + 127 * 0x1000000) / 8] }
    windowUes s 0 3 127 (Tab.get 0 s.maint.window (3 * 256 + 127)) = [0xC000000000 + 3 * 0x80000000 + 127 * 0x1000000] ∧
    windowUes State.reset 0 3 127 (Tab.get 0 State.reset.maint.window (3 * 256 + 127)) = [] ∧ (hoopAt s 3).power = .on := by decide +kernel

/-! ### Links -/

/-- A ring of two modules: DL0 goes X+ to module 1, DL1 goes X- to it; each port in a state. -/
def linkState (st : LinkState) : State :=
  { State.reset with
    links := [(0, { Link.reset (BitVec.ofNat 64 (1 + 1 * 4 + 2 * 32)) with st := st }), (1, { Link.reset (BitVec.ofNat 64 (1 + 2 * 4 + 2 * 32)) with st := .down }),
      (12, Link.reset 1)] }

theorem witness_training : mayTrain (linkState .down) 0 = true ∧ mayTrain (linkState .training) 12 = true ∧ lanesOk (linkAt (linkState .down) 0) 3 = false ∧
    lanesOk (linkAt (linkState .down) 0) 8 = true ∧ idFits (linkState .down) = true ∧ ringsAgree (linkState .down) 0 = true ∧ (3 : Nat) ≠ lkRing (linkAt (linkState .down) 0) ∧
    lkRing (linkAt (linkState .down) 0) = 2 ∧ neighbourOf (linkState .down) (lkRole (linkAt (linkState .down) 0)) = some 1 ∧ (6 : Nat) = (0 + 6) % 12 ∧
    neighbourOf (linkState .down) (lkRole (linkAt (linkState .down) 0)) ≠ some 0 ∧ lanesOk (linkAt (linkState .down) 12) 8 = true ∧
    idFits { linkState .down with dev := { State.reset.dev with moduleId := 2 } } = false ∧ (linkAt (linkState .up) 0).st = .up ∧
    (∀ j < 14, j ≠ 0 → (linkAt (linkState .up) j).st ≠ .up) := by decide +kernel

/-- An UP port with unacknowledged flits, a replayable one, and what its messages name. -/
def flitState : State :=
  let m : OutMsg := ⟨3, 0, 1, .chanHead 9 1, 0, false, none⟩
  let x := linkAt (linkState .up) 0
  { linkState .up with
    links := one 0 { x with retry := [⟨0, 4, some 0, [m], []⟩, ⟨1, 4, some 0, [m], []⟩], nextRecv := 5 }
    ctxs := one 3 synced
    chans := one 9 (ringChan .opened 0 0)
    net := { State.reset.net with copies := [copyOf 0 true] } }

theorem witness_flits : (linkAt flitState 0).st = .up ∧ (4 : BitVec 16) ≠ (linkAt flitState 0).nextRecv ∧ (linkAt flitState 0).nextRecv = 5 ∧ flitState.net.waiting = [] ∧
    (linkAt flitState 0).retry.filter (fun e => decide ((e.seq - 1#16).toNat < 2 ^ 15)) ≠ [] ∧ (countSymbols 0 0 flitState).net.waiting = [] ∧ (kaddrOf (0 : BitVec 64).toNat).bad = false ∧ (0 : BitVec 3).toNat ≤ 4 ∧
    knotAt flitState 3 (portQuarter 0) (kaddrOf (0 : BitVec 64).toNat) true = .at_ knotPa ∧ ctxSt flitState 3 ≠ .free ∧ (chanAt flitState 9).st = .opened ∧
    hasReceiver (chanAt flitState 9) = true ∧ flitState.net.copies.find? (fun z => z.id = 4) = some (copyOf 0 true) := by decide +kernel

/-- DL1 of a ring of two is UP, DL0 in a state: a message from module 1's far side to module 1 crosses this module. -/
def transitState (st : LinkState) : State :=
  { linkState st with links := Tab.set (Link.reset 0) (linkState st).links 1 { linkAt (linkState st) 1 with st := .up } }

theorem witness_transit : let m : PeerMsg := .transit 2 1 3 1 false [1, 2]
    (∀ st ∈ [LinkState.up, .down], (linkAt (transitState st) 1).st = .up ∧ (transitState st).net.waiting = [] ∧ (1 : Nat) ≠ ownId (transitState st) ∧
      portNow (transitState st) ⟨0, portQuarter 1, 1, m, subOf (transitState st) 1 (some (lkRole (linkAt (transitState st) 1), 0)), false, none⟩ =
        if st = .up then some 0 else none) ∧
    (linkAt (transitState .up) 0).retry.length + flitsOf m ≤ 1024 ∧ (∀ sub < 2, creditsCover (linkAt (transitState .up) 0) 1 sub (flitsOf m) = true) := by
  decide +kernel

theorem witness_flit_slots : ∃ u, putSlots (portQuarter 0) (chanAt flitState (9#12).toNat) 15 [1, 2] flitState = (u, none) :=
  ⟨_, Prod.ext rfl (Option.isNone_iff_eq_none.1 (by decide +kernel))⟩

/-- A message for module 1, which no UP port reaches. -/
def lostState : State :=
  { linkState .down with ctxs := one 3 (ctxIn .active), net := { State.reset.net with waiting := [⟨3, 0, 1, .chanHead 9 1, 0, false, none⟩] } }

theorem witness_lost : lostState.net.waiting[0]? = some ⟨3, 0, 1, .chanHead 9 1, 0, false, none⟩ ∧ portNow lostState ⟨3, 0, 1, .chanHead 9 1, 0, false, none⟩ = none ∧ ctxSt lostState 3 ≠ .free ∧
    (ctxAt lostState 3).latched = none := by decide +kernel

/-! ### The whole block -/

/-- A NOP waits behind nothing, one more behind it. -/
def queuedState : State := { skipState 0 with pending := [.skipz mSite, .coldReset] }

theorem witness_steps : ∃ t, step queuedState = .next t ∧ queuedState.pending = .skipz mSite :: [.coldReset] ∧ State.reset.pending = [] ∧
    SomeKeyLeft queuedState ∧ Memory.wf queuedState.mem = true ∧ Memory.wf queuedState.host = true ∧ groundCommand (.skipz mSite) = true ∧
    outerCommand (.skipz mSite) = false := by
  obtain ⟨t, ht, -⟩ := next_of (o := step queuedState) (p := fun _ => true) (by decide +kernel)
  exact ⟨t, ht, rfl, rfl, by unfold SomeKeyLeft; decide +kernel, by decide +kernel, by decide +kernel, rfl, rfl⟩

theorem witness_pages_outside : Untagged 2 hdr0 memState ∧ mfUnmap (0#8) = false ∧ 0 < (1#32).toNat ∧
    ¬(isSoftHbm (0x2FC0000000 + 0 * mfSize 0) = true ∧ isSoftHbm (0x2FC0000000 + 0 * mfSize 0 + mfSize 0 - 1) = true) :=
  ⟨untagged_of (by decide +kernel), by decide +kernel⟩

/-! ### OwnBlocksAreSwept, FrozenAndReplicaBlocksAreSwept, PassesFinishAndRecordsReachTheirRings, ReplicasReceiveRecords

The Darning engine of Hoop 0 on block 0 of context 3, whose first 1 GiB is mapped to physical 0; its count knot lies at
0x600000, and everything below is plain memory. -/

/-- A block descriptor, the group's rule, DIVPOL and delta state. -/
def engState (d rule div : Nat) (dl : Delta) : State :=
  let x := sweepCtx .opened
  let y : Ctx := { x with
    syncHbm := BitVec.ofNat 64 (0x600000 / 64 + 1 * 2 ^ 42), dn := if div = 0 then x.dn else (0, BitVec.ofNat 64 (div * 2)) :: x.dn, delta := dl
    sweep := { Sweep.reset with st := .opened, groups := toLE 64 (rule + 6 * 2 ^ 11), started := one 0 1 } }
  { withCtx y with
    mem := putBytes (putBytes sweepMem 0x10000 (toLE 32 d)) 0x600000 (toLE 8 (2 ^ 63))
    hoops := one 0 { Hoop.reset with runs := [{ wholeRun with stage := .sweeping }] } }

/-- What reading and writing below the knot rests on. -/
def Mapped (s : State) : Prop :=
  (ctxAt s 3).relocHbm = memCtx.relocHbm ∧ (ctxAt s 3).syncHbm = BitVec.ofNat 64 (0x600000 / 64 + 1 * 2 ^ 42) ∧
  (ctxAt s 3).relocWs = (sweepCtx .opened).relocWs ∧ (s.bad = [] ∧ s.zeroBad = []) ∧
  (dnReg s 3 1 = 1 ∧ dnReg s 3 7 = 0x300000 ∧ dnReg s 3 8 = 0x400000) ∧
  ∀ a, 0x2FC0000000 ≤ a → a < 0xC000000000 → Tab.get 0 s.mem a = Tab.get 0 sweepMem a

theorem mapped_engState (d rule div : Nat) (dl : Delta) : Mapped (engState d rule div dl) := by
  refine ⟨?_, ?_, ?_, ⟨rfl, rfl⟩, ?_, fun a h1 h2 => ?_⟩
  · rfl
  · rfl
  · rfl
  · by_cases h : div = 0 <;> simp only [dnReg, engState, withCtx, h, if_true, if_false] <;> exact ⟨rfl, rfl, rfl⟩
  · have e : (engState d rule div dl).mem = putBytes (putBytes sweepMem 0x10000 (toLE 32 d)) 0x600000 (toLE 8 (2 ^ 63)) := rfl
    rw [e, get_putBytes_other (Or.inr (by simp only [toLE, List.length_cons, List.length_nil]; omega)),
      get_putBytes_other (Or.inr (by simp only [toLE, List.length_cons, List.length_nil]; omega))]

theorem mapped_modCtx {s : State} (f : Ctx → Ctx) (hm : Mapped s) (h1 : ∀ x, (f x).relocHbm = x.relocHbm) (h2 : ∀ x, (f x).syncHbm = x.syncHbm)
    (h3 : ∀ x, (f x).relocWs = x.relocWs) (h4 : ∀ x, (f x).dn = x.dn := by intro _; rfl) : Mapped (modCtx 3 f s) := by
  obtain ⟨a, b, c, d, r, e⟩ := hm
  have hd (n : Nat) : dnReg (modCtx 3 f s) 3 n = dnReg s 3 n := by rw [dnReg, ctxAt_modCtx, if_pos rfl, h4, dnReg]
  refine ⟨?_, ?_, ?_, d, by rw [hd, hd, hd]; exact r, e⟩ <;> rw [ctxAt_modCtx, if_pos rfl]
  · rw [h1, a]
  · rw [h2, b]
  · rw [h3, c]

theorem mapped_poke {s : State} {pa : Nat} {bs : List Byte} (hm : Mapped s) (h : pa + bs.length ≤ 0x2FC0000000 ∨ 0xC000000000 ≤ pa) :
    Mapped (poke s pa bs) := by
  obtain ⟨a, b, c, d, r, e⟩ := hm
  refine ⟨a, b, c, ⟨?_, d.2⟩, r, fun x h1 h2 => ?_⟩
  · simp [poke, d.1, clearBad]
  · show Tab.get 0 (putBytes s.mem pa bs) x = _
    rw [get_putBytes_other (by omega), e x h1 h2]

theorem ue_none {s : State} (h : s.bad = [] ∧ s.zeroBad = []) (a n : Nat) : ueAt s a n = none := by
  simp [ueAt, h.1, h.2]

theorem bytesAt_same {m m' : Tab Byte} {n : Nat} : ∀ {a : Nat}, (∀ i, a ≤ i → i < a + n → Tab.get 0 m i = Tab.get 0 m' i) → bytesAt m a n = bytesAt m' a n := by
  induction n with
  | zero => intro a _; rfl
  | succ n ih =>
    intro a h
    rw [bytesAt, bytesAt, h a (by omega) (by omega), ih (fun i h1 h2 => h i (by omega) (by omega))]

theorem bytesAt_len (m : Tab Byte) (n : Nat) : ∀ a, (bytesAt m a n).length = n := by
  induction n with
  | zero => intro a; rfl
  | succ n ih => intro a; simp [bytesAt, ih]

theorem entry_same {s : State} (hm : Mapped s) (t i : Nat) (h : 0x2FC0000000 ≤ t + 8 * i) (h' : t + 8 * i + 8 ≤ 0xC000000000) :
    ptEntry s t i = some (leNat (bytesAt sweepMem (t + 8 * i) 8)) := by
  have hp : isPs (t + 8 * i) = false := by simp [isPs]; omega
  rw [ptEntry, ue_none hm.2.2.2.1, peekNum, peek, hp]
  simp only [Option.isSome_none, Bool.false_eq_true, if_false]
  rw [bytesAt_same (m' := sweepMem) (fun j h1 h2 => hm.2.2.2.2.2 j (by omega) (by omega))]

theorem hbm_mapped {s : State} {a n : Nat} {w : Bool} (hm : Mapped s) (h : a + n ≤ 0x600000) (ha : a < 0x600000) : hbmAddr s 3 0 a n w = .at_ a := by
  have hv : hbmVa s 3 a n = some a := by
    have e : relocHbm s 3 = memCtx.relocHbm.toNat := by rw [relocHbm, hm.1]
    have f1 : fld memCtx.relocHbm.toNat 0 27 = 0 := by decide +kernel
    have f2 : fld memCtx.relocHbm.toNat 27 28 = 2 ^ 20 := by decide +kernel
    simp only [hbmVa, e, f1, f2, relocate]
    rw [if_pos (by omega)]; simp
  have i1 : a / 2 ^ 39 % 512 = 0 := by omega
  have i2 : a / 2 ^ 30 % 512 = 0 := by omega
  have hw : walk s 3 0 a = .leaf 0 (2 ^ 30) true := by
    have e1 : ptEntry s (ptRoot 0 3) 0 = some (leNat (bytesAt sweepMem (ptRoot 0 3 + 8 * 0) 8)) := entry_same hm _ _ (by decide) (by decide)
    have v1 : leNat (bytesAt sweepMem (ptRoot 0 3 + 8 * 0) 8) = pointer 3 1 0 := by decide +kernel
    have e2 : ptEntry s (fld (pointer 3 1 0) 12 28 * 4096) 0 = some (leNat (bytesAt sweepMem (fld (pointer 3 1 0) 12 28 * 4096 + 8 * 0) 8)) :=
      entry_same hm _ _ (by decide +kernel) (by decide +kernel)
    have v2 : leNat (bytesAt sweepMem (fld (pointer 3 1 0) 12 28 * 4096 + 8 * 0) 8) = leafEntry 0 true := by decide +kernel
    have b1 : (!bitAt (pointer 3 1 0) 0 || bitAt (pointer 3 1 0) 1) = false := by decide +kernel
    have b2 : (!bitAt (leafEntry 0 true) 0) = false := by decide +kernel
    have b3 : bitAt (leafEntry 0 true) 1 = true := by decide +kernel
    have b4 : bitAt (leafEntry 0 true) 2 = true := by decide +kernel
    have b5 : fld (leafEntry 0 true) 30 10 * 2 ^ 30 = 0 := by decide +kernel
    delta walk
    simp only [i1, i2, e1, v1, b1, e2, v2, b2, b3, b4, b5, Bool.false_eq_true, if_false, if_true]
  simp only [hbmAddr, hv, hw, Bool.not_true, Bool.and_false, Bool.false_eq_true, if_false]
  congr 1; omega

theorem sync_clear {s : State} {a n : Nat} (hm : Mapped s) (h : a + n ≤ 0x600000) : syncHbmHit s 3 a n = false := by
  have f1 : fld (BitVec.ofNat 64 (0x600000 / 64 + 1 * 2 ^ 42)).toNat 0 42 = 0x18000 := by decide +kernel
  simp only [syncHbmHit, hm.2.1, f1]
  have : decide (64 * 0x18000 < a + n) = false := by simp; omega
  rw [this]; simp

theorem engAt_mapped {s : State} {a n : Nat} {w : Bool} (hm : Mapped s) (h : a + n ≤ 0x600000) (ha : a < 0x600000) :
    (engAt 3 0 a n w).run s = (.ok a, s) := by
  simp [engAt, sync_clear hm h, hbm_mapped hm h ha, ExceptT.run, bind, ExceptT.bind, ExceptT.mk, ExceptT.bindCont, get, getThe, MonadStateOf.get,
    liftM, monadLift, MonadLift.monadLift, ExceptT.lift, Functor.map, StateT.map, StateT.get, StateT.bind, pure, ExceptT.pure, StateT.pure]

/-- Below the knot and outside the apertures. -/
def Plain (a n : Nat) : Prop := a + n ≤ 0x2FFFFF ∨ 0x500000 ≤ a ∧ a + n ≤ 0x600000

theorem aperture_none {s : State} {a : Nat} (hm : Mapped s) (h : Plain a 0) : apertureOf s 3 a = none := by
  have n1 : dnNblk s 3 = 1 := by rw [dnNblk, hm.2.2.2.2.1.1]; decide +kernel
  have g1 : fld (dnReg s 3 7) 0 48 = 0x300000 := by rw [hm.2.2.2.2.1.2.1]; decide +kernel
  have g2 : fld (dnReg s 3 8) 0 48 = 0x400000 := by rw [hm.2.2.2.2.1.2.2]; decide +kernel
  have e1 : ¬(0x300000 ≤ a ∧ a < 0x300000 + 1 * 16384) := by unfold Plain at h; omega
  have e2 : ¬(0x400000 ≤ a ∧ a < 0x400000 + 1 * 16384) := by unfold Plain at h; omega
  simp only [apertureOf, n1, g1, g2, if_neg e1, if_neg e2, Option.orElse]

theorem cut64_in {a n : Nat} (h : Plain a n) (ha : a < 0x600000) : ∀ p ∈ cut64 a n, p.1 < 0x600000 ∧ p.1 + p.2 ≤ 0x600000 ∧ p.2 ≤ 64 ∧ Plain p.1 0 := by
  intro p hp
  simp only [cut64, List.mem_map, List.mem_range] at hp
  obtain ⟨j, hj, rfl⟩ := hp
  unfold Plain at *
  dsimp only
  omega

/-- A write of an engine changed memory only. -/
def Wrote (s u : State) : Prop := Mapped u ∧ ∃ m, u = { s with mem := m }

theorem run_bind {α β : Type} {x : Eng α} {f : α → Eng β} {s u : State} {a : α} (h : x.run s = (.ok a, u)) : (x >>= f).run s = (f a).run u := by
  simp [ExceptT.run, bind, ExceptT.bind, ExceptT.mk, StateT.bind, ExceptT.bindCont] at h ⊢
  rw [h]

theorem run_get {s : State} : (get : Eng State).run s = (.ok s, s) := rfl

theorem read_parts {s : State} (hm : Mapped s) (ps : List (Nat × Nat)) (h : ∀ p ∈ ps, p.1 < 0x600000 ∧ p.1 + p.2 ≤ 0x600000 ∧ p.2 ≤ 64 ∧ Plain p.1 0) :
    ∃ xs : List (List Byte), (ps.mapM (m := Eng) fun p => do
      let s ← get
      let pa ← engAt 3 0 ((apertureOf s 3 p.1).elim p.1 (·.at_)) p.2 false
      soundWord (ueAt s pa p.2)
      pure (peek s pa p.2)).run s = (.ok xs, s) ∧ xs.flatten.length ≤ 64 * ps.length := by
  induction ps with
  | nil => exact ⟨[], rfl, by simp⟩
  | cons p ps ih =>
    obtain ⟨xs, hx, hl⟩ := ih fun q hq => h q (List.mem_cons_of_mem _ hq)
    have hp := h p List.mem_cons_self
    refine ⟨peek s p.1 p.2 :: xs, ?_, ?_⟩
    · rw [List.mapM_cons]
      have h1 : (do
          let s ← get
          let pa ← engAt 3 0 ((apertureOf s 3 p.1).elim p.1 (·.at_)) p.2 false
          soundWord (ueAt s pa p.2)
          pure (peek s pa p.2) : Eng (List Byte)).run s = (.ok (peek s p.1 p.2), s) := by
        rw [run_bind run_get, aperture_none hm hp.2.2.2, Option.elim, run_bind (engAt_mapped hm hp.2.1 hp.1)]
        simp [soundWord, ue_none hm.2.2.2.1, ExceptT.run, bind, ExceptT.bind, ExceptT.mk, ExceptT.bindCont, StateT.bind, pure, ExceptT.pure, StateT.pure]
      rw [run_bind h1, run_bind hx]
      rfl
    · have : (peek s p.1 p.2).length = p.2 := by
        rw [peek]; split
        · simp
        · exact bytesAt_len _ _ _
      simp only [List.flatten_cons, List.length_append, List.length_cons, this]
      omega

/-- An engine's read below the knot succeeds. -/
theorem read_run {s : State} {a n : Nat} (hm : Mapped s) (ha : a < 0x600000)
    (h : a + n ≤ 0x2FFFFF ∨ 0x500000 ≤ a ∧ a + n ≤ 0x600000) : ∃ bs, Does (engRead 3 0 a n) s bs s ∧ bs.length ≤ n + 128 := by
  obtain ⟨xs, hx, hl⟩ := read_parts hm _ (cut64_in h ha)
  refine ⟨xs.flatten, ?_, ?_⟩
  · show (engRead 3 0 a n).run s = _
    rw [engRead, run_bind hx]; rfl
  · have : (cut64 a n).length = (a + n + 63) / 64 - a / 64 := by simp [cut64]
    omega

theorem write_parts (a : Nat) (bs : List Byte) (ps : List (Nat × Nat)) (h : ∀ p ∈ ps, p.1 < 0x600000 ∧ p.1 + p.2 ≤ 0x600000 ∧ p.2 ≤ 64 ∧ Plain p.1 0) :
    ∀ {s : State}, Mapped s → ∃ u, (forIn (m := Eng) ps PUnit.unit fun p _ => do
      let s ← get
      let v := (bs.drop (p.1 - a)).take p.2
      match apertureOf s 3 p.1 with
      | none =>
        let pa ← engAt 3 0 p.1 p.2 true
        soundWord (mergeUe s pa p.2)
        set (poke s pa v)
      | some ap => engAperture 3 0 p.1 v ap
      pure (ForInStep.yield PUnit.unit)).run s = (.ok PUnit.unit, u) ∧ Wrote s u := by
  induction ps with
  | nil => intro s hm; exact ⟨s, rfl, hm, s.mem, rfl⟩
  | cons p ps ih =>
    intro s hm
    have hp := h p List.mem_cons_self
    have hb : s.bad = [] := hm.2.2.2.1.1
    have hk : Mapped (poke s p.1 ((bs.drop (p.1 - a)).take p.2)) := mapped_poke hm (by
      left
      have : ((bs.drop (p.1 - a)).take p.2).length ≤ p.2 := by simp
      omega)
    obtain ⟨u, hu, hw, m, he⟩ := ih (fun q hq => h q (List.mem_cons_of_mem _ hq)) hk
    refine ⟨u, ?_, hw, m, ?_⟩
    · rw [List.forIn_cons]
      have h1 : (do
          let s ← get
          let v := (bs.drop (p.1 - a)).take p.2
          match apertureOf s 3 p.1 with
          | none =>
            let pa ← engAt 3 0 p.1 p.2 true
            soundWord (mergeUe s pa p.2)
            set (poke s pa v)
          | some ap => engAperture 3 0 p.1 v ap
          pure (ForInStep.yield PUnit.unit) : Eng (ForInStep PUnit)).run s = (.ok (.yield PUnit.unit), poke s p.1 ((bs.drop (p.1 - a)).take p.2)) := by
        rw [run_bind run_get]
        dsimp only
        rw [aperture_none hm hp.2.2.2]
        dsimp only
        rw [run_bind (engAt_mapped hm hp.2.1 hp.1)]
        have hmu : mergeUe s p.1 p.2 = none := ue_none (s := { s with bad := clearBad s.bad p.1 p.2 }) ⟨by simp [clearBad, hb], hm.2.2.2.1.2⟩ _ _
        simp [soundWord, hmu, ExceptT.run, bind, ExceptT.bind, ExceptT.mk, ExceptT.bindCont, set, StateT.set,
          liftM, monadLift, MonadLift.monadLift, ExceptT.lift, Functor.map, StateT.map, StateT.bind, pure, ExceptT.pure, StateT.pure]
      rw [run_bind h1]
      exact hu
    · rw [he]
      simp [poke, hb, clearBad]

/-- An engine's write below the knot succeeds and changes memory only. -/
theorem write_run {s : State} {a : Nat} {bs : List Byte} (hm : Mapped s) (ha : a < 0x600000)
    (h : a + bs.length ≤ 0x2FFFFF ∨ 0x500000 ≤ a ∧ a + bs.length ≤ 0x600000) :
    ∃ u, Does (engWrite 3 0 a bs) s () u ∧ Wrote s u := by
  obtain ⟨u, hu, hw⟩ := write_parts a bs _ (cut64_in h ha) hm
  exact ⟨u, by show (engWrite 3 0 a bs).run s = _; unfold engWrite; simp at hu ⊢; exact hu, hw⟩

theorem mapped_wrote {s u : State} (h : Wrote s u) : Mapped u := h.1

/-- The image of a block that lies in its slice can be read and written. -/
theorem image_read {s : State} {d pa : Nat} (hm : Mapped s) (h : bdHbm d = false) (hh : bdHoop d = 0)
    (hp : wsAddr s 3 (tileOfIndex .M 0 (bdTile d)) (bdWoff d) (bdSize d) = some pa) :
    ∃ bs, Does (imgRead 3 0 d) s bs s ∧ bs.length ≤ bdSize d := by
  refine ⟨peek s pa (bdSize d), ?_, ?_⟩
  · show (imgRead 3 0 d).run s = _
    simp [imgRead, h, hh, hp, ue_none hm.2.2.2.1, ExceptT.run, bind, ExceptT.bind, ExceptT.mk, ExceptT.bindCont, get, getThe, MonadStateOf.get,
      liftM, monadLift, MonadLift.monadLift, ExceptT.lift, Functor.map, StateT.map, StateT.get, StateT.bind, pure, ExceptT.pure, StateT.pure]
  · rw [peek]; split
    · simp
    · rw [bytesAt_len]

theorem image_write {s : State} {d : Nat} {bs : List Byte} (hm : Mapped s) (h : bdHbm d = false) (hh : bdHoop d = 0) {pa : Nat} (hpa : 0xC000000000 ≤ pa)
    (hp : wsAddr s 3 (tileOfIndex .M 0 (bdTile d)) (bdWoff d) (bdSize d) = some pa) : ∃ u, Does (imgWrite 3 0 d bs) s () u ∧ Wrote s u := by
  refine ⟨poke s pa bs, ?_, mapped_poke hm (Or.inr hpa), putBytes s.mem pa bs, ?_⟩
  · show (imgWrite 3 0 d bs).run s = _
    simp [imgWrite, h, hh, hp, ExceptT.run, bind, ExceptT.bind, ExceptT.mk, ExceptT.bindCont, get, getThe, MonadStateOf.get, set, StateT.set,
      liftM, monadLift, MonadLift.monadLift, ExceptT.lift, Functor.map, StateT.map, StateT.get, StateT.bind, pure]
  · simp [poke, hm.2.2.2.1.1, clearBad]

/-- The slice of block 0 in every state whose context 3 has its relocation. -/
theorem slice_at {s : State} (hm : Mapped s) {d : Nat} (ht : bdTile d = 0) (hw : bdWoff d = 0) (hz : bdSize d ≤ 8192) :
    wsAddr s 3 (tileOfIndex .M 0 (bdTile d)) (bdWoff d) (bdSize d) = some 0xC000000000 := by
  have hn : noHoop (tileOfIndex .M 0 0) = 0 := by decide +kernel
  have e : relocWs s 3 0 = (Tab.get 0 (sweepCtx .opened).relocWs 0).toNat := by rw [relocWs, hm.2.2.1]
  have f1 : fld (Tab.get 0 (sweepCtx .opened).relocWs 0).toNat 0 12 = 0 := by decide +kernel
  have f2 : fld (Tab.get 0 (sweepCtx .opened).relocWs 0).toNat 12 13 = 4096 := by decide +kernel
  have hb : wsBase (tileOfIndex .M 0 0) = 0xC000000000 := by decide +kernel
  simp only [wsAddr, ht, hw, hn, e, f1, f2, relocate]
  rw [if_pos (by omega)]
  simp [hb]

/-- Steps that never change the state, and what they answer. -/
def Keeps {α : Type} (x : Eng α) : Prop := ∀ s, (x.run s).2 = s
def valB {α : Type} [DecidableEq α] (x : Eng α) (s : State) (a : α) : Bool := match (x.run s).1 with
  | .ok b => decide (b = a)
  | _ => false

theorem does_keeps {α : Type} [DecidableEq α] {x : Eng α} {s : State} {a : α} (hk : Keeps x) (h : valB x s a = true) : Does x s a s := by
  have := hk s
  unfold valB at h
  show x.run s = _
  rcases hx : x.run s with ⟨r, u⟩
  rw [hx] at h this
  cases r with
  | ok b => simp only [decide_eq_true_eq] at h; rw [h, ← this]
  | error e => cases h

theorem keeps_pure {α : Type} (a : α) : Keeps (pure a : Eng α) := fun _ => rfl
theorem keeps_throw {α : Type} (e : Stop) : Keeps (throw e : Eng α) := fun _ => rfl
theorem keeps_get : Keeps (get : Eng State) := fun _ => rfl

theorem keeps_bind {α β : Type} {x : Eng α} {f : α → Eng β} (hx : Keeps x) (hf : ∀ a, Keeps (f a)) : Keeps (x >>= f) := by
  intro s
  have := hx s
  rcases h : x.run s with ⟨r, u⟩
  rw [h] at this
  cases r with
  | ok a => rw [run_bind h, hf a u]; exact this
  | error e =>
    have h' : (x >>= f).run s = (.error e, u) := by
      simp [ExceptT.run, bind, ExceptT.bind, ExceptT.mk, StateT.bind, ExceptT.bindCont] at h ⊢
      rw [h]; rfl
    rw [h']; exact this

theorem keeps_mapM {α β : Type} {f : α → Eng β} (hf : ∀ a, Keeps (f a)) : ∀ xs : List α, Keeps (xs.mapM f) := by
  intro xs
  induction xs with
  | nil => exact keeps_pure _
  | cons x xs ih => rw [List.mapM_cons]; exact keeps_bind (hf x) fun _ => keeps_bind ih fun _ => keeps_pure _

theorem keeps_forIn {α β : Type} {f : α → β → Eng (ForInStep β)} (hf : ∀ a b, Keeps (f a b)) : ∀ (xs : List α) (b : β), Keeps (forIn xs b f) := by
  intro xs
  induction xs with
  | nil => intro b; exact keeps_pure _
  | cons x xs ih =>
    intro b
    rw [List.forIn_cons]
    refine keeps_bind (hf x b) fun r => ?_
    cases r with
    | done b => exact keeps_pure _
    | yield b => exact ih b

theorem keeps_engAt (c q a n : Nat) (w : Bool) : Keeps (engAt c q a n w) := by
  unfold engAt
  refine keeps_bind keeps_get fun s => ?_
  by_cases h : syncHbmHit s c a n = true
  · simp only [h, if_true]; exact keeps_bind (keeps_throw _) fun _ => by cases hbmAddr s c q a n w <;> first | exact keeps_pure _ | exact keeps_throw _
  · simp only [h, Bool.false_eq_true, if_false]; cases hbmAddr s c q a n w <;> first | exact keeps_pure _ | exact keeps_throw _

theorem keeps_engRead (c q a n : Nat) : Keeps (engRead c q a n) := by
  unfold engRead
  refine keeps_bind (keeps_mapM (fun p => ?_) _) fun _ => keeps_pure _
  refine keeps_bind keeps_get fun s => keeps_bind (keeps_engAt _ _ _ _ _) fun pa => keeps_bind ?_ fun _ => keeps_pure _
  cases ueAt s pa p.2 <;> first | exact keeps_pure _ | exact keeps_throw _

theorem keeps_bdRead (c q b : Nat) : Keeps (bdRead c q b) :=
  keeps_bind keeps_get fun _ => keeps_bind (keeps_engRead _ _ _ _) fun _ => keeps_pure _

theorem keeps_ite {α : Type} {p : Prop} [Decidable p] {x y : Eng α} (hx : Keeps x) (hy : Keeps y) : Keeps (if p then x else y) := by
  split
  · exact hx
  · exact hy

theorem keeps_nextBlock (c h : Nat) : Keeps (nextBlock c h) := by
  unfold nextBlock
  refine keeps_bind keeps_get fun s => keeps_bind (keeps_forIn (fun b r => ?_) _ _) fun r => ?_
  · exact keeps_ite (keeps_bind (keeps_bdRead _ _ _) fun d => keeps_ite (keeps_pure _) (keeps_pure _)) (keeps_pure _)
  · rcases r with ⟨(_ | a), _⟩ <;> exact keeps_pure _

theorem barrierFull_started {c h : Nat} {s : State} (hs : Tab.get 0 (sweepAt s c).started h = 1) : Does (barrierFull c h) s true s := by
  show (barrierFull c h).run s = _
  unfold barrierFull
  rw [run_bind run_get]
  simp only [hs, if_true]
  rfl

theorem engineOn_engState {d rule div : Nat} {dl : Delta} (h : Tab.get 0 (sweepAt (engState d rule div dl) 3).started 0 = 1 ∧
    valB (nextBlock 3 0) (engState d rule div dl) (some (0, d)) = true ∧ ((inFlight (engState d rule div dl) 3).filter fun p => p.2 = 0).length < 8) :
    EngineOn 3 0 0 d (engState d rule div dl) (engState d rule div dl) :=
  ⟨rfl, rfl, rfl, ⟨{ wholeRun with stage := .sweeping }, List.mem_singleton.mpr rfl, rfl, rfl⟩, h.2.2, barrierFull_started h.1,
    does_keeps (keeps_nextBlock _ _) h.2.1⟩

/-- A block of ROLE OWN, plain and under LAMB; FROZEN; REPLICA. -/
def dOwn : Nat := 1
def dFrozen : Nat := 5
def dReplica : Nat := 3 + 2 * 2 ^ 11

theorem witness_engine : EngineOn 3 0 0 dOwn (engState dOwn 1 0 Delta.reset) (engState dOwn 1 0 Delta.reset) ∧
    EngineOn 3 0 0 dOwn (engState dOwn 6 0 Delta.reset) (engState dOwn 6 0 Delta.reset) ∧
    EngineOn 3 0 0 dFrozen (engState dFrozen 1 0 Delta.reset) (engState dFrozen 1 0 Delta.reset) ∧
    bdRole dOwn = 0 ∧ bdRole dFrozen = 2 ∧ inPass1 (engState dOwn 6 0 Delta.reset) 3 = true ∧ inPass1 (engState dOwn 1 0 Delta.reset) 3 = false :=
  ⟨engineOn_engState (by decide +kernel), engineOn_engState (by decide +kernel), engineOn_engState (by decide +kernel), by decide +kernel⟩

/-- LAMB's pass 1 reads the block. -/
theorem witness_lamb : let s := engState dOwn 6 0 Delta.reset
    ∃ grad master st, Does (engRead 3 0 (recordAt s 3 (dnCur s 3) 0) 16384) s grad s ∧
      Does (engRead 3 0 (recordAt s 3 (dnCur s 3) 0 + 16384) 16384) s master s ∧
      Does (engRead 3 0 (recordAt s 3 (dnCur s 3) 0 + 33024) (stateSize (envOf s 3 (bdGroup dOwn)).g)) s st s := by
  intro s
  have hm : Mapped s := mapped_engState _ _ _ _
  have e : recordAt s 3 (dnCur s 3) 0 = 0x100000 := by decide +kernel
  have z : stateSize (envOf s 3 (bdGroup dOwn)).g = 32768 := by decide +kernel
  rw [e, z]
  obtain ⟨a, ha, -⟩ := read_run (a := 0x100000) (n := 16384) hm (by decide) (by decide)
  obtain ⟨b, hb, -⟩ := read_run (a := 0x100000 + 16384) (n := 16384) hm (by decide) (by decide)
  obtain ⟨c, hc, -⟩ := read_run (a := 0x100000 + 33024) (n := 32768) hm (by decide) (by decide)
  exact ⟨a, b, c, ha, hb, hc⟩

theorem evalBlock_plain {e : RuleEnv} (h5 : gdRule e.g ≠ 5) (h0 : stateSlots e.g = 0) (g m : List Nat) (st : List Byte) :
    (evalBlock e g m st).1.length = 4096 ∧ (evalBlock e g m st).2.1 = [] := by
  simp [evalBlock, h5, h0]

theorem padTo_len (n : Nat) (bs : List Byte) : (padTo n bs).length = n := by
  simp only [padTo, List.length_take, List.length_append, List.length_replicate]; omega

theorem toLE_len (n : Nat) : ∀ x, (toLE n x).length = n := by
  induction n with
  | zero => intro x; rfl
  | succ n ih => intro x; simp [toLE, ih]

theorem bytes32_len (xs : List Nat) : (bytes32 xs).length = 4 * xs.length := by
  induction xs with
  | nil => rfl
  | cons x xs ih => simp only [bytes32, List.flatMap_cons, List.length_append, toLE_len, List.length_cons] at ih ⊢; omega

/-- The log takes an image of at most 8 KiB. -/
theorem log_run {s : State} {img : List Byte} (hm : Mapped s) (hb : logSlotAt s 3 0 = 0x500000 + 10240) (hl : (sweepAt s 3).logged = [])
    (h : img.length ≤ 8192) : ∃ u m, Does (logImage 3 0 0 img) s () u ∧ Mapped u ∧
      u = modSweep 3 (fun w => { w with logged := w.logged ++ [0] }) { s with mem := m } := by
  obtain ⟨u, hu, hk, m, he⟩ := write_run (a := 0x500000 + 10240)
    (bs := padTo 64 (toLE 4 0 ++ toLE 4 1 ++ toLE 8 (sweepAt s 3).step.toNat) ++ img) hm (by decide) (by
      rw [List.length_append, padTo_len]; omega)
  refine ⟨_, m, ?_, mapped_modCtx (fun x => { x with sweep := { x.sweep with logged := x.sweep.logged ++ [0] } }) (he ▸ hk) (fun _ => rfl) (fun _ => rfl) (fun _ => rfl), rfl⟩
  have hu' : (engWrite 3 0 (0x500000 + 10240) (padTo 64 (toLE 4 0 ++ toLE 4 1 ++ toLE 8 (sweepAt s 3).step.toNat) ++ img)).run s = (.ok (), u) := hu
  show (logImage 3 0 0 img).run s = _
  have hg : (get : Eng State).run s = (.ok s, s) := rfl
  unfold logImage
  rw [run_bind hg]
  simp only [hl, List.contains_nil, Bool.false_eq_true, if_false, hb]
  rw [run_bind hu', he]
  rfl

theorem pair_run {x : Eng Unit} {y : Eng Unit} {s u v : State} (h : Does x s () u) (h' : Does y u () v) : Does (do x; y) s () v := by
  show (x >>= fun _ => y).run s = _
  rw [run_bind h]; exact h'

/-- Delta state with a ring of 16 slots at 0x500000, outside the log. -/
def ringed : Delta := { Delta.reset with rings := one 0 (0x580000, 4) }

/-- The count knot of block 0 is full and is drained. -/
theorem drain_run {dl : Delta} (hdl : dl = Delta.reset ∨ dl = ringed) : ∃ m, Does (drainCount 3 0 0) (engState dOwn 1 0 dl) () { engState dOwn 1 0 dl with mem := m } ∧
    Mapped { engState dOwn 1 0 dl with mem := m } := by
  have hm : Mapped (engState dOwn 1 0 dl) := mapped_engState _ _ _ _
  have hk : knotAt (engState dOwn 1 0 dl) 3 0 (kaddrOf (2 ^ 45 + (fld (dnReg (engState dOwn 1 0 dl) 3 10) 0 45 + 0) % 2 ^ 45)) true = .at_ 0x600000 := by
    rcases hdl with rfl | rfl <;> decide +kernel
  have hw : (knotOp 4 0 (peekNum (engState dOwn 1 0 dl) 0x600000 8)).2 = none := by rcases hdl with rfl | rfl <;> decide +kernel
  have hp : Mapped (poke (engState dOwn 1 0 dl) 0x600000 (toLE 8 (knotOp 4 0 (peekNum (engState dOwn 1 0 dl) 0x600000 8)).1)) :=
    mapped_poke hm (Or.inl (by rw [toLE_len]; decide))
  have he : poke (engState dOwn 1 0 dl) 0x600000 (toLE 8 (knotOp 4 0 (peekNum (engState dOwn 1 0 dl) 0x600000 8)).1) =
      { engState dOwn 1 0 dl with mem := putBytes (engState dOwn 1 0 dl).mem 0x600000 (toLE 8 (knotOp 4 0 (peekNum (engState dOwn 1 0 dl) 0x600000 8)).1) } := rfl
  refine ⟨putBytes (engState dOwn 1 0 dl).mem 0x600000 (toLE 8 (knotOp 4 0 (peekNum (engState dOwn 1 0 dl) 0x600000 8)).1), ?_, he ▸ hp⟩
  show (drainCount 3 0 0).run (engState dOwn 1 0 dl) = _
  rw [← he]
  have hg : (get : Eng State).run (engState dOwn 1 0 dl) = (.ok (engState dOwn 1 0 dl), engState dOwn 1 0 dl) := rfl
  unfold drainCount
  rw [run_bind hg]
  simp only [hk, ue_none hm.2.2.2.1]
  rcases hq : knotOp 4 0 (peekNum (engState dOwn 1 0 dl) 0x600000 8) with ⟨w, f⟩
  rw [hq] at hw
  cases hw
  rfl

theorem sweepAt_modSweep (f : Sweep → Sweep) (s : State) : sweepAt (modSweep 3 f s) 3 = f (sweepAt s 3) := by
  rw [sweepAt, modSweep, ctxAt_modCtx, if_pos rfl]; rfl

theorem sweepAt_mem (s : State) (m : List Host.Cell) : sweepAt { s with mem := m } 3 = sweepAt s 3 := rfl
theorem ctxAt_mem (s : State) (m : List Host.Cell) (c : Nat) : ctxAt { s with mem := m } c = ctxAt s c := rfl
theorem dnReg_mem (s : State) (m : List Host.Cell) (n : Nat) : dnReg { s with mem := m } 3 n = dnReg s 3 n := rfl

/-- From a state in which the count knot has been drained, every further step of the OWN block succeeds. -/
theorem own_chain {dl : Delta} (hdl : dl = Delta.reset ∨ dl = ringed) {u0 : State} (hc0 : (ctxAt u0 3).delta = dl) (hm0 : Mapped u0) (hs0 : sweepAt u0 3 = sweepAt (engState dOwn 1 0 dl) 3)
    (hd0 : ∀ n, dnReg u0 3 n = dnReg (engState dOwn 1 0 dl) 3 n) : ∃ u2 u3 u4 u5 grad master prev st old,
    let u1 := modSweep 3 (fun w => { w with swept := w.swept ++ [0] }) u0
    let e := envOf u1 3 (bdGroup dOwn)
    let step := (sweepAt u1 3).step.toNat
    Does (engRead 3 0 0x100000 16384) u1 grad u1 ∧ Does (engRead 3 0 (0x100000 + 16384) 16384) u1 master u1 ∧
    Does (engRead 3 0 (0x100000 + 33024) (stateSize e.g)) u1 st u1 ∧
    let r := evalBlock e (words32 grad) (words32 master) st
    Does (do engWrite 3 0 (0x200000 + 16384) (bytes32 r.1); engWrite 3 0 (0x200000 + 33024) r.2.1
             engWrite 3 0 0x200000 (List.replicate 16384 0)) u1 () u2 ∧
    Does (imgRead 3 0 dOwn) u2 old u2 ∧ Does (logImage 3 0 0 old) u2 () u3 ∧
    let new := imageOf (bdWfmt dOwn) (bdSp24 dOwn) (gdRmode e.g) (gdSatf e.g) (e.base + 32768) r.1 old
    Does (imgWrite 3 0 dOwn new.1) u3 () u4 ∧ Does (digestWrite 3 0 0x200000 (imageDigest 0 step new.1)) u4 () u5 ∧
    Does (engRead 3 0 (0x100000 + 32768) 16) u5 prev u5 ∧ (ctxAt u5 3).delta = dl := by
  have hm1 : Mapped (modSweep 3 (fun w => { w with swept := w.swept ++ [0] }) u0) :=
    mapped_modCtx (fun x => { x with sweep := { x.sweep with swept := x.sweep.swept ++ [0] } }) hm0 (fun _ => rfl) (fun _ => rfl) (fun _ => rfl)
  have hs1 : sweepAt (modSweep 3 (fun w => { w with swept := w.swept ++ [0] }) u0) 3 =
      { sweepAt (engState dOwn 1 0 dl) 3 with swept := (sweepAt (engState dOwn 1 0 dl) 3).swept ++ [0] } := by
    rw [sweepAt_modSweep, hs0]
  have hd1 : ∀ n, dnReg (modSweep 3 (fun w => { w with swept := w.swept ++ [0] }) u0) 3 n = dnReg (engState dOwn 1 0 dl) 3 n := by
    intro n
    rw [← hd0 n]
    simp only [dnReg, modSweep, ctxAt_modCtx, if_true]
  generalize hu1 : modSweep 3 (fun w => { w with swept := w.swept ++ [0] }) u0 = u1 at *
  have hg : (envOf u1 3 (bdGroup dOwn)).g = groupAt (sweepAt (engState dOwn 1 0 dl) 3) 0 := by
    show groupAt (sweepAt u1 3) (bdGroup dOwn) = _
    rw [hs1]; rfl
  have hrule : gdRule (envOf u1 3 (bdGroup dOwn)).g ≠ 5 := by rw [hg]; rcases hdl with rfl | rfl <;> decide +kernel
  have hslots : stateSlots (envOf u1 3 (bdGroup dOwn)).g = 0 := by rw [hg]; rcases hdl with rfl | rfl <;> decide +kernel
  have hsize : stateSize (envOf u1 3 (bdGroup dOwn)).g = 0 := by rw [hg]; rcases hdl with rfl | rfl <;> decide +kernel
  obtain ⟨grad, h1, -⟩ := read_run (a := 0x100000) (n := 16384) hm1 (by decide) (by decide)
  obtain ⟨master, h2, -⟩ := read_run (a := 0x100000 + 16384) (n := 16384) hm1 (by decide) (by decide)
  obtain ⟨st, h4, -⟩ := read_run (a := 0x100000 + 33024) (n := 0) hm1 (by decide) (by decide)
  obtain ⟨hl, hz⟩ := evalBlock_plain hrule hslots (words32 grad) (words32 master) st
  obtain ⟨v1, w1, hk1, m1, e1⟩ := write_run (a := 0x200000 + 16384) (bs := bytes32 (evalBlock (envOf u1 3 (bdGroup dOwn)) (words32 grad) (words32 master) st).1)
    hm1 (by decide) (by rw [bytes32_len, hl]; decide)
  obtain ⟨v2, w2, hk2, m2, e2⟩ := write_run (a := 0x200000 + 33024) (bs := (evalBlock (envOf u1 3 (bdGroup dOwn)) (words32 grad) (words32 master) st).2.1)
    hk1 (by decide) (by rw [hz]; decide)
  obtain ⟨u2, w3, hk3, m3, e3⟩ := write_run (a := 0x200000) (bs := List.replicate 16384 0) hk2 (by decide) (by rw [List.length_replicate]; decide)
  have hsl2 : logSlotAt u2 3 0 = 0x500000 + 10240 := by
    have : dnReg u2 3 9 = dnReg u1 3 9 := by rw [e3, e2, e1]; rfl
    rw [logSlotAt, logBase, this, hd1]; rcases hdl with rfl | rfl <;> decide +kernel
  have hlog2 : (sweepAt u2 3).logged = [] := by
    have : sweepAt u2 3 = sweepAt u1 3 := by rw [e3, e2, e1]; rfl
    rw [this, hs1]; rfl
  have hsl : ∀ {s}, Mapped s → wsAddr s 3 (tileOfIndex .M 0 (bdTile dOwn)) (bdWoff dOwn) (bdSize dOwn) = some 0xC000000000 :=
    fun h => slice_at h (by decide +kernel) (by decide +kernel) (by decide +kernel)
  obtain ⟨old, w4, hlen⟩ := image_read hk3 (by decide +kernel) (by decide +kernel) (hsl hk3)
  have hz8 : bdSize dOwn = 8192 := by decide +kernel
  obtain ⟨u3, m4, w5, hk5, e4⟩ := log_run hk3 hsl2 hlog2 (by rw [← hz8]; exact hlen)
  obtain ⟨u4, w6, hk6, m5, e5⟩ := image_write (bs := (imageOf (bdWfmt dOwn) (bdSp24 dOwn) (gdRmode (envOf u1 3 (bdGroup dOwn)).g) (gdSatf (envOf u1 3 (bdGroup dOwn)).g)
      ((envOf u1 3 (bdGroup dOwn)).base + 32768) (evalBlock (envOf u1 3 (bdGroup dOwn)) (words32 grad) (words32 master) st).1 old).1)
    hk5 (by decide +kernel) (by decide +kernel) (by decide) (hsl hk5)
  obtain ⟨u5, w7, hk7, m6, e6⟩ := write_run (a := 0x200000 + 32768) (bs := padTo 256 (imageDigest 0 (sweepAt u1 3).step.toNat
      (imageOf (bdWfmt dOwn) (bdSp24 dOwn) (gdRmode (envOf u1 3 (bdGroup dOwn)).g) (gdSatf (envOf u1 3 (bdGroup dOwn)).g)
      ((envOf u1 3 (bdGroup dOwn)).base + 32768) (evalBlock (envOf u1 3 (bdGroup dOwn)) (words32 grad) (words32 master) st).1 old).1)) hk6 (by decide)
    (by rw [padTo_len]; decide)
  obtain ⟨prev, w8, -⟩ := read_run (a := 0x100000 + 32768) (n := 16) hk7 (by decide) (by decide)
  have hd : (ctxAt u5 3).delta = dl := by
    rw [e6, e5, e4, e3, e2, e1, ← hu1, ← hc0]
    simp only [modSweep, ctxAt_mem, ctxAt_modCtx, if_true]
  refine ⟨u2, u3, u4, u5, grad, master, prev, st, old, ?_⟩
  dsimp only
  rw [hsize]
  exact ⟨h1, h2, h4, pair_run w1 (pair_run w2 w3), w4, w5, w6, w7, w8, hd⟩

/-- Every step of an OWN block succeeds on its state. -/
theorem witness_own_block : ∀ dl, dl = Delta.reset ∨ dl = ringed → ∃ u0 u2 u3 u4 u5 grad master prev st old, Does (drainCount 3 0 0) (engState dOwn 1 0 dl) () u0 ∧
    let u1 := modSweep 3 (fun w => { w with swept := w.swept ++ [0] }) u0
    let e := envOf u1 3 (bdGroup dOwn)
    let step := (sweepAt u1 3).step.toNat
    Does (engRead 3 0 0x100000 16384) u1 grad u1 ∧ Does (engRead 3 0 (0x100000 + 16384) 16384) u1 master u1 ∧
    Does (engRead 3 0 (0x100000 + 33024) (stateSize e.g)) u1 st u1 ∧
    let r := evalBlock e (words32 grad) (words32 master) st
    Does (do engWrite 3 0 (0x200000 + 16384) (bytes32 r.1); engWrite 3 0 (0x200000 + 33024) r.2.1
             engWrite 3 0 0x200000 (List.replicate 16384 0)) u1 () u2 ∧
    Does (imgRead 3 0 dOwn) u2 old u2 ∧ Does (logImage 3 0 0 old) u2 () u3 ∧
    let new := imageOf (bdWfmt dOwn) (bdSp24 dOwn) (gdRmode e.g) (gdSatf e.g) (e.base + 32768) r.1 old
    Does (imgWrite 3 0 dOwn new.1) u3 () u4 ∧ Does (digestWrite 3 0 0x200000 (imageDigest 0 step new.1)) u4 () u5 ∧
    Does (engRead 3 0 (0x100000 + 32768) 16) u5 prev u5 ∧ (ctxAt u5 3).delta = dl := by
  intro dl hdl
  obtain ⟨m, h0, hm0⟩ := drain_run hdl
  obtain ⟨u2, u3, u4, u5, grad, master, prev, st, old, h⟩ := own_chain hdl rfl hm0 (sweepAt_mem _ _) (dnReg_mem _ _)
  exact ⟨_, u2, u3, u4, u5, grad, master, prev, st, old, h0, h⟩

theorem witness_own_places : let s := engState dOwn 1 0 Delta.reset
    recordAt s 3 (dnCur s 3) 0 = 0x100000 ∧ recordAt s 3 (!dnCur s 3) 0 = 0x200000 ∧ quarterOf 0 = 0 ∧
    (∀ d ∈ [dOwn, dFrozen, dReplica], formatsOk (sweepAt (engState d 1 0 Delta.reset) 3) d = true) ∧
    (∀ d ∈ [dOwn, dFrozen, dReplica], formatsOk (sweepAt (engState (d + 4 * 2 ^ 11) 1 0 Delta.reset) 3) (d + 4 * 2 ^ 11) = false) := by decide +kernel

/-- With a ring the block is to have a record, without one it is not; the engine comes to it. -/
theorem witness_own_records : EngineOn 3 0 0 dOwn (engState dOwn 1 0 ringed) (engState dOwn 1 0 ringed) ∧
    inPass1 (engState dOwn 1 0 ringed) 3 = false ∧ formatsOk (sweepAt (engState dOwn 1 0 ringed) 3) dOwn = true ∧
    (∀ dl, dl = Delta.reset ∨ dl = ringed → ∀ u, (ctxAt u 3).delta = dl → wantsRecord u 3 0 = decide (dl = ringed) ∧ dl.owed = []) := by
  refine ⟨engineOn_engState (by decide +kernel), by decide +kernel, by decide +kernel, ?_⟩
  intro dl h u hu
  rw [wantsRecord, deltaRing, hu]
  rcases h with rfl | rfl <;> decide +kernel

/-- A FROZEN block's copies succeed. -/
theorem witness_frozen : let s := engState dFrozen 1 0 Delta.reset
    ∃ u1 u2 u3 m dg st, Does (engRead 3 0 (recordAt s 3 (dnCur s 3) 0 + 16384) 16384) s m s ∧
      Does (engWrite 3 0 (recordAt s 3 (!dnCur s 3) 0 + 16384) m) s () u1 ∧ Does (engRead 3 0 (recordAt s 3 (dnCur s 3) 0 + 32768) 16) u1 dg u1 ∧
      Does (engWrite 3 0 (recordAt s 3 (!dnCur s 3) 0 + 32768) dg) u1 () u2 ∧
      Does (engRead 3 0 (recordAt s 3 (dnCur s 3) 0 + 33024) (stateSize (groupAt (sweepAt s 3) (bdGroup dFrozen)))) u2 st u2 ∧
      Does (engWrite 3 0 (recordAt s 3 (!dnCur s 3) 0 + 33024) st) u2 () u3 := by
  intro s
  have hm : Mapped s := mapped_engState _ _ _ _
  have e : recordAt s 3 (dnCur s 3) 0 = 0x100000 := by decide +kernel
  have e' : recordAt s 3 (!dnCur s 3) 0 = 0x200000 := by decide +kernel
  have z : stateSize (groupAt (sweepAt s 3) (bdGroup dFrozen)) = 0 := by decide +kernel
  rw [e, e', z]
  obtain ⟨m, h1, l1⟩ := read_run (a := 0x100000 + 16384) (n := 16384) hm (by decide) (by decide)
  obtain ⟨u1, h2, k1⟩ := write_run (a := 0x200000 + 16384) (bs := m) hm (by decide) (by omega)
  obtain ⟨dg, h3, l3⟩ := read_run (a := 0x100000 + 32768) (n := 16) k1.1 (by decide) (by decide)
  obtain ⟨u2, h4, k2⟩ := write_run (a := 0x200000 + 32768) (bs := dg) k1.1 (by decide) (by omega)
  obtain ⟨st, h5, l5⟩ := read_run (a := 0x100000 + 33024) (n := 0) k2.1 (by decide) (by decide)
  obtain ⟨u3, h6, -⟩ := write_run (a := 0x200000 + 33024) (bs := st) k2.1 (by decide) (by omega)
  exact ⟨u1, u2, u3, m, dg, st, h1, h2, h3, h4, h5, h6⟩

/-- SHAKE-256 of no bytes (FIPS 202's example). -/
theorem test_shake : shake256 8 [] = [0x46, 0xB9, 0xDD, 0x2B, 0x0B, 0xA8, 0x8D, 0x13] := by decide +kernel

theorem leNat_append (xs ys : List Byte) : leNat (xs ++ ys) = leNat xs + 256 ^ xs.length * leNat ys := by
  induction xs with
  | nil => simp [leNat]
  | cons x xs ih => simp only [List.cons_append, leNat, ih, List.length_cons, Nat.pow_succ]; ring

theorem leNat_toLE (n : Nat) : ∀ x, leNat (toLE n x) = x % 256 ^ n := by
  induction n with
  | zero => intro x; simp [toLE, leNat, Nat.mod_one]
  | succ n ih =>
    intro x
    rw [Nat.pow_succ, Nat.mul_comm (256 ^ n) 256, Nat.mod_mul, toLE, leNat, ih, BitVec.toNat_ofNat]

theorem leNat_below (bs : List Byte) : leNat bs < 256 ^ bs.length := by
  induction bs with
  | nil => simp [leNat]
  | cons b bs ih => have := b.isLt; simp only [leNat, List.length_cons, Nat.pow_succ]; omega

theorem shake_len (n : Nat) (bs : List Byte) : (shake256 n bs).length ≤ n := List.length_take_le _ _

/-- A record: 32 header bytes, DIGEST, PREV_DIGEST and what follows. -/
def recOf (low dg prev : Nat) (tail : List Byte) : List Byte := toLE 32 low ++ (toLE 16 dg ++ (toLE 16 prev ++ tail))

theorem fld_low {x y lo w : Nat} (hx : x < 2 ^ 256) (h : lo + w ≤ 256) : fld (2 ^ 256 * y + x) lo w = fld x lo w := by
  apply Nat.eq_of_testBit_eq
  intro i
  rw [fld_testBit, fld_testBit, Nat.testBit_two_pow_mul_add _ hx]
  by_cases hi : i < w
  · rw [if_pos (by omega)]
  · simp [hi]

theorem fld_high {x y lo w : Nat} (hx : x < 2 ^ 256) : fld (2 ^ 256 * y + x) (256 + lo) w = fld y lo w := by
  apply Nat.eq_of_testBit_eq
  intro i
  rw [fld_testBit, fld_testBit, Nat.testBit_two_pow_mul_add _ hx, if_neg (by omega), show 256 + lo + i - 256 = lo + i by omega]

theorem bit_low {x y k : Nat} (hx : x < 2 ^ 256) (h : k < 256) : bitAt (2 ^ 256 * y + x) k = bitAt x k := by
  rw [bitAt, bitAt, Nat.testBit_two_pow_mul_add _ hx, if_pos h]

/-- The header of such a record. -/
theorem dheadOf_rec {low dg prev : Nat} {tail : List Byte} (hl : low < 2 ^ 256) (hd : dg < 2 ^ 128) (hp : prev < 2 ^ 128) :
    dheadOf (recOf low dg prev tail) = ⟨fld low 0 8, fld low 8 2, bitAt low 10, fld low 11 4, bitAt low 15, fld low 16 4, fld low 20 14, fld low 64 64,
      fld low 128 32, fld low 160 16, fld low 176 16, dg, prev⟩ := by
  have h64 : (recOf low dg prev tail).take 64 = toLE 32 low ++ (toLE 16 dg ++ toLE 16 prev) := by
    rw [recOf, ← List.append_assoc, ← List.append_assoc, List.take_append_of_le_length (by simp [toLE_len]),
      List.take_of_length_le (by simp [toLE_len]), List.append_assoc]
  have p1 : (256 : Nat) ^ 32 = 2 ^ 256 := (Nat.pow_mul 2 8 32).symm
  have p2 : (256 : Nat) ^ 16 = 2 ^ 128 := (Nat.pow_mul 2 8 16).symm
  have hw : leNat ((recOf low dg prev tail).take 64) = 2 ^ 256 * (2 ^ 128 * prev + dg) + low := by
    rw [h64, leNat_append, leNat_append, leNat_toLE, leNat_toLE, leNat_toLE, toLE_len, toLE_len, p1, p2, Nat.mod_eq_of_lt hl, Nat.mod_eq_of_lt hd,
      Nat.mod_eq_of_lt hp, Nat.add_comm low, Nat.add_comm dg]
  have e1 : fld (2 ^ 256 * (2 ^ 128 * prev + dg) + low) 256 128 = dg := by
    rw [show (256 : Nat) = 256 + 0 by rfl, fld_high hl, fld_eq, Nat.pow_zero, Nat.div_one, Nat.mul_add_mod, Nat.mod_eq_of_lt hd]
  have e2 : fld (2 ^ 256 * (2 ^ 128 * prev + dg) + low) 384 128 = prev := by
    rw [show (384 : Nat) = 256 + 128 by rfl, fld_high hl, fld_eq, Nat.mul_add_div (Nat.two_pow_pos _), Nat.div_eq_of_lt hd, Nat.add_zero, Nat.mod_eq_of_lt hp]
  unfold dheadOf
  rw [hw]
  dsimp only
  rw [e1, e2, bit_low hl (by decide), bit_low hl (by decide)]
  repeat rw [fld_low hl (by decide)]

/-- A record of KIND, ENC and FMT for block 0 of context 3 of source 1, STEP 0, with ILEN 4,096 and one payload byte. -/
def headLow (kind enc : Nat) : Nat := kind + enc * 2 ^ 8 + 2 * 2 ^ 11 + 3 * 2 ^ 16 + 1 * 2 ^ 20 + 4096 * 2 ^ 160 + 1 * 2 ^ 176

/-- The digest of 4,096 zero bytes as the image of block 0 at STEP 0. -/
def zeroDigest : Nat := leNat (imageDigest 0 0 (List.replicate 4096 0))

theorem zeroDigest_lt : zeroDigest < 2 ^ 128 := by
  refine Nat.lt_of_lt_of_le (leNat_below _) ?_
  rw [show (2 : Nat) ^ 128 = 256 ^ 16 from Nat.pow_mul 2 8 16]
  exact Nat.pow_le_pow_right (by decide) (shake_len _ _)

/-- A REPLACE record whose payload code stands for 4,096 zero bytes. -/
def replaceRec (prev : Nat) : List Byte := recOf (headLow 1 1) zeroDigest prev (padTo 64 [0xFF])
def replicaState (div prev : Nat) : State := engState dReplica 1 div { Delta.reset with ready := [(0, replaceRec prev)] }

theorem mapped_replica (div prev : Nat) : Mapped (replicaState div prev) := mapped_engState _ _ _ _

theorem bdRead_replica (div prev : Nat) (h : valB (bdRead 3 0 0) (replicaState div prev) dReplica = true) :
    Does (bdRead 3 0 0) (replicaState div prev) dReplica (replicaState div prev) := does_keeps (keeps_bdRead _ _ _) h

/-- The engine comes to block 0 of such a state. -/
theorem engineOn_replica (div prev : Nat) (h : valB (bdRead 3 0 0) (replicaState div prev) dReplica = true) (h1 : dnNblk (replicaState div prev) 3 = 1)
    (h2 : inPass1 (replicaState div prev) 3 = false) (h3 : inFlight (replicaState div prev) 3 = [])
    (h4 : entryTakes (replicaState div prev) 3 0 dReplica = true) (h5 : (sweepAt (replicaState div prev) 3).done = [])
    (h6 : Tab.get 0 (sweepAt (replicaState div prev) 3).started 0 = 1) :
    EngineOn 3 0 0 dReplica (replicaState div prev) (replicaState div prev) := by
  refine ⟨rfl, rfl, rfl, ⟨{ wholeRun with stage := .sweeping }, List.mem_singleton.mpr rfl, rfl, rfl⟩, ?_, ?_, ?_⟩
  · rw [h3]; decide
  · show (barrierFull 3 0).run _ = _
    have hg : (get : Eng State).run (replicaState div prev) = (.ok (replicaState div prev), replicaState div prev) := rfl
    unfold barrierFull
    rw [run_bind hg]
    simp only [h6, if_true]; rfl
  · show (nextBlock 3 0).run _ = _
    have hg : (get : Eng State).run (replicaState div prev) = (.ok (replicaState div prev), replicaState div prev) := rfl
    have hb : (bdRead 3 0 0).run (replicaState div prev) = _ := bdRead_replica div prev h
    have hv : bdV dReplica = true := by decide +kernel
    have hh : bdHoop dReplica = 0 := by decide +kernel
    unfold nextBlock
    rw [run_bind hg]
    simp only [h1, h2, h3, h5, List.range_one, List.forIn_cons, List.forIn_nil, List.map_nil, List.contains_nil, Bool.or_self, Bool.not_false,
      Bool.false_eq_true, if_false, if_true, bind_assoc]
    have hq : quarterOf 0 = 0 := by decide
    rw [hq, run_bind hb]
    simp only [hv, hh, h4, Bool.and_true, Bool.true_or, decide_true, if_true]
    rfl

/-- Whether a record is of block 0 and of this STEP. -/
def mineAt (step : Nat) (r : Nat × List Byte) : Bool := decide (r.1 = 0) && decide ((dheadOf r.2).step = step)

theorem mine_replace {prev : Nat} (hp : prev < 2 ^ 128) : mineAt 0 (0, replaceRec prev) = true := by
  rw [mineAt, replaceRec, dheadOf_rec (by decide +kernel) zeroDigest_lt hp]
  have h : fld (headLow 1 1) 64 64 = 0 := by decide +kernel
  simp only [h, decide_true, Bool.and_true]

theorem mine_found {div prev : Nat} (hp : prev < 2 ^ 128) :
    (ctxAt (replicaState div prev) 3).delta.ready.find? (mineAt 0) = some (0, replaceRec prev) := by
  show [(0, replaceRec prev)].find? (mineAt 0) = _
  rw [List.find?_cons_of_pos (mine_replace hp)]

theorem mine_taken {div prev : Nat} (hp : prev < 2 ^ 128) :
    modDelta 3 (fun x => { x with ready := eraseFirst (mineAt 0) x.ready }) (replicaState div prev) =
      modDelta 3 (fun x => { x with ready := [] }) (replicaState div prev) := by
  have e : (ctxAt (replicaState div prev) 3).delta.ready = [(0, replaceRec prev)] := rfl
  have h : eraseFirst (mineAt 0) [(0, replaceRec prev)] = [] := by simp [eraseFirst, mine_replace hp]
  simp only [modDelta, modCtx, e, h]

/-- The engine comes to a REPLICA block whose record has come; the pass is not LAMB's and nothing is asked for. -/
theorem witness_engine_replica : EngineOn 3 0 0 dReplica (replicaState 0 0) (replicaState 0 0) ∧ bdRole dReplica = 1 ∧
    inPass1 (replicaState 0 0) 3 = false ∧
    (sweepAt (replicaState 0 0) 3).step.toNat = 0 ∧ (ctxAt (replicaState 0 0) 3).delta.ready.find? (mineAt 0) = some (0, replaceRec 0) ∧ asked (replicaState 0 0) 3 0 = false ∧
    (ctxAt (replicaState 0 0) 3).latched = none :=
  ⟨engineOn_replica 0 0 (by decide +kernel) (by decide +kernel) (by decide +kernel) (by decide +kernel) (by decide +kernel) (by decide +kernel)
    (by decide +kernel), by decide +kernel, by decide +kernel, by decide +kernel, mine_found (by decide), rfl, rfl⟩

/-- The same under DIVPOL 2 with a record whose PREV_DIGEST is 1, while the stored digest is 0. -/
theorem witness_diverged : EngineOn 3 0 0 dReplica (replicaState 2 1) (replicaState 2 1) ∧
    inPass1 (replicaState 2 1) 3 = false ∧
    (ctxAt (replicaState 2 1) 3).delta.ready.find? (mineAt 0) = some (0, replaceRec 1) ∧ asked (replicaState 2 1) 3 0 = false ∧
    (ctxAt (replicaState 2 1) 3).latched = none ∧ fld (dnReg (replicaState 2 1) 3 0) 1 2 = 2 ∧
    recordAt (replicaState 2 1) 3 (dnCur (replicaState 2 1) 3) 0 = 0x100000 ∧
    Does (engRead 3 0 (0x100000 + 32768) 16) (modDelta 3 (fun x => { x with ready := eraseFirst (mineAt 0) x.ready }) (replicaState 2 1))
      (List.replicate 16 0) (modDelta 3 (fun x => { x with ready := eraseFirst (mineAt 0) x.ready }) (replicaState 2 1)) ∧
    leNat (List.replicate 16 0) ≠ (dheadOf (replaceRec 1)).prev := by
  refine ⟨engineOn_replica 2 1 (by decide +kernel) (by decide +kernel) (by decide +kernel) (by decide +kernel) (by decide +kernel) (by decide +kernel)
    (by decide +kernel), by decide +kernel, mine_found (by decide), rfl, rfl, by decide +kernel, by decide +kernel, ?_, ?_⟩
  · rw [mine_taken (by decide)]
    exact does_keeps (keeps_engRead _ _ _ _) (by decide +kernel)
  · rw [replaceRec, dheadOf_rec (by decide +kernel) zeroDigest_lt (by decide)]
    decide

/-- Under DIVPOL 1 the owner is to be asked. -/
theorem witness_diverged_asks : EngineOn 3 0 0 dReplica (replicaState 1 1) (replicaState 1 1) ∧ fld (dnReg (replicaState 1 1) 3 0) 1 2 = 1 ∧
    (ctxAt (replicaState 1 1) 3).delta.ready.find? (mineAt 0) = some (0, replaceRec 1) ∧ asked (replicaState 1 1) 3 0 = false :=
  ⟨engineOn_replica 1 1 (by decide +kernel) (by decide +kernel) (by decide +kernel) (by decide +kernel) (by decide +kernel) (by decide +kernel)
    (by decide +kernel), by decide +kernel, mine_found (by decide), rfl⟩

/-- The payload code 0xFF stands for 4,096 zero bytes. -/
theorem expand_zero : padTo 4096 (expand 2 4096 [0xFF]) = List.replicate 4096 0 := by
  have e : expand 2 4096 [0xFF] = List.replicate 4096 0 := by
    have h1 : ¬(0xFF : Byte).toNat < 0x80 := by decide
    have h2 : ¬(0xFF : Byte).toNat < 0xC0 := by decide
    have h3 : ((0xFF : Byte).toNat - 0xBF) * 64 = 4096 := by decide
    have h4 : ∀ n, expand 1 n [] = [] := fun n => by cases n <;> rfl
    show (if (0xFF : Byte).toNat < 0x80 then _ else List.replicate (if (0xFF : Byte).toNat < 0xC0 then _ else ((0xFF : Byte).toNat - 0xBF) * 64) 0).take 4096 ++ expand 1 _ (if (0xFF : Byte).toNat < 0x80 then _ else []) = _
    rw [if_neg h1, if_neg h1, if_neg h2, h3, h4, List.append_nil, List.take_replicate]
    rfl
  rw [e, padTo, List.take_append_of_le_length (by rw [List.length_replicate]), List.take_of_length_le (by rw [List.length_replicate])]

theorem replace_tail (prev : Nat) : ((replaceRec prev).drop 64).take 1 = [0xFF] := by
  have h64 : (toLE 32 (headLow 1 1) ++ (toLE 16 zeroDigest ++ toLE 16 prev)).length = 64 := by simp [toLE_len]
  rw [replaceRec, recOf, ← List.append_assoc, ← List.append_assoc, List.append_assoc (toLE 32 _), List.drop_append_of_le_length (by omega),
    List.drop_of_length_le (by omega)]
  rfl

/-- Every step of the REPLACE record's application succeeds. -/
theorem witness_replica : let s := replicaState 0 0
    let u0 := modDelta 3 (fun x => { x with ready := eraseFirst (mineAt 0) x.ready }) s
    let r := dheadOf (replaceRec 0)
    recordAt s 3 (dnCur s 3) 0 = 0x100000 ∧ recordAt s 3 (!dnCur s 3) 0 = 0x200000 ∧
    ∃ own old master u1 u2 u3 u4, Does (engRead 3 0 (0x100000 + 32768) 16) u0 own u0 ∧ leNat own = r.prev ∧ Does (imgRead 3 0 dReplica) u0 old u0 ∧
      Does (engRead 3 0 (0x100000 + 16384) 16384) u0 master u0 ∧ Does (logImage 3 0 0 old) u0 () u1 ∧
      let pay := padTo r.ilen (expand (r.clen + 1) r.ilen (((replaceRec 0).drop 64).take r.clen))
      let n := bdSize dReplica
      let new := if r.enc = 0 then xorBytes (pay.take n) old else pay.take n
      let m := (pay.drop n).take 16384
      Does (imgWrite 3 0 dReplica new) u1 () u2 ∧
      Does (if r.master then engWrite 3 0 (0x200000 + 16384) (if r.enc = 0 then xorBytes m master else m) else pure ()) u2 () u3 ∧
      Does (digestWrite 3 0 0x200000 (imageDigest 0 (sweepAt s 3).step.toNat new)) u3 () u4 ∧
      leNat (imageDigest 0 (sweepAt s 3).step.toNat new) = r.digest := by
  intro s u0 r
  have hu0 : u0 = modDelta 3 (fun x => { x with ready := [] }) (replicaState 0 0) := mine_taken (by decide)
  clear_value u0
  subst hu0
  have hm0 : Mapped (modDelta 3 (fun x => { x with ready := [] }) (replicaState 0 0)) := mapped_modCtx (fun x => { x with delta := { x.delta with ready := [] } })
    (mapped_replica 0 0) (fun _ => rfl) (fun _ => rfl) (fun _ => rfl)
  have hr : r = ⟨1, 1, false, 2, false, 3, 1, 0, 0, 4096, 1, zeroDigest, 0⟩ := by
    show dheadOf (replaceRec 0) = _
    rw [replaceRec, dheadOf_rec (by decide +kernel) zeroDigest_lt (by decide)]
    have : ∀ d, DHead.mk (fld (headLow 1 1) 0 8) (fld (headLow 1 1) 8 2) (bitAt (headLow 1 1) 10) (fld (headLow 1 1) 11 4) (bitAt (headLow 1 1) 15)
      (fld (headLow 1 1) 16 4) (fld (headLow 1 1) 20 14) (fld (headLow 1 1) 64 64) (fld (headLow 1 1) 128 32) (fld (headLow 1 1) 160 16)
      (fld (headLow 1 1) 176 16) d 0 = ⟨1, 1, false, 2, false, 3, 1, 0, 0, 4096, 1, d, 0⟩ := by
      intro d
      congr 1
    exact this _
  have hz : bdSize dReplica = 4096 := by decide +kernel
  have hstep : (sweepAt s 3).step.toNat = 0 := by decide +kernel
  have hsl : ∀ {s}, Mapped s → wsAddr s 3 (tileOfIndex .M 0 (bdTile dReplica)) (bdWoff dReplica) (bdSize dReplica) = some 0xC000000000 :=
    fun h => slice_at h (by decide +kernel) (by decide +kernel) (by decide +kernel)
  have h0 : Does (engRead 3 0 (0x100000 + 32768) 16) _ (List.replicate 16 0) (modDelta 3 (fun x => { x with ready := [] }) (replicaState 0 0)) := does_keeps (keeps_engRead _ _ _ _) (by decide +kernel)
  obtain ⟨old, w1, hlen⟩ := image_read hm0 (by decide +kernel) (by decide +kernel) (hsl hm0)
  obtain ⟨master, w2, -⟩ := read_run (a := 0x100000 + 16384) (n := 16384) hm0 (by decide) (by decide)
  obtain ⟨u1, m1, w3, hk1, -⟩ := log_run hm0 (by decide +kernel) (by rfl) (Nat.le_trans hlen (by rw [hz]; decide))
  obtain ⟨u2, w4, hk2⟩ := image_write (bs := List.replicate 4096 0) hk1 (by decide +kernel) (by decide +kernel) (by decide) (hsl hk1)
  obtain ⟨u4, w5, -⟩ := write_run (a := 0x200000 + 32768) (bs := padTo 256 (imageDigest 0 0 (List.replicate 4096 0))) hk2.1 (by decide)
    (by rw [padTo_len]; decide)
  refine ⟨by decide +kernel, by decide +kernel, _, old, master, u1, u2, u2, u4, h0, ?_, w1, w2, w3, ?_⟩
  · rw [hr]; decide
  · rw [hr, hz, hstep]
    dsimp only
    rw [replace_tail, expand_zero, if_neg (by decide), List.take_of_length_le (by rw [List.length_replicate])]
    exact ⟨w4, rfl, w5, rfl⟩

/-- LAMB's only block has finished pass 1; a sweep without logged images rolls back. -/
def lambDone : State := modSweep 3 (fun w => { w with pass1 := [0] }) (engState dOwn 6 0 Delta.reset)
def rolledBack : State := modSweep 3 (fun w => { w with st := .rollingBack }) (engState dOwn 1 0 Delta.reset)

theorem witness_lamb_pass : (sweepAt lambDone 3).st = .opened ∧ inPass1 lambDone 3 = true ∧ dnNblk lambDone 3 = 1 ∧ (0 : Nat) ∈ (sweepAt lambDone 3).pass1 := by
  decide +kernel

theorem witness_rollback : (sweepAt rolledBack 3).st = .rollingBack ∧ rolledBack.waits = [] ∧ (sweepAt rolledBack 3).logged = [] ∧
    ∃ u, Does (logHeader 3 3) rolledBack () u := by
  refine ⟨by decide +kernel, rfl, rfl, ?_⟩
  have h : (match (logHeader 3 3).run rolledBack with
    | (.ok (), _) => true
    | _ => false) = true := by decide +kernel
  show ∃ u, (logHeader 3 3).run rolledBack = _
  revert h
  cases (logHeader 3 3).run rolledBack with
  | mk a b =>
    cases a with
    | ok x => intro _; exact ⟨b, rfl⟩
    | error e => intro h; cases h

/-- Context 3 with one DATA record of 64 B of block 0 at the front of its queue of quarter 0 and a ring of 2^k slots at 0x500000;
k = 0 is no ring. -/
def shortRec : List Byte := recOf (headLow 1 1) 0 0 []
def ringDelta (k tail : Nat) (drop : Bool) : Delta :=
  { Delta.reset with queue := one 0 [(1, 0, shortRec)], rings := one 0 (0x500000, k), tails := one 0 (BitVec.ofNat 32 tail), drop := drop }
def deltaState (k tail : Nat) (drop : Bool) : State := engState dOwn 1 0 (ringDelta k tail drop)

theorem shortRec_len : shortRec.length = 64 := by simp [shortRec, recOf, toLE_len]

theorem witness_delta_rings : ∀ p ∈ [(0, 0, false), (4, 3, false), (1, 2, false), (1, 2, true)], let s := deltaState p.1 p.2.1 p.2.2
    (ctxAt s 3).delta.notes = [] ∧ queued s 3 0 = [(1, 0, shortRec)] ∧ Tab.get 0 (ctxAt s 3).delta.gaps 0 = 0 ∧ (0 : Nat) ∉ (sweepAt s 3).done ∧
    deltaRing s 3 0 = (0x500000, p.1) ∧ (ctxAt s 3).delta.drop = p.2.2 ∧
    placeIn (2 ^ (deltaRing s 3 0).2) (deltaHead s 3 0).toNat (deltaTail s 3 0).toNat (shortRec.length / 64) =
      (if p.1 = 4 then .put 3 else if p.1 = 0 then .put 0 else .wait) := by decide +kernel

/-- Where no message waits, nothing is sent. -/
theorem pumpNotes_none {c : Nat} {s : State} (h : (ctxAt s c).delta.notes = []) (hc : (modDelta c (fun d => { d with notes := [] }) s).ctxs = s.ctxs) :
    pumpNotes c s = s := by
  rw [pumpNotes, h, sendNotes]
  exact (congrArg (fun x => { s with ctxs := x }) hc).trans rfl

theorem witness_delta_pumped : ∀ p ∈ [(0, 0, false), (4, 3, false), (1, 2, false), (1, 2, true)],
    pumpNotes 3 (deltaState p.1 p.2.1 p.2.2) = deltaState p.1 p.2.1 p.2.2 := fun p _ => pumpNotes_none rfl (by
  revert p; decide +kernel)

/-- A COMMIT record without room under DROP, with DATA behind it. -/
theorem witness_delta_drop : let s := engState dOwn 1 0 { ringDelta 1 2 true with queue := one 0 [(2, 0, shortRec), (1, 0, shortRec)] }
    (ctxAt s 3).delta.notes = [] ∧ queued s 3 0 = [(2, 0, shortRec), (1, 0, shortRec)] ∧ Tab.get 0 (ctxAt s 3).delta.gaps 0 = 0 ∧
    (0 : Nat) ∉ (sweepAt s 3).done ∧ (deltaRing s 3 0).2 ≠ 0 ∧ (ctxAt s 3).delta.drop = true ∧
    placeIn (2 ^ (deltaRing s 3 0).2) (deltaHead s 3 0).toNat (deltaTail s 3 0).toNat (shortRec.length / 64) = .wait := by decide +kernel

theorem witness_delta_write : ∃ u, Does (engWrite 3 0 (0x500000 + 64 * 3) shortRec) (deltaState 4 3 false) () u := by
  have hm : Mapped (deltaState 4 3 false) := mapped_engState _ _ _ _
  obtain ⟨u, h, -⟩ := write_run (a := 0x500000 + 64 * 3) (bs := shortRec) hm (by decide) (by rw [shortRec_len]; decide)
  exact ⟨u, h⟩

/-! ### The inbox of context 3: a ring of 16 slots at 0x500000, its messages on channel 9, whose ring lies at 0x580000 -/

def inboxDelta (k : Nat) (arrived : List (List Byte × Option Nat)) : Delta :=
  { Delta.reset with inbox := (0x500000, k), arrived := arrived, inTail := if arrived = [] then 2 else 0 }
def inboxState (k : Nat) (arrived : List (List Byte × Option Nat)) (d low : Nat) : State :=
  let s := engState d 1 0 (inboxDelta k arrived)
  { s with
    mem := putBytes (putBytes s.mem 0x500000 (recOf low 0 0 (padTo 64 [0xFF]))) 0x580000 (toLE 64 (1 + 0x500000 * 2 ^ 64 + 128 * 2 ^ 128))
    chans := if arrived = [] then one 9 { ringChan .opened 1 1 with receiver := BitVec.ofNat 32 (2 ^ 10), space := 1, ringBase := 0x580000 } else [] }

theorem witness_arrived : (ctxAt (inboxState 0 [(shortRec, none)] dReplica 0) 3).delta.arrived = [(shortRec, none)] ∧
    (ctxAt (inboxState 0 [(shortRec, none)] dReplica 0) 3).delta.inbox.2 = 0 ∧
    noteChan (inboxState 0 [(shortRec, none)] dReplica 0) 3 = none ∧
    (ctxAt (inboxState 4 [(shortRec, none)] dReplica 0) 3).delta.arrived = [(shortRec, none)] ∧ (ctxAt (inboxState 4 [(shortRec, none)] dReplica 0) 3).delta.inbox = (0x500000, 4) ∧
    placeIn (2 ^ 4) (ctxAt (inboxState 4 [(shortRec, none)] dReplica 0) 3).delta.inHead (ctxAt (inboxState 4 [(shortRec, none)] dReplica 0) 3).delta.inTail
      (shortRec.length / 64) = .put 0 := by decide +kernel

theorem mapped_with {s : State} (hm : Mapped s) (m : List Host.Cell) (x : Tab Chan)
    (h : ∀ a, 0x2FC0000000 ≤ a → a < 0xC000000000 → Tab.get 0 m a = Tab.get 0 s.mem a) : Mapped { s with mem := m, chans := x } := by
  obtain ⟨a, b, c, d, r, e⟩ := hm
  exact ⟨a, b, c, d, r, fun y h1 h2 => (h y h1 h2).trans (e y h1 h2)⟩

theorem witness_inbox_write : ∃ u, Does (engWrite 3 0 (0x500000 + 64 * 0) shortRec) (inboxState 4 [(shortRec, none)] dReplica 0) () u ∧ noteChan u 3 = none := by
  have hm : Mapped (inboxState 4 [(shortRec, none)] dReplica 0) := by
    refine mapped_with (mapped_engState dReplica 1 0 (inboxDelta 4 [(shortRec, none)])) _ _ fun x h1 h2 => ?_
    rw [get_putBytes_other (Or.inr (by rw [toLE_len]; omega)),
      get_putBytes_other (Or.inr (by simp only [recOf, List.length_append, toLE_len, padTo_len]; omega))]
  obtain ⟨u, h, -, m, he⟩ := write_run (a := 0x500000 + 64 * 0) (bs := shortRec) hm (by decide) (by rw [shortRec_len]; decide)
  have hn : u.chans = [] := by rw [he]; rfl
  exact ⟨u, h, by simp [noteChan, hn]⟩

/-- Records that wait in the ring: DATA of this STEP for the REPLICA block, ROLLBACK of this STEP, and DATA of another STEP. -/
def inboxRec (low : Nat) : List Byte := recOf low 0 0 (padTo 64 [0xFF])

theorem witness_inbox : ∀ low ∈ [headLow 1 1, headLow 2 0, headLow 1 1 + 2 ^ 64], let s := inboxState 4 [] dReplica low
    let d := (ctxAt s 3).delta
    let r := dheadOf (inboxRec low)
    noteChan s 3 = some (9, 1, 0x500000, 128) ∧ d.arrived = [] ∧ d.inbox = (0x500000, 4) ∧ d.taken = [] ∧ d.inHead = 0 ∧ d.inTail = ceilDiv 128 64 ∧
    valB (engRead 3 0 0x500000 (64 * ceilDiv 128 64)) s (inboxRec low) = true ∧ r.kind = (if low = headLow 2 0 then 2 else 1) ∧
    r.step = (if low = headLow 1 1 + 2 ^ 64 then 1 else 0) ∧ (sweepAt s 3).step = 0 ∧ (sweepAt s 3).st = .opened ∧
    bdAt s 3 0 r.block = some dReplica ∧ bdV dReplica = true ∧ bdRole dReplica = 1 ∧ r.block < dnNblk s 3 := by decide +kernel

theorem witness_inbox_read (low : Nat) (h : low ∈ [headLow 1 1, headLow 2 0, headLow 1 1 + 2 ^ 64]) :
    Does (engRead 3 0 0x500000 (64 * ceilDiv 128 64)) (inboxState 4 [] dReplica low) (inboxRec low) (inboxState 4 [] dReplica low) :=
  does_keeps (keeps_engRead _ _ _ _) (witness_inbox low h).2.2.2.2.2.2.1

/-- The state in which such a record has been handed over. -/
def inboxHanded (low : Nat) : State :=
  inboxHand 3 (inboxRec low) (modDelta 3 (fun x => { x with taken := x.taken ++ [(0, ceilDiv 128 64)] }) (serviceTaken 9 1 (inboxState 4 [] dReplica low)))

theorem witness_inbox_free : ∀ low ∈ [headLow 1 1, headLow 2 0, headLow 1 1 + 2 ^ 64], ∃ v, Does (inboxFree 3 (2 ^ 4 + 1)) (inboxHanded low) () v := by
  have h : ∀ low ∈ [headLow 1 1, headLow 2 0, headLow 1 1 + 2 ^ 64], (match ((inboxFree 3 (2 ^ 4 + 1)).run (inboxHanded low)).1 with
    | .ok () => true
    | _ => false) = true := by decide +kernel
  intro low hl
  have := h low hl
  show ∃ v, (inboxFree 3 (2 ^ 4 + 1)).run (inboxHanded low) = _
  revert this
  cases (inboxFree 3 (2 ^ 4 + 1)).run (inboxHanded low) with
  | mk a b =>
    cases a with
    | ok x => intro _; exact ⟨b, rfl⟩
    | error e => intro h; cases h

/-- A record of two slots at the last slot of a ring of 16: a PAD comes before it. -/
def padState : State := engState dOwn 1 0 { ringDelta 4 15 false with queue := one 0 [(1, 0, inboxRec (headLow 1 1))], heads := one 0 4 }

def okB (x : Eng Unit) (s : State) : Bool := match (x.run s).1 with
  | .ok () => true
  | _ => false

theorem does_okB {x : Eng Unit} {s : State} (h : okB x s = true) : Does x s () (x.run s).2 := by
  show x.run s = _
  revert h
  unfold okB
  cases x.run s with
  | mk a b =>
    cases a with
    | ok x => intro _; rfl
    | error e => intro h; cases h

def padPut : Eng Unit := deltaPut 3 0 (2 ^ 4 - 1) 1 (plainRecord padState 3 5 (dheadOf (inboxRec (headLow 1 1))).step 1)

theorem witness_delta_pad : pumpNotes 3 padState = padState ∧ queued padState 3 0 = [(1, 0, inboxRec (headLow 1 1))] ∧
    Tab.get 0 (ctxAt padState 3).delta.gaps 0 = 0 ∧ (0 : Nat) ∉ (sweepAt padState 3).done ∧ (deltaRing padState 3 0).2 = 4 ∧
    placeIn (2 ^ 4) (deltaHead padState 3 0).toNat (deltaTail padState 3 0).toNat ((inboxRec (headLow 1 1)).length / 64) = .pad 1 ∧
    ∃ u v, Does padPut padState () u ∧ placeIn (2 ^ 4) (deltaHead padState 3 0).toNat (deltaTail u 3 0).toNat ((inboxRec (headLow 1 1)).length / 64) = .put 0 ∧
      Does (deltaPut 3 0 0 ((inboxRec (headLow 1 1)).length / 64) (inboxRec (headLow 1 1))) u () v :=
  ⟨pumpNotes_none rfl (by decide +kernel), by decide +kernel, by decide +kernel, by decide +kernel, by decide +kernel, by decide +kernel, _, _,
    does_okB (by decide +kernel), by decide +kernel, does_okB (by decide +kernel)⟩

/-- A resynchronisation for module 5 over channel 9, or for this module itself, once the block's image is formed: every read
succeeds; and before. -/
def unformed : State := engState dOwn 1 0 { Delta.reset with repl := [(5, 9), (0, 10)] }
def resyncState : State := modSweep 3 (fun w => { w with done := [0] }) unformed

theorem witness_resync : let s := resyncState
    (0#32).toNat < dnNblk s 3 ∧ Does (bdRead 3 0 0) s dOwn s ∧ bdV dOwn = true ∧ bdRole dOwn = 0 ∧ bdHoop dOwn = 0 ∧ quarterOf 0 = 0 ∧
    ((sweepAt s 3).st = .opened ∧ (0 : Nat) ∈ (sweepAt s 3).done) ∧
    ¬((0 : Nat) ∈ (sweepAt unformed 3).done ∨ (0 : Nat) ∈ (inFlight unformed 3).map (·.1)) ∧ Does (bdRead 3 0 0) unformed dOwn unformed ∧
    recordAt s 3 (dnCur s 3) 0 = 0x100000 ∧ recordAt s 3 (!dnCur s 3) 0 = 0x200000 ∧
    (∀ p ∈ [(5#14, 9), (0#14, 10)], (ctxAt s 3).delta.repl.filter (fun t => t.1 = p.1.toNat) = [(p.1.toNat, p.2)]) ∧ ownId s = 0 ∧
    ∃ img m dg prev, Does (imgRead 3 0 dOwn) s img s ∧ Does (engRead 3 0 (0x200000 + 16384) 16384) s m s ∧
      Does (engRead 3 0 (0x200000 + 32768) 16) s dg s ∧ Does (engRead 3 0 (0x100000 + 32768) 16) s prev s := by
  intro s
  have hm : Mapped s := mapped_modCtx (fun x => { x with sweep := { x.sweep with done := [0] } }) (mapped_engState _ _ _ _) (fun _ => rfl) (fun _ => rfl)
    fun _ => rfl
  obtain ⟨img, h1, -⟩ := image_read hm (d := dOwn) (by decide +kernel) (by decide +kernel) (slice_at hm (by decide +kernel) (by decide +kernel) (by decide +kernel))
  obtain ⟨m, h2, -⟩ := read_run (a := 0x200000 + 16384) (n := 16384) hm (by decide) (by decide)
  obtain ⟨dg, h3, -⟩ := read_run (a := 0x200000 + 32768) (n := 16) hm (by decide) (by decide)
  obtain ⟨prev, h4, -⟩ := read_run (a := 0x100000 + 32768) (n := 16) hm (by decide) (by decide)
  exact ⟨by decide +kernel, does_keeps (keeps_bdRead _ _ _) (by decide +kernel), by decide +kernel, by decide +kernel, by decide +kernel,
    by decide +kernel, by decide +kernel, by decide +kernel, does_keeps (keeps_bdRead _ _ _) (by decide +kernel), by decide +kernel, by decide +kernel,
    by decide +kernel, by decide +kernel, img, m, dg, prev, h1, h2, h3, h4⟩

/-! ### LoadsAreStagedAndCommitted: loads of context 3 into column 1 of Hoop 0 -/

def columnLoad (o : LoadOrigin) (staged : Bool) : Load := ⟨o, 3, 0x101, 1, 1, false, false, staged⟩
def columnEntry (kind : Nat) : Nat := 1 + kind * 2 + 3 * 2 ^ 4 + 2 ^ 8 + 2 ^ 13 + 2 ^ 18 + 0x101 * 2 ^ 32
def columnHoop (kind : Nat) (ls : List Load) : Hoop :=
  { Hoop.reset with power := .on, table := one 0 (BitVec.ofNat 256 (columnEntry kind)), loads := ls, runs := if kind = 0 then [] else [⟨0, 3, 1, 1, 0x101, .loading, .compute, true, true⟩] }
def columnState (kind : Nat) (ls : List Load) (pricks : List Pricking) : State :=
  { withCtx (ctxIn .active) with hoops := one 0 (columnHoop kind ls), pricks := pricks }
def columnPrick (at_ : Nat) : Pricking := ⟨3, 0x101, 0, 1, 1, false, 64, at_, [], []⟩

theorem witness_prefetch : ∀ kind ∈ [1, 2], enV (entryAt (columnState kind [] []) 0 0) = true ∧ enKind (entryAt (columnState kind [] []) 0 0) = kind ∧
    enReconf (entryAt (columnState kind [] []) 0 0) = true ∧ loadsOf (columnState kind [] []) 0 = [] := by decide +kernel

theorem witness_load : let s := columnState 2 [columnLoad (.entry 0) false] [columnPrick 0]
    nextLoad (loadsOf s 0) = some 0 ∧ (loadsOf s 0)[0]? = some (columnLoad (.entry 0) false) ∧ (hoopAt s 0).power = .on ∧
    (∀ m ∈ loadsOf s 0, commitsNow m = false ∧ (m.staged = true → columnsMeet (columnLoad (.entry 0) false) m = false)) ∧
    residentOf s 3 0x101 = some (columnPrick 0) ∧ ueAt s 0 64 = none := by decide +kernel

theorem witness_load_absent : let s := columnState 2 [columnLoad .apply false] []
    nextLoad (loadsOf s 0) = some 0 ∧ (loadsOf s 0)[0]? = some (columnLoad .apply false) ∧ (hoopAt s 0).power = .on ∧
    (∀ m ∈ loadsOf s 0, commitsNow m = false ∧ (m.staged = true → columnsMeet (columnLoad .apply false) m = false)) ∧ residentOf s 3 0x101 = none := by decide +kernel

/-- A staged load of the entry commits; the entry's run is in place, and where it is of kind 1 it begins. -/
theorem witness_commit : ∀ p ∈ [(1, LoadOrigin.entry 0), (2, LoadOrigin.entry 0)],
    let s := columnState p.1 [columnLoad p.2 true] []
    findIdx commitsNow (loadsOf s 0) = some 0 ∧ (loadsOf s 0)[0]? = some (columnLoad p.2 true) ∧
    (commitLoad 0 (columnLoad p.2 true) (takeLoad 0 0 s)).1 = .ok ∧
    let u := (commitLoad 0 (columnLoad p.2 true) (takeLoad 0 0 s)).2
    runAt u 0 0 = some ⟨0, 3, 1, 1, 0x101, .loading, .compute, true, true⟩ ∧ enKind (entryAt u 0 0) = p.1 := by decide +kernel

theorem witness_commit_loader : let s := columnState 0 [columnLoad (.loader 0 true) true] []
    findIdx commitsNow (loadsOf s 0) = some 0 ∧ (loadsOf s 0)[0]? = some (columnLoad (.loader 0 true) true) ∧
    (commitLoad 0 (columnLoad (.loader 0 true) true) (takeLoad 0 0 s)).1 = .ok := by decide +kernel

end Sys2Proof.Tests
end

section
/-! The frames of whole groups of commands: what a command of the ground, TOKEN_DELIVER, and any command but those of
pins, TAP, resets and the host window leave as it is. -/

namespace Sys2Proof.Machine

/-- The outcome is a next state with the fuses, BBRAM and pins of `s` (R498, R527). -/
def KeepsTrust (o : Out) (s : State) : Prop := Answers o fun t => t.trust = s.trust ∧ t.pins = s.pins

theorem keepsTrust_next {s t : State} (h : t.trust = s.trust ∧ t.pins = s.pins) : KeepsTrust (.next t) s :=
  ⟨t, rfl, h⟩

theorem keepsTrust_ctl (u s : State) : KeepsTrust (ctl u s) s := keepsTrust_next ⟨rfl, rfl⟩

theorem keepsTrust_ground (u s : State) : KeepsTrust (ground u s) s := keepsTrust_next ⟨rfl, rfl⟩

/-! ### Host commands -/

theorem postAt_keeps (o : Origin) (bs : List Byte) (s : State) :
    (postAt o bs s).trust = s.trust ∧ (postAt o bs s).pins = s.pins := by
  cases o with
  | ring p r => simp only [postAt, setRing_trust, setRing_pins]; split <;> exact ⟨rfl, rfl⟩
  | pm p k => exact ⟨rfl, rfl⟩
  | batch n p addr host => cases host <;> exact ⟨rfl, rfl⟩
  | mgmt => exact ⟨rfl, rfl⟩

/-- A slot that spells no command of Table 12.9 holds one that fails wherever it runs (R423). -/
theorem slotRefused_run {bs : List Byte} {c : HostCmd} (h : slotRefused bs = some c) :
    ∃ st, ∀ e s, c.run e s = failWith st s := by
  unfold slotRefused at h
  dsimp only at h
  split at h
  · cases h; exact ⟨_, fun _ _ => rfl⟩
  split at h
  · cases h; exact ⟨_, fun _ _ => rfl⟩
  split at h
  · cases h; exact ⟨_, fun _ _ => rfl⟩
  · cases h

/-- A command that fails leaves fuses, BBRAM and pins, whatever the checks before it say. -/
theorem runCmd_failing {c : HostCmd} {st : Status} (h : ∀ e s, c.run e s = failWith st s) (env : Env)
    (pre : Option Status) (batch : Bool) (s : State) :
    (runCmd c env pre batch s).1.trust = s.trust ∧ (runCmd c env pre batch s).1.pins = s.pins := by
  cases pre with
  | none => simp only [runCmd, h]; exact postAt_keeps _ _ _
  | some st => exact postAt_keeps _ _ _

theorem refuseSlots_keeps (p r n : Nat) (s : State) :
    (refuseSlots p r n s).trust = s.trust ∧ (refuseSlots p r n s).pins = s.pins := by
  induction n generalizing s with
  | zero => exact ⟨rfl, rfl⟩
  | succ n ih =>
    unfold refuseSlots
    dsimp only
    split
    · exact ⟨rfl, rfl⟩
    · next c hc =>
      split
      · exact ⟨rfl, rfl⟩
      · obtain ⟨st, hst⟩ := slotRefused_run hc
        rw [(ih _).1, (ih _).2]
        exact runCmd_failing hst _ _ _ _

theorem hostCommand_keepsTrust (h : Hdr) (c : HostCmd) (s : State) : KeepsTrust (hostCommand h c s) s := by
  have hs := refuseSlots_keeps h.port.val h.ring.val (ringSlots (ringAt s h.port.val h.ring.val)) s
  unfold hostCommand
  dsimp only
  split
  · exact keepsTrust_next hs
  · exact keepsTrust_next hs

theorem execPldmRequestUpdate_keepsTrust (image : BitVec 8) (data : List Byte) (s : State) :
    KeepsTrust (execPldmRequestUpdate image data s) s := by
  unfold execPldmRequestUpdate
  dsimp only
  split
  · exact keepsTrust_next ⟨rfl, rfl⟩
  · exact keepsTrust_ctl _ _

/-! ### TOKEN_DELIVER -/

theorem undef_host (u : UndefCase) (c : Nat) (s : State) : (undef u c s).host = s.host := by
  unfold undef; split <;> rfl

theorem deliver_host (h : Nat) (a : Token) (leaves rest : List Leaf) (s : State) :
    (deliver h a leaves rest s).host = s.host :=
  foldl_keeps State.host _ (fun b l => by cases l <;> rfl) leaves s

/-- TOKEN_DELIVER ends in a state that the ground can reach without the host's memory, or in one that is undefined for the
module (R90, R404). -/
theorem execTokenDeliver_cases (site : Site) (port slot : Fin 4) (ctrl sound : Bool) (s : State) :
    (∃ u, execTokenDeliver site port slot ctrl sound s = ground u s ∧ u.host = s.host) ∨
      execTokenDeliver site port slot ctrl sound s = .next (undefModule s) := by
  unfold execTokenDeliver
  dsimp only
  split
  · exact .inl ⟨s, rfl, rfl⟩
  split
  · exact .inl ⟨_, rfl, undef_host _ _ _⟩
  split
  · exact .inr rfl
  refine .inl ⟨_, rfl, ?_⟩
  split
  · exact undef_host _ _ _
  split
  · rfl
  split
  · exact undef_host _ _ _
  · exact deliver_host _ _ _ _ _

theorem execTokenDeliver_keepsTrust (site : Site) (port slot : Fin 4) (ctrl sound : Bool) (s : State) :
    KeepsTrust (execTokenDeliver site port slot ctrl sound s) s := by
  obtain ⟨u, hu, -⟩ | hu := execTokenDeliver_cases site port slot ctrl sound s
  · rw [hu]; exact keepsTrust_ground u s
  · rw [hu]; exact keepsTrust_next ⟨rfl, rfl⟩

/-! ### Every command -/

/-- A command of the ground changes no more than the part of the state that is the ground's. -/
theorem exec_ground {c : Instr} (h : groundCommand c = true) (s : State) : ∃ u, exec c s = ground u s := by
  cases c
  all_goals try exact absurd h Bool.false_ne_true
  all_goals exact ⟨_, rfl⟩

/-- Any command but those of pins, TAP, resets and the host window leaves fuses, BBRAM and pins: it is one of the ground, a
host command, TOKEN_DELIVER, PLDM's request, or one that the controller carries out. -/
theorem exec_keepsTrust {c : Instr} (h : outerCommand c = false) (s : State) : KeepsTrust (exec c s) s := by
  cases hg : groundCommand c with
  | true =>
    obtain ⟨u, hu⟩ := exec_ground hg s
    rw [hu]; exact keepsTrust_ground u s
  | false =>
    cases c
    case deviceInfo | openSession | closeSession | ctxCreate | ctxDestroy | memMap | xlateResolve | prickLoad |
        prickUnload | repeatWrite | stitchSet | run | halt | evictContext | scanOut | scanIn | chanCreate | knotInit |
        sweepBegin | sweepCommit | sweepRollback | deltaConfigSet | deltaConfigAck | digestCompare | syncDump |
        txnBegin | txnCommit | txnRollback | cfgGet | cfgSet | cfgPersist | journalRead | fwUpdate | attest |
        telemetry | debugMode | resetWarm | resetContext | resetHoop | batch =>
      exact hostCommand_keepsTrust _ _ _
    case tokenDeliver => exact execTokenDeliver_keepsTrust _ _ _ _ _ _
    case pldmRequestUpdate => exact execPldmRequestUpdate_keepsTrust _ _ _
    all_goals try exact absurd h Bool.noConfusion
    all_goals try exact absurd hg Bool.noConfusion
    all_goals exact keepsTrust_ctl _ _

/-- A command of pins, TAP, resets or the host window answers a next state. -/
theorem exec_outer_next {c : Instr} (h : outerCommand c = true) (s : State) : ∃ t, exec c s = .next t := by
  cases c
  case pspWrite address words =>
    change ∃ t, execPspWrite address words s = .next t
    unfold execPspWrite
    split <;> exact ⟨_, rfl⟩
  all_goals try exact absurd h Bool.false_ne_true
  all_goals exact ⟨_, rfl⟩

/-- Settles O53: by its group, a command leaves fuses and pins in a next state, or is one of the outer commands. -/
theorem everyCommandAnswersANextState : Obligations.EveryCommandAnswersANextState := by
  unfold Obligations.EveryCommandAnswersANextState
  intro c s
  cases h : outerCommand c with
  | true => exact exec_outer_next h s
  | false =>
    obtain ⟨t, ht, -⟩ := exec_keepsTrust h s
    exact ⟨t, ht⟩

/-- Settles O59: from the part of the state that a command of the ground returns, the two ends of TOKEN_DELIVER, and the
groups of the other commands. -/
theorem commandsKeepWhatIsNotTheirs : Obligations.CommandsKeepWhatIsNotTheirs := by
  unfold Obligations.CommandsKeepWhatIsNotTheirs
  refine ⟨fun c s t hc ht => ?_, fun site port slot ctrl sound s t ht => ?_, fun c s t hc ht => ?_⟩
  · obtain ⟨u, hu⟩ := exec_ground hc s
    cases hu.symm.trans ht
    exact ⟨rfl, rfl, rfl, rfl, rfl, rfl⟩
  · obtain ⟨u, hu, hhost⟩ | hu := execTokenDeliver_cases site port slot ctrl sound s
    · cases hu.symm.trans ht
      exact ⟨rfl, rfl, rfl, hhost, rfl⟩
    · cases hu.symm.trans ht
      exact ⟨rfl, rfl, rfl, rfl, rfl⟩
  · obtain ⟨u, hu, hkept⟩ := exec_keepsTrust hc s
    cases hu.symm.trans ht
    exact hkept

/-- Settles O54: each clause is read off the reset state. -/
theorem resetIsTheSpecs : Obligations.ResetIsTheSpecs := by
  unfold Obligations.ResetIsTheSpecs
  have hperiod : fld State.reset.stitch.cfg.toNat 0 25 = 900000 := by decide
  have hcode : State.reset.pins.dr.toNat % 2 ^ 32 = 0x1564B0F3 := by decide +kernel
  have hkey : State.reset.trust.revoked ≠ 0xF := by decide
  exact ⟨rfl, rfl, fun _ _ _ => rfl, fun _ _ => ⟨rfl, rfl⟩, fun _ => ⟨rfl, rfl⟩, rfl, rfl, rfl, rfl, hperiod, rfl, hcode,
    rfl, rfl, rfl, rfl, rfl, rfl, hkey⟩

end Sys2Proof.Machine
end

section
/-! A load commits while a token of its region is on its way to a switch box that another context has set wrong. The links
land before the planes are swapped (R398); there the token meets a case that is undefined within the other context, whose
memory is free from then on (R8, R89). -/

namespace Sys2Proof.Machine

/-! ### What an undefined case within a context leaves -/

theorem Tab.mem_erase {β : Type} {m : Tab β} {k : Nat} {x : Nat × β} (h : x ∈ Tab.erase m k) : x ∈ m := by
  induction m with
  | nil => exact h
  | cons y m ih =>
    obtain ⟨j, w⟩ := y
    simp only [Tab.erase] at h
    split at h
    · exact List.mem_cons_of_mem _ (ih h)
    · rcases List.mem_cons.mp h with rfl | h
      · exact List.mem_cons_self
      · exact List.mem_cons_of_mem _ (ih h)

theorem Tab.mem_insert {β : Type} {m : Tab β} {k : Nat} {v : β} {x : Nat × β} (h : x ∈ Tab.insert m k v) :
    x = (k, v) ∨ x ∈ m := by
  induction m with
  | nil => exact .inl (List.mem_singleton.mp h)
  | cons y m ih =>
    obtain ⟨j, w⟩ := y
    simp only [Tab.insert] at h
    split at h
    · exact List.mem_cons.mp h
    · rcases List.mem_cons.mp h with rfl | h
      · exact .inr List.mem_cons_self
      · exact (ih h).imp_right (List.mem_cons_of_mem _)

/-- An entry of a table after a write is not the default, or it was there before. -/
theorem Tab.mem_set {β : Type} [DecidableEq β] {d : β} {m : Tab β} {k : Nat} {v : β} {x : Nat × β}
    (h : x ∈ Tab.set d m k v) : x.2 ≠ d ∨ x ∈ m := by
  unfold Tab.set at h
  split at h
  · exact .inr (Tab.mem_erase h)
  · next hv =>
    rcases Tab.mem_insert h with rfl | h
    · exact .inl hv
    · exact .inr (Tab.mem_erase h)

/-- Writes of a table list nothing at the default under a key that `p` picks, where it lists nothing such before. -/
theorem Tab.foldl_set_ne_default {β : Type} [DecidableEq β] {d : β} {p : Nat → Bool} {m : Tab β}
    (hm : ∀ x ∈ m, p x.1 = true → x.2 ≠ d) (ys : Tab β) :
    ∀ x ∈ ys.foldl (fun m y => Tab.set d m y.1 y.2) m, p x.1 = true → x.2 ≠ d := by
  induction ys generalizing m with
  | nil => exact hm
  | cons y ys ih =>
    refine ih fun x hx hpx => ?_
    rcases Tab.mem_set hx with hx | hx
    · exact hx
    · exact hm x hx hpx

/-- A byte that `overlay` takes from the other memory is listed only where it is not 0. -/
theorem overlay_ne_zero {p : Nat → Bool} {m w : List Host.Cell} {x : Host.Cell} (h : x ∈ overlay p m w)
    (hp : p x.1 = true) : x.2 ≠ 0 := by
  refine Tab.foldl_set_ne_default (fun z hz hpz => ?_) _ x h hp
  rw [List.mem_filter, hpz] at hz
  exact absurd hz.2 Bool.false_ne_true

theorem Tab.get_foldl_set_other {β : Type} [DecidableEq β] (d : β) (f : Nat → β) {ks : List Nat} {k : Nat} (h : k ∉ ks)
    (m : Tab β) : Tab.get d (ks.foldl (fun m j => Tab.set d m j (f j)) m) k = Tab.get d m k := by
  induction ks generalizing m with
  | nil => rfl
  | cons j ks ih =>
    rw [List.mem_cons, not_or] at h
    rw [List.foldl_cons, ih h.2, Tab.get_set_other _ _ _ h.1]

/-- A tile of another owner stays as it is. -/
theorem tileAt_undefWithin_other {s : State} {c k : Nat} (h : ownerOf s k ≠ c) :
    tileAt (undefWithin c s) k = tileAt s k := by
  have hk : k ∉ (List.range 4096).filter fun k => ownerOf s k = c := fun hk =>
    h (of_decide_eq_true (List.mem_filter.mp hk).2)
  rw [tileAt, undefWithin, Tab.get_foldl_set_other _ _ hk, tileAt]

/-! ### What a commit keeps of memory -/

theorem foldl_modTile_mem (f : Nat → Tile → Tile) (ks : List Nat) (s : State) :
    (ks.foldl (fun s k => modTile k (f k) s) s).mem = s.mem :=
  foldl_keeps State.mem (fun s k => modTile k (f k) s) (fun _ _ => rfl) ks s

theorem swapPlanes_mem (h : Nat) (l : Load) (s : State) : (swapPlanes h l s).mem = s.mem :=
  foldl_modTile_mem _ _ _

theorem emptyQueues_mem (h c0 c1 : Nat) (s : State) : (emptyQueues h c0 c1 s).mem = s.mem :=
  foldl_modTile_mem _ _ _

theorem swapLoads_mem (h : Nat) (ls : List Load) (s : State) : (swapLoads h ls s).mem = s.mem :=
  foldl_keeps State.mem _ (fun b l => by rw [swapPlanes_mem, emptyQueues_mem]; rfl) ls s

/-- Where no credit of a Hoop is on its way, its links give none back. -/
theorem landCredits_none {s : State} {h : Nat} (c0 c1 : Nat) (hc : (hoopAt s h).credits = []) :
    landCredits h c0 c1 s = modHoop h (fun x => { x with credits := x.credits.filter fun c =>
      !(inRegion h c0 c1 c.src && decide (c.left = 0)) }) s := by
  simp [landCredits, hc]

/-! ### The state -/

namespace StrayToken

/-- A load of column 1 of Hoop 0 for context 5, staged, that commits at once. -/
def load : Load := ⟨.loader 0 true, 5, 0x101, 1, 1, false, false, true⟩

/-- The token that tile (0, 1, 0) has sent east. -/
def token : Token := ⟨false, 0, true, 16, 0, 0, [], none⟩

/-- Column 1 records a motif of context 5, and columns 2 to 7 one of context 3. -/
def hoop : Hoop :=
  { Hoop.reset with
    loads := [load], flight := [token]
    motifs := (1, 5, 0x101) :: (List.range 6).map fun i => (2 + i, 3, 0x102) }

/-- Output 0 of tile (0, 1, 0) goes east in slot 0. -/
def sender : Tile := { Tile.reset with cfg := [(8, 5)] }

/-- Tile (0, 2, 0), of context 3, holds a reserved SRC in slot 1 (R89). -/
def badBox : Tile := { Tile.reset with cfg := [(2, 6)] }

/-- A byte of the operand cache of V tile (0, 7, 0), which context 3 owns. -/
def byteOf3 : Nat := 0xC580000000

/-- Memory lists that byte as 0. Free memory lists no zero byte, so this one shows that memory has changed, whatever the
free state of `Config` holds. -/
def state : State :=
  { State.reset with mem := [(byteOf3, 0)], tiles := [(16, sender), (32, badBox)], hoops := [(0, hoop)] }

/-- The state in which the commit lets the links land. -/
def landing : State := takeLoad 0 0 state

theorem leavesOf_token : leavesOf landing token = [.badSwitch 32] := by decide +kernel

theorem landToken_token : landToken 0 1 1 token landing = undefWithin 3 landing := by
  unfold landToken
  rw [leavesOf_token]
  rfl

theorem landTokens_landing : landTokens 0 1 1 landing = undefWithin 3 landing := by
  rw [← landToken_token]
  rfl

/-- The state in which the links have landed. -/
def landed : State := landCredits 0 1 1 (landTokens 0 1 1 landing)

theorem landed_eq : landed = modHoop 0 (fun x => { x with credits := x.credits.filter fun c =>
      !(inRegion 0 1 1 c.src && decide (c.left = 0)) }) (undefWithin 3 landing) := by
  rw [landed, landTokens_landing]
  exact landCredits_none 1 1 rfl

theorem quiet_landed : quiet landed 0 load = true := by
  have hruns : (hoopAt landed 0).runs = [] := by rw [landed_eq, hoopAt_modHoop_same]; rfl
  have htile : ∀ k ∈ regionTiles 0 1 1, tileAt landed k = tileAt landing k := by
    intro k hk
    rw [landed_eq, tileAt_modHoop]
    refine tileAt_undefWithin_other ?_
    revert k
    decide +kernel
  have hidle : ∀ k ∈ regionTiles 0 1 1, (tileAt landing k).queues = [] ∧ (tileAt landing k).b.streams = [] := by
    decide +kernel
  rw [quiet, hruns]
  simp only [List.any_nil, Bool.not_false, Bool.true_and]
  refine List.all_eq_true.mpr fun k hk => ?_
  rw [htile k hk, (hidle k hk).1, (hidle k hk).2]
  rfl

theorem commitLoad_landing : commitLoad 0 load landing = (.ok, swapLoads 0 [load] landed) := by
  unfold commitLoad
  change (if !quiet landed 0 load then _ else _) = _
  rw [quiet_landed]
  rfl

/-- The commit does not leave memory as it was: the zero byte that was listed is gone. -/
theorem swapLoads_landed_mem : (swapLoads 0 [load] landed).mem ≠ state.mem := by
  intro hmem
  have hland : landed.mem = (undefWithin 3 landing).mem := by rw [landed_eq]; rfl
  have hin : (byteOf3, 0) ∈ (undefWithin 3 landing).mem := by
    rw [← hland, ← swapLoads_mem 0 [load], hmem]
    exact List.mem_singleton_self _
  have howned : ownsByte landing 3 byteOf3 = true := by decide +kernel
  exact overlay_ne_zero hin howned rfl

end StrayToken

/-- Refutes O48: no premise of the commit's clause keeps a landing token from a case that is undefined within another
context, so memory need not stay as it was. -/
theorem not_loadsAreStagedAndCommitted : ¬ Obligations.LoadsAreStagedAndCommitted := by
  unfold Obligations.LoadsAreStagedAndCommitted
  intro ⟨_, _, hcommit⟩
  obtain ⟨_, _, hmem, _⟩ := hcommit 0 0 StrayToken.load StrayToken.state _ rfl rfl (by decide) (by decide)
    StrayToken.commitLoad_landing
  exact StrayToken.swapLoads_landed_mem hmem

end Sys2Proof.Machine
end

section
/-! Commands that the checks before their own refuse. -/

namespace Sys2Proof.Machine

/-- A command that ends with a status whatever the state: what a refused command comes to. -/
def refusal (c : HostCmd) (st : Status) : HostCmd := { opcode := c.opcode, gen := c.gen, run := fun _ s => failWith st s }

/-- A command that the checks refuse ends as one that always fails with their status. -/
theorem hostCommand_refused {h : Hdr} {c : HostCmd} {s : State} {st : Status} (hr : Untagged c.gen h s)
    (hpre : preCheck c (ringOf h s).slot.toNat (ringOf h s).opened h.rsv h.txn h.txnId (some (sessionNo h)) (cmdEnv h s) s =
      some st) :
    hostCommand h c s = hostCommand h (refusal c st) s := by
  have href : preCheck (refusal c st) (ringOf h s).slot.toNat (ringOf h s).opened h.rsv h.txn h.txnId
      (some (sessionNo h)) (cmdEnv h s) s = none := preCheck_untagged hr rfl rfl
  rw [hostCommand_runs hr.spelled hr.ready hr.slot hr.alone href]
  have hslot : ringHas (ringAt s h.port.val h.ring.val) = true := hr.slot
  unfold hostCommand
  simp only [refuseSlots_none hr.spelled, hr.ready, hslot, hr.alone, Bool.not_true, Bool.or_self, Bool.false_eq_true, if_false]
  change ctl (runCmd c (cmdEnv h s) (preCheck c (ringOf h s).slot.toNat (ringOf h s).opened h.rsv h.txn h.txnId
    (some (sessionNo h)) (cmdEnv h s) s) false s).1 s = _
  rw [hpre]
  rfl

/-- An untagged command with bad arguments is refused with BAD_ARG. -/
theorem preCheck_badArgs {c : HostCmd} {h : Hdr} {s : State} (hr : Untagged c.gen h s) (href : c.refused s = false)
    (hb : c.badArgs (cmdEnv h s) s = true) :
    preCheck c (ringOf h s).slot.toNat (ringOf h s).opened h.rsv h.txn h.txnId (some (sessionNo h)) (cmdEnv h s) s =
      some .badArg := by
  have hold : (s.dev.restricted && decide (1 < c.gen)) = false := by
    rcases hr.allowed with e | e
    · simp [e]
    · simp; omega
  simp [preCheck, hr.known, hold, href, hb]

/-- An untagged command with bad arguments ends with BAD_ARG and changes the journal, its slot and its ring alone. -/
theorem untagged_badArg {h : Hdr} {c : HostCmd} {s : State} (hr : Untagged c.gen h s) (href : c.refused s = false)
    (hb : c.badArgs (cmdEnv h s) s = true) :
    Ends (hostCommand h c s) h c.opcode .badArg 0 s fun t => FabricKept s t ∧ ControlKept s t := by
  have href' : preCheck (refusal c .badArg) (ringOf h s).slot.toNat (ringOf h s).opened h.rsv h.txn h.txnId
      (some (sessionNo h)) (cmdEnv h s) s = none := preCheck_untagged hr rfl rfl
  obtain ⟨t, hnext, hans, ht, -⟩ := hostCommand_done (c := refusal c .badArg) (u := taken h c.opcode s) hr.spelled hr.ready hr.slot hr.alone
    href' rfl rfl rfl rfl
  refine ⟨t, (hostCommand_refused hr (preCheck_badArgs hr href hb)).trans hnext, hans, ?_, ?_⟩ <;> rw [ht]
  · exact ⟨rfl, rfl, rfl, rfl, rfl, rfl, rfl, rfl, rfl, rfl⟩
  · exact ⟨rfl, rfl, rfl, rfl, rfl, rfl, rfl, rfl⟩

/-- Pages that R45 allows lie in the software contexts' HBM, first byte to last. -/
theorem isSoftHbm_of_not_badPages {pa count size i : Nat} (h : badPages pa count size = false) (hi : i < count) (hs : 0 < size) :
    isSoftHbm (pa + i * size) = true ∧ isSoftHbm (pa + i * size + size - 1) = true := by
  simp only [badPages, Bool.or_eq_false_iff, decide_eq_false_iff_not, not_le, not_lt] at h
  obtain ⟨hlow, hroom⟩ := h
  have hlast : i * size + size ≤ count * size := by
    calc i * size + size = (i + 1) * size := by ring
      _ ≤ count * size := Nat.mul_le_mul_right _ hi
  simp only [isSoftHbm, isHbm, Bool.and_eq_true, decide_eq_true_eq]
  omega

theorem mfSize_pos (f : BitVec 8) : 0 < mfSize f := by unfold mfSize; split <;> norm_num

/-- Settles O60: a page outside the software contexts' HBM makes the arguments of MEM_MAP bad. -/
theorem pagesOutsideSoftwareHbmAreBadArguments : Obligations.PagesOutsideSoftwareHbmAreBadArguments := by
  unfold Obligations.PagesOutsideSoftwareHbmAreBadArguments
  intro h ctx mflags count va pa i s hr hmap hi lo hout
  have hbad : badPages pa.toNat count.toNat (mfSize mflags) = true := by
    by_contra hgood
    exact hout (isSoftHbm_of_not_badPages (by simpa using hgood) hi (mfSize_pos mflags))
  have hcount : count ≠ 0#32 := by rintro rfl; simp at hi
  exact untagged_badArg (c := cmdMemMap ctx mflags count va pa) hr rfl (by simp [cmdMemMap, hmap, hbad, hcount])

end Sys2Proof.Machine
end

section
/-! Writes on their way to an HBM controller that leave more than the statements allow: a write whose bytes lie on both
sides of a boundary between stores. The premises of the statements do not keep a write's physical address, nor the leaf of
a page table, within HBM. -/

namespace Sys2Proof.Machine

/-! ### A write that is alone on its way -/

/-- Nothing follows on a way where every write has been performed. -/
theorem settleWay_allDone {u : State} (h : ∀ x ∈ u.net.writes, x.done = true) (w : HbmWrite) (n : Nat) :
    settleWay w n u = u := by
  cases n with
  | zero => rfl
  | succ n =>
    have hnone : firstOnWay u w = none := by
      rw [firstOnWay, List.find?_eq_none]
      intro x hx
      simp [h x hx]
    rw [settleWay, hnone]

/-- A write that is alone on its way leaves the state in which it has been served. -/
theorem arrives_alone {c : Instr} {w : HbmWrite} {s : State} {P : State → Prop} (hw : s.net.writes = [w])
    (h : Arrives c w s P) : ∃ u, exec c s = .next u ∧ P u := by
  obtain ⟨u, hnext, hwrites, hP⟩ := h
  refine ⟨u, ?_, hP⟩
  rw [hnext, settleWay_allDone]
  simp [hwrites, hw]

/-- A write to an aperture that its controller's command takes. -/
theorem atController_aperture {n : Nat} {is : Option Aperture → Bool} {w : HbmWrite} {ap : Aperture} {s : State}
    (hfirst : (s.net.writes[n]?).bind (firstOnWay s) = some w) (hap : apertureOf s w.ctx w.ca = some ap)
    (his : is (some ap) = true) :
    atController n is s = .next (groundPart s (let u := endWrite w (apertureEnd w ap s) s
      settleWay w u.net.writes.length (wroteAt w.wid u))) := by
  simp [atController, hfirst, hap, his]

/-! ### The end of the weight store -/

namespace StoreEdge

/-- A write of context 3 to the last byte of the weight store and the first one of the A tiles. -/
def write : HbmWrite := ⟨5, 3, 0, none, 0x5010, 0xC3FFFFFFFF, [1, 2], false, false⟩

/-- The second 8-B word of the A tiles is uncorrectable: neither codeword of the write merges with it. -/
def state : State :=
  { State.reset with bad := [0xC400000008 / 8], net := { Net.reset with writes := [write] } }

/-- The state in which the write has been served. -/
def served : State :=
  groundPart state (let u := endWrite write (plainEnd write state) state
    settleWay write u.net.writes.length (wroteAt write.wid u))

theorem exec_write : exec (.hbmPartialWrite 0) state = .next served := rfl

theorem codewords_merge : ∀ p ∈ codewords write.pa write.data, mergeUe state p.1 p.2.length = none := by decide +kernel

/-- The write as a whole is taken to merge with the word, and so faults its context. -/
theorem served_ctxs : served.ctxs ≠ state.ctxs := by decide +kernel

end StoreEdge

/-- Refutes O43: a write that crosses from the weight store, with its codewords of 32 B, to the A tiles, with their words of
8 B, faults its context though every codeword of it merges. -/
theorem not_writesMergeAndScrubsRepair : ¬ Obligations.WritesMergeAndScrubsRepair := by
  unfold Obligations.WritesMergeAndScrubsRepair
  intro ⟨⟨hwrite, _⟩, _⟩
  obtain ⟨hplain, _⟩ := hwrite 0 StoreEdge.write StoreEdge.state rfl rfl
  obtain ⟨u, hnext, _, hctxs⟩ := arrives_alone rfl ((hplain rfl).1 StoreEdge.codewords_merge)
  cases StoreEdge.exec_write.symm.trans hnext
  exact StoreEdge.served_ctxs hctxs

/-! ### A group of partial-sum rows -/

namespace GroupEdge

/-- The gradient aperture of context 3 begins at 64 KiB and has one block, whose record begins 4 B before 16 KiB; the block
table lies at 32 KiB. -/
def ctx : Ctx :=
  { Ctx.reset with st := .active, relocHbm := 4 <<< 27, dn := [(1, 1), (2, 0x8000), (4, 0x3FFC), (7, 0x10000)] }

/-- The first page of context 3, of 1 GiB, is mapped to the partial-sum stores; the block table holds a block in use. -/
def mem : List Host.Cell :=
  putBytes (putBytes (putBytes [] (ptRoot 0 3) (toLE 8 (ptRoot 0 3 + 4096 + 1))) (ptRoot 0 3 + 4096)
    (toLE 8 (0xC500000000 + 7))) 0xC500008000 [1]

/-- Two elements of 1.0 for the first element of the block and the next. -/
def write : HbmWrite := ⟨5, 3, 0, none, 0x10000, 0x10000, [0, 0, 0x80, 0x3F, 0, 0, 0x80, 0x3F], false, false⟩

/-- The word of ZERO bits of the second group of 64 rows is uncorrectable. -/
def state : State :=
  { State.reset with
    mem := mem, ctxs := [(3, ctx)], zeroBad := [0xC500004000 / 16384], net := { Net.reset with writes := [write] } }

def aperture : Aperture := ⟨false, 0, 0x3FFC⟩

/-- The state in which the write has been served. -/
def served : State :=
  groundPart state (let u := endWrite write (apertureEnd write aperture state) state
    settleWay write u.net.writes.length (wroteAt write.wid u))

theorem apertureOf_write : apertureOf state write.ctx write.ca = some aperture := by decide +kernel

theorem firstOnWay_state : (state.net.writes[0]?).bind (firstOnWay state) = some write := by decide +kernel

theorem exec_write : exec (.accumulateWrite 0) state = .next served := by
  have := atController_aperture (is := fun ap => (ap.map fun x => !x.direction).getD false) firstOnWay_state apertureOf_write rfl
  exact this

theorem blockDesc_state : blockDesc state write.ctx write.quarter aperture.block = some 1 := by decide +kernel

theorem hbmAddr_record : hbmAddr state write.ctx write.quarter aperture.at_ 8 true = .at_ 0xC500003FFC := by decide +kernel

theorem ueAt_record : ueAt state 0xC500003FFC 8 = none := by decide +kernel

/-- The second element is not added: its codeword lies in the second group. -/
theorem served_mem : served.mem ≠
    putBytes state.mem 0xC500003FFC (addElems (peek state 0xC500003FFC 8) write.data) := by decide +kernel

end GroupEdge

/-- Refutes O41: an accumulate write that a page table takes to the partial-sum stores, and whose second codeword alone has
an uncorrectable word of ZERO bits, leaves that codeword as it was. -/
theorem not_aperturesAccumulateAndReplace : ¬ Obligations.AperturesAccumulateAndReplace := by
  unfold Obligations.AperturesAccumulateAndReplace
  intro h
  obtain ⟨_, hwhole⟩ := h 0 GroupEdge.write GroupEdge.aperture GroupEdge.state rfl GroupEdge.apertureOf_write (by decide) (by decide)
  obtain ⟨_, hused⟩ := hwhole fun _ => ⟨rfl, by decide, by decide⟩
  obtain ⟨_, hunswept⟩ := hused 1 GroupEdge.blockDesc_state (by decide)
  obtain ⟨hadd, _⟩ := hunswept (by decide +kernel) 0xC500003FFC GroupEdge.hbmAddr_record
  obtain ⟨u, hnext, hmem, _⟩ := arrives_alone rfl (hadd rfl GroupEdge.ueAt_record)
  cases GroupEdge.exec_write.symm.trans hnext
  exact GroupEdge.served_mem hmem

end Sys2Proof.Machine
end

section
/-! Reads and writes through the push windows, BSPI, PSP and BAR2. -/

namespace Sys2Proof.Machine

/-! ### Codewords -/

/-- Bytes within one codeword of 32 B are cut nowhere. -/
theorem codewords_single {pa : Nat} {bs : List Byte} (h : pa % 32 + bs.length ≤ 32) (hne : bs ≠ []) :
    codewords pa bs = [(pa, bs)] := by
  have hpos : 0 < bs.length := List.length_pos_iff.mpr hne
  have hcount : (pa + bs.length + 31) / 32 - pa / 32 = 1 := by omega
  have hlo : max pa (32 * (pa / 32)) = pa := by omega
  have hhi : min (pa + bs.length) (32 * (pa / 32 + 1)) - pa = bs.length := by omega
  simp only [codewords, hcount, List.range_one, List.map_cons, List.map_nil, Nat.add_zero, hlo, hhi, Nat.sub_self,
    List.drop_zero, List.take_length]

/-- A write within one codeword that meets no uncorrectable word puts its bytes in place. -/
theorem writeCodewords_single {report : Nat → State → State} {pa : Nat} {bs : List Byte} {s : State}
    (h : pa % 32 + bs.length ≤ 32) (hne : bs ≠ []) (hm : mergeUe s pa bs.length = none) :
    writeCodewords report pa bs s = poke s pa bs := by
  simp [writeCodewords, codewords_single h hne, hm]

/-! ### The push window -/

theorem answerRead_port (p : Nat) (bs : List Byte) (a : Bool) (s : State) :
    portAt (answerRead p bs a s) p = { portAt s p with out := bs, abort := a } := portAt_modPort_same _ _ _

theorem answerRead_other {p q : Nat} (bs : List Byte) (a : Bool) (s : State) (h : q ≠ p) :
    portAt (answerRead p bs a s) q = portAt s q := portAt_modPort_other _ _ h

theorem ueFound_mem (pa : Nat) (s : State) : (ueFound pa s).mem = s.mem := raise_mem _ _ _ _

/-- An uncorrectable word that is found outside any context is told by MEM_UE_FOUND. -/
theorem ueFound_raised (pa : Nat) (s : State) : ∃ e ∈ (ueFound pa s).logs.raised, e.code = 0x31 := by
  rcases hst : storeOf pa with ⟨a, b, c⟩
  simp [ueFound, hst, logEntry, raise_logs]

theorem windowWidth_pos (wide : Bool) : 0 < (if wide then 8 else 4) := by cases wide <;> decide

/-- A read through an HL port that is not UP gives all ones (R484). -/
theorem pushWindowRead_down {port : Fin 4} {off : BitVec 12} {wide : Bool} {s : State} (hup : windowUp s port.val = false)
    (hp : port.val < 2) : exec (.pushWindowRead port off wide) s =
      ctl (answerRead port.val (List.replicate (if wide then 8 else 4) 0xFF) false s) s := by
  change execPushWindowRead port off wide s = _
  simp [execPushWindowRead, hup, hp]

/-- The aligned word of a push window lies in one codeword. -/
theorem pushAt_in_codeword {p off : Nat} {wide : Bool} (s : State) (hoff : off % (if wide then 8 else 4) = 0) :
    pushAt s p off % 32 + (if wide then 8 else 4) ≤ 32 := by
  unfold pushAt pushBase
  cases wide <;> simp only [Bool.false_eq_true, if_true, if_false] at hoff ⊢ <;> omega

/-- A store to the push window of a port goes to the store behind it. -/
theorem windowStore_push {p n v off : Nat} {s : State} (hoff : off < 0x1000) :
    windowStore p (0x1000 + off) n v s = pushStore p off (toLE n v) s := by
  have hne : ∀ b, b < 0x1000 → 0x1000 + off ≠ b := by omega
  have hnlt : ∀ b, b ≤ 0x1000 → ¬ 0x1000 + off < b := by omega
  have hlt : 0x1000 + off < 0x2000 := by omega
  simp [windowStore, hne, hnlt, hlt]

section PushWindow
variable {port : Fin 4} {off : BitVec 12} {wide : Bool} {s : State} (hup : windowUp s port.val = true)
  (hrom : s.dev.romRecovery = false) (hon : fabricOn s = true) (hoff : off.toNat % (if wide then 8 else 4) = 0)

include hup hrom hon hoff

theorem pushWindowRead_ok (hue : ueAt s (pushAt s port.val off.toNat) (if wide then 8 else 4) = none) :
    exec (.pushWindowRead port off wide) s =
      ctl (answerRead port.val (peek s (pushAt s port.val off.toNat) (if wide then 8 else 4)) false s) s := by
  change execPushWindowRead port off wide s = _
  simp [execPushWindowRead, pushRead, hup, hrom, hon, hoff, hue]

theorem pushWindowRead_ue {w : Nat} (hue : ueAt s (pushAt s port.val off.toNat) (if wide then 8 else 4) = some w) :
    ∃ bs a, exec (.pushWindowRead port off wide) s = ctl (answerRead port.val bs a (ueFound w s)) s ∧
      (port.val < 2 → a = true) ∧ (2 ≤ port.val → bs = List.replicate (if wide then 8 else 4) 0xFF ∧ a = false) := by
  change ∃ bs a, execPushWindowRead port off wide s = _ ∧ _
  by_cases hp : port.val < 2
  · exact ⟨[], true, by simp [execPushWindowRead, pushRead, hup, hrom, hon, hoff, hue, hp], by simp, by omega⟩
  · exact ⟨_, false, by simp [execPushWindowRead, pushRead, hup, hrom, hon, hoff, hue, hp], by omega, fun _ => ⟨rfl, rfl⟩⟩

theorem pushWindowWrite_ok (v : BitVec 64)
    (hm : mergeUe s (pushAt s port.val off.toNat) (if wide then 8 else 4) = none) :
    exec (.pushWindowWrite port off wide v) s =
      keepQueue (poke s (pushAt s port.val off.toNat)
        (toLE (if wide then 8 else 4) (v.toNat % 2 ^ (8 * if wide then 8 else 4)))) s := by
  change execPushWindowWrite port off wide v s = _
  have hfar : off.toNat < 0x1000 := off.isLt
  have halign : (0x1000 + off.toNat) % (if wide then 8 else 4) = 0 := by
    cases wide <;> simp only [Bool.false_eq_true, if_true, if_false] at hoff ⊢ <;> omega
  have hlen : (toLE (if wide then 8 else 4) (v.toNat % 2 ^ (8 * if wide then 8 else 4))).length = if wide then 8 else 4 :=
    toLE_length _ _
  have hstore : windowWrite port.val (0x1000 + off.toNat) (if wide then 8 else 4) (v.toNat % 2 ^ (8 * if wide then 8 else 4)) s =
      pushStore port.val off.toNat (toLE (if wide then 8 else 4) (v.toNat % 2 ^ (8 * if wide then 8 else 4))) s := by
    rw [windowWrite, if_neg (by simp [hup, halign]), if_neg (by omega), if_neg (by omega), windowStore_push hfar]
  have hpush : pushStore port.val off.toNat (toLE (if wide then 8 else 4) (v.toNat % 2 ^ (8 * if wide then 8 else 4))) s =
      poke s (pushAt s port.val off.toNat) (toLE (if wide then 8 else 4) (v.toNat % 2 ^ (8 * if wide then 8 else 4))) := by
    rw [pushStore, if_neg (by simp [hrom]), if_neg (by simp [hon])]
    refine writeCodewords_single ?_ ?_ (by rw [hlen]; exact hm)
    · rw [hlen]; exact pushAt_in_codeword s hoff
    · exact List.length_pos_iff.mp (by rw [hlen]; exact windowWidth_pos wide)
  rw [execPushWindowWrite, hstore, hpush]

end PushWindow

/-! ### BSPI and PSP -/

/-- A transaction that reads one unit of the window below the push window answers its register. -/
theorem transactionRead_unit {p a : Nat} (s : State) (ha : a % 8 = 0) (hlow : a < 0x1000) :
    transactionRead p a 8 s = answerRead p (toLE 8 (windowReg s p a)) false s := by
  have hcount : (a + 8 + 7) / 8 - a / 8 = 1 := by omega
  have hunit : 8 * (a / 8) = a := by omega
  have hpush : ¬ (0x1000 ≤ a) := by omega
  have hin : a < 0x2000 := by omega
  have htake : (toLE 8 (windowReg s p a)).take 8 = toLE 8 (windowReg s p a) := by
    rw [List.take_of_length_le]; simp
  simp [transactionRead, hcount, hunit, windowUnit, hpush, hin, ha, htake]

/-! ### BAR2 -/

theorem bar2Log_port (a n : Nat) (w : Bool) (s : State) (j : Nat) : portAt (bar2Log a n w s) j = portAt s j := by
  unfold bar2Log; split <;> rfl

theorem bar2Log_keeps (a n : Nat) (w : Bool) (s : State) :
    (bar2Log a n w s).mem = s.mem ∧ (bar2Log a n w s).host = s.host := by
  unfold bar2Log; split <;> exact ⟨rfl, rfl⟩

/-- An access whose first byte is not populated is recorded at that byte (R46). -/
theorem bar2Log_unpopulated {a n : Nat} (w : Bool) (s : State) (hn : 0 < n) (ha : populated a = false) :
    bar2Log a n w s = unpopulatedAt a w s := by
  obtain ⟨m, rfl⟩ : ∃ m, n = m + 1 := ⟨n - 1, by omega⟩
  simp [bar2Log, List.range_succ_eq_map, ha]

/-- An access to populated bytes is not recorded. -/
theorem bar2Log_populated {a n : Nat} (w : Bool) (s : State) (h : ∀ i, i < n → populated (a + i) = true) :
    bar2Log a n w s = s := by
  have hnone : ((List.range n).map fun i => a + i).find? (fun x => !populated x) = none := by
    simpa [List.find?_eq_none] using h
  rw [bar2Log, hnone]

/-- Whether an address is populated does not change within a codeword. -/
theorem populated_codeword {a i : Nat} (h : a % 32 + i < 32) : populated (a + i) = populated a := by
  rw [Bool.eq_iff_iff]
  simp only [populated, isHbm, isWs, isPs, Bool.or_eq_true, Bool.and_eq_true, decide_eq_true_eq]
  omega

/-- What the host may write through BAR2 is populated. -/
theorem populated_of_bar2Access {a : Nat} (h : (bar2Access a).2 = true) : populated a = true := by
  have hhbm : isHbm a = true := by
    by_contra hno
    have hno' : isHbm a = false := by simpa using hno
    simp [bar2Access, hno'] at h
  simp [populated, hhbm]

/-- A read through BAR2 that meets no uncorrectable word. -/
theorem bar2Read_ok {port : Fin 2} {addr : BitVec 40} {count : Nat} {s : State} (hup : windowUp s port.val = true)
    (hue : ∀ i, i < count → (bar2Access (addr.toNat + i)).1 = true → ueAt s (addr.toNat + i) 1 = none) :
    exec (.bar2Read port addr count) s = ctl (bar2Log addr.toNat count false (answerRead port.val ((List.range count).map fun i =>
      if (bar2Access (addr.toNat + i)).1 then Tab.get 0 s.mem (addr.toNat + i) else 0) false s)) s := by
  change execBar2Read port addr count s = _
  have hnone : ((List.range count).map fun i => addr.toNat + i).findSome?
      (fun x => if (bar2Access x).1 then ueAt s x 1 else none) = none := by
    simpa [List.findSome?_eq_none_iff] using hue
  simp only [execBar2Read, hup, hnone, Bool.not_true, Bool.false_eq_true, if_false, List.map_map]
  rfl

/-- A write through BAR2 within one codeword: made where the host may write there, and recorded where nothing is there. -/
theorem bar2Write_codeword {port : Fin 2} {addr : BitVec 40} {data : List Byte} {s : State}
    (hup : windowUp s port.val = true) (hne : data ≠ []) (hcw : addr.toNat % 32 + data.length ≤ 32) :
    exec (.bar2Write port addr data) s = ctl (bar2Log addr.toNat data.length true
      (if (bar2Access addr.toNat).2 then writeCodewords ueFound addr.toNat data s else s)) s := by
  change execBar2Write port addr data s = _
  simp only [execBar2Write, hup, codewords_single hcw hne, Bool.not_true, Bool.false_eq_true, if_false]
  cases hacc : (bar2Access addr.toNat).2 <;> simp [hacc]

/-! ### The statement -/

/-- Settles O10, from one equation for each command in each of its cases. -/
theorem windowReadsAndStoresAct : Obligations.WindowReadsAndStoresAct := by
  unfold Obligations.WindowReadsAndStoresAct
  refine ⟨fun port off wide s => ⟨fun hup hp => ?_, fun hup hrom hon hoff => ⟨fun hue => ?_, fun w hue => ?_, fun v hm => ?_⟩⟩,
    fun addr s hup ha hlow => ?_, fun address s hup ha hlow => ?_, fun port addr count s hup hue => ?_,
    fun port addr count s hup => ?_,
    fun port addr data s hup hne hcw => ⟨fun hacc hm => ?_, fun hacc => ⟨fun hpop => ?_, fun hpop => ?_⟩⟩⟩
  · refine ⟨_, pushWindowRead_down hup hp, ?_, ?_, rfl⟩ <;> rw [portAt_ctlPart, answerRead_port]
  · refine ⟨_, pushWindowRead_ok hup hrom hon hoff hue, ?_, ?_, rfl, rfl⟩ <;> rw [portAt_ctlPart, answerRead_port]
  · obtain ⟨bs, a, hnext, hport, hpin⟩ := pushWindowRead_ue hup hrom hon hoff hue
    refine ⟨ctlPart s (answerRead port.val bs a (ueFound w s)), hnext.trans (ctl_next _ _), fun hp => ?_, fun hp => ?_, ?_, ?_⟩
    · rw [portAt_ctlPart, answerRead_port]
      exact hport hp
    · rw [portAt_ctlPart, answerRead_port]
      exact hpin hp
    · rw [ctlPart_logs]
      exact ueFound_raised w s
    · rw [ctlPart_mem]
      exact ueFound_mem w s
  · exact ⟨_, pushWindowWrite_ok hup hrom hon hoff v hm, rfl, rfl, rfl, rfl⟩
  · refine ⟨ctlPart s (answerRead 2 (toLE 8 (windowReg s 2 addr.toNat)) false s), ?_, ?_, rfl, fun q hq => ?_⟩
    · change execBspiRead addr 8 s = _
      rw [execBspiRead, hup, if_pos rfl, transactionRead_unit s ha hlow, ctl_next]
    · rw [portAt_ctlPart, answerRead_port]
    · rw [portAt_ctlPart, answerRead_other _ _ _ hq]
  · refine ⟨ctlPart s (answerRead 3 (toLE 8 (windowReg s 3 (2 * address.toNat))) false s), ?_, ?_, rfl, fun q hq => ?_⟩
    · change execPspRead address 4 s = _
      have hin : address.toNat < 4096 := by omega
      rw [execPspRead, hup, decide_eq_true hin, Bool.and_true, if_pos rfl, transactionRead_unit s (by omega) (by omega), ctl_next]
    · rw [portAt_ctlPart, answerRead_port]
    · rw [portAt_ctlPart, answerRead_other _ _ _ hq]
  · refine ⟨_, bar2Read_ok hup hue, ?_, ?_, ?_, ?_, fun hcount hpop => ?_⟩
    · rw [portAt_ctlPart, bar2Log_port, answerRead_port]
    · rw [portAt_ctlPart, bar2Log_port, answerRead_port]
    · exact (bar2Log_keeps _ _ _ _).1
    · exact (bar2Log_keeps _ _ _ _).2
    · rw [bar2Log_unpopulated _ _ hcount hpop]
      exact ⟨_, rfl, rfl, rfl, rfl⟩
  · refine ⟨ctlPart s (answerRead port.val (List.replicate count 0xFF) false s), ?_, ?_, ?_, rfl, rfl⟩
    · change execBar2Read port addr count s = _
      simp [execBar2Read, hup]
    · rw [portAt_ctlPart, answerRead_port]
    · rw [portAt_ctlPart, answerRead_port]
  · have hpop : ∀ i, i < data.length → populated (addr.toNat + i) = true := fun i hi => by
      rw [populated_codeword (by omega), populated_of_bar2Access hacc]
    refine ⟨ctlPart s (poke s addr.toNat data), ?_, rfl, rfl, rfl, rfl⟩
    rw [bar2Write_codeword hup hne hcw, if_pos hacc, bar2Log_populated _ _ hpop, writeCodewords_single hcw hne hm, ctl_next]
  · have hall : ∀ i, i < data.length → populated (addr.toNat + i) = true := fun i hi => by
      rw [populated_codeword (by omega), hpop]
    rw [bar2Write_codeword hup hne hcw, hacc, if_neg Bool.false_ne_true, bar2Log_populated _ _ hall, ctl_next, ctlPart_self]
  · refine ⟨ctlPart s (unpopulatedAt addr.toNat true s), _, ?_, rfl, rfl, rfl, rfl, rfl⟩
    rw [bar2Write_codeword hup hne hcw, hacc, if_neg Bool.false_ne_true,
      bar2Log_unpopulated _ _ (List.length_pos_iff.mpr hne) hpop, ctl_next]

end Sys2Proof.Machine
end

section
/-! What messages that leave for other modules change: link ports, the messages that wait for one, and the free counter. -/

namespace Sys2Proof.Machine

/-! ### The part of the state that messages to other modules keep -/

/-- A state without its link ports, the messages that wait for one, and the free counter. -/
def linksOff (s : State) : State := { s with links := [], free := 0, net := { s.net with waiting := [] } }

@[simp] theorem linksOff_modLink (p : Nat) (f : Link → Link) (s : State) : linksOff (modLink p f s) = linksOff s := rfl
@[simp] theorem linksOff_useFree (n : Nat) (s : State) : linksOff (useFree n s) = linksOff s := rfl
theorem linksOff_modWaiting (f : List OutMsg → List OutMsg) (s : State) :
    linksOff (modNet (fun n => { n with waiting := f n.waiting }) s) = linksOff s := rfl

theorem linksOff_sendFlits (s : State) : linksOff (sendFlits s) = linksOff s :=
  foldl_keeps linksOff _ (fun _ _ => by split <;> rfl) _ _

theorem linksOff_countWaits (s : State) : linksOff (countWaits s) = linksOff s := by
  unfold countWaits
  refine foldl_keeps linksOff _ ?_ _ _
  exact fun _ _ => rfl

theorem linksOff_pumpFor (n : Nat) (s : State) : linksOff (pumpFor n s) = linksOff s := by
  induction n generalizing s with
  | zero => rfl
  | succ n ih =>
    rw [pumpFor]
    split
    · rfl
    · rw [ih]; rfl

@[simp] theorem linksOff_pump (s : State) : linksOff (pump s) = linksOff s := by
  rw [pump, linksOff_countWaits, linksOff_sendFlits, linksOff_pumpFor]

@[simp] theorem linksOff_enqueue (m : OutMsg) (s : State) : linksOff (enqueue m s) = linksOff s := by
  unfold enqueue
  split
  · split <;> rfl
  · rw [linksOff_pump]; rfl

/-- What does not look at links, waiting messages or the free counter is as before a message left for another module. -/
theorem enqueue_keeps {α : Type} (g : State → α) (m : OutMsg) (s : State) (h : ∀ u, g (linksOff u) = g u) :
    g (enqueue m s) = g s := by rw [← h, linksOff_enqueue, h]

theorem sendOut_keeps {α : Type} (g : State → α) (c q dest : Nat) (m : PeerMsg) (s : State) (h : ∀ u, g (linksOff u) = g u) :
    g (sendOut c q dest m s) = g s := enqueue_keeps g _ s h

theorem pump_keeps {α : Type} (g : State → α) (s : State) (h : ∀ u, g (linksOff u) = g u) : g (pump s) = g s := by
  rw [← h, linksOff_pump, h]

section Fields
variable (c q dest : Nat) (m : PeerMsg) (s : State)

@[simp] theorem sendOut_mem : (sendOut c q dest m s).mem = s.mem := sendOut_keeps _ c q dest m s fun _ => rfl
@[simp] theorem sendOut_ctxs : (sendOut c q dest m s).ctxs = s.ctxs := sendOut_keeps _ c q dest m s fun _ => rfl
@[simp] theorem sendOut_chans : (sendOut c q dest m s).chans = s.chans := sendOut_keeps _ c q dest m s fun _ => rfl
@[simp] theorem sendOut_tiles : (sendOut c q dest m s).tiles = s.tiles := sendOut_keeps _ c q dest m s fun _ => rfl
@[simp] theorem sendOut_hoops : (sendOut c q dest m s).hoops = s.hoops := sendOut_keeps _ c q dest m s fun _ => rfl
@[simp] theorem sendOut_logs : (sendOut c q dest m s).logs = s.logs := sendOut_keeps _ c q dest m s fun _ => rfl
@[simp] theorem sendOut_dev : (sendOut c q dest m s).dev = s.dev := sendOut_keeps _ c q dest m s fun _ => rfl
@[simp] theorem sendOut_stitch : (sendOut c q dest m s).stitch = s.stitch := sendOut_keeps _ c q dest m s fun _ => rfl
@[simp] theorem sendOut_reqs : (sendOut c q dest m s).net.reqs = s.net.reqs := sendOut_keeps (·.net.reqs) c q dest m s fun _ => rfl
@[simp] theorem sendOut_copies : (sendOut c q dest m s).net.copies = s.net.copies :=
  sendOut_keeps (·.net.copies) c q dest m s fun _ => rfl
@[simp] theorem sendOut_nextCopy : (sendOut c q dest m s).net.nextCopy = s.net.nextCopy :=
  sendOut_keeps (·.net.nextCopy) c q dest m s fun _ => rfl
@[simp] theorem sendOut_units : (sendOut c q dest m s).net.units = s.net.units := sendOut_keeps (·.net.units) c q dest m s fun _ => rfl
@[simp] theorem sendOut_xfers : (sendOut c q dest m s).net.xfers = s.net.xfers := sendOut_keeps (·.net.xfers) c q dest m s fun _ => rfl
@[simp] theorem sendOut_ctrls : (sendOut c q dest m s).net.ctrls = s.net.ctrls := sendOut_keeps (·.net.ctrls) c q dest m s fun _ => rfl
@[simp] theorem sendOut_held : (sendOut c q dest m s).net.held = s.net.held := sendOut_keeps (·.net.held) c q dest m s fun _ => rfl
@[simp] theorem sendOut_far : (sendOut c q dest m s).net.far = s.net.far := sendOut_keeps (·.net.far) c q dest m s fun _ => rfl
@[simp] theorem ctxAt_sendOut (j : Nat) : ctxAt (sendOut c q dest m s) j = ctxAt s j :=
  sendOut_keeps (ctxAt · j) c q dest m s fun _ => rfl
@[simp] theorem chanAt_sendOut (j : Nat) : chanAt (sendOut c q dest m s) j = chanAt s j :=
  sendOut_keeps (chanAt · j) c q dest m s fun _ => rfl
@[simp] theorem tileAt_sendOut (j : Nat) : tileAt (sendOut c q dest m s) j = tileAt s j :=
  sendOut_keeps (tileAt · j) c q dest m s fun _ => rfl
@[simp] theorem hoopAt_sendOut (j : Nat) : hoopAt (sendOut c q dest m s) j = hoopAt s j :=
  sendOut_keeps (hoopAt · j) c q dest m s fun _ => rfl

end Fields

/-! ### The part of a link port that messages to other modules keep -/

/-- A link port without its flits, credits, turns and counts of messages on their way out. -/
def linkKept (x : Link) : Link :=
  { x with retry := [], fill := 0, nextSend := 0, sent := 0, used := [], owed := [], turns := [], waits := [], disc474 := 0 }

theorem linkKept_modLink {p : Nat} {f : Link → Link} (s : State) (j : Nat) (h : ∀ x, linkKept (f x) = linkKept x) :
    linkKept (linkAt (modLink p f s) j) = linkKept (linkAt s j) := by
  rw [linkAt_modLink]
  split
  · next e => rw [h, e]
  · rfl

theorem linkKept_sendFlits (s : State) (j : Nat) : linkKept (linkAt (sendFlits s) j) = linkKept (linkAt s j) :=
  foldl_keeps (fun s => linkKept (linkAt s j)) _ (fun s p => by
    split
    · rfl
    · exact linkKept_modLink s j fun _ => rfl) _ _

theorem linkKept_countWaits (s : State) (j : Nat) : linkKept (linkAt (countWaits s) j) = linkKept (linkAt s j) := by
  unfold countWaits
  refine foldl_keeps (fun s => linkKept (linkAt s j)) _ (fun s e => ?_) _ _
  refine (congrArg linkKept (linkAt_useFree 1 _ j)).trans (linkKept_modLink s j ?_)
  exact fun _ => rfl

theorem linkKept_intoFlit (p : Nat) (m : OutMsg) (s : State) (j : Nat) :
    linkKept (linkAt (intoFlit p m s) j) = linkKept (linkAt s j) := by
  refine linkKept_modLink s j ?_
  exact fun _ => rfl

theorem linkKept_pumpFor (n : Nat) (s : State) (j : Nat) : linkKept (linkAt (pumpFor n s) j) = linkKept (linkAt s j) := by
  induction n generalizing s with
  | zero => rfl
  | succ n ih =>
    rw [pumpFor]
    split
    · rfl
    · rw [ih, linkKept_intoFlit]
      exact linkKept_modLink _ j fun _ => rfl

theorem linkKept_pump (s : State) (j : Nat) : linkKept (linkAt (pump s) j) = linkKept (linkAt s j) := by
  rw [pump, linkKept_countWaits, linkKept_sendFlits, linkKept_pumpFor]

theorem linkKept_enqueue (m : OutMsg) (s : State) (j : Nat) : linkKept (linkAt (enqueue m s) j) = linkKept (linkAt s j) := by
  unfold enqueue
  split
  · split
    · exact linkKept_modLink s j fun _ => rfl
    · rfl
  · rw [linkKept_pump, linkAt_modNet]

theorem linkKept_sendOut (c q dest : Nat) (m : PeerMsg) (s : State) (j : Nat) :
    linkKept (linkAt (sendOut c q dest m s) j) = linkKept (linkAt s j) := linkKept_enqueue _ s j

/-! ### Notifications leave -/

/-- A state without what notifications that leave change. -/
def tailsOff (s : State) : State :=
  let u := linksOff s
  { u with net := { u.net with ctrls := [], held := [] } }

theorem tailsOff_linksOff {s t : State} (h : linksOff t = linksOff s) : tailsOff t = tailsOff s := by rw [tailsOff, h]; rfl

theorem tailsOff_sendTail (f : Notice) (s : State) : tailsOff (sendTail f s) = tailsOff s := by
  unfold sendTail
  dsimp only
  split
  · rfl
  · exact tailsOff_linksOff (linksOff_enqueue _ _)

@[simp] theorem tailsOff_sendTails (s : State) : tailsOff (sendTails s) = tailsOff s :=
  (foldl_keeps tailsOff _ (fun s f => tailsOff_sendTail f s) _ _).trans rfl

@[simp] theorem tailsOff_notifyTail (n : Nat) (site : Option Nat) (s : State) : tailsOff (notifyTail n site s) = tailsOff s :=
  (tailsOff_sendTails _).trans rfl

/-- What does not look at links, waiting messages, notifications or the free counter is as before notifications left. -/
theorem sendTails_keeps {α : Type} (g : State → α) (s : State) (h : ∀ u, g (tailsOff u) = g u) : g (sendTails s) = g s := by
  rw [← h, tailsOff_sendTails, h]

theorem notifyTail_keeps {α : Type} (g : State → α) (n : Nat) (site : Option Nat) (s : State) (h : ∀ u, g (tailsOff u) = g u) :
    g (notifyTail n site s) = g s := by
  rw [← h, tailsOff_notifyTail, h]

@[simp] theorem sendTails_mem (s : State) : (sendTails s).mem = s.mem := sendTails_keeps _ s fun _ => rfl
@[simp] theorem sendTails_chans (s : State) : (sendTails s).chans = s.chans := sendTails_keeps _ s fun _ => rfl
@[simp] theorem chanAt_sendTails (s : State) (j : Nat) : chanAt (sendTails s) j = chanAt s j :=
  sendTails_keeps (chanAt · j) s fun _ => rfl
@[simp] theorem ownId_sendTails (s : State) : ownId (sendTails s) = ownId s := sendTails_keeps ownId s fun _ => rfl
@[simp] theorem notifyTail_mem (n : Nat) (site : Option Nat) (s : State) : (notifyTail n site s).mem = s.mem :=
  notifyTail_keeps _ n site s fun _ => rfl
@[simp] theorem chanAt_notifyTail (n : Nat) (site : Option Nat) (s : State) (j : Nat) :
    chanAt (notifyTail n site s) j = chanAt s j := notifyTail_keeps (chanAt · j) n site s fun _ => rfl
@[simp] theorem tileAt_notifyTail (n : Nat) (site : Option Nat) (s : State) (j : Nat) :
    tileAt (notifyTail n site s) j = tileAt s j := notifyTail_keeps (tileAt · j) n site s fun _ => rfl

theorem linkKept_sendTails (s : State) (j : Nat) : linkKept (linkAt (sendTails s) j) = linkKept (linkAt s j) :=
  foldl_keeps (fun s => linkKept (linkAt s j)) (fun s f => sendTail f s) (fun s f => by
    unfold sendTail
    dsimp only
    split
    · rfl
    · exact linkKept_sendOut _ _ _ _ s j) _ _

/-- A notification for this module's half joins the messages on their way; any other leaves them. -/
theorem sendTail_ctrls (f : Notice) (s : State) : (sendTail f s).net.ctrls =
    s.net.ctrls ++ if hasReceiver (chanAt s f.chan) then [(false, f.chan, f.tail)] else [] := by
  unfold sendTail
  dsimp only
  split
  · rfl
  · simp

theorem sendTail_held (f : Notice) (s : State) : (sendTail f s).net.held = s.net.held := by
  unfold sendTail
  dsimp only
  split
  · rfl
  · simp

theorem chanAt_sendTail (f : Notice) (s : State) (j : Nat) : chanAt (sendTail f s) j = chanAt s j := by
  unfold sendTail
  dsimp only
  split
  · rfl
  · simp

theorem foldl_sendTail_ctrls (fs : List Notice) (s : State) : (fs.foldl (fun s f => sendTail f s) s).net.ctrls =
    s.net.ctrls ++ fs.flatMap fun f => if hasReceiver (chanAt s f.chan) then [(false, f.chan, f.tail)] else [] := by
  induction fs generalizing s with
  | nil => simp
  | cons f fs ih => simp only [List.foldl_cons, ih, sendTail_ctrls, chanAt_sendTail, List.flatMap_cons, List.append_assoc]

/-- The notifications for this module's halves that leave, in the order issued. -/
theorem sendTails_ctrls (s : State) : (sendTails s).net.ctrls = s.net.ctrls ++
    (s.net.held.filter (fenceMet s)).flatMap fun f => if hasReceiver (chanAt s f.chan) then [(false, f.chan, f.tail)] else [] :=
  foldl_sendTail_ctrls _ _

/-- The notifications whose FENCEs are not met stay. -/
theorem sendTails_held (s : State) : (sendTails s).net.held = s.net.held.filter fun f => !fenceMet s f := by
  have hfold : (sendTails s).net.held = s.net.held.filter fun f => !(s.net.held.filter (fenceMet s)).contains f :=
    foldl_keeps (·.net.held) (fun s f => sendTail f s) (fun s f => sendTail_held f s) _ _
  rw [hfold]
  refine List.filter_congr fun f hf => ?_
  simp [hf]

end Sys2Proof.Machine
end

section
/-! Where an address lies depends on memory, its protection and the contexts only.

`walk` and `blockDesc` are unfolded as functions, not at their arguments: at its arguments the kernel would compare such a
definition with its body by evaluating what the body matches on, down to products with large numerals. -/

namespace Sys2Proof.Machine

/-- Two states have the same memory, protection and contexts. -/
structure SamePlaces (s u : State) : Prop where
  mem     : u.mem = s.mem
  bad     : u.bad = s.bad
  zeros   : u.zeros = s.zeros
  zeroBad : u.zeroBad = s.zeroBad
  ctxs    : u.ctxs = s.ctxs

section Places
variable {s u : State} (h : SamePlaces s u)
include h

theorem ctxAt_same (c : Nat) : ctxAt u c = ctxAt s c := by
  unfold ctxAt
  rw [h.ctxs]

theorem ctxSt_same (c : Nat) : ctxSt u c = ctxSt s c := by
  unfold ctxSt
  rw [ctxAt_same h]

theorem ueAt_same (pa n : Nat) : ueAt u pa n = ueAt s pa n := by
  unfold ueAt
  rw [h.bad, h.zeroBad]

theorem mergeUe_same (pa n : Nat) : mergeUe u pa n = mergeUe s pa n := by
  unfold mergeUe ueAt
  simp only [h.bad, h.zeroBad]

theorem peek_same (pa n : Nat) : peek u pa n = peek s pa n := by
  unfold peek zeroRow
  rw [h.mem, h.zeros]

theorem peekNum_same (pa n : Nat) : peekNum u pa n = peekNum s pa n := by
  unfold peekNum
  rw [peek_same h]

theorem asAddr_same (c k a n : Nat) : asAddr u c k a n = asAddr s c k a n := by
  unfold asAddr relocAs
  rw [ctxAt_same h]

theorem hbmVa_same (c a n : Nat) : hbmVa u c a n = hbmVa s c a n := by
  unfold hbmVa relocHbm
  rw [ctxAt_same h]

theorem walk_same (c q va : Nat) : walk u c q va = walk s c q va := by
  have hentry : ptEntry u = ptEntry s := by
    funext t i
    unfold ptEntry
    rw [ueAt_same h, peekNum_same h]
  have hwalk : @walk = @walk := rfl
  conv_rhs at hwalk => delta walk
  rw [hwalk]
  beta_reduce
  rw [hentry]

theorem hbmAddr_same (c q a n : Nat) (w : Bool) : hbmAddr u c q a n w = hbmAddr s c q a n w := by
  have hwalk : walk u c q = walk s c q := funext (walk_same h c q)
  unfold hbmAddr
  rw [hbmVa_same h, hwalk]

theorem syncAsHit_same (c k a n : Nat) : syncAsHit u c k a n = syncAsHit s c k a n := by
  unfold syncAsHit
  rw [ctxAt_same h]

theorem syncHbmHit_same (c a n : Nat) : syncHbmHit u c a n = syncHbmHit s c a n := by
  unfold syncHbmHit
  rw [ctxAt_same h]

theorem knotAt_same (c q : Nat) (ka : KAddr) (w : Bool) : knotAt u c q ka w = knotAt s c q ka w := by
  have hrange : syncRange u c ka = syncRange s c ka := by
    unfold syncRange
    rw [ctxAt_same h]
  unfold knotAt inSync
  rw [hrange, hbmAddr_same h, asAddr_same h]

theorem apertureOf_same (c a : Nat) : apertureOf u c a = apertureOf s c a := by
  have hreg : dnReg u = dnReg s := by
    funext c n
    unfold dnReg
    rw [ctxAt_same h]
  have hblocks : dnNblk u c = dnNblk s c := by
    unfold dnNblk
    rw [hreg]
  have hrec : recordAt u = recordAt s := by
    unfold recordAt
    rw [hreg]
  have hcur : dnCur u c = dnCur s c := by
    unfold dnCur
    rw [hreg]
  unfold apertureOf
  rw [hreg, hblocks, hrec, hcur]

theorem blockDesc_same (c q b : Nat) : blockDesc u c q b = blockDesc s c q b := by
  have hue : ueAt u = ueAt s := funext₂ (ueAt_same h)
  have hpeek : peekNum u = peekNum s := funext₂ (peekNum_same h)
  have hdesc : @blockDesc = @blockDesc := rfl
  conv_rhs at hdesc => delta blockDesc
  have hreg : dnReg u c 2 = dnReg s c 2 := by
    unfold dnReg
    rw [ctxAt_same h]
  rw [hdesc]
  beta_reduce
  rw [hreg, hbmAddr_same h, hue, hpeek]

theorem sweptNow_same (c b : Nat) : sweptNow u c b = sweptNow s c b := by
  unfold sweptNow
  rw [ctxAt_same h]

theorem copyAt_same (c q : Nat) (ka : KAddr) (off n : Nat) (w : Bool) : copyAt u c q ka off n w = copyAt s c q ka off n w := by
  unfold copyAt
  rw [hbmAddr_same h, asAddr_same h]

end Places

theorem samePlaces_modNet (f : Net → Net) (s : State) : SamePlaces s (modNet f s) := ⟨rfl, rfl, rfl, rfl, rfl⟩

end Sys2Proof.Machine
end

section
/-! Channels: ports gather, send and receive messages; the halves take each other's tail and head. -/

namespace Sys2Proof.Machine

/-! ### Ports of border tiles -/

@[simp] theorem setPort_mem (k p : Nat) (vs : List (DataTok × Tab Nat)) (s : State) : (setPort k p vs s).mem = s.mem := rfl
@[simp] theorem setPort_chans (k p : Nat) (vs : List (DataTok × Tab Nat)) (s : State) : (setPort k p vs s).chans = s.chans := rfl
@[simp] theorem setPort_net (k p : Nat) (vs : List (DataTok × Tab Nat)) (s : State) : (setPort k p vs s).net = s.net := rfl
@[simp] theorem setPort_hoops (k p : Nat) (vs : List (DataTok × Tab Nat)) (s : State) : (setPort k p vs s).hoops = s.hoops := rfl
@[simp] theorem hoopAt_setPort (k p : Nat) (vs : List (DataTok × Tab Nat)) (s : State) (j : Nat) :
    hoopAt (setPort k p vs s) j = hoopAt s j := rfl
@[simp] theorem chanAt_setPort (k p : Nat) (vs : List (DataTok × Tab Nat)) (s : State) (j : Nat) :
    chanAt (setPort k p vs s) j = chanAt s j := rfl

@[simp] theorem portSlots_setPort (k p : Nat) (vs : List (DataTok × Tab Nat)) (s : State) :
    portSlots (tileAt (setPort k p vs s) k) p = vs := by
  simp [setPort, modB, portSlots]

@[simp] theorem qToks_setPort (k p q : Nat) (vs : List (DataTok × Tab Nat)) (s : State) :
    qToks (tileAt (setPort k p vs s) k) q = qToks (tileAt s k) q := by
  simp [setPort, modB, qToks]

/-- A port of an OPEN channel does what its command says of OPEN channels. -/
theorem portStep_opened {recv : Bool} {site : Site} {p : Fin 4} {n : Nat} {s : State} (h : PortOn recv site p n .opened s)
    (f g : Nat → Nat → Nat → State → State) :
    portStep recv site p f g s = .next (groundPart s (g (siteNo site) (chanAt s n).ctx n s)) := by
  obtain ⟨⟨r, hr, hctx⟩, hkind, hon, hway, hchan, hhalf, hends, hst⟩ := h
  cases recv <;> simp [portStep, hr, ← hctx, hkind, hon, hway, hchan, hst] at hhalf hends ⊢ <;> simp [hhalf, hends]

/-- A port of a FAULTED channel does what its command says of FAULTED channels. -/
theorem portStep_faulted {recv : Bool} {site : Site} {p : Fin 4} {n : Nat} {s : State} (h : PortOn recv site p n .faulted s)
    (f g : Nat → Nat → Nat → State → State) :
    portStep recv site p f g s = .next (groundPart s (f (siteNo site) (chanAt s n).ctx n s)) := by
  obtain ⟨⟨r, hr, hctx⟩, hkind, hon, hway, hchan, hhalf, hends, hst⟩ := h
  cases recv <;> simp [portStep, hr, ← hctx, hkind, hon, hway, hchan, hst] at hhalf hends ⊢ <;> simp [hhalf, hends]

/-! ### Tokens popped and sent -/

theorem windowPop_mem (k q : Nat) (s : State) : (windowPop k q s).mem = s.mem := by
  unfold windowPop unlearned popTok
  dsimp only
  split <;> rfl

theorem windowPop_chans (k q : Nat) (s : State) : (windowPop k q s).chans = s.chans := by
  unfold windowPop unlearned popTok
  dsimp only
  split <;> rfl

@[simp] theorem chanAt_windowPop (k q : Nat) (s : State) (j : Nat) : chanAt (windowPop k q s) j = chanAt s j := by
  rw [chanAt, windowPop_chans]
  rfl

/-- The first token of the queue has gone. -/
theorem qToks_windowPop (k q : Nat) (s : State) :
    qToks (tileAt (windowPop k q s) k) q = (qToks (tileAt s k) q).tail := by
  unfold windowPop unlearned popTok
  simp only [tileAt_modTile_same]
  cases hq : qToks (tileAt s k) q with
  | nil => simpa [qToks] using hq
  | cons a rest => simp [qToks]

@[simp] theorem sendTokVc_mem (k o : Nat) (c : Bool) (v : DataTok) (vc : Tab Nat) (s : State) :
    (sendTokVc k o c v vc s).mem = s.mem := rfl
@[simp] theorem sendTokVc_chans (k o : Nat) (c : Bool) (v : DataTok) (vc : Tab Nat) (s : State) :
    (sendTokVc k o c v vc s).chans = s.chans := rfl
@[simp] theorem chanAt_sendTokVc (k o : Nat) (c : Bool) (v : DataTok) (vc : Tab Nat) (s : State) (j : Nat) :
    chanAt (sendTokVc k o c v vc s) j = chanAt s j := rfl
@[simp] theorem sendTokVc_ctrls (k o : Nat) (c : Bool) (v : DataTok) (vc : Tab Nat) (s : State) :
    (sendTokVc k o c v vc s).net.ctrls = s.net.ctrls := rfl

/-- A tile that has sent a data token has a credit less. -/
theorem tileAt_sendTokVc (k o : Nat) (v : DataTok) (vc : Tab Nat) (s : State) :
    tileAt (sendTokVc k o false v vc s) k =
      { tileAt s k with dcred := Tab.set 0 (tileAt s k).dcred o (dCred (tileAt s k) o - 1) } := by
  simp [sendTokVc]

/-- The token that has been sent is on its way. -/
theorem flight_sendTokVc (k o : Nat) (c : Bool) (v : DataTok) (vc : Tab Nat) (s : State) :
    (hoopAt (sendTokVc k o c v vc s) (noHoop k)).flight =
      (hoopAt s (noHoop k)).flight ++ [⟨c, v, true, k, o, s.net.nextFid, vc, none⟩] := by
  simp [sendTokVc]

theorem sendTokVc_onWay (k o : Nat) (c : Bool) (v : DataTok) (vc : Tab Nat) (s : State) :
    ∃ z ∈ (hoopAt (sendTokVc k o c v vc s) (noHoop k)).flight, z.src = k ∧ z.port = o ∧ z.ctrl = c ∧ z.val = v := by
  refine ⟨⟨c, v, true, k, o, s.net.nextFid, vc, none⟩, ?_, rfl, rfl, rfl, rfl⟩
  rw [flight_sendTokVc]
  exact List.mem_append_right _ (List.mem_singleton_self _)

/-! ### Slots written into a ring -/

/-- A state without what a ring's slots change. -/
def slotsOff (s : State) : State := { s with mem := [], bad := [], ctxs := [] }

theorem slotsOff_writeCodewords (pa : Nat) (bs : List Byte) (s : State) :
    slotsOff (writeCodewords (fun _ s => s) pa bs s) = slotsOff s :=
  foldl_keeps slotsOff _ (fun _ _ => by split <;> rfl) _ _

theorem slotsOff_addCodewords (pa : Nat) (bs : List Byte) (s : State) :
    slotsOff (addCodewords (fun _ s => s) pa bs s) = slotsOff s :=
  foldl_keeps slotsOff _ (fun _ _ => by split <;> rfl) _ _

theorem slotsOff_mergeBit (pa : Nat) (bs : List Byte) (s : State) : slotsOff (mergeBit (fun _ s => s) pa bs s) = slotsOff s := by
  unfold mergeBit
  split <;> rfl

/-- An aperture write that is done changes memory, and counts what it discards in its context. -/
theorem slotsOff_apertureEnd {w : HbmWrite} {ap : Aperture} {s t : State} {b : Option Nat}
    (h : apertureEnd w ap s = .done b t) : slotsOff t = slotsOff s := by
  rw [apertureEnd] at h
  generalize (if w.mask then 1 else w.data.length) = n at h
  split at h
  · exact nomatch h
  · cases hd : blockDesc s w.ctx w.quarter ap.block with
    | none => rw [hd] at h; exact nomatch h
    | some d =>
      rw [hd] at h
      dsimp only at h
      split at h
      · injection h with _ h; rw [← h]; rfl
      · split at h
        · exact nomatch h
        · split at h
          · simp only [written] at h
            split at h
            · injection h with _ h; rw [← h]; exact slotsOff_mergeBit _ _ _
            · split at h
              · injection h with _ h; rw [← h]; exact slotsOff_writeCodewords _ _ _
              · injection h with _ h; rw [← h]; exact slotsOff_addCodewords _ _ _
          all_goals exact nomatch h

theorem slotsOff_putSlot (q : Nat) (x : Chan) (i : Nat) (v : DataTok) (s : State) :
    slotsOff (putSlot q x i v s).1 = slotsOff s := by
  unfold putSlot
  by_cases hspace : x.space = 0
  · rw [if_pos hspace]
    cases tileSlot s x i <;> rfl
  · rw [if_neg hspace]
    cases slotStop s x i with
    | some e => rfl
    | none =>
      cases apertureOf s x.ctx (slotOff x i) with
      | none => cases hbm64 s x.ctx q (slotOff x i) true <;> rfl
      | some ap =>
        dsimp only
        cases hend : apertureEnd ⟨0, x.ctx, q, none, slotOff x i, 0, tokBytes v, false, false⟩ ap s with
        | undef => rfl
        | fail => rfl
        | done b t => cases b <;> exact slotsOff_apertureEnd hend

theorem slotsOff_putSlots (q : Nat) (x : Chan) (i : Nat) (vs : List DataTok) (s : State) :
    slotsOff (putSlots q x i vs s).1 = slotsOff s := by
  induction vs generalizing i s with
  | nil => rfl
  | cons v vs ih =>
    have hput := slotsOff_putSlot q x i v s
    unfold putSlots
    split
    · next s' h => rw [h] at hput; rw [ih, hput]
    · exact hput

/-- What slots written into a ring leave: all but memory and their context's counts. -/
theorem putSlots_keeps {α : Type} (g : State → α) {q : Nat} {x : Chan} {i : Nat} {vs : List DataTok} {s u : State} {e : Option Stop}
    (h : putSlots q x i vs s = (u, e)) (hg : ∀ u, g (slotsOff u) = g u) : g u = g s := by
  have := slotsOff_putSlots q x i vs s
  rw [h] at this
  rw [← hg, this, hg]

/-- A range of A-tile bytes lies in one piece. -/
theorem asAddr_split {s : State} {c k a m n pa : Nat} (h : asAddr s c k a (m + n) = some pa) :
    asAddr s c k a m = some pa ∧ asAddr s c k (a + m) n = some (pa + m) := by
  unfold asAddr relocate at h ⊢
  dsimp only at h ⊢
  split at h
  · simp only [Option.map_some, Option.some.injEq] at h
    rw [if_pos (by omega), if_pos (by omega)]
    simp only [Option.map_some, Option.some.injEq]
    omega
  · exact nomatch h

theorem tokBytes_length (v : DataTok) : (tokBytes v).length = 64 := toLE_length _ _

/-- Slots written into a ring in A-tile memory stand behind one another. -/
theorem putSlots_tile {q i pa : Nat} {x : Chan} {vs : List DataTok} {s u : State} (hput : putSlots q x i vs s = (u, none))
    (hspace : x.space = 0) (hfit : i + vs.length ≤ ringN x)
    (ha : asAddr s x.ctx (ringTileNo x) (x.ringBase + 64 * i) (64 * vs.length) = some pa) :
    u.mem = putBytes s.mem pa (vs.flatMap tokBytes) := by
  induction vs generalizing i s pa with
  | nil => cases hput; rfl
  | cons v vs ih =>
    rw [List.length_cons] at hfit ha
    rw [show 64 * (vs.length + 1) = 64 + 64 * vs.length by ring] at ha
    obtain ⟨hhere, hnext⟩ := asAddr_split ha
    have hoff : slotOff x i = x.ringBase + 64 * i := by rw [slotOff, Nat.mod_eq_of_lt (by omega)]
    have hslot : putSlot q x i v s = (poke s pa (tokBytes v), none) ∨ ∃ e, putSlot q x i v s = (s, some e) := by
      rw [putSlot, if_pos hspace, tileSlot, hoff, hhere]
      dsimp only
      split
      · next h =>
        split at h
        · exact nomatch h
        · cases h; exact .inl rfl
      · next e _ => exact .inr ⟨e, rfl⟩
    rcases hslot with hslot | ⟨e, hslot⟩
    · rw [putSlots, hslot] at hput
      have := ih hput (by omega) (by rw [show x.ringBase + 64 * (i + 1) = x.ringBase + 64 * i + 64 by ring]; exact hnext)
      rw [this, List.flatMap_cons, putBytes_append, tokBytes_length]
      rfl
    · rw [putSlots, hslot] at hput
      exact nomatch hput

/-! ### Sending -/

/-- Slots of a ring of this module: what they leave. -/
theorem pushSlots_keeps {α : Type} (g : State → α) {n i : Nat} {site : Option Nat} {vs : List DataTok} {vc : Tab Nat} {s u : State}
    {e : Option Stop} (hrecv : hasReceiver (chanAt s n) = true) (h : pushSlots n site i vs vc s = (u, e))
    (hslots : ∀ u, g (slotsOff u) = g u)
    (hclocks : ∀ (f : Tab (Tab Nat) → Tab (Tab Nat)) u, g (modNet (fun m => { m with clocks := f m.clocks }) u) = g u) : g u = g s := by
  simp only [pushSlots, hrecv, if_true] at h
  split at h
  · next s' hput =>
    rw [← putSlots_keeps g hput hslots]
    cases h
    split
    · exact hclocks (Tab.set [] · _ _) s'
    · rfl
  · exact putSlots_keeps g h hslots

/-- The bytes of a message written into a ring in A-tile memory of this module. -/
theorem pushSlots_tile {n pos pa : Nat} {site : Option Nat} {vs : List DataTok} {vc : Tab Nat} {s u : State}
    (hrecv : hasReceiver (chanAt s n) = true) (h : pushSlots n site pos vs vc s = (u, none)) (hspace : (chanAt s n).space = 0)
    (hfit : pos + vs.length ≤ ringN (chanAt s n))
    (ha : asAddr s (chanAt s n).ctx (ringTileNo (chanAt s n)) ((chanAt s n).ringBase + 64 * pos) (64 * vs.length) = some pa) :
    u.mem = putBytes s.mem pa (vs.flatMap tokBytes) := by
  simp only [pushSlots, hrecv, if_true] at h
  split at h
  · next s' hput =>
    rw [← putSlots_tile hput hspace hfit ha]
    cases h
    split <;> rfl
  · next hput => rw [h] at hput; exact absurd rfl (hput u)

/-- A message that fits behind the ring's tail is written without a PAD, and its notification is held until its FENCE is met. -/
theorem sendMessage_fits {n k p c : Nat} {v : DataTok × Tab Nat} {rest : List (DataTok × Tab Nat)} {s u : State}
    (hrecv : hasReceiver (chanAt s n) = true)
    (hfit : (chanAt s n).tail.toNat % ringN (chanAt s n) + (v :: rest).length ≤ ringN (chanAt s n))
    (hroom : (v :: rest).length ≤ freeSlots (chanAt s n))
    (hpush : pushSlots n (some k) ((chanAt s n).tail.toNat % ringN (chanAt s n)) (withSeq v.1 (chanAt s n).sent :: rest.map (·.1))
      ((v :: rest).foldl (fun m v => joinClock m v.2) []) s = (u, none)) :
    sendMessage n k p c (v :: rest) s = notifyTail n (some k) (setPort k p [] (modChan n (fun z => { z with
      tail := z.tail + BitVec.ofNat 32 (v :: rest).length, sent := satAdd 48 z.sent 1, waited := false }) u)) := by
  simp only [sendMessage, hrecv, Bool.not_true, Bool.false_and, Bool.false_eq_true, if_false]
  rw [if_neg (by omega), if_neg (by simp only [Bool.and_eq_true, decide_eq_true_eq]; omega), if_neg (by omega)]
  dsimp only
  rw [if_neg (by omega), List.map_cons]
  dsimp only
  rw [hpush]

/-- The notification that a message leaves behind its writes. -/
def noticeOf (n k : Nat) (u : State) : Notice := ⟨n, (chanAt u n).tail, some k, u.net.nextWid⟩

theorem notifyTail_ctrls (n k : Nat) (u : State) : (notifyTail n (some k) u).net.ctrls = u.net.ctrls ++
    ((u.net.held ++ [noticeOf n k u]).filter (fenceMet u)).flatMap fun f =>
      if hasReceiver (chanAt u f.chan) then [(false, f.chan, f.tail)] else [] := sendTails_ctrls _

theorem notifyTail_held (n k : Nat) (u : State) :
    (notifyTail n (some k) u).net.held = (u.net.held ++ [noticeOf n k u]).filter fun f => !fenceMet u f := sendTails_held _

/-! ### Heads and tails arrive -/

/-- The first message of the pair of endpoints is taken. -/
theorem ctrlArrives_taken {head : Bool} {n : Nat} {u : State} {m0 m : Bool × Nat × BitVec 32}
    (hm0 : u.net.ctrls.find? (fun m => m.1 == head && decide (m.2.1 = n)) = some m0)
    (hm : u.net.ctrls.find? (fun m => decide (ctrlWay u m = ctrlWay u m0)) = some m) :
    ctrlArrives head n u = takeCtrl m (modNet (fun x => { x with
      ctrls := eraseFirst (fun m => decide (ctrlWay u m = ctrlWay u m0)) x.ctrls }) u) := by
  simp only [ctrlArrives, hm0, hm, Option.getD_some]

/-! ### Receiving -/

/-- The head as it stands after it has advanced. -/
theorem chanAt_advanceHead (n q k : Nat) (s : State) :
    chanAt (advanceHead n q k s) n = { chanAt s n with head := (chanAt s n).head + BitVec.ofNat 32 k } := by
  unfold advanceHead
  dsimp only
  split <;> simp

/-- What a head that advances leaves. -/
theorem advanceHead_keeps {α : Type} (g : State → α) (n q k : Nat) (s : State) (hlinks : ∀ u, g (linksOff u) = g u)
    (hchan : ∀ f u, g (modChan n f u) = g u)
    (hctrls : ∀ (f : List (Bool × Nat × BitVec 32) → List (Bool × Nat × BitVec 32)) u,
      g (modNet (fun m => { m with ctrls := f m.ctrls }) u) = g u) :
    g (advanceHead n q k s) = g s := by
  unfold advanceHead
  dsimp only
  split
  · exact (hctrls (· ++ _) _).trans (hchan _ _)
  · exact (sendOut_keeps g _ _ _ _ _ hlinks).trans (hchan _ _)

@[simp] theorem tileAt_advanceHead (n q k : Nat) (s : State) (j : Nat) : tileAt (advanceHead n q k s) j = tileAt s j :=
  advanceHead_keeps (tileAt · j) n q k s (fun _ => rfl) (fun _ _ => rfl) fun _ _ => rfl
@[simp] theorem hoopAt_advanceHead (n q k : Nat) (s : State) (j : Nat) : hoopAt (advanceHead n q k s) j = hoopAt s j :=
  advanceHead_keeps (hoopAt · j) n q k s (fun _ => rfl) (fun _ _ => rfl) fun _ _ => rfl
@[simp] theorem advanceHead_mem (n q k : Nat) (s : State) : (advanceHead n q k s).mem = s.mem :=
  advanceHead_keeps _ n q k s (fun _ => rfl) (fun _ _ => rfl) fun _ _ => rfl

/-- The head returns to a sender half of this module. -/
theorem advanceHead_ctrls {n q k : Nat} {s : State} (h : hasSender (chanAt s n) = true) :
    (advanceHead n q k s).net.ctrls = s.net.ctrls ++ [(true, n, (chanAt s n).head + BitVec.ofNat 32 k)] := by
  have h' : hasSender (chanAt (modChan n (fun x => { x with head := x.head + BitVec.ofNat 32 k }) s) n) = true := by
    rw [chanAt_modChan_same]
    exact h
  rw [advanceHead, if_pos h']
  simp

/-! ### The commands of a port -/

section Send
variable {site : Site} {port : Fin 4} {n : Nat} {s : State}

/-- A port of a FAULTED channel that holds nothing discards the next token. -/
theorem channelSend_discards_token {a : Token} (hp : PortOn false site port n .faulted s)
    (hvs : portSlots (tileAt s (siteNo site)) port.val = [])
    (hhead : headOf (tileAt s (siteNo site)) (fld (cpReg (tileAt s (siteNo site)) port.val) 2 4) = .tok a) :
    exec (.channelSend site port) s = .next (groundPart s (modChan n (fun x => { x with discard := satAdd 32 x.discard 1 })
      (windowPop (siteNo site) (fld (cpReg (tileAt s (siteNo site)) port.val) 2 4) s))) := by
  change execChannelSend site port s = _
  rw [execChannelSend, portStep_faulted hp]
  simp [hvs, hhead]

/-- A port of a FAULTED channel discards the slots that it holds. -/
theorem channelSend_discards_held (hp : PortOn false site port n .faulted s)
    (hvs : portSlots (tileAt s (siteNo site)) port.val ≠ []) :
    exec (.channelSend site port) s = .next (groundPart s (modChan n (fun x => { x with
      discard := satAdd 32 x.discard (portSlots (tileAt s (siteNo site)) port.val).length }) (setPort (siteNo site) port.val [] s))) := by
  change execChannelSend site port s = _
  rw [execChannelSend, portStep_faulted hp]
  simp [hvs]

/-- A port whose message is not whole takes the next token. -/
theorem channelSend_gathers {a : Token} (hp : PortOn false site port n .opened s)
    (hshared : sendShared (tileAt s (siteNo site)) port.val (fld (cpReg (tileAt s (siteNo site)) port.val) 2 4) = false)
    (hpart : ∀ v, (portSlots (tileAt s (siteNo site)) port.val).head? = some v →
      (portSlots (tileAt s (siteNo site)) port.val).length < msgExt v.1 + 1)
    (hctrl : qCtrl (tileAt s (siteNo site)) (fld (cpReg (tileAt s (siteNo site)) port.val) 2 4) = false)
    (hhead : headOf (tileAt s (siteNo site)) (fld (cpReg (tileAt s (siteNo site)) port.val) 2 4) = .tok a)
    (hfirst : portSlots (tileAt s (siteNo site)) port.val = [] → msgKind a.val = 1) :
    exec (.channelSend site port) s = .next (groundPart s
      (setPort (siteNo site) port.val (portSlots (tileAt s (siteNo site)) port.val ++ [(a.val, a.vc)])
        (windowPop (siteNo site) (fld (cpReg (tileAt s (siteNo site)) port.val) 2 4) s))) := by
  change execChannelSend site port s = _
  rw [execChannelSend, portStep_opened hp]
  cases hvs : portSlots (tileAt s (siteNo site)) port.val with
  | nil => simp [hshared, hvs, hctrl, hhead, hfirst hvs]
  | cons v rest =>
    have hless : ¬ msgExt v.1 + 1 ≤ rest.length + 1 := by
      have := hpart v (by rw [hvs]; rfl)
      rw [hvs, List.length_cons] at this
      omega
    have hless' : ¬ msgExt v.1 ≤ rest.length := by omega
    simp [hshared, hvs, hctrl, hhead, hless']

/-- A port that holds a whole message sends it. -/
theorem channelSend_sends {v : DataTok × Tab Nat} {rest : List (DataTok × Tab Nat)} (hp : PortOn false site port n .opened s)
    (hshared : sendShared (tileAt s (siteNo site)) port.val (fld (cpReg (tileAt s (siteNo site)) port.val) 2 4) = false)
    (hvs : portSlots (tileAt s (siteNo site)) port.val = v :: rest) (hwhole : msgExt v.1 + 1 ≤ (v :: rest).length) :
    exec (.channelSend site port) s =
      .next (groundPart s (sendMessage n (siteNo site) port.val (chanAt s n).ctx (v :: rest) s)) := by
  change execChannelSend site port s = _
  rw [List.length_cons] at hwhole
  have hwhole' : msgExt v.1 ≤ rest.length := by omega
  rw [execChannelSend, portStep_opened hp]
  simp [hshared, hvs, hwhole']

end Send

section Recv
variable {site : Site} {port : Fin 4} {n : Nat} {s : State}

/-- The port's count of tokens sent. -/
def setSent (k p m : Nat) : State → State := modB k fun b => { b with portSent := Tab.set 0 b.portSent p m }

/-- A port sends the next token of its message, which is not the last. -/
theorem channelRecv_sends_next {v : DataTok × Tab Nat} (hp : PortOn true site port n .opened s)
    (hv : (portSlots (tileAt s (siteNo site)) port.val)[Tab.get 0 (tileAt s (siteNo site)).b.portSent port.val]? = some v)
    (hcred : hasCredit (tileAt s (siteNo site)) (fld (cpReg (tileAt s (siteNo site)) port.val) 2 2) false = true)
    (hmore : Tab.get 0 (tileAt s (siteNo site)).b.portSent port.val + 1 < (portSlots (tileAt s (siteNo site)) port.val).length) :
    exec (.channelRecv site port) s = .next (groundPart s (setSent (siteNo site) port.val
      (Tab.get 0 (tileAt s (siteNo site)).b.portSent port.val + 1)
      (sendTokVc (siteNo site) (fld (cpReg (tileAt s (siteNo site)) port.val) 2 2) false v.1 v.2 s))) := by
  change execChannelRecv site port s = _
  rw [execChannelRecv, portStep_opened hp]
  cases hvs : portSlots (tileAt s (siteNo site)) port.val with
  | nil => rw [hvs] at hv; simp at hv
  | cons w rest =>
    rw [hvs, List.length_cons] at hmore
    rw [hvs] at hv
    simp only [List.getD_eq_getElem?_getD, hvs, hv, hcred, Option.getD_some, Bool.not_true, Bool.false_eq_true, if_false]
    rw [if_neg (by omega)]
    rfl

/-- A port sends the last token of its message, and the head advances. -/
theorem channelRecv_sends_last {v : DataTok × Tab Nat} (hp : PortOn true site port n .opened s)
    (hv : (portSlots (tileAt s (siteNo site)) port.val)[Tab.get 0 (tileAt s (siteNo site)).b.portSent port.val]? = some v)
    (hcred : hasCredit (tileAt s (siteNo site)) (fld (cpReg (tileAt s (siteNo site)) port.val) 2 2) false = true)
    (hlast : Tab.get 0 (tileAt s (siteNo site)).b.portSent port.val + 1 = (portSlots (tileAt s (siteNo site)) port.val).length) :
    exec (.channelRecv site port) s = .next (groundPart s (modChan n (fun y => { y with recv := satAdd 48 y.recv 1 })
      (advanceHead n (quarterOf (noHoop (siteNo site))) (portSlots (tileAt s (siteNo site)) port.val).length
        (setSent (siteNo site) port.val 0 (setPort (siteNo site) port.val []
          (sendTokVc (siteNo site) (fld (cpReg (tileAt s (siteNo site)) port.val) 2 2) false v.1 v.2 s)))))) := by
  change execChannelRecv site port s = _
  rw [execChannelRecv, portStep_opened hp]
  cases hvs : portSlots (tileAt s (siteNo site)) port.val with
  | nil => rw [hvs] at hv; simp at hv
  | cons w rest =>
    rw [hvs, List.length_cons] at hlast
    rw [hvs] at hv
    simp only [List.getD_eq_getElem?_getD, hvs, hv, hcred, Option.getD_some, Bool.not_true, Bool.false_eq_true, if_false]
    rw [if_pos (by omega)]
    rfl

/-- What a port that holds nothing and finds a message takes. -/
theorem oldestMsg_message {q fuel : Nat} {x : Chan} {v : DataTok} {ws : List DataTok} (hne : x.head ≠ x.tailSeen)
    (hv : getSlots s q x x.head.toNat 1 = .ok [v]) (hkind : msgKind v ≠ 2)
    (hws : getSlots s q x x.head.toNat (msgExt v + 1) = .ok ws) : oldestMsg s q x (fuel + 1) 0 = .ok (0, some ws) := by
  simp [oldestMsg, hne, hv, hkind, hws]

/-- A ring whose only message is a PAD. -/
theorem oldestMsg_pad {q fuel : Nat} {x : Chan} {v : DataTok} (hne : x.head ≠ x.tailSeen)
    (hv : getSlots s q x x.head.toNat 1 = .ok [v]) (hkind : msgKind v = 2)
    (hend : x.head + BitVec.ofNat 32 (max 1 (msgPadLen v)) = x.tailSeen) :
    oldestMsg s q x (fuel + 2) 0 = .ok (max 1 (msgPadLen v), none) := by
  simp [oldestMsg, hne, hv, hkind, hend]

/-- A port that holds nothing reads the next message. -/
theorem channelRecv_reads {ws : List DataTok} (hp : PortOn true site port n .opened s)
    (hvs : portSlots (tileAt s (siteNo site)) port.val = [])
    (hold : oldestMsg s (quarterOf (noHoop (siteNo site))) (chanAt s n) 2 0 = .ok (0, some ws)) :
    ∃ vc, exec (.channelRecv site port) s =
      .next (groundPart s (setPort (siteNo site) port.val (ws.map fun v => (v, vc)) s)) := by
  change ∃ vc, execChannelRecv site port s = _
  rw [execChannelRecv, portStep_opened hp]
  simp only [hvs, hold, if_true]
  exact ⟨_, rfl⟩

/-- A port that finds no message behind its PADs skips them. -/
theorem channelRecv_skips {skip : Nat} (hp : PortOn true site port n .opened s)
    (hvs : portSlots (tileAt s (siteNo site)) port.val = []) (hskip : skip ≠ 0)
    (hold : oldestMsg s (quarterOf (noHoop (siteNo site))) (chanAt s n) 2 0 = .ok (skip, none)) :
    exec (.channelRecv site port) s = .next (groundPart s
      (if hasCredit (tileAt s (siteNo site)) (fld (cpReg (tileAt s (siteNo site)) port.val) 2 2) false then
        modChan n (fun y => { y with empty := satAdd 48 y.empty 1 }) (advanceHead n (quarterOf (noHoop (siteNo site))) skip s)
      else advanceHead n (quarterOf (noHoop (siteNo site))) skip s)) := by
  change execChannelRecv site port s = _
  rw [execChannelRecv, portStep_opened hp]
  simp only [hvs, hold, if_neg hskip]

end Recv

/-! ### The statement -/

theorem dCred_sendTokVc {k o : Nat} {s : State} (v : DataTok) (vc : Tab Nat) (h : hasCredit (tileAt s k) o false = true) :
    dCred (tileAt (sendTokVc k o false v vc s) k) o + 1 = dCred (tileAt s k) o := by
  have hpos : 0 < dCred (tileAt s k) o := by simpa [hasCredit] using h
  rw [tileAt_sendTokVc]
  simp only [dCred, Tab.get_set_same] at hpos ⊢
  omega

@[simp] theorem setSent_mem (k p m : Nat) (s : State) : (setSent k p m s).mem = s.mem := rfl
@[simp] theorem setSent_chans (k p m : Nat) (s : State) : (setSent k p m s).chans = s.chans := rfl
@[simp] theorem setSent_net (k p m : Nat) (s : State) : (setSent k p m s).net = s.net := rfl
@[simp] theorem chanAt_setSent (k p m : Nat) (s : State) (j : Nat) : chanAt (setSent k p m s) j = chanAt s j := rfl
@[simp] theorem hoopAt_setSent (k p m : Nat) (s : State) (j : Nat) : hoopAt (setSent k p m s) j = hoopAt s j := rfl

/-- The slots that a port holds do not touch the credits of its tile. -/
theorem dCred_setPort (k p o : Nat) (vs : List (DataTok × Tab Nat)) (s : State) :
    dCred (tileAt (setPort k p vs s) k) o + 1 = dCred (tileAt s k) o + 1 := by
  simp [setPort, modB, dCred]

theorem tileAt_setSent (k p m : Nat) (s : State) : tileAt (setSent k p m s) k =
    { tileAt s k with b := { (tileAt s k).b with portSent := Tab.set 0 (tileAt s k).b.portSent p m } } := by
  simp [setSent, modB]

/-- What a whole message that fits leaves once it has been written (R28, R286, R287). -/
theorem channelSend_writes {site : Site} {port : Fin 4} {n : Nat} {s u : State} {v : DataTok × Tab Nat} {rest : List (DataTok × Tab Nat)}
    (hp : PortOn false site port n .opened s)
    (hshared : sendShared (tileAt s (siteNo site)) port.val (fld (cpReg (tileAt s (siteNo site)) port.val) 2 4) = false)
    (hvs : portSlots (tileAt s (siteNo site)) port.val = v :: rest) (hwhole : msgExt v.1 + 1 ≤ (v :: rest).length)
    (hrecv : hasReceiver (chanAt s n) = true)
    (hfit : (chanAt s n).tail.toNat % ringN (chanAt s n) + (v :: rest).length ≤ ringN (chanAt s n))
    (hroom : (v :: rest).length ≤ freeSlots (chanAt s n))
    (hpush : pushSlots n (some (siteNo site)) ((chanAt s n).tail.toNat % ringN (chanAt s n))
      (withSeq v.1 (chanAt s n).sent :: rest.map (·.1)) ((v :: rest).foldl (fun m v => joinClock m v.2) []) s = (u, none)) :
    ∃ t, exec (.channelSend site port) s = .next t ∧ t.mem = u.mem ∧
      chanAt t n = { chanAt s n with
        tail := (chanAt s n).tail + BitVec.ofNat 32 (v :: rest).length, sent := satAdd 48 (chanAt s n).sent 1, waited := false } ∧
      portSlots (tileAt t (siteNo site)) port.val = [] ∧
      (let f : Notice := ⟨n, (chanAt s n).tail + BitVec.ofNat 32 (v :: rest).length, some (siteNo site), u.net.nextWid⟩
       ∃ tell : Notice → List (Bool × Nat × BitVec 32), tell f = [(false, n, f.tail)] ∧
        t.net.ctrls = u.net.ctrls ++ ((u.net.held ++ [f]).filter (fenceMet u)).flatMap tell ∧
        t.net.held = (u.net.held ++ [f]).filter fun f => !fenceMet u f) := by
  have hchan : chanAt u n = chanAt s n := pushSlots_keeps (chanAt · n) hrecv hpush (fun _ => rfl) fun _ _ => rfl
  have hnext := channelSend_sends hp hshared hvs hwhole
  rw [sendMessage_fits hrecv hfit hroom hpush] at hnext
  refine ⟨_, hnext, ?_, ?_, ?_, ?_⟩
  · simp
  · simp [hchan]
  · simp
  · have hnotice : noticeOf n (siteNo site) (setPort (siteNo site) port.val [] (modChan n (fun z => { z with
        tail := z.tail + BitVec.ofNat 32 (v :: rest).length, sent := satAdd 48 z.sent 1, waited := false }) u)) =
        ⟨n, (chanAt s n).tail + BitVec.ofNat 32 (v :: rest).length, some (siteNo site), u.net.nextWid⟩ := by
      simp [noticeOf, hchan]
    refine ⟨_, ?_, (notifyTail_ctrls _ _ _).trans (by rw [hnotice]; rfl), (notifyTail_held _ _ _).trans (by rw [hnotice]; rfl)⟩
    exact if_pos (by rw [chanAt_setPort, chanAt_modChan_same, hchan]; exact hrecv)

/-- A notification leaves where its FENCE is met, and waits where it is not. -/
theorem leaves_or_waits {u t : State} {f : Notice} {m : Bool × Nat × BitVec 32} {tell : Notice → List (Bool × Nat × BitVec 32)}
    (htell : tell f = [m]) (hctrls : t.net.ctrls = u.net.ctrls ++ ((u.net.held ++ [f]).filter (fenceMet u)).flatMap tell)
    (hheld : t.net.held = (u.net.held ++ [f]).filter fun f => !fenceMet u f) :
    (fenceMet u f = true → m ∈ t.net.ctrls ∧ (u.net.held = [] → t.net.ctrls = u.net.ctrls ++ [m] ∧ t.net.held = [])) ∧
    (fenceMet u f = false → f ∈ t.net.held ∧ (u.net.held = [] → t.net.ctrls = u.net.ctrls)) := by
  refine ⟨fun hmet => ⟨?_, fun hnone => ?_⟩, fun hunmet => ⟨?_, fun hnone => ?_⟩⟩
  · simp [hctrls, hmet, htell]
  · simp [hctrls, hheld, hnone, hmet, htell]
  · simp [hheld, hunmet]
  · simp [hctrls, hnone, hunmet]

/-- A head or tail of a channel that has arrived. -/
theorem ctrl_took {head : Bool} {n : Nat} {i : Instr} {s u : State} (hi : exec i s = ground (ctrlArrives head n u) s)
    (hchan : ∀ j, chanAt u j = chanAt s j) (hmem : u.mem = s.mem) {m0 m : Bool × Nat × BitVec 32}
    (hm0 : u.net.ctrls.find? (fun m => m.1 == head && decide (m.2.1 = n)) = some m0)
    (hm : u.net.ctrls.find? (fun m => decide (ctrlWay u m = ctrlWay u m0)) = some m) :
    ∃ t, exec i s = .next t ∧
      chanAt t m.2.1 = (if (chanAt s m.2.1).st ≠ .opened then chanAt s m.2.1
        else if m.1 then { chanAt s m.2.1 with headSeen := m.2.2 } else { chanAt s m.2.1 with tailSeen := m.2.2 }) ∧
      t.net = { u.net with ctrls := eraseFirst (fun m => decide (ctrlWay u m = ctrlWay u m0)) u.net.ctrls } ∧
      (∀ j, j ≠ m.2.1 → chanAt t j = chanAt s j) ∧ t.mem = s.mem := by
  rw [ctrlArrives_taken hm0 hm, ground_next] at hi
  refine ⟨_, hi, ?_, rfl, fun j hj => ?_, hmem⟩
  · rw [chanAt_groundPart, takeCtrl, chanAt_modChan_same, chanAt_modNet, hchan]
  · rw [chanAt_groundPart, takeCtrl, chanAt_modChan_other _ _ hj, chanAt_modNet, hchan]

/-- A port that holds a message sends its next token, and advances the head behind the last one. -/
theorem channelRecv_delivers {site : Site} {port : Fin 4} {n : Nat} {s : State} {v : DataTok × Tab Nat}
    (hp : PortOn true site port n .opened s)
    (hv : (portSlots (tileAt s (siteNo site)) port.val)[Tab.get 0 (tileAt s (siteNo site)).b.portSent port.val]? = some v)
    (hcred : hasCredit (tileAt s (siteNo site)) (fld (cpReg (tileAt s (siteNo site)) port.val) 2 2) false = true) :
    let k := siteNo site
    let x := tileAt s k
    let y := chanAt s n
    let o := fld (cpReg x port.val) 2 2
    let vs := portSlots x port.val
    let m := Tab.get 0 x.b.portSent port.val
    ∃ t, exec (.channelRecv site port) s = .next t ∧
      (∃ z ∈ (hoopAt t (noHoop k)).flight, z.src = k ∧ z.port = o ∧ z.ctrl = false ∧ z.val = v.1) ∧
      dCred (tileAt t k) o + 1 = dCred x o ∧ t.mem = s.mem ∧
      (m + 1 < vs.length → portSlots (tileAt t k) port.val = vs ∧ Tab.get 0 (tileAt t k).b.portSent port.val = m + 1 ∧
        t.chans = s.chans) ∧
      (m + 1 = vs.length → portSlots (tileAt t k) port.val = [] ∧ Tab.get 0 (tileAt t k).b.portSent port.val = 0 ∧
        (chanAt t n).head = y.head + BitVec.ofNat 32 vs.length ∧ (chanAt t n).recv = satAdd 48 y.recv 1 ∧
        (hasSender y = true → t.net.ctrls = s.net.ctrls ++ [(true, n, y.head + BitVec.ofNat 32 vs.length)])) := by
  dsimp only
  have hlen := (List.getElem?_eq_some_iff.mp hv).1
  by_cases hmore : Tab.get 0 (tileAt s (siteNo site)).b.portSent port.val + 1 < (portSlots (tileAt s (siteNo site)) port.val).length
  · refine ⟨_, channelRecv_sends_next hp hv hcred hmore, ?_, ?_, ?_, fun _ => ⟨?_, ?_, ?_⟩, fun hlast => ?_⟩
    · rw [hoopAt_groundPart, hoopAt_setSent]
      exact sendTokVc_onWay _ _ _ _ _ _
    · rw [tileAt_groundPart, tileAt_setSent]
      exact dCred_sendTokVc v.1 v.2 hcred
    · rw [groundPart_mem, setSent_mem, sendTokVc_mem]
    · rw [tileAt_groundPart, tileAt_setSent, tileAt_sendTokVc]
      rfl
    · rw [tileAt_groundPart, tileAt_setSent, Tab.get_set_same]
    · rw [groundPart_chans, setSent_chans, sendTokVc_chans]
    · exact absurd hlast (by omega)
  · refine ⟨_, channelRecv_sends_last hp hv hcred (by omega), ?_, ?_, ?_, fun hlt => absurd hlt hmore,
      fun _ => ⟨?_, ?_, ?_, ?_, fun hsend => ?_⟩⟩
    · rw [hoopAt_groundPart, hoopAt_modChan, hoopAt_advanceHead, hoopAt_setSent, hoopAt_setPort]
      exact sendTokVc_onWay _ _ _ _ _ _
    · rw [tileAt_groundPart, tileAt_modChan, tileAt_advanceHead, tileAt_setSent]
      exact (dCred_setPort _ _ _ _ _).trans (dCred_sendTokVc v.1 v.2 hcred)
    · rw [groundPart_mem, modChan_mem, advanceHead_mem, setSent_mem, setPort_mem, sendTokVc_mem]
    · rw [tileAt_groundPart, tileAt_modChan, tileAt_advanceHead, tileAt_setSent]
      exact portSlots_setPort _ _ _ _
    · rw [tileAt_groundPart, tileAt_modChan, tileAt_advanceHead, tileAt_setSent, Tab.get_set_same]
    · rw [chanAt_groundPart, chanAt_modChan_same, chanAt_advanceHead, chanAt_setSent, chanAt_setPort, chanAt_sendTokVc]
    · rw [chanAt_groundPart, chanAt_modChan_same, chanAt_advanceHead, chanAt_setSent, chanAt_setPort, chanAt_sendTokVc]
    · rw [groundPart_net, modChan_net, advanceHead_ctrls, setSent_net, setPort_net, sendTokVc_ctrls, chanAt_setSent, chanAt_setPort,
          chanAt_sendTokVc]
      · rw [chanAt_setSent, chanAt_setPort, chanAt_sendTokVc]
        exact hsend

/-- Settles O39, from one equation for each command in each of its cases. -/
theorem channelsMoveMessages : Obligations.ChannelsMoveMessages := by
  unfold Obligations.ChannelsMoveMessages
  refine ⟨fun site port n st s hp => ⟨fun a hst hvs hhead => ?_, fun hst hvs => ?_,
      fun a hst hshared hpart hctrl hhead hfirst => ?_, fun v rest u hst hshared hvs hwhole hrecv hfit hroom hpush => ?_⟩,
    fun site port n s hp => ⟨fun v hv hcred => ?_, fun v ws hvs hne hv hkind hws => ?_, fun v hvs hne hv hkind hsend hend => ?_⟩,
    fun chan s => ⟨fun m0 m hm0 hm => ?_, fun m0 m hm0 hm => ?_, fun f hheld hf hst hrecv hmet hctrls => ?_,
      fun g hst hsend hrecv hg => ?_, fun hst hhalf => ?_⟩⟩
  · subst hst
    refine ⟨_, channelSend_discards_token hp hvs hhead, ?_, ?_, ?_⟩
    · rw [tileAt_groundPart, tileAt_modChan, qToks_windowPop]
    · rw [chanAt_groundPart, chanAt_modChan_same, chanAt_windowPop]
    · rw [groundPart_mem, modChan_mem, windowPop_mem]
  · subst hst
    refine ⟨_, channelSend_discards_held hp hvs, ?_, ?_, rfl⟩
    · rw [tileAt_groundPart, tileAt_modChan, portSlots_setPort]
    · rw [chanAt_groundPart, chanAt_modChan_same, chanAt_setPort]
  · subst hst
    refine ⟨_, channelSend_gathers hp hshared hpart hctrl hhead hfirst, ?_, ?_, ?_, ?_⟩
    · rw [tileAt_groundPart, portSlots_setPort, List.map_append]
      rfl
    · rw [tileAt_groundPart, qToks_setPort, qToks_windowPop]
    · rw [groundPart_chans, setPort_chans, windowPop_chans]
    · rw [groundPart_mem, setPort_mem, windowPop_mem]
  · subst hst
    have hvs' : portSlots (tileAt s (siteNo site)) port.val = v :: rest := hvs
    rw [hvs'] at hfit hroom hwhole hpush ⊢
    obtain ⟨t, hnext, hmem, hchan, hslots, tell, htell, hctrls, hheld⟩ :=
      channelSend_writes hp hshared hvs' hwhole hrecv hfit hroom hpush
    obtain ⟨hleaves, hwaits⟩ := leaves_or_waits htell hctrls hheld
    refine ⟨t, hnext, hmem, by rw [hchan], by rw [hchan], hslots, hleaves, hwaits, fun pa hspace ha => ?_⟩
    rw [hmem]
    refine pushSlots_tile hrecv hpush hspace ?_ ?_
    · rwa [List.length_cons, List.length_map]
    · rw [List.length_cons, List.length_map]
      exact ha
  · exact channelRecv_delivers hp hv hcred
  · obtain ⟨vc, hnext⟩ := channelRecv_reads hp hvs (oldestMsg_message hne hv hkind hws)
    refine ⟨_, hnext, ?_, rfl, rfl⟩
    rw [tileAt_groundPart, portSlots_setPort, List.map_map]
    exact List.map_id ws
  · have hskip : max 1 (msgPadLen v) ≠ 0 := by omega
    have hnext := channelRecv_skips hp hvs hskip (oldestMsg_pad hne hv hkind hend)
    refine ⟨_, hnext, ?_, ?_, ?_, ?_⟩
    · rw [chanAt_groundPart]
      split <;> simp only [chanAt_modChan_same, chanAt_advanceHead]
    · rw [groundPart_net, apply_ite State.net, modChan_net, ite_self, advanceHead_ctrls hsend]
    · rw [tileAt_groundPart, apply_ite (tileAt · (siteNo site)), tileAt_modChan, ite_self,
        tileAt_advanceHead]
      exact hvs
    · rw [groundPart_mem, apply_ite State.mem, modChan_mem, ite_self,
        advanceHead_mem]
  · obtain ⟨t, hnext, htook, hnet, hother, hmem⟩ :=
      ctrl_took (i := .channelNotify chan) (s := s) rfl (chanAt_sendTails s) (sendTails_mem s) hm0 hm
    exact ⟨t, hnext, htook, by rw [hnet], hother, hmem⟩
  · obtain ⟨t, hnext, htook, hnet, hother, hmem⟩ := ctrl_took (i := .headReturn chan) (s := s) rfl (fun _ => rfl) rfl hm0 hm
    exact ⟨t, hnext, htook, by rw [hnet], hother, hmem⟩
  · have hctrls' : (sendTails s).net.ctrls = [(false, chan.toNat, f.tail)] := by
      simp [sendTails_ctrls, hctrls, hheld, hmet, hrecv, hf]
    have hheld' : (sendTails s).net.held = [] := by simp [sendTails_held, hheld, hmet]
    obtain ⟨t, hnext, htook, hnet, hother, hmem⟩ := ctrl_took (i := .channelNotify chan) (s := s) (head := false) rfl
      (m0 := (false, chan.toNat, f.tail)) (m := (false, chan.toNat, f.tail)) (chanAt_sendTails s) (sendTails_mem s)
      (by simp [hctrls']) (by simp [hctrls'])
    refine ⟨t, hnext, ?_, ?_, ?_, hother, hmem⟩
    · simpa [hst] using htook
    · rw [hnet]
      exact hheld'
    · simp [hnet, hctrls', eraseFirst]
  · refine ⟨groundPart s (modChan chan.toNat (fun y => { y with ringLog2 := g, ringKnown := true }) s), ?_, ?_, rfl, rfl⟩
    · change execChanRingReport chan g s = _
      have hlow : ¬ 16 < g := by omega
      simp [execChanRingReport, hst, hsend, hrecv, hlow]
    · rw [chanAt_groundPart, chanAt_modChan_same]
  · refine ⟨groundPart s (raise 0x0007 (chanAt s chan.toNat).ctx (toLE 2 chan.toNat ++ toLE 2 (chanAt s chan.toNat).peerMod ++
      toLE 2 (chanAt s chan.toNat).peerChan) (forgetChan chan.toNat (modChan chan.toNat (fun y => { y with st := .faulted }) s))),
      ?_, ?_, ⟨?_, ?_⟩, ?_, ?_, ?_, ?_⟩
    · change execChanFaulted chan s = _
      simp [execChanFaulted, hst, hhalf]
    · simp [forgetChan]
    all_goals simp [forgetChan]

end Sys2Proof.Machine
end

section
/-! The Selvedge controller's services: loader and copy messages, copies, and units from other modules. -/

namespace Sys2Proof.Machine

/-! ### Messages of the services -/

/-- What taking a service message leaves. -/
theorem serviceTaken_keeps {α : Type} (g : State → α) (n k : Nat) (s : State) (hlinks : ∀ u, g (linksOff u) = g u)
    (hchan : ∀ f u, g (modChan n f u) = g u)
    (hctrls : ∀ (f : List (Bool × Nat × BitVec 32) → List (Bool × Nat × BitVec 32)) u,
      g (modNet (fun m => { m with ctrls := f m.ctrls }) u) = g u) : g (serviceTaken n k s) = g s :=
  (hchan _ _).trans (advanceHead_keeps g n 0 k s hlinks hchan hctrls)

section Taken
variable (n k : Nat) (s : State)

@[simp] theorem serviceTaken_mem : (serviceTaken n k s).mem = s.mem :=
  serviceTaken_keeps _ n k s (fun _ => rfl) (fun _ _ => rfl) fun _ _ => rfl
@[simp] theorem hoopAt_serviceTaken (j : Nat) : hoopAt (serviceTaken n k s) j = hoopAt s j :=
  serviceTaken_keeps (hoopAt · j) n k s (fun _ => rfl) (fun _ _ => rfl) fun _ _ => rfl
@[simp] theorem ownId_serviceTaken : ownId (serviceTaken n k s) = ownId s :=
  serviceTaken_keeps ownId n k s (fun _ => rfl) (fun _ _ => rfl) fun _ _ => rfl
@[simp] theorem serviceTaken_reqs : (serviceTaken n k s).net.reqs = s.net.reqs :=
  serviceTaken_keeps (·.net.reqs) n k s (fun _ => rfl) (fun _ _ => rfl) fun _ _ => rfl
@[simp] theorem serviceTaken_copies : (serviceTaken n k s).net.copies = s.net.copies :=
  serviceTaken_keeps (·.net.copies) n k s (fun _ => rfl) (fun _ _ => rfl) fun _ _ => rfl
@[simp] theorem serviceTaken_nextCopy : (serviceTaken n k s).net.nextCopy = s.net.nextCopy :=
  serviceTaken_keeps (·.net.nextCopy) n k s (fun _ => rfl) (fun _ _ => rfl) fun _ _ => rfl

theorem chanAt_serviceTaken : chanAt (serviceTaken n k s) n = { chanAt s n with
    head := (chanAt s n).head + BitVec.ofNat 32 k, recv := satAdd 48 (chanAt s n).recv 1 } := by
  rw [serviceTaken, chanAt_modChan_same, chanAt_advanceHead]

end Taken

/-- A request for a knot of this module joins those on their way. -/
theorem serviceKnot_here {c q op value kaddr pa : Nat} {s : State}
    (hown : (kaddrOf kaddr).remote = false ∨ (kaddrOf kaddr).mod = ownId s)
    (hat : knotAt s c q (kaddrOf kaddr) (op ≠ 2) = .at_ pa) : serviceKnot c q op value kaddr s =
      pushReq ⟨op, BitVec.ofNat 24 value, BitVec.ofNat 64 kaddr, c, pa, ownId s, none, []⟩ s := by
  unfold serviceKnot
  dsimp only
  rw [if_neg (by rcases hown with h | h <;> simp [h]), hat]

/-- A load of a resident pricking joins its Hoop's Bobbin port. -/
theorem loaderRequest_resident {chan : BitVec 12} {c skip : Nat} {vs : List DataTok} {s : State} {p : Pricking}
    (hmsg : serviceMsg chan.toNat s = some (c, .ok (skip, some vs))) (hlen : vs.length = 1)
    (hgood : (kaddrOf (BitVec.ofNat 64 (fld (vs.headD 0).toNat 192 64)).toNat).bad = false)
    (hres : residentOf s c (fld (vs.headD 0).toNat 164 16) = some p) :
    exec (.loaderRequest chan) s = .next (groundPart s (queueLoad p.hoop
      ⟨.loader (BitVec.ofNat 64 (fld (vs.headD 0).toNat 192 64)) (bitAt (vs.headD 0).toNat 181), c, fld (vs.headD 0).toNat 164 16, p.c0, p.c1,
        bitAt (vs.headD 0).toNat 180, false, false⟩ (serviceTaken chan.toNat (skip + 1) s))) := by
  change execLoaderRequest chan s = _
  simp only [execLoaderRequest, hmsg, hlen, ne_eq, not_true, if_false, hgood, Bool.false_eq_true, hres, ground_next]

/-- A load of an unknown motif is answered to its knot. -/
theorem loaderRequest_unknown {chan : BitVec 12} {c skip : Nat} {vs : List DataTok} {s : State}
    (hmsg : serviceMsg chan.toNat s = some (c, .ok (skip, some vs))) (hlen : vs.length = 1)
    (hgood : (kaddrOf (BitVec.ofNat 64 (fld (vs.headD 0).toNat 192 64)).toNat).bad = false)
    (hres : residentOf s c (fld (vs.headD 0).toNat 164 16) = none) :
    exec (.loaderRequest chan) s = .next (groundPart s (loaderDone c (fld (vs.headD 0).toNat 164 16) 0x05
      (BitVec.ofNat 64 (fld (vs.headD 0).toNat 192 64)) (serviceTaken chan.toNat (skip + 1) s))) := by
  change execLoaderRequest chan s = _
  simp only [execLoaderRequest, hmsg, hlen, ne_eq, not_true, if_false, hgood, Bool.false_eq_true, hres, ground_next]

/-! ### Copies that begin and end -/

theorem updAt_length {α : Type} (f : α → α) (i : Nat) (l : List α) : (updAt f i l).length = l.length := by
  induction l generalizing i with
  | nil => cases i <;> rfl
  | cons x l ih => cases i <;> simp [updAt, ih]

/-- Each element of a list stands in the changed list as it was, or changed. -/
theorem mem_updAt {α : Type} {f : α → α} {i : Nat} {l : List α} {x : α} (h : x ∈ l) : x ∈ updAt f i l ∨ f x ∈ updAt f i l := by
  induction l generalizing i with
  | nil => cases h
  | cons y l ih =>
    cases i with
    | zero => rcases List.mem_cons.mp h with rfl | h <;> simp [updAt, *]
    | succ i =>
      rcases List.mem_cons.mp h with rfl | h
      · simp [updAt]
      · rcases ih (i := i) h with h | h <;> simp [updAt, h]

theorem map_updAt {α β : Type} {f : α → α} {g : α → β} (h : ∀ x, g (f x) = g x) (i : Nat) (l : List α) :
    (updAt f i l).map g = l.map g := by
  induction l generalizing i with
  | nil => cases i <;> rfl
  | cons x l ih => cases i <;> simp [updAt, ih, h]

/-- A copy that its engine runs. -/
def runsCopy (x : Copy) : Copy := { x with running := true }

/-- At most one copy begins. -/
theorem startCopies_cases (p : Nat) (s : State) : startCopies p s = s ∨
    ∃ i, startCopies p s = modNet (fun n => { n with copies := updAt runsCopy i n.copies }) s := by
  unfold startCopies
  split
  · exact .inl rfl
  · split
    · exact .inl rfl
    · exact .inr ⟨_, rfl⟩

/-- What copies that begin leave. -/
theorem startCopies_keeps {α : Type} (g : State → α) (p : Nat) (s : State)
    (h : ∀ (f : List Copy → List Copy) u, g (modNet (fun n => { n with copies := f n.copies }) u) = g u) :
    g (startCopies p s) = g s := by
  rcases startCopies_cases p s with e | ⟨i, e⟩ <;> rw [e]
  exact h (updAt runsCopy i) s

theorem startCopies_length (p : Nat) (s : State) : (startCopies p s).net.copies.length = s.net.copies.length := by
  rcases startCopies_cases p s with e | ⟨i, e⟩ <;> rw [e]
  exact updAt_length _ _ _

theorem startCopies_ids (p : Nat) (s : State) : (startCopies p s).net.copies.map (·.id) = s.net.copies.map (·.id) := by
  rcases startCopies_cases p s with e | ⟨i, e⟩ <;> rw [e]
  exact map_updAt (f := runsCopy) (fun _ => rfl) _ _

/-- A copy stands among the copies, begun or not. -/
theorem mem_startCopies {p : Nat} {s : State} {x : Copy} (h : x ∈ s.net.copies) :
    ∃ y ∈ (startCopies p s).net.copies, runsCopy y = runsCopy x := by
  rcases startCopies_cases p s with e | ⟨i, e⟩ <;> rw [e]
  · exact ⟨x, h, rfl⟩
  · rcases mem_updAt (f := runsCopy) (i := i) h with h | h
    · exact ⟨x, h, rfl⟩
    · exact ⟨_, h, rfl⟩

/-- The copy that a message of two slots asks for. -/
def askedCopy (c : Nat) (a b port id : Nat) (vc : Tab Nat) : Copy :=
  { ctx := c, src := BitVec.ofNat 64 (fld a 64 64), len := fld a 128 32, dest := BitVec.ofNat 64 (fld b 0 64)
    done := if bitAt b 192 then some (BitVec.ofNat 64 (fld b 64 64)) else none
    arv := if bitAt b 193 then some (BitVec.ofNat 64 (fld b 128 64)) else none
    port := port, at_ := 0, unacked := 0, id := id, running := false, vc := vc }

/-- A copy message is handed to an engine. -/
theorem copyRequest_taken {chan : BitVec 12} {c skip : Nat} {vs : List DataTok} {s : State}
    (hmsg : serviceMsg chan.toNat s = some (c, .ok (skip, some vs))) (hlen : vs.length = 2)
    (hgood : badCopy s c (vs.headD 0).toNat (vs.getD 1 0).toNat = false) :
    ∃ port vc, exec (.copyRequest chan) s = .next (groundPart s (startCopies port (modNet (fun m => { m with
      copies := m.copies ++ [askedCopy c (vs.headD 0).toNat (vs.getD 1 0).toNat port s.net.nextCopy vc], nextCopy := m.nextCopy + 1 })
      (serviceTaken chan.toNat (skip + 2) s)))) := by
  change ∃ port vc, execCopyRequest chan s = _
  simp only [execCopyRequest, hmsg, hlen, ne_eq, not_true, if_false, hgood, Bool.false_eq_true]
  exact ⟨_, _, rfl⟩

/-- The copy with a number ends; another may begin. -/
theorem endCopy_eq {id : Nat} {s : State} {x : Copy} (h : s.net.copies.find? (fun y => y.id = id) = some x) :
    endCopy id s = startCopies x.port (modNet (fun n => { n with copies := eraseFirst (fun y => y.id = id) n.copies }) s) := by
  rw [endCopy, h]

theorem endCopy_keeps {α : Type} (g : State → α) (id : Nat) (s : State)
    (h : ∀ (f : List Copy → List Copy) u, g (modNet (fun n => { n with copies := f n.copies }) u) = g u) : g (endCopy id s) = g s := by
  unfold endCopy
  split
  · rfl
  · exact (startCopies_keeps g _ _ h).trans (h (eraseFirst _) s)

/-! ### Units -/

/-- Without the hazard detector an access is made as it stands. -/
theorem guarded_quiet {c x epoch pa n : Nat} {it : Item} {known : Tab Nat} {w a : Bool} {f : State → State} {s : State}
    (h : s.dev.debug = false) : guarded c it x known epoch w a pa n f s = f s := by
  simp [guarded, hazardOf, tagAccess, h]

theorem copyTouch_quiet {x : Copy} {ka : KAddr} {w : Bool} {pa n : Nat} {f : State → State} {s : State}
    (h : s.dev.debug = false) : copyTouch x ka w pa n f s = f s := by
  unfold copyTouch
  split
  · rfl
  · exact guarded_quiet h

/-- Bytes that do not cross a block of an aperture move as one piece. -/
theorem unitPieces_single {a n : Nat} (h : a % 16384 + n ≤ 16384) : unitPieces a n = [(0, n)] := by
  have hmin : min n (16384 - a % 16384) = n := by omega
  simp [unitPieces, hmin]

theorem peek_length (s : State) (pa n : Nat) : (peek s pa n).length = n := by
  unfold peek
  split
  · simp
  · exact bytesAt_length _ _ _

/-- A unit read in one piece. -/
theorem unitRead_single {s : State} {c q off n pa : Nat} {ka : KAddr} (hin : (ka.off + off) % 16384 + n ≤ 16384)
    (hat : (match (if ka.hbm then apertureOf s c (ka.off + off) else none) with
      | some ap => hbmAddr s c q ap.at_ n false
      | none => copyAt s c q ka off n false) = .at_ pa) (hue : ueAt s pa n = none) :
    unitRead s c q ka off n = .ok (peek s pa n) := by
  simp only [unitRead, unitPieces_single hin, List.foldl_cons, List.foldl_nil, Nat.add_zero]
  cases hap : (if ka.hbm then apertureOf s c (ka.off + off) else none) with
  | none =>
    rw [hap] at hat
    dsimp only at hat ⊢
    simp only [hat, hue, List.nil_append]
  | some ap =>
    rw [hap] at hat
    dsimp only at hat ⊢
    simp only [hat, hue, List.nil_append]

/-- A unit written in one piece outside the apertures. -/
theorem unitWrite_single {s : State} {c q off pa : Nat} {ka : KAddr} {bs : List Byte}
    (hin : (ka.off + off) % 16384 + bs.length ≤ 16384) (hplain : ka.hbm = true → apertureOf s c (ka.off + off) = none)
    (hat : copyAt s c q ka off bs.length true = .at_ pa) : unitWrite c q ka off bs s = .ok (poke s pa bs) := by
  have hnone : (if ka.hbm then apertureOf s c (ka.off + off) else none) = none := by
    split
    · next h => exact hplain h
    · rfl
  simp only [unitWrite, unitPieces_single hin, List.foldl_cons, List.foldl_nil, Nat.add_zero, List.drop_zero, List.take_length,
    pieceWrite, hnone, hat]

/-- A copy that has moved n bytes more, of which another module has still to acknowledge `away`. -/
def movedCopy (id n away : Nat) (y : Copy) : Copy := if y.id = id then { y with at_ := y.at_ + n, unacked := y.unacked + away } else y

section Unit
variable {n : Nat} {x : Copy} {s : State} (hx : s.net.copies[n]? = some x) (hrun : x.running = true) (hlive : copyLive s x = true)
  (hquiet : s.dev.debug = false)

include hx hrun hlive in
/-- A running copy whose Hoops are on takes its next step. -/
theorem copyWrite_step (hleft : x.at_ < x.len) (hawake : copyAsleep s x = []) :
    exec (.copyWrite n) s = .next (groundPart s (copyUnitStep x s)) := by
  change execCopyWrite n s = _
  have hmore : ¬ x.len ≤ x.at_ := by omega
  simp [execCopyWrite, hx, hrun, hlive, hmore, hawake, orWake]

include hquiet in
/-- A unit that is read leaves for another module. -/
theorem copyUnitStep_away {bs : List Byte}
    (hread : unitRead s x.ctx (portQuarter x.port) (kaddrOf x.src.toNat) x.at_ (min 256 (x.len - x.at_)) = .ok bs)
    (hremote : (kaddrOf x.dest.toNat).remote = true) (hmod : (kaddrOf x.dest.toNat).mod ≠ ownId s) :
    copyUnitStep x s = modNet (fun m => { m with copies := m.copies.map (movedCopy x.id (min 256 (x.len - x.at_)) 1) })
      (sendOut x.ctx (portQuarter x.port) (kaddrOf x.dest.toNat).mod
        (.copyUnit (Fin.ofNat 16 x.ctx) (BitVec.ofNat 64 (x.dest.toNat + x.at_ / 8)) bs s.dev.moduleId x.id) s) := by
  have haway : ((kaddrOf x.dest.toNat).remote && decide ((kaddrOf x.dest.toNat).mod ≠ ownId s)) = true := by simp [hremote, hmod]
  unfold copyUnitStep
  simp only [hread]
  cases copyAt s x.ctx (portQuarter x.port) (kaddrOf x.src.toNat) x.at_ (min 256 (x.len - x.at_)) false <;>
    simp only [copyTouch_quiet hquiet, haway, if_true] <;> rfl

include hquiet in
/-- A unit that is read is written on this module. -/
theorem copyUnitStep_here {bs : List Byte} {u : State}
    (hread : unitRead s x.ctx (portQuarter x.port) (kaddrOf x.src.toNat) x.at_ (min 256 (x.len - x.at_)) = .ok bs)
    (hown : (kaddrOf x.dest.toNat).remote = false ∨ (kaddrOf x.dest.toNat).mod = ownId s)
    (hwrite : unitWrite x.ctx (portQuarter x.port) (kaddrOf x.dest.toNat) x.at_ bs s = .ok u) :
    copyUnitStep x s = modNet (fun m => { m with copies := m.copies.map (movedCopy x.id (min 256 (x.len - x.at_)) 0) }) u := by
  have hhere : ((kaddrOf x.dest.toNat).remote && decide ((kaddrOf x.dest.toNat).mod ≠ ownId s)) = false := by
    rcases hown with h | h <;> simp [h]
  unfold copyUnitStep
  simp only [hread]
  cases copyAt s x.ctx (portQuarter x.port) (kaddrOf x.src.toNat) x.at_ (min 256 (x.len - x.at_)) false <;>
    simp only [copyTouch_quiet hquiet, hhere, Bool.false_eq_true, if_false] <;>
    cases copyAt s x.ctx (portQuarter x.port) (kaddrOf x.dest.toNat) x.at_ (min 256 (x.len - x.at_)) true <;>
    simp only [hwrite] <;> rfl

include hx hrun hlive in
/-- A copy whose units are all written ends, and asks for its knots. -/
theorem copyDone_ends (hall : x.len ≤ x.at_) (hacked : x.unacked = 0) :
    exec (.copyDone n) s = .next (groundPart s (x.arv.elim id (copyKnot x 3) (x.done.elim id (copyKnot x 0) (endCopy x.id s)))) := by
  change execCopyDone n s = _
  have hmore : ¬ x.at_ < x.len := by omega
  simp only [execCopyDone, hx, hlive, hrun, hmore, hacked]
  cases x.done <;> cases x.arv <;> simp

end Unit

/-- The request of a copy for a knot of this module. -/
theorem copyKnot_here {x : Copy} {op pa : Nat} {a : BitVec 64} {s : State} (hquiet : s.dev.debug = false) (hop : op ≠ 2)
    (hown : (kaddrOf a.toNat).remote = false ∨ (kaddrOf a.toNat).mod = ownId s)
    (hat : knotAt s x.ctx (portQuarter x.port) (kaddrOf a.toNat) true = .at_ pa) : copyKnot x op a s =
      pushReq ⟨op, BitVec.ofNat 24 0, BitVec.ofNat 64 a.toNat, x.ctx, pa, ownId s, none, []⟩ s := by
  unfold copyKnot
  rw [serviceKnot_here hown (by simpa [hop] using hat)]
  simp [hquiet]

/-! ### Units from other modules -/

/-- The first unit of a module is the one that arrives. -/
theorem unitNext_first {s : State} {n : Nat} {u : CopyUnit} (hu : s.net.units[n]? = some u)
    (hfirst : ∀ v ∈ s.net.units.take n, v.fromMod ≠ u.fromMod) : unitNext s n = some (n, u) := by
  obtain ⟨hn, hget⟩ := List.getElem?_eq_some_iff.mp hu
  have hsplit : s.net.units = s.net.units.take n ++ u :: s.net.units.drop (n + 1) := by
    rw [← hget, ← List.drop_eq_getElem_cons hn, List.take_append_drop]
  have hlen : (s.net.units.take n).length = n := List.length_take_of_le hn.le
  have hbefore : (s.net.units.take n).zipIdx.find? (fun v =>
      decide (v.1.fromMod = u.fromMod) && decide (unitPort s v.1 = unitPort s u)) = none := by
    rw [List.find?_eq_none]
    intro v hv
    have := hfirst v.1 (List.fst_mem_of_mem_zipIdx hv)
    simp [this]
  have hfind : s.net.units.zipIdx.find? (fun v =>
      decide (v.1.fromMod = u.fromMod) && decide (unitPort s v.1 = unitPort s u)) = some (u, n) := by
    rw [hsplit, List.zipIdx_append, List.find?_append, hbefore, hlen]
    simp
  rw [unitNext, hu, Option.bind_some, hfind]
  rfl

/-- A unit that comes in is written, and acknowledged: in a state v with the places of s. -/
theorem arrivedUnit_written {u : CopyUnit} {s v : State} {pb : Nat} (hsame : SamePlaces s v) (hquiet : v.dev.debug = false)
    (hbad : (kaddrOf u.dest.toNat).bad = false)
    (hsync : (if (kaddrOf u.dest.toNat).hbm then syncHbmHit s u.ctx (kaddrOf u.dest.toNat).off u.bytes.length
      else syncAsHit s u.ctx (kaddrOf u.dest.toNat).hoop (kaddrOf u.dest.toNat).off u.bytes.length) = false)
    (hin : (kaddrOf u.dest.toNat).off % 16384 + u.bytes.length ≤ 16384)
    (hplain : (kaddrOf u.dest.toNat).hbm = true → apertureOf s u.ctx (kaddrOf u.dest.toNat).off = none)
    (hpb : copyAt s u.ctx u.quarter (kaddrOf u.dest.toNat) 0 u.bytes.length true = .at_ pb) :
    arrivedUnit u v = sendOut u.ctx u.quarter u.fromMod (.copyAck u.copyId (BitVec.ofNat 8 0)) (poke v pb u.bytes) := by
  have hwrite : unitWrite u.ctx u.quarter (kaddrOf u.dest.toNat) 0 u.bytes v = .ok (poke v pb u.bytes) :=
    unitWrite_single hin (fun h => by rw [apertureOf_same hsame]; exact hplain h) (by rw [copyAt_same hsame]; exact hpb)
  unfold arrivedUnit
  simp only [hbad, syncHbmHit_same hsame, syncAsHit_same hsame, hsync, Bool.or_self, Bool.false_eq_true, if_false, farTouch, hquiet,
    Bool.not_false, Bool.or_true, if_true, hwrite]

/-- An intact unit is written where it goes. -/
theorem copyWrite_unit {n : Nat} {u : CopyUnit} {s : State} (hlen : s.net.copies.length ≤ n) (hawake : unitAsleep s u = [])
    (hu : s.net.units[n - s.net.copies.length]? = some u)
    (hfirst : ∀ v ∈ s.net.units.take (n - s.net.copies.length), v.fromMod ≠ u.fromMod) :
    exec (.copyWrite n) s = .next (groundPart s
      (arrivedUnit u (modNet (fun m => { m with units := m.units.eraseIdx (n - s.net.copies.length) }) s))) := by
  change execCopyWrite n s = _
  have hnone : s.net.copies[n]? = none := List.getElem?_eq_none hlen
  simp [execCopyWrite, hnone, unitNext_first hu hfirst, hawake, orWake]

end Sys2Proof.Machine
end

section
/-! The cordonnet: a transfer reaches every tap, and a tap serves the entry that matches it. -/

namespace Sys2Proof.Machine

/-! ### Folds over the taps -/

theorem foldl_stays {α β : Type} {f : β → α → β} {b : β} {l : List α} (h : ∀ a ∈ l, f b a = b) : l.foldl f b = b := by
  induction l with
  | nil => rfl
  | cons a l ih => rw [List.foldl_cons, h a List.mem_cons_self, ih fun x hx => h x (List.mem_cons_of_mem _ hx)]

/-- A fold of which one element makes a change, after which none does. -/
theorem foldl_once {α β : Type} [DecidableEq α] {f : β → α → β} {b c : β} {l : List α} {k : α} (hk : k ∈ l) (hchange : f b k = c)
    (hbefore : ∀ a ∈ l, a ≠ k → f b a = b) (hafter : ∀ a ∈ l, f c a = c) : l.foldl f b = c := by
  induction l with
  | nil => cases hk
  | cons a l ih =>
    rw [List.foldl_cons]
    by_cases ha : a = k
    · rw [ha, hchange]
      exact foldl_stays fun x hx => hafter x (List.mem_cons_of_mem _ hx)
    · rw [hbefore a List.mem_cons_self ha]
      exact ih ((List.mem_cons.mp hk).resolve_left (Ne.symm ha)) (fun x hx => hbefore x (List.mem_cons_of_mem _ hx))
        fun x hx => hafter x (List.mem_cons_of_mem _ hx)

/-! ### Taps that hold nothing -/

theorem drainTap_empty {h n : Nat} {s : State} (hbuf : (hoopAt s h).tapBuf = []) : drainTap h n s = s := by
  cases n with
  | zero => rfl
  | succ n => simp [drainTap, hbuf]

theorem drainTaps_empty {s : State} (hbuf : ∀ h, h < 8 → (hoopAt s h).tapBuf = []) : drainTaps s = s :=
  foldl_stays fun h hh => drainTap_empty (hbuf h (List.mem_range.mp hh))

theorem fullTaps_empty {s : State} (hbuf : ∀ h, h < 8 → (hoopAt s h).tapBuf = []) : fullTaps s = [] := by
  rw [fullTaps, List.filter_eq_nil_iff]
  intro h hh
  simp [hbuf h (List.mem_range.mp hh)]

/-! ### A transfer reaches the taps -/

/-- The state in which a transfer has left its sender. -/
def xferTaken (f : Xfer) (s : State) : State := modNet (fun m => { m with
  xfers := eraseFirst (fun g => g.hoop = f.hoop) m.xfers, lastTap := if f.hoop < 8 then f.hoop else m.lastTap }) s

/-- A transfer reaches every tap. -/
def tapsTake (f : Xfer) (s : State) : State := (List.range 8).foldl (fun s h => tapTake f h s) s

/-- A tap that a transfer does not match, or that may not take it, discards it. -/
def dropped (x : Hoop) : Hoop := { x with tapDrop := satAdd 48 x.tapDrop 1 }

theorem cordonnet_moves {n : Nat} {f : Xfer} {s : State} (hn : n < s.net.xfers.length) (hturn : busTurn s = some f)
    (hbuf : ∀ h, h < 8 → (hoopAt s h).tapBuf = []) :
    exec (.cordonnetTransfer n) s = .next (groundPart s (drainTaps (tapsTake f (xferTaken f s)))) := by
  change execCordonnetTransfer n s = _
  simp only [execCordonnetTransfer, drainTaps_empty hbuf, List.getElem?_eq_getElem hn, hturn, fullTaps_empty hbuf, List.isEmpty_nil,
    Bool.not_true, Bool.false_eq_true, if_false]
  rfl

theorem tapTake_other {f : Xfer} {h j : Nat} (s : State) (hj : j ≠ h) : hoopAt (tapTake f h s) j = hoopAt s j := by
  unfold tapTake
  dsimp only
  split <;> exact hoopAt_modHoop_other _ _ hj

/-- What a transfer does to a tap depends on its Hoop and the context's state only. -/
theorem tapTake_congr {f : Xfer} {h : Nat} {s u : State} (hhoop : hoopAt u h = hoopAt s h) (hctxs : u.ctxs = s.ctxs) :
    hoopAt (tapTake f h u) h = hoopAt (tapTake f h s) h := by
  have hst : ctxSt u f.ctx = ctxSt s f.ctx := by rw [ctxSt, ctxAt, hctxs]; rfl
  have hmatch : matching u h f.ctx f.tag = matching s h f.ctx f.tag := by
    unfold matching subAt
    rw [hhoop]
  unfold tapTake
  simp only [hst, hmatch, hhoop]
  split <;> simp [hhoop]

theorem tapTake_ctxs (f : Xfer) (h : Nat) (s : State) : (tapTake f h s).ctxs = s.ctxs := by
  unfold tapTake; dsimp only; split <;> rfl

theorem hoopAt_tapTakes {f : Xfer} {l : List Nat} (hl : l.Nodup) (s : State) (j : Nat) :
    hoopAt (l.foldl (fun s h => tapTake f h s) s) j = if j ∈ l then hoopAt (tapTake f j s) j else hoopAt s j := by
  induction l generalizing s with
  | nil => rfl
  | cons h l ih =>
    obtain ⟨hnot, hl⟩ := List.nodup_cons.mp hl
    rw [List.foldl_cons, ih hl]
    by_cases hj : j = h
    · rw [hj, if_neg hnot, if_pos List.mem_cons_self]
    · have hmem : j ∈ h :: l ↔ j ∈ l := by simp [hj]
      simp only [hmem, tapTake_other s hj, tapTake_congr (tapTake_other s hj) (tapTake_ctxs f h s)]

/-- Each tap after a transfer has reached it. -/
theorem hoopAt_tapsTake {f : Xfer} {s : State} {j : Nat} (hj : j < 8) :
    hoopAt (tapsTake f (xferTaken f s)) j = hoopAt (tapTake f j s) j := by
  rw [tapsTake, hoopAt_tapTakes List.nodup_range, if_pos (List.mem_range.mpr hj)]
  exact tapTake_congr rfl rfl

/-- What a transfer leaves as it was when it reaches the taps. -/
theorem tapsTake_keeps {α : Type} (g : State → α) (f : Xfer) (s : State) (h : ∀ h f u, g (modHoop h f u) = g u) :
    g (tapsTake f s) = g s :=
  foldl_keeps g (fun s h => tapTake f h s) (fun s k => by unfold tapTake; dsimp only; split <;> exact h _ _ _) _ _

/-- A tap without a matching entry counts a drop. -/
theorem tapTake_unmatched {f : Xfer} {h : Nat} {s : State} (hnone : matching s h f.ctx f.tag = []) :
    hoopAt (tapTake f h s) h = dropped (hoopAt s h) := by
  unfold tapTake
  rw [hnone]
  simp [dropped]

/-- A tap with a matching entry holds the transfer for it. -/
theorem tapTake_matched {f : Xfer} {h i : Nat} {s : State} (hone : matching s h f.ctx f.tag = [i]) (hst : ctxSt s f.ctx ≠ .faulted)
    (hon : (hoopAt s h).power = .on) : hoopAt (tapTake f h s) h = { hoopAt s h with
      tapRx := satAdd 48 (hoopAt s h).tapRx 1, tapBuf := (hoopAt s h).tapBuf ++ [⟨f.ctx, f.tag, f.data, [i], 0⟩] } := by
  unfold tapTake
  rw [hone]
  simp [hst, hon]

/-- An entry that matches is enabled and is of the transfer's context. -/
theorem matching_entry {s : State} {h c tag i : Nat} (hone : matching s h c tag = [i]) :
    subEn (subAt s h i) = true ∧ subCtx (subAt s h i) = c := by
  have hi : i ∈ matching s h c tag := by rw [hone]; exact List.mem_singleton_self i
  obtain ⟨-, hcond⟩ := List.mem_filter.mp hi
  simp only [Bool.and_eq_true, decide_eq_true_eq] at hcond
  exact ⟨hcond.1.1, hcond.1.2⟩

/-! ### A tap serves its transfer -/

/-- The transfers that a tap holds. -/
def setTap (h : Nat) (b : List TapXfer) : State → State := modHoop h fun x => { x with tapBuf := b }

theorem drainTap_done {h n : Nat} {g : TapXfer} {rest : List TapXfer} {s : State} (hbuf : (hoopAt s h).tapBuf = g :: rest)
    (hdone : g.entries = []) : drainTap h (n + 1) s = drainTap h n (setTap h rest s) := by
  simp only [drainTap, hbuf, hdone]
  rfl

theorem drainTap_tile {h n i : Nat} {is : List Nat} {g : TapXfer} {rest : List TapXfer} {s : State}
    (hbuf : (hoopAt s h).tapBuf = g :: rest) (hentry : g.entries = i :: is) (hen : subEn (subAt s h i) = true)
    (htile : subTile (subAt s h i) = true) : drainTap h (n + 1) s =
      drainTap h n (setTap h ({ g with entries := is, sent := 0 } :: rest) (subWrite h i g s)) := by
  simp only [drainTap, hbuf, hentry, hen, htile, Bool.not_true, Bool.false_eq_true, if_false, if_true]
  rfl

/-- What a tap holds of a transfer once it has sent a token of it. -/
def sentOne (g : TapXfer) (is : List Nat) : TapXfer :=
  if g.sent = 3 then { g with entries := is, sent := 0 } else { g with sent := g.sent + 1 }

/-- The token of a transfer that goes next. -/
def xferTok (g : TapXfer) : DataTok := tokOf ((g.data.drop (64 * g.sent)).take 64)

theorem drainTap_token {h n i : Nat} {is : List Nat} {g : TapXfer} {rest : List TapXfer} {s : State}
    (hbuf : (hoopAt s h).tapBuf = g :: rest) (hentry : g.entries = i :: is) (hen : subEn (subAt s h i) = true)
    (htile : subTile (subAt s h i) = false)
    (hcred : hasCredit (tileAt s (bTileNo h (subBtile (subAt s h i)))) (subBout (subAt s h i)) false = true) :
    drainTap h (n + 1) s = drainTap h n (setTap h (sentOne g is :: rest)
      (sendTokVc (bTileNo h (subBtile (subAt s h i))) (subBout (subAt s h i)) false (xferTok g) [] s)) := by
  simp only [drainTap, hbuf, hentry, hen, htile, hcred, Bool.not_true, Bool.false_eq_true, if_false, sentOne]
  rfl

/-- A tap's drain with the fuel that the cordonnet gives it. -/
def drainFull (s : State) (h : Nat) : State :=
  drainTap h (65 * (((hoopAt s h).tapBuf.map fun f => 4 * f.entries.length + 1).sum + 1)) s

/-- Where one tap alone holds a transfer, and has served it, every tap has. -/
theorem drainTaps_one {h : Nat} {u v : State} (hh : h < 8) (hserved : drainFull u h = v)
    (hothers : ∀ j, j < 8 → j ≠ h → (hoopAt u j).tapBuf = []) (hempty : ∀ j, j < 8 → (hoopAt v j).tapBuf = []) : drainTaps u = v :=
  foldl_once (f := drainFull) (List.mem_range.mpr hh) hserved
    (fun j hj hne => drainTap_empty (hothers j (List.mem_range.mp hj) hne))
    fun j hj => drainTap_empty (hempty j (List.mem_range.mp hj))

theorem drainFull_one {h : Nat} {u : State} {g : TapXfer} {i : Nat} (hbuf : (hoopAt u h).tapBuf = [g]) (hentry : g.entries = [i]) :
    drainFull u h = drainTap h 390 u := by
  simp [drainFull, hbuf, hentry]

@[simp] theorem setTap_mem (h : Nat) (b : List TapXfer) (s : State) : (setTap h b s).mem = s.mem := rfl
@[simp] theorem setTap_net (h : Nat) (b : List TapXfer) (s : State) : (setTap h b s).net = s.net := rfl
@[simp] theorem tileAt_setTap (h : Nat) (b : List TapXfer) (s : State) (j : Nat) : tileAt (setTap h b s) j = tileAt s j := rfl
theorem hoopAt_setTap_same (h : Nat) (b : List TapXfer) (s : State) : hoopAt (setTap h b s) h = { hoopAt s h with tapBuf := b } :=
  hoopAt_modHoop_same _ _ _
theorem hoopAt_setTap_other {h j : Nat} (b : List TapXfer) (s : State) (hj : j ≠ h) : hoopAt (setTap h b s) j = hoopAt s j :=
  hoopAt_modHoop_other _ _ hj
theorem subAt_setTap (h i : Nat) (b : List TapXfer) (s : State) : subAt (setTap h b s) h i = subAt s h i := by
  unfold subAt
  rw [hoopAt_setTap_same]

/-! ### An entry that names an A tile -/

/-- What a service's knot operation leaves: all but the requests, messages to other modules, and contexts that fault. -/
theorem serviceKnot_keeps {α : Type} (g : State → α) (c q op value kaddr : Nat) (s : State) (hlinks : ∀ u, g (linksOff u) = g u)
    (hreqs : ∀ r u, g (pushReq r u) = g u) (hctx : ∀ c f u, g (modCtx c f u) = g u) : g (serviceKnot c q op value kaddr s) = g s := by
  unfold serviceKnot
  dsimp only
  split
  · exact sendOut_keeps g _ _ _ _ _ hlinks
  · split
    · exact hreqs _ _
    · split
      · unfold faultWith latch
        exact hctx _ _ _
      · rfl

/-- The count of transfers that an entry has taken. -/
def subNext (h i k : Nat) : State → State := modHoop h fun x => { x with subCnt := Tab.set 0 x.subCnt i (k + 1) }

/-- The knot operation that ends a round of an entry's transfers. -/
def subKnot (h e j : Nat) (s : State) : State :=
  if subArv e && j + 1 = subLen e then serviceKnot (subCtx e) (quarterOf h) 3 0 (fld e 64 64) s else s

theorem subKnot_keeps {α : Type} (g : State → α) (h e j : Nat) (s : State) (hlinks : ∀ u, g (linksOff u) = g u)
    (hreqs : ∀ r u, g (pushReq r u) = g u) (hctx : ∀ c f u, g (modCtx c f u) = g u) : g (subKnot h e j s) = g s := by
  unfold subKnot
  split
  · exact serviceKnot_keeps g _ _ _ _ _ _ hlinks hreqs hctx
  · rfl

/-- A transfer of an ATILE entry in range is written into its A tile. -/
theorem subWrite_writes {h i p0 pa : Nat} {f : TapXfer} {s : State} (hquiet : s.dev.debug = false)
    (hrange : asAddr s (subCtx (subAt s h i)) (tileOfIndex .A h (subAtile (subAt s h i))) (64 * subBase (subAt s h i))
      (256 * subLen (subAt s h i)) = some p0)
    (hat : asAddr s (subCtx (subAt s h i)) (tileOfIndex .A h (subAtile (subAt s h i))) (64 * subBase (subAt s h i) +
      256 * (Tab.get 0 (hoopAt s h).subCnt i % max 1 (subLen (subAt s h i)))) 256 = some pa)
    (hsync : syncAsHit s (subCtx (subAt s h i)) h (64 * subBase (subAt s h i) +
      256 * (Tab.get 0 (hoopAt s h).subCnt i % max 1 (subLen (subAt s h i)))) 256 = false)
    (hknot : subArv (subAt s h i) = true → Tab.get 0 (hoopAt s h).subCnt i % max 1 (subLen (subAt s h i)) + 1 = subLen (subAt s h i) →
      (kaddrOf (fld (subAt s h i) 64 64)).bad = false) :
    subWrite h i f s = subKnot h (subAt s h i) (Tab.get 0 (hoopAt s h).subCnt i % max 1 (subLen (subAt s h i)))
      (subNext h i (Tab.get 0 (hoopAt s h).subCnt i) (poke s pa f.data)) := by
  have hrange' : (if Tab.get 0 (hoopAt s h).subCnt i = 0 then asAddr s (subCtx (subAt s h i)) (tileOfIndex .A h (subAtile (subAt s h i)))
      (64 * subBase (subAt s h i)) (256 * subLen (subAt s h i)) else some 0) =
      some (if Tab.get 0 (hoopAt s h).subCnt i = 0 then p0 else 0) := by
    split <;> simp [hrange]
  unfold subWrite
  dsimp only
  rw [Nat.mul_comm (subBase (subAt s h i)) 64]
  simp only [hrange', hat, hsync, guarded_quiet hquiet, Bool.false_eq_true, if_false]
  unfold subKnot
  split
  · next hlast =>
    have hlast' := hlast
    simp only [Bool.and_eq_true, decide_eq_true_eq] at hlast'
    rw [if_neg (by simp [hknot hlast'.1 hlast'.2])]
    rfl
  · rfl

/-- A tap that holds one transfer for one entry of an A tile has served it after three steps. -/
theorem drainFull_tile {h i : Nat} {g : TapXfer} {u w : State} (hbuf : (hoopAt u h).tapBuf = [g]) (hentry : g.entries = [i])
    (hen : subEn (subAt u h i) = true) (htile : subTile (subAt u h i) = true) (hwrite : subWrite h i g u = w) :
    drainFull u h = setTap h [] (setTap h [{ g with entries := [], sent := 0 }] w) := by
  rw [drainFull_one hbuf hentry, drainTap_tile hbuf hentry hen htile, hwrite]
  rw [drainTap_done (g := { g with entries := [], sent := 0 }) (rest := []) (by rw [hoopAt_setTap_same]) rfl]
  exact drainTap_empty (by rw [hoopAt_setTap_same])

/-! ### An entry that names a border tile's output -/

/-- A state in which a tap's transfer has sent a token more. -/
def sentToken (h k o : Nat) (g : TapXfer) (is : List Nat) (s : State) : State :=
  setTap h [sentOne g is] (sendTokVc k o false (xferTok g) [] s)

theorem sentToken_mem (h k o : Nat) (g : TapXfer) (is : List Nat) (s : State) : (sentToken h k o g is s).mem = s.mem := rfl
theorem sentToken_xfers (h k o : Nat) (g : TapXfer) (is : List Nat) (s : State) :
    (sentToken h k o g is s).net.xfers = s.net.xfers := rfl

theorem hoopAt_sentToken_same {h k o : Nat} (g : TapXfer) (is : List Nat) (s : State) (hk : noHoop k = h) :
    hoopAt (sentToken h k o g is s) h = { hoopAt s h with
      tapBuf := [sentOne g is], flight := (hoopAt s h).flight ++ [⟨false, xferTok g, true, k, o, s.net.nextFid, [], none⟩] } := by
  rw [sentToken, hoopAt_setTap_same]
  subst hk
  simp [sendTokVc]

theorem hoopAt_sentToken_other {h k o j : Nat} (g : TapXfer) (is : List Nat) (s : State) (hk : noHoop k = h) (hj : j ≠ h) :
    hoopAt (sentToken h k o g is s) j = hoopAt s j := by
  rw [sentToken, hoopAt_setTap_other _ _ hj]
  subst hk
  rw [sendTokVc, hoopAt_modNet, hoopAt_modHoop_other _ _ hj, hoopAt_modTile]

theorem dCred_sentToken {h k o : Nat} (g : TapXfer) (is : List Nat) (s : State) :
    dCred (tileAt (sentToken h k o g is s) k) o = dCred (tileAt s k) o - 1 := by
  rw [sentToken, tileAt_setTap, tileAt_sendTokVc]
  simp [dCred]

/-- A tap with one transfer for one entry of a border tile, and a credit, sends a token of it. -/
theorem drainTap_sends {h i n k o : Nat} {g : TapXfer} {s : State} (hbuf : (hoopAt s h).tapBuf = [g]) (hentry : g.entries = [i])
    (hen : subEn (subAt s h i) = true) (htile : subTile (subAt s h i) = false) (hk : bTileNo h (subBtile (subAt s h i)) = k)
    (ho : subBout (subAt s h i) = o) (hcred : 0 < dCred (tileAt s k) o) :
    drainTap h (n + 1) s = drainTap h n (sentToken h k o g [] s) := by
  subst hk ho
  exact drainTap_token hbuf hentry hen htile (by simpa [hasCredit] using hcred)

/-- A state in which a tap's transfer has sent its first m tokens. -/
def sentTokens (h k o : Nat) (g : TapXfer) : Nat → State → State
  | 0, s => s
  | m + 1, s => sentToken h k o { g with sent := m } [] (sentTokens h k o g m s)

section Tokens
variable {h i k o : Nat} {g : TapXfer} {s : State}

theorem sentTokens_mem (m : Nat) : (sentTokens h k o g m s).mem = s.mem := by
  induction m with
  | zero => rfl
  | succ m ih => rw [sentTokens, sentToken_mem, ih]

theorem sentTokens_xfers (m : Nat) : (sentTokens h k o g m s).net.xfers = s.net.xfers := by
  induction m with
  | zero => rfl
  | succ m ih => rw [sentTokens, sentToken_xfers, ih]

theorem dCred_sentTokens (m : Nat) : dCred (tileAt (sentTokens h k o g m s) k) o = dCred (tileAt s k) o - m := by
  induction m with
  | zero => rfl
  | succ m ih => rw [sentTokens, dCred_sentToken, ih]; omega

variable (hk : noHoop k = h)
include hk

theorem hoopAt_sentTokens_other {j : Nat} (m : Nat) (hj : j ≠ h) : hoopAt (sentTokens h k o g m s) j = hoopAt s j := by
  induction m with
  | zero => rfl
  | succ m ih => rw [sentTokens, hoopAt_sentToken_other _ _ _ hk hj, ih]

theorem subAt_sentTokens (m : Nat) : subAt (sentTokens h k o g m s) h i = subAt s h i := by
  induction m with
  | zero => rfl
  | succ m ih =>
    rw [← ih]
    unfold subAt
    rw [sentTokens, hoopAt_sentToken_same _ _ _ hk]

/-- What the tap holds after its m-th token. -/
theorem tapBuf_sentTokens (m : Nat) :
    (hoopAt (sentTokens h k o g (m + 1) s) h).tapBuf = [sentOne { g with sent := m } []] := by
  rw [sentTokens, hoopAt_sentToken_same _ _ _ hk]

/-- The tokens of a transfer are on their way. -/
theorem flight_sentTokens {j m : Nat} (hj : j < m) : ∃ y ∈ (hoopAt (sentTokens h k o g m s) h).flight,
    y.src = k ∧ y.port = o ∧ y.ctrl = false ∧ y.val = tokOf ((g.data.drop (64 * j)).take 64) := by
  induction m with
  | zero => omega
  | succ m ih =>
    rw [sentTokens, hoopAt_sentToken_same _ _ _ hk]
    by_cases hlast : j = m
    · subst hlast
      exact ⟨_, List.mem_append_right _ (List.mem_singleton_self _), rfl, rfl, rfl, rfl⟩
    · obtain ⟨y, hy, hrest⟩ := ih (by omega)
      exact ⟨y, List.mem_append_left _ hy, hrest⟩

variable (hbuf : (hoopAt s h).tapBuf = [{ g with sent := 0 }]) (hentry : g.entries = [i]) (hen : subEn (subAt s h i) = true)
  (htile : subTile (subAt s h i) = false) (hb : bTileNo h (subBtile (subAt s h i)) = k) (ho : subBout (subAt s h i) = o)
  (hcred : 4 ≤ dCred (tileAt s k) o)
include hbuf hentry hen htile hb ho hcred

/-- A tap with four credits sends the four tokens of its transfer. -/
theorem drainTap_sentTokens {m : Nat} (hm : m ≤ 4) (n : Nat) : drainTap h (n + m) s = drainTap h n (sentTokens h k o g m s) := by
  induction m generalizing n with
  | zero => rfl
  | succ m ih =>
    have hhold : (hoopAt (sentTokens h k o g m s) h).tapBuf = [{ g with sent := m }] := by
      cases m with
      | zero => exact hbuf
      | succ m =>
        have hmore : m ≠ 3 := by omega
        rw [tapBuf_sentTokens hk, sentOne]
        simp only [if_neg hmore]
    rw [show n + (m + 1) = n + 1 + m by omega, ih (by omega)]
    refine drainTap_sends hhold hentry ?_ ?_ ?_ ?_ ?_
    · rwa [subAt_sentTokens hk]
    · rwa [subAt_sentTokens hk]
    · rwa [subAt_sentTokens hk]
    · rwa [subAt_sentTokens hk]
    · rw [dCred_sentTokens]
      omega

/-- A tap with four credits has served its transfer after four tokens. -/
theorem drainFull_tokens : drainFull s h = setTap h [] (sentTokens h k o g 4 s) := by
  have hdone : (hoopAt (sentTokens h k o g 4 s) h).tapBuf = [{ g with entries := [], sent := 0 }] := by
    rw [tapBuf_sentTokens hk]
    rfl
  rw [drainFull_one hbuf hentry, drainTap_sentTokens hk hbuf hentry hen htile hb ho hcred (m := 4) le_rfl 386,
    drainTap_done hdone rfl]
  exact drainTap_empty (by rw [hoopAt_setTap_same])

end Tokens

/-! ### The transfer of one turn -/

theorem asAddr_congr {s u : State} (h : u.ctxs = s.ctxs) (c k a n : Nat) : asAddr u c k a n = asAddr s c k a n := by
  unfold asAddr relocAs ctxAt
  rw [h]

theorem syncAsHit_congr {s u : State} (h : u.ctxs = s.ctxs) (c k a n : Nat) : syncAsHit u c k a n = syncAsHit s c k a n := by
  unfold syncAsHit ctxAt
  rw [h]

/-- The border tiles of a Hoop lie in it. -/
theorem noHoop_bTileNo (h e : Nat) : noHoop (bTileNo h (subBtile e)) = h := by
  have hlt : subBtile e < 32 := by
    rw [subBtile, fld_eq]
    exact Nat.mod_lt _ (by norm_num)
  unfold bTileNo tileNo noHoop
  split <;> omega

section Turn
variable {f : Xfer} {s : State}

/-- The state in which a transfer has reached the taps. -/
def reached (f : Xfer) (s : State) : State := tapsTake f (xferTaken f s)

theorem reached_mem : (reached f s).mem = s.mem := tapsTake_keeps (·.mem) f _ fun _ _ _ => rfl
theorem reached_ctxs : (reached f s).ctxs = s.ctxs := tapsTake_keeps (·.ctxs) f _ fun _ _ _ => rfl
theorem reached_dev : (reached f s).dev = s.dev := tapsTake_keeps (·.dev) f _ fun _ _ _ => rfl
theorem tileAt_reached (k : Nat) : tileAt (reached f s) k = tileAt s k := tapsTake_keeps (tileAt · k) f _ fun _ _ _ => rfl
theorem reached_xfers : (reached f s).net.xfers = eraseFirst (fun g => g.hoop = f.hoop) s.net.xfers :=
  tapsTake_keeps (·.net.xfers) f _ fun _ _ _ => rfl

/-- A tap that nothing matches, after the transfer has reached it. -/
theorem hoopAt_reached_unmatched {h : Nat} (hh : h < 8) (hnone : matching s h f.ctx f.tag = []) :
    hoopAt (reached f s) h = dropped (hoopAt s h) :=
  (hoopAt_tapsTake hh).trans (tapTake_unmatched hnone)

variable {h i : Nat} (hbuf : ∀ h, h < 8 → (hoopAt s h).tapBuf = []) (hh : h < 8) (hone : matching s h f.ctx f.tag = [i])
  (hothers : ∀ j, j < 8 → j ≠ h → matching s j f.ctx f.tag = []) (hst : ctxSt s f.ctx ≠ .faulted) (hon : (hoopAt s h).power = .on)
include hbuf hh

include hone hst hon in
/-- The tap that one entry matches, after the transfer has reached it. -/
theorem hoopAt_reached_matched : hoopAt (reached f s) h = { hoopAt s h with
    tapRx := satAdd 48 (hoopAt s h).tapRx 1, tapBuf := [⟨f.ctx, f.tag, f.data, [i], 0⟩] } := by
  rw [reached, hoopAt_tapsTake hh, tapTake_matched hone hst hon, hbuf h hh]
  rfl

include hone hst hon in
theorem subAt_reached : subAt (reached f s) h i = subAt s h i := by
  unfold subAt
  rw [hoopAt_reached_matched hbuf hh hone hst hon]

omit hh in
include hothers in
/-- The other taps hold nothing. -/
theorem tapBuf_reached_others {j : Nat} (hj : j < 8) (hne : j ≠ h) : (hoopAt (reached f s) j).tapBuf = [] := by
  rw [hoopAt_reached_unmatched hj (hothers j hj hne)]
  exact hbuf j hj

include hone hothers hst hon

/-- A transfer for one entry that names an A tile is written there. -/
theorem cordonnet_tile {p0 pa : Nat} (htile : subTile (subAt s h i) = true) (hquiet : s.dev.debug = false)
    (hrange : asAddr s f.ctx (tileOfIndex .A h (subAtile (subAt s h i))) (64 * subBase (subAt s h i))
      (256 * subLen (subAt s h i)) = some p0)
    (hat : asAddr s f.ctx (tileOfIndex .A h (subAtile (subAt s h i))) (64 * subBase (subAt s h i) +
      256 * (Tab.get 0 (hoopAt s h).subCnt i % max 1 (subLen (subAt s h i)))) 256 = some pa)
    (hsync : syncAsHit s f.ctx h (64 * subBase (subAt s h i) +
      256 * (Tab.get 0 (hoopAt s h).subCnt i % max 1 (subLen (subAt s h i)))) 256 = false)
    (hknot : subArv (subAt s h i) = true → Tab.get 0 (hoopAt s h).subCnt i % max 1 (subLen (subAt s h i)) + 1 = subLen (subAt s h i) →
      (kaddrOf (fld (subAt s h i) 64 64)).bad = false) :
    ∃ v, drainTaps (reached f s) = v ∧ v.net.xfers = eraseFirst (fun g => g.hoop = f.hoop) s.net.xfers ∧
      v.mem = putBytes s.mem pa f.data ∧
      hoopAt v h = { hoopAt s h with
        tapRx := satAdd 48 (hoopAt s h).tapRx 1, tapBuf := []
        subCnt := Tab.set 0 (hoopAt s h).subCnt i (Tab.get 0 (hoopAt s h).subCnt i + 1) } ∧
      ∀ j, j < 8 → j ≠ h → hoopAt v j = dropped (hoopAt s j) := by
  obtain ⟨hen, hctx⟩ := matching_entry hone
  have hsub := subAt_reached hbuf hh hone hst hon
  have hhoop := hoopAt_reached_matched hbuf hh hone hst hon
  have hctxs : (reached f s).ctxs = s.ctxs := reached_ctxs
  have hcnt : (hoopAt (reached f s) h).subCnt = (hoopAt s h).subCnt := by rw [hhoop]
  have hwrite := subWrite_writes (h := h) (i := i) (f := ⟨f.ctx, f.tag, f.data, [i], 0⟩) (s := reached f s) (p0 := p0) (pa := pa)
    (by rw [reached_dev]; exact hquiet) (by rw [hsub, hctx, asAddr_congr hctxs]; exact hrange)
    (by rw [hsub, hctx, hcnt, asAddr_congr hctxs]; exact hat) (by rw [hsub, hctx, hcnt, syncAsHit_congr hctxs]; exact hsync)
    (by rw [hsub, hcnt]; exact hknot)
  generalize hw : subWrite h i ⟨f.ctx, f.tag, f.data, [i], 0⟩ (reached f s) = w at hwrite
  have hkeep {α : Type} (g : State → α) (hlinks : ∀ u, g (linksOff u) = g u) (hreqs : ∀ r u, g (pushReq r u) = g u)
      (hctx : ∀ c f u, g (modCtx c f u) = g u) : g w = g (subNext h i (Tab.get 0 (hoopAt (reached f s) h).subCnt i)
        (poke (reached f s) pa f.data)) := by
    rw [hwrite]
    exact subKnot_keeps g _ _ _ _ hlinks hreqs hctx
  have hwsame : hoopAt w h = { hoopAt (reached f s) h with
      subCnt := Tab.set 0 (hoopAt s h).subCnt i (Tab.get 0 (hoopAt s h).subCnt i + 1) } := by
    rw [hkeep (hoopAt · h) (fun _ => rfl) (fun _ _ => rfl) (fun _ _ _ => rfl), subNext, hoopAt_modHoop_same, hoopAt_poke, hcnt]
  have hwother {j : Nat} (hj : j ≠ h) : hoopAt w j = hoopAt (reached f s) j := by
    rw [hkeep (hoopAt · j) (fun _ => rfl) (fun _ _ => rfl) (fun _ _ _ => rfl), subNext, hoopAt_modHoop_other _ _ hj, hoopAt_poke]
  have hvother {j : Nat} (hj : j < 8) (hne : j ≠ h) (a b : List TapXfer) :
      hoopAt (setTap h a (setTap h b w)) j = dropped (hoopAt s j) := by
    rw [hoopAt_setTap_other _ _ hne, hoopAt_setTap_other _ _ hne, hwother hne, hoopAt_reached_unmatched hj (hothers j hj hne)]
  refine ⟨_, drainTaps_one hh (drainFull_tile (g := ⟨f.ctx, f.tag, f.data, [i], 0⟩) (by rw [hhoop]) rfl (by rw [hsub]; exact hen)
    (by rw [hsub]; exact htile) hw) (fun j hj hne => tapBuf_reached_others hbuf hothers hj hne) fun j hj => ?_, ?_, ?_, ?_,
    fun j hj hne => hvother hj hne _ _⟩
  · by_cases hne : j = h
    · rw [hne, hoopAt_setTap_same]
    · rw [hvother hj hne]
      exact hbuf j hj
  · rw [setTap_net, setTap_net, hkeep (·.net.xfers) (fun _ => rfl) (fun _ _ => rfl) (fun _ _ _ => rfl)]
    exact reached_xfers
  · rw [setTap_mem, setTap_mem, hkeep (·.mem) (fun _ => rfl) (fun _ _ => rfl) (fun _ _ _ => rfl), ← reached_mem (f := f) (s := s)]
    rfl
  · rw [hoopAt_setTap_same, hoopAt_setTap_same, hwsame, hhoop]

/-- A transfer for one entry that names a border tile's output leaves as four tokens. -/
theorem cordonnet_tokens (htile : subTile (subAt s h i) = false)
    (hcred : 4 ≤ dCred (tileAt s (bTileNo h (subBtile (subAt s h i)))) (subBout (subAt s h i))) :
    ∃ v, drainTaps (reached f s) = v ∧ v.net.xfers = eraseFirst (fun g => g.hoop = f.hoop) s.net.xfers ∧ v.mem = s.mem ∧
      (hoopAt v h).tapBuf = [] ∧
      dCred (tileAt v (bTileNo h (subBtile (subAt s h i)))) (subBout (subAt s h i)) + 4 =
        dCred (tileAt s (bTileNo h (subBtile (subAt s h i)))) (subBout (subAt s h i)) ∧
      ∀ m, m < 4 → ∃ y ∈ (hoopAt v h).flight, y.src = bTileNo h (subBtile (subAt s h i)) ∧ y.port = subBout (subAt s h i) ∧
        y.ctrl = false ∧ y.val = tokOf ((f.data.drop (64 * m)).take 64) := by
  obtain ⟨hen, -⟩ := matching_entry hone
  have hsub := subAt_reached hbuf hh hone hst hon
  have hhoop := hoopAt_reached_matched hbuf hh hone hst hon
  have hk := noHoop_bTileNo h (subAt s h i)
  have hfull := drainFull_tokens (s := reached f s) (i := i) (o := subBout (subAt s h i)) (g := ⟨f.ctx, f.tag, f.data, [i], 0⟩) hk
    (by rw [hhoop]) rfl (by rw [hsub]; exact hen) (by rw [hsub]; exact htile) (by rw [hsub]) (by rw [hsub])
    (by rw [tileAt_reached]; exact hcred)
  refine ⟨_, drainTaps_one hh hfull (fun j hj hne => tapBuf_reached_others hbuf hothers hj hne) fun j hj => ?_, ?_, ?_, ?_, ?_,
    fun m hm => ?_⟩
  · by_cases hne : j = h
    · rw [hne, hoopAt_setTap_same]
    · rw [hoopAt_setTap_other _ _ hne, hoopAt_sentTokens_other hk _ hne]
      exact tapBuf_reached_others hbuf hothers hj hne
  · rw [setTap_net, sentTokens_xfers]
    exact reached_xfers
  · rw [setTap_mem, sentTokens_mem, reached_mem]
  · rw [hoopAt_setTap_same]
  · rw [tileAt_setTap, dCred_sentTokens, tileAt_reached]
    omega
  · rw [hoopAt_setTap_same]
    obtain ⟨y, hy, hsrc, hport, hctrl, hval⟩ := flight_sentTokens (o := subBout (subAt s h i)) (g := ⟨f.ctx, f.tag, f.data, [i], 0⟩)
      (s := reached f s) hk hm
    refine ⟨y, ?_, hsrc, hport, hctrl, hval⟩
    dsimp only
    exact hy

end Turn

end Sys2Proof.Machine
end

section
/-! The services of the Selvedge controller: the statement. -/

namespace Sys2Proof.Machine

/-- What a copy's end leaves. -/
theorem endCopy_mem (id : Nat) (s : State) : (endCopy id s).mem = s.mem := endCopy_keeps _ id s fun _ _ => rfl
theorem endCopy_reqs (id : Nat) (s : State) : (endCopy id s).net.reqs = s.net.reqs := endCopy_keeps (·.net.reqs) id s fun _ _ => rfl
theorem endCopy_dev (id : Nat) (s : State) : (endCopy id s).dev = s.dev := endCopy_keeps _ id s fun _ _ => rfl
theorem samePlaces_endCopy (id : Nat) (s : State) : SamePlaces s (endCopy id s) :=
  ⟨endCopy_mem id s, endCopy_keeps _ id s fun _ _ => rfl, endCopy_keeps _ id s fun _ _ => rfl, endCopy_keeps _ id s fun _ _ => rfl,
    endCopy_keeps _ id s fun _ _ => rfl⟩

theorem endCopy_ids {id : Nat} {s : State} {x : Copy} (h : s.net.copies.find? (fun y => y.id = id) = some x) :
    (endCopy id s).net.copies.map (·.id) = (eraseFirst (fun y => y.id = id) s.net.copies).map (·.id) := by
  rw [endCopy_eq h, startCopies_ids]
  rfl

/-- The requests of a knot that a copy fills or counts, where it has one. -/
theorem copyKnot_requests {x : Copy} {op pa : Nat} {a : Option (BitVec 64)} {s : State} (hquiet : s.dev.debug = false) (hop : op ≠ 2)
    (hat : ∀ k, a = some k → ((kaddrOf k.toNat).remote = false ∨ (kaddrOf k.toNat).mod = ownId s) ∧
      knotAt s x.ctx (portQuarter x.port) (kaddrOf k.toNat) true = .at_ pa) :
    ∃ rs, a.elim id (copyKnot x op) s = modNet (fun n => { n with reqs := n.reqs ++ rs }) s ∧
      rs.map (fun r => (r.op, r.value, r.pa, r.ctx)) = if a.isSome then [(op, 0, pa, x.ctx)] else [] := by
  cases a with
  | none => exact ⟨[], by simp [modNet], rfl⟩
  | some k =>
    obtain ⟨hown, hk⟩ := hat k rfl
    exact ⟨_, copyKnot_here hquiet hop hown hk, rfl⟩

/-- Settles O40, from one equation for each command in each of its cases. -/
theorem servicesMoveData : Obligations.ServicesMoveData := by
  unfold Obligations.ServicesMoveData
  refine ⟨fun chan c skip vs s hmsg => ⟨fun p hlen hgood hres => ?_, fun pa hlen hgood hres hown hat => ?_, fun hlen hgood => ?_⟩,
    fun n x s hx hrun hlive hquiet => ⟨fun pa hleft hawake hin hat hue => ⟨fun pb hown hfit hplain hpb => ?_, fun hremote hmod _ => ?_⟩,
      fun hall hacked huniq pd pv hdone harv => ?_⟩,
    fun n pb u s hlen hquiet hawake hu hfirst hin hbad hplain hsync hpb => ?_,
    fun n f s hn hturn hbuf => ⟨fun hnone => ?_, fun h i hh hone hothers hst hon => ⟨fun p0 pa htile hquiet hrange hat hsync hknot => ?_,
      fun htile hcred => ?_⟩⟩⟩
  · refine ⟨_, loaderRequest_resident hmsg hlen hgood hres, ?_, ?_, ?_, ?_⟩
    · rw [chanAt_groundPart, queueLoad, chanAt_modHoop, chanAt_serviceTaken]
    · rw [chanAt_groundPart, queueLoad, chanAt_modHoop, chanAt_serviceTaken]
    · rw [hoopAt_groundPart, queueLoad, hoopAt_modHoop_same, hoopAt_serviceTaken]
    · rw [groundPart_mem, queueLoad, modHoop_mem, serviceTaken_mem]
  · have hnext := loaderRequest_unknown hmsg hlen hgood hres
    have hown' := hown
    rw [← ownId_serviceTaken chan.toNat (skip + 1) s] at hown'
    rw [loaderDone, serviceKnot_here hown' hat] at hnext
    refine ⟨_, ⟨0, BitVec.ofNat 24 (fld (vs.headD 0).toNat 164 16 * 256 + 0x05),
      BitVec.ofNat 64 (BitVec.ofNat 64 (fld (vs.headD 0).toNat 192 64)).toNat, c, pa, ownId s, none, []⟩, hnext, ?_, ?_, rfl, ?_, rfl, ?_⟩
    · rw [chanAt_groundPart, chanAt_pushReq, chanAt_serviceTaken]
    · rw [groundPart_net, pushReq, modNet_net, serviceTaken_reqs, ownId_serviceTaken]
    · rw [Nat.mul_comm]
    · rw [groundPart_mem, pushReq_mem, serviceTaken_mem]
  · obtain ⟨port, vc, hnext⟩ := copyRequest_taken hmsg hlen hgood
    refine ⟨_, hnext, ?_, ?_, ?_, ?_⟩
    · rw [chanAt_groundPart, startCopies_keeps (chanAt · chan.toNat) _ _ fun _ _ => rfl, chanAt_modNet, chanAt_serviceTaken]
    · obtain ⟨y, hy, hrun⟩ := mem_startCopies (p := port) (s := modNet (fun m => { m with
        copies := m.copies ++ [askedCopy c (vs.headD 0).toNat (vs.getD 1 0).toNat port s.net.nextCopy vc], nextCopy := m.nextCopy + 1 })
        (serviceTaken chan.toNat (skip + 2) s)) (List.mem_append_right _ (List.mem_singleton_self _))
      refine ⟨y, hy, ?_⟩
      obtain ⟨yctx, ysrc, ylen, ydest, ydone, yarv, yport, yat, yunacked, yid, yrun, yvc⟩ := y
      simp only [runsCopy, askedCopy, Copy.mk.injEq] at hrun
      obtain ⟨hctx, hsrc, hlen', hdest, hdone, harv, -, hat, hunacked, hid, -, -⟩ := hrun
      exact ⟨hid, hctx, hsrc, hlen', hdest, hdone, harv, hat, hunacked⟩
    · rw [groundPart_net, startCopies_length, modNet_net, List.length_append, serviceTaken_copies]
      rfl
    · rw [groundPart_mem, startCopies_keeps (·.mem) _ _ fun _ _ => rfl, modNet_mem, serviceTaken_mem]
  · have hread := unitRead_single hin hat hue
    have hwrite := unitWrite_single (bs := peek s pa (min 256 (x.len - x.at_))) (by rw [peek_length]; exact hfit) hplain
      (by rw [peek_length]; exact hpb)
    have hnext := copyWrite_step hx hrun hlive hleft hawake
    rw [copyUnitStep_here hquiet hread hown hwrite] at hnext
    exact ⟨_, hnext, rfl, rfl⟩
  · have hnext := copyWrite_step hx hrun hlive hleft hawake
    rw [copyUnitStep_away hquiet (unitRead_single hin hat hue) hremote hmod] at hnext
    refine ⟨_, hnext, ?_, ?_⟩
    · rw [groundPart_mem, modNet_mem, sendOut_mem]
    · rw [groundPart_net, modNet_net, sendOut_copies]
      rfl
  · have hfind : ∃ y, s.net.copies.find? (fun y => y.id = x.id) = some y := by
      rw [← Option.isSome_iff_exists, List.find?_isSome]
      exact ⟨x, List.mem_of_getElem? hx, by simp⟩
    obtain ⟨y, hy⟩ := hfind
    obtain ⟨rs1, hs1, hrs1⟩ := copyKnot_requests (x := x) (op := 0) (pa := pd) (a := x.done) (s := endCopy x.id s)
      (by rw [endCopy_dev]; exact hquiet) (by decide) fun k hk => ⟨by rw [ownId, endCopy_dev]; exact (hdone k hk).1,
        by rw [knotAt_same (samePlaces_endCopy _ _)]; exact (hdone k hk).2⟩
    obtain ⟨rs2, hs2, hrs2⟩ := copyKnot_requests (x := x) (op := 3) (pa := pv) (a := x.arv)
      (s := modNet (fun n => { n with reqs := n.reqs ++ rs1 }) (endCopy x.id s))
      (by rw [modNet_dev, endCopy_dev]; exact hquiet) (by decide) fun k hk =>
        ⟨by rw [ownId, modNet_dev, endCopy_dev]; exact (harv k hk).1, by
          rw [knotAt_same (samePlaces_modNet _ _), knotAt_same (samePlaces_endCopy _ _)]; exact (harv k hk).2⟩
    have hnext := copyDone_ends hx hrun hlive hall hacked
    rw [hs1, hs2] at hnext
    refine ⟨_, hnext, endCopy_ids hy, ?_, endCopy_mem _ _⟩
    rw [groundPart_net, modNet_net, modNet_net, ← hrs1, ← hrs2, ← List.map_append, ← List.map_append, ← endCopy_reqs x.id s]
  · have hnext := copyWrite_unit hlen hawake hu hfirst
    rw [arrivedUnit_written (samePlaces_modNet _ _) hquiet hbad hsync hin hplain hpb] at hnext
    refine ⟨_, hnext, ?_, ?_⟩
    · rw [groundPart_mem, sendOut_mem]
      rfl
    · rw [groundPart_net, sendOut_units]
      rfl
  · have hempty : drainTaps (reached f s) = reached f s := drainTaps_empty fun h hh => by
      rw [hoopAt_reached_unmatched hh (hnone h hh)]
      exact hbuf h hh
    have hnext := cordonnet_moves hn hturn hbuf
    rw [← reached, hempty] at hnext
    refine ⟨_, hnext, reached_xfers, fun h hh => ?_, reached_mem⟩
    rw [hoopAt_groundPart, hoopAt_reached_unmatched hh (hnone h hh)]
    rfl
  · obtain ⟨v, hv, hxfers, hmem, hhoop, hrest⟩ :=
      cordonnet_tile hbuf hh hone hothers hst hon htile hquiet hrange hat hsync hknot
    have hnext := cordonnet_moves hn hturn hbuf
    rw [← reached, hv] at hnext
    refine ⟨_, hnext, hxfers, hmem, ?_, ?_, ?_, fun j hj hne => ?_⟩
    · rw [hoopAt_groundPart, hhoop]
    · rw [hoopAt_groundPart, hhoop]
    · rw [hoopAt_groundPart, hhoop, Tab.get_set_same]
    · rw [hoopAt_groundPart, hrest j hj hne]
      rfl
  · obtain ⟨v, hv, hxfers, hmem, htap, hdcred, hflight⟩ := cordonnet_tokens hbuf hh hone hothers hst hon htile hcred
    have hnext := cordonnet_moves hn hturn hbuf
    rw [← reached, hv] at hnext
    exact ⟨_, hnext, hxfers, hmem, htap, hdcred, hflight⟩

end Sys2Proof.Machine
end

section
/-! Ports that messages take, and what a port does when no message waits, or one. -/

namespace Sys2Proof.Machine

/-! ### The way of a message depends on LINK_CFG, the ports' states and MODULE_ID -/

/-- Two states have the same link settings, port states and MODULE_ID. -/
structure SameRoutes (s u : State) : Prop where
  cfg : ∀ j, (linkAt u j).cfg = (linkAt s j).cfg
  st  : ∀ j, (linkAt u j).st = (linkAt s j).st
  own : ownId u = ownId s

section Routes
variable {s u : State} (h : SameRoutes s u)
include h

theorem lkRole_same (j : Nat) : lkRole (linkAt u j) = lkRole (linkAt s j) := by
  unfold lkRole
  rw [h.cfg]

theorem dlPorts_same : dlPorts u = dlPorts s := by
  unfold dlPorts lkEn
  simp only [h.cfg]

theorem rolePorts_same (role : Nat) : rolePorts u role = rolePorts s role := by
  unfold rolePorts
  rw [dlPorts_same h]
  simp only [lkRole_same h]

theorem ringLen_same (dim : Nat) : ringLen u dim = ringLen s dim := by
  unfold ringLen
  rw [dlPorts_same h]
  simp only [lkRole_same h, lkRing, h.cfg]

theorem moduleCoords_same (m : Nat) : moduleCoords u m = moduleCoords s m := by
  unfold moduleCoords
  rw [ringLen_same h, ringLen_same h]

theorem firstRole_same (dest : Nat) : firstRole u dest = firstRole s dest := by
  unfold firstRole
  simp only [moduleCoords_same h, ringLen_same h, h.own]

theorem laneClass_same (q dest : Nat) : laneClass u q dest = laneClass s q dest := by
  have hports : rolePorts u = rolePorts s := funext (rolePorts_same h)
  unfold laneClass
  rw [firstRole_same h, hports]

theorem classOf_same (m : OutMsg) : classOf u m = classOf s m := by
  unfold classOf
  rw [laneClass_same h]

theorem classPort_same (cls : Bool) (dest : Nat) : classPort u cls dest = classPort s cls dest := by
  have hports : rolePorts u = rolePorts s := funext (rolePorts_same h)
  unfold classPort
  rw [firstRole_same h, hports]

theorem ownPort_same (m : OutMsg) : ownPort u m = ownPort s m := by
  unfold ownPort
  rw [classOf_same h, classPort_same h]

theorem portNow_same (m : OutMsg) : portNow u m = portNow s m := by
  unfold portNow
  rw [ownPort_same h]
  simp only [rolePorts_same h, lkRole_same h, h.st]

theorem subOf_same (dest : Nat) (came : Option (Nat × Nat)) : subOf u dest came = subOf s dest came := by
  have hdate (role : Nat) : dateline u role = dateline s role := by
    have hlen : ringLen u = ringLen s := funext (ringLen_same h)
    unfold dateline
    rw [moduleCoords_same h, h.own, hlen]
  unfold subOf
  rw [firstRole_same h]
  simp only [hdate]

end Routes

/-- The port of a message without one of its own is a DL port. -/
theorem portNow_lt {s : State} {m : OutMsg} {r : Nat} (hvia : m.via = none) (h : portNow s m = some r) : r < 12 := by
  have hrole {role q : Nat} (hq : q ∈ rolePorts s role) : q < 12 :=
    List.mem_range.mp (List.mem_of_mem_filter (List.mem_of_mem_filter hq))
  cases hown : ownPort s m with
  | none => simp [portNow, hown] at h
  | some p =>
    have hp : p < 12 := by
      rw [ownPort, hvia, classPort, Option.orElse_none, Option.bind_eq_some_iff] at hown
      obtain ⟨role, -, hfind⟩ := hown
      cases hfirst : (rolePorts s role).find? fun p => classB p == classOf s m with
      | some q =>
        rw [hfirst, Option.orElse_some, Option.some.injEq] at hfind
        exact hfind ▸ hrole (List.mem_of_find?_eq_some hfirst)
      | none =>
        rw [hfirst, Option.orElse_none] at hfind
        exact hrole (List.mem_of_mem_head? hfind)
    simp only [portNow, hown] at h
    split at h
    · exact Option.some.inj h ▸ hp
    · exact hrole (List.mem_of_find?_eq_some h)

/-! ### Flits that are being filled go out -/

/-- A port of which no flit is being filled. -/
def flushed (x : Link) : Link := { x with fill := 0 }

theorem sendFlits_keeps {α : Type} (g : State → α) (s : State) (h : ∀ u, g (linksOff u) = g u) : g (sendFlits s) = g s := by
  rw [← h, linksOff_sendFlits, h]

theorem sendFlits_eq (s : State) : sendFlits s = { s with links := (sendFlits s).links } := by
  have hkeep : ({ sendFlits s with links := [] } : State) = { s with links := [] } :=
    foldl_keeps (fun s : State => ({ s with links := [] } : State)) _ (fun s p => by split <;> rfl) _ _
  generalize sendFlits s = t at hkeep
  cases t
  cases s
  simp only [State.mk.injEq, true_and] at hkeep
  simp_all

theorem linkAt_sendFlits (s : State) (j : Nat) : linkAt (sendFlits s) j = if j < 14 then flushed (linkAt s j) else linkAt s j := by
  have hstep (s : State) (p : Nat) :
      linkAt (if (linkAt s p).fill = 0 then s else modLink p (fun x => { x with fill := 0 }) s) j =
        if j = p then flushed (linkAt s j) else linkAt s j := by
    by_cases hj : j = p
    · subst hj
      split
      · next h => simp [flushed, ← h]
      · simp [flushed]
    · rw [if_neg hj]
      split
      · rfl
      · exact linkAt_modLink_other _ _ hj
  have hfold (l : List Nat) (s : State) : linkAt (l.foldl (fun s p => if (linkAt s p).fill = 0 then s else
      modLink p (fun x => { x with fill := 0 }) s) s) j = if j ∈ l then flushed (linkAt s j) else linkAt s j := by
    induction l generalizing s with
    | nil => rfl
    | cons p l ih =>
      rw [List.foldl_cons, ih, hstep]
      by_cases hj : j = p <;> by_cases hl : j ∈ l <;> simp [hj, hl, flushed]
  rw [sendFlits, hfold]
  simp only [List.mem_range]

theorem linkAt_sendFlits_empty {s : State} {j : Nat} (h : (linkAt s j).fill = 0) : linkAt (sendFlits s) j = linkAt s j := by
  rw [linkAt_sendFlits]
  split
  · simp [flushed, ← h]
  · rfl

theorem sameRoutes_sendFlits (s : State) : SameRoutes s (sendFlits s) := by
  refine ⟨fun j => ?_, fun j => ?_, ?_⟩
  · rw [linkAt_sendFlits]
    split <;> rfl
  · rw [linkAt_sendFlits]
    split <;> rfl
  · exact sendFlits_keeps ownId s fun _ => rfl

/-! ### A port without waiting messages, or with one that no port takes -/

theorem countWaits_none {s : State} (h : ∀ x ∈ s.net.waiting.zipIdx, mayEnter s (s.net.waiting.take x.2) x.1 = none) :
    countWaits s = s := by
  have hheld : (s.net.waiting.zipIdx.filterMap fun (m, i) =>
      (mayEnter s (s.net.waiting.take i) m).map fun p => (p, vcOf m.msg)) = [] := by
    rw [List.filterMap_eq_nil_iff]
    intro x hx
    simp [h x hx]
  unfold countWaits
  rw [hheld]
  rfl

theorem pump_none {s : State} (h : s.net.waiting = []) : pump s = sendFlits s := by
  have hwait : (sendFlits s).net.waiting = [] := by
    rw [sendFlits_eq]
    exact h
  rw [pump, h, List.length_nil, pumpFor]
  refine countWaits_none fun x hx => ?_
  simp [hwait] at hx

theorem mayEnter_none {s : State} {m : OutMsg} (before : List OutMsg) (h : portNow s m = none) : mayEnter s before m = none := by
  rw [mayEnter, h]
  rfl

/-- A message that no port takes waits. -/
theorem pump_blocked {s : State} {m : OutMsg} (hwait : s.net.waiting = [m]) (hport : portNow s m = none) : pump s = sendFlits s := by
  have hnext : nextOut s = none := by
    have hnone : enterable s = [] := by simp [enterable, hwait, mayEnter_none _ hport]
    simp [nextOut, hnone]
  have hfor : pumpFor s.net.waiting.length s = s := by
    rw [hwait]
    simp [pumpFor, hnext]
  rw [pump, hfor]
  refine countWaits_none fun x hx => ?_
  have hwait' : (sendFlits s).net.waiting = [m] := by
    rw [sendFlits_eq]
    exact hwait
  rw [hwait'] at hx
  simp only [List.zipIdx_cons, List.zipIdx_nil, List.mem_singleton] at hx
  rw [hx]
  exact mayEnter_none _ ((portNow_same (sameRoutes_sendFlits s) m).trans hport)

/-! ### A message that a port takes -/

theorem updAt_append_last {α : Type} (f : α → α) (l : List α) (a : α) : updAt f l.length (l ++ [a]) = l ++ [f a] := by
  induction l with
  | nil => rfl
  | cons x l ih => simp [updAt, ih]

/-- The messages of flits of which the last has taken one more. -/
theorem flatMap_updAt_last {l : List Flit} (m : OutMsg) (h : l ≠ []) :
    (updAt (fun (f : Flit) => { f with msgs := f.msgs ++ [m] }) (l.length - 1) l).flatMap (·.msgs) = l.flatMap (·.msgs) ++ [m] := by
  obtain ⟨init, a, rfl⟩ := (List.eq_nil_or_concat' l).resolve_left h
  rw [List.length_append, List.length_singleton, Nat.add_sub_cancel, updAt_append_last]
  simp

/-- A message that begins its flits stands behind those of the retry buffer. -/
theorem packed_msgs {x : Link} {m : OutMsg} (h : x.fill = 0) : (packed x m).flatMap (·.msgs) = x.retry.flatMap (·.msgs) ++ [m] := by
  have hpos : 0 < newFlits x.fill (16 + bodyBytes m.msg) := by
    rw [h]
    unfold newFlits ceilDiv
    simp only [if_true]
    omega
  unfold packed
  dsimp only
  rw [flatMap_updAt_last]
  · simp [h, List.flatMap_map]
  · rw [← List.length_pos_iff]
    simp
    omega

/-- The message that enters where one alone may: by its channel's turn, or in a round that begins anew. -/
theorem nextOut_one {s : State} {r : Nat} {m : OutMsg} (h : enterable s = [(0, r, m)]) (hvc : vcOf m.msg < 4) :
    ∃ ts, nextOut s = some (0, r, m, ts) := by
  by_cases hctrl : vcOf m.msg = 0
  · exact ⟨(linkAt s r).turns, by simp [nextOut, h, hctrl]⟩
  have hfull : Tab.get 0 fullTurns (vcOf m.msg) ≠ 0 := by
    have : vcOf m.msg = 1 ∨ vcOf m.msg = 2 ∨ vcOf m.msg = 3 := by omega
    rcases this with e | e | e <;> rw [e] <;> decide
  have hpick (ts : Tab Nat) : ([2, 3, 1].findSome? fun vc => if Tab.get 0 ts vc = 0 then none
      else (([(0, r, m)] : List (Nat × Nat × OutMsg)).find? fun e => vcOf e.2.2.msg = vc).map fun e =>
        (e.1, r, e.2.2, Tab.set 0 ts vc (Tab.get 0 ts vc - 1))) =
      if Tab.get 0 ts (vcOf m.msg) = 0 then none
      else some (0, r, m, Tab.set 0 ts (vcOf m.msg) (Tab.get 0 ts (vcOf m.msg) - 1)) := by
    have : vcOf m.msg = 1 ∨ vcOf m.msg = 2 ∨ vcOf m.msg = 3 := by omega
    rcases this with e | e | e <;> by_cases hts : Tab.get 0 ts (vcOf m.msg) = 0 <;> rw [e] at hts ⊢ <;>
      simp [e, hts]
  have hmine : ([(0, r, m)] : List (Nat × Nat × OutMsg)).filter (fun e => e.2.1 = r) = [(0, r, m)] := by simp
  have hnone : ([(0, r, m)] : List (Nat × Nat × OutMsg)).find? (fun e => vcOf e.2.2.msg = 0) = none := by simp [hctrl]
  unfold nextOut
  rw [h]
  dsimp only
  rw [hnone]
  dsimp only [List.head?_cons, Option.bind_some]
  rw [hmine, hpick, hpick, if_neg hfull]
  by_cases hturn : Tab.get 0 (linkAt s r).turns (vcOf m.msg) = 0
  · exact ⟨_, by rw [if_pos hturn]; rfl⟩
  · exact ⟨_, by rw [if_neg hturn]; rfl⟩

/-- Where one message waits and may enter its port, it does. -/
theorem pump_one {s : State} {m : OutMsg} {r : Nat} (hwait : s.net.waiting = [m]) (hport : portNow s m = some r)
    (hroom : (linkAt s r).retry.length + flitsOf m.msg ≤ 1024) (hvc : vcOf m.msg < 4)
    (hcover : creditsCover (linkAt s r) (vcOf m.msg) m.sub (flitsOf m.msg) = true) :
    ∃ ts, pump s = sendFlits (intoFlit r m (modLink r (fun x => { x with turns := ts })
      (modNet (fun n => { n with waiting := [] }) s))) := by
  have henter : mayEnter s [] m = some r := by simp [mayEnter, hport, hroom]
  have hone : enterable s = [(0, r, m)] := by simp [enterable, hwait, henter, hcover]
  obtain ⟨ts, hnext⟩ := nextOut_one hone hvc
  refine ⟨ts, ?_⟩
  have hfor : pumpFor s.net.waiting.length s = intoFlit r m (modLink r (fun x => { x with turns := ts })
      (modNet (fun n => { n with waiting := [] }) s)) := by
    rw [hwait, List.length_singleton, pumpFor, hnext]
    simp [pumpFor, modNet, hwait]
  have hempty : (sendFlits (intoFlit r m (modLink r (fun x => { x with turns := ts })
      (modNet (fun n => { n with waiting := [] }) s)))).net.waiting = [] := by
    rw [sendFlits_eq]
    rfl
  rw [pump, hfor]
  refine countWaits_none fun x hx => ?_
  simp [hempty] at hx

end Sys2Proof.Machine
end

section
/-! Flits: how one is counted and accepted, and the state in which its messages act. -/

namespace Sys2Proof.Machine

/-! ### Slots written into a ring do not depend on the link ports -/

/-- A state with other link ports. -/
def relink (l : Tab Link) (s : State) : State := { s with links := l }

theorem samePlaces_relink (l : Tab Link) (s : State) : SamePlaces s (relink l s) := ⟨rfl, rfl, rfl, rfl, rfl⟩

theorem poke_relink (l : Tab Link) (s : State) (pa : Nat) (bs : List Byte) : poke (relink l s) pa bs = relink l (poke s pa bs) := rfl

/-- Link ports pass through a fold whose steps they pass through. -/
theorem foldl_relink {α : Type} {l : Tab Link} {f : State → α → State} (h : ∀ s a, f (relink l s) a = relink l (f s a))
    (as : List α) (s : State) : as.foldl f (relink l s) = relink l (as.foldl f s) := by
  induction as generalizing s with
  | nil => rfl
  | cons a as ih => rw [List.foldl_cons, List.foldl_cons, h, ih]

theorem writeCodewords_relink (l : Tab Link) (pa : Nat) (bs : List Byte) (s : State) :
    writeCodewords (fun _ s => s) pa bs (relink l s) = relink l (writeCodewords (fun _ s => s) pa bs s) := by
  refine foldl_relink (fun s p => ?_) _ s
  rw [mergeUe_same (samePlaces_relink l s)]
  cases mergeUe s p.1 p.2.length <;> rfl

theorem addCodewords_relink (l : Tab Link) (pa : Nat) (bs : List Byte) (s : State) :
    addCodewords (fun _ s => s) pa bs (relink l s) = relink l (addCodewords (fun _ s => s) pa bs s) := by
  refine foldl_relink (fun s p => ?_) _ s
  rw [ueAt_same (samePlaces_relink l s), peek_same (samePlaces_relink l s)]
  cases ueAt s p.1 p.2.length <;> rfl

theorem mergeBit_relink (l : Tab Link) (pa : Nat) (bs : List Byte) (s : State) :
    mergeBit (fun _ s => s) pa bs (relink l s) = relink l (mergeBit (fun _ s => s) pa bs s) := by
  unfold mergeBit
  rw [ueAt_same (samePlaces_relink l s)]
  cases ueAt s pa 1 <;> rfl

/-- A write's end with other link ports. -/
def WriteEnd.relink (l : Tab Link) : WriteEnd → WriteEnd
  | .undef => .undef
  | .fail e d => .fail e d
  | .done b s => .done b (Machine.relink l s)

theorem apertureEnd_relink (l : Tab Link) (w : HbmWrite) (ap : Aperture) (s : State) :
    apertureEnd w ap (relink l s) = (apertureEnd w ap s).relink l := by
  have hsame := samePlaces_relink l s
  have hfail : descFail (relink l s) w.ctx w.quarter ap.block = descFail s w.ctx w.quarter ap.block := by
    have hdesc : @descFail = @descFail := rfl
    conv_rhs at hdesc => delta descFail
    have hreg : dnReg (relink l s) w.ctx 2 = dnReg s w.ctx 2 := rfl
    rw [hdesc]
    beta_reduce
    rw [hreg, hbmAddr_same hsame]
  rw [apertureEnd, apertureEnd]
  generalize (if w.mask then 1 else w.data.length) = n
  rw [blockDesc_same hsame, hfail, sweptNow_same hsame, hbmAddr_same hsame, apply_ite (WriteEnd.relink l)]
  congr 1
  cases blockDesc s w.ctx w.quarter ap.block with
  | none => rfl
  | some d =>
    dsimp only
    rw [apply_ite (WriteEnd.relink l), apply_ite (WriteEnd.relink l)]
    congr 2
    cases hbmAddr s w.ctx w.quarter ap.at_ n true with
    | at_ pa =>
      dsimp only
      rw [apply_ite (WriteEnd.relink l), apply_ite (WriteEnd.relink l)]
      simp only [written, ueAt_same hsame, mergeUe_same hsame, mergeBit_relink, writeCodewords_relink, addCodewords_relink,
        WriteEnd.relink]
    | bound => rfl
    | ue pa => rfl
    | notMapped => rfl
    | protect => rfl

theorem putSlot_relink (l : Tab Link) (q : Nat) (x : Chan) (i : Nat) (v : DataTok) (s : State) :
    putSlot q x i v (relink l s) = (relink l (putSlot q x i v s).1, (putSlot q x i v s).2) := by
  have hsame := samePlaces_relink l s
  unfold putSlot
  by_cases hspace : x.space = 0
  · have htile : tileSlot (relink l s) x i = tileSlot s x i := by
      unfold tileSlot
      rw [asAddr_same hsame]
      simp only [syncAsHit_same hsame]
    rw [if_pos hspace, if_pos hspace, htile]
    cases tileSlot s x i <;> rfl
  · have hstop : slotStop (relink l s) x i = slotStop s x i := by
      unfold slotStop
      rw [hbmVa_same hsame, syncHbmHit_same hsame]
    have hhbm : hbm64 (relink l s) x.ctx q (slotOff x i) true = hbm64 s x.ctx q (slotOff x i) true := by
      have hdef : @hbm64 = @hbm64 := rfl
      conv_rhs at hdef => delta hbm64
      rw [hdef]
      beta_reduce
      rw [hbmAddr_same hsame]
    rw [if_neg hspace, if_neg hspace, hstop, apertureOf_same hsame, hhbm]
    cases slotStop s x i with
    | some e => rfl
    | none =>
      cases apertureOf s x.ctx (slotOff x i) with
      | none => cases hbm64 s x.ctx q (slotOff x i) true <;> rfl
      | some ap =>
        dsimp only
        rw [apertureEnd_relink]
        cases apertureEnd ⟨0, x.ctx, q, none, slotOff x i, 0, tokBytes v, false, false⟩ ap s with
        | undef => rfl
        | fail e d => rfl
        | done b t => cases b <;> rfl

/-- Slots written into a ring are the same whatever the link ports. -/
theorem putSlots_relink {l : Tab Link} {q i : Nat} {x : Chan} {vs : List DataTok} {s u : State} (h : putSlots q x i vs s = (u, none)) :
    putSlots q x i vs (relink l s) = (relink l u, none) := by
  induction vs generalizing i s with
  | nil => cases h; rfl
  | cons v vs ih =>
    unfold putSlots at h ⊢
    rw [putSlot_relink]
    cases hslot : putSlot q x i v s with
    | mk t e =>
      rw [hslot] at h
      cases e with
      | none => exact ih h
      | some e => exact nomatch h

/-! ### Symbols are counted -/

/-- How many of the symbols corrected earlier lie within the last second. -/
def recentSymbols (p : Nat) (o : State) : Nat := freeNat o 0 % ((linkAt o p).ceRecent + 1)

/-- The port's counts after n more symbols. -/
def symbolsCounted (p n : Nat) (o : State) : State := useFree 1 (modLink p (fun x => { x with
  corrected := satAdd 64 x.corrected n, ceRecent := recentSymbols p o + n }) o)

theorem countSymbols_eq {p n : Nat} {o : State} (hn : n ≠ 0) : countSymbols p n o =
    if recentSymbols p o ≤ 1000000 && 1000000 < recentSymbols p o + n then
      raise 0x0105 0 (toLE 1 p ++ toLE 3 0 ++ toLE 4 (recentSymbols p o + n)) (symbolsCounted p n o)
    else symbolsCounted p n o := by
  rw [countSymbols, if_neg hn]
  rfl

/-- Counting symbols leaves what neither they nor an event change. -/
theorem countSymbols_cases (p n : Nat) (o : State) : countSymbols p n o = o ∨ countSymbols p n o = symbolsCounted p n o ∨
    ∃ bs, countSymbols p n o = raise 0x0105 0 bs (symbolsCounted p n o) := by
  by_cases hn : n = 0
  · exact .inl (by rw [countSymbols, if_pos hn])
  · rw [countSymbols_eq hn]
    split
    · exact .inr (.inr ⟨_, rfl⟩)
    · exact .inr (.inl rfl)

theorem linkAt_countSymbols {p n : Nat} {o : State} (hn : n ≠ 0) : linkAt (countSymbols p n o) p = { linkAt o p with
    corrected := satAdd 64 (linkAt o p).corrected n, ceRecent := recentSymbols p o + n } := by
  rw [countSymbols_eq hn]
  split <;> simp [symbolsCounted]

theorem countSymbols_net (p n : Nat) (o : State) : (countSymbols p n o).net = o.net := by
  rcases countSymbols_cases p n o with e | e | ⟨bs, e⟩ <;> rw [e]
  · rfl
  · rw [raise_net]
    rfl

theorem countSymbols_mem (p n : Nat) (o : State) : (countSymbols p n o).mem = o.mem := by
  rcases countSymbols_cases p n o with e | e | ⟨bs, e⟩ <;> rw [e]
  · rfl
  · rw [raise_mem]
    rfl

theorem nextRecv_countSymbols (p n : Nat) (o : State) : (linkAt (countSymbols p n o) p).nextRecv = (linkAt o p).nextRecv := by
  by_cases hn : n = 0
  · rw [countSymbols, if_pos hn]
  · rw [linkAt_countSymbols hn]

theorem countSymbols_raised {p n : Nat} {o : State} (hn : n ≠ 0) (hrate : recentSymbols p o ≤ 1000000 ∧ 1000000 < recentSymbols p o + n) :
    Raised 0x0105 0 (toLE 1 p ++ toLE 3 0 ++ toLE 4 (recentSymbols p o + n)) o (countSymbols p n o) := by
  rw [countSymbols_eq hn, if_pos (by simp [hrate])]
  exact ⟨by rw [raise_logs]; rfl, by rw [raise_logs]; rfl⟩

/-! ### Flits are discarded or accepted -/

section Flit
variable {port : Fin 14} {n : Nat} {seq ack : BitVec 16} {o : State} (hup : (linkAt o port.val).st = .up)
include hup

/-- A flit with an uncorrectable codeword. -/
theorem flit_uncorrectable (crc : Bool) (ms : List (Fin 2 × PeerMsg)) (cs : List (Fin 4 × Fin 2 × Nat)) :
    exec (.flitReceive port false seq ack ⟨crc, n, ms, cs⟩) o = .next (groundPart o (modLink port.val (fun x => { x with
      recv := satAdd 64 x.recv 1, uncorr := satAdd 32 x.uncorr 1, asked := true }) (countSymbols port.val n o))) := by
  change execFlitReceive port false seq ack ⟨crc, n, ms, cs⟩ o = _
  simp [execFlitReceive, hup]

/-- A flit whose CRC fails, or that is not the next one. -/
theorem flit_discarded {crc : Bool} (ms : List (Fin 2 × PeerMsg)) (cs : List (Fin 4 × Fin 2 × Nat))
    (hbad : crc = false ∨ seq ≠ (linkAt (countSymbols port.val n o) port.val).nextRecv) :
    exec (.flitReceive port true seq ack ⟨crc, n, ms, cs⟩) o = .next (groundPart o (modLink port.val (fun x => { x with
      recv := satAdd 64 x.recv 1, asked := true }) (countSymbols port.val n o))) := by
  change execFlitReceive port true seq ack ⟨crc, n, ms, cs⟩ o = _
  rw [nextRecv_countSymbols] at hbad
  have hcond : (!crc || decide (seq ≠ (linkAt o port.val).nextRecv)) = true := by
    rcases hbad with h | h <;> simp [h]
  simp only [execFlitReceive, hup, ne_eq, not_true, if_false, Bool.not_true, Bool.false_eq_true] at hcond ⊢
  rw [if_pos hcond]
  rfl

/-- The state in which a flit's number, acknowledgement and credits have been taken. -/
def flitTaken (p : Nat) (ack : BitVec 16) (cs : List (Fin 4 × Fin 2 × Nat)) (s : State) : State :=
  takeCredits p cs (ackFlits p ack (modLink p (fun x => { x with
    recv := satAdd 64 x.recv 1, nextRecv := x.nextRecv + 1, asked := false }) s))

/-- The next intact flit is accepted. -/
theorem flit_accepted (ms : List (Fin 2 × PeerMsg)) (cs : List (Fin 4 × Fin 2 × Nat))
    (hseq : seq = (linkAt (countSymbols port.val n o) port.val).nextRecv) :
    exec (.flitReceive port true seq ack ⟨true, n, ms, cs⟩) o = .next (groundPart o
      (deliverAll port.val (if port.val < 12 then ms else []) (pump (flitTaken port.val ack cs (countSymbols port.val n o))))) := by
  change execFlitReceive port true seq ack ⟨true, n, ms, cs⟩ o = _
  rw [nextRecv_countSymbols] at hseq
  simp only [execFlitReceive, hup, ne_eq, not_true, if_false, Bool.not_true, Bool.false_eq_true, hseq, decide_false, Bool.or_self]
  rfl

end Flit

end Sys2Proof.Machine
end

section
/-! The state in which the message of an accepted flit acts. -/

namespace Sys2Proof.Machine

/-- A port that has accepted its next flit, with no flit of its own being filled. -/
def acceptedLink (ack : BitVec 16) (x : Link) : Link :=
  { x with recv := satAdd 64 x.recv 1, nextRecv := x.nextRecv + 1, asked := false
           retry := x.retry.filter fun e => !decide ((ack - e.seq).toNat < 2 ^ 15), fill := 0 }

/-- State u has accepted a flit on port p, and owes its credits. -/
structure Accepted (p : Nat) (ack : BitVec 16) (k n : Nat) (s u : State) : Prop where
  port   : linkAt u p = { acceptedLink ack (linkAt s p) with
    owed := Tab.set 0 (linkAt s p).owed k (Tab.get 0 (linkAt s p).owed k + n) }
  other  : ∀ j, j < 14 → j ≠ p → linkAt u j = flushed (linkAt s j)
  routes : SameRoutes s u

/-- A port owes its peer n credits more of a lane. -/
def owing (p k n : Nat) : State → State := modLink p fun x => { x with owed := Tab.set 0 x.owed k (Tab.get 0 x.owed k + n) }

theorem linkAt_owing_same (p k n : Nat) (s : State) : linkAt (owing p k n s) p =
    { linkAt s p with owed := Tab.set 0 (linkAt s p).owed k (Tab.get 0 (linkAt s p).owed k + n) } := linkAt_modLink_same _ _ _

theorem linkAt_owing_other {p j : Nat} (k n : Nat) (s : State) (hj : j ≠ p) : linkAt (owing p k n s) j = linkAt s j :=
  linkAt_modLink_other _ _ hj

theorem linkAt_relink (u s : State) (j : Nat) : linkAt (relink u.links s) j = linkAt u j := rfl

theorem relink_owing (p k n : Nat) (l : Tab Link) (s : State) :
    relink (owing p k n (relink l s)).links s = owing p k n (relink l s) := rfl

theorem deliverAll_one (p : Nat) (sub : Fin 2) (m : PeerMsg) (s : State) : deliverAll p [(sub, m)] s =
    deliverMsg p sub.val m (owing p (laneKey (vcOf m) sub.val) (flitsOf m) s) := rfl

theorem linkAt_flitTaken_other {p j : Nat} (ack : BitVec 16) (s : State) (hj : j ≠ p) :
    linkAt (flitTaken p ack [] s) j = linkAt s j := by
  rw [flitTaken, takeCredits, List.foldl_nil, ackFlits, linkAt_modLink_other _ _ hj, linkAt_modLink_other _ _ hj]

theorem flushed_flitTaken (p : Nat) (ack : BitVec 16) (s : State) :
    flushed (linkAt (flitTaken p ack [] s) p) = acceptedLink ack (linkAt s p) := by
  simp [flitTaken, takeCredits, ackFlits, flushed, acceptedLink]

/-- No message waits at a port that has accepted a flit: nothing but its links has changed. -/
theorem pump_flitTaken {p : Nat} {ack : BitVec 16} {cs : List (Fin 4 × Fin 2 × Nat)} {s : State} (hwait : s.net.waiting = []) :
    pump (flitTaken p ack cs s) = relink (sendFlits (flitTaken p ack cs s)).links s := by
  have hkept : ∃ l, flitTaken p ack cs s = relink l s := by
    refine ⟨(flitTaken p ack cs s).links, ?_⟩
    have hfold (cs : List (Fin 4 × Fin 2 × Nat)) (u : State) : ∃ l, takeCredits p cs u = relink l u := by
      induction cs generalizing u with
      | nil => exact ⟨u.links, rfl⟩
      | cons e cs ih =>
        obtain ⟨l, hl⟩ := ih (modLink p (fun x => { x with
          used := Tab.set 0 x.used (laneKey e.1.val e.2.1.val) (Tab.get 0 x.used (laneKey e.1.val e.2.1.val) - e.2.2) }) u)
        exact ⟨l, hl⟩
    obtain ⟨l, hl⟩ := hfold cs (ackFlits p ack (modLink p (fun x => { x with
      recv := satAdd 64 x.recv 1, nextRecv := x.nextRecv + 1, asked := false }) s))
    rw [flitTaken, hl]
    rfl
  obtain ⟨l, hl⟩ := hkept
  have hnone : (relink l s).net.waiting = [] := hwait
  rw [hl, pump_none hnone]
  exact sendFlits_eq (relink l s)

/-- What a flit of one message needs in order to act: its port is UP and a DL port, and no message waits for a port. -/
structure Receives (port : Fin 14) (n : Nat) (o : State) : Prop where
  up : (linkAt o port.val).st = .up
  dl : port.val < 12
  waiting : (countSymbols port.val n o).net.waiting = []

section Deliver
variable {port : Fin 14} {n : Nat} {seq ack : BitVec 16} {o : State} (h : Receives port n o)
include h

/-- The message of an accepted flit acts in a state that differs by its links. -/
theorem flit_delivers (sub : Fin 2) (m : PeerMsg) (hseq : seq = (linkAt (countSymbols port.val n o) port.val).nextRecv) :
    ∃ l, Accepted port.val ack (laneKey (vcOf m) sub.val) (flitsOf m) (countSymbols port.val n o)
        (relink l (countSymbols port.val n o)) ∧
      exec (.flitReceive port true seq ack ⟨true, n, [(sub, m)], []⟩) o =
        .next (groundPart o (deliverMsg port.val sub.val m (relink l (countSymbols port.val n o)))) := by
  rw [flit_accepted h.up _ _ hseq, if_pos h.dl, pump_flitTaken h.waiting]
  generalize countSymbols port.val n o = s
  have hport (j : Nat) : linkAt (relink (sendFlits (flitTaken port.val ack [] s)).links s) j =
      linkAt (sendFlits (flitTaken port.val ack [] s)) j := linkAt_relink _ _ j
  have hother {j : Nat} (hj : j ≠ port.val) : linkAt (sendFlits (flitTaken port.val ack [] s)) j =
      if j < 14 then flushed (linkAt s j) else linkAt s j := by
    rw [linkAt_sendFlits, linkAt_flitTaken_other ack s hj]
  have hown : linkAt (sendFlits (flitTaken port.val ack [] s)) port.val = acceptedLink ack (linkAt s port.val) := by
    rw [linkAt_sendFlits, if_pos port.isLt, flushed_flitTaken]
  generalize sendFlits (flitTaken port.val ack [] s) = u at hport hother hown ⊢
  refine ⟨(owing port.val (laneKey (vcOf m) sub.val) (flitsOf m) (relink u.links s)).links, ?_, ?_⟩
  rotate_left
  · rw [deliverAll_one, relink_owing]
  have hsame (j : Nat) : (if j < 14 then flushed (linkAt s j) else linkAt s j).cfg = (linkAt s j).cfg ∧
      (if j < 14 then flushed (linkAt s j) else linkAt s j).st = (linkAt s j).st := by
    split <;> exact ⟨rfl, rfl⟩
  refine ⟨?_, fun j hj hne => ?_, ⟨fun j => ?_, fun j => ?_, rfl⟩⟩
  · rw [linkAt_relink, linkAt_owing_same, hport, hown]
    rfl
  · rw [linkAt_relink, linkAt_owing_other _ _ _ hne, hport, hother hne, if_pos hj]
  · by_cases hj : j = port.val
    · rw [linkAt_relink, hj, linkAt_owing_same, hport, hown]
      rfl
    · rw [linkAt_relink, linkAt_owing_other _ _ _ hj, hport, hother hj]
      exact (hsame j).1
  · by_cases hj : j = port.val
    · rw [linkAt_relink, hj, linkAt_owing_same, hport, hown]
      rfl
    · rw [linkAt_relink, linkAt_owing_other _ _ _ hj, hport, hother hj]
      exact (hsame j).2

end Deliver

end Sys2Proof.Machine
end

section
/-! What the messages of another module do when their flit has been accepted. -/

namespace Sys2Proof.Machine

/-! ### Flits of one message -/

section Clauses
variable (port : Fin 14) (n : Nat) (seq ack : BitVec 16) (o : State) (sub : Fin 2) (m : PeerMsg) (P : State → Prop)

/-- The next flit, of one message, is accepted, and leaves a state with property P. -/
def FlitGot : Prop := seq = (linkAt (countSymbols port.val n o) port.val).nextRecv →
  ∃ t, exec (.flitReceive port true seq ack ⟨true, n, [(sub, m)], []⟩) o = .next t ∧
    (linkAt t port.val).nextRecv = (linkAt (countSymbols port.val n o) port.val).nextRecv + 1 ∧
    (linkAt t port.val).recv = satAdd 64 (linkAt (countSymbols port.val n o) port.val).recv 1 ∧
    (linkAt t port.val).asked = false ∧ P t

/-- The next flit, of one message that sends nothing by its port and changes no memory, is accepted. -/
def FlitQuiet : Prop := FlitGot port n seq ack o sub m fun t => t.mem = (countSymbols port.val n o).mem ∧
  (linkAt t port.val).retry = ((linkAt (countSymbols port.val n o) port.val).retry.filter fun e =>
    !decide ((ack - e.seq).toNat < 2 ^ 15)) ∧
  Tab.get 0 (linkAt t port.val).owed (2 * vcOf m + sub.val) =
    Tab.get 0 (linkAt (countSymbols port.val n o) port.val).owed (2 * vcOf m + sub.val) + flitsOf m ∧ P t

end Clauses

section Clauses
variable {port : Fin 14} {n : Nat} {seq ack : BitVec 16} {o : State} {sub : Fin 2} {m : PeerMsg} {P : State → Prop}

/-- A message whose effect keeps the port's numbers. -/
theorem flitGot_of (h : Receives port n o)
    (hm : ∀ l, Accepted port.val ack (laneKey (vcOf m) sub.val) (flitsOf m) (countSymbols port.val n o)
        (relink l (countSymbols port.val n o)) →
      linkKept (linkAt (deliverMsg port.val sub.val m (relink l (countSymbols port.val n o))) port.val) =
        linkKept (linkAt (relink l (countSymbols port.val n o)) port.val) ∧
      P (groundPart o (deliverMsg port.val sub.val m (relink l (countSymbols port.val n o))))) :
    FlitGot port n seq ack o sub m P := by
  intro hseq
  obtain ⟨l, hacc, hnext⟩ := flit_delivers h sub m hseq
  obtain ⟨hkept, hP⟩ := hm l hacc
  rw [hacc.port] at hkept
  exact ⟨_, hnext, congrArg Link.nextRecv hkept, congrArg Link.recv hkept, congrArg Link.asked hkept, hP⟩

/-- A message whose effect keeps the port and memory. -/
theorem flitQuiet_of (h : Receives port n o)
    (hm : ∀ l, Accepted port.val ack (laneKey (vcOf m) sub.val) (flitsOf m) (countSymbols port.val n o)
        (relink l (countSymbols port.val n o)) →
      linkAt (deliverMsg port.val sub.val m (relink l (countSymbols port.val n o))) port.val =
        linkAt (relink l (countSymbols port.val n o)) port.val ∧
      (deliverMsg port.val sub.val m (relink l (countSymbols port.val n o))).mem = (countSymbols port.val n o).mem ∧
      P (groundPart o (deliverMsg port.val sub.val m (relink l (countSymbols port.val n o))))) :
    FlitQuiet port n seq ack o sub m P := by
  refine flitGot_of h fun l hacc => ?_
  obtain ⟨hlink, hmem, hP⟩ := hm l hacc
  refine ⟨congrArg linkKept hlink, hmem, ?_, ?_, hP⟩ <;> rw [linkAt_groundPart, hlink, hacc.port]
  · rfl
  · exact Tab.get_set_same 0 _ _ _

end Clauses

/-! ### Faults that messages raise -/

theorem latches_faultWith {c : Nat} {code : FaultCode} {s u : State} (it : Item) (d : FaultDetail) (hctx : ctxAt u c = ctxAt s c) :
    Latches c code s (faultWith c code it d u) := by
  intro hnone
  rw [faultWith, latch, ctxAt_modCtx_same, hctx, hnone]
  exact ⟨_, rfl, rfl, rfl, rfl⟩

theorem ofNum_num (f : FaultCode) : FaultCode.ofNum (BitVec.ofNat 8 f.num).toNat = some f := by
  cases f <;> rfl

/-- A LOST notice changes nothing but its context. -/
theorem lostMessage_keeps {α : Type} (g : State → α) (c : Nat) (s : State) (h : ∀ c f u, g (modCtx c f u) = g u) :
    g (lostMessage c s) = g s := by
  unfold lostMessage faultLive
  split
  · rfl
  · split
    · rfl
    · rw [faultAt, faultWith, latch]
      exact h c _ s

theorem lostMessage_latches {c : Nat} {s u : State} (hc : c ≠ 0) (hst : ctxSt u c ≠ .free) (hctx : ctxAt u c = ctxAt s c) :
    Latches c .linkLost s (lostMessage c u) := by
  intro hnone
  have hfree : ¬ ((c = 0 || (ctxAt u c).st = .free) = true) := by simpa [hc, ctxSt, hctx, hnone] using hst
  rw [lostMessage, if_neg (by rw [hctx, hnone]; exact Bool.false_ne_true), faultLive, if_neg hfree]
  exact latches_faultWith noItem .none hctx hnone

theorem lostMessage_latched {c : Nat} {s : State} {l : Latched} (h : (ctxAt s c).latched = some l) : lostMessage c s = s := by
  rw [lostMessage, h]
  rfl

/-! ### Messages that leave the port -/

section Quiet
variable {port : Fin 14} {n : Nat} {seq ack : BitVec 16} {o : State} (h : Receives port n o) (sub : Fin 2)
include h

theorem flit_knotReq {op : BitVec 3} {a : BitVec 64} {c : Fin 16} {pa : Nat} (v : BitVec 24) (m : BitVec 14) (site : Site) (b : Fin 16)
    (hgood : (kaddrOf a.toNat).bad = false) (hop : op.toNat ≤ 4)
    (hat : knotAt (countSymbols port.val n o) c.val (portQuarter port.val) (kaddrOf a.toNat) (op ≠ 2) = .at_ pa) :
    FlitQuiet port n seq ack o sub (.knotReq op v a c m site b) fun t => ∃ seen,
      t.net = { (countSymbols port.val n o).net with reqs := (countSymbols port.val n o).net.reqs ++
        [⟨op.toNat, v, a, c.val, pa, m.toNat, some (siteNo site, b.val), seen⟩] } := by
  refine flitQuiet_of h fun l _ => ?_
  rw [← knotAt_same (samePlaces_relink l _)] at hat
  have hgo : ¬ (((kaddrOf a.toNat).bad || decide (4 < op.toNat)) = true) := by simp [hgood, hop]
  simp only [deliverMsg, if_neg hgo, hat]
  exact ⟨rfl, rfl, _, rfl⟩

theorem flit_knotReply (site : Site) (b : Fin 16) (v : BitVec 24) (y : Bool) :
    FlitQuiet port n seq ack o sub (.knotReply site b v y) fun t => ∃ seen,
      t.net = { (countSymbols port.val n o).net with reps := (countSymbols port.val n o).net.reps ++
        [⟨replyPort port.val, siteNo site, b.val, v, y, seen⟩] } :=
  flitQuiet_of h fun _ _ => ⟨rfl, rfl, _, rfl⟩

theorem flit_knotAck (site : Site) (b : Fin 16) :
    FlitQuiet port n seq ack o sub (.knotAck site b) fun t => t.net = (countSymbols port.val n o).net ∧
      (b.val < 8 → Tab.get Binding.ready (tileAt t (siteNo site)).kb b.val = .ready) ∧
      (8 ≤ b.val → b.val < 12 → Tab.get 0 (tileAt t (siteNo site)).kchk (b.val - 8) = 2) := by
  refine flitQuiet_of h fun l _ => ?_
  rw [deliverMsg, siteDone]
  by_cases hb : b.val < 8
  · rw [if_pos hb]
    refine ⟨rfl, rfl, rfl, fun _ => ?_, fun _ _ => by omega⟩
    rw [tileAt_groundPart, setBinding, tileAt_modTile_same]
    dsimp only
    rw [Tab.get_set_same]
  · rw [if_neg hb]
    by_cases hchk : b.val < 12
    · rw [if_pos hchk]
      refine ⟨rfl, rfl, rfl, fun _ => by omega, fun _ _ => ?_⟩
      rw [tileAt_groundPart, tileAt_modTile_same]
      dsimp only
      rw [Tab.get_set_same]
    · rw [if_neg hchk]
      exact ⟨rfl, rfl, rfl, fun _ => by omega, fun _ _ => by omega⟩

theorem flit_knotFault {c : Fin 16} (site : Site) (b : Fin 16) (f : FaultCode) (wd : BitVec 64) (hc : c ≠ 0)
    (hst : ctxSt (countSymbols port.val n o) c.val ≠ .free) :
    FlitQuiet port n seq ack o sub (.knotFault c site b (BitVec.ofNat 8 f.num) wd) fun t =>
      (b.val < 8 ∨ b.val = 12 → Latches c.val f (countSymbols port.val n o) t) ∧
      (8 ≤ b.val → b.val < 12 → Tab.get 0 (tileAt t (siteNo site)).kchk (b.val - 8) = 256 + f.num + 65536 * wd.toNat) := by
  refine flitQuiet_of h fun l _ => ?_
  have hlive : ¬ ((decide (c = 0) || decide (ctxSt (relink l (countSymbols port.val n o)) c.val = .free)) = true) := by
    rw [ctxSt_same (samePlaces_relink l _)]
    simp [hc, hst]
  simp only [deliverMsg, ofNum_num, if_neg hlive, siteFault]
  have hctx (t : State) : ctxAt (relink l t) c.val = ctxAt t c.val := rfl
  by_cases hchk : 8 ≤ b.val ∧ b.val < 12
  · rw [if_pos (by simpa using hchk)]
    refine ⟨rfl, rfl, fun _ => by omega, fun _ _ => ?_⟩
    rw [tileAt_groundPart, tileAt_modTile_same]
    dsimp only
    rw [Tab.get_set_same]
  · rw [if_neg (by simpa using hchk)]
    by_cases hb : b.val < 8
    · rw [if_pos hb]
      exact ⟨rfl, rfl, fun _ => latches_faultWith _ _ (hctx _), fun _ _ => by omega⟩
    · rw [if_neg hb]
      exact ⟨rfl, rfl, fun _ => latches_faultWith _ _ (hctx _), fun _ _ => by omega⟩

theorem flit_chanCtrl (k : BitVec 12) (v : BitVec 32) (y : Bool) :
    FlitQuiet port n seq ack o sub (if y then .chanHead k v else .chanTail k v) fun t => t.net =
      if (chanAt (countSymbols port.val n o) k.toNat).st = .opened then { (countSymbols port.val n o).net with
        ctrls := (countSymbols port.val n o).net.ctrls ++ [(y, k.toNat, v)] } else (countSymbols port.val n o).net := by
  refine flitQuiet_of h fun l _ => ?_
  have hdeliver : deliverMsg port.val sub.val (if y then .chanHead k v else .chanTail k v)
      (relink l (countSymbols port.val n o)) = ctrlOut (y, k.toNat, v) (relink l (countSymbols port.val n o)) := by
    cases y <;> rfl
  have hchan : chanAt (relink l (countSymbols port.val n o)) k.toNat = chanAt (countSymbols port.val n o) k.toNat := rfl
  rw [hdeliver, ctrlOut, hchan]
  by_cases hopen : (chanAt (countSymbols port.val n o) k.toNat).st = .opened
  · rw [if_pos hopen, if_pos hopen]
    exact ⟨rfl, rfl, rfl⟩
  · rw [if_neg hopen, if_neg hopen]
    exact ⟨rfl, rfl, rfl⟩

theorem flit_copyUnit (c : Fin 16) (a : BitVec 64) (bs : List Byte) (m : BitVec 14) (i : Nat) :
    FlitQuiet port n seq ack o sub (.copyUnit c a bs m i) fun t =>
      t.net = { (countSymbols port.val n o).net with units := (countSymbols port.val n o).net.units ++
        [⟨c.val, a, bs, m.toNat, i, portQuarter port.val⟩] } :=
  flitQuiet_of h fun _ _ => ⟨rfl, rfl, rfl⟩

theorem flit_copyAck {i : Nat} {y : Copy} (hfind : (countSymbols port.val n o).net.copies.find? (fun z => z.id = i) = some y) :
    FlitQuiet port n seq ack o sub (.copyAck i 0) fun t =>
      t.net = { (countSymbols port.val n o).net with copies := (countSymbols port.val n o).net.copies.map fun z =>
        if z.id = i then { z with unacked := z.unacked - 1 } else z } := by
  refine flitQuiet_of h fun l _ => ?_
  have hfind' : (relink l (countSymbols port.val n o)).net.copies.find? (fun z => z.id = i) = some y := hfind
  have hcode : FaultCode.ofNum (0 : BitVec 8).toNat = none := rfl
  simp only [deliverMsg, hfind', hcode]
  exact ⟨rfl, rfl, rfl⟩

theorem flit_lost {c : Fin 16} (hc : c ≠ 0) (hst : ctxSt (countSymbols port.val n o) c.val ≠ .free) :
    FlitQuiet port n seq ack o sub (.lost c) fun t => Latches c.val .linkLost (countSymbols port.val n o) t ∧
      t.net = (countSymbols port.val n o).net := by
  refine flitQuiet_of h fun l _ => ?_
  rw [deliverMsg]
  refine ⟨lostMessage_keeps (linkAt · port.val) _ _ fun _ _ _ => rfl, lostMessage_keeps State.mem _ _ fun _ _ _ => rfl, ?_,
    lostMessage_keeps State.net _ _ fun _ _ _ => rfl⟩
  exact lostMessage_latches (by simpa using hc) hst rfl

end Quiet

end Sys2Proof.Machine
end

section
/-! Messages of another module that send messages, and messages that are lost. -/

namespace Sys2Proof.Machine

/-- The controller's message waits for its port. -/
theorem enqueue_controller {m : OutMsg} (s : State) (h : m.ctx = 0) :
    enqueue m s = pump (modNet (fun n => { n with waiting := n.waiting ++ [m] }) s) := by
  rw [enqueue, h]
  rfl

/-- A message without a port of its own waits alone. -/
theorem pump_alone_blocked {s : State} {m : OutMsg} (hwait : s.net.waiting = []) (hport : portNow s m = none) :
    (pump (modNet (fun n => { n with waiting := n.waiting ++ [m] }) s)).net = { s.net with waiting := [m] } ∧
    ∀ j, linkAt (pump (modNet (fun n => { n with waiting := n.waiting ++ [m] }) s)) j = linkAt (sendFlits s) j := by
  have hone : (modNet (fun n => { n with waiting := n.waiting ++ [m] }) s).net = { s.net with waiting := [m] } := by
    rw [modNet, hwait]
    rfl
  rw [pump_blocked (congrArg Net.waiting hone) ((portNow_same ⟨fun _ => rfl, fun _ => rfl, rfl⟩ m).trans hport)]
  refine ⟨?_, fun j => ?_⟩
  · rw [sendFlits_eq]
    exact hone
  · rw [linkAt_sendFlits, linkAt_sendFlits, linkAt_modNet]

/-- A message that its port takes at once. -/
theorem pump_alone_leaves {s : State} {m : OutMsg} {r : Nat} (hwait : s.net.waiting = []) (hport : portNow s m = some r)
    (hr : r < 14) (hfill : (linkAt s r).fill = 0) (hroom : (linkAt s r).retry.length + flitsOf m.msg ≤ 1024)
    (hvc : vcOf m.msg < 4) (hcover : creditsCover (linkAt s r) (vcOf m.msg) m.sub (flitsOf m.msg) = true) {t : State}
    (ht : pump (modNet (fun n => { n with waiting := n.waiting ++ [m] }) s) = t) :
    t.net = s.net ∧ (∀ j, j ≠ r → linkAt t j = linkAt (sendFlits s) j) ∧
    (linkAt t r).nextSend = (linkAt s r).nextSend + BitVec.ofNat 16 (flitsOf m.msg) ∧
    (linkAt t r).retry.flatMap (·.msgs) = (linkAt s r).retry.flatMap (·.msgs) ++ [m] := by
  have hone : (modNet (fun n => { n with waiting := n.waiting ++ [m] }) s).net.waiting = [m] := by
    rw [modNet, hwait]
    rfl
  obtain ⟨ts, hpump⟩ := pump_one hone ((portNow_same ⟨fun _ => rfl, fun _ => rfl, rfl⟩ m).trans hport) hroom hvc hcover
  rw [hpump] at ht
  have hlink : linkAt t r = flushed (linkAt (intoFlit r m (modLink r (fun x => { x with turns := ts })
      (modNet (fun n => { n with waiting := [] }) (modNet (fun n => { n with waiting := n.waiting ++ [m] }) s)))) r) := by
    rw [← ht, linkAt_sendFlits, if_pos hr]
  rw [intoFlit, linkAt_modLink_same, linkAt_modLink_same, linkAt_modNet, linkAt_modNet] at hlink
  refine ⟨?_, fun j hj => ?_, ?_, ?_⟩
  · rw [← ht, sendFlits_eq]
    change ({ s.net with waiting := [] } : Net) = s.net
    rw [← hwait]
  · rw [← ht, linkAt_sendFlits, linkAt_sendFlits, intoFlit, linkAt_modLink_other _ _ hj, linkAt_modLink_other _ _ hj,
      linkAt_modNet, linkAt_modNet]
  · rw [hlink]
    simp [flushed, newFlits, flitsOf, hfill]
  · rw [hlink]
    exact packed_msgs (x := { linkAt s r with turns := ts }) hfill

/-- The acknowledgement of a delta record that has arrived on a port. -/
def recordAckTo (p : Nat) (c : Fin 16) (bs : List Byte) (s : State) : OutMsg :=
  ⟨0, portQuarter p, (dheadOf bs).src, .recordAck c s.dev.moduleId, subOf s (dheadOf bs).src none, false, none⟩

/-- A delta record arrives. -/
def recordArrived (c : Nat) (bs : List Byte) : State → State := modDelta c fun d => { d with arrived := d.arrived ++ [(bs, none)] }

theorem deliverMsg_deltaRecord (p sub : Nat) (c : Fin 16) (bs : List Byte) (s : State) :
    deliverMsg p sub (.deltaRecord c bs) s = enqueue (recordAckTo p c bs (recordArrived c.val bs s)) (recordArrived c.val bs s) := rfl

theorem recordAckTo_same {s u : State} (h : SameRoutes s u) (hdev : u.dev = s.dev) (p : Nat) (c : Fin 16) (bs : List Byte) :
    recordAckTo p c bs u = recordAckTo p c bs s := by
  rw [recordAckTo, recordAckTo, subOf_same h, hdev]

/-- A message between other modules as it goes on from here: it came by ROLE and sub-channel `came`. -/
def goesOn (q : Nat) (m : PeerMsg) (dest : Nat) (came : Nat × Nat) (s : State) : OutMsg :=
  ⟨0, q, dest, m, subOf s dest (some came), false, none⟩

theorem deliverMsg_transit {p sub : Nat} {src dest : BitVec 14} {c : Fin 16} {vc : Fin 4} {cls : Bool} {bs : List Byte} {s : State}
    (h : dest.toNat ≠ ownId s) : deliverMsg p sub (.transit src dest c vc cls bs) s =
      enqueue (goesOn (portQuarter p) (.transit src dest c vc cls bs) dest.toNat (lkRole (linkAt s p), sub) s) s := by
  rw [deliverMsg, if_neg h]
  rfl

theorem goesOn_same {s u : State} (h : SameRoutes s u) (p q : Nat) (m : PeerMsg) (dest sub : Nat) :
    goesOn q m dest (lkRole (linkAt u p), sub) u = goesOn q m dest (lkRole (linkAt s p), sub) s := by
  rw [goesOn, goesOn, subOf_same h, lkRole_same h]

section Loud
variable {port : Fin 14} {n : Nat} {seq ack : BitVec 16} {o : State} (h : Receives port n o) (sub : Fin 2)
include h

theorem flit_ringSlots {k : BitVec 12} {i : Nat} {vs : List DataTok} {u : State}
    (hopen : (chanAt (countSymbols port.val n o) k.toNat).st = .opened)
    (hrecv : hasReceiver (chanAt (countSymbols port.val n o) k.toNat) = true)
    (hput : putSlots (portQuarter port.val) (chanAt (countSymbols port.val n o) k.toNat) i vs (countSymbols port.val n o) = (u, none)) :
    FlitGot port n seq ack o sub (.ringSlots k i vs) fun t => t.mem = u.mem ∧ t.chans = (countSymbols port.val n o).chans := by
  refine flitGot_of h fun l _ => ?_
  have hchan : chanAt (relink l (countSymbols port.val n o)) k.toNat = chanAt (countSymbols port.val n o) k.toNat := rfl
  have hchans : u.chans = (countSymbols port.val n o).chans := putSlots_keeps State.chans hput fun _ => rfl
  have hgo : ¬ ((decide ((chanAt (countSymbols port.val n o) k.toNat).st ≠ .opened) ||
      !hasReceiver (chanAt (countSymbols port.val n o) k.toNat)) = true) := by simp [hopen, hrecv]
  rw [deliverMsg, slotsArrive, hchan, if_neg hgo, putSlots_relink hput]
  dsimp only
  refine ⟨?_, ?_, ?_⟩
  · rw [linkKept_sendOut]
    split <;> rfl
  · rw [groundPart_mem, sendOut_mem]
    split <;> rfl
  · rw [groundPart_chans, sendOut_chans, ← hchans]
    split <;> rfl

/-- An acknowledgement of a write over a link. -/
theorem flit_farAcked {m : PeerMsg} {is : FarWrite → Bool}
    (hm : ∀ s, deliverMsg port.val sub.val m s = farAcked is s) :
    FlitGot port n seq ack o sub m fun t => t.net.far = eraseFirst is (countSymbols port.val n o).net.far ∧
      t.mem = (countSymbols port.val n o).mem := by
  refine flitGot_of h fun l _ => ?_
  rw [hm, farAcked]
  exact ⟨linkKept_sendTails _ _, sendTails_keeps (·.net.far) _ fun _ => rfl, sendTails_keeps State.mem _ fun _ => rfl⟩

theorem flit_deltaRecord (c : Fin 16) (bs : List Byte) :
    FlitGot port n seq ack o sub (.deltaRecord c bs) fun t =>
      (ctxAt t c.val).delta.arrived = (ctxAt (countSymbols port.val n o) c.val).delta.arrived ++ [(bs, none)] ∧
      t.mem = (countSymbols port.val n o).mem ∧
      (portNow (countSymbols port.val n o) (recordAckTo port.val c bs (countSymbols port.val n o)) = none →
        t.net = { (countSymbols port.val n o).net with waiting := [recordAckTo port.val c bs (countSymbols port.val n o)] }) := by
  refine flitGot_of h fun l hacc => ?_
  have hwait := h.waiting
  generalize countSymbols port.val n o = s at hwait hacc ⊢
  rw [deliverMsg_deltaRecord]
  have hroutes : SameRoutes s (recordArrived c.val bs (relink l s)) := ⟨hacc.routes.cfg, hacc.routes.st, rfl⟩
  have hctx : ctxAt (relink l s) c.val = ctxAt s c.val := rfl
  rw [recordAckTo_same hroutes rfl]
  have hzero : (recordAckTo port.val c bs s).ctx = 0 := rfl
  have hmem := enqueue_keeps State.mem (recordAckTo port.val c bs s) (recordArrived c.val bs (relink l s)) fun _ => rfl
  have hctxs := enqueue_keeps (ctxAt · c.val) (recordAckTo port.val c bs s) (recordArrived c.val bs (relink l s)) fun _ => rfl
  rw [groundPart_mem, groundPart_net, ctxAt_groundPart]
  refine ⟨linkKept_enqueue _ _ _, ?_, hmem, fun hport => ?_⟩
  · rw [hctxs, recordArrived, modDelta, ctxAt_modCtx_same, hctx]
  · rw [enqueue_controller _ hzero]
    exact (pump_alone_blocked (s := recordArrived c.val bs (relink l s)) hwait ((portNow_same hroutes _).trans hport)).1

section Transit
variable {src dest : BitVec 14} {c : Fin 16} {vc : Fin 4} {cls : Bool} {bs : List Byte}

theorem flit_transit_waits (haway : dest.toNat ≠ ownId (countSymbols port.val n o))
    (hport : portNow (countSymbols port.val n o) (goesOn (portQuarter port.val) (.transit src dest c vc cls bs) dest.toNat
      (lkRole (linkAt (countSymbols port.val n o) port.val), sub.val) (countSymbols port.val n o)) = none) :
    FlitQuiet port n seq ack o sub (.transit src dest c vc cls bs) fun t => t.net = { (countSymbols port.val n o).net with
      waiting := [goesOn (portQuarter port.val) (.transit src dest c vc cls bs) dest.toNat
        (lkRole (linkAt (countSymbols port.val n o) port.val), sub.val) (countSymbols port.val n o)] } := by
  refine flitQuiet_of h fun l hacc => ?_
  have hwait := h.waiting
  generalize countSymbols port.val n o = s at hwait hacc haway hport ⊢
  have haway' : dest.toNat ≠ ownId (relink l s) := haway
  have hzero : (goesOn (portQuarter port.val) (.transit src dest c vc cls bs) dest.toNat (lkRole (linkAt s port.val), sub.val) s).ctx =
    0 := rfl
  rw [deliverMsg_transit haway', goesOn_same hacc.routes, enqueue_controller _ hzero]
  obtain ⟨hnet, hlinks⟩ := pump_alone_blocked (s := relink l s) hwait ((portNow_same hacc.routes _).trans hport)
  have hfill : (linkAt (relink l s) port.val).fill = 0 := by
    rw [hacc.port]
    rfl
  rw [groundPart_net]
  exact ⟨(hlinks _).trans (linkAt_sendFlits_empty hfill), pump_keeps State.mem _ fun _ => rfl, hnet⟩

theorem flit_transit_leaves {r : Nat} (haway : dest.toNat ≠ ownId (countSymbols port.val n o))
    (hport : portNow (countSymbols port.val n o) (goesOn (portQuarter port.val) (.transit src dest c vc cls bs) dest.toNat
      (lkRole (linkAt (countSymbols port.val n o) port.val), sub.val) (countSymbols port.val n o)) = some r) (hr : r ≠ port.val)
    (hroom : (linkAt (countSymbols port.val n o) r).retry.length + flitsOf (.transit src dest c vc cls bs) ≤ 1024)
    (hcover : creditsCover (linkAt (countSymbols port.val n o) r) vc.val (goesOn (portQuarter port.val)
      (.transit src dest c vc cls bs) dest.toNat (lkRole (linkAt (countSymbols port.val n o) port.val), sub.val)
      (countSymbols port.val n o)).sub (flitsOf (.transit src dest c vc cls bs)) = true) :
    FlitQuiet port n seq ack o sub (.transit src dest c vc cls bs) fun t => t.net = (countSymbols port.val n o).net ∧
      (linkAt t r).nextSend = (linkAt (countSymbols port.val n o) r).nextSend +
        BitVec.ofNat 16 (flitsOf (.transit src dest c vc cls bs)) ∧
      (linkAt t r).retry.flatMap (·.msgs) = (linkAt (countSymbols port.val n o) r).retry.flatMap (·.msgs) ++
        [goesOn (portQuarter port.val) (.transit src dest c vc cls bs) dest.toNat
          (lkRole (linkAt (countSymbols port.val n o) port.val), sub.val) (countSymbols port.val n o)] := by
  refine flitQuiet_of h fun l hacc => ?_
  have hwait := h.waiting
  generalize countSymbols port.val n o = s at hwait hacc haway hport hroom hcover ⊢
  have haway' : dest.toNat ≠ ownId (relink l s) := haway
  have hzero : (goesOn (portQuarter port.val) (.transit src dest c vc cls bs) dest.toNat (lkRole (linkAt s port.val), sub.val) s).ctx =
    0 := rfl
  rw [deliverMsg_transit haway', goesOn_same hacc.routes, enqueue_controller _ hzero]
  have hlt : r < 12 := portNow_lt rfl hport
  have hother : linkAt (relink l s) r = flushed (linkAt s r) := hacc.other r (by omega) hr
  have hfill : (linkAt (relink l s) port.val).fill = 0 := by
    rw [hacc.port]
    rfl
  have hsends := pump_alone_leaves (s := relink l s) hwait ((portNow_same hacc.routes _).trans hport) (by omega) (by rw [hother]; rfl)
    (by rw [hother]; exact hroom) vc.isLt (by rw [hother]; exact hcover) rfl
  rw [hother] at hsends
  obtain ⟨hnet, hlinks, hnext, hmsgs⟩ := hsends
  rw [groundPart_net, linkAt_groundPart]
  exact ⟨(hlinks _ hr.symm).trans (linkAt_sendFlits_empty hfill), pump_keeps State.mem _ fun _ => rfl, hnet, hnext, hmsgs⟩

end Transit

end Loud

end Sys2Proof.Machine
end

section
/-! O51: flits are counted, accepted, discarded and replayed; their messages act, and messages without a port are lost. -/

namespace Sys2Proof.Machine

/-! ### Credits and replays -/

theorem relink_mem (l : Tab Link) (s : State) : (relink l s).mem = s.mem := rfl
theorem relink_net (l : Tab Link) (s : State) : (relink l s).net = s.net := rfl

/-- A flit of credits alone. -/
theorem flit_credits {port : Fin 14} {n : Nat} {seq ack : BitVec 16} {o : State} (hup : (linkAt o port.val).st = .up)
    (hwait : (countSymbols port.val n o).net.waiting = []) (vc : Fin 4) (sub : Fin 2) (k : Nat)
    (hseq : seq = (linkAt (countSymbols port.val n o) port.val).nextRecv) :
    ∃ t, exec (.flitReceive port true seq ack ⟨true, n, [], [(vc, sub, k)]⟩) o = .next t ∧
      linkAt t port.val = { acceptedLink ack (linkAt (countSymbols port.val n o) port.val) with
        used := Tab.set 0 (linkAt (countSymbols port.val n o) port.val).used (laneKey vc.val sub.val)
          (Tab.get 0 (linkAt (countSymbols port.val n o) port.val).used (laneKey vc.val sub.val) - k) } ∧
      t.mem = (countSymbols port.val n o).mem ∧ t.net = (countSymbols port.val n o).net := by
  have hnext := flit_accepted (ack := ack) hup [] [(vc, sub, k)] hseq
  rw [ite_self, pump_flitTaken hwait, deliverAll] at hnext
  generalize countSymbols port.val n o = s at hnext ⊢
  refine ⟨_, hnext, ?_, ?_, ?_⟩
  rotate_left
  · rw [groundPart_mem, relink_mem]
  · rw [groundPart_net, relink_net]
  rw [linkAt_groundPart, linkAt_relink, linkAt_sendFlits, if_pos port.isLt, flitTaken, takeCredits, List.foldl_cons,
    List.foldl_nil, linkAt_modLink_same, ackFlits, linkAt_modLink_same, linkAt_modLink_same]
  rfl

/-- A replay of the flits from a number onward. -/
theorem flitReplay_resends {port : Fin 14} {seq : BitVec 16} {o : State} (hup : (linkAt o port.val).st = .up)
    (hwait : o.net.waiting = []) (hsome : ((linkAt o port.val).retry.filter fun e => decide ((e.seq - seq).toNat < 2 ^ 15)) ≠ []) :
    ∃ t, exec (.flitReplay port seq) o = .next t ∧ linkAt t port.val = { linkAt o port.val with
        retry := (linkAt o port.val).retry.filter fun e => decide ((e.seq - seq).toNat < 2 ^ 15)
        replays := satAdd 32 (linkAt o port.val).replays 1, fill := 0
        sent := satAdd 64 (linkAt o port.val).sent
          ((linkAt o port.val).retry.filter fun e => decide ((e.seq - seq).toNat < 2 ^ 15)).length } ∧
      t.mem = o.mem ∧ t.net = o.net := by
  have hexec : exec (.flitReplay port seq) o = execFlitReplay port seq o := rfl
  rw [hexec, execFlitReplay]
  generalize (linkAt o port.val).retry.filter (fun e => decide ((e.seq - seq).toNat < 2 ^ 15)) = again at hsome ⊢
  have hgo : ¬ ((decide ((linkAt o port.val).st ≠ .up) || again.isEmpty) = true) := by simp [hup, hsome]
  have hnone : (modLink port.val (fun x => { x with
    retry := again, replays := satAdd 32 x.replays 1, sent := satAdd 64 x.sent again.length }) o).net.waiting = [] := hwait
  dsimp only
  rw [if_neg hgo, pump_none hnone]
  refine ⟨_, rfl, ?_, ?_, ?_⟩
  · rw [linkAt_groundPart, linkAt_sendFlits, if_pos port.isLt, linkAt_modLink_same]
    rfl
  · rw [groundPart_mem, sendFlits_eq]
    rfl
  · rw [groundPart_net, sendFlits_eq]
    rfl

/-! ### Messages without a port -/

/-- The state in which the n-th waiting message has been discarded. -/
def discardedAt (n p dest : Nat) (s : State) : State :=
  raise 0x0106 0 (toLE 1 p ++ toLE 1 0 ++ toLE 2 dest ++ toLE 4 1) (modLink p (fun x => { x with disc473 := satAdd 32 x.disc473 1 })
    (modNet (fun k => { k with waiting := k.waiting.eraseIdx n }) s))

/-- Who learns of a discarded message: nobody of a LOST notice, the source of one in transit, the context of any other. -/
def lostNotified (m : OutMsg) (s : State) : State :=
  match m.msg with
  | .lost _ => s
  | .transit src _ ctx _ _ _ => sendOut 0 m.quarter src.toNat (.lost ctx) s
  | _ => lostMessage m.ctx s

/-- Whether a message is one of a context of this module. -/
def ownMessage : PeerMsg → Bool
  | .lost _ => false
  | .transit _ _ _ _ _ _ => false
  | _ => true

theorem linkDiscard_discards {n : Nat} {m : OutMsg} {s : State} (hn : s.net.waiting[n]? = some m) (hport : portNow s m = none) :
    exec (.linkDiscard n) s = .next (groundPart s (lostNotified m (discardedAt n ((ownPort s m).getD 0) m.dest s))) := by
  have hexec : exec (.linkDiscard n) s = execLinkDiscard n s := rfl
  rw [hexec, execLinkDiscard, hn]
  dsimp only
  rw [hport]
  rfl

theorem lostNotified_own {m : OutMsg} (s : State) (h : ownMessage m.msg = true) : lostNotified m s = lostMessage m.ctx s := by
  unfold lostNotified
  split
  · next hm => rw [hm] at h; exact nomatch h
  · next hm => rw [hm] at h; exact nomatch h
  · rfl

/-- What a discarded message's notice leaves: neither contexts nor what messages to other modules change. -/
theorem lostNotified_keeps {α : Type} (g : State → α) (m : OutMsg) (s : State) (hlinks : ∀ u, g (linksOff u) = g u)
    (hctx : ∀ c f u, g (modCtx c f u) = g u) : g (lostNotified m s) = g s := by
  unfold lostNotified
  split
  · rfl
  · exact sendOut_keeps g _ _ _ _ s hlinks
  · exact lostMessage_keeps g _ s hctx

theorem linkKept_lostNotified (m : OutMsg) (s : State) (j : Nat) : linkKept (linkAt (lostNotified m s) j) = linkKept (linkAt s j) := by
  unfold lostNotified
  split
  · rfl
  · exact linkKept_sendOut _ _ _ _ s j
  · exact lostMessage_keeps (fun u => linkKept (linkAt u j)) _ s fun _ _ _ => rfl

/-- A notice of a message of another module changes no context. -/
theorem lostNotified_ctxs {m : OutMsg} (s : State) (h : ownMessage m.msg = false) : (lostNotified m s).ctxs = s.ctxs := by
  unfold lostNotified
  split
  · rfl
  · exact sendOut_ctxs _ _ _ _ s
  · next hlost htransit =>
    cases hm : m.msg
    case lost c => exact absurd hm (hlost c)
    case transit src dest c vc cls bs => exact absurd hm (htransit src dest c vc cls bs)
    all_goals rw [hm] at h; exact nomatch h

/-- Only the notice of a message in transit may itself wait for a port. -/
theorem lostNotified_waiting {m : OutMsg} (s : State) (h : ∀ src dst c vc cls bs, m.msg ≠ .transit src dst c vc cls bs) :
    (lostNotified m s).net.waiting = s.net.waiting := by
  unfold lostNotified
  split
  · rfl
  · next hm => exact absurd hm (h _ _ _ _ _ _)
  · exact lostMessage_keeps (·.net.waiting) _ s fun _ _ _ => rfl

theorem linkDiscard_loses {n : Nat} {m : OutMsg} {s : State} (hn : s.net.waiting[n]? = some m) (hport : portNow s m = none) :
    ∃ t, exec (.linkDiscard n) s = .next t ∧
      (linkAt t ((ownPort s m).getD 0)).disc473 = satAdd 32 (linkAt s ((ownPort s m).getD 0)).disc473 1 ∧
      Raised 0x0106 0 (toLE 1 ((ownPort s m).getD 0) ++ toLE 1 0 ++ toLE 2 m.dest ++ toLE 4 1) s t ∧ t.mem = s.mem ∧
      ((∀ src dst c vc cls bs, m.msg ≠ .transit src dst c vc cls bs) → t.net.waiting = s.net.waiting.eraseIdx n) ∧
      (if ownMessage m.msg then (m.ctx ≠ 0 → ctxSt s m.ctx ≠ .free → Latches m.ctx .linkLost s t) ∧
        (∀ l, (ctxAt s m.ctx).latched = some l → (ctxAt t m.ctx).latched = some l) else t.ctxs = s.ctxs) := by
  have hnext := linkDiscard_discards hn hport
  generalize (ownPort s m).getD 0 = p at hnext ⊢
  refine ⟨_, hnext, ?_, ?_, ?_, fun htransit => ?_, ?_⟩
  · have hkept := linkKept_lostNotified m (discardedAt n p m.dest s) p
    rw [discardedAt, linkAt_raise, linkAt_modLink_same, linkAt_modNet] at hkept
    exact congrArg Link.disc473 hkept
  · have hlogs : (lostNotified m (discardedAt n p m.dest s)).logs = (discardedAt n p m.dest s).logs :=
      lostNotified_keeps State.logs m _ (fun _ => rfl) fun _ _ _ => rfl
    rw [Raised, groundPart_logs, hlogs, discardedAt, raise_logs]
    exact ⟨rfl, rfl⟩
  · rw [groundPart_mem, lostNotified_keeps State.mem m _ (fun _ => rfl) fun _ _ _ => rfl, discardedAt, raise_mem]
    rfl
  · rw [groundPart_net, lostNotified_waiting _ htransit, discardedAt, raise_net]
    rfl
  · have hctxs : (discardedAt n p m.dest s).ctxs = s.ctxs := raise_ctxs _ _ _ _
    have hctx : ctxAt (discardedAt n p m.dest s) m.ctx = ctxAt s m.ctx := by rw [ctxAt, ctxAt, hctxs]
    cases hown : ownMessage m.msg with
    | false =>
      rw [if_neg Bool.false_ne_true, groundPart_ctxs, lostNotified_ctxs _ hown, hctxs]
    | true =>
      rw [if_pos rfl, lostNotified_own _ hown]
      refine ⟨fun hc hst => ?_, fun l hl => ?_⟩
      · exact lostMessage_latches hc (by rw [ctxSt, hctx]; exact hst) hctx
      · rw [ctxAt_groundPart, lostMessage_latched (hctx ▸ hl), hctx, hl]

theorem lostNotice_faults {c : Fin 16} {s : State} (hc : c ≠ 0) (hst : ctxSt s c.val ≠ .free) :
    ∃ t, exec (.lostNotice c) s = .next t ∧ Latches c.val .linkLost s t ∧
      (∀ l, (ctxAt s c.val).latched = some l → t = s) ∧ t.mem = s.mem ∧ t.net = s.net := by
  refine ⟨groundPart s (lostMessage c.val s), rfl, ?_, fun l hl => ?_, ?_, ?_⟩
  · exact lostMessage_latches (by simpa using hc) hst rfl
  · rw [lostMessage_latched hl, groundPart_self]
  · exact lostMessage_keeps State.mem _ _ fun _ _ _ => rfl
  · exact lostMessage_keeps State.net _ _ fun _ _ _ => rfl

/-! ### The obligation -/

/-- Settles O51: each clause is a lemma about the message, the flit or the discarded message that it names. -/
theorem flitsDeliverAndMessagesAreLost : Obligations.FlitsDeliverAndMessagesAreLost := by
  refine ⟨fun port n seq ack o => ?_, fun n m s hn hport => linkDiscard_loses hn hport, fun c s hc hst => lostNotice_faults hc hst⟩
  intro p s x hup flit
  refine ⟨fun hn => if_pos hn, fun hn => ?_, fun crc ms cs => ?_, fun crc ms cs hbad => ?_, fun hwait => ⟨fun hsome => ?_,
    fun vc sub k hseq => flit_credits hup hwait vc sub k hseq, fun sub => ?_⟩⟩
  · exact ⟨linkAt_countSymbols hn, countSymbols_net _ _ _, countSymbols_mem _ _ _, countSymbols_raised hn⟩
  · exact ⟨_, flit_uncorrectable hup crc ms cs, rfl, rfl, (linkAt_groundPart _ _ _).trans (linkAt_modLink_same _ _ _)⟩
  · exact ⟨_, flit_discarded hup ms cs hbad, rfl, rfl, (linkAt_groundPart _ _ _).trans (linkAt_modLink_same _ _ _)⟩
  · exact flitReplay_resends hup ((congrArg Net.waiting (countSymbols_net _ _ _)).symm.trans hwait) hsome
  · intro got quiet hdl
    have h : Receives port n o := ⟨hup, hdl, hwait⟩
    exact ⟨fun op v a c m site b pa hgood hop hat => flit_knotReq h sub v m site b hgood hop hat,
      fun site b v y => flit_knotReply h sub site b v y, fun site b => flit_knotAck h sub site b,
      fun c site b f wd hc hst => flit_knotFault h sub site b f wd hc hst,
      fun k i vs u hopen hrecv hput => flit_ringSlots h sub hopen hrecv hput,
      fun k => flit_farAcked h sub fun _ => rfl,
      fun k v y => flit_chanCtrl h sub k v y,
      fun c a bs m i => flit_copyUnit h sub c a bs m i,
      fun i y hfind => flit_copyAck h sub hfind,
      fun c bs => flit_deltaRecord h sub c bs,
      fun c m hseq => by
        obtain ⟨t, hnext, hrecv, hcount, hasked, hfar, hmem⟩ := flit_farAcked h sub (m := .recordAck c m) (fun _ => rfl) hseq
        exact ⟨t, hnext, hrecv, hcount, hasked, hmem, hfar⟩,
      fun c hc hst => flit_lost h sub hc hst,
      fun src dest c vc cls bs => ⟨fun haway hport => flit_transit_waits h sub haway hport,
        fun r haway hport hr hroom hcover => flit_transit_leaves h sub haway hport hr hroom hcover⟩⟩

end Sys2Proof.Machine
end

section
/-! A Darning engine takes a block, runs its steps one after another, and finishes it. -/

namespace Sys2Proof.Machine

/-! ### Steps of an engine follow each other -/

theorem run_of_does {α β : Type} {x : Eng α} {f : α → Eng β} {s u : State} {a : α} (hx : Does x s a u) :
    (x >>= f).run s = (f a).run u := by
  unfold Does at hx
  simp only [ExceptT.run, bind, ExceptT.bind, ExceptT.mk, StateT.bind, ExceptT.bindCont] at hx ⊢
  rw [hx]

theorem does_bind {α β : Type} {x : Eng α} {f : α → Eng β} {s u v : State} {a : α} {b : β}
    (hx : Does x s a u) (hf : Does (f a) u b v) : Does (x >>= f) s b v := (run_of_does hx).trans hf

theorem does_get (s : State) : Does get s s s := rfl
theorem does_set (u s : State) : Does (set u) s () u := rfl
theorem does_modify (f : State → State) (s : State) : Does (modify f) s () (f s) := rfl
theorem does_pure {α : Type} (a : α) (s : State) : Does (pure a) s a s := rfl

theorem does_if_pos {α : Type} {p : Prop} [Decidable p] {x y : Eng α} {s u : State} {a : α} (hp : p) (hx : Does x s a u) :
    Does (if p then x else y) s a u := by rwa [if_pos hp]

theorem does_if_neg {α : Type} {p : Prop} [Decidable p] {x y : Eng α} {s u : State} {a : α} (hp : ¬p) (hy : Does y s a u) :
    Does (if p then x else y) s a u := by rwa [if_neg hp]

/-- A step that is taken under a condition, before the rest. -/
theorem does_when {β : Type} {p : Prop} [Decidable p] {x : Eng Unit} {k : Unit → Eng β} {s u v : State} {b : β}
    (hx : Does (if p then x else pure ()) s () u) (hk : Does (k ()) u b v) : Does (if p then x >>= k else k ()) s b v := by
  split at hx
  · next hp => exact does_if_pos hp (does_bind hx hk)
  · next hp => cases hx; exact does_if_neg hp hk

/-- What is read under a condition, before the rest; without it a value stands for it. -/
theorem does_readWhen {α β : Type} {p : Prop} [Decidable p] {x : Eng α} {k : α → Eng β} {s v : State} {a z : α} {b : β}
    (hx : p → Does x s a s) (hk : Does (k (if p then a else z)) s b v) :
    Does (if p then x >>= k else pure z >>= k) s b v := by
  split at hk
  · next hp => exact does_if_pos hp (does_bind (hx hp) hk)
  · next hp => exact does_if_neg hp (does_bind (does_pure z s) hk)

/-! ### One block of an engine -/

section Engine
variable {c h b d role : Nat} {body : Nat → Nat → Eng Unit} {s u : State}

/-- An engine that takes a block of the ROLE goes on to its steps where its formats are known (R50, R352). -/
theorem engineStep_on (hon : EngineOn c h b d s u) (hrole : bdRole d = role) :
    engineStep c h role body s =
      ground (if formatsOk (sweepAt u c) d then engOut c (hoopItem h) (body b d) u else undef .format c u) s := by
  obtain ⟨r, hr, hstage, hctx⟩ := hon.going
  have hgoing : ((hoopAt s h).runs.any fun r => decide (r.stage = .sweeping) && decide (r.ctx = c)) = true :=
    List.any_eq_true.mpr ⟨r, hr, by simp [hstage, hctx]⟩
  have hroom := hon.room
  simp only [engineStep, hgoing, hon.opened, hon.sound, hon.power, engOut]
  rw [if_neg (by simp [hroom]), run_of_does hon.barrier, if_pos rfl, run_of_does hon.next]
  dsimp only
  rw [if_pos hrole, run_of_does (does_get u)]
  cases formatsOk (sweepAt u c) d <;> rfl

theorem engineStep_undef (hon : EngineOn c h b d s u) (hrole : bdRole d = role) (hfmt : formatsOk (sweepAt u c) d = false) :
    engineStep c h role body s = .next (groundPart s (undef .format c u)) := by
  rw [engineStep_on hon hrole, hfmt]; rfl

theorem engineStep_does {t : State} (hon : EngineOn c h b d s u) (hrole : bdRole d = role) (hfmt : formatsOk (sweepAt u c) d = true)
    (hbody : Does (body b d) u () t) : engineStep c h role body s = .next (groundPart s t) := by
  unfold Does at hbody
  rw [engineStep_on hon hrole, hfmt, if_pos rfl, engOut, hbody]; rfl

end Engine

/-! ### A block has been processed -/

section Done
variable (c b : Nat) (s : State)

@[simp] theorem sweepAt_groundPart (u : State) : sweepAt (groundPart u s) c = sweepAt s c := rfl

@[simp] theorem sweepAt_modSweep_same (f : Sweep → Sweep) : sweepAt (modSweep c f s) c = f (sweepAt s c) := by
  simp [sweepAt, modSweep]

@[simp] theorem sweepAt_modDelta (f : Delta → Delta) : sweepAt (modDelta c f s) c = sweepAt s c := by
  simp [sweepAt, modDelta]

@[simp] theorem dnReg_modDelta (f : Delta → Delta) (n : Nat) : dnReg (modDelta c f s) c n = dnReg s c n := by
  simp [dnReg, modDelta]

@[simp] theorem recordAt_modDelta (f : Delta → Delta) (v : Bool) (n : Nat) : recordAt (modDelta c f s) c v n = recordAt s c v n := by
  simp [recordAt]

@[simp] theorem dnCur_modDelta (f : Delta → Delta) : dnCur (modDelta c f s) c = dnCur s c := by simp [dnCur]

@[simp] theorem checkDone_mem : (checkDone c s).mem = s.mem := by
  unfold checkDone; split
  · exact raise_mem _ _ _ _
  · rfl

theorem checkDone_sweep : (sweepAt (checkDone c s) c).done = (sweepAt s c).done ∧
    (sweepAt (checkDone c s) c).swept = (sweepAt s c).swept := by
  unfold checkDone; split
  · simp [sweepAt, modSweep]
  · exact ⟨rfl, rfl⟩

@[simp] theorem blockDone_mem : (blockDone c b s).mem = s.mem := by
  unfold blockDone; split
  · rfl
  · exact checkDone_mem _ _

/-- A processed block is among those that are finished; which blocks have been swept stays as it is. -/
theorem blockDone_sweep : b ∈ (sweepAt (blockDone c b s) c).done ∧
    (sweepAt (blockDone c b s) c).swept = (sweepAt s c).swept := by
  unfold blockDone; split
  · next h => exact ⟨List.contains_iff_mem.mp h, rfl⟩
  · rw [(checkDone_sweep c _).1, (checkDone_sweep c _).2]; simp [sweepAt]

end Done

end Sys2Proof.Machine
end

section
/-! FROZEN and REPLICA blocks of a Darning engine: copies, records that are applied, and divergences. -/

namespace Sys2Proof.Machine

/-! ### FROZEN blocks (R355) -/

/-- A FROZEN block that has been copied is finished. -/
def frozenDone (c b : Nat) (s : State) : State := blockDone c b (modSweep c (fun w => { w with swept := w.swept ++ [b] }) s)

theorem frozenDone_sweeps (c b : Nat) (o s : State) : b ∈ (sweepAt (groundPart o (frozenDone c b s)) c).swept ∧
    b ∈ (sweepAt (groundPart o (frozenDone c b s)) c).done ∧ (groundPart o (frozenDone c b s)).mem = s.mem := by
  obtain ⟨hdone, hswept⟩ := blockDone_sweep c b (modSweep c (fun w => { w with swept := w.swept ++ [b] }) s)
  rw [sweepAt_groundPart, groundPart_mem, frozenDone, hswept, sweepAt_modSweep_same, blockDone_mem]
  exact ⟨List.mem_append_right _ (List.mem_singleton.mpr rfl), hdone, rfl⟩

/-! ### REPLICA blocks take their record (R354, R369) -/

/-- Whether a record is of the block and of the sweep's STEP. -/
def awaited (s : State) (c b : Nat) (r : Nat × List Byte) : Bool :=
  decide (r.1 = b) && decide ((dheadOf r.2).step = (sweepAt s c).step.toNat)

/-- The state in which an engine has taken the record of its block. -/
def recordTaken (c b : Nat) (s : State) : State := modDelta c (fun x => { x with ready := eraseFirst (awaited s c b) x.ready }) s

@[simp] theorem latched_recordTaken (c b : Nat) (s : State) : (ctxAt (recordTaken c b s) c).latched = (ctxAt s c).latched := by
  simp [recordTaken, modDelta]

@[simp] theorem asked_recordTaken (c b n : Nat) (s : State) : asked (recordTaken c b s) c n = asked s c n := by
  simp [recordTaken, modDelta, asked]

/-- The engine takes the record that has come for its block, and the record's block is processed. -/
theorem replicaStep_next {ctx : Fin 16} {hoop : Fin 8} {b d : Nat} {bs : List Byte} {s u t : State}
    (hon : EngineOn ctx.val hoop.val b d s u) (hfmt : formatsOk (sweepAt u ctx.val) d = true) (hrole : bdRole d = 1)
    (hpass : inPass1 u ctx.val = false) (hfind : (ctxAt u ctx.val).delta.ready.find? (awaited u ctx.val b) = some (b, bs))
    (hasked : asked u ctx.val b = false) (ht : Does (replicaBlock ctx.val hoop.val b d bs) (recordTaken ctx.val b u) () t) :
    exec (.darningReplicaBlock ctx hoop) s = .next (groundPart s t) := by
  refine engineStep_does hon hrole hfmt (does_bind (does_get u) (does_if_neg (by simp [hpass]) ?_))
  unfold awaited at hfind
  simp only [hfind]
  exact does_bind (does_set _ u) (does_if_pos (by simp [hasked]) ht)

/-- The payload of a record, decoded to ILEN bytes and, behind the image, MASTER (R364). -/
def payloadOf (bs : List Byte) : List Byte :=
  let r := dheadOf bs
  padTo r.ilen (expand (r.clen + 1) r.ilen ((bs.drop 64).take r.clen))

/-- The image that a record makes of the old one: it replaces it, or is XORed to it. -/
def imageBy (d : Nat) (bs old : List Byte) : List Byte :=
  if (dheadOf bs).enc = 0 then xorBytes ((payloadOf bs).take (bdSize d)) old else (payloadOf bs).take (bdSize d)

/-- The MASTER that a record makes of the old one. -/
def masterBy (d : Nat) (bs master : List Byte) : List Byte :=
  let m := ((payloadOf bs).drop (bdSize d)).take 16384
  if (dheadOf bs).enc = 0 then xorBytes m master else m

/-- A REPLICA block that has taken its record is finished, and no longer waits for its owner. -/
def replicaDone (c b : Nat) (s : State) : State :=
  blockDone c b (modDelta c (fun x => { x with asked := x.asked.filter (· ≠ b) })
    (modSweep c (fun w => { w with swept := if w.swept.contains b then w.swept else w.swept ++ [b] }) s))

theorem replicaDone_sweeps (c b : Nat) (o s : State) : b ∈ (sweepAt (groundPart o (replicaDone c b s)) c).swept ∧
    b ∈ (sweepAt (groundPart o (replicaDone c b s)) c).done ∧ (groundPart o (replicaDone c b s)).mem = s.mem := by
  obtain ⟨hdone, hswept⟩ := blockDone_sweep c b (modDelta c (fun x => { x with asked := x.asked.filter (· ≠ b) })
    (modSweep c (fun w => { w with swept := if w.swept.contains b then w.swept else w.swept ++ [b] }) s))
  rw [sweepAt_groundPart, groundPart_mem, replicaDone, hswept, sweepAt_modDelta, sweepAt_modSweep_same, blockDone_mem]
  refine ⟨?_, hdone, rfl⟩
  dsimp only
  split
  · next h => exact List.contains_iff_mem.mp h
  · exact List.mem_append_right _ (List.mem_singleton.mpr rfl)

section Replica
variable {c h b d cur alt step : Nat} {bs own : List Byte} {s : State}

/-- A record whose PREV_DIGEST and DIGEST are those of the old and the new image is applied (R369). -/
theorem replicaBlock_applies {old master : List Byte} {u1 u2 u3 u4 : State}
    (hcur : recordAt s c (dnCur s c) b = cur) (halt : recordAt s c (!dnCur s c) b = alt) (hstep : (sweepAt s c).step.toNat = step)
    (hasked : asked s c b = false) (hlatched : (ctxAt s c).latched = none)
    (hown : Does (engRead c (quarterOf h) (cur + 32768) 16) s own s) (hprev : leNat own = (dheadOf bs).prev)
    (hold : Does (imgRead c (quarterOf h) d) s old s)
    (hmaster : (dheadOf bs).master = true → Does (engRead c (quarterOf h) (cur + 16384) 16384) s master s)
    (hlog : Does (logImage c (quarterOf h) b old) s () u1)
    (himg : Does (imgWrite c (quarterOf h) d (imageBy d bs old)) u1 () u2)
    (hmaster' : Does (if (dheadOf bs).master then engWrite c (quarterOf h) (alt + 16384) (masterBy d bs master) else pure ())
      u2 () u3)
    (hdigest : Does (digestWrite c (quarterOf h) alt (imageDigest b step (imageBy d bs old))) u3 () u4)
    (heq : leNat (imageDigest b step (imageBy d bs old)) = (dheadOf bs).digest) :
    Does (replicaBlock c h b d bs) s () (replicaDone c b u4) := by
  subst hcur halt hstep
  unfold replicaBlock
  -- Neither the divergence of PREV_DIGEST nor a stop after it: the images are read, logged and written, and DIGEST agrees.
  refine does_bind (does_get s) (does_bind hown (does_if_neg (by simp [hprev]) (does_bind (does_get s)
    (does_if_neg (by simp [hlatched]) (does_if_neg (by simp [hasked]) (does_bind hold (does_readWhen hmaster
    (does_bind hlog (does_bind himg (does_when (u := u3) ?_ (does_bind hdigest (does_if_neg (not_not_intro heq)
    (does_modify _ u4)))))))))))))
  cases hm : (dheadOf bs).master
  · simpa [hm] using hmaster'
  · simpa [hm, masterBy, payloadOf] using hmaster'

/-- A record whose PREV_DIGEST differs is not applied where the divergence faults the context or asks the owner (R369). -/
theorem replicaBlock_diverges (hcur : recordAt s c (dnCur s c) b = cur) (hstep : (sweepAt s c).step.toNat = step)
    (hasked : asked s c b = false) (hown : Does (engRead c (quarterOf h) (cur + 32768) 16) s own s)
    (hprev : leNat own ≠ (dheadOf bs).prev)
    (hstop : (ctxAt (diverged c b (dheadOf bs).src 0 step s) c).latched.isSome = true ∨
      asked (diverged c b (dheadOf bs).src 0 step s) c b = true) :
    Does (replicaBlock c h b d bs) s () (diverged c b (dheadOf bs).src 0 step s) := by
  subst hcur hstep
  unfold replicaBlock
  refine does_bind (does_get s) (does_bind hown (does_if_pos (by simp [hasked, hprev]) (does_bind (does_modify _ s)
    (does_bind (does_get _) ?_))))
  by_cases hl : (ctxAt (diverged c b (dheadOf bs).src 0 (sweepAt s c).step.toNat s) c).latched.isSome = true
  · exact does_if_pos hl (does_pure () _)
  · exact does_if_neg hl (does_if_pos (by simp [hasked, hstop.resolve_left hl]) (does_pure () _))

end Replica

/-! ### Divergences (R369) -/

section Diverged
variable {c b peer point step : Nat} {s : State}

/-- What a fault, a request to the owner and the context's delta state do not touch is as the event of a divergence leaves it. -/
theorem diverged_keeps {α : Type} (g : State → α) (hdelta : ∀ f u, g (modDelta c f u) = g u)
    (hfault : ∀ u, g (faultAt c .halted noItem u) = g u) (hlinks : ∀ u, g (linksOff u) = g u) :
    g (diverged c b peer point step s) =
      g (raise 0x0015 c (toLE 4 b ++ toLE 2 peer ++ toLE 1 point ++ toLE 1 0 ++ toLE 8 step) s) := by
  unfold diverged
  dsimp only
  split
  · split
    · rw [hdelta, hdelta]
    · rw [sendOut_keeps g _ _ _ _ _ hlinks, hdelta]
  · exact hfault _
  · rfl

theorem diverged_raises : Raised 0x0015 c (toLE 4 b ++ toLE 2 peer ++ toLE 1 point ++ toLE 1 0 ++ toLE 8 step) s
    (diverged c b peer point step s) := by
  rw [Raised, diverged_keeps State.logs (fun _ _ => rfl) (fun _ => rfl) (fun _ => rfl), raise_logs]
  exact ⟨rfl, rfl⟩

theorem diverged_mem : (diverged c b peer point step s).mem = s.mem := by
  rw [diverged_keeps State.mem (fun _ _ => rfl) (fun _ => rfl) (fun _ => rfl), raise_mem]

theorem sweepAt_faultAt (code : FaultCode) (it : Item) (u : State) : sweepAt (faultAt c code it u) c = sweepAt u c := by
  rw [faultAt, faultWith, latch, sweepAt, ctxAt_modCtx_same]
  split
  · rfl
  · split <;> rfl

theorem sweepAt_diverged : sweepAt (diverged c b peer point step s) c = sweepAt s c := by
  rw [diverged_keeps (sweepAt · c) (fun f u => sweepAt_modDelta c u f) (sweepAt_faultAt _ _) (fun _ => rfl), sweepAt, ctxAt_raise]
  rfl

/-- Under DIVPOL 2 a divergence faults the context. -/
theorem diverged_latches (hpol : fld (dnReg s c 0) 1 2 = 2) : Latches c .halted s (diverged c b peer point step s) := by
  simp only [diverged, hpol]
  exact latches_faultWith noItem .none (ctxAt_raise _ _ _ _ _)

/-- Under DIVPOL 1 a divergence asks the owner for the block. -/
theorem diverged_asks (hpol : fld (dnReg s c 0) 1 2 = 1) : asked (diverged c b peer point step s) c b = true := by
  have hin (l : List Nat) : (if l.contains b then l else l ++ [b]).contains b = true := by
    split
    · assumption
    · simp
  simp only [diverged, hpol]
  split
  · simp only [asked, modDelta, ctxAt_modCtx_same]; exact hin _
  · simp only [asked, ctxAt_sendOut, modDelta, ctxAt_modCtx_same]; exact hin _

end Diverged

/-- A divergence at a REPLICA block: the record has been taken, and REPLICA_DIVERGED is raised (R369). -/
def divergedAt (c b : Nat) (bs : List Byte) (u : State) : State :=
  diverged c b (dheadOf bs).src 0 (sweepAt u c).step.toNat (recordTaken c b u)

theorem divergedAt_tells (c b : Nat) (bs : List Byte) (s u : State) :
    Raised 0x0015 c (toLE 4 b ++ toLE 2 (dheadOf bs).src ++ toLE 1 0 ++ toLE 1 0 ++ toLE 8 (sweepAt u c).step.toNat) u
      (groundPart s (divergedAt c b bs u)) ∧
    (groundPart s (divergedAt c b bs u)).mem = u.mem ∧
    (sweepAt (groundPart s (divergedAt c b bs u)) c).done = (sweepAt u c).done := by
  rw [sweepAt_groundPart, divergedAt, sweepAt_diverged, recordTaken, sweepAt_modDelta]
  exact ⟨diverged_raises, diverged_mem, rfl⟩

/-! ### The statement -/

/-- Settles O45: the engine's step is that of the block's ROLE, whose accesses go on one after another. -/
theorem frozenAndReplicaBlocksAreSwept : Obligations.FrozenAndReplicaBlocksAreSwept := by
  intro ctx hoop b d s u hon c
  refine ⟨fun hfmt i hi => ?_, fun hfmt => ⟨?_, ?_⟩⟩
  · obtain ⟨rfl, hrole⟩ | ⟨rfl, hrole⟩ | ⟨rfl, hrole⟩ := hi <;> exact engineStep_undef hon hrole hfmt
  · intro u1 u2 u3 m dg st hrole hm hm' hdg hdg' hst hst'
    have hnext : exec (.darningFrozenBlock ctx hoop) s = .next (groundPart s (frozenDone c b u3)) :=
      engineStep_does hon hrole hfmt <| does_bind (does_get u) <| does_bind (does_bind hm hm') <|
        does_bind (does_bind hdg hdg') <| does_bind (does_bind hst hst') (does_modify _ u3)
    exact ⟨_, hnext, frozenDone_sweeps c b s u3⟩
  · intro step mine bs own hrole hpass hfind hasked r u0 hown
    have hcur : recordAt u0 c (dnCur u0 c) b = recordAt u c (dnCur u c) b := by
      rw [recordAt_modDelta, dnCur_modDelta]
    have halt : recordAt u0 c (!dnCur u0 c) b = recordAt u c (!dnCur u c) b := by
      rw [recordAt_modDelta, dnCur_modDelta]
    have hstep : (sweepAt u0 c).step.toNat = step := congrArg (·.step.toNat) (sweepAt_modDelta c u _)
    have hasked0 : asked u0 c b = false := (asked_recordTaken c b b u).trans hasked
    have hlatched0 := latched_recordTaken c b u
    constructor
    · intro old master u1 u2 u3 u4 hprev hlatched hold hmaster hlog pay n new m himg hmaster' hdigest heq
      have hbody : Does (replicaBlock c hoop.val b d bs) u0 () (replicaDone c b u4) :=
        replicaBlock_applies hcur halt hstep hasked0 (hlatched0.trans hlatched) hown hprev hold hmaster hlog himg hmaster' hdigest heq
      exact ⟨_, replicaStep_next hon hfmt hrole hpass hfind hasked hbody, replicaDone_sweeps c b s u4⟩
    · intro hprev hlatched tells
      have hpol : fld (dnReg u0 c 0) 1 2 = fld (dnReg u c 0) 1 2 := by rw [dnReg_modDelta]
      have hnext (hstop : (ctxAt (divergedAt c b bs u) c).latched.isSome = true ∨ asked (divergedAt c b bs u) c b = true) :
          exec (.darningReplicaBlock ctx hoop) s = .next (groundPart s (divergedAt c b bs u)) :=
        replicaStep_next hon hfmt hrole hpass hfind hasked (replicaBlock_diverges hcur hstep hasked0 hown hprev hstop)
      refine ⟨fun h2 => ?_, fun h1 => ?_⟩
      · obtain ⟨l, hl, hcode⟩ := diverged_latches (b := b) (peer := r.src) (point := 0) (step := step)
          (hpol.trans h2) (hlatched0.trans hlatched)
        exact ⟨_, hnext (.inl (Option.isSome_of_mem hl)), fun _ => ⟨l, hl, hcode⟩, divergedAt_tells c b bs s u⟩
      · have hask := diverged_asks (b := b) (peer := r.src) (point := 0) (step := step) (hpol.trans h1)
        exact ⟨_, hnext (.inr hask), hask, divergedAt_tells c b bs s u⟩

end Sys2Proof.Machine
end

section
/-! Tokens consumed and sent, and a step that fires. -/

namespace Sys2Proof.Machine

/-! ### What tokens leave as it was -/

/-- A state without what tokens that are consumed and sent change. -/
def tokensOff (s : State) : State := { s with tiles := [], hoops := [], net := { s.net with nextFid := 0 }, free := 0 }

@[simp] theorem tokensOff_useFree (n : Nat) (s : State) : tokensOff (useFree n s) = tokensOff s := rfl

/-- A tile without what its tokens change. -/
def tileTokensOff (t : Tile) : Tile := { t with queues := [], dcred := [], ccred := [], vc := [] }

/-- A Hoop without its circuits. -/
def circuitsOff (h : Hoop) : Hoop := { h with flight := [], credits := [] }

/-- A tile whose queue has lost its first token. -/
def popped (q : Nat) (t : Tile) : Tile :=
  match qToks t q with
  | [] => t
  | a :: rest => { t with queues := Tab.set [] t.queues q rest, vc := joinClock t.vc a.vc }

/-- A tile that has spent a credit of an output. -/
def spent (o : Nat) (ctrl : Bool) (t : Tile) : Tile :=
  if ctrl then { t with ccred := Tab.set 0 t.ccred o (cCred t o - 1) }
  else { t with dcred := Tab.set 0 t.dcred o (dCred t o - 1) }

theorem tileTokensOff_popped (q : Nat) (t : Tile) : tileTokensOff (popped q t) = tileTokensOff t := by
  unfold popped
  split <;> rfl

theorem tileTokensOff_spent (o : Nat) (ctrl : Bool) (t : Tile) : tileTokensOff (spent o ctrl t) = tileTokensOff t := by
  cases ctrl <;> rfl

theorem qToks_popped (q i : Nat) (t : Tile) : qToks (popped q t) i = if i = q then (qToks t q).tail else qToks t i := by
  unfold popped
  cases hq : qToks t q with
  | nil => by_cases hi : i = q <;> simp [hi, hq]
  | cons a rest => simp [qToks, Tab.get_set]

@[simp] theorem popped_dcred (q : Nat) (t : Tile) : (popped q t).dcred = t.dcred := by
  unfold popped
  split <;> rfl

@[simp] theorem popped_ccred (q : Nat) (t : Tile) : (popped q t).ccred = t.ccred := by
  unfold popped
  split <;> rfl

@[simp] theorem spent_queues (o : Nat) (ctrl : Bool) (t : Tile) : (spent o ctrl t).queues = t.queues := by
  cases ctrl <;> rfl

theorem dCred_spent (o i : Nat) (ctrl : Bool) (t : Tile) :
    dCred (spent o ctrl t) i = dCred t i - if ctrl = false ∧ i = o then 1 else 0 := by
  cases ctrl <;> by_cases hi : i = o <;> simp [spent, dCred, Tab.get_set, hi]

theorem cCred_spent (o i : Nat) (ctrl : Bool) (t : Tile) :
    cCred (spent o ctrl t) i = cCred t i - if ctrl = true ∧ i = o then 1 else 0 := by
  cases ctrl <;> by_cases hi : i = o <;> simp [spent, cCred, Tab.get_set, hi]

/-! ### A token consumed -/

theorem popTok_eq (k q : Nat) (s : State) :
    popTok k q s = s ∨ ∃ fid, popTok k q s = backCredit (noHoop k) fid (modTile k (popped q) s) := by
  unfold popTok
  cases hq : qToks (tileAt s k) q with
  | nil => exact .inl rfl
  | cons a rest => exact .inr ⟨a.fid, by simp [modTile, popped, hq]⟩

theorem tokensOff_popTok (k q : Nat) (s : State) : tokensOff (popTok k q s) = tokensOff s := by
  obtain h | ⟨fid, h⟩ := popTok_eq k q s <;> rw [h]
  rfl

@[simp] theorem popTok_mem (k q : Nat) (s : State) : (popTok k q s).mem = s.mem :=
  (congrArg State.mem (tokensOff_popTok k q s) :)

theorem tileAt_popTok (k q : Nat) (s : State) (j : Nat) :
    tileAt (popTok k q s) j = if j = k then popped q (tileAt s k) else tileAt s j := by
  unfold popTok
  cases hq : qToks (tileAt s k) q with
  | nil => by_cases hj : j = k <;> simp [popped, hq, hj]
  | cons a rest => simp [tileAt_modTile, popped, hq]

theorem circuitsOff_popTok (k q : Nat) (s : State) (h : Nat) :
    circuitsOff (hoopAt (popTok k q s) h) = circuitsOff (hoopAt s h) := by
  obtain e | ⟨fid, e⟩ := popTok_eq k q s <;> rw [e]
  rw [backCredit, hoopAt_modHoop]
  split
  · next e => rw [e]; rfl
  · rfl

theorem hoopAt_popTok_other (k q : Nat) (s : State) {h : Nat} (hh : h ≠ noHoop k) : hoopAt (popTok k q s) h = hoopAt s h := by
  obtain e | ⟨fid, e⟩ := popTok_eq k q s <;> rw [e]
  rw [backCredit, hoopAt_modHoop_other _ _ hh]
  rfl

theorem flight_popTok (k q : Nat) (s : State) (h : Nat) : (hoopAt (popTok k q s) h).flight = (hoopAt s h).flight := by
  obtain e | ⟨fid, e⟩ := popTok_eq k q s <;> rw [e]
  rw [backCredit, hoopAt_modHoop]
  split
  · next e => rw [e]; rfl
  · rfl

/-! ### A token sent -/

theorem tokensOff_sendTok (k o : Nat) (ctrl : Bool) (v : DataTok) (s : State) : tokensOff (sendTok k o ctrl v s) = tokensOff s := rfl

@[simp] theorem sendTok_mem (k o : Nat) (ctrl : Bool) (v : DataTok) (s : State) : (sendTok k o ctrl v s).mem = s.mem := rfl

theorem tileAt_sendTok (k o : Nat) (ctrl : Bool) (v : DataTok) (s : State) (j : Nat) :
    tileAt (sendTok k o ctrl v s) j = if j = k then spent o ctrl (tileAt s k) else tileAt s j := by
  simp [sendTok, sendTokVc, tileAt_modTile, spent]

theorem circuitsOff_sendTok (k o : Nat) (ctrl : Bool) (v : DataTok) (s : State) (h : Nat) :
    circuitsOff (hoopAt (sendTok k o ctrl v s) h) = circuitsOff (hoopAt s h) := by
  rw [sendTok, sendTokVc, hoopAt_modNet, hoopAt_modHoop]
  split
  · next e => rw [e]; rfl
  · rfl

theorem hoopAt_sendTok_other (k o : Nat) (ctrl : Bool) (v : DataTok) (s : State) {h : Nat} (hh : h ≠ noHoop k) :
    hoopAt (sendTok k o ctrl v s) h = hoopAt s h := by
  rw [sendTok, sendTokVc, hoopAt_modNet, hoopAt_modHoop_other _ _ hh, hoopAt_modTile]

theorem sendTok_onWay (k o : Nat) (ctrl : Bool) (v : DataTok) (s : State) :
    ∃ z ∈ (hoopAt (sendTok k o ctrl v s) (noHoop k)).flight, z.src = k ∧ z.port = o ∧ z.ctrl = ctrl ∧ z.val = v :=
  sendTokVc_onWay k o ctrl v _ s

/-- Tokens on their way stay there while another is sent. -/
theorem mem_flight_sendTok {k o : Nat} {ctrl : Bool} {v : DataTok} {s : State} {h : Nat} {z : Token}
    (hz : z ∈ (hoopAt s h).flight) : z ∈ (hoopAt (sendTok k o ctrl v s) h).flight := by
  by_cases hh : h = noHoop k
  · rw [hh] at hz ⊢
    rw [sendTok, flight_sendTokVc]
    exact List.mem_append_left _ hz
  · rw [hoopAt_sendTok_other k o ctrl v s hh]
    exact hz

/-! ### Tokens of several queues and outputs -/

/-- Tokens of several queues consumed. -/
def popToks (k : Nat) (qs : List Nat) (s : State) : State := qs.foldl (fun s q => popTok k q s) s

/-- A token of the tile's program, whose value may depend on the state, sent on each of several outputs. -/
def sendToks (k : Nat) (ctrl : Bool) (n : Nat) (v : State → DataTok) (os : List Nat) (s : State) : State :=
  os.foldl (fun s o => useFree n (sendTok k o ctrl (v s) s)) s

theorem useFree_zero (s : State) : useFree 0 s = s := rfl

theorem popToks_cons (k q : Nat) (qs : List Nat) (s : State) : popToks k (q :: qs) s = popToks k qs (popTok k q s) := rfl

theorem sendToks_cons (k : Nat) (ctrl : Bool) (n : Nat) (v : State → DataTok) (o : Nat) (os : List Nat) (s : State) :
    sendToks k ctrl n v (o :: os) s = sendToks k ctrl n v os (useFree n (sendTok k o ctrl (v s) s)) := by
  rw [sendToks, List.foldl_cons, sendToks]

section Folds
variable (k : Nat) (s : State)

theorem tokensOff_popToks (qs : List Nat) : tokensOff (popToks k qs s) = tokensOff s :=
  foldl_keeps tokensOff _ (fun _ _ => tokensOff_popTok _ _ _) _ _

theorem tileTokensOff_popToks (qs : List Nat) : tileTokensOff (tileAt (popToks k qs s) k) = tileTokensOff (tileAt s k) :=
  foldl_keeps (fun s => tileTokensOff (tileAt s k)) _ (fun s q => by rw [tileAt_popTok, if_pos rfl, tileTokensOff_popped]) _ _

theorem dcred_popToks (qs : List Nat) : (tileAt (popToks k qs s) k).dcred = (tileAt s k).dcred :=
  foldl_keeps (fun s => (tileAt s k).dcred) _ (fun s q => by rw [tileAt_popTok, if_pos rfl, popped_dcred]) _ _

theorem ccred_popToks (qs : List Nat) : (tileAt (popToks k qs s) k).ccred = (tileAt s k).ccred :=
  foldl_keeps (fun s => (tileAt s k).ccred) _ (fun s q => by rw [tileAt_popTok, if_pos rfl, popped_ccred]) _ _

theorem tileAt_popToks_other (qs : List Nat) {j : Nat} (hj : j ≠ k) : tileAt (popToks k qs s) j = tileAt s j :=
  foldl_keeps (tileAt · j) _ (fun s q => by rw [tileAt_popTok, if_neg hj]) _ _

theorem circuitsOff_popToks (qs : List Nat) (h : Nat) : circuitsOff (hoopAt (popToks k qs s) h) = circuitsOff (hoopAt s h) :=
  foldl_keeps (fun s => circuitsOff (hoopAt s h)) _ (fun _ _ => circuitsOff_popTok _ _ _ _) _ _

theorem hoopAt_popToks_other (qs : List Nat) {h : Nat} (hh : h ≠ noHoop k) : hoopAt (popToks k qs s) h = hoopAt s h :=
  foldl_keeps (hoopAt · h) _ (fun _ _ => hoopAt_popTok_other _ _ _ hh) _ _

/-- Each of the queues has lost its first token. -/
theorem qToks_popToks {qs : List Nat} (hqs : qs.Nodup) (i : Nat) :
    qToks (tileAt (popToks k qs s) k) i = if i ∈ qs then (qToks (tileAt s k) i).tail else qToks (tileAt s k) i := by
  induction qs generalizing s with
  | nil => rfl
  | cons q qs ih =>
    obtain ⟨hq, hqs⟩ := List.nodup_cons.mp hqs
    have hpop : qToks (tileAt (popTok k q s) k) i = if i = q then (qToks (tileAt s k) q).tail else qToks (tileAt s k) i := by
      rw [tileAt_popTok, if_pos rfl, qToks_popped]
    rw [popToks_cons, ih _ hqs, hpop]
    by_cases hi : i = q
    · subst hi
      simp [hq]
    · simp [hi]

variable (ctrl : Bool) (n : Nat) (v : State → DataTok)

theorem tokensOff_sendToks (os : List Nat) : tokensOff (sendToks k ctrl n v os s) = tokensOff s :=
  foldl_keeps tokensOff _ (fun s o => by rw [tokensOff_useFree, tokensOff_sendTok]) _ _

theorem tileTokensOff_sendToks (os : List Nat) :
    tileTokensOff (tileAt (sendToks k ctrl n v os s) k) = tileTokensOff (tileAt s k) :=
  foldl_keeps (fun s => tileTokensOff (tileAt s k)) _
    (fun s o => by rw [tileAt_useFree, tileAt_sendTok, if_pos rfl, tileTokensOff_spent]) _ _

theorem queues_sendToks (os : List Nat) : (tileAt (sendToks k ctrl n v os s) k).queues = (tileAt s k).queues :=
  foldl_keeps (fun s => (tileAt s k).queues) _ (fun s o => by rw [tileAt_useFree, tileAt_sendTok, if_pos rfl, spent_queues]) _ _

theorem tileAt_sendToks_other (os : List Nat) {j : Nat} (hj : j ≠ k) : tileAt (sendToks k ctrl n v os s) j = tileAt s j :=
  foldl_keeps (tileAt · j) _ (fun s o => by rw [tileAt_useFree, tileAt_sendTok, if_neg hj]) _ _

theorem circuitsOff_sendToks (os : List Nat) (h : Nat) :
    circuitsOff (hoopAt (sendToks k ctrl n v os s) h) = circuitsOff (hoopAt s h) :=
  foldl_keeps (fun s => circuitsOff (hoopAt s h)) _ (fun s o => by rw [hoopAt_useFree, circuitsOff_sendTok]) _ _

theorem hoopAt_sendToks_other (os : List Nat) {h : Nat} (hh : h ≠ noHoop k) :
    hoopAt (sendToks k ctrl n v os s) h = hoopAt s h :=
  foldl_keeps (hoopAt · h) _ (fun s o => by rw [hoopAt_useFree, hoopAt_sendTok_other _ _ _ _ _ hh]) _ _

theorem mem_flight_sendToks {os : List Nat} {h : Nat} {z : Token} (hz : z ∈ (hoopAt s h).flight) :
    z ∈ (hoopAt (sendToks k ctrl n v os s) h).flight := by
  induction os generalizing s with
  | nil => exact hz
  | cons o os ih =>
    rw [sendToks_cons]
    refine ih _ ?_
    rw [hoopAt_useFree]
    exact mem_flight_sendTok hz

/-- Each of the outputs carries its token. -/
theorem sendToks_onWay {os : List Nat} {o : Nat} (ho : o ∈ os) :
    ∃ z ∈ (hoopAt (sendToks k ctrl n v os s) (noHoop k)).flight, z.src = k ∧ z.port = o ∧ z.ctrl = ctrl := by
  induction os generalizing s with
  | nil => exact absurd ho List.not_mem_nil
  | cons o' os ih =>
    rw [sendToks_cons]
    by_cases h : o = o'
    · subst h
      obtain ⟨z, hz, hsrc, hport, hctrl, -⟩ := sendTok_onWay k o ctrl (v s) s
      rw [← hoopAt_useFree n] at hz
      exact ⟨z, mem_flight_sendToks k _ ctrl n v hz, hsrc, hport, hctrl⟩
    · exact ih _ ((List.mem_cons.mp ho).resolve_left h)

/-- Each of the outputs has spent a credit for data, where the tokens are data. -/
theorem dCred_sendToks {os : List Nat} (hos : os.Nodup) (i : Nat) :
    dCred (tileAt (sendToks k ctrl n v os s) k) i = dCred (tileAt s k) i - if ctrl = false ∧ i ∈ os then 1 else 0 := by
  induction os generalizing s with
  | nil => simp [sendToks]
  | cons o os ih =>
    obtain ⟨ho, hos⟩ := List.nodup_cons.mp hos
    rw [sendToks_cons, ih _ hos, tileAt_useFree, tileAt_sendTok, if_pos rfl, dCred_spent]
    by_cases hi : i = o
    · subst hi
      simp [ho]
    · simp [hi]

/-- Each of the outputs has spent a credit for control, where the tokens are control tokens. -/
theorem cCred_sendToks {os : List Nat} (hos : os.Nodup) (i : Nat) :
    cCred (tileAt (sendToks k ctrl n v os s) k) i = cCred (tileAt s k) i - if ctrl = true ∧ i ∈ os then 1 else 0 := by
  induction os generalizing s with
  | nil => simp [sendToks]
  | cons o os ih =>
    obtain ⟨ho, hos⟩ := List.nodup_cons.mp hos
    rw [sendToks_cons, ih _ hos, tileAt_useFree, tileAt_sendTok, if_pos rfl, cCred_spent]
    by_cases hi : i = o
    · subst hi
      simp [ho]
    · simp [hi]

end Folds

/-! ### A step fires (R92, R96, R99, R100) -/

theorem bitsOf_nodup (n m : Nat) : (bitsOf n m).Nodup := List.nodup_range.filter _

/-- The tokens of a step consumed and produced. -/
def stepToks (k : Nat) (st : Stp) (cval : BitVec 32) (s : State) : State :=
  sendToks k true 0 (fun _ => cval.setWidth 512) (bitsOf 4 st.outc)
    (sendToks k false 1 (fun s => Config.freeTok s.free) (bitsOf 4 st.outd) (popToks k (bitsOf 16 st.inq) s))

theorem fire_eq {k c : Nat} {st : Stp} {v : BitVec 32} {s : State} {q : Seq}
    (hsound : ∀ i ∈ bitsOf 16 st.inq, headOf (tileAt s k) i ≠ .parity) (hflow : flowTo (tileAt s k) st = some q) :
    fire k c st v s = modTile k (fun t => { t with
      seq := { q with waitIn := t.seq.waitIn, waitCred := t.seq.waitCred }, epoch := t.epoch + 1 }) (stepToks k st v s) := by
  have hparity : ((bitsOf 16 st.inq).any fun i => decide (headOf (tileAt s k) i = .parity)) = false := by
    simpa using hsound
  unfold fire
  dsimp only
  rw [hparity, hflow, if_neg (by decide)]
  simp only [stepToks, sendToks, popToks, useFree_zero]

theorem tokensOff_stepToks (k : Nat) (st : Stp) (v : BitVec 32) (s : State) : tokensOff (stepToks k st v s) = tokensOff s := by
  rw [stepToks, tokensOff_sendToks, tokensOff_sendToks, tokensOff_popToks]

theorem tileTokensOff_stepToks (k : Nat) (st : Stp) (v : BitVec 32) (s : State) :
    tileTokensOff (tileAt (stepToks k st v s) k) = tileTokensOff (tileAt s k) := by
  rw [stepToks, tileTokensOff_sendToks, tileTokensOff_sendToks, tileTokensOff_popToks]

theorem circuitsOff_stepToks (k : Nat) (st : Stp) (v : BitVec 32) (s : State) (h : Nat) :
    circuitsOff (hoopAt (stepToks k st v s) h) = circuitsOff (hoopAt s h) := by
  rw [stepToks, circuitsOff_sendToks, circuitsOff_sendToks, circuitsOff_popToks]

theorem qToks_stepToks (k : Nat) (st : Stp) (v : BitVec 32) (s : State) (i : Nat) :
    qToks (tileAt (stepToks k st v s) k) i =
      if i ∈ bitsOf 16 st.inq then (qToks (tileAt s k) i).tail else qToks (tileAt s k) i := by
  rw [← qToks_popToks k s (bitsOf_nodup 16 st.inq) i, qToks, stepToks, queues_sendToks, queues_sendToks]
  rfl

theorem dCred_stepToks (k : Nat) (st : Stp) (v : BitVec 32) (s : State) (o : Nat) :
    dCred (tileAt (stepToks k st v s) k) o = dCred (tileAt s k) o - if o ∈ bitsOf 4 st.outd then 1 else 0 := by
  have hpop : dCred (tileAt (popToks k (bitsOf 16 st.inq) s) k) o = dCred (tileAt s k) o := by rw [dCred, dcred_popToks]; rfl
  rw [stepToks, dCred_sendToks _ _ _ _ _ (bitsOf_nodup _ _), dCred_sendToks _ _ _ _ _ (bitsOf_nodup _ _), hpop]
  simp

theorem cCred_stepToks (k : Nat) (st : Stp) (v : BitVec 32) (s : State) (o : Nat) :
    cCred (tileAt (stepToks k st v s) k) o = cCred (tileAt s k) o - if o ∈ bitsOf 4 st.outc then 1 else 0 := by
  have hpop : cCred (tileAt (popToks k (bitsOf 16 st.inq) s) k) o = cCred (tileAt s k) o := by rw [cCred, ccred_popToks]; rfl
  rw [stepToks, cCred_sendToks _ _ _ _ _ (bitsOf_nodup _ _), cCred_sendToks _ _ _ _ _ (bitsOf_nodup _ _), hpop]
  simp

/-- A step whose queues are sound and whose FLOW stays within the program fires. -/
theorem fire_fired {k c : Nat} {st : Stp} {v : BitVec 32} {s : State} {q : Seq}
    (hsound : ∀ i ∈ bitsOf 16 st.inq, headOf (tileAt s k) i ≠ .parity) (hflow : flowTo (tileAt s k) st = some q) :
    Fired k st s (fire k c st v s) := by
  have hrest := tokensOff_stepToks k st v s
  have htile := tileTokensOff_stepToks k st v s
  have hhoop := circuitsOff_stepToks k st v s (noHoop k)
  have hseq : (tileAt (stepToks k st v s) k).seq = (tileAt s k).seq := (congrArg Tile.seq htile :)
  rw [fire_eq hsound hflow]
  refine ⟨?seq, ?queues, ?dcred, ?ccred, ?sentD, ?sentC, ?units, ?others, ?hoops, ?table, (congrArg State.mem hrest :),
    (congrArg State.ctxs hrest :), (congrArg State.chans hrest :), (congrArg State.logs hrest :), (congrArg State.dev hrest :)⟩
  case seq =>
    intro q' hq'
    obtain rfl : q = q' := Option.some.inj (hflow.symm.trans hq')
    simp [hseq]
  case queues =>
    intro i
    rw [tileAt_modTile_same]
    exact qToks_stepToks k st v s i
  case dcred =>
    intro o
    rw [tileAt_modTile_same]
    exact dCred_stepToks k st v s o
  case ccred =>
    intro o
    rw [tileAt_modTile_same]
    exact cCred_stepToks k st v s o
  case sentD =>
    intro o ho
    obtain ⟨z, hz, hsent⟩ := sendToks_onWay k (popToks k (bitsOf 16 st.inq) s) false 1 (fun s => Config.freeTok s.free) ho
    exact ⟨z, mem_flight_sendToks k _ _ _ _ hz, hsent⟩
  case sentC =>
    intro o ho
    exact sendToks_onWay k _ true 0 _ ho
  case units =>
    rw [tileAt_modTile_same]
    exact ⟨(congrArg Tile.m htile :), (congrArg Tile.v htile :), (congrArg Tile.a htile :), (congrArg Tile.wins htile :),
      (congrArg Tile.b htile :), (congrArg Tile.kb htile :), (congrArg Tile.cfg htile :), (congrArg Tile.prog htile :)⟩
  case others =>
    intro j hj
    rw [tileAt_modTile_other _ _ hj, stepToks, tileAt_sendToks_other _ _ _ _ _ _ hj, tileAt_sendToks_other _ _ _ _ _ _ hj,
      tileAt_popToks_other _ _ _ hj]
  case hoops =>
    intro h hh
    rw [hoopAt_modTile, stepToks, hoopAt_sendToks_other _ _ _ _ _ _ hh, hoopAt_sendToks_other _ _ _ _ _ _ hh,
      hoopAt_popToks_other _ _ _ hh]
  case table =>
    rw [hoopAt_modTile]
    exact ⟨(congrArg Hoop.table hhoop :), (congrArg Hoop.runs hhoop :)⟩

/-- A command keeps apart from what its group keeps whether a step has fired. -/
theorem Fired.groundPart {k : Nat} {st : Stp} {s u t : State} (h : Fired k st u t) : Fired k st u (groundPart s t) :=
  ⟨h.seq, h.queues, h.dcred, h.ccred, h.sentD, h.sentC, h.units, h.others, h.hoops, h.table, h.mem, h.ctxs, h.chans, h.logs, h.dev⟩

end Sys2Proof.Machine
end

section
/-! O23: NOP, fences, SKIPZ and steps with END fire. -/

namespace Sys2Proof.Machine

/-! ### A step on which its sequencer stands -/

section Stands
variable {site : Site} {kd : Kind} {c : Nat} {st : Stp} {s : State} (h : StandsOn site kd c st s)
include h

/-- A command of the step's kind that accepts the step acts on it. -/
theorem tileStep_stands {is : Stp → Bool} (his : is st = true) (body : Nat → Nat → Stp → State → State) :
    tileStep site kd is body s = body (siteNo site) c st s := by
  obtain ⟨⟨r, hrun, hctx⟩, hkind, hon, hlive, hstep, ⟨hle, hskip⟩, -, hknown, hins, houts, -, halone⟩ := h
  have hshares : (kd = .A && stepShares (tileAt s (siteNo site)) st) = false := by
    by_cases hA : kd = .A
    · simp [halone hA]
    · simp [hA]
  simp [tileStep, hrun, hctx, hkind, hon, hlive, hstep, Nat.not_lt.mpr hle, hskip, hknown, his, hins, houts, hshares]

/-- The step fires where its tokens are consumed and its outputs get theirs. -/
theorem fires_stands (v : BitVec 32) : Fired (siteNo site) st s (fire (siteNo site) c st v s) := by
  obtain ⟨q, hq⟩ := Option.isSome_iff_exists.mp h.flows
  exact fire_fired h.sound hq

/-- A step that occupies no unit fires, with END under the condition of FENCE. -/
theorem plainStep_fires {ok : Bool} (hok : ok = true) (hend : st.flow = 4 → fenceOk (tileAt s (siteNo site)) kd = true)
    (v : BitVec 32) : Fired (siteNo site) st s (plainStep kd (siteNo site) c st ok v s) := by
  have hcond : (ok && (st.flow ≠ 4 || fenceOk (tileAt s (siteNo site)) kd)) = true := by
    by_cases hf : st.flow = 4 <;> simp [hok, hf, hend]
  rw [plainStep, if_pos hcond]
  exact fires_stands h v

/-- FENCE fires where the units of its tile are idle. -/
theorem fenceStep_fires {opc : Nat} {i : Instr} (hi : exec i s = fenceStep kd opc site s) (hopc : st.opc = opc)
    (hfence : fenceOk (tileAt s (siteNo site)) kd = true) : ∃ t, exec i s = .next t ∧ Fired (siteNo site) st s t := by
  rw [hi, fenceStep, tileStep_stands h (by simpa using hopc)]
  exact ⟨_, rfl, (plainStep_fires h hfence (fun _ => hfence) plainCtl).groundPart⟩

/-- A step whose unit has its operation fires under the condition of FENCE. -/
theorem issue_fires (hissued : (tileAt s (siteNo site)).seq.issued = true)
    (hfence : fenceOk (tileAt s (siteNo site)) kd = true) (free : Bool) (accept : State → State) :
    Fired (siteNo site) st s (issue kd (siteNo site) c st free accept s) := by
  rw [issue, if_pos hissued, if_pos hfence]
  exact fires_stands h plainCtl

/-- The command of a step whose unit has its operation fires it, if then it goes on with the issue alone. -/
theorem issued_step_fires {is : Stp → Bool} (his : is st = true) (hissued : (tileAt s (siteNo site)).seq.issued = true)
    (hfence : fenceOk (tileAt s (siteNo site)) kd = true) {body : Nat → Nat → Stp → State → State}
    (hbody : ∃ free accept, body (siteNo site) c st s = issue kd (siteNo site) c st free accept s) :
    ∃ t, ground (tileStep site kd is body s) s = .next t ∧ Fired (siteNo site) st s t := by
  obtain ⟨free, accept, hbody⟩ := hbody
  rw [tileStep_stands h his, hbody]
  exact ⟨_, rfl, (issue_fires h hissued hfence free accept).groundPart⟩

end Stands

/-! ### Steps with END whose units have their operations (R124) -/

/-- Command i fires a step of kind kd whose unit has its operation, under the condition of FENCE. -/
def EndFires (site : Site) (c : Nat) (st : Stp) (s : State) (kd : Kind) (i : Instr) : Prop :=
  StandsOn site kd c st s → (tileAt s (siteNo site)).seq.issued = true → fenceOk (tileAt s (siteNo site)) kd = true →
    ∃ t, exec i s = .next t ∧ Fired (siteNo site) st s t

section Issued
variable {site : Site} {c : Nat} {st : Stp} {s : State}

/-- Commands that ask first whether the unit has the operation go on with the issue. -/
theorem issue_of_issued (hissued : (tileAt s (siteNo site)).seq.issued = true) {kd : Kind} {other : Bool} {x : State} :
    ∃ free accept, (if ((tileAt s (siteNo site)).seq.issued || other) = true then issue kd (siteNo site) c st false id s else x) =
      issue kd (siteNo site) c st free accept s :=
  ⟨false, id, if_pos (by rw [hissued, Bool.true_or])⟩

theorem matrix_end_fires :
    (st.opc = 1 → EndFires site c st s .M (.wload site)) ∧ (st.opc = 2 → EndFires site c st s .M (.wskip site)) ∧
    (st.opc = 3 → EndFires site c st s .M (.pass site)) ∧ (st.opc = 4 → EndFires site c st s .M (.drain site)) :=
  ⟨fun ho h hissued hfence => issued_step_fires h (decide_eq_true ho) hissued hfence (issue_of_issued hissued),
   fun ho h hissued hfence => issued_step_fires h (decide_eq_true ho) hissued hfence ⟨_, _, rfl⟩,
   fun ho h hissued hfence => issued_step_fires h (decide_eq_true ho) hissued hfence (issue_of_issued hissued),
   fun ho h hissued hfence => issued_step_fires h (decide_eq_true ho) hissued hfence (issue_of_issued hissued)⟩

/-- VLD and VST. -/
theorem vMemStep_end_fires {opc : Nat} (ho : st.opc = opc) (h : StandsOn site .V c st s)
    (hissued : (tileAt s (siteNo site)).seq.issued = true) (hfence : fenceOk (tileAt s (siteNo site)) .V = true)
    (regs : Nat → List Nat × List Nat) (act : Nat → Nat → Stp → Nat → Nat → State → State) :
    ∃ t, vMemStep opc regs act site s = .next t ∧ Fired (siteNo site) st s t := by
  refine issued_step_fires h (decide_eq_true ho) hissued hfence ⟨false, id, if_pos ?_⟩
  rw [hissued, Bool.true_or, Bool.true_or]

theorem vld_end_fires (ho : st.opc = 3) : EndFires site c st s .V (.vld site) := by
  intro h hissued hfence
  change ∃ t, execVld site s = _ ∧ _
  unfold execVld
  exact vMemStep_end_fires ho h hissued hfence _ _

theorem vst_end_fires (ho : st.opc = 4) : EndFires site c st s .V (.vst site) := by
  intro h hissued hfence
  change ∃ t, execVst site s = _ ∧ _
  unfold execVst
  exact vMemStep_end_fires ho h hissued hfence _ _

/-- CLOAD and CEVICT: the mover is idle, so that the command does not go on with an operation in progress. -/
theorem moverStep_end_fires {opc : Nat} {load : Bool} {i : Instr} (hi : exec i s = moverStep opc load site s)
    (ho : st.opc = opc) : EndFires site c st s .V i := by
  intro h hissued hfence
  have hidle : (tileAt s (siteNo site)).v.mover = none := by
    simp only [fenceOk, Bool.and_eq_true, Option.isNone_iff_eq_none] at hfence
    exact hfence.1.1
  have haccept : moverStep opc load site s = ground (moverAccept opc load site s) s := by
    unfold moverStep
    dsimp only
    rw [hidle]
    cases runOf s (siteNo site) <;> rfl
  rw [hi, haccept]
  exact issued_step_fires h (decide_eq_true ho) hissued hfence (issue_of_issued hissued)

theorem chain_end_fires (ho : st.opc = 2) : EndFires site c st s .V (.chain site) := by
  intro h hissued hfence
  refine issued_step_fires h (decide_eq_true ho) hissued hfence ?_
  dsimp only
  cases chainRegs (tileAt s (siteNo site)) (cdAt (tileAt s (siteNo site)) (fld st.args 0 4))
  exact issue_of_issued hissued

theorem vopInt_end_fires (ho : st.opc = 1) (hclass : vdClass (vdAt (tileAt s (siteNo site)) (fld st.args 0 7)) = 9) :
    EndFires site c st s .V (.vopInt site) :=
  fun h hissued hfence => issued_step_fires h (by simp [ho, hclass]) hissued hfence (issue_of_issued hissued)

theorem flagrd_end_fires (ho : st.opc = 9) : EndFires site c st s .V (.flagrd site) :=
  fun h hissued hfence => issued_step_fires h (decide_eq_true ho) hissued hfence ⟨_, _, rfl⟩

/-- ST, LD, AADD and ASWAP: the engine is idle, so that the command does not go on with an operation in progress. -/
theorem aEngine_end_fires {kd : AKind} {move : Nat → Nat → AOp → State → State} {i : Instr}
    (hi : exec i s = aEngine kd move site s) (ho : st.opc = kd.opc) : EndFires site c st s .A i := by
  intro h hissued hfence
  have hidle : (tileAt s (siteNo site)).a = none := Option.isNone_iff_eq_none.mp hfence
  have haccept : aEngine kd move site s = ground (aAccept kd site s) s := by
    unfold aEngine
    dsimp only
    rw [hidle]
    cases runOf s (siteNo site) <;> rfl
  rw [hi, haccept]
  exact issued_step_fires h (decide_eq_true ho) hissued hfence (issue_of_issued hissued)

theorem sstart_end_fires (ho : st.opc = 1) : EndFires site c st s .B (.sstart site) :=
  fun h hissued hfence => issued_step_fires h (decide_eq_true ho) hissued hfence ⟨false, id, if_pos hissued⟩

end Issued

/-! ### SKIPZ (R100) -/

/-- A step that SKIPZ stands on takes the sequencer where its FLOW says. -/
theorem skipz_flows {site : Site} {r : RunSt} {s : State} {q : Seq} (hrun : runOf s (siteNo site) = some r)
    (hS : kindOf (siteNo site) ≠ .S) (hG : kindOf (siteNo site) ≠ .G) (hon : (tileAt s (siteNo site)).seq.on = true)
    (hlive : (tileAt s (siteNo site)).seq.ended = false) (hskip : (curStep (tileAt s (siteNo site))).flow = 3)
    (hflow : flowTo (tileAt s (siteNo site)) (curStep (tileAt s (siteNo site))) = some q) :
    exec (.skipz site) s = .next (modTile (siteNo site) (fun t => { t with seq := q }) s) := by
  change execSkipz site s = _
  unfold execSkipz
  simp [hrun, hS, hG, hon, hlive, hskip, hflow]
  rfl

theorem skipz_moves {site : Site} {r : RunSt} {s : State} (hrun : runOf s (siteNo site) = some r)
    (hS : kindOf (siteNo site) ≠ .S) (hG : kindOf (siteNo site) ≠ .G) (hon : (tileAt s (siteNo site)).seq.on = true)
    (hlive : (tileAt s (siteNo site)).seq.ended = false) (hskip : (curStep (tileAt s (siteNo site))).flow = 3) :
    let t := tileAt s (siteNo site)
    (lcAt t (curStep t).lc = 0 → exec (.skipz site) s = .next (modTile (siteNo site) (fun t => { t with seq := { t.seq with
      wait := 0, issued := false, pc := (curStep t).target, lc := Tab.set 0 t.seq.lc (curStep t).lc (lcInit t (curStep t).lc) } }) s)) ∧
    (lcAt t (curStep t).lc ≠ 0 → t.seq.pc ≠ 1023 → exec (.skipz site) s =
      .next (modTile (siteNo site) (fun t => { t with seq := { t.seq with wait := 0, issued := false, pc := t.seq.pc + 1 } }) s)) := by
  refine ⟨fun hzero => ?_, fun hzero hpc => ?_⟩
  · rw [skipz_flows hrun hS hG hon hlive hskip (by simp only [flowTo, hskip, if_pos hzero]; rfl)]
    rfl
  · rw [skipz_flows hrun hS hG hon hlive hskip (by simp only [flowTo, hskip, if_neg hzero, if_neg hpc]; rfl)]
    rfl

/-! ### The statement -/

/-- Settles O23: a step on which a sequencer stands fires where its FENCE condition holds, and SKIPZ takes the way of its
counter. -/
theorem plainAndEndStepsFire : Obligations.PlainAndEndStepsFire := by
  unfold Obligations.PlainAndEndStepsFire
  refine ⟨⟨?nop, ?fences, ?skipz⟩, ?ends⟩
  case nop =>
    intro site kd c st s h hopc hend
    obtain rfl := h.kind
    refine ⟨_, congrArg (ground · s) (tileStep_stands h (decide_eq_true hopc) _), ?_⟩
    exact (plainStep_fires h rfl hend plainCtl).groundPart
  case fences =>
    intro site c st s
    exact ⟨fun h => fenceStep_fires h rfl, fun h => fenceStep_fires h rfl, fun h => fenceStep_fires h rfl,
      fun h => fenceStep_fires h rfl⟩
  case skipz =>
    intro site r s k t hrun hS hG hon hlive hskip
    exact skipz_moves hrun hS hG hon hlive hskip
  case ends =>
    intro site c st s k fires
    obtain ⟨hwload, hwskip, hpass, hdrain⟩ := matrix_end_fires (site := site) (c := c) (st := st) (s := s)
    exact ⟨hwload, hwskip, hpass, hdrain, chain_end_fires, vld_end_fires, vst_end_fires,
      moverStep_end_fires rfl, moverStep_end_fires rfl, vopInt_end_fires, flagrd_end_fires, aEngine_end_fires (kd := .ld) rfl,
      aEngine_end_fires (kd := .st) rfl, sstart_end_fires⟩

end Sys2Proof.Machine
end

section
/-! O34: a token reaches the queues of its circuit, and its credit returns. -/

namespace Sys2Proof.Machine

/-! ### A token enters the queues of its leaves (R86, R91) -/

/-- The queues of a tile after a token has entered one of them. -/
def joined (q : Nat) (a : Token) (t : Tile) : Tile := { t with queues := Tab.set [] t.queues q (qToks t q ++ [a]) }

/-- A token enters the queue that a leaf names. -/
def enterLeaf (a : Token) (s : State) : Leaf → State
  | .queue k q => modTile k (joined q a) s
  | _ => s

/-- A token enters the queues that some leaves name. -/
def enterLeaves (a : Token) (ls : List Leaf) (s : State) : State := ls.foldl (enterLeaf a) s

theorem qToks_joined (q i : Nat) (a : Token) (t : Tile) :
    qToks (joined q a t) i = if i = q then qToks t q ++ [a] else qToks t i := by
  simp [joined, qToks, Tab.get_set]

theorem qToks_enterLeaf (a : Token) (s : State) (l : Leaf) (j i : Nat) :
    qToks (tileAt (enterLeaf a s l) j) i = if l = .queue j i then qToks (tileAt s j) i ++ [a] else qToks (tileAt s j) i := by
  cases l with
  | queue k q =>
    rw [enterLeaf, tileAt_modTile]
    by_cases hj : j = k
    · subst hj
      rw [if_pos rfl, qToks_joined]
      by_cases hi : i = q
      · simp [hi]
      · simp [hi, Ne.symm hi]
    · simp [hj, Ne.symm hj]
  | dead other => simp [enterLeaf]
  | badSwitch k => simp [enterLeaf]

theorem enterLeaf_keeps {α : Type} (g : State → α) (hg : ∀ k f s, g (modTile k f s) = g s) (a : Token) (s : State) (l : Leaf) :
    g (enterLeaf a s l) = g s := by
  cases l with
  | queue k q => exact hg _ _ _
  | dead other => rfl
  | badSwitch k => rfl

theorem enterLeaves_keeps {α : Type} (g : State → α) (hg : ∀ k f s, g (modTile k f s) = g s) (a : Token) (ls : List Leaf)
    (s : State) : g (enterLeaves a ls s) = g s :=
  foldl_keeps g _ (enterLeaf_keeps g hg a) _ _

/-- A queue that no leaf names keeps its tokens. -/
theorem qToks_enterLeaves_other {a : Token} {ls : List Leaf} {j q : Nat} (h : Leaf.queue j q ∉ ls) (s : State) :
    qToks (tileAt (enterLeaves a ls s) j) q = qToks (tileAt s j) q := by
  induction ls generalizing s with
  | nil => rfl
  | cons l ls ih =>
    obtain ⟨hl, hls⟩ := not_or.mp (mt List.mem_cons.mpr h)
    exact (ih hls _).trans ((qToks_enterLeaf a s l j q).trans (if_neg (Ne.symm hl)))

theorem mem_qToks_enterLeaf {a b : Token} {s : State} {l : Leaf} {j q : Nat} (h : b ∈ qToks (tileAt s j) q) :
    b ∈ qToks (tileAt (enterLeaf a s l) j) q := by
  rw [qToks_enterLeaf]
  split
  · exact List.mem_append_left _ h
  · exact h

theorem mem_qToks_enterLeaves_of_mem {a b : Token} {ls : List Leaf} {j q : Nat} {s : State} (h : b ∈ qToks (tileAt s j) q) :
    b ∈ qToks (tileAt (enterLeaves a ls s) j) q := by
  induction ls generalizing s with
  | nil => exact h
  | cons l ls ih => exact ih (mem_qToks_enterLeaf h)

/-- The token is in every queue that a leaf names. -/
theorem mem_qToks_enterLeaves {a : Token} {ls : List Leaf} {j q : Nat} (h : Leaf.queue j q ∈ ls) (s : State) :
    a ∈ qToks (tileAt (enterLeaves a ls s) j) q := by
  induction ls generalizing s with
  | nil => exact absurd h List.not_mem_nil
  | cons l ls ih =>
    by_cases hl : l = .queue j q
    · refine mem_qToks_enterLeaves_of_mem (ls := ls) ?_
      rw [qToks_enterLeaf, if_pos hl]
      exact List.mem_append_right _ (List.mem_singleton_self a)
    · exact ih ((List.mem_cons.mp h).resolve_left (Ne.symm hl)) _

/-! ### A delivery that breaks no rule (R89, R90, R96) -/

/-- The leaves of a token are sound queues of its sender's context whose capacity its output's credits keep. -/
def SoundLeaves (s : State) (ctrl : Bool) (k o : Nat) (ls : List Leaf) : Prop :=
  ∀ l ∈ ls, ∃ j q, l = .queue j q ∧ ownerOf s j = ownerOf s k ∧ badQueue s ctrl l = none ∧ credAbove s ctrl k o l = false

section Sound
variable {s : State} {ctrl : Bool} {k o : Nat} {ls : List Leaf} (h : SoundLeaves s ctrl k o ls)
include h

theorem moduleLeaf_of_sound : ls.any (moduleLeaf s (ownerOf s k)) = false := by
  rw [List.any_eq_false]
  intro l hl
  obtain ⟨j, q, rfl, howner, -, -⟩ := h l hl
  simp [moduleLeaf, howner]

theorem clashOpen_of_sound : clashOpen ls = false := by
  have hdead : Leaf.dead true ∉ ls := fun hl => by
    obtain ⟨j, q, hq, -⟩ := h _ hl
    exact nomatch hq
  simpa [clashOpen] using hdead

theorem deliveryUndef_of_sound {a : Token} {c : Nat} (hctrl : a.ctrl = ctrl) (hsrc : a.src = k) (hport : a.port = o) :
    deliveryUndef s c a ls = none := by
  subst hctrl hsrc hport
  have hqueue : (ls.findSome? fun l => if credAbove s a.ctrl a.src a.port l then some a.src else badQueue s a.ctrl l) = none := by
    rw [List.findSome?_eq_none_iff]
    intro l hl
    obtain ⟨j, q, -, -, hbad, hcred⟩ := h l hl
    rw [hcred, hbad]
    rfl
  unfold deliveryUndef
  split
  · next j hj =>
    obtain ⟨l, hl, hlj⟩ := List.exists_of_findSome?_eq_some hj
    obtain ⟨j, q, rfl, -⟩ := h l hl
    exact nomatch hlj
  · rw [hqueue]
    rfl

end Sound

/-- What finding an output's oldest token tells of it. -/
theorem sender_of_find {fs : List Token} {k o : Nat} {ctrl : Bool} {a : Token}
    (h : fs.find? (fun a => decide (a.src = k) && decide (a.port = o) && a.ctrl == ctrl) = some a) :
    a.src = k ∧ a.port = o ∧ a.ctrl = ctrl := by
  have := List.find?_some h
  simp only [Bool.and_eq_true, decide_eq_true_eq, beq_iff_eq] at this
  exact ⟨this.1.1, this.1.2, this.2⟩

theorem exec_tokenDeliver {site : Site} {port slot : Fin 4} {ctrl ok : Bool} {a : Token} {s : State}
    (hfind : (hoopAt s (noHoop (siteNo site))).flight.find?
      (fun a => decide (a.src = siteNo site) && decide (a.port = port.val) && a.ctrl == ctrl) = some a)
    (hroute : a.route = none) (hstale : ∀ x ∈ (hoopAt s (noHoop (siteNo site))).stale, x.1 = siteNo site → x.2.1 ≠ port.val)
    (hswitch : badEntries (tileAt s (siteNo site)) (siteNo site) slot.val = false)
    (hne : inject s ctrl (siteNo site) port.val slot.val ≠ [])
    (hleaves : SoundLeaves s ctrl (siteNo site) port.val (inject s ctrl (siteNo site) port.val slot.val)) :
    exec (.tokenDeliver site port slot ctrl ok) s = .next (groundPart s (deliver (noHoop (siteNo site)) { a with parityOk := ok }
      (inject s ctrl (siteNo site) port.val slot.val) [] (useFree 0 s))) := by
  obtain ⟨hsrc, hport, hctrl⟩ := sender_of_find hfind
  have hold : (hoopAt s (noHoop (siteNo site))).stale.find?
      (fun x => decide (x.1 = siteNo site) && decide (x.2.1 = port.val)) = none := by
    rw [List.find?_eq_none]
    intro x hx
    simpa using hstale x hx
  change execTokenDeliver site port slot ctrl ok s = _
  unfold execTokenDeliver
  simp only [hfind, hroute, hold, Option.getD_none, Option.filter_none, Option.isSome_none, Bool.false_and, moduleLeaf_of_sound hleaves,
    Bool.or_false, hswitch, Bool.and_false, List.isEmpty_iff, hne, deliveryUndef_of_sound hleaves hctrl hsrc hport,
    clashOpen_of_sound hleaves, Bool.false_eq_true, if_false, ground_next]

/-- A token that goes to all its leaves at once, and whose credit is not yet asked for. -/
theorem deliver_all {h : Nat} {a : Token} {ls : List Leaf} {s : State} (hroute : a.route = none)
    (hfresh : ∀ y ∈ (hoopAt s h).credits, y.fid ≠ a.fid) :
    deliver h a ls [] s = modHoop h (fun x => { x with
      flight := eraseFirst (fun b => b.fid = a.fid) x.flight
      credits := x.credits ++ [⟨a.fid, a.src, a.port, a.ctrl, ls.length⟩] }) (enterLeaves a ls s) := by
  have hsame : { a with route := none } = a := by rw [← hroute]
  have hnone : ((hoopAt (enterLeaves a ls s) h).credits.any fun c => c.fid = a.fid) = false := by
    rw [enterLeaves_keeps (hoopAt · h) (fun _ _ _ => rfl)]
    simpa using hfresh
  have henter (f : State → Leaf → State) (hf : f = enterLeaf a) : ls.foldl f s = enterLeaves a ls s := by rw [hf]; rfl
  unfold deliver
  dsimp only
  rw [henter]
  · unfold modHoop
    simp [hnone]
  · funext s l
    rw [hsame]
    cases l <;> rfl

theorem eraseFirst_length {α : Type} {p : α → Bool} {xs : List α} (h : ∃ x ∈ xs, p x = true) :
    (eraseFirst p xs).length + 1 = xs.length := by
  induction xs with
  | nil => simp at h
  | cons x xs ih =>
    cases hx : p x with
    | true => simp [eraseFirst, hx]
    | false =>
      obtain ⟨y, hy, hp⟩ := h
      have hmem : y ∈ xs := (List.mem_cons.mp hy).resolve_left (fun e => by rw [e, hx] at hp; exact nomatch hp)
      simp [eraseFirst, hx, ih ⟨y, hmem, hp⟩]

/-! ### A credit returns (R91, R96) -/

/-- A tile whose output has gained a credit. -/
def gained (o : Nat) (ctrl : Bool) (t : Tile) : Tile :=
  if ctrl then { t with ccred := Tab.set 0 t.ccred o (cCred t o + 1) }
  else { t with dcred := Tab.set 0 t.dcred o (dCred t o + 1) }

theorem gained_ctrl (o : Nat) (t : Tile) : cCred (gained o true t) o = cCred t o + 1 ∧ (gained o true t).dcred = t.dcred := by
  simp [gained, cCred]

theorem gained_data (o : Nat) (t : Tile) : dCred (gained o false t) o = dCred t o + 1 ∧ (gained o false t).ccred = t.ccred := by
  simp [gained, dCred]

/-- Whether a credit that every branch has passed on is one of an output's. -/
def creditOf (k o : Nat) (ctrl : Bool) (c : Credit) : Bool :=
  decide (c.src = k) && decide (c.port = o) && c.ctrl == ctrl && decide (c.left = 0)

theorem exec_creditReturn {site : Site} {port : Fin 4} {ctrl : Bool} {s : State}
    (h : ∃ c ∈ (hoopAt s (noHoop (siteNo site))).credits, creditOf (siteNo site) port.val ctrl c = true) :
    exec (.creditReturn site port ctrl) s = .next (groundPart s (modTile (siteNo site) (gained port.val ctrl)
      (modHoop (noHoop (siteNo site)) (fun x => { x with
        credits := eraseFirst (creditOf (siteNo site) port.val ctrl) x.credits }) s))) :=
  congrArg (ground · s) (if_pos (List.any_eq_true.mpr h))

/-! ### The statement -/

/-- Settles O34: the leaves of a sound circuit take the token, and its credit returns when each has passed it on. -/
theorem tokensAndCreditsTravel : Obligations.TokensAndCreditsTravel := by
  unfold Obligations.TokensAndCreditsTravel
  constructor
  · intro site port slot ctrl ok a s k leaves hfind hroute hfresh hstale hswitch hne hleaves
    refine ⟨_, exec_tokenDeliver hfind hroute hstale hswitch hne hleaves, ?_⟩
    rw [deliver_all (h := noHoop k) (a := { a with parityOk := ok }) (s := useFree 0 s) hroute hfresh]
    have hkeeps {α : Type} (g : State → α) (hg : ∀ k f s, g (modTile k f s) = g s) :
        g (enterLeaves { a with parityOk := ok } leaves (useFree 0 s)) = g (useFree 0 s) := enterLeaves_keeps g hg _ _ _
    have hhoop := hkeeps (hoopAt · (noHoop k)) fun _ _ _ => rfl
    have hmem := hkeeps State.mem fun _ _ _ => rfl
    have hctxs := hkeeps State.ctxs fun _ _ _ => rfl
    have hchans := hkeeps State.chans fun _ _ _ => rfl
    rw [groundPart_mem, groundPart_ctxs, groundPart_chans, modHoop_mem, modHoop_ctxs, modHoop_chans]
    refine ⟨fun j q hl => ?_, fun j q hl => ?_, ?_, ?_, hmem, hctxs, hchans⟩
    · rw [tileAt_groundPart, tileAt_modHoop]
      exact mem_qToks_enterLeaves hl _
    · rw [tileAt_groundPart, tileAt_modHoop]
      exact qToks_enterLeaves_other hl _
    · rw [hoopAt_groundPart, hoopAt_modHoop_same, hhoop]
      rfl
    · rw [hoopAt_groundPart, hoopAt_modHoop_same, hhoop]
      rfl
  · intro site port ctrl cr s k hmem hsrc hport hctrl hleft
    have hit : ∃ c ∈ (hoopAt s (noHoop k)).credits, creditOf k port.val ctrl c = true :=
      ⟨cr, hmem, by simp [creditOf, hsrc, hport, hctrl, hleft]⟩
    refine ⟨_, exec_creditReturn hit, ?_⟩
    rw [groundPart_mem, groundPart_ctxs, modTile_mem, modTile_ctxs, modHoop_mem, modHoop_ctxs]
    refine ⟨?_, ?_, ?_, fun j hj => ?_, rfl, rfl⟩
    · rw [hoopAt_groundPart, hoopAt_modTile, hoopAt_modHoop_same]
      exact eraseFirst_length hit
    · rintro rfl
      rw [tileAt_groundPart, tileAt_modTile_same]
      exact gained_ctrl port.val (tileAt s k)
    · rintro rfl
      rw [tileAt_groundPart, tileAt_modTile_same]
      exact gained_data port.val (tileAt s k)
    · rw [tileAt_groundPart, tileAt_modTile_other _ _ hj, tileAt_modHoop]

end Sys2Proof.Machine
end

section
/-! O36: gathering queues take contributions and forward full slots. -/

namespace Sys2Proof.Machine

/-! ### A contribution (R113, R114) -/

/-- The slots after a contribution has been added into the slots js, each from its own part of the token. -/
def gAdded (x : Tile) (v : DataTok) (js : List Nat) : Tab GSlot :=
  js.zipIdx.foldl (fun m p => Tab.set GSlot.reset m p.1 (gAccum x v (16 * p.2) (Tab.get GSlot.reset m p.1))) x.g.slots

/-- The slots that the contribution whose first is j feeds. -/
def gFed (x : Tile) (j : Nat) : List Nat := if gNarrow x then [j, j + 1] else [j]

theorem mem_gFed {x : Tile} {j i : Nat} : i ∈ gFed x j ↔ i = j ∨ i = j + 1 ∧ gNarrow x = true := by
  unfold gFed
  split <;> simp_all

/-- Consecutive entries of a table that each change by their own place among them. -/
theorem get_foldl_pair {f : Nat → GSlot → GSlot} {m : Tab GSlot} {pair : Bool} {j i : Nat} :
    Tab.get GSlot.reset ((if pair then [j, j + 1] else [j]).zipIdx.foldl
      (fun m p => Tab.set GSlot.reset m p.1 (f p.2 (Tab.get GSlot.reset m p.1))) m) i =
    if i = j ∨ i = j + 1 ∧ pair = true then f (i - j) (Tab.get GSlot.reset m i) else Tab.get GSlot.reset m i := by
  generalize GSlot.reset = d
  cases pair with
  | true =>
    by_cases h1 : i = j + 1
    · simp [h1, Tab.get_set]
    · by_cases h0 : i = j <;> simp [Tab.get_set, h0, h1]
  | false => by_cases h0 : i = j <;> simp [Tab.get_set, h0]

theorem get_gAdded (x : Tile) (v : DataTok) (j i : Nat) : Tab.get GSlot.reset (gAdded x v (gFed x j)) i =
    if i = j ∨ i = j + 1 ∧ gNarrow x = true then gAccum x v (16 * (i - j)) (Tab.get GSlot.reset x.g.slots i)
    else Tab.get GSlot.reset x.g.slots i :=
  get_foldl_pair (f := fun i => gAccum x v (16 * i))

theorem toks_of_headOf {t : Tile} {q : Nat} {a : Token} (h : headOf t q = .tok a) : qToks t q = a :: (qToks t q).tail := by
  unfold headOf at h
  cases hq : qToks t q with
  | nil => simp [hq] at h
  | cons b rest =>
    simp only [hq] at h
    split at h
    · cases h
      rfl
    · exact nomatch h

/-- A contribution whose slots can take it. -/
theorem gTake_adds {k c q j : Nat} {note : GTile → GTile} {s : State} {a : Token} (hhead : headOf (tileAt s k) q = .tok a)
    (hexp : gExpFwd (tileAt s k) = 0xFFFFFFFF ∨ (tileAt s k).g.cntFwd < gExpFwd (tileAt s k))
    (hslots : ∀ i ∈ gFed (tileAt s k) j, gUsable (tileAt s k) i = true ∧ (Tab.get GSlot.reset (tileAt s k).g.slots i).full = false) :
    gTake k c q j note s = modTile k (fun t => { t with
      g := note { t.g with slots := gAdded (tileAt s k) a.val (gFed (tileAt s k) j) } }) (popTok k q s) := by
  have husable : (!(gFed (tileAt s k) j).all (gUsable (tileAt s k)) ||
      (gExpFwd (tileAt s k) ≠ 0xFFFFFFFF && decide (gExpFwd (tileAt s k) ≤ (tileAt s k).g.cntFwd))) = false := by
    have hall : (gFed (tileAt s k) j).all (gUsable (tileAt s k)) = true := List.all_eq_true.mpr fun i hi => (hslots i hi).1
    rw [hall]
    rcases hexp with h | h
    · simp [h]
    · simp [Nat.not_le.mpr h]
  have hfree : ((gFed (tileAt s k) j).any fun i => (Tab.get GSlot.reset (tileAt s k).g.slots i).full) = false :=
    List.any_eq_false.mpr fun i hi => by simp [(hslots i hi).2]
  unfold gTake
  dsimp only
  rw [hhead]
  exact (if_neg (Bool.eq_false_iff.mp husable)).trans (if_neg (Bool.eq_false_iff.mp hfree))

/-- The slot that the next contribution of a queue feeds first (R113). -/
def gNext (x : Tile) (q : Nat) : Nat :=
  if gTagged x then (Tab.get (0, 0) x.g.group q).1
  else gFirst x + (if gLast x + 1 - gFirst x = 0 then 0 else Tab.get 0 x.g.taken q * gStep x % (gLast x + 1 - gFirst x))

/-- The next slot of a tag group and the contributions left of it, after one more has been taken. -/
def gRest (x : Tile) (p : Nat × Nat) : Nat × Nat := if p.2 ≤ 1 then (0, 0) else (p.1 + gStep x, p.2 - 1)

/-- What a contribution notes: the rest of its tag group, or the count of tokens of its queue. -/
def gNote (x : Tile) (q : Nat) (g : GTile) : GTile :=
  if gTagged x then { g with group := Tab.set (0, 0) g.group q (gRest x (Tab.get (0, 0) x.g.group q)) }
  else { g with taken := Tab.set 0 g.taken q (Tab.get 0 x.g.taken q + 1) }

theorem gNote_slots (x : Tile) (q : Nat) (g : GTile) : (gNote x q g).slots = g.slots := by
  unfold gNote
  split <;> rfl

theorem gNote_taken {x : Tile} (h : gTagged x = false) (q : Nat) (g : GTile) :
    (gNote x q g).taken = Tab.set 0 g.taken q (Tab.get 0 x.g.taken q + 1) := by
  rw [gNote, if_neg (Bool.eq_false_iff.mp h)]

section Contribution
variable {k c q : Nat} {s : State} {a : Token}

/-- A queue with a contribution whose slots are known has it taken. -/
theorem gContribute_takes (hdata : qCtrl (tileAt s k) q = false) (hen : qEn (tileAt s k) q = true)
    (hfmt : gFmtOk (tileAt s k) = true) (hhead : headOf (tileAt s k) q = .tok a)
    (htag : gTagged (tileAt s k) = true → (Tab.get (0, 0) (tileAt s k).g.group q).2 ≠ 0 ∧ gBadTag (tileAt s k) q = false) :
    gContribute k c q s = gTake k c q (gNext (tileAt s k) q) (gNote (tileAt s k) q) s := by
  have hsome : (qToks (tileAt s k) q).isEmpty = false := by
    rw [toks_of_headOf hhead]
    rfl
  have hbad : (gTagged (tileAt s k) && gBadTag (tileAt s k) q) = false := by
    by_cases ht : gTagged (tileAt s k) = true
    · rw [(htag ht).2, Bool.and_false]
    · rw [Bool.eq_false_iff.mpr ht, Bool.false_and]
  unfold gContribute
  dsimp only
  rw [hdata, hen, hfmt, hbad, hsome, if_neg (by decide), if_neg (by decide), if_neg (by decide), if_neg (by decide)]
  by_cases ht : gTagged (tileAt s k) = true
  · obtain ⟨hleft, -⟩ := htag ht
    have hnote : gNote (tileAt s k) q = fun g => { g with
        group := Tab.set (0, 0) g.group q (gRest (tileAt s k) (Tab.get (0, 0) (tileAt s k).g.group q)) } :=
      funext fun g => if_pos ht
    have hnext : gNext (tileAt s k) q = (Tab.get (0, 0) (tileAt s k).g.group q).1 := if_pos ht
    rw [hnote, hnext]
    exact (if_neg (by simp [ht])).trans (if_pos hleft)
  · have hnote : gNote (tileAt s k) q = fun g => { g with taken := Tab.set 0 g.taken q (Tab.get 0 (tileAt s k).g.taken q + 1) } :=
      funext fun g => if_neg ht
    rw [hnote, gNext, if_neg ht]
    exact if_pos (by simp [ht])

/-- The state in which the contribution at the head of a queue has been taken. -/
def gTaken (k q : Nat) (a : Token) (s : State) : State :=
  modTile k (fun t => { t with g := gNote (tileAt s k) q { t.g with
    slots := gAdded (tileAt s k) a.val (gFed (tileAt s k) (gNext (tileAt s k) q)) } }) (popTok k q s)

theorem gTaken_mem (k q : Nat) (a : Token) (s : State) : (gTaken k q a s).mem = s.mem := by
  rw [gTaken, modTile_mem, popTok_mem]

theorem qToks_gTaken (k q : Nat) (a : Token) (s : State) : qToks (tileAt (gTaken k q a s) k) q = (qToks (tileAt s k) q).tail := by
  have hpop : qToks (popped q (tileAt s k)) q = (qToks (tileAt s k) q).tail := (qToks_popped q q _).trans (if_pos rfl)
  rw [gTaken, tileAt_modTile_same, tileAt_popTok, if_pos rfl]
  exact hpop

theorem slots_gTaken (k q : Nat) (a : Token) (s : State) :
    (tileAt (gTaken k q a s) k).g.slots = gAdded (tileAt s k) a.val (gFed (tileAt s k) (gNext (tileAt s k) q)) := by
  rw [gTaken, tileAt_modTile_same]
  dsimp only
  rw [gNote_slots]

theorem taken_gTaken (k q : Nat) (a : Token) (s : State) (hseq : gTagged (tileAt s k) = false) :
    Tab.get 0 (tileAt (gTaken k q a s) k).g.taken q = Tab.get 0 (tileAt s k).g.taken q + 1 := by
  rw [gTaken, tileAt_modTile_same]
  dsimp only
  rw [gNote_taken hseq, Tab.get_set_same]

theorem exec_gatherContribution {site : Site} {queue : Fin 16} {r : RunSt} (hrun : runOf s (siteNo site) = some r)
    (hkind : kindOf (siteNo site) = .G) :
    exec (.gatherContribution site queue) s = .next (groundPart s (gContribute (siteNo site) r.ctx queue.val s)) := by
  change execGatherContribution site queue s = _
  simp [execGatherContribution, hrun, hkind]

end Contribution

/-! ### A full slot leaves (R115) -/

/-- The G tile after slots have been cleared and counted. -/
def gCleared (js : List Nat) (g : GTile) : GTile :=
  { g with slots := js.foldl (fun m j => Tab.set GSlot.reset m j GSlot.reset) g.slots, cntFwd := (g.cntFwd + js.length) % 2 ^ 32 }

/-- Entries of a table that are all set to its default read as it. -/
theorem Tab.get_foldl_default {β : Type} [DecidableEq β] {d : β} {js : List Nat} {m : Tab β} {j : Nat}
    (h : j ∈ js ∨ Tab.get d m j = d) : Tab.get d (js.foldl (fun m j => Tab.set d m j d) m) j = d := by
  induction js generalizing m with
  | nil => exact h.resolve_left List.not_mem_nil
  | cons i js ih =>
    refine ih ?_
    rw [Tab.get_set]
    by_cases hi : j = i
    · exact .inr (if_pos hi)
    · rw [if_neg hi]
      exact h.imp_left fun h => (List.mem_cons.mp h).resolve_left hi

theorem get_gCleared {js : List Nat} {j : Nat} (hj : j ∈ js) (g : GTile) :
    Tab.get GSlot.reset (gCleared js g).slots j = GSlot.reset :=
  Tab.get_foldl_default (.inl hj)

theorem tileAt_gClear (k : Nat) (js : List Nat) (s : State) :
    (tileAt (gClear k js s) k).g = gCleared js (tileAt s k).g := by
  rw [gClear, tileAt_modTile_same]
  rfl

theorem gClear_mem (k : Nat) (js : List Nat) (s : State) : (gClear k js s).mem = s.mem := rfl

theorem hoopAt_gClear (k : Nat) (js : List Nat) (s : State) (h : Nat) : hoopAt (gClear k js s) h = hoopAt s h := rfl

/-- The G-tile's slots and count do not change while it sends. -/
theorem g_sendTok (k o : Nat) (ctrl : Bool) (v : DataTok) (s : State) : (tileAt (sendTok k o ctrl v s) k).g = (tileAt s k).g := by
  rw [tileAt_sendTok, if_pos rfl]
  exact (congrArg Tile.g (tileTokensOff_spent o ctrl (tileAt s k)) :)

/-- The bytes of an A tile's offset lie below the partial-sum stores. -/
theorem isPs_asAddr {s : State} {c k a n pa : Nat} (hk : noHoop k < 8) (h : asAddr s c k a n = some pa) : isPs pa = false := by
  have hidx : tileIndex k ≤ 16 * 32 + 15 := by
    have hcols : (colsOf (kindOf k)).length ≤ 32 := (List.length_filter_le _ _).trans_eq List.length_range
    have := List.findIdx_le_length (xs := colsOf (kindOf k)) (p := fun x => decide (x = noCol k))
    have : noRow k < 16 := Nat.mod_lt _ (by norm_num)
    unfold tileIndex
    omega
  unfold asAddr relocate at h
  dsimp only at h
  have hbase : fld (relocAs s c (noHoop k)) 0 8 < 256 := by rw [fld_eq]; exact Nat.mod_lt _ (by norm_num)
  have hbound : fld (relocAs s c (noHoop k)) 8 9 < 512 := by rw [fld_eq]; exact Nat.mod_lt _ (by norm_num)
  split at h
  · simp only [Option.map_some, Option.some.injEq, asBase] at h
    simp only [isPs, Bool.and_eq_false_iff, decide_eq_false_iff_not]
    omega
  · exact nomatch h

/-- The bytes of a slot written into an A tile read back, and no other byte changes. -/
theorem peek_poke_as {s u : State} {c k a pa : Nat} {bs : List Byte} (hk : noHoop k < 8)
    (h : asAddr s c k a bs.length = some pa) (hu : u.mem = (poke s pa bs).mem) :
    peek u pa bs.length = bs ∧ ∀ b, b < pa ∨ pa + bs.length ≤ b → Tab.get 0 u.mem b = Tab.get 0 s.mem b := by
  have hmem : u.mem = putBytes s.mem pa bs := hu
  refine ⟨?_, fun b hb => ?_⟩
  · rw [peek, isPs_asAddr hk h, if_neg (by decide), hmem]
    exact bytesAt_putBytes _ _ _
  · rw [hmem]
    exact get_putBytes_other hb

section Forward
variable {k c j : Nat} {s : State}

/-- The slots that leave together: two for a 16-bit OUTFMT, the even one first. -/
def gOut (x : Tile) (j : Nat) : List Nat := if gOutFmt x = 4 ∨ gOutFmt x = 5 then [j / 2 * 2, j / 2 * 2 + 1] else [j]

/-- Full slots leave as a token without a SLOT token ahead of it. -/
theorem gForward_sends (hfull : ∀ i ∈ j :: gOut (tileAt s k) j, (Tab.get GSlot.reset (tileAt s k).g.slots i).full = true)
    (hfmt : gFmtOk (tileAt s k) = true) (hdest : bitAt (gCfg (tileAt s k)) 9 = false) (hslot : bitAt (gCfg (tileAt s k)) 10 = false)
    (hcred : hasCredit (tileAt s k) 0 false = true) :
    gForward k c j s = gClear k (gOut (tileAt s k) j) (sendTok k 0 false
      (tokOf ((gOut (tileAt s k) j).flatMap fun i => gRound (tileAt s k) (Tab.get GSlot.reset (tileAt s k).g.slots i))) s) := by
  have hj := hfull j List.mem_cons_self
  have hall : ((gOut (tileAt s k) j).all fun i => (Tab.get GSlot.reset (tileAt s k).g.slots i).full) = true :=
    List.all_eq_true.mpr fun i hi => hfull i (List.mem_cons_of_mem _ hi)
  have hout : (if (gOutFmt (tileAt s k) = 4 || gOutFmt (tileAt s k) = 5) then
      [if (gOutFmt (tileAt s k) = 4 || gOutFmt (tileAt s k) = 5) then j / 2 * 2 else j,
        (if (gOutFmt (tileAt s k) = 4 || gOutFmt (tileAt s k) = 5) then j / 2 * 2 else j) + 1]
      else [if (gOutFmt (tileAt s k) = 4 || gOutFmt (tileAt s k) = 5) then j / 2 * 2 else j]) = gOut (tileAt s k) j := by
    unfold gOut
    by_cases hn : gOutFmt (tileAt s k) = 4 ∨ gOutFmt (tileAt s k) = 5 <;> simp [hn]
  unfold gForward
  dsimp only
  rw [hj, hfmt, hdest, hslot, hcred, hout, hall]
  rfl

/-- A full slot is stored in the neighbour A tile. -/
theorem gForward_stores {pa : Nat} (hfull : (Tab.get GSlot.reset (tileAt s k).g.slots j).full = true)
    (hfmt : gFmtOk (tileAt s k) = true) (hdest : bitAt (gCfg (tileAt s k)) 9 = true) (hquiet : s.dev.debug = false)
    (hat : asAddr s c (if noCol k = 14 then k + 16 else k - 16)
      (gABase (tileAt s k) + j * (if gOutFmt (tileAt s k) = 4 || gOutFmt (tileAt s k) = 5 then 32 else 64))
      (gRound (tileAt s k) (Tab.get GSlot.reset (tileAt s k).g.slots j)).length = some pa)
    (hsync : syncAsHit s c (noHoop (if noCol k = 14 then k + 16 else k - 16))
      (gABase (tileAt s k) + j * (if gOutFmt (tileAt s k) = 4 || gOutFmt (tileAt s k) = 5 then 32 else 64))
      (gRound (tileAt s k) (Tab.get GSlot.reset (tileAt s k).g.slots j)).length = false) :
    gForward k c j s = gClear k [j] (poke s pa (gRound (tileAt s k) (Tab.get GSlot.reset (tileAt s k).g.slots j))) := by
  unfold gForward
  dsimp only
  rw [hfull, hfmt, hdest, hat]
  dsimp only
  rw [hsync, guarded_quiet hquiet]
  rfl

/-- What slots that leave as a token leave behind. -/
theorem gSent (k : Nat) (js : List Nat) (v : DataTok) (s : State) :
    (∀ i ∈ js, Tab.get GSlot.reset (tileAt (gClear k js (sendTok k 0 false v s)) k).g.slots i = GSlot.reset) ∧
    (tileAt (gClear k js (sendTok k 0 false v s)) k).g.cntFwd = ((tileAt s k).g.cntFwd + js.length) % 2 ^ 32 ∧
    (∃ y ∈ (hoopAt (gClear k js (sendTok k 0 false v s)) (noHoop k)).flight, y.src = k ∧ y.port = 0 ∧ y.ctrl = false ∧ y.val = v) ∧
    (gClear k js (sendTok k 0 false v s)).mem = s.mem := by
  rw [tileAt_gClear, g_sendTok, hoopAt_gClear, gClear_mem, sendTok_mem]
  exact ⟨fun i hi => get_gCleared hi _, rfl, sendTok_onWay k 0 false v s, rfl⟩

theorem exec_gatherSlotForward {site : Site} {slot : Fin 1024} {r : RunSt} (hrun : runOf s (siteNo site) = some r)
    (hkind : kindOf (siteNo site) = .G) :
    exec (.gatherSlotForward site slot) s = .next (groundPart s (gForward (siteNo site) r.ctx slot.val s)) := by
  change execGatherSlotForward site slot s = _
  simp [execGatherSlotForward, hrun, hkind]

/-- The slots js, which leave together, leave as the token of their bytes. -/
theorem slots_leave {site : Site} {slot : Fin 1024} {r : RunSt} {js : List Nat} {bs : List Byte}
    (hrun : runOf s (siteNo site) = some r) (hkind : kindOf (siteNo site) = .G) (hjs : gOut (tileAt s (siteNo site)) slot.val = js)
    (hbs : js.flatMap (fun i => gRound (tileAt s (siteNo site)) (Tab.get GSlot.reset (tileAt s (siteNo site)).g.slots i)) = bs)
    (hfull : ∀ i ∈ slot.val :: js, (Tab.get GSlot.reset (tileAt s (siteNo site)).g.slots i).full = true)
    (hfmt : gFmtOk (tileAt s (siteNo site)) = true) (hdest : bitAt (gCfg (tileAt s (siteNo site))) 9 = false)
    (hslot : bitAt (gCfg (tileAt s (siteNo site))) 10 = false) (hcred : hasCredit (tileAt s (siteNo site)) 0 false = true) :
    ∃ t, exec (.gatherSlotForward site slot) s = .next t ∧
      (∀ i ∈ js, Tab.get GSlot.reset (tileAt t (siteNo site)).g.slots i = GSlot.reset) ∧
      (tileAt t (siteNo site)).g.cntFwd = ((tileAt s (siteNo site)).g.cntFwd + js.length) % 2 ^ 32 ∧
      (∃ y ∈ (hoopAt t (noHoop (siteNo site))).flight, y.src = siteNo site ∧ y.port = 0 ∧ y.ctrl = false ∧ y.val = tokOf bs) ∧
      t.mem = s.mem := by
  subst hjs hbs
  obtain ⟨hreset, hcount, hway, hmem⟩ := gSent (siteNo site) (gOut (tileAt s (siteNo site)) slot.val)
    (tokOf ((gOut (tileAt s (siteNo site)) slot.val).flatMap fun i =>
      gRound (tileAt s (siteNo site)) (Tab.get GSlot.reset (tileAt s (siteNo site)).g.slots i))) s
  have hnext := exec_gatherSlotForward (slot := slot) hrun hkind
  rw [gForward_sends hfull hfmt hdest hslot hcred] at hnext
  refine ⟨_, hnext, ?_⟩
  rw [tileAt_groundPart, hoopAt_groundPart, groundPart_mem]
  exact ⟨hreset, hcount, hway, hmem⟩

end Forward

/-- The neighbours of a G tile lie in a Hoop of the module. -/
theorem noHoop_gNeighbour {site : Site} (hkind : kindOf (siteNo site) = .G) :
    noHoop (if noCol (siteNo site) = 14 then siteNo site + 16 else siteNo site - 16) < 8 := by
  have hlt : siteNo site < 4096 := by
    unfold siteNo
    omega
  have hcol : noCol (siteNo site) ≠ 31 := fun h => by
    rw [kindOf, h] at hkind
    exact absurd hkind (by decide)
  unfold noHoop
  unfold noCol at hcol ⊢
  split <;> omega

/-! ### The statement -/

/-- Settles O36: contributions are added where their queue's count or group says, and full slots leave on output 0 or into the
neighbour A tile. -/
theorem gatheringQueuesAccumulate : Obligations.GatheringQueuesAccumulate := by
  unfold Obligations.GatheringQueuesAccumulate
  constructor
  · intro site queue r a s k q x hrun hkind hdata hen hfmt hhead hexp n untagged tagged j htag hslots
    have hj : j = gNext x q := rfl
    have hgot : gContribute k r.ctx q s = gTaken k q a s :=
      (gContribute_takes hdata hen hfmt hhead htag).trans (gTake_adds hhead hexp fun i hi => hslots i (mem_gFed.mp hi))
    have hnext := exec_gatherContribution (queue := queue) hrun hkind
    rw [hgot] at hnext
    refine ⟨_, hnext, qToks_gTaken k q a s, fun i hi => ?_, fun i hi hi' => ?_, taken_gTaken k q a s, gTaken_mem k q a s⟩
    · rw [tileAt_groundPart, slots_gTaken, get_gAdded, ← hj, if_pos hi]
    · rw [tileAt_groundPart, slots_gTaken, get_gAdded, ← hj, if_neg fun h => h.elim hi fun ⟨h, hn⟩ => Bool.false_ne_true ((hi' h).symm.trans hn)]
  · intro site slot r s k x g narrow hrun hkind hfull hfmt
    refine ⟨fun hdest hwide hslot hcred => ?_, fun hdest hnarrow hslot hcred heven hpair => ?_, fun pa hdest hquiet => ?_⟩
    · have hout : gOut x slot.val = [slot.val] := if_neg hwide
      obtain ⟨t, hnext, hreset, hcount, hway, hmem⟩ := slots_leave (slot := slot) hrun hkind hout (List.flatMap_singleton _ _)
        (by simpa using hfull) hfmt hdest hslot hcred
      exact ⟨t, hnext, hreset _ List.mem_cons_self, hcount, hway, hmem⟩
    · have hout : gOut x slot.val = [slot.val, slot.val + 1] := by
        rw [gOut, if_pos hnarrow, Nat.div_mul_cancel (Nat.dvd_of_mod_eq_zero heven)]
      obtain ⟨t, hnext, hreset, hcount, hway, hmem⟩ := slots_leave (slot := slot) hrun hkind hout
        (by rw [List.flatMap_cons, List.flatMap_singleton]) (by simpa using ⟨hfull, hpair⟩) hfmt hdest hslot hcred
      exact ⟨t, hnext, hreset _ List.mem_cons_self, hreset _ (List.mem_cons_of_mem _ List.mem_cons_self), hcount, hway, hmem⟩
    · intro a off hat hsync
      have hnext := exec_gatherSlotForward (slot := slot) hrun hkind
      rw [gForward_stores hfull hfmt hdest hquiet hat hsync] at hnext
      obtain ⟨hread, hkept⟩ := peek_poke_as (u := gClear k [slot.val] (poke s pa (gRound x g))) (noHoop_gNeighbour hkind) hat rfl
      refine ⟨_, hnext, ?_⟩
      rw [tileAt_groundPart, tileAt_gClear]
      exact ⟨get_gCleared (List.mem_singleton_self _) _, rfl, hread, hkept⟩

end Sys2Proof.Machine
end

section
/-! O35: shuttles take control tokens and move groups. -/

namespace Sys2Proof.Machine

/-! ### A shuttle of a run acts in its mode -/

theorem shuttle_acts {site : Site} {r : RunSt} {m : Nat} {s : State} (hrun : runOf s (siteNo site) = some r)
    (hkind : kindOf (siteNo site) = .S) (hm : m ≠ 7) (hmode : shModeNo (tileAt s (siteNo site)) = m) :
    shuttle m site s = .next (groundPart s (shAct (siteNo site) r.ctx s)) := by
  simp [shuttle, hrun, hkind, hmode, hm]

/-! ### The end of a transaction is settled -/

/-- A shuttle is busy while a leg or a control token is left. -/
theorem tileAt_shSettle (k : Nat) (s : State) : tileAt (shSettle k s) k = { tileAt s k with sh := { (tileAt s k).sh with
    busy := (tileAt s k).sh.busy && !((tileAt s k).sh.legs.isEmpty && (tileAt s k).sh.fwd.isNone) } } := by
  rw [shSettle, tileAt_modTile_same]
  cases h : (tileAt s k).sh.legs.isEmpty && (tileAt s k).sh.fwd.isNone with
  | true => rw [if_pos rfl, Bool.not_true, Bool.and_false]
  | false => rw [if_neg Bool.false_ne_true, Bool.not_false, Bool.and_true]

theorem shSettle_mem (k : Nat) (s : State) : (shSettle k s).mem = s.mem := rfl

theorem hoopAt_shSettle (k : Nat) (s : State) (h : Nat) : hoopAt (shSettle k s) h = hoopAt s h := rfl

theorem qToks_shSettle (k q : Nat) (s : State) : qToks (tileAt (shSettle k s) k) q = qToks (tileAt s k) q := by
  rw [tileAt_shSettle]
  rfl

theorem qToks_modSh (k q : Nat) (f : Tile → STile) (s : State) :
    qToks (tileAt (modTile k (fun t => { t with sh := f t }) s) k) q = qToks (tileAt s k) q := by
  rw [tileAt_modTile_same]
  rfl

/-- The first token of a queue has gone, whatever then happens to the shuttle. -/
theorem qToks_popTok (k q : Nat) (s : State) : qToks (tileAt (popTok k q s) k) q = (qToks (tileAt s k) q).tail := by
  rw [tileAt_popTok, if_pos rfl]
  exact (qToks_popped q q _).trans (if_pos rfl)

theorem sh_popTok (k q : Nat) (s : State) : (tileAt (popTok k q s) k).sh = (tileAt s k).sh := by
  rw [tileAt_popTok, if_pos rfl]
  exact (congrArg Tile.sh (tileTokensOff_popped q (tileAt s k)) :)

theorem cfg_popTok (k q : Nat) (s : State) : (tileAt (popTok k q s) k).cfg = (tileAt s k).cfg := by
  rw [tileAt_popTok, if_pos rfl]
  exact (congrArg Tile.cfg (tileTokensOff_popped q (tileAt s k)) :)

theorem sh_sendTok (k o : Nat) (ctrl : Bool) (v : DataTok) (s : State) : (tileAt (sendTok k o ctrl v s) k).sh = (tileAt s k).sh := by
  rw [tileAt_sendTok, if_pos rfl]
  exact (congrArg Tile.sh (tileTokensOff_spent o ctrl (tileAt s k)) :)

theorem cfg_sendTok (k o : Nat) (ctrl : Bool) (v : DataTok) (s : State) : (tileAt (sendTok k o ctrl v s) k).cfg = (tileAt s k).cfg := by
  rw [tileAt_sendTok, if_pos rfl]
  exact (congrArg Tile.cfg (tileTokensOff_spent o ctrl (tileAt s k)) :)

theorem qToks_sendTok (k o q : Nat) (ctrl : Bool) (v : DataTok) (s : State) :
    qToks (tileAt (sendTok k o ctrl v s) k) q = qToks (tileAt s k) q := by
  rw [tileAt_sendTok, if_pos rfl, qToks, spent_queues]
  rfl

/-! ### A control token is taken (R105 to R111, Table 03.13) -/

/-- The TYPE that a shuttle's mode takes (R111). -/
def shWant (x : Tile) : Nat := if shModeNo x = 4 || shModeNo x = 5 then 4 else 1

/-- The state in which a transaction with a control token has begun. -/
def shBegun (k : Nat) (a : Token) (l : Leg) (ls : List Leg) (s : State) : State :=
  shSettle k (modTile k (fun t => { t with sh := { shStart (tileAt s k) (fld a.val.toNat 0 28) (l :: ls) with
    fwd := if bitAt (shMode (tileAt s k)) 4 then l.out.map (fun o => (o, a.val)) else none } }) (popTok k 4 s))

/-- The state in which a control token of another TYPE has been counted. -/
def shRefused (k : Nat) (s : State) : State :=
  modTile k (fun t => { t with sh := { t.sh with cntCtrl := (t.sh.cntCtrl + 1) % 2 ^ 32, badType := t.sh.badType + 1 } })
    (popTok k 4 s)

section Begin
variable {k c : Nat} {a : Token} {l : Leg} {ls : List Leg} {s : State} (hidle : (tileAt s k).sh.busy = false)
  (hqueue : bitAt (shMode (tileAt s k)) 3 = false) (hhead : headOf (tileAt s k) 4 = .tok a)
include hidle hqueue hhead

theorem shAct_begins (htype : fld a.val.toNat 28 4 = shWant (tileAt s k))
    (hlegs : liveLegs (shLegs (tileAt s k) (fld a.val.toNat 0 28)) = l :: ls) (hgroup : qToks (tileAt s k) l.queue ≠ []) :
    shAct k c s = shBegun k a l ls s := by
  have hsome : (decide (shGrp (tileAt s k) ≠ 0) && (qToks (tileAt s k) l.queue).isEmpty) = false := by
    simp [hgroup]
  rw [shAct, hidle, if_neg Bool.false_ne_true]
  unfold shBegin
  dsimp only
  rw [hqueue, hhead]
  dsimp only
  rw [hlegs]
  refine (if_neg (not_not.mpr htype)).trans ((if_neg (Bool.eq_false_iff.mp hsome)).trans ?_)
  rw [Bool.not_false, Bool.and_true, if_neg Bool.false_ne_true, shBegun]

theorem shAct_refuses (htype : fld a.val.toNat 28 4 ≠ shWant (tileAt s k)) : shAct k c s = shRefused k s := by
  rw [shAct, hidle, if_neg Bool.false_ne_true]
  unfold shBegin
  dsimp only
  rw [hqueue, hhead]
  exact if_pos htype

end Begin

/-- What a transaction that has begun holds. -/
theorem shBegun_holds {k : Nat} {a : Token} {l : Leg} {ls : List Leg} {s : State} (hgrp : shGrp (tileAt s k) ≠ 0) :
    (tileAt (shBegun k a l ls s) k).sh.legs = l :: ls ∧ (tileAt (shBegun k a l ls s) k).sh.busy = true ∧
    (tileAt (shBegun k a l ls s) k).sh.cntCtrl = ((tileAt s k).sh.cntCtrl + 1) % 2 ^ 32 ∧
    qToks (tileAt (shBegun k a l ls s) k) 4 = (qToks (tileAt s k) 4).tail ∧
    (tileAt (shBegun k a l ls s) k).sh.fwd = (if bitAt (shMode (tileAt s k)) 4 then l.out.map (fun o => (o, a.val)) else none) ∧
    (shBegun k a l ls s).mem = s.mem := by
  have hlegs : (shStart (tileAt s k) (fld a.val.toNat 0 28) (l :: ls)).legs = l :: ls := by
    unfold shStart
    exact if_neg hgrp
  have hbusy : (shStart (tileAt s k) (fld a.val.toNat 0 28) (l :: ls)).busy = true := rfl
  have hcount : (shStart (tileAt s k) (fld a.val.toNat 0 28) (l :: ls)).cntCtrl = ((tileAt s k).sh.cntCtrl + 1) % 2 ^ 32 := rfl
  have hctrl := qToks_popTok k 4 s
  unfold shBegun
  rw [shSettle_mem, modTile_mem, popTok_mem, qToks_shSettle, qToks_modSh, tileAt_shSettle, tileAt_modTile_same]
  dsimp only
  rw [hlegs, hbusy, hcount]
  exact ⟨rfl, by simp, rfl, hctrl, rfl, rfl⟩

theorem shRefused_holds (k : Nat) (s : State) : (tileAt (shRefused k s) k).sh.badType = (tileAt s k).sh.badType + 1 ∧
    (tileAt (shRefused k s) k).sh.busy = (tileAt s k).sh.busy ∧ qToks (tileAt (shRefused k s) k) 4 = (qToks (tileAt s k) 4).tail ∧
    (shRefused k s).mem = s.mem := by
  have hctrl := qToks_popTok k 4 s
  unfold shRefused
  rw [modTile_mem, popTok_mem, qToks_modSh, tileAt_modTile_same]
  dsimp only
  rw [sh_popTok]
  exact ⟨rfl, rfl, hctrl, rfl⟩

/-- A field of all the bits of a field. -/
theorem fld_fld (x w : Nat) : fld (fld x 0 w) 0 w = fld x 0 w := by
  rw [fld_eq, fld_eq, pow_zero, Nat.div_one, Nat.div_one, Nat.mod_mod]

/-- The commands of the six modes, what TYPE each takes, and the legs of its transaction (Table 03.13). -/
def shuttleForms (site : Site) (x : Tile) (arg : Nat) : List (Instr × Nat × Nat × List Leg) :=
  let f := steerF x arg
  [(Instr.shuttleSelect site, 1, 1, [(⟨0, some f, false, 1⟩ : Leg)]),
   (.shuttleMerge site, 2, 1, [⟨f, some 0, false, 1⟩]),
   (.shuttleFilter site, 3, 1, [⟨0, if bitAt f 0 then some 0 else if bitAt (shMode x) 13 then some 1 else none, false, 1⟩]),
   (.shuttleRepeat site, 4, 4, if arg = 0 then [⟨0, none, false, 1⟩] else [⟨0, some 0, true, arg⟩]),
   (.shuttleCounted site, 5, 4, if arg = 0 then [⟨1, some 1, false, 1⟩]
     else if arg = 1 then [⟨1, some 0, false, 1⟩, ⟨0, some 1, false, 1⟩]
     else [⟨1, some 0, false, 1⟩, ⟨0, some 0, false, arg - 1⟩, ⟨0, some 1, false, 1⟩]),
   (.shuttleSpill site, 6, 1, [⟨0, some (spillTo x f), false, 1⟩])]

/-- Each command of the six modes takes the TYPE of its mode and has its legs. -/
theorem shuttleForms_legs {site : Site} {x : Tile} {arg : Nat} (harg : fld arg 0 28 = arg) :
    ∀ p ∈ shuttleForms site x arg, (∀ s, exec p.1 s = shuttle p.2.1 site s) ∧ p.2.1 ≠ 7 ∧
      (shModeNo x = p.2.1 → p.2.2.1 = shWant x ∧ liveLegs (shLegs x arg) = p.2.2.2) := by
  simp only [shuttleForms, List.forall_mem_cons]
  refine ⟨⟨fun _ => rfl, by decide, fun hm => ?select⟩, ⟨fun _ => rfl, by decide, fun hm => ?merge⟩,
    ⟨fun _ => rfl, by decide, fun hm => ?filter⟩, ⟨fun _ => rfl, by decide, fun hm => ?copies⟩,
    ⟨fun _ => rfl, by decide, fun hm => ?counted⟩, ⟨fun _ => rfl, by decide, fun hm => ?spill⟩, fun _ h => absurd h List.not_mem_nil⟩
  case select => simp [shWant, shLegs, hm, liveLegs]
  case merge => simp [shWant, shLegs, hm, liveLegs]
  case filter =>
    have hlegs : shLegs x arg =
        [⟨0, if bitAt (steerF x arg) 0 then some 0 else if bitAt (shMode x) 13 then some 1 else none, false, 1⟩] := by
      simp only [shLegs, hm]
      split
      · rfl
      · split <;> rfl
    simp [shWant, hm, hlegs, liveLegs]
  case copies =>
    by_cases h0 : arg = 0
    · subst h0
      simp [shWant, shLegs, hm, liveLegs, harg]
    · simp [shWant, shLegs, hm, liveLegs, harg, h0]
  case counted =>
    by_cases h0 : arg = 0
    · subst h0
      simp [shWant, shLegs, hm, liveLegs, harg]
    · by_cases h1 : arg = 1
      · subst h1
        simp [shWant, shLegs, hm, liveLegs, harg]
      · have hsub : arg - 1 ≠ 0 := by omega
        simp [shWant, shLegs, hm, liveLegs, harg, h0, h1, hsub]
  case spill => simp [shWant, shLegs, hm, liveLegs]

/-! ### Tokens are moved (R105, R109, R548, R549) -/

/-- The state in which the control token has been forwarded. -/
def shForwarded (k o : Nat) (v : DataTok) (s : State) : State :=
  shSettle k (modTile k (fun t => { t with sh := { t.sh with fwd := none } }) (sendTok k o true v s))

theorem shAct_forwards {k c o : Nat} {v : DataTok} {s : State} (hbusy : (tileAt s k).sh.busy = true)
    (hfwd : (tileAt s k).sh.fwd = some (o, v)) (hcred : hasCredit (tileAt s k) o true = true) :
    shAct k c s = shForwarded k o v s := by
  rw [shAct, if_pos hbusy]
  unfold shMove
  dsimp only
  rw [hfwd]
  exact if_pos hcred

theorem shForwarded_holds (k o : Nat) (v : DataTok) (s : State) : (tileAt (shForwarded k o v s) k).sh.fwd = none ∧
    (∃ y ∈ (hoopAt (shForwarded k o v s) (noHoop k)).flight, y.src = k ∧ y.port = o ∧ y.ctrl = true ∧ y.val = v) ∧
    (tileAt (shForwarded k o v s) k).sh.legs = (tileAt s k).sh.legs ∧ (shForwarded k o v s).mem = s.mem := by
  have hway := sendTok_onWay k o true v s
  unfold shForwarded
  rw [shSettle_mem, modTile_mem, sendTok_mem, hoopAt_shSettle, hoopAt_modTile, tileAt_shSettle, tileAt_modTile_same]
  dsimp only
  rw [sh_sendTok]
  exact ⟨rfl, hway, rfl, rfl⟩

/-- The token of a leg that is next to move: the first of its queue, or of a group that stays, the one after those sent. -/
def legToken (x : Tile) (l : Leg) : Option Token := if l.keep then (qToks x l.queue)[x.sh.moved]? else (qToks x l.queue)[0]?

/-- Whether the last token of the last copy of a group that stays is being sent. -/
def lastOfCopies (x : Tile) (l : Leg) : Bool := l.keep && decide (l.times ≤ 1) && decide (shGrp x ≤ x.sh.moved + 1)

/-- A leg's token is consumed, or only read, and sent where the leg has an output. -/
def legSent (k : Nat) (l : Leg) (a : Token) (s : State) : State :=
  let s1 := if l.keep then modTile k (fun t => { t with vc := joinClock t.vc a.vc }) s else popTok k l.queue s
  match l.out with
  | some o => sendTok k o false a.val s1
  | none => s1

/-- A group that stays is consumed with the last token of its last copy. -/
def legEnded (k : Nat) (l : Leg) (a : Token) (s : State) : State :=
  if lastOfCopies (tileAt s k) l then shConsume k l.queue (legSent k l a s) else legSent k l a s

/-- The state in which a leg's token has been moved. -/
def legMoved (k : Nat) (l : Leg) (a : Token) (s : State) : State :=
  shSettle k (modTile k (fun t => { t with sh := { legsAfter (shGrp t) t.sh with
    cntData := if l.keep then t.sh.cntData else (t.sh.cntData + 1) % 2 ^ 32 } }) (legEnded k l a s))

theorem shAct_moves {k c : Nat} {l : Leg} {ls : List Leg} {a : Token} {s : State} (hbusy : (tileAt s k).sh.busy = true)
    (hfwd : (tileAt s k).sh.fwd = none) (hlegs : (tileAt s k).sh.legs = l :: ls) (htok : legToken (tileAt s k) l = some a)
    (hparity : a.parityOk = true) (hcred : ∀ o, l.out = some o → hasCredit (tileAt s k) o false = true) :
    shAct k c s = legMoved k l a s := by
  have hfree : (l.out.any fun o => !hasCredit (tileAt s k) o false) = false := by
    cases ho : l.out with
    | none => rfl
    | some o => simp [hcred o ho]
  rw [shAct, if_pos hbusy]
  unfold shMove
  dsimp only
  rw [hfwd, hlegs]
  unfold legToken at htok
  dsimp only
  rw [htok]
  dsimp only
  rw [hparity, hfree, Bool.not_true, if_neg Bool.false_ne_true, if_neg Bool.false_ne_true]
  rfl

/-- Several tokens of one queue consumed: what the shuttle's own state, its registers and the circuits' tokens keep. -/
theorem popTok_times (k q : Nat) {α : Type} (xs : List α) (s : State) :
    let t := xs.foldl (fun s _ => popTok k q s) s
    qToks (tileAt t k) q = (qToks (tileAt s k) q).drop xs.length ∧ (tileAt t k).sh = (tileAt s k).sh ∧
      (tileAt t k).cfg = (tileAt s k).cfg ∧ (∀ h, (hoopAt t h).flight = (hoopAt s h).flight) ∧ t.mem = s.mem := by
  induction xs generalizing s with
  | nil => exact ⟨rfl, rfl, rfl, fun _ => rfl, rfl⟩
  | cons x xs ih =>
    obtain ⟨hq, hsh, hcfg, hflight, hmem⟩ := ih (popTok k q s)
    rw [List.foldl_cons, List.length_cons]
    refine ⟨?_, ?_, ?_, fun h => ?_, ?_⟩
    · rw [hq, qToks_popTok, List.drop_tail]
    · rw [hsh, sh_popTok]
    · rw [hcfg, cfg_popTok]
    · rw [hflight, flight_popTok]
    · rw [hmem, popTok_mem]

section Moved
variable (k : Nat) (l : Leg) (a : Token) (s : State)

/-- What a leg's token leaves as it moves, before its transaction goes on. -/
theorem legSent_holds : (tileAt (legSent k l a s) k).sh = (tileAt s k).sh ∧ (tileAt (legSent k l a s) k).cfg = (tileAt s k).cfg ∧
    qToks (tileAt (legSent k l a s) k) l.queue = (if l.keep then qToks (tileAt s k) l.queue else (qToks (tileAt s k) l.queue).tail) ∧
    (∀ o, l.out = some o → ∃ y ∈ (hoopAt (legSent k l a s) (noHoop k)).flight, y.src = k ∧ y.port = o ∧ y.ctrl = false ∧
      y.val = a.val) ∧ (legSent k l a s).mem = s.mem := by
  obtain ⟨s1, hs1⟩ : ∃ s1, s1 = if l.keep then modTile k (fun t => { t with vc := joinClock t.vc a.vc }) s else popTok k l.queue s :=
    ⟨_, rfl⟩
  have hread : (tileAt s1 k).sh = (tileAt s k).sh ∧ (tileAt s1 k).cfg = (tileAt s k).cfg ∧
      qToks (tileAt s1 k) l.queue = (if l.keep then qToks (tileAt s k) l.queue else (qToks (tileAt s k) l.queue).tail) ∧
      s1.mem = s.mem := by
    cases hk : l.keep with
    | true =>
      rw [hs1, hk, if_pos rfl, if_pos rfl, tileAt_modTile_same, modTile_mem]
      exact ⟨rfl, rfl, rfl, rfl⟩
    | false =>
      rw [hs1, hk, if_neg Bool.false_ne_true, if_neg Bool.false_ne_true, sh_popTok, cfg_popTok, qToks_popTok, popTok_mem]
      exact ⟨rfl, rfl, rfl, rfl⟩
  have hsent : legSent k l a s = match l.out with
      | some o => sendTok k o false a.val s1
      | none => s1 := by
    rw [hs1]
    rfl
  rw [hsent]
  obtain ⟨hsh, hcfg, hq, hmem⟩ := hread
  cases l.out with
  | none => exact ⟨hsh, hcfg, hq, fun _ h => absurd h (Option.some_ne_none _).symm, hmem⟩
  | some o =>
    dsimp only
    rw [sh_sendTok, cfg_sendTok, qToks_sendTok, sendTok_mem]
    refine ⟨hsh, hcfg, hq, fun o' h => ?_, hmem⟩
    cases h
    exact sendTok_onWay k o false a.val s1

theorem legEnded_holds : (tileAt (legEnded k l a s) k).sh = { (tileAt s k).sh with
      cntData := if lastOfCopies (tileAt s k) l then ((tileAt s k).sh.cntData + shGrp (tileAt s k)) % 2 ^ 32 else (tileAt s k).sh.cntData } ∧
    (tileAt (legEnded k l a s) k).cfg = (tileAt s k).cfg ∧
    qToks (tileAt (legEnded k l a s) k) l.queue = (if lastOfCopies (tileAt s k) l then
      (qToks (tileAt (legSent k l a s) k) l.queue).drop (shGrp (tileAt s k)) else qToks (tileAt (legSent k l a s) k) l.queue) ∧
    (hoopAt (legEnded k l a s) (noHoop k)).flight = (hoopAt (legSent k l a s) (noHoop k)).flight ∧
    (legEnded k l a s).mem = (legSent k l a s).mem := by
  obtain ⟨hsh, hcfg, -, -, -⟩ := legSent_holds k l a s
  have hgrp : shGrp (tileAt (legSent k l a s) k) = shGrp (tileAt s k) := by rw [shGrp, cfgNum, hcfg]; rfl
  unfold legEnded
  cases hlast : lastOfCopies (tileAt s k) l with
  | false =>
    rw [if_neg Bool.false_ne_true, if_neg Bool.false_ne_true, if_neg Bool.false_ne_true]
    exact ⟨hsh, hcfg, rfl, rfl, rfl⟩
  | true =>
    obtain ⟨hq', hsh', hcfg', hflight', hmem'⟩ := popTok_times k l.queue (List.range (shGrp (tileAt s k))) (legSent k l a s)
    rw [if_pos rfl, if_pos rfl, if_pos rfl, shConsume, hgrp]
    dsimp only
    rw [qToks_modSh, tileAt_modTile_same, hoopAt_modTile, modTile_mem]
    dsimp only
    rw [hsh', hsh, hcfg', hflight', hmem']
    rw [List.length_range] at hq'
    exact ⟨rfl, hcfg, hq', rfl, rfl⟩

end Moved

/-- The legs and their position after one more token. -/
theorem legsAfter_moves {grp : Nat} {x : STile} {l : Leg} {ls : List Leg} (h : x.legs = l :: ls) :
    ((legsAfter grp x).legs, (legsAfter grp x).moved) = if x.moved + 1 < grp then (x.legs, x.moved + 1)
      else if l.times ≤ 1 then (ls, 0) else ({ l with times := l.times - 1 } :: ls, 0) := by
  unfold legsAfter
  rw [h]
  dsimp only
  split
  · rfl
  · split <;> rfl

/-- A shuttle after one more token: its legs go on, and a token that does not stay is counted. -/
def legNext (l : Leg) (t : Tile) : STile :=
  { legsAfter (shGrp t) t.sh with cntData := if l.keep then t.sh.cntData else (t.sh.cntData + 1) % 2 ^ 32 }

theorem legMoved_eq (k : Nat) (l : Leg) (a : Token) (s : State) :
    legMoved k l a s = shSettle k (modTile k (fun t => { t with sh := legNext l t }) (legEnded k l a s)) := rfl

section Next
variable {k : Nat} {l : Leg} {ls : List Leg} {a : Token} {s : State}

theorem legs_legMoved (hlegs : (tileAt s k).sh.legs = l :: ls) :
    ((tileAt (legMoved k l a s) k).sh.legs, (tileAt (legMoved k l a s) k).sh.moved) =
      if (tileAt s k).sh.moved + 1 < shGrp (tileAt s k) then ((tileAt s k).sh.legs, (tileAt s k).sh.moved + 1)
      else if l.times ≤ 1 then (ls, 0) else ({ l with times := l.times - 1 } :: ls, 0) := by
  obtain ⟨hsh, hcfg, -, -, -⟩ := legEnded_holds k l a s
  have hgrp : shGrp (tileAt (legEnded k l a s) k) = shGrp (tileAt s k) := by rw [shGrp, cfgNum, hcfg]; rfl
  have hsame : (tileAt (legEnded k l a s) k).sh.legs = (tileAt s k).sh.legs := (congrArg STile.legs hsh :)
  have hmoved : (tileAt (legEnded k l a s) k).sh.moved = (tileAt s k).sh.moved := (congrArg STile.moved hsh :)
  have hnext := legsAfter_moves (grp := shGrp (tileAt (legEnded k l a s) k)) (hsame.trans hlegs)
  rw [hgrp, hsame, hmoved] at hnext
  rw [legMoved_eq, tileAt_shSettle, tileAt_modTile_same]
  dsimp only
  rw [legNext, hgrp]
  exact hnext

theorem cntData_legMoved : (tileAt (legMoved k l a s) k).sh.cntData =
    if l.keep then (tileAt (legEnded k l a s) k).sh.cntData else ((tileAt (legEnded k l a s) k).sh.cntData + 1) % 2 ^ 32 := by
  rw [legMoved_eq, tileAt_shSettle, tileAt_modTile_same]
  rfl

theorem qToks_legMoved (q : Nat) : qToks (tileAt (legMoved k l a s) k) q = qToks (tileAt (legEnded k l a s) k) q := by
  rw [legMoved_eq, qToks_shSettle, qToks_modSh]

/-- A token that does not stay is consumed and counted. -/
theorem legMoved_consumes (hkeep : l.keep = false) :
    qToks (tileAt (legMoved k l a s) k) l.queue = (qToks (tileAt s k) l.queue).tail ∧
      (tileAt (legMoved k l a s) k).sh.cntData = ((tileAt s k).sh.cntData + 1) % 2 ^ 32 := by
  have hlast : lastOfCopies (tileAt s k) l = false := by rw [lastOfCopies, hkeep]; rfl
  have hended : legEnded k l a s = legSent k l a s := if_neg (Bool.eq_false_iff.mp hlast)
  obtain ⟨hsh, -, hq, -, -⟩ := legSent_holds k l a s
  rw [qToks_legMoved, cntData_legMoved, hended, hq, hsh, hkeep]
  exact ⟨rfl, rfl⟩

/-- A token that stays is not counted. -/
theorem legMoved_keeps (hkeep : l.keep = true) (hlast : lastOfCopies (tileAt s k) l = false) :
    qToks (tileAt (legMoved k l a s) k) l.queue = qToks (tileAt s k) l.queue ∧
      (tileAt (legMoved k l a s) k).sh.cntData = (tileAt s k).sh.cntData := by
  have hended : legEnded k l a s = legSent k l a s := if_neg (Bool.eq_false_iff.mp hlast)
  obtain ⟨hsh, -, hq, -, -⟩ := legSent_holds k l a s
  rw [qToks_legMoved, cntData_legMoved, hended, hq, hsh, hkeep]
  exact ⟨rfl, rfl⟩

/-- The last token of the last copy takes the group with it. -/
theorem legMoved_ends (hkeep : l.keep = true) (hlast : lastOfCopies (tileAt s k) l = true) :
    qToks (tileAt (legMoved k l a s) k) l.queue = (qToks (tileAt s k) l.queue).drop (shGrp (tileAt s k)) ∧
      (tileAt (legMoved k l a s) k).sh.cntData = ((tileAt s k).sh.cntData + shGrp (tileAt s k)) % 2 ^ 32 := by
  obtain ⟨hsh, -, hq, -, -⟩ := legEnded_holds k l a s
  obtain ⟨-, -, hstay, -, -⟩ := legSent_holds k l a s
  rw [hkeep, if_pos rfl] at hstay
  rw [hlast, if_pos rfl, hstay] at hq
  rw [hlast, if_pos rfl] at hsh
  rw [qToks_legMoved, cntData_legMoved, hq, hsh, hkeep]
  exact ⟨rfl, rfl⟩

theorem legMoved_onWay {o : Nat} (ho : l.out = some o) :
    ∃ y ∈ (hoopAt (legMoved k l a s) (noHoop k)).flight, y.src = k ∧ y.port = o ∧ y.ctrl = false ∧ y.val = a.val := by
  obtain ⟨-, -, -, hflight, -⟩ := legEnded_holds k l a s
  obtain ⟨-, -, -, hway, -⟩ := legSent_holds k l a s
  rw [legMoved_eq, hoopAt_shSettle, hoopAt_modTile, hflight]
  exact hway o ho

theorem legMoved_mem : (legMoved k l a s).mem = s.mem := by
  obtain ⟨-, -, -, -, hended⟩ := legEnded_holds k l a s
  obtain ⟨-, -, -, -, hsent⟩ := legSent_holds k l a s
  rw [legMoved_eq, shSettle_mem, modTile_mem, hended, hsent]

end Next

/-- The commands of the six modes. -/
theorem shuttle_modes (site : Site) : ∀ p ∈ [(Instr.shuttleSelect site, 1), (.shuttleMerge site, 2), (.shuttleFilter site, 3),
    (.shuttleRepeat site, 4), (.shuttleCounted site, 5), (.shuttleSpill site, 6)],
    (∀ s, exec p.1 s = shuttle p.2 site s) ∧ p.2 ≠ 7 := by
  simp only [List.forall_mem_cons]
  exact ⟨⟨fun _ => rfl, by decide⟩, ⟨fun _ => rfl, by decide⟩, ⟨fun _ => rfl, by decide⟩, ⟨fun _ => rfl, by decide⟩,
    ⟨fun _ => rfl, by decide⟩, ⟨fun _ => rfl, by decide⟩, fun _ h => absurd h List.not_mem_nil⟩

/-! ### The statement -/

/-- Settles O35: each mode's command takes a control token with the legs of its mode, and moves the tokens of its legs. -/
theorem shuttlesTakeControlAndMoveTokens : Obligations.ShuttlesTakeControlAndMoveTokens := by
  unfold Obligations.ShuttlesTakeControlAndMoveTokens
  constructor
  · intro site r a l s k x arg f hrun hkind hidle hqueue hhead hgrp p hp hmode
    obtain ⟨hexec, hseven, hform⟩ := shuttleForms_legs (site := site) (x := x) (fld_fld a.val.toNat 28) p hp
    obtain ⟨hwant, hlegs⟩ := hform hmode
    have hnext := (hexec s).trans (shuttle_acts hrun hkind hseven hmode)
    refine ⟨fun htype hfirst hgroup => ?_, fun htype => ?_⟩
    · obtain ⟨ls, hls⟩ : ∃ ls, p.2.2.2 = l :: ls := List.head?_eq_some_iff.mp hfirst
      rw [shAct_begins hidle hqueue hhead (htype.trans hwant) (hlegs.trans hls) hgroup] at hnext
      refine ⟨_, hnext, ?_⟩
      rw [tileAt_groundPart, groundPart_mem, hls]
      exact shBegun_holds hgrp
    · rw [shAct_refuses hidle hqueue hhead (hwant ▸ htype)] at hnext
      obtain ⟨hbad, hbusy, hctrl, hmem⟩ := shRefused_holds k s
      refine ⟨_, hnext, ?_⟩
      rw [tileAt_groundPart, groundPart_mem]
      exact ⟨hbad, hbusy.trans hidle, hctrl, hmem⟩
  · intro site r s k x lastCopy hrun hkind hbusy p hp hmode
    obtain ⟨hexec, hseven⟩ := shuttle_modes site p hp
    have hnext := (hexec s).trans (shuttle_acts hrun hkind hseven hmode)
    refine ⟨fun o v hfwd hcred => ?_, fun l ls a hfwd hlegs htok hparity hcred => ?_⟩
    · rw [shAct_forwards hbusy hfwd hcred] at hnext
      refine ⟨_, hnext, ?_⟩
      rw [tileAt_groundPart, hoopAt_groundPart, groundPart_mem]
      exact shForwarded_holds k o v s
    · have hlast : lastCopy l ↔ l.keep = true ∧ lastOfCopies x l = true := by
        simp only [lastCopy, lastOfCopies, Bool.and_eq_true, decide_eq_true_eq]
        exact ⟨fun ⟨hkeep, hlast, hgroup⟩ => ⟨hkeep, ⟨hkeep, hlast⟩, hgroup⟩,
          fun ⟨hkeep, ⟨_, hlast⟩, hgroup⟩ => ⟨hkeep, hlast, hgroup⟩⟩
      rw [shAct_moves hbusy hfwd hlegs htok hparity hcred] at hnext
      refine ⟨_, hnext, ?_⟩
      rw [tileAt_groundPart, hoopAt_groundPart, groundPart_mem]
      refine ⟨fun o ho => legMoved_onWay ho, legMoved_consumes, fun hkeep hnot => ?_, fun h => ?_, legs_legMoved hlegs, legMoved_mem⟩
      · exact legMoved_keeps hkeep (Bool.eq_false_iff.mpr fun h => hnot (hlast.mpr ⟨hkeep, h⟩))
      · exact legMoved_ends (hlast.mp h).1 (hlast.mp h).2

end Sys2Proof.Machine
end

section
/-! O22: entries end at their times, and runs complete with their checks. -/

namespace Sys2Proof.Machine

/-! ### Entries in progress -/

theorem runAt_groundPart (s u : State) (h e : Nat) : runAt (groundPart s u) h e = runAt u h e := by
  rw [runAt, hoopAt_groundPart, runAt]

theorem runAt_latch (c : Nat) (code : FaultCode) (it : Item) (reason load : Nat) (d : FaultDetail) (s : State) (h e : Nat) :
    runAt (latch c code it reason load d s) h e = runAt s h e := by
  rw [runAt, hoopAt_latch, runAt]

/-- An entry in progress after its run has been changed. -/
theorem runAt_modRun {h e : Nat} {r : RunSt} {f : RunSt → RunSt} {s : State} (hf : ∀ y, (f y).entry = y.entry)
    (hrun : runAt s h e = some r) : runAt (modRun h r f s) h e = some (f r) := by
  have hentry : (fun y => decide (y.entry = e)) ∘ (fun y => if y = r then f y else y) = fun y : RunSt => decide (y.entry = e) := by
    funext y
    by_cases hy : y = r <;> simp [hy, hf]
  unfold runAt at hrun ⊢
  rw [modRun, hoopAt_modHoop_same]
  dsimp only
  rw [List.find?_map, hentry, hrun, Option.map_some, if_pos rfl]

/-- What does not look at contexts is as before the end of a RUN count. -/
theorem settleIdle_keeps {α : Type} (g : State → α) (hg : ∀ c f u, g (modCtx c f u) = g u) (s : State) : g (settleIdle s) = g s :=
  foldl_keeps g _ (fun _ _ => by dsimp only; rw [apply_ite g, hg, ite_self]) _ _

/-- The end of a RUN count changes a context's state and count only. -/
theorem ctxAt_settleIdle {α : Type} (g : Ctx → α) (hg : ∀ x, g { x with st := .idle, ending := false, runLeft := some 0 } = g x)
    (c : Nat) (s : State) : g (ctxAt (settleIdle s) c) = g (ctxAt s c) := by
  refine foldl_keeps (fun s => g (ctxAt s c)) _ (fun s j => ?_) _ _
  dsimp only
  split
  · rw [ctxAt_modCtx]
    split
    · next hc => rw [hg, hc]
    · rfl
  · rfl

theorem dropRun_mem (h e : Nat) (s : State) : (dropRun h e s).mem = s.mem := by
  rw [dropRun, settleIdle_keeps State.mem modCtx_mem, modHoop_mem]

theorem dropRun_tiles (h e : Nat) (s : State) : (dropRun h e s).tiles = s.tiles := by
  rw [dropRun, settleIdle_keeps State.tiles modCtx_tiles, modHoop_tiles]

theorem hoopAt_dropRun (h e : Nat) (s : State) :
    hoopAt (dropRun h e s) h = { hoopAt s h with runs := (hoopAt s h).runs.filter fun y => y.entry ≠ e } := by
  rw [dropRun, settleIdle_keeps (hoopAt · h) (fun _ _ _ => rfl), hoopAt_modHoop_same]

/-- An entry that has been dropped is no longer in progress. -/
theorem runAt_dropRun (h e : Nat) (s : State) : runAt (dropRun h e s) h e = none := by
  rw [runAt, hoopAt_dropRun, List.find?_eq_none]
  intro y hy
  simpa using (List.mem_filter.mp hy).2

theorem latched_dropRun (h e c : Nat) (s : State) : (ctxAt (dropRun h e s) c).latched = (ctxAt s c).latched :=
  ctxAt_settleIdle Ctx.latched (fun _ => rfl) c _

theorem images_dropRun (h e c : Nat) (s : State) : (ctxAt (dropRun h e s) c).images = (ctxAt s c).images :=
  ctxAt_settleIdle Ctx.images (fun _ => rfl) c _

theorem tileAt_dropRun (h e k : Nat) (s : State) : tileAt (dropRun h e s) k = tileAt s k := by
  rw [tileAt, dropRun_tiles, tileAt]

theorem latch_first {c : Nat} {code : FaultCode} {it : Item} {reason load : Nat} {d : FaultDetail} {s : State}
    (h : (ctxAt s c).latched = none) : ∃ l, (ctxAt (latch c code it reason load d s) c).latched = some l ∧ l.code = code ∧ l.done = false := by
  rw [latch, ctxAt_modCtx_same, h]
  exact ⟨_, rfl, rfl, rfl⟩

/-! ### OUT_AT, DEADLINE and forced stops (R311 to R314) -/

theorem outAt_enters {hoop : Fin 8} {entry : Fin 128} {s : State} {r : RunSt} (hrun : runAt s hoop.val entry.val = some r)
    (hsplit : r.split = true) : ∃ t, exec (.outAtReached hoop entry) s = .next t ∧
      runAt t hoop.val entry.val = some { r with outOk := true } ∧ t.tiles = s.tiles ∧ t.mem = s.mem ∧ t.ctxs = s.ctxs := by
  have hnext : exec (.outAtReached hoop entry) s =
      .next (groundPart s (modRun hoop.val r (fun y => { y with outOk := true }) s)) := by
    change execOutAtReached hoop entry s = _
    simp [execOutAtReached, hrun, hsplit]
  refine ⟨_, hnext, ?_, ?_⟩
  · rw [runAt_groundPart]
    exact runAt_modRun (f := fun y => { y with outOk := true }) (fun _ => rfl) hrun
  · rw [groundPart_tiles, groundPart_mem, groundPart_ctxs, modRun, modHoop_tiles, modHoop_mem, modHoop_ctxs]
    exact ⟨rfl, rfl, rfl⟩

/-- DEADLINE of an entry in progress, by its stage. -/
theorem exec_deadline {hoop : Fin 8} {entry : Fin 128} {s : State} {r : RunSt} (hrun : runAt s hoop.val entry.val = some r) :
    exec (.deadline hoop entry) s = .next (groundPart s (match r.stage with
      | .sweeping => pauseEnds hoop.val (modRun hoop.val r (fun y => { y with stage := .pausing }) s)
      | .pausing => s
      | .stopped => s
      | .loading => latch r.ctx .overrun (entryItem hoop.val r.c0) 0 0 .none (dropRun hoop.val entry.val
          (modHoop hoop.val (fun x => { x with loads := x.loads.filter fun l => l.origin ≠ .entry entry.val }) s))
      | .running =>
        let keep := decide ((ctxAt s r.ctx).st = .evicting) && (ctxAt s r.ctx).latched.isNone && (parkedTile s hoop.val r).isSome
        modRun hoop.val r (fun y => { y with stage := .stopped }) (stopRegion keep r.ctx hoop.val r.c0 r.c1 (if keep then s
          else match parkedTile s hoop.val r with
            | some k => faultAt r.ctx .xlate (tileItem s k) s
            | none => useFree 1 (faultAt r.ctx .overrun (overrunItem s hoop.val r) s))))) := by
  change execDeadline hoop entry s = _
  unfold execDeadline
  dsimp only
  rw [hrun]
  rfl

/-- The runs of a Hoop at whose entry a sweep pauses: once its engine has no block in flight, none of the entry's is left. -/
theorem runAt_paused {h e : Nat} {r : RunSt} {s : State} (hrun : runAt s h e = some r)
    (hone : ((hoopAt s h).runs.map (·.entry)).Nodup) :
    runAt (pauseEnds h (modRun h r (fun y => { y with stage := .pausing }) s)) h e =
      if engineBusy s h then some { r with stage := .pausing } else none := by
  have hbusy : engineBusy (modRun h r (fun y => { y with stage := .pausing }) s) h = engineBusy s h := rfl
  unfold pauseEnds
  rw [hbusy]
  split
  · exact runAt_modRun (f := fun y => { y with stage := .pausing }) (fun _ => rfl) hrun
  · rw [runAt, hoopAt_modHoop_same, modRun, hoopAt_modHoop_same, List.find?_eq_none]
    intro y hy
    obtain ⟨z, hz, rfl⟩ := List.mem_map.mp hy
    obtain ⟨hz, hgoing⟩ := List.mem_filter.mp hz
    obtain ⟨x, hx, rfl⟩ := List.mem_map.mp hz
    have hentry : ∀ w : RunSt, (if w.stage = .sweeping then { w with outOk := true } else w).entry = w.entry := fun w => by
      split <;> rfl
    rw [hentry]
    by_cases hxr : x = r
    · simp [hxr] at hgoing
    · rw [if_neg hxr]
      have hother : x.entry ≠ r.entry := fun h => hxr (List.inj_on_of_nodup_map hone hx (List.mem_of_find?_eq_some hrun) h)
      have hr : r.entry = e := by simpa using List.find?_some hrun
      simpa [hr] using hother

theorem deadline_sweeping {hoop : Fin 8} {entry : Fin 128} {s : State} {r : RunSt} (hrun : runAt s hoop.val entry.val = some r)
    (hone : ((hoopAt s hoop.val).runs.map (·.entry)).Nodup) (hstage : r.stage = .sweeping) :
    ∃ t, exec (.deadline hoop entry) s = .next t ∧
      runAt t hoop.val entry.val = (if engineBusy s hoop.val then some { r with stage := .pausing } else none) ∧
      t.tiles = s.tiles ∧ t.mem = s.mem ∧ t.ctxs = s.ctxs := by
  have hnext := exec_deadline hrun
  rw [hstage] at hnext
  refine ⟨_, hnext, ?_, ?_⟩
  · rw [runAt_groundPart]
    exact runAt_paused hrun hone
  · rw [groundPart_tiles, groundPart_mem, groundPart_ctxs, pauseEnds, apply_ite State.tiles, apply_ite State.mem, apply_ite State.ctxs,
      modHoop_tiles, modHoop_mem, modHoop_ctxs, modRun, modHoop_tiles, modHoop_mem, modHoop_ctxs, ite_self, ite_self, ite_self]
    exact ⟨rfl, rfl, rfl⟩

theorem deadline_loading {hoop : Fin 8} {entry : Fin 128} {s : State} {r : RunSt} (hrun : runAt s hoop.val entry.val = some r)
    (hstage : r.stage = .loading) (hlatched : (ctxAt s r.ctx).latched = none) :
    ∃ t, exec (.deadline hoop entry) s = .next t ∧ runAt t hoop.val entry.val = none ∧
      (∀ l ∈ (hoopAt t hoop.val).loads, l.origin ≠ .entry entry.val) ∧
      (∃ l, (ctxAt t r.ctx).latched = some l ∧ l.code = .overrun ∧ l.done = false) ∧ t.tiles = s.tiles ∧ t.mem = s.mem := by
  have hnext := exec_deadline hrun
  rw [hstage] at hnext
  refine ⟨_, hnext, ?_, ?_, ?_, ?_⟩
  · rw [runAt_groundPart, runAt_latch]
    exact runAt_dropRun _ _ _
  · rw [hoopAt_groundPart, hoopAt_latch, hoopAt_dropRun, hoopAt_modHoop_same]
    intro l hl
    simpa using (List.mem_filter.mp hl).2
  · rw [ctxAt_groundPart]
    apply latch_first
    rw [latched_dropRun, ctxAt_modHoop, hlatched]
  · rw [groundPart_tiles, groundPart_mem, latch, modCtx_tiles, modCtx_mem, dropRun_tiles, dropRun_mem, modHoop_tiles, modHoop_mem]
    exact ⟨rfl, rfl⟩

theorem deadline_running {hoop : Fin 8} {entry : Fin 128} {s u : State} {r : RunSt} {keep : Bool}
    (hrun : runAt s hoop.val entry.val = some r) (hstage : r.stage = .running)
    (hkeep : keep = (decide ((ctxAt s r.ctx).st = .evicting) && (ctxAt s r.ctx).latched.isNone && (parkedTile s hoop.val r).isSome))
    (hu : u = stopRegion keep r.ctx hoop.val r.c0 r.c1 (if keep then s else match parkedTile s hoop.val r with
      | some k => faultAt r.ctx .xlate (tileItem s k) s
      | none => useFree 1 (faultAt r.ctx .overrun (overrunItem s hoop.val r) s)))
    (hruns : (hoopAt u hoop.val).runs = (hoopAt s hoop.val).runs) :
    ∃ t, exec (.deadline hoop entry) s = .next t ∧ runAt t hoop.val entry.val = some { r with stage := .stopped } ∧
      (ctxAt t r.ctx).latched = (ctxAt u r.ctx).latched ∧ t.tiles = u.tiles ∧ t.mem = u.mem := by
  have hnext : exec (.deadline hoop entry) s =
      .next (groundPart s (modRun hoop.val r (fun y => { y with stage := .stopped }) u)) := by
    rw [exec_deadline hrun, hstage, hu, hkeep]
  have hstill : runAt u hoop.val entry.val = some r := by rwa [runAt, hruns]
  refine ⟨_, hnext, ?_, ?_, ?_⟩
  · rw [runAt_groundPart]
    exact runAt_modRun (f := fun y => { y with stage := .stopped }) (fun _ => rfl) hstill
  · rw [ctxAt_groundPart, modRun, ctxAt_modHoop]
  · rw [groundPart_tiles, groundPart_mem, modRun, modHoop_tiles, modHoop_mem]
    exact ⟨rfl, rfl⟩

/-! ### Regions released and scanned (R314, R321) -/

theorem queues_emptied {ks : List Nat} {k : Nat} {s : State} (h : k ∈ ks ∨ (tileAt s k).queues = []) :
    (tileAt (ks.foldl (fun s k => modTile k (fun t => { t with queues := [], masks := [] }) s) s) k).queues = [] := by
  induction ks generalizing s with
  | nil => simpa using h
  | cons j ks ih =>
    rw [List.foldl_cons]
    refine ih ?_
    by_cases hj : k = j
    · exact .inr (by rw [hj, tileAt_modTile_same])
    · rw [tileAt_modTile_other _ _ hj]
      exact h.imp_left fun h => (List.mem_cons.mp h).resolve_left hj

theorem queues_emptyRegion {h c0 c1 k : Nat} (hk : k ∈ regionTiles h c0 c1) (s : State) :
    (tileAt (emptyRegion h c0 c1 s) k).queues = [] := by
  rw [emptyRegion, tileAt_modHoop, emptyQueues]
  rw [tileAt_modHoop]
  exact queues_emptied (.inl hk)

theorem emptyRegion_mem (h c0 c1 : Nat) (s : State) : (emptyRegion h c0 c1 s).mem = s.mem := by
  rw [emptyRegion, modHoop_mem, emptyQueues_mem]

theorem ctxAt_emptyRegion (h c0 c1 c : Nat) (s : State) : ctxAt (emptyRegion h c0 c1 s) c = ctxAt s c := by
  rw [emptyRegion, ctxAt_modHoop, emptyQueues]
  rw [ctxAt_modHoop]
  exact foldl_keeps (ctxAt · c) (fun s k => modTile k (fun t => { t with queues := [], masks := [] }) s) (fun _ _ => rfl) _ _

theorem image_scanRegion (c h c0 c1 m : Nat) (s : State) :
    (h, c0, c1, m, true, false) ∈ (ctxAt (scanRegion c true false (h, c0, c1, m) s) c).images := by
  rw [scanRegion, ctxAt_modCtx_same]
  exact List.mem_append_right _ (List.mem_singleton_self _)

/-- The end of a forced stop releases the region; that of a faulted context empties its queues. -/
theorem forcedStop_releases {hoop : Fin 8} {entry : Fin 128} {s : State} {r : RunSt} (hrun : runAt s hoop.val entry.val = some r)
    (hstage : r.stage = .stopped) : ∃ t, exec (.forcedStopComplete hoop entry) s = .next t ∧ runAt t hoop.val entry.val = none ∧
      ((ctxAt s r.ctx).latched ≠ none → ∀ k ∈ regionTiles hoop.val r.c0 r.c1, (tileAt t k).queues = []) ∧ t.mem = s.mem := by
  have hexec : exec (.forcedStopComplete hoop entry) s = .next (groundPart s (dropRun hoop.val entry.val
      (if (ctxAt s r.ctx).latched.isNone then s
        else emptyRegion hoop.val r.c0 r.c1 (captureRegion r.ctx hoop.val r.c0 r.c1 s)))) := by
    change execForcedStopComplete hoop entry s = _
    simp only [execForcedStopComplete, hrun, hstage, ground_next, ne_eq, not_true_eq_false, if_false, apply_ite (dropRun _ _)]
  refine ⟨_, hexec, ?_, fun hfault k hk => ?_, ?_⟩
  · rw [runAt_groundPart]
    exact runAt_dropRun _ _ _
  · rw [tileAt_groundPart, tileAt_dropRun, if_neg (by simpa using hfault)]
    exact queues_emptyRegion hk _
  · rw [groundPart_mem, dropRun_mem, apply_ite State.mem, emptyRegion_mem, captureRegion, modCtx_mem, ite_self]

/-! ### Completion (R101, R280, R313, R321) -/

/-- What looks at neither tiles nor links is as before the DRAINs of remote knots left. -/
theorem askChecks_keeps {α : Type} (g : State → α) (htile : ∀ k f u, g (modTile k f u) = g u) (hlinks : ∀ u, g (linksOff u) = g u)
    (c h c0 c1 : Nat) (s : State) : g (askChecks c h c0 c1 s) = g s :=
  foldl_keeps g _ (fun s _ => foldl_keeps g _ (fun s _ => by
    rw [apply_ite g, remoteKnot, sendOut_keeps g _ _ _ _ _ hlinks, htile, ite_self]) _ s) _ s

section Completes
variable {hoop : Fin 8} {entry : Fin 128} {s : State} {r : RunSt} (hrun : runAt s hoop.val entry.val = some r)
  (hstage : r.stage = .running)
  (hended : ∀ k ∈ regionTiles hoop.val r.c0 r.c1, (tileAt s k).seq.on = true → (tileAt s k).seq.ended = true)
  (hquiet : steeringQuiet s r.ctx hoop.val r.c0 r.c1 = true)
include hrun hstage hended hquiet

/-- Completion of a run whose sequencers have ended and whose shuttles and G tiles are quiet. -/
theorem exec_runComplete {v : State}
    (hv : v = if enScan (entryAt s hoop.val entry.val) then landAll [(hoop.val, r.c0, r.c1, r.motif)] s else s) :
    exec (.runComplete hoop entry) s = .next (groundPart s (
      if enScan (entryAt s hoop.val entry.val) && !scanFits v [(hoop.val, r.c0, r.c1, r.motif)] then v
      else if !checksAnswered v hoop.val r.c0 r.c1 then askChecks r.ctx hoop.val r.c0 r.c1 v
      else dropRun hoop.val entry.val (
        if enScan (entryAt s hoop.val entry.val) && (ctxAt (runChecks r.ctx hoop.val r.c0 r.c1 v) r.ctx).latched.isNone then
          scanOut r.ctx true [(hoop.val, r.c0, r.c1, r.motif)] (runChecks r.ctx hoop.val r.c0 r.c1 v)
        else runChecks r.ctx hoop.val r.c0 r.c1 v))) := by
  have hall : ((regionTiles hoop.val r.c0 r.c1).all fun k => !(tileAt s k).seq.on || (tileAt s k).seq.ended) = true := by
    rw [List.all_eq_true]
    intro k hk
    cases hon : (tileAt s k).seq.on with
    | false => rfl
    | true => simpa using hended k hk hon
  change execRunComplete hoop entry s = _
  unfold execRunComplete
  dsimp only
  rw [hrun]
  dsimp only
  rw [hstage, hall, hquiet, ← hv]
  rfl

theorem completes_checked (hscan : enScan (entryAt s hoop.val entry.val) = false)
    (hchecked : checksAnswered s hoop.val r.c0 r.c1 = true) :
    ∃ t, exec (.runComplete hoop entry) s = .next t ∧ runAt t hoop.val entry.val = none ∧
      t.mem = (runChecks r.ctx hoop.val r.c0 r.c1 s).mem ∧ t.tiles = (runChecks r.ctx hoop.val r.c0 r.c1 s).tiles ∧
      (ctxAt t r.ctx).latched = (ctxAt (runChecks r.ctx hoop.val r.c0 r.c1 s) r.ctx).latched := by
  have hnext := exec_runComplete hrun hstage hended hquiet rfl
  simp only [hscan, hchecked, Bool.false_and, Bool.not_true, Bool.false_eq_true, if_false] at hnext
  refine ⟨_, hnext, ?_, ?_, ?_, ?_⟩
  · rw [runAt_groundPart]
    exact runAt_dropRun _ _ _
  · rw [groundPart_mem, dropRun_mem]
  · rw [groundPart_tiles, dropRun_tiles]
  · rw [ctxAt_groundPart, latched_dropRun]

theorem completes_asks (hscan : enScan (entryAt s hoop.val entry.val) = false)
    (hchecked : checksAnswered s hoop.val r.c0 r.c1 = false) :
    ∃ t, exec (.runComplete hoop entry) s = .next t ∧ runAt t hoop.val entry.val = some r ∧ t.mem = s.mem := by
  have hnext := exec_runComplete hrun hstage hended hquiet rfl
  simp only [hscan, hchecked, Bool.false_and, Bool.not_false, Bool.false_eq_true, if_false, if_true] at hnext
  refine ⟨_, hnext, ?_, ?_⟩
  · rwa [runAt_groundPart, askChecks_keeps (runAt · hoop.val entry.val) (fun _ _ _ => rfl) (fun _ => rfl)]
  · rw [groundPart_mem, askChecks_keeps State.mem modTile_mem fun _ => rfl]

theorem completes_scanned {v u : State} (hscan : enScan (entryAt s hoop.val entry.val) = true)
    (hv : v = landAll [(hoop.val, r.c0, r.c1, r.motif)] s) (hu : u = runChecks r.ctx hoop.val r.c0 r.c1 v)
    (hfits : scanFits v [(hoop.val, r.c0, r.c1, r.motif)] = true) (hchecked : checksAnswered v hoop.val r.c0 r.c1 = true)
    (hlatched : (ctxAt u r.ctx).latched = none) (hparity : scanParity u [(hoop.val, r.c0, r.c1, r.motif)] = none) :
    ∃ t, exec (.runComplete hoop entry) s = .next t ∧ runAt t hoop.val entry.val = none ∧
      (∀ k ∈ regionTiles hoop.val r.c0 r.c1, (tileAt t k).queues = []) ∧
      (hoop.val, r.c0, r.c1, r.motif, true, false) ∈ (ctxAt t r.ctx).images := by
  have hnext := exec_runComplete (v := v) hrun hstage hended hquiet (by rw [hscan, if_pos rfl, hv])
  have hscanned : scanOut r.ctx true [(hoop.val, r.c0, r.c1, r.motif)] u =
      emptyRegion hoop.val r.c0 r.c1 (scanRegion r.ctx true false (hoop.val, r.c0, r.c1, r.motif) u) := by
    rw [scanOut, hparity]
    rfl
  simp only [hscan, hfits, hchecked, ← hu, hlatched, hscanned, Bool.not_true, Bool.and_false, Bool.false_eq_true, if_false, Option.isNone_none,
    Bool.and_self, if_true] at hnext
  refine ⟨_, hnext, ?_, fun k hk => ?_, ?_⟩
  · rw [runAt_groundPart]
    exact runAt_dropRun _ _ _
  · rw [tileAt_groundPart, tileAt_dropRun]
    exact queues_emptyRegion hk _
  · rw [ctxAt_groundPart, images_dropRun, ctxAt_emptyRegion]
    exact image_scanRegion _ _ _ _ _ _

end Completes

/-- Settles O22: by the stage of the entry in progress and, for a run that completes, by what its checks and its scan find. -/
theorem entriesEndAndRunsComplete : Obligations.EntriesEndAndRunsComplete := by
  unfold Obligations.EntriesEndAndRunsComplete
  refine ⟨?_, ?_⟩
  · intro hoop entry s r h hrun hone
    refine ⟨outAt_enters hrun, deadline_sweeping hrun hone, fun hstage => ?_, deadline_loading hrun, ?_, forcedStop_releases hrun⟩
    · have hnext := exec_deadline hrun
      rwa [hstage, groundPart_self] at hnext
    · intro hstage keep u hruns
      exact deadline_running hrun hstage rfl rfl hruns
  · intro hoop entry s r h hrun hstage hended hquiet v u
    refine ⟨fun hscan hchecked => ?_, fun hscan hchecked => ?_, fun hscan hfits hchecked hlatched hparity => ?_⟩
    · have hv : v = s := if_neg (by simp [hscan])
      have hu : u = runChecks r.ctx h r.c0 r.c1 s := by rw [← hv]
      rw [hv] at hchecked
      rw [hu]
      exact completes_checked hrun hstage hended hquiet hscan hchecked
    · have hv : v = s := if_neg (by simp [hscan])
      rw [hv] at hchecked
      exact completes_asks hrun hstage hended hquiet hscan hchecked
    · exact completes_scanned hrun hstage hended hquiet hscan (if_pos hscan) rfl hfits hchecked hlatched hparity

end Sys2Proof.Machine
end

section
/-! O24 and O25: a row beyond the partial-sum store. R216 keeps BASE + BOUND of RELOC_PS within the 128 granules of a store; the
statements speak of every state, and of a ZERO bit, which only a row of a partial-sum store has (R142). -/

namespace Sys2Proof.Machine

/-- Bytes outside the partial-sum stores belong to no ZERO row, whatever the state. -/
theorem zeroRow_outside {pa : Nat} (h : isPs pa = false) (t : State) : zeroRow t pa = false := by
  rw [zeroRow, h, Bool.false_and]

namespace BeyondStore

/-- The last M tile of the last Hoop, behind whose partial-sum store no other one lies. -/
def site : Site := ⟨7, 29, 15⟩

/-- A run of context 1 on the tile's column. -/
def run : RunSt := ⟨0, 1, 29, 29, 0x101, .running, .compute, false, false⟩

/-- RELOC_PS of Hoop 7: BASE 127, BOUND 2. -/
def ctx : Ctx := { Ctx.reset with st := .active, relocPs := [(7, 127 + 2 * 128)] }

/-- PD0: ASRC NBR, west, INIT, T 1, PSROW 16, with MASKEN or without. -/
def descriptor (masked : Bool) : Tab Byte := (if masked then [(0x2090, 0x80)] else []) ++ [(0x2091, 1), (0x2093, 1)]

/-- An INIT pass on bank 0, whose only strip has the bit 0. -/
def pass : PassOp := ⟨0, 0, 0, 0, true, 0, [], false, 0, some [false]⟩

/-- A WSKIP that waits for the pass. -/
def skip : LoadOp := ⟨0, 0, 0, false, [], true⟩

/-- The pass in progress on a bank. -/
def state (masked : Bool) (bank : Bank) : State :=
  { State.reset with
    hoops := [(7, { Hoop.reset with runs := [run] })]
    ctxs := [(1, ctx)]
    tiles := [(siteNo site, { Tile.reset with
      prog := descriptor masked
      m := { MTile.reset with bank0 := bank, loader := some skip, array := some pass } })] }

/-- The address that relocation gives the pass's row: the first behind the partial-sum stores. -/
def row : Nat := 0xC520000000

theorem not_zeroRow (t : State) : zeroRow t row ≠ true := by
  rw [zeroRow_outside (by decide)]
  decide

end BeyondStore

/-- Refutes O24: relocation may place the row of a pass that its mask skips behind the partial-sum stores, where no row is a
ZERO row. -/
theorem not_matrixStepsAndWeightLoadsAct : ¬ Obligations.MatrixStepsAndWeightLoadsAct := by
  unfold Obligations.MatrixStepsAndWeightLoadsAct
  intro ⟨_, _, hskip⟩
  obtain ⟨t, -, -, hzero, -⟩ := hskip BeyondStore.site BeyondStore.run BeyondStore.pass BeyondStore.skip [false] [] 0 false
    BeyondStore.row (BeyondStore.state true (.ready [] 0 false)) (by decide) rfl rfl rfl rfl rfl rfl (by decide) (by decide) (by decide)
    rfl rfl (by decide +kernel)
  exact BeyondStore.not_zeroRow t (hzero rfl)

/-- Refutes O25: the same of an INIT row on a bank marked empty. -/
theorem not_rowsAndQueuePassesEnterTheArray : ¬ Obligations.RowsAndQueuePassesEnterTheArray := by
  unfold Obligations.RowsAndQueuePassesEnterTheArray
  intro ⟨hrows, _⟩
  obtain ⟨-, hempty⟩ := hrows BeyondStore.site BeyondStore.run BeyondStore.pass (BeyondStore.state false .empty) (by decide) rfl rfl
    (by decide) (by decide) (siteNo BeyondStore.site - 16) (by decide) BeyondStore.row (by decide +kernel)
  obtain ⟨t, -, hzero, -⟩ := hempty rfl
  exact BeyondStore.not_zeroRow t (hzero rfl)

end Sys2Proof.Machine
end

section
/-! O26: drains convert rows and deliver them. -/

namespace Sys2Proof.Machine

/-! ### Bytes and bits of memory -/

theorem bytesAt_congr {m m' : Tab Byte} {a n : Nat} (h : ∀ i, i < n → Tab.get 0 m (a + i) = Tab.get 0 m' (a + i)) :
    bytesAt m a n = bytesAt m' a n := by
  induction n generalizing a with
  | zero => rfl
  | succ n ih =>
    rw [bytesAt, bytesAt, ih fun i hi => by simpa [Nat.add_assoc, Nat.add_comm 1] using h (i + 1) (Nat.succ_lt_succ hi)]
    exact congrArg (· :: _) (h 0 (Nat.succ_pos n))

/-- Bytes beside those that are written stay. -/
theorem bytesAt_putBytes_other (m : Tab Byte) {a n b : Nat} {bs : List Byte} (h : b + bs.length ≤ a ∨ a + n ≤ b) :
    bytesAt (putBytes m b bs) a n = bytesAt m a n :=
  bytesAt_congr fun i hi => get_putBytes_other (by omega)

/-- A bit of the number that bytes spell is that of its byte (R58). -/
theorem testBit_leNat_bytesAt (m : Tab Byte) {a n i j : Nat} (hi : i < n) (hj : j < 8) :
    (leNat (bytesAt m a n)).testBit (8 * i + j) = (Tab.get 0 m (a + i)).getLsbD j := by
  induction n generalizing a i with
  | zero => exact absurd hi (Nat.not_lt_zero i)
  | succ n ih =>
    rw [bytesAt, leNat, Nat.add_comm, show (256 : Nat) = 2 ^ 8 from rfl, Nat.testBit_two_pow_mul_add _ (BitVec.isLt _)]
    cases i with
    | zero => rw [if_pos (by omega)]; simp [BitVec.getLsbD]
    | succ i =>
      rw [if_neg (by omega), show 8 * (i + 1) + j - 8 = 8 * i + j by omega, ih (Nat.lt_of_succ_lt_succ hi)]
      congr 2
      omega

/-! ### The mask bit of a strip (R77, R147) -/

theorem getLsbD_setBitOf (x : Byte) {j : Nat} (v : Bool) (hj : j < 8) : (setBitOf x j v).getLsbD j = v := by
  cases v <;> simp [setBitOf, hj]

/-- The bit of a strip reads as it was written. -/
theorem bitAt_putMaskBit {pm : Nat} (b : Nat) (v : Bool) (s : State) (hpm : isPs pm = false) :
    bitAt (peekNum (putMaskBit pm b v s) pm 8) (b % 64) = v := by
  have hplace : b % 64 = 8 * (b % 64 / 8) + b % 8 := by omega
  rw [bitAt, peekNum, peek, hpm, if_neg (by decide), hplace,
    testBit_leNat_bytesAt _ (by omega) (Nat.mod_lt _ (by norm_num))]
  simp only [putMaskBit, poke, putBytes, Tab.get_set_same]
  exact getLsbD_setBitOf _ v (Nat.mod_lt _ (by norm_num))

/-- Bytes outside the mask word stay. -/
theorem peek_putMaskBit {pm pa n : Nat} (b : Nat) (v : Bool) (s : State) (hpa : isPs pa = false)
    (hapart : pm + 8 ≤ pa ∨ pa + n ≤ pm) : peek (putMaskBit pm b v s) pa n = peek s pa n := by
  rw [peek, peek, hpa, if_neg (by decide), if_neg (by decide)]
  refine bytesAt_putBytes_other _ ?_
  rw [List.length_singleton]
  omega

/-! ### Accesses to a neighbour A tile (R84, R135) -/

theorem siteNo_lt (site : Site) : siteNo site < 4096 := by
  unfold siteNo
  omega

/-- The A neighbours of a tile lie in a Hoop of the module. -/
theorem noHoop_sideTile {k side a : Nat} (hk : k < 4096) (h : sideTile k side = some a) : noHoop a < 8 := by
  unfold sideTile hasA at h
  unfold noHoop
  by_cases hside : side = 0
  · rw [if_pos hside] at h
    split at h
    · obtain rfl := Option.some.inj h
      omega
    · exact nomatch h
  · rw [if_neg hside] at h
    split at h
    · next hcol =>
      obtain rfl := Option.some.inj h
      have hcol : noCol k + 1 < 32 := of_decide_eq_true (Bool.and_eq_true_iff.mp hcol).1
      unfold noCol at hcol
      omega
    · exact nomatch h

/-- Where a wide access goes depends on the protection and the contexts only. -/
theorem wideAt_same {s u : State} (h : SamePlaces s u) (c a off n : Nat) (read : Bool) :
    wideAt u c a off n read = wideAt s c a off n read := by
  unfold wideAt
  rw [asAddr_same h, syncAsHit_same h]
  simp only [ueAt_same h, mergeUe_same h]

theorem asAddr_of_wideAt {s : State} {c a off n pa : Nat} {read : Bool} (h : wideAt s c a off n read = .at_ pa) :
    asAddr s c a off n = some pa := by
  unfold wideAt at h
  split at h
  · exact nomatch h
  · next p hp =>
    split at h
    · exact nomatch h
    split at h
    · exact nomatch h
    split at h
    · exact nomatch h
    · rwa [← WideAt.at_.inj h]

/-! ### Rows of the partial-sum store (R142, R218) -/

/-- A row that can be read. -/
theorem rowAt_read {s : State} {c k r pa : Nat} (hat : psAddr s c k (256 * r) 256 = some pa)
    (hzeros : s.zeroBad.contains (pa / 16384) = false) (hsound : zeroRow s pa = true ∨ ueAt s pa 256 = none) :
    rowAt s c k r true = .at_ pa := by
  have hue : (if (true && !zeroRow s pa) = true then ueAt s pa 256 else none) = none := by
    obtain h | h := hsound <;> simp [h]
  unfold rowAt
  rw [hat]
  dsimp only
  rw [hzeros, hue]
  rfl

/-- A row is converted to as many codes as it has values. -/
theorem drainConv_length (d : Nat) (row : List Nat) (base : Nat) : (drainConv d row base).2.1.length = row.length := by
  unfold drainConv encodeBlock
  split
  · rfl
  · split <;> simp

theorem flatMap_toLE_length (w : Nat) (xs : List Nat) : (xs.flatMap (toLE w)).length = xs.length * w := by
  simp [List.length_flatMap]

/-! ### What becomes of the drain after a row or a token (R153) -/

theorem ctxFlags_keeps {α : Type} (g : State → α) (hg : ∀ c f u, g (modCtx c f u) = g u) (c fl : Nat) (it : Item) (s : State) :
    g (ctxFlags c fl it s) = g s := by
  unfold ctxFlags faultWith latch
  dsimp only
  split
  · exact (hg _ _ _).trans (hg _ _ _)
  · exact hg _ _ _

theorem drainSettle_keeps {α : Type} (g : State → α) (hctx : ∀ c f u, g (modCtx c f u) = g u) (htile : ∀ k f u, g (modTile k f u) = g u)
    (k c : Nat) (o : DrainOp) (rows : Nat) (s : State) : g (drainSettle k c o rows s) = g s := by
  unfold drainSettle
  split
  · exact (ctxFlags_keeps g hctx _ _ _ _).trans (htile _ _ _)
  · exact htile _ _ _

@[simp] theorem drainSettle_mem (k c : Nat) (o : DrainOp) (rows : Nat) (s : State) : (drainSettle k c o rows s).mem = s.mem :=
  drainSettle_keeps State.mem (fun _ _ _ => rfl) (fun _ _ _ => rfl) k c o rows s

@[simp] theorem hoopAt_drainSettle (k c : Nat) (o : DrainOp) (rows : Nat) (s : State) (h : Nat) :
    hoopAt (drainSettle k c o rows s) h = hoopAt s h :=
  drainSettle_keeps (hoopAt · h) (fun _ _ _ => rfl) (fun _ _ _ => rfl) k c o rows s

@[simp] theorem peek_drainSettle (k c : Nat) (o : DrainOp) (rows : Nat) (s : State) (pa n : Nat) :
    peek (drainSettle k c o rows s) pa n = peek s pa n :=
  drainSettle_keeps (peek · pa n) (fun _ _ _ => rfl) (fun _ _ _ => rfl) k c o rows s

/-- The drain ends, or stays with what it has left to do; the rows counted stay. -/
theorem drainSettle_unit (k c : Nat) (o : DrainOp) (rows : Nat) (s : State) :
    let m := (tileAt (drainSettle k c o rows s) k).m
    (m.drain = none ∨ m.drain = some o) ∧ m.drained = (tileAt s k).m.drained := by
  unfold drainSettle
  split
  · simp only [ctxFlags_keeps (tileAt · k) (fun _ _ _ => rfl)]
    simp [modM]
  · simp [modM]

/-- A drain that is still in progress has left to do what it had. -/
theorem drainSettle_drain {k c rows : Nat} {o o' : DrainOp} {s : State}
    (h : (tileAt (drainSettle k c o rows s) k).m.drain = some o') : o' = o := by
  obtain hnone | hsome := (drainSettle_unit k c o rows s).1
  · exact nomatch hnone.symm.trans h
  · exact Option.some.inj (h.symm.trans hsome)

/-! ### DRAIN_ROW (R145 to R148) -/

/-- The state after a drain has read the row at pa: it is counted, and its flags are raised. -/
def drainRead (k pa d : Nat) (s : State) : State :=
  mFlags k (drainConv d (psRow s pa) s.free).2.2 (modM k (fun m => { m with drained := satAdd 32 m.drained 1 }) (useFree 64 s))

theorem samePlaces_drainRead (k pa d : Nat) (s : State) : SamePlaces (useFree 64 s) (drainRead k pa d s) := ⟨rfl, rfl, rfl, rfl, rfl⟩

theorem drained_drainRead (k pa d : Nat) (s : State) :
    (tileAt (drainRead k pa d s) k).m.drained = satAdd 32 (tileAt s k).m.drained 1 := by
  simp [drainRead, mFlags, modM]

/-- The drain, of which no token waits, with the flags of the row at pa. -/
def rowFlags (pa d : Nat) (s : State) (o : DrainOp) : DrainOp :=
  { o with toks := [], flags := o.flags ||| BitVec.ofNat 6 (drainConv d (psRow s pa) s.free).2.2 }

/-- Whether a row of codes has a value that is not zero (R146). -/
def rowBit (d : Nat) (codes : List Nat) : Bool := codes.any fun y => !isZeroCode ((fmtOf (ddFmt d)).getD (.lin fp32)) y

/-- The drain after a row of codes has joined its group, which is sent when it is full or the row is the last (R148). -/
def drainGrouped (d : Nat) (codes : List Nat) (o : DrainOp) : DrainOp :=
  let g := o.group ++ [(rowBit d codes, toksOf (codes.flatMap (toLE (fmtBytes (ddFmt d)))))]
  let done := decide (g.length = 24) || decide (ddRows d ≤ o.u + 1)
  { o with u := o.u + 1, group := if done then [] else g, toks := if done then groupToks g else [] }

section Drain
variable {site : Site} {r : RunSt} {o : DrainOp} {s : State} (hrun : runOf s (siteNo site) = some r)
  (hdrain : (tileAt s (siteNo site)).m.drain = some o)
include hrun hdrain

theorem drainRow_sends {ctrl : Bool} {v : DataTok} {rest : List (Bool × DataTok)} (htoks : o.toks = (ctrl, v) :: rest)
    (hcred : hasCredit (tileAt s (siteNo site)) (ddPort (ddAt (tileAt s (siteNo site)) o.dd)) ctrl = true) :
    exec (.drainRow site) s = .next (groundPart s (drainSettle (siteNo site) r.ctx { o with toks := rest }
      (ddRows (ddAt (tileAt s (siteNo site)) o.dd))
      (sendTok (siteNo site) (ddPort (ddAt (tileAt s (siteNo site)) o.dd)) ctrl v s))) := by
  change execDrainRow site s = _
  unfold execDrainRow
  simp only [hrun, hdrain, htoks, hcred, if_true, ground_next]

variable {d pa : Nat} (hd : ddAt (tileAt s (siteNo site)) o.dd = d) (htoks : o.toks = [])
  (hheld : drainHeld (tileAt s (siteNo site)).m (tileAt s (siteNo site)) (ddRow0 d + o.u) o.after = false)
  (hrow : rowAt s r.ctx (siteNo site) (ddRow0 d + o.u) true = .at_ pa)
include hd htoks hheld hrow

/-- A converted row to a queue joins the group of its MASK token. -/
theorem drainRow_groups (hqueue : ddQueue d = true) :
    exec (.drainRow site) s = .next (groundPart s (drainSettle (siteNo site) r.ctx
      (drainGrouped d (drainConv d (psRow s pa) s.free).2.1 (rowFlags pa d s o)) (ddRows d) (drainRead (siteNo site) pa d s))) := by
  subst hd
  change execDrainRow site s = _
  unfold execDrainRow
  simp only [hrun, hdrain, htoks, hheld, hrow, hqueue, Bool.false_eq_true, if_false, Bool.not_true, ground_next]
  rfl

/-- A converted row to a neighbour is written there. -/
theorem drainRow_writes {a : Nat} (hqueue : ddQueue d = false) (hside : sideTile (siteNo site) (ddSide d) = some a) :
    exec (.drainRow site) s = .next (groundPart s (drainNbr (siteNo site) r.ctx (rowFlags pa d s o) d a
      (drainConv d (psRow s pa) s.free).1 (drainConv d (psRow s pa) s.free).2.1 (drainRead (siteNo site) pa d s))) := by
  subst hd
  change execDrainRow site s = _
  unfold execDrainRow
  simp only [hrun, hdrain, htoks, hheld, hrow, hqueue, hside, Bool.false_eq_true, if_false, Bool.not_false, if_true, ground_next]
  rfl

end Drain

/-- A row with a value that is not zero is written beside its mask bit, where the detector is off. -/
theorem drainNbr_writes {k c d a pm pw : Nat} {o : DrainOp} {bias : Int} {codes : List Nat} {s : State} (hquiet : s.dev.debug = false)
    (hfmt : ddFmt d ≠ 1) (hbit : rowBit d codes = true)
    (hmask : wideAt s c a (maskWord (ddMask d) (ddMBit0 d + o.u * ddMStr d + o.i * ddMInc d)) 8 true = .at_ pm)
    (hwrite : wideAt s c a ((ddBase d + o.i * ddInc d + o.u * ddStride d) * 64) (64 * fmtBytes (ddFmt d)) false = .at_ pw) :
    drainNbr k c o d a bias codes s = drainSettle k c { o with u := o.u + 1 } (ddRows d)
      (putMaskBit pm (ddMBit0 d + o.u * ddMStr d + o.i * ddMInc d) true (poke s pw (codes.flatMap (toLE (fmtBytes (ddFmt d)))))) := by
  have hbit' : (codes.any fun x => !isZeroCode ((fmtOf (ddFmt d)).getD (.lin fp32)) x) = true := hbit
  unfold drainNbr
  simp only [hbit', hmask, hwrite, hfmt, if_true, if_false, guardedAll, guarded_quiet hquiet]

/-- A drain whose row has joined its group holds the group, or its tokens where the group is complete. -/
theorem drainGrouped_holds (d : Nat) (codes : List Nat) (o : DrainOp) :
    (drainGrouped d codes o).u = o.u + 1 ∧
    (if o.group.length = 23 ∨ ddRows d ≤ o.u + 1 then (drainGrouped d codes o).group = [] ∧ (drainGrouped d codes o).toks.length ≠ 0
      else (drainGrouped d codes o).group = o.group ++ [(rowBit d codes, toksOf (codes.flatMap (toLE (fmtBytes (ddFmt d)))))] ∧
        (drainGrouped d codes o).toks = []) := by
  refine ⟨rfl, ?_⟩
  split
  · next hdone => simp [drainGrouped, hdone, groupToks]
  · next hdone => simp [drainGrouped, hdone]

/-! ### The statement -/

/-- Settles O26: a waiting token is sent; else the next row is converted, and joins its group or is written with its bit. -/
theorem drainsConvertRows : Obligations.DrainsConvertRows := by
  unfold Obligations.DrainsConvertRows
  intro site r o s k x d hrun hdrain
  refine ⟨fun ctrl v rest htoks hcred => ?_, ?_⟩
  · refine ⟨_, drainRow_sends hrun hdrain htoks hcred, ?_, fun o' ho' => ?_, ?_⟩
    · rw [hoopAt_groundPart, hoopAt_drainSettle]
      exact sendTok_onWay _ _ _ _ _
    · rw [drainSettle_drain ho']
    · rw [groundPart_mem, drainSettle_mem, sendTok_mem]
  intro pa htoks hheld hat hzeros hsound codes bit
  have hrow := rowAt_read hat hzeros hsound
  have hcount : ∀ o' u, (tileAt u k).m.drained = (tileAt (drainRead k pa d s) k).m.drained →
      (tileAt (drainSettle k r.ctx o' (ddRows d) u) k).m.drained = satAdd 32 x.m.drained 1 := fun o' u hu => by
    rw [(drainSettle_unit k r.ctx o' (ddRows d) u).2, hu, drained_drainRead]
  refine ⟨fun hqueue => ?_, ?_⟩
  · refine ⟨_, drainRow_groups hrun hdrain rfl htoks hheld hrow hqueue, hcount _ _ rfl, fun o' ho' => ?_, ?_⟩
    · rw [drainSettle_drain ho']
      exact drainGrouped_holds d codes (rowFlags pa d s o)
    · rw [groundPart_mem, drainSettle_mem]
      rfl
  · intro a pm pw hqueue hfmt hside hquiet b hmask hwrite hbit hapart
    have hplaces := samePlaces_drainRead k pa d s
    have hwrites := drainNbr_writes (k := k) (o := rowFlags pa d s o) (bias := (drainConv d (psRow s pa) s.free).1) (s := drainRead k pa d s)
      hquiet hfmt hbit ((wideAt_same hplaces _ _ _ _ _).trans hmask) ((wideAt_same hplaces _ _ _ _ _).trans hwrite)
    have hnext := drainRow_writes hrun hdrain rfl htoks hheld hrow hqueue hside
    rw [hwrites] at hnext
    have ha := noHoop_sideTile (siteNo_lt site) hside
    have hlen : 64 * fmtBytes (ddFmt d) = (codes.flatMap (toLE (fmtBytes (ddFmt d)))).length := by
      rw [flatMap_toLE_length, drainConv_length]
      simp [psRow]
    have hpw := asAddr_of_wideAt hwrite
    refine ⟨_, hnext, hcount _ _ rfl, ?_, ?_⟩
    · change peek (drainSettle _ _ _ _ _) pw _ = _
      rw [peek_drainSettle, peek_putMaskBit _ _ _ (isPs_asAddr ha hpw) hapart]
      rw [hlen] at hpw ⊢
      exact (peek_poke_as ha hpw rfl).1
    · change bitAt (leNat (peek (drainSettle _ _ _ _ _) pm 8)) _ = _
      rw [peek_drainSettle]
      exact bitAt_putMaskBit _ _ _ (isPs_asAddr ha (asAddr_of_wideAt hmask))

end Sys2Proof.Machine
end

section
/-! Steps that their unit accepts, by any kind of tile. -/

namespace Sys2Proof.Machine

/-! ### A step is issued (R124) -/

/-- Where a step's FLOW leads depends on its sequencer and the loop counters' reload values. -/
theorem flowTo_congr {t t' : Tile} (hseq : t'.seq = t.seq) (hcfg : t'.cfg = t.cfg) (st : Stp) : flowTo t' st = flowTo t st := by
  unfold flowTo lcAt lcInit cfgNum
  rw [hseq, hcfg]

/-- A step with END always has its FLOW. -/
theorem flowTo_end {st : Stp} (hend : st.flow = 4) (t : Tile) : (flowTo t st).isSome = true := by
  simp only [flowTo, hend, Option.isSome_some]

theorem headOf_congr {t t' : Tile} (hqueues : t'.queues = t.queues) (q : Nat) : headOf t' q = headOf t q := by
  simp only [headOf, qToks, hqueues]

@[simp] theorem fenceOk_issueMark (k : Nat) (kd : Kind) (u : State) :
    fenceOk (tileAt (issueMark k u) k) kd = fenceOk (tileAt u k) kd := by
  cases kd <;> simp [issueMark, fenceOk]

theorem no_parity {t : Tile} {qs : List Nat} (hsound : ∀ q ∈ qs, headOf t q ≠ .parity) :
    (qs.any fun q => decide (headOf t q = .parity)) = false := by
  simpa using hsound

/-- A step whose unit is free gives it its operation, which leaves the sequencer, its reload values and the queues alone. -/
theorem issue_accepts {site : Site} {kd : Kind} {c : Nat} {st : Stp} {s : State} (h : StandsOn site kd c st s)
    (hissued : (tileAt s (siteNo site)).seq.issued = false) {accept : State → State}
    (hseq : (tileAt (accept s) (siteNo site)).seq = (tileAt s (siteNo site)).seq)
    (hcfg : (tileAt (accept s) (siteNo site)).cfg = (tileAt s (siteNo site)).cfg)
    (hqueues : (tileAt (accept s) (siteNo site)).queues = (tileAt s (siteNo site)).queues) :
    Accepts (ground (issue kd (siteNo site) c st true accept s) s) kd (siteNo site) st s (accept s) := by
  have hparity := no_parity h.sound
  have hsound : ∀ q ∈ bitsOf 16 st.inq, headOf (tileAt (accept s) (siteNo site)) q ≠ .parity := fun q hq => by
    rw [headOf_congr hqueues]
    exact h.sound q hq
  refine ⟨_, rfl, ?_⟩
  simp only [issue, hissued, hparity, Bool.not_true, Bool.false_eq_true, if_false]
  by_cases hend : st.flow = 4
  · rw [if_pos hend, if_pos hend, fenceOk_issueMark]
    by_cases hfence : fenceOk (tileAt (accept s) (siteNo site)) kd = true
    · rw [if_pos hfence, if_pos hfence]
      obtain ⟨q, hq⟩ := Option.isSome_iff_exists.mp (flowTo_end hend (tileAt (issueMark (siteNo site) (accept s)) (siteNo site)))
      refine (fire_fired (fun i hi => ?_) hq).groundPart
      rw [headOf_congr (t := tileAt (accept s) (siteNo site)) (by simp [issueMark])]
      exact hsound i hi
    · rw [if_neg hfence, if_neg hfence]
  · rw [if_neg hend, if_neg hend]
    obtain ⟨q, hq⟩ := Option.isSome_iff_exists.mp h.flows
    exact (fire_fired hsound ((flowTo_congr hseq hcfg st).trans hq)).groundPart

/-- Without END the step that its unit has accepted fires. -/
theorem Accepts.fired {o : Out} {kd : Kind} {k : Nat} {st : Stp} {s u : State} (h : Accepts o kd k st s u) (hflow : st.flow ≠ 4) :
    ∃ t, o = .next t ∧ Fired k st u t := by
  obtain ⟨t, ho, ht⟩ := h
  exact ⟨t, ho, by rwa [if_neg hflow] at ht⟩

/-- The vector unit stays as it is while its tile's step fires. -/
theorem Fired.vector {k : Nat} {st : Stp} {u t : State} (h : Fired k st u t) : (tileAt t k).v = (tileAt u k).v := by
  obtain ⟨-, hv, -⟩ := h.units
  exact hv

end Sys2Proof.Machine
end

section
/-! Vector tiles: what their operations leave of their tile and of the state, and the steps that they accept. -/

namespace Sys2Proof.Machine

/-! ### The vector unit's state -/

theorem tileAt_modV (k : Nat) (f : VTile → VTile) (s : State) :
    tileAt (modV k f s) k = { tileAt s k with v := f (tileAt s k).v } := tileAt_modTile_same _ _ _

theorem tileAt_modV_other {k j : Nat} (f : VTile → VTile) (s : State) (h : j ≠ k) : tileAt (modV k f s) j = tileAt s j :=
  tileAt_modTile_other _ _ h

@[simp] theorem modV_mem (k : Nat) (f : VTile → VTile) (s : State) : (modV k f s).mem = s.mem := rfl
@[simp] theorem hoopAt_modV (k : Nat) (f : VTile → VTile) (s : State) (h : Nat) : hoopAt (modV k f s) h = hoopAt s h := rfl

/-- Tile k in u is as in s but for its vector unit. -/
def OnlyVector (k : Nat) (s u : State) : Prop := ∃ v, tileAt u k = { tileAt s k with v := v }

theorem onlyVector_of_same {k : Nat} {s u : State} (h : tileAt u k = tileAt s k) : OnlyVector k s u := ⟨_, h⟩

theorem onlyVector_modV (k : Nat) (f : VTile → VTile) (s : State) : OnlyVector k s (modV k f s) := ⟨_, tileAt_modV k f s⟩

theorem OnlyVector.modV {k : Nat} {s u : State} (h : OnlyVector k s u) (f : VTile → VTile) : OnlyVector k s (modV k f u) := by
  obtain ⟨v, hv⟩ := h
  exact ⟨f (tileAt u k).v, by rw [tileAt_modV, hv]⟩

@[simp] theorem tileAt_vDone (k c lanes : Nat) (s : State) (j : Nat) : tileAt (vDone k c lanes s) j = tileAt s j :=
  ctxFlags_keeps (tileAt · j) (fun _ _ _ => rfl) _ _ _ _

@[simp] theorem vDone_mem (k c lanes : Nat) (s : State) : (vDone k c lanes s).mem = s.mem :=
  ctxFlags_keeps State.mem (fun _ _ _ => rfl) _ _ _ _

/-- An operation that raises no flag leaves every context as it is. -/
theorem ctxAt_vDone_quiet {lanes : Nat} (hquiet : laneAny lanes = 0) (k c : Nat) (s : State) (x : Nat) :
    ctxAt (vDone k c lanes s) x = ctxAt s x := by
  simp only [vDone, ctxFlags, hquiet, BitVec.zero_and, BitVec.ofNat_eq_ofNat, ne_eq, not_true, if_false, BitVec.or_zero]
  rw [ctxAt_modCtx]
  split
  · next hx => rw [hx]
  · rfl

/-- The results of an operation, with the flags that it raises, stand in the vector unit and the context alone. -/
theorem onlyVector_vDone (k c lanes n : Nat) (f : VTile → VTile) (s : State) :
    OnlyVector k s (vDone k c lanes (useFree n (modV k f s))) := by
  refine ⟨f (tileAt s k).v, ?_⟩
  rw [tileAt_vDone, tileAt_useFree, tileAt_modV]

/-! ### Steps that a vector tile accepts -/

section Stands
variable {site : Site} {c : Nat} {st : Stp} {s : State} (h : StandsOn site .V c st s)
  (hissued : (tileAt s (siteNo site)).seq.issued = false)
include h hissued

/-- A step of a vector tile gives its operation to a unit that is free. -/
theorem vIssue_accepts {accept : State → State} (honly : OnlyVector (siteNo site) s (accept s)) :
    Accepts (ground (issue .V (siteNo site) c st true accept s) s) .V (siteNo site) st s (accept s) := by
  obtain ⟨v, hv⟩ := honly
  exact issue_accepts h hissued (by rw [hv]) (by rw [hv]) (by rw [hv])

end Stands

end Sys2Proof.Machine
end

section
/-! O27: vector operations and chains. -/

namespace Sys2Proof.Machine

/-! ### VOP and CHAIN are accepted (R160, R172, R181) -/

/-- The commands of the classes of VOP, with the classes that each of them accepts (R172). -/
theorem vop_classes (site : Site) (s : State) : ∀ p ∈ [(Instr.vopArith site, 0), (.vopConv site, 1), (.vopTrans site, 2),
    (.vopLns site, 3), (.vopCmp site, 4), (.vopPred site, 5), (.vopRed site, 6), (.vopPerm site, 7), (.vopCmpx site, 8),
    (.vopInt site, 9), (.vopRand site, 10)], ∃ is, exec p.1 s = vop is site s ∧ is p.2 = true := by
  simp only [List.forall_mem_cons]
  exact ⟨⟨fun cl => decide (cl = 0) || decide (0xA < cl), rfl, rfl⟩, ⟨fun cl => decide (cl = 1), rfl, rfl⟩,
    ⟨fun cl => decide (cl = 2), rfl, rfl⟩, ⟨fun cl => decide (cl = 3), rfl, rfl⟩, ⟨fun cl => decide (cl = 4), rfl, rfl⟩,
    ⟨fun cl => decide (cl = 5), rfl, rfl⟩, ⟨fun cl => decide (cl = 6), rfl, rfl⟩, ⟨fun cl => decide (cl = 7), rfl, rfl⟩,
    ⟨fun cl => decide (cl = 8), rfl, rfl⟩, ⟨fun cl => decide (cl = 9), rfl, rfl⟩, ⟨fun cl => decide (cl = 0xA), rfl, rfl⟩,
    fun _ hp => absurd hp List.not_mem_nil⟩

section Vop
variable {site : Site} {c : Nat} {st : Stp} {s : State} (h : StandsOn site .V c st s)
  (hissued : (tileAt s (siteNo site)).seq.issued = false)
include h hissued

/-- A VOP of a class of its command writes what its descriptor computes. -/
theorem vop_accepts {i : Instr} {is : Nat → Bool} {d : Nat} {o : VOut} (hi : exec i s = vop is site s) (hopc : st.opc = 1)
    (hd : vdAt (tileAt s (siteNo site)) (fld st.args 0 7) = d) (his : is (vdClass d) = true)
    (hheld : vHeld (tileAt s (siteNo site)).v (vdReads d) (vdWrites d) = false)
    (hsound : vdBiasUe (tileAt s (siteNo site)).v d = false) (halu : aluRun (tileAt s (siteNo site)).v none d s.free = .ok o) :
    Accepts (exec i s) .V (siteNo site) st s (vDone (siteNo site) c o.lanes (useFree vFreeStep
      (modV (siteNo site) (fun v => { vApply o true v with ops := satAdd 32 v.ops 1 }) s))) := by
  subst hd
  rw [hi, vop]
  dsimp only
  rw [tileStep_stands h (by rw [hopc, his]; rfl)]
  simp only [hissued, hheld, hsound, halu, Bool.or_self, Bool.false_eq_true, if_false]
  exact vIssue_accepts h hissued (onlyVector_vDone _ _ _ _ _ _)

variable {cd : Nat} (hopc : st.opc = 2) (hcd : cdAt (tileAt s (siteNo site)) (fld st.args 0 4) = cd)
  (hheld : vHeld (tileAt s (siteNo site)).v (chainRegs (tileAt s (siteNo site)) cd).1 (chainRegs (tileAt s (siteNo site)) cd).2 = false)
  (hsound : chainBiasUe (tileAt s (siteNo site)) cd = false)
include hopc hcd hheld hsound

/-- CHAIN of no stage copies a register with its bias (R182). -/
theorem chain_copies (hstages : cdStages cd = 0) :
    Accepts (exec (.chain site) s) .V (siteNo site) st s (modV (siteNo site) (fun v => { v with
      regs := Tab.set 0 v.regs (fld cd 77 5) (vRegAt v (fld cd 72 5))
      bias := Tab.set 0 v.bias (fld cd 77 5) (vBiasAt v (fld cd 72 5))
      biasBad := v.biasBad.filter (· ≠ fld cd 77 5)
      ops := satAdd 32 v.ops 1 }) s) := by
  subst hcd
  change Accepts (execChain site s) _ _ _ _ _
  unfold execChain
  rw [tileStep_stands h (decide_eq_true hopc)]
  simp only [hissued, hheld, hsound, hstages, Bool.or_self, Bool.false_eq_true, if_false, if_true, Nat.not_lt_zero]
  exact vIssue_accepts h hissued (onlyVector_modV _ _ _)

/-- CHAIN of stages writes what its last stage leaves, and raises the flags of all (R181). -/
theorem chain_runs (hstages : cdStages cd ≠ 0) (hmost : cdStages cd ≤ 8) {v : VTile} {lanes : Nat}
    (hrun : chainRun (tileAt s (siteNo site)) cd (cdStages cd) 0 none (tileAt s (siteNo site)).v 0 s.free = .ok (v, lanes)) :
    Accepts (exec (.chain site) s) .V (siteNo site) st s (vDone (siteNo site) c lanes (useFree (8 * vFreeStep)
      (modV (siteNo site) (fun _ => { v with ops := satAdd 32 v.ops 1 }) s))) := by
  subst hcd
  change Accepts (execChain site s) _ _ _ _ _
  unfold execChain
  rw [tileStep_stands h (decide_eq_true hopc)]
  simp only [hissued, hheld, hsound, hstages, Nat.not_lt.mpr hmost, hrun, Bool.or_self, Bool.false_eq_true, if_false]
  exact vIssue_accepts h hissued (onlyVector_vDone _ _ _ _ _ _)

end Vop

/-! ### Elements of a register (R156) -/

/-- The elements of a register fill no more than its 4,096 bits. -/
theorem element_fits {w e : Nat} (he : e < laneN w) : 8 * w * e + 8 * w ≤ 4096 := by
  have hall : w * laneN w ≤ 512 := Nat.mul_div_le 512 w
  have hone : w * (e + 1) ≤ w * laneN w := Nat.mul_le_mul_left w he
  calc 8 * w * e + 8 * w = 8 * (w * (e + 1)) := by ring
    _ ≤ 4096 := by omega

theorem fld_lt (x lo w : Nat) : fld x lo w < 2 ^ w := Nat.mod_lt _ (Nat.two_pow_pos w)

/-- A field within a word of n bits. -/
theorem fld_toNat_ofNat {n lo w : Nat} (h : lo + w ≤ n) (x : Nat) : fld (BitVec.ofNat n x).toNat lo w = fld x lo w := by
  apply Nat.eq_of_testBit_eq
  intro i
  rw [fld_testBit, fld_testBit, BitVec.toNat_ofNat, Nat.testBit_mod_two_pow]
  by_cases hi : i < w
  · simp [show lo + i < n by omega]
  · simp [hi]

/-- Element codes that are packed read back, cut to their width. -/
theorem fld_packElems (w : Nat) {xs : List Nat} {e : Nat} (he : e < xs.length) :
    fld (packElems w xs) (8 * w * e) (8 * w) = xs[e] % 2 ^ (8 * w) := by
  induction xs generalizing e with
  | nil => exact absurd he (Nat.not_lt_zero e)
  | cons x xs ih =>
    have hlow : x % 2 ^ (8 * w) < 2 ^ (8 * w) := Nat.mod_lt _ (Nat.two_pow_pos _)
    have hcons : packElems w (x :: xs) = x % 2 ^ (8 * w) + 2 ^ (8 * w) * packElems w xs := rfl
    rw [hcons, fld_eq]
    cases e with
    | zero => simp
    | succ e =>
      rw [Nat.mul_succ, Nat.add_comm (8 * w * e), Nat.pow_add, ← Nat.div_div_eq_div_mul,
        Nat.add_mul_div_left _ _ (Nat.two_pow_pos _), Nat.div_eq_of_lt hlow, Nat.zero_add, ← fld_eq]
      exact ih (Nat.lt_of_succ_lt_succ he)

@[simp] theorem elemsOf_length (w x : Nat) : (elemsOf w x).length = laneN w := by simp [elemsOf]

theorem elemsOf_getElem {w x e : Nat} (he : e < (elemsOf w x).length) : (elemsOf w x)[e] = fld x (8 * w * e) (8 * w) := by
  simp [elemsOf]

/-- Each element of a destination that is written from its first element on: the result where it is active, else the zero of
the format under ZM, else what stood there (R173). -/
theorem fld_writeElems {w e : Nat} (f : Fmt) (zm : Bool) {act : List Bool} (res : List Nat) (old : VReg)
    (hact : act.length = laneN w) (he : e < laneN w) :
    fld (writeElems f w 0 zm act res old).toNat (8 * w * e) (8 * w) =
      (if act.getD e false then res.getD e 0 else if zm then zeroOf f else fld old.toNat (8 * w * e) (8 * w)) % 2 ^ (8 * w) := by
  unfold writeElems
  dsimp only
  rw [fld_toNat_ofNat (element_fits he), fld_packElems]
  · simp [elemsOf_getElem, hact, he, Nat.not_le.mpr he]
  · simpa using he

@[simp] theorem activity_length (v : VTile) (d n : Nat) : (activity v d n).length = n := by simp [activity]

theorem activity_getD (v : VTile) (d : Nat) {n e : Nat} (he : e < n) :
    (activity v d n).getD e false = (decide (e < vdVl v d) && (vPredAt v (vdPred d)).getLsbD e) := by
  simp [activity, he]

/-! ### Integer operations on registers (R178) -/

/-- The code of an integer format of 8, 16 or 32 bits. -/
theorem fmtOf_int {fmt : Nat} (hlo : 8 ≤ fmt) (hhi : fmt ≤ 0xA) : fmtOf fmt = some (.int (8 * fmtBytes fmt)) := by
  interval_cases fmt <;> rfl

/-- A source code that names a register brings its elements and its bias word. -/
theorem sourceAt_reg (v : VTile) (prev : Option (VReg × BitVec 64)) (free w : Nat) {r : Nat} (hr : r < 32) :
    sourceAt v prev free w r = some ⟨elemsOf w (vRegAt v r).toNat, vBiasAt v r⟩ := by
  rw [sourceAt, if_pos hr]

/-- NOT and the functions above it read one operand. -/
theorem intElem_one {fn : Nat} (hfn : 0xE ≤ fn) (n a b b' : Nat) : intElem n fn a b = intElem n fn a b' := by
  obtain rfl | rfl | ⟨m, rfl⟩ : fn = 0xE ∨ fn = 0xF ∨ ∃ m, fn = m + 0x10 := by
    obtain hm | hm := Nat.lt_or_ge fn 0x10
    · omega
    · exact .inr (.inr ⟨fn - 0x10, by omega⟩)
  all_goals rfl

/-- The results of an integer operation on registers, element by element. -/
def intResults (v : VTile) (d : Nat) : List Nat :=
  let w := fmtBytes (vdFmt d)
  (List.range (laneN w)).map fun e =>
    intElem (8 * w) (vdFunc d) (fld (vRegAt v (vdSa d)).toNat (8 * w * e) (8 * w)) (fld (vRegAt v (vdSb d)).toNat (8 * w * e) (8 * w))

theorem intResults_getD (v : VTile) (d : Nat) {e : Nat} (he : e < laneN (fmtBytes (vdFmt d))) :
    (intResults v d).getD e 0 = intElem (8 * fmtBytes (vdFmt d)) (vdFunc d)
      (fld (vRegAt v (vdSa d)).toNat (8 * fmtBytes (vdFmt d) * e) (8 * fmtBytes (vdFmt d)))
      (fld (vRegAt v (vdSb d)).toNat (8 * fmtBytes (vdFmt d) * e) (8 * fmtBytes (vdFmt d))) := by
  simp [intResults, he]

/-- The function applied to the elements of SA and those of its second operand, which NOT and the functions above it do not
read. -/
theorem intResults_zip (v : VTile) (d : Nat) {r : Nat} (hr : r = vdSb d ∨ 0xE ≤ vdFunc d) :
    ((elemsOf (fmtBytes (vdFmt d)) (vRegAt v (vdSa d)).toNat).zip (elemsOf (fmtBytes (vdFmt d)) (vRegAt v r).toNat)).map
      (fun x => (intElem (8 * fmtBytes (vdFmt d)) (vdFunc d) x.1 x.2, (0 : Flags))) = (intResults v d).map fun x => (x, 0) := by
  simp only [elemsOf, intResults, List.zip_map', List.map_map]
  refine List.map_congr_left fun e _ => congrArg (·, 0) ?_
  obtain rfl | hone := hr
  · rfl
  · exact intElem_one hone _ _ _ _

/-- The sources of an operation that names registers. -/
theorem threeSources_reg {v : VTile} {d : Nat} (hsa : vdSa d < 32) (hsb : vdSb d < 32) (base w : Nat) (useB : Bool) :
    threeSources v none d base w useB false = some (⟨elemsOf w (vRegAt v (vdSa d)).toNat, vBiasAt v (vdSa d)⟩,
      ⟨elemsOf w (vRegAt v (if useB then vdSb d else vdSa d)).toNat, vBiasAt v (if useB then vdSb d else vdSa d)⟩,
      ⟨elemsOf w (vRegAt v (vdSa d)).toNat, vBiasAt v (vdSa d)⟩) := by
  cases useB <;> simp [threeSources, sourceAt_reg, hsa, hsb]

/-- An integer operation on registers raises no flag. -/
theorem aluRun_int {v : VTile} {d base : Nat} (hclass : vdClass d = 9) (hlo : 8 ≤ vdFmt d) (hhi : vdFmt d ≤ 0xA)
    (hfn : vdFunc d ≤ 0x10) (hsa : vdSa d < 32) (hsb : vdSb d < 32) :
    aluRun v none d base = .ok (outCodes v d (.int (8 * fmtBytes (vdFmt d))) (vdFmt d) (fmtBytes (vdFmt d))
      ((intResults v d).map fun x => (x, 0))) := by
  have hrun : aluRun v none d base = aluInt v none d base := by simp only [aluRun, hclass]
  have hreads : (if decide (vdFunc d < 0xE) then vdSb d else vdSa d) = vdSb d ∨ 0xE ≤ vdFunc d := by
    by_cases htwo : vdFunc d < 0xE
    · exact .inl (if_pos (decide_eq_true htwo))
    · exact .inr (Nat.not_lt.mp htwo)
  rw [hrun, ← intResults_zip v d hreads]
  unfold aluInt
  simp only [fmtOf_int hlo hhi, threeSources_reg hsa hsb, Nat.not_lt.mpr hfn, Nat.not_lt.mpr hlo, decide_false, Bool.false_and,
    Bool.false_eq_true, if_false]

/-! ### Operations that raise no flag -/

theorem laneMask_quiet (w : Nat) {fls : List Flags} (hquiet : ∀ fl ∈ fls, fl = 0) : laneMask w fls = 0 := by
  refine List.foldlRecOn (motive := (· = 0)) _ _ rfl fun a ha (fl, e) hx => ?_
  exact (if_pos (hquiet fl (List.fst_mem_of_mem_zipIdx hx))).trans ha

theorem laneAny_zero : laneAny 0 = 0 := by
  refine List.foldlRecOn (motive := (· = 0)) _ _ rfl fun a ha l _ => ?_
  rw [ha, fld_eq, Nat.zero_div]
  rfl

/-- Results without flags, merged into the destination. -/
theorem outCodes_quiet (v : VTile) (d : Nat) (f : Fmt) (fmt w : Nat) (res : List Nat) :
    outCodes v d f fmt w (res.map fun x => (x, 0)) = { fmt := fmt, reg := some (vdDst d,
      writeElems f w 0 (vdZm d) (activity v d (laneN w)) res (vRegAt v (vdDst d)), vBiasAt v (vdDst d)) } := by
  have hlanes : laneMask w (actFlags (activity v d (laneN w)) ((res.map fun x => (x, (0 : Flags))).map (·.2))) = 0 := by
    refine laneMask_quiet w fun fl hfl => ?_
    obtain ⟨p, hp, rfl⟩ := List.mem_map.mp hfl
    obtain ⟨x, -, hx⟩ : ∃ x ∈ res, 0 = p.2 := by simpa using (List.of_mem_zip hp).2
    simp [← hx]
  have hcodes : (res.map fun x => (x, (0 : Flags))).map (·.1) = res := by simp [Function.comp_def]
  unfold outCodes
  dsimp only
  rw [hlanes, hcodes]

/-- A register that is written without flags is all that changes of the vector unit beside its BIAS word. -/
theorem vApply_reg (v : VTile) (r : Nat) (x : VReg) (b : BitVec 64) (fmt : Nat) :
    vApply { reg := some (r, x, b), fmt := fmt } true v =
      { v with regs := Tab.set 0 v.regs r x, bias := Tab.set 0 v.bias r b } := by
  simp [vApply, laneAny_zero]

/-- An integer operation on registers merges its results into the destination, and changes nothing else of the vector unit
but the count of operations. -/
theorem vopInt_fires {site : Site} {c : Nat} {st : Stp} {s : State} (h : StandsOn site .V c st s) (hopc : st.opc = 1)
    (hflow : st.flow ≠ 4) (hissued : (tileAt s (siteNo site)).seq.issued = false) {d : Nat} {v : VTile}
    (hv : (tileAt s (siteNo site)).v = v) (hd : vdAt (tileAt s (siteNo site)) (fld st.args 0 7) = d)
    (hclass : vdClass d = 9) (hlo : 8 ≤ vdFmt d) (hhi : vdFmt d ≤ 0xA) (hfn : vdFunc d ≤ 0x10) (hsa : vdSa d < 32)
    (hsb : vdSb d < 32) (hheld : vHeld v (vdReads d) (vdWrites d) = false) :
    ∃ t, exec (.vopInt site) s = .next t ∧ (tileAt t (siteNo site)).v = { v with
        regs := Tab.set 0 v.regs (vdDst d) (writeElems (.int (8 * fmtBytes (vdFmt d))) (fmtBytes (vdFmt d)) 0 (vdZm d)
          (activity v d (laneN (fmtBytes (vdFmt d)))) (intResults v d) (vRegAt v (vdDst d)))
        bias := Tab.set 0 v.bias (vdDst d) (vBiasAt v (vdDst d)), ops := satAdd 32 v.ops 1 } ∧
      (∀ x, ctxAt t x = ctxAt s x) ∧ t.mem = s.mem ∧ ∀ j, j ≠ siteNo site → tileAt t j = tileAt s j := by
  subst hv
  have hsound : vdBiasUe (tileAt s (siteNo site)).v d = false := by
    simp [vdBiasUe, show vdFmt d ≠ 1 by omega]
  have halu := aluRun_int (v := (tileAt s (siteNo site)).v) (base := s.free) hclass hlo hhi hfn hsa hsb
  rw [outCodes_quiet] at halu
  obtain ⟨t, hnext, hfired⟩ := (vop_accepts h hissued (i := .vopInt site) (is := fun cl => decide (cl = 9)) rfl hopc hd
    (decide_eq_true hclass) hheld hsound halu).fired hflow
  refine ⟨t, hnext, ?_, fun x => ?_, ?_, fun j hj => ?_⟩
  · rw [hfired.vector, tileAt_vDone, tileAt_useFree, tileAt_modV, vApply_reg]
  · rw [ctxAt, hfired.ctxs]
    exact ctxAt_vDone_quiet laneAny_zero _ _ _ _
  · rw [hfired.mem, vDone_mem]
    rfl
  · rw [hfired.others j hj, tileAt_vDone, tileAt_useFree, tileAt_modV_other _ _ hj]

/-! ### The statement -/

/-- Settles O27: each VOP and CHAIN is accepted with what its descriptor computes, and the results of an integer VOP are merged
element by element. -/
theorem vectorOperationsAndChainsAct : Obligations.VectorOperationsAndChainsAct := by
  unfold Obligations.VectorOperationsAndChainsAct
  refine ⟨?vops, ?ints, ?chains⟩
  case vops =>
    intro site c st s h hopc k v d hissued hheld hsound o halu u p hp hclass
    obtain ⟨is, hi, his⟩ := vop_classes site s p hp
    exact vop_accepts h hissued hi hopc rfl (hclass ▸ his) hheld hsound halu
  case ints =>
    intro site c st s h hopc hflow k v d w hclass hlo hhi hfn hsa hsb hissued hheld
    obtain ⟨t, hnext, hunit, hctx, hmem, hothers⟩ :=
      vopInt_fires h hopc hflow hissued rfl rfl hclass hlo hhi hfn hsa hsb hheld
    refine ⟨t, hnext, fun e he => ?_, fun r hr => ?_, by rw [hunit], by rw [hunit], by rw [hunit], hctx, hmem, hothers⟩
    · rw [hunit, vRegAt, Tab.get_set_same, fld_writeElems _ _ _ _ (activity_length _ _ _) he, activity_getD _ _ he,
        intResults_getD _ _ he]
      by_cases hon : e < vdVl v d ∧ (vPredAt v (vdPred d)).getLsbD e = true
      · rw [if_pos hon, if_pos (by simpa using hon)]
      · rw [if_neg hon, if_neg (by simpa using hon)]
        cases vdZm d
        · exact Nat.mod_eq_of_lt (fld_lt _ _ _)
        · exact Nat.zero_mod _
    · rw [hunit]
      exact Tab.get_set_other _ _ _ hr
  case chains =>
    intro site c st s h hopc k x cd hissued hheld hsound
    exact ⟨chain_copies h hissued hopc rfl hheld hsound,
      fun v lanes hstages hmost hrun => chain_runs h hissued hopc rfl hheld hsound hstages hmost hrun⟩

end Sys2Proof.Machine
end

section
/-! O28: loads and stores of vector tiles, and the mover. -/

namespace Sys2Proof.Machine

/-! ### Accesses of a vector tile (R159, R163) -/

/-- Without the hazard detector, or without accesses, an operation goes on as it stands. -/
theorem guardedAll_quiet {c x epoch : Nat} {it : Item} {known : Tab Nat} {acc : List (Bool × Nat × Nat)} {f : State → State}
    {s : State} (h : acc = [] ∨ s.dev.debug = false) : guardedAll c it x known epoch acc f s = f s := by
  induction acc with
  | nil => rfl
  | cons p acc ih =>
    have hquiet := h.resolve_left (List.cons_ne_nil _ _)
    obtain ⟨write, pa, n⟩ := p
    rw [guardedAll, guarded_quiet hquiet, ih (.inr hquiet)]

/-- A computation that succeeds has succeeded in its first part. -/
theorem bind_ok {ε α β : Type} {x : Except ε α} {f : α → Except ε β} {b : β} (h : (x >>= f) = .ok b) :
    ∃ a, x = .ok a ∧ f a = .ok b := by
  cases x with
  | error e => exact nomatch h
  | ok a => exact ⟨a, rfl, h⟩

/-- Whether a check comes first or not, what succeeds is the rest. -/
theorem checked_ok {ε α β : Type} {first : Bool} {x : Except ε α} {y : Except ε β} {b : β}
    (h : (if first then x >>= fun _ => y else y) = .ok b) : y = .ok b := by
  split at h
  · obtain ⟨_, -, h⟩ := bind_ok h
    exact h
  · exact h

theorem ok_bind {ε α β : Type} (a : α) (f : α → Except ε β) : (Except.ok a >>= f) = f a := rfl

theorem lineAt_low {line : Nat} (h : line ≤ 511) (k : Nat) : lineAt k line = .ok (ocBase k + 512 * line) :=
  if_neg (Nat.not_lt.mpr h)

theorem lineAt_ok {k line pc : Nat} (h : lineAt k line = .ok pc) : pc = ocBase k + 512 * line := by
  unfold lineAt at h
  split at h
  · exact nomatch h
  · exact (Except.ok.inj h).symm

theorem vLineUe_sound {s : State} {k pa key : Nat} (hue : ueAt s pa 512 = none) (hbias : (tileAt s k).v.biasBad.contains key = false) :
    vLineUe s k pa key = .ok () := by
  unfold vLineUe
  rw [hue]
  dsimp only
  rw [hbias]
  rfl

theorem vWide_ok {s : State} {c k off n pa : Nat} {read : Bool} (h : vWide s c k off n read = .ok pa) :
    wideAt s c (vNeighbour k) off n read = .at_ pa := by
  unfold vWide at h
  split at h
  · next hat => rw [hat, Except.ok.inj h]
  all_goals exact nomatch h

theorem vBounds_within {s : State} {c k : Nat} {xs : List (Nat × Nat)}
    (h : ∀ p ∈ xs, (asAddr s c (vNeighbour k) p.1 p.2).isSome = true) : vBounds s c k xs = .ok () := by
  have hnone : (xs.find? fun x => (asAddr s c (vNeighbour k) x.1 x.2).isNone) = none := by
    simpa [List.find?_eq_none, Option.isSome_iff_ne_none] using h
  unfold vBounds
  rw [hnone]

theorem modV_congr {k : Nat} {f g : VTile → VTile} {s : State} (h : f (tileAt s k).v = g (tileAt s k).v) :
    modV k f s = modV k g s := by
  simp only [modV, modTile, h]

/-! ### VLD and VST (R163 to R166) -/

/-- A sound cache line is read with its bias word. -/
theorem vldRead_line {s : State} {c k d i line : Nat} (hspace : mdSpace d = false) (hline : mdCline d + i * mdCinc d = line)
    (hlow : line ≤ 511) (hue : ueAt s (ocBase k + 512 * line) 512 = none) (hbias : (tileAt s k).v.biasBad.contains (32 + line) = false)
    (old : BitVec 64) : vldRead s c k d i old =
      .ok (peekNum s (ocBase k + 512 * line) 512, (Tab.get 0 (tileAt s k).v.lineBias line).toNat, true, []) := by
  unfold vldRead
  rw [hspace, Bool.not_false, if_pos rfl]
  dsimp only
  rw [hline, lineAt_low hlow, ok_bind, vLineUe_sound hue hbias, ok_bind]
  rfl

section Memory
variable {site : Site} {c : Nat} {st : Stp} {s : State} (h : StandsOn site .V c st s)
  (hissued : (tileAt s (siteNo site)).seq.issued = false) {d i r line : Nat}
  (hd : mdAt (tileAt s (siteNo site)) (fld st.args 0 4) = d) (hi : iterIdx (tileAt s (siteNo site)) st (bitAt st.args 9) = i)
  (hr : fld st.args 4 5 = r) (hline : mdCline d + i * mdCinc d = line) (hfmt : (fmtOf (mdFmt d)).isSome = true)
include h hissued hd hi hr hline hfmt

/-- A VLD or VST that nothing holds acts. -/
theorem vMemStep_acts {opc : Nat} {regs : Nat → List Nat × List Nat} {act : Nat → Nat → Stp → Nat → Nat → State → State}
    (hopc : st.opc = opc) (hheld : vHeld (tileAt s (siteNo site)).v (regs r).1 (regs r).2 = false)
    (hmover : moverHeld (tileAt s (siteNo site)) (if mdSpace d then [] else [(line, 1)]) (if mdSpace d then vldPlaces d i else [])
      (opc = 4) = false) : vMemStep opc regs act site s = ground (act (siteNo site) c st d i s) s := by
  subst hd hi hr hline
  unfold vMemStep
  rw [tileStep_stands h (decide_eq_true hopc)]
  simp only [hissued, hheld, hmover, no_parity h.sound, Option.isNone_eq_false_iff.mpr hfmt, Bool.or_self, Bool.false_eq_true, if_false]

/-- VLD brings what has been read for it into the register. -/
theorem vld_accepts (hopc : st.opc = 3) (hheld : vHeld (tileAt s (siteNo site)).v [] [r] = false)
    (hmover : moverHeld (tileAt s (siteNo site)) (if mdSpace d then [] else [(line, 1)]) (if mdSpace d then vldPlaces d i else [])
      false = false) {y b : Nat} {whole : Bool} {acc : List (Bool × Nat × Nat)}
    (hread : vldRead s c (siteNo site) d i (vBiasAt (tileAt s (siteNo site)).v r) = .ok (y, b, whole, acc))
    (hquiet : acc = [] ∨ s.dev.debug = false) :
    Accepts (exec (.vld site) s) .V (siteNo site) st s (modV (siteNo site) (fun v => { v with
      regs := Tab.set 0 v.regs r (BitVec.ofNat 4096 y), bias := Tab.set 0 v.bias r (BitVec.ofNat 64 b)
      biasBad := if whole then v.biasBad.filter (· ≠ r) else v.biasBad }) s) := by
  subst hr
  change Accepts (execVld site s) _ _ _ _ _
  rw [execVld, vMemStep_acts h hissued hd hi rfl hline hfmt hopc hheld hmover]
  simp only [hread, guardedAll_quiet hquiet]
  exact vIssue_accepts h hissued (onlyVector_modV _ _ _)

/-- VLD from a cache line. -/
theorem vld_line_accepts (hopc : st.opc = 3) (hheld : vHeld (tileAt s (siteNo site)).v [] [r] = false) (hspace : mdSpace d = false)
    (hlow : line ≤ 511) (hmover : moverHeld (tileAt s (siteNo site)) [(line, 1)] [] false = false)
    (hue : ueAt s (ocBase (siteNo site) + 512 * line) 512 = none)
    (hbias : (tileAt s (siteNo site)).v.biasBad.contains (32 + line) = false) :
    Accepts (exec (.vld site) s) .V (siteNo site) st s (modV (siteNo site) (fun v => { v with
      regs := Tab.set 0 v.regs r (BitVec.ofNat 4096 (peekNum s (ocBase (siteNo site) + 512 * line) 512))
      bias := Tab.set 0 v.bias r (Tab.get 0 v.lineBias line)
      biasBad := v.biasBad.filter (· ≠ r) }) s) := by
  have haccepts := vld_accepts h hissued hd hi hr hline hfmt hopc hheld (by simpa [hspace] using hmover)
    (vldRead_line hspace hline hlow hue hbias _) (.inl rfl)
  rwa [modV_congr (g := fun v => { v with
    regs := Tab.set 0 v.regs r (BitVec.ofNat 4096 (peekNum s (ocBase (siteNo site) + 512 * line) 512))
    bias := Tab.set 0 v.bias r (Tab.get 0 v.lineBias line), biasBad := v.biasBad.filter (· ≠ r) }) (by simp)] at haccepts

/-- VST to a cache line. -/
theorem vst_line_accepts (hopc : st.opc = 4) (hheld : vHeld (tileAt s (siteNo site)).v [r] [] = false) (hspace : mdSpace d = false)
    (hlow : line ≤ 511) (hmover : moverHeld (tileAt s (siteNo site)) [(line, 1)] [] true = false)
    (hbias : (tileAt s (siteNo site)).v.biasBad.contains r = false) :
    Accepts (exec (.vst site) s) .V (siteNo site) st s (modV (siteNo site) (fun v => { v with
      lineBias := Tab.set 0 v.lineBias line (vBiasAt (tileAt s (siteNo site)).v r), biasBad := v.biasBad.filter (· ≠ 32 + line) })
      (poke s (ocBase (siteNo site) + 512 * line) (toLE 512 (vRegAt (tileAt s (siteNo site)).v r).toNat))) := by
  subst hr
  change Accepts (execVst site s) _ _ _ _ _
  rw [execVst, vMemStep_acts h hissued hd hi rfl hline hfmt hopc hheld (by simpa [hspace] using hmover)]
  simp only [hbias, hspace, hline, lineAt_low hlow, Bool.false_and, Bool.not_false, Bool.false_eq_true, if_false, if_true]
  exact vIssue_accepts h hissued ((onlyVector_of_same (tileAt_poke _ _ _ _)).modV _)

/-- VST to the neighbour A tile. -/
theorem vst_neighbour_accepts (hopc : st.opc = 4) (hheld : vHeld (tileAt s (siteNo site)).v [r] [] = false) (hspace : mdSpace d = true)
    (hmover : moverHeld (tileAt s (siteNo site)) [] (vldPlaces d i) true = false)
    (hbias : (tileAt s (siteNo site)).v.biasBad.contains r = false ∨ mdBias d = false)
    {bits : List (Nat × Nat × Bool)} {runs : List (Nat × List Byte)}
    (hplan : vstPlan s c (siteNo site) d i (vRegAt (tileAt s (siteNo site)).v r).toNat (vBiasAt (tileAt s (siteNo site)).v r).toNat =
      .ok (bits, runs)) (hquiet : s.dev.debug = false) :
    Accepts (exec (.vst site) s) .V (siteNo site) st s
      (runs.foldl (fun s p => poke s p.1 p.2) (bits.foldl (fun s m => putMaskBit m.1 m.2.1 m.2.2 s) s)) := by
  subst hr
  have hue : ((tileAt s (siteNo site)).v.biasBad.contains (fld st.args 4 5) && (!mdSpace d || mdBias d)) = false := by
    obtain hsound | hnone := hbias
    · rw [hsound, Bool.false_and]
    · rw [hspace, hnone, Bool.not_true, Bool.or_self, Bool.and_false]
  have htile : tileAt (runs.foldl (fun s p => poke s p.1 p.2) (bits.foldl (fun s m => putMaskBit m.1 m.2.1 m.2.2 s) s)) (siteNo site) =
      tileAt s (siteNo site) := by
    rw [foldl_keeps (tileAt · (siteNo site)) (fun s (p : Nat × List Byte) => poke s p.1 p.2) (fun _ _ => tileAt_poke _ _ _ _),
      foldl_keeps (tileAt · (siteNo site)) (fun s (m : Nat × Nat × Bool) => putMaskBit m.1 m.2.1 m.2.2 s)
        (fun _ _ => tileAt_poke _ _ _ _)]
  change Accepts (execVst site s) _ _ _ _ _
  rw [execVst, vMemStep_acts h hissued hd hi rfl hline hfmt hopc hheld (by simpa [hspace] using hmover)]
  simp only [hue, Bool.false_eq_true, if_false]
  simp only [hspace, hplan, guardedAll_quiet (Or.inr hquiet), Bool.not_true, Bool.false_eq_true, if_false]
  exact vIssue_accepts h hissued (onlyVector_of_same htile)

end Memory

/-! ### CLOAD and CEVICT are accepted (R163, R167) -/

section Mover
variable {site : Site} {c : Nat} {st : Stp} {s : State} (h : StandsOn site .V c st s)
  (hissued : (tileAt s (siteNo site)).seq.issued = false) {d n : Nat} (hidle : (tileAt s (siteNo site)).v.mover = none)
  (hd : mdAt (tileAt s (siteNo site)) (fld st.args 0 4) = d)
  (hfmt : (fmtOf (mdFmt d)).isSome = true) {i : Instr} {opc : Nat} {load : Bool} (hi : exec i s = moverStep opc load site s)
  (hopc : st.opc = opc)
include h hissued hidle hd hfmt hi hopc

/-- With no lines nothing moves. -/
theorem mover_accepts_none (hlines : mdNlines d = 0) : Accepts (exec i s) .V (siteNo site) st s s := by
  subst hd
  obtain ⟨r, hrun, -⟩ := h.run
  rw [hi, moverStep]
  simp only [hrun, hidle]
  rw [moverAccept, tileStep_stands h (decide_eq_true hopc)]
  simp only [hissued, hidle, no_parity h.sound, Option.isNone_eq_false_iff.mpr hfmt, hlines, Option.isSome_none, Bool.or_self,
    Bool.false_eq_true, if_false, if_true]
  exact vIssue_accepts h hissued (accept := id) (onlyVector_of_same rfl)

/-- The idle mover takes an operation whose places lie within the bound. -/
theorem mover_accepts_lines (hn : iterIdx (tileAt s (siteNo site)) st (bitAt st.args 9) = n) (hlines : mdNlines d ≠ 0)
    (hbound : ∀ p ∈ moverPlaces d n 0, (asAddr s c (vNeighbour (siteNo site)) p.1 p.2).isSome = true) :
    Accepts (exec i s) .V (siteNo site) st s
      (modV (siteNo site) (fun v => { v with mover := some ⟨load, fld st.args 0 4, n, 0⟩ }) s) := by
  subst hd hn
  obtain ⟨r, hrun, -⟩ := h.run
  rw [hi, moverStep]
  simp only [hrun, hidle]
  rw [moverAccept, tileStep_stands h (decide_eq_true hopc)]
  simp only [hissued, hidle, no_parity h.sound, Option.isNone_eq_false_iff.mpr hfmt, hlines, vBounds_within hbound, Option.isSome_none,
    Bool.or_self, Bool.false_eq_true, if_false]
  exact vIssue_accepts h hissued (onlyVector_modV _ _ _)

end Mover

/-! ### The places of a line (R159, R163, R167) -/

/-- The A-tile neighbour of a tile lies in a Hoop of the module, or right behind the last. -/
theorem noHoop_vNeighbour {k : Nat} (hk : k < 4096) : noHoop (vNeighbour k) ≤ 8 := by
  unfold vNeighbour noHoop
  split <;> omega

theorem tileIndex_le (k : Nat) : tileIndex k ≤ 16 * 32 + 15 := by
  have hcols : (colsOf (kindOf k)).length ≤ 32 := (List.length_filter_le _ _).trans_eq List.length_range
  have hfound := List.findIdx_le_length (xs := colsOf (kindOf k)) (p := fun x => decide (x = noCol k))
  have hrow : noRow k < 16 := Nat.mod_lt _ (by norm_num)
  unfold tileIndex
  omega

/-- An access through the wide port lies in banks 0 to 3 of its A tile. -/
theorem wideAt_banks {s : State} {c k off n pa : Nat} {read : Bool} (h : wideAt s c k off n read = .at_ pa) :
    pa + n ≤ asBase k + 0x80000 := by
  unfold wideAt at h
  split at h
  · exact nomatch h
  split at h
  · exact nomatch h
  next hbanks =>
  split at h
  · exact nomatch h
  split at h
  · exact nomatch h
  obtain rfl := WideAt.at_.inj h
  simpa [inWideBanks] using hbanks

/-- The bytes that a tile reaches through the wide port of an A tile belong to no partial-sum store. -/
theorem isPs_wideAt {s : State} {c k off n pa : Nat} {read : Bool} (hk : noHoop k ≤ 8) (h : wideAt s c k off n read = .at_ pa) :
    isPs pa = false := by
  have hbanks := wideAt_banks h
  have hidx := tileIndex_le k
  have hlow : pa < 0xC500000000 := by
    unfold asBase at hbanks
    omega
  rw [isPs, decide_eq_false (Nat.not_le.mpr hlow), Bool.false_and]

/-- The operand caches lie behind the partial-sum stores. -/
theorem isPs_line (k line : Nat) : isPs (ocBase k + 512 * line) = false := by
  have hhigh : 0xC520000000 ≤ ocBase k + 512 * line := by
    unfold ocBase
    omega
  rw [isPs, decide_eq_false (Nat.not_lt.mpr hhigh), Bool.and_false]

/-- Where the bytes of a line stand: in the operand cache, in the neighbour A tile, and its bias bytes there too. -/
theorem moverLine_ok {s : State} {c k d i n line pc pa : Nat} {load : Bool} {pb : Option Nat}
    (h : moverLine s c k d i n load = .ok (line, pc, pa, pb)) :
    pc = ocBase k + 512 * line ∧ (∃ off, wideAt s c (vNeighbour k) off 512 load = .at_ pa) ∧
      ∀ p, pb = some p → ∃ off, wideAt s c (vNeighbour k) off 8 load = .at_ p := by
  unfold moverLine at h
  dsimp only at h
  obtain ⟨pc', hpc, h⟩ := bind_ok h
  obtain ⟨pa', hpa, h⟩ := bind_ok h
  have hrest := checked_ok h
  split at hrest
  · obtain ⟨p, hp, hrest⟩ := bind_ok hrest
    obtain ⟨rfl, rfl, rfl, rfl⟩ := Except.ok.inj hrest
    exact ⟨lineAt_ok hpc, ⟨_, vWide_ok hpa⟩, fun q hq => ⟨_, Option.some.inj hq ▸ vWide_ok hp⟩⟩
  · obtain ⟨rfl, rfl, rfl, rfl⟩ := Except.ok.inj hrest
    exact ⟨lineAt_ok hpc, ⟨_, vWide_ok hpa⟩, fun q hq => nomatch hq⟩

/-! ### A line moves (R167) -/

/-- Bytes outside the partial-sum stores are those of memory. -/
theorem peek_outside {pa : Nat} (h : isPs pa = false) (s : State) (n : Nat) : peek s pa n = bytesAt s.mem pa n := by
  rw [peek, h, if_neg (by decide)]

/-- Bytes that were written last read back. -/
theorem peek_written {t : State} {m : Tab Byte} {pa : Nat} {bs : List Byte} (h : isPs pa = false) (ht : t.mem = putBytes m pa bs) :
    peek t pa bs.length = bs := by
  rw [peek_outside h, ht, bytesAt_putBytes]

section Line
variable (k line pc pa : Nat) (pb : Option Nat) (load : Bool) (s : State)

/-- Of the vector unit a line changes its bias word and the count of lines. -/
theorem unit_moveLine : ∃ b bad, tileAt (moveLine k line pc pa pb load s) k = { tileAt s k with v := { (tileAt s k).v with
    lineBias := b, biasBad := bad, lines := satAdd 32 (tileAt s k).v.lines 1 } } := by
  unfold moveLine
  cases pb <;> cases load <;> simp only [tileAt_modV, tileAt_poke, if_true, if_false, Bool.false_eq_true]
  all_goals exact ⟨_, _, rfl⟩

theorem tileAt_moveLine_other {j : Nat} (hj : j ≠ k) : tileAt (moveLine k line pc pa pb load s) j = tileAt s j := by
  unfold moveLine
  cases pb <;> cases load <;> simp [tileAt_modV_other _ _ hj]

theorem moveLine_ctxs : (moveLine k line pc pa pb load s).ctxs = s.ctxs := by
  unfold moveLine
  cases pb <;> cases load <;> rfl

/-- CLOAD writes the cache line alone. -/
theorem moveLine_mem_load : (moveLine k line pc pa pb true s).mem = putBytes s.mem pc (peek s pa 512) := by
  cases pb <;> rfl

/-- CEVICT writes the bytes of the A tile, and then the bias bytes. -/
theorem moveLine_mem_store : (moveLine k line pc pa none false s).mem = putBytes s.mem pa (peek s pc 512) := rfl

theorem moveLine_mem_store_bias (p : Nat) : (moveLine k line pc pa (some p) false s).mem =
    putBytes (putBytes s.mem pa (peek s pc 512)) p (toLE 8 (Tab.get 0 (tileAt s k).v.lineBias line).toNat) := rfl

/-- The bias word of a line that CLOAD brings. -/
theorem lineBias_moveLine (p : Nat) : Tab.get 0 (tileAt (moveLine k line pc pa (some p) true s) k).v.lineBias line =
    BitVec.ofNat 64 (peekNum (poke s pc (peek s pa 512)) p 8) := by
  unfold moveLine
  simp only [if_true, tileAt_modV, Tab.get_set_same]

end Line

/-- The mover's command moves its next line. -/
theorem mover_moves {site : Site} {r : RunSt} {o : MovOp} {line pc pa : Nat} {pb : Option Nat} {s : State}
    (hrun : runOf s (siteNo site) = some r) (hmover : (tileAt s (siteNo site)).v.mover = some o) (hquiet : s.dev.debug = false)
    (hline : moverLine s r.ctx (siteNo site) (mdAt (tileAt s (siteNo site)) o.md) o.i o.n o.load = .ok (line, pc, pa, pb)) :
    ∃ t, exec (if o.load then .cload site else .cevict site) s = .next t ∧
      t.mem = (moveLine (siteNo site) line pc pa pb o.load s).mem ∧
      (tileAt t (siteNo site)).v = { (tileAt (moveLine (siteNo site) line pc pa pb o.load s) (siteNo site)).v with
        mover := if mdNlines (mdAt (tileAt s (siteNo site)) o.md) ≤ o.n + 1 then none else some { o with n := o.n + 1 } } ∧
      (∀ j, j ≠ siteNo site → tileAt t j = tileAt s j) ∧ t.ctxs = s.ctxs := by
  have hstep : exec (if o.load then .cload site else .cevict site) s = moverStep (if o.load then 5 else 6) o.load site s := by
    cases o.load <;> rfl
  rw [hstep, moverStep]
  simp only [hrun, hmover, if_true]
  rw [moverNext]
  simp only [hline, guardedAll_quiet (Or.inr hquiet), ground_next]
  refine ⟨_, rfl, rfl, ?_, fun j hj => ?_, moveLine_ctxs _ _ _ _ _ _ _⟩
  · rw [tileAt_groundPart, tileAt_modV]
  · rw [tileAt_groundPart, tileAt_modV_other _ _ hj, tileAt_moveLine_other _ _ _ _ _ _ _ hj]

/-- A line that CLOAD has brought, with its bias word where its bias bytes lie beside the line. -/
theorem cload_line {k line pc pa : Nat} {pb : Option Nat} {s t : State} (hmem : t.mem = (moveLine k line pc pa pb true s).mem)
    (hpc : isPs pc = false) (hpb : ∀ p, pb = some p → isPs p = false) :
    peek t pc 512 = peek s pa 512 ∧ (∀ a, a < pc ∨ pc + 512 ≤ a → Tab.get 0 t.mem a = Tab.get 0 s.mem a) ∧
      ∀ p, pb = some p → (p + 8 ≤ pc ∨ pc + 512 ≤ p) →
        Tab.get 0 (tileAt (moveLine k line pc pa pb true s) k).v.lineBias line = BitVec.ofNat 64 (peekNum s p 8) := by
  have hlen := peek_length s pa 512
  rw [moveLine_mem_load] at hmem
  refine ⟨?_, fun a ha => ?_, fun p hp hapart => ?_⟩
  · have hread := peek_written hpc hmem
    rwa [hlen] at hread
  · rw [hmem]
    exact get_putBytes_other (by rwa [hlen])
  · subst hp
    rw [lineBias_moveLine, peekNum, peekNum, peek_outside (hpb p rfl), peek_outside (hpb p rfl)]
    exact congrArg (fun bs => BitVec.ofNat 64 (leNat bs)) (bytesAt_putBytes_other _ (by omega))

/-- A line that CEVICT has copied back, with its bias bytes where they lie beside it. -/
theorem cevict_line {k line pc pa : Nat} {pb : Option Nat} {s t : State} (hmem : t.mem = (moveLine k line pc pa pb false s).mem)
    (hpa : isPs pa = false) (hpb : ∀ p, pb = some p → isPs p = false)
    (hapart : ∀ p, pb = some p → p + 8 ≤ pa ∨ pa + 512 ≤ p) :
    peek t pa 512 = peek s pc 512 ∧ (∀ p, pb = some p → peek t p 8 = toLE 8 (Tab.get 0 (tileAt s k).v.lineBias line).toNat) ∧
      ∀ a, (a < pa ∨ pa + 512 ≤ a) → (∀ p, pb = some p → a < p ∨ p + 8 ≤ a) → Tab.get 0 t.mem a = Tab.get 0 s.mem a := by
  have hlen := peek_length s pc 512
  cases pb with
  | none =>
    rw [moveLine_mem_store] at hmem
    refine ⟨?_, fun p hp => absurd hp nofun, fun a ha _ => ?_⟩
    · have hread := peek_written hpa hmem
      rwa [hlen] at hread
    · rw [hmem]
      exact get_putBytes_other (by rwa [hlen])
  | some p =>
    rw [moveLine_mem_store_bias] at hmem
    refine ⟨?_, fun q hq => ?_, fun a ha hq => ?_⟩
    · rw [peek_outside hpa, hmem, bytesAt_putBytes_other _ (by rw [toLE_length]; exact hapart p rfl)]
      have hread := bytesAt_putBytes s.mem pa (peek s pc 512)
      rwa [hlen] at hread
    · obtain rfl := Option.some.inj hq
      have hread := peek_written (hpb p rfl) hmem
      rwa [toLE_length] at hread
    · have hbeside := hq p rfl
      rw [hmem, get_putBytes_other (by rwa [toLE_length]), get_putBytes_other (by rwa [hlen])]

/-! ### The statement -/

/-- Settles O28: by the place of a VLD or VST, the lines of the mover's step, and the direction of the mover. -/
theorem vectorLoadsStoresAndMoversAct : Obligations.VectorLoadsStoresAndMoversAct := by
  unfold Obligations.VectorLoadsStoresAndMoversAct
  refine ⟨?memory, ?accepted, ?moves⟩
  case memory =>
    intro site c st s h k x d i r line hissued hfmt
    refine ⟨?_, ?_, ?_, ?_⟩
    · intro hopc hheld hspace hlow hmover hue hbias
      exact vld_line_accepts h hissued rfl rfl rfl rfl hfmt hopc hheld hspace hlow hmover hue hbias
    · intro y b whole acc hopc hheld hspace hmover hread hquiet
      exact vld_accepts h hissued rfl rfl rfl rfl hfmt hopc hheld (by rwa [if_pos hspace, if_pos hspace]) hread (.inr hquiet)
    · intro hopc hheld hspace hlow hmover hbias
      exact vst_line_accepts h hissued rfl rfl rfl rfl hfmt hopc hheld hspace hlow hmover hbias
    · intro bits runs hopc hheld hspace hmover hbias hplan hquiet
      exact vst_neighbour_accepts h hissued rfl rfl rfl rfl hfmt hopc hheld hspace hmover hbias hplan hquiet
  case accepted =>
    intro site c st s h k x d i hissued hidle hfmt
    refine ⟨fun hnone => ⟨fun hopc => ?_, fun hopc => ?_⟩, fun hlines hbound => ⟨fun hopc => ?_, fun hopc => ?_⟩⟩
    · exact mover_accepts_none h hissued hidle rfl hfmt (load := true) rfl hopc hnone
    · exact mover_accepts_none h hissued hidle rfl hfmt (load := false) rfl hopc hnone
    · exact mover_accepts_lines h hissued hidle rfl hfmt rfl hopc rfl hlines hbound
    · exact mover_accepts_lines h hissued hidle rfl hfmt rfl hopc rfl hlines hbound
  case moves =>
    intro site r o line pc pa pb s k x d hrun hmover hquiet hline
    obtain ⟨rfl, ⟨off, hpa⟩, hpb⟩ := moverLine_ok hline
    have hhoop := noHoop_vNeighbour (siteNo_lt site)
    have hline_out := isPs_line k line
    have hpa_out := isPs_wideAt hhoop hpa
    have hpb_out : ∀ p, pb = some p → isPs p = false := fun p hp => by
      obtain ⟨off, hat⟩ := hpb p hp
      exact isPs_wideAt hhoop hat
    obtain ⟨t, hnext, hmem, hv, hothers, hctxs⟩ := mover_moves hrun hmover hquiet hline
    obtain ⟨b, bad, hunit⟩ := unit_moveLine k line (ocBase k + 512 * line) pa pb o.load s
    refine ⟨t, hnext, by rw [hv], by rw [hv, hunit], by rw [hv, hunit], fun hload => ?_, fun hstore => ?_, hothers, hctxs⟩
    · rw [hv]
      rw [hload] at hmem ⊢
      exact cload_line hmem hline_out hpb_out
    · rw [hstore] at hmem
      exact cevict_line hmem hpa_out hpb_out

end Sys2Proof.Machine
end

section
/-! O29: the queue unit of a vector tile, its scalar unit, and FLAGRD. -/

namespace Sys2Proof.Machine

/-! ### QIO is accepted (R171) -/

/-- A half of the queue unit that is idle takes the operation of a sound port descriptor. -/
theorem qioAccept_accepts {site : Site} {c : Nat} {st : Stp} {s : State} (h : StandsOn site .V c st s)
    (hissued : (tileAt s (siteNo site)).seq.issued = false) {d : Nat} {out : Bool} (hopc : st.opc = 7)
    (hd : ptAt (tileAt s (siteNo site)) (fld st.args 0 3) = d) (hout : ptOut d = out)
    (hsound : ptUndef (tileAt s (siteNo site)) d = none) (hin : (tileAt s (siteNo site)).v.qin = none)
    (hidle : (tileAt s (siteNo site)).v.qout = none) (hcount : ptCount d ≠ 0) :
    Accepts (ground (qioAccept out site s) s) .V (siteNo site) st s (modV (siteNo site) (fun v =>
      if out then { v with qout := some ⟨fld st.args 0 3, fld st.args 3 5, 0⟩ }
      else { v with qin := some ⟨fld st.args 0 3, fld st.args 3 5, 0⟩ }) s) := by
  subst hd
  have hheld : ∀ reads writes, vHeld (tileAt s (siteNo site)).v reads writes = false := fun reads writes => by
    simp [vHeld, hin, hidle]
  unfold qioAccept
  dsimp only
  rw [tileStep_stands h (by rw [hopc, hout]; simp)]
  simp only [hissued, hheld, hin, hidle, hsound, hcount, Option.isSome_none, Bool.or_self, ite_self, decide_false, Bool.false_and,
    Bool.false_eq_true, if_false]
  exact vIssue_accepts h hissued (onlyVector_modV _ _ _)

/-! ### QIO without and with an operation in progress -/

section Commands
variable {site : Site} {run : RunSt} {q : QioOp} {s : State} (hrun : runOf s (siteNo site) = some run)
include hrun

theorem execQioIn_idle (hidle : (tileAt s (siteNo site)).v.qin = none) :
    exec (.qioIn site) s = ground (qioAccept false site s) s := by
  change execQioIn site s = _
  unfold execQioIn
  simp only [hrun, hidle]

theorem execQioIn_moves (hq : (tileAt s (siteNo site)).v.qin = some q) :
    exec (.qioIn site) s = .next (groundPart s (qinMove (siteNo site) run.ctx q s)) := by
  change execQioIn site s = _
  unfold execQioIn
  simp only [hrun, hq, ground_next]

theorem execQioOut_idle (hidle : (tileAt s (siteNo site)).v.qout = none) :
    exec (.qioOut site) s = ground (qioAccept true site s) s := by
  change execQioOut site s = _
  unfold execQioOut
  simp only [hrun, hidle]

theorem execQioOut_moves (hq : (tileAt s (siteNo site)).v.qout = some q) :
    exec (.qioOut site) s = .next (groundPart s (qoutMove (siteNo site) q s)) := by
  change execQioOut site s = _
  unfold execQioOut
  simp only [hrun, hq, ground_next]

end Commands

/-! ### A token comes in (R170) -/

section In
variable {k c : Nat} {q : QioOp} {a : Token} {d : Nat} {s : State} (hd : ptAt (tileAt s k) q.pt = d) (hleft : q.j < ptCount d)

/-- The inbound operation takes the first token of a queue into n bytes of its register. -/
def qinTaken (k : Nat) (q : QioOp) (count qu off n : Nat) (a : Token) (s : State) : State :=
  modV k (fun v => qinNext q count { v with
    regs := Tab.set 0 v.regs q.reg (putReg (vRegAt v q.reg) off n a.val.toNat), tokens := satAdd 32 v.tokens 1 }) (popTok k qu s)

include hd hleft

theorem qinMove_ctrl (hctrl : ptCtrl d = true) (hhead : headOf (tileAt s k) (ptQp d) = .tok a) :
    qinMove k c q s = qinTaken k q (ptCount d) (ptQp d) (4 * q.j) 4 a s := by
  subst hd
  unfold qinMove
  simp only [Nat.not_le.mpr hleft, hctrl, hhead, if_true, if_false]
  rfl

theorem qinMove_data (hctrl : ptCtrl d = false) (hmask : ptMask d = false)
    (hhead : headOf (tileAt s k) (ptQp d + q.j % nqOf (ptNq d)) = .tok a) :
    qinMove k c q s = qinTaken k q (ptCount d) (ptQp d + q.j % nqOf (ptNq d)) (64 * q.j) 64 a s := by
  subst hd
  unfold qinMove
  simp only [Nat.not_le.mpr hleft, hctrl, hmask, hhead, Bool.not_false, Bool.false_eq_true, if_true, if_false]
  rfl

end In

/-- The vector unit stays as it is while a token is consumed. -/
theorem vector_popTok (k q : Nat) (s : State) : (tileAt (popTok k q s) k).v = (tileAt s k).v := by
  rw [tileAt_popTok, if_pos rfl]
  exact (congrArg Tile.v (tileTokensOff_popped q (tileAt s k)) :)

section Taken
variable (k : Nat) (q : QioOp) (count qu off n : Nat) (a : Token) (s : State)

/-- The first token of the queue stands in its place in the register; the last one ends the operation. -/
theorem qinTaken_moved : let t := groundPart s (qinTaken k q count qu off n a s)
    qToks (tileAt t k) qu = (qToks (tileAt s k) qu).tail ∧
    vRegAt (tileAt t k).v q.reg = putReg (vRegAt (tileAt s k).v q.reg) off n a.val.toNat ∧
    (tileAt t k).v.qin = (if count ≤ q.j + 1 then none else some { q with j := q.j + 1 }) ∧
    (tileAt t k).v.tokens = satAdd 32 (tileAt s k).v.tokens 1 ∧ t.mem = s.mem ∧ ∀ j, j ≠ k → tileAt t j = tileAt s j := by
  have hunit : (tileAt (qinTaken k q count qu off n a s) k).v = qinNext q count { (tileAt s k).v with
      regs := Tab.set 0 (tileAt s k).v.regs q.reg (putReg (vRegAt (tileAt s k).v q.reg) off n a.val.toNat)
      tokens := satAdd 32 (tileAt s k).v.tokens 1 } := by
    rw [qinTaken, tileAt_modV, vector_popTok]
  intro t
  refine ⟨?_, ?_, by rw [tileAt_groundPart, hunit]; rfl, by rw [tileAt_groundPart, hunit]; rfl, ?_, fun j hj => ?_⟩
  · rw [tileAt_groundPart, qinTaken, tileAt_modV, tileAt_popTok, if_pos rfl]
    exact (qToks_popped qu qu (tileAt s k)).trans (if_pos rfl)
  · rw [tileAt_groundPart, hunit]
    exact Tab.get_set_same _ _ _ _
  · rw [groundPart_mem, qinTaken, modV_mem, popTok_mem]
  · rw [tileAt_groundPart, qinTaken, tileAt_modV_other _ _ hj, tileAt_popTok, if_neg hj]

end Taken

/-! ### A token goes out (R170) -/

/-- The outbound operation sends its next token where the output holds a credit. -/
theorem qoutMove_sends {k : Nat} {q : QioOp} {d : Nat} {s : State} (hd : ptAt (tileAt s k) q.pt = d) (hleft : q.j < ptCount d)
    (hplain : ptCtrl d = true ∨ ptMask d = false) (hnone : Tab.get [] (tileAt s k).v.outToks (ptPort d) = [])
    (hcred : hasCredit (tileAt s k) (ptPort d) (ptCtrl d) = true) :
    qoutMove k q s = qoutSettle k (ptPort d) (ptCount d) { q with j := q.j + 1 }
      (modV k (fun v => { v with tokens := satAdd 32 v.tokens 1 }) (sendTok k (ptPort d) (ptCtrl d) (BitVec.ofNat 512
        (if ptCtrl d then fld (vRegAt (tileAt s k).v q.reg).toNat (32 * q.j) 32
          else fld (vRegAt (tileAt s k).v q.reg).toNat (512 * q.j) 512)) s)) := by
  subst hd
  have hplain : (ptCtrl (ptAt (tileAt s k) q.pt) || !ptMask (ptAt (tileAt s k) q.pt)) = true := by
    obtain h | h := hplain <;> simp [h]
  unfold qoutMove
  simp only [hnone, Nat.not_le.mpr hleft, hplain, hcred, decide_false, Bool.false_and, Bool.false_eq_true, if_true, if_false]

/-- The vector unit stays as it is while a token is sent. -/
theorem vector_sendTok (k o : Nat) (ctrl : Bool) (x : DataTok) (s : State) : (tileAt (sendTok k o ctrl x s) k).v = (tileAt s k).v := by
  rw [tileAt_sendTok, if_pos rfl]
  exact (congrArg Tile.v (tileTokensOff_spent o ctrl (tileAt s k)) :)

/-! ### XOP and FLAGRD (R160) -/

section Scalars
variable {site : Site} {c : Nat} {st : Stp} {s : State} (h : StandsOn site .V c st s) (hflow : st.flow ≠ 4)
  (hissued : (tileAt s (siteNo site)).seq.issued = false)
include h hflow hissued

/-- A XOP writes its scalar, and leaves the other scalars, the registers and memory. -/
theorem xop_writes {i : Instr} {sub : Nat} {f : Nat → Nat → Nat → Nat} (hi : exec i s = xop sub f site s) (hopc : st.opc = 8)
    (hsub : fld st.args 16 2 = sub) {y : BitVec 32}
    (hy : BitVec.ofNat 32 (f (vScalAt (tileAt s (siteNo site)).v (fld st.args 0 4)).toNat (fld st.args 4 12)
      (iterIdx (tileAt s (siteNo site)) st true)) = y) :
    ∃ t, exec i s = .next t ∧ vScalAt (tileAt t (siteNo site)).v (fld st.args 0 4) = y ∧
      (∀ z, z ≠ fld st.args 0 4 → vScalAt (tileAt t (siteNo site)).v z = vScalAt (tileAt s (siteNo site)).v z) ∧
      (tileAt t (siteNo site)).v.regs = (tileAt s (siteNo site)).v.regs ∧ t.mem = s.mem := by
  subst hy
  rw [hi, xop, tileStep_stands h (by rw [hopc, hsub]; simp)]
  obtain ⟨t, hnext, hfired⟩ := (vIssue_accepts h hissued (onlyVector_modV _ _ _)).fired hflow
  refine ⟨t, hnext, ?_, fun z hz => ?_, ?_, ?_⟩
  · rw [hfired.vector, tileAt_modV]
    exact Tab.get_set_same _ _ _ _
  · rw [hfired.vector, tileAt_modV]
    exact Tab.get_set_other _ _ _ hz
  · rw [hfired.vector, tileAt_modV]
  · rw [hfired.mem, modV_mem]

end Scalars

/-- Bits shifted in below a scalar's (XOP SHLOR). -/
theorem ofNat_shlor (x : BitVec 32) (imm : Nat) :
    BitVec.ofNat 32 (x.toNat * 2 ^ 12 ||| imm) = x <<< 12 ||| BitVec.ofNat 32 imm := by
  apply BitVec.eq_of_toNat_eq
  rw [BitVec.toNat_or, BitVec.toNat_shiftLeft, BitVec.toNat_ofNat, BitVec.toNat_ofNat, Nat.or_mod_two_pow, Nat.shiftLeft_eq]

theorem signed_eq_toInt {imm : Nat} (h : imm < 2 ^ 12) : signed 12 imm = (BitVec.ofNat 12 imm).toInt := by
  rw [signed, BitVec.toInt_eq_toNat_cond, BitVec.toNat_ofNat, Nat.mod_eq_of_lt h]
  by_cases hlow : imm < 2 ^ (12 - 1)
  · rw [if_pos hlow, if_pos (by omega)]
  · rw [if_neg hlow, if_neg (by omega)]
    rfl

theorem ofNat_ofInt (w : Nat) (z : Int) : BitVec.ofNat w (ofInt w z) = BitVec.ofInt w z := by
  apply BitVec.eq_of_toNat_eq
  rw [BitVec.toNat_ofInt, BitVec.toNat_ofNat, ofInt]
  refine Nat.mod_eq_of_lt ?_
  have hpos : (0 : Int) < 2 ^ w := by positivity
  exact (Int.toNat_lt (Int.emod_nonneg _ hpos.ne')).mpr (by simpa using Int.emod_lt_of_pos z hpos)

/-- A sum with a sign-extended immediate, modulo 2^32 (XOP ADD). -/
theorem ofNat_add_signed (x : BitVec 32) {imm : Nat} (h : imm < 2 ^ 12) :
    BitVec.ofNat 32 (ofInt 32 (x.toNat + signed 12 imm)) = x + (BitVec.ofNat 12 imm).signExtend 32 := by
  rw [ofNat_ofInt, BitVec.ofInt_add, signed_eq_toInt h, BitVec.ofInt_natCast, BitVec.ofNat_toNat, BitVec.setWidth_eq,
    BitVec.signExtend]

/-- The lanes' flags as elements of 32 bits (FLAGRD). -/
theorem fld_laneFlags (flags : BitVec 768) {l : Nat} (hl : l < 128) :
    fld (BitVec.ofNat 4096 (packElems 4 ((List.range 128).map fun l => fld flags.toNat (6 * l) 6))).toNat (32 * l) 32 =
      fld flags.toNat (6 * l) 6 := by
  have hlen : l < ((List.range 128).map fun l => fld flags.toNat (6 * l) 6).length := by simpa using hl
  have hread := fld_packElems 4 hlen
  have hsmall : fld flags.toNat (6 * l) 6 < 2 ^ (8 * 4) := (fld_lt _ _ _).trans (by norm_num)
  rw [List.getElem_map, List.getElem_range, Nat.mod_eq_of_lt hsmall] at hread
  rw [fld_toNat_ofNat (by omega)]
  exact hread

/-- FLAGRD writes the lanes' flags into a register, and clears them with CLR. -/
theorem flagrd_writes {site : Site} {c : Nat} {st : Stp} {s : State} (h : StandsOn site .V c st s) (hflow : st.flow ≠ 4)
    (hissued : (tileAt s (siteNo site)).seq.issued = false) {v : VTile} (hv : (tileAt s (siteNo site)).v = v) (hopc : st.opc = 9)
    (hheld : vHeld v [] [fld st.args 0 5] = false) :
    ∃ t, exec (.flagrd site) s = .next t ∧ (tileAt t (siteNo site)).v = { v with
      regs := Tab.set 0 v.regs (fld st.args 0 5)
        (BitVec.ofNat 4096 (packElems 4 ((List.range 128).map fun l => fld v.laneFlags.toNat (6 * l) 6)))
      laneFlags := if bitAt st.args 5 then 0 else v.laneFlags } := by
  subst hv
  change ∃ t, execFlagrd site s = _ ∧ _
  rw [execFlagrd, tileStep_stands h (decide_eq_true hopc)]
  dsimp only
  rw [hheld]
  obtain ⟨t, hnext, hfired⟩ := (vIssue_accepts h hissued (onlyVector_modV _ _ _)).fired hflow
  refine ⟨t, hnext, ?_⟩
  rw [hfired.vector, tileAt_modV]

/-! ### The statement -/

/-- Settles O29: QIO by its half of the queue unit, a token by its direction and kind, XOP by its sub-operation. -/
theorem queueUnitsScalarsAndFlagsAct : Obligations.QueueUnitsScalarsAndFlagsAct := by
  unfold Obligations.QueueUnitsScalarsAndFlagsAct
  refine ⟨⟨?accepted, ?inward, ?outward⟩, ?scalars⟩
  case accepted =>
    intro site c st s h hopc k x d r op hissued hsound hin hidle hcount
    obtain ⟨run, hrun, -⟩ := h.run
    refine ⟨fun hout => ?_, fun hout => ?_⟩
    · rw [execQioIn_idle hrun hin]
      exact qioAccept_accepts h hissued hopc rfl hout hsound hin hidle hcount
    · rw [execQioOut_idle hrun hidle]
      exact qioAccept_accepts h hissued hopc rfl hout hsound hin hidle hcount
  case inward =>
    intro site run q a s k x d qu hrun hq hleft hplain hhead
    refine ⟨_, execQioIn_moves hrun hq, ?_⟩
    by_cases hctrl : ptCtrl d = true
    · have hqu : qu = ptQp d := if_pos hctrl
      rw [hqu] at hhead ⊢
      rw [if_pos hctrl, qinMove_ctrl rfl hleft hctrl hhead]
      exact qinTaken_moved _ _ _ _ _ _ _ _
    · have hqu : qu = ptQp d + q.j % nqOf (ptNq d) := if_neg hctrl
      rw [hqu] at hhead ⊢
      rw [if_neg hctrl, qinMove_data rfl hleft (Bool.not_eq_true _ ▸ hctrl) (hplain.resolve_left hctrl) hhead]
      exact qinTaken_moved _ _ _ _ _ _ _ _
  case outward =>
    intro site run q s k x d val hrun hq hleft hplain hnone hcred
    refine ⟨_, execQioOut_moves hrun hq, ?_⟩
    rw [qoutMove_sends (d := d) rfl hleft hplain hnone hcred]
    refine ⟨?_, ?_, ?_, ?_⟩
    · rw [hoopAt_groundPart, qoutSettle, hoopAt_modV, hoopAt_modV]
      exact sendTok_onWay k _ _ _ s
    · rw [tileAt_groundPart, qoutSettle, tileAt_modV, tileAt_modV, vector_sendTok]
      simp [show Tab.get [] (tileAt s k).v.outToks (ptPort d) = [] from hnone]
    · rw [tileAt_groundPart, qoutSettle, tileAt_modV, tileAt_modV, vector_sendTok]
    · rw [groundPart_mem, qoutSettle, modV_mem, modV_mem, sendTok_mem]
  case scalars =>
    intro site c st s h hflow k v imm x old gives hissued
    refine ⟨fun hopc hsub => ?_, fun hopc hsub => ?_, fun hopc hsub => ?_, fun hopc hsub => ?_, fun hopc hheld => ?_⟩
    · exact xop_writes h hflow hissued (i := .xopSet site) (f := fun _ imm _ => imm) rfl hopc hsub rfl
    · exact xop_writes h hflow hissued (i := .xopShlor site) (f := fun x imm _ => x * 2 ^ 12 ||| imm) rfl hopc hsub (ofNat_shlor _ _)
    · exact xop_writes h hflow hissued (i := .xopIter site) (f := fun _ _ i => i) rfl hopc hsub rfl
    · exact xop_writes h hflow hissued (i := .xopAdd site) (f := fun x imm _ => ofInt 32 (x + signed 12 imm)) rfl hopc hsub
        (ofNat_add_signed _ (fld_lt _ _ _))
    · obtain ⟨t, hnext, hunit⟩ := flagrd_writes h hflow hissued rfl hopc hheld
      refine ⟨t, hnext, fun l hl => ?_, by rw [hunit], fun r hr => ?_⟩
      · rw [hunit, vRegAt, Tab.get_set_same]
        exact fld_laneFlags _ hl
      · rw [hunit, vRegAt, Tab.get_set_other _ _ _ hr]
        rfl

end Sys2Proof.Machine
end

section
/-! What the engine and the windows of an A tile share: accesses to the tile's own banks, and tokens taken and sent. -/

namespace Sys2Proof.Machine

/-! ### The tile's own banks (R204, R215) -/

/-- A place in the tile's own banks is one that the relocation of its context gives. -/
theorem asAddr_of_ownAt {s : State} {c k off n pa : Nat} {read : Bool} (h : ownAt s c k off n read = .at_ pa) :
    asAddr s c k off n = some pa := by
  unfold ownAt at h
  split at h
  · exact nomatch h
  · next hat =>
    split at h
    · exact nomatch h
    · split at h
      · exact nomatch h
      · rw [hat, OwnAt.at_.inj h]

theorem noHoop_site (site : Site) : noHoop (siteNo site) < 8 := by
  have hlt := siteNo_lt site
  unfold noHoop
  omega

/-- A unit of 64 B written last into a tile's own banks reads back, and no other byte differs. -/
theorem ownUnit_written {site : Site} {s t : State} {c off pa : Nat} {read : Bool} {bs : List Byte} (hlen : bs.length = 64)
    (hat : ownAt s c (siteNo site) off 64 read = .at_ pa) (hmem : t.mem = putBytes s.mem pa bs) :
    peek t pa 64 = bs ∧ ∀ b, b < pa ∨ pa + 64 ≤ b → Tab.get 0 t.mem b = Tab.get 0 s.mem b := by
  have hplace := asAddr_of_ownAt hat
  rw [← hlen] at hplace ⊢
  exact peek_poke_as (noHoop_site site) hplace hmem

/-- Bytes written after a token has been taken are written into the memory as it was. -/
theorem poke_popTok_mem (k q pa : Nat) (bs : List Byte) (s : State) :
    (poke (popTok k q s) pa bs).mem = putBytes s.mem pa bs :=
  congrArg (putBytes · pa bs) (popTok_mem k q s)

theorem popTok_ctxs (k q : Nat) (s : State) : (popTok k q s).ctxs = s.ctxs :=
  (congrArg State.ctxs (tokensOff_popTok k q s) :)

theorem sendTok_ctxs (k o : Nat) (ctrl : Bool) (v : DataTok) (s : State) : (sendTok k o ctrl v s).ctxs = s.ctxs := rfl

/-- The first token of the queue has gone. -/
theorem qToks_popTok_same (k q : Nat) (s : State) : qToks (tileAt (popTok k q s) k) q = (qToks (tileAt s k) q).tail := by
  rw [tileAt_popTok, if_pos rfl, qToks_popped, if_pos rfl]

end Sys2Proof.Machine
end

section
/-! O30: the load-store engine of an A tile. -/

namespace Sys2Proof.Machine

/-! ### The engine takes a step (R203) -/

/-- Without an operation in progress an engine command is the acceptance of a step. -/
theorem aEngine_idle {site : Site} {s : State} (hidle : (tileAt s (siteNo site)).a = none) (kd : AKind)
    (move : Nat → Nat → AOp → State → State) : aEngine kd move site s = ground (aAccept kd site s) s := by
  unfold aEngine
  dsimp only
  rw [hidle]
  cases runOf s (siteNo site) <;> rfl

/-- The idle engine takes a step of its kind: nothing where the descriptor has no positions, else its operation. -/
theorem aEngine_accepts {site : Site} {c : Nat} {st : Stp} {s : State} (h : StandsOn site .A c st s)
    (hissued : (tileAt s (siteNo site)).seq.issued = false) (hidle : (tileAt s (siteNo site)).a = none)
    {kd : AKind} {move : Nat → Nat → AOp → State → State} {d : Nat} (hopc : st.opc = kd.opc)
    (hd : adAt (tileAt s (siteNo site)) (fld st.args 0 4) = d)
    (hsound : aUndef (tileAt s (siteNo site)) kd d (fld st.args 4 4) (fld st.args 9 2) = none) :
    (adCount d = 0 → Accepts (aEngine kd move site s) .A (siteNo site) st s s) ∧
    (adCount d ≠ 0 → Accepts (aEngine kd move site s) .A (siteNo site) st s (modTile (siteNo site) (fun t => { t with
      a := some ⟨kd, fld st.args 0 4, fld st.args 4 4, fld st.args 9 2, iterIdx (tileAt s (siteNo site)) st (bitAt st.args 8), 0,
        bitAt st.args 11, []⟩ }) s)) := by
  subst hd
  rw [aEngine_idle hidle, aAccept, tileStep_stands h (decide_eq_true hopc)]
  simp only [hissued, hidle, hsound, Option.isSome_none, Bool.or_self, Bool.false_eq_true, if_false]
  refine ⟨fun hnone => ?_, fun hsome => ?_⟩
  · rw [if_pos hnone]
    exact issue_accepts h hissued (accept := id) rfl rfl rfl
  · rw [if_neg hsome]
    exact issue_accepts h hissued (by rw [tileAt_modTile_same]) (by rw [tileAt_modTile_same]) (by rw [tileAt_modTile_same])

/-! ### The operation moves on -/

/-- With an operation of its kind in progress an engine command moves its next position. -/
theorem aEngine_moves {site : Site} {r : RunSt} {p : AOp} {s : State} (hrun : runOf s (siteNo site) = some r)
    (hop : (tileAt s (siteNo site)).a = some p) {kd : AKind} (hkind : p.kind = kd) (move : Nat → Nat → AOp → State → State) :
    aEngine kd move site s = .next (groundPart s (move (siteNo site) r.ctx p s)) := by
  unfold aEngine
  simp only [hrun, hop, hkind, if_true, ground_next]

@[simp] theorem aNext_mem (k : Nat) (p : AOp) (count : Nat) (s : State) : (aNext k p count s).mem = s.mem := rfl
@[simp] theorem aNext_ctxs (k : Nat) (p : AOp) (count : Nat) (s : State) : (aNext k p count s).ctxs = s.ctxs := rfl
@[simp] theorem hoopAt_aNext (k : Nat) (p : AOp) (count : Nat) (s : State) (h : Nat) :
    hoopAt (aNext k p count s) h = hoopAt s h := rfl

theorem qToks_aNext (k : Nat) (p : AOp) (count : Nat) (s : State) (q : Nat) :
    qToks (tileAt (aNext k p count s) k) q = qToks (tileAt s k) q := by
  rw [aNext, tileAt_modTile_same]
  rfl

section Done
variable (k : Nat) (p : AOp) (count : Nat) (s u : State)

/-- After a position the operation goes on, or ends. -/
theorem position_next : (tileAt (groundPart s (aNext k p count u)) k).a =
    if count ≤ p.j + 1 then none else some { p with j := p.j + 1 } := by
  rw [tileAt_groundPart, aNext, tileAt_modTile_same]

/-- A position that takes a token of a queue leaves the tokens behind it. -/
theorem position_takes (q pa : Nat) (bs : List Byte) :
    qToks (tileAt (groundPart s (aNext k p count (poke (popTok k q u) pa bs))) k) q = (qToks (tileAt u k) q).tail := by
  rw [tileAt_groundPart, qToks_aNext, tileAt_poke, qToks_popTok_same]

/-- A token that a position sends is on its way. -/
theorem position_sends (o : Nat) (v : DataTok) :
    ∃ y ∈ (hoopAt (groundPart s (aNext k p count (sendTok k o false v u))) (noHoop k)).flight,
      y.src = k ∧ y.port = o ∧ y.ctrl = false ∧ y.val = v := by
  rw [hoopAt_groundPart, hoopAt_aNext]
  exact sendTok_onWay k o false v u

end Done

/-- A position that stores a unit of 64 B has it in its place, and writes no other byte. -/
theorem position_stores {site : Site} {c off pa q : Nat} {read : Bool} {bs : List Byte} {s u : State} (hlen : bs.length = 64)
    (hat : ownAt s c (siteNo site) off 64 read = .at_ pa) (hu : u.mem = (poke (popTok (siteNo site) q s) pa bs).mem)
    (p : AOp) (count : Nat) : let t := groundPart s (aNext (siteNo site) p count u)
    peek t pa 64 = bs ∧ ∀ b, b < pa ∨ pa + 64 ≤ b → Tab.get 0 t.mem b = Tab.get 0 s.mem b :=
  ownUnit_written hlen hat (by rw [groundPart_mem, aNext_mem, hu, poke_popTok_mem])

/-! ### A position (R204 to R206) -/

/-- Without the hazard detector an access that finds its place is made as it stands. -/
theorem aTouch_quiet {s : State} {c k off n pa : Nat} {read : Bool} (hat : ownAt s c k off n read = .at_ pa)
    (hquiet : s.dev.debug = false) (write atomic : Bool) (f : Nat → State → State) :
    aTouch k c off n read write atomic f s = f pa s := by
  unfold aTouch
  simp only [hat, guarded_quiet hquiet]

section Position
variable {k c : Nat} {p : AOp} {d pa : Nat} {s : State} (hd : adAt (tileAt s k) p.ad = d) (hquiet : s.dev.debug = false)
include hd hquiet

theorem stMove_stores {a : Token} (hmask : adMask d = false) (hhead : headOf (tileAt s k) p.queue = .tok a)
    (hat : ownAt s c k ((adAddr d + p.i * adInc d + p.j) * 64) 64 false = .at_ pa) :
    stMove k c p s = aNext k p (adCount d) (poke (popTok k p.queue s) pa (tokBytes a.val)) := by
  subst hd
  unfold stMove
  simp only [hmask, hhead, aTouch_quiet hat hquiet, Bool.not_false, if_true]
  rfl

theorem ldMove_sends (hmask : adMask d = false) (hcred : hasCredit (tileAt s k) p.out false = true)
    (hat : ownAt s c k ((adAddr d + p.i * adInc d + p.j) * 64) 64 true = .at_ pa) :
    ldMove k c p s = aNext k p (adCount d) (sendTok k p.out false (tokOf (peek s pa 64)) s) := by
  subst hd
  unfold ldMove
  simp only [hmask, hcred, aTouch_quiet hat hquiet, Bool.not_true, Bool.not_false, Bool.false_eq_true, if_true, if_false]
  rfl

theorem atomicMove_adds {a : Token} (hkind : p.kind = .aadd) (hhead : headOf (tileAt s k) p.queue = .tok a)
    (hat : ownAt s c k ((adAddr d + p.i * adInc d + p.j) * 64) 64 true = .at_ pa) :
    atomicMove k c p s = aNext k p (adCount d)
      (poke (popTok k p.queue s) pa (addUnits (adFmt d) (peek s pa 64) (tokBytes a.val))) := by
  subst hd
  unfold atomicMove
  simp only [hhead, hkind, aTouch_quiet hat hquiet, reduceCtorEq, decide_false, Bool.false_and, Bool.false_eq_true, if_true, if_false]

theorem atomicMove_swaps {a : Token} (hkind : p.kind = .aswap) (hhead : headOf (tileAt s k) p.queue = .tok a)
    (hcred : hasCredit (tileAt s k) p.out false = true)
    (hat : ownAt s c k ((adAddr d + p.i * adInc d + p.j) * 64) 64 true = .at_ pa) :
    atomicMove k c p s = aNext k p (adCount d)
      (sendTok k p.out false (tokOf (peek s pa 64)) (poke (popTok k p.queue s) pa (tokBytes a.val))) := by
  subst hd
  unfold atomicMove
  simp only [hhead, hkind, hcred, aTouch_quiet hat hquiet, reduceCtorEq, decide_true, Bool.not_true, Bool.and_false,
    Bool.false_eq_true, if_true, if_false]

end Position

/-- Elements of every format divide a unit of 64 B. -/
theorem fmtBytes_dvd_unit (fmt : Nat) : fmtBytes fmt ∣ 64 := by
  by_cases hlow : fmt < 11
  · exact (show ∀ fmt < 11, fmtBytes fmt ∣ 64 by decide) fmt hlow
  · have hnone : fmtOf fmt = none := by
      unfold fmtOf
      split <;> simp at hlow ⊢
    rw [fmtBytes, hnone]
    decide

theorem addUnits_length (fmt : Nat) (a b : List Byte) : (addUnits fmt a b).length = 64 := by
  unfold addUnits
  rw [List.length_flatMap]
  simp only [toLE_length, List.map_const', List.length_range, List.sum_replicate, smul_eq_mul]
  exact Nat.div_mul_cancel (fmtBytes_dvd_unit fmt)

/-! ### The statement -/

/-- Settles O30: the engine takes a step of each of its kinds, and a position of each is its stored unit, its sent token, or
both. -/
theorem engineStepsMoveTheirUnits : Obligations.EngineStepsMoveTheirUnits := by
  unfold Obligations.EngineStepsMoveTheirUnits
  constructor
  · intro site c st s h k x d hissued hidle p hp hopc hsound
    simp only [List.mem_cons, List.not_mem_nil, or_false] at hp
    obtain rfl | rfl | rfl | rfl := hp
    · exact aEngine_accepts h hissued hidle (kd := .st) (move := stMove) hopc rfl hsound
    · exact aEngine_accepts h hissued hidle (kd := .ld) (move := ldMove) hopc rfl hsound
    · exact aEngine_accepts h hissued hidle (kd := .aadd) (move := atomicMove) hopc rfl hsound
    · exact aEngine_accepts h hissued hidle (kd := .aswap) (move := atomicMove) hopc rfl hsound
  · intro site r p pa s k x d off next hrun hop hmask hquiet
    refine ⟨fun a hkind hhead hat => ?st, fun hkind hcred hat => ?ld, fun a hkind hhead hat => ?aadd,
      fun a hkind hhead hcred hat => ?aswap⟩
    case st =>
      refine ⟨_, aEngine_moves hrun hop hkind stMove, ?_⟩
      rw [stMove_stores rfl hquiet hmask hhead hat]
      obtain ⟨hread, hkept⟩ := position_stores (tokBytes_length a.val) hat (q := p.queue) rfl p (adCount d)
      exact ⟨hread, position_takes _ _ _ _ _ _ _ _, position_next _ _ _ _ _, hkept, popTok_ctxs _ _ _⟩
    case ld =>
      refine ⟨_, aEngine_moves hrun hop hkind ldMove, ?_⟩
      rw [ldMove_sends rfl hquiet hmask hcred hat]
      exact ⟨position_sends _ _ _ _ _ _ _, position_next _ _ _ _ _, by rw [groundPart_mem, aNext_mem, sendTok_mem],
        by rw [groundPart_ctxs, aNext_ctxs, sendTok_ctxs]⟩
    case aadd =>
      refine ⟨_, aEngine_moves hrun hop hkind atomicMove, ?_⟩
      rw [atomicMove_adds rfl hquiet hkind hhead hat]
      obtain ⟨hread, hkept⟩ := position_stores (addUnits_length _ _ _) hat (q := p.queue) rfl p (adCount d)
      exact ⟨hread, position_takes _ _ _ _ _ _ _ _, position_next _ _ _ _ _, hkept⟩
    case aswap =>
      refine ⟨_, aEngine_moves hrun hop hkind atomicMove, ?_⟩
      rw [atomicMove_swaps rfl hquiet hkind hhead hcred hat]
      obtain ⟨hread, hkept⟩ := position_stores (tokBytes_length a.val) hat (q := p.queue) (sendTok_mem k p.out false _ _) p (adCount d)
      obtain ⟨y, hy, hsrc, hport, -, hval⟩ := position_sends k p (adCount d) s (poke (popTok k p.queue s) pa (tokBytes a.val)) p.out
        (tokOf (peek s pa 64))
      exact ⟨hread, ⟨y, hy, hsrc, hport, hval⟩, position_next _ _ _ _ _, hkept⟩

end Sys2Proof.Machine
end

section
/-! O31: the stream windows of an A tile. -/

namespace Sys2Proof.Machine

theorem tileAt_setWin (k w : Nat) (x : Win) (s : State) :
    tileAt (setWin k w x s) k = { tileAt s k with wins := Tab.set Win.reset (tileAt s k).wins w x } := tileAt_modTile_same _ _ _

@[simp] theorem setWin_mem (k w : Nat) (x : Win) (s : State) : (setWin k w x s).mem = s.mem := rfl
@[simp] theorem hoopAt_setWin (k w : Nat) (x : Win) (s : State) (h : Nat) : hoopAt (setWin k w x s) h = hoopAt s h := rfl

theorem winAt_setWin (k w : Nat) (x : Win) (s : State) : winAt (tileAt (setWin k w x s) k) w = x := by
  rw [tileAt_setWin]
  exact Tab.get_set_same _ _ _ _

theorem qToks_setWin (k w : Nat) (x : Win) (s : State) (q : Nat) :
    qToks (tileAt (setWin k w x s) k) q = qToks (tileAt s k) q := by
  rw [tileAt_setWin]
  rfl

/-! ### Steps with an effect of their own -/

/-- Of what a step gives its unit only the state that it makes of this one matters. -/
theorem issue_congr {kd : Kind} {k c : Nat} {st : Stp} {free : Bool} {f g : State → State} {s : State} (hfg : f s = g s) :
    issue kd k c st free f s = issue kd k c st free g s := by
  unfold issue
  simp only [hfg]

/-- A step that occupies no unit fires after an effect that leaves its sequencer, its reload values and its queues alone. -/
theorem plainStep_fires_after {site : Site} {kd : Kind} {c : Nat} {st : Stp} {s u : State} (h : StandsOn site kd c st s)
    (hseq : (tileAt u (siteNo site)).seq = (tileAt s (siteNo site)).seq)
    (hcfg : (tileAt u (siteNo site)).cfg = (tileAt s (siteNo site)).cfg)
    (hqueues : (tileAt u (siteNo site)).queues = (tileAt s (siteNo site)).queues)
    (hend : st.flow = 4 → fenceOk (tileAt u (siteNo site)) kd = true) (v : BitVec 32) :
    Fired (siteNo site) st u (plainStep kd (siteNo site) c st true v u) := by
  have hcond : (true && (decide (st.flow ≠ 4) || fenceOk (tileAt u (siteNo site)) kd)) = true := by
    by_cases hf : st.flow = 4 <;> simp [hf, hend]
  obtain ⟨q, hq⟩ := Option.isSome_iff_exists.mp h.flows
  rw [plainStep, if_pos hcond]
  refine fire_fired (fun i hi => ?_) ((flowTo_congr hseq hcfg st).trans hq)
  rw [headOf_congr hqueues]
  exact h.sound i hi

/-! ### WIN ARM and WIN WAIT (R209, R210) -/

section Steps
variable {site : Site} {c : Nat} {st : Stp} {s : State} (h : StandsOn site .A c st s) (hopc : st.opc = 5)
  {w reg : Nat} (hw : fld st.args 0 2 = w) (hreg : swinReg (tileAt s (siteNo site)) w = reg) (hen : swEn reg = true)
include h hopc hw hreg hen

/-- WIN ARM arms an enabled window that is not moving tokens from its first unit, where its range lies within the bound. -/
theorem winArm_accepts (hissued : (tileAt s (siteNo site)).seq.issued = false) (harm : bitAt st.args 2 = false)
    (hstill : (winAt (tileAt s (siteNo site)) w).armed = false ∨ (winAt (tileAt s (siteNo site)) w).done = true)
    (hrange : (asAddr s c (siteNo site) (swBase reg * 64) (swLen reg * 64)).isSome = true) :
    Accepts (exec (.winArm site) s) .A (siteNo site) st s
      (setWin (siteNo site) w ⟨true, 0, decide (swLen reg = 0), ownClock s (siteNo site)⟩ s) := by
  subst hw hreg
  obtain ⟨pa, hpa⟩ := Option.isSome_iff_exists.mp hrange
  change Accepts (execWinArm site s) _ _ _ _ _
  rw [execWinArm, tileStep_stands h (by simp [hopc, harm])]
  dsimp only
  rw [issue_congr (g := setWin (siteNo site) (fld st.args 0 2)
    ⟨true, 0, decide (swLen (swinReg (tileAt s (siteNo site)) (fld st.args 0 2)) = 0), ownClock s (siteNo site)⟩) ?arms]
  case arms =>
    obtain hfree | hfree := hstill <;> simp [hen, hfree, armWindow, hpa]
  exact issue_accepts h hissued (by rw [tileAt_setWin]) (by rw [tileAt_setWin]) (by rw [tileAt_setWin])

/-- WIN WAIT fires once its window is complete, and its tile has then observed the window's accesses. -/
theorem winWait_fires (hwait : bitAt st.args 2 = true) (hdone : (winAt (tileAt s (siteNo site)) w).done = true)
    (hend : st.flow = 4 → fenceOk (tileAt s (siteNo site)) .A = true) :
    ∃ t, exec (.winWait site) s = .next t ∧ Fired (siteNo site) st (modTile (siteNo site) (fun t => { t with
      vc := Tab.set 0 t.vc (8192 + 4 * siteNo site + w) (t.epoch + 1) }) s) t := by
  subst hw hreg
  refine ⟨_, congrArg (ground · s) (tileStep_stands h (by simp [hopc, hwait]) _), Fired.groundPart ?_⟩
  simp only [hen, hdone, Bool.and_self, if_true]
  refine plainStep_fires_after h ?_ ?_ ?_ (fun hflow => ?_) plainCtl <;> rw [tileAt_modTile_same]
  exact hend hflow

end Steps

/-! ### A token through a window (R209) -/

/-- A window after one more of its units has moved. -/
def winMoved (reg : Nat) (w : Win) : Win := { w with moved := w.moved + 1, done := decide (swLen reg ≤ w.moved + 1) }

section Token
variable {site : Site} {window : Fin 4} {run : RunSt} {reg pa : Nat} {w : Win} {s : State}
  (hrun : runOf s (siteNo site) = some run) (hkind : kindOf (siteNo site) = .A)
  (hreg : swinReg (tileAt s (siteNo site)) window.val = reg) (hw : winAt (tileAt s (siteNo site)) window.val = w)
  (hen : swEn reg = true) (harmed : w.armed = true) (hleft : w.done = false) (hquiet : s.dev.debug = false)

include hrun hkind hreg hw hen harmed hleft hquiet

theorem windowToken_stores {a : Token} (hdir : swDirOut reg = false) (hsteps : stepsUseQ (tileAt s (siteNo site)) (swQp reg) = false)
    (hengine : engineHasQ (tileAt s (siteNo site)) (swQp reg) = false) (hdata : qCtrl (tileAt s (siteNo site)) (swQp reg) = false)
    (hqueue : qEn (tileAt s (siteNo site)) (swQp reg) = true) (hhead : headOf (tileAt s (siteNo site)) (swQp reg) = .tok a)
    (hat : ownAt s run.ctx (siteNo site) ((swBase reg + w.moved) * 64) 64 false = .at_ pa) :
    exec (.windowToken site window) s = .next (groundPart s (setWin (siteNo site) window.val (winMoved reg w)
      (poke (windowPop (siteNo site) (swQp reg) s) pa (tokBytes a.val)))) := by
  subst hreg hw
  change execWindowToken site window s = _
  unfold execWindowToken
  simp only [hrun, hkind, hen, harmed, hleft, hdir, hsteps, hengine, hdata, hqueue, hhead, hat, guarded_quiet hquiet, winMoved,
    Bool.not_true, Bool.not_false, Bool.or_self, Bool.false_eq_true, ne_eq, not_true, decide_false, if_false, ground_next]

theorem windowToken_sends (hdir : swDirOut reg = true) (hsteps : stepsUseO (tileAt s (siteNo site)) (fld (swQp reg) 0 2) = false)
    (hengine : engineHasO (tileAt s (siteNo site)) (fld (swQp reg) 0 2) = false)
    (hcred : hasCredit (tileAt s (siteNo site)) (fld (swQp reg) 0 2) false = true)
    (hat : ownAt s run.ctx (siteNo site) ((swBase reg + w.moved) * 64) 64 true = .at_ pa) :
    exec (.windowToken site window) s = .next (groundPart s (setWin (siteNo site) window.val (winMoved reg w)
      (sendTokVc (siteNo site) (fld (swQp reg) 0 2) false (tokOf (peek s pa 64)) [] s))) := by
  subst hreg hw
  change execWindowToken site window s = _
  unfold execWindowToken
  simp only [hrun, hkind, hen, harmed, hleft, hdir, hsteps, hengine, hcred, hat, guarded_quiet hquiet, winMoved,
    Bool.not_true, Bool.not_false, Bool.or_self, Bool.false_eq_true, ne_eq, not_true, decide_false, if_true, if_false, ground_next]

end Token

/-- A window that stores a unit of 64 B has it in its place, and writes no other byte. -/
theorem window_stores {site : Site} {c off pa : Nat} {read : Bool} {bs : List Byte} {s : State} (hlen : bs.length = 64)
    (hat : ownAt s c (siteNo site) off 64 read = .at_ pa) (w q : Nat) (x : Win) :
    let t := groundPart s (setWin (siteNo site) w x (poke (windowPop (siteNo site) q s) pa bs))
    peek t pa 64 = bs ∧ ∀ b, b < pa ∨ pa + 64 ≤ b → Tab.get 0 t.mem b = Tab.get 0 s.mem b :=
  ownUnit_written hlen hat (by rw [groundPart_mem, setWin_mem, poke, windowPop_mem])

/-! ### The statement -/

/-- Settles O31: WIN by its sub-operation, and a window's token by its direction. -/
theorem windowsMoveTokens : Obligations.WindowsMoveTokens := by
  unfold Obligations.WindowsMoveTokens
  constructor
  · intro site c st s h hopc k x w reg hissued hen
    exact ⟨fun harm hstill hrange => winArm_accepts h hopc rfl rfl hen hissued harm hstill hrange,
      fun hwait hdone hend => winWait_fires h hopc rfl rfl hen hwait hdone hend⟩
  · intro site window run pa s k x reg w off next hrun hkind hen harmed hleft hquiet
    constructor
    · intro a hdir hsteps hengine hdata hqueue hhead hat
      refine ⟨_, windowToken_stores hrun hkind rfl rfl hen harmed hleft hquiet hdir hsteps hengine hdata hqueue hhead hat, ?_⟩
      obtain ⟨hread, hkept⟩ := window_stores (tokBytes_length a.val) hat window.val (swQp reg) (winMoved reg w)
      refine ⟨?_, hread, ?_, hkept⟩
      · rw [tileAt_groundPart, winAt_setWin]
        rfl
      · rw [tileAt_groundPart, qToks_setWin, tileAt_poke, qToks_windowPop]
    · intro hdir hsteps hengine hcred hat
      refine ⟨_, windowToken_sends hrun hkind rfl rfl hen harmed hleft hquiet hdir hsteps hengine hcred hat, ?_⟩
      rw [tileAt_groundPart, hoopAt_groundPart, hoopAt_setWin, groundPart_mem, setWin_mem, sendTokVc_mem]
      obtain ⟨y, hy, hsrc, hport, -, hval⟩ := sendTokVc_onWay k (fld (swQp reg) 0 2) false (tokOf (peek s pa 64)) [] s
      exact ⟨winAt_setWin _ _ _ _, ⟨y, hy, hsrc, hport, hval⟩, rfl⟩

end Sys2Proof.Machine
end

section
/-! Streams of border tiles: what one holds after a stream of its tile has been set, and what a change of a border tile leaves. -/

namespace Sys2Proof.Machine

/-! ### One stream is set -/

theorem tileAt_modB_same (k : Nat) (f : BTile → BTile) (s : State) :
    tileAt (modB k f s) k = { tileAt s k with b := f (tileAt s k).b } :=
  tileAt_modTile_same _ _ _

theorem tileAt_modB_other {k j : Nat} (f : BTile → BTile) (s : State) (h : j ≠ k) : tileAt (modB k f s) j = tileAt s j :=
  tileAt_modTile_other _ _ h

theorem tileAt_setStream_same (k n : Nat) (x : Stream) (s : State) : tileAt (setStream k n x s) k = { tileAt s k with
    b := { (tileAt s k).b with streams := Tab.set Stream.reset (tileAt s k).b.streams n x } } :=
  tileAt_modB_same _ _ _

theorem tileAt_setStream_other {k j : Nat} (n : Nat) (x : Stream) (s : State) (h : j ≠ k) :
    tileAt (setStream k n x s) j = tileAt s j :=
  tileAt_modB_other _ _ h

theorem streamAt_setStream (k n : Nat) (x : Stream) (s : State) (i : Nat) :
    streamAt (tileAt (setStream k n x s) k) i = if i = n then x else streamAt (tileAt s k) i := by
  rw [tileAt_setStream_same]
  exact Tab.get_set _ _ _ _ _

@[simp] theorem streamAt_setStream_same (k n : Nat) (x : Stream) (s : State) :
    streamAt (tileAt (setStream k n x s) k) n = x := by
  rw [streamAt_setStream, if_pos rfl]

/-! ### What a change of border tiles leaves -/

@[simp] theorem modB_mem (k : Nat) (f : BTile → BTile) (s : State) : (modB k f s).mem = s.mem := rfl
@[simp] theorem setStream_mem (k n : Nat) (x : Stream) (s : State) : (setStream k n x s).mem = s.mem := rfl

/-- A state without its tiles. -/
def tilesOff (s : State) : State := { s with tiles := [] }

@[simp] theorem tilesOff_modB (k : Nat) (f : BTile → BTile) (s : State) : tilesOff (modB k f s) = tilesOff s := rfl
@[simp] theorem tilesOff_setStream (k n : Nat) (x : Stream) (s : State) : tilesOff (setStream k n x s) = tilesOff s := rfl

/-- What does not depend on the tiles is the same in states that differ in their tiles alone. -/
theorem keeps_of_tilesOff {α : Type} {g : State → α} {s u : State} (h : tilesOff u = tilesOff s) (hg : ∀ v, g (tilesOff v) = g v) :
    g u = g s := by
  rw [← hg u, h, hg]

theorem tilesOff_startWalk (k c n va access : Nat) (s : State) : tilesOff (startWalk k c n va access s) = tilesOff s := by
  unfold startWalk
  dsimp only
  split
  · rfl
  · split <;> rfl

/-- A stream whose walk begins, or is tried again later, keeps its fault id and is ISSUING where it was. -/
theorem streamAt_startWalk {k n : Nat} (c va access : Nat) {s : State} (h : (streamAt (tileAt s k) n).st = .issuing) :
    (streamAt (tileAt (startWalk k c n va access s) k) n).st = .issuing ∧
      (streamAt (tileAt (startWalk k c n va access s) k) n).faultId = (streamAt (tileAt s k) n).faultId := by
  unfold startWalk
  dsimp only
  split
  · rw [streamAt_setStream_same]; exact ⟨rfl, rfl⟩
  · split
    · exact ⟨h, rfl⟩
    · rw [streamAt_setStream_same]; exact ⟨rfl, rfl⟩

theorem tileAt_startWalk_other {k j : Nat} (c n va access : Nat) (s : State) (h : j ≠ k) :
    tileAt (startWalk k c n va access s) j = tileAt s j := by
  unfold startWalk
  dsimp only
  split
  · rw [tileAt_setStream_other _ _ _ h, tileAt_modB_other _ _ h]
  · split
    · rfl
    · rw [tileAt_setStream_other _ _ _ h, tileAt_modB_other _ _ h]

end Sys2Proof.Machine
end

section
/-! Streams of border tiles: what their completion changes, and what writes that leave for their controllers leave. -/

namespace Sys2Proof.Machine

@[simp] theorem hoopAt_modB (k : Nat) (f : BTile → BTile) (s : State) (h : Nat) : hoopAt (modB k f s) h = hoopAt s h := rfl
@[simp] theorem hoopAt_setStream (k n : Nat) (x : Stream) (s : State) (h : Nat) : hoopAt (setStream k n x s) h = hoopAt s h := rfl

/-! ### Completion (R236, R246) -/

/-- The done token of a stream. -/
def doneTokens (d n : Nat) : List (Bool × DataTok) := if sdDone d then [(true, BitVec.ofNat 512 (0x80000000 + n))] else []

/-- A stream once it is COMPLETE. -/
def completed (d n : Nat) (x : Stream) : Stream := { x with st := .complete, out := x.out ++ doneTokens d n }

/-- A completion sets the stream; beyond that it changes contexts alone. -/
theorem completeStream_keeps {α : Type} (g : State → α) (hctx : ∀ c f u, g (modCtx c f u) = g u) (k c n : Nat) (x : Stream) (s : State) :
    g (completeStream k c n x s) = g (setStream k n (completed (sdAt (tileAt s k) n) n x) s) := by
  unfold completeStream
  dsimp only
  split
  · rfl
  · exact ctxFlags_keeps g hctx _ _ _ _

@[simp] theorem completeStream_mem (k c n : Nat) (x : Stream) (s : State) : (completeStream k c n x s).mem = s.mem :=
  completeStream_keeps State.mem (fun _ _ _ => rfl) k c n x s

@[simp] theorem completeStream_net (k c n : Nat) (x : Stream) (s : State) : (completeStream k c n x s).net = s.net :=
  completeStream_keeps State.net (fun _ _ _ => rfl) k c n x s

theorem tileAt_completeStream (k c n : Nat) (x : Stream) (s : State) (j : Nat) :
    tileAt (completeStream k c n x s) j = tileAt (setStream k n (completed (sdAt (tileAt s k) n) n x) s) j :=
  completeStream_keeps (tileAt · j) (fun _ _ _ => rfl) k c n x s

@[simp] theorem streamAt_completeStream_same (k c n : Nat) (x : Stream) (s : State) :
    streamAt (tileAt (completeStream k c n x s) k) n = completed (sdAt (tileAt s k) n) n x := by
  rw [tileAt_completeStream, streamAt_setStream_same]

/-! ### Writes that leave for their controllers (R27, R231) -/

/-- Writes on a way that are performed change memory and the writes on their way alone. -/
theorem settleWay_keeps {α : Type} (g : State → α) (hpoke : ∀ a bs u, g (poke u a bs) = g u) (hnet : ∀ f u, g (modNet f u) = g u)
    (w : HbmWrite) (m : Nat) (s : State) : g (settleWay w m s) = g s := by
  induction m generalizing s with
  | zero => rfl
  | succ m ih =>
    unfold settleWay
    split
    · split
      · exact (ih _).trans ((hnet _ _).trans (hpoke _ _ _))
      · rfl
    · rfl

theorem putWrite_keeps {α : Type} (g : State → α) (hpoke : ∀ a bs u, g (poke u a bs) = g u) (hnet : ∀ f u, g (modNet f u) = g u)
    (k c : Nat) (r : StreamReq) (s : State) : g (putWrite k c r s) = g s :=
  (settleWay_keeps g hpoke hnet _ _ _).trans (hnet _ _)

@[simp] theorem tileAt_putWrite (k c : Nat) (r : StreamReq) (s : State) (j : Nat) : tileAt (putWrite k c r s) j = tileAt s j :=
  putWrite_keeps (tileAt · j) (fun _ _ _ => rfl) (fun _ _ => rfl) k c r s

/-! ### Entries of the merge buffer (R244) -/

/-- A request once its entry of the merge buffer has been issued. -/
def issuedReq (id : Nat) (g : Bool × Nat) (r : StreamReq) : StreamReq := if inGroup g r then { r with merge := false, grp := id } else r

/-- A stream once an entry of the merge buffer has been issued. -/
def issuedStream (id : Nat) (g : Bool × Nat) (x : Stream) : Stream := { x with reqs := x.reqs.map (issuedReq id g) }

/-- The request that an entry of the merge buffer becomes. -/
def groupId (t : Tile) (g : Bool × Nat) : Nat := ((((mergeWaiting t).filter (inGroup g)).head?).map (·.wid)).getD 0

theorem streamAt_map (f : Stream → Stream) (hf : f Stream.reset = Stream.reset) (m : Tab Stream) (n : Nat) :
    Tab.get Stream.reset (m.map fun p => (p.1, f p.2)) n = f (Tab.get Stream.reset m n) := by
  induction m with
  | nil => exact hf.symm
  | cons p m ih =>
    simp only [List.map_cons, Tab.get]
    split
    · rfl
    · exact ih

/-- The issue of an entry changes the tile, memory and the writes on their way. -/
theorem issueGroup_keeps {α : Type} (f : State → α) (hpoke : ∀ a bs u, f (poke u a bs) = f u) (hnet : ∀ h u, f (modNet h u) = f u)
    (htile : ∀ h u, f (modB k h u) = f u) (c : Nat) (g : Bool × Nat) (s : State) : f (issueGroup k c g s) = f s := by
  unfold issueGroup
  dsimp only
  split
  · exact (htile _ _).trans (htile _ _)
  · exact (foldl_keeps f _ (fun u r => putWrite_keeps f hpoke hnet k c r u) _ _).trans ((htile _ _).trans (htile _ _))

/-- The tile once an entry of its merge buffer has been issued: its requests have left, and the request is counted. -/
theorem tileAt_issueGroup (k c : Nat) (g : Bool × Nat) (s : State) :
    tileAt (issueGroup k c g s) k = tileAt (countReq k g.1 (covered ((mergeWaiting (tileAt s k)).filter (inGroup g)))
      (modB k (fun b => { b with streams := b.streams.map fun p => (p.1, issuedStream (groupId (tileAt s k) g) g p.2) }) s)) k := by
  unfold issueGroup
  dsimp only
  split
  · rfl
  · exact foldl_keeps (tileAt · k) _ (fun u r => tileAt_putWrite k c r u k) _ _

theorem streamAt_countReq (k : Nat) (isRead : Bool) (m : Nat) (s : State) (n : Nat) :
    streamAt (tileAt (countReq k isRead m s) k) n = streamAt (tileAt s k) n := by
  rw [countReq, tileAt_modB_same]
  rfl

theorem streamAt_issueGroup (k c : Nat) (g : Bool × Nat) (s : State) (n : Nat) :
    streamAt (tileAt (issueGroup k c g s) k) n = issuedStream (groupId (tileAt s k) g) g (streamAt (tileAt s k) n) := by
  rw [tileAt_issueGroup, streamAt_countReq, tileAt_modB_same]
  exact streamAt_map _ rfl _ _

/-! ### Tokens taken -/

theorem tileAt_windowPop_b (k q : Nat) (s : State) : (tileAt (windowPop k q s) k).b = (tileAt s k).b := by
  unfold windowPop unlearned
  rw [tileAt_modTile_same, tileAt_popTok, if_pos rfl]
  exact congrArg (·.b) (tileTokensOff_popped _ _)

end Sys2Proof.Machine
end

section
/-! O5: MEM_MAP, XLATE_RESOLVE, CHAN_CREATE, KNOT_INIT and SYNC_DUMP. -/

namespace Sys2Proof.Machine

/-! ### A command that ends, in what it leaves of the fabric -/

/-- An untagged command that ends leaves memory, contexts and tiles as its own effect does. -/
theorem untagged_done {h : Hdr} {c : HostCmd} {s u : State} {st : Status} {r : Nat} (hr : Untagged c.gen h s)
    (href : c.refused s = false) (hb : c.badArgs (cmdEnv h s) s = false)
    (hrun : c.run (cmdEnv h s) (taken h c.opcode s) = .done st r u) :
    ∃ t, hostCommand h c s = .next t ∧ t.mem = u.mem ∧ t.ctxs = u.ctxs ∧ t.tiles = u.tiles := by
  rw [hostCommand_runs hr.spelled hr.ready hr.slot hr.alone (preCheck_untagged hr href hb)]
  have hrun' : c.run (cmdEnv h s) (journalPut ⟨(cmdEnv h s).seq, (cmdEnv h s).session, c.opcode, (cmdEnv h s).txnId, .accepted,
    false, false, (cmdEnv h s).tag, s.stitch.count, 0⟩ s) = .done st r u := hrun
  simp only [runCmd, hrun', ctl_next]
  refine ⟨_, rfl, ?_⟩
  rw [ctlPart_mem, ctlPart_ctxs, ctlPart_tiles]
  change (post (.ring h.port.val h.ring.val) _ _ _ _ _ _).mem = _ ∧ (post (.ring h.port.val h.ring.val) _ _ _ _ _ _).ctxs = _ ∧
    (post (.ring h.port.val h.ring.val) _ _ _ _ _ _).tiles = _
  rw [post_ring_eq]
  exact ⟨rfl, rfl, rfl⟩

/-- `untagged_ok` with the command's opcode as a number of its own, so that its effect is not compared with itself to find it. -/
theorem untagged_ok_of_opcode {h : Hdr} {c : HostCmd} {s u : State} {op r : Nat} (hop : c.opcode = op) (hr : Untagged c.gen h s)
    (href : c.refused s = false) (hb : c.badArgs (cmdEnv h s) s = false) (hrun : c.run (cmdEnv h s) (taken h op s) = .done .ok r u)
    (hring : ringOf h u = ringOf h s) (hj : u.logs.journal = (taken h op s).logs.journal) (hq : u.logs.seq = s.logs.seq + 1) :
    ∃ t, hostCommand h c s = .next t ∧ Answered h op .ok r s t ∧ t = { u with
      pending := s.pending, trust := s.trust, pins := s.pins
      logs := { u.logs with journal := t.logs.journal }, host := t.host, ports := t.ports } := by
  subst hop
  exact untagged_ok hr href hb hrun hring hj hq

/-- A command finds memory and contexts as they were before it was taken. -/
theorem samePlaces_taken (h : Hdr) (op : Nat) (s : State) : SamePlaces s (taken h op s) := ⟨rfl, rfl, rfl, rfl, rfl⟩

theorem isFree_taken {h : Hdr} {s : State} {c : Nat} (op : Nat) (hst : ctxSt s c ≠ .free) : isFree (taken h op s) c = false := by
  rw [isFree, ctxSt_same (samePlaces_taken h op s)]
  exact decide_eq_false hst

/-! ### MEM_MAP (R257, R428) -/

section Places
variable {s u : State} (h : SamePlaces s u)
include h

theorem pageMapped_same (c : Nat) (big : Bool) (va : Nat) : pageMapped u c big va = pageMapped s c big va := by
  have hget : ptGet u = ptGet s := by
    funext c t i
    unfold ptGet ptEntry
    rw [ueAt_same h, peekNum_same h]
  have hmapped : @pageMapped = @pageMapped := rfl
  conv_rhs at hmapped => delta pageMapped
  rw [hmapped]
  beta_reduce
  rw [hget]

theorem changesMap_same (c : Nat) (f : BitVec 8) (count va : Nat) : changesMap u c f count va = changesMap s c f count va := by
  unfold changesMap
  simp only [pageMapped_same h]

theorem underSweep_same (c : Nat) (f : BitVec 8) (count va : Nat) : underSweep u c f count va = underSweep s c f count va := by
  have hreg : dnReg u = dnReg s := by
    funext c n
    unfold dnReg
    rw [ctxAt_same h]
  have hva : hbmVa u c = hbmVa s c := funext₂ (hbmVa_same h c)
  unfold underSweep sweepAt dnRegions dnNblk
  rw [ctxAt_same h, hreg, hva]

end Places

section MemMap
variable {h : Hdr} {ctx mflags : BitVec 8} {count : BitVec 32} {va pa : BitVec 64} {s : State}

theorem memMap_args (hctx : badCtx ctx = false) (hflags : mflags.toNat ≤ 7) (hva : va.toNat % mfSize mflags = 0)
    (hend : va.toNat + count.toNat * mfSize mflags ≤ 2 ^ 48)
    (hpa : mfUnmap mflags = true ∨ pa.toNat % mfSize mflags = 0 ∧ badPages pa.toNat count.toNat (mfSize mflags) = false) :
    (cmdMemMap ctx mflags count va pa).badArgs (cmdEnv h s) s = false := by
  have hflags' : ¬ 7 < mflags.toNat := by omega
  have hend' : ¬ 2 ^ 48 < va.toNat + count.toNat * mfSize mflags := by omega
  rcases hpa with hun | ⟨hal, hbad⟩
  · simp only [cmdMemMap, hctx, hflags', hva, hend', hun]; simp
  · simp only [cmdMemMap, hctx, hflags', hva, hend', hal, hbad]; simp

/-- Pages that hold no mapping are mapped at once. -/
theorem memMap_runs_new {u : State} (hst : ctxSt s ctx.toNat ≠ .free)
    (hnew : changesMap s ctx.toNat mflags count.toNat va.toNat = false)
    (hmap : mapPages ctx.toNat mflags count.toNat va.toNat pa.toNat (taken h 0x12 s) = .ok u) :
    (cmdMemMap ctx mflags count va pa).run (cmdEnv h s) (taken h 0x12 s) = .done .ok 0 u := by
  have hfree : isFree (taken h 0x12 s) ctx.toNat = false := isFree_taken _ hst
  have hkeep := changesMap_same (samePlaces_taken h 0x12 s) ctx.toNat mflags count.toNat va.toNat
  simp only [cmdMemMap, hfree, hkeep, hnew, mapNow, hmap, Bool.false_eq_true, if_false]

/-- A change of a mapping is left to wait for the boundary. -/
theorem memMap_runs_change {u : State} (hst : ctxSt s ctx.toNat ≠ .free)
    (hchange : changesMap s ctx.toNat mflags count.toNat va.toNat = true)
    (hclear : underSweep s ctx.toNat mflags count.toNat va.toNat = false)
    (hmap : mapPages ctx.toNat mflags count.toNat va.toNat pa.toNat (taken h 0x12 s) = .ok u) :
    (cmdMemMap ctx mflags count va pa).run (cmdEnv h s) (taken h 0x12 s) =
      .later (.mapChange ctx.toNat mflags count.toNat va.toNat pa.toNat) (taken h 0x12 s) := by
  have hfree : isFree (taken h 0x12 s) ctx.toNat = false := isFree_taken _ hst
  have hkeep := changesMap_same (samePlaces_taken h 0x12 s) ctx.toNat mflags count.toNat va.toNat
  have hsweep := underSweep_same (samePlaces_taken h 0x12 s) ctx.toNat mflags count.toNat va.toNat
  simp only [cmdMemMap, hfree, hkeep, hchange, hsweep, hclear, hmap, Bool.false_eq_true, if_false, if_true]

end MemMap

/-! ### XLATE_RESOLVE (R259) -/

theorem tilesOff_walkAgain (c k n : Nat) (s : State) : tilesOff (walkAgain c k n s) = tilesOff s := by
  unfold walkAgain
  dsimp only
  split
  · rw [tilesOff_startWalk, tilesOff_setStream]
  · rfl

theorem streamAt_walkAgain (c k n : Nat) (s : State) : (streamAt (tileAt (walkAgain c k n s) k) n).st = .issuing ∧
    (streamAt (tileAt (walkAgain c k n s) k) n).faultId = 0 := by
  unfold walkAgain
  dsimp only
  split
  · next va access hva =>
    have hset := streamAt_setStream_same k n { streamAt (tileAt s k) n with st := .issuing, waitVa := none, faultId := 0 } s
    obtain ⟨hst, hid⟩ := streamAt_startWalk c va access (k := k) (n := n)
      (s := setStream k n { streamAt (tileAt s k) n with st := .issuing, waitVa := none, faultId := 0 } s) (by rw [hset])
    exact ⟨hst, hid.trans (by rw [hset])⟩
  · rw [streamAt_setStream_same]
    exact ⟨rfl, rfl⟩

theorem tileAt_walkAgain_other (c n : Nat) (s : State) {k j : Nat} (hj : j ≠ k) : tileAt (walkAgain c k n s) j = tileAt s j := by
  unfold walkAgain
  dsimp only
  split
  · rw [tileAt_startWalk_other _ _ _ _ _ hj, tileAt_setStream_other _ _ _ hj]
  · rw [tileAt_setStream_other _ _ _ hj]

/-! ### CHAN_CREATE (R282, R426) -/

section ChanCreate
variable {h : Hdr} {ctx cfl ringLog2 ringHoop ringTile : BitVec 8} {chan peerMod peerChan : BitVec 16}
  {sender receiver : BitVec 32} {ringBase : BitVec 64} {s : State}

theorem chanCreate_args (hctx : badCtx ctx = false) (hflags : cfl.toNat ≤ 7) (hhalf : cfl.toNat % 4 ≠ 3) (hchan : chan.toNat < 4096)
    (hsender : cfl.toNat % 4 ≠ 2 → sender.toNat < 2 ^ 11) (hreceiver : cfl.toNat % 4 ≠ 1 → receiver.toNat < 2 ^ 11)
    (hpeer : cfl.toNat % 4 ≠ 0 → peerMod.toNat < 2 ^ 14 ∧ peerChan.toNat < 4096)
    (hring : cfl.toNat % 4 ≠ 1 → ringLog2.toNat ≤ 16 ∧
      ringFits s ctx.toNat (cfl.getLsbD 2) ringHoop.toNat ringTile.toNat ringBase.toNat (64 * 2 ^ ringLog2.toNat) = true ∧
      (cfl.getLsbD 2 = true ∨ isSelvedge receiver = true ∨ receiver.toNat % 8 = ringHoop.toNat)) :
    (cmdChanCreate ctx cfl chan ringLog2 ringHoop ringTile sender receiver ringBase peerMod peerChan).badArgs (cmdEnv h s) s =
      false := by
  have hplace : cfl.toNat % 4 ≠ 1 → cfl.getLsbD 2 = false → isSelvedge receiver = false → receiver.toNat % 8 = ringHoop.toNat := by
    intro hne hhbm hselv
    obtain ⟨-, -, hplace⟩ := hring hne
    rcases hplace with h | h | h
    · exact absurd (h.symm.trans hhbm) (by decide)
    · exact absurd (h.symm.trans hselv) (by decide)
    · exact h
  simpa [cmdChanCreate, hctx] using ⟨⟨⟨⟨⟨⟨hflags, hhalf⟩, hchan⟩, hsender⟩, hreceiver⟩, hpeer⟩,
    fun hne => ⟨⟨(hring hne).1, (hring hne).2.1⟩, hplace hne⟩⟩

end ChanCreate

/-! ### KNOT_INIT (R427, R547) -/

theorem answerWaiters_none {pa : Nat} {s : State} (h : waitersAt s pa = []) : answerWaiters pa s = setWaiters pa [] s := by
  unfold answerWaiters
  rw [h]
  rfl

/-- A word written over a knot for which none waits, or that it leaves empty, changes memory, and the knot's waiters at most. -/
theorem initKnots_one {word pa : Nat} {s : State} (hue : mergeUe s pa 8 = none)
    (hquiet : knFull word = false ∨ Tab.get [] s.net.waiters pa = []) :
    ∃ ws, initKnots word [pa] s = (true, { poke s pa (toLE 8 word) with net := { s.net with waiters := ws } }) := by
  have hinit : initKnots word [pa] s = (true, if knFull word then answerWaiters pa (poke s pa (toLE 8 word))
      else poke s pa (toLE 8 word)) := by
    simp only [initKnots, hue]
  rw [hinit]
  by_cases hfull : knFull word = true
  · have hnone : waitersAt (poke s pa (toLE 8 word)) pa = [] := hquiet.resolve_left (by simp [hfull])
    rw [if_pos hfull, answerWaiters_none hnone]
    exact ⟨_, rfl⟩
  · rw [if_neg hfull]
    exact ⟨_, rfl⟩

section KnotInit
variable {h : Hdr} {ctx : BitVec 8} {kaddr word : BitVec 64} {pa : Nat} {s : State}

theorem knotsAt_one (c : Nat) (ka : KAddr) (s : State) : knotsAt s c ka 1 = [knotAt s c 0 ka true] := rfl

theorem knotInit_args (hctx : badCtx ctx = false) (hbad : (kaddrOf kaddr.toNat).bad = false)
    (hremote : (kaddrOf kaddr.toNat).remote = false) (hword : fld word.toNat 56 5 = 0)
    (hsync : inSync s ctx.toNat (kaddrOf kaddr.toNat) (kaddrOf kaddr.toNat).off = true)
    (hat : knotAt s ctx.toNat 0 (kaddrOf kaddr.toNat) true = .at_ pa) :
    (cmdKnotInit ctx 1 kaddr word).badArgs (cmdEnv h s) s = false := by
  have hone : (1 : BitVec 32).toNat = 1 := rfl
  have hnone : [knotAt s ctx.toNat 0 (kaddrOf kaddr.toNat) true].find? (fun a => a.pa?.isNone) = none := by
    rw [hat]
    rfl
  have h10 : ¬ (1 : BitVec 32) = 0 := by decide
  simp only [cmdKnotInit, hctx, hbad, hremote, hword, hsync, hone, knotsAt_one, hnone, h10, Nat.sub_self, Nat.mul_zero, Nat.add_zero,
    decide_false, Bool.or_false, Bool.not_true, ne_eq, not_true]

theorem knotInit_runs (hst : ctxSt s ctx.toNat ≠ .free) (hat : knotAt s ctx.toNat 0 (kaddrOf kaddr.toNat) true = .at_ pa)
    (hue : mergeUe s pa 8 = none)
    (hquiet : knFull (setFld word.toNat 61 2 0) = false ∨ Tab.get [] s.net.waiters pa = []) :
    ∃ ws, (cmdKnotInit ctx 1 kaddr word).run (cmdEnv h s) (taken h 0x31 s) = .done .ok 0
      { poke (taken h 0x31 s) pa (toLE 8 (setFld word.toNat 61 2 0)) with net := { s.net with waiters := ws } } := by
  have hsame := samePlaces_taken h 0x31 s
  obtain ⟨ws, hinit⟩ := initKnots_one (s := taken h 0x31 s) (pa := pa) (word := setFld word.toNat 61 2 0)
    (by rw [mergeUe_same hsame]; exact hue) hquiet
  have hone : (1 : BitVec 32).toNat = 1 := rfl
  have hnone : [HbmAt.at_ pa].find? (fun a => a.pa?.isNone) = none := rfl
  have hpas : [HbmAt.at_ pa].filterMap HbmAt.pa? = [pa] := rfl
  refine ⟨ws, ?_⟩
  simp only [cmdKnotInit, isFree_taken _ hst, hone, knotsAt_one, knotAt_same hsame, hat, hnone, hpas, hinit, Bool.false_eq_true,
    if_false]
  rfl

end KnotInit

/-! ### SYNC_DUMP (R429, R547) -/

theorem syncDump_args {h : Hdr} {ctx : BitVec 8} {len : BitVec 32} {pa : BitVec 64} {s : State}
    (hctx : badCtx ctx = false ∧ ctxSt s ctx.toNat ≠ .free ∨ ctx = 0xFF) (hlen : 32 ≤ len.toNat)
    (hfits : dumpFits pa.toNat len.toNat = true) : (cmdSyncDump ctx len pa).badArgs (cmdEnv h s) s = false := by
  have hlen' : ¬ len.toNat < 32 := by omega
  rcases hctx with ⟨hctx, -⟩ | rfl
  · simp only [cmdSyncDump, hctx, hlen', hfits]; simp
  · simp only [cmdSyncDump, hlen', hfits]; simp

theorem syncDump_runs {h : Hdr} {ctx : BitVec 8} {len : BitVec 32} {pa : BitVec 64} {s : State} {begins : List Byte}
    {dump : List Byte × Bool} {cs : List Nat}
    (hctx : badCtx ctx = false ∧ ctxSt s ctx.toNat ≠ .free ∨ ctx = 0xFF)
    (hbegins : begins = toLE 1 ctx.toNat ++ toLE 4 0 ++ [0xFF, 0xFF, 0xFF] ++ toLE 2 0xFFFF ++ toLE 6 0)
    (hcs : cs = if ctx = 0xFF then softCtxs else [ctx.toNat])
    (hdump : dump = dumpBytes (taken h 0x40 s) (if ctx = 0xFF then 0 else ctx.toNat) len.toNat
      (syncItems (taken h 0x40 s) ctx.toNat cs begins))
    (hsound : syncStop (taken h 0x40 s) ctx.toNat cs begins = none)
    (hfits : (writeUntil (codewords pa.toNat dump.1) (taken h 0x40 s)).1 = true) :
    (cmdSyncDump ctx len pa).run (cmdEnv h s) (taken h 0x40 s) = .done .ok (dump.1.length + dump.2.toNat * 2 ^ 32)
      (writeUntil (codewords pa.toNat dump.1) (taken h 0x40 s)).2 := by
  have hfree : (decide (ctx ≠ 0xFF) && isFree (taken h 0x40 s) ctx.toNat) = false := by
    rcases hctx with ⟨-, hst⟩ | rfl
    · rw [isFree_taken _ hst, Bool.and_false]
    · rfl
  subst hbegins hcs
  simp only [cmdSyncDump, hfree, hsound, ← hdump, Bool.false_eq_true, if_false]
  generalize writeUntil (codewords pa.toNat dump.1) (taken h 0x40 s) = w at hfits ⊢
  obtain ⟨ok, u⟩ := w
  subst hfits
  rfl

/-! ### Each command ends -/

theorem xlateResolve_ends {h : Hdr} {ctx : BitVec 8} {faultId : BitVec 16} {k n : Nat} {s : State} (hr : Untagged 2 h s)
    (hctx : badCtx ctx = false) (hst : ctxSt s ctx.toNat ≠ .free) (hparked : parkedUnder s ctx.toNat faultId.toNat = some (k, n)) :
    Ends (exec (.xlateResolve h ctx faultId) s) h 0x13 .ok 0 s fun t =>
      (streamAt (tileAt t k) n).st = .issuing ∧ (streamAt (tileAt t k) n).faultId = 0 ∧ t.mem = s.mem ∧
      ∀ j, j ≠ k → tileAt t j = tileAt s j := by
  have hparked' : parkedUnder (taken h 0x13 s) ctx.toNat faultId.toNat = some (k, n) := hparked
  have hargs : (cmdXlateResolve ctx faultId).badArgs (cmdEnv h s) s = false := by
    simp [cmdXlateResolve, hctx, hparked]
  have hrun : (cmdXlateResolve ctx faultId).run (cmdEnv h s) (taken h 0x13 s) =
      .done .ok 0 (walkAgain ctx.toNat k n (taken h 0x13 s)) := by
    simp [cmdXlateResolve, isFree_taken _ hst, hparked']
  have hoff := tilesOff_walkAgain ctx.toNat k n (taken h 0x13 s)
  obtain ⟨t, hnext, hans, ht⟩ := untagged_ok (c := cmdXlateResolve ctx faultId) hr rfl hargs hrun
    ((keeps_of_tilesOff (g := ringOf h) hoff fun _ => rfl).trans rfl)
    (keeps_of_tilesOff (g := (·.logs.journal)) hoff fun _ => rfl)
    ((keeps_of_tilesOff (g := (·.logs.seq)) hoff fun _ => rfl).trans rfl)
  have htile (j : Nat) : tileAt t j = tileAt (walkAgain ctx.toNat k n (taken h 0x13 s)) j := by rw [ht]; rfl
  have hmem : t.mem = (walkAgain ctx.toNat k n (taken h 0x13 s)).mem := by rw [ht]
  obtain ⟨hissuing, hid⟩ := streamAt_walkAgain ctx.toNat k n (taken h 0x13 s)
  refine ⟨t, hnext, hans, by rw [htile, hissuing], by rw [htile, hid], ?_, fun j hj => ?_⟩
  · rw [hmem]
    exact (keeps_of_tilesOff (g := (·.mem)) hoff fun _ => rfl).trans rfl
  · rw [htile, tileAt_walkAgain_other _ _ _ hj]
    rfl

/-- A channel that is written anew reads as it was written, and every other as before. -/
theorem chanCreate_ends {h : Hdr} {ctx cfl ringLog2 ringHoop ringTile : BitVec 8} {chan peerMod peerChan : BitVec 16}
    {sender receiver : BitVec 32} {ringBase : BitVec 64} {s : State} (hr : Untagged 2 h s)
    (hargs : (cmdChanCreate ctx cfl chan ringLog2 ringHoop ringTile sender receiver ringBase peerMod peerChan).badArgs (cmdEnv h s) s =
      false) (hst : ctxSt s ctx.toNat ≠ .free) (hclosed : (chanAt s chan.toNat).st = .closed) :
    Ends (exec (.chanCreate h ctx cfl chan ringLog2 ringHoop ringTile sender receiver ringBase peerMod peerChan) s) h 0x30 .ok 0 s
      fun t =>
        (chanAt t chan.toNat).st = .opened ∧ (chanAt t chan.toNat).ctx = ctx.toNat ∧
        (chanAt t chan.toNat).half = [3, 1, 2].getD (cfl.toNat % 4) 3 ∧ (chanAt t chan.toNat).tail = 0 ∧
        (chanAt t chan.toNat).head = 0 ∧ (chanAt t chan.toNat).sender = sender ∧ (chanAt t chan.toNat).receiver = receiver ∧
        ∀ n, n ≠ chan.toNat → chanAt t n = chanAt s n := by
  have hclosed' : (chanAt (taken h 0x30 s) chan.toNat).st = .closed := hclosed
  obtain ⟨x, ⟨hopened, hctx, hhalf, htail, hhead, hsender, hreceiver⟩, hrun⟩ : ∃ x : Chan, (x.st = .opened ∧ x.ctx = ctx.toNat ∧
      x.half = [3, 1, 2].getD (cfl.toNat % 4) 3 ∧ x.tail = 0 ∧ x.head = 0 ∧ x.sender = sender ∧ x.receiver = receiver) ∧
      (cmdChanCreate ctx cfl chan ringLog2 ringHoop ringTile sender receiver ringBase peerMod peerChan).run (cmdEnv h s)
        (taken h 0x30 s) = .done .ok 0 (modChan chan.toNat (fun _ => x) (taken h 0x30 s)) := by
    refine ⟨?_, ?_, ?_⟩
    rotate_left 2
    · simp only [cmdChanCreate, isFree_taken _ hst, hclosed', ne_eq, not_true, decide_false, Bool.or_self, Bool.false_eq_true,
        if_false]
      rfl
    · exact ⟨rfl, rfl, rfl, rfl, rfl, rfl, rfl⟩
  obtain ⟨t, hnext, hans, ht⟩ := untagged_ok hr rfl hargs hrun rfl rfl rfl
  have hchans : t.chans = (modChan chan.toNat (fun _ => x) (taken h 0x30 s)).chans := by rw [ht]
  have hat (n : Nat) : chanAt t n = if n = chan.toNat then x else chanAt s n := by
    rw [chanAt, hchans]
    exact chanAt_modChan chan.toNat (fun _ => x) (taken h 0x30 s) n
  have hsame : chanAt t chan.toNat = x := (hat _).trans (if_pos rfl)
  refine ⟨t, hnext, hans, ?_⟩
  dsimp only
  rw [hsame]
  exact ⟨hopened, hctx, hhalf, htail, hhead, hsender, hreceiver, fun n hn => (hat n).trans (if_neg hn)⟩

theorem ringOf_of_ports {h : Hdr} {s u : State} (hports : u.ports = s.ports) : ringOf h u = ringOf h s := by
  rw [ringOf, ringOf, ringAt, ringAt, portAt, portAt, hports]

theorem syncDump_ends {h : Hdr} {ctx : BitVec 8} {len : BitVec 32} {pa : BitVec 64} {s : State} {begins : List Byte}
    {dump : List Byte × Bool} {cs : List Nat} (hr : Untagged 2 h s)
    (hctx : badCtx ctx = false ∧ ctxSt s ctx.toNat ≠ .free ∨ ctx = 0xFF) (hlen : 32 ≤ len.toNat)
    (hfits : dumpFits pa.toNat len.toNat = true)
    (hbegins : begins = toLE 1 ctx.toNat ++ toLE 4 0 ++ [0xFF, 0xFF, 0xFF] ++ toLE 2 0xFFFF ++ toLE 6 0)
    (hcs : cs = if ctx = 0xFF then softCtxs else [ctx.toNat])
    (hdump : dump = dumpBytes (taken h 0x40 s) (if ctx = 0xFF then 0 else ctx.toNat) len.toNat
      (syncItems (taken h 0x40 s) ctx.toNat cs begins))
    (hsound : syncStop (taken h 0x40 s) ctx.toNat cs begins = none)
    (hwrite : (writeUntil (codewords pa.toNat dump.1) s).1 = true) :
    Ends (exec (.syncDump h ctx len pa) s) h 0x40 .ok (dump.1.length + dump.2.toNat * 2 ^ 32) s fun t =>
      t.mem = putBytes s.mem pa.toNat dump.1 := by
  have hwrite' : (writeUntil (codewords pa.toNat dump.1) (taken h 0x40 s)).1 = true :=
    (writeUntil_congr (s := taken h 0x40 s) (s' := s) rfl rfl).trans hwrite
  have hrun := syncDump_runs (h := h) hctx hbegins hcs hdump hsound hwrite'
  obtain ⟨hmem, hstate⟩ := writeUntil_mem hwrite'
  generalize (writeUntil (codewords pa.toNat dump.1) (taken h 0x40 s)).2 = u at hrun hmem hstate
  have hports : u.ports = s.ports := by rw [hstate]; rfl
  have hlogs : u.logs = (taken h 0x40 s).logs := by rw [hstate]
  obtain ⟨t, hnext, hans, ht⟩ := untagged_ok_of_opcode (c := cmdSyncDump ctx len pa) (op := 0x40) rfl hr rfl (syncDump_args hctx hlen hfits) hrun
    (ringOf_of_ports hports) (by rw [hlogs]) (by rw [hlogs]; rfl)
  have hkept : t.mem = u.mem := by rw [ht]
  refine ⟨t, hnext, hans, ?_⟩
  dsimp only
  rw [hkept, ← putBytes_codewords]
  exact hmem

/-! ### The statement -/

/-- Settles O5: each command's own checks pass, and what its effect leaves is read off. -/
theorem memoryAndChannelCommandsAct : Obligations.MemoryAndChannelCommandsAct := by
  unfold Obligations.MemoryAndChannelCommandsAct
  refine ⟨?memMap, ?xlate, ?chan, ?knot, ?dump⟩
  case memMap =>
    intro h ctx mflags count va pa s hr hctx hflags hva hend hpa hst
    have hargs := memMap_args (h := h) (s := s) hctx hflags hva hend hpa
    constructor
    · intro u hnew hmap
      exact untagged_done (c := cmdMemMap ctx mflags count va pa) hr rfl hargs (memMap_runs_new hst hnew hmap)
    · intro hchange hclear u hmap
      obtain ⟨t, hnext, hwaits, ht⟩ := untagged_later (c := cmdMemMap ctx mflags count va pa) hr rfl hargs
        (memMap_runs_change hst hchange hclear hmap) rfl rfl rfl rfl
      exact ⟨t, hnext, hwaits, by rw [ht]; exact ⟨rfl, rfl⟩⟩
  case xlate =>
    intro h ctx faultId k n s hr hctx hst hparked
    exact xlateResolve_ends hr hctx hst hparked
  case chan =>
    intro h ctx cfl chan ringLog2 ringHoop ringTile sender receiver ringBase peerMod peerChan s hr hctx hflags hhalf hchan hsender
      hreceiver hpeer hring hst hclosed
    exact chanCreate_ends hr (chanCreate_args hctx hflags hhalf hchan hsender hreceiver hpeer hring) hst hclosed
  case knot =>
    intro h ctx kaddr word pa s hr hctx ka hbad hremote hword hst hsync hat hue hquiet
    obtain ⟨ws, hrun⟩ := knotInit_runs (h := h) (word := word) hst hat hue hquiet
    obtain ⟨t, hnext, hans, ht⟩ := untagged_ok (c := cmdKnotInit ctx 1 kaddr word) hr rfl
      (knotInit_args hctx hbad hremote hword hsync hat) hrun rfl rfl rfl
    exact ⟨t, hnext, hans, by rw [ht]; rfl⟩
  case dump =>
    intro h ctx len pa s hr hctx hlen hfits u begins cs dump hsound hwrite
    exact syncDump_ends hr hctx hlen hfits rfl rfl rfl hsound hwrite

end Sys2Proof.Machine
end

section
/-! O15: what cold and warm resets keep. -/

namespace Sys2Proof.Machine

/-! ### Events keep all but the logs, the event rings and the free counter -/

@[simp] theorem raiseBoot_dev (code c : Nat) (bs : List Byte) (s : State) : (raiseBoot code c bs s).dev = s.dev := by
  rw [raiseBoot, raise_dev]
@[simp] theorem raiseBoot_flash (code c : Nat) (bs : List Byte) (s : State) : (raiseBoot code c bs s).flash = s.flash := by
  rw [raiseBoot, raise_flash]
@[simp] theorem raiseBoot_trust (code c : Nat) (bs : List Byte) (s : State) : (raiseBoot code c bs s).trust = s.trust := by
  rw [raiseBoot, raise_trust]
@[simp] theorem raiseBoot_pins (code c : Nat) (bs : List Byte) (s : State) : (raiseBoot code c bs s).pins = s.pins := by
  rw [raiseBoot, raise_pins]

/-! ### Cold resets (R501, R538) -/

/-- A persistent block whose write is cut short may fail its check; the rest of flash, the fuses, the host and the pins stay. -/
theorem cutPersist_keeps (s : State) : (cutPersist s).flash = { s.flash with
      block := { s.flash.block with good := (cutPersist s).flash.block.good } } ∧
    (cutPersist s).trust = s.trust ∧ (cutPersist s).host = s.host ∧ (cutPersist s).pins = s.pins := by
  unfold cutPersist
  split
  · exact ⟨rfl, rfl, rfl, rfl⟩
  · split <;> exact ⟨rfl, rfl, rfl, rfl⟩

/-- No block is cut short unless the last command taken was CFG_PERSIST. -/
theorem cutPersist_of_other {s : State} (h : (s.logs.journal.head?.map fun e => e.opcode) ≠ some 0x52) : cutPersist s = s := by
  have hclosed : persistOpen s = false := by
    unfold persistOpen
    cases hhead : s.logs.journal.head? with
    | none => rfl
    | some e =>
      rw [hhead] at h
      have hop : e.opcode ≠ 0x52 := fun he => h (congrArg some he)
      simp [hop]
  rw [cutPersist, hclosed]
  rfl

/-! ### Writes that are performed keep flash -/

@[simp] theorem ueFound_flash (pa : Nat) (s : State) : (ueFound pa s).flash = s.flash := raise_flash _ _ _ _

theorem undef_flash (u : UndefCase) (c : Nat) (s : State) : (undef u c s).flash = s.flash := by
  unfold undef
  split <;> rfl

theorem flash_of_slotsOff {s t : State} (h : slotsOff t = slotsOff s) : t.flash = s.flash := by
  have hflash := congrArg (·.flash) h
  exact hflash

theorem reportUe_flash (c : Nat) (site : Option Nat) (pa : Nat) (s : State) : (reportUe c site pa s).flash = s.flash := by
  unfold reportUe
  split
  · exact ueFound_flash _ _
  · exact latch_flash _ _ _ _ _ _ _

/-- A plain write that is done changes memory alone. -/
theorem slotsOff_plainEnd {w : HbmWrite} {s t : State} {b : Option Nat} (h : plainEnd w s = .done b t) :
    slotsOff t = slotsOff s := by
  unfold plainEnd at h
  simp only [written] at h
  split at h
  · injection h with _ h
    rw [← h]
    exact slotsOff_mergeBit _ _ _
  · injection h with _ h
    rw [← h]
    exact slotsOff_writeCodewords _ _ _

theorem endWrite_flash {w : HbmWrite} {r : WriteEnd} {s : State} (h : ∀ b t, r = .done b t → t.flash = s.flash) :
    (endWrite w r s).flash = s.flash := by
  match r with
  | .undef => exact undef_flash .accumulate _ _
  | .fail e d => exact latch_flash _ _ _ _ _ _ _
  | .done none t => exact h _ _ rfl
  | .done (some bad) t => exact (reportUe_flash _ _ _ _).trans (h _ _ rfl)

theorem performWrite_flash (w : HbmWrite) (s : State) : (performWrite w s).flash = s.flash := by
  unfold performWrite
  split
  · rfl
  · refine endWrite_flash fun b t h => flash_of_slotsOff ?_
    split at h
    · exact slotsOff_apertureEnd h
    · exact slotsOff_plainEnd h

theorem flushMerges_flash (s : State) : (flushMerges s).flash = s.flash := by
  unfold flushMerges each
  refine foldl_keeps (fun u : State => u.flash) _ (fun u k => ?_) _ _
  refine foldl_keeps (fun v : State => v.flash) _ (fun v g => ?_) _ _
  exact issueGroup_keeps State.flash (fun _ _ _ => rfl) (fun _ _ => rfl) (fun _ _ => rfl) (ownerOf v k) g v

/-! ### Warm resets (R501, R502) -/

/-- The state whose issued writes a warm reset has completed. -/
def warmDone (s : State) : State := ctlPart s (each (flushMerges s).net.writes performWrite (flushMerges s))

theorem warmDown_eq (cause : Nat) (s : State) : warmDown cause s = warmState cause { warmDone s with logs := s.logs } := rfl

theorem warmDone_flash (s : State) : (warmDone s).flash = s.flash :=
  (foldl_keeps (·.flash) _ (fun s w => performWrite_flash w s) _ _).trans (flushMerges_flash s)

/-- A byte of the entries that an address test picks. -/
theorem Tab.get_filter_key {β : Type} (d : β) (p : Nat → Bool) (m : Tab β) (k : Nat) :
    Tab.get d (m.filter fun x => p x.1) k = if p k then Tab.get d m k else d := by
  induction m with
  | nil => simp [Tab.get]
  | cons x m ih =>
    obtain ⟨a, v⟩ := x
    by_cases hp : p a = true <;> by_cases hk : k = a
    · simp [hp, Tab.get, hk]
    · simp [hp, Tab.get, hk, ih]
    · subst hk
      simp [hp, ih]
    · simp [hp, Tab.get, hk, ih]

/-- A state in which boot chooses as in another: the slots and the revoked keys are the same. -/
theorem chooseSlots_congr {s u : State} (hslots : u.flash.slots = s.flash.slots) (hrevoked : u.trust.revoked = s.trust.revoked)
    (src : BitVec 2) : chooseSlots u src = chooseSlots s src := by
  have hslot : fwSlotAt u = fwSlotAt s := by
    funext kind slot
    rw [fwSlotAt, fwSlotAt, hslots]
  have hreason : slotReason u = slotReason s := by
    funext kind slot
    simp only [slotReason, fwReason, hslot, hrevoked]
  have hverified : verifiedSlots u = verifiedSlots s := by
    funext src kind
    simp only [verifiedSlots, hslot, hreason]
  have hmatch : slotsMatch u = slotsMatch s := by
    funext ka a kb b
    simp only [slotsMatch, slotImage, hslot]
  have hpartners : partners u = partners s := by
    funext src sf
    simp only [partners, hverified, hmatch]
  rw [chooseSlots, chooseSlots, hverified, hpartners]

/-! ### The boot that a RESET command asks for (R489 to R493, R496) -/

/-- What rejected images, and a TAMPER that is raised, leave. -/
structure BootKept (s t : State) : Prop where
  dev   : t.dev = s.dev
  flash : t.flash = s.flash
  pins  : t.pins = s.pins

theorem rejectImages_keeps (src : BitVec 2) (sf : Option Nat) (s : State) : BootKept s (rejectImages src sf s) := by
  have hkeep {α : Type} (g : State → α) (hg : ∀ code c bs v, g (raiseBoot code c bs v) = g v) :
      g (rejectImages src sf s) = g s := by
    unfold rejectImages
    refine foldl_keeps g _ (fun v i => ?_) _ _
    dsimp only
    split
    · split
      · exact hg _ _ _ _
      · rfl
    · rfl
  exact ⟨hkeep (·.dev) raiseBoot_dev, hkeep (·.flash) raiseBoot_flash, hkeep (·.pins) raiseBoot_pins⟩

theorem tellTamper_keeps (s : State) : BootKept s (tellTamper s) ∧ (tellTamper s).trust.udsLocked = s.trust.udsLocked ∧
    (tellTamper s).trust.bootImage = s.trust.bootImage := by
  unfold tellTamper
  split
  · refine ⟨⟨?_, ?_, ?_⟩, ?_, ?_⟩ <;> simp
  · exact ⟨⟨rfl, rfl, rfl⟩, rfl, rfl⟩

theorem applyRepairs_keeps (s : State) : BootKept s (applyRepairs s) := by
  unfold applyRepairs
  split <;> exact ⟨rfl, rfl, rfl⟩

/-- The persistent items leave flash, the pins, the trust state and the images that run. -/
theorem applyBlock_keeps (s : State) : (applyBlock s).flash = s.flash ∧ (applyBlock s).pins = s.pins ∧
    (applyBlock s).dev.sf = s.dev.sf ∧ (applyBlock s).dev.sq = s.dev.sq ∧ (applyBlock s).dev.lp = s.dev.lp ∧
    (applyBlock s).dev.restricted = s.dev.restricted :=
  ⟨rfl, rfl, rfl, rfl, rfl, rfl⟩

theorem runImages_runs (sf sq lp : Nat) (restricted : Bool) (s : State) : (runImages sf sq lp restricted s).flash = s.flash ∧
    (runImages sf sq lp restricted s).pins = s.pins ∧ (runImages sf sq lp restricted s).dev.sf = sf ∧
    (runImages sf sq lp restricted s).dev.sq = sq ∧ (runImages sf sq lp restricted s).dev.lp = lp ∧
    (runImages sf sq lp restricted s).dev.restricted = restricted :=
  ⟨rfl, rfl, rfl, rfl, rfl, rfl⟩

/-- The state in which the images run, before boot locks the UDS. -/
def imagesRun (sf sq lp : Nat) (restricted : Bool) (src : BitVec 2) (s : State) : State :=
  applyRepairs (applyBlock (runImages sf sq lp restricted (rejectImages src (some sf) s)))

theorem imagesRun_runs (sf sq lp : Nat) (restricted : Bool) (src : BitVec 2) (s : State) :
    let v := imagesRun sf sq lp restricted src s
    v.flash = s.flash ∧ v.pins = s.pins ∧ v.dev.sf = sf ∧ v.dev.sq = sq ∧ v.dev.lp = lp ∧ v.dev.restricted = restricted := by
  have hreject := rejectImages_keeps src (some sf) s
  obtain ⟨hflash, hpins, hsf, hsq, hlp, hrest⟩ := runImages_runs sf sq lp restricted (rejectImages src (some sf) s)
  obtain ⟨hflash', hpins', hsf', hsq', hlp', hrest'⟩ :=
    applyBlock_keeps (runImages sf sq lp restricted (rejectImages src (some sf) s))
  have hrepair := applyRepairs_keeps (applyBlock (runImages sf sq lp restricted (rejectImages src (some sf) s)))
  have hdev := hrepair.dev
  refine ⟨hrepair.flash.trans (hflash'.trans (hflash.trans hreject.flash)),
    hrepair.pins.trans (hpins'.trans (hpins.trans hreject.pins)), ?_, ?_, ?_, ?_⟩
  · exact (congrArg (·.sf) hdev).trans (hsf'.trans hsf)
  · exact (congrArg (·.sq) hdev).trans (hsq'.trans hsq)
  · exact (congrArg (·.lp) hdev).trans (hlp'.trans hlp)
  · exact (congrArg (·.restricted) hdev).trans (hrest'.trans hrest)

/-- The UDS is locked, and the image and the fuses that the key was derived from are noted. -/
def lockUds (sf : Nat) (v : State) : State :=
  { v with trust :=
    { v.trust with udsLocked := true, bootImage := slotImage v 0 sf, bootFuses := BitVec.ofNat 32 (fuseState v) } }

theorem startImages_eq (sf sq lp : Nat) (restricted : Bool) (src : BitVec 2) (s : State) :
    startImages sf sq lp restricted src s = tellTamper (lockUds sf (imagesRun sf sq lp restricted src s)) := rfl

/-- Images that run are named by DEV_STATUS, and boot has locked the UDS and endorsed the SF image. -/
theorem startImages_runs (sf sq lp : Nat) (restricted : Bool) (src : BitVec 2) (s : State) :
    let t := startImages sf sq lp restricted src s
    t.dev.sf = sf ∧ t.dev.sq = sq ∧ t.dev.lp = lp ∧ t.dev.restricted = restricted ∧ t.pins = s.pins ∧
      t.trust.udsLocked = true ∧ t.trust.bootImage = (fwSlotAt s 0 sf).image := by
  intro t
  obtain ⟨hflash, hpins, hsf, hsq, hlp, hrest⟩ := imagesRun_runs sf sq lp restricted src s
  obtain ⟨htell, hlock, himage⟩ := tellTamper_keeps (lockUds sf (imagesRun sf sq lp restricted src s))
  have hdev : t.dev = (imagesRun sf sq lp restricted src s).dev := htell.dev
  have hslot : slotImage (imagesRun sf sq lp restricted src s) 0 sf = (fwSlotAt s 0 sf).image := by
    rw [slotImage, fwSlotAt, fwSlotAt, hflash]
  rw [hdev]
  exact ⟨hsf, hsq, hlp, hrest, htell.pins.trans hpins, hlock, himage.trans hslot⟩

/-- A boot with its input within limits reaches READY with the images that the ROM chose. -/
theorem bootFrom_ready {src : BitVec 2} {s : State} {sf sq lp : Nat} (hsrc : src ≠ 3)
    (hslots : chooseSlots s src = some (sf, sq, lp)) (hinput : s.pins.input = true) :
    let t := bootFrom src s
    t.dev.ready = true ∧ t.dev.restricted = false ∧ t.dev.sf = sf ∧ t.dev.sq = sq ∧ t.dev.lp = lp ∧
      t.trust.udsLocked = true ∧ t.trust.bootImage = (fwSlotAt s 0 sf).image := by
  intro t
  obtain ⟨hsf, hsq, hlp, hrest, hpins, hlock, himage⟩ := startImages_runs sf sq lp false src s
  have ht : t = bootReady (startImages sf sq lp false src s).dev.bootCause (startImages sf sq lp false src s) := by
    have hinput' : (startImages sf sq lp false src s).pins.input = true := by rw [hpins]; exact hinput
    simp only [t, bootFrom, hsrc, hslots, if_false, bootEnds, hinput', if_true]
  have hdev : t.dev = { (startImages sf sq lp false src s).dev with ready := true, bootWait := false } := by
    rw [ht, bootReady, raiseBoot_dev]
    rfl
  have htrust : t.trust = (startImages sf sq lp false src s).trust := by
    rw [ht, bootReady, raiseBoot_trust]
    rfl
  rw [hdev, htrust]
  exact ⟨rfl, hrest, hsf, hsq, hlp, hlock, himage⟩

/-! ### The statement -/

section Warm
variable {s : State} (hserves : warmServes s = true) (hpin : s.pins.warmRstN = true)
include hserves hpin

theorem exec_warmReset_pin : exec (.warmReset .pin) s =
    keepQueue (modPins (fun p => { p with warmRstN := false }) (warmDown 1 s)) s := by
  change execWarmReset .pin s = _
  simp only [execWarmReset, hserves, hpin, Bool.not_true, Bool.false_eq_true, if_false, if_true]

theorem exec_warmReset_command (hasked : s.dev.warmAsked = true) (src : BitVec 2) : exec (.warmReset (.command src)) s =
    keepQueue (bootFrom src (modPins (fun p => { p with bootSrc := src }) (warmDown 2 s))) s := by
  change execWarmReset (.command src) s = _
  simp only [execWarmReset, hserves, hpin, hasked, Bool.not_true, Bool.and_self, Bool.false_eq_true, if_false, if_true]

end Warm

/-! ### The parts of the statement -/

/-- What a warm reset by its pin leaves of a state `u` in which the issued writes are complete. -/
theorem warmState_pin {s u : State} (htrust : u.trust = s.trust) (hpins : u.pins = s.pins) (hmod : s.pins.modRstN = true) :
    ∃ t, keepQueue (modPins (fun p => { p with warmRstN := false }) (warmState 1 { u with logs := s.logs })) s = .next t ∧
      t.pins.warmRstN = false ∧ t.pins.modRstN = true ∧ t.dev.ready = false ∧
      (∀ a, Tab.get 0 t.mem a = if isHbm a || isWs a then Tab.get 0 u.mem a else 0) ∧
      t.logs.seq = s.logs.seq ∧ t.logs.eseq = s.logs.eseq ∧ t.logs.journal = s.logs.journal ∧ t.logs.faults = s.logs.faults ∧
      t.stitch.count = u.stitch.count ∧ t.maint.repairs = u.maint.repairs ∧ t.flash.slots = u.flash.slots ∧
      t.trust.bsk = s.trust.bsk ∧ t.trust.bbram = s.trust.bbram ∧ t.trust.revoked = s.trust.revoked ∧
      t.tiles = [] ∧ t.ctxs = [] ∧ t.chans = [] ∧ t.pricks = [] ∧ t.txns = [] ∧ t.waits = [] ∧ t.net = Net.reset ∧
      t.dev.bootCause = 1 :=
  ⟨_, rfl, rfl, (congrArg (·.modRstN) hpins).trans hmod, rfl, fun a => Tab.get_filter_key 0 warmKeeps u.mem a, rfl, rfl, rfl, rfl,
    rfl, rfl, rfl, congrArg (·.bsk) htrust, congrArg (·.bbram) htrust, congrArg (·.revoked) htrust, rfl, rfl, rfl, rfl, rfl, rfl,
    rfl, rfl⟩

theorem warmServes_modRstN {s : State} (hserves : warmServes s = true) : s.pins.modRstN = true := by
  simp only [warmServes, Bool.and_eq_true] at hserves
  exact hserves.1.1.2

/-- The state in which the boot that a RESET command asked for begins. -/
theorem warmSampled_facts (src : BitVec 2) (s : State) :
    let v := modPins (fun p => { p with bootSrc := src }) (warmDown 2 s)
    v.flash.slots = s.flash.slots ∧ v.trust.revoked = s.trust.revoked ∧ v.pins.input = s.pins.input := by
  intro v
  exact ⟨congrArg (·.slots) (warmDone_flash s), rfl, rfl⟩

/-- Settles O15: what each reset leaves is read off, but for flash, which the writes that a warm reset completes keep. -/
theorem resetsKeepWhatSurvives : Obligations.ResetsKeepWhatSurvives := by
  unfold Obligations.ResetsKeepWhatSurvives
  refine ⟨?cold, ?warm, ?held⟩
  case cold =>
    intro s lost
    constructor
    · refine ⟨_, rfl, ?_, rfl, rfl, ?_, rfl⟩
      · exact ⟨rfl, rfl, rfl, rfl, rfl, rfl, rfl, rfl, rfl, rfl, rfl, rfl, rfl, rfl, rfl, rfl, rfl, rfl, rfl, rfl, rfl, rfl, rfl,
          rfl, rfl, rfl, rfl, rfl, rfl, rfl, rfl, rfl, rfl⟩
      · simp [modPins, tapEffect]
    · obtain ⟨hflash, htrust, hhost, hpins⟩ := cutPersist_keeps s
      have hslots := congrArg (·.slots) hflash
      have hblock := congrArg (·.block) hflash
      have hfactory := congrArg (·.factory) hflash
      refine ⟨_, rfl, ?_, rfl, ?_, rfl, rfl, rfl, rfl, rfl, rfl, ?_, fun hother => ?_⟩
      · exact ⟨rfl, rfl, rfl, rfl, rfl, rfl, rfl, rfl, rfl, rfl, rfl, rfl, rfl, rfl, rfl, rfl, rfl, rfl, rfl, hslots, hblock,
          hfactory, rfl, congrArg (·.bsk) htrust, congrArg (·.bbram) htrust, congrArg (·.revoked) htrust,
          congrArg (·.uds) htrust, congrArg (·.secure) htrust, congrArg (·.debugOff) htrust, hhost,
          congrArg (·.haltN) hpins, congrArg (·.warmRstN) hpins, congrArg (·.input) hpins⟩
      · simp [modPins, tapInit, tapEffect]
      · have hbusy := congrArg (·.busy) htrust
        exact congrArg (fun b : Bool => if b then 4 else 0) hbusy
      · exact congrArg (·.flash.block) (cutPersist_of_other hother)
  case warm =>
    intro s hserves hpin u
    have hpinned : exec (.warmReset .pin) s =
      keepQueue (modPins (fun p => { p with warmRstN := false }) (warmState 1 { u with logs := s.logs })) s :=
      exec_warmReset_pin hserves hpin
    refine ⟨?_, fun src hasked => ?_⟩
    · rw [hpinned]
      exact warmState_pin (u := u) rfl rfl (warmServes_modRstN hserves)
    have hexec := exec_warmReset_command hserves hpin hasked src
    obtain ⟨hslots, hrevoked, hinput⟩ := warmSampled_facts src s
    refine ⟨hexec, fun hsrc => ?_, fun hin hsrc sf sq lp hchoose => ?_⟩
    · refine ⟨_, hexec, ?_⟩
      simp [bootFrom, hsrc, enterRecovery, modDev]
    · have hflash : u.flash = s.flash := warmDone_flash s
      have hsame := chooseSlots_congr hslots hrevoked src
      have hsame' : chooseSlots u src = chooseSlots s src := chooseSlots_congr (s := s) (u := u) (congrArg (·.slots) hflash) rfl src
      obtain ⟨hready, hrest, hsf, hsq, hlp, hlock, himage⟩ :=
        bootFrom_ready hsrc (hsame.trans (hsame'.symm.trans hchoose)) (hinput.trans hin)
      refine ⟨_, hexec, hready, hrest, hsf, hsq, hlp, hlock, himage.trans ?_⟩
      rw [fwSlotAt, fwSlotAt, hslots]
  case held =>
    intro s hserves hpin
    change execWarmReset .pin s = _
    simp [execWarmReset, hserves, hpin, keepQueue, modPins]

end Sys2Proof.Machine
end

section
/-! O33: requests complete and merge, peer tokens are exchanged, and page walks end. -/

namespace Sys2Proof.Machine

/-! ### What ends a READ or a WRITE (R236, R245) -/

/-- The end of a READ keeps what a completion keeps and the setting of a stream leaves. -/
theorem readEnd_keeps {α : Type} (g : State → α) (hctx : ∀ c f u, g (modCtx c f u) = g u)
    (hset : ∀ k n x u, g (setStream k n x u) = g u) (k c n d : Nat) (s : State) : g (readEnd k c n d s) = g s := by
  unfold readEnd
  dsimp only
  split
  · exact (completeStream_keeps g hctx _ _ _ _ _).trans (hset _ _ _ _)
  · rfl

@[simp] theorem readEnd_mem (k c n d : Nat) (s : State) : (readEnd k c n d s).mem = s.mem :=
  readEnd_keeps State.mem (fun _ _ _ => rfl) (fun _ _ _ _ => rfl) k c n d s

@[simp] theorem hoopAt_readEnd (k c n d : Nat) (s : State) (h : Nat) : hoopAt (readEnd k c n d s) h = hoopAt s h :=
  readEnd_keeps (hoopAt · h) (fun _ _ _ => rfl) (fun _ _ _ _ => rfl) k c n d s

/-- A READ with a token to deliver is not at its end. -/
theorem readEnd_of_out (k c n d : Nat) {s : State} (h : (streamAt (tileAt s k) n).out ≠ []) : readEnd k c n d s = s := by
  unfold readEnd
  dsimp only
  rw [if_neg]
  simp [h]

/-- The end of a READ changes its state and its done token alone. -/
theorem streamAt_readEnd (k c n d : Nat) (s : State) :
    streamAt (tileAt (readEnd k c n d s) k) n = streamAt (tileAt s k) n ∨
      streamAt (tileAt (readEnd k c n d s) k) n = completed (sdAt (tileAt s k) n) n (streamAt (tileAt s k) n) := by
  unfold readEnd
  dsimp only
  split
  · exact .inr (streamAt_completeStream_same _ _ _ _ _)
  · exact .inl rfl

theorem reqs_readEnd (k c n d : Nat) (s : State) :
    (streamAt (tileAt (readEnd k c n d s) k) n).reqs = (streamAt (tileAt s k) n).reqs := by
  obtain h | h := streamAt_readEnd k c n d s <;> rw [h]
  rfl

theorem buf_readEnd (k c n d : Nat) (s : State) :
    (streamAt (tileAt (readEnd k c n d s) k) n).buf = (streamAt (tileAt s k) n).buf := by
  obtain h | h := streamAt_readEnd k c n d s <;> rw [h]
  rfl

theorem writeEnd_keeps {α : Type} (g : State → α) (hctx : ∀ c f u, g (modCtx c f u) = g u)
    (hset : ∀ k n x u, g (setStream k n x u) = g u) (k c n d : Nat) (s : State) : g (writeEnd k c n d s) = g s := by
  unfold writeEnd
  dsimp only
  split
  · exact (completeStream_keeps g hctx _ _ _ _ _).trans (hset _ _ _ _)
  · rfl

@[simp] theorem writeEnd_mem (k c n d : Nat) (s : State) : (writeEnd k c n d s).mem = s.mem :=
  writeEnd_keeps State.mem (fun _ _ _ => rfl) (fun _ _ _ _ => rfl) k c n d s

@[simp] theorem writeEnd_net (k c n d : Nat) (s : State) : (writeEnd k c n d s).net = s.net :=
  writeEnd_keeps State.net (fun _ _ _ => rfl) (fun _ _ _ _ => rfl) k c n d s

theorem reqs_writeEnd (k c n d : Nat) (s : State) :
    (streamAt (tileAt (writeEnd k c n d s) k) n).reqs = (streamAt (tileAt s k) n).reqs := by
  unfold writeEnd
  dsimp only
  split
  · rw [streamAt_completeStream_same]; rfl
  · rfl

/-- A WRITE with every element issued and every write acknowledged becomes COMPLETE. -/
theorem writeEnd_completes (k c n d : Nat) {s : State} (hst : (streamAt (tileAt s k) n).st = .issuing)
    (hnext : sdTotal d ≤ (streamAt (tileAt s k) n).next) (hreqs : (streamAt (tileAt s k) n).reqs = [])
    (hbits : (streamAt (tileAt s k) n).bits = []) : (streamAt (tileAt (writeEnd k c n d s) k) n).st = .complete := by
  unfold writeEnd
  dsimp only
  rw [if_pos]
  · rw [streamAt_completeStream_same]; rfl
  · simp [hst, hnext, hreqs, hbits]

/-! ### Data of a READ (R239, R243, R245) -/

/-- Without writes of its own on their way, a stream reads what memory holds. -/
theorem peekOwn_of_reads (s : State) (c : Nat) (x : Stream) (r : StreamReq) (m : Nat) (h : ∀ w ∈ x.reqs, w.isRead = true) :
    peekOwn s c x r m = peek s r.pa m := by
  have hnone : x.reqs.filter (fun w => !w.isRead && decide (w.wid < r.wid) && (apertureOf s c w.ca).isNone &&
      (w.merge || s.net.writes.any fun y => decide (y.wid = w.wid) && !y.done)) = [] :=
    List.filter_eq_nil_iff.mpr fun w hw => by simp [h w hw]
  rw [peekOwn, hnone]
  rfl

/-- Packed data of a stream that feeds its tile: what is left of it, and the tokens that it has become. -/
theorem packStream_eq {d : Nat} (hkind : sdKind d = 0) (k c n : Nat) (x : Stream) (s : State) :
    ∃ whole out, packStream k c n d x s = setStream k n { x with buf := x.buf.drop (64 * whole), out := out } s := by
  unfold packStream
  simp only [hkind, Nat.zero_ne_one, if_false]
  exact ⟨_, _, rfl⟩

/-- A waiting token leaves with a credit of its output. -/
theorem sendStreamTok_sent {k n port : Nat} {x : Stream} {s : State} {ctrl : Bool} {v : DataTok} {rest : List (Bool × DataTok)}
    (hout : x.out = (ctrl, v) :: rest) (hcred : hasCredit (tileAt s k) port ctrl = true) :
    ∃ y : Stream, sendStreamTok k n x port s = some (setStream k n { y with out := rest } (sendTokVc k port ctrl v [] s)) := by
  simp only [sendStreamTok, hout, hcred, if_true]
  exact ⟨_, rfl⟩

/-- A stream whose token waits, and which counts the wait where it is issuing. -/
def countWait (k : Nat) (x : Stream) (s : State) : State :=
  if x.st = .issuing then modB k (fun b => { b with cntCwait := satAdd 32 b.cntCwait 1 }) s else s

theorem sendStreamTok_waits {k n port : Nat} {x : Stream} {s : State} {ctrl : Bool} {v : DataTok} {rest : List (Bool × DataTok)}
    (hout : x.out = (ctrl, v) :: rest) (hcred : hasCredit (tileAt s k) port ctrl = false) :
    sendStreamTok k n x port s = some (countWait k x s) := by
  simp only [sendStreamTok, hout, hcred, Bool.false_eq_true, if_false, countWait]
  split <;> rfl

theorem streamAt_countWait (k n : Nat) (x : Stream) (s : State) :
    streamAt (tileAt (countWait k x s) k) n = streamAt (tileAt s k) n := by
  unfold countWait
  split
  · rw [tileAt_modB_same]; rfl
  · rfl

theorem countWait_mem (k : Nat) (x : Stream) (s : State) : (countWait k x s).mem = s.mem := by
  unfold countWait
  split <;> rfl

theorem cntCwait_countWait (k : Nat) (x : Stream) (s : State) : (tileAt (countWait k x s) k).b.cntCwait =
    if x.st = .issuing then satAdd 32 (tileAt s k).b.cntCwait 1 else (tileAt s k).b.cntCwait := by
  unfold countWait
  split
  · rw [tileAt_modB_same]
  · rfl

section Reads
variable {site : Site} {stream : Fin 1024} {run : RunSt} {s : State} (hrun : runOf s (siteNo site) = some run)
  (hkind : kindOf (siteNo site) = .B) (hstarted : (streamAt (tileAt s (siteNo site)) stream.val).started ≠ 0)
include hrun hkind hstarted

/-- A waiting token leaves or waits, and then the stream may be at its end. -/
theorem exec_streamReadData_token {s1 : State} (hsend : sendStreamTok (siteNo site) stream.val
      (streamAt (tileAt s (siteNo site)) stream.val) (sdPort (sdAt (tileAt s (siteNo site)) stream.val)) s = some s1) :
    exec (.streamReadData site stream) s = .next (groundPart s
      (readEnd (siteNo site) run.ctx stream.val (sdAt (tileAt s (siteNo site)) stream.val) s1)) := by
  change execStreamReadData site stream s = _
  simp only [execStreamReadData, hrun, hkind, hstarted, ne_eq, not_true_eq_false, decide_false, Bool.or_self, Bool.false_eq_true,
    if_false, hsend, ground]

/-- The data of the oldest request returns. -/
theorem exec_streamReadData_returns {q : StreamReq} {rest : List StreamReq}
    (hout : (streamAt (tileAt s (siteNo site)) stream.val).out = [])
    (hdsc : sdKind (sdAt (tileAt s (siteNo site)) stream.val) = 0)
    (hreqs : (streamAt (tileAt s (siteNo site)) stream.val).reqs = q :: rest) (hread : q.isRead = true) (hmerge : q.merge = false) :
    exec (.streamReadData site stream) s = .next (groundPart s (readReturn (siteNo site) run.ctx stream.val
      (sdAt (tileAt s (siteNo site)) stream.val) (streamAt (tileAt s (siteNo site)) stream.val) q s)) := by
  change execStreamReadData site stream s = _
  simp only [execStreamReadData, hrun, hkind, hstarted, ne_eq, not_true_eq_false, decide_false, Bool.or_self, Bool.false_eq_true,
    if_false, sendStreamTok, hout, hdsc, hreqs]
  simp [hread, hmerge, ground]

end Reads

section Returns
variable {k c n d : Nat} {x : Stream} {q : StreamReq} {rest : List StreamReq} {s : State} (hkind : sdKind d = 0)
  (hreqs : x.reqs = q :: rest) (hread : q.isRead = true) (hq : q.kind = 0) (hrest : ∀ w ∈ rest, w.isRead = true)
  (hlen : q.len % sdEsize d = 0) (hue : ueAt s q.pa q.len = none)
include hreqs hread hq hrest hlen hue

/-- The data of a request without an uncorrectable codeword: the request is gone, and its elements are packed. -/
theorem readReturn_packs : ∃ (y : Stream) (u : State), readReturn k c n d x q s = readEnd k c n d (packStream k c n d y u) ∧
    y.reqs = rest ∧ (sdConv d = false →
      y.buf = x.buf ++ (elemsOfBytes (sdEsize d) (peek s q.pa q.len)).flatMap (toLE (sdTsize d))) ∧ u.mem = s.mem := by
  have hreads : ∀ w ∈ x.reqs, w.isRead = true := by
    rw [hreqs]
    exact List.forall_mem_cons.mpr ⟨hread, hrest⟩
  have hwhole : q.len / sdEsize d * sdEsize d = q.len := Nat.div_mul_cancel (Nat.dvd_of_mod_eq_zero hlen)
  simp only [readReturn, goodBytes, hue, hq, peekOwn_of_reads s c x q _ hreads, Option.isSome_none, Option.isNone_none,
    Bool.false_and, Bool.false_eq_true, if_false, if_true, hreqs, List.drop_one, List.tail_cons, List.nil_append]
  refine ⟨_, _, rfl, rfl, fun hconv => ?_, rfl⟩
  simp only [hconv, Bool.false_eq_true, if_false, OfNat.zero_ne_ofNat, hwhole]

include hkind in
theorem readReturn_whole :
    (streamAt (tileAt (readReturn k c n d x q s) k) n).reqs = rest ∧
      (sdConv d = false → ∃ whole, (streamAt (tileAt (readReturn k c n d x q s) k) n).buf =
        (x.buf ++ (elemsOfBytes (sdEsize d) (peek s q.pa q.len)).flatMap (toLE (sdTsize d))).drop (64 * whole)) ∧
      (readReturn k c n d x q s).mem = s.mem := by
  obtain ⟨y, u, hret, hrest', hbuf, hmem⟩ :=
    readReturn_packs (k := k) (c := c) (n := n) (d := d) hreqs hread hq hrest hlen hue
  obtain ⟨whole, out, hpack⟩ := packStream_eq hkind k c n y u
  rw [hret, hpack, reqs_readEnd, buf_readEnd, streamAt_setStream_same, readEnd_mem]
  exact ⟨hrest', fun hconv => ⟨whole, congrArg (·.drop (64 * whole)) (hbuf hconv)⟩, hmem⟩

end Returns

/-! ### Writes acknowledged (R245) -/

/-- A request that is acknowledged is no longer among those whose numbers differ. -/
theorem not_mem_eraseFirst_wid {rs : List StreamReq} {q : StreamReq} (h : (rs.map (·.wid)).Nodup) (hq : q ∈ rs) :
    q ∉ eraseFirst (fun r => r.wid = q.wid) rs := by
  induction rs with
  | nil => exact nomatch hq
  | cons r rs ih =>
    obtain ⟨hr, hrs⟩ := List.nodup_cons.mp h
    by_cases hwid : r.wid = q.wid
    · have hnot : q ∉ rs := fun hmem => hr (List.mem_map.mpr ⟨q, hmem, hwid.symm⟩)
      simpa [eraseFirst, hwid] using hnot
    · have hne : q ≠ r := fun he => hwid (congrArg (·.wid) he).symm
      have hmem : q ∈ rs := (List.mem_cons.mp hq).resolve_left hne
      simpa [eraseFirst, hwid, hne] using ih hrs hmem

/-- A performed write is no longer on its way, and the stream no longer waits for it. -/
def acked (k n : Nat) (q : StreamReq) (s : State) : State :=
  modB k (fun b => { b with promoted := b.promoted.filter (· ≠ q.wid) })
    (modNet (fun m => { m with writes := eraseFirst (fun w => w.wid = q.wid) m.writes })
      (setStream k n { streamAt (tileAt s k) n with
        reqs := eraseFirst (fun r => r.wid = q.wid) (streamAt (tileAt s k) n).reqs } s))

@[simp] theorem acked_mem (k n : Nat) (q : StreamReq) (s : State) : (acked k n q s).mem = s.mem := rfl

theorem acked_writes (k n : Nat) (q : StreamReq) (s : State) :
    (acked k n q s).net.writes = eraseFirst (fun w => w.wid = q.wid) s.net.writes := rfl

theorem streamAt_acked (k n : Nat) (q : StreamReq) (s : State) : streamAt (tileAt (acked k n q s) k) n =
    { streamAt (tileAt s k) n with reqs := eraseFirst (fun r => r.wid = q.wid) (streamAt (tileAt s k) n).reqs } := by
  rw [acked, tileAt_modB_same, tileAt_modNet]
  exact streamAt_setStream_same _ _ _ _

section Writes
variable {site : Site} {stream : Fin 1024} {run : RunSt} {s : State} (hrun : runOf s (siteNo site) = some run)
  (hkind : kindOf (siteNo site) = .B) (hstarted : (streamAt (tileAt s (siteNo site)) stream.val).started ≠ 0)
  (hwrite : sdWrite (sdAt (tileAt s (siteNo site)) stream.val) = true)
include hrun hkind hstarted hwrite

theorem exec_streamWriteAck_acks {q : StreamReq}
    (hfind : (streamAt (tileAt s (siteNo site)) stream.val).reqs.find? (fun q => !q.isRead && !q.merge &&
      s.net.writes.any fun w => decide (w.wid = q.wid) && w.done) = some q) :
    exec (.streamWriteAck site stream) s = .next (groundPart s (writeEnd (siteNo site) run.ctx stream.val
      (sdAt (tileAt s (siteNo site)) stream.val) (acked (siteNo site) stream.val q s))) := by
  change execStreamWriteAck site stream s = _
  simp only [execStreamWriteAck, hrun, hkind, hstarted, hwrite, ne_eq, not_true_eq_false, decide_false, Bool.or_self,
    Bool.not_true, Bool.false_eq_true, if_false, hfind, ground]
  rfl

theorem exec_streamWriteAck_ends (hkd : sdKind (sdAt (tileAt s (siteNo site)) stream.val) ≠ 2)
    (hreqs : (streamAt (tileAt s (siteNo site)) stream.val).reqs = []) :
    exec (.streamWriteAck site stream) s = .next (groundPart s (writeEnd (siteNo site) run.ctx stream.val
      (sdAt (tileAt s (siteNo site)) stream.val) s)) := by
  change execStreamWriteAck site stream s = _
  simp only [execStreamWriteAck, hrun, hkind, hstarted, hwrite, ne_eq, not_true_eq_false, decide_false, Bool.or_self,
    Bool.not_true, Bool.false_eq_true, if_false, hreqs, List.find?_nil, hkd, ground]

end Writes

/-- A request that counts as performed names a write on its way that is done. -/
theorem mem_writes_of_done {rs : List StreamReq} {q : StreamReq} {ws : List HbmWrite}
    (hfind : rs.find? (fun q => !q.isRead && !q.merge && ws.any fun w => decide (w.wid = q.wid) && w.done) = some q) :
    ∃ w ∈ ws, decide (w.wid = q.wid) = true := by
  have hdone := List.find?_some hfind
  simp only [Bool.and_eq_true, List.any_eq_true] at hdone
  obtain ⟨-, w, hw, hwid, -⟩ := hdone
  exact ⟨w, hw, hwid⟩

/-! ### Entries of the merge buffer, and the declared class (R244, R251) -/

/-- A request of an entry that has been issued waits in the merge buffer no more. -/
theorem issuedReq_merge {id : Nat} {g : Bool × Nat} {r : StreamReq} (hread : (issuedReq id g r).isRead = g.1)
    (hblock : (issuedReq id g r).pa / 256 = g.2) : (issuedReq id g r).merge = false := by
  unfold issuedReq at *
  by_cases hg : inGroup g r = true
  · rw [if_pos hg]
  · rw [if_neg hg] at hread hblock ⊢
    cases hm : r.merge with
    | false => rfl
    | true => exact absurd (by simp [inGroup, hm, hread, hblock]) hg

theorem exec_mergeTimeout_issues {site : Site} {n : Nat} {r : RunSt} {g : Bool × Nat} {s : State}
    (hrun : runOf s (siteNo site) = some r) (hg : (mergeGroups (tileAt s (siteNo site)))[n]? = some g)
    (hmay : mayIssue s (siteNo site) g = true) :
    exec (.mergeTimeout site n) s = .next (groundPart s (issueGroup (siteNo site) r.ctx g s)) := by
  change execMergeTimeout site n s = _
  simp only [execMergeTimeout, hrun, hg, hmay, if_true, ground]

/-! ### Tokens of peers (R247) -/

@[simp] theorem peer_setStream (j n : Nat) (x : Stream) (s : State) (k : Nat) :
    (tileAt (setStream j n x s) k).b.peer = (tileAt s k).b.peer := by
  by_cases hk : k = j
  · rw [hk, tileAt_setStream_same]
  · rw [tileAt_setStream_other _ _ _ hk]

@[simp] theorem peer_completeStream (j c n : Nat) (x : Stream) (s : State) (k : Nat) :
    (tileAt (completeStream j c n x s) k).b.peer = (tileAt s k).b.peer := by
  rw [tileAt_completeStream, peer_setStream]

/-- A tile once the message of a peer has entered its buffer. -/
def received (k : Nat) (f : PeerSend) (s : State) : State :=
  modB k (fun b => { b with peer := b.peer ++ [⟨f.out, f.ctx, f.val⟩] })
    (modNet (fun x => { x with peers := eraseFirst (fun y => y = f) x.peers }) s)

/-- The message of a peer enters the buffer, and its stream counts it, or is COMPLETE with it. -/
theorem exec_peerTokenReceive_takes {site : Site} {n : Nat} {m f : PeerSend} {s : State}
    (hm : (s.net.peers.filter fun p => p.dst = siteNo site)[n]? = some m)
    (hf : (s.net.peers.filter fun p => p.dst = siteNo site).find? (fun p => p.src = m.src) = some f)
    (hroom : (tileAt s (siteNo site)).b.peer.length < 1024) :
    ∃ y, exec (.peerTokenReceive site n) s = .next (groundPart s (setStream f.src f.stream y (received (siteNo site) f s))) ∨
      exec (.peerTokenReceive site n) s = .next (groundPart s (completeStream f.src f.ctx f.stream y (received (siteNo site) f s))) := by
  refine ⟨{ streamAt (tileAt (received (siteNo site) f s) f.src) f.stream with
    done := (streamAt (tileAt (received (siteNo site) f s) f.src) f.stream).done + 1 }, ?_⟩
  change execPeerTokenReceive site n s = _ ∨ execPeerTokenReceive site n s = _
  simp only [execPeerTokenReceive, hm, hf, Nat.not_le.mpr hroom, if_false, Option.getD_some, ground]
  split
  · exact .inr rfl
  · exact .inl rfl

theorem exec_peerTokenSend_sends {site : Site} {out : Fin 4} {r : RunSt} {p : PeerTok} {s : State}
    (hrun : runOf s (siteNo site) = some r) (hfind : (tileAt s (siteNo site)).b.peer.find? (fun p => p.out = out.val) = some p)
    (hctx : r.ctx = p.ctx) (hcred : hasCredit (tileAt s (siteNo site)) out.val false = true) :
    exec (.peerTokenSend site out) s = .next (groundPart s (sendTokVc (siteNo site) out.val false p.val []
      (modB (siteNo site) (fun b => { b with peer := eraseFirst (fun q => q.out = out.val) b.peer }) s))) := by
  change execPeerTokenSend site out s = _
  simp [execPeerTokenSend, hrun, hfind, hctx, hcred, ground]

/-! ### Page walks (R257, R258) -/

/-- A leaf that enters the TLB stands in it, and the streams and walks of the tile stay. -/
theorem tileAt_tlbPut (k : Nat) (e : TlbEntry) (s : State) : ∃ kept,
    tileAt (tlbPut k e s) k = { tileAt s k with b := { (tileAt s k).b with tlb := kept ++ [e] } } := by
  unfold tlbPut
  dsimp only
  rw [tileAt_useFree, tileAt_modB_same]
  exact ⟨_, rfl⟩

/-- A stream whose page has been found goes on, unless it would write without W. -/
theorem walkDone_goes {k c n va access : Nat} {w : Bool} {s : State}
    (hwait : (streamAt (tileAt s k) n).waitVa = some (va, access)) (hw : (access ≠ 1 ∧ access ≠ 3) ∨ w = true) :
    walkDone k c w n s = setStream k n { streamAt (tileAt s k) n with st := .issuing, waitVa := none, faultId := 0 } s := by
  unfold walkDone
  simp only [hwait]
  rw [if_neg]
  obtain ⟨h1, h3⟩ | hw := hw
  · simp [h1, h3]
  · simp [hw]

/-- A stream parks: it counts among the parkings of its tile, and XLATE_PARKED is raised. -/
theorem parkStream_parks (k c n va access cause : Nat) (s : State) :
    (streamAt (tileAt (parkStream k c n va access cause s) k) n).st = .parked ∧
      (tileAt (parkStream k c n va access cause s) k).b.cntPark = satAdd 32 (tileAt s k).b.cntPark 1 ∧
      (∃ e, (parkStream k c n va access cause s).logs.raised = e :: s.logs.raised ∧ e.code = 0x0006 ∧ e.ctx = c) ∧
      (parkStream k c n va access cause s).mem = s.mem := by
  unfold parkStream
  dsimp only
  refine ⟨?_, ?_, ⟨_, by rw [raise_logs]; rfl, rfl, rfl⟩, by rw [raise_mem]; rfl⟩
  · rw [tileAt_raise, tileAt_modB_same, tileAt_useFree]
    exact congrArg (·.st) (streamAt_setStream_same _ _ _ _)
  · rw [tileAt_raise, tileAt_modB_same, tileAt_useFree, tileAt_setStream_same]

section Walks
variable {site : Site} {n va access stream c : Nat} {s : State} (hkind : kindOf (siteNo site) = .B)
  (hwalk : (tileAt s (siteNo site)).b.walks[n]? = some ⟨c, va, [stream]⟩)
  (hwait : (streamAt (tileAt s (siteNo site)) stream).waitVa = some (va, access))
include hkind hwalk

/-- The tile without its walk that has ended. -/
def walkOver (k n : Nat) (s : State) : State := modB k (fun b => { b with walks := b.walks.eraseIdx n }) s

theorem exec_tlbWalk_leaf {pa size : Nat} {w : Bool} (hleaf : walk s c (quarterOf (noHoop (siteNo site))) va = .leaf pa size w) :
    exec (.tlbWalk site n) s = .next (groundPart s (walkDone (siteNo site) c w stream
      (tlbPut (siteNo site) ⟨c, va / size * size, size, pa, w⟩ (walkOver (siteNo site) n s)))) := by
  have hserves : ¬ kindOf (siteNo site) ≠ .B := fun h => h hkind
  change execTlbWalk site n s = _
  unfold execTlbWalk
  extract_lets k u s1
  split
  · next hnone => exact nomatch hwalk.symm.trans hnone
  · next w' hw' =>
    obtain rfl : ⟨c, va, [stream]⟩ = w' := Option.some.inj (hwalk.symm.trans hw')
    rw [if_neg hserves]
    split
    · next hue => exact nomatch hleaf.symm.trans hue
    · next hmiss => exact nomatch hleaf.symm.trans hmiss
    · next pa' size' wr hfound =>
      obtain ⟨rfl, rfl, rfl⟩ := Xlate.leaf.inj (hleaf.symm.trans hfound)
      rfl

include hwait in
theorem exec_tlbWalk_miss (hmiss : walk s c (quarterOf (noHoop (siteNo site))) va = .miss) :
    exec (.tlbWalk site n) s = .next (groundPart s (parkStream (siteNo site) c stream va access 0 (walkOver (siteNo site) n s))) := by
  have hwait' : (streamAt (tileAt (walkOver (siteNo site) n s) (siteNo site)) stream).waitVa = some (va, access) := by
    rw [walkOver, tileAt_modB_same]
    exact hwait
  have hserves : ¬ kindOf (siteNo site) ≠ .B := fun h => h hkind
  change execTlbWalk site n s = _
  unfold execTlbWalk
  extract_lets k u s1
  split
  · next hnone => exact nomatch hwalk.symm.trans hnone
  · next w' hw' =>
    obtain rfl : ⟨c, va, [stream]⟩ = w' := Option.some.inj (hwalk.symm.trans hw')
    rw [if_neg hserves]
    split
    · next hue => exact nomatch hmiss.symm.trans hue
    · simp only [List.foldl_cons, List.foldl_nil]
      split
      · next va' access' hfound =>
        obtain ⟨rfl, rfl⟩ := Prod.mk.inj (Option.some.inj (hwait'.symm.trans hfound))
        rfl
      · next hnone => exact nomatch hwait'.symm.trans hnone
    · next hleaf => exact nomatch hmiss.symm.trans hleaf

end Walks

/-- Settles O33: what ends a stream changes the stream, contexts and the requests alone, so each clause reads off what its command
sets before it. -/
theorem requestsCompleteAndWalksEnd : Obligations.RequestsCompleteAndWalksEnd := by
  unfold Obligations.RequestsCompleteAndWalksEnd
  refine ⟨fun site stream run s => ?requests, ⟨?merge, ?promote, ?receive, ?send⟩, ?walk⟩
  case requests =>
    intro k n x d hrun hkind hstarted
    refine ⟨?sent, ?waits, ?returns, ?acks, ?ends⟩
    case sent =>
      intro ctrl v rest hout hcred
      obtain ⟨y, hsend⟩ := sendStreamTok_sent (n := n) hout hcred
      refine ⟨_, exec_streamReadData_token hrun hkind hstarted hsend, ?_, fun hrest => ?_, ?_⟩
      · rw [hoopAt_groundPart, hoopAt_readEnd, hoopAt_setStream]
        exact sendTokVc_onWay _ _ _ _ _ _
      · rw [tileAt_groundPart, readEnd_of_out _ _ _ _ (by rw [streamAt_setStream_same]; exact hrest), streamAt_setStream_same]
      · rw [groundPart_mem, readEnd_mem, setStream_mem, sendTokVc_mem]
    case waits =>
      intro ctrl v rest hout hcred
      have hsend := sendStreamTok_waits (n := n) hout hcred
      have hstays (d : Nat) : readEnd k run.ctx n d (countWait k x s) = countWait k x s :=
        readEnd_of_out _ _ _ _ (by rw [streamAt_countWait]; exact hout ▸ List.cons_ne_nil _ _)
      refine ⟨_, exec_streamReadData_token hrun hkind hstarted hsend, ?_⟩
      rw [tileAt_groundPart, groundPart_mem, hstays, cntCwait_countWait, streamAt_countWait, countWait_mem]
      exact ⟨rfl, rfl, rfl⟩
    case returns =>
      intro q rest hout _ hdsc hreqs hread hq hmerge hrest hlen _ hue
      obtain ⟨hgone, hpacked, hmem⟩ :=
        readReturn_whole (k := k) (c := run.ctx) (n := n) hdsc hreqs hread hq hrest hlen hue
      refine ⟨_, exec_streamReadData_returns hrun hkind hstarted hout hdsc hreqs hread hmerge, ?_⟩
      rw [tileAt_groundPart, groundPart_mem]
      exact ⟨hgone, hpacked, hmem⟩
    case acks =>
      intro q hwrite hnodup hq hfind
      have hreqs := congrArg (·.reqs) (streamAt_acked k n q s)
      refine ⟨_, exec_streamWriteAck_acks hrun hkind hstarted hwrite hfind, ?_, ?_, fun hlast hst hnext hbits => ?_, ?_⟩
      · rw [tileAt_groundPart, reqs_writeEnd, hreqs]
        exact not_mem_eraseFirst_wid hnodup hq
      · rw [groundPart_net, writeEnd_net, acked_writes]
        exact eraseFirst_length (mem_writes_of_done hfind)
      · rw [tileAt_groundPart]
        refine writeEnd_completes k run.ctx n d ?_ ?_ ?_ ?_ <;> rw [streamAt_acked]
        · exact hst
        · exact hnext
        · rw [hlast]
          simp [eraseFirst]
        · exact hbits
      · rw [groundPart_mem, writeEnd_mem, acked_mem]
    case ends =>
      intro hwrite hkd hreqs hst hnext hbits
      refine ⟨_, exec_streamWriteAck_ends hrun hkind hstarted hwrite hkd hreqs, ?_⟩
      rw [tileAt_groundPart, groundPart_mem, writeEnd_mem]
      exact ⟨writeEnd_completes k run.ctx n d hst hnext hreqs hbits, rfl⟩
  case merge =>
    intro site n r g s k hrun hg hmay
    refine ⟨_, exec_mergeTimeout_issues hrun hg hmay, fun i q hq hread hblock => ?_, ?_, ?_⟩
    · rw [tileAt_groundPart, streamAt_issueGroup] at hq
      obtain ⟨r', -, rfl⟩ := List.mem_map.mp hq
      exact issuedReq_merge hread hblock
    · rw [tileAt_groundPart, tileAt_issueGroup, countReq, tileAt_modB_same, tileAt_modB_same]
    · rw [groundPart_ctxs]
      exact issueGroup_keeps State.ctxs (fun _ _ _ => rfl) (fun _ _ => rfl) (fun _ _ => rfl) r.ctx g s
  case promote =>
    intro site n w s k x ws hkind hw
    change execRequestPromote site n s = _
    have hserves : ¬ kindOf k ≠ .B := fun h => h hkind
    unfold execRequestPromote
    dsimp only
    rw [if_neg hserves, hw]
    rfl
  case receive =>
    intro site n m f s k hm hf hroom
    have hpeer : (tileAt (received k f s) k).b.peer = (tileAt s k).b.peer ++ [⟨f.out, f.ctx, f.val⟩] := by
      rw [received, tileAt_modB_same]
      rfl
    obtain ⟨y, hexec | hexec⟩ := exec_peerTokenReceive_takes hm hf hroom
    · refine ⟨_, hexec, ?_⟩
      rw [groundPart_net, tileAt_groundPart, groundPart_mem, peer_setStream, hpeer, setStream_mem]
      exact ⟨rfl, rfl, rfl⟩
    · refine ⟨_, hexec, ?_⟩
      rw [groundPart_net, tileAt_groundPart, groundPart_mem, peer_completeStream, hpeer, completeStream_net, completeStream_mem]
      exact ⟨rfl, rfl, rfl⟩
  case send =>
    intro site out r p s k hrun hfind hctx hcred
    refine ⟨_, exec_peerTokenSend_sends hrun hfind hctx hcred, ?_, ?_, ?_⟩
    · rw [hoopAt_groundPart]
      exact sendTokVc_onWay _ _ _ _ _ _
    · rw [tileAt_groundPart, tileAt_sendTokVc, tileAt_modB_same]
      exact eraseFirst_length ⟨p, List.mem_of_find?_eq_some hfind, List.find?_some (p := fun p : PeerTok => decide (p.out = out.val)) hfind⟩
    · rw [groundPart_mem, sendTokVc_mem, modB_mem]
  case walk =>
    intro site n va access stream c s k hkind hwalk hwait
    refine ⟨fun pa size w hleaf hw => ?_, fun hmiss => ?_⟩
    · obtain ⟨kept, htile⟩ := tileAt_tlbPut k ⟨c, va / size * size, size, pa, w⟩ (walkOver k n s)
      have hwait' : (streamAt (tileAt (tlbPut k ⟨c, va / size * size, size, pa, w⟩ (walkOver k n s)) k) stream).waitVa =
          some (va, access) := by
        rw [htile, walkOver, tileAt_modB_same]
        exact hwait
      have hexec := exec_tlbWalk_leaf hkind hwalk hleaf
      rw [walkDone_goes hwait' hw] at hexec
      refine ⟨_, hexec, ?_⟩
      rw [tileAt_groundPart, groundPart_mem, setStream_mem, streamAt_setStream_same, tileAt_setStream_same, htile, walkOver, tileAt_modB_same]
      exact ⟨List.mem_append_right _ (List.mem_singleton_self _), rfl, rfl, rfl, rfl⟩
    · have hpark : (tileAt (walkOver k n s) k).b.cntPark = (tileAt s k).b.cntPark := by rw [walkOver, tileAt_modB_same]
      obtain ⟨hst, hcnt, hraised, hmem⟩ := parkStream_parks k c stream va access 0 (walkOver k n s)
      refine ⟨_, exec_tlbWalk_miss hkind hwalk hwait hmiss, ?_⟩
      rw [tileAt_groundPart, groundPart_mem, groundPart_logs, ← hpark]
      exact ⟨hst, hcnt, hraised, hmem⟩

end Sys2Proof.Machine
end

section
/-! O32: streams start, await their phase and issue requests. -/

namespace Sys2Proof.Machine

/-! ### Streams that take issue slots (R236, R252) -/

/-- Streams that become ISSUING change their tile's streams alone. -/
theorem promoteStreams_keeps {α : Type} (g : State → α) {k : Nat} (hg : ∀ n x u, g (setStream k n x u) = g u) (r : RunSt) (fuel : Nat)
    (s : State) : g (promoteStreams k r fuel s) = g s := by
  induction fuel generalizing s with
  | zero => rfl
  | succ fuel ih =>
    unfold promoteStreams
    dsimp only
    split
    · rfl
    · split
      · rfl
      · exact (ih _).trans (hg _ _ _)

@[simp] theorem promoteStreams_mem (k : Nat) (r : RunSt) (fuel : Nat) (s : State) : (promoteStreams k r fuel s).mem = s.mem :=
  promoteStreams_keeps State.mem (fun _ _ _ => rfl) r fuel s

@[simp] theorem hoopAt_promoteStreams (k : Nat) (r : RunSt) (fuel : Nat) (s : State) (h : Nat) :
    hoopAt (promoteStreams k r fuel s) h = hoopAt s h :=
  promoteStreams_keeps (hoopAt · h) (fun _ _ _ => rfl) r fuel s

/-- A tile without its border-tile part. -/
def borderOff (t : Tile) : Tile := { t with b := BTile.reset }

theorem borderOff_modB (k : Nat) (f : BTile → BTile) (s : State) : borderOff (tileAt (modB k f s) k) = borderOff (tileAt s k) := by
  rw [tileAt_modB_same]
  rfl

theorem borderOff_setStream (k n : Nat) (x : Stream) (s : State) :
    borderOff (tileAt (setStream k n x s) k) = borderOff (tileAt s k) := borderOff_modB _ _ _

theorem borderOff_completeStream (k c n : Nat) (x : Stream) (s : State) :
    borderOff (tileAt (completeStream k c n x s) k) = borderOff (tileAt s k) := by
  rw [tileAt_completeStream, borderOff_setStream]

theorem borderOff_promoteStreams (k : Nat) (r : RunSt) (fuel : Nat) (s : State) :
    borderOff (tileAt (promoteStreams k r fuel s) k) = borderOff (tileAt s k) :=
  promoteStreams_keeps (fun u => borderOff (tileAt u k)) (fun _ _ _ => borderOff_setStream _ _ _ _) r fuel s

/-! ### Steps of a border tile (R235, R236, R253) -/

/-- A step fires after an effect that leaves its sequencer, its reload values and its queues alone. -/
theorem fires_after {site : Site} {kd : Kind} {c : Nat} {st : Stp} {s u : State} (h : StandsOn site kd c st s)
    (hoff : borderOff (tileAt u (siteNo site)) = borderOff (tileAt s (siteNo site))) (v : BitVec 32) :
    Fired (siteNo site) st u (fire (siteNo site) c st v u) := by
  have hseq : (tileAt u (siteNo site)).seq = (tileAt s (siteNo site)).seq := (congrArg Tile.seq hoff :)
  have hcfg : (tileAt u (siteNo site)).cfg = (tileAt s (siteNo site)).cfg := (congrArg Tile.cfg hoff :)
  have hqueues : (tileAt u (siteNo site)).queues = (tileAt s (siteNo site)).queues := (congrArg Tile.queues hoff :)
  obtain ⟨q, hq⟩ := Option.isSome_iff_exists.mp h.flows
  refine fire_fired (fun i hi => ?_) ((flowTo_congr hseq hcfg st).trans hq)
  rw [headOf_congr hqueues]
  exact h.sound i hi

/-- The streams that clash on a tile depend on its streams and their descriptors. -/
theorem portClash_congr {t t' : Tile} (hb : t'.b = t.b) (hprog : t'.prog = t.prog) : portClash t' = portClash t := by
  have hsd : sdAt t' = sdAt t := by
    funext n
    rw [sdAt, sdAt, progNum, progNum, hprog]
  rw [portClash, portClash, hb, hsd]

/-- An accepted step leaves the streams of its tile as its effect has made them. -/
theorem Accepts.portClash {kd : Kind} {k : Nat} {st : Stp} {s u w : State} (h : Accepts (ground w s) kd k st s u) :
    portClash (tileAt w k) = portClash (tileAt u k) := by
  obtain ⟨t, ht, hcase⟩ := h
  obtain rfl : groundPart s w = t := Host.Outcome.next.inj ht
  have hfired {u' : State} (hu : Fired k st u' (groundPart s w)) : Machine.portClash (tileAt w k) = Machine.portClash (tileAt u' k) := by
    obtain ⟨-, -, -, -, hb, -, -, hprog⟩ := hu.units
    exact portClash_congr hb hprog
  have hmark : Machine.portClash (tileAt (issueMark k u) k) = Machine.portClash (tileAt u k) :=
    portClash_congr (by rw [issueMark, tileAt_modTile_same]) (by rw [issueMark, tileAt_modTile_same])
  split at hcase
  · split at hcase
    · exact (hfired hcase).trans hmark
    · have htile : tileAt w k = tileAt (issueMark k u) k := (congrArg (fun v => tileAt v k) hcase :)
      rw [htile, hmark]
  · exact hfired hcase

section Steps
variable {site : Site} {r : RunSt} {st : Stp} {s : State} (h : StandsOn site .B r.ctx st s)
include h

/-- The state once a stream has started: it is STARTED, or COMPLETE where its descriptor names no element. -/
def streamStarted (k n : Nat) (r : RunSt) (s : State) : State :=
  let x := tileAt s k
  let y : Stream := { Stream.reset with st := .started, started := x.b.nextStart, out := (streamAt x n).out }
  let s1 := modB k (fun b => { b with nextStart := b.nextStart + 1 }) (setStream k n y s)
  if sdTotal (sdAt x n) = 0 then completeStream k r.ctx n y s1 else promoteStreams k r 1024 s1

omit h in
theorem borderOff_streamStarted (k n : Nat) (r : RunSt) (s : State) :
    borderOff (tileAt (streamStarted k n r s) k) = borderOff (tileAt s k) := by
  unfold streamStarted
  dsimp only
  split
  · rw [borderOff_completeStream, borderOff_modB, borderOff_setStream]
  · rw [borderOff_promoteStreams, borderOff_modB, borderOff_setStream]

/-- SSTART starts an idle or complete stream whose descriptor is sound. -/
theorem sstart_accepts (hrun : runOf s (siteNo site) = some r) {n : Nat} (hn : stepStream (tileAt s (siteNo site)) st = n)
    (hopc : st.opc = 1) (hissued : (tileAt s (siteNo site)).seq.issued = false) (hcount : n < sdCount (tileAt s (siteNo site)))
    (hfree : (streamAt (tileAt s (siteNo site)) n).st = .idle ∨ (streamAt (tileAt s (siteNo site)) n).st = .complete)
    (hsound : streamUndef s (siteNo site) (sdAt (tileAt s (siteNo site)) n) = false)
    (hclash : portClash (tileAt (streamStarted (siteNo site) n r s) (siteNo site)) = false) :
    Accepts (exec (.sstart site) s) .B (siteNo site) st s (streamStarted (siteNo site) n r s) := by
  subst hn
  have hoff := borderOff_streamStarted (siteNo site) (stepStream (tileAt s (siteNo site)) st) r s
  have hissue := issue_accepts h hissued (accept := fun _ => streamStarted (siteNo site) (stepStream (tileAt s (siteNo site)) st) r s)
    (congrArg Tile.seq hoff :) (congrArg Tile.cfg hoff :) (congrArg Tile.queues hoff :)
  have hidle : ((streamAt (tileAt s (siteNo site)) (stepStream (tileAt s (siteNo site)) st)).st ≠ .idle &&
      (streamAt (tileAt s (siteNo site)) (stepStream (tileAt s (siteNo site)) st)).st ≠ .complete) = false := by
    obtain hfree | hfree := hfree <;> simp [hfree]
  have hquiet := hissue.portClash
  rw [hclash] at hquiet
  change Accepts (execSstart site s) _ _ _ _ _
  rw [execSstart, tileStep_stands h (by simp [hopc])]
  dsimp only
  rw [hissued, hidle, hsound, if_neg Bool.false_ne_true, if_neg (Nat.not_le.mpr hcount), if_neg Bool.false_ne_true,
    if_neg Bool.false_ne_true]
  rw [issue_congr (g := fun _ => streamStarted (siteNo site) (stepStream (tileAt s (siteNo site)) st) r s) ?starts, hquiet,
    if_neg Bool.false_ne_true]
  · exact hissue
  case starts =>
    have hrun' (f : BTile → BTile) (n : Nat) (y : Stream) :
      runOf (modB (siteNo site) f (setStream (siteNo site) n y s)) (siteNo site) = some r := hrun
    unfold streamStarted
    simp only [hrun']

/-- SWAIT fires once its stream, started in the run, is COMPLETE. -/
theorem swait_fires (hopc : st.opc = 2) (hcount : stepStream (tileAt s (siteNo site)) st < sdCount (tileAt s (siteNo site)))
    (hstarted : (streamAt (tileAt s (siteNo site)) (stepStream (tileAt s (siteNo site)) st)).started ≠ 0)
    (hdone : (streamAt (tileAt s (siteNo site)) (stepStream (tileAt s (siteNo site)) st)).st = .complete)
    (hend : st.flow = 4 → fenceOk (tileAt s (siteNo site)) .B = true) :
    ∃ t, exec (.swait site) s = .next t ∧ Fired (siteNo site) st s t := by
  refine ⟨_, congrArg (ground · s) (tileStep_stands h (by simp [hopc]) _), Fired.groundPart ?_⟩
  dsimp only
  rw [if_neg (Nat.not_le.mpr hcount)]
  exact plainStep_fires h (by simp [hstarted, hdone]) hend plainCtl

/-- A PHASE step fires once the READ streams of its tile are COMPLETE, and the tile has then fired it. -/
theorem phaseStep_fires {out : Bool} {i : Instr} (hi : exec i s = phaseStep out site s) (hopc : st.opc = 3)
    (hout : bitAt st.args 0 = out) (hreads : readsDone (tileAt s (siteNo site)) = true)
    (hend : st.flow = 4 → fenceOk (tileAt s (siteNo site)) .B = true) : ∃ t, exec i s = .next t ∧
      Fired (siteNo site) st (modB (siteNo site) (fun b => { b with fired := max b.fired (if out then 2 else 1) }) s) t := by
  have hready : (!readsDone (tileAt s (siteNo site)) || (decide (st.flow = 4) && !fenceOk (tileAt s (siteNo site)) .B)) = false := by
    by_cases hf : st.flow = 4 <;> simp [hreads, hf, hend]
  rw [hi]
  refine ⟨_, congrArg (ground · s) (tileStep_stands h (by simp [hopc, hout]) _), Fired.groundPart ?_⟩
  dsimp only
  rw [hready, if_neg Bool.false_ne_true]
  exact fires_after h (borderOff_modB _ _ _) plainCtl

end Steps

/-! ### A region moves on (R252, R253) -/

/-- A run that a Hoop holds, once it has moved to a phase and its streams have taken issue slots. -/
def phaseMoved (h : Nat) (r : RunSt) (p : Phase) (s : State) : State :=
  (activeB s h r).foldl (fun s k => promoteStreams k { r with phase := p } 1024 s)
    (modHoop h (fun x => { x with runs := x.runs.map fun y => if y = r then { y with phase := p } else y }) s)

theorem phaseMoved_mem (h : Nat) (r : RunSt) (p : Phase) (s : State) : (phaseMoved h r p s).mem = s.mem :=
  foldl_keeps State.mem _ (fun _ _ => promoteStreams_mem _ _ _ _) _ _

theorem mem_runs_phaseMoved {h : Nat} {r : RunSt} (p : Phase) {s : State} (hr : r ∈ (hoopAt s h).runs) :
    { r with phase := p } ∈ (hoopAt (phaseMoved h r p s) h).runs := by
  have hruns : hoopAt (phaseMoved h r p s) h = hoopAt (modHoop h (fun x => { x with
      runs := x.runs.map fun y => if y = r then { y with phase := p } else y }) s) h :=
    foldl_keeps (hoopAt · h) _ (fun _ _ => hoopAt_promoteStreams _ _ _ _ _) _ _
  rw [hruns, hoopAt_modHoop_same]
  exact List.mem_map.mpr ⟨r, hr, if_pos rfl⟩

section Phases
variable {hoop : Fin 8} {entry : Fin 128} {r : RunSt} {s : State}
  (hfind : (hoopAt s hoop.val).runs.find? (fun r => decide (r.entry = entry.val) && decide (r.stage = .running)) = some r)
  (hbs : activeB s hoop.val r ≠ [])
include hfind hbs

theorem phaseAdvance_moves {n : Nat} {p : Phase}
    (hfrom : r.phase = .input ∧ n = 1 ∧ p = .compute ∨ r.phase = .compute ∧ n = 2 ∧ p = .output ∧ (r.split = true → r.outOk = true))
    (hfired : ∀ k ∈ activeB s hoop.val r, n ≤ (tileAt s k).b.fired ∨ (tileAt s k).seq.ended = true)
    (hclash : ∀ k ∈ activeB s hoop.val r, portClash (tileAt (phaseMoved hoop.val r p s) k) = false) :
    ∃ t, exec (.phaseAdvance hoop entry) s = .next t ∧ { r with phase := p } ∈ (hoopAt t hoop.val).runs ∧ t.mem = s.mem := by
  have hall : (!(activeB s hoop.val r).isEmpty && (activeB s hoop.val r).all fun k =>
      decide (n ≤ (tileAt s k).b.fired) || (tileAt s k).seq.ended) = true := by
    simpa [hbs] using hfired
  have hquiet : ((activeB s hoop.val r).any fun k => portClash (tileAt (phaseMoved hoop.val r p s) k)) = false := by
    simpa using hclash
  have hexec : exec (.phaseAdvance hoop entry) s = .next (groundPart s (phaseMoved hoop.val r p s)) := by
    change execPhaseAdvance hoop entry s = _
    unfold execPhaseAdvance
    simp only [hfind]
    obtain ⟨hphase, rfl, rfl⟩ | ⟨hphase, rfl, rfl, hsplit⟩ := hfrom
    · simp only [hphase, hall, if_true]
      exact congrArg (ground · s) (if_neg (Bool.eq_false_iff.mp hquiet))
    · have houts : (!r.split || r.outOk) = true := by
        cases hs : r.split
        · rfl
        · exact hsplit hs
      simp only [hphase, hall, houts, Bool.and_self, if_true]
      exact congrArg (ground · s) (if_neg (Bool.eq_false_iff.mp hquiet))
  refine ⟨_, hexec, ?_, ?_⟩
  · rw [hoopAt_groundPart]
    exact mem_runs_phaseMoved p (List.mem_of_find?_eq_some hfind)
  · rw [groundPart_mem, phaseMoved_mem]

end Phases

/-! ### A request enters (R244) -/

/-- A stream that `f` moves on holds one more request. -/
def addReq (k n wid : Nat) (r : StreamReq) (f : Stream → Stream) (m : Bool) (s : State) : State :=
  setStream k n { f (streamAt (tileAt s k) n) with
      reqs := (f (streamAt (tileAt s k) n)).reqs ++ [{ r with wid := wid, grp := wid, merge := m }] }
    (modNet (fun m => { m with nextWid := m.nextWid + 1 }) s)

/-- In t a stream of x holds request r, under some number, and stands at element e. -/
structure Entered (k n : Nat) (r : StreamReq) (e : Nat) (t : State) : Prop where
  req  : ∃ wid grp m, { r with wid := wid, grp := grp, merge := m } ∈ (streamAt (tileAt t k) n).reqs
  next : (streamAt (tileAt t k) n).next = e

theorem entered_addReq {k n wid e : Nat} {r : StreamReq} {f : Stream → Stream} {m : Bool} {s : State}
    (he : (f (streamAt (tileAt s k) n)).next = e) : Entered k n r e (addReq k n wid r f m s) := by
  refine ⟨⟨wid, wid, m, ?_⟩, ?_⟩ <;> rw [addReq, streamAt_setStream_same]
  · exact List.mem_append_right _ (List.mem_singleton_self _)
  · exact he

section Entered
variable {k n e : Nat} {r : StreamReq} {t : State} (h : Entered k n r e t)
include h

theorem Entered.of_streamAt {t' : State} (hs : streamAt (tileAt t' k) n = streamAt (tileAt t k) n) : Entered k n r e t' :=
  ⟨hs ▸ h.req, hs ▸ h.next⟩

/-- A request that has entered stays while its entry of the merge buffer, or another, is issued. -/
theorem Entered.issueGroup (c : Nat) (g : Bool × Nat) : Entered k n r e (issueGroup k c g t) := by
  obtain ⟨⟨wid, grp, m, hmem⟩, hnext⟩ := h
  refine ⟨?_, by rw [streamAt_issueGroup]; exact hnext⟩
  rw [streamAt_issueGroup]
  have hmap := List.mem_map_of_mem (f := issuedReq (groupId (tileAt t k) g) g) hmem
  unfold issuedReq at hmap
  split at hmap
  · exact ⟨_, _, _, hmap⟩
  · exact ⟨_, _, _, hmap⟩

end Entered

/-- A request that the engine has room for enters. -/
theorem enterReq_enters {k c n e : Nat} {r : StreamReq} {f : Stream → Stream} {s : State}
    (hroom : canIssue (tileAt s k) r.isRead = true)
    (hmay : sdMerge (sdAt (tileAt s k) n) = true → ∀ g, (mergeGroups (tileAt s k)).head? = some g → mayIssue s k g = true)
    (hf : ∀ rs, (f { streamAt (tileAt s k) n with reqs := rs }).next = e) : Entered k n r e (enterReq k c n r f s) := by
  have hadd (wid : Nat) (m : Bool) : Entered k n r e (addReq k n wid r f m s) := entered_addReq (hf _)
  have hcount (wid : Nat) : Entered k n r e (countReq k r.isRead r.len (addReq k n wid r f false s)) :=
    (hadd wid false).of_streamAt (streamAt_countReq _ _ _ _ _)
  unfold enterReq
  dsimp only
  split
  · have hmerged := (hadd s.net.nextWid true).of_streamAt
      (t' := modB k (fun b => { b with cntMerged := satAdd 32 b.cntMerged 1 }) (addReq k n s.net.nextWid r f true s))
      (by rw [tileAt_modB_same]; rfl)
    split
    · exact hmerged.issueGroup c _
    · exact hmerged
  · split
    · next hmerge =>
      obtain ⟨hmerge, -⟩ := Bool.and_eq_true_iff.mp hmerge
      split
      · exact hadd _ _
      · next hfull =>
        obtain ⟨old, rest, hgroups⟩ : ∃ old rest, mergeGroups (tileAt s k) = old :: rest := by
          cases hgs : mergeGroups (tileAt s k) with
          | nil => simp [hgs] at hfull
          | cons old rest => exact ⟨old, rest, rfl⟩
        have hold := hmay hmerge old (by rw [hgroups]; rfl)
        rw [hgroups, List.headD_cons, if_pos hold]
        refine entered_addReq ?_
        rw [streamAt_issueGroup]
        exact hf _
    · split
      · exact hcount _
      · exact (hcount _).of_streamAt (by rw [tileAt_putWrite]; rfl)

/-- Outside the merge buffer a read that enters changes no memory. -/
theorem enterReq_mem {k c n : Nat} {r : StreamReq} {f : Stream → Stream} {s : State}
    (hmerge : sdMerge (sdAt (tileAt s k) n) = false) (hread : r.isRead = true) : (enterReq k c n r f s).mem = s.mem := by
  simp only [enterReq, hmerge, hread, Bool.false_and, Bool.false_eq_true, if_false, if_true]
  split <;> rfl

/-! ### The elements of a request (R238, R244) -/

theorem coverable_le (s : State) (c : Nat) (a : Int) (w cnt : Nat) : coverable s c a w cnt ≤ cnt :=
  (List.takeWhile_sublist _).length_le.trans (List.length_range (n := cnt)).le

theorem runLen_le (d index e cap : Nat) : runLen d index e cap ≤ cap :=
  (List.takeWhile_sublist _).length_le.trans (List.length_range (n := cap)).le

/-- A request of a stream without index covers its next element. -/
theorem runLen_pos {d e cap : Nat} (hindex : sdIen d = false) (hcap : 0 < cap) : 0 < runLen d (coordOf d e 4) e cap := by
  obtain ⟨m, rfl⟩ := Nat.exists_eq_add_one.mpr hcap
  simp [runLen, List.range_succ_eq_map, hindex]

theorem sdEsize_pos (d : Nat) : 0 < sdEsize d := Nat.two_pow_pos _

theorem sdEsize_le (d : Nat) : sdEsize d ≤ 8 :=
  Nat.pow_le_pow_right (j := 3) two_pos (Nat.le_of_lt_succ (fld_lt d 50 2))

theorem sdTsize_pos (d : Nat) : 0 < sdTsize d := by
  unfold sdTsize
  split
  · exact Nat.pos_of_dvd_of_pos (fmtBytes_dvd_unit _) (by decide)
  · exact sdEsize_pos d

/-- Elements within one aligned block take at most 256 bytes. -/
theorem elems_fit {d m cnt : Nat} (hm : m ≤ max 1 cnt) (hcnt : cnt ≤ 256 / sdEsize d) : m * sdEsize d ≤ 256 := by
  have hone : 1 ≤ 256 / sdEsize d := Nat.div_pos ((sdEsize_le d).trans (by decide)) (sdEsize_pos d)
  calc m * sdEsize d ≤ 256 / sdEsize d * sdEsize d := Nat.mul_le_mul_right _ (hm.trans (max_le hone hcnt))
    _ ≤ 256 := Nat.div_mul_le_self _ _

/-! ### One request of an issuing stream (R239, R244, R247) -/

section Issue
variable {k c n d : Nat} {s : State} (hleft : (streamAt (tileAt s k) n).next < sdTotal d)
include hleft

/-- A PEER stream sends its next token as a message. -/
theorem peerIssue_sends {q : Token} (hhead : headOf (tileAt s k) (sdPort d) = .tok q) : ∃ w,
    peerIssue k c n d s = modNet (fun m => { m with
      peers := m.peers ++ [⟨w, k, n, bTileNo (fld (sdVbase d) 0 3) (fld (sdVbase d) 3 5), fld (sdVbase d) 8 2, c, q.val⟩]
      nextWid := m.nextWid + 1 }) (setStream k n { streamAt (tileAt (windowPop k (sdPort d) s) k) n with
        next := min (sdTotal d) ((streamAt (tileAt s k) n).next + 64 / sdEsize d) } (windowPop k (sdPort d) s)) := by
  simp only [peerIssue, if_neg (Nat.not_le.mpr hleft), hhead]
  exact ⟨_, rfl⟩

variable (hmask : sdMen d = false) (hindex : sdIen d = false)
  (halign : elemAddr d (streamAt (tileAt s k) n).next (coordOf d (streamAt (tileAt s k) n).next 4) % (sdEsize d : Int) = 0)
include hmask hindex halign

/-- A READ whose access translates has its request enter. -/
theorem readIssue_enters {pa : Nat} (hbits : (streamAt (tileAt s k) n).bits = [])
    (hat : streamAccess k c n (elemAddr d (streamAt (tileAt s k) n).next (coordOf d (streamAt (tileAt s k) n).next 4)) (sdEsize d)
      false ((streamAt (tileAt s k) n).reqs.isEmpty && (streamAt (tileAt s k) n).out.isEmpty) 0 s = .at_ pa) :
    ∃ (m : Nat) (r : StreamReq) (f : Stream → Stream), readIssue k c n d s = enterReq k c n r f s ∧ 1 ≤ m ∧ m * sdEsize d ≤ 256 ∧
      r.first = (streamAt (tileAt s k) n).next ∧ r.count = m ∧ r.pa = pa ∧ r.isRead = true ∧
      ∀ rs, (f { streamAt (tileAt s k) n with reqs := rs }).next = (streamAt (tileAt s k) n).next + m := by
  simp only [readIssue, if_neg (Nat.not_le.mpr hleft), hmask, hindex, halign, hat, indexKnown, Bool.false_and, Bool.not_false,
    Bool.false_eq_true, if_false, if_true, ne_eq, not_true_eq_false]
  refine ⟨_, _, _, rfl, le_max_left _ _, elems_fit (max_le_max le_rfl ((coverable_le _ _ _ _ _).trans (runLen_le _ _ _ _)))
    (min_le_left _ _), rfl, rfl, rfl, rfl, fun rs => ?_⟩
  simp [skipStrips, hbits]

/-- A WRITE that holds a token has its request enter. -/
theorem writeIssue_enters {pa : Nat} (hroom : canIssue (tileAt s k) false = true) (hbuf : sdTsize d ≤ (streamAt (tileAt s k) n).buf.length)
    (hqueue : qToks (tileAt s k) (sdPort d) = [])
    (hat : streamAccess k c n (elemAddr d (streamAt (tileAt s k) n).next (coordOf d (streamAt (tileAt s k) n).next 4)) (sdEsize d)
      true (streamAt (tileAt s k) n).reqs.isEmpty 1 s = .at_ pa) :
    ∃ (m : Nat) (r : StreamReq) (f : Stream → Stream), writeIssue k c n d s = enterReq k c n r f (useFree 512 s) ∧ 1 ≤ m ∧
      m * sdEsize d ≤ 256 ∧ r.first = (streamAt (tileAt s k) n).next ∧ r.count = m ∧ r.pa = pa ∧ r.isRead = false ∧
      r.len = r.data.length ∧
      ∀ rs, (f { streamAt (tileAt s k) n with reqs := rs }).next = (streamAt (tileAt s k) n).next + m := by
  have hhave : (streamAt (tileAt s k) n).buf.length / sdTsize d ≠ 0 := (Nat.div_pos hbuf (sdTsize_pos d)).ne'
  simp only [writeIssue, Nat.not_le.mpr hleft, hroom, hqueue, hhave, hmask, hindex, halign, hat, indexKnown, Bool.false_and, Bool.not_false,
    Bool.not_true, Bool.and_false, Bool.or_self, decide_false, List.isEmpty_nil, Bool.false_eq_true, if_false, if_true, ne_eq, not_true_eq_false]
  refine ⟨_, _, _, rfl, le_max_left _ _, elems_fit (max_le_max le_rfl ((coverable_le _ _ _ _ _).trans ((min_le_right _ _).trans
    (runLen_le _ _ _ _)))) (min_le_left _ _), rfl, rfl, rfl, rfl, rfl, fun rs => rfl⟩

/-- A WRITE without enough takes the next token of its queue. -/
theorem writeIssue_takes {q : Token} (hroom : canIssue (tileAt s k) false = true)
    (hbuf : (streamAt (tileAt s k) n).buf.length < sdTsize d) (hhead : headOf (tileAt s k) (sdPort d) = .tok q) :
    writeIssue k c n d s = setStream k n { streamAt (tileAt s k) n with
      buf := (streamAt (tileAt s k) n).buf ++ tokBytes q.val } (windowPop k (sdPort d) s) := by
  have hhave : (streamAt (tileAt s k) n).buf.length / sdTsize d = 0 := Nat.div_eq_of_lt hbuf
  have hwant : 0 < runLen d (coordOf d (streamAt (tileAt s k) n).next 4) (streamAt (tileAt s k) n).next
      (min (256 / sdEsize d) (stripLeft d (streamAt (tileAt s k) n).next (sdTotal d))) := by
    refine runLen_pos hindex (lt_min (Nat.div_pos ((sdEsize_le d).trans (by decide)) (sdEsize_pos d)) ?_)
    simp only [stripLeft, hmask, Bool.false_eq_true, if_false]
    exact Nat.sub_pos_of_lt hleft
  have hsome : (qToks (tileAt s k) (sdPort d)).isEmpty = false := by
    rw [toks_of_headOf hhead]
    rfl
  have hstream : streamAt (tileAt (windowPop k (sdPort d) s) k) n = streamAt (tileAt s k) n := by
    rw [streamAt, tileAt_windowPop_b]
    rfl
  simp only [writeIssue, Nat.not_le.mpr hleft, hroom, hhave, hwant, hsome, hmask, hindex, halign, indexKnown, Bool.false_and, Bool.not_false,
    Bool.not_true, Bool.and_self, Bool.or_self, decide_false, decide_true, Bool.false_eq_true, if_false, if_true, ne_eq, not_true_eq_false,
    takeData, hhead, hstream]

end Issue

section Command
variable {site : Site} {stream : Fin 1024} {r : RunSt} {s u : State} {x : Stream} {d : Nat}
  (hrun : runOf s (siteNo site) = some r) (hkind : kindOf (siteNo site) = .B)
  (hstarted : (streamAt (tileAt s (siteNo site)) stream.val).started ≠ 0) (hu : promoteStreams (siteNo site) r 1024 s = u)
  (hclash : portClash (tileAt u (siteNo site)) = false) (hx : streamAt (tileAt u (siteNo site)) stream.val = x)
  (hd : sdAt (tileAt u (siteNo site)) stream.val = d)
include hrun hkind hstarted hu hclash hx hd

/-- A stream that its phase holds counts the wait. -/
theorem exec_streamIssue_held (hst : x.st = .started) (hphase : phaseAllows r (sdWrite d) = false) :
    exec (.streamIssue site stream) s =
      .next (groundPart s (modB (siteNo site) (fun b => { b with cntPwait := satAdd 32 b.cntPwait 1 }) u)) := by
  subst hx hd hu
  change execStreamIssue site stream s = _
  simp only [execStreamIssue, hrun, hkind, hstarted, hclash, hst, hphase, ne_eq, not_true_eq_false, decide_false, decide_true, Bool.or_self,
    Bool.true_or, Bool.not_false, Bool.and_self, Bool.false_eq_true, if_false, if_true, ground]

/-- An issuing stream that its phase allows, and that no walk holds, issues one request. -/
theorem exec_streamIssue_issues (hst : x.st = .issuing) (hphase : phaseAllows r (sdWrite d) = true) (hwait : x.waitVa = none) :
    exec (.streamIssue site stream) s = .next (groundPart s (if sdKind d = 2 then peerIssue (siteNo site) r.ctx stream.val d u
      else if sdWrite d then writeIssue (siteNo site) r.ctx stream.val d u else readIssue (siteNo site) r.ctx stream.val d u)) := by
  subst hx hd hu
  change execStreamIssue site stream s = _
  simp only [execStreamIssue, hrun, hkind, hstarted, hclash, hst, hphase, hwait, ne_eq, not_true_eq_false, decide_false, Bool.or_self,
    Bool.not_true, Bool.and_false, Option.isSome_none, Bool.false_eq_true, if_false, ground]

end Command

/-- Settles O32: steps by the rules of issue, and each request by what enters. -/
theorem streamsStartAndIssueRequests : Obligations.StreamsStartAndIssueRequests := by
  unfold Obligations.StreamsStartAndIssueRequests
  refine ⟨⟨?steps, ?phases⟩, ?issue⟩
  case steps =>
    intro site r st s h hrun k x n d y y' s1 u
    refine ⟨fun hopc hissued hcount hfree hsound hclash => ?_, fun hopc hcount hstarted hdone hend => ?_,
      fun hopc hout hreads hend => ?_, fun hopc hout hreads hend => ?_⟩
    · exact sstart_accepts h hrun rfl hopc hissued hcount hfree hsound hclash
    · exact swait_fires h hopc hcount hstarted hdone hend
    · exact phaseStep_fires h rfl hopc hout hreads hend
    · exact phaseStep_fires h rfl hopc hout hreads hend
  case phases =>
    intro hoop entry r s h bs moved hfind hbs
    exact ⟨fun hphase hfired hclash => phaseAdvance_moves hfind hbs (.inl ⟨hphase, rfl, rfl⟩) hfired hclash,
      fun hphase hsplit hfired hclash => phaseAdvance_moves hfind hbs (.inr ⟨hphase, rfl, rfl, hsplit⟩) hfired hclash⟩
  case issue =>
    intro site stream r s k n u x d a hrun hkind hstarted hclash
    have hu : promoteStreams k r 1024 s = u := rfl
    have hmem : u.mem = s.mem := promoteStreams_mem _ _ _ _
    clear_value u
    refine ⟨fun hst hphase => exec_streamIssue_held hrun hkind hstarted hu hclash rfl rfl hst hphase,
      fun hst hphase hwait hleft => ?_⟩
    have hexec := exec_streamIssue_issues hrun hkind hstarted hu hclash rfl rfl hst hphase hwait
    rw [hexec]
    refine ⟨fun q hpeer hhead => ?peer, fun pa hkd hread hmask hindex hbits hroom hmay halign hat => ?read,
      fun pa hkd hwrite hmask hindex hroom hmay halign hbuf hqueue hat => ?write,
      fun q hkd hwrite hmask hindex hroom halign hbuf hhead => ?take⟩
    case peer =>
      obtain ⟨w, hsends⟩ := peerIssue_sends (c := r.ctx) hleft hhead
      rw [if_pos hpeer]
      refine ⟨_, rfl, ⟨w, ?_⟩, ?_, ?_⟩ <;> rw [hsends]
      · exact List.mem_append_right _ (List.mem_singleton_self _)
      · rw [tileAt_groundPart, tileAt_modNet, tileAt_setStream_same]
        exact qToks_windowPop _ _ _
      · rw [tileAt_groundPart, tileAt_modNet, streamAt_setStream_same]
    case read =>
      obtain ⟨m, q, f, henter, hpos, hfit, hfirst, hcount, hpa, hdir, hnext⟩ :=
        readIssue_enters (c := r.ctx) hleft hmask hindex halign hbits hat
      obtain ⟨⟨wid, grp, mg, hreq⟩, hstands⟩ := enterReq_enters (c := r.ctx) (r := q) (f := f) (by rw [hdir]; exact hroom) hmay hnext
      rw [if_neg hkd, hread, if_neg Bool.false_ne_true, henter]
      refine ⟨_, m, rfl, hpos, hfit, hstands, ⟨_, hreq, hfirst, hcount, hpa, hdir⟩, fun hmerge => ?_⟩
      rw [groundPart_mem, enterReq_mem hmerge hdir, hmem]
    case write =>
      obtain ⟨m, q, f, henter, hpos, hfit, hfirst, hcount, hpa, hdir, hlen, hnext⟩ :=
        writeIssue_enters (c := r.ctx) hleft hmask hindex halign hroom hbuf hqueue hat
      obtain ⟨⟨wid, grp, mg, hreq⟩, hstands⟩ :=
        enterReq_enters (c := r.ctx) (r := q) (f := f) (s := useFree 512 u) (by rw [hdir]; exact hroom) hmay hnext
      rw [if_neg hkd, hwrite, if_pos rfl, henter]
      exact ⟨_, m, rfl, hpos, hfit, hstands, _, hreq, hfirst, hcount, hpa, hdir, hlen⟩
    case take =>
      have htakes := writeIssue_takes (c := r.ctx) hleft hmask hindex halign hroom hbuf hhead
      rw [if_neg hkd, hwrite, if_pos rfl, htakes]
      refine ⟨_, rfl, ?_⟩
      rw [tileAt_groundPart, streamAt_setStream_same, groundPart_mem, setStream_mem, windowPop_mem, tileAt_setStream_same]
      exact ⟨rfl, qToks_windowPop _ _ _, rfl, hmem⟩

end Sys2Proof.Machine
end

section
/-! O19: a boundary at which an entry of a batch ends writes the entry's slot. -/

namespace Sys2Proof.Machine

/-- DEBUG_MODE, an entry of a batch whose slots stand in the push buffer of port 0, waits for its boundary. -/
def batchedDebug : Wait :=
  { seq := 1, origin := .batch 0 0 0 false, opcode := 0x68, txnId := 0, tag := 0, accepted := false, what := .debug true }

/-- The module after a cold reset, with that entry waiting. -/
def batchedState : State := { State.reset with waits := [batchedDebug] }

/-- At the boundary the entry's status stands in its slot: FLAGS, the second byte, is no longer 0. -/
theorem stitchBoundary_batchedState :
    ∃ t, exec .stitchBoundary batchedState = .next t ∧ Tab.get 0 t.mem (pushBase 0 + 1) = 128 :=
  ⟨_, rfl, by decide +kernel⟩

/-- Refutes O19, by its clause on DEBUG_MODE: an entry of a batch receives its completion in its slot (R437), and one whose slot
stands in the push buffer, which is memory of the module, does not leave memory as it was when it ends at the boundary. -/
theorem not_boundariesApplyWhatWaits : ¬ Obligations.BoundariesApplyWhatWaits := by
  unfold Obligations.BoundariesApplyWhatWaits
  rintro ⟨-, -, hwaiting⟩
  obtain ⟨hdebug, -⟩ := hwaiting batchedState batchedDebug rfl rfl (fun _ _ => rfl) rfl
  obtain ⟨t, hexec, -, -, -, hmem, -⟩ := hdebug true rfl
  obtain ⟨u, hstep, hslot⟩ := stitchBoundary_batchedState
  obtain rfl : t = u := Host.Outcome.next.inj (hexec.symm.trans hstep)
  rw [hmem] at hslot
  exact absurd hslot (by decide)

end Sys2Proof.Machine
end

section
/-! Knot words, bindings and requests: how a knot's word reads back, and what bindings, replies and requests leave as it was. -/

namespace Sys2Proof.Machine

/-! ### Numbers of knot words -/

theorem leNat_lt (bs : List Byte) : leNat bs < 2 ^ (8 * bs.length) := by
  induction bs with
  | nil => exact Nat.one_pos
  | cons b bs ih =>
    have hb := b.isLt
    rw [List.length_cons, Nat.mul_succ, Nat.pow_add, leNat]
    omega

/-- The low bytes of a number spell it when it fits in them. -/
theorem leNat_toLE_of_lt {n x : Nat} (hx : x < 2 ^ (8 * n)) : leNat (toLE n x) = x := by
  induction n generalizing x with
  | zero => exact (Nat.lt_one_iff.mp hx).symm
  | succ n ih =>
    rw [Nat.mul_succ, Nat.pow_add] at hx
    rw [toLE, leNat, ih (Nat.div_lt_of_lt_mul (by omega)), BitVec.toNat_ofNat]
    exact Nat.mod_add_div x 256

/-- A field set within n bits leaves a number of n bits. -/
theorem setFld_lt {x lo w v n : Nat} (hx : x < 2 ^ n) (hfit : lo + w ≤ n) : setFld x lo w v < 2 ^ n := by
  refine Nat.lt_pow_two_of_testBit _ fun i hi => ?_
  rw [setFld_testBit, if_neg (by omega)]
  exact Nat.testBit_lt_two_pow (hx.trans_le (Nat.pow_le_pow_right Nat.two_pos hi))

/-- A word of memory has 64 bits. -/
theorem peekNum_lt {pa : Nat} (hram : isPs pa = false) (s : State) : peekNum s pa 8 < 2 ^ 64 := by
  have h := leNat_lt (peek s pa 8)
  rwa [peek_outside hram, bytesAt_length, ← peek_outside hram] at h

/-- A word that was written last reads back. -/
theorem peekNum_written {t : State} {m : Tab Byte} {pa v : Nat} (hram : isPs pa = false) (hv : v < 2 ^ 64)
    (hmem : t.mem = putBytes m pa (toLE 8 v)) : peekNum t pa 8 = v := by
  have hread := peek_written hram hmem
  rw [toLE_length] at hread
  rw [peekNum, hread, leNat_toLE_of_lt hv]

theorem knFull_setFull (x : Nat) : knFull (setFld x 63 1 1) = true := bitAt_setFld_same (a := 0) Nat.one_pos

theorem knFull_setCount (x v : Nat) : knFull (setFld x 24 16 v) = knFull x := bitAt_setFld_other (by omega)

/-! ### Bindings -/

section Binding
variable (k b : Nat) (x : Binding) (s : State)

@[simp] theorem setBinding_mem : (setBinding k b x s).mem = s.mem := rfl
@[simp] theorem hoopAt_setBinding (h : Nat) : hoopAt (setBinding k b x s) h = hoopAt s h := rfl

theorem tileAt_setBinding :
    tileAt (setBinding k b x s) k = { tileAt s k with kb := Tab.set .ready (tileAt s k).kb b x } := tileAt_modTile_same _ _ _

theorem bindingAt_setBinding : bindingAt (tileAt (setBinding k b x s) k) b = x := by
  rw [tileAt_setBinding]
  exact Tab.get_set_same _ _ _ _

theorem qToks_setBinding (j q : Nat) : qToks (tileAt (setBinding k b x s) j) q = qToks (tileAt s j) q := by
  rw [setBinding, tileAt_modTile]
  split
  · next hj => rw [hj]; rfl
  · rfl

end Binding

/-- A fault of a binding's request is raised in its context, and the binding is idle. -/
theorem siteFault_binding {b : Nat} (hb : b < 8) (c k word : Nat) (code : FaultCode) (d : FaultDetail) (s : State) :
    siteFault c k b code d word s = setBinding k b .ready (faultWith c code (tileItem s k) d s) := by
  rw [siteFault, if_neg (by simp; omega), if_pos hb, if_pos hb]

/-! ### Replies -/

/-- The replies with a knot's VALUE to waiters. -/
def replied (pa value : Nat) (ws : List Waiter) (s : State) : State :=
  ws.foldl (fun s x => replyTo x.fromMod x.site x.binding x.ctx value false pa s) s

theorem replyTo_own {m : Nat} {s : State} (hown : m = ownId s) (site b c v : Nat) (retry : Bool) (pa : Nat) :
    replyTo m site b c v retry pa s = modNet (fun n => { n with reps := n.reps ++
      [⟨knotPort pa, site, b, BitVec.ofNat 24 v, retry, Tab.get [] s.net.clocks (2 * pa)⟩] }) s := by
  rw [replyTo, if_pos hown]

theorem replyTo_keeps {α : Type} (g : State → α) (hlinks : ∀ u, g (linksOff u) = g u)
    (hreps : ∀ (f : List KnotRep → List KnotRep) u, g (modNet (fun n => { n with reps := f n.reps }) u) = g u)
    (m site b c v : Nat) (retry : Bool) (pa : Nat) (s : State) : g (replyTo m site b c v retry pa s) = g s := by
  unfold replyTo
  dsimp only
  split
  · exact hreps (· ++ _) s
  · exact sendOut_keeps g _ _ _ _ s hlinks

theorem replied_keeps {α : Type} (g : State → α) (hlinks : ∀ u, g (linksOff u) = g u)
    (hreps : ∀ (f : List KnotRep → List KnotRep) u, g (modNet (fun n => { n with reps := f n.reps }) u) = g u)
    (pa v : Nat) (ws : List Waiter) (s : State) : g (replied pa v ws s) = g s :=
  foldl_keeps g _ (fun _ _ => replyTo_keeps g hlinks hreps _ _ _ _ _ _ _ _) ws s

theorem replied_cons (pa v : Nat) (x : Waiter) (ws : List Waiter) (s : State) :
    replied pa v (x :: ws) s = replied pa v ws (replyTo x.fromMod x.site x.binding x.ctx v false pa s) := rfl

section Replied
variable (pa v : Nat) (ws : List Waiter) (s : State)

@[simp] theorem replied_mem : (replied pa v ws s).mem = s.mem := replied_keeps _ (fun _ => rfl) (fun _ _ => rfl) _ _ _ _
@[simp] theorem replied_reqs : (replied pa v ws s).net.reqs = s.net.reqs :=
  replied_keeps (·.net.reqs) (fun _ => rfl) (fun _ _ => rfl) _ _ _ _

/-- Waiters of this module get a reply each, in their order. -/
theorem replied_reps {ws : List Waiter} {s : State} (hown : ∀ x ∈ ws, x.fromMod = ownId s) :
    (replied pa v ws s).net.reps.map (fun p => (p.site, p.binding, p.value, p.retry)) =
      s.net.reps.map (fun p => (p.site, p.binding, p.value, p.retry)) ++
      ws.map fun x => (x.site, x.binding, BitVec.ofNat 24 v, false) := by
  induction ws generalizing s with
  | nil => exact (List.append_nil _).symm
  | cons x ws ih =>
    rw [replied_cons, replyTo_own (hown x List.mem_cons_self), ih, modNet_net, List.map_append, List.append_assoc]
    · rfl
    · exact fun y hy => hown y (List.mem_cons_of_mem x hy)

end Replied

/-! ### Waiters (R270) -/

/-- The waiters that a knot which becomes full answers: the PEEKs before the first TAKE, and that TAKE. -/
def answeredOf (ws : List Waiter) : List Waiter :=
  ws.takeWhile (fun x => decide (x.op ≠ 1)) ++ (ws.dropWhile fun x => decide (x.op ≠ 1)).take 1

theorem splitWaiters_eq (ws : List Waiter) :
    splitWaiters ws = (answeredOf ws, ws.drop (answeredOf ws).length, ws.any fun x => decide (x.op = 1)) := by
  induction ws with
  | nil => rfl
  | cons x ws ih =>
    by_cases hx : x.op = 1
    · simp [splitWaiters, answeredOf, hx]
    · simp only [splitWaiters, if_neg hx, ih]
      simp [answeredOf, hx]

theorem answeredOf_subset {ws : List Waiter} {x : Waiter} (hx : x ∈ answeredOf ws) : x ∈ ws := by
  rcases List.mem_append.mp hx with h | h
  · exact (List.takeWhile_sublist _).mem h
  · exact (List.dropWhile_sublist _).mem (List.mem_of_mem_take h)

@[simp] theorem setWaiters_mem (pa : Nat) (ws : List Waiter) (s : State) : (setWaiters pa ws s).mem = s.mem := rfl
@[simp] theorem setWaiters_reqs (pa : Nat) (ws : List Waiter) (s : State) : (setWaiters pa ws s).net.reqs = s.net.reqs := rfl
@[simp] theorem setWaiters_reps (pa : Nat) (ws : List Waiter) (s : State) : (setWaiters pa ws s).net.reps = s.net.reps := rfl

theorem waitersAt_setWaiters (pa : Nat) (ws : List Waiter) (s : State) : waitersAt (setWaiters pa ws s) pa = ws :=
  Tab.get_set_same _ _ _ _

theorem answerWaiters_eq (pa : Nat) (s : State) : answerWaiters pa s =
    setWaiters pa ((waitersAt s pa).drop (answeredOf (waitersAt s pa)).length)
      (if (waitersAt s pa).any (fun x => decide (x.op = 1)) then
        poke (replied pa (knValue (peekNum s pa 8)) (answeredOf (waitersAt s pa)) s) pa (toLE 8 (knEmpty (peekNum s pa 8)))
      else replied pa (knValue (peekNum s pa 8)) (answeredOf (waitersAt s pa)) s) := by
  rw [answerWaiters, splitWaiters_eq]
  rfl

section Answer
variable (pa : Nat) (s : State)

theorem answerWaiters_reqs : (answerWaiters pa s).net.reqs = s.net.reqs := by
  rw [answerWaiters_eq, setWaiters_reqs]
  split <;> simp only [poke_net, replied_reqs]

theorem answerWaiters_mem : (answerWaiters pa s).mem = if (waitersAt s pa).any (fun x => decide (x.op = 1)) then
    putBytes s.mem pa (toLE 8 (knEmpty (peekNum s pa 8))) else s.mem := by
  rw [answerWaiters_eq, setWaiters_mem]
  split
  · rw [poke, replied_mem]
  · exact replied_mem _ _ _ _

theorem waitersAt_answerWaiters : waitersAt (answerWaiters pa s) pa =
    (waitersAt s pa).drop (answeredOf (waitersAt s pa)).length := by
  rw [answerWaiters_eq]
  exact waitersAt_setWaiters _ _ _

theorem ownId_answerWaiters : ownId (answerWaiters pa s) = ownId s := by
  rw [answerWaiters_eq]
  split <;> exact replied_keeps ownId (fun _ => rfl) (fun _ _ => rfl) _ _ _ _

theorem answerWaiters_reps (hown : ∀ x ∈ waitersAt s pa, x.fromMod = ownId s) :
    (answerWaiters pa s).net.reps.map (fun p => (p.site, p.binding, p.value, p.retry)) =
      s.net.reps.map (fun p => (p.site, p.binding, p.value, p.retry)) ++
      (answeredOf (waitersAt s pa)).map fun x => (x.site, x.binding, BitVec.ofNat 24 (knValue (peekNum s pa 8)), false) := by
  rw [answerWaiters_eq, setWaiters_reps]
  split <;> exact replied_reps _ _ fun x hx => hown x (answeredOf_subset hx)

end Answer

end Sys2Proof.Machine
end

section
/-! O37: operations on knots. -/

namespace Sys2Proof.Machine

/-! ### A request at its knot -/

/-- A state whose n-th request has reached its knot. -/
def reqTaken (n : Nat) (s : State) : State := modNet (fun m => { m with reqs := m.reqs.eraseIdx n }) s

@[simp] theorem peekNum_reqTaken (n pa m : Nat) (s : State) : peekNum (reqTaken n s) pa m = peekNum s pa m := rfl
@[simp] theorem waitersAt_reqTaken (n pa : Nat) (s : State) : waitersAt (reqTaken n s) pa = waitersAt s pa := rfl

/-- The state in which a request's knot word has become v. -/
def knotPut (n : Nat) (r : KnotReq) (v : Nat) (s : State) : State := knotClock r (poke (reqTaken n s) r.pa (toLE 8 v))

/-- What a requester knew changes the clocks of knots alone. -/
theorem knotClock_keeps {α : Type} (g : State → α)
    (hclocks : ∀ (f : Tab (Tab Nat) → Tab (Tab Nat)) u, g (modNet (fun n => { n with clocks := f n.clocks }) u) = g u)
    (r : KnotReq) (s : State) : g (knotClock r s) = g s := by
  unfold knotClock
  split
  · rfl
  · exact hclocks (fun m => Tab.set [] m (2 * r.pa) (joinClock (Tab.get [] m (2 * r.pa)) r.vc)) s

theorem knotPut_keeps {α : Type} (g : State → α)
    (hclocks : ∀ (f : Tab (Tab Nat) → Tab (Tab Nat)) u, g (modNet (fun n => { n with clocks := f n.clocks }) u) = g u)
    (n : Nat) (r : KnotReq) (v : Nat) (s : State) : g (knotPut n r v s) = g (poke (reqTaken n s) r.pa (toLE 8 v)) :=
  knotClock_keeps g hclocks r _

section Put
variable (n : Nat) (r : KnotReq) (v : Nat) (s : State)

@[simp] theorem knotPut_mem : (knotPut n r v s).mem = putBytes s.mem r.pa (toLE 8 v) :=
  knotPut_keeps State.mem (fun _ _ => rfl) n r v s
@[simp] theorem knotPut_chans : (knotPut n r v s).chans = s.chans := knotPut_keeps State.chans (fun _ _ => rfl) n r v s
@[simp] theorem knotPut_reqs : (knotPut n r v s).net.reqs = s.net.reqs.eraseIdx n :=
  knotPut_keeps (·.net.reqs) (fun _ _ => rfl) n r v s
@[simp] theorem knotPut_reps : (knotPut n r v s).net.reps = s.net.reps := knotPut_keeps (·.net.reps) (fun _ _ => rfl) n r v s
@[simp] theorem waitersAt_knotPut (pa : Nat) : waitersAt (knotPut n r v s) pa = waitersAt s pa :=
  knotPut_keeps (waitersAt · pa) (fun _ _ => rfl) n r v s
@[simp] theorem ownId_knotPut : ownId (knotPut n r v s) = ownId s := knotPut_keeps ownId (fun _ _ => rfl) n r v s
@[simp] theorem tileAt_knotPut (k : Nat) : tileAt (knotPut n r v s) k = tileAt s k :=
  knotPut_keeps (tileAt · k) (fun _ _ => rfl) n r v s
@[simp] theorem ctxAt_knotPut (c : Nat) : ctxAt (knotPut n r v s) c = ctxAt s c :=
  knotPut_keeps (ctxAt · c) (fun _ _ => rfl) n r v s

end Put

/-! ### What an operation does at its knot -/

section Operation
variable {n k b v : Nat} {r : KnotReq} {s : State} (h : KnotNext n r k b s)
include h

/-- The next request of a port reaches its knot. -/
theorem exec_knot {op : Nat} {i : Instr} (hi : exec i s = atKnot op n s) (hop : r.op = op) :
    exec i s = .next (groundPart s (knotEffect r (reqTaken n s))) := by
  have hnone : ¬ ((decide (r.op ≠ op) || (s.net.reqs.take n).any fun x =>
      decide (reqSource x = reqSource r) && decide (knotPort x.pa = knotPort r.pa)) = true) := by
    simpa [hop] using h.first
  rw [hi, atKnot, h.req]
  dsimp only
  rw [if_neg hnone, h.awake]
  rfl

theorem ueAt_reqTaken : (ueAt (reqTaken n s) r.pa 8).isSome = false := by
  rw [show ueAt (reqTaken n s) r.pa 8 = none from h.sound]
  rfl

/-- TAKE and PEEK of a full knot reply. -/
theorem knotEffect_replies (hop : r.op = 1 ∨ r.op = 2) (hfull : knFull (peekNum s r.pa 8) = true) :
    knotEffect r (reqTaken n s) = replyTo r.fromMod k b r.ctx (knValue (peekNum s r.pa 8)) false r.pa
      (poke (reqTaken n s) r.pa (toLE 8 (knotOp r.op r.value.toNat (peekNum s r.pa 8)).1)) := by
  simp [knotEffect, ueAt_reqTaken h, hop, h.who, hfull]

/-- TAKE and PEEK of an empty knot wait, or get a RETRY where the port holds no more waiters. -/
theorem knotEffect_waits (hop : r.op = 1 ∨ r.op = 2) (hempty : knFull (peekNum s r.pa 8) = false) :
    knotEffect r (reqTaken n s) = if (if isHbm r.pa then 512 else 64) ≤ portWaiters s r.pa then
        replyTo r.fromMod k b r.ctx 0 true r.pa (reqTaken n s)
      else setWaiters r.pa (waitersAt s r.pa ++ [⟨r.op, r.fromMod, k, b, r.ctx⟩]) (reqTaken n s) := by
  have hheld : portWaiters (reqTaken n s) r.pa = portWaiters s r.pa := rfl
  simp [knotEffect, ueAt_reqTaken h, hop, h.who, hheld, hempty]

/-- FILL, ARRIVE and DRAIN write the word, and fault or are done. -/
theorem knotEffect_writes {f : Option FaultCode} (hop : r.op ≠ 1 ∧ r.op ≠ 2)
    (hput : knotOp r.op r.value.toNat (peekNum s r.pa 8) = (v, f)) : knotEffect r (reqTaken n s) =
      f.elim (knotDone r (if !knFull (peekNum s r.pa 8) && knFull v then answerWaiters r.pa (knotPut n r v s) else knotPut n r v s))
        fun e => knotFaultTo r e .none (peekNum s r.pa 8) (knotPut n r v s) := by
  have hwrites : ¬ ((decide (r.op = 1) || decide (r.op = 2)) = true) := by simp [hop]
  rw [knotEffect, if_neg (by rw [ueAt_reqTaken h]; exact Bool.false_ne_true)]
  dsimp only
  rw [peekNum_reqTaken, hput]
  dsimp only
  rw [if_neg hwrites]
  cases f <;> rfl

/-- An operation that faults sets a bit of the word, and its binding is idle. -/
theorem knotEffect_faults {e : FaultCode} (hb : b < 8) (hop : r.op ≠ 1 ∧ r.op ≠ 2)
    (hput : knotOp r.op r.value.toNat (peekNum s r.pa 8) = (v, some e)) : knotEffect r (reqTaken n s) =
      setBinding k b .ready (faultWith r.ctx e (tileItem (knotPut n r v s) k) .none (knotPut n r v s)) := by
  rw [knotEffect_writes h hop hput, Option.elim_some, knotFaultTo, h.who]
  dsimp only
  rw [if_pos (h.own.trans (ownId_knotPut n r v s).symm), siteFault_binding hb]

/-- An operation is done: its binding is idle. -/
theorem knotDone_binding {u : State} (hb : b < 8) (hu : ownId u = ownId s) : knotDone r u = setBinding k b .ready u := by
  rw [knotDone, h.who]
  dsimp only
  rw [if_pos (h.own.trans hu.symm), siteDone, if_pos hb]

/-- An operation that leaves the knot empty, or finds it full, answers none. -/
theorem knotEffect_counts (hb : b < 8) (hop : r.op ≠ 1 ∧ r.op ≠ 2)
    (hput : knotOp r.op r.value.toNat (peekNum s r.pa 8) = (v, none)) (hquiet : knFull (peekNum s r.pa 8) = true ∨ knFull v = false) :
    knotEffect r (reqTaken n s) = setBinding k b .ready (knotPut n r v s) := by
  rw [knotEffect_writes h hop hput, Option.elim_none, if_neg (by rcases hquiet with hq | hq <;> simp [hq])]
  exact knotDone_binding h hb (ownId_knotPut n r v s)

/-- An operation that makes an empty knot full answers its waiters. -/
theorem knotEffect_fills (hb : b < 8) (hop : r.op ≠ 1 ∧ r.op ≠ 2)
    (hput : knotOp r.op r.value.toNat (peekNum s r.pa 8) = (v, none)) (hempty : knFull (peekNum s r.pa 8) = false)
    (hfull : knFull v = true) : knotEffect r (reqTaken n s) = setBinding k b .ready (answerWaiters r.pa (knotPut n r v s)) := by
  rw [knotEffect_writes h hop hput, Option.elim_none, if_pos (by simp [hempty, hfull])]
  exact knotDone_binding h hb ((ownId_answerWaiters r.pa _).trans (ownId_knotPut n r v s))

/-! ### What its command leaves -/

/-- A command whose operation faults. -/
theorem knot_faults {op : Nat} {i : Instr} {e : FaultCode} (hi : exec i s = atKnot op n s) (hop : r.op = op)
    (hwrites : op ≠ 1 ∧ op ≠ 2) (hb : b < 8) (hput : knotOp op r.value.toNat (peekNum s r.pa 8) = (v, some e)) :
    ∃ t, exec i s = .next t ∧ KnotServed n r.pa v s t ∧ Latches r.ctx e s t ∧ bindingAt (tileAt t k) b = .ready := by
  subst hop
  refine ⟨_, exec_knot h hi rfl, ?_⟩
  rw [knotEffect_faults h hb hwrites hput]
  refine ⟨⟨?_, ?_, fun j q => ?_, ?_⟩, ?_, ?_⟩
  · exact knotPut_reqs n r v s
  · exact knotPut_mem n r v s
  · rw [tileAt_groundPart, qToks_setBinding, faultWith, tileAt_latch, tileAt_knotPut]
  · exact knotPut_chans n r v s
  · exact latches_faultWith _ _ (ctxAt_knotPut n r v s r.ctx)
  · exact bindingAt_setBinding _ _ _ _

/-- A command whose operation counts or empties. -/
theorem knot_counts {op : Nat} {i : Instr} (hi : exec i s = atKnot op n s) (hop : r.op = op) (hwrites : op ≠ 1 ∧ op ≠ 2)
    (hb : b < 8) (hput : knotOp op r.value.toNat (peekNum s r.pa 8) = (v, none))
    (hquiet : knFull (peekNum s r.pa 8) = true ∨ knFull v = false) :
    ∃ t, exec i s = .next t ∧ KnotServed n r.pa v s t ∧ bindingAt (tileAt t k) b = .ready := by
  subst hop
  refine ⟨_, exec_knot h hi rfl, ?_⟩
  rw [knotEffect_counts h hb hwrites hput hquiet]
  refine ⟨⟨?_, ?_, fun j q => ?_, ?_⟩, ?_⟩
  · exact knotPut_reqs n r v s
  · exact knotPut_mem n r v s
  · rw [tileAt_groundPart, qToks_setBinding, tileAt_knotPut]
  · exact knotPut_chans n r v s
  · exact bindingAt_setBinding _ _ _ _

/-- The waiters of a knot whose word has become v, full, are answered with its VALUE. -/
theorem answerWaiters_filled (hv : v < 2 ^ 64) : KnotFilled n r.pa v s (answerWaiters r.pa (knotPut n r v s)) := by
  have hword : peekNum (knotPut n r v s) r.pa 8 = v := peekNum_written h.ram hv (knotPut_mem n r v s)
  refine ⟨?_, ?_, ?_, fun hown => ?_⟩
  · rw [answerWaiters_reqs, knotPut_reqs]
  · rw [answerWaiters_mem, waitersAt_knotPut, knotPut_mem, hword]
    rfl
  · rw [waitersAt_answerWaiters, waitersAt_knotPut]
    rfl
  · rw [answerWaiters_reps, waitersAt_knotPut, knotPut_reps, hword]
    · rfl
    · simpa using hown

/-- A command whose operation makes the knot full. -/
theorem knot_fills {op : Nat} {i : Instr} (hi : exec i s = atKnot op n s) (hop : r.op = op) (hwrites : op ≠ 1 ∧ op ≠ 2)
    (hb : b < 8) (hput : knotOp op r.value.toNat (peekNum s r.pa 8) = (v, none)) (hempty : knFull (peekNum s r.pa 8) = false)
    (hfull : knFull v = true) (hv : v < 2 ^ 64) :
    ∃ t, exec i s = .next t ∧ KnotFilled n r.pa v s t ∧ bindingAt (tileAt t k) b = .ready := by
  subst hop
  refine ⟨_, exec_knot h hi rfl, ?_⟩
  rw [knotEffect_fills h hb hwrites hput hempty hfull]
  exact ⟨answerWaiters_filled h hv, bindingAt_setBinding _ _ _ _⟩

/-- TAKE and PEEK of a full knot. -/
theorem knot_replies {op : Nat} {i : Instr} (hi : exec i s = atKnot op n s) (hop : r.op = op) (hreads : op = 1 ∨ op = 2)
    (hfull : knFull (peekNum s r.pa 8) = true) :
    ∃ t, exec i s = .next t ∧ KnotServed n r.pa (if op = 1 then knEmpty (peekNum s r.pa 8) else peekNum s r.pa 8) s t ∧
      ∃ x, t.net.reps = s.net.reps ++ [x] ∧ x.site = k ∧ x.binding = b ∧ x.value = BitVec.ofNat 24 (knValue (peekNum s r.pa 8)) ∧
        x.retry = false := by
  subst hop
  have hput : (knotOp r.op r.value.toNat (peekNum s r.pa 8)).1 =
      if r.op = 1 then knEmpty (peekNum s r.pa 8) else peekNum s r.pa 8 := by
    rcases hreads with ho | ho <;> simp [ho, knotOp, hfull]
  refine ⟨_, exec_knot h hi rfl, ?_⟩
  rw [knotEffect_replies h hreads hfull, replyTo_own (s := poke (reqTaken n s) _ _) h.own, hput]
  exact ⟨⟨rfl, rfl, fun _ _ => rfl, rfl⟩, _, rfl, rfl, rfl, rfl, rfl⟩

/-- TAKE and PEEK of an empty knot wait. -/
theorem knot_waits {op : Nat} {i : Instr} (hi : exec i s = atKnot op n s) (hop : r.op = op) (hreads : op = 1 ∨ op = 2)
    (hempty : knFull (peekNum s r.pa 8) = false) (hroom : portWaiters s r.pa < if isHbm r.pa then 512 else 64) :
    ∃ t, exec i s = .next t ∧ t.net.reqs = s.net.reqs.eraseIdx n ∧ t.mem = s.mem ∧
      waitersAt t r.pa = waitersAt s r.pa ++ [⟨op, r.fromMod, k, b, r.ctx⟩] ∧ t.net.reps = s.net.reps := by
  subst hop
  refine ⟨_, exec_knot h hi rfl, ?_⟩
  rw [knotEffect_waits h hreads hempty, if_neg (Nat.not_le.mpr hroom)]
  exact ⟨rfl, rfl, waitersAt_setWaiters _ _ _, rfl⟩

/-- TAKE and PEEK of an empty knot whose port holds no more waiters get a RETRY. -/
theorem knot_retries {op : Nat} {i : Instr} (hi : exec i s = atKnot op n s) (hop : r.op = op) (hreads : op = 1 ∨ op = 2)
    (hempty : knFull (peekNum s r.pa 8) = false) (hroom : ¬ portWaiters s r.pa < if isHbm r.pa then 512 else 64) :
    ∃ t, exec i s = .next t ∧ t.net.reqs = s.net.reqs.eraseIdx n ∧ t.mem = s.mem ∧ t.net.waiters = s.net.waiters ∧
      ∃ x, t.net.reps = s.net.reps ++ [x] ∧ x.site = k ∧ x.binding = b ∧ x.retry = true := by
  subst hop
  refine ⟨_, exec_knot h hi rfl, ?_⟩
  rw [knotEffect_waits h hreads hempty, if_pos (Nat.not_lt.mp hroom), replyTo_own (s := reqTaken n s) h.own]
  exact ⟨rfl, rfl, rfl, _, rfl, rfl, rfl, rfl⟩

end Operation

/-! ### The statement -/

/-- Settles O37: by the knot's word, an operation faults, counts, fills the knot, or reads it. -/
theorem knotsTakeOperations : Obligations.KnotsTakeOperations := by
  unfold Obligations.KnotsTakeOperations
  intro n k b r s h hb w full room
  have hw : w < 2 ^ 64 := peekNum_lt h.ram s
  refine ⟨?fillEmpty, ?fillFull, ?reads, ?counts, ?reaches, ?arriveBad, ?drainFull, ?drainEmpty⟩
  case fillEmpty =>
    intro hop hempty
    exact knot_fills h rfl hop (by decide) hb (by simp [knotOp, w, hempty]) hempty (knFull_setFull _)
      (setFld_lt (setFld_lt hw (by decide)) (by decide))
  case fillFull =>
    intro hop hfull
    exact knot_faults h rfl hop (by decide) hb (by simp [knotOp, hfull, w])
  case reads =>
    intro p hp hop
    obtain ⟨hi, hreads⟩ : exec p.1 s = atKnot p.2 n s ∧ (p.2 = 1 ∨ p.2 = 2) := by
      rcases List.mem_pair.mp hp with rfl | rfl
      · exact ⟨rfl, .inl rfl⟩
      · exact ⟨rfl, .inr rfl⟩
    exact ⟨knot_replies h hi hop hreads, knot_waits h hi hop hreads, knot_retries h hi hop hreads⟩
  case counts =>
    intro hop htarget hempty hbelow
    exact knot_counts h rfl hop (by decide) hb (by simp [knotOp, w, htarget, hempty, hbelow]) (.inr ((knFull_setCount _ _).trans hempty))
  case reaches =>
    intro hop htarget hempty hreached
    exact knot_fills h rfl hop (by decide) hb (by simp [knotOp, w, htarget, hempty, Nat.not_lt.mpr hreached]) hempty
      (knFull_setFull _) (setFld_lt (setFld_lt hw (by decide)) (by decide))
  case arriveBad =>
    intro hop hbad
    exact knot_faults h rfl hop (by decide) hb (by simp [knotOp, w, hbad])
  case drainFull =>
    intro hop hfull
    exact knot_counts h rfl hop (by decide) hb (by simp [knotOp, w, hfull, knEmpty, full]) (.inl hfull)
  case drainEmpty =>
    intro hop hempty
    exact knot_faults h rfl hop (by decide) hb (by simp [knotOp, w, hempty])

end Sys2Proof.Machine
end

section
/-! O38: bindings send their operations, and replies reach them. -/

namespace Sys2Proof.Machine

/-! ### A token is taken from KQ -/

theorem tokensOff_windowPop (k q : Nat) (s : State) : tokensOff (windowPop k q s) = tokensOff s := tokensOff_popTok k q s

theorem windowPop_reqs (k q : Nat) (s : State) : (windowPop k q s).net.reqs = s.net.reqs :=
  (congrArg (·.net.reqs) (tokensOff_windowPop k q s) :)

theorem ownId_windowPop (k q : Nat) (s : State) : ownId (windowPop k q s) = ownId s :=
  (congrArg ownId (tokensOff_windowPop k q s) :)

theorem ctxAt_windowPop (k q : Nat) (s : State) (c : Nat) : ctxAt (windowPop k q s) c = ctxAt s c :=
  (congrArg (ctxAt · c) (tokensOff_windowPop k q s) :)

theorem kbReg_windowPop (k q b : Nat) (s : State) : kbReg (tileAt (windowPop k q s) k) b = kbReg (tileAt s k) b := by
  have hcfg : (tileAt (windowPop k q s) k).cfg = (tileAt s k).cfg := by
    rw [windowPop, unlearned, tileAt_modTile_same]
    exact cfg_popTok k q s
  unfold kbReg cfgNum
  rw [hcfg]

/-! ### An operation leaves its binding (R273, R275, R277) -/

section Send
variable {k b c g value : Nat} {vc : Tab Nat} {u : State} (hg : kbReg (tileAt u k) b = g)
  (hown : (kaddrOf (fld g 64 64)).remote = false ∨ (kaddrOf (fld g 64 64)).mod = ownId u)
include hg hown

/-- A request for a knot of this module that passes its check is on its way. -/
theorem bindingSend_at {pa : Nat} (hat : knotAt u c (quarterOf (noHoop k)) (kaddrOf (fld g 64 64)) (kbOp g ≠ 2) = .at_ pa) :
    bindingSend k b c value vc u = setBinding k b .sent
      (pushReq ⟨kbOp g, BitVec.ofNat 24 value, BitVec.ofNat 64 (fld g 64 64), c, pa, ownId u, some (k, b), vc⟩ u) := by
  unfold bindingSend
  dsimp only
  rw [hg, if_neg (by rcases hown with h | h <;> simp [h]), hat]

/-- An address outside the sync region faults the context. -/
theorem bindingSend_bound (hb : b < 8)
    (hat : knotAt u c (quarterOf (noHoop k)) (kaddrOf (fld g 64 64)) (kbOp g ≠ 2) = .bound) :
    ∃ d, bindingSend k b c value vc u = setBinding k b .ready (faultWith c .bound (tileItem u k) d u) := by
  unfold bindingSend
  dsimp only
  rw [hg, if_neg (by rcases hown with h | h <;> simp [h]), hat]
  exact ⟨_, siteFault_binding hb _ _ _ _ _ _⟩

end Send

/-! ### The commands of a binding -/

/-- The value that a binding sends with the token a: its constant, or the token's low 24 bits. -/
def bindingValue (g : Nat) (a : Token) : Nat := if bitAt g 10 then fld g 11 24 else a.val.toNat % 2 ^ 24

theorem ofNat_bindingValue (g : Nat) (a : Token) :
    BitVec.ofNat 24 (bindingValue g a) = if bitAt g 10 then BitVec.ofNat 24 (fld g 11 24) else a.val.setWidth 24 := by
  unfold bindingValue
  split
  · rfl
  · apply BitVec.eq_of_toNat_eq
    simp

section Commands
variable {site : Site} {binding : Fin 8} {run : RunSt} {s : State} (hrun : runOf s (siteNo site) = some run)
include hrun

/-- An idle binding sends with the token that it takes from KQ. -/
theorem exec_knotRequest {a : Token} (hkind : kindOf (siteNo site) = .A ∨ kindOf (siteNo site) = .B)
    (hon : bitAt (kbReg (tileAt s (siteNo site)) binding.val) 0 = true) (hdef : bindingUndef s (siteNo site) binding.val = none)
    (hidle : bindingAt (tileAt s (siteNo site)) binding.val = .ready)
    (hhead : headOf (tileAt s (siteNo site)) (fld (kbReg (tileAt s (siteNo site)) binding.val) 1 4) = .tok a) :
    exec (.knotRequest site binding) s = .next (groundPart s (bindingSend (siteNo site) binding.val run.ctx
      (bindingValue (kbReg (tileAt s (siteNo site)) binding.val) a) a.vc
      (windowPop (siteNo site) (fld (kbReg (tileAt s (siteNo site)) binding.val) 1 4) s))) := by
  change execKnotRequest site binding s = _
  have hgo : ¬ ((decide (kindOf (siteNo site) ≠ .A) && decide (kindOf (siteNo site) ≠ .B) ||
      !bitAt (kbReg (tileAt s (siteNo site)) binding.val) 0) = true) := by
    rcases hkind with h | h <;> simp [h, hon]
  unfold execKnotRequest
  simp only [hrun, hdef, hidle, hhead]
  rw [if_neg hgo]
  rfl

/-- A binding that got a RETRY sends again. -/
theorem exec_knotRetry (hretry : bindingAt (tileAt s (siteNo site)) binding.val = .retry) :
    exec (.knotRetry site binding) s =
      .next (groundPart s (bindingSend (siteNo site) binding.val run.ctx 0 [] s)) := by
  change execKnotRetry site binding s = _
  simp [execKnotRetry, hrun, hretry]

end Commands

/-! ### Replies reach their bindings (R271, R273) -/

/-- A tile that has sent a control token has a control credit less. -/
theorem cCred_sendTokVc {k o : Nat} {s : State} (v : DataTok) (vc : Tab Nat) (h : hasCredit (tileAt s k) o true = true) :
    cCred (tileAt (sendTokVc k o true v vc s) k) o + 1 = cCred (tileAt s k) o := by
  have hpos : 0 < cCred (tileAt s k) o := by simpa [hasCredit] using h
  have hspent : tileAt (sendTokVc k o true v vc s) k = spent o true (tileAt s k) := by simp [sendTokVc, spent]
  rw [hspent, cCred_spent, if_pos ⟨rfl, rfl⟩]
  omega

/-- A state whose n-th reply has reached its binding. -/
def repTaken (n : Nat) (s : State) : State := modNet (fun m => { m with reps := m.reps.eraseIdx n }) s

section Reply
variable {n : Nat} {r : KnotRep} {s : State} (hrep : s.net.reps[n]? = some r) (hnext : replyBehind s n r = false)
  (hb : r.binding < 8) (hsent : bindingAt (tileAt s r.site) r.binding = .sent)
include hrep hnext hb hsent

theorem exec_knotReply_retry (hretry : r.retry = true) :
    exec (.knotReply n) s = .next (groundPart s (setBinding r.site r.binding .retry (repTaken n s))) := by
  change execKnotReply n s = _
  have hsite : ¬ r.binding = engineWho := by unfold engineWho; omega
  simp [execKnotReply, hrep, hnext, hsite, hsent, hretry, repTaken]

theorem exec_knotReply_value (hvalue : r.retry = false)
    (hcred : hasCredit (tileAt s r.site) (fld (kbReg (tileAt s r.site) r.binding) 8 2) true = true) :
    exec (.knotReply n) s = .next (groundPart s (setBinding r.site r.binding .ready
      (sendTokVc r.site (fld (kbReg (tileAt s r.site) r.binding) 8 2) true (BitVec.ofNat 512 (0x80000000 + r.value.toNat))
        (if s.dev.debug then r.vc else []) (repTaken n s)))) := by
  change execKnotReply n s = _
  have hsite : ¬ r.binding = engineWho := by unfold engineWho; omega
  simp [execKnotReply, hrep, hnext, hsite, hsent, hvalue, hcred, repTaken]

end Reply

/-! ### The statement -/

/-- Settles O38: a binding's command sends by what the check of its address finds, and a reply by whether it is a RETRY. -/
theorem bindingsSendAndReceive : Obligations.BindingsSendAndReceive := by
  unfold Obligations.BindingsSendAndReceive
  refine ⟨?sends, ?receives⟩
  case sends =>
    intro site binding run s k x g q ka hrun hkind hown
    refine ⟨fun a hon hdef hidle hhead => ?_, fun pa hretry hat => ?_⟩
    · have hexec := exec_knotRequest hrun hkind hon hdef hidle hhead
      have hg := kbReg_windowPop k q binding.val s
      rw [← ownId_windowPop k q s] at hown
      refine ⟨fun pa hat => ?_, fun hat => ?_⟩
      · rw [bindingSend_at hg hown hat] at hexec
        refine ⟨_, _, hexec, congrArg (· ++ [_]) (windowPop_reqs k q s), rfl, ofNat_bindingValue g a, rfl, rfl,
          ownId_windowPop k q s, rfl, bindingAt_setBinding _ _ _ _, ?_, windowPop_mem k q s⟩
        exact (qToks_setBinding _ _ _ _ _ _).trans (qToks_windowPop k q s)
      · obtain ⟨d, hfault⟩ := bindingSend_bound hg hown binding.isLt hat
        rw [hfault] at hexec
        exact ⟨_, hexec, latches_faultWith _ d (ctxAt_windowPop k q s run.ctx), windowPop_reqs k q s, windowPop_mem k q s⟩
    · have hexec := exec_knotRetry hrun hretry
      rw [bindingSend_at rfl hown hat] at hexec
      exact ⟨_, _, hexec, rfl, rfl, rfl, rfl, rfl, bindingAt_setBinding _ _ _ _, rfl⟩
  case receives =>
    intro n r s hrep hnext hb hsent o
    refine ⟨fun hretry => ?_, fun hvalue hcred => ?_⟩
    · exact ⟨_, exec_knotReply_retry hrep hnext hb hsent hretry, bindingAt_setBinding _ _ _ _, rfl, rfl⟩
    · refine ⟨_, exec_knotReply_value hrep hnext hb hsent hvalue hcred, ?_, rfl, ?_, ?_, ?_⟩
      · rw [tileAt_groundPart, bindingAt_setBinding]
      · rw [tileAt_groundPart, tileAt_setBinding]
        exact cCred_sendTokVc (s := repTaken n s) _ _ hcred
      · rw [hoopAt_groundPart, hoopAt_setBinding]
        exact sendTokVc_onWay _ _ _ _ _ _
      · rw [groundPart_mem, setBinding_mem, sendTokVc_mem]
        rfl

end Sys2Proof.Machine
end

section
/-! O20: an edge that does not match gives the source's period. -/

namespace Sys2Proof.Machine

/-- The module after a cold reset, a locked follower of the pin; no edge has given its source's period. -/
def lockedFollower : State :=
  { State.reset with stitch := { Stitch.reset with cfg := BitVec.ofNat 64 (900000 + 2 ^ 25), lock := .locked } }

/-- A second edge 1,000 ns after the last, 65 NCLK off the boundary, leaves 1,800 NCLK as the source's period. -/
theorem srcPeriod_edge_lockedFollower :
    ∃ t, exec (.stitchSyncInEdge 1000 65) lockedFollower = .next t ∧ t.stitch.srcPeriod = 1800 :=
  ⟨_, rfl, by decide⟩

/-- Refutes O20, by its clause on a first or second edge that does not match (R304): the clause leaves the period of the source
as it was, but the model takes the time since the last edge for it. -/
theorem not_followersBeaconsAndSamplesAct : ¬ Obligations.FollowersBeaconsAndSamplesAct := by
  unfold Obligations.FollowersBeaconsAndSamplesAct
  rintro ⟨⟨-, -, hmismatch, -⟩, -⟩
  have hkept := hmismatch 1000 65 lockedFollower (by decide) (by decide) (by decide) rfl (by decide) (by decide)
  obtain ⟨t, hexec, hperiod⟩ := srcPeriod_edge_lockedFollower
  obtain rfl := Host.Outcome.next.inj (hkept.symm.trans hexec)
  exact absurd hperiod (by decide)

end Sys2Proof.Machine
end

section
/-! O21: entries of the repeat table start. -/

namespace Sys2Proof.Machine

/-! ### Loads and runs that begin (R308, R310) -/

/-- An entry whose load is asked for is in progress, and its load waits at the port. -/
theorem startLoad_begins {h e : Nat} {r : RunSt} {s t : State} (ht : t = groundPart s (startLoad h e (pushRun h r s))) :
    (hoopAt t h).runs = (hoopAt s h).runs ++ [r] ∧ (∃ l ∈ (hoopAt t h).loads, l.origin = .entry e) ∧ t.tiles = s.tiles ∧
      t.ctxs = s.ctxs ∧ t.mem = s.mem := by
  subst ht
  rw [hoopAt_groundPart, startLoad, queueLoad, hoopAt_modHoop_same, hoopAt_modHoop_same, pushRun, hoopAt_modHoop_same]
  refine ⟨rfl, ⟨_, List.mem_append_right _ (List.mem_singleton_self _), rfl⟩, ?_⟩
  simp only [groundPart_tiles, groundPart_ctxs, groundPart_mem, modHoop_tiles, modHoop_ctxs, modHoop_mem, and_self]

/-- An entry that may not start loses its prefetched load, and nothing else changes. -/
theorem dropPrefetch_begins {h e : Nat} {s t : State} (ht : t = groundPart s (dropPrefetch h e s)) :
    (hoopAt t h).runs = (hoopAt s h).runs ∧ t.tiles = s.tiles ∧ t.ctxs = s.ctxs ∧ t.mem = s.mem := by
  subst ht
  rw [hoopAt_groundPart, dropPrefetch, hoopAt_modHoop_same]
  simp only [groundPart_tiles, groundPart_ctxs, groundPart_mem, modHoop_tiles, modHoop_ctxs, modHoop_mem, and_self]

theorem startsNow_of_not_mayStart {s : State} {h e kind : Nat} (hmay : mayStart s h e kind = false) : startsNow s h e kind = false := by
  simp [startsNow, hmay]

theorem runAt_of_startsNow {s : State} {h e kind : Nat} (hstart : startsNow s h e kind = true) : runAt s h e = none := by
  simp only [startsNow, Bool.and_eq_true, Option.isNone_iff_eq_none] at hstart
  obtain ⟨⟨⟨-, hrun⟩, -⟩, -⟩ := hstart
  exact hrun

/-- No run of a Hoop is one of an entry that is not in progress. -/
theorem ne_of_runAt_none {s : State} {h e : Nat} (hrun : runAt s h e = none) {y : RunSt} (hy : y ∈ (hoopAt s h).runs) : y.entry ≠ e := by
  simpa using List.find?_eq_none.mp hrun y hy

/-! ### Tiles at START (R98, R131, R157) -/

/-- What START leaves of a tile: its sequencer and its units as the tile's own configuration says, and its queues. -/
structure Started (k : Nat) (x y : Tile) : Prop where
  seq    : y.seq = startSeq k x
  m      : y.m = MTile.reset
  v      : y.v = VTile.reset
  queues : y.queues = x.queues
  cfg    : y.cfg = x.cfg

/-- A tile that has started may start again: it does so from the same configuration. -/
theorem started_startTile {k : Nat} {x y : Tile} (hqueues : y.queues = x.queues) (hcfg : y.cfg = x.cfg) :
    Started k x (startTile k y) := by
  refine ⟨?_, rfl, rfl, hqueues, hcfg⟩
  change startSeq k y = startSeq k x
  unfold startSeq seqEn seqEntry lcInit cfgNum
  rw [hcfg]

theorem started_setWin {k j w : Nat} {x : Tile} {v : Win} {s : State} (h : Started k x (tileAt s k)) :
    Started k x (tileAt (setWin j w v s) k) := by
  rw [setWin, tileAt_modTile]
  split
  · next hj =>
    subst hj
    exact ⟨h.seq, h.m, h.v, h.queues, h.cfg⟩
  · exact h

/-- Windows that are armed at START change their own tile's windows and, with a fault, contexts. -/
theorem armWindow_cases (k c w : Nat) (s : State) :
    (∃ v, armWindow k c w s = setWin k w v s) ∨ ∃ it d, armWindow k c w s = faultWith c .bound it d (setWin k w Win.reset s) := by
  unfold armWindow
  dsimp only
  split
  · exact .inr ⟨_, _, rfl⟩
  · exact .inl ⟨_, rfl⟩

/-- What neither windows nor a fault of the context change is as before the windows of a tile are armed at START. -/
theorem startWindows_keeps {α : Type} (g : State → α) (c k : Nat) (hwin : ∀ w v u, g (setWin k w v u) = g u)
    (hctx : ∀ c f u, g (modCtx c f u) = g u) (s : State) : g (startWindows c k s) = g s := by
  unfold startWindows
  split
  · rfl
  · refine foldl_keeps g _ (fun u w => ?_) _ s
    split
    · obtain ⟨v, h⟩ | ⟨it, d, h⟩ := armWindow_cases k c w u
      · rw [h, hwin]
      · rw [h, faultWith, latch, hctx, hwin]
    · rfl

theorem started_startWindows {c k j : Nat} {x : Tile} {s : State} (h : Started k x (tileAt s k)) :
    Started k x (tileAt (startWindows c j s) k) := by
  unfold startWindows
  split
  · exact h
  · refine List.foldlRecOn (motive := fun u => Started k x (tileAt u k)) _ _ h fun u hu w _ => ?_
    split
    · obtain ⟨v, harm⟩ | ⟨it, d, harm⟩ := armWindow_cases j c w u
      · rw [harm]
        exact started_setWin hu
      · rw [harm, faultWith, tileAt_latch]
        exact started_setWin hu
    · exact hu

/-- The tiles of a region that have started, one after another. -/
def startTiles (ks : List Nat) (s : State) : State := ks.foldl (fun s k => modTile k (startTile k) s) s

theorem startTiles_keeps {α : Type} (g : State → α) (ks : List Nat) (hg : ∀ k ∈ ks, ∀ f u, g (modTile k f u) = g u) (s : State) :
    g (startTiles ks s) = g s := by
  induction ks generalizing s with
  | nil => rfl
  | cons k ks ih =>
    exact (ih (fun j hj => hg j (List.mem_cons_of_mem _ hj)) _).trans (hg k List.mem_cons_self _ _)

theorem started_startTiles {ks : List Nat} {k : Nat} {x : Tile} {s : State}
    (h : Started k x (tileAt s k) ∨ k ∈ ks ∧ (tileAt s k).queues = x.queues ∧ (tileAt s k).cfg = x.cfg) :
    Started k x (tileAt (startTiles ks s) k) := by
  induction ks generalizing s with
  | nil => simpa [startTiles] using h
  | cons j ks ih =>
    refine ih ?_
    by_cases hj : k = j
    · subst hj
      rw [tileAt_modTile_same]
      obtain h | ⟨-, hqueues, hcfg⟩ := h
      · exact .inl (started_startTile h.queues h.cfg)
      · exact .inl (started_startTile hqueues hcfg)
    · rw [tileAt_modTile_other _ _ hj]
      exact h.imp_right fun ⟨hk, hsame⟩ => ⟨(List.mem_cons.mp hk).resolve_left hj, hsame⟩

/-! ### A run begins (R308) -/

/-- The run of an entry without an armed image begins: its tiles start, and windows with ARM 0 are armed. -/
theorem beginRun_fresh {h : Nat} {r : RunSt} {s : State} (hholds : holds s h r.c0 r.c1 r.ctx r.motif = true)
    (hqueues : ∀ k ∈ regionTiles h r.c0 r.c1, queuesClash (tileAt s k) = false)
    (himage : armedImage s r.ctx h r.c0 r.c1 r.motif = false) :
    beginRun h r s = modRun h r (fun y => { y with stage := .running, phase := .input })
      ((regionTiles h r.c0 r.c1).foldl (fun s k => startWindows r.ctx k s)
        (startTiles (regionTiles h r.c0 r.c1) (clearTags (regionTiles h r.c0 r.c1) s))) := by
  have hclash : ((regionTiles h r.c0 r.c1).any fun k => queuesClash (tileAt s k)) = false := by
    simpa [List.any_eq_false] using hqueues
  unfold beginRun
  dsimp only
  rw [hholds, hclash, himage]
  rfl

/-- The runs of a Hoop after the last of them, which none before it equals, has changed. -/
theorem runs_modRun_last {h : Nat} {r : RunSt} {f : RunSt → RunSt} {rs : List RunSt} {s : State} (hruns : (hoopAt s h).runs = rs ++ [r])
    (hnew : ∀ y ∈ rs, y ≠ r) : (hoopAt (modRun h r f s) h).runs = rs ++ [f r] := by
  have hsame : (rs.map fun y => if y = r then f y else y) = rs :=
    (List.map_congr_left fun y hy => if_neg (hnew y hy)).trans (List.map_id _)
  rw [modRun, hoopAt_modHoop_same]
  dsimp only
  rw [hruns, List.map_append, hsame, List.map_singleton, if_pos rfl]

section Begins
variable {h : Nat} {r : RunSt} {s u : State}
  (hu : u = modRun h r (fun y => { y with stage := .running, phase := .input })
    ((regionTiles h r.c0 r.c1).foldl (fun s k => startWindows r.ctx k s)
      (startTiles (regionTiles h r.c0 r.c1) (clearTags (regionTiles h r.c0 r.c1) (pushRun h r s)))))
include hu

theorem begun_runs (hnew : ∀ y ∈ (hoopAt s h).runs, y ≠ r) :
    (hoopAt u h).runs = (hoopAt s h).runs ++ [{ r with stage := .running, phase := .input }] := by
  rw [hu]
  refine runs_modRun_last ?_ hnew
  rw [foldl_keeps (hoopAt · h) _ fun v k => startWindows_keeps (hoopAt · h) r.ctx k (fun _ _ _ => rfl) (fun _ _ _ => rfl) v,
    startTiles_keeps (hoopAt · h) _ fun _ _ _ _ => rfl]
  change (hoopAt (pushRun h r s) h).runs = _
  rw [pushRun, hoopAt_modHoop_same]

theorem begun_started {k : Nat} (hk : k ∈ regionTiles h r.c0 r.c1) : Started k (tileAt s k) (tileAt u k) := by
  rw [hu, modRun, tileAt_modHoop]
  exact List.foldlRecOn (motive := fun v => Started k _ (tileAt v k)) _ _ (started_startTiles (.inr ⟨hk, rfl, rfl⟩))
    fun v hv j _ => started_startWindows hv

theorem begun_others {k : Nat} (hk : k ∉ regionTiles h r.c0 r.c1) : tileAt u k = tileAt s k := by
  have hne : ∀ j ∈ regionTiles h r.c0 r.c1, k ≠ j := fun j hj hkj => hk (hkj ▸ hj)
  rw [hu, modRun, tileAt_modHoop]
  refine (List.foldlRecOn (motive := fun v => tileAt v k = _) _ _ rfl fun v hv j hj => ?_).trans
    (startTiles_keeps (tileAt · k) _ (fun j hj f v => tileAt_modTile_other f v (hne j hj)) _)
  rw [startWindows_keeps (tileAt · k) r.ctx j (fun w x y => tileAt_modTile_other _ y (hne j hj)) (fun _ _ _ => rfl), hv]

theorem begun_keeps {α : Type} (g : State → α) (htile : ∀ k f v, g (modTile k f v) = g v) (hhoop : ∀ j f v, g (modHoop j f v) = g v)
    (hctx : ∀ c f v, g (modCtx c f v) = g v) (htags : ∀ ks v, g (clearTags ks v) = g v) : g u = g s := by
  rw [hu, modRun, hhoop]
  rw [foldl_keeps g _ fun v k => startWindows_keeps g r.ctx k (fun _ _ _ => htile _ _ _) hctx v,
    startTiles_keeps g _ fun _ _ _ _ => htile _ _ _, htags, pushRun, hhoop]

end Begins

/-! ### The commands of an entry's start -/

section Starts
variable {hoop : Fin 8} {entry : Fin 128} {s : State} {x : Nat} (hx : x = entryAt s hoop.val entry.val)
include hx

theorem entryStart_loads (hstart : startsNow s hoop.val entry.val 1 = true) (hreconf : enReconf x = true) :
    exec (.entryStart hoop entry) s =
      .next (groundPart s (startLoad hoop.val entry.val (pushRun hoop.val (runOfEntry entry.val x .loading) s))) := by
  subst hx
  change execEntryStart hoop entry s = _
  simp only [execEntryStart, ground_next, hstart, hreconf, Bool.not_true, Bool.false_eq_true, if_false, if_true]

theorem entryStart_runs (hstart : startsNow s hoop.val entry.val 1 = true) (hreconf : enReconf x = false)
    (hpower : (hoopAt s hoop.val).power = .on) :
    exec (.entryStart hoop entry) s = .next (groundPart s (beginRun hoop.val (runOfEntry entry.val x .loading)
      (pushRun hoop.val (runOfEntry entry.val x .loading) s))) := by
  subst hx
  change execEntryStart hoop entry s = _
  simp only [execEntryStart, ground_next, hstart, hreconf, hpower, Bool.not_true, Bool.false_eq_true, if_false, if_true]

theorem reconfStart_loads (hstart : startsNow s hoop.val entry.val 2 = true) :
    exec (.reconfStart hoop entry) s =
      .next (groundPart s (startLoad hoop.val entry.val (pushRun hoop.val (runOfEntry entry.val x .loading) s))) := by
  subst hx
  change execReconfStart hoop entry s = _
  simp only [execReconfStart, ground_next, hstart, Bool.not_true, Bool.false_eq_true, if_false]

/-- A SWEEP entry that starts is in progress; no earlier run of it is there to give way (R311). -/
theorem sweepStart_opens (hmay : mayStart s hoop.val entry.val 3 = true) (hrun : runAt s hoop.val entry.val = none)
    (hserves : hoopServes s hoop.val = true) (hopen : (sweepAt s (enCtx x)).st = .opened) :
    ∃ t, exec (.sweepStart hoop entry) s = .next t ∧
      (hoopAt t hoop.val).runs =
        (hoopAt s hoop.val).runs ++ [{ runOfEntry entry.val x .sweeping with outOk := !engineBusy s hoop.val }] ∧
      t.tiles = s.tiles ∧ t.ctxs = s.ctxs ∧ t.mem = s.mem := by
  subst hx
  have hexec : exec (.sweepStart hoop entry) s = .next (groundPart s (pushRun hoop.val
      { runOfEntry entry.val (entryAt s hoop.val entry.val) .sweeping with outOk := !engineBusy s hoop.val }
      (modHoop hoop.val (fun y => { y with runs := y.runs.filter fun r => r.entry ≠ entry.val }) s))) := by
    change execSweepStart hoop entry s = _
    simp only [execSweepStart, ground_next, hmay, hrun, hserves, hopen, Option.all_none, decide_true, Bool.and_self, if_true]
  have hothers : ((hoopAt s hoop.val).runs.filter fun r => r.entry ≠ entry.val) = (hoopAt s hoop.val).runs :=
    List.filter_eq_self.mpr fun y hy => decide_eq_true (ne_of_runAt_none hrun hy)
  refine ⟨_, hexec, ?_, ?_⟩
  · rw [hoopAt_groundPart, pushRun, hoopAt_modHoop_same, hoopAt_modHoop_same]
    dsimp only
    rw [hothers]
  · simp only [groundPart_tiles, groundPart_ctxs, groundPart_mem, pushRun, modHoop_tiles, modHoop_ctxs, modHoop_mem, and_self]

end Starts

/-- A region that holds its motif begins to run under the entry's new run. -/
theorem entryStart_begins {hoop : Fin 8} {entry : Fin 128} {s : State} {x : Nat} (hx : x = entryAt s hoop.val entry.val)
    (hstart : startsNow s hoop.val entry.val 1 = true) (hreconf : enReconf x = false) (hpower : (hoopAt s hoop.val).power = .on)
    (hholds : holds s hoop.val (enC0 x) (enC1 x) (enCtx x) (enMotif x) = true)
    (hqueues : ∀ k ∈ regionTiles hoop.val (enC0 x) (enC1 x), queuesClash (tileAt s k) = false)
    (himage : armedImage s (enCtx x) hoop.val (enC0 x) (enC1 x) (enMotif x) = false) :
    ∃ t, exec (.entryStart hoop entry) s = .next t ∧
      (hoopAt t hoop.val).runs = (hoopAt s hoop.val).runs ++ [runOfEntry entry.val x .running] ∧
      (∀ k ∈ regionTiles hoop.val (enC0 x) (enC1 x), Started k (tileAt s k) (tileAt t k)) ∧
      (∀ k, k ∉ regionTiles hoop.val (enC0 x) (enC1 x) → tileAt t k = tileAt s k) ∧ t.mem = s.mem ∧ t.chans = s.chans := by
  have hexec := entryStart_runs hx hstart hreconf hpower
  set r := runOfEntry entry.val x .loading with hr
  have hholds' : holds (pushRun hoop.val r s) hoop.val r.c0 r.c1 r.ctx r.motif = true := by
    unfold holds motifAt pushRun at *
    rwa [hoopAt_modHoop_same]
  have hu := beginRun_fresh (r := r) hholds' hqueues himage
  have hnew : ∀ y ∈ (hoopAt s hoop.val).runs, y ≠ r := fun y hy he =>
    ne_of_runAt_none (runAt_of_startsNow hstart) hy (congrArg RunSt.entry he)
  generalize beginRun hoop.val r (pushRun hoop.val r s) = u at hexec hu
  refine ⟨_, hexec, ?_, fun k hk => ?_, fun k hk => ?_, ?_, ?_⟩
  · rw [hoopAt_groundPart]
    exact begun_runs hu hnew
  · rw [tileAt_groundPart]
    exact begun_started hu hk
  · rw [tileAt_groundPart]
    exact begun_others hu hk
  · rw [groundPart_mem]
    exact begun_keeps hu State.mem (fun _ _ _ => rfl) (fun _ _ _ => rfl) (fun _ _ _ => rfl) fun _ _ => rfl
  · rw [groundPart_chans]
    exact begun_keeps hu State.chans (fun _ _ _ => rfl) (fun _ _ _ => rfl) (fun _ _ _ => rfl) fun _ _ => rfl

/-! ### Entries that may not start -/

section Stays
variable {hoop : Fin 8} {entry : Fin 128} {s : State}

theorem entryStart_stays (hmay : mayStart s hoop.val entry.val 1 = false) :
    exec (.entryStart hoop entry) s = .next (groundPart s (dropPrefetch hoop.val entry.val s)) := by
  change execEntryStart hoop entry s = _
  simp only [execEntryStart, ground_next, startsNow_of_not_mayStart hmay, Bool.not_false, if_true]

theorem reconfStart_stays (hmay : mayStart s hoop.val entry.val 2 = false) :
    exec (.reconfStart hoop entry) s = .next (groundPart s (dropPrefetch hoop.val entry.val s)) := by
  change execReconfStart hoop entry s = _
  simp only [execReconfStart, ground_next, startsNow_of_not_mayStart hmay, Bool.not_false, if_true]

theorem sweepStart_stays (hmay : mayStart s hoop.val entry.val 3 = false) : exec (.sweepStart hoop entry) s = .next s := by
  change execSweepStart hoop entry s = _
  simp only [execSweepStart, ground_next, hmay, Bool.false_and, Bool.false_eq_true, if_false, groundPart_self]

end Stays

/-! ### The statement -/

/-- Settles O21: an entry that may start is in progress with its load asked for, its region started, or its engine free to take
blocks, and one that may not starts nothing. -/
theorem entriesStart : Obligations.EntriesStart := by
  unfold Obligations.EntriesStart
  intro hoop entry s
  refine ⟨?load, ?run, ?reconf, ?sweep, ?noRun, ?noReconf, sweepStart_stays⟩
  case load => exact fun hstart hreconf => ⟨_, entryStart_loads rfl hstart hreconf, startLoad_begins rfl⟩
  case run =>
    intro hstart hreconf hpower hholds hqueues himage
    obtain ⟨t, hexec, hruns, hstarted, hrest⟩ := entryStart_begins rfl hstart hreconf hpower hholds hqueues himage
    refine ⟨t, hexec, hruns, fun k hk => ?_, hrest⟩
    obtain ⟨hseq, hm, hv, hq, -⟩ := hstarted k hk
    exact ⟨hseq, hm, hv, hq⟩
  case reconf => exact fun hstart => ⟨_, reconfStart_loads rfl hstart, startLoad_begins rfl⟩
  case sweep => exact sweepStart_opens rfl
  case noRun => exact fun hmay => ⟨_, entryStart_stays hmay, dropPrefetch_begins rfl⟩
  case noReconf => exact fun hmay => ⟨_, reconfStart_stays hmay, dropPrefetch_begins rfl⟩

end Sys2Proof.Machine
end

section
/-! What stopping a context leaves of the rest: other contexts, faults that are latched, the logs, pins and loads. -/

namespace Sys2Proof.Machine

/-! ### A context goes on -/

/-- What a context keeps while it or another is stopped: a latched fault stays, but for the count of those after it (R326), and no
sweep begins. -/
structure GoesOn (x y : Ctx) : Prop where
  latched : ∀ l, x.latched = some l → ∃ n, y.latched = some { l with extra := n }
  sweep   : x.sweep.st = .none → y.sweep.st = .none

theorem GoesOn.of_same {x y : Ctx} (hlatched : y.latched = x.latched) (hsweep : y.sweep = x.sweep) : GoesOn x y :=
  ⟨fun l hl => ⟨l.extra, hlatched.trans hl⟩, fun h => by rw [hsweep, h]⟩

theorem GoesOn.refl (x : Ctx) : GoesOn x x := .of_same rfl rfl

theorem GoesOn.trans {x y z : Ctx} (hxy : GoesOn x y) (hyz : GoesOn y z) : GoesOn x z := by
  refine ⟨fun l hl => ?_, fun h => hyz.sweep (hxy.sweep h)⟩
  obtain ⟨n, hn⟩ := hxy.latched l hl
  obtain ⟨m, hm⟩ := hyz.latched _ hn
  exact ⟨m, hm⟩

/-- No write of another context is on its way and no RUN of another is ending: what the stop of software context c does, it does
to c alone. -/
structure Alone (c : Nat) (s : State) : Prop where
  soft   : c ≠ 0
  writes : ∀ w ∈ s.net.writes, w.ctx = c
  ending : ∀ d, d ≠ c → (ctxAt s d).ending = false

/-- What the steps of the stop of context c have left of s in t, where writes of the tiles `ks` may have joined those on their
way. -/
structure Stopping (c : Nat) (ks : List Nat) (s t : State) : Prop where
  raised : s.logs.raised <:+ t.logs.raised
  faults : Alone c s → t.logs.faults = s.logs.faults
  pins   : t.pins = s.pins
  trust  : t.trust = s.trust
  loads  : ∀ h, ∀ l ∈ (hoopAt t h).loads, l ∈ (hoopAt s h).loads
  goesOn : ∀ d, GoesOn (ctxAt s d) (ctxAt t d)
  others : Alone c s → ∀ d, d ≠ c → ctxAt t d = ctxAt s d
  owned  : Alone c s → ∀ w ∈ t.net.writes, w.ctx = c
  sites  : ∀ w ∈ t.net.writes, (∃ k ∈ ks, w.site = some k) ∨ ∃ v ∈ s.net.writes, v.site = w.site

theorem Stopping.refl (c : Nat) (ks : List Nat) (s : State) : Stopping c ks s s :=
  ⟨List.suffix_rfl, fun _ => rfl, rfl, rfl, fun _ _ h => h, fun _ => .refl _, fun _ _ _ => rfl, fun h => h.writes,
    fun w hw => .inr ⟨w, hw, rfl⟩⟩

theorem Stopping.widen {c : Nat} {s t : State} (h : Stopping c [] s t) (ks : List Nat) : Stopping c ks s t :=
  { h with sites := fun w hw => .inr ((h.sites w hw).resolve_left fun ⟨_, hk, _⟩ => List.not_mem_nil hk) }

/-- The part of the state that `Stopping` speaks of, but for the logs. -/
def stopView (s : State) : Pins × Trust × Tab Ctx × List HbmWrite × (Nat → List Load) :=
  (s.pins, s.trust, s.ctxs, s.net.writes, fun h => (hoopAt s h).loads)

section Steps
variable {c : Nat} {ks : List Nat} {s t : State} (ht : Stopping c ks s t)
include ht

/-- A step that raises events at most, beside what `Stopping` does not speak of. -/
theorem Stopping.view {u : State} (hview : stopView u = stopView t) (hraised : t.logs.raised <:+ u.logs.raised)
    (hfaults : Alone c s → u.logs.faults = t.logs.faults) : Stopping c ks s u := by
  simp only [stopView, Prod.mk.injEq] at hview
  obtain ⟨hpins, htrust, hctxs, hwrites, hloads⟩ := hview
  have hctx : ∀ d, ctxAt u d = ctxAt t d := fun d => congrArg (fun m => Tab.get Ctx.reset m d) hctxs
  refine ⟨ht.raised.trans hraised, fun ha => (hfaults ha).trans (ht.faults ha), hpins.trans ht.pins, htrust.trans ht.trust,
    fun h l hl => ht.loads h l ?_, fun d => ?_, fun ha d hd => (hctx d).trans (ht.others ha d hd), ?_, ?_⟩
  · rwa [← congrFun hloads h]
  · rw [hctx]
    exact ht.goesOn d
  · rw [hwrites]
    exact ht.owned
  · rw [hwrites]
    exact ht.sites

/-- A step that leaves the logs too. -/
theorem Stopping.same {u : State} (hview : stopView u = stopView t) (hlogs : u.logs = t.logs) : Stopping c ks s u :=
  ht.view hview (by rw [hlogs]) fun _ => by rw [hlogs]

theorem Stopping.raise (code d : Nat) (bs : List Byte) : Stopping c ks s (raise code d bs t) := by
  refine ht.view ?_ ?_ fun _ => by rw [raise_logs]
  · have hloads : (fun h => (hoopAt (Machine.raise code d bs t) h).loads) = fun h => (hoopAt t h).loads := by
      funext h
      rw [hoopAt_raise]
    rw [stopView, hloads, raise_pins, raise_trust, raise_ctxs, raise_net, stopView]
  · rw [raise_logs]
    exact List.suffix_cons _ _

/-- A context goes on; while c stops alone, it is c. -/
theorem Stopping.modCtx {d : Nat} {f : Ctx → Ctx} (hf : GoesOn (ctxAt t d) (f (ctxAt t d))) (hd : Alone c s → d = c) :
    Stopping c ks s (modCtx d f t) := by
  refine ⟨ht.raised, ht.faults, ht.pins, ht.trust, ht.loads, fun j => ?_, fun ha j hj => ?_, ht.owned, ht.sites⟩
  · rw [ctxAt_modCtx]
    split
    · next h => subst h; exact (ht.goesOn j).trans hf
    · exact ht.goesOn j
  · rw [ctxAt_modCtx_other _ _ (by rw [hd ha]; exact hj), ht.others ha j hj]

theorem Stopping.modCtx_same {f : Ctx → Ctx} (hlatched : ∀ x, (f x).latched = x.latched) (hsweep : ∀ x, (f x).sweep = x.sweep) :
    Stopping c ks s (Machine.modCtx c f t) := ht.modCtx (.of_same (hlatched _) (hsweep _)) fun _ => rfl

theorem Stopping.latch {d : Nat} (code : FaultCode) (it : Item) (reason load : Nat) (x : FaultDetail) (hd : Alone c s → d = c) :
    Stopping c ks s (latch d code it reason load x t) := by
  refine ht.modCtx ⟨fun l hl => ?_, fun h => ?_⟩ hd
  · rw [hl]
    by_cases hdone : l.done = true
    · exact ⟨l.extra, (congrArg Ctx.latched (if_pos hdone)).trans hl⟩
    · exact ⟨satAdd 16 l.extra 1, congrArg Ctx.latched (if_neg hdone)⟩
  · split
    · exact h
    · split <;> exact h

theorem Stopping.ctxFlags (fl : Nat) (it : Item) : Stopping c ks s (ctxFlags c fl it t) := by
  have hflags := ht.modCtx_same (f := fun x => { x with flags := x.flags ||| BitVec.ofNat 6 fl }) (fun _ => rfl) fun _ => rfl
  unfold Machine.ctxFlags
  dsimp only
  split
  · exact hflags.latch _ _ _ _ _ fun _ => rfl
  · exact hflags

/-- Writes on their way change; one that joins them is c's and of a tile of `ks`. -/
theorem Stopping.modWrites {f : Net → Net} (hf : ∀ w ∈ (f t.net).writes, (w.ctx = c ∧ ∃ k ∈ ks, w.site = some k) ∨
    ∃ v ∈ t.net.writes, v.ctx = w.ctx ∧ v.site = w.site) : Stopping c ks s (modNet f t) := by
  refine ⟨ht.raised, ht.faults, ht.pins, ht.trust, ht.loads, ht.goesOn, ht.others, fun ha w hw => ?_, fun w hw => ?_⟩
  · obtain ⟨hc, -⟩ | ⟨v, hv, hctx, -⟩ := hf w hw
    · exact hc
    · exact hctx ▸ ht.owned ha v hv
  · obtain ⟨-, hk⟩ | ⟨v, hv, -, hsite⟩ := hf w hw
    · exact .inl hk
    · exact hsite ▸ ht.sites v hv

/-- Loads leave a port, and what else of the Hoop is not its loads changes. -/
theorem Stopping.modHoop {h : Nat} {f : Hoop → Hoop} (hf : ∀ x, ∀ l ∈ (f x).loads, l ∈ x.loads) : Stopping c ks s (modHoop h f t) := by
  refine ⟨ht.raised, ht.faults, ht.pins, ht.trust, fun j l hl => ?_, ht.goesOn, ht.others, ht.owned, ht.sites⟩
  rw [hoopAt_modHoop] at hl
  split at hl
  · next hj => subst hj; exact ht.loads j l (hf _ l hl)
  · exact ht.loads j l hl

omit ht in
theorem Stopping.foldl {α : Type} {f : State → α → State} {xs : List α} (ht : Stopping c ks s t)
    (hf : ∀ u, ∀ x ∈ xs, Stopping c ks s u → Stopping c ks s (f u x)) : Stopping c ks s (xs.foldl f t) :=
  List.foldlRecOn xs f ht fun u hu x hx => hf u x hx hu

end Steps

/-! ### Writes that are performed (R262) -/

section Writes
variable {c : Nat} {ks : List Nat} {s t : State} (ht : Stopping c ks s t)
include ht

theorem Stopping.poke (a : Nat) (bs : List Byte) : Stopping c ks s (poke t a bs) := ht.same rfl rfl

theorem Stopping.modTile (k : Nat) (f : Tile → Tile) : Stopping c ks s (modTile k f t) := ht.same rfl rfl

omit ht in
/-- A part of an entry that a map over a table keeps. -/
theorem Tab.get_map_part {β γ : Type} (g : β → γ) {d : β} {f : Nat × β → β} (hf : ∀ p, g (f p) = g p.2) (m : Tab β) (k : Nat) :
    g (Tab.get d (m.map fun p => (p.1, f p)) k) = g (Tab.get d m k) := by
  induction m with
  | nil => rfl
  | cons p m ih =>
    simp only [List.map_cons, Tab.get]
    split
    · exact hf p
    · exact ih

/-- An undefined case of a context, which is c while c stops alone. -/
theorem Stopping.undef (u : UndefCase) {d : Nat} (hd : Alone c s → d = c) : Stopping c ks s (undef u d t) := by
  unfold Machine.undef
  split
  · exact ht
  have hloads : ∀ h, (hoopAt (undefWithin d t) h).loads = (hoopAt t h).loads :=
    Tab.get_map_part Hoop.loads (f := fun p => wildHoop t d p.2 (hoopAt (wildOf t) p.1)) (fun _ => rfl) t.hoops
  have hctx : ∀ j, ctxAt (undefWithin d t) j = if j = d then wildCtx (ctxAt t d) (ctxAt (wildOf t) d) else ctxAt t j := fun j => by
    rw [undefWithin, ctxAt, Tab.get_set]
    rfl
  have hwild : ∀ x w : Ctx, GoesOn x (wildCtx x w) := fun x w => ⟨fun l hl => ⟨l.extra, by simp [wildCtx, hl]⟩, fun h => h⟩
  refine ⟨ht.raised, ht.faults, ht.pins, ht.trust, fun h l hl => ht.loads h l (by rwa [← hloads]), fun j => ?_, fun ha j hj => ?_,
    fun ha w hw => ht.owned ha w (List.mem_filter.mp hw).1, fun w hw => ht.sites w (List.mem_filter.mp hw).1⟩
  · rw [hctx]
    split
    · next h => subst h; exact (ht.goesOn j).trans (hwild _ _)
    · exact ht.goesOn j
  · rw [hctx, if_neg (by rw [hd ha]; exact hj), ht.others ha j hj]

theorem Stopping.reportUe {d : Nat} (site : Option Nat) (pa : Nat) (hd : Alone c s → d = c) :
    Stopping c ks s (reportUe d site pa t) := by
  unfold Machine.reportUe
  split
  · next h0 => exact (ht.raise 0x31 0 _).view rfl List.suffix_rfl fun ha => absurd ((hd ha).symm.trans h0) ha.soft
  · exact ht.latch _ _ _ _ _ hd

theorem Stopping.writeCodewords (pa : Nat) (bs : List Byte) : Stopping c ks s (writeCodewords (fun _ s => s) pa bs t) :=
  ht.foldl fun _ _ _ hu => by
    dsimp only
    split
    · exact hu
    · exact hu.poke _ _

theorem Stopping.addCodewords (pa : Nat) (bs : List Byte) : Stopping c ks s (addCodewords (fun _ s => s) pa bs t) :=
  ht.foldl fun _ _ _ hu => by
    dsimp only
    split
    · exact hu
    · exact hu.poke _ _

theorem Stopping.mergeBit (pa : Nat) (bs : List Byte) : Stopping c ks s (mergeBit (fun _ s => s) pa bs t) := by
  unfold Machine.mergeBit
  split
  · exact ht
  · exact ht.poke _ _

theorem Stopping.plainEnd {w : HbmWrite} {b : Option Nat} {u : State} (h : plainEnd w t = .done b u) : Stopping c ks s u := by
  unfold Machine.plainEnd at h
  simp only [written] at h
  split at h <;> cases h
  · exact ht.mergeBit _ _
  · exact ht.writeCodewords _ _

/-- An aperture write that is done has changed memory, or its context's count of discarded bytes. -/
theorem Stopping.apertureEnd {w : HbmWrite} {ap : Aperture} {b : Option Nat} {u : State} (hw : Alone c s → w.ctx = c)
    (h : apertureEnd w ap t = .done b u) : Stopping c ks s u := by
  rw [Machine.apertureEnd] at h
  generalize (if w.mask then 1 else w.data.length) = n at h
  split at h
  · exact nomatch h
  · cases hd : blockDesc t w.ctx w.quarter ap.block with
    | none => rw [hd] at h; exact nomatch h
    | some d =>
      rw [hd] at h
      dsimp only at h
      split at h
      · cases h
        exact ht.modCtx (.of_same rfl rfl) hw
      · split at h
        · exact nomatch h
        · split at h
          · simp only [written] at h
            split at h
            · cases h; exact ht.mergeBit _ _
            · split at h <;> cases h
              · exact ht.writeCodewords _ _
              · exact ht.addCodewords _ _
          all_goals exact nomatch h

theorem Stopping.endWrite {w : HbmWrite} {r : WriteEnd} (hw : Alone c s → w.ctx = c) (hr : ∀ b u, r = .done b u → Stopping c ks s u) :
    Stopping c ks s (endWrite w r t) := by
  match r with
  | .undef => exact ht.undef .accumulate hw
  | .fail e d => exact ht.latch _ _ _ _ _ hw
  | .done none u => exact hr _ _ rfl
  | .done (some bad) u => exact (hr _ _ rfl).reportUe _ _ hw

theorem Stopping.performWrite {w : HbmWrite} (hw : Alone c s → w.ctx = c) : Stopping c ks s (performWrite w t) := by
  unfold Machine.performWrite
  split
  · exact ht
  · refine ht.endWrite hw fun b u h => ?_
    split at h
    · exact ht.apertureEnd hw h
    · exact ht.plainEnd h

/-- The writes of tile k are performed: none that joined those on their way is left. -/
theorem Stopping.performWrites {k : Nat} (hks : ks = [k]) : Stopping c [] s (performWrites k t) := by
  subst hks
  have hdone := ht.foldl (f := fun u w => Machine.performWrite w u) (xs := t.net.writes.filter fun w => w.site = some k)
    fun u w hw hu => hu.performWrite fun ha => ht.owned ha w (List.mem_filter.mp hw).1
  unfold Machine.performWrites each
  refine ⟨hdone.raised, hdone.faults, hdone.pins, hdone.trust, hdone.loads, hdone.goesOn, hdone.others, fun ha w hw => ?_,
    fun w hw => ?_⟩
  · exact hdone.owned ha w (List.mem_filter.mp hw).1
  · obtain ⟨hw, hsite⟩ := List.mem_filter.mp hw
    refine (hdone.sites w hw).imp_left fun ⟨j, hj, hwj⟩ => ?_
    rw [List.mem_singleton.mp hj] at hwj
    simp [hwj] at hsite

theorem Stopping.settleWay (w : HbmWrite) (n : Nat) : Stopping c ks s (settleWay w n t) := by
  induction n generalizing t with
  | zero => exact ht
  | succ n ih =>
    unfold Machine.settleWay
    split
    · next x _ =>
      split
      · refine ih ((ht.poke x.pa x.data).modWrites fun y hy => .inr ?_)
        obtain ⟨v, hv, rfl⟩ := List.mem_map.mp hy
        refine ⟨v, hv, ?_⟩
        split <;> exact ⟨rfl, rfl⟩
      · exact ht
    · exact ht

/-- A write of tile k for c leaves for its controller. -/
theorem Stopping.putWrite {k : Nat} (hk : k ∈ ks) (r : StreamReq) : Stopping c ks s (putWrite k c r t) := by
  refine (ht.modWrites fun w hw => ?_).settleWay _ _
  obtain hw | hw := List.mem_append.mp hw
  · exact .inr ⟨w, hw, rfl, rfl⟩
  · rw [List.mem_singleton.mp hw]
    exact .inl ⟨rfl, k, hk, rfl⟩

theorem Stopping.issueGroup {k : Nat} (hk : k ∈ ks) (g : Bool × Nat) : Stopping c ks s (issueGroup k c g t) := by
  have hcounted : Stopping c ks s (countReq k g.1 (covered ((mergeWaiting (tileAt t k)).filter (inGroup g)))
      (modB k (fun b => { b with streams := b.streams.map fun p => (p.1, issuedStream (groupId (tileAt t k) g) g p.2) }) t)) :=
    ht.same rfl rfl
  unfold Machine.issueGroup
  dsimp only
  split
  · exact hcounted
  · exact hcounted.foldl fun u r _ hu => hu.putWrite hk r

end Writes

/-! ### Tiles and regions stop (R155, R193, R262) -/

section Regions
variable {c : Nat} {s t : State} (ht : Stopping c [] s t)
include ht

theorem Stopping.stopFlags (k : Nat) : Stopping c [] s (stopFlags c k t) :=
  ht.foldl fun u p _ hu => by
    dsimp only
    split
    · exact hu
    · refine Stopping.ctxFlags ?_ _ _
      unfold setStream modB
      exact hu.modTile _ _

theorem Stopping.stopTile (keep : Bool) (k : Nat) : Stopping c [] s (stopTile keep c k t) := by
  unfold Machine.stopTile
  have hissued := (ht.widen [k]).foldl (f := fun u g => if g.1 then u else Machine.issueGroup k c g u) (xs := mergeGroups (tileAt t k))
    fun u g _ hu => by
      split
      · exact hu
      · exact hu.issueGroup (List.mem_singleton_self _) g
  exact ((hissued.performWrites rfl).stopFlags k).modTile _ _

theorem Stopping.stopRegion (keep : Bool) (h c0 c1 : Nat) : Stopping c [] s (stopRegion keep c h c0 c1 t) :=
  ht.foldl fun _ k _ hu => hu.stopTile keep k

/-! ### Commands and loads end (R402, R403) -/

theorem Stopping.postAt (o : Origin) (bs : List Byte) : Stopping c [] s (postAt o bs t) := by
  cases o with
  | ring p r =>
    refine ht.same ?_ ?_
    · simp only [Machine.postAt]; split <;> rfl
    · simp only [Machine.postAt]; split <;> rfl
  | pm p k => exact ht.same rfl rfl
  | batch n p addr host => cases host <;> exact ht.same rfl rfl
  | mgmt => exact ht

theorem Stopping.finish (seq : Nat) (st : Status) (result : Nat) : Stopping c [] s (finish seq st result t) := by
  unfold Machine.finish
  split
  · exact ht
  · next w _ =>
    have hended : Stopping c [] s (journalFinal seq st result none
        { t with waits := (eraseFirst (fun x => x.seq = seq) t.waits).map (Wait.learns seq st) }) :=
      ht.view rfl List.suffix_rfl fun _ => rfl
    dsimp only
    split
    · exact hended.raise _ _ _
    · exact hended.postAt _ _

theorem Stopping.finishAll (is : WaitFor → Bool) (st : Status) : Stopping c [] s (finishAll is st t) :=
  ht.foldl fun _ _ _ hu => hu.finish _ _ _

theorem Stopping.failTxn (id : Nat) (st : Status) (own : Nat → Nat → PrickStatus) : Stopping c [] s (failTxn id st own t) := by
  unfold Machine.failTxn
  split
  · exact ht
  · next x _ =>
    have herased : Stopping c [] s { t with txns := eraseFirst (fun u => u.id = id) t.txns } := ht.same rfl rfl
    have hended := herased.foldl (f := fun s x => match x with
      | .load c motif _ _ _ _ => applyDone c motif (own c motif).num s
      | _ => s) (xs := x.staged) fun u y _ hu => by
        split
        · exact hu.raise _ _ _
        · exact hu
    have hunstaged : Stopping c [] s (unstageTxn id _) :=
      hended.foldl fun _ _ _ hu => hu.modHoop fun _ _ hl => (List.mem_filter.mp hl).1
    exact hunstaged.foldl fun _ _ _ hu => hu.finish _ _ _

theorem Stopping.settleIdle : Stopping c [] s (settleIdle t) :=
  ht.foldl fun u d _ hu => by
    dsimp only
    split
    · next h =>
      refine hu.modCtx (.of_same rfl rfl) fun ha => ?_
      by_contra hd
      rw [hu.others ha d hd, ha.ending d hd] at h
      exact absurd h Bool.noConfusion
    · exact hu

theorem Stopping.dropRun (h e : Nat) : Stopping c [] s (dropRun h e t) :=
  Stopping.settleIdle (ht.modHoop fun _ _ hl => hl)

theorem Stopping.serviceKnot {d : Nat} (q op value kaddr : Nat) (hd : Alone c s → d = c) :
    Stopping c [] s (serviceKnot d q op value kaddr t) := by
  unfold Machine.serviceKnot
  dsimp only
  split
  · refine ht.same (sendOut_keeps stopView _ _ _ _ _ fun _ => rfl) (sendOut_logs _ _ _ _ _)
  · split
    · exact ht.same rfl rfl
    · split
      · exact ht.latch _ _ _ _ _ hd
      · exact ht

/-- How a load that is abandoned ends. -/
def abortEnd (h : Nat) (s : State) (l : Load) : State :=
  match l.origin with
  | .entry e => dropRun h e s
  | .apply => applyDone l.ctx l.motif PrickStatus.aborted.num s
  | .loader k _ => if (ctxAt s l.ctx).latched.isSome then s else loaderDone l.ctx l.motif PrickStatus.aborted.num k s
  | .txn id => failTxn id .badState (fun _ _ => .aborted) s

omit ht in
theorem abortLoads_eq (h : Nat) (is : Load → Bool) (s : State) : abortLoads h is s =
    ((loadsOf s h).filter is).foldl (abortEnd h) (Machine.modHoop h (fun x => { x with loads := x.loads.filter fun l => !is l }) s) := rfl

/-- Loads that are abandoned end; one of the loader service that faults does so for c. -/
theorem Stopping.abortEnds (h : Nat) {ls : List Load}
    (hown : Alone c s → ∀ l ∈ ls, ∀ k b, l.origin = .loader k b → l.ctx = c) : Stopping c [] s (ls.foldl (abortEnd h) t) := by
  refine ht.foldl fun u l hl hu => ?_
  unfold abortEnd
  split
  · exact hu.dropRun _ _
  · exact hu.raise _ _ _
  · next k b horigin =>
    split
    · exact hu
    · exact hu.serviceKnot _ _ _ _ fun ha => hown ha l hl k b horigin
  · exact hu.failTxn _ _ _

theorem Stopping.abortLoads (h : Nat) {is : Load → Bool}
    (hown : Alone c s → ∀ l ∈ loadsOf t h, is l = true → ∀ k b, l.origin = .loader k b → l.ctx = c) :
    Stopping c [] s (abortLoads h is t) := by
  rw [abortLoads_eq]
  refine (ht.modHoop fun _ _ hl => ?_).abortEnds h fun ha l hl => ?_
  · exact (List.mem_filter.mp hl).1
  · obtain ⟨hl, his⟩ := List.mem_filter.mp hl
    exact hown ha l hl his

/-! ### The rest of what a context has under way (R247, R281, R291, R314, R326, R359, R474) -/

theorem Stopping.endEviction : Stopping c [] s (endEviction c t) := by
  unfold Machine.endEviction
  split
  · exact ht
  · refine Stopping.finishAll (ht.modCtx_same ?_ ?_) _ _
    · exact fun _ => rfl
    · exact fun _ => rfl

theorem Stopping.pauseEnds (h : Nat) : Stopping c [] s (pauseEnds h t) := by
  unfold Machine.pauseEnds
  split
  · exact ht
  · exact ht.modHoop fun _ _ hl => hl

theorem Stopping.beginRollback (cause : Nat) : Stopping c [] s (beginRollback c cause t) := by
  unfold Machine.beginRollback
  dsimp only
  split
  · next hopen =>
    have hsweep : (ctxAt t c).sweep.st ≠ .none := fun hnone => by
      rw [sweepAt, hnone] at hopen
      exact absurd hopen Bool.noConfusion
    refine (ht.modCtx ⟨fun l hl => ⟨l.extra, hl⟩, fun hnone => absurd hnone hsweep⟩ fun _ => rfl).foldl fun u h _ hu => hu.pauseEnds h
  · exact ht

theorem Stopping.faultChannels : Stopping c [] s (faultChannels c t) :=
  Stopping.foldl (ht.same rfl rfl) fun _ k _ hu => hu.modTile k _

theorem Stopping.dropKnots : Stopping c [] s (dropKnots c t) := ht.same rfl rfl

theorem Stopping.dropPeers : Stopping c [] s (dropPeers c t) :=
  Stopping.foldl (ht.same rfl rfl) fun _ k _ hu => hu.modTile k _

theorem Stopping.startCopies (p : Nat) : Stopping c [] s (startCopies p t) := by
  unfold Machine.startCopies
  split
  · exact ht
  · split
    · exact ht
    · exact ht.same rfl rfl

theorem Stopping.dropTransfers : Stopping c [] s (dropTransfers c t) := by
  have hnet : Stopping c [] s (modNet (fun n => { n with
      copies := n.copies.filter fun x => x.ctx ≠ c, xfers := n.xfers.filter fun x => x.ctx ≠ c }) t) := ht.same rfl rfl
  have htaps := hnet.foldl (f := fun s h => Machine.modHoop h (fun x => { x with
    tapBuf := x.tapBuf.filter fun f => f.ctx ≠ c
    tapDrop := satAdd 48 x.tapDrop ((t.net.xfers.filter fun x => x.ctx = c).length + (x.tapBuf.filter fun f => f.ctx = c).length) }) s)
    (xs := List.range 8) fun _ _ _ hu => hu.modHoop fun _ _ hl => hl
  exact htaps.foldl fun _ _ _ hu => hu.startCopies _

theorem Stopping.dropQueued : Stopping c [] s (dropQueued c t) := by
  unfold Machine.dropQueued
  have hdropped : Stopping c [] s (modNet (fun n => { n with waiting := n.waiting.filter fun m => !(decide (m.ctx = c) && !m.again) }) t) :=
    ht.same rfl rfl
  have hcounted := hdropped.foldl (f := fun s m => match ownPort s m with
    | some p => modLink p (fun x => { x with disc474 := satAdd 32 x.disc474 1 }) s
    | none => s) (xs := t.net.waiting.filter fun m => decide (m.ctx = c) && !m.again) fun u m _ hu => by
      split
      · exact hu.same rfl rfl
      · exact hu
  exact hcounted.same (pump_keeps stopView _ fun _ => rfl) (pump_keeps State.logs _ fun _ => rfl)

theorem Stopping.captureRegion (h c0 c1 : Nat) : Stopping c [] s (captureRegion c h c0 c1 t) := by
  unfold Machine.captureRegion
  refine ht.modCtx_same ?_ ?_
  · exact fun _ => rfl
  · exact fun _ => rfl

theorem Stopping.captureAll : Stopping c [] s (captureAll c t) :=
  ht.foldl fun _ _ _ hu => by
    dsimp only
    split
    · exact hu
    · exact hu.captureRegion _ _ _

theorem Stopping.scanRegion (armed post : Bool) (r : Nat × Nat × Nat × Nat) : Stopping c [] s (scanRegion c armed post r t) := by
  obtain ⟨h, c0, c1, m⟩ := r
  have hpoked := ht.foldl (f := fun s k => pokeFree (scanRecord c k) (tileRecord (tileAt s k)) s) (xs := regionTiles h c0 c1)
    fun _ _ _ hu => hu.same rfl rfl
  unfold Machine.scanRegion
  refine hpoked.modCtx_same ?_ ?_
  · exact fun _ => rfl
  · exact fun _ => rfl

theorem Stopping.emptyRegion (h c0 c1 : Nat) : Stopping c [] s (emptyRegion h c0 c1 t) := by
  have htiles := ht.foldl (f := fun s k => Machine.modTile k (fun t => { t with queues := [], masks := [] }) s)
    (xs := regionTiles h c0 c1) fun _ k _ hu => hu.modTile k _
  unfold Machine.emptyRegion emptyQueues
  refine Stopping.modHoop (htiles.modHoop ?_) ?_
  · exact fun _ _ hl => hl
  · exact fun _ _ hl => hl

/-- A context is stopped everywhere (R325 steps 2 to 6). -/
theorem Stopping.stopContext (cause : Nat) (scan : Bool) : Stopping c [] s (stopContext c cause scan t) := by
  have hstopped := ht.foldl (f := fun s p => Machine.stopRegion false c p.1 p.2.c0 p.2.c1 s)
    (xs := (runsOf t c).filter fun p => p.2.stage = .running) fun _ _ _ hu => hu.stopRegion false _ _ _
  have haborted := hstopped.foldl (f := fun s h => Machine.abortLoads h (fun l => l.ctx = c) s) (xs := List.range 8)
    fun _ h _ hu => hu.abortLoads h fun _ _ _ hc _ _ _ => of_decide_eq_true hc
  have hleft := (((((haborted.beginRollback cause).faultChannels).dropKnots).dropPeers).dropTransfers).dropQueued.captureAll
  unfold Machine.stopContext
  refine Stopping.foldl (Stopping.foldl (Stopping.foldl ?_ fun u r _ hu => ?_) fun u h _ hu => ?_) fun u k _ hu => hu.modTile k _
  · split
    · exact hleft.foldl fun _ r _ hu => hu.scanRegion _ _ r
    · exact hleft
  · exact hu.emptyRegion _ _ _
  · exact hu.modHoop fun _ _ hl => hl

end Regions

end Sys2Proof.Machine
end

section
/-! A context is torn down (R325, R326), and contexts are halted one after another (R318, R319). -/

namespace Sys2Proof.Machine

/-! ### The tear-down of a latched fault -/

/-- The tear-down of a context for a latched fault has taken s to t. -/
structure TearsDown (c : Nat) (l : Latched) (s t : State) : Prop where
  st      : (ctxAt t c).st = .faulted
  runPend : (ctxAt t c).runPend = none
  ending  : (ctxAt t c).ending = false
  latched : ∃ n, (ctxAt t c).latched = some { l with extra := n, done := true }
  event   : ∃ e es, t.logs.raised = e :: es ++ s.logs.raised ∧ e.code = 0x0005 ∧ e.ctx = c ∧
    ∀ l', (ctxAt t c).latched = some l' → e.payload = faultFields l'
  faults  : Alone c s → ∃ e, t.logs.faults = (e :: s.logs.faults).take 256
  loads   : ∀ h, ∀ l ∈ (hoopAt t h).loads, l ∈ (hoopAt s h).loads
  sweep   : (ctxAt s c).sweep.st = .none → (ctxAt t c).sweep.st = .none
  others  : Alone c s → ∀ d, d ≠ c → ctxAt t d = ctxAt s d
  writes  : s.net.writes = [] → t.net.writes = []

theorem TearsDown.torn {c : Nat} {l : Latched} {s t : State} (h : TearsDown c l s t) : TornDown c l.code s t := by
  obtain ⟨n, hl⟩ := h.latched
  obtain ⟨e, es, hraised, hcode, hctx, hpayload⟩ := h.event
  exact ⟨h.st, h.runPend, _, hl, rfl, rfl, e, es, hraised, hcode, hctx, hpayload _ hl⟩

/-- The dump, CTX_FAULT and the log entry of a context whose fault is latched (R325 steps 7 to 9). -/
def tearLogged (c : Nat) (l : Latched) (u : State) : State :=
  faultLog c l (raise 0x0005 c (faultFields l) (faultDump c l u))

/-- What follows the stop of a context whose fault is latched: the dump, the logs, and the context FAULTED. -/
def tearEnd (c : Nat) (l : Latched) (u : State) : State :=
  let v := tearLogged c l u
  modCtx c (fun x => { x with
    st := .faulted, latched := some { l with done := true }, captured := [], runPend := none, runLeft := some 0, ending := false })
    { v with logs := { v.logs with
      checks := v.logs.checks.filter fun x => x.1 ≠ c, hazards := v.logs.hazards.filter fun x => x.1 ≠ c } }

theorem tearDown_eq {c : Nat} {scan : Bool} {l : Latched} {s : State} (hl : (ctxAt s c).latched = some l) (hdone : l.done = false) :
    tearDown c scan s = tearEnd c (((ctxAt (stopContext c causeFault scan (endEviction c s)) c).latched).getD l)
      (stopContext c causeFault scan (endEviction c s)) := by
  unfold tearDown
  rw [hl]
  dsimp only
  rw [if_neg (by rw [hdone]; exact Bool.false_ne_true)]
  rfl

theorem faultDump_poke (c : Nat) (l : Latched) (u : State) : ∃ bs, faultDump c l u = poke u (faultDumpBase c) bs := by
  unfold faultDump
  generalize dumpBytes _ _ _ _ = p
  exact ⟨p.1, rfl⟩

theorem tearLogged_ctxs (c : Nat) (l : Latched) (u : State) : (tearLogged c l u).ctxs = u.ctxs := by
  obtain ⟨bs, hdump⟩ := faultDump_poke c l u
  rw [tearLogged, faultLog, logEntry_ctxs, raise_ctxs, hdump, poke_ctxs]

theorem tearLogged_hoops (c : Nat) (l : Latched) (u : State) (h : Nat) : hoopAt (tearLogged c l u) h = hoopAt u h := by
  obtain ⟨bs, hdump⟩ := faultDump_poke c l u
  rw [tearLogged, faultLog, hoopAt_logEntry, hoopAt_raise, hdump, hoopAt_poke]

theorem tearLogged_net (c : Nat) (l : Latched) (u : State) : (tearLogged c l u).net = u.net := by
  obtain ⟨bs, hdump⟩ := faultDump_poke c l u
  rw [tearLogged, faultLog, logEntry_net, raise_net, hdump, poke_net]

theorem tearLogged_raised (c : Nat) (l : Latched) (u : State) : (tearLogged c l u).logs.raised =
    ⟨u.logs.eseq + 1, 0x0005, c, u.stitch.count, faultFields l⟩ :: u.logs.raised := by
  obtain ⟨bs, hdump⟩ := faultDump_poke c l u
  rw [tearLogged, faultLog, logEntry, hdump]
  dsimp only
  rw [raise_logs, poke_logs, poke_stitch]

theorem tearLogged_faults (c : Nat) (l : Latched) (u : State) :
    ∃ e, (tearLogged c l u).logs.faults = (e :: u.logs.faults).take 256 := by
  obtain ⟨bs, hdump⟩ := faultDump_poke c l u
  rw [tearLogged, faultLog, logEntry, hdump]
  dsimp only
  rw [raise_logs, poke_logs]
  exact ⟨_, rfl⟩

theorem ctxAt_tearEnd (c : Nat) (l : Latched) (u : State) (d : Nat) : ctxAt (tearEnd c l u) d = if d = c then { ctxAt u c with
    st := .faulted, latched := some { l with done := true }, captured := [], runPend := none, runLeft := some 0, ending := false }
    else ctxAt u d := by
  have hctxs := tearLogged_ctxs c l u
  unfold tearEnd
  generalize tearLogged c l u = v at hctxs
  rw [ctxAt_modCtx]
  simp only [ctxAt, hctxs]

theorem tearEnd_raised (c : Nat) (l : Latched) (u : State) : (tearEnd c l u).logs.raised =
    ⟨u.logs.eseq + 1, 0x0005, c, u.stitch.count, faultFields l⟩ :: u.logs.raised := by
  rw [← tearLogged_raised]
  unfold tearEnd
  generalize tearLogged c l u = v
  rfl

theorem tearEnd_faults (c : Nat) (l : Latched) (u : State) : ∃ e, (tearEnd c l u).logs.faults = (e :: u.logs.faults).take 256 := by
  obtain ⟨e, he⟩ := tearLogged_faults c l u
  refine ⟨e, ?_⟩
  rw [← he]
  unfold tearEnd
  generalize tearLogged c l u = v
  rfl

theorem tearEnd_net (c : Nat) (l : Latched) (u : State) : (tearEnd c l u).net = u.net := by
  rw [← tearLogged_net c l u]
  unfold tearEnd
  generalize tearLogged c l u = v
  rfl

theorem hoopAt_tearEnd (c : Nat) (l : Latched) (u : State) (h : Nat) : hoopAt (tearEnd c l u) h = hoopAt u h := by
  rw [← tearLogged_hoops c l u]
  unfold tearEnd
  generalize tearLogged c l u = v
  rfl

/-- The tear-down of a fault that is latched and not yet torn down. -/
theorem tearDown_tears {c : Nat} {scan : Bool} {l : Latched} {s : State} (hl : (ctxAt s c).latched = some l) (hdone : l.done = false) :
    TearsDown c l s (tearDown c scan s) := by
  have hstop : Stopping c [] s (stopContext c causeFault scan (endEviction c s)) :=
    ((Stopping.refl c [] s).endEviction).stopContext causeFault scan
  rw [tearDown_eq hl hdone]
  generalize stopContext c causeFault scan (endEviction c s) = u at hstop
  obtain ⟨n, hn⟩ := (hstop.goesOn c).latched l hl
  obtain ⟨es, hes⟩ := hstop.raised
  rw [hn, Option.getD_some]
  have hctx := ctxAt_tearEnd c { l with extra := n } u c
  rw [if_pos rfl] at hctx
  refine ⟨by rw [hctx], by rw [hctx], by rw [hctx], ⟨n, by rw [hctx]⟩, ?event, fun ha => ?faults, fun h x hx => ?loads, fun h => ?sweep,
    fun ha d hd => ?others, fun h => ?writes⟩
  case event =>
    refine ⟨_, es, by rw [tearEnd_raised, List.cons_append, hes], rfl, rfl, fun l' hl' => ?_⟩
    rw [hctx] at hl'
    obtain rfl := Option.some.inj hl'
    rfl
  case faults =>
    rw [← hstop.faults ha]
    exact tearEnd_faults _ _ _
  case loads =>
    rw [hoopAt_tearEnd] at hx
    exact hstop.loads h x hx
  case sweep =>
    rw [hctx]
    exact (hstop.goesOn c).sweep h
  case others => rw [ctxAt_tearEnd, if_neg hd, hstop.others ha d hd]
  case writes =>
    rw [tearEnd_net]
    refine List.eq_nil_iff_forall_not_mem.mpr fun w hw => ?_
    obtain ⟨k, hk, -⟩ | ⟨v, hv, -⟩ := hstop.sites w hw
    · exact List.not_mem_nil hk
    · rw [h] at hv
      exact List.not_mem_nil hv

/-- A context that has nothing to tear down stays. -/
theorem tearDown_idle {c : Nat} {scan : Bool} {s : State} (h : ∀ l, (ctxAt s c).latched = some l → l.done = true) :
    tearDown c scan s = s := by
  unfold tearDown
  split
  · rfl
  · next l hl => exact if_pos (h l hl)

/-! ### HALT (R318) -/

/-- A context that HALT stops has no fault latched. -/
theorem latched_of_haltable {c : Nat} {s : State} (h : haltable s c = true) : (ctxAt s c).latched = none := by
  by_contra hl
  rw [haltable, ctxSt, if_pos (Option.isSome_iff_ne_none.mpr hl)] at h
  exact absurd h Bool.noConfusion

theorem stopping_faultAt (c : Nat) (code : FaultCode) (it : Item) (s : State) : Stopping c [] s (faultAt c code it s) :=
  (Stopping.refl c [] s).latch _ _ _ _ _ fun _ => rfl

theorem Alone.faultAt {c : Nat} {s : State} (h : Alone c s) (code : FaultCode) (it : Item) : Alone c (faultAt c code it s) :=
  ⟨h.soft, h.writes, fun d hd => by rw [(stopping_faultAt c code it s).others h d hd, h.ending d hd]⟩

/-- A tear-down after a fault of the context itself is one of the context as it stood before. -/
theorem TearsDown.of_faultAt {c : Nat} {l : Latched} {code : FaultCode} {it : Item} {s t : State}
    (h : TearsDown c l (faultAt c code it s) t) : TearsDown c l s t where
  st      := h.st
  runPend := h.runPend
  ending  := h.ending
  latched := h.latched
  event   := h.event
  faults ha := h.faults (ha.faultAt code it)
  loads   := h.loads
  sweep hs := h.sweep (((stopping_faultAt c code it s).goesOn c).sweep hs)
  others ha d hd := (h.others (ha.faultAt code it) d hd).trans ((stopping_faultAt c code it s).others ha d hd)
  writes  := h.writes

/-- HALT stops an ACTIVE or EVICTING context: HALTED is latched, and torn down. -/
theorem haltCtx_halts {c : Nat} {scan : Bool} {s : State} (h : haltable s c = true) :
    ∃ l, l.code = .halted ∧ TearsDown c l s (haltCtx scan c s) := by
  obtain ⟨l, hl, hcode, hdone⟩ := latch_first (code := .halted) (it := noItem) (reason := 0) (load := 0) (d := .none)
    (latched_of_haltable h)
  refine ⟨l, hcode, ?_⟩
  rw [haltCtx, if_pos h]
  exact (tearDown_tears hl hdone).of_faultAt

/-- HALT of another context tears down a fault that is latched, or does nothing. -/
theorem haltCtx_unhalted {c : Nat} {scan : Bool} {s : State} (h : haltable s c = false) : haltCtx scan c s = tearDown c false s :=
  if_neg (by rw [h]; exact Bool.false_ne_true)

/-! ### Contexts are halted one after another (R318, R319) -/

theorem haltable_congr {s t : State} {c : Nat} (h : ctxAt t c = ctxAt s c) : haltable t c = haltable s c := by
  rw [haltable, haltable, ctxSt, ctxSt, h]

/-- The contexts `done` have been halted between s and t, where no write was on its way and no RUN was ending. -/
structure HaltsAll (done : List Nat) (s t : State) : Prop where
  writes  : t.net.writes = []
  ending  : ∀ d, (ctxAt t d).ending = false
  others  : ∀ d ∉ done, ctxAt t d = ctxAt s d
  runPend : ∀ d, (ctxAt s d).runPend = none → (ctxAt t d).runPend = none
  halted  : ∀ d ∈ done, haltable s d = true → (ctxAt t d).st = .faulted ∧ (ctxAt t d).runPend = none ∧
    ∃ l, (ctxAt t d).latched = some l ∧ l.code = .halted ∧ l.done = true
  kept    : ∀ d, haltable s d = false → (∀ l, (ctxAt s d).latched = some l → l.done = true) → ctxAt t d = ctxAt s d
  raised  : s.logs.raised <:+ t.logs.raised
  faults  : ∃ es, es.length ≤ done.length ∧ t.logs.faults.take 256 = (es ++ s.logs.faults).take 256
  loads   : ∀ h, ∀ l ∈ (hoopAt t h).loads, l ∈ (hoopAt s h).loads

theorem HaltsAll.start {s : State} (hwrites : s.net.writes = []) (hending : ∀ d, (ctxAt s d).ending = false) : HaltsAll [] s s :=
  ⟨hwrites, hending, fun _ _ => rfl, fun _ h => h, fun _ h => absurd h List.not_mem_nil, fun _ _ _ => rfl, List.suffix_rfl,
    ⟨[], Nat.le_refl _, rfl⟩, fun _ _ h => h⟩

section Step
variable {done : List Nat} {c : Nat} {s t u : State} (ht : HaltsAll done s t) (hc : c ∉ done)
include ht

theorem HaltsAll.alone (h0 : c ≠ 0) : Alone c t :=
  ⟨h0, fun w hw => absurd hw (by rw [ht.writes]; exact List.not_mem_nil), fun d _ => ht.ending d⟩

/-- A context that has nothing to halt. -/
theorem HaltsAll.skip (h : haltable s c = false) : HaltsAll (c :: done) s t := by
  obtain ⟨es, hes, hfaults⟩ := ht.faults
  refine { ht with
    others := fun d hd => ht.others d fun h => hd (List.mem_cons_of_mem _ h)
    halted := fun d hd hhalt => ht.halted d ((List.mem_cons.mp hd).resolve_left ?_) hhalt
    faults := ⟨es, Nat.le_succ_of_le hes, hfaults⟩ }
  rintro rfl
  rw [h] at hhalt
  exact absurd hhalt Bool.false_ne_true

include hc

/-- A context that is torn down. -/
theorem HaltsAll.tear {l : Latched} (h0 : c ≠ 0) (hu : TearsDown c l t u) (hcode : haltable s c = true → l.code = .halted)
    (hkept : haltable s c = false → ∃ l, (ctxAt s c).latched = some l ∧ l.done = false) : HaltsAll (c :: done) s u := by
  have ha := ht.alone h0
  refine ⟨hu.writes ht.writes, fun d => ?ending, fun d hd => ?others, fun d hd => ?runPend, fun d hd hhalt => ?halted,
    fun d hhalt hlast => ?kept, ht.raised.trans ?raised, ?faults, fun h x hx => ht.loads h x (hu.loads h x hx)⟩
  case ending =>
    by_cases hdc : d = c
    · rw [hdc, hu.ending]
    · rw [hu.others ha d hdc, ht.ending]
  case others =>
    obtain ⟨hdc, hd⟩ := not_or.mp (mt List.mem_cons.mpr hd)
    rw [hu.others ha d hdc, ht.others d hd]
  case runPend =>
    by_cases hdc : d = c
    · rw [hdc, hu.runPend]
    · rw [hu.others ha d hdc, ht.runPend d hd]
  case halted =>
    by_cases hdc : d = c
    · obtain ⟨n, hl⟩ := hu.latched
      subst hdc
      exact ⟨hu.st, hu.runPend, _, hl, hcode hhalt, rfl⟩
    · rw [hu.others ha d hdc]
      exact ht.halted d ((List.mem_cons.mp hd).resolve_left hdc) hhalt
  case kept =>
    have hdc : d ≠ c := by
      rintro rfl
      obtain ⟨l, hl, hdone⟩ := hkept hhalt
      rw [hlast l hl] at hdone
      exact absurd hdone.symm Bool.false_ne_true
    rw [hu.others ha d hdc, ht.kept d hhalt hlast]
  case raised =>
    obtain ⟨e, es, hraised, -⟩ := hu.event
    rw [hraised]
    exact List.suffix_append _ _
  case faults =>
    obtain ⟨e, he⟩ := hu.faults ha
    obtain ⟨es, hes, hfaults⟩ := ht.faults
    refine ⟨e :: es, Nat.succ_le_succ hes, ?_⟩
    calc u.logs.faults.take 256 = e :: (t.logs.faults.take 256).take 255 := by
          rw [he, List.take_take, List.take_take]
          rfl
      _ = (e :: es ++ s.logs.faults).take 256 := by
          rw [hfaults, List.take_take]
          rfl

theorem HaltsAll.halt (scan : Bool) (h0 : c ≠ 0) : HaltsAll (c :: done) s (haltCtx scan c t) := by
  have hctx := ht.others c hc
  cases hhalt : haltable s c with
  | true =>
    obtain ⟨l, hcode, hu⟩ := haltCtx_halts (scan := scan) ((haltable_congr hctx).trans hhalt)
    exact ht.tear hc h0 hu (fun _ => hcode) fun h => absurd (hhalt.symm.trans h) Bool.false_ne_true.symm
  | false =>
    rw [haltCtx_unhalted ((haltable_congr hctx).trans hhalt)]
    by_cases hlast : ∀ l, (ctxAt t c).latched = some l → l.done = true
    · rw [tearDown_idle hlast]
      exact ht.skip hhalt
    · simp only [not_forall] at hlast
      obtain ⟨l, hl, hdone⟩ := hlast
      have hdone := Bool.eq_false_of_not_eq_true hdone
      exact ht.tear hc h0 (tearDown_tears hl hdone) (fun h => absurd (hhalt.symm.trans h) Bool.false_ne_true)
        fun _ => ⟨l, hctx ▸ hl, hdone⟩

end Step

/-- Contexts are halted in the order of a list. -/
theorem haltEach_halts {scan : Bool} {cs done : List Nat} {s t : State} (ht : HaltsAll done s t) (hcs : cs.Nodup)
    (hnew : ∀ c ∈ cs, c ∉ done) (h0 : 0 ∉ cs) : HaltsAll (cs.reverse ++ done) s (each cs (haltCtx scan) t) := by
  induction cs generalizing done t with
  | nil => exact ht
  | cons c cs ih =>
    obtain ⟨hc, hcs⟩ := List.nodup_cons.mp hcs
    obtain ⟨hc0, h0⟩ := not_or.mp (mt List.mem_cons.mpr h0)
    rw [List.reverse_cons, List.append_assoc]
    refine ih (ht.halt (hnew c List.mem_cons_self) scan (Ne.symm hc0)) hcs (fun d hd => ?_) h0
    exact fun h => (List.mem_cons.mp h).elim (fun h => hc (h ▸ hd)) (hnew d (List.mem_cons_of_mem _ hd))

theorem softCtxs_halts {scan : Bool} {s : State} (hwrites : s.net.writes = []) (hending : ∀ d, (ctxAt s d).ending = false) :
    HaltsAll (softCtxs.reverse ++ []) s (each softCtxs (haltCtx scan) s) :=
  haltEach_halts (.start hwrites hending) (by decide) (fun _ _ => List.not_mem_nil) (by decide)

end Sys2Proof.Machine
end

section
/-! HALT_N falls (R319, R403): loads are abandoned, every pending RUN is dropped, and every context is halted. -/

namespace Sys2Proof.Machine

/-! ### Every load is abandoned -/

/-- Every load of every port is abandoned (R403). -/
def abortAll (s : State) : State := (List.range 8).foldl (fun s h => abortLoads h (fun _ => true) s) s

/-- The loads of a port that are all abandoned are gone. -/
theorem abortLoads_all (h : Nat) (s : State) : (hoopAt (abortLoads h (fun _ => true) s) h).loads = [] := by
  have hend : Stopping 0 [] (modHoop h (fun x => { x with loads := x.loads.filter fun _ => !true }) s) (abortLoads h (fun _ => true) s) :=
    (Stopping.refl 0 [] _).abortEnds h fun ha => absurd rfl ha.soft
  refine List.eq_nil_iff_forall_not_mem.mpr fun l hl => ?_
  have hl := hend.loads h l hl
  rw [hoopAt_modHoop_same] at hl
  exact absurd (List.mem_filter.mp hl).2 Bool.false_ne_true

theorem abortEach_loads {hs : List Nat} {h : Nat} (hh : h ∈ hs) (s : State) :
    (hoopAt (hs.foldl (fun s h => abortLoads h (fun _ => true) s) s) h).loads = [] := by
  induction hs generalizing s with
  | nil => exact absurd hh List.not_mem_nil
  | cons j hs ih =>
    rw [List.foldl_cons]
    obtain rfl | hh := List.mem_cons.mp hh
    · have hrest : Stopping 0 [] (abortLoads h (fun _ => true) s)
          (hs.foldl (fun s h => abortLoads h (fun _ => true) s) (abortLoads h (fun _ => true) s)) :=
        (Stopping.refl 0 [] _).foldl fun _ j _ hu => hu.abortLoads j fun ha => absurd rfl ha.soft
      refine List.eq_nil_iff_forall_not_mem.mpr fun l hl => ?_
      have hl := hrest.loads h l hl
      rw [abortLoads_all] at hl
      exact List.not_mem_nil hl
    · exact ih hh _

theorem abortAll_loads {h : Nat} (hh : h < 8) (s : State) : (hoopAt (abortAll s) h).loads = [] :=
  abortEach_loads (List.mem_range.mpr hh) s

/-- While no load of the loader service waits, what the loads' end does is what the stop of any one software context may do. -/
theorem stopping_abortAll (c : Nat) {s : State} (hown : ∀ h < 8, ∀ l ∈ (hoopAt s h).loads, ∀ k b, l.origin ≠ .loader k b) :
    Stopping c [] s (abortAll s) :=
  (Stopping.refl c [] s).foldl fun _ h hh hu =>
    hu.abortLoads h fun _ l hl _ k b ho => absurd ho (hown h (List.mem_range.mp hh) l (hu.loads h l hl) k b)

/-- Without loads nothing is abandoned. -/
theorem abortLoads_idle {h : Nat} {s : State} (hloads : (hoopAt s h).loads = []) :
    abortLoads h (fun _ => true) s = modHoop h (fun x => { x with loads := x.loads.filter fun _ => !true }) s := by
  rw [abortLoads_eq, loadsOf, hloads]
  rfl

theorem abortAll_idle {s : State} (hloads : ∀ h < 8, (hoopAt s h).loads = []) : ∃ m, abortAll s = { s with hoops := m } := by
  have hkept : (∃ m, abortAll s = { s with hoops := m }) ∧ ∀ h < 8, (hoopAt (abortAll s) h).loads = [] := by
    refine List.foldlRecOn (motive := fun t => (∃ m, t = { s with hoops := m }) ∧ ∀ h < 8, (hoopAt t h).loads = []) (List.range 8) _
      ⟨⟨s.hoops, rfl⟩, hloads⟩ fun t ht h hh => ?_
    obtain ⟨⟨m, rfl⟩, hnone⟩ := ht
    rw [abortLoads_idle (hnone h (List.mem_range.mp hh))]
    refine ⟨⟨_, rfl⟩, fun j hj => ?_⟩
    rw [hoopAt_modHoop]
    split
    · rw [hnone h (List.mem_range.mp hh)]
      rfl
    · exact hnone j hj
  exact hkept.1

/-! ### What the pin's fall does before contexts are halted -/

/-- The pending RUNs of contexts are dropped. -/
def dropPending (cs : List Nat) (s : State) : State := cs.foldl (fun s c => modCtx c (fun x => { x with runPend := none }) s) s

theorem ctxAt_dropPending (cs : List Nat) (s : State) (d : Nat) :
    ctxAt (dropPending cs s) d = if d ∈ cs then { ctxAt s d with runPend := none } else ctxAt s d := by
  induction cs generalizing s with
  | nil => rfl
  | cons c cs ih =>
    rw [dropPending, List.foldl_cons, ← dropPending, ih, ctxAt_modCtx]
    by_cases hdc : d = c
    · subst hdc
      simp
    · simp [hdc]

theorem dropPending_rest (cs : List Nat) (s : State) : ∃ m, dropPending cs s = { s with ctxs := m } := by
  induction cs generalizing s with
  | nil => exact ⟨s.ctxs, rfl⟩
  | cons c cs ih =>
    obtain ⟨m, hm⟩ := ih (modCtx c (fun x => { x with runPend := none }) s)
    exact ⟨m, hm⟩

/-- The payload of HALT_PIN: the contexts that are halted. -/
def pinPayload (s : State) : List Byte := toLE 2 (ctxMask (softCtxs.filter (haltable s)))

/-- What the pin's fall does in the state u that the loads' end leaves: the levels, the pending RUNs, HALT_PIN and its log entry. -/
def pulledFrom (bs : List Byte) (u : State) : State :=
  let v := raise 0x0009 0 bs (dropPending softCtxs (modPins (fun p => { p with haltN := false, alertN := false }) u))
  logEntry 4 0 0 0 0 v.logs.eseq v

theorem haltPulled_eq (s : State) : haltPulled s = pulledFrom (pinPayload s) (abortAll s) := by
  unfold haltPulled pulledFrom abortAll dropPending pinPayload
  rfl

section Pulled
variable (bs : List Byte) (u : State)

theorem pulledFrom_eq : ∃ m e, pulledFrom bs u = logEntry 4 0 0 0 0 e (raise 0x0009 0 bs
    { u with pins := { u.pins with haltN := false, alertN := false }, ctxs := m }) ∧
    ∀ d, Tab.get Ctx.reset m d = if d ∈ softCtxs then { ctxAt u d with runPend := none } else ctxAt u d := by
  unfold pulledFrom
  have hctx := ctxAt_dropPending softCtxs (modPins (fun p => { p with haltN := false, alertN := false }) u)
  obtain ⟨m, hm⟩ := dropPending_rest softCtxs (modPins (fun p => { p with haltN := false, alertN := false }) u)
  rw [hm] at hctx ⊢
  exact ⟨m, _, rfl, hctx⟩

theorem ctxAt_pulledFrom (d : Nat) : ctxAt (pulledFrom bs u) d =
    if d ∈ softCtxs then { ctxAt u d with runPend := none } else ctxAt u d := by
  obtain ⟨m, e, hpulled, hctx⟩ := pulledFrom_eq bs u
  rw [hpulled, ctxAt_logEntry, ctxAt_raise, ctxAt, hctx]

theorem hoopAt_pulledFrom (h : Nat) : hoopAt (pulledFrom bs u) h = hoopAt u h := by
  obtain ⟨m, e, hpulled, -⟩ := pulledFrom_eq bs u
  rw [hpulled, hoopAt_logEntry, hoopAt_raise]
  rfl

theorem pulledFrom_pins : (pulledFrom bs u).pins = { u.pins with haltN := false, alertN := false } := by
  obtain ⟨m, e, hpulled, -⟩ := pulledFrom_eq bs u
  rw [hpulled, logEntry_pins, raise_pins]

theorem pulledFrom_trust : (pulledFrom bs u).trust = u.trust := by
  obtain ⟨m, e, hpulled, -⟩ := pulledFrom_eq bs u
  rw [hpulled, logEntry_trust, raise_trust]

theorem pulledFrom_net : (pulledFrom bs u).net = u.net := by
  obtain ⟨m, e, hpulled, -⟩ := pulledFrom_eq bs u
  rw [hpulled, logEntry_net, raise_net]

theorem pulledFrom_mem : (pulledFrom bs u).mem = u.mem := by
  obtain ⟨m, e, hpulled, -⟩ := pulledFrom_eq bs u
  rw [hpulled, logEntry_mem, raise_mem]

theorem pulledFrom_tiles : (pulledFrom bs u).tiles = u.tiles := by
  obtain ⟨m, e, hpulled, -⟩ := pulledFrom_eq bs u
  rw [hpulled, logEntry_tiles, raise_tiles]

theorem pulledFrom_logs : ∃ e : LogEntry, e.kind = 4 ∧ (pulledFrom bs u).logs = { u.logs with
    eseq := u.logs.eseq + 1
    raised := ⟨u.logs.eseq + 1, 0x0009, 0, u.stitch.count, bs⟩ :: u.logs.raised
    lseq := u.logs.lseq + 1
    faults := (e :: u.logs.faults).take 256
    wrapped := u.logs.wrapped || decide (256 ≤ u.logs.faults.length) } := by
  obtain ⟨m, n, hpulled, -⟩ := pulledFrom_eq bs u
  rw [hpulled, logEntry]
  dsimp only
  rw [raise_logs]
  refine ⟨_, ?_, rfl⟩
  rfl

end Pulled

/-! ### HALT_N falls -/

/-- The state after HALT_N has fallen in s: u before the contexts are halted, v after. -/
def haltedState (s u v : State) : State := { v with pending := s.pending, pins := u.pins, trust := u.trust }

theorem exec_haltNFall {s : State} (hpin : s.pins.haltN = true) (hruns : ctlRuns s = true) : exec .haltNFall s =
    .next (haltedState s (haltPulled s) (each softCtxs (haltCtx false) (haltPulled s))) := by
  change execHaltNFall s = _
  unfold execHaltNFall
  rw [if_neg (by rw [hpin]; exact Bool.false_ne_true), if_neg (by rw [hruns]; exact Bool.false_ne_true)]
  generalize haltPulled s = u
  generalize each softCtxs (haltCtx false) u = v
  rfl

/-- A context whose pending RUN is dropped is haltable as before. -/
theorem haltable_same {s t : State} {c : Nat} (hst : (ctxAt t c).st = (ctxAt s c).st)
    (hlatched : (ctxAt t c).latched = (ctxAt s c).latched) :
    haltable t c = haltable s c := by
  have hsame : ctxSt t c = ctxSt s c := by simp only [ctxSt, hst, hlatched]
  rw [haltable, haltable, hsame]

/-- Contexts that have nothing to halt all stay. -/
theorem haltEach_idle {cs : List Nat} {s : State}
    (hidle : ∀ c ∈ cs, haltable s c = false ∧ ∀ l, (ctxAt s c).latched = some l → l.done = true)
    (scan : Bool) : each cs (haltCtx scan) s = s := by
  refine List.foldlRecOn (motive := fun t => t = s) cs _ rfl fun t ht c hc => ?_
  obtain ⟨hhalt, hlast⟩ := hidle c hc
  rw [ht, haltCtx_unhalted hhalt, tearDown_idle hlast]

/-- The fall of HALT_N where nothing runs. -/
theorem haltNFall_idle (s : State) (hpin : s.pins.haltN = true) (hruns : ctlRuns s = true)
    (hidle : ∀ c ∈ softCtxs, haltable s c = false ∧ ∀ l, (ctxAt s c).latched = some l → l.done = true)
    (hloads : ∀ h < 8, (hoopAt s h).loads = []) :
    ∃ t, exec .haltNFall s = .next t ∧ t.pins = { s.pins with haltN := false, alertN := false } ∧
      Raised 0x0009 0 [0, 0] s t ∧ t.logs.lseq = s.logs.lseq + 1 ∧
      (∀ c ∈ softCtxs, (ctxAt t c).runPend = none ∧ (ctxAt t c).st = (ctxAt s c).st) ∧
      t.mem = s.mem ∧ t.tiles = s.tiles ∧ t.trust = s.trust := by
  obtain ⟨m, hm⟩ := abortAll_idle hloads
  have hpayload : pinPayload s = [0, 0] := by
    rw [pinPayload, List.filter_eq_nil_iff.mpr fun c hc => by rw [(hidle c hc).1]; exact Bool.false_ne_true]
    decide
  have hpulled : haltPulled s = pulledFrom [0, 0] { s with hoops := m } := by rw [haltPulled_eq, hpayload, hm]
  have hctx : ∀ c ∈ softCtxs, ctxAt (haltPulled s) c = { ctxAt s c with runPend := none } := fun c hc => by
    rw [hpulled, ctxAt_pulledFrom, if_pos hc]
    rfl
  have hstays : each softCtxs (haltCtx false) (haltPulled s) = haltPulled s := haltEach_idle (fun c hc => by
    obtain ⟨hhalt, hlast⟩ := hidle c hc
    rw [haltable_same (t := haltPulled s) (s := s) (by rw [hctx c hc]) (by rw [hctx c hc]), hctx c hc]
    exact ⟨hhalt, hlast⟩) false
  obtain ⟨e, -, hlogs⟩ := pulledFrom_logs [0, 0] { s with hoops := m }
  have hpins := pulledFrom_pins [0, 0] { s with hoops := m }
  have htrust := pulledFrom_trust [0, 0] { s with hoops := m }
  have hmem := pulledFrom_mem [0, 0] { s with hoops := m }
  have htiles := pulledFrom_tiles [0, 0] { s with hoops := m }
  have hst : ∀ c ∈ softCtxs, (ctxAt (haltPulled s) c).st = (ctxAt s c).st := fun c hc => by rw [hctx c hc]
  refine ⟨_, exec_haltNFall hpin hruns, ?_⟩
  rw [hstays]
  rw [← hpulled] at hlogs hpins htrust hmem htiles
  generalize haltPulled s = u at *
  exact ⟨hpins, ⟨congrArg Logs.eseq hlogs, congrArg Logs.raised hlogs⟩, congrArg Logs.lseq hlogs,
    fun c hc => ⟨congrArg Ctx.runPend (hctx c hc), hst c hc⟩, hmem, htiles, htrust⟩

/-- The pin's entry stays in the log, which holds 256, while fewer than that follow it. -/
theorem kept_in_log {e : LogEntry} {es fs gs : List LogEntry} (hlen : es.length ≤ 255)
    (h : gs.take 256 = (es ++ (e :: fs).take 256).take 256) : e ∈ gs := by
  refine List.mem_of_mem_take (i := 256) ?_
  rw [h, List.mem_take_iff_getElem]
  refine ⟨es.length, by simp; omega, ?_⟩
  rw [List.getElem_append_right (Nat.le_refl _)]
  simp

/-- What the pin's fall leaves where no write is on its way, no RUN is ending and no load of the loader service waits. -/
theorem pulled_of_quiet {s : State} (hwrites : s.net.writes = []) (hending : ∀ c, (ctxAt s c).ending = false)
    (hown : ∀ h < 8, ∀ l ∈ (hoopAt s h).loads, ∀ k b, l.origin ≠ .loader k b) :
    (haltPulled s).net.writes = [] ∧ (∀ d, (ctxAt (haltPulled s) d).ending = false) ∧
      ∀ c ∈ softCtxs, ctxAt (haltPulled s) c = { ctxAt s c with runPend := none } := by
  have alone : ∀ c, c ≠ 0 → Alone c s := fun c hc =>
    ⟨hc, fun w hw => absurd hw (by rw [hwrites]; exact List.not_mem_nil), fun d _ => hending d⟩
  have hctx : ∀ d, ctxAt (abortAll s) d = ctxAt s d := fun d =>
    (stopping_abortAll (d + 1) hown).others (alone _ (Nat.succ_ne_zero d)) d (Nat.ne_of_lt (Nat.lt_succ_self d))
  rw [haltPulled_eq]
  refine ⟨?_, fun d => ?_, fun c hc => ?_⟩
  · rw [pulledFrom_net]
    refine List.eq_nil_iff_forall_not_mem.mpr fun w hw => ?_
    obtain ⟨k, hk, -⟩ | ⟨v, hv, -⟩ := (stopping_abortAll 1 hown).sites w hw
    · exact List.not_mem_nil hk
    · rw [hwrites] at hv
      exact List.not_mem_nil hv
  · rw [ctxAt_pulledFrom, hctx]
    split
    · exact hending d
    · exact hending d
  · rw [ctxAt_pulledFrom, if_pos hc, hctx]

/-- The fall of HALT_N where no write is on its way, no RUN is ending and no load of the loader service waits. -/
theorem haltNFall_halts (s : State) (hpin : s.pins.haltN = true) (hruns : ctlRuns s = true) (hwrites : s.net.writes = [])
    (hending : ∀ c, (ctxAt s c).ending = false) (hown : ∀ h < 8, ∀ l ∈ (hoopAt s h).loads, ∀ k b, l.origin ≠ .loader k b) :
    ∃ t, exec .haltNFall s = .next t ∧ t.pins = { s.pins with haltN := false, alertN := false } ∧ t.trust = s.trust ∧
      (∀ h < 8, (hoopAt t h).loads = []) ∧
      (∃ e ∈ t.logs.raised, e.code = 0x0009 ∧ e.payload = toLE 2 (ctxMask (softCtxs.filter (haltable s)))) ∧
      (∃ e ∈ t.logs.faults, e.kind = 4) ∧
      ∀ c ∈ softCtxs, (ctxAt t c).runPend = none ∧
        (haltable s c = true → (ctxAt t c).st = .faulted ∧
          ∃ l, (ctxAt t c).latched = some l ∧ l.code = .halted ∧ l.done = true) ∧
        (haltable s c = false → (∀ l, (ctxAt s c).latched = some l → l.done = true) →
          (ctxAt t c).st = (ctxAt s c).st ∧ (ctxAt t c).latched = (ctxAt s c).latched) := by
  obtain ⟨hwrites', hending', hctx⟩ := pulled_of_quiet hwrites hending hown
  have habort := stopping_abortAll 0 hown
  have hall := softCtxs_halts (scan := false) hwrites' hending'
  have hdone : ∀ c ∈ softCtxs, c ∈ softCtxs.reverse ++ [] := by decide
  have hcount : (softCtxs.reverse ++ []).length = 15 := rfl
  have hpins : (haltPulled s).pins = { s.pins with haltN := false, alertN := false } := by
    rw [haltPulled_eq, pulledFrom_pins, habort.pins]
  have htrust : (haltPulled s).trust = s.trust := by rw [haltPulled_eq, pulledFrom_trust, habort.trust]
  have hloads : ∀ h < 8, (hoopAt (haltPulled s) h).loads = [] := fun h hh => by
    rw [haltPulled_eq, hoopAt_pulledFrom, abortAll_loads hh]
  obtain ⟨e, hkind, hlogs⟩ := pulledFrom_logs (pinPayload s) (abortAll s)
  rw [← haltPulled_eq] at hlogs
  have hevent : ⟨(abortAll s).logs.eseq + 1, 0x0009, 0, (abortAll s).stitch.count, pinPayload s⟩ ∈ (haltPulled s).logs.raised := by
    rw [hlogs]
    exact List.mem_cons_self
  have hsame : ∀ c ∈ softCtxs, haltable (haltPulled s) c = haltable s c := fun c hc =>
    haltable_same (by rw [hctx c hc]) (by rw [hctx c hc])
  refine ⟨_, exec_haltNFall hpin hruns, ?_⟩
  generalize each softCtxs (haltCtx false) (haltPulled s) = v at hall
  generalize haltPulled s = u at *
  refine ⟨hpins, htrust, fun h hh => ?loads, ⟨_, hall.raised.subset hevent, rfl, rfl⟩, ⟨e, ?entry, hkind⟩, fun c hc =>
    ⟨hall.runPend c (congrArg Ctx.runPend (hctx c hc)), fun hhalt => ?halted, fun hhalt hlast => ?kept⟩⟩
  case loads =>
    refine List.eq_nil_iff_forall_not_mem.mpr fun l hl => ?_
    have hl := hall.loads h l hl
    rw [hloads h hh] at hl
    exact List.not_mem_nil hl
  case entry =>
    obtain ⟨es, hlen, hfaults⟩ := hall.faults
    rw [hlogs] at hfaults
    exact kept_in_log (by omega) hfaults
  case halted =>
    obtain ⟨hst, -, hl⟩ := hall.halted c (hdone c hc) ((hsame c hc).trans hhalt)
    exact ⟨hst, hl⟩
  case kept =>
    have hkept := hall.kept c ((hsame c hc).trans hhalt) (by rw [hctx c hc]; exact hlast)
    rw [hctx c hc] at hkept
    have hst := congrArg Ctx.st hkept
    have hlatched := congrArg Ctx.latched hkept
    exact ⟨hst, hlatched⟩

/-- Settles O14: the pin's fall abandons the loads, drops the pending RUNs, logs HALT_PIN and halts context by context; the other
pins act on themselves. -/
theorem haltPinHaltsEveryContext : Obligations.HaltPinHaltsEveryContext := by
  unfold Obligations.HaltPinHaltsEveryContext
  refine ⟨haltNFall_idle, haltNFall_halts, fun s hpin hruns => ?_, fun _ => rfl, fun s hpin => ?_, fun s hpin => ?_⟩
  · change execHaltNFall s = _
    rw [execHaltNFall, if_neg (by rw [hpin]; exact Bool.false_ne_true), if_pos (by rw [hruns]; rfl)]
    rfl
  · change execAlertRelease s = _
    rw [execAlertRelease, if_pos hpin]
    rfl
  · change execAlertRelease s = _
    rw [execAlertRelease, if_neg (by rw [hpin]; exact Bool.false_ne_true)]

end Sys2Proof.Machine
end

section
/-! What a command that ends leaves of the state in which it has run. -/

namespace Sys2Proof.Machine

/-- The state after a command of s that ended in u, where t is what its completion left of the ring and the journal. -/
def endedIn (s u t : State) : State :=
  { u with
    pending := s.pending, trust := s.trust, pins := s.pins
    logs := { u.logs with journal := t.logs.journal }, host := t.host, ports := t.ports }

section Ended
variable (s u t : State)

@[simp] theorem ctxAt_endedIn (c : Nat) : ctxAt (endedIn s u t) c = ctxAt u c := rfl
@[simp] theorem hoopAt_endedIn (h : Nat) : hoopAt (endedIn s u t) h = hoopAt u h := rfl
@[simp] theorem tileAt_endedIn (k : Nat) : tileAt (endedIn s u t) k = tileAt u k := rfl
@[simp] theorem endedIn_raised : (endedIn s u t).logs.raised = u.logs.raised := rfl

end Ended

/-- A completion to a ring writes host memory and the port, and the journal's entry. -/
theorem post_journalFinal (s u : State) (p r seq result : Nat) (st : Status) (id : BitVec 16) (tag : BitVec 32)
    (n : Option (BitVec 16)) :
    ∃ t, ctlPart s (post (.ring p r) st id tag seq result (journalFinal seq st result n u)) = endedIn s u t := by
  refine ⟨post (.ring p r) st id tag seq result (journalFinal seq st result n u), ?_⟩
  have hpost := post_ring_eq p r st id tag seq result (journalFinal seq st result n u)
  generalize post (.ring p r) st id tag seq result (journalFinal seq st result n u) = v at hpost ⊢
  obtain ⟨hosts, ports, rfl⟩ : ∃ hosts ports, v = { journalFinal seq st result n u with host := hosts, ports := ports } := ⟨_, _, hpost⟩
  rfl

/-- An untagged command that ends, in the state in which it has run. -/
theorem untagged_ends {h : Hdr} {c : HostCmd} {s u : State} {op r : Nat} {st : Status} (hop : c.opcode = op) (hr : Untagged c.gen h s)
    (href : c.refused s = false) (hb : c.badArgs (cmdEnv h s) s = false) (hrun : c.run (cmdEnv h s) (taken h op s) = .done st r u) :
    ∃ t, hostCommand h c s = .next (endedIn s u t) := by
  subst hop
  rw [hostCommand_runs hr.spelled hr.ready hr.slot hr.alone (preCheck_untagged hr href hb)]
  have hrun' : c.run (cmdEnv h s) (journalPut ⟨(cmdEnv h s).seq, (cmdEnv h s).session, c.opcode, (cmdEnv h s).txnId, .accepted,
    false, false, (cmdEnv h s).tag, s.stitch.count, 0⟩ s) = .done st r u := hrun
  simp only [runCmd, hrun', ctl_next]
  obtain ⟨t, ht⟩ := post_journalFinal s u h.port.val h.ring.val (cmdEnv h s).seq r st h.txnId h.tag
    (if (decide (c.opcode = 0x48) && decide (st = .ok)) = true then some (BitVec.ofNat 16 r) else none)
  exact ⟨t, congrArg Host.Outcome.next ht⟩

/-- Of what HALT and resets read, a command that is taken has changed nothing. -/
theorem taken_raised (h : Hdr) (op : Nat) (s : State) : (taken h op s).logs.raised = s.logs.raised := rfl

end Sys2Proof.Machine
end

section
/-! HALT and CONTEXT_TEARDOWN (R318, R325). -/

namespace Sys2Proof.Machine

theorem badCtx_toNat_ne {ctx : BitVec 8} (h : badCtx ctx = false) : ctx.toNat ≠ 0 ∧ ctx ≠ 0xFF := by
  obtain ⟨h0, h15⟩ := Bool.or_eq_false_iff.mp h
  have hne := of_decide_eq_false h0
  have hle := of_decide_eq_false h15
  refine ⟨fun hz => hne (BitVec.eq_of_toNat_eq hz), ?_⟩
  rintro rfl
  exact hle (by decide)

/-- The contexts that a HALT of one context names. -/
theorem haltTargets_one {ctx : BitVec 8} (h : badCtx ctx = false) : haltTargets ctx = [ctx.toNat] := if_neg (badCtx_toNat_ne h).2

/-- A HALT whose scan fits halts its contexts one after another. -/
theorem cmdHalt_run {h : Hdr} {ctx hflags : BitVec 8} {s : State} (e : Env) (hflag : hflags.toNat ≤ 1)
    (hscan : hflags = 1 → scanFits (landAll (((haltTargets ctx).filter (haltable s)).flatMap (regionsOf s)) (taken h 0x29 s))
      (((haltTargets ctx).filter (haltable s)).flatMap (regionsOf s)) = true) :
    (cmdHalt ctx hflags).run e (taken h 0x29 s) = .done .ok 0
      (each (haltTargets ctx) (haltCtx (hflags.getLsbD 0)) (taken h 0x29 s)) := by
  refine if_neg ?_
  change ¬ (hflags.getLsbD 0 && !scanFits (landAll (((haltTargets ctx).filter (haltable s)).flatMap (regionsOf s)) (taken h 0x29 s))
      (((haltTargets ctx).filter (haltable s)).flatMap (regionsOf s))) = true
  obtain rfl | rfl : hflags = 0 ∨ hflags = 1 := by bv_omega
  · exact Bool.false_ne_true
  · rw [hscan rfl]
    decide

theorem TornDown.endedIn {c : Nat} {code : FaultCode} {s s' u : State} (h : TornDown c code s' u)
    (hraised : s'.logs.raised = s.logs.raised)
    (t : State) : TornDown c code s (endedIn s u t) := by
  obtain ⟨hst, hrun, l, hl, hcode, hdone, e, es, hes, hevent⟩ := h
  exact ⟨hst, hrun, l, hl, hcode, hdone, e, es, by rw [endedIn_raised, hes, hraised], hevent⟩

/-- The checks before HALT. -/
theorem cmdHalt_args {ctx hflags : BitVec 8} (e : Env) (s : State) (hctx : badCtx ctx = false ∨ ctx = 0xFF) (hflag : hflags.toNat ≤ 1) :
    (cmdHalt ctx hflags).badArgs e s = false := by
  change ((badCtx ctx && decide (ctx ≠ 0xFF)) || decide (1 < hflags.toNat)) = false
  rw [Bool.or_eq_false_iff]
  refine ⟨?_, decide_eq_false (Nat.not_lt.mpr hflag)⟩
  obtain h | h := hctx
  · rw [h, Bool.false_and]
  · subst h
    decide

/-- HALT of one context. -/
theorem halt_one (h : Hdr) (ctx hflags : BitVec 8) (s : State) (hr : Untagged 1 h s) (hctx : badCtx ctx = false)
    (hflag : hflags.toNat ≤ 1)
    (hhalt : haltable s ctx.toNat = true)
    (hscan : hflags = 1 → scanFits (landAll (regionsOf s ctx.toNat) (taken h 0x29 s)) (regionsOf s ctx.toNat) = true) :
    ∃ t, exec (.halt h ctx hflags) s = .next t ∧ TornDown ctx.toNat .halted s t ∧
      ((∀ w ∈ s.net.writes, w.ctx = ctx.toNat) → (∀ d, d ≠ ctx.toNat → (ctxAt s d).ending = false) →
        ∀ d, d ≠ ctx.toNat → ctxAt t d = ctxAt s d) := by
  have htargets := haltTargets_one hctx
  have hregions : ((haltTargets ctx).filter (haltable s)).flatMap (regionsOf s) = regionsOf s ctx.toNat := by
    rw [htargets, List.filter_cons_of_pos hhalt, List.filter_nil, List.flatMap_singleton]
  have hrun := cmdHalt_run (h := h) (ctx := ctx) (s := s) (cmdEnv h s) hflag (by rw [hregions]; exact hscan)
  rw [htargets] at hrun
  obtain ⟨l, hcode, htear⟩ := haltCtx_halts (scan := hflags.getLsbD 0) (s := taken h 0x29 s) (c := ctx.toNat) hhalt
  obtain ⟨t, ht⟩ := untagged_ends (c := cmdHalt ctx hflags) rfl hr rfl (cmdHalt_args _ _ (.inl hctx) hflag) hrun
  refine ⟨_, ht, TornDown.endedIn ?_ (taken_raised h 0x29 s) t, fun hwrites hending d hd => ?_⟩
  · exact hcode ▸ htear.torn
  · exact htear.others ⟨(badCtx_toNat_ne hctx).1, hwrites, hending⟩ d hd

/-- HALT of every context. -/
theorem halt_all (h : Hdr) (hflags : BitVec 8) (s : State) (hr : Untagged 1 h s) (hflag : hflags.toNat ≤ 1)
    (hwrites : s.net.writes = [])
    (hending : ∀ c, (ctxAt s c).ending = false)
    (hscan : hflags = 1 → scanFits (landAll ((softCtxs.filter (haltable s)).flatMap (regionsOf s)) (taken h 0x29 s))
      ((softCtxs.filter (haltable s)).flatMap (regionsOf s)) = true) :
    ∃ t, exec (.halt h 0xFF hflags) s = .next t ∧ ∀ c ∈ softCtxs, haltable s c = true → (ctxAt t c).st = .faulted ∧
      (ctxAt t c).runPend = none ∧ ∃ l, (ctxAt t c).latched = some l ∧ l.code = .halted ∧ l.done = true := by
  have hrun := cmdHalt_run (h := h) (ctx := 0xFF) (s := s) (cmdEnv h s) hflag hscan
  rw [show haltTargets 0xFF = softCtxs from if_pos rfl] at hrun
  have hall := softCtxs_halts (s := taken h 0x29 s) (scan := hflags.getLsbD 0) hwrites hending
  obtain ⟨t, ht⟩ := untagged_ends (c := cmdHalt 0xFF hflags) rfl hr rfl (cmdHalt_args _ _ (.inr rfl) hflag) hrun
  have hdone : ∀ c ∈ softCtxs, c ∈ softCtxs.reverse ++ [] := by decide
  refine ⟨_, ht, fun c hc hhalt => ?_⟩
  rw [ctxAt_endedIn]
  exact hall.halted c (hdone c hc) hhalt

/-- HALT where nothing runs. -/
theorem halt_idle (h : Hdr) (ctx hflags : BitVec 8) (s : State) (hr : Untagged 1 h s) (hctx : badCtx ctx = false ∨ ctx = 0xFF)
    (hflag : hflags.toNat ≤ 1)
    (hidle : ∀ c ∈ haltTargets ctx, haltable s c = false ∧ ∀ l, (ctxAt s c).latched = some l → l.done = true) :
    Ends (exec (.halt h ctx hflags) s) h 0x29 .ok 0 s fun t =>
      t.ctxs = s.ctxs ∧ t.tiles = s.tiles ∧ t.hoops = s.hoops ∧ t.mem = s.mem ∧ t.chans = s.chans := by
  have hnone : (haltTargets ctx).filter (haltable s) = [] :=
    List.filter_eq_nil_iff.mpr fun c hc => by rw [(hidle c hc).1]; exact Bool.false_ne_true
  have hrun := cmdHalt_run (h := h) (ctx := ctx) (s := s) (cmdEnv h s) hflag fun _ => by
    rw [hnone]
    rfl
  have hstays : each (haltTargets ctx) (haltCtx (hflags.getLsbD 0)) (taken h 0x29 s) = taken h 0x29 s :=
    haltEach_idle (s := taken h 0x29 s) hidle _
  rw [hstays] at hrun
  obtain ⟨t, hnext, hans, ht⟩ := untagged_ok (c := cmdHalt ctx hflags) hr rfl (cmdHalt_args _ _ hctx hflag) hrun rfl rfl rfl
  refine ⟨t, hnext, hans, ?_⟩
  rw [ht]
  exact ⟨rfl, rfl, rfl, rfl, rfl⟩

/-- CONTEXT_TEARDOWN of a fault that is latched. -/
theorem contextTeardown_tears (ctx : Fin 16) (l : Latched) (s : State) (h0 : ctx.val ≠ 0) (hl : (ctxAt s ctx.val).latched = some l)
    (hdone : l.done = false) : ∃ t, exec (.contextTeardown ctx) s = .next t ∧ TornDown ctx.val l.code s t := by
  have htorn := (tearDown_tears (scan := false) hl hdone).torn
  refine ⟨ctlPart s (tearDown ctx.val false s), ?_, ?_⟩
  · change ctl (if ctx.val = 0 then s else tearDown ctx.val false s) s = _
    rw [if_neg h0]
    rfl
  · generalize tearDown ctx.val false s = u at htorn
    exact htorn

end Sys2Proof.Machine
end

section
/-! RUN, EVICT_CONTEXT and SCAN_IN (R317, R320, R323). -/

namespace Sys2Proof.Machine

/-- A change of one context is the change of it that a lookup shows. -/
theorem ctxAt_of_modCtx {c : Nat} {f : Ctx → Ctx} {s t : State} (ht : t.ctxs = (modCtx c f s).ctxs) :
    ctxAt t c = f (ctxAt s c) ∧ ∀ d, d ≠ c → ctxAt t d = ctxAt s d := by
  have hctx : ∀ d, ctxAt t d = ctxAt (modCtx c f s) d := fun d => congrArg (fun m => Tab.get Ctx.reset m d) ht
  refine ⟨?_, fun d hd => ?_⟩
  · rw [hctx, ctxAt_modCtx, if_pos rfl]
  · rw [hctx, ctxAt_modCtx_other _ _ hd]

theorem or_decide {p q : Prop} [Decidable p] [Decidable q] (h : p ∨ q) : (decide p || decide q) = true :=
  (Bool.or_eq_true _ _).mpr (h.imp decide_eq_true decide_eq_true)

/-- RUN of an IDLE or ACTIVE context. -/
theorem run_acts (h : Hdr) (ctx : BitVec 8) (stitches : BitVec 32) (first : BitVec 64) (s : State) (hr : Untagged 2 h s)
    (hctx : badCtx ctx = false) (hqualified : s.dev.unqualified = false ∨ s.dev.options.getLsbD 0 = true)
    (hfirst : first ≠ 0 → s.stitch.count.toNat < first.toNat) (hst : ctxSt s ctx.toNat = .idle ∨ ctxSt s ctx.toNat = .active)
    (hpin : s.pins.haltN = true) :
    Ends (exec (.run h ctx stitches first) s) h 0x28 .ok 0 s fun t =>
      ctxAt t ctx.toNat = { ctxAt s ctx.toNat with
        runPend := if ctxSt s ctx.toNat = .idle ∧ stitches = 0 then none else some (stitches, first, false) } ∧
      ∀ c, c ≠ ctx.toNat → ctxAt t c = ctxAt s c := by
  have href : (cmdRun ctx stitches first).refused s = false := by
    change (s.dev.unqualified && !s.dev.options.getLsbD 0) = false
    obtain hq | hq := hqualified
    · rw [hq, Bool.false_and]
    · rw [hq, Bool.not_true, Bool.and_false]
  have hargs : (cmdRun ctx stitches first).badArgs (cmdEnv h s) s = false := by
    change (badCtx ctx || (first ≠ 0 && decide (first.toNat ≤ s.stitch.count.toNat))) = false
    rw [hctx, Bool.false_or, Bool.and_eq_false_imp]
    exact fun h0 => decide_eq_false (Nat.not_le.mpr (hfirst (of_decide_eq_true h0)))
  have hrun : (cmdRun ctx stitches first).run (cmdEnv h s) (taken h 0x28 s) =
      .done .ok 0 (runPending ctx.toNat stitches first false (taken h 0x28 s)) := by
    have hplain : (cmdEnv h s).txn.isSome = false := by simp [cmdEnv, hr.plain]
    have hready : ((ctxSt (taken h 0x28 s) ctx.toNat = .idle || ctxSt (taken h 0x28 s) ctx.toNat = .active) &&
        (taken h 0x28 s).pins.haltN) = true := by
      rw [ctxSt_same (samePlaces_taken h 0x28 s), or_decide hst]
      exact hpin
    change (if (cmdEnv h s).txn.isSome then _ else if _ then _ else _) = _
    rw [if_neg (by rw [hplain]; exact Bool.false_ne_true), if_pos hready]
  obtain ⟨t, hnext, hans, ht⟩ := untagged_ok (c := cmdRun ctx stitches first) hr href hargs hrun rfl rfl rfl
  have hctxs : t.ctxs = (modCtx ctx.toNat (fun x => { x with
      runPend := if decide (ctxSt s ctx.toNat = .idle) && stitches = 0 then none else some (stitches, first, false) }) s).ctxs := by
    rw [ht]
    rfl
  obtain ⟨hone, hothers⟩ := ctxAt_of_modCtx hctxs
  refine ⟨t, hnext, hans, hone.trans ?_, hothers⟩
  simp

/-- EVICT_CONTEXT of an IDLE or ACTIVE context without a sweep. -/
theorem evictContext_acts (h : Hdr) (ctx : BitVec 8) (s : State) (hr : Untagged 2 h s) (hctx : badCtx ctx = false)
    (hst : ctxSt s ctx.toNat = .idle ∨ ctxSt s ctx.toNat = .active) (hsweep : (sweepAt s ctx.toNat).st = .none) :
    Defers (exec (.evictContext h ctx) s) h 0x2A (.evict ctx.toNat) s fun t =>
      ctxAt t ctx.toNat = { ctxAt s ctx.toNat with st := .evicting, runPend := none } ∧
      ∀ c, c ≠ ctx.toNat → ctxAt t c = ctxAt s c := by
  have hrun : (cmdEvictContext ctx).run (cmdEnv h s) (taken h 0x2A s) = .later (.evict ctx.toNat)
      (modCtx ctx.toNat (fun x => { x with st := .evicting, runPend := none }) (taken h 0x2A s)) := by
    refine if_pos ?_
    rw [ctxSt_same (samePlaces_taken h 0x2A s), or_decide hst]
    exact decide_eq_true hsweep
  obtain ⟨t, hnext, hwaits, ht⟩ := untagged_later (c := cmdEvictContext ctx) hr rfl hctx hrun rfl rfl rfl rfl
  have hctxs : t.ctxs = (modCtx ctx.toNat (fun x => { x with st := .evicting, runPend := none }) s).ctxs := by
    rw [ht]
    rfl
  exact ⟨t, hnext, hwaits, ctxAt_of_modCtx hctxs⟩

/-- SCAN_IN of an IDLE or EVICTED context. -/
theorem scanIn_acts (h : Hdr) (ctx : BitVec 8) (s : State) (hr : Untagged 2 h s) (hctx : badCtx ctx = false)
    (hst : ctxSt s ctx.toNat = .idle ∨ ctxSt s ctx.toNat = .evicted) :
    Ends (exec (.scanIn h ctx) s) h 0x2C .ok 0 s fun t =>
      (ctxAt t ctx.toNat).st = .idle ∧
      (ctxAt t ctx.toNat).images = ((ctxAt s ctx.toNat).images.map fun (h, c0, c1, m, armed, post) => (h, c0, c1, m, armed || !post, post)) ∧
      ∀ c, c ≠ ctx.toNat → ctxAt t c = ctxAt s c := by
  have hrun : (cmdScanIn ctx).run (cmdEnv h s) (taken h 0x2C s) = .done .ok 0 (modCtx ctx.toNat (fun x => { x with
      st := .idle, images := x.images.map fun (h, c0, c1, m, armed, post) => (h, c0, c1, m, armed || !post, post) })
      (taken h 0x2C s)) := by
    refine if_pos ?_
    rw [ctxSt_same (samePlaces_taken h 0x2C s), or_decide hst]
  obtain ⟨t, hnext, hans, ht⟩ := untagged_ok (c := cmdScanIn ctx) hr rfl hctx hrun rfl rfl rfl
  have hctxs : t.ctxs = (modCtx ctx.toNat (fun x => { x with
      st := .idle, images := x.images.map fun (h, c0, c1, m, armed, post) => (h, c0, c1, m, armed || !post, post) }) s).ctxs := by
    rw [ht]
    rfl
  obtain ⟨hone, hothers⟩ := ctxAt_of_modCtx hctxs
  exact ⟨t, hnext, hans, congrArg Ctx.st hone, congrArg Ctx.images hone, hothers⟩

end Sys2Proof.Machine
end

section
/-! CTX_CREATE at its boundary (R297, R434). -/

namespace Sys2Proof.Machine

/-! ### Relocation and sync registers -/

/-- A relocation or sync register of a context is set. -/
def regSet (i j : Nat) (v : BitVec 64) (x : Ctx) : Ctx :=
  if i = 0x10 then { x with relocWs := Tab.set 0 x.relocWs j (BitVec.ofNat 32 v.toNat) }
  else if i = 0x11 then { x with relocAs := Tab.set 0 x.relocAs j (BitVec.ofNat 32 v.toNat) }
  else if i = 0x12 then { x with relocPs := Tab.set 0 x.relocPs j (BitVec.ofNat 32 v.toNat) }
  else if i = 0x13 then { x with relocHbm := v }
  else if i = 0x14 then { x with syncAs := Tab.set 0 x.syncAs j (BitVec.ofNat 32 v.toNat) }
  else { x with syncHbm := v }

/-- What of a context its registers leave: what CTX_CREATE sets beside them, and the state of its RUNs. -/
def ctxBase (x : Ctx) : CtxState × BitVec 64 × BitVec 6 × List Nat × Option (BitVec 32 × BitVec 64 × Bool) × Bool :=
  (x.st, x.srSeed, x.trap, x.tables, x.runPend, x.ending)

theorem ctxBase_regSet (i j : Nat) (v : BitVec 64) (x : Ctx) : ctxBase (regSet i j v x) = ctxBase x := by
  unfold regSet
  split_ifs <;> rfl

theorem regSet_relocHbm {i : Nat} (h : i ≠ 0x13) (j : Nat) (v : BitVec 64) (x : Ctx) : (regSet i j v x).relocHbm = x.relocHbm := by
  unfold regSet
  split_ifs <;> rfl

theorem setItem_reg {i : Nat} (h10 : 0x10 ≤ i) (h15 : i ≤ 0x15) (n : Nat) (v : BitVec 64) (s : State) : setItem i n v s =
    match itemLoc i n with
    | none => s
    | some (c, j) => modCtx c (regSet i j v) s := by
  unfold setItem
  cases itemLoc i n with
  | none => rfl
  | some p => interval_cases i <;> rfl

/-- The context and the change of it that a staged change of a register makes. -/
def stagedReg : Staged → Option (Nat × (Ctx → Ctx))
  | .item i n v => if 0x10 ≤ i ∧ i ≤ 0x15 then (itemLoc i n).map fun p => (p.1, regSet i p.2 v) else none
  | _ => none

theorem regsWith_cons (x : Staged) (xs : List Staged) (s : State) : regsWith (x :: xs) s = match stagedReg x with
    | none => regsWith xs s
    | some (c, f) => regsWith xs (modCtx c f s) := by
  cases x with
  | item i n v =>
    by_cases h : 0x10 ≤ i ∧ i ≤ 0x15
    · have hhead : regsWith (.item i n v :: xs) s = regsWith xs (setItem i n v s) := by
        rw [regsWith, List.foldl_cons]
        dsimp only
        rw [if_pos (by simp [h.1, h.2])]
        rfl
      rw [hhead, setItem_reg h.1 h.2, stagedReg, if_pos h]
      cases itemLoc i n <;> rfl
    · have hhead : regsWith (.item i n v :: xs) s = regsWith xs s := by
        rw [regsWith, List.foldl_cons]
        dsimp only
        rw [if_neg (by simpa using h)]
        rfl
      rw [hhead, stagedReg, if_neg h]
  | _ => rfl

theorem stagedReg_base {x : Staged} {c : Nat} {f : Ctx → Ctx} (h : stagedReg x = some (c, f)) (y : Ctx) :
    ctxBase (f y) = ctxBase y := by
  cases x with
  | item i n v =>
    simp only [stagedReg] at h
    split_ifs at h
    obtain ⟨p, -, hp⟩ := Option.map_eq_some_iff.mp h
    obtain ⟨-, rfl⟩ := Prod.mk.inj hp
    exact ctxBase_regSet _ _ _ _
  | _ => exact nomatch h

/-- Registers are set in contexts alone. -/
theorem regsWith_rest (xs : List Staged) (s : State) : ∃ m, regsWith xs s = { s with ctxs := m } := by
  induction xs generalizing s with
  | nil => exact ⟨s.ctxs, rfl⟩
  | cons x xs ih =>
    rw [regsWith_cons]
    split
    · exact ih s
    · next c f _ =>
      obtain ⟨m, hm⟩ := ih (modCtx c f s)
      exact ⟨m, hm⟩

theorem ctxBase_regsWith (xs : List Staged) (s : State) (c : Nat) : ctxBase (ctxAt (regsWith xs s) c) = ctxBase (ctxAt s c) := by
  induction xs generalizing s with
  | nil => rfl
  | cons x xs ih =>
    rw [regsWith_cons]
    split
    · exact ih s
    · next d f hreg =>
      rw [ih, ctxAt_modCtx]
      split
      · next hcd => rw [hcd, stagedReg_base hreg]
      · rfl

/-- A context's HBM range stays where none is set. -/
theorem relocHbm_regsWith {xs : List Staged} (hxs : ∀ x ∈ xs, ∀ n v, x ≠ .item 0x13 n v) (s : State) (c : Nat) :
    (ctxAt (regsWith xs s) c).relocHbm = (ctxAt s c).relocHbm := by
  induction xs generalizing s with
  | nil => rfl
  | cons x xs ih =>
    have ih := ih fun y hy => hxs y (List.mem_cons_of_mem _ hy)
    rw [regsWith_cons]
    split
    · exact ih s
    · next d f hreg =>
      rw [ih, ctxAt_modCtx]
      split
      · next hcd =>
        subst hcd
        cases x with
        | item i n v =>
          have hi : i ≠ 0x13 := fun h => hxs _ List.mem_cons_self n v (by rw [h])
          simp only [stagedReg] at hreg
          split_ifs at hreg
          obtain ⟨p, -, hp⟩ := Option.map_eq_some_iff.mp hreg
          obtain ⟨-, rfl⟩ := Prod.mk.inj hp
          exact regSet_relocHbm hi _ _ _
        | _ => exact nomatch hreg
      · rfl

theorem regsWith_congr {s u : State} (h : u.ctxs = s.ctxs) (xs : List Staged) : (regsWith xs u).ctxs = (regsWith xs s).ctxs := by
  induction xs generalizing s u with
  | nil => exact h
  | cons x xs ih =>
    rw [regsWith_cons, regsWith_cons]
    split
    · exact ih h
    · refine ih ?_
      rw [modCtx, modCtx, ctxAt, ctxAt, h]

theorem regOf_congr {s u : State} (h : u.ctxs = s.ctxs) (i c n : Nat) : regOf u i c n = regOf s i c n := by
  simp only [regOf, relocWs, relocAs, relocPs, relocHbm, ctxAt, h]

theorem relocFits_congr {s u : State} (h : u.ctxs = s.ctxs) (i c n v : Nat) : relocFits u i c n v = relocFits s i c n v := by
  simp only [relocFits, regOf_congr h]

theorem syncFits_congr {s u : State} (h : u.ctxs = s.ctxs) (i c n v : Nat) : syncFits u i c n v = syncFits s i c n v := by
  have has : relocAs u c n = relocAs s c n := by rw [relocAs, relocAs, ctxAt, ctxAt, h]
  have hhbm : relocHbm u c = relocHbm s c := by rw [relocHbm, relocHbm, ctxAt, ctxAt, h]
  unfold syncFits
  rw [has, hhbm]

theorem blockFits_congr {s u : State} (h : u.ctxs = s.ctxs) (c : Nat) (bs : List Byte) : blockFits u c bs = blockFits s c bs := by
  have hregs := regsWith_congr h (blockItems c bs)
  simp only [blockFits, relocFits_congr hregs, syncFits_congr hregs]

/-! ### A context is created (R434) -/

/-- A new context: IDLE, with the block's registers, page tables that are empty, and no RUN. -/
structure Created (c : Nat) (bs : List Byte) (t : State) : Prop where
  st      : (ctxAt t c).st = .idle
  seed    : (ctxAt t c).srSeed = BitVec.ofNat 64 (leNat (bs.take 8))
  trap    : (ctxAt t c).trap = BitVec.ofNat 6 (leNat ((bs.drop 8).take 4))
  hbm     : (ctxAt t c).relocHbm = BitVec.ofNat 64 (leNat ((bs.drop 0x10).take 8))
  tables  : (ctxAt t c).tables = []
  runPend : (ctxAt t c).runPend = none
  ending  : (ctxAt t c).ending = false

theorem Created.congr {c : Nat} {bs : List Byte} {s t : State} (h : Created c bs s) (hctx : ctxAt t c = ctxAt s c) : Created c bs t :=
  ⟨hctx ▸ h.st, hctx ▸ h.seed, hctx ▸ h.trap, hctx ▸ h.hbm, hctx ▸ h.tables, hctx ▸ h.runPend, hctx ▸ h.ending⟩

/-- A context as CTX_CREATE leaves it before its registers are set. -/
def newCtx (bs : List Byte) : Ctx := { Ctx.reset with
  st := .idle, srSeed := BitVec.ofNat 64 (leNat (bs.take 8)), trap := BitVec.ofNat 6 (leNat ((bs.drop 8).take 4)) }

theorem createEffect_eq (c : Nat) (bs : List Byte) (s : State) :
    createEffect c bs s = regsWith (blockItems c bs) (emptyTables c (modCtx c (fun _ => newCtx bs) s)) := rfl

theorem ctxAt_emptyTables (c : Nat) (s : State) : ctxAt (emptyTables c s) c = { ctxAt s c with tables := [] } := by
  unfold emptyTables
  rw [ctxAt_modCtx, if_pos rfl]
  rfl

/-- The block's registers: the context's HBM range, then others. -/
theorem blockItems_cons (c : Nat) (bs : List Byte) : ∃ xs,
    blockItems c bs = .item 0x13 c (BitVec.ofNat 64 (leNat ((bs.drop 0x10).take 8))) :: xs ∧ ∀ x ∈ xs, ∀ n v, x ≠ .item 0x13 n v := by
  simp only [blockItems, List.cons_append, List.nil_append]
  refine ⟨_, rfl, fun x hx n v => ?_⟩
  simp only [List.mem_cons, List.mem_flatMap, List.not_mem_nil, or_false] at hx
  obtain rfl | ⟨h, -, rfl | rfl | rfl | rfl⟩ := hx <;> simp

theorem createEffect_creates {c : Nat} (hsoft : 1 ≤ c ∧ c ≤ 15) (bs : List Byte) (s : State) : Created c bs (createEffect c bs s) := by
  have hnew : ctxAt (emptyTables c (modCtx c (fun _ => newCtx bs) s)) c = { newCtx bs with tables := [] } := by
    rw [ctxAt_emptyTables, ctxAt_modCtx, if_pos rfl]
  have hbase := ctxBase_regsWith (blockItems c bs) (emptyTables c (modCtx c (fun _ => newCtx bs) s)) c
  rw [hnew, ← createEffect_eq] at hbase
  have hhbm : (ctxAt (createEffect c bs s) c).relocHbm = BitVec.ofNat 64 (leNat ((bs.drop 0x10).take 8)) := by
    obtain ⟨xs, hitems, hxs⟩ := blockItems_cons c bs
    have hloc : itemLoc 0x13 c = some (c, 0) := by simp [itemLoc, hsoft.1, hsoft.2]
    rw [createEffect_eq, hitems, regsWith_cons]
    simp only [stagedReg, hloc]
    change (ctxAt (regsWith xs (modCtx c (regSet 0x13 0 _) _)) c).relocHbm = _
    rw [relocHbm_regsWith hxs, ctxAt_modCtx, if_pos rfl]
    rfl
  simp only [ctxBase, Prod.mk.injEq] at hbase
  obtain ⟨hst, hseed, htrap, htables, hrun, hending⟩ := hbase
  exact ⟨hst, hseed, htrap, hhbm, htables, hrun, hending⟩

theorem createEffect_rest (c : Nat) (bs : List Byte) (s : State) : (createEffect c bs s).waits = s.waits ∧
    (createEffect c bs s).hoops = s.hoops := by
  obtain ⟨m, hm⟩ := regsWith_rest (blockItems c bs) (emptyTables c (modCtx c (fun _ => newCtx bs) s))
  rw [createEffect_eq, hm]
  exact ⟨rfl, rfl⟩

/-! ### The boundary -/

/-- A command of a ring that alone waits, and is not told ACCEPTED, ends. -/
theorem finish_alone {w : Wait} {p r : Nat} {st : Status} {result : Nat} {s : State} (hwaits : s.waits = [w])
    (horigin : w.origin = .ring p r) (haccepted : w.accepted = false) :
    (finish w.seq st result s).waits = [] ∧ (finish w.seq st result s).ctxs = s.ctxs ∧ (finish w.seq st result s).hoops = s.hoops := by
  have hfind : (s.waits.find? fun x => decide (x.seq = w.seq)) = some w := by
    rw [hwaits]
    simp
  unfold finish
  rw [hfind]
  dsimp only
  rw [if_neg (by rw [haccepted]; exact Bool.false_ne_true), horigin, post_ring_eq]
  refine ⟨?_, rfl, rfl⟩
  change (eraseFirst (fun x => decide (x.seq = w.seq)) s.waits).map _ = []
  rw [hwaits, eraseFirst, if_pos (decide_eq_true rfl)]
  rfl

/-- Where no count is announced, the boundary's count and beacon keep what waits, contexts and Hoops. -/
theorem masterBeacon_nextCount {s : State} (hplaced : s.stitch.placed = none) :
    (masterBeacon (nextCount s)).waits = s.waits ∧ (masterBeacon (nextCount s)).ctxs = s.ctxs ∧
      (masterBeacon (nextCount s)).hoops = s.hoops := by
  have hcount : nextCount s = { s with stitch := { s.stitch with count := s.stitch.count + 1 } } := by
    unfold nextCount
    dsimp only
    rw [hplaced]
  have hbeacon : ∀ {α : Type} (g : State → α), (∀ u, g (linksOff u) = g u) → ∀ u, g (masterBeacon u) = g u := fun g hg u => by
    unfold masterBeacon sendBeacon
    dsimp only
    split
    · rfl
    · exact foldl_keeps g _ (fun v q => enqueue_keeps g _ v hg) _ _
  rw [hbeacon State.waits (fun _ => rfl), hbeacon State.ctxs (fun _ => rfl), hbeacon State.hoops (fun _ => rfl), hcount]
  exact ⟨rfl, rfl, rfl⟩

/-- Without loads none commits at the boundary. -/
theorem boundaryLoads_idle {s : State} (hloads : ∀ h < 8, (hoopAt s h).loads = []) :
    each (List.range 8) (fun h s => boundaryLoads h (loadsOf s h).length s) s = s := by
  refine List.foldlRecOn (motive := fun t => t = s) (List.range 8) _ rfl fun t ht h hh => ?_
  rw [ht]
  change boundaryLoads h (hoopAt s h).loads.length s = s
  rw [hloads h (List.mem_range.mp hh)]
  rfl

theorem countRun_keeps {α : Type} (g : State → α) (hctx : ∀ c f u, g (modCtx c f u) = g u) (c : Nat) (s : State) :
    g (countRun c s) = g s := by
  unfold countRun
  dsimp only
  split
  · exact hctx _ _ _
  · rfl

theorem startRun_keeps {α : Type} (g : State → α) (hctx : ∀ c f u, g (modCtx c f u) = g u) (htouch : ∀ is u, g (touch is u) = g u)
    (c : Nat) (s : State) : g (startRun c s) = g s := by
  unfold startRun
  dsimp only
  split
  · rfl
  · split
    · rfl
    · rw [hctx]
      split
      · rfl
      · exact htouch _ _

theorem runCounts_keeps {α : Type} (g : State → α) (hctx : ∀ c f u, g (modCtx c f u) = g u) (htouch : ∀ is u, g (touch is u) = g u)
    (s : State) : g (runCounts s) = g s := by
  unfold runCounts
  rw [settleIdle_keeps g hctx, foldl_keeps g _ fun u c => startRun_keeps g hctx htouch c u,
    foldl_keeps g _ fun u c => countRun_keeps g hctx c u]

/-- An IDLE context without a pending RUN, and with none that ends, is as it was after the RUN counts. -/
theorem ctxAt_runCounts_idle {c : Nat} {s : State} (hst : (ctxAt s c).st = .idle) (hrun : (ctxAt s c).runPend = none)
    (hending : (ctxAt s c).ending = false) : ctxAt (runCounts s) c = ctxAt s c := by
  have hcount : ctxAt (softCtxs.foldl (fun s c => countRun c s) s) c = ctxAt s c :=
    List.foldlRecOn (motive := fun t => ctxAt t c = ctxAt s c) softCtxs _ rfl fun t ht d _ => by
      unfold countRun
      dsimp only
      split
      · next hact _ =>
        refine (ctxAt_modCtx_other _ _ fun hcd => ?_).trans ht
        rw [← hcd, ht, hst] at hact
        exact nomatch hact
      · exact ht
  have hstart : ctxAt (softCtxs.foldl (fun s c => startRun c s) (softCtxs.foldl (fun s c => countRun c s) s)) c = ctxAt s c :=
    List.foldlRecOn (motive := fun t => ctxAt t c = ctxAt s c) softCtxs _ hcount fun t ht d _ => by
      unfold startRun
      dsimp only
      split
      · exact ht
      · next hpend =>
        have hcd : c ≠ d := by
          rintro rfl
          rw [ht, hrun] at hpend
          exact nomatch hpend
        split
        · exact ht
        · rw [ctxAt_modCtx_other _ _ hcd]
          split
          · exact ht
          · exact ht
  unfold runCounts
  refine List.foldlRecOn (motive := fun t => ctxAt t c = ctxAt s c) softCtxs _ hstart fun t ht d _ => ?_
  dsimp only
  split
  · next hact =>
    refine (ctxAt_modCtx_other _ _ fun hcd => ?_).trans ht
    rw [← hcd, ht, hending] at hact
    exact absurd hact Bool.false_ne_true
  · exact ht

/-- The end of a boundary, after what was due at it: loads, RUN counts and Rest. -/
def boundaryEnd (s : State) : State :=
  (List.range 8).foldl (fun s h => enterRest h s) (runCounts (each (List.range 8) (fun h s => boundaryLoads h (loadsOf s h).length s) s))

theorem enterRest_keeps {α : Type} (g : State → α) (hhoop : ∀ h f u, g (modHoop h f u) = g u) (h : Nat) (s : State) :
    g (enterRest h s) = g s := by
  unfold enterRest
  dsimp only
  split
  · exact hhoop _ _ _
  · rfl

/-- Without loads the boundary's end keeps what waits, and an IDLE context without RUN. -/
theorem boundaryEnd_idle {c : Nat} {bs : List Byte} {s : State} (hloads : ∀ h < 8, (hoopAt s h).loads = []) (hnew : Created c bs s) :
    (boundaryEnd s).waits = s.waits ∧ Created c bs (boundaryEnd s) := by
  unfold boundaryEnd
  rw [boundaryLoads_idle hloads]
  have hrest : ∀ {α : Type} (g : State → α), (∀ h f u, g (modHoop h f u) = g u) →
      g ((List.range 8).foldl (fun s h => enterRest h s) (runCounts s)) = g (runCounts s) := fun g hg =>
    foldl_keeps g _ (fun u h => enterRest_keeps g hg h u) _ _
  refine ⟨?_, hnew.congr ?_⟩
  · rw [hrest State.waits fun _ _ _ => rfl, runCounts_keeps State.waits (fun _ _ _ => rfl) fun _ _ => rfl]
  · rw [hrest (ctxAt · c) fun _ _ _ => rfl, ctxAt_runCounts_idle hnew.st hnew.runPend hnew.ending]

/-- A boundary at which the CTX_CREATE of a ring alone waits. -/
theorem boundary_creates {c : Nat} {bs : List Byte} {w : Wait} {p r : Nat} {s : State} (hsoft : 1 ≤ c ∧ c ≤ 15)
    (hstitch : stitching s = true) (hwaits : s.waits = [w]) (hwhat : w.what = .ctxCreate c bs) (horigin : w.origin = .ring p r)
    (haccepted : w.accepted = false) (hfits : blockFits s c bs = true) (hloads : ∀ h < 8, (hoopAt s h).loads = [])
    (hplaced : s.stitch.placed = none) : ∃ v, exec .stitchBoundary s = .next v ∧ v.waits = [] ∧ Created c bs v := by
  obtain ⟨hwaits1, hctxs1, hhoops1⟩ := masterBeacon_nextCount hplaced
  have hexec : exec .stitchBoundary s = .next (ctlPart s (boundaryEnd ((masterBeacon (nextCount s)).waits.foldl (fun s w => atBoundary w s)
      (masterBeacon (nextCount s))))) := by
    change execStitchBoundary s = _
    unfold execStitchBoundary
    rw [if_neg (by rw [hstitch]; exact Bool.false_ne_true)]
    rfl
  generalize masterBeacon (nextCount s) = u at hwaits1 hctxs1 hhoops1 hexec
  have hdue : atBoundary w u = finish w.seq .ok 0 (touch (ofCtx c) (createEffect c bs u)) := by
    unfold atBoundary
    rw [hwhat]
    dsimp only
    rw [if_pos ((blockFits_congr hctxs1 c bs).trans hfits)]
  rw [hwaits1, hwaits, List.foldl_cons, List.foldl_nil, hdue] at hexec
  obtain ⟨hwaits2, hhoops2⟩ := createEffect_rest c bs u
  have hcreated := createEffect_creates hsoft bs u
  generalize createEffect c bs u = x at hexec hwaits2 hhoops2 hcreated
  obtain ⟨hwaits3, hctxs3, hhoops3⟩ := finish_alone (s := touch (ofCtx c) x) (st := .ok) (result := 0)
    ((hwaits2.trans hwaits1).trans hwaits) horigin haccepted
  generalize finish w.seq .ok 0 (touch (ofCtx c) x) = y at hexec hwaits3 hctxs3 hhoops3
  have hloads3 : ∀ h < 8, (hoopAt y h).loads = [] := fun h hh => by
    rw [hoopAt, hhoops3]
    change (Tab.get Hoop.reset x.hoops h).loads = []
    rw [hhoops2, hhoops1]
    exact hloads h hh
  have hcreated3 : Created c bs y := hcreated.congr (congrArg (fun m => Tab.get Ctx.reset m c) hctxs3)
  obtain ⟨hwaits4, hcreated4⟩ := boundaryEnd_idle hloads3 hcreated3
  generalize boundaryEnd y = z at hexec hwaits4 hcreated4
  exact ⟨_, hexec, hwaits4.trans hwaits3, hcreated4.congr rfl⟩

theorem badCtx_soft {ctx : BitVec 8} (h : badCtx ctx = false) : 1 ≤ ctx.toNat ∧ ctx.toNat ≤ 15 := by
  obtain ⟨-, h15⟩ := Bool.or_eq_false_iff.mp h
  exact ⟨Nat.one_le_iff_ne_zero.mpr (badCtx_toNat_ne h).1, Nat.not_lt.mp (of_decide_eq_false h15)⟩

/-- CTX_CREATE of a FREE context that none creates already. -/
theorem ctxCreate_acts (h : Hdr) (ctx : BitVec 8) (param : BitVec 64) (bs : List Byte) (s : State) (hr : Untagged 2 h s)
    (hctx : badCtx ctx = false) (hbuf : bufBad h.port.val param 256 = false) (hread : bufRead h.port.val param 256 s = .ok bs)
    (hfits : blockFits s ctx.toNat bs = true) (hfree : ctxSt s ctx.toNat = .free)
    (halone : ∀ w ∈ s.waits, ∀ b, w.what ≠ .ctxCreate ctx.toNat b) :
    Defers (exec (.ctxCreate h ctx param) s) h 0x10 (.ctxCreate ctx.toNat bs) s fun t => t.ctxs = s.ctxs ∧ t.mem = s.mem ∧
      (stitching s = true → s.waits = [] → (∀ h < 8, (hoopAt s h).loads = []) → s.stitch.placed = none →
        ∃ v, exec .stitchBoundary t = .next v ∧ v.waits = [] ∧ (ctxAt v ctx.toNat).st = .idle ∧
          (ctxAt v ctx.toNat).srSeed = BitVec.ofNat 64 (leNat (bs.take 8)) ∧
          (ctxAt v ctx.toNat).trap = BitVec.ofNat 6 (leNat ((bs.drop 8).take 4)) ∧
          (ctxAt v ctx.toNat).relocHbm = BitVec.ofNat 64 (leNat ((bs.drop 0x10).take 8)) ∧ (ctxAt v ctx.toNat).tables = []) := by
  have hargs : (cmdCtxCreate ctx param).badArgs (cmdEnv h s) s = false := by
    change (badCtx ctx || bufBad h.port.val param 256 || match bufRead h.port.val param 256 s with
      | .ok bs => !blockFits s ctx.toNat bs
      | .error _ => false) = false
    rw [hctx, hbuf, hread]
    dsimp only
    rw [hfits]
    rfl
  have hrun : (cmdCtxCreate ctx param).run (cmdEnv h s) (taken h 0x10 s) = .later (.ctxCreate ctx.toNat bs) (taken h 0x10 s) := by
    have hnone : ((taken h 0x10 s).waits.any fun w => match w.what with | .ctxCreate d _ => decide (d = ctx.toNat) | _ => false) = false := by
      refine List.any_eq_false.mpr fun w hw => ?_
      have hne := halone w hw
      split
      · next d b hwhat =>
        rw [decide_eq_true_eq]
        rintro rfl
        exact hne b hwhat
      · exact Bool.false_ne_true
    have hisFree : isFree (taken h 0x10 s) ctx.toNat = true := by
      rw [isFree, ctxSt_same (samePlaces_taken h 0x10 s)]
      exact decide_eq_true hfree
    refine (if_neg (by rw [hisFree]; exact fun h => absurd (hnone.symm.trans h) Bool.false_ne_true)).trans ?_
    change withBuf h.port.val param 256 (taken h 0x10 s) _ = _
    rw [withBuf, bufRead_taken hread]
  obtain ⟨t, hnext, hwaits, ht⟩ := untagged_later (c := cmdCtxCreate ctx param) hr rfl hargs hrun rfl rfl rfl rfl
  have hwait := hwaits.wait
  refine ⟨t, hnext, hwaits, by rw [ht]; rfl, by rw [ht]; rfl, fun hstitch hnone hloads hplaced => ?_⟩
  rw [hnone, List.nil_append] at hwait
  obtain ⟨v, hv, hended, hnew⟩ := boundary_creates (s := t) (badCtx_soft hctx) (by rw [ht]; exact hstitch) hwait rfl rfl rfl
    ((blockFits_congr (by rw [ht]; rfl) _ _).trans hfits) (by rw [ht]; exact hloads) (by rw [ht]; exact hplaced)
  exact ⟨v, hv, hended, hnew.st, hnew.seed, hnew.trap, hnew.hbm, hnew.tables⟩

/-- Settles O3: each command is taken by its own lemma, CTX_CREATE acts at the boundary, and HALT and CONTEXT_TEARDOWN are tear-downs of
one context after another. -/
theorem contextsRunHaltAndTearDown : Obligations.ContextsRunHaltAndTearDown := by
  unfold Obligations.ContextsRunHaltAndTearDown
  exact ⟨⟨ctxCreate_acts, run_acts, evictContext_acts, scanIn_acts⟩, halt_one, halt_all, halt_idle, contextTeardown_tears⟩

end Sys2Proof.Machine
end

section
/-! CTX_DESTROY and the RESETs (R327, R504), and the scans of a context (R320, R321). -/

namespace Sys2Proof.Machine

/-! ### A context is unloaded from the Hoops (R327) -/

theorem Tab.get_map_fixed {β : Type} {d : β} {f : β → β} (hf : f d = d) (m : Tab β) (k : Nat) :
    Tab.get d (m.map fun p => (p.1, f p.2)) k = f (Tab.get d m k) := by
  induction m with
  | nil => exact hf.symm
  | cons p m ih =>
    simp only [List.map_cons, Tab.get]
    split
    · rfl
    · exact ih

/-- What the same change of Hoops one after another makes true of each. -/
theorem hoopAt_each_gains {P : Hoop → Prop} {f : Hoop → Hoop} (hf : ∀ x, P (f x)) {hs : List Nat} {h : Nat} (hh : h ∈ hs) (s : State) :
    P (hoopAt (hs.foldl (fun s h => modHoop h f s) s) h) := by
  have hkeeps : ∀ (hs : List Nat) (s : State), P (hoopAt s h) → P (hoopAt (hs.foldl (fun s h => modHoop h f s) s) h) := fun hs s hP =>
    List.foldlRecOn (motive := fun t => P (hoopAt t h)) hs _ hP fun t ht j _ => by
      rw [hoopAt_modHoop]
      split
      · exact hf _
      · exact ht
  induction hs generalizing s with
  | nil => exact absurd hh List.not_mem_nil
  | cons j hs ih =>
    rw [List.foldl_cons]
    obtain rfl | hh := List.mem_cons.mp hh
    · exact hkeeps hs _ (by rw [hoopAt_modHoop_same]; exact hf _)
    · exact ih hh _

/-- What a change of Hoops keeps of each. -/
theorem hoopAt_each_keeps {P : Hoop → Prop} {f : Hoop → Hoop} (hf : ∀ x, P x → P (f x)) (hs : List Nat) {h : Nat} {s : State}
    (hP : P (hoopAt s h)) : P (hoopAt (hs.foldl (fun s h => modHoop h f s) s) h) :=
  List.foldlRecOn (motive := fun t => P (hoopAt t h)) hs _ hP fun t ht j _ => by
    rw [hoopAt_modHoop]
    split
    · next hj => exact hf _ (hj ▸ ht)
    · exact ht

/-- No run of a Hoop is of context c. -/
def NoRuns (c : Nat) (x : Hoop) : Prop := ∀ r ∈ x.runs, r.ctx ≠ c

/-- No column of a Hoop records context c. -/
def NoColumns (c : Nat) (x : Hoop) : Prop := ∀ p ∈ x.motifs, p.2.1 ≠ c

/-- No entry of a Hoop's table names context c. -/
def NoEntries (c : Nat) (x : Hoop) : Prop := ∀ p ∈ x.table, enCtx p.2.toNat ≠ c

/-- No Hoop has anything of context c left. -/
def HoopsClear (c : Nat) (s : State) : Prop :=
  ∀ h < 8, NoRuns c (hoopAt s h) ∧ NoColumns c (hoopAt s h) ∧ NoEntries c (hoopAt s h)

/-- What unloading does to a Hoop. -/
def unloadHoop (c : Nat) (x : Hoop) : Hoop := { x with
  discard := x.discard.filter fun p => (Tab.get (0, 0) x.motifs (p.1 / 256)).1 ≠ c
  motifs := x.motifs.filter fun p => p.2.1 ≠ c }

theorem touch_hoops (is : Setting → Bool) (s : State) : (touch is s).hoops = s.hoops := rfl

theorem unloadColumns_eq (c : Nat) (s : State) : ∃ u, u.hoops = s.hoops ∧
    unloadColumns c s = (List.range 8).foldl (fun s h => modHoop h (unloadHoop c) s) u := by
  unfold unloadColumns
  dsimp only
  refine ⟨_, ?_, rfl⟩
  refine (touch_hoops _ _).trans (foldl_keeps State.hoops _ ?_ _ _)
  exact fun _ _ => rfl

theorem dropEntries_eq (c : Nat) (s : State) : ∃ u, u.hoops = s.hoops ∧ dropEntries c s =
    (List.range 8).foldl (fun s h => modHoop h (fun x => { x with table := x.table.filter fun p => enCtx p.2.toNat ≠ c }) s) u :=
  ⟨touch (entriesOf s c) s, rfl, rfl⟩

theorem hoopAt_congr {s t : State} (h : t.hoops = s.hoops) (j : Nat) : hoopAt t j = hoopAt s j :=
  congrArg (fun m => Tab.get Hoop.reset m j) h

def endRunsOn (c : Nat) (x : Hoop) : Hoop := { x with runs := x.runs.filter fun r => r.ctx ≠ c }

/-- The runs of a context leave every Hoop. -/
def endRuns (c : Nat) (s : State) : State := { s with hoops := s.hoops.map fun p => (p.1, endRunsOn c p.2) }

theorem endRuns_noRuns (c : Nat) (s : State) (h : Nat) : NoRuns c (hoopAt (endRuns c s) h) := by
  have hhoop : hoopAt (endRuns c s) h = endRunsOn c (hoopAt s h) := Tab.get_map_fixed (f := endRunsOn c) rfl s.hoops h
  rw [hhoop]
  exact fun r hr => of_decide_eq_true (List.mem_filter.mp hr).2

theorem hoopsClear_unloaded (c : Nat) (s : State) : HoopsClear c (dropEntries c (unloadColumns c (endRuns c s))) := by
  intro h hh
  have hmem := List.mem_range.mpr hh
  obtain ⟨u, hu, hunload⟩ := unloadColumns_eq c (endRuns c s)
  obtain ⟨v, hv, hdrop⟩ := dropEntries_eq c (unloadColumns c (endRuns c s))
  have hruns : NoRuns c (hoopAt v h) := by
    rw [hoopAt_congr hv, hunload]
    exact hoopAt_each_keeps (f := unloadHoop c) (fun _ hx => hx) _ (by rw [hoopAt_congr hu]; exact endRuns_noRuns c s h)
  have hcolumns : NoColumns c (hoopAt v h) := by
    rw [hoopAt_congr hv, hunload]
    exact hoopAt_each_gains (P := NoColumns c) (f := unloadHoop c) (fun _ p hp => of_decide_eq_true (List.mem_filter.mp hp).2) hmem u
  rw [hdrop]
  refine ⟨hoopAt_each_keeps ?_ _ hruns, hoopAt_each_keeps ?_ _ hcolumns, hoopAt_each_gains ?_ hmem v⟩
  · exact fun _ hx => hx
  · exact fun _ hx => hx
  · exact fun _ p hp => of_decide_eq_true (List.mem_filter.mp hp).2

/-! ### RESET of a context and CTX_DESTROY (R327) -/

theorem resetEffect_eq (c : Nat) (s : State) : ∃ u, resetEffect c s = modCtx c (fun x => { x with
    st := .idle, latched := none, flags := 0, images := [], scanned := [], captured := [], runPend := none
    runLeft := some 0, ending := false, evictEnd := false }) { u with chans := u.chans.filter fun p => p.2.ctx ≠ c } ∧ HoopsClear c u :=
  ⟨dropEntries c (unloadColumns c (endRuns c ((List.range 8).foldl (fun s h => abortLoads h (fun l => l.ctx = c) s) s))), rfl,
    hoopsClear_unloaded c _⟩

theorem unloaded_of {c : Nat} {t : State} (himages : (ctxAt t c).images = []) (hchans : ∀ p ∈ t.chans, p.2.ctx ≠ c)
    (hhoops : HoopsClear c t) :
    Unloaded c t :=
  ⟨himages, hchans, fun h hh => (hhoops h hh).1, fun h hh => (hhoops h hh).2.2, fun h hh => (hhoops h hh).2.1⟩

theorem resetEffect_unloads (c : Nat) (s : State) : (ctxAt (resetEffect c s) c).st = .idle ∧
    (ctxAt (resetEffect c s) c).latched = none ∧
    (ctxAt (resetEffect c s) c).flags = 0 ∧ Unloaded c (resetEffect c s) := by
  obtain ⟨u, heq, hclear⟩ := resetEffect_eq c s
  rw [heq]
  refine ⟨?_, ?_, ?_, unloaded_of ?_ (fun p hp => of_decide_eq_true (List.mem_filter.mp hp).2) hclear⟩
  all_goals rw [ctxAt_modCtx, if_pos rfl]

theorem dropSubs_keeps {α : Type} (g : State → α)
    (hg : ∀ h (m : Hoop → Tab (BitVec 128)) u, g (modHoop h (fun x => { x with subs := m x }) u) = g u) (c : Nat)
    (s : State) : g (dropSubs c s) = g s :=
  foldl_keeps g _ (fun u h => foldl_keeps g _ (fun v i => by
    split
    · exact hg _ _ _
    · rfl) _ u) _ s

theorem unloaded_dropSubs {c : Nat} {s : State} (h : Unloaded c s) : Unloaded c (dropSubs c s) := by
  have hctx : ctxAt (dropSubs c s) c = ctxAt s c := dropSubs_keeps (ctxAt · c) (fun _ _ _ => rfl) c s
  have hchans : (dropSubs c s).chans = s.chans := dropSubs_keeps State.chans (fun _ _ _ => rfl) c s
  have hhoops : ∀ j, ((hoopAt (dropSubs c s) j).runs, (hoopAt (dropSubs c s) j).table, (hoopAt (dropSubs c s) j).motifs) =
      ((hoopAt s j).runs, (hoopAt s j).table, (hoopAt s j).motifs) := fun j =>
    dropSubs_keeps (fun s => ((hoopAt s j).runs, (hoopAt s j).table, (hoopAt s j).motifs)) (fun h m u => by
      rw [hoopAt_modHoop]
      split
      · next hj => rw [hj]
      · rfl) c s
  simp only [Prod.mk.injEq] at hhoops
  refine ⟨?_, ?_, fun j hj => ?_, fun j hj => ?_, fun j hj => ?_⟩
  · rw [hctx]; exact h.images
  · rw [hchans]; exact h.chans
  · rw [(hhoops j).1]; exact h.runs j hj
  · rw [(hhoops j).2.1]; exact h.entries j hj
  · rw [(hhoops j).2.2]; exact h.columns j hj

/-- A context that CTX_DESTROY has freed. -/
structure Freed (c : Nat) (t : State) : Prop where
  st       : (ctxAt t c).st = .free
  latched  : (ctxAt t c).latched = none
  ws       : (ctxAt t c).relocWs = []
  as       : (ctxAt t c).relocAs = []
  ps       : (ctxAt t c).relocPs = []
  hbm      : (ctxAt t c).relocHbm = 0
  unloaded : Unloaded c t
  pricks   : ∀ p ∈ t.pricks, p.ctx ≠ c

/-- The prickings of a context are freed. -/
def unprick (c : Nat) (s : State) : State := { s with pricks := s.pricks.filter fun p => p.ctx ≠ c }

/-- The registers of a context that is freed. -/
def freedCtx (x : Ctx) : Ctx := { x with
  st := .free, trap := 0, relocWs := [], relocAs := [], relocPs := [], relocHbm := 0, syncAs := [], syncHbm := 0, dn := [], dnStep := 0 }

theorem destroyEffect_eq (c : Nat) (s : State) : destroyEffect c s = modCtx c freedCtx (dropSubs c (unprick c (resetEffect c s))) := by
  unfold destroyEffect
  generalize resetEffect c s = u
  rfl

theorem unloaded_unprick {c : Nat} {s : State} (h : Unloaded c s) : Unloaded c (unprick c s) :=
  ⟨h.images, h.chans, h.runs, h.entries, h.columns⟩

theorem dropSubs_pricks (c : Nat) (s : State) : (dropSubs c s).pricks = s.pricks := dropSubs_keeps State.pricks (fun _ _ _ => rfl) c s

theorem ctxAt_dropSubs (c d : Nat) (s : State) : ctxAt (dropSubs c s) d = ctxAt s d := dropSubs_keeps (ctxAt · d) (fun _ _ _ => rfl) c s

theorem freed_of {c : Nat} {s : State} (hlatched : (ctxAt s c).latched = none) (h : Unloaded c s)
    (hpricks : ∀ p ∈ s.pricks, p.ctx ≠ c) :
    Freed c (modCtx c freedCtx s) := by
  have hctx : ctxAt (modCtx c freedCtx s) c = freedCtx (ctxAt s c) := by rw [ctxAt_modCtx, if_pos rfl]
  refine ⟨?_, ?_, ?_, ?_, ?_, ?_, ⟨?_, h.chans, h.runs, h.entries, h.columns⟩, hpricks⟩
  all_goals rw [hctx]
  · rfl
  · exact hlatched
  · rfl
  · rfl
  · rfl
  · rfl
  · exact h.images

theorem destroyEffect_frees (c : Nat) (s : State) : Freed c (destroyEffect c s) := by
  obtain ⟨-, hlatched, -, hunloaded⟩ := resetEffect_unloads c s
  rw [destroyEffect_eq]
  generalize resetEffect c s = u at hlatched hunloaded
  refine freed_of ?_ (unloaded_dropSubs (unloaded_unprick hunloaded)) fun p hp => ?_
  · rw [ctxAt_dropSubs]
    exact hlatched
  · rw [dropSubs_pricks] at hp
    exact of_decide_eq_true (List.mem_filter.mp hp).2

/-- A context without a sweep has none once it has stopped. -/
theorem quiesce_sweep {c : Nat} {s : State} (h : (sweepAt s c).st = .none) : (sweepAt (quiesce c s) c).st = .none := by
  unfold quiesce
  split
  · next l hl =>
    split
    · exact h
    · next hdone => exact (tearDown_tears (scan := false) hl (Bool.eq_false_of_not_eq_true hdone)).sweep h
  · have hstop : Stopping c [] s (stopContext c causeCommand false (endEviction c s)) :=
      ((Stopping.refl c [] s).endEviction).stopContext causeCommand false
    generalize stopContext c causeCommand false (endEviction c s) = t at hstop
    exact (hstop.goesOn c).sweep h

/-- A reset of a context without a sweep completes at once. -/
theorem resetRun_done {c : Nat} {s : State} (destroy : Bool) (h : (sweepAt s c).st = .none) :
    resetRun destroy c s = .done .ok 0 (settleReset destroy c (quiesce c s)) := by
  have hsweep := quiesce_sweep h
  unfold resetRun
  generalize quiesce c s = u at hsweep
  exact if_pos hsweep

theorem settleReset_destroy (c : Nat) (s : State) : settleReset true c s = touch (ofCtx c) (destroyEffect c s) := by
  unfold settleReset
  generalize destroyEffect c s = u
  rfl

theorem settleReset_reset (c : Nat) (s : State) : settleReset false c s = touch (ofCtx c) (resetEffect c s) := by
  unfold settleReset
  generalize resetEffect c s = u
  rfl

theorem Unloaded.ended {c : Nat} {u : State} (h : Unloaded c u) (is : Setting → Bool) (s t : State) :
    Unloaded c (endedIn s (touch is u) t) :=
  ⟨h.images, h.chans, h.runs, h.entries, h.columns⟩

theorem Freed.ended {c : Nat} {u : State} (h : Freed c u) (is : Setting → Bool) (s t : State) : Freed c (endedIn s (touch is u) t) :=
  ⟨h.st, h.latched, h.ws, h.as, h.ps, h.hbm, h.unloaded.ended is s t, h.pricks⟩

theorem cmdCtxDestroy_run {h : Hdr} {ctx : BitVec 8} {s : State} (hst : ctxSt s ctx.toNat ∈ [CtxState.idle, .evicted, .faulted])
    (hsweep : (sweepAt s ctx.toNat).st = .none) : (cmdCtxDestroy ctx).run (cmdEnv h s) (taken h 0x11 s) =
      .done .ok 0 (settleReset true ctx.toNat (quiesce ctx.toNat (taken h 0x11 s))) := by
  rw [← resetRun_done true (s := taken h 0x11 s) hsweep]
  refine if_pos ?_
  rw [ctxSt_same (samePlaces_taken h 0x11 s)]
  exact List.contains_iff_mem.mpr hst

theorem ctxDestroy_frees (h : Hdr) (ctx : BitVec 8) (s : State) (hr : Untagged 2 h s) (hctx : badCtx ctx = false)
    (hst : ctxSt s ctx.toNat ∈ [CtxState.idle, .evicted, .faulted]) (hsweep : (sweepAt s ctx.toNat).st = .none) :
    ∃ t, exec (.ctxDestroy h ctx) s = .next t ∧ (ctxAt t ctx.toNat).st = .free ∧ (ctxAt t ctx.toNat).latched = none ∧
      (ctxAt t ctx.toNat).relocWs = [] ∧ (ctxAt t ctx.toNat).relocAs = [] ∧ (ctxAt t ctx.toNat).relocPs = [] ∧
      (ctxAt t ctx.toNat).relocHbm = 0 ∧ Unloaded ctx.toNat t ∧ ∀ p ∈ t.pricks, p.ctx ≠ ctx.toNat := by
  have hrun := cmdCtxDestroy_run (h := h) hst hsweep
  obtain ⟨t, ht⟩ := untagged_ends (c := cmdCtxDestroy ctx) rfl hr rfl hctx hrun
  have hfreed := destroyEffect_frees ctx.toNat (quiesce ctx.toNat (taken h 0x11 s))
  rw [settleReset_destroy] at ht
  generalize destroyEffect ctx.toNat (quiesce ctx.toNat (taken h 0x11 s)) = u at hfreed ht
  have hended := hfreed.ended (ofCtx ctx.toNat) s t
  exact ⟨_, ht, hended.st, hended.latched, hended.ws, hended.as, hended.ps, hended.hbm, hended.unloaded, hended.pricks⟩

theorem resetContext_unloads (h : Hdr) (target : BitVec 8) (s : State) (hr : Untagged 1 h s) (htarget : badCtx target = false)
    (hst : ctxSt s target.toNat ≠ .free) (hsweep : (sweepAt s target.toNat).st = .none) :
    ∃ t, exec (.resetContext h target) s = .next t ∧ (ctxAt t target.toNat).st = .idle ∧
      (ctxAt t target.toNat).latched = none ∧ (ctxAt t target.toNat).flags = 0 ∧ Unloaded target.toNat t := by
  have hrun : (cmdResetContext target).run (cmdEnv h s) (taken h 0x70 s) =
      .done .ok 0 (settleReset false target.toNat (quiesce target.toNat (taken h 0x70 s))) := by
    rw [← resetRun_done false (s := taken h 0x70 s) hsweep]
    exact if_neg (by rw [isFree_taken 0x70 hst]; exact Bool.false_ne_true)
  obtain ⟨t, ht⟩ := untagged_ends (c := cmdResetContext target) rfl hr rfl htarget hrun
  obtain ⟨hidle, hlatched, hflags, hunloaded⟩ := resetEffect_unloads target.toNat (quiesce target.toNat (taken h 0x70 s))
  rw [settleReset_reset] at ht
  generalize resetEffect target.toNat (quiesce target.toNat (taken h 0x70 s)) = u at ht hidle hlatched hflags hunloaded
  exact ⟨_, ht, hidle, hlatched, hflags, hunloaded.ended _ s t⟩

/-! ### RESET of a Hoop (R504) -/

theorem writeCodewords_keeps {α : Type} (g : State → α) (hreport : ∀ a u, g (ueFound a u) = g u)
    (hpoke : ∀ a bs u, g (poke u a bs) = g u)
    (pa : Nat) (bs : List Byte) (s : State) : g (writeCodewords ueFound pa bs s) = g s :=
  foldl_keeps g _ (fun u p => by
    split
    · exact hreport _ _
    · exact hpoke _ _ _) _ _

theorem hoopAt_ueFound (pa : Nat) (s : State) (h : Nat) : hoopAt (ueFound pa s) h = hoopAt s h := by
  rcases hst : storeOf pa with ⟨a, b, c⟩
  rw [ueFound, hst]
  exact (hoopAt_logEntry _ _ _ _ _ _ _ _).trans (hoopAt_raise _ _ _ _ _)

theorem tileAt_ueFound (pa : Nat) (s : State) (k : Nat) : tileAt (ueFound pa s) k = tileAt s k := by
  rcases hst : storeOf pa with ⟨a, b, c⟩
  rw [ueFound, hst]
  exact (tileAt_logEntry _ _ _ _ _ _ _ _).trans (tileAt_raise _ _ _ _ _)

/-- The writes that a Hoop held are done; else it keeps what it has. -/
theorem hoopAt_heldWrites (h : Nat) (s : State) : hoopAt (heldWrites h s) h = { hoopAt s h with held := [] } := by
  unfold heldWrites
  refine (foldl_keeps (hoopAt · h) _ (fun u (x : Nat × List Byte) =>
    writeCodewords_keeps (hoopAt · h) (fun a u => hoopAt_ueFound a u h) (fun _ _ _ => rfl) x.1 x.2 u) _ _).trans ?_
  rw [hoopAt_modHoop_same]

theorem tileAt_heldWrites (h : Nat) (s : State) (k : Nat) : tileAt (heldWrites h s) k = tileAt s k := by
  unfold heldWrites
  refine (foldl_keeps (tileAt · k) _ (fun u (x : Nat × List Byte) =>
    writeCodewords_keeps (tileAt · k) (fun a u => tileAt_ueFound a u k) (fun _ _ _ => rfl) x.1 x.2 u) _ _).trans ?_
  rw [tileAt_modHoop]

theorem tileAt_loseHoop {h k : Nat} (hk : noHoop k = h) (s : State) : tileAt (loseHoop h s) k = Tile.reset := by
  have htiles : tileAt (loseHoop h s) k = Tab.get Tile.reset (s.tiles.filter fun p => noHoop p.1 ≠ h) k := by
    unfold loseHoop
    rw [tileAt_modHoop]
    rfl
  rw [htiles, Tab.get_filter_key Tile.reset (fun k => decide (noHoop k ≠ h)), if_neg (by simp [hk])]

theorem hoopAt_loseHoop (h : Nat) (s : State) : (hoopAt (loseHoop h s) h).motifs = [] := by
  unfold loseHoop
  rw [hoopAt_modHoop_same]

theorem resetHoop_empties (h : Hdr) (target : BitVec 8) (s : State) (hr : Untagged 1 h s) (htarget : target.toNat ≤ 7) :
    ∃ t, exec (.resetHoop h target) s = .next t ∧ (hoopAt t target.toNat).runs = [] ∧ (hoopAt t target.toNat).loads = [] ∧
      (hoopAt t target.toNat).power = .on ∧ (hoopAt t target.toNat).motifs = [] ∧
      ∀ k, noHoop k = target.toNat → tileAt t k = Tile.reset := by
  obtain ⟨u, hrun⟩ : ∃ u, (cmdResetHoop target).run (cmdEnv h s) (taken h 0x70 s) = .done .ok 0 (heldWrites target.toNat
      (modHoop target.toNat (fun x => { x with power := .on, runs := [], loads := [] }) (loseHoop target.toNat u))) := ⟨_, rfl⟩
  obtain ⟨t, ht⟩ := untagged_ends (c := cmdResetHoop target) rfl hr rfl (decide_eq_false (Nat.not_lt.mpr htarget)) hrun
  refine ⟨_, ht, ?_⟩
  simp only [hoopAt_endedIn, tileAt_endedIn, hoopAt_heldWrites, hoopAt_modHoop_same, tileAt_heldWrites, tileAt_modHoop]
  exact ⟨trivial, trivial, trivial, hoopAt_loseHoop _ _, fun k hk => tileAt_loseHoop hk _⟩

/-! ### Scans (R320, R321) -/

/-- The regions of a context are emptied. -/
def emptyAll (rs : List (Nat × Nat × Nat × Nat)) (s : State) : State := rs.foldl (fun s (h, c0, c1, _) => emptyRegion h c0 c1 s) s

theorem scanOut_eq {c : Nat} {armed : Bool} {rs : List (Nat × Nat × Nat × Nat)} {s : State} (h : scanParity s rs = none) :
    scanOut c armed rs s = emptyAll rs (rs.foldl (fun s r => scanRegion c armed false r s) s) := by
  unfold scanOut
  rw [h]
  rfl

theorem ctxAt_emptyAll (rs : List (Nat × Nat × Nat × Nat)) (s : State) (c : Nat) : ctxAt (emptyAll rs s) c = ctxAt s c :=
  List.foldlRecOn (motive := fun t => ctxAt t c = ctxAt s c) rs _ rfl fun _ ht _ _ => (ctxAt_emptyRegion _ _ _ _ _).trans ht

/-- A queue that is empty stays so while regions are emptied. -/
theorem queues_emptyRegion_keeps {h c0 c1 k : Nat} {s : State} (hk : (tileAt s k).queues = []) :
    (tileAt (emptyRegion h c0 c1 s) k).queues = [] := by
  rw [emptyRegion, tileAt_modHoop, emptyQueues]
  rw [tileAt_modHoop]
  exact queues_emptied (.inr hk)

theorem queues_emptyAll {rs : List (Nat × Nat × Nat × Nat)} {r : Nat × Nat × Nat × Nat} {k : Nat} (hr : r ∈ rs)
    (hk : k ∈ regionTiles r.1 r.2.1 r.2.2.1) (s : State) : (tileAt (emptyAll rs s) k).queues = [] := by
  induction rs generalizing s with
  | nil => exact absurd hr List.not_mem_nil
  | cons x rs ih =>
    rw [emptyAll, List.foldl_cons]
    obtain rfl | hr := List.mem_cons.mp hr
    · exact List.foldlRecOn (motive := fun t => (tileAt t k).queues = []) rs _ (queues_emptyRegion hk s) fun t ht y _ =>
        queues_emptyRegion_keeps ht
    · exact ih hr _

theorem scanOut_empties (h : Hdr) (ctx : BitVec 8) (s : State) (hr : Untagged 2 h s) (hctx : badCtx ctx = false)
    (hst : ctxSt s ctx.toNat = .idle) :
    let rs := regionsOf s ctx.toNat
    let u := landAll rs (taken h 0x2B s)
    scanFits u rs = true → scanParity u rs = none →
    ∃ t, exec (.scanOut h ctx) s = .next t ∧
      (∀ r ∈ rs, ∀ k ∈ regionTiles r.1 r.2.1 r.2.2.1, (tileAt t k).queues = []) ∧
      (ctxAt t ctx.toNat).images = (ctxAt (rs.foldl (fun s r => scanRegion ctx.toNat false false r s) u) ctx.toNat).images := by
  intro rs u hfits hparity
  have hscan := scanOut_eq (c := ctx.toNat) (armed := false) hparity
  obtain ⟨st, hrun⟩ : ∃ st, (cmdScanOut ctx).run (cmdEnv h s) (taken h 0x2B s) = .done st 0 (scanOut ctx.toNat false rs u) := by
    refine ⟨_, (if_neg ?_).trans (if_neg ?_)⟩
    · rw [ctxSt_same (samePlaces_taken h 0x2B s), hst]
      exact not_not.mpr rfl
    · change ¬ (!scanFits u rs) = true
      rw [hfits]
      exact Bool.false_ne_true
  rw [hscan] at hrun
  obtain ⟨t, ht⟩ := untagged_ends (c := cmdScanOut ctx) rfl hr rfl hctx hrun
  refine ⟨_, ht, fun r hmem k hk => ?_, ?_⟩
  · rw [tileAt_endedIn]
    exact queues_emptyAll hmem hk _
  · rw [ctxAt_endedIn, ctxAt_emptyAll]

theorem evictionScan_empties (ctx : Fin 16) (s : State) (hst : (ctxAt s ctx.val).st = .evicting)
    (hlatched : (ctxAt s ctx.val).latched = none)
    (hend : (ctxAt s ctx.val).evictEnd = false) (hruns : runsOf s ctx.val = []) :
    let rs := regionsOf s ctx.val
    let u := landAll rs s
    scanFits u rs = true → scanParity u rs = none →
    ∃ t, exec (.evictionScan ctx) s = .next t ∧ (ctxAt t ctx.val).evictEnd = true ∧
      (∀ r ∈ rs, ∀ k ∈ regionTiles r.1 r.2.1 r.2.2.1, (tileAt t k).queues = []) := by
  intro rs u hfits hparity
  have hexec : exec (.evictionScan ctx) s =
      .next (ctlPart s (modCtx ctx.val (fun x => { x with evictEnd := true }) (scanOut ctx.val false rs u))) := by
    change execEvictionScan ctx s = _
    unfold execEvictionScan
    dsimp only
    rw [if_neg (by simp [hst, hlatched, hend, hruns]), if_neg (by rw [hfits]; exact Bool.false_ne_true)]
    rfl
  rw [scanOut_eq hparity] at hexec
  refine ⟨_, hexec, ?_, fun r hmem k hk => ?_⟩
  · rw [ctxAt_ctlPart, ctxAt_modCtx, if_pos rfl]
  · rw [tileAt_ctlPart, tileAt_modCtx]
    exact queues_emptyAll hmem hk _

/-- Settles O4: a reset ends in filters that leave nothing of its context, and a scan ends by emptying every region. -/
theorem resetsAndScansEmptyTheRegions : Obligations.ResetsAndScansEmptyTheRegions := by
  unfold Obligations.ResetsAndScansEmptyTheRegions
  exact ⟨⟨ctxDestroy_frees, resetContext_unloads, resetHoop_empties⟩, scanOut_empties, evictionScan_empties⟩

end Sys2Proof.Machine
end
